-- ==== Sys2Proof/Word.lean ====
section
/-! DEFINITION. The widths of the slice's data: bytes, lines, stored check words (spec/02_arrays_lasts_placement.md R69, R75). -/

namespace Sys2Proof

/-- A byte, the unit of addresses (spec/00_scope.md R11). -/
abbrev Byte := BitVec 8

/-- Bytes in ascending address order, as a message or record carries them. -/
abbrev Bytes := List Byte

/-- The 512 data bytes of a line, byte 0 in the low bits (R10, R69). -/
abbrev LineData := BitVec 4096

/-- One bit per byte of a line. -/
abbrev LineMask := BitVec 512

/-- A register of the CSR window, at most 64 bits (spec/17_register_map.md R594). -/
abbrev Word := BitVec 64

end Sys2Proof
end

