-- ==== Sys2Proof/Types.lean ====
section
/-! DEFINITION. The kinds of thing the slice's messages, lines, requests and records are made of (spec/01, 02, 06, 08, 12). -/

namespace Sys2Proof

/-- The ports of R14. -/
inductive Port where
  | blk | ctl | syn | hst | mem | tth | hdr
  deriving DecidableEq, Repr

/-- What a received message fails its byte parity in (R16, R450). -/
inductive Parity where
  | ok
  /-- The header, or the header sideband on BLK. -/
  | header
  /-- The payload only. -/
  | payload
  deriving DecidableEq, Repr

/-- How a GO, or the data of a read of the slice's own, arrives on HST (R16, R272, R450). -/
inductive Arrival where
  | ok
  /-- Its header fails byte parity. -/
  | header
  /-- Only its payload does; the requester ID that its header names. -/
  | payload (src : Nat)
  /-- It fails a check of R272. -/
  | refused
  deriving DecidableEq, Repr

/-- A message as received on CTL, HST or BLK: the header fields of R269 and the payload of R270. -/
structure Msg where
  port : Port := .ctl
  src : Nat := 0
  dst : Nat := 0
  tag : Nat := 0
  qos : Nat := 0
  /-- mod, [53:52] of word0. -/
  mod : Nat := 0
  /-- [51:0] of word1. -/
  addr : Nat := 0
  /-- Bytes covered less one, [59:52] of word1. -/
  size : Nat := 0
  /-- [61:58] of word0. -/
  status : Nat := 0
  /-- A reserved field is not zero. -/
  rsvd : Bool := false
  /-- The op word of an atomic or the hint word of a HINT_WR (R271). -/
  op : Nat := 0
  /-- The byte mask of a WR_MASK or of BLK beats, bit 0 for the first data byte. -/
  mask : Nat := 0
  data : Bytes := []
  parity : Parity := .ok
  /-- 1: a reserved opcode of the row's class; 2: a reserved cls (R269, R270, R272). DESIGN CHOICE, notes/assumptions 32. -/
  unlisted : Nat := 0
  deriving DecidableEq, Repr

/-- What a test function of R604 finds where its instruction runs it. DESIGN CHOICE, notes/assumptions 13. -/
inductive TestRun where
  | none
  /-- MBIST: failing rows as (bank, way, row) (R605). -/
  | mbist (rows : List (Nat × Nat × Nat))
  /-- Port EXTEST: for each port that is tested, the vectors captured at the receiving wrapper (R606). -/
  | extest (captured : List (Port × List Nat))
  /-- Die-to-die EXTEST: the vectors captured at the fellow's die wrapper, 16 lane pairs a vector (R607). -/
  | dieExtest (captured : List Nat)
  deriving DecidableEq, Repr

/-- A message the slice drives on CTL or HST (R269, R270). -/
structure OMsg where
  cls : Nat := 0
  opcode : Nat := 0
  status : Nat := 0
  qos : Nat := 0
  mod : Nat := 0
  tag : Nat := 0
  dst : Nat := 0
  src : Nat := 0
  addr : Nat := 0
  size : Nat := 0
  op : Nat := 0
  data : Bytes := []
  deriving DecidableEq, Repr

/-- A BLK read-return beat (spec/01 BLK, R212, R275). -/
structure BlkBeat where
  scheduled : Bool := false
  group : Nat := 0
  dst : Nat := 0
  status : Nat := 0
  tag : Nat := 0
  half : Nat := 0
  /-- Class and context the beat is charged to (R516, R536). -/
  qos : Nat := 0
  ctx : Nat := 0
  data : Bytes := []
  deriving DecidableEq, Repr

/-- A headland ring frame (R467). -/
structure Frame where
  type : Nat := 0
  seq : Nat := 0
  dst : Nat := 0
  src : Nat := 0
  payload : List Nat := []
  /-- As received: its byte parity fails (R52). -/
  bad : Bool := false
  deriving DecidableEq, Repr

/-- A message on the tether (R372, R373), its payload as bytes. -/
structure TMsg where
  kind : Nat := 0
  /-- sector_mask. -/
  mask : Nat := 0
  ctx : Nat := 0
  tag : Nat := 0
  /-- Set index the mirror traffic carries (R343). -/
  set : Nat := 0
  /-- Line or payload address; gen_number of LAG_ACCEPT and LAG_APPLIED. -/
  addr : Nat := 0
  /-- Class of the slot entry of a TTH_OUT payload (R516). -/
  qos : Nat := 0
  /-- The pass whose TTH_OUT payload it is (R223). -/
  pass : Option Nat := none
  /-- As received: the channel its header names (R372), which a reserved kind's credit goes back to. -/
  vc : Nat := 0
  data : Bytes := []
  deriving DecidableEq, Repr

/-- A DATA flit formed, and kept for resending once sent (R364, R368): sequence number, start_mask, chunks. -/
structure Replay where
  seq : Nat := 0
  start : Nat := 0
  data : Bytes := []
  /-- The pass whose TTH_OUT payload it carries (R223). -/
  pass : Option Nat := none
  /-- TTH_OUT payloads that begin in it (R384). -/
  begun : Nat := 0
  /-- Class and context its sending is charged to (R536): those of the first message in it; 16 and 4096 for none. -/
  qos : Nat := 16
  ctx : Nat := 4096
  sends : Nat := 1
  deriving DecidableEq, Repr

/-- The patterns of the interconnect test (R380): each lane's number, PRBS31, PRBS31 inverted on odd lanes. -/
inductive TestPattern where
  | laneId | prbs | prbsOdd
  deriving DecidableEq, Repr

/-- What the slice has driven on its ports, and the credits it has returned. -/
inductive Out where
  /-- A CTL or HST message. -/
  | msg (port : Port) (m : OMsg)
  | blk (b : BlkBeat)
  /-- A MEM read request: tag, address, beats, critical beat, class (spec/01 MEM). -/
  | memRd (tag addr beats crit qos : Nat)
  /-- A MEM write: tag, address, the bytes written, class. -/
  | memWr (tag addr : Nat) (data : Bytes) (qos : Nat)
  /-- A SYN word and the requester ID of its source (R26). -/
  | syn (word src : Nat)
  | hdr (f : Frame)
  | tth (m : TMsg)
  /-- A flit, 256 bytes, and the PAM4 levels of its active lanes in their order, each from the first UI (R361, R364). -/
  | flit (bytes : Bytes) (levels : List (List Int))
  /-- A receive credit returned: port and class (R268). -/
  | credit (port : Port) (cls : Nat)
  /-- A training flit of the tether (R364, R381). -/
  | train (bytes : Bytes)
  /-- A pattern of the interconnect test on every lane, and its bits (R380). -/
  | pattern (p : TestPattern) (bits : Nat)
  /-- Test vectors driven across the wires of a port, or across the lane pairs of the tether (R606, R607). -/
  | test (port : Port) (vectors : List Nat)
  deriving DecidableEq, Repr

/-- The line states of R76. -/
inductive LState where
  | invalid | clean | dirty | fallow
  deriving DecidableEq, Repr

/-- One line's tag state and data (spec/02 per-line tag state, R443). -/
structure Line where
  /-- Bits [51:9] of the address. -/
  addr : Nat := 0
  st : LState := .invalid
  filling : Bool := false
  dirtyMask : BitVec 8 := 0
  age : Nat := 0
  locked : Bool := false
  last : Nat := 1023
  qos : Nat := 0
  genTag : Nat := 0
  /-- reduce_hold. -/
  hold : Bool := false
  /-- The CRC-32C of 512 zero bytes where nothing has been written since the fill of R459. -/
  crc : BitVec 32 := 0x30FCEDC0
  data : LineData := 0
  /-- Bytes whose stored parity disagrees with their data. -/
  badPar : LineMask := 0
  /-- The line_crc field fails its parity. -/
  crcBad : Bool := false
  /-- Tag fields that fail: bit 0, 1 line_addr copies 0, 1; bit 2, 3 state copies 0, 1; 4 last_idx, 5 qos_class, 6 dirty_mask, 7 gen_tag,
  8 locked, 9 reduce_hold, 10 filling, 11 age (R443, R445). -/
  tagBad : BitVec 12 := 0
  /-- Units of R465 with a fault that the flip-mask put there: 0 data, 2 tag address, 3 tag other, 4 line_crc field (R463). -/
  injected : BitVec 5 := 0
  /-- The row does not hold what a repair writes to it (R483). -/
  stuck : Bool := false
  /-- An armed fallow note: ring, seq and cmd of the discard (R120, R405). -/
  note : Option (Nat × Nat × Nat) := none
  deriving DecidableEq, Repr

/-- A last: its record (R78) and condition. -/
structure Last where
  base : Nat := 0
  limit : Nat := 0
  attr : Nat := 0
  prefetch : Nat := 0
  pin : Nat := 0
  /-- 0 undefined, 1 in service, 2 FAILED, 3 restoring (R425). -/
  cond : Nat := 0
  /-- R347. -/
  unprot : Bool := false
  deriving DecidableEq, Repr

/-- A trace record being filled (R534): timestamp and fc of acceptance, the request, stages reached with their fc, flags. -/
structure Trace where
  ts : Nat := 0
  acc : Nat := 0
  cls : Nat := 0
  opcode : Nat := 0
  m : Msg := {}
  stages : List (Nat × Nat) := []
  flags : Nat := 0
  deriving DecidableEq, Repr

/-- What a pending operation on a line is: a demand request, or a line's part of a command. -/
inductive OpKind where
  | rd | rdBlk | wr | atomic | hint | hostDrop
  /-- Data of an SNP_WB, merged as a host write of 64 bytes (R259). -/
  | wb
  /-- A line of RANGE.FLUSH, RANGE.INVALIDATE, RANGE.DISCARD, RANGE.PREFETCH. -/
  | flush | inval | discard | prefetch
  /-- A line of DIGEST.RANGE. -/
  | digest
  /-- A line of LAST.DELETE or of the writing back of a disable; bit says whether it keeps the line. -/
  | clean
  deriving DecidableEq, Repr

/-- An operation on one line, in the order of acceptance (R168). -/
structure Op where
  /-- Acceptance number. -/
  n : Nat := 0
  kind : OpKind := .rd
  m : Msg := {}
  /-- The command the operation belongs to: its number; 0 for a demand request. -/
  cmd : Nat := 0
  /-- Index of the line within the command. -/
  idx : Nat := 0
  /-- Its snoops have been issued (R259). -/
  snooped : Bool := false
  /-- Already acknowledged (R169). -/
  acked : Bool := false
  /-- The fellow holds its bytes (R346). -/
  synced : Bool := false
  /-- What has been counted for it once: bit 0 a full tracker, 1 mhe_max, 2 a wait for the mirror limit, 3 its snoop filter
  record made, 4 its lookup, 5 the fill of its line it started and waits for, 6 it waits for a tracker entry for its push (R249), 7 it stood
  in the freeze queue (R335), 8 it has merged into the fill of its line and waits for its end (R109), 9 its copy in the freeze queue fails its
  parity (R443, R452), 10 a cautious set has made it snoop (R453). -/
  noted : Nat := 0
  /-- State granted to the host: 0 I, 1 S, 2 A (R246). -/
  grant : Nat := 0
  /-- What is left of a write instance that found its line filling, held in an eviction buffer or absent (R217). -/
  plan : Bool := false
  deriving DecidableEq, Repr

/-- What a fill was started for (R109, R113, R114, R166, R218, R432). -/
inductive FillKind where
  | demand | nextLine | stream | prefetch
  /-- Memory-side atomic: nothing is installed (R166). -/
  | memSide
  /-- Demand read served from memory without allocation (R102, R116). -/
  | bypass
  /-- A stage-in tracking entry (R218). -/
  | stage
  /-- A line a replay writes in part (R337, R338). -/
  | replay
  deriving DecidableEq, Repr

/-- A read merged into a fill with the writes merged before it (R109, R111). -/
structure Merged where
  op : Op := {}
  wdata : LineData := 0
  wmask : LineMask := 0
  /-- The first beat of a whole-line RD_BLK has been driven, with this status (R111, R275). -/
  half : Bool := false
  status : Nat := 0
  deriving DecidableEq, Repr

/-- A miss-handling entry (R109, R111, R166). -/
structure Mhe where
  /-- Line address. -/
  line : Nat := 0
  kind : FillKind := .demand
  /-- The way slot being filled, `way × 8192 + set`. -/
  slot : Option Nat := none
  qos : Nat := 0
  last : Nat := 1023
  age : Nat := 1
  crit : Nat := 0
  /-- Beats received, bit per beat. -/
  got : BitVec 4 := 0
  /-- Beats found uncorrectable. -/
  bad : BitVec 4 := 0
  data : LineData := 0
  /-- Bytes merged by writes (R285), and the writes' latest bytes. -/
  wdata : LineData := 0
  wmask : LineMask := 0
  /-- Requests merged so far, at most 8. -/
  count : Nat := 0
  reads : List Merged := []
  /-- Src of merged writes, for writes that end in memory. -/
  srcs : List Nat := []
  /-- Pass that issued a stage-in fill (R223). -/
  pass : Nat := 0
  /-- A write instance has merged bytes into it (R217, R304). -/
  planned : Bool := false
  /-- A request merged into it waits for the end of the fill, and so do those merged after it (R109, R168). -/
  ordered : Bool := false
  /-- Bytes merged by writes into the fill of a replay, whose own bytes set no dirty_mask (R315, R338). -/
  marks : LineMask := 0
  /-- The merged bytes, or a stage-in tracking entry, fail their parity (R443, R452). -/
  upset : Bool := false
  deriving DecidableEq, Repr

/-- A merging-buffer entry (R88): one sector. -/
structure Merge where
  n : Nat := 0
  /-- addr[51:6]. -/
  sector : Nat := 0
  mask : BitVec 64 := 0
  data : BitVec 512 := 0
  opened : Nat := 0
  draining : Bool := false
  /-- The sources of its bytes, each with the acceptance number of its first write in the entry (R290). -/
  srcs : List (Nat × Nat) := []
  /-- Commands whose bytes it holds. -/
  cmds : List Nat := []
  last : Nat := 1023
  qos : Nat := 0
  bad : Bool := false
  deriving DecidableEq, Repr

/-- An eviction buffer (R112). -/
structure Evict where
  line : Nat := 0
  data : LineData := 0
  bad : LineMask := 0
  last : Nat := 1023
  qos : Nat := 0
  /-- Waits for room in the log ring (R324). -/
  waitLog : Bool := false
  /-- dirty_mask and gen_tag of a line still to be logged. -/
  dirtyMask : BitVec 8 := 0
  genTag : Nat := 0
  /-- Tag of the MEM write, once issued. -/
  tag : Option Nat := none
  deriving DecidableEq, Repr

/-- An entry of the atomic line buffer (R161). -/
structure OpenLine where
  line : Nat := 0
  slot : Nat := 0
  data : LineData := 0
  bad : LineMask := 0
  /-- Sectors changed by an atomic. -/
  dirty : BitVec 8 := 0
  /-- fc of the last atomic. -/
  used : Nat := 0
  deriving DecidableEq, Repr

/-- A stream tracker (R114). -/
structure Stream where
  last : Nat := 1023
  /-- Stripe-local line number of the latest access. -/
  l : Nat := 0
  up : Bool := true
  /-- Adjacent misses seen. -/
  count : Nat := 1
  deriving DecidableEq, Repr

/-- What a MEM read was issued for (R449). -/
inductive RdFor where
  /-- A fill of the miss-handling entry of this line. -/
  | fill (line : Nat)
  /-- A bias table word (R254); a flip waits for it where `cmd` is not 0 (R257). -/
  | bias (w cmd : Nat)
  /-- A line of DIGEST.RANGE (R195). -/
  | digest (op : Op)
  /-- A line of an image (R336). -/
  | image (cmd line : Nat)
  deriving DecidableEq, Repr

/-- A MEM read outstanding (R21). -/
structure MemRd where
  tag : Nat := 0
  for_ : RdFor := .fill 0
  addr : Nat := 0
  crit : Nat := 0
  beats : Nat := 4
  got : BitVec 4 := 0
  bad : BitVec 4 := 0
  data : LineData := 0
  qos : Nat := 0
  deriving DecidableEq, Repr

/-- What a MEM write was issued for. -/
inductive WrFor where
  /-- Nothing waits for it. -/
  | none
  /-- A write sent to memory without allocation: its request is acknowledged at completion (R285). -/
  | req (op : Op)
  /-- A drain of the merging-buffer entry of this number. -/
  | merge (n : Nat)
  /-- An eviction or flush of this line. -/
  | evict (line : Nat)
  /-- A delta-log record of a context's generation. -/
  | log (ctx gen : Nat)
  /-- The zeroing of the bias table (R255). -/
  | bias
  /-- A write a command waits for. -/
  | cmd (n : Nat)
  /-- The write-back of a memory-side atomic. -/
  | memSide (line : Nat)
  deriving DecidableEq, Repr

/-- A MEM write issued and not completed. -/
structure MemWr where
  tag : Nat := 0
  for_ : WrFor := .none
  addr : Nat := 0
  /-- Sources whose bytes it carries, for SYSTEM fences (R290). -/
  srcs : List Nat := []
  n : Nat := 0
  /-- MEM has accepted its last beat. -/
  accepted : Bool := false
  /-- A flush or eviction that made a paired line CLEAN: the fellow is told to drop it (R345). -/
  drop : Bool := false
  last : Nat := 1023
  /-- Bytes and class it was issued with, to be repeated by a re-entry (R552). -/
  data : Bytes := []
  qos : Nat := 0
  deriving DecidableEq, Repr

/-- A MEM request that waits for a credit or a tag. -/
inductive MemReq where
  | rd (r : MemRd)
  | wr (w : MemWr) (data : Bytes) (qos : Nat)
  deriving DecidableEq, Repr

/-- A snoop filter entry (spec/06, the snoop filter): host line, state E or S, nru. -/
structure SfEnt where
  /-- addr[51:6]; the entry is empty where `st` is 0. -/
  tag : Nat := 0
  /-- 0 none, 1 S, 2 E. -/
  st : Nat := 0
  nru : Bool := false
  bad : Bool := false
  injected : Bool := false
  /-- The entry does not hold what a repair writes to it (R483). -/
  stuck : Bool := false
  deriving DecidableEq, Repr

/-- A tracker entry: one snoop of a block of host lines (R248). -/
structure Snoop where
  /-- First host line, addr[51:6]. -/
  host : Nat := 0
  /-- 1, 2 or 4 host lines. -/
  count : Nat := 1
  /-- BI_SNP_DATA rather than BI_SNP_INV. -/
  data : Bool := false
  /-- A victim of the snoop filter (R247), whose filter way has gone. -/
  victim : Bool := false
  /-- SNP_WB data is dropped (R259 RANGE.DISCARD, R447). -/
  dropWb : Bool := false
  /-- SNP_WB received, bit per host line. -/
  wb : BitVec 4 := 0
  /-- The BI_RSP's mask, once it has arrived. -/
  rsp : Option (BitVec 4) := none
  issued : Nat := 0
  reported : Bool := false
  qos : Nat := 0
  cmd : Nat := 0
  deriving DecidableEq, Repr

/-- A push of a write hint that awaits its HINT_ACK (R262, R264). -/
structure Push where
  host : Nat := 0
  tag : Nat := 0
  deriving DecidableEq, Repr

/-- A request accepted whose answer has not been sent: what fences and BI_CONFLICT wait for (R278, R290). -/
structure Owed where
  n : Nat := 0
  port : Port := .ctl
  src : Nat := 0
  tag : Nat := 0
  addr : Nat := 0
  size : Nat := 0
  deriving DecidableEq, Repr

/-- A FENCE or BI_CONFLICT not yet answered (R278, R290). -/
structure FenceWait where
  n : Nat := 0
  m : Msg := {}
  conflict : Bool := false
  deriving DecidableEq, Repr

/-- What an error record says beside its status (R465). -/
structure Err where
  unit : Nat
  sectors : Nat := 0
  addr : Nat := 0
  last : Nat := 1023
  ctx : Nat := 0
  action : Nat := 0
  history : Nat := 0
  detector : Nat := 0
  detail : Nat := 0
  /-- Location the failure is classified by, 0 for none; the byte within its row; whether the read-back after its repair fails (R481, R483). -/
  loc : Nat := 0
  byte : Nat := 0
  stuck : Bool := false
  /-- Timestamp in ns of the detection where it is not that of the record (R465). -/
  ts : Option Nat := none
  deriving DecidableEq, Repr

/-- A repair that waits for the fellow's REPAIR_DATA: tag, way slot, whether it belongs to a rollback of its last, the line of a held copy
that it is for instead of a slot, and the error record that reports it (R356, R357, R446, R464). -/
structure Repair where
  tag : Nat := 0
  slot : Nat := 0
  last : Nat := 0
  rollback : Bool := false
  copy : Option Nat := none
  err : Err := { unit := 0 }
  deriving DecidableEq, Repr

/-- A bound sheaf window (R181, R182, R192, R194). -/
structure Window where
  base : Nat := 0
  n : Nat := 0
  /-- 0 FP32, 1 BF16. -/
  rf : Nat := 0
  first : Nat := 0
  count : Nat := 0
  digest : BitVec 64 := 0
  lost : Bool := false
  last : Nat := 1023
  deriving DecidableEq, Repr

/-- A plan bank (R204): its image's header, generators and slots. -/
structure PlanBank where
  valid : Bool := false
  header : Bytes := []
  gens : Bytes := []
  slots : Bytes := []
  deriving DecidableEq, Repr

/-- What a pass record, or a summary of several, carries beside its time of writing (R233). -/
structure PassRec where
  bank : Nat := 0
  number : Nat := 0
  misses : Nat := 0
  errors : Nat := 0
  slip : Nat := 0
  nodata : Nat := 0
  drops : Nat := 0
  startTs : Nat := 0
  lockLost : Bool := false
  slipOver : Bool := false
  aborted : Bool := false
  last : Bool := false
  deriving DecidableEq, Repr

/-- A scheduled write beat in the plan write buffer (R228): fc of its arrival, source, byte mask, data. -/
structure WBeat where
  stamp : Nat := 0
  src : Nat := 0
  mask : Nat := 0
  data : Bytes := []
  /-- The beat fails its parity (R443, R452). -/
  bad : Bool := false
  deriving DecidableEq, Repr

/-- A line written by a plan instance as lookups before `due` still see it (R222): the fc from which a lookup sees the write, the
line's state (INVALID where the instance allocated it) and bytes before it, and the bytes written. -/
structure Veil where
  line : Nat := 0
  due : Nat := 0
  st : LState := .invalid
  old : LineData := 0
  mask : LineMask := 0
  deriving DecidableEq, Repr

/-- A context (R313). -/
structure Ctx where
  /-- 0 IDLE, 1 OPEN, 2 FROZEN. -/
  st : Nat := 0
  gen : BitVec 32 := 0
  ring : Nat := 0
  logEn : Bool := false
  seed : BitVec 64 := 0
  /-- The acceptance number at the freeze instant (R333). -/
  frozenAt : Nat := 0
  /-- Frozen in the stall form (R334). -/
  stall : Bool := false
  /-- Generation of the last END record written (R448). -/
  lastEnd : Option (BitVec 32) := none
  /-- A CTX.RESUME performs the queued writes: later ones wait (R335). -/
  resuming : Bool := false
  deriving DecidableEq, Repr

/-- A drain in progress (R320 to R326). -/
structure Drain where
  ctx : Nat := 0
  gen : BitVec 32 := 0
  /-- The generation's tag, gen mod 4. -/
  tag : Nat := 0
  /-- Timestamp of the seal, in ns, for its SEAL record, and whether that record has been written. -/
  sealTs : Nat := 0
  sealed : Bool := false
  /-- The END of the mirror records has been sent (R348). -/
  lagSent : Bool := false
  /-- Way slots still to be logged, in walk order. -/
  todo : List Nat := []
  /-- LINE and FALLOW records of the generation. -/
  records : Nat := 0
  carried : Nat := 0
  /-- The fellow must accept, and has accepted, the generation's mirror records. -/
  lag : Bool := false
  lagOk : Bool := false
  cmd : Nat := 0
  deriving DecidableEq, Repr

/-- A record in a log buffer (R320, R321): whose it is and what it carries. -/
structure LogBuf where
  ctx : Nat := 0
  gen : BitVec 32 := 0
  last : Nat := 0
  early : Bool := false
  mask : BitVec 8 := 0
  kind : Nat := 1
  addr : Nat := 0
  data : LineData := 0
  /-- Bytes whose parity fails (R443, R452). -/
  bad : LineMask := 0
  deriving DecidableEq, Repr

/-- A log ring (R328 to R330). -/
structure LogRing where
  head : Nat := 0
  tail : Nat := 0
  seq : Nat := 0
  full : Bool := false
  deriving DecidableEq, Repr

/-- A GEN.CLOSE or the seal of a CTX.FREEZE that waits (R317, R318). -/
structure SealWait where
  cmd : Nat := 0
  ctxs : List Nat := []
  freeze : Bool := false
  deriving DecidableEq, Repr

/-- A command accepted and not posted (R396, R403). -/
structure Cmd where
  /-- Acceptance number over all rings. -/
  n : Nat := 0
  ring : Nat := 0
  /-- Descriptor index. -/
  idx : Nat := 0
  code : Nat := 0
  desc : Bytes := []
  started : Bool := false
  /-- Set once the command has completed, with its result. -/
  done : Bool := false
  status : Nat := 0
  word2 : Nat := 0
  aux : Nat := 0
  /-- Line operations, fills or waits outstanding. -/
  todo : Nat := 0
  /-- MEM writes outstanding that it waits for. -/
  writes : Nat := 0
  /-- HST writes not acknowledged (R308). -/
  hst : Nat := 0
  /-- Lines acted on, lines not ST_OK, lowest such index and its status (R433). -/
  acted : Nat := 0
  bad : Nat := 0
  low : Option (Nat × Nat) := none
  /-- A running figure: digest, records, snoops, lines from memory. -/
  acc : Nat := 0
  acc2 : Nat := 0
  /-- Lines still to be imaged (R336). -/
  lines : List Nat := []
  /-- Lines a replay still has to write: line, bytes, data, made FALLOW, records it had (R337). -/
  recs : List (Nat × LineMask × LineData × Bool × Nat) := []
  /-- Data collected line by line: index and bytes. -/
  parts : List (Nat × LineData) := []
  /-- Its place in the order in which commands complete. -/
  doneN : Nat := 0
  /-- Where a multi-step command stands. -/
  phase : Nat := 0
  /-- A CTX.RESUME accepted while a CTX.FREEZE of its context, on another ring, was not complete (R435). -/
  preFreeze : Bool := false
  /-- A command other than NOP, PATCH.LOAD and LAST.READ had been accepted before it since reset (R441). -/
  late : Bool := false
  deriving DecidableEq, Repr

/-- A command ring's own state beside its registers (R389 to R401). -/
structure Ring where
  cons : Nat := 0
  posted : Nat := 0
  prod : Nat := 0
  cplCons : Nat := 0
  evtCons : Nat := 0
  parked : Nat := 0
  inflight : Nat := 0
  busy : Bool := false
  /-- Watch of the doorbell line: 0 not watched, 1 RD_WATCH outstanding, 2 held in S. -/
  watch : Nat := 0
  /-- An SNP_IN arrived while the RD_WATCH was outstanding (R395). -/
  again : Bool := false
  /-- A reading was taken since the enable. -/
  read : Bool := false
  /-- Descriptor reads outstanding: indices asked for. -/
  fetched : List Nat := []
  /-- Reads of descriptors whose DATA is still to come: the last index of each, and its bytes (R268). -/
  reads : List (Nat × Nat) := []
  /-- Descriptors that returned before the one at cons was accepted: index, bytes (R391, R396). -/
  early : List (Nat × Bytes) := []
  /-- Re-reads issued for the descriptor at cons (R311). -/
  rereads : Nat := 0
  rereadOut : Nat := 0
  /-- The descriptor at cons did not match at its first read (R311). -/
  behind : Bool := false
  /-- A descriptor read and matched that waits for a place (R397). -/
  offer : Option Bytes := none
  /-- Records dropped since the last one written here (R405). -/
  overflow : Bool := false
  deriving DecidableEq, Repr

/-- An event ring's own state (R407, R408). -/
structure EvRing where
  posted : Nat := 0
  dropped : Nat := 0
  overflow : Bool := false
  deriving DecidableEq, Repr

/-- An interrupt vector's own state (R410). -/
structure Irq where
  pending : Bool := false
  /-- fc of the last firing. -/
  fired : Option Nat := none
  deriving DecidableEq, Repr

/-- An event counter (R529 to R531): value, the last cycle it occurred in, occurrences of the sc in progress. -/
structure EvCtr where
  val : BitVec 48 := 0
  last : Option Nat := none
  sc : Nat := 0
  inSc : Nat := 0
  deriving DecidableEq, Repr

/-- An access to a setup register: over HST as a CSR message, or as a register frame, with src and seq (spec/17 R581, R590).
`m.addr` is the offset, `m.size` the bytes less one, `m.tag` the tag or frame number; for a frame `m.rsvd` says that len does
not agree with wide. -/
structure Csr where
  hdr : Bool := false
  m : Msg := {}
  deriving DecidableEq, Repr

/-- A fault of the cells or of a held copy as it appears: what the checks of R443 find at their next read (DESIGN CHOICE,
notes/assumptions 9). -/
inductive Upset where
  /-- Tag fields of a way slot, numbered as Line.tagBad numbers them. -/
  | tag (slot : Nat) (fields : BitVec 12)
  /-- The line_crc field of a way slot. -/
  | crcField (slot : Nat)
  /-- Bytes of a line's data, or of a mirror line's, in a way slot whose parity fails. -/
  | data (slot : Nat) (bytes : LineMask) (stuck : Bool)
  /-- A line's data exclusive-or `x`, every byte's parity still valid. -/
  | silent (slot : Nat) (x : LineData)
  /-- Bytes of an entry of the atomic line buffer, of an eviction buffer, of the log buffers of a line. -/
  | openLine (line : Nat) (bytes : LineMask)
  | evict (line : Nat) (bytes : LineMask)
  | log (line : Nat) (bytes : LineMask)
  /-- The merging-buffer entry of a sector. -/
  | merge (sector : Nat)
  /-- The bytes merged into a line's miss-handling entry, or its stage-in tracking entry. -/
  | fill (line : Nat)
  /-- A beat of the plan write buffer and an entry of the freeze queue, by place. -/
  | planBeat (i : Nat)
  | freeze (i : Nat)
  /-- A bias cache word, a sheaf, a snoop filter entry. -/
  | bias (word : Nat)
  | sheaf (k : Nat) (stuck : Bool)
  | sf (k : Nat) (stuck : Bool)
  /-- A word of the controller's ROM or RAM. -/
  | controller
  deriving DecidableEq, Repr

/-- An uncorrectable beat of a command's input: MEM tag, beat, and whether its parity fails rather than its status (R449, R465). -/
structure BadBeat where
  tag : Nat := 0
  beat : Nat := 0
  parity : Bool := false
  deriving DecidableEq, Repr

/-- A ledger entry (R481): its time in ns, subject, kind, coalesced count and history. -/
structure LedEnt where
  ts : Nat := 0
  subject : Nat := 0
  kind : Nat := 0
  count : Nat := 1
  history : Nat := 0
  deriving DecidableEq, Repr

end Sys2Proof
end

