-- ==== Sys2Proof/Syntax.lean ====
section
/-! DEFINITION. The commands: one constructor per row of spec/opcode_table.json, with the fields of the message, frame, beat or
descriptor the row names. -/

namespace Sys2Proof

/-- What the surroundings or a timer of the slice can do to it, one constructor per row of the table. -/
inductive Instr where
  /-- RST_N_ASSERT: R38. -/
  | rstNAssert
  /-- RST_N_RELEASE: R551. -/
  | rstNRelease (chip die sliceId : Nat)
  /-- START_COMPLETE: R551. -/
  | startComplete
  /-- WRST_N_ASSERT: R555. -/
  | wrstNAssert
  /-- QUIESCE_DONE: R552. -/
  | quiesceDone
  /-- FLOW_STOP_EFFECTIVE: R557. -/
  | flowStopEffective
  /-- FLOW_STOP_RELEASE: R559. -/
  | flowStopRelease (wrstLow : Bool := false)
  /-- PPS_EDGE: R542. -/
  | ppsEdge
  /-- PPS_LOST: R544. -/
  | ppsLost
  /-- CLOCK_ABSENT: R34. -/
  | clockAbsent (clk : Nat)
  /-- PLAN_LOCK_LOST: R32. -/
  | planLockLost
  /-- LOCK_ALIGNMENT_DONE: R33. -/
  | lockAlignmentDone
  /-- VDD_ARR_DROOP: R42. -/
  | vddArrDroop (bakHolds : Bool)
  /-- SWITCH_TO_VDD_ARR: R47. -/
  | switchToVddArr
  /-- ARRAY_ACCESS_STOP: R46. -/
  | arrayAccessStop
  /-- ARRAY_RAIL_LOSS: R48. -/
  | arrayRailLoss
  /-- VDD_CORE_LOSS: R558. -/
  | vddCoreLoss
  /-- BACKUP_HOLD_RETURN: R560. -/
  | backupHoldReturn
  /-- RE_ENTRY: R552. -/
  | reEntry
  /-- RING_STOP_PASSIVE: R50. -/
  | ringStopPassive (supply : Bool)
  /-- RD: R295. -/
  | rd (m : Msg)
  /-- RD_BLK: R275. -/
  | rdBlk (m : Msg)
  /-- WR: R285. -/
  | wr (m : Msg)
  /-- WR_MASK: R270. -/
  | wrMask (m : Msg)
  /-- BLK_DEMAND_WR: R274. -/
  | blkDemandWr (m : Msg)
  /-- BLK_ATL: R174. -/
  | blkAtl (m : Msg)
  /-- ATOMIC: R165. -/
  | atomic (m : Msg)
  /-- HOST_DROP: R246. -/
  | hostDrop (m : Msg)
  /-- BI_CONFLICT: R278. -/
  | biConflict (m : Msg)
  /-- FENCE: R290. -/
  | fence (m : Msg)
  /-- HINT_WR: R261. -/
  | hintWr (m : Msg)
  /-- HINT_ACK: R264. -/
  | hintAck (m : Msg)
  /-- CSR_WR: R589. -/
  | csrWr (a : Csr)
  /-- SNP_WB: R248. -/
  | snpWb (m : Msg)
  /-- BI_RSP: R248. -/
  | biRsp (m : Msg)
  /-- BI_TIMEOUT: R281. -/
  | biTimeout (host : Nat)
  /-- SNP_IN: R265. -/
  | snpIn (m : Msg)
  /-- DOORBELL_READING: R395. -/
  | doorbellReading (ring prod cplCons evtCons : Nat) (arrival : Arrival := .ok)
  /-- DESCRIPTOR_READ_RETURN: R391. -/
  | descriptorReadReturn (ring idx status : Nat) (bytes : Bytes) (arrival : Arrival := .ok)
  /-- DESC_REREAD: R311. -/
  | descReread (ring : Nat)
  /-- CMP: R308. -/
  | cmp (m : Msg)
  /-- CPL_POST: R403. -/
  | cplPost (ring idx : Nat)
  /-- IRQ_HOLDOFF_EXPIRY: R410. -/
  | irqHoldoffExpiry (vec : Nat)
  /-- MEM_READ_RETURN: R111. -/
  | memReadReturn (tag beat status : Nat) (parityBad : Bool) (bytes : Bytes)
  /-- MEM_REPLAY: R24. -/
  | memReplay (tag beat : Nat)
  /-- MEM_WRITE_COMPLETION: R285. -/
  | memWriteCompletion (tag : Nat)
  /-- EVICTION_WRITEBACK_ACCEPTED: R112. -/
  | evictionWritebackAccepted (tag : Nat)
  /-- MEM_PRESSURE_DECLARED: R519. -/
  | memPressureDeclared
  /-- MEM_PRESSURE_RELEASED: R519. -/
  | memPressureReleased
  /-- MERGE_ENTRY_DRAIN: R90. -/
  | mergeEntryDrain
  /-- ATOMIC_LINE_CLOSE: R163. -/
  | atomicLineClose (line : Nat)
  /-- SYN_WORD: R231. -/
  | synWord (word src : Nat) (parityBad : Bool)
  /-- SCHEDULED_WRITE_BEAT: R228. -/
  | scheduledWriteBeat (src : Nat) (mask : Nat) (parityBad : Bool) (bytes : Bytes)
  /-- PASS_START: R202. -/
  | passStart
  /-- OPEN: R221. -/
  | openCycle
  /-- QUIET: R208. -/
  | quiet (parityBad : Bool := false)
  /-- ARR_TO_BLK: R215. -/
  | arrToBlk
  /-- BLK_TO_ARR: R217. -/
  | blkToArr
  /-- BLK_ADD: R217. -/
  | blkAdd
  /-- STAGE_IN: R218. -/
  | stageIn
  /-- STAGE_OUT: R208. -/
  | stageOut
  /-- ARR_TO_ARR: R215. -/
  | arrToArr
  /-- ARR_SCAN: R215. -/
  | arrScan
  /-- TTH_OUT: R208. -/
  | tthOut
  /-- SYN_OUT: R230. -/
  | synOut
  /-- KERNEL: R490. -/
  | kernel
  /-- HOLD_START: R224. -/
  | holdStart
  /-- HOLD_END: R224. -/
  | holdEnd
  /-- PASS_END: R236. -/
  | passEnd
  /-- SWITCH_DONE: R237. -/
  | switchDone
  /-- STOPPING_DONE: R236. -/
  | stoppingDone
  /-- NOP: R416. -/
  | nop (ring idx : Nat)
  /-- LAST_DEFINE: R423. -/
  | lastDefine (ring idx : Nat)
  /-- LAST_DELETE: R424. -/
  | lastDelete (ring idx : Nat)
  /-- LAST_READ: R425. -/
  | lastRead (ring idx : Nat)
  /-- LAST_RESTORE: R426. -/
  | lastRestore (ring idx : Nat) (input : Bytes) (bad : List BadBeat)
  /-- RANGE_PREFETCH: R432. -/
  | rangePrefetch (ring idx : Nat)
  /-- RANGE_FLUSH: R431. -/
  | rangeFlush (ring idx : Nat)
  /-- RANGE_INVALIDATE: R431. -/
  | rangeInvalidate (ring idx : Nat)
  /-- RANGE_DISCARD: R431. -/
  | rangeDiscard (ring idx : Nat)
  /-- GEN_OPEN: R434. -/
  | genOpen (ring idx : Nat)
  /-- GEN_CLOSE: R434. -/
  | genClose (ring idx : Nat)
  /-- GEN_SEAL: R317. -/
  | genSeal
  /-- DRAIN_COMPLETE: R325. -/
  | drainComplete (ctx gen : Nat)
  /-- LOG_ADVANCE: R434. -/
  | logAdvance (ring idx : Nat)
  /-- CTX_FREEZE: R333. -/
  | ctxFreeze (ring idx : Nat)
  /-- CTX_RESUME: R434. -/
  | ctxResume (ring idx : Nat) (input : Bytes) (bad : List BadBeat)
  /-- CTX_RELEASE: R434. -/
  | ctxRelease (ring idx : Nat)
  /-- CTX_SEED: R434. -/
  | ctxSeed (ring idx : Nat)
  /-- PLAN_LOAD: R235. -/
  | planLoad (ring idx : Nat) (input : Bytes) (bad : List BadBeat)
  /-- PLAN_RUN: R436. -/
  | planRun (ring idx : Nat)
  /-- PLAN_STOP: R436. -/
  | planStop (ring idx : Nat)
  /-- SHEAF_BIND: R437. -/
  | sheafBind (ring idx : Nat)
  /-- SHEAF_READ: R437. -/
  | sheafRead (ring idx : Nat)
  /-- SHEAF_RELEASE: R437. -/
  | sheafRelease (ring idx : Nat)
  /-- DIGEST_RANGE: R437. -/
  | digestRange (ring idx : Nat)
  /-- BIAS_FLIP: R438. -/
  | biasFlip (ring idx : Nat)
  /-- PAIR_RESYNC: R439. -/
  | pairResync (ring idx : Nat)
  /-- PAIR_TAKEOVER: R440. -/
  | pairTakeover (ring idx : Nat) (defs : List (Nat × Last))
  /-- TEST_RUN: R441. -/
  | testRun (ring idx : Nat)
  /-- STRESS_SET_TIMEOUT: R496. -/
  | stressSetTimeout
  /-- TEST_LOADPACK: R441. -/
  | testLoadpack (ring idx : Nat) (input : Bytes) (bad : List BadBeat)
  /-- PATCH_LOAD: R441. -/
  | patchLoad (ring idx : Nat) (input : Bytes) (bad : List BadBeat)
  /-- SLICE_RETIRE: R441. -/
  | sliceRetire (ring idx : Nat)
  /-- RETIRE_HOLD_EXPIRY: R504. -/
  | retireHoldExpiry
  /-- BIAS_INIT: R255. -/
  | biasInit (a : Csr)
  /-- BIAS_INIT_DONE: R255. -/
  | biasInitDone
  /-- BIAS_ENABLE: R255. -/
  | biasEnable (a : Csr)
  /-- PIN_WAYS_WRITE: R91. -/
  | pinWaysWrite (a : Csr)
  /-- PIN_WAYS_RESERVED: R92. -/
  | pinWaysReserved
  /-- MIRROR_WAYS_WRITE: R341. -/
  | mirrorWaysWrite (a : Csr)
  /-- STRIPE_SHIFT_WRITE: R74. -/
  | stripeShiftWrite (a : Csr)
  /-- RING_ENABLE: R394. -/
  | ringEnable (ring : Nat) (a : Csr)
  /-- RING_DISABLE: R401. -/
  | ringDisable (ring : Nat) (a : Csr)
  /-- EVRING_ENABLE: R413. -/
  | evringEnable (ring : Nat) (a : Csr)
  /-- LOG_RING_ENABLE: R328. -/
  | logRingEnable (ring : Nat) (a : Csr)
  /-- LINK_EN: R376. -/
  | linkEn (a : Csr)
  /-- RETRAIN: R385. -/
  | retrain (a : Csr)
  /-- PPS_LOAD: R546. -/
  | ppsLoad (a : Csr)
  /-- PAIR_KEY_WRITE: R580. -/
  | pairKeyWrite (k : Nat) (a : Csr)
  /-- LEDGER_DATA_READ: R510. -/
  | ledgerDataRead (a : Csr)
  /-- EVT_COUNTER_WRITE: R531. -/
  | evtCounterWrite (k : Nat) (a : Csr)
  /-- SEC_CTL_WRITE: R573. -/
  | secCtlWrite (a : Csr)
  /-- HEDGE_WRITE: R569. -/
  | hedgeWrite (a : Csr)
  /-- QOS_CLASS_WRITE: R518. -/
  | qosClassWrite (cls : Nat) (a : Csr)
  /-- FLIPMASK_ARM: R461. -/
  | flipmaskArm (a : Csr)
  /-- ENERGY_GAIN_WRITE: R540. -/
  | energyGainWrite (a : Csr)
  /-- TRACE_ENABLE: R533. -/
  | traceEnable (a : Csr)
  /-- FENCE_FRAME: R472. -/
  | fenceFrame (f : Frame)
  /-- FENCE_WALK_DONE: R474. -/
  | fenceWalkDone
  /-- WATCHDOG_TIMEOUT: R472. -/
  | watchdogTimeout
  /-- FABRIC_GUARD_TIMEOUT: R472. -/
  | fabricGuardTimeout
  /-- HDR_ACK: R469. -/
  | hdrAck (f : Frame)
  /-- FRAME_RESEND: R469. -/
  | frameResend (seq : Nat)
  /-- HEARTBEAT: R470. -/
  | heartbeat
  /-- OPPOINT_SET: R501. -/
  | oppointSet (f : Frame)
  /-- STRESS_SET: R496. -/
  | stressSet (f : Frame)
  /-- RETIRE_GO: R504. -/
  | retireGo (f : Frame)
  /-- REG_READING: R538. -/
  | regReading (f : Frame)
  /-- TIME_SECONDS: R539. -/
  | timeSeconds (f : Frame)
  /-- METERING_WINDOW_END: R517. -/
  | meteringWindowEnd
  /-- HARROW_VISIT: R456. -/
  | harrowVisit (bad : LineMask) (stuck : Bool) (upsets : List Upset := [])
  /-- AGEING_SAMPLE: R498. -/
  | ageingSample (pairs : List (Nat × Nat)) (canary : List Nat)
  /-- KERNEL_RUN_DONE: R492. -/
  | kernelRunDone (kernel sig : Nat)
  /-- SPARE_ROW_COPY_DONE: R485. -/
  | spareRowCopyDone (bank : Nat)
  /-- WAY_DISABLE_DONE: R487. -/
  | wayDisableDone (bank way : Nat)
  /-- WAY_DISABLE_TIMEOUT: R489. -/
  | wayDisableTimeout (bank way : Nat)
  /-- FLIT_RECEIVED: R369. -/
  | flitReceived (bytes : Bytes)
  /-- LANE_LOCK_LOSS: R370. -/
  | laneLockLoss (lane : Nat)
  /-- TRAINING_PHASE_DONE: R377. -/
  | trainingPhaseDone (ok : Bool) (lanes : List Nat)
  /-- NEGOTIATION_FRAME: R382. -/
  | negotiationFrame (bytes : Bytes)
  /-- RETRAIN_TIMEOUT: R376. -/
  | retrainTimeout
  /-- LINK_DOWN_RETRY: R376. -/
  | linkDownRetry
  /-- SYNC_WR: R373. -/
  | syncWr (t : TMsg)
  /-- SYNC_ACK: R346. -/
  | syncAck (t : TMsg)
  /-- LAG_REC: R348. -/
  | lagRec (t : TMsg)
  /-- LAG_END: R349. -/
  | lagEnd (t : TMsg)
  /-- LAG_ACCEPT: R325. -/
  | lagAccept (t : TMsg)
  /-- LAG_APPLIED: R350. -/
  | lagApplied (t : TMsg)
  /-- DROP: R345. -/
  | dropMirror (t : TMsg)
  /-- REPAIR_RD: R373. -/
  | repairRd (t : TMsg)
  /-- REPAIR_DATA: R356. -/
  | repairData (t : TMsg)
  /-- PLAN_DATA: R373. -/
  | planData (t : TMsg)
  /-- RESYNC_BEGIN: R353. -/
  | resyncBegin (t : TMsg)
  /-- RESYNC_DONE: R373. -/
  | resyncDone (t : TMsg)
  /-- CREDIT_RETURN: R268. -/
  | creditReturn (port : Port) (cls : Nat)
  /-- CLOCK_PRESENT: R551. -/
  | clockPresent (clk : Nat)
  /-- CLK_AON_RETURN: R50. -/
  | clkAonReturn
  /-- RETENTION_ENTRY_LIMIT: R557. -/
  | retentionEntryLimit
  /-- TAP_INSTRUCTION: R578. -/
  | tapInstruction (wrapper : Bool) (ir : Nat) (run : TestRun := .none)
  deriving DecidableEq, Repr

end Sys2Proof
end

