-- ==== Sys2Proof/Decode.lean ====
section
/-! DEFINITION. The command a table word spells. -/

namespace Sys2Proof

/-- spec/opcode_table.json gives no row an encoding (every row's list of fields is empty): the block takes its commands as
messages, frames, beats and events, so no word of `nbits` bits spells one. -/
def decodeTableWord (_nbits _w : Nat) : Option Instr := none

end Sys2Proof
end

