-- ==== Sys2Proof/Config.lean ====
section
/-! DEFINITION. What an implementation fixes and the values the spec leaves open: constants with no body (notes/assumptions 4). -/

namespace Sys2Proof.Config

open Sys2Proof

/-- The expected signature of known-answer kernel `k` (spec/13 R491 gives the kernels, not their signatures). DESIGN CHOICE. -/
opaque kernelSig : Nat → Nat

/-- The Apondoa key held in ROM, as its SEC1 point coordinates (R574 names it, gives no value). DESIGN CHOICE. -/
opaque romKeyX : Nat
opaque romKeyY : Nat

/-- A value the spec does not state, drawn by the counter `State.free`. DESIGN CHOICE. -/
opaque freeNat : Nat → Nat

/-- Word `off / 4` of the identity region of the ledger, from its contents in the order of R480, whose layout the spec does not
give; of the repair map, from its generation count, spare assignments and disabled ways; and of an entry never written. DESIGN
CHOICE. -/
opaque identityWord : List Nat → Nat → Nat
opaque repairMapWord : List (List Nat) → Nat → Nat
opaque ledgerBlank : Nat → Nat

end Sys2Proof.Config
end

