-- ==== Sys2Proof/Machine/Bits.lean ====
section
/-! DEFINITION. Bit fields, byte order and byte-mask helpers used by every family (spec/00_scope.md R10). -/

namespace Sys2Proof.Machine

/-- Bits [hi:lo] of a number. -/
def fld (v hi lo : Nat) : Nat := (v >>> lo) % 2 ^ (hi + 1 - lo)

/-- Bit `i` of a number. -/
def bit (v i : Nat) : Bool := v.testBit i

/-- `v` with bits [hi:lo] replaced by `x`. -/
def setFld (v hi lo x : Nat) : Nat :=
  v - (fld v hi lo <<< lo) + ((x % 2 ^ (hi + 1 - lo)) <<< lo)

/-- A field value as a number placed at `lo`. -/
def at_ (x lo : Nat) : Nat := x <<< lo

/-- A flag as a number. -/
def b2n (b : Bool) : Nat := if b then 1 else 0

/-- The number little-endian bytes spell (R10). -/
def leNat : Bytes → Nat
  | [] => 0
  | b :: bs => b.toNat + 256 * leNat bs

/-- The `n` little-endian bytes of a number (R10). -/
def leBytes : Nat → Nat → Bytes
  | 0, _ => []
  | n + 1, v => BitVec.ofNat 8 v :: leBytes n (v / 256)

/-- Bytes `off` to `off + n - 1` of a byte list, read as zero beyond its end. -/
def slice (bs : Bytes) (off n : Nat) : Bytes :=
  ((bs.drop off).take n) ++ List.replicate (n - ((bs.drop off).take n).length) 0

/-- The little-endian number at `off` of width `n` bytes. -/
def leAt (bs : Bytes) (off n : Nat) : Nat := leNat ((bs.drop off).take n)

/-- Bits `8*off` up for `n` bytes of a line. -/
def lineNat (d : LineData) (off n : Nat) : Nat := (d.toNat >>> (8 * off)) % 2 ^ (8 * n)

/-- Bytes `off` to `off + n - 1` of a line. -/
def lineBytes (d : LineData) (off n : Nat) : Bytes := leBytes n (lineNat d off n)

/-- The bytes of a line from its 512 bytes. -/
def lineOf (bs : Bytes) : LineData := BitVec.ofNat 4096 (leNat bs)

/-- `n` ones starting at bit `off`. -/
def onesAt (off n : Nat) : Nat := (2 ^ n - 1) <<< off

/-- The line mask of the bytes `off` to `off + n - 1`. -/
def spanMask (off n : Nat) : LineMask := BitVec.ofNat 512 (onesAt off n)

/-- A mask of bits widened to a mask of bytes of data, least significant first. -/
def widenMask : Nat → Nat → Nat
  | 0, _ => 0
  | n + 1, m => (if m.testBit n then 255 <<< (8 * n) else 0) + widenMask n m

/-- The data mask of a byte mask of a line. -/
def dataMask (m : LineMask) : LineData := BitVec.ofNat 4096 (widenMask 512 m.toNat)

/-- `d` with the bytes `m` selects replaced by those of `x` (R148, R297). -/
def mergeBytes (d x : LineData) (m : LineMask) : LineData :=
  (d &&& ~~~ dataMask m) ||| (x &&& dataMask m)

/-- The sectors of a line a byte mask touches, one bit per sector (R69). -/
def sectorsOf (m : LineMask) : BitVec 8 :=
  BitVec.ofNat 8 ((List.range 8).foldl
    (fun a k => a + (if (m.toNat >>> (64 * k)) % 2 ^ 64 = 0 then 0 else 2 ^ k)) 0)

/-- The eight 64-byte masks of whole sectors, widened from a sector set. -/
def maskOfSectors (m : BitVec 8) : LineMask :=
  BitVec.ofNat 512 ((List.range 8).foldl
    (fun a k => a + (if m.toNat.testBit k then onesAt (64 * k) 64 else 0)) 0)

/-- The number of ones. -/
def popcount (n v : Nat) : Nat := (List.range n).foldl (fun a k => a + b2n (v.testBit k)) 0

/-- The ceiling of a quotient. -/
def ceilDiv (a b : Nat) : Nat := (a + (b - 1)) / b

/-- The element at `n` replaced, nothing beyond the end. -/
def setAt {α : Type} (l : List α) (n : Nat) (x : α) : List α := l.set n x

/-- A saturating counter of `w` bits counts one (a counter that must not wrap). -/
def satInc (w v : Nat) : Nat := if v + 1 < 2 ^ w then v + 1 else 2 ^ w - 1

/-- A counter of `w` bits that wraps. -/
def wrapInc (w v : Nat) : Nat := (v + 1) % 2 ^ w

end Sys2Proof.Machine
end

