-- ==== Sys2Proof/Machine/Crypto.lean ====
section
/-! DEFINITION. The standard functions spec/16 names: SHA-256 and SHA-384 (FIPS 180-4), HMAC-SHA-256 (FIPS 198-1) and ECDSA
verification over P-384 (FIPS 186-5). R574, R579. -/

namespace Sys2Proof.Machine

open Sys2Proof

/-! ## SHA-2 (DEDUCED, notes/assumptions 11) -/

/-- The parameters of a member of SHA-2: word width, round constants, initial words and the rotation amounts of the functions
Σ0, Σ1, σ0, σ1 (the last amount of σ0 and σ1 a shift). -/
structure Sha where
  w : Nat
  ks : List Nat
  init : List Nat
  big0 : Nat × Nat × Nat
  big1 : Nat × Nat × Nat
  small0 : Nat × Nat × Nat
  small1 : Nat × Nat × Nat

/-- A prime below 441: no divisor from 2 to 20 but itself. -/
def isPrime (p : Nat) : Bool := decide (2 ≤ p) && (List.range 19).all fun d => p == d + 2 || p % (d + 2) != 0

/-- The first 80 primes. -/
def primes : List Nat := (List.range 410).filter isPrime

/-- The whole part of the k-th root of a number, settled from bit `n - 1` down. -/
def rootBits (k x : Nat) : Nat → Nat → Nat
  | 0, r => r
  | n + 1, r => rootBits k x n (if (r + 2 ^ n) ^ k ≤ x then r + 2 ^ n else r)

/-- The first `w` bits of the fraction of the k-th root of a prime: where FIPS 180-4 takes its constants from. -/
def rootFrac (k w p : Nat) : Nat := rootBits k (p * 2 ^ (k * w)) (w + 5) 0 % 2 ^ w

/-- Round constants of a member: cube roots of the first `n` primes. -/
def shaK (w n : Nat) : List Nat := (primes.take n).map (rootFrac 3 w)

/-- Initial words: square roots of the first eight primes for SHA-256, of the next eight for SHA-384. -/
def shaH (w skip : Nat) : List Nat := ((primes.drop skip).take 8).map (rootFrac 2 w)

def sha256p : Sha := ⟨32, shaK 32 64, shaH 32 0, (2, 13, 22), (6, 11, 25), (7, 18, 3), (17, 19, 10)⟩
def sha384p : Sha := ⟨64, shaK 64 80, shaH 64 8, (28, 34, 39), (14, 18, 41), (1, 8, 7), (19, 61, 6)⟩

/-- A word rotated right. -/
def rotr (w x n : Nat) : Nat := (x >>> n ||| x <<< (w - n)) % 2 ^ w

/-- Σ: three rotations. -/
def shaBig (w : Nat) (r : Nat × Nat × Nat) (x : Nat) : Nat := rotr w x r.1 ^^^ rotr w x r.2.1 ^^^ rotr w x r.2.2

/-- σ: two rotations and a shift. -/
def shaSmall (w : Nat) (r : Nat × Nat × Nat) (x : Nat) : Nat := rotr w x r.1 ^^^ rotr w x r.2.1 ^^^ x >>> r.2.2

/-- The number big-endian bytes spell. -/
def beNat (bs : Bytes) : Nat := bs.foldl (fun a b => 256 * a + b.toNat) 0

/-- The `n` big-endian bytes of a number. -/
def beBytes (n v : Nat) : Bytes := (leBytes n v).reverse

/-- The message schedule, most recent word first. -/
def shaSchedule (p : Sha) : Nat → List Nat → List Nat
  | 0, ws => ws
  | n + 1, ws =>
    let x := (shaSmall p.w p.small1 (ws.getD 1 0) + ws.getD 6 0 + shaSmall p.w p.small0 (ws.getD 14 0) + ws.getD 15 0) % 2 ^ p.w
    shaSchedule p n (x :: ws)

/-- The rounds of the compression function over (constant, schedule word) pairs. -/
def shaRounds (p : Sha) : List (Nat × Nat) → List Nat → List Nat
  | (k, x) :: r, [a, b, c, d, e, f, g, h] =>
    let t1 := h + shaBig p.w p.big1 e + ((e &&& f) ^^^ ((2 ^ p.w - 1 - e) &&& g)) + k + x
    let t2 := shaBig p.w p.big0 a + ((a &&& b) ^^^ (a &&& c) ^^^ (b &&& c))
    shaRounds p r [(t1 + t2) % 2 ^ p.w, a, b, c, (d + t1) % 2 ^ p.w, e, f, g]
  | _, v => v

/-- One block. -/
def shaBlock (p : Sha) (hs : List Nat) (blk : Bytes) : List Nat :=
  let ws := (List.range 16).map fun i => beNat ((blk.drop (p.w / 8 * i)).take (p.w / 8))
  let sched := (shaSchedule p (p.ks.length - 16) ws.reverse).reverse
  (hs.zip (shaRounds p (p.ks.zip sched) hs)).map fun x => (x.1 + x.2) % 2 ^ p.w

/-- Every block of a padded message. -/
def shaBlocks (p : Sha) : Nat → Bytes → List Nat → List Nat
  | 0, _, hs => hs
  | n + 1, bs, hs => shaBlocks p n (bs.drop (2 * p.w)) (shaBlock p hs (bs.take (2 * p.w)))

/-- A message padded to whole blocks of 2w bytes. -/
def shaPad (p : Sha) (m : Bytes) : Bytes :=
  let bl := 2 * p.w
  let z := (bl - (m.length + 1 + p.w / 4) % bl) % bl
  m ++ [0x80] ++ List.replicate z 0 ++ beBytes (p.w / 4) (8 * m.length)

/-- The hash words of a message. -/
def shaHash (p : Sha) (m : Bytes) : Bytes :=
  let b := shaPad p m
  ((shaBlocks p (b.length / (2 * p.w)) b p.init).map (beBytes (p.w / 8))).flatten

def sha256 (m : Bytes) : Bytes := shaHash sha256p m
def sha384 (m : Bytes) : Bytes := (shaHash sha384p m).take 48

/-- HMAC-SHA-256 with a key of at most 64 bytes. -/
def hmacSha256 (key m : Bytes) : Bytes :=
  let k := slice key 0 64
  sha256 (k.map (· ^^^ 0x5C) ++ sha256 (k.map (· ^^^ 0x36) ++ m))

/-! ## ECDSA over P-384 -/

def p384p : Nat := 2 ^ 384 - 2 ^ 128 - 2 ^ 96 + 2 ^ 32 - 1
def p384n : Nat := 0xffffffffffffffffffffffffffffffffffffffffffffffffc7634d81f4372ddf581a0db248b0a77aecec196accc52973
def p384b : Nat := 0xb3312fa7e23ee7e4988e056be3f82d19181d9c6efe8141120314088f5013875ac656398d8a2ed19d2a85c8edd3ec2aef
def p384g : Nat × Nat :=
  (0xaa87ca22be8b05378eb1c71ef320ad746e1d3b628ba79b9859f741e082542a385502f25dbf55296c3a545e3872760ab7,
   0x3617de4a96262c6f5d9e98bf9292dc29f8f41dbd289a147ce9da3113b5f0b8c00a60b1ce1d7e819d7a431d7c90ea0e5f)

/-- A power modulo m, the exponent's bits consumed. -/
def powMod (m : Nat) : Nat → Nat → Nat → Nat
  | 0, _, _ => 1 % m
  | n + 1, b, e =>
    let h := powMod m n (b * b % m) (e / 2)
    if e % 2 = 1 then b * h % m else h

/-- The inverse modulo a prime of at most 384 bits. -/
def invMod (m a : Nat) : Nat := powMod m 384 (a % m) (m - 2)

/-- The sum of two points of P-384; none is the point at infinity. -/
def ecAdd (a b : Option (Nat × Nat)) : Option (Nat × Nat) :=
  match a, b with
  | none, q => q
  | q, none => q
  | some (x1, y1), some (x2, y2) =>
    if x1 = x2 ∧ (y1 + y2) % p384p = 0 then none
    else
      let l := if x1 = x2 then (3 * x1 * x1 + 3 * (p384p - 1)) * invMod p384p (2 * y1) % p384p
        else (y2 + p384p - y1) * invMod p384p (x2 + p384p - x1) % p384p
      let x := (l * l + 2 * p384p - x1 - x2) % p384p
      some (x, (l * (x1 + p384p - x) + p384p - y1) % p384p)

/-- A multiple of a point, the factor's bits consumed. -/
def ecMul : Nat → Nat → Option (Nat × Nat) → Option (Nat × Nat)
  | 0, _, _ => none
  | n + 1, k, q =>
    let h := ecMul n (k / 2) (ecAdd q q)
    if k % 2 = 1 then ecAdd q h else h

/-- A point on the curve. -/
def onCurve (q : Nat × Nat) : Bool :=
  decide (q.1 < p384p ∧ q.2 < p384p ∧ (q.2 * q.2) % p384p = (q.1 * q.1 * q.1 + (p384p - 3) * q.1 + p384b) % p384p)

/-- ECDSA verification of a message's SHA-384 against a public key and a signature (r, s). DEDUCED, notes/assumptions 11. -/
def ecdsaGood (key : Nat × Nat) (m : Bytes) (r s : Nat) : Bool :=
  let z := beNat (sha384 m)
  let w := invMod p384n s
  onCurve key && decide (0 < r ∧ r < p384n ∧ 0 < s ∧ s < p384n) &&
    match ecAdd (ecMul 384 (z * w % p384n) (some p384g)) (ecMul 384 (r * w % p384n) (some key)) with
    | none => false
    | some q => q.1 % p384n == r

end Sys2Proof.Machine
end

