-- ==== Sys2Proof/Machine/Crc.lean ====
section
/-! DEFINITION. The check codes: CRC-32C of lines (spec/02 R75), CRC-32 of tether flits (spec/09 R365), CRC-64 of digests
(spec/04 R193). -/

namespace Sys2Proof.Machine

/-- One bit of a reflected CRC. -/
def crcBit {n : Nat} (poly c : BitVec n) : BitVec n :=
  if c.getLsbD 0 then (c >>> 1) ^^^ poly else c >>> 1

/-- One byte of a reflected CRC. -/
def crcByte {n : Nat} (poly c : BitVec n) (b : Byte) : BitVec n :=
  let p := crcBit poly
  p (p (p (p (p (p (p (p (c ^^^ b.setWidth n))))))))

/-- A reflected CRC with initial value and final exclusive-or all ones. -/
def crcReflected {n : Nat} (poly : BitVec n) (bs : Bytes) : BitVec n :=
  ~~~ (bs.foldl (crcByte poly) (BitVec.allOnes n))

/-- CRC-32C (Castagnoli), reflected polynomial 0x82F63B78 (R75). -/
def crc32c (bs : Bytes) : BitVec 32 := crcReflected 0x82F63B78 bs

/-- CRC-32, reflected polynomial 0xEDB88320 (spec/09 R365). -/
def crc32 (bs : Bytes) : BitVec 32 := crcReflected 0xEDB88320 bs

/-- CRC-64 of polynomial 0x42F0E1EBA9EA3693, reflected 0xC96C5795D7870F42 (R193). -/
def crc64 (bs : Bytes) : BitVec 64 := crcReflected 0xC96C5795D7870F42 bs

/-- The CRC a line carries (R75). -/
def lineCrc (d : LineData) : BitVec 32 := crc32c (lineBytes d 0 512)

end Sys2Proof.Machine
end

