-- ==== Sys2Proof/Machine/Names.lean ====
section
/-! DEFINITION. The numbers of events (spec/14 R531) and of statuses (spec/11, the status table) by their names. -/

namespace Sys2Proof.Machine

/-! ## Events -/

abbrev Ev.readHit : Nat := 0x00
abbrev Ev.readMiss : Nat := 0x01
abbrev Ev.writeHit : Nat := 0x02
abbrev Ev.writeMiss : Nat := 0x03
abbrev Ev.missMerge : Nat := 0x04
abbrev Ev.evictClean : Nat := 0x05
abbrev Ev.evictDirty : Nat := 0x06
abbrev Ev.allocBypass : Nat := 0x07
abbrev Ev.staleDirtyDrop : Nat := 0x08
abbrev Ev.fallowRead : Nat := 0x09
abbrev Ev.prefetchIssued : Nat := 0x0A
abbrev Ev.prefetchDropped : Nat := 0x0B
abbrev Ev.prefetchThrottled : Nat := 0x0C
abbrev Ev.mheFull : Nat := 0x0D
abbrev Ev.bankConflict : Nat := 0x0E
abbrev Ev.narrowRmw : Nat := 0x0F
abbrev Ev.baleWriteBlock : Nat := 0x10
abbrev Ev.baleReadBlock : Nat := 0x11
abbrev Ev.baleNan : Nat := 0x12
abbrev Ev.baleSat : Nat := 0x13
abbrev Ev.atomic : Nat := 0x14
abbrev Ev.atomicCloseWait : Nat := 0x15
abbrev Ev.atomicMemPath : Nat := 0x16
abbrev Ev.atomicFpInvalid : Nat := 0x17
abbrev Ev.sheafContrib : Nat := 0x18
abbrev Ev.sheafRange : Nat := 0x19
abbrev Ev.digestLine : Nat := 0x1A
abbrev Ev.planInstance : Nat := 0x20
abbrev Ev.planMiss : Nat := 0x21
abbrev Ev.planHold : Nat := 0x22
abbrev Ev.planBankConflict : Nat := 0x23
abbrev Ev.planStrayBeat : Nat := 0x24
abbrev Ev.planWbufOverflow : Nat := 0x25
abbrev Ev.planSfHit : Nat := 0x26
abbrev Ev.synTokenIgnored : Nat := 0x27
abbrev Ev.synBad : Nat := 0x28
abbrev Ev.stageDrop : Nat := 0x29
abbrev Ev.planRunning : Nat := 0x2A
abbrev Ev.openCycle : Nat := 0x2B
abbrev Ev.openIdle : Nat := 0x2C
abbrev Ev.sfAlloc : Nat := 0x30
abbrev Ev.sfBi : Nat := 0x31
abbrev Ev.biTrackerFull : Nat := 0x32
abbrev Ev.biasHostUncached : Nat := 0x33
abbrev Ev.biasMiss : Nat := 0x34
abbrev Ev.hintDeclined : Nat := 0x35
abbrev Ev.msgBad : Nat := 0x36
abbrev Ev.sfCautious : Nat := 0x37
abbrev Ev.biOutstanding : Nat := 0x38
abbrev Ev.logEarly : Nat := 0x40
abbrev Ev.genCarry : Nat := 0x41
abbrev Ev.logDiscard : Nat := 0x42
abbrev Ev.logFull : Nat := 0x43
abbrev Ev.mirrorClean : Nat := 0x44
abbrev Ev.lagWait : Nat := 0x45
abbrev Ev.pairUnavailUs : Nat := 0x46
abbrev Ev.genSeal : Nat := 0x47
abbrev Ev.logRecord : Nat := 0x48
abbrev Ev.tthRetry : Nat := 0x50
abbrev Ev.tthLaneDrop : Nat := 0x51
abbrev Ev.tthOutDiscard : Nat := 0x52
abbrev Ev.tthOutNolink : Nat := 0x53
abbrev Ev.tthFlitData : Nat := 0x54
abbrev Ev.tthFlitNull : Nat := 0x55
abbrev Ev.descAhead : Nat := 0x60
abbrev Ev.doorbellSpurious : Nat := 0x61
abbrev Ev.ringCfgBad : Nat := 0x62
abbrev Ev.fallowNoteDrop : Nat := 0x63
abbrev Ev.eventDrop : Nat := 0x64
abbrev Ev.command : Nat := 0x65
abbrev Ev.record : Nat := 0x66
abbrev Ev.memCorrected : Nat := 0x70
abbrev Ev.harrowLate : Nat := 0x71
abbrev Ev.harrowSkip : Nat := 0x72
abbrev Ev.errorDrop : Nat := 0x73
abbrev Ev.hdrBad : Nat := 0x74
abbrev Ev.hdrUndelivered : Nat := 0x75
abbrev Ev.harrowVisit : Nat := 0x76
abbrev Ev.kernelRun : Nat := 0x77
abbrev Ev.memPressure : Nat := 0x80
abbrev Ev.qosTier1Issue : Nat := 0x81
abbrev Ev.qosHardIdle : Nat := 0x82
abbrev Ev.qosMheLimit : Nat := 0x83
abbrev Ev.traceTagged : Nat := 0x84
abbrev Ev.traceDrop : Nat := 0x85
abbrev Ev.energyCal : Nat := 0x86
abbrev Ev.energyCalSkip : Nat := 0x87
abbrev Ev.energyCalStale : Nat := 0x88
abbrev Ev.ppsEdge : Nat := 0x89
abbrev Ev.ppsGlitch : Nat := 0x8A
abbrev Ev.ppsOffRate : Nat := 0x8B
abbrev Ev.timeStep : Nat := 0x8C

/-! ## Statuses -/

abbrev St.ok : Nat := 0x00
abbrev St.planMiss : Nat := 0x01
abbrev St.dataError : Nat := 0x02
abbrev St.dataLost : Nat := 0x03
abbrev St.recomputePending : Nat := 0x04
abbrev St.badAddr : Nat := 0x05
abbrev St.badAttr : Nat := 0x06
abbrev St.badOp : Nat := 0x07
abbrev St.badSize : Nat := 0x08
abbrev St.ctxFrozen : Nat := 0x09
abbrev St.sheafBound : Nat := 0x0A
abbrev St.unsupported : Nat := 0x0B
abbrev St.hedgeDenied : Nat := 0x0C
abbrev St.fenced : Nat := 0x0D
abbrev St.badDesc : Nat := 0x10
abbrev St.notPrivileged : Nat := 0x11
abbrev St.badState : Nat := 0x12
abbrev St.ctxDenied : Nat := 0x13
abbrev St.lastOverlap : Nat := 0x14
abbrev St.lastBusy : Nat := 0x15
abbrev St.noSpace : Nat := 0x16
abbrev St.noFellow : Nat := 0x17
abbrev St.lockLimit : Nat := 0x18
abbrev St.genPending : Nat := 0x19
abbrev St.badLog : Nat := 0x1A
abbrev St.sheafRange : Nat := 0x1B
abbrev St.badPlan : Nat := 0x1C
abbrev St.planBusy : Nat := 0x1D
abbrev St.badSignature : Nat := 0x1E
abbrev St.testFail : Nat := 0x1F
abbrev St.planNodata : Nat := 0x20
abbrev St.retention : Nat := 0x21
abbrev St.descAhead : Nat := 0x30
abbrev St.ringOverrun : Nat := 0x31
abbrev St.ringFault : Nat := 0x32
abbrev St.planStopped : Nat := 0x33
abbrev St.logFull : Nat := 0x34
abbrev St.restored : Nat := 0x35
abbrev St.pairDegraded : Nat := 0x36
abbrev St.rollback : Nat := 0x37
abbrev St.takenOver : Nat := 0x38
abbrev St.pairRefused : Nat := 0x39
abbrev St.tthNarrow : Nat := 0x3A
abbrev St.portParity : Nat := 0x40
abbrev St.biTimeout : Nat := 0x41
abbrev St.clockLost : Nat := 0x42
abbrev St.lastFailed : Nat := 0x43
abbrev St.lineRepaired : Nat := 0x44
abbrev St.recomputeRequest : Nat := 0x45
abbrev St.spareUsed : Nat := 0x50
abbrev St.wayDisabled : Nat := 0x51
abbrev St.retireRequest : Nat := 0x52
abbrev St.oppointProposed : Nat := 0x53
abbrev St.flowStop : Nat := 0x54
abbrev St.ppsLost : Nat := 0x58
abbrev St.ppsRegained : Nat := 0x59

end Sys2Proof.Machine
end

