-- ==== Sys2Proof/Machine/RegMap.lean ====
section
/-! DEFINITION. The setup register map as data: the table of spec/17_register_map.md R594 with the bit fields of the rules it
names. Read-only fields hold no bits here: Machine/Regs.lean forms them from the state. -/

namespace Sys2Proof.Machine

/-- One register, or a row of like registers: offset, stride, count, bytes, the bits software writes, the bits a write of 1
clears, the writable bits' reset value, whether its home is C, and privilege (0 none, 1 for the first four, 2 always). -/
structure RegRow where
  off : Nat
  stride : Nat
  count : Nat
  bytes : Nat
  rw : Nat
  w1c : Nat
  reset : Nat
  homeC : Bool
  priv : Nat
  deriving DecidableEq, Repr

/-- Part 1 of the map of R594. -/
def regRows1 : List RegRow :=
  [
   ⟨0x0000, 0, 1, 4, 0x0, 0x0, 0x0, false, 0⟩ /- DRF_VERSION, R4 -/,
   ⟨0x0008, 0, 1, 8, 0x0, 0x0, 0x0, false, 0⟩ /- DRF_CAPS, R5 -/,
   ⟨0x0010, 0, 1, 8, 0x0, 0x0, 0x0, false, 0⟩ /- DRF_IDENT, R593 -/,
   ⟨0x0020, 0, 1, 8, 0xFFFFFFFFFFFFFFFF, 0x0, 0x0, false, 0⟩ /- DRF_SCRATCH, R593 -/,
   ⟨0x0028, 0, 1, 8, 0x0, 0xC000000000000000, 0x0, false, 0⟩ /- DRF_CSR_LOG, R593 -/,
   ⟨0x0040, 0, 1, 4, 0x0, 0x4000, 0x0, false, 0⟩ /- DRF_CLK_STATUS, R35 -/,
   ⟨0x0048, 0, 1, 4, 0xFFFF, 0x20000000, 0xA46, false, 0⟩ /- DRF_SUPPLY_CTL, R49 -/,
   ⟨0x0050, 0, 1, 8, 0x0, 0x300000000000000, 0x0, false, 0⟩ /- DRF_POWER_STATUS, R563 -/,
   ⟨0x0100, 0, 1, 4, 0x7, 0x0, 0x0, false, 0⟩ /- DRF_INDEX_CTL, R74 -/,
   ⟨0x0108, 0, 1, 4, 0xF, 0x0, 0x0, false, 0⟩ /- DRF_PIN_CTL, R99 -/,
   ⟨0x0110, 0, 1, 8, 0xFFFFFFFFFFFF, 0x0, 0xFFFFFFFFFFFF, false, 2⟩ /- DRF_PRIV_WAYMASK, R101 -/,
   ⟨0x0118, 0, 1, 8, 0x1FF00FFFFFFFFFF, 0x0, 0x100000000000000, false, 0⟩ /- DRF_LAST_DEFAULT, R85 -/,
   ⟨0x0120, 0, 1, 4, 0xFF, 0x0, 0x81, false, 0⟩ /- DRF_LAST_DEFAULT_PF, R86 -/,
   ⟨0x0400, 0, 1, 8, 0x0, 0x0, 0x0, false, 0⟩ /- DRF_PLAN_STATUS, R239 -/,
   ⟨0x0408, 0, 1, 8, 0x0, 0xFFFFFFFFFFFFFFFF, 0x0, false, 0⟩ /- DRF_PLAN_SYNFLAGS, R240 -/,
   ⟨0x0440, 8, 8, 8, 0x0, 0x0, 0x0, false, 0⟩ /- DRF_PLAN_DIGESTn, R240 -/,
   ⟨0x0600, 0, 1, 4, 0xD, 0x0, 0x0, false, 0⟩ /- DRF_BIAS_CTL, R255 -/,
   ⟨0x0608, 0, 1, 8, 0xFFFFFFFFFFF80, 0x0, 0x0, false, 0⟩ /- DRF_BIAS_TABLE, R256 -/,
   ⟨0x0610, 0, 1, 8, 0xFFFFFFFFFFFFF, 0x0, 0x0, false, 0⟩ /- DRF_BIAS_LO, R256 -/,
   ⟨0x0618, 0, 1, 8, 0xFFFFFFFFFFFFF, 0x0, 0x0, false, 0⟩ /- DRF_BIAS_HI, R256 -/,
   ⟨0x0620, 0, 1, 4, 0xC07F, 0x0, 0x40, false, 0⟩ /- DRF_SF_CTL, R250 -/,
   ⟨0x0628, 0, 1, 8, 0x0, 0x0, 0x0, false, 0⟩ /- DRF_SF_STATUS, R251 -/,
   ⟨0x0800, 16, 16, 8, 0xFFFFFFFFFFFFF, 0x0, 0x0, false, 0⟩ /- DRF_LOGn_BASE, R328 -/,
   ⟨0x0808, 16, 16, 8, 0x8000001F00000000, 0x0, 0xC00000000, false, 0⟩ /- DRF_LOGn_CTL, R328 -/
  ]

/-- Part 2 of the map of R594. -/
def regRows2 : List RegRow :=
  [
   ⟨0x0900, 0, 1, 4, 0xF0, 0x0, 0x0, false, 0⟩ /- DRF_PAIR_CTL, R342 -/,
   ⟨0x0908, 0, 1, 8, 0x3EFFFFFFFFFFFFF, 0x0, 0x200000000000000, false, 0⟩ /- DRF_PAIR_STAGE, R342 -/,
   ⟨0x0A00, 0, 1, 4, 0xE000FF00, 0x0, 0x4000, false, 0⟩ /- DRF_TTH_CTL, R385 -/,
   ⟨0x0A08, 0, 1, 8, 0x0, 0xFF00000000, 0x0, false, 0⟩ /- DRF_TTH_STATUS, R386 -/,
   ⟨0x0A10, 0, 1, 4, 0x8003FFFF, 0x0, 0x0, false, 2⟩ /- DRF_TTH_FELLOW, R387 -/,
   ⟨0x0A40, 4, 8, 4, 0x0, 0x0, 0x0, false, 0⟩ /- DRF_TTH_LANEn, R388 -/,
   ⟨0x0C00, 0, 1, 8, 0x800000000001FFFF, 0x4000000000000000, 0x8000000000000E10, false, 0⟩ /- DRF_HARROW_CTL, R458 -/,
   ⟨0x0C08, 0, 1, 8, 0x0, 0x0, 0x0, false, 0⟩ /- DRF_HARROW_STATUS, R458 -/,
   ⟨0x0C10, 0, 1, 8, 0xDFE00FFF00000000, 0x2000000000000000, 0x0, false, 2⟩ /- DRF_FLIPMASK, R461 -/,
   ⟨0x0C18, 0, 1, 8, 0x800FFFFFFFFFFE00, 0x0, 0x0, false, 2⟩ /- DRF_FLIPMASK_ADDR, R461 -/,
   ⟨0x0C20, 0, 1, 4, 0x0, 0x0, 0x0, false, 0⟩ /- DRF_FENCE_STATUS, R479 -/,
   ⟨0x0C28, 0, 1, 4, 0xFFFF80FF, 0x0, 0x800A, false, 0⟩ /- DRF_HDR_CTL, R471 -/,
   ⟨0x0D00, 0, 1, 8, 0xFC00FFFF0000FFFF, 0x0, 0xC000000A00000E10, false, 0⟩ /- DRF_HEALTH_CTL, R508 -/,
   ⟨0x0D08, 0, 1, 8, 0x0, 0x0, 0x0, false, 0⟩ /- DRF_HEALTH_STATUS, R508 -/,
   ⟨0x0D10, 0, 1, 8, 0x0, 0x0, 0x0, false, 0⟩ /- DRF_SPARE_USED, R509 -/,
   ⟨0x0D20, 8, 4, 8, 0x0, 0x0, 0x0, false, 0⟩ /- DRF_WAYDISn, R509 -/,
   ⟨0x0D40, 0, 1, 8, 0x0, 0x0, 0x0, false, 0⟩ /- DRF_AGEING, R509 -/,
   ⟨0x0D48, 0, 1, 4, 0xFFFF, 0x0, 0x0, false, 0⟩ /- DRF_LEDGER_ADDR, R510 -/,
   ⟨0x0D4C, 0, 1, 4, 0x0, 0x0, 0x0, false, 0⟩ /- DRF_LEDGER_DATA, R510 -/,
   ⟨0x0E00, 0, 1, 8, 0x0, 0x0, 0x0, false, 0⟩ /- DRF_TIME, R546 -/,
   ⟨0x0E08, 0, 1, 4, 0x80000000, 0x0, 0x80000000, false, 0⟩ /- DRF_PPS_CTL, R546 -/,
   ⟨0x0E10, 0, 1, 8, 0x3FFFFFFFF, 0x0, 0x0, false, 0⟩ /- DRF_PPS_SECONDS, R546 -/,
   ⟨0x0E18, 0, 1, 8, 0x0, 0x0, 0x0, false, 0⟩ /- DRF_PPS_STATUS, R546 -/,
   ⟨0x0F00, 0, 1, 4, 0x87FFFFFF, 0x0, 0x10001, false, 2⟩ /- DRF_HEDGE_CTL, R570 -/
  ]

/-- Part 3 of the map of R594. -/
def regRows3 : List RegRow :=
  [
   ⟨0x0F08, 0, 1, 8, 0x0, 0x8000000000000000, 0x0, false, 2⟩ /- DRF_HEDGE_DENIED, R570 -/,
   ⟨0x0F10, 0, 1, 4, 0xF8000000, 0x0, 0x28000000, false, 2⟩ /- DRF_SEC_CTL, R573 -/,
   ⟨0x0F20, 8, 4, 8, 0x0, 0x0, 0x0, false, 2⟩ /- DRF_PAIR_KEYk, R580 -/,
   ⟨0x0F40, 8, 16, 8, 0x800703FFFF03FFFF, 0x0, 0x0, false, 2⟩ /- DRF_HEDGE_MATCHm, R570 -/,
   ⟨0x1000, 64, 64, 4, 0xFFFFFC00, 0x0, 0x0, false, 1⟩ /- DRF_RINGn_BASE_LO, R412 -/,
   ⟨0x1004, 64, 64, 4, 0xFFFFF, 0x0, 0x0, false, 1⟩ /- DRF_RINGn_BASE_HI, R412 -/,
   ⟨0x1008, 64, 64, 8, 0xFFFFFFFFFFE00, 0x0, 0x0, false, 1⟩ /- DRF_RINGn_CPL, R412 -/,
   ⟨0x1010, 64, 64, 8, 0xFFFFFFFFFFFC0, 0x0, 0x0, false, 1⟩ /- DRF_RINGn_DB, R412 -/,
   ⟨0x1018, 64, 64, 4, 0x9FFFFFC0, 0x0, 0x8480400, false, 1⟩ /- DRF_RINGn_CTL, R412 -/,
   ⟨0x1020, 64, 64, 8, 0x0, 0x0, 0x0, false, 0⟩ /- DRF_RINGn_STATUS, R412 -/,
   ⟨0x1028, 64, 64, 4, 0x0, 0x0, 0x0, false, 0⟩ /- DRF_RINGn_POSTED, R412 -/,
   ⟨0x1030, 64, 64, 4, 0x1FFF0FFF, 0x0, 0x0, false, 2⟩ /- DRF_RINGn_CTX, R571 -/,
   ⟨0x2000, 32, 4, 8, 0xFFFFFFFFFFE00, 0x0, 0x0, false, 2⟩ /- DRF_EVRINGn_BASE, R413 -/,
   ⟨0x2008, 32, 4, 4, 0x80001FFE, 0x0, 0x800, false, 2⟩ /- DRF_EVRINGn_CTL, R413 -/,
   ⟨0x2010, 32, 4, 8, 0x0, 0x0, 0x0, false, 0⟩ /- DRF_EVRINGn_STATUS, R413 -/,
   ⟨0x2080, 0, 1, 4, 0xFF00FFFF, 0x0, 0xFF000000, false, 2⟩ /- DRF_EVT_ROUTE, R414 -/,
   ⟨0x2400, 16, 64, 8, 0xFFFFFFFFFFFFC, 0x0, 0x0, false, 2⟩ /- DRF_IRQ_ADDRv, R415 -/,
   ⟨0x2408, 16, 64, 4, 0xFFFFFFFF, 0x0, 0x0, false, 2⟩ /- DRF_IRQ_DATAv, R415 -/,
   ⟨0x240C, 16, 64, 4, 0x8000FFFF, 0x0, 0x80000000, false, 2⟩ /- DRF_IRQ_CTLv, R415 -/,
   ⟨0x3000, 8, 16, 8, 0xFFFFFFFFFF800000, 0x0, 0x100000000000, false, 0⟩ /- DRF_QOS_CLASSn, R526 -/,
   ⟨0x3080, 0, 1, 4, 0x7F010000, 0x0, 0x50010000, false, 0⟩ /- DRF_QOS_CTL, R527 -/,
   ⟨0x3100, 8, 16, 8, 0x0, 0x0, 0x0, false, 0⟩ /- DRF_QOS_BWn, R528 -/,
   ⟨0x3180, 8, 16, 8, 0x0, 0x0, 0x0, false, 0⟩ /- DRF_QOS_OCCn, R528 -/,
   ⟨0x3200, 16, 16, 8, 0x0, 0x0, 0x0, false, 0⟩ /- DRF_QOS_MEMTOTn, R528 -/
  ]

/-- Part 4 of the map of R594. -/
def regRows4 : List RegRow :=
  [
   ⟨0x3208, 16, 16, 8, 0x0, 0x0, 0x0, false, 0⟩ /- DRF_QOS_PORTTOTn, R528 -/,
   ⟨0x3400, 0, 1, 8, 0xFFF80000FFFFFFFF, 0x0, 0x0, true, 0⟩ /- DRF_TRACE_CTL, R535 -/,
   ⟨0x3408, 0, 1, 8, 0x1F0FFFFFFFFFFFFF, 0x0, 0xC00000000000000, true, 0⟩ /- DRF_TRACE_BASE, R535 -/,
   ⟨0x3410, 0, 1, 8, 0x0, 0x0, 0x0, true, 0⟩ /- DRF_TRACE_STATUS, R535 -/,
   ⟨0x3500, 0, 1, 4, 0x80FF0000, 0x0, 0x800A0000, false, 0⟩ /- DRF_ENERGY_CTL, R540 -/,
   ⟨0x3508, 0, 1, 8, 0xFFFFFFFFFFFFFFFF, 0x0, 0xC80064001400320, false, 0⟩ /- DRF_ENERGY_COEF0, R540 -/,
   ⟨0x3510, 0, 1, 8, 0xFFFFFFFFFFFFFFFF, 0x0, 0x4070003E8001E0, false, 0⟩ /- DRF_ENERGY_COEF1, R540 -/,
   ⟨0x3518, 0, 1, 8, 0xFFFFFFFFFFFF, 0x0, 0x400040004000, false, 0⟩ /- DRF_ENERGY_GAIN, R540 -/,
   ⟨0x3520, 0, 1, 8, 0xFFFFFFFFFFFF, 0x0, 0x19007D00FA0, false, 0⟩ /- DRF_ENERGY_LEAK, R540 -/,
   ⟨0x3600, 8, 16, 8, 0x0, 0x0, 0x0, true, 0⟩ /- DRF_ENERGY_CLASSn, R540 -/,
   ⟨0x3680, 0, 1, 8, 0x0, 0x0, 0x0, true, 0⟩ /- DRF_ENERGY_STATIC, R540 -/,
   ⟨0x3688, 0, 1, 4, 0xFFF, 0x0, 0x0, false, 0⟩ /- DRF_ENERGY_CTX_SEL, R540 -/,
   ⟨0x3690, 0, 1, 8, 0x0, 0x0, 0x0, true, 0⟩ /- DRF_ENERGY_CTX_DATA, R540 -/,
   ⟨0x4000, 8, 256, 8, 0xFFFFFFFFFFFF, 0x0, 0x0, true, 0⟩ /- DRF_EVTn, R532 -/,
   ⟨0x4800, 8, 4, 8, 0xFFFFFFFFFFFFFFFF, 0x0, 0x0, true, 0⟩ /- DRF_EVT_MODEm, R532 -/,
   ⟨0x4820, 8, 4, 8, 0x0, 0xFFFFFFFFFFFFFFFF, 0x0, true, 0⟩ /- DRF_EVT_OVFm, R532 -/,
   ⟨0x5000, 32, 64, 8, 0x800FFFFFFFFFF000, 0x0, 0x0, false, 2⟩ /- DRF_HEDGE_WINn_BASE, R570 -/,
   ⟨0x5008, 32, 64, 8, 0xFFFFFFFFFF000, 0x0, 0x0, false, 2⟩ /- DRF_HEDGE_WINn_LIMIT, R570 -/,
   ⟨0x5010, 32, 64, 4, 0xFFFF, 0x0, 0x0, false, 2⟩ /- DRF_HEDGE_WINn_PERM, R570 -/
  ]

/-- The map of R594. -/
def regRows : List RegRow := regRows1 ++ regRows2 ++ regRows3 ++ regRows4

/-- The row an offset lies in, if the map assigns it: the offset of a register of the row, or of a 64-bit register's upper
half. -/
def RegRow.has (r : RegRow) (off : Nat) : Bool :=
  if r.count ≤ 1 then decide (r.off = off)
  else decide (r.off ≤ off ∧ (off - r.off) % r.stride = 0 ∧ (off - r.off) / r.stride < r.count)

/-- The register whose offset is exactly `off`. -/
def regAt (off : Nat) : Option RegRow := regRows.find? fun r => r.has off

/-- The writable bits' reset value at an offset, zero where none is assigned. -/
def regReset (off : Nat) : Nat :=
  match regAt off with
  | some r => r.reset
  | none => 0

/-- Registers of which the slice itself changes bits: DRF_SUPPLY_CTL (R49), the default last's (R505), DRF_PLAN_SYNFLAGS (R240),
DRF_TTH_STATUS (R386), DRF_HARROW_CTL (R458), DRF_FLIPMASK (R461), DRF_LEDGER_ADDR (R510), DRF_PPS_SECONDS (R539), DRF_ENERGY_GAIN
(R538). The overflow flags of the event counters lie above (R532). -/
def selfRegs : List Nat := [0x48, 0x118, 0x408, 0xA08, 0xC00, 0xC10, 0xD48, 0xE10, 0x3518]

/-- A register that holds what software wrote, until software or a reset changes it. -/
def setupReg (off : Nat) : Bool := decide (off < 0x4820) && !selfRegs.contains off

end Sys2Proof.Machine
end

