-- ==== Sys2Proof/Machine/SMap.lean ====
section
/-! DEFINITION. Sparse tables: a list of (key, value) pairs in one canonical form, keys strictly rising and no value equal to
the table's default, so that equal tables are equal data. -/

namespace Sys2Proof.Machine

/-- A table whose unlisted keys hold a default the reader names. -/
abbrev SMap (α : Type) := List (Nat × α)

/-- What the table holds at `k`, `d` where nothing is listed. -/
def SMap.get {α : Type} (d : α) : SMap α → Nat → α
  | [], _ => d
  | (k', v) :: r, k => if k = k' then v else SMap.get d r k

/-- What is listed at `k` taken out. -/
def SMap.del {α : Type} : SMap α → Nat → SMap α
  | [], _ => []
  | (k', v) :: r, k => if k = k' then SMap.del r k else (k', v) :: SMap.del r k

/-- The entry at `k` put in its place, whatever its value. -/
def SMap.ins {α : Type} : SMap α → Nat → α → SMap α
  | [], k, x => [(k, x)]
  | (k', v) :: r, k, x =>
    if k = k' then (k, x) :: r
    else if k < k' then (k, x) :: (k', v) :: r
    else (k', v) :: SMap.ins r k x

/-- The table with `x` at `k`; the default removes the entry, so the canonical form holds. -/
def SMap.put {α : Type} [DecidableEq α] (d : α) (m : SMap α) (k : Nat) (x : α) : SMap α :=
  if x = d then SMap.del m k else SMap.ins m k x

/-- Every listed key lies above `k`. -/
def SMap.above {α : Type} : Nat → SMap α → Bool
  | _, [] => true
  | k, (k', _) :: r => decide (k < k') && SMap.above k' r

/-- The canonical form: keys strictly rising, no default listed. -/
def SMap.wf {α : Type} [DecidableEq α] (d : α) : SMap α → Bool
  | [] => true
  | (k, v) :: r => SMap.above k r && decide (v ≠ d) && SMap.wf d r

/-- Every listed value changed by `f`, which sees the key; values that become the default leave the table. -/
def SMap.mapVals {α : Type} [DecidableEq α] (d : α) (f : Nat → α → α) : SMap α → SMap α
  | [] => []
  | (k, v) :: r => if f k v = d then SMap.mapVals d f r else (k, f k v) :: SMap.mapVals d f r

end Sys2Proof.Machine
end

