-- ==== Sys2Proof/Machine/Fp.lean ====
section
/-! DEFINITION. Floating-point formats as exact values, rounding once to nearest with ties to even (spec/00 R12, spec/03 R144,
spec/04 R171 to R173, R178, R179). -/

namespace Sys2Proof.Machine

/-- An exact value: a NaN, a signed infinity, or plus or minus `m × 2^e`. -/
inductive Fx where
  | nan
  | inf (neg : Bool)
  | fin (neg : Bool) (m : Nat) (e : Int)
  deriving DecidableEq, Repr

/-- A binary format: exponent bits, mantissa bits, bias; `special` says which encodings are not finite numbers. -/
structure FpFmt where
  eb : Nat
  mb : Nat
  bias : Nat
  /-- 0: IEEE infinities and NaN; 1: FP8 E4M3, NaN only; 2: neither (MX elements). -/
  special : Nat
  deriving DecidableEq, Repr

def fp32 : FpFmt := ⟨8, 23, 127, 0⟩
def bf16 : FpFmt := ⟨8, 7, 127, 0⟩
def fp16 : FpFmt := ⟨5, 10, 15, 0⟩
def fp64 : FpFmt := ⟨11, 52, 1023, 0⟩
def fp8e4m3 : FpFmt := ⟨4, 3, 7, 1⟩
def fp8e5m2 : FpFmt := ⟨5, 2, 15, 0⟩
def fp4e2m1 : FpFmt := ⟨2, 1, 1, 2⟩
def fp6e3m2 : FpFmt := ⟨3, 2, 3, 2⟩
def fp6e2m3 : FpFmt := ⟨2, 3, 1, 2⟩

/-- The bits of an element. -/
def FpFmt.width (f : FpFmt) : Nat := 1 + f.eb + f.mb

/-- The exponent of the last mantissa bit of a subnormal. -/
def FpFmt.qmin (f : FpFmt) : Int := 1 - (f.bias : Int) - (f.mb : Int)

/-- The exact value of an encoding (R178: IEEE 754-2019, OCP MX v1.0 for FP8). -/
def FpFmt.decode (f : FpFmt) (v : Nat) : Fx :=
  let neg := v.testBit (f.eb + f.mb)
  let ef := fld v (f.eb + f.mb - 1) f.mb
  let mf := v % 2 ^ f.mb
  if f.special = 0 ∧ ef = 2 ^ f.eb - 1 then (if mf = 0 then .inf neg else .nan)
  else if f.special = 1 ∧ ef = 2 ^ f.eb - 1 ∧ mf = 2 ^ f.mb - 1 then .nan
  else if ef = 0 then .fin neg mf f.qmin
  else .fin neg (2 ^ f.mb + mf) (f.qmin + (ef - 1 : Int))

/-- The quantum a magnitude `m × 2^e` rounds at in a format: the last place of its binade, or of the subnormals. -/
def FpFmt.quantum (f : FpFmt) (m : Nat) (e : Int) : Int :=
  max ((Nat.log2 m : Int) + e - f.mb) f.qmin

/-- `m × 2^e` in units of `2^q`, to nearest, ties to even. -/
def roundUnits (m : Nat) (e q : Int) : Nat :=
  if q ≤ e then m <<< (e - q).toNat
  else
    let k := (q - e).toNat
    let lo := m >>> k
    let rem := m % 2 ^ k
    if 2 * rem > 2 ^ k then lo + 1
    else if 2 * rem = 2 ^ k then lo + lo % 2
    else lo

/-- The magnitude code of `n` units of `2^q`: consecutive codes are consecutive magnitudes of the format. -/
def FpFmt.code (f : FpFmt) (n : Nat) (q : Int) : Nat := n + (q - f.qmin).toNat * 2 ^ f.mb

/-- The code of infinity, the first code above the finite magnitudes of an IEEE format. -/
def FpFmt.infCode (f : FpFmt) : Nat := (2 ^ f.eb - 1) <<< f.mb

/-- The canonical quiet NaN (R145, R173). -/
def FpFmt.qnan (f : FpFmt) : Nat := f.infCode + 2 ^ (f.mb - 1)

/-- The sign bit of the format, where `neg` holds. -/
def FpFmt.signBit (f : FpFmt) (neg : Bool) : Nat := if neg then 1 <<< (f.eb + f.mb) else 0

/-- An exact value rounded once to an IEEE format (R144, R171, R179). -/
def FpFmt.encode (f : FpFmt) : Fx → Nat
  | .nan => f.qnan
  | .inf neg => f.signBit neg + f.infCode
  | .fin neg m e =>
    if m = 0 then f.signBit neg
    else
      let q := f.quantum m e
      f.signBit neg + min (f.code (roundUnits m e q) q) f.infCode

/-- The exact sum (R171); a zero sum is +0 unless both are −0. -/
def Fx.add : Fx → Fx → Fx
  | .nan, _ => .nan
  | _, .nan => .nan
  | .inf a, .inf b => if a = b then .inf a else .nan
  | .inf a, .fin .. => .inf a
  | .fin .., .inf b => .inf b
  | .fin na ma ea, .fin nb mb eb =>
    let e := min ea eb
    let xa : Int := (ma <<< (ea - e).toNat : Nat)
    let xb : Int := (mb <<< (eb - e).toNat : Nat)
    let t := (if na then -xa else xa) + (if nb then -xb else xb)
    if t = 0 then .fin (na && nb && ma == 0 && mb == 0) 0 e
    else .fin (decide (t < 0)) t.natAbs e

/-- The order of encodings that are not NaN, −0 below +0 (R172). -/
def FpFmt.key (f : FpFmt) (v : Nat) : Int :=
  let mag := v % 2 ^ (f.eb + f.mb)
  if v.testBit (f.eb + f.mb) then -(mag : Int) - 1 else mag

/-- FADD (R171, R173): the result and whether a NaN came from inputs that are not NaN. -/
def fadd (f : FpFmt) (o a : Nat) : Nat × Bool :=
  let x := f.decode o
  let y := f.decode a
  let r := x.add y
  (f.encode r, decide (r = .nan ∧ x ≠ .nan ∧ y ≠ .nan))

/-- FMIN and FMAX (R172, R173). -/
def fminmax (f : FpFmt) (wantMax : Bool) (o a : Nat) : Nat :=
  if f.decode o = .nan ∨ f.decode a = .nan then f.qnan
  else if (f.key o ≤ f.key a) = (wantMax = true) then a else o

end Sys2Proof.Machine
end

