-- ==== Sys2Proof/Machine/Bale.lean ====
section
/-! DEFINITION. Baled storage: the bale layout, quantisation and expansion (spec/03_baled_storage.md R126 to R149). -/

namespace Sys2Proof.Machine

/-- Blocks per bale by fmt (R130). -/
def baleBlocks (fmt : Nat) : Nat := if fmt = 0 then 30 else if fmt = 3 then 15 else 20

/-- Element bytes of a block (R130). -/
def baleBlockBytes (fmt : Nat) : Nat := if fmt = 0 then 16 else if fmt = 3 then 32 else 24

/-- Bits of a stored element (R128). -/
def baleElemBits (fmt : Nat) : Nat := if fmt = 0 then 4 else if fmt = 3 then 8 else 6

/-- The element format of an FP fmt (R128). -/
def baleElemFmt (fmt : Nat) : FpFmt := if fmt = 0 then fp4e2m1 else if fmt = 1 then fp6e3m2 else fp6e2m3

/-- The exponent of an element's largest normal binade (R128). -/
def baleEmax (fmt : Nat) : Int := if fmt = 3 then 0 else if fmt = 1 then 4 else 2

/-- The code of the largest magnitude (R128): all ones of a sign-magnitude element, 127 in MXINT8. -/
def baleMaxCode (fmt : Nat) : Nat := 2 ^ (baleElemBits fmt - 1) - 1

/-- The format a write carries (R126 write_fmt). -/
def baleWriteFmt (w : Nat) : FpFmt :=
  if w = 0 then bf16 else if w = 1 then fp16 else if w = 2 then fp8e4m3 else fp8e5m2

/-- The format a read returns (R126 read_fmt). -/
def baleReadFmt (r : Nat) : FpFmt := if r = 0 then bf16 else if r = 1 then fp16 else fp32

/-- Bytes of an expanded block of 32 elements (R134). -/
def blockBytes (f : FpFmt) : Nat := 4 * f.width

/-- The generator of R139 for element `i` of the block at `blockAddr`. -/
def baleRandom (seed gen blockAddr i : Nat) : Nat :=
  let m := 2 ^ 64
  let key := seed ^^^ ((gen * 0x9E3779B97F4A7C15) % m)
  let ctr := ((blockAddr >>> 4) <<< 5) ||| i
  let z := (key ^^^ ctr) % m
  let z := ((z ^^^ (z >>> 30)) * 0xBF58476D1CE4E5B9) % m
  let z := ((z ^^^ (z >>> 27)) * 0x94D049BB133111EB) % m
  let z := z ^^^ (z >>> 31)
  z >>> 48

/-- The magnitude code `y = m × 2^e` rounds to at grid quantum `q` (R138, R139); `r` is the draw where stochastic. -/
def gridUnits (stochastic : Bool) (r m : Nat) (e q : Int) : Nat :=
  if stochastic then
    if q ≤ e then m <<< (e - q).toNat
    else
      let k := (q - e).toNat
      let thr := (2 ^ 16 * (m % 2 ^ k)) / 2 ^ k
      (m >>> k) + (if r < thr then 1 else 0)
  else roundUnits m e q

/-- The magnitude code of `m × 2^e` in a fmt, before saturation (R138, R139). -/
def gridCode (fmt : Nat) (stochastic : Bool) (r m : Nat) (e : Int) : Nat :=
  if m = 0 then 0
  else if fmt = 3 then gridUnits stochastic r m e (-6)
  else
    let f := baleElemFmt fmt
    let q := f.quantum m e
    f.code (gridUnits stochastic r m e q) q

/-- Whether `m × 2^e` exceeds the largest magnitude of the fmt (R142). -/
def gridAbove (fmt m : Nat) (e : Int) : Bool :=
  let lm := if fmt = 0 then 6 else if fmt = 1 then 28 else if fmt = 2 then 15 else 127
  let le : Int := if fmt = 0 then 0 else if fmt = 1 then 0 else if fmt = 2 then -1 else -6
  if e ≤ le then decide (m > lm <<< (le - e).toNat) else decide (m <<< (e - le).toNat > lm)

/-- The stored element of a signed magnitude code (R141). -/
def baleElem (fmt : Nat) (neg : Bool) (code : Nat) : Nat :=
  if fmt = 3 then (if neg then (256 - code) % 256 else code)
  else code + (if neg then 2 ^ (baleElemBits fmt - 1) else 0)

/-- A quantised block: its elements as one little-endian field, its scale code, and what it counts (R137, R142). -/
structure QBlock where
  elems : Nat
  scale : Nat
  isNan : Bool
  sat : Bool
  deriving DecidableEq, Repr

/-- The largest magnitude of a block as (mantissa, exponent) of the value with the greatest leading bit (R137 amax). -/
def amaxExp : List Fx → Option Int
  | [] => none
  | .fin _ m e :: r =>
    if m = 0 then amaxExp r
    else match amaxExp r with
      | none => some ((Nat.log2 m : Int) + e)
      | some x => some (max x ((Nat.log2 m : Int) + e))
  | _ :: r => amaxExp r

def Fx.isFin : Fx → Bool
  | .fin .. => true
  | _ => false

/-- What randomises a write of a block (R139, R140): the seed and generation number of the last. -/
structure BaleKey where
  stochastic : Bool
  seed : Nat
  gen : Nat
  deriving DecidableEq, Repr

/-- The quantised elements in order, packed little-endian (R131, R137). -/
def quantElems (fmt : Nat) (k : BaleKey) (blockAddr : Nat) (sc : Int) : Nat → List Fx → Nat × Bool
  | _, [] => (0, false)
  | i, x :: r =>
    let (rest, sat) := quantElems fmt k blockAddr sc (i + 1) r
    match x with
    | .fin neg m e =>
      let e' := e - sc
      let above := gridAbove fmt m e'
      let code := if above then baleMaxCode fmt
        else min (gridCode fmt k.stochastic (baleRandom k.seed k.gen blockAddr i) m e') (baleMaxCode fmt)
      (baleElem fmt neg code + 2 ^ baleElemBits fmt * rest, above || sat)
    | _ => (2 ^ baleElemBits fmt * rest, sat)

/-- One block of 32 values quantised (R137 to R142). -/
def quantise (fmt : Nat) (k : BaleKey) (blockAddr : Nat) (v : List Fx) : QBlock :=
  if v.all Fx.isFin then
    match amaxExp v with
    | none =>
      let (e, _) := quantElems fmt k blockAddr 0 0 v
      ⟨e, 0, false, false⟩
    | some t =>
      let sc := min (max (t - baleEmax fmt) (-127)) 127
      let (e, sat) := quantElems fmt k blockAddr sc 0 v
      ⟨e, (sc + 127).toNat, false, sat⟩
  else ⟨0, 255, true, false⟩

/-- The elements `w` bits wide packed in a number, lowest first. -/
def unpack (w : Nat) : Nat → Nat → List Nat
  | 0, _ => []
  | n + 1, v => v % 2 ^ w :: unpack w n (v >>> w)

/-- Elements of `w` bits packed into a number, lowest first. -/
def pack (w : Nat) : List Nat → Nat
  | [] => 0
  | x :: r => x % 2 ^ w + 2 ^ w * pack w r

/-- One stored element as an exact value, before its scale (R128). -/
def baleElemValue (fmt v : Nat) : Fx :=
  if fmt = 3 then (if v ≥ 128 then .fin true (256 - v) (-6) else .fin false v (-6))
  else (baleElemFmt fmt).decode v

/-- An exact value times 2^k. -/
def Fx.scale (k : Int) : Fx → Fx
  | .fin n m e => .fin n m (e + k)
  | x => x

/-- Block `b` of a bale expanded to read_fmt (R144, R145), as one little-endian number. -/
def expandBlock (fmt rf : Nat) (d : LineData) (b : Nat) : Nat :=
  let f := baleReadFmt rf
  let c := lineNat d (480 + b) 1
  let es := unpack (baleElemBits fmt) 32 (lineNat d (baleBlockBytes fmt * b) (baleBlockBytes fmt))
  if c = 255 then pack f.width (List.replicate 32 f.qnan)
  else pack f.width (es.map fun v => f.encode ((baleElemValue fmt v).scale ((c : Int) - 127)))

/-- `n` expanded blocks from block `b` on (R133, R149). -/
def expandBlocks (fmt rf : Nat) (d : LineData) (b n : Nat) : Bytes :=
  ((List.range n).map fun j => leBytes (blockBytes (baleReadFmt rf)) (expandBlock fmt rf d (b + j))).flatten

/-- The bytes of a line a block's stored form takes: element bytes and the scale byte (R130, R146). -/
def blockMask (fmt b : Nat) : LineMask :=
  spanMask (baleBlockBytes fmt * b) (baleBlockBytes fmt) ||| spanMask (480 + b) 1

/-- A block stored in its place of a line. -/
def blockData (fmt b : Nat) (q : QBlock) : LineData :=
  BitVec.ofNat 4096 ((q.elems <<< (8 * baleBlockBytes fmt * b)) + (q.scale <<< (8 * (480 + b))))

/-- The outcome of baling a block-view write: stored bytes, the bytes it writes, NaN and saturated blocks counted. -/
structure Baled where
  data : LineData
  mask : LineMask
  nans : Nat
  sats : Nat
  deriving DecidableEq, Repr

/-- Whole blocks `b`, `b+1`, … of a bale quantised from write_fmt data, one byte mask bit per data byte; a block no bit of
whose mask is set is left out (R146, R614). -/
def baleWrite (fmt wf : Nat) (k : BaleKey) (baleAddr : Nat) (mask : Nat) (data : Nat) (b : Nat) : Nat → Baled
  | 0 => ⟨0, 0, 0, 0⟩
  | n + 1 =>
    let f := baleWriteFmt wf
    let bb := blockBytes f
    let r := baleWrite fmt wf k baleAddr (mask >>> bb) (data >>> (8 * bb)) (b + 1) n
    if mask % 2 ^ bb = 0 then r
    else
      let q := quantise fmt k (baleAddr + 16 * b) ((unpack f.width 32 data).map f.decode)
      ⟨r.data ||| blockData fmt b q, r.mask ||| blockMask fmt b, r.nans + b2n q.isNan, r.sats + b2n q.sat⟩

/-- Whether a mask selects some but not all bytes of any block (R614). -/
def splitsBlock (bb mask : Nat) : Nat → Bool
  | 0 => false
  | n + 1 =>
    let m := mask % 2 ^ bb
    (m != 0 && m != 2 ^ bb - 1) || splitsBlock bb (mask >>> bb) n

/-- The reserved bytes of a bale, written as zero when a write covers every block (R132, R147). -/
def baleReserved (fmt : Nat) : LineMask :=
  spanMask (480 + baleBlocks fmt) (32 - baleBlocks fmt) |||
    (if baleBlocks fmt * baleBlockBytes fmt < 480 then
      spanMask (baleBlocks fmt * baleBlockBytes fmt) (480 - baleBlocks fmt * baleBlockBytes fmt) else 0)

end Sys2Proof.Machine
end

