-- ==== Sys2Proof/Machine/Sheaf.lean ====
section
/-! DEFINITION. The arithmetic of atomics and of sheaves (spec/04_near_data_arithmetic.md R154 to R158, R170 to R174, R177 to
R180, R186, R187, R194). -/

namespace Sys2Proof.Machine

/-- The floating-point format of an afmt (R154). -/
def afmtFp (afmt : Nat) : FpFmt :=
  if afmt = 0 then fp32 else if afmt = 1 then bf16 else if afmt = 2 then fp16
  else if afmt = 3 then fp64 else if afmt = 4 then fp8e4m3 else fp8e5m2

/-- An integer aop (R154). -/
def aopInt (aop : Nat) : Bool := decide (1 ≤ aop ∧ aop ≤ 0xA)

/-- Element width in bits of an aop and afmt (R154). -/
def aopWidth (aop afmt : Nat) : Nat :=
  if aopInt aop then (if afmt = 1 then 64 else 32) else (afmtFp afmt).width

/-- Whether afmt is valid for its aop (R154); FP8 only where the line lies in a bound window. -/
def aopValid (aop afmt : Nat) (bound : Bool) : Bool :=
  if aopInt aop then decide (afmt ≤ 1)
  else if aop = 0x10 then decide (afmt ≤ 3) || (bound && decide (afmt = 4 ∨ afmt = 5))
  else if aop = 0x11 ∨ aop = 0x12 then decide (afmt ≤ 3)
  else if aop = 0x18 then decide (afmt ≤ 2) || (bound && decide (afmt = 4 ∨ afmt = 5))
  else false

/-- A two's complement reading of `v` at width `w` (R170). -/
def sInt (w v : Nat) : Int := if v < 2 ^ (w - 1) then v else (v : Int) - 2 ^ w

/-- One element of an atomic (R154, R170 to R173): the new value and whether ev.atomic_fp_invalid counts; `cmp` is the
compare value of an ICAS. -/
def aopElem (aop afmt o a cmp : Nat) : Nat × Bool :=
  let w := aopWidth aop afmt
  let f := afmtFp afmt
  if aop = 0x01 then ((o + a) % 2 ^ w, false)
  else if aop = 0x02 then (o &&& a, false)
  else if aop = 0x03 then (o ||| a, false)
  else if aop = 0x04 then (o ^^^ a, false)
  else if aop = 0x05 then (if sInt w a < sInt w o then a else o, false)
  else if aop = 0x06 then (if sInt w o < sInt w a then a else o, false)
  else if aop = 0x07 then (min o a, false)
  else if aop = 0x08 then (max o a, false)
  else if aop = 0x09 then (a, false)
  else if aop = 0x0A then (if o = cmp then a else o, false)
  else if aop = 0x11 then (fminmax f false o a, false)
  else if aop = 0x12 then (fminmax f true o a, false)
  else fadd f o a

/-- Elements one by one: old values, operands, compare values and element masks; new values packed, and the number of
invalid operations. -/
def aopElems (aop afmt : Nat) : List Nat → List Nat → List Nat → List Bool → List Nat × Nat
  | o :: os, a :: as_, c :: cs, m :: ms =>
    let (r, n) := aopElems aop afmt os as_ cs ms
    if m then
      let (x, inv) := aopElem aop afmt o a c
      (x :: r, n + b2n inv)
    else (o :: r, n)
  | _, _, _, _ => ([], 0)

/-- Whether a byte mask splits an element of `eb` bytes (R156, R157). -/
def splitsElem (eb mask : Nat) (n : Nat) : Bool := splitsBlock eb mask n

/-- An exact finite value in units of 2^-149, as an integer (R178). -/
def sheafUnits : Fx → Int
  | .fin neg m e => let v : Int := (m <<< (e + 149).toNat : Nat); if neg then -v else v
  | _ => 0

/-- A sheaf: accumulator and sticky flags (R177), and whether its byte parity fails (R192). -/
structure Sheaf where
  acc : BitVec 320
  nan : Bool
  pinf : Bool
  ninf : Bool
  bad : Bool
  /-- The flip-mask put the fault there (R463); the sheaf does not hold what is written to it (R483). -/
  injected : Bool := false
  stuck : Bool := false
  deriving DecidableEq, Repr

/-- A cleared sheaf (R182). -/
def Sheaf.zero : Sheaf := { acc := 0, nan := false, pinf := false, ninf := false, bad := false }

/-- A contribution added to a sheaf (R178). -/
def Sheaf.add (h : Sheaf) (x : Fx) : Sheaf :=
  match x with
  | .nan => { h with nan := true }
  | .inf false => { h with pinf := true }
  | .inf true => { h with ninf := true }
  | .fin .. => { h with acc := h.acc + BitVec.ofInt 320 (sheafUnits x) }

/-- Bits [319:309] all equal (R177). -/
def Sheaf.inRange (h : Sheaf) : Bool :=
  let t := h.acc.toNat >>> 309
  decide (t = 0 ∨ t = 2 ^ 11 - 1)

/-- The result of a sheaf in a read format and whether it sets range_err (R179). -/
def Sheaf.read (f : FpFmt) (h : Sheaf) : Nat × Bool :=
  if h.nan || (h.pinf && h.ninf) then (f.qnan, false)
  else if h.pinf then (f.encode (.inf false), false)
  else if h.ninf then (f.encode (.inf true), false)
  else if !h.inRange then (f.qnan, true)
  else if h.acc = 0 then (0, false)
  else (f.encode (.fin (decide (h.acc.toInt < 0)) h.acc.toInt.natAbs (-149)), false)

/-- The read format of a window: FP32 or BF16 (R181); 2 bits as SHEAF.BIND carries them. -/
def sheafReadFmt (rf : Nat) : FpFmt := if rf = 0 then fp32 else bf16

/-- The 8-byte header of a contribution record (R194). -/
def contribHeader (first count afmt : Nat) : Bytes :=
  leBytes 2 first ++ leBytes 2 count ++ [BitVec.ofNat 8 afmt, 0, 0, 0]

end Sys2Proof.Machine
end

