-- ==== Sys2Proof/Machine/State.lean ====
section
/-! DEFINITION. The state of the slice as plain data, the reasons a step can stop, and the state right after reset
(INVENTORY.md, heading State, lists every piece with its rule). A field's reset value that the spec does not give is DESIGN CHOICE
(notes/assumptions 3). -/

namespace Sys2Proof.Machine

open Sys2Proof

/-- Reasons a step stops with a fault. -/
inductive Fault where
  /-- Raised by no meaning: every command completes (safe). -/
  | none
  deriving DecidableEq, Repr

/-- Reasons a step refuses a command. -/
inductive Refusal where
  /-- A row of the table without its meaning, by its mnemonic (safe). -/
  | notModelled (mnemonic : String)
  deriving DecidableEq, Repr

/-- Power, pins, straps, fuses, clocks (spec/15, spec/01, spec/18). -/
structure Power where
  /-- pstate of R547, RESET at the start. -/
  pstate : Nat := 0
  /-- pstate that BACKUP_HOLD was entered from (R548). -/
  prior : Nat := 0
  startKind : Nat := 0
  /-- arr_lost and core_lost as DRF_POWER_STATUS shows them (R563). -/
  arrLost : Bool := false
  coreLost : Bool := false
  /-- The arrays have lost their contents since they were last filled; VDD_CORE has been lost and no re-entry has begun since. -/
  arrDown : Bool := false
  coreDown : Bool := false
  /-- FLOW_STOP_N is effective (R55), and the fc at which it became so. -/
  flowStop : Bool := false
  flowAt : Nat := 0
  /-- The entry steps of R557 have begun and their exit has not. -/
  flowEntered : Bool := false
  wrstHeld : Bool := false
  /-- Safe retention interrupted a quiesce (R562). -/
  quiesced : Bool := false
  startNs : Nat := 0
  /-- Step of R551 a start has reached: 4 where it waits for FLOW_STOP_N or clocks, 6 beyond; fc of its beginning. -/
  startStep : Nat := 0
  startAt : Nat := 0
  rstN : Bool := false
  chip : Nat := 0
  die : Nat := 0
  sliceId : Nat := 0
  romBuild : Nat := 0
  /-- Fuses: capacity grade code, tether, operator key hash, debug lock, lowest patch version, fused off. -/
  grade : Nat := 0
  tetherOff : Bool := false
  opKey : Nat := 0
  debugFuse : Bool := false
  minSvn : Nat := 0
  fusedOff : Bool := false
  /-- Clocks present: bits as DRF_CLK_STATUS [4:0]. -/
  clocks : BitVec 5 := 0
  clkAon : Bool := true
  planLock : Bool := false
  lockLost : Bool := false
  onBak : Bool := false
  bakPresent : Bool := false
  switched : Bool := false
  /-- Array access stopped (R46). -/
  arrStopped : Bool := false
  /-- SLICE_READY is driven high. -/
  ready : Bool := false
  /-- Demand traffic counted as accepted since reset (R74). -/
  locked : Bool := false
  deriving DecidableEq, Repr

/-- Time (R541 to R546). -/
structure Time where
  /-- Timestamp in units of 2^-32 ns. -/
  ts : Nat := 0
  /-- inc in units of 2^-32 ns per sc. -/
  inc : Nat := 2 * 2 ^ 32
  /-- Clamped error being slewed out, and what is left of the 10^9 ns it is spread over, both in units of 2^-32 ns (R543). -/
  slew : Int := 0
  slewLeft : Nat := 0
  /-- sc since the last accepted edge; none before the first. -/
  n : Option Nat := none
  lastEdge : Nat := 0
  armed : Bool := false
  lost : Bool := false
  valid : Bool := false
  glitches : Nat := 0
  deriving DecidableEq, Repr

/-- The array, its tags, buffers and misses (spec/02). -/
structure Arr where
  /-- Lines by way slot, `way × 8192 + set`. -/
  lines : SMap Line := []
  lasts : SMap Last := []
  /-- DRF_PIN_CTL.busy: ways being reserved. -/
  pinBusy : Bool := false
  /-- Ways of a bank that take the role of another nominal pinned way: (bank, nominal way, way). -/
  roles : List (Nat × Nat × Nat) := []
  mhes : List Mhe := []
  merges : List Merge := []
  evicts : List Evict := []
  opens : List OpenLine := []
  streams : List Stream := []
  /-- The run of adjacent misses in progress of each last (R114; the model's own, DESIGN CHOICE, notes/assumptions 18). -/
  runs : List Stream := []
  memRds : List MemRd := []
  memWrs : List MemWr := []
  memq : List MemReq := []
  /-- Requests waiting in the pipeline, in acceptance order. -/
  waiting : List Op := []
  /-- Lasts being deleted, whose new requests wait (R424). -/
  deleting : List Nat := []
  /-- Demand requests not yet issued in an open cycle (R523). -/
  presented : List Op := []
  owed : List Owed := []
  fences : List FenceWait := []
  /-- The next acceptance number. -/
  n : Nat := 1
  deriving DecidableEq, Repr

/-- Host coherence (spec/06). -/
structure Coh where
  /-- Snoop filter by `sf_set × 16 + way`. -/
  sf : SMap SfEnt := []
  cautious : List Nat := []
  /-- Host lines of FAILED lasts whose BI_SNP_INV waits for a tracker entry (R447). -/
  failing : List Nat := []
  snoops : List Snoop := []
  /-- Bias cache: (word, value), least recently used first within its set. -/
  biasCache : List (Nat × BitVec 64) := []
  biasBusy : Bool := false
  /-- Table words whose read came back uncorrectable, while the requests that waited for them are served (R449). -/
  biasBad : List Nat := []
  /-- Cached words whose parity fails (R443, R452). -/
  biasUpset : List Nat := []
  /-- Flips in progress: command, base, length, DEVICE. -/
  flips : List (Nat × Nat × Nat × Bool) := []
  pushes : List Push := []
  /-- Tag of the next message the slice sends as a requester. -/
  tag : Nat := 0
  deriving DecidableEq, Repr

/-- The atomic unit and sheaves (spec/04). -/
structure Ari where
  sheaves : SMap Sheaf := []
  windows : List Window := []
  deriving DecidableEq, Repr

/-- Generations and logs (spec/08). -/
structure Gen where
  ctxs : SMap Ctx := []
  drains : List Drain := []
  rings : SMap LogRing := []
  /-- The log buffers in use, oldest first: at most 32 (R320). -/
  bufs : List LogBuf := []
  /-- Generations of a context of which a record was discarded since it last opened (R326). -/
  lost : List (Nat × BitVec 32) := []
  /-- Early records of the open generation, by context (R323, R330). -/
  early : SMap Nat := []
  /-- The freeze queue (R334). -/
  freezeQ : List Op := []
  seals : List SealWait := []
  /-- Timestamp in ns of the last seal. -/
  lastSeal : Option Nat := none
  /-- Lines pending recomputation (R354). -/
  pendingRc : List Nat := []
  deriving DecidableEq, Repr

/-- Rings, events and interrupts (spec/10), and the commands in flight. -/
structure Rings where
  rings : SMap Ring := []
  evs : SMap EvRing := []
  irqs : SMap Irq := []
  cmds : List Cmd := []
  /-- The ring of each group that last accepted (R397). -/
  rrLow : Nat := 3
  rrHigh : Nat := 63
  n : Nat := 1
  /-- Commands completed so far. -/
  doneN : Nat := 0
  /-- A command other than NOP, PATCH.LOAD and LAST.READ has been accepted since reset (R441, R553). -/
  began : Bool := false
  /-- A patch table is installed (R441), and its bytes. -/
  patched : Bool := false
  patchTable : Bytes := []
  /-- HST writes sent and not acknowledged: tag and command. -/
  hstWrs : List (Nat × Nat) := []
  deriving DecidableEq, Repr

/-- The headland ring stop and the fence (spec/12 R466 to R475, spec/17 R591). -/
structure Head where
  /-- The stop's mode: 0 ACTIVE, 1 FORWARD, 2 PASSIVE (R50). -/
  mode : Nat := 1
  /-- The slice's next frame number. -/
  seq : Nat := 0
  /-- Unacknowledged ERROR and FENCE_NOTICE frames, and how often each was sent. -/
  unacked : List (Frame × Nat) := []
  /-- An ERROR frame was dropped since the last one sent (R466). -/
  overflow : Bool := false
  /-- Kept answers, most recent src first: src, seq, answer (R591). -/
  kept : List (Nat × Nat × Frame) := []
  fenced : Bool := false
  reason : Nat := 0
  /-- The pair held at the instant of the fence, by which the fence walk counts (R474). -/
  wasPaired : Bool := false
  walkDone : Bool := false
  noticeAcked : Bool := false
  deriving DecidableEq, Repr

/-- Hedge and access logs (spec/16 R567, spec/17 R593), the pairing key (R580), the TAP (R578). -/
structure Sec where
  denied : Bool := false
  dClass : Nat := 0
  dPort : Nat := 0
  dSrc : Nat := 0
  dCount : Nat := 0
  /-- Interval in ms of the last denial event of each class (R567), plus one. -/
  dEvent : SMap Nat := []
  logValid : Bool := false
  logOver : Bool := false
  logCause : Nat := 0
  logPath : Nat := 0
  logOff : Nat := 0
  logWrite : Bool := false
  logSrc : Nat := 0
  key : Nat := 0
  keyValid : Bool := false
  /-- Next key word expected, 4 when none is. -/
  keyNext : Nat := 4
  debugDenied : Nat := 0
  /-- Instruction selected in the TAP and in the wrapper: 0 BYPASS or WS_BYPASS (R578). -/
  tapIr : Nat := 0
  wrapIr : Nat := 0
  /-- What the test functions found: MBIST's failing rows as (bank, way, row) (R605), the wires of each port that failed (R606), the
  lane pairs that failed (R607). -/
  mbist : List (Nat × Nat × Nat) := []
  badWires : List (Port × Nat) := []
  badPairs : Nat := 0
  deriving DecidableEq, Repr

/-- Sharing, metering, counters, tracing, energy (spec/14). -/
structure Qos where
  pressure : Bool := false
  /-- Class settings in force, by class: DRF_QOS_CLASSn as the current window uses it (R518). -/
  cls : SMap (BitVec 64) := []
  /-- The signed credits of R523, by class. -/
  credit : SMap Int := []
  /-- Window byte counts by class × 4 + group (MEM, BLK, MSG, TTH). -/
  win : SMap Nat := []
  bw : SMap (BitVec 64) := []
  memTot : SMap (BitVec 64) := []
  portTot : SMap (BitVec 64) := []
  evs : SMap EvCtr := []
  /-- Request trace (R533, R534). -/
  lfsr : BitVec 32 := 1
  /-- Tagged requests in flight by acceptance number (R534). -/
  traces : List (Nat × Trace) := []
  written : Nat := 0
  traceDrop : Nat := 0
  /-- Energy accumulators in 2^-16 nJ: class, context, static. -/
  eCls : SMap Nat := []
  eCtx : SMap Nat := []
  eStat : Nat := 0
  /-- Activity of the window by class × 8 + kind, and by context × 8 + kind. -/
  actCls : SMap Nat := []
  actCtx : SMap Nat := []
  /-- Model energy at gain 1 of calibration intervals: (interval, group) key `4k + g`, in 1/16 pJ. -/
  eDyn : List (Nat × Nat) := []
  /-- Regulator readings by interval and rail, `8k + rail`, in µJ. -/
  reads : List (Nat × Nat) := []
  /-- Calibration intervals in which the timestamp stepped. -/
  steps : List Nat := []
  deriving DecidableEq, Repr

/-- The tether link (spec/09). -/
structure Tether where
  /-- 0 DISABLED; 1 TRAINING; 2 UP; 3 RETRAIN; 4 DOWN (R386). -/
  link : Nat := 0
  /-- Phase of training: 0 DETECT, 1 EQUALISE, 2 MEASURE, 3 TEST, 4 NEGOTIATE (R377). -/
  phase : Nat := 0
  width : Nat := 0
  reversed : Bool := false
  downReason : Nat := 0
  level : Nat := 0
  laneOk : Nat := 0
  retry : Nat := 0
  /-- DRF_TTH_LANEn by lane. -/
  lanes : SMap Nat := []
  /-- Negotiation: the fellow's proposal, and the own verdict once formed. -/
  proposal : Option Bytes := none
  verdict : Nat := 0
  /-- Next DATA seq to send, seq expected, last good seq received. -/
  txSeq : Nat := 0
  rxSeq : Nat := 0
  /-- A DATA flit failed and its seq is awaited (R369). -/
  nakked : Bool := false
  replay : List Replay := []
  /-- Message credits per channel (R374). -/
  vc : SMap Nat := []
  /-- Messages waiting for a credit, a link or the replay buffer, oldest first, and DATA flits still to be sent. -/
  q : List TMsg := []
  flits : List Replay := []
  /-- Chunks received of a message in progress (R366); message credits to return, by channel (R374). -/
  rxPart : Bytes := []
  owed : SMap Nat := []
  /-- Running half of the receive direction, coded as width (R379). -/
  rxWidth : Nat := 0
  /-- fc of the naks of the last 1 ms (R370). -/
  naks : List Nat := []
  /-- The transmit scramblers by lane, 31 bits each (R361). -/
  scr : SMap Nat := []
  deriving DecidableEq, Repr

/-- Pairing (spec/08 R341 to R353, spec/16 R580). -/
structure Pair where
  /-- 0 UNPAIRED; 1 PAIRED; 2 SOLO; 3 RESYNC; 4 REFUSED; 5 TAKEN_OVER (R342). -/
  st : Nat := 0
  fellowId : Nat := 0
  fellowVer : Nat := 0
  fellowMw : Nat := 0
  autoResync : Bool := false
  tag : Nat := 0
  /-- Writes that wait for the fellow's SYNC_ACK: tag, operation (R346). -/
  sync : List (Nat × Op) := []
  /-- Mirror lines held for the fellow, by way slot (R341). -/
  mirrors : SMap Line := []
  /-- Staged records of the fellow, oldest first: context, generation, set, record bytes (R348); offset of the next, bytes held,
  and channel 2 credits withheld while the staging area is full (R374). -/
  stage : List (Nat × Nat × Nat × Bytes) := []
  stageHead : Nat := 0
  stageOwed : Nat := 0
  /-- Generations whose END has arrived: context, generation, carried (R349). -/
  ends : List (Nat × Nat × Bool) := []
  /-- Last generation applied for the fellow's contexts. -/
  applied : SMap Nat := []
  /-- Locked lines by the generation they were logged in: context, generation, slot (R350). -/
  lagged : List (Nat × Nat × Nat) := []
  /-- Last generation the fellow applied of the own contexts, plus one (R350). -/
  ownApplied : SMap Nat := []
  /-- Repairs and rollbacks that wait for REPAIR_DATA (R356, R357). -/
  repairs : List Repair := []
  /-- Contexts whose next seal resends their paired lines (R353), and SYNC_WR of a resynchronisation outstanding. -/
  resyncCtx : List Nat := []
  resyncOut : List Nat := []
  /-- PAIR.RESYNC commands that wait for PAIRED (R439). -/
  resyncCmds : List Nat := []
  /-- ROLLBACK records that wait for room in a log ring: context, base of the last, generation (R357). -/
  rollLogs : List (Nat × Nat × Nat) := []
  deriving DecidableEq, Repr

/-- The plan sequencer and the plan banks (spec/05). -/
structure Plan where
  /-- 0 IDLE, 1 ARMED, 2 RUNNING, 3 SWITCHING, 4 STOPPING (R236, R239). -/
  st : Nat := 0
  active : Nat := 0
  shadowValid : Bool := false
  stopReason : Nat := 0
  pass : Nat := 0
  banks : List PlanBank := [{}, {}]
  /-- The cycle is open: an OPEN instance, a hold, the gap (R221). -/
  openNow : Bool := true
  /-- Holds charged and not begun, and whether one runs (R223, R224). -/
  charged : Nat := 0
  holding : Bool := false
  /-- Holds charged in the pass so far. -/
  holds : Nat := 0
  /-- The record of the pass in progress. -/
  acc : PassRec := {}
  /-- A stop that waits: at the pass end, or for the end of SWITCHING (R236, R237); 0 none, else the stop_reason. -/
  stopAt : Nat := 0
  /-- Requests issued in the open cycles in progress (R221). -/
  openSpent : Nat := 0
  /-- Open cycles that requests issued have used and the clock has not passed (the model's own: DESIGN CHOICE, notes/assumptions 2). -/
  openUsed : Nat := 0
  /-- Plan clock (the model's own, DESIGN CHOICE, notes/assumptions 8): the fc of the next instance, or the earliest a pass may start. -/
  fc : Nat := 0
  /-- Earliest nominal start of the next pass, and nominal start of the pass in progress (R201). -/
  base : Nat := 0
  nominal : Nat := 0
  /-- Next slot entry, instances of it issued, and the planned offset of the next instance (R199, R200). -/
  slot : Nat := 0
  rep : Nat := 0
  off : Nat := 0
  /-- Generator indices by `4 × generator + dimension` (R210). -/
  gidx : SMap Nat := []
  /-- Passes to run, 0 until stopped; passes run; records written (R233). -/
  passes : Nat := 0
  ran : Nat := 0
  written : Nat := 0
  /-- The summary in progress and the passes it holds (R233). -/
  sum : Option (PassRec × Nat) := none
  /-- Plan digest accumulators, and DRF_PLAN_DIGESTn (R234). -/
  dig : SMap (BitVec 64) := []
  digOut : SMap (BitVec 64) := []
  /-- The plan write buffer (R228). -/
  wbuf : List WBeat := []
  /-- The barrier token held: fc of its acceptance (R231). -/
  token : Option Nat := none
  /-- The PLAN.RUN whose switch is pending or in progress, with its passes; PLAN.STOP commands that wait for IDLE (R436). -/
  switchCmd : Option (Nat × Nat) := none
  stopCmds : List Nat := []
  /-- Plan lock was lost during the pass (R227). -/
  lockGone : Bool := false
  /-- Bank cycles reserved by instances: bank, first fc, fc after the last (R220, R223). -/
  resv : List (Nat × Nat × Nat) := []
  /-- Lines whose last plan writes are not yet seen by lookups, oldest first (R222). -/
  veil : List Veil := []
  /-- Lines whose STAGE_OUT write-back waits: for the lock of a PAIRED_LAG line to clear, or for an eviction buffer (R324, R351). -/
  stageOuts : List Nat := []
  /-- The fc after the last instance issued of the pass (R203). -/
  endFc : Nat := 0
  deriving DecidableEq, Repr

/-- A copy of the repair map: generation count, disabled ways by bank, spare rows assigned as (bank, way, row, spare row) (R480, R482). -/
structure RepairMap where
  gen : Nat := 0
  ways : SMap Nat := []
  spares : List (Nat × Nat × Nat × Nat) := []
  deriving DecidableEq, Repr

/-- Health, spares, ageing, retirement (spec/13). -/
structure Health where
  /-- The arithmetic island is suspect (R492, R493). -/
  suspect : Bool := false
  /-- Disabled ways by bank, 16 bits each (R509). -/
  wayDis : SMap Nat := []
  /-- Ways being emptied: bank and way (R487, R488). -/
  wayGoing : List (Nat × Nat) := []
  /-- Spare rows assigned: bank, way, row, spare row; rows being copied: bank, way, row (R484, R485). -/
  spares : List (Nat × Nat × Nat × Nat) := []
  copies : List (Nat × Nat × Nat) := []
  /-- Generation count of the repair map in force (R482). -/
  mapGen : Nat := 0
  /-- The ledger's two copies of the repair map, whether the map in force waits to be written, and the time of the last write plus one
  (R480, R482). -/
  maps : RepairMap × RepairMap := ({}, {})
  mapWait : Bool := false
  mapAt : Nat := 0
  /-- Sheaf banks out of allocation (R483). -/
  banksOut : List Nat := []
  /-- Faults classified: location, time in ns (R483). -/
  faults : List (Nat × Nat) := []
  /-- Ledger rings by entry: ageing records and fault history, entries written to each, time of the last write to each plus one, and
  entries that wait for the 10 ms of R482. -/
  ageRing : SMap LedEnt := []
  ageN : Nat := 0
  ageAt : Nat := 0
  histRing : SMap LedEnt := []
  histN : Nat := 0
  histAt : Nat := 0
  ledWait : List LedEnt := []
  /-- Identity region of the ledger (R480): canary margin at first start-up plus one, power-on count, slice-caused unavailability in
  µs, retirements. -/
  canary0 : Nat := 0
  powerOns : Nat := 0
  unavail : Nat := 0
  /-- A request to a paired last has waited, or been answered ST_DATA_LOST or ST_FENCED, in the present µs (R360). -/
  unavailNow : Bool := false
  retires : Nat := 0
  /-- sc for which the control island has been powered: the powered hours of R480. -/
  poweredSc : Nat := 0
  /-- Kernels (R490 to R492): the kernel being rerun, its reruns left, those that failed too; rounds, failures. -/
  kernel : Nat := 0
  /-- The kernel whose turn it is (R490). -/
  kernelAt : Nat := 0
  rerun : Nat := 0
  rerunBad : Nat := 0
  rounds : Nat := 0
  fails : Nat := 0
  /-- The ac that KERNEL instances have given each kernel since its last run ended, by kernel (R208, R490). -/
  kernelAc : SMap Nat := []
  /-- Test packs by slot (R494). -/
  packs : SMap Bytes := []
  /-- A TEST.RUN with stress: 0 none, 1 asked for STRESS_SET, 2 waits for its end; the command, the kernels that failed and the
  first failing pack test plus one (R496). -/
  stress : Nat := 0
  stressCmd : Nat := 0
  stressBad : Nat := 0
  stressPack : Nat := 0
  /-- Ageing (R498 to R501): the sample's figures, voltages proposed and applied in mV, time in ns of the last proposal plus one. -/
  dCore : Nat := 0
  dArr : Nat := 0
  margin : Nat := 0
  propCore : Nat := 0
  propArr : Nat := 0
  vCore : Nat := 750
  vArr : Nat := 800
  proposed : Nat := 0
  /-- droop_threshold as the slice sets it (R500). -/
  rState : Nat := 0
  rReason : Nat := 0
  /-- Step of R505 the drain has reached, the SLICE.RETIRE commands that wait for it, its flags and counts. -/
  rStep : Nat := 0
  rCmds : List Nat := []
  noDrain : Bool := false
  written : Nat := 0
  lost : SMap Nat := []
  /-- The harrow (R454 to R458): position in the pass, passes, visits that found a failure. -/
  pos : Nat := 0
  passes : Nat := 0
  failures : Nat := 0
  deriving DecidableEq, Repr

/-- The machine. -/
structure State where
  /-- Commands waiting, first in, first out. -/
  pending : List Instr := []
  /-- Messages and beats held in safe retention until its exit, oldest first (R558). -/
  held : List Instr := []
  /-- What the slice has driven, oldest first. -/
  out : List Out := []
  /-- Fabric cycles passed. -/
  now : Nat := 0
  /-- Free values drawn (the model's own, DESIGN CHOICE, notes/assumptions 4). -/
  free : Nat := 0
  /-- Writable register bits, exclusive-or their reset values, by offset. -/
  csr : SMap (BitVec 64) := []
  /-- Transmit credits by channel (R268, R19, R21), those of BLK demand beats preset (DESIGN CHOICE, notes/assumptions 5), and messages
  waiting for them, oldest first. -/
  credits : SMap Nat := [(16, 32)]
  txq : List (Nat × Out) := []
  pw : Power := {}
  tm : Time := {}
  arr : Arr := {}
  coh : Coh := {}
  ari : Ari := {}
  gen : Gen := {}
  rg : Rings := {}
  hd : Head := {}
  sec : Sec := {}
  qs : Qos := {}
  tt : Tether := {}
  pr : Pair := {}
  pl : Plan := {}
  hl : Health := {}
  deriving DecidableEq, Repr

/-- The machine right after reset: every field at the value its declaration gives (INVENTORY.md, State). -/
def State.reset : State := {}

end Sys2Proof.Machine
end

