-- ==== Sys2Proof/Machine/Ops.lean ====
section
/-! DEFINITION. Named operations over the state that every family uses: registers, event counters, time, the ports and their
credits, MEM requests, records, events, interrupts and error records. -/

namespace Sys2Proof.Machine

open Sys2Proof

/-! ## Registers -/

/-- The bits a register holds by software's writes, or its reset value (R594). -/
def csrGet (s : State) (off : Nat) : Nat :=
  (SMap.get 0 s.csr off ^^^ BitVec.ofNat 64 (regReset off)).toNat

/-- The register's held bits replaced. -/
def csrPut (s : State) (off v : Nat) : State :=
  { s with csr := SMap.put 0 s.csr off (BitVec.ofNat 64 v ^^^ BitVec.ofNat 64 (regReset off)) }

/-- Field [hi:lo] of a register. -/
def csrFld (s : State) (off hi lo : Nat) : Nat := fld (csrGet s off) hi lo

/-- Bit `i` of a register. -/
def csrBit (s : State) (off i : Nat) : Bool := (csrGet s off).testBit i

/-- Bits of a register set by the slice itself (R585). -/
def csrSet (s : State) (off bits : Nat) : State := csrPut s off (csrGet s off ||| bits)

/-- The slice's own requester ID (spec/06, R269). -/
def ownId (s : State) : Nat := (s.pw.chip <<< 12) + (s.pw.die <<< 9) + 0x1E0 + s.pw.sliceId

/-- The slice's headland ring stop address (R467). -/
def stopAddr (s : State) : Nat := 0x8000 ||| (s.pw.chip <<< 8) ||| (s.pw.die <<< 5) ||| s.pw.sliceId

/-- The timestamp in ns (R541). -/
def tsNs (s : State) : Nat := (s.tm.ts / 2 ^ 32) % 2 ^ 64

/-- Enabled ways by fuse (R3, R71): 16, 14 or 12. -/
def fuseWays (s : State) : Nat := if s.pw.grade = 1 then 14 else if s.pw.grade = 2 then 12 else 16

/-- A free value drawn (DESIGN CHOICE, notes/assumptions 4): its number, and the counter advanced. -/
def drawFree (s : State) : Nat × State := (s.free, { s with free := s.free + 1 })

/-- A free word: a value the spec does not state (DESIGN CHOICE, notes/assumptions 4). -/
def freeWord (s : State) : Nat × State :=
  let (n, s) := drawFree s
  (Config.freeNat n % 2 ^ 64, s)

/-! ## Event counters -/

/-- Whether event `n` arises in the control island, whose cycle is the sc (R530). -/
def evControl (n : Nat) : Bool :=
  decide ((0x60 ≤ n ∧ n ≤ 0x66) ∨ (0x73 ≤ n ∧ n ≤ 0x75) ∨ (0x86 ≤ n ∧ n ≤ 0x8C))

/-- A counter with `k` occurrences in the cycle `cyc`, `edge` its mode, `sc` the sc in progress (R530, R531); and whether it
wrapped. -/
def evCtrAdd (c : EvCtr) (edge : Bool) (cyc sc k : Nat) : EvCtr × Bool :=
  let d := if edge then (match c.last with | some l => if l + 1 < cyc then 1 else 0 | none => 1) else k
  let inSc := if c.sc = sc then c.inSc + d else d
  (⟨c.val + BitVec.ofNat 48 d, some cyc, sc, inSc⟩, decide (2 ^ 48 ≤ c.val.toNat + d))

/-- Event `n` occurs `k` times in this cycle (R529, R530). -/
def evN (s : State) (n k : Nat) : State :=
  if k = 0 then s else
  let c := SMap.get {} s.qs.evs n
  let cyc := if evControl n then s.now / 4 else s.now
  let edge := csrBit s (0x4800 + 8 * (n / 64)) (n % 64)
  let (c', wrapped) := evCtrAdd c edge cyc (s.now / 4) k
  let s := { s with qs := { s.qs with evs := SMap.put {} s.qs.evs n c' } }
  if wrapped then csrSet s (0x4820 + 8 * (n / 64)) (2 ^ (n % 64)) else s

/-- Event `n` occurs once. -/
def ev (s : State) (n : Nat) : State := evN s n 1

/-! ## Metering and energy activity -/

/-- Bytes of a class in a group of the window: 0 MEM, 1 BLK, 2 MSG, 3 TTH (R516). -/
def meter (s : State) (cls group bytes : Nat) : State :=
  let k := (cls % 16) * 4 + group
  { s with qs := { s.qs with win := SMap.put 0 s.qs.win k (SMap.get 0 s.qs.win k + bytes) } }

/-- Activity of a kind charged to a class and a context, 16 and 4096 for none (R536). -/
def activity (s : State) (cls ctx kind k : Nat) : State :=
  let a := cls * 8 + kind
  let b := ctx * 8 + kind
  { s with qs := { s.qs with
      actCls := SMap.put 0 s.qs.actCls a (SMap.get 0 s.qs.actCls a + k)
      actCtx := SMap.put 0 s.qs.actCtx b (SMap.get 0 s.qs.actCtx b + k) } }

/-- Half-beats of 128 bytes that a byte mask of a line touches (R70). -/
def halfBeatCount (m : LineMask) : Nat := ((List.range 4).filter fun k => (m.toNat >>> (128 * k)) % 2 ^ 128 != 0).length

/-- The context of the last that covers an address (R78, R536); the default last covers the rest. -/
def coverCtx (s : State) (addr : Nat) : Nat :=
  match s.arr.lasts.find? fun e => decide (e.2.cond ≠ 0 ∧ e.2.base ≤ addr ∧ addr < e.2.limit) with
  | some e => fld e.2.attr 19 8
  | none => csrFld s 0x118 19 8

/-- `n` half-beats of a line read from the array or written to it by an access of a class (R536). -/
def arrayUse (s : State) (qos line n : Nat) : State := activity s qos (coverCtx s (512 * line)) 0 n

/-! ## Stages of tagged requests (R534) -/

/-- A stage added to a trace, unless it was reached before. -/
def traceReach (t : Trace) (now i : Nat) : Trace :=
  if t.stages.any fun e => e.1 == i then t else { t with stages := t.stages ++ [(i, min 0xFFFE (now - t.acc))] }

/-- The trace of a request changed. -/
def traceMap (s : State) (n : Nat) (f : Trace → Trace) : State :=
  { s with qs := { s.qs with traces := s.qs.traces.map fun e => if e.1 = n then (n, f e.2) else e } }

/-- A tagged request reaches a stage (R534). -/
def stage (s : State) (n i : Nat) : State := traceMap s n fun t => traceReach t s.now i

/-- The tagged requests that the fill of a line answers, those that took its entry or merged into it, reach a stage of that fill (R534). -/
def fillReach (s : State) (line i : Nat) : State :=
  { s with qs := { s.qs with traces := s.qs.traces.map fun e =>
      if e.2.m.addr / 512 = line ∧ ((e.2.stages.any fun x => x.1 == 2) ∨ (3 < i ∧ e.2.flags.testBit 1)) then (e.1, traceReach e.2 s.now i) else e } }

/-- The requests whose MEM request is driven reach stage 3 (R534). -/
def memStage (s : State) (q : MemReq) : State :=
  match q with
  | .rd x => match x.for_ with
    | .fill line => fillReach s line 3
    | _ => s
  | .wr w _ _ => match w.for_ with
    | .req o => stage s o.n 3
    | _ => s

/-! ## Ports and credits -/

/-- The credit channel of a port and class: CTL 0 to 4, HST 8 to 12, BLK read-return 16, MEM request 17, MEM write data 18 (class 1 of MEM). -/
def channel (p : Port) (cls : Nat) : Nat :=
  match p with
  | .ctl => cls % 8
  | .hst => 8 + cls % 8
  | .blk => 16
  | _ => 17 + cls % 2

/-- Bytes of whole beats a CTL or HST message takes (R269). -/
def msgBytes (p : Port) (payload : Nat) : Nat :=
  let w := if p = .hst then 64 else 16
  ceilDiv (16 + payload) w * w

/-- Payload bytes of a message the slice drives (R270). -/
def omsgPayload (m : OMsg) : Nat :=
  m.data.length + (if m.cls = 3 ∧ m.opcode = 9 then 8 else 0) + (if m.cls = 3 ∧ m.opcode = 3 then 8 else 0)

/-- Something driven on a port, its bytes metered to its class. -/
def drive (s : State) (o : Out) : State :=
  let s := { s with out := s.out ++ [o] }
  match o with
  | .msg p m =>
    activity (meter s m.qos 2 (msgBytes p (omsgPayload m))) m.qos (coverCtx s m.addr) 4
      (msgBytes p (omsgPayload m) / (if p = .hst then 64 else 16))
  | .blk b => activity (meter s b.qos 1 256) b.qos b.ctx 3 1
  | _ => s

/-- The islands that drive CTL, HST, BLK and MEM are stopped: in safe retention, or without the logic supply (R557, R558). -/
def portsHalt (s : State) : Bool := s.pw.pstate == 3 || s.pw.coreDown

/-- A message sent on a channel: driven against a credit in its turn, else it waits (R268, R19). DESIGN CHOICE, notes/assumptions 5. -/
def sendCh (s : State) (ch : Nat) (o : Out) : State :=
  let c := SMap.get 0 s.credits ch
  if c = 0 ∨ s.txq.any (fun e => e.1 == ch) ∨ portsHalt s then { s with txq := s.txq ++ [(ch, o)] }
  else drive { s with credits := SMap.put 0 s.credits ch (c - 1) } o

/-- The oldest message waiting on a channel, and the others. -/
def takeFirst (ch : Nat) : List (Nat × Out) → Option (Out × List (Nat × Out))
  | [] => none
  | e :: r =>
    if e.1 = ch then some (e.2, r)
    else (takeFirst ch r).map fun x => (x.1, e :: x.2)

/-- A credit arrives on a channel (R268): the oldest message waiting there is driven, else the credit is kept. -/
def giveCredit (s : State) (ch : Nat) : State :=
  match if portsHalt s then none else takeFirst ch s.txq with
  | some (o, r) => drive { s with txq := r } o
  | none => { s with credits := SMap.put 0 s.credits ch (SMap.get 0 s.credits ch + 1) }

/-- What waited while the ports were stopped is sent in its order (R559, R612). -/
def txDrain (s : State) : State := s.txq.foldl (fun s e => sendCh s e.1 e.2) { s with txq := [] }

/-- A CTL or HST message sent (R270). -/
def sendMsg (s : State) (p : Port) (m : OMsg) : State :=
  sendCh s (channel p m.cls) (.msg p { m with src := ownId s })

/-- The receive credit of a consumed message returned (R266). -/
def returnCredit (s : State) (p : Port) (cls : Nat) : State := drive s (.credit p cls)

/-- The port an answer leaves by: BLK demand writes are answered on CTL (R286). -/
def answerPort (p : Port) : Port := if p = .hst then .hst else .ctl

/-- An answer to a request: RSP 0 CMP or DAT 0 DATA, with the request's tag, class, addr and size (R270). -/
def answer (s : State) (m : Msg) (cls opcode status mod : Nat) (data : Bytes) : State :=
  sendMsg s (answerPort m.port)
    { cls := cls, opcode := opcode, status := status, qos := m.qos, mod := mod, tag := m.tag, dst := m.src,
      addr := m.addr, size := m.size, data := data }

/-- CMP. -/
def cmpl (s : State) (m : Msg) (status mod : Nat) : State := answer s m 1 0 status mod []

/-- A request leaves the list of answers owed (R278, R290). -/
def settle (s : State) (n : Nat) : State :=
  { s with arr := { s.arr with owed := s.arr.owed.filter fun o => o.n != n } }

/-- A request of the slice's own on HST: tag drawn in turn, the requester's class. -/
def hstRequest (s : State) (opcode addr size mod op : Nat) (data : Bytes) : Nat × State :=
  let tag := s.coh.tag
  let s := { s with coh := { s.coh with tag := (tag + 1) % 256 } }
  (tag, sendMsg s .hst { cls := 3, opcode := opcode, qos := csrFld s 0x3080 27 24, mod := mod, tag := tag,
                         addr := addr, size := size, op := op, data := data })

/-- An HST WR of the slice, remembered until its CMP (R307, R308); `cmd` is the command it belongs to, 0 for none. -/
def hstWrite (s : State) (addr : Nat) (data : Bytes) (cmd : Nat) : State :=
  let (tag, s) := hstRequest s 2 addr (data.length - 1) 0 0 data
  { s with rg := { s.rg with hstWrs := s.rg.hstWrs ++ [(tag, cmd)] } }

/-! ## MEM -/

/-- The lowest number below `n` not in a list. -/
def freeTag (n : Nat) (used : List Nat) : Option Nat := (List.range n).find? fun t => !used.contains t

/-- Beats of 128 bytes that hold the bytes from an address on (R14). -/
def memBeats (addr n : Nat) : Nat := ceilDiv (addr % 128 + n) 128

/-- One waiting MEM request issued, where a tag and its credits are free, one for the request (R21) and for a write one for each beat of its
data (R14; DESIGN CHOICE, notes/assumptions 5), the slice is not fenced (R473), in safe retention (R557) or without its logic supply. -/
def memStep (s : State) : Option State :=
  if s.hd.fenced || portsHalt s then none else
  match s.arr.memq with
  | [] => none
  | q :: r =>
    let c := SMap.get 0 s.credits 17
    if c = 0 then none else
    let s1 := { s with credits := SMap.put 0 s.credits 17 (c - 1) }
    match q with
    | .rd x =>
      match freeTag 512 (s.arr.memRds.map (·.tag)) with
      | none => none
      | some t =>
        some (memStage (drive { s1 with arr := { s1.arr with memq := r, memRds := s1.arr.memRds ++ [{ x with tag := t }] } }
          (.memRd t x.addr x.beats x.crit x.qos)) q)
    | .wr w d qos =>
      let k := memBeats w.addr d.length
      let beats := SMap.get 0 s.credits 18
      if beats < k then none else
      match freeTag 512 (s.arr.memWrs.map (·.tag)) with
      | none => none
      | some t =>
        let s2 := { s1 with credits := SMap.put 0 s1.credits 18 (beats - k), arr := { s1.arr with memq := r, memWrs := s1.arr.memWrs ++ [{ w with tag := t, data := d, qos := qos }] } }
        some (memStage (activity (meter (drive s2 (.memWr t w.addr d qos)) qos 0 (k * 128)) qos (coverCtx s w.addr) 2 k) q)

/-- Waiting MEM requests issued in order while they can be. -/
def memPump : Nat → State → State
  | 0, s => s
  | k + 1, s =>
    match memStep s with
    | some s' => memPump k s'
    | none => s

/-- A MEM request joins those waiting, and what can issue issues. -/
def memPush (s : State) (q : MemReq) : State :=
  let s := { s with arr := { s.arr with memq := s.arr.memq ++ [q] } }
  memPump s.arr.memq.length s

/-- A MEM read. -/
def memRead (s : State) (for_ : RdFor) (addr beats crit qos : Nat) : State :=
  memPush s (.rd { for_ := for_, addr := addr, beats := beats, crit := crit, qos := qos })

/-- A MEM write of bytes at an address. -/
def memWrite (s : State) (w : MemWr) (data : Bytes) (qos : Nat) : State := memPush s (.wr w data qos)

/-- A MEM write of a whole line (R76). -/
def memWriteLine (s : State) (w : MemWr) (line : Nat) (d : LineData) (qos : Nat) : State :=
  memWrite s { w with addr := line * 512 } (lineBytes d 0 512) qos

/-- The runs of ones of a byte mask within `n` bytes from `i`: offset and length of each. -/
def runs (mask : Nat) : Nat → Nat → Option Nat → List (Nat × Nat)
  | 0, i, some b => [(b, i - b)]
  | 0, _, none => []
  | n + 1, i, none => if mask.testBit i then runs mask n (i + 1) (some i) else runs mask n (i + 1) none
  | n + 1, i, some b =>
    if mask.testBit i then runs mask n (i + 1) (some b) else (b, i - b) :: runs mask n (i + 1) none

/-- The masked bytes of a line written to memory without allocation, run by run (R102, R116); every run carries `w` but only
the last is waited for where `w` waits. -/
def memWriteMasked (s : State) (w : MemWr) (line : Nat) (d : LineData) (m : LineMask) (qos : Nat) : State :=
  (runs m.toNat 512 0 none).foldl
    (fun s r => memWrite s { w with addr := line * 512 + r.1 } (lineBytes d r.1 r.2) qos) s

/-! ## Records, events and interrupts -/

/-- A 32-byte record's bytes from its four words (R402). -/
def recordBytes (w0 w1 w2 w3 : Nat) : Bytes := leBytes 8 w0 ++ leBytes 8 w1 ++ leBytes 8 w2 ++ leBytes 8 w3

/-- Word0 of a record (R402). -/
def recordWord0 (phase overflow : Bool) (kind seq status ring cmd : Nat) : Nat :=
  at_ (b2n phase) 63 + at_ (b2n overflow) 62 + at_ (kind % 256) 48 + at_ (seq % 65536) 32 + at_ (status % 256) 24 +
    at_ (ring % 64) 18 + cmd % 4096

/-- The phase bit of posting index `j` in a ring of 2^k slots (R389, R402). -/
def phaseBit (j k : Nat) : Bool := !((j >>> k).testBit 0)

/-- A size code held between limits. -/
def clampLog (lo hi v : Nat) : Nat := max lo (min hi v)

def ringGet (s : State) (n : Nat) : Ring := SMap.get {} s.rg.rings n
def ringPut (s : State) (n : Nat) (r : Ring) : State := { s with rg := { s.rg with rings := SMap.put {} s.rg.rings n r } }

/-- desc_log2 and cpl_log2 of a ring as they act (R412, R405). -/
def descLog (s : State) (n : Nat) : Nat := clampLog 4 16 (csrFld s (0x1018 + 64 * n) 28 24)
def cplLog (s : State) (n : Nat) : Nat := max (descLog s n) (clampLog 4 16 (csrFld s (0x1018 + 64 * n) 23 19))

/-- A ring's address: bits below its size read as zero (R412, R413). -/
def alignDown (a n : Nat) : Nat := a / n * n

/-- The completion ring of a ring (R412). -/
def cplBase (s : State) (n : Nat) : Nat := alignDown (csrGet s (0x1008 + 64 * n)) (32 * 2 ^ cplLog s n)

/-- An interrupt vector fires (R409, R410): an HST WR of its 4 data bytes. -/
def irqFire (s : State) (v : Nat) : State :=
  let s := { s with rg := { s.rg with irqs := SMap.put {} s.rg.irqs v { pending := false, fired := some s.now } } }
  hstWrite s (csrGet s (0x2400 + 16 * v)) (leBytes 4 (csrGet s (0x2408 + 16 * v))) 0

/-- Whether a vector lies within its holdoff, in units of 100 ns, 200 fc (R410). -/
def irqHeld (s : State) (v : Nat) : Bool :=
  match (SMap.get {} s.rg.irqs v).fired with
  | some t => decide (s.now < t + 200 * csrFld s (0x240C + 16 * v) 15 0)
  | none => false

/-- A vector is raised (R409, R410); in safe retention it waits for the exit (R612). -/
def irqRaise (s : State) (v : Nat) : State :=
  if csrBit s (0x240C + 16 * v) 31 || irqHeld s v || s.pw.pstate == 3 then
    let q := SMap.get {} s.rg.irqs v
    { s with rg := { s.rg with irqs := SMap.put {} s.rg.irqs v { q with pending := true } } }
  else irqFire s v

/-- The vectors that pend, are not masked and lie in no holdoff fire, as safe retention ends (R559, R612). -/
def irqWake (s : State) : State :=
  (s.rg.irqs.filter fun e => e.2.pending).foldl (fun s e => irqRaise s e.1) s

/-- A record for event ring `n` (R407, R408): posted, or dropped and counted. -/
def evPost (s : State) (n : Nat) (kind status ring cat w1 w2 w3 : Nat) : State :=
  let e := SMap.get {} s.rg.evs n
  let ctl := csrGet s (0x2008 + 32 * n)
  let k := clampLog 4 16 (fld ctl 12 8)
  let room := ((e.posted + 2 ^ 32 - (ringGet s n).evtCons) % 2 ^ 32) < 2 ^ k
  if csrBit s 0x2080 (24 + cat) && ctl.testBit 31 && room then
    let w0 := recordWord0 (phaseBit e.posted k) e.overflow kind 0 status ring cat
    let s := hstWrite s (alignDown (csrGet s (0x2000 + 32 * n)) (32 * 2 ^ k) + 32 * (e.posted % 2 ^ k)) (recordBytes w0 w1 w2 w3) 0
    let s := ev s Ev.record
    let e' : EvRing := { e with posted := (e.posted + 1) % 2 ^ 32, overflow := false }
    let s := { s with rg := { s.rg with evs := SMap.put {} s.rg.evs n e' } }
    if ctl.testBit 1 then irqRaise s (fld ctl 7 2) else s
  else
    let e' : EvRing := { e with dropped := satInc 32 e.dropped, overflow := true }
    ev { s with rg := { s.rg with evs := SMap.put {} s.rg.evs n e' } } Ev.eventDrop

/-- An EVENT record of a category (R407, R408). -/
def postEvent (s : State) (cat status ring w1 w2 : Nat) : State :=
  evPost s (fld (csrGet s 0x2080) (2 * cat + 1) (2 * cat)) 3 status ring cat w1 w2 (tsNs s)

/-- An EVENT record whose subject and detail the spec does not state: free words (DESIGN CHOICE, notes/assumptions 4). -/
def postEventFree (s : State) (cat status : Nat) : State :=
  let (w1, s) := freeWord s
  let (w2, s) := freeWord s
  postEvent s cat status 0 w1 w2

/-- A headland ring frame sent under the slice's next frame number (R467), where the stop inserts frames (R50). -/
def hdrSend (s : State) (type dst : Nat) (payload : List Nat) : State :=
  let f : Frame := { type := type, seq := s.hd.seq, dst := dst, src := stopAddr s, payload := payload }
  drive { s with hd := { s.hd with seq := (s.hd.seq + 1) % 65536 } } (.hdr f)

/-- A frame to master_addr kept until it is acknowledged (R466, R469); sent now where the stop is ACTIVE, or FORWARD with the
slice fenced and the frame its notice (R50). -/
def hdrKeep (s : State) (type : Nat) (payload : List Nat) : State :=
  let f : Frame := { type := type, seq := s.hd.seq, dst := csrFld s 0x0C28 31 16, src := stopAddr s, payload := payload }
  let can := s.hd.mode = 0 ∨ (s.hd.fenced ∧ s.hd.mode = 1 ∧ type = 3)
  let s := { s with hd := { s.hd with seq := (s.hd.seq + 1) % 65536,
                                      unacked := s.hd.unacked ++ [(f, if can then 1 else 0)] } }
  if can then drive s (.hdr f) else s

/-- The 32-bit words of bytes, little-endian (R468). -/
def words32 (bs : Bytes) (n : Nat) : List Nat := (List.range n).map fun i => leAt bs (4 * i) 4

/-! ## The ledger (spec/13 R480 to R485) -/

/-- Whether an entry belongs to the ring of ageing records. DEDUCED, notes/assumptions 21. -/
def ledAgeing (kind : Nat) : Bool := kind == 6 || kind == 7

/-- An entry written over the oldest of its ring (R481, R482). -/
def ledWrite (s : State) (e : LedEnt) : State :=
  let h := s.hl
  if ledAgeing e.kind then
    { s with hl := { h with ageRing := SMap.ins h.ageRing (h.ageN % 512) e, ageN := h.ageN + 1, ageAt := tsNs s + 1 } }
  else { s with hl := { h with histRing := SMap.ins h.histRing (h.histN % 3264) e, histN := h.histN + 1, histAt := tsNs s + 1 } }

/-- A region may be written: 10 ms have passed since its last write (R482). -/
def ledFree (s : State) (kind : Nat) : Bool :=
  let t := if ledAgeing kind then s.hl.ageAt else s.hl.histAt
  t == 0 || decide (t - 1 + 10000000 ≤ tsNs s)

/-- The repair map in force is written into the copy that does not hold the higher generation, once its region may be written (R482). -/
def mapPump (s : State) : State :=
  let h := s.hl
  if h.mapWait && (h.mapAt == 0 || decide (h.mapAt - 1 + 10000000 ≤ tsNs s)) then
    let g := max h.maps.1.gen h.maps.2.gen + 1
    let m : RepairMap := { gen := g, ways := h.wayDis, spares := h.spares }
    { s with hl := { h with
      mapWait := false, mapAt := tsNs s + 1, mapGen := g, maps := if h.maps.2.gen < h.maps.1.gen then (h.maps.1, m) else (m, h.maps.2) } }
  else s

/-- An assignment or a way recorded in the repair map (R485, R487). -/
def mapSave (s : State) : State := mapPump { s with hl := { s.hl with mapWait := true } }

/-- The copy in force at a start-up: that of the higher generation (R482). -/
def mapBest (m : RepairMap × RepairMap) : RepairMap := if m.1.gen < m.2.gen then m.2 else m.1

/-- The oldest waiting entry whose region may be written is written, and the repair map where it waits. -/
def ledPump (s : State) : State :=
  let s := mapPump s
  match s.hl.ledWait.find? fun e => ledFree s e.kind with
  | some e => ledWrite { s with hl := { s.hl with ledWait := s.hl.ledWait.erase e } } e
  | none => s

/-- The place of the latest entry of a ring that satisfies `p`, of the `size` places written to `n` times. -/
def ledLatest (ring : SMap LedEnt) (n size : Nat) (p : LedEnt → Bool) : Option Nat :=
  let age := fun (k : Nat) => (n + size - 1 - k) % size
  ring.foldl (fun (b : Option Nat) e =>
    if !p e.2 then b else match b with
      | some k => if age e.1 < age k then some e.1 else b
      | none => some e.1) none

/-- A further fault of the same kind and subject counted in an entry (R482). -/
def ledFold (e : LedEnt) (history : Nat) : LedEnt :=
  { e with count := min 63 (e.count + 1), history := max e.history history }

/-- An event entered in the ledger: folded into the latest entry of its kind and subject, else written, or kept until its region
may be written (R481, R482). DEDUCED, notes/assumptions 21. -/
def ledAdd (s : State) (kind subject history : Nat) : State :=
  let s := ledPump s
  let h := s.hl
  let same := fun (e : LedEnt) => e.kind == kind && e.subject == subject
  let ring := if ledAgeing kind then h.ageRing else h.histRing
  if h.ledWait.any same then
    { s with hl := { h with ledWait := h.ledWait.map fun e => if same e then ledFold e history else e } }
  else match if ledAgeing kind then ledLatest ring h.ageN 512 same else ledLatest ring h.histN 3264 same with
  | some k =>
    let r := SMap.ins ring k (ledFold (SMap.get {} ring k) history)
    { s with hl := if ledAgeing kind then { h with ageRing := r } else { h with histRing := r } }
  | none =>
    let e : LedEnt := { ts := tsNs s, subject := subject, kind := kind, history := history }
    if ledFree s kind then ledWrite s e else { s with hl := { h with ledWait := h.ledWait ++ [e] } }

/-- The history of a fault at a location (R483), a window being half-open (R13): 0 first, 1 repeated, 2 permanent. -/
def faultHistory (s : State) (loc : Nat) (stuck : Bool) : Nat :=
  let since := fun (ns : Nat) => (s.hl.faults.filter fun f => f.1 == loc && decide (tsNs s < f.2 + ns)).length
  let month := since (30 * 86400 * 10 ^ 9)
  if stuck ∨ 2 ≤ month ∨ 1 ≤ since (86400 * 10 ^ 9) then 2 else if 1 ≤ month then 1 else 0

/-- The location of an array row: bank, way, row of the slot's set (R481, R483). -/
def rowLoc (bank way row : Nat) : Nat := 2 ^ 32 + at_ bank 24 + at_ way 20 + at_ row 13

/-- A permanent array or tag row takes a spare row, or its way is disabled where the bank has none left (R484, R487); the fifth
disabled way asks for retirement (R502, Machine/Health.lean). -/
def rowFailed (s : State) (loc : Nat) : State :=
  let bank := fld loc 27 24
  let way := fld loc 23 20
  let h := s.hl
  let used := (h.spares.filter fun x => x.1 == bank).length + (h.copies.filter fun x => x.1 == bank).length
  if h.copies.contains (bank, way, fld loc 19 13) || h.wayGoing.contains (bank, way) then s
  else if used < 8 then { s with hl := { h with copies := h.copies ++ [(bank, way, fld loc 19 13)] } }
  else { s with hl := { h with wayGoing := h.wayGoing ++ [(bank, way)] } }

/-- The location of a sheaf and of a snoop filter set (R483). -/
def sheafLoc (k : Nat) : Nat := 2 ^ 33 + k
def sfLoc (set : Nat) : Nat := 2 ^ 35 + set

/-- The subject of a fault's ledger entry (R481). -/
def faultSubject (e : Err) : Nat :=
  at_ e.unit 28 + if e.loc < 2 ^ 33 then e.loc % 2 ^ 28 + e.byte else e.loc % 2 ^ 13

/-- What a permanent fault of a location starts (R483): a row takes a spare, a sheaf takes its sheaf bank out of allocation; a snoop filter
set is cautious already. -/
def permanent (s : State) (loc : Nat) : State :=
  if loc < 2 ^ 33 then rowFailed s loc
  else if loc < 2 ^ 34 then
    let b := loc % 2 ^ 12 / 64
    if s.hl.banksOut.contains b then s else { s with hl := { s.hl with banksOut := s.hl.banksOut ++ [b] } }
  else s

/-- A failure classified by its location, entered in the ledger, and acted on where it is permanent (R483). -/
def classify (s : State) (e : Err) : State × Err :=
  if e.loc = 0 ∨ e.history = 3 then (s, e)
  else
    let h := faultHistory s e.loc e.stuck
    let s := ledAdd { s with hl := { s.hl with faults := s.hl.faults ++ [(e.loc, tsNs s)] } } 1 (faultSubject e) h
    (if h = 2 then permanent s e.loc else s, { e with history := h })

/-- An error record posted: the ERROR frame (R466) and the copy on the event ring (R408). -/
def postError (s : State) (status : Nat) (e : Err) : State :=
  let (s, e) := classify s e
  let w1 := at_ e.unit 60 + at_ (e.sectors % 256) 52 + e.addr % 2 ^ 52
  let w2 := at_ e.last 54 + at_ e.ctx 42 + at_ e.action 38 + at_ e.history 36 + at_ e.detector 32 + e.detail % 2 ^ 32
  let ts := e.ts.getD (tsNs s)
  let s :=
    if (s.hd.unacked.filter fun f => f.1.type == 1).length < 32 then
      let w0 := recordWord0 false s.hd.overflow 4 0 status 0 0
      hdrKeep { s with hd := { s.hd with overflow := false } } 1 (words32 (recordBytes w0 w1 w2 ts) 8)
    else ev { s with hd := { s.hd with overflow := true } } Ev.errorDrop
  evPost s (fld (csrGet s 0x2080) 1 0) 4 status 0 0 w1 w2 ts

/-! ## Commands in flight -/

def cmdGet (s : State) (n : Nat) : Option Cmd := s.rg.cmds.find? fun c => c.n == n
def cmdUpd (s : State) (n : Nat) (f : Cmd → Cmd) : State :=
  { s with rg := { s.rg with cmds := s.rg.cmds.map fun c => if c.n = n then f c else c } }

/-- A line of a command completes with a status (R433). -/
def cmdLine (s : State) (o : Op) (status : Nat) : State :=
  cmdUpd s o.cmd fun c => { c with
    todo := c.todo - 1
    acted := c.acted + 1
    bad := if status = 0 then c.bad else c.bad + 1
    low := if status = 0 then c.low else match c.low with
      | some (i, st) => if i ≤ o.idx then some (i, st) else some (o.idx, status)
      | none => some (o.idx, status) }

/-- A command ends with a result. -/
def cmdEnd (s : State) (n status word2 aux : Nat) : State :=
  cmdUpd { s with rg := { s.rg with doneN := s.rg.doneN + 1 } } n fun c =>
    if c.done then c else { c with done := true, status := status, word2 := word2, aux := aux, doneN := s.rg.doneN }

/-- A MEM write of a line a command waits for. -/
def cmdWrite (s : State) (n : Nat) : State := cmdUpd s n fun c => { c with writes := c.writes + 1 }

end Sys2Proof.Machine
end

