-- ==== Sys2Proof/Machine/Lasts.lean ====
section
/-! DEFINITION. Lasts and their attributes, the set index, ways and pinned slots (spec/02 R69 to R100, spec/08 R341). -/

namespace Sys2Proof.Machine

open Sys2Proof

/-! ## Attributes of the last record (R78, R126) -/

def aKind (a : Nat) : Nat := fld a 1 0
def aBaled (a : Nat) : Bool := a.testBit 2
def aCrc (a : Nat) : Bool := a.testBit 3
def aDur (a : Nat) : Nat := fld a 6 4
def aTrack (a : Nat) : Bool := a.testBit 7
def aCtx (a : Nat) : Nat := fld a 19 8
def aQos (a : Nat) : Nat := fld a 23 20
def aMask (a : Nat) : Nat := fld a 39 24
def aBale (a : Nat) : Nat := fld a 55 40
def aFmt (a : Nat) : Nat := fld a 55 53
def aReadFmt (a : Nat) : Nat := fld a 52 51
def aStoch (a : Nat) : Bool := a.testBit 50
def aWriteFmt (a : Nat) : Nat := fld a 49 48
def aCache (a : Nat) : Bool := a.testBit 56

/-- Pinned slot and stride of the pin word (R78). -/
def pinFirst (p : Nat) : Nat := fld p 22 6
def pinStride (p : Nat) : Nat := fld p 5 0

/-- PAIRED_SYNC or PAIRED_LAG (R78). -/
def aPaired (a : Nat) : Bool := aDur a == 1 || aDur a == 2

/-- The last of an index; 1,023 is the default last (R77). -/
def lastAt (s : State) (i : Nat) : Last :=
  if i = 1023 then
    { base := 0, limit := 2 ^ 52, attr := csrGet s 0x118, prefetch := csrGet s 0x120,
      cond := max 1 (SMap.get {} s.arr.lasts 1023).cond }
  else SMap.get {} s.arr.lasts i

def lastPut (s : State) (i : Nat) (l : Last) : State :=
  { s with arr := { s.arr with lasts := SMap.put {} s.arr.lasts i l } }

/-- The index of the last that covers an address (R77, R81). -/
def lastOf (s : State) (addr : Nat) : Nat :=
  match s.arr.lasts.find? fun e => decide (e.2.cond ≠ 0 ∧ e.2.base ≤ addr ∧ addr < e.2.limit) with
  | some e => e.1
  | none => 1023

/-- The last that covers a line address. -/
def lastOfLine (s : State) (line : Nat) : Nat := lastOf s (line * 512)

/-- Half-beats of a line that an access without a class of its own reads or writes, such as a write-back or a harrow visit: they take the class
of its last (R513, R536). -/
def lineUse (s : State) (line n : Nat) : State := arrayUse s (aQos (lastAt s (lastOfLine s line)).attr) line n

def ctxGet (s : State) (c : Nat) : Ctx := SMap.get {} s.gen.ctxs c
def ctxPut (s : State) (c : Nat) (x : Ctx) : State := { s with gen := { s.gen with ctxs := SMap.put {} s.gen.ctxs c x } }

/-- A tracked last: gen_track 1 and a context OPEN or FROZEN (R315). -/
def tracked (s : State) (a : Nat) : Bool := aTrack a && (ctxGet s (aCtx a)).st != 0

/-! ## Sets, ways and slots -/

/-- stripe_shift as it acts (R74). -/
def stripeShift (s : State) : Nat := min 5 (csrFld s 0x100 2 0)

/-- The set index of a line outside a PINNED last (R72). -/
def setOf (s : State) (line : Nat) : Nat :=
  let l := line >>> stripeShift s
  (fld l 12 0 ^^^ fld l 25 13 ^^^ fld l 38 26 ^^^ fld l 42 39) % 8192

/-- A way slot from its set and way. -/
def slotKey (set way : Nat) : Nat := way * 8192 + set
def slotSet (k : Nat) : Nat := k % 8192
def slotWay (k : Nat) : Nat := k / 8192
def slotBank (k : Nat) : Nat := k % 16

/-- pin_ways and mirror_ways (R99, R342). -/
def pinWays (s : State) : Nat := csrFld s 0x108 3 0
def mirrorWays (s : State) : Nat := csrFld s 0x900 7 4

/-- Whether a way of a bank is disabled (R487). -/
def wayDisabled (s : State) (bank way : Nat) : Bool := (SMap.get 0 s.hl.wayDis bank).testBit way

/-- The enabled ways of a bank, highest first (R71, R489). -/
def enabledWays (s : State) (bank : Nat) : List Nat :=
  ((List.range (fuseWays s)).filter fun w => !wayDisabled s bank w).reverse

/-- The way of a bank that takes the role of nominal pinned way `way`: the way itself, unless ways above it were disabled there when
pin_ways was written, or it has been disabled since (R91, R93, R99). -/
def roleWay (s : State) (bank way : Nat) : Nat :=
  match s.arr.roles.find? fun r => r.1 == bank && r.2.1 == way with
  | some r => r.2.2
  | none => way

/-- The roles of `n` pinned ways in every bank: the highest enabled ways of each (R91, R93). -/
def pinRoles (s : State) (n : Nat) : List (Nat × Nat × Nat) :=
  ((List.range 16).map fun b =>
    (((enabledWays s b).take n).zipIdx.map fun x => (b, fuseWays s - 1 - x.2, x.1)).filter fun r => r.2.1 != r.2.2).flatten

/-- The enabled ways of the bank that has the fewest (R91, R489). -/
def fewestWays (s : State) : Nat := ((List.range 16).map fun b => (enabledWays s b).length).foldl min 16

/-- The pinned ways of a bank, pinned way 0 first: the highest enabled ways (R91, R93). -/
def pinnedWays (s : State) (bank : Nat) : List Nat :=
  (List.range (pinWays s)).map fun i => roleWay s bank (fuseWays s - 1 - i)

/-- The way slot of pinned slot `n` (R93). -/
def pinnedSlot (s : State) (n : Nat) : Nat :=
  let set := n % 8192
  slotKey set (roleWay s (set % 16) (fuseWays s - 1 - n / 8192))

/-- The pinned slot of an address of a PINNED last (R96). -/
def pinIndex (l : Last) (line : Nat) : Nat :=
  pinFirst l.pin + (line - l.base / 512) / (max 1 (pinStride l.pin))

/-- Slots a PINNED last reserves (R95). -/
def pinCount (l : Last) : Nat := ceilDiv (l.limit - l.base) (512 * max 1 (pinStride l.pin))

/-- The number of pinned slots (R93, R341), none while the ways are being reserved (R92). -/
def pinSlots (s : State) : Nat := if s.arr.pinBusy then 0 else (pinWays s - mirrorWays s) * 8192

/-- Every PINNED last defined: first slot and slots reserved. -/
def pinnedRuns (s : State) : List (Nat × Nat) :=
  (s.arr.lasts.filter fun e => e.2.cond != 0 && aKind e.2.attr == 2).map fun e => (pinFirst e.2.pin, pinCount e.2)

/-- Pinned slots no last reserves (R99). -/
def freeSlots (s : State) : Nat := pinSlots s - ((pinnedRuns s).map (·.2)).foldl (· + ·) 0

/-- Whether slots `a` to `a + n - 1` are free. -/
def runFree (s : State) (a n : Nat) : Bool := (pinnedRuns s).all fun r => decide (a + n ≤ r.1 ∨ r.1 + r.2 ≤ a)

/-- The first slot of `n` consecutive free pinned slots: slot 0 or the end of a reserved run (R95). -/
def firstFit (s : State) (n : Nat) : Option Nat :=
  let starts := 0 :: (pinnedRuns s).map fun r => r.1 + r.2
  (starts.filter fun a => runFree s a n && decide (a + n ≤ pinSlots s)).min?

/-- Unpinned enabled ways of a set, lowest first (R100); a way being emptied takes no line (R488). -/
def usableWays (s : State) (set : Nat) : List Nat :=
  (List.range (fuseWays s)).filter fun w =>
    !wayDisabled s (set % 16) w && !s.hl.wayGoing.contains (set % 16, w) && !(pinnedWays s (set % 16)).contains w

/-- Every enabled way of a set, lowest first: unpinned, or of mirror lines taken over (R358). -/
def searchWays (s : State) (set : Nat) : List Nat := (List.range (fuseWays s)).filter fun w => !wayDisabled s (set % 16) w

/-- The way slots of a set set aside for the fellow's mirror lines: the lowest-numbered pinned ways (R341). -/
def mirrorSlots (s : State) (set : Nat) : List Nat :=
  (List.range (mirrorWays s)).map fun i => slotKey set (roleWay s (set % 16) (fuseWays s - pinWays s + i))

/-! ## Lines -/

def lineAt (s : State) (k : Nat) : Line := SMap.get {} s.arr.lines k
def linePut (s : State) (k : Nat) (l : Line) : State := { s with arr := { s.arr with lines := SMap.put {} s.arr.lines k l } }

/-- The way slot that holds a line: the slot of its PINNED last, else the way of its set whose tag names it (R73, R96). -/
def findLine (s : State) (line : Nat) : Option Nat :=
  let l := lastAt s (lastOfLine s line)
  if aKind l.attr = 2 ∧ l.cond ≠ 0 then some (pinnedSlot s (pinIndex l line))
  else
    let set := setOf s line
    ((searchWays s set).map (slotKey set)).find? fun k =>
      (lineAt s k).addr == line && (lineAt s k).st != .invalid

/-- The home of the line's tag in a PINNED last. -/
def isPinned (s : State) (line : Nat) : Bool := aKind (lastAt s (lastOfLine s line)).attr == 2

/-- The set a line's mirror lies in: that of its slot where it is pinned (R343). -/
def homeSet (s : State) (line : Nat) : Nat :=
  match findLine s line with
  | some k => slotSet k
  | none => setOf s line

/-- Lines of a class, its occupancy (R525). -/
def occupancy (s : State) (cls : Nat) : Nat :=
  (s.arr.lines.filter fun e => e.2.qos == cls && e.2.st != .invalid).length

/-- A class setting in force (R518, R526). -/
def clsCfg (s : State) (c : Nat) : Nat := (SMap.get 0 s.qs.cls c ^^^ BitVec.ofNat 64 (regReset 0x3000)).toNat

/-- Whether a class holds more than its occupancy share (R525). -/
def overShare (s : State) (c : Nat) : Bool :=
  let share := fld (clsCfg s c) 31 24
  decide (share ≠ 0 ∧ occupancy s c > 512 * share)

/-- The open entry of a line in the atomic line buffer (R161). -/
def openOf (s : State) (line : Nat) : Option OpenLine := s.arr.opens.find? fun o => o.line == line

/-- The eviction buffer that holds a line (R112). -/
def evictOf (s : State) (line : Nat) : Option Evict := s.arr.evicts.find? fun e => e.line == line

/-- The miss-handling entry of a line (R109). -/
def mheOf (s : State) (line : Nat) : Option Mhe := s.arr.mhes.find? fun m => m.line == line

/-- The merging-buffer entries of a line, oldest first (R88, R90). -/
def mergesOf (s : State) (line : Nat) : List Merge := s.arr.merges.filter fun m => m.sector / 8 == line

/-- The bound window a line lies in (R181). -/
def windowOf (s : State) (line : Nat) : Option Window :=
  s.ari.windows.find? fun w =>
    decide (w.base / 512 ≤ line ∧ line < w.base / 512 + ceilDiv (w.n * ((sheafReadFmt w.rf).width / 8)) 512)

def mheSet (s : State) (m : Mhe) : State :=
  { s with arr := { s.arr with mhes := s.arr.mhes.map fun x => if x.line = m.line then m else x } }
def mheDel (s : State) (line : Nat) : State :=
  { s with arr := { s.arr with mhes := s.arr.mhes.filter fun x => x.line != line } }
def openDel (s : State) (line : Nat) : State :=
  { s with arr := { s.arr with opens := s.arr.opens.filter fun x => x.line != line } }
/-- An open entry changed by an atomic: the entries stand in the order of their last use, the least recent first (R163). -/
def openSet (s : State) (o : OpenLine) : State :=
  { s with arr := { s.arr with opens := s.arr.opens.filter (fun x => x.line != o.line) ++ [o] } }

end Sys2Proof.Machine
end

