-- ==== Sys2Proof/Machine/Wire.lean ====
section
/-! DEFINITION. What stands on the wires: the bits of message headers and frames, odd parity, beats, and the lanes of the tether
(spec/01 R14, R15; spec/06 R269 to R275; spec/09 R361, R364; spec/12 R467). -/

namespace Sys2Proof.Machine

open Sys2Proof

/-! ## Parity (R15) -/

/-- A byte and the parity bit that travels with it. -/
abbrev Wired := Byte × Bool

/-- The parity bit the slice generates: the nine bits hold an odd number of ones. -/
def parityBit (b : Byte) : Bool := popcount 8 b.toNat % 2 == 0

/-- Bytes as the slice drives them. -/
def wired (bs : Bytes) : List Wired := bs.map fun b => (b, parityBit b)

/-- Whether every byte received has an odd number of ones with its parity bit. -/
def parityGood (ws : List Wired) : Bool := ws.all fun w => w.2 == parityBit w.1

/-! ## Messages (R269 to R271) -/

/-- Word0 and word1 of a header. -/
def headerWord0 (m : OMsg) : Nat :=
  at_ (m.status % 16) 58 + at_ (m.qos % 16) 54 + at_ (m.mod % 4) 52 + at_ (m.tag % 256) 44 + at_ (m.dst % 2 ^ 18) 26 +
    at_ (m.src % 2 ^ 18) 8 + at_ (m.opcode % 32) 3 + m.cls % 8
def headerWord1 (m : OMsg) : Nat := at_ (m.size % 256) 52 + m.addr % 2 ^ 52

/-- A message whose payload begins with a word of 8 bytes: WR_MASK, ATOMIC, HINT_PUSH, HINT_WR (R270). -/
def wordFirst (cls opcode : Nat) : Bool :=
  (cls == 3 && (opcode == 3 || opcode == 4 || opcode == 9)) || (cls == 4 && opcode == 0)

/-- The payload of a message the slice drives. -/
def payloadBytes (m : OMsg) : Bytes := (if wordFirst m.cls m.opcode then leBytes 8 m.op else []) ++ m.data

/-- The bytes of a message in whole beats of its port, padded with zeros (R269). -/
def messageBytes (p : Port) (m : OMsg) : Bytes :=
  slice (leBytes 8 (headerWord0 m) ++ leBytes 8 (headerWord1 m) ++ payloadBytes m) 0 (msgBytes p (omsgPayload m))

/-- Bytes cut into beats of `w`. -/
def beatsOf (w : Nat) (bs : Bytes) : List Bytes := (List.range (ceilDiv bs.length w)).map fun i => slice bs (w * i) w

/-- The bytes of a headland ring frame, each word least significant byte first (R467). -/
def frameBytes (f : Frame) : Bytes :=
  leBytes 4 (at_ (f.type % 256) 24 + at_ (f.payload.length % 256) 16 + f.seq % 65536) ++
    leBytes 4 (at_ (f.dst % 65536) 16 + f.src % 65536) ++ (f.payload.map fun w => leBytes 4 w).flatten

/-- The bytes of a MEM request: address, operation, tag, length, critical beat, class (spec/01 MEM), in that order from bit 0. DESIGN
CHOICE, notes/assumptions 35. -/
def memRequest (write : Bool) (tag addr beats crit qos : Nat) : Bytes :=
  leBytes 9 (at_ (qos % 16) 66 + at_ (crit % 4) 64 + at_ ((beats - 1) % 4) 62 + at_ (tag % 512) 53 + at_ (b2n write) 52 + addr % 2 ^ 52)

/-- The bytes of the fields beside the data of a BLK read-return beat: sowing group, destination, status, flag, tag and half (spec/01 BLK,
R275), in that order from bit 0. DESIGN CHOICE, notes/assumptions 35. -/
def blkFields (b : BlkBeat) : Bytes :=
  leBytes 5 (at_ (b.half % 2) 37 + at_ (b.tag % 256) 29 + at_ (b2n b.scheduled) 28 + at_ (b.status % 16) 24 + at_ (b.dst % 2 ^ 18) 6 + b.group % 64)

/-- The beats of something driven, each byte with its parity bit (R14, R15); flits and training frames carry a CRC in its place. -/
def wireBeats : Out → List (List Wired)
  | .msg p m => (beatsOf (if p = .hst then 64 else 16) (messageBytes p m)).map wired
  | .blk b => [wired (blkFields b ++ slice b.data 0 256)]
  | .memRd tag addr beats crit qos => [wired (memRequest false tag addr beats crit qos)]
  | .memWr tag addr data qos =>
    let k := memBeats addr data.length
    wired (memRequest true tag addr k 0 qos) :: (beatsOf 128 (slice (List.replicate (addr % 128) 0 ++ data) 0 (128 * k))).map wired
  | .syn word _ => [wired (leBytes 4 word)]
  | .hdr f => (beatsOf 4 (frameBytes f)).map wired
  | .tth _ | .flit _ _ | .credit _ _ | .train _ | .pattern _ _ | .test _ _ => []

/-- The request or other message that a received header and payload spell (R269, R270): its fields. -/
def readHeader (p : Port) (bs : Bytes) (parity : Parity) : Msg :=
  let w0 := leAt bs 0 8
  let w1 := leAt bs 8 8
  let cls := fld w0 2 0
  let opcode := fld w0 7 3
  let word := if wordFirst cls opcode then 8 else 0
  let size := fld w1 59 52
  let n := if cls = 3 ∧ opcode = 4 then (if fld (leAt bs 16 8) 4 0 = 0x0A then 2 else 1) * (size + 1) else size + 1
  let wmask := cls == 3 && opcode == 3
  { port := p, src := fld w0 25 8, dst := fld w0 43 26, tag := fld w0 51 44, qos := fld w0 57 54, mod := fld w0 53 52,
    addr := fld w1 51 0, size := size, status := fld w0 61 58,
    rsvd := fld w0 63 62 != 0 || fld w1 63 60 != 0 || (!(cls ≤ 1 : Bool) && fld w0 61 58 != 0),
    op := if word = 8 ∧ !wmask then leAt bs 16 8 else 0, mask := if wmask then leAt bs 16 8 else 0,
    data := (bs.drop (16 + word)).take n, parity := parity }

/-- The row that a message received on CTL or HST comes by (R269, R270); a message of reserved cls or opcode comes by a row of RD. None for
GO and DATA, which arrive as the rows of doorbells and descriptors. -/
def readMessage (p : Port) (bs : Bytes) (parity : Parity) : Option Instr :=
  let w0 := leAt bs 0 8
  let m := readHeader p bs parity
  let csr : Csr := { m := m }
  match fld w0 2 0, fld w0 7 3 with
  | 3, 0 => some (.rd m)
  | 3, 1 => some (.rdBlk m)
  | 3, 2 => some (.wr m)
  | 3, 3 => some (.wrMask m)
  | 3, 4 => some (.atomic m)
  | 3, 5 => some (.hostDrop m)
  | 3, 6 => some (.biConflict m)
  | 3, 8 => some (.fence m)
  | 1, 0 => some (.cmp m)
  | 1, 1 => some (.biRsp m)
  | 1, 4 | 0, 0 => none
  | 1, 5 => some (.hintAck m)
  | 2, 2 => some (.snpIn m)
  | 0, 1 => some (.snpWb m)
  | 4, 0 => some (.hintWr m)
  | 4, 1 => some (.ledgerDataRead csr)
  | 4, 2 => some (.csrWr csr)
  | 0, _ | 1, _ => some (.cmp { m with unlisted := 1 })
  | 2, _ => some (.snpIn { m with unlisted := 1 })
  | 3, _ => some (.rd { m with unlisted := 1 })
  | 4, _ => some (.hintWr { m with unlisted := 1 })
  | _, _ => some (.rd { m with unlisted := 2 })

/-- A message as its beats bring it: parity decides whether its header and its payload can be taken (R15, R450). -/
def readWire (p : Port) (ws : List Wired) : Option Instr :=
  readMessage p (ws.map (·.1))
    (if !parityGood (ws.take 16) then .header else if parityGood ws then .ok else .payload)

/-- A demand message on BLK as its beats bring it: the 24-byte header sideband, and the byte mask and data of each beat (R274, R450). -/
def readBlk (side : List Wired) (beats : List (List Wired × List Wired)) : Instr :=
  let bytes := fun (ws : List Wired) => ws.map (·.1)
  let mask := (beats.map fun b => bytes b.1).flatten
  let data := (beats.map fun b => bytes b.2).flatten
  let parity : Parity := if !parityGood side then .header
    else if beats.all fun b => parityGood b.1 && parityGood b.2 then .ok else .payload
  let m := { readHeader .blk (bytes side) parity with op := leAt (bytes side) 16 8, mask := leNat mask, data := data }
  if fld (leAt (bytes side) 0 8) 7 3 = 4 then .blkAtl m else .blkDemandWr m

/-- A scheduled write beat: the requester ID of its source, its byte mask and its data (R228, R450). -/
def readScheduled (side mask data : List Wired) : Instr :=
  .scheduledWriteBeat (leNat (side.map (·.1)) % 2 ^ 18) (leNat (mask.map (·.1))) (!parityGood (side ++ mask ++ data)) (data.map (·.1))

/-- A SYN word and the requester ID of its source (R26, R450). -/
def readSyn (src : Nat) (ws : List Wired) : Instr := .synWord (leNat (ws.map (·.1))) src (!parityGood ws)

/-- A MEM read-return beat: the bytes of its tag [8:0], beat index [10:9] and status [12:11], and its data (R22, R449). DESIGN CHOICE,
notes/assumptions 35. -/
def readMem (side data : List Wired) : Instr :=
  let v := leNat (side.map (·.1))
  .memReadReturn (fld v 8 0) (fld v 10 9) (fld v 12 11) (!parityGood (side ++ data)) (data.map (·.1))

/-! ## The lanes of the tether (R361, R364) -/

/-- The PAM4 level of a pair of bits, the earlier first. -/
def pam4 (b0 b1 : Bool) : Int :=
  match b0, b1 with
  | false, false => -3
  | false, true => -1
  | true, true => 1
  | true, false => 3

/-- The scrambler of a lane at link-up: the lane number in bits [2:0], ones elsewhere. -/
def scrSeed (lane : Nat) : Nat := 2 ^ 31 - 8 + lane % 8

/-- One step of x^31 + x^28 + 1: the bit it gives, and the state after it. DESIGN CHOICE, notes/assumptions 33. -/
def scrStep (st : Nat) : Bool × Nat :=
  let b := st.testBit 30 != st.testBit 27
  (b, (2 * st + b2n b) % 2 ^ 31)

/-- Bits scrambled, and the state after them. -/
def scramble : Nat → List Bool → List Bool × Nat
  | st, [] => ([], st)
  | st, b :: r =>
    let (k, st) := scrStep st
    let (r, st) := scramble st r
    ((b != k) :: r, st)

/-- The first `n` bits of the PRBS31 pattern of TEST on a lane, by the seed of R361 (R380). -/
def prbsBits (p : TestPattern) (lane n : Nat) : List Bool :=
  (scramble (scrSeed lane) (List.replicate n (p == .prbsOdd && lane % 2 == 1))).1

/-- The levels of bits, pair by pair. -/
def levels : List Bool → List Int
  | b0 :: b1 :: r => pam4 b0 b1 :: levels r
  | _ => []

/-- The bits of bytes, least significant first. -/
def bitsOf (bs : Bytes) : List Bool := (bs.map fun b => (List.range 8).map fun i => b.toNat.testBit i).flatten

/-- The active transmit lanes of a width code (R379, R387). -/
def activeLanes (width : Nat) : List Nat :=
  if width = 3 then List.range 8 else if width = 1 then [0, 1, 2, 3] else if width = 2 then [4, 5, 6, 7] else []

/-- The bytes that travel on the `j`-th of `w` active lanes (R364). -/
def laneBytes (w j : Nat) (bs : Bytes) : Bytes := (bs.zipIdx.filter fun x => x.2 % w == j).map (·.1)

/-- A flit on its lanes: the levels of each, and the scramblers after it (R361, R364). -/
def laneLevels (width : Nat) (scr : SMap Nat) (bs : Bytes) : List (List Int) × SMap Nat :=
  let ls := activeLanes width
  ls.zipIdx.foldl (fun (x : List (List Int) × SMap Nat) l =>
    let (bits, st) := scramble (SMap.get 0 x.2 l.1) (bitsOf (laneBytes ls.length l.2 bs))
    (x.1 ++ [levels bits], SMap.put 0 x.2 l.1 st)) ([], scr)

end Sys2Proof.Machine
end

