-- ==== Sys2Proof/Machine/TetherTx.lean ====
section
/-! DEFINITION. The transmit side of the Birhel tether: message credits, flits, the replay buffer (spec/09 R364 to R374). -/

namespace Sys2Proof.Machine

open Sys2Proof

/-- The virtual channel of a message kind (R373). -/
def ttVc (kind : Nat) : Nat :=
  if kind = 0x02 ∨ kind = 0x05 ∨ kind = 0x06 ∨ kind = 0x09 then 0
  else if kind = 0x03 ∨ kind = 0x04 then 2
  else if kind = 0x0A then 3
  else 1

/-- The channel a received message's credit goes back to (R373, R374). A reserved kind's is the one its header names. -/
def ttChannel (t : TMsg) : Nat := if 1 ≤ t.kind ∧ t.kind ≤ 0x0C then ttVc t.kind else t.vc

/-- The class of the line at an address: the one its tag holds, else its last's (R513, R514). -/
def lineClass (s : State) (addr : Nat) : Nat :=
  match findLine s (addr / 512) with
  | some k => if (lineAt s k).st = .invalid then aQos (lastAt s (lastOf s addr)).attr else (lineAt s k).qos
  | none => aQos (lastAt s (lastOf s addr)).attr

/-- The class a message is metered to (R516): of the line it concerns; what concerns none is the controller's (R513). DEDUCED,
notes/assumptions 10. -/
def ttClass (s : State) (t : TMsg) : Nat :=
  if t.kind = 0x02 then match s.pr.sync.find? fun e => e.1 == t.tag with
    | some e => lineClass s e.2.m.addr
    | none => csrFld s 0x3080 27 24
  else if t.kind = 0x01 ∨ t.kind = 0x03 ∨ 0x07 ≤ t.kind ∧ t.kind ≤ 0x0A then lineClass s t.addr
  else csrFld s 0x3080 27 24

/-- Chunks of a message, header included (R366, R372). -/
def ttChunks (t : TMsg) : Nat := 1 + ceilDiv t.data.length 16

/-- A message's bytes: the header of R372 and the payload, in whole chunks. -/
def ttEncode (t : TMsg) : Bytes :=
  let w0 := at_ (t.kind % 256) 56 + at_ (ttChunks t % 64) 50 + at_ (ttVc t.kind) 48 + at_ (t.mask % 256) 40 + at_ (t.ctx % 4096) 28 +
    at_ (t.tag % 4096) 16 + t.set % 8192
  leBytes 8 w0 ++ leBytes 8 (t.addr % 2 ^ 52) ++ slice t.data 0 (16 * (ttChunks t - 1))

/-- Receive credits a receiver grants at link-up (R374). -/
def ttGrant : SMap Nat := [(0, 32), (1, 32), (2, 16), (3, 64)]

/-- A flit's bytes (R364, R365). -/
def flitBytes (seq ack : Nat) (nak : Bool) (kind credit start : Nat) (chunks : Bytes) : Bytes :=
  let h := at_ (seq % 256) 56 + at_ (ack % 256) 48 + at_ (b2n nak) 47 + at_ (kind % 8) 44 + at_ (credit % 256) 36 + start % 2 ^ 15
  let b := leBytes 8 h ++ slice chunks 0 240 ++ leBytes 4 0
  b ++ leBytes 4 (crc32 b).toNat

/-- Credits a flit returns, up to 3 of each channel, two bits a channel (R364). -/
def creditField (owed : SMap Nat) : Nat := ((List.range 4).map fun c => at_ (min 3 (SMap.get 0 owed c)) (2 * c)).foldl (· + ·) 0

/-- A flit driven on the active lanes with the acknowledgement and the credits of this instant (R361, R364). -/
def flitSend (s : State) (kind seq : Nat) (nak : Bool) (start : Nat) (chunks : Bytes) : State :=
  let owed := s.tt.owed
  let left : SMap Nat := (List.range 4).foldl (fun m c => SMap.put 0 m c (SMap.get 0 owed c - 3)) owed
  let b := flitBytes seq (s.tt.rxSeq + 255) nak kind (creditField owed) start chunks
  let (ls, scr) := laneLevels s.tt.width s.tt.scr b
  drive { s with tt := { s.tt with owed := left, scr := scr } } (.flit b ls)

/-- A NULL flit: seq of the next DATA flit, the acknowledgement, credits (R364, R367). DESIGN CHOICE, notes/assumptions 10, 19. -/
def nullFlit (s : State) (nak : Bool) : State := ev (flitSend s 1 s.tt.txSeq nak 0 []) Ev.tthFlitNull

/-- A CTRL flit with a training frame in its first chunks (R364, R367, R381); its other fields are zero. DESIGN CHOICE, notes/assumptions 29. -/
def ctrlFlit (frame : Bytes) : Bytes := flitBytes 0 0 false 2 0 0 frame

/-- A DATA flit sent, or sent again (R369, R536). -/
def dataSend (s : State) (r : Replay) : State :=
  activity (ev (flitSend s 0 r.seq false r.start r.data) Ev.tthFlitData) r.qos r.ctx 6 1

/-- The first formed flit sent, where the replay buffer has room (R368). -/
def flitFirst (s : State) : Option State :=
  match s.tt.flits with
  | [] => none
  | p :: r =>
    if s.tt.replay.length < 8 then
      let e : Replay := { p with seq := s.tt.txSeq }
      let s := { s with tt := { s.tt with flits := r, txSeq := (s.tt.txSeq + 1) % 256, replay := s.tt.replay ++ [e] } }
      some (dataSend s e)
    else none

/-- The flits of the chunks of a message that a flit before them had no room for (R366). -/
def ttRest (t : TMsg) (qos ctx : Nat) (bs : Bytes) : List Replay :=
  (List.range (ceilDiv bs.length 240)).map fun i =>
    { data := slice bs (240 * i) (min 240 (bs.length - 240 * i)), pass := t.pass, qos := qos, ctx := ctx }

/-- A message placed after the last formed flit's chunks, and in flits of its own from there (R366). -/
def ttPlace (t : TMsg) (qos ctx : Nat) (fl : List Replay) : List Replay :=
  let p : Replay := (fl.getLast?).getD { qos := qos, ctx := ctx }
  let bs := ttEncode t
  let room := 240 - p.data.length
  let p : Replay := { p with start := p.start + 2 ^ (p.data.length / 16), data := p.data ++ bs.take room,
                             pass := if t.pass.isSome then t.pass else p.pass, begun := p.begun + b2n t.pass.isSome }
  fl.dropLast ++ [p] ++ ttRest t qos ctx (bs.drop room)

/-- A message may be placed: no flit is formed, or one that has room (R366). A full flit leaves before the next is begun. -/
def ttRoom : List Replay → Bool
  | [] => true
  | [p] => decide (p.data.length < 240)
  | _ => false

/-- The first queued message whose channel has a credit, none of its channel waiting before it (R374). -/
def ttNext (vc : SMap Nat) : List TMsg → List Nat → Option (TMsg × List TMsg)
  | [], _ => none
  | t :: r, blocked =>
    let c := ttVc t.kind
    if !blocked.contains c && decide (SMap.get 0 vc c ≠ 0) then some (t, r)
    else (ttNext vc r (c :: blocked)).map fun x => (x.1, t :: x.2)

/-- The next sendable message placed in flits, its credit taken (R366, R374). -/
def ttTake (s : State) (t : TMsg) (r : List TMsg) : State :=
  let c := ttVc t.kind
  let q := if t.pass.isSome then t.qos else ttClass s t
  let s := { s with tt := { s.tt with
    q := r, vc := SMap.put 0 s.tt.vc c (SMap.get 0 s.tt.vc c - 1), flits := ttPlace t q (coverCtx s t.addr) s.tt.flits } }
  meter (drive s (.tth t)) q 3 (16 * ttChunks t)

/-- While the link is UP: sendable messages placed in the flit being formed, then that flit sent (R366, R368, R374). A flit leaves
part filled only when no message can follow in it: which messages share a flit is a DESIGN CHOICE, notes/assumptions 10. -/
def ttPump : Nat → State → State
  | 0, s => s
  | k + 1, s =>
    if s.tt.link = 2 then
      match (if ttRoom s.tt.flits then ttNext s.tt.vc s.tt.q [] else none) with
      | some (t, r) => ttPump k (ttTake s t r)
      | none => match flitFirst s with
        | some s => ttPump k s
        | none => s
    else s

/-- Credits that no DATA flit has carried leave in NULL flits, up to three of a channel in each (R364, R367, R374). -/
def creditFlush : Nat → State → State
  | 0, s => s
  | k + 1, s =>
    if s.tt.link = 2 ∧ s.tt.owed ≠ [] then creditFlush k (nullFlit s false) else s

/-- What can leave on the tether leaves: a message takes up to four flits. -/
def ttFlush (s : State) : State := creditFlush 22 (ttPump (5 * s.tt.q.length + s.tt.flits.length) s)

/-- What waits to be sent is dropped as the link goes DOWN, TTH_OUT payloads counted (R383, R384). -/
def ttDrop (s : State) : State :=
  let lost := (s.tt.q.filter fun t => t.kind == 0x0A).length + (s.tt.flits.map (·.begun)).foldl (· + ·) 0
  let s := evN s Ev.tthOutNolink lost
  { s with tt := { s.tt with q := [], flits := [], replay := [], rxPart := [], owed := [] } }

/-- A message for the fellow (R373). -/
def ttSend (s : State) (t : TMsg) : State :=
  ttFlush { s with tt := { s.tt with q := s.tt.q ++ [t] } }

/-- Whether mirror traffic flows: the pair is PAIRED or in RESYNC (R383). -/
def paired (s : State) : Bool := s.pr.st == 1 || s.pr.st == 3

/-- A last whose writes wait for the fellow: PAIRED_SYNC, protected, PAIRED (R346, R352). -/
def syncLast (s : State) (l : Last) : Bool := aDur l.attr == 1 && paired s && !l.unprot

/-- The sectors a mask names, ascending (R330, R372). -/
def sectorData (d : LineData) (m : BitVec 8) : Bytes :=
  ((List.range 8).map fun k => if m.toNat.testBit k then lineBytes d (64 * k) 64 else []).flatten

end Sys2Proof.Machine
end

