-- ==== Sys2Proof/Machine/GenLog.lean ====
section
/-! DEFINITION. The delta log: records, their place in a log ring, and the mirror copies of PAIRED_LAG lasts (spec/08 R326 to
R332, R348). -/

namespace Sys2Proof.Machine

open Sys2Proof

def logGet (s : State) (n : Nat) : LogRing := SMap.get {} s.gen.rings n
def logPut (s : State) (n : Nat) (r : LogRing) : State := { s with gen := { s.gen with rings := SMap.put {} s.gen.rings n r } }

/-- The 32-byte units of a log ring (R328). -/
def logUnits (s : State) (n : Nat) : Nat := 2 ^ (clampLog 0x0C 0x1E (csrFld s (0x808 + 16 * n) 36 32) - 5)

/-- The ring's address, bits below its size zero (R328). -/
def logBase (s : State) (n : Nat) : Nat := csrGet s (0x800 + 16 * n) / (32 * logUnits s n) * (32 * logUnits s n)

/-- Units free before the tail, one of them kept (R329). -/
def logRoom (s : State) (n : Nat) : Nat :=
  let r := logGet s n
  logUnits s n - ((r.head + logUnits s n - r.tail) % logUnits s n) - 1

/-- A record's header and payload with its crc (R330). -/
def deltaRecord (ctx last : Nat) (image early : Bool) (mask : BitVec 8) (kind line seq gen : Nat) (data : Bytes) : Bytes :=
  let w0 := at_ ctx 28 + at_ last 18 + at_ (b2n image) 17 + at_ (b2n early) 16 + at_ mask.toNat 8 + kind
  let h := leBytes 8 w0 ++ leBytes 8 line ++ leBytes 8 seq ++ leBytes 4 gen
  h ++ leBytes 4 (crc32c (h ++ [0, 0, 0, 0] ++ data)).toNat ++ data

/-- Bytes written to memory in pieces of one line each (R327). -/
def memBytes (w : MemWr) (qos : Nat) : Nat → State → Nat → Bytes → State
  | 0, s, _, _ => s
  | k + 1, s, addr, bs =>
    if bs = [] then s else
    let n := min bs.length (512 - addr % 512)
    memBytes w qos k (memWrite s { w with addr := addr } (bs.take n) qos) (addr + n) (bs.drop n)

/-- A record placed at the head of a ring, which has room for it. -/
def logPlace (s : State) (n ctx gen : Nat) (bs : Bytes) (units : Nat) : State :=
  let r := logGet s n
  let s := memBytes { for_ := .log ctx gen } 0 4 s (logBase s n + 32 * r.head) bs
  ev (logPut s n { r with head := (r.head + units) % logUnits s n, seq := r.seq + 1, full := false }) Ev.logRecord

/-- The ring is full: one event record as it becomes so (R329). -/
def logFull (s : State) (n : Nat) : State :=
  let r := logGet s n
  if r.full then s
  else ev (postEvent (logPut s n { r with full := true }) 3 St.logFull 0 n r.head) Ev.logFull

/-- A record written to a context's log ring, a PAD before it where it would straddle the end (R330); the second part says
whether it was written, or discarded by R326. -/
def logWrite (s : State) (n ctx last : Nat) (image early : Bool) (mask : BitVec 8) (kind line gen : Nat) (data : Bytes) :
    State × Bool :=
  let units := 1 + data.length / 32
  let r := logGet s n
  let left := logUnits s n - r.head
  if units ≤ left then
    if units ≤ logRoom s n then
      (logPlace s n ctx gen (deltaRecord ctx last image early mask kind line r.seq gen data) units, true)
    else (logFull s n, false)
  else if left ≤ logRoom s n then
    let s := logPlace s n ctx gen (deltaRecord ctx 0 false false 0 6 (32 * left) r.seq gen []) left
    let r := logGet s n
    if units ≤ logRoom s n then
      (logPlace s n ctx gen (deltaRecord ctx last image early mask kind line r.seq gen data) units, true)
    else (logFull s n, false)
  else (logFull s n, false)

/-- The drain of a context's generation (R320). -/
def drainOf (s : State) (ctx : Nat) (gen : BitVec 32) : Option Drain :=
  s.gen.drains.find? fun d => d.ctx == ctx && d.gen == gen

def drainSet (s : State) (d : Drain) : State :=
  { s with gen := { s.gen with drains := s.gen.drains.map fun x => if x.ctx = d.ctx ∧ x.gen = d.gen then d else x } }

/-- Whether records of a context are discarded: log_en 0, or its ring not enabled (R326). -/
def logDiscards (s : State) (ctx : Nat) : Bool :=
  let c := ctxGet s ctx
  !c.logEn || !csrBit s (0x808 + 16 * c.ring) 63

/-- A record of a generation discarded, ev.log_discard once for the generation (R326). -/
def discardRecord (s : State) (ctx : Nat) (gen : BitVec 32) : State :=
  if s.gen.lost.contains (ctx, gen) then s
  else ev { s with gen := { s.gen with lost := s.gen.lost ++ [(ctx, gen)] } } Ev.logDiscard

/-- A record of a context and generation: written, discarded by R326, or refused for want of room; a PAIRED_LAG last's record
of a drain also goes to the fellow, widened to a header and 512 bytes, zeros for a FALLOW line (R348, R373). -/
def logRecord (s : State) (ctx : Nat) (gen : BitVec 32) (last : Nat) (image early : Bool) (mask : BitVec 8)
    (kind line : Nat) (d : LineData) : State × Bool :=
  let mask := if kind = 1 then mask else 0
  let data := if kind = 1 then sectorData d mask else []
  let (s, ok) :=
    if logDiscards s ctx then (discardRecord s ctx gen, true)
    else logWrite s (ctxGet s ctx).ring ctx last image early mask kind line gen.toNat data
  if ok && !image && (kind == 1 || kind == 2) && aDur (lastAt s last).attr == 2 && paired s then
    let wide := deltaRecord ctx last false early (if kind = 1 then 0xFF else 0) kind line 0 gen.toNat
      (lineBytes (if kind = 1 then d else 0) 0 512)
    (ttSend s { kind := 0x03, mask := if kind = 1 then 0xFF else 0, ctx := ctx, set := homeSet s (line / 512), addr := line,
                data := wide }, true)
  else (s, ok)

/-- The generation a line's gen_tag names: the open one, or a sealed one whose drain has not completed (R318, R323). -/
def genOfTag (s : State) (ctx tag : Nat) : BitVec 32 :=
  let c := ctxGet s ctx
  if c.gen.toNat % 4 = tag then c.gen
  else match s.gen.drains.find? fun d => d.ctx == ctx && d.gen.toNat % 4 == tag with
    | some d => d.gen
    | none => c.gen

/-- Whether a line is pending: tracked, dirty_mask not zero, gen_tag of a sealed generation (R320). -/
def isPending (s : State) (l : Line) : Bool :=
  let a := (lastAt s l.last).attr
  tracked s a && l.dirtyMask != 0 && (ctxGet s (aCtx a)).gen.toNat % 4 != l.genTag

/-- Whether a record of a context must let another go first: one of the same ring is in a log buffer, or, for a record of the walk, its
SEAL has not been written (R331). -/
def logHeld (s : State) (ctx : Nat) (g : BitVec 32) (early : Bool) : Bool :=
  !logDiscards s ctx &&
    (s.gen.bufs.any (fun b => (ctxGet s b.ctx).ring == (ctxGet s ctx).ring) ||
      (!early && ((drainOf s ctx g).map (fun d => !d.sealed)).getD false))

/-- A record kept in one of the 32 log buffers until its ring has room (R320, R321); false where none is free. DEDUCED, notes/assumptions 26. -/
def logKeep (s : State) (b : LogBuf) : State × Bool :=
  if s.gen.bufs.length < 32 then ({ s with gen := { s.gen with bufs := s.gen.bufs ++ [b] } }, true) else (s, false)

/-- A log buffer holds a record of a generation. -/
def bufHolds (s : State) (ctx : Nat) (gen : BitVec 32) : Bool := s.gen.bufs.any fun b => b.ctx == ctx && b.gen == gen

/-- A line's record written in the generation its gen_tag names, its dirty_mask cleared (R316, R320, R321, R323); `data` is the
copy the record carries, `early` the mark of R330, `keep` lets it stand in a log buffer. The second part is false where it must wait. -/
def logLine (s : State) (k : Nat) (l : Line) (data : LineData) (early keep : Bool) : State × Bool :=
  let a := (lastAt s l.last).attr
  let ctx := aCtx a
  let g := genOfTag s ctx l.genTag
  let kind := if l.st = .fallow then 2 else 1
  -- an earlier record of the line that waits in an eviction buffer goes first (R331, R339)
  let behind := s.arr.evicts.any fun e => e.line == l.addr && e.waitLog
  let (s, ok) := if behind || logHeld s ctx g early then (s, false)
    else logRecord s ctx g l.last false early l.dirtyMask kind (l.addr * 512) data
  let (s, ok) :=
    if !ok && keep && !behind then
      logKeep s { ctx := ctx, gen := g, last := l.last, early := early, mask := l.dirtyMask, kind := kind, addr := l.addr * 512, data := data }
    else (s, ok)
  if ok then
    let s := linePut s k { l with dirtyMask := 0 }
    let s := match drainOf s ctx g with
      | some d => drainSet s { d with records := d.records + 1, todo := d.todo.filter (· != k) }
      | none => { s with gen := { s.gen with early := SMap.put 0 s.gen.early ctx (SMap.get 0 s.gen.early ctx + 1) } }
    let s := if aDur a = 2 ∧ l.locked then
        { s with pr := { s.pr with lagged := s.pr.lagged ++ [(ctx, g.toNat, k)] } } else s
    (s, true)
  else (s, false)

/-- A pending line carried into the open generation (R322, R445): no record, every sector kept. -/
def carryLine (s : State) (k : Nat) (l : Line) : State :=
  let ctx := aCtx (lastAt s l.last).attr
  let g := genOfTag s ctx l.genTag
  let s := linePut s k { l with genTag := (ctxGet s ctx).gen.toNat % 4 }
  ev (match drainOf s ctx g with
    | some d => drainSet s { d with carried := d.carried + 1, todo := d.todo.filter (· != k) }
    | none => s) 0x41

/-- A line whose gen_tag is rebuilt (R445): the open generation's, and where it has sectors to be logged it is carried out of every sealed
generation of its context whose drain has not completed (R322). -/
def carryAll (s : State) (k : Nat) : State :=
  let l := lineAt s k
  let a := (lastAt s l.last).attr
  let ctx := aCtx a
  if !tracked s a then s
  else
    let s := linePut s k { l with genTag := (ctxGet s ctx).gen.toNat % 4 }
    if l.dirtyMask = 0 then s
    else
      let mine := fun (d : Drain) => d.ctx == ctx
      let ds : List Drain := s.gen.drains.map fun d =>
        if mine d then { d with carried := d.carried + 1, todo := d.todo.filter (· != k) } else d
      evN { s with gen := { s.gen with drains := ds } } 0x41 (s.gen.drains.filter mine).length

/-- The tag effects of a write on a line (R315, R316, R350): dirty_mask, gen_tag, the lock of a PAIRED_LAG line. -/
def markWrite (s : State) (l : Line) (sectors : BitVec 8) : Line :=
  let a := (lastAt s l.last).attr
  let l := { l with dirtyMask := l.dirtyMask ||| sectors }
  let l := if tracked s a then { l with genTag := (ctxGet s (aCtx a)).gen.toNat % 4 } else l
  if aDur a = 2 then { l with locked := true } else l

/-- Locks of lines logged in generations of a context up to one are cleared (R350, R352). -/
def clearLags (s : State) (ctx gen : Nat) : State :=
  let hit := s.pr.lagged.filter fun e => e.1 == ctx && decide (e.2.1 ≤ gen)
  let rest := s.pr.lagged.filter fun e => !(e.1 == ctx && decide (e.2.1 ≤ gen))
  hit.foldl (fun s e =>
    let l := lineAt s e.2.2
    if l.dirtyMask = 0 ∧ !(rest.any fun r => r.2.2 == e.2.2) then linePut s e.2.2 { l with locked := false } else s)
    { s with pr := { s.pr with lagged := rest } }

end Sys2Proof.Machine
end

