-- ==== Sys2Proof/Machine/PlanRec.lean ====
section
/-! DEFINITION. Pass records and how the plan sequencer stops (spec/05 R203, R226, R233 to R238). -/

namespace Sys2Proof.Machine

open Sys2Proof

/-! ## The header of a bank (R204) -/

def planBank (s : State) (b : Nat) : PlanBank := s.pl.banks.getD b {}
def planHdr (s : State) : Bytes := (planBank s s.pl.active).header
def hdrRecMode (h : Bytes) : Nat := fld (leAt h 28 1) 1 0
def hdrRecShift (h : Bytes) : Nat := fld (leAt h 28 1) 6 2
def hdrGap (h : Bytes) : Nat := leAt h 12 4 % 2 ^ 24
def hdrStartMode (h : Bytes) : Nat := fld (leAt h 20 1) 1 0
def hdrBarrier (h : Bytes) : Nat := fld (leAt h 20 1) 7 2
def hdrSlipLimit (h : Bytes) : Nat := leAt h 21 1
def hdrGenReset (h : Bytes) : Bool := (leAt h 6 2).testBit 0
def hdrDigestPerPass (h : Bytes) : Bool := (leAt h 6 2).testBit 1

/-- The slot entries of a bank as numbers (R206). -/
def slotWords : Nat → Bytes → List Nat
  | 0, _ => []
  | n + 1, bs => leNat (bs.take 16) :: slotWords n (bs.drop 16)

/-- The slot entries of the active bank. -/
def planSlots (s : State) : List Nat :=
  let b := planBank s s.pl.active
  slotWords (b.slots.length / 16) b.slots

def slotOp (w : Nat) : Nat := fld w 127 124
def slotXform (w : Nat) : Nat := fld w 123 122
def slotGen (w : Nat) : Nat := fld w 121 116
def slotRepeat (w : Nat) : Nat := fld w 115 106
def slotQos (w : Nat) : Nat := fld w 105 102
def slotPeer (w : Nat) : Nat := fld w 17 0

/-- The length L of a pass of slot entries (R199). -/
def passLength (ws : List Nat) : Nat := (ws.map fun w => slotRepeat w + 1).foldl (· + ·) 0

/-! ## Pass records (R233) -/

/-- The bytes of a pass record; every count saturates. -/
def passBytes (r : PassRec) : Bytes :=
  leBytes 8 (at_ (b2n r.lockLost) 63 + at_ (r.bank % 2) 62 + at_ (b2n r.slipOver) 61 + at_ (b2n r.aborted) 60 +
    at_ (b2n r.last) 59 + r.number % 2 ^ 48) ++
  leBytes 4 (min r.misses (2 ^ 32 - 1)) ++ leBytes 4 (min r.errors (2 ^ 32 - 1)) ++ leBytes 4 (min r.slip (2 ^ 32 - 1)) ++
  leBytes 2 (min r.nodata 0xFFFF) ++ leBytes 2 (min r.drops 0xFFFF) ++ leBytes 8 r.startTs

/-- A record written to the next entry of the buffer. -/
def writePass (s : State) (r : PassRec) : State :=
  let h := planHdr s
  let n := max 1 (leAt h 40 4 % 2 ^ 20)
  let k := s.pl.written
  hstWrite { s with pl := { s.pl with written := k + 1 } } (leAt h 32 8 % 2 ^ 52 + 32 * (k % n)) (passBytes r) 0

/-- A summary of two summaries, the second the later. -/
def passJoin (a b : PassRec) : PassRec :=
  { b with
    misses := a.misses + b.misses
    errors := a.errors + b.errors
    nodata := a.nodata + b.nodata
    drops := a.drops + b.drops
    slip := max a.slip b.slip
    startTs := a.startTs
    lockLost := a.lockLost || b.lockLost
    slipOver := a.slipOver || b.slipOver
    aborted := a.aborted || b.aborted
    last := a.last || b.last }

/-- The record of a pass that has ended, as rec_mode selects; `hand` says that its records pass to another header. -/
def passRecord (s : State) (r : PassRec) (hand : Bool) : State :=
  match hdrRecMode (planHdr s) with
  | 0 => s
  | 1 => writePass s r
  | 2 =>
    if r.misses + r.errors + r.nodata + r.drops + r.slip ≠ 0 ∨ r.lockLost ∨ r.slipOver ∨ r.aborted ∨ r.last then writePass s r
    else s
  | _ =>
    let (g, n) := match s.pl.sum with
      | some (g, n) => (passJoin g r, n + 1)
      | none => (r, 1)
    if n ≥ 2 ^ hdrRecShift (planHdr s) ∨ r.last ∨ hand then writePass { s with pl := { s.pl with sum := none } } g
    else { s with pl := { s.pl with sum := some (g, n) } }

/-- The end of a pass (R203, R226, R234): its record, its digests, and the write beats of its span gone. -/
def passClose (s : State) (aborted last hand : Bool) : State :=
  let p := s.pl
  let (k, s) := drawFree s
  let len := passLength (planSlots s)
  let r := { p.acc with
    slip := if p.lockGone then Config.freeNat k else p.endFc - p.nominal - p.off
    lockLost := p.lockGone
    slipOver := decide (hdrSlipLimit (planHdr s) ≠ 0 ∧ p.holds > hdrSlipLimit (planHdr s))
    aborted := aborted
    last := last }
  passRecord { s with pl := { s.pl with digOut := p.dig, wbuf := p.wbuf.filter fun b => decide (p.nominal + len ≤ b.stamp) } } r hand

/-! ## Stops (R236 to R238, R436) -/

/-- A switch that does not take effect: its PLAN.RUN ends with ST_PLAN_BUSY (R237). -/
def switchDrop (s : State) : State :=
  match s.pl.switchCmd with
  | some (n, _) => cmdEnd { s with pl := { s.pl with switchCmd := none } } n St.planBusy 0 0
  | none => s

/-- The sequencer enters IDLE with a stop_reason (R236, R238): an open summary is written, the event posted, and the commands that
wait for IDLE end. -/
def planIdle (s : State) (reason : Nat) : State :=
  let s := match s.pl.sum with
    | some (g, _) => writePass { s with pl := { s.pl with sum := none } } { g with last := true }
    | none => s
  let s := switchDrop s
  let cs := s.pl.stopCmds
  let s := { s with pl := { s.pl with
    st := 0, stopReason := reason, stopAt := 0, openNow := true, openSpent := 0, charged := 0, holding := false, token := none,
    lockGone := false, wbuf := [], resv := [], stopCmds := [] } }
  let s := postEvent s 2 St.planStopped 0 (s.pl.pass % 2 ^ 48) reason
  cs.foldl (fun s n => cmdEnd s n St.ok (s.pl.pass % 2 ^ 48) 0) s

/-- A stop that ends a running pass at the next instance boundary, or the plan at once (R237): an expert PLAN.STOP, FLOW_STOP_N,
WRST_N or a fence. DEDUCED, notes/assumptions 8. -/
def planAbort (s : State) (reason : Nat) : State :=
  if s.pl.st = 2 then
    switchDrop { s with pl := { s.pl with st := 4, stopAt := reason, openNow := true, openSpent := 0, holding := false } }
  else if s.pl.st = 1 then planIdle s reason
  else if s.pl.st = 3 then { s with pl := { s.pl with stopAt := reason } }
  else s

/-- A basic stop (R236, R237): at the pass end, or as R237 says in the other states. -/
def planStop (s : State) : State :=
  if s.pl.st = 2 then { s with pl := { s.pl with stopAt := 2 } }
  else if s.pl.st = 4 then s
  else planAbort s 2

end Sys2Proof.Machine
end

