-- ==== Sys2Proof/Machine/Check.lean ====
section
/-! DEFINITION. Checks and what a failure starts: the flip-mask, tag faults, the fence, FAILED lasts and the repairs of R356
(spec/12 R443 to R452, R461 to R465, R472, R473; spec/08 R354 to R357). -/

namespace Sys2Proof.Machine

open Sys2Proof

/-! ## The flip-mask (R461 to R463) -/

def flipTarget (s : State) : Nat := csrFld s 0x0C10 60 58
def flipBit (s : State) : Nat := csrFld s 0x0C10 40 32
def flipSector (s : State) : Nat := csrFld s 0x0C10 43 41

/-- Whether the armed mask matches a write to a line of a bank (R461, R462). DEDUCED, notes/assumptions 28. -/
def flipMatch (s : State) (bank line : Nat) : Bool :=
  let v := csrGet s 0x0C10
  let a := csrGet s 0x0C18
  v.testBit 63 && !s.hd.fenced && !s.pw.flowStop && (!v.testBit 57 || fld v 56 53 == bank) &&
    (!a.testBit 63 || fld a 51 9 == line)

/-- The mask has fired: fired set, arm cleared unless repeat. -/
def flipFired (s : State) : State :=
  let v := csrGet s 0x0C10
  csrPut s 0x0C10 ((if v.testBit 62 then v else setFld v 63 63 0) ||| 2 ^ 61)

/-- A line as the flip-mask leaves it after a write of the bytes `m`, of its CRC, of its address or of its state. -/
def flipLine (s : State) (l : Line) (m : LineMask) (crcW tagW stW : Bool) : Option Line :=
  let t := flipTarget s
  let b := flipBit s
  let sec := flipSector s
  let byte0 := 64 * sec + b / 8
  if t = 0 ∧ b ≤ 511 ∧ m.toNat.testBit byte0 then
    some { l with data := l.data ^^^ BitVec.ofNat 4096 (2 ^ (512 * sec + b)),
                  badPar := l.badPar ^^^ BitVec.ofNat 512 (2 ^ byte0), injected := l.injected ||| 1 }
  else if t = 1 ∧ b ≤ 63 ∧ m.toNat.testBit (64 * sec + b) then
    some { l with badPar := l.badPar ^^^ BitVec.ofNat 512 (2 ^ (64 * sec + b)), injected := l.injected ||| 1 }
  else if t = 2 ∧ b ≤ 31 ∧ crcW then
    some { l with crc := l.crc ^^^ BitVec.ofNat 32 (2 ^ b), crcBad := true, injected := l.injected ||| 16 }
  else if t = 3 ∧ b ≤ 42 ∧ tagW then some { l with tagBad := l.tagBad ||| 1, injected := l.injected ||| 4 }
  else if t = 4 ∧ b ≤ 42 ∧ tagW then some { l with tagBad := l.tagBad ||| 2, injected := l.injected ||| 4 }
  else if t = 5 ∧ b ≤ 1 ∧ stW then some { l with tagBad := l.tagBad ||| 4, injected := l.injected ||| 8 }
  else none

/-- A line-CRC line (R78, R443). -/
def crcLine (s : State) (l : Line) : Bool := aCrc (lastAt s l.last).attr

/-- The units of a line that hold a fault (R465): a unit that holds none any more has been written, and loses the mark of the flip-mask
(R463). -/
def faultUnits (l : Line) : BitVec 5 :=
  (if l.badPar = 0 then 0 else 1) ||| (if l.tagBad &&& 3 = 0 then 0 else 4) ||| (if l.tagBad &&& 0xFFC = 0 then 0 else 8) |||
    (if l.crcBad then 16 else 0)
def remark (l : Line) : Line := { l with injected := l.injected &&& faultUnits l }

/-- A line put in its slot after a write of the bytes `m`, of its whole tag where `tagW` says so, of its state where it is another; the
flip-mask sees the write (R462). -/
def storeLine (s : State) (k : Nat) (l : Line) (m : LineMask) (tagW : Bool) : State :=
  let was := lineAt s k
  let stW := was.st != l.st
  let addr := if l.st = .invalid ∧ !l.filling then was.addr else l.addr
  let l := remark { l with tagBad := if tagW then 0 else if stW then l.tagBad &&& 0xFF3 else l.tagBad }
  if flipMatch s (slotBank k) addr then
    match flipLine s l m (crcLine s l && (m != 0 || (was.crcBad && !l.crcBad))) tagW stW with
    | some l' => flipFired (linePut s k { l' with addr := addr })
    | none => linePut s k l
  else linePut s k l

/-- A slot made INVALID: a write of its state, which the flip-mask sees (R462). -/
def lineDrop (s : State) (k : Nat) : State := storeLine s k {} 0 false

/-! ## FAILED lasts (R447, R448) -/

/-- The generation an ST_LAST_FAILED record names (R448). -/
def failGen (s : State) (a : Nat) : Nat :=
  if tracked s a then match (ctxGet s (aCtx a)).lastEnd with
    | some g => g.toNat
    | none => 0xFFFFFFFF
  else 0xFFFFFFFF

/-- Host lines of a last that the snoop filter tracks. -/
def trackedIn (s : State) (i : Nat) : List Nat :=
  (s.coh.sf.filter fun e => e.2.st != 0 && lastOf s (e.2.tag * 64) == i).map fun e => e.2.tag

/-- A last becomes FAILED at this instant (R447); its snoops are issued as tracker entries free (R449 of the record is the
caller's). DEDUCED, notes/assumptions 28. -/
def lastFail (s : State) (i : Nat) (e : Err) : State :=
  let l := lastAt s i
  let pinned := aKind l.attr = 2
  let mhes : List Mhe := s.arr.mhes.map fun m => if m.last = i then { m with wdata := 0, wmask := 0, marks := 0, upset := false } else m
  let host := trackedIn s i
  let out := fun (k : Nat) => lastOf s ((SMap.get {} s.arr.lines k).addr * 512) != i
  let ks := (s.arr.lines.filter fun x => x.2.st != .invalid && lastOf s (x.2.addr * 512) == i).map (·.1)
  let evicts := s.arr.evicts.filter fun x => !(x.last == i && x.tag.isNone)
  let opens := s.arr.opens.filter fun o => lastOfLine s o.line != i
  let pending := s.gen.pendingRc.filter fun x => lastOfLine s x != i
  let drains : List Drain := s.gen.drains.map fun d => { d with todo := d.todo.filter out }
  let s := ks.foldl (fun s k =>
    if pinned then
      storeLine s k { lineAt s k with st := .fallow, data := 0, badPar := 0, crcBad := false, dirtyMask := 0, locked := false, hold := false,
                                      note := none, crc := lineCrc 0 } (BitVec.allOnes 512) false
    else lineDrop s k) s
  let s := { s with
    arr := { s.arr with
      lasts := SMap.put {} s.arr.lasts i { SMap.get {} s.arr.lasts i with cond := 2 }
      merges := s.arr.merges.filter fun m => m.last != i
      mhes := mhes
      evicts := evicts
      opens := opens }
    coh := { s.coh with failing := s.coh.failing ++ host }
    gen := { s.gen with pendingRc := pending
                        bufs := s.gen.bufs.filter fun b => b.last != i
                        drains := drains } }
  postError s St.lastFailed { e with action := 5, detail := failGen s l.attr }

/-! ## The pair goes SOLO (R352, R383) -/

/-- Writes that waited for the fellow are treated as acknowledged (R383): they stand before the others of their lines. -/
def syncRelease (s : State) : State :=
  let ws : List Op := s.pr.sync.map fun e => { e.2 with synced := true }
  { s with arr := { s.arr with waiting := ws ++ s.arr.waiting }, pr := { s.pr with sync := [] } }

/-- The pair goes SOLO: acknowledgements the fellow will not send are given up (R352, R356, R383). DEDUCED, notes/assumptions 29. -/
def goSolo (s : State) : State :=
  let s := if s.pr.st = 1 ∨ s.pr.st = 3 then postEvent { s with pr := { s.pr with st := 2 } } 1 St.pairDegraded 0 0x3FF 2 else s
  let ds : List Drain := s.gen.drains.map fun d => { d with lag := false }
  let s : State := { s with gen := { s.gen with drains := ds } }
  let s := s.pr.lagged.foldl (fun s e =>
    if s.gen.drains.any fun d => d.ctx == e.1 && d.gen.toNat == e.2.1 then s else clearLags s e.1 e.2.1) s
  let ended := fun (ctx gen : Nat) => s.pr.ends.any fun e => e.1 == ctx && decide (gen ≤ e.2.1)
  let failed := (s.pr.repairs.map fun r => (r.last, r.err))
  let s := { s with pr := { s.pr with
    stage := s.pr.stage.filter fun e => ended e.1 e.2.1
    resyncOut := [], resyncCtx := [], repairs := [] } }
  let s := failed.foldl (fun s f => if (lastAt s f.1).cond = 2 then s else lastFail s f.1 f.2) s
  syncRelease s

/-! ## The fence -/

/-- One hold charged to the pass in progress (R223). -/
def chargeHold (s : State) : State :=
  if s.pl.st = 2 then ev { s with pl := { s.pl with charged := s.pl.charged + 1, holds := s.pl.holds + 1 } } Ev.planHold else s

/-- A stage drop (R219), recorded in the pass in progress. -/
def stageDrop (s : State) : State :=
  let s := ev s Ev.stageDrop
  if s.pl.st = 2 then { s with pl := { s.pl with acc := { s.pl.acc with drops := s.pl.acc.drops + 1 } } } else s

/-- The slice is fenced (R472, R473): the first cause stays; in cold reset nothing fences it (R548). Its link goes DOWN and its pair SOLO
(R383), and its fence walk counts by the pair as it stood (R474). -/
def fence (s : State) (reason : Nat) : State :=
  if s.hd.fenced || !s.pw.rstN then s else
  let held := paired s
  let s := if s.tt.link = 0 then s else goSolo (ttDrop s)
  let s := { s with
    hd := { s.hd with fenced := true, reason := reason, wasPaired := held, mode := if s.hd.mode = 2 then 2 else 1 }
    pw := { s.pw with pstate := 6, ready := false }
    tt := { s.tt with link := if s.tt.link = 0 then 0 else 4 }
    rg := { s.rg with
      doneN := s.rg.doneN + s.rg.cmds.length
      cmds := s.rg.cmds.zipIdx.map fun x =>
        if x.1.done then x.1
        else { x.1 with done := true, status := St.fenced, word2 := 0, aux := 0, doneN := s.rg.doneN + x.2 } } }
  let s := planAbort s 6
  postError s St.fenced
    { unit := 14, action := 9, detail := reason,
      detector := if reason = 3 then 11 else if reason = 4 then 12 else if reason = 6 then 9 else 10 }

/-- A last the fellow no longer holds as the slice does (R347, R352). -/
def unprotect (s : State) (i : Nat) : State :=
  let l := SMap.get {} s.arr.lasts i
  if l.cond = 0 ∨ l.unprot then s
  else postEvent (lastPut s i { l with unprot := true }) 1 St.pairDegraded 0 i s.pr.st

/-! ## Line checks -/

/-- The failing sectors an access to the bytes `m` finds (R446): those of bad parity, or all when only the line CRC of a
full-line read fails. -/
def lineFault (s : State) (l : Line) (m : LineMask) (full : Bool) : BitVec 8 :=
  let p := sectorsOf (l.badPar &&& m)
  if p != 0 then sectorsOf l.badPar
  else if full && crcLine s l && l.badPar == 0 && lineCrc l.data != l.crc then 0xFF
  else 0

/-- Bytes written in a line's data: parity of the written bytes good again, line_crc carried by R125. -/
def writeData (crc : Bool) (l : Line) (d : LineData) (m : LineMask) : Line :=
  let data := mergeBytes l.data d m
  { l with data := data, badPar := l.badPar &&& ~~~m,
           crc := if !crc then l.crc else if m = BitVec.allOnes 512 then lineCrc data else l.crc ^^^ lineCrc l.data ^^^ lineCrc data,
           crcBad := if m = BitVec.allOnes 512 then false else l.crcBad }

/-- The place in its row of the first failing byte of a line in a slot (R481, R483). -/
def rowByte (k : Nat) (bad : LineMask) : Nat := 512 * fld (slotSet k) 5 4 + ((List.range 512).find? bad.getLsbD).getD 0

/-- The record of a failure on a line (R465). -/
def lineErr (s : State) (k : Nat) (l : Line) (unit sectors action detector : Nat) : Err :=
  let a := (lastAt s l.last).attr
  { unit := unit, sectors := sectors, addr := l.addr * 512, last := l.last, ctx := aCtx a, action := action,
    history := if l.injected.getLsbD unit then 3 else 0, detector := detector, detail := at_ (slotBank k) 28 + at_ (slotWay k) 24
    loc := rowLoc (slotBank k) (slotWay k) (fld (slotSet k) 12 6), byte := rowByte k l.badPar, stuck := l.stuck, ts := some (tsNs s) }

/-! ## Mirror lines that fail (R356) -/

/-- Whether a mirror line's stored bytes pass their checks. -/
def mirrorGood (l : Line) : Bool := l.badPar == 0 && lineCrc l.data == l.crc

/-- The record of a mirror line that fails its check (R464, R465). -/
def mirrorErr (k : Nat) (x : Line) (last ctx action detector : Nat) : Err :=
  { unit := if x.badPar = 0 then 1 else 0, sectors := if x.badPar = 0 then 0xFF else (sectorsOf x.badPar).toNat, addr := x.addr * 512,
    last := last, ctx := ctx, action := action, history := if x.injected.getLsbD 0 then 3 else 0, detector := detector,
    detail := at_ (slotBank k) 28 + at_ (slotWay k) 24, loc := rowLoc (slotBank k) (slotWay k) (fld (slotSet k) 12 6)
    byte := rowByte k x.badPar, stuck := x.stuck }

/-- A mirror line that fails its check is dropped and recorded: the owner sends it again (R356). DESIGN CHOICE, notes/assumptions 28. -/
def mirrorDrop (s : State) (k : Nat) (x : Line) (detector : Nat) : State :=
  postError { s with pr := { s.pr with mirrors := SMap.put {} s.pr.mirrors k {} } } St.lineRepaired (mirrorErr k x 0x3FF 0 1 detector)

/-! ## Tag faults (R445) -/

/-- A tag field outside line_addr and state rebuilt from state held elsewhere (R445): 4 last_idx, 5 qos_class, 6 dirty_mask, 7 gen_tag,
8 locked, 9 reduce_hold, 10 filling, 11 age. The dirty_mask of a CLEAN or FALLOW line of a tracked last is set too, so that none of its
sectors goes unlogged (DEDUCED, notes/assumptions 28). -/
def tagRebuilt (s : State) (k f : Nat) : State :=
  let l := lineAt s k
  let a := (lastAt s l.last).attr
  match f with
  | 4 => linePut s k { l with last := lastOfLine s l.addr }
  | 5 => linePut s k { l with qos := aQos a }
  | 6 => linePut s k { l with dirtyMask := if l.st = .dirty ∨ (l.st ≠ .invalid ∧ aTrack a) then 0xFF else 0 }
  | 7 => carryAll s k
  | 8 => linePut s k { l with locked := (l.st == .dirty && aDur a == 2) || s.gen.pendingRc.contains l.addr }
  | 9 => linePut s k { l with hold := (openOf s l.addr).isSome || (windowOf s l.addr).isSome }
  | 10 => linePut s k { l with filling := s.arr.mhes.any fun m => m.slot == some k && m.line == l.addr }
  | 11 => linePut s k { l with age := 3 }
  | _ => s

/-- The state of a line is known not to be DIRTY (R445): by its good copy, or, where both copies fail, rebuilt from the fill under way in its slot
or from the pending list. -/
def stateKnown (s : State) (l : Line) : Bool :=
  if l.tagBad &&& 12 = 12 then l.filling || s.gen.pendingRc.contains l.addr else l.st != .dirty

/-- The tag of a slot checked at a lookup or a visit (R443, R445): the first row that matches, one record for each field that fails. The
address of a line that is filling is rebuilt from its miss-handling entry (DEDUCED, notes/assumptions 28). -/
def tagCheck (s : State) (k detector : Nat) : State :=
  let l := lineAt s k
  if l.tagBad = 0 then s
  else
    let addr := l.tagBad &&& 3 == 3
    if (addr || l.tagBad &&& 12 == 12) && !stateKnown s l then fence s 6
    else if addr && !l.filling then
      let s' := if l.st = .fallow ∧ aKind (lastAt s l.last).attr = 2 then linePut s k (remark { l with tagBad := 0, locked := false, note := none })
        else lineDrop s k
      postError s' St.lineRepaired { lineErr s k l 2 0 1 detector with addr := 0 }
    else
      let fixed := fun (t : State) (unit : Nat) => postError t St.lineRepaired (lineErr s k l unit 0 3 detector)
      let s' := linePut s k (remark { l with tagBad := 0 })
      let s' := if l.tagBad &&& 3 = 0 then s' else fixed s' 2
      let s' := if l.tagBad &&& 12 = 0 then s' else fixed s' 3
      ((List.range 12).filter fun f => decide (4 ≤ f) && l.tagBad.getLsbD f).foldl (fun t f => fixed (tagRebuilt t k f) 3) s'

/-- Every way of a set checked (R443). -/
def tagCheckSet (s : State) (set detector : Nat) : State :=
  (List.range (fuseWays s)).foldl (fun s w => tagCheck s (slotKey set w) detector) s

/-! ## Repairs (R356, R357) -/

/-- A repair of a slot is under way, or a rollback of its line's last. -/
def repairing (s : State) (k : Nat) : Bool :=
  s.pr.repairs.any fun r => r.copy.isNone && (r.slot == k || (r.rollback && r.last == (lineAt s k).last))

/-- The line of a slot is itself under repair (R356, R446); in a rollback of its last that is so of the locked lines alone. -/
def slotRepairing (s : State) (k : Nat) : Bool := s.pr.repairs.any fun r => r.copy.isNone && r.slot == k

/-- REPAIR_RD for a slot (R356, R373). -/
def repairAsk (s : State) (k : Nat) (rollback : Bool) (e : Err) : State :=
  let l := lineAt s k
  let t := s.pr.tag
  let r : Repair := { tag := t, slot := k, last := l.last, rollback := rollback, err := e }
  ttSend { s with pr := { s.pr with tag := (t + 1) % 4096, repairs := s.pr.repairs ++ [r] } }
    { kind := 0x08, tag := t, set := slotSet k, addr := l.addr * 512 }

/-- Slots of the locked lines of a last. -/
def lockedSlots (s : State) (i : Nat) : List Nat :=
  (s.arr.lines.filter fun e => e.2.last == i && e.2.locked && e.2.st != .invalid).map (·.1)

/-- The rollback of a PAIRED_LAG last starts: the fellow's line is asked for every locked line (R357). -/
def rollbackStart (s : State) (i : Nat) (e : Err) : State :=
  (lockedSlots s i).foldl (fun s k => if slotRepairing s k then s
    else repairAsk s k true e) s

/-- A RECOMPUTE line that failed becomes pending, or its last FAILED (R354). -/
def recomputePending (s : State) (k : Nat) (l : Line) (e : Err) : State :=
  if s.gen.pendingRc.length ≥ 256 then lastFail s l.last e
  else
    let s := storeLine s k { l with st := .fallow, data := 0, badPar := 0, crcBad := false, locked := true, crc := lineCrc 0 }
      (BitVec.allOnes 512) false
    postError { s with gen := { s.gen with pendingRc := s.gen.pendingRc ++ [l.addr] } } St.recomputeRequest { e with action := 6 }

/-- The fellow holds what a paired last has (R342, R347, R356): neither SOLO nor unprotected. -/
def fellowHolds (s : State) (l : Last) : Bool := (s.pr.st == 1 || s.pr.st == 3) && !l.unprot

/-- The repair of a failed line, or of a failed held copy of it where `held` says that the copy is DIRTY (R356). -/
def repairLine (s : State) (k : Nat) (held : Bool) (unit sectors detector : Nat) : State :=
  let l := lineAt s k
  let i := l.last
  let lst := lastAt s i
  let e := lineErr s k l unit sectors 0 detector
  let pinned := aKind lst.attr == 2
  if repairing s k then s
  else if l.st = .fallow ∧ !held then
    postError (storeLine s k { l with data := 0, badPar := 0, crcBad := false, crc := lineCrc 0 } (BitVec.allOnes 512) false) St.lineRepaired
      { e with action := 3 }
  else if l.st = .clean ∧ !held ∧ !pinned then
    postError (lineDrop s k) St.lineRepaired { e with action := 1 }
  else if (aDur lst.attr = 1 ∨ (aDur lst.attr = 2 ∧ !l.locked)) ∧ fellowHolds s lst then repairAsk s k false { e with action := 2 }
  else if aDur lst.attr = 2 ∧ fellowHolds s lst then rollbackStart s i { e with action := 4 }
  else if aDur lst.attr = 3 then recomputePending s k l e
  else lastFail s i e

/-- REPAIR_RD for a held copy of a line (R356, R446). -/
def copyAsk (s : State) (line i : Nat) (e : Err) : State :=
  if s.pr.repairs.any fun r => r.copy == some line then s
  else
    let t := s.pr.tag
    let r : Repair := { tag := t, last := i, copy := some line, err := { e with action := 2 } }
    ttSend { s with pr := { s.pr with tag := (t + 1) % 4096, repairs := s.pr.repairs ++ [r] } }
      { kind := 0x08, tag := t, set := homeSet s line, addr := line * 512 }

/-- The copies of a line that wait in an eviction buffer or a log buffer given up. -/
def copiesDrop (s : State) (line : Nat) : State :=
  { s with
    arr := { s.arr with evicts := s.arr.evicts.filter fun e => !(e.line == line && e.tag.isNone) }
    gen := { s.gen with bufs := s.gen.bufs.filter fun b => b.addr / 512 != line } }

/-- The repair of a copy held in an eviction buffer or a log buffer that fails its check: as a DIRTY line of its last (R356, R446, R452). The
detail of its record names the bank of the line's set (DESIGN CHOICE, notes/assumptions 28). -/
def repairCopy (s : State) (line i : Nat) (bad : LineMask) : State :=
  let lst := lastAt s i
  let e : Err := { unit := 7, sectors := (sectorsOf bad).toNat, addr := line * 512, last := i, ctx := aCtx lst.attr, detector := 3,
                   detail := at_ (slotBank (homeSet s line)) 28, ts := some (tsNs s) }
  let locked := match findLine s line with
    | some k => (lineAt s k).locked
    | none => false
  if (aDur lst.attr = 1 ∨ (aDur lst.attr = 2 ∧ !locked)) ∧ fellowHolds s lst then copyAsk s line i e
  else if aDur lst.attr = 2 ∧ fellowHolds s lst then rollbackStart (copiesDrop s line) i { e with action := 4 }
  else if aDur lst.attr = 3 ∧ s.gen.pendingRc.length < 256 then
    let s := copiesDrop s line
    match findLine s line with
    | some k => recomputePending s k (lineAt s k) e
    | none => postError { s with gen := { s.gen with pendingRc := s.gen.pendingRc ++ [line] } } St.recomputeRequest { e with action := 6 }
  else lastFail s i e

/-- Bytes that writes have left in the merging buffer, or in the miss-handling entry of a line, fail their parity: their last is FAILED
(R452). -/
def mergedLost (s : State) (line i : Nat) (sectors : Nat) : State :=
  lastFail s i { unit := 8, sectors := sectors, addr := line * 512, last := i, ctx := aCtx (lastAt s i).attr
                 detail := at_ (slotBank (homeSet s line)) 28 }

/-- A line_crc field that fails its own parity, recomputed from data that passes (R445). -/
def crcFieldCheck (s : State) (k detector : Nat) : State :=
  let l := lineAt s k
  if l.crcBad && l.badPar == 0 && crcLine s l then
    postError (storeLine s k { l with crc := lineCrc l.data, crcBad := false } 0 false) St.lineRepaired (lineErr s k l 4 0 3 detector)
  else s

/-- The bytes `m` of a line checked (R124, R446): whether they are good, else the repair is started. DEDUCED, notes/assumptions 28. -/
def checkLine (s : State) (k : Nat) (m : LineMask) (full : Bool) (detector : Nat) : State × Bool :=
  let s := if full then crcFieldCheck s k detector else s
  let l := lineAt s k
  let f := lineFault s l m full
  if f = 0 then (s, true)
  else (repairLine s k false (if l.badPar &&& m = 0 then 1 else 0) f.toNat detector, false)

end Sys2Proof.Machine
end

