-- ==== Sys2Proof/Machine/Meter.lean ====
section
/-! DEFINITION. Metering windows, budgets, energy attribution, the timestamp and request tracing (spec/14 R515 to R520, R533 to
R546). -/

namespace Sys2Proof.Machine

open Sys2Proof

/-! ## Classes -/

/-- The bytes of a class in a group of the window in progress (R516). -/
def winGet (s : State) (c g : Nat) : Nat := SMap.get 0 s.qs.win (4 * c + g)

/-- The weight of a class; 0 acts as 1 (R526). -/
def weightOf (s : State) (c : Nat) : Nat := max 1 (fld (clsCfg s c) 47 40)

/-- Most miss-handling entries of a class; 0 and codes above 0x80 act as 0x80 (R526). -/
def mheMax (s : State) (c : Nat) : Nat :=
  let v := fld (clsCfg s c) 39 32
  if v = 0 ∨ v > 0x80 then 0x80 else v

/-- Whether a class is over budget (R520). -/
def overBudget (s : State) (c : Nat) : Bool :=
  let b := fld (clsCfg s c) 63 48
  s.qs.pressure && decide (b ≠ 0 ∧ 64 * b ≤ winGet s c 0)

/-- Whether an over-budget class issues nothing (R526). -/
def hardClass (s : State) (c : Nat) : Bool := (clsCfg s c).testBit 23

/-! ## Energy (R536 to R540) -/

/-- The group of an activity kind: 0 CORE, 1 ARR, 2 TTH (R536). -/
def kindGroup (k : Nat) : Nat := if k = 0 ∨ k = 1 ∨ k = 7 then 1 else if k = 6 then 2 else 0

/-- The coefficient of an activity kind (R540). -/
def energyCoef (s : State) (k : Nat) : Nat :=
  if k < 4 then csrFld s 0x3508 (16 * k + 15) (16 * k) else csrFld s 0x3510 (16 * (k - 4) + 15) (16 * (k - 4))

def energyGain (s : State) (g : Nat) : Nat := csrFld s 0x3518 (16 * g + 15) (16 * g)
def energyLeak (s : State) (g : Nat) : Nat := csrFld s 0x3520 (16 * g + 15) (16 * g)

/-- cal_period in ms; 0 acts as 1 (R540). -/
def calPeriod (s : State) : Nat := max 1 (csrFld s 0x3500 23 16)

/-- The calibration interval of an instant in ns (R538). -/
def calInterval (s : State) (ns : Nat) : Nat := ns / (1000000 * calPeriod s)

/-- Energy of activity counts by `8 × key + kind`, in 2^-16 nJ: Q2.14 gain times 1/16 pJ coefficient (R537; DEDUCED, notes/assumptions
16). -/
def windowEnergy (s : State) (act : SMap Nat) (key : Nat) : Nat :=
  ((List.range 8).map fun k =>
    energyGain s (kindGroup k) * energyCoef s k * SMap.get 0 act (8 * key + k) / 4000).foldl (· + ·) 0

/-- Modelled energy of a group at gain 1.0 in 1/16 pJ, over every class and what has none (R538). -/
def groupActivity (s : State) (g : Nat) : Nat :=
  (s.qs.actCls.map fun e => if kindGroup (e.1 % 8) = g then energyCoef s (e.1 % 8) * e.2 else 0).foldl (· + ·) 0

/-- Energy added to the accumulators of the keys below `n` that had activity. -/
def addEnergy (s : State) (act : SMap Nat) (n : Nat) (acc : SMap Nat) : SMap Nat :=
  let keys := ((act.map fun e => e.1 / 8).filter (· < n)).eraseDups
  keys.foldl (fun a k => SMap.put 0 a k (SMap.get 0 a k + windowEnergy s act k)) acc

/-- The end of a metering window (R517, R518, R537, R538). -/
def windowEnd (s : State) : State :=
  let q := s.qs
  let u := fun c g => min 0xFFFF (winGet s c g / 64)
  let bw := (List.range 16).map fun c =>
    (c, BitVec.ofNat 64 (at_ (u c 0) 48 + at_ (u c 1) 32 + at_ (u c 2) 16 + u c 3))
  let q1 := { q with
    bw := bw.filter fun e => e.2 != 0
    memTot := (List.range 16).foldl (fun m c => SMap.put 0 m c (SMap.get 0 m c + BitVec.ofNat 64 (winGet s c 0))) q.memTot
    portTot := (List.range 16).foldl
      (fun m c => SMap.put 0 m c (SMap.get 0 m c + BitVec.ofNat 64 (winGet s c 1 + winGet s c 2 + winGet s c 3))) q.portTot
    win := []
    cls := (List.range 16).foldl
      (fun m c => SMap.put 0 m c (SMap.get 0 s.csr (0x3000 + 8 * c))) q.cls }
  let i := calInterval s (tsNs s - 1)
  let q2 := if csrBit s 0x3500 31 then { q1 with
      eCls := addEnergy s q.actCls 16 q.eCls
      eCtx := addEnergy s q.actCtx 4096 q.eCtx
      eStat := q.eStat + 2 ^ 16 * (energyLeak s 0 + energyLeak s 1 + energyLeak s 2)
      eDyn := (List.range 3).foldl (fun m g => SMap.put 0 m (4 * i + g) (SMap.get 0 m (4 * i + g) + groupActivity s g))
        (q.eDyn.filter fun e => decide (i ≤ e.1 / 4 + 4)) }
    else q1
  { s with qs := { q2 with
      actCls := []
      actCtx := []
      reads := q2.reads.filter fun e => decide (i ≤ e.1 / 8 + 5)
      steps := q2.steps.filter fun k => decide (i ≤ k + 5) } }

/-- The rails of a group (R539): CORE, ARR, TTH. -/
def groupRails (g : Nat) : List Nat := if g = 0 then [0] else if g = 1 then [1, 2] else [3, 4]

/-- A group's gain updated from its readings of interval `k` (R538). -/
def calibrate (s : State) (g k : Nat) : State :=
  let meas : Nat := ((groupRails g).map fun r => (SMap.get 0 s.qs.reads (8 * k + r) - 1) * 1000).foldl (· + ·) 0
  let stat := energyLeak s g * calPeriod s * 1000
  let e := SMap.get 0 s.qs.eDyn (4 * k + g)
  if e < 100000 * 16000 then ev s Ev.energyCalSkip
  else
    let num : Int := ((meas : Int) - (stat : Int)) * 16000 * 16384
    let (rn, rd) : Int × Int := if num ≤ 4096 * (e : Int) then (4096, 1) else if num ≥ 65535 * (e : Int) then (65535, 1) else (num, (e : Int))
    let new : Int := (2 * (7 * (energyGain s g : Int) * rd + rn) + 8 * rd) / (16 * rd)
    ev (csrPut s 0x3518 (setFld (csrGet s 0x3518) (16 * g + 15) (16 * g) new.toNat)) Ev.energyCal

/-- A regulator reading of `uj` µJ for a rail and the low 32 bits of an interval index (R538, R539). Readings are kept one
greater than they are, so that a reading of zero is told from none. DEDUCED, notes/assumptions 31. -/
def regReading (s : State) (rail k32 uj : Nat) : State :=
  if rail ≥ 5 || !csrBit s 0x3500 31 then s else
  let now := calInterval s (tsNs s)
  let age := (now % 2 ^ 32 + 2 ^ 32 - k32 % 2 ^ 32) % 2 ^ 32
  let k := now - age
  if age > 4 ∨ now < age ∨ s.qs.steps.contains k then ev s Ev.energyCalStale
  else
    let g := if rail = 0 then 0 else if rail ≤ 2 then 1 else 2
    let s := { s with qs := { s.qs with reads := SMap.put 0 s.qs.reads (8 * k + rail) (uj + 1) } }
    if (groupRails g).all fun r => SMap.get 0 s.qs.reads (8 * k + r) != 0 then
      let s := calibrate s g k
      { s with qs := { s.qs with reads := s.qs.reads.filter fun e => !(e.1 / 8 == k && (groupRails g).contains (e.1 % 8)) } }
    else s

/-! ## Time (R541 to R546) -/

/-- A count of ns in timestamp units of 2^-32 ns. -/
def nsUnits (n : Nat) : Nat := n * 2 ^ 32

/-- What the timestamp advances by in one sc: inc, changed by the slew while it lasts (R543). DEDUCED, notes/assumptions 16. -/
def timeStep (t : Time) : Nat :=
  if t.slewLeft = 0 then t.inc
  else ((t.inc : Int) + (t.inc : Int) * t.slew / (nsUnits 1000000000 : Nat)).toNat

/-- One sc of time (R541, R543). -/
def scTime (t : Time) : Time :=
  let d := timeStep t
  { t with ts := (t.ts + d) % 2 ^ 96, slewLeft := t.slewLeft - d, n := t.n.map (· + 1) }

/-- The error of an edge: the nearest multiple of 10^9 ns less the timestamp, in units of 2^-32 ns (R543). -/
def edgeError (t : Time) : Int :=
  let sec := nsUnits 1000000000
  ((((t.ts + sec / 2) / sec) * sec : Nat) : Int) - t.ts

/-- The slew rule of R543. -/
def slewTo (t : Time) : Time :=
  let lim : Int := (nsUnits 500000 : Nat)
  { t with slew := max (-lim) (min lim (edgeError t)), slewLeft := nsUnits 1000000000 }

/-- An event record of category 7 as pps_lost clears (R544). -/
def ppsRegained (s : State) (tsBefore e : Nat) : State :=
  if s.tm.lost then postEvent { s with tm := { s.tm with lost := false } } 7 St.ppsRegained 0 tsBefore (e % 2 ^ 32) else s

/-- An accepted edge counts and restarts n (R542). -/
def edgeAccepted (s : State) (e : Nat) : State :=
  let before := tsNs s
  let s := ev { s with tm := { s.tm with n := some 0, lastEdge := before } } Ev.ppsEdge
  ppsRegained s before e

/-- The error of an edge in ns, rounded towards minus infinity, as a 32-bit two's complement number. -/
def errorNs (t : Time) : Nat := (edgeError t / (2 ^ 32 : Nat)).emod (2 ^ 32 : Nat) |>.toNat

/-- A recognised rising edge of PPS_IN (R542, R543, R545); the row is the instant of the edge at the pin (R54), DESIGN CHOICE,
notes/assumptions 34. -/
def ppsEdge (s : State) : State :=
  if !csrBit s 0x0E08 31 then s
  else match s.tm.n with
  | some n =>
    if n < 250000000 then
      ev { s with tm := { s.tm with glitches := satInc 16 s.tm.glitches } } Ev.ppsGlitch
    else if s.tm.armed then setEdge s
    else if n ≥ 750000000 then slewEdge s
    else if 499500000 ≤ n ∧ n ≤ 500500000 then
      let s := edgeAccepted s (errorNs s.tm)
      { s with tm := slewTo { s.tm with inc := nsUnits 1000000000 / n } }
    else ev (edgeAccepted s (errorNs s.tm)) Ev.ppsOffRate
  | none => if s.tm.armed then setEdge s else slewEdge s
where
  /-- The set edge: the window ends with the old value, the calibration interval in progress is discarded. -/
  setEdge (s : State) : State :=
    let (k, s) := drawFree s
    let s := edgeAccepted s (if s.tm.lost then Config.freeNat k else 0)
    let s := windowEnd s
    let i := calInterval s (tsNs s)
    let t := { s.tm with ts := nsUnits (csrFld s 0x0E10 33 0 * 1000000000) % 2 ^ 96, armed := false, valid := true,
                         slewLeft := 0, slew := 0 }
    let s := { s with tm := t }
    ev { s with qs := { s.qs with steps := s.qs.steps ++ [i, calInterval s (tsNs s)] } } Ev.timeStep
  slewEdge (s : State) : State :=
    let s := edgeAccepted s (errorNs s.tm)
    { s with tm := slewTo s.tm }

/-- No edge for 1.5 s (R544). -/
def ppsLost (s : State) : State :=
  if !csrBit s 0x0E08 31 || s.tm.lost then s
  else postEvent { s with tm := { s.tm with lost := true, n := none } } 7 St.ppsLost 0 s.tm.lastEdge (s.tm.glitches % 2 ^ 16)

/-! ## Request tracing (R533, R534) -/

/-- One step of the Galois LFSR of taps x^32 + x^22 + x^2 + x + 1 (R533; DEDUCED, notes/assumptions 17). -/
def lfsrStep (x : BitVec 32) : BitVec 32 :=
  if x.getLsbD 0 then (x >>> 1) ^^^ 0x80200003 else x >>> 1

/-- The bit of port_mask of a port (R535). -/
def tracePort (p : Port) : Nat := if p = .blk then 0 else if p = .hst then 2 else 1

/-- An accepted demand request is passed to the trace (R533, R534). -/
def traceAccept (s : State) (n cls opcode : Nat) (m : Msg) : State :=
  let ctl := csrGet s 0x3400
  let mask := if fld ctl 53 51 = 0 then 7 else fld ctl 53 51
  if !ctl.testBit 63 || !mask.testBit (tracePort m.port) || (ctl.testBit 58 && fld ctl 57 54 != m.qos) then s
  else
    let l := lfsrStep s.qs.lfsr
    let s := { s with qs := { s.qs with lfsr := l } }
    if l.toNat % 2 ^ fld ctl 62 59 ≠ 0 then s
    else if s.qs.traces.length ≥ 64 then
      ev { s with qs := { s.qs with traceDrop := satInc 32 s.qs.traceDrop } } Ev.traceDrop
    else
      let t : Trace := { ts := tsNs s, acc := s.now, cls := cls, opcode := opcode, m := m }
      ev { s with qs := { s.qs with traces := s.qs.traces ++ [(n, t)] } } Ev.traceTagged

/-- A flag of a tagged request (R534). -/
def traceFlag (s : State) (n b : Nat) : State := traceMap s n fun t => { t with flags := t.flags ||| 2 ^ b }

/-- The 64-byte trace record (R534); the last that covers the address and its owner are those of the record. -/
def traceRecord (s : State) (t : Trace) (status : Nat) : Bytes :=
  let li := lastOf s t.m.addr
  let port := if t.m.port = .blk then 0 else if t.m.port = .hst then 3 else 1
  let stg := ((List.range 16).map fun i =>
    leBytes 2 (if i ≥ 12 then 0 else match t.stages.find? fun e => e.1 == i with
      | some e => e.2
      | none => 0xFFFF)).flatten
  leBytes 8 t.ts ++ leBytes 8 (at_ port 60 + at_ t.m.qos 56 + t.m.addr) ++
    leBytes 8 (at_ status 56 + at_ t.m.tag 48 + at_ t.opcode 43 + at_ t.cls 40 + at_ (aCtx (lastAt s li).attr) 28 + at_ li 18 +
      t.m.src) ++ stg ++ leBytes 8 t.flags

/-- A tagged request completes: its record is written (R534). -/
def traceEnd (s : State) (n status : Nat) : State :=
  match s.qs.traces.find? fun e => e.1 == n with
  | none => s
  | some e =>
    let s1 := { s with qs := { s.qs with traces := s.qs.traces.filter fun x => x.1 != n } }
    if !csrBit s 0x3400 63 then s1
    else
      let k := clampLog 6 0x14 (csrFld s 0x3408 60 56)
      let base := csrFld s 0x3408 51 0 / (64 * 2 ^ k) * (64 * 2 ^ k)
      let w := s.qs.written
      memWrite { s1 with qs := { s1.qs with written := (w + 1) % 2 ^ 32 } }
        { addr := base + 64 * (w % 2 ^ k) } (traceRecord s e.2 status) (csrFld s 0x3080 27 24)

/-! ## The rows of spec/14 -/

/-- METERING_WINDOW_END (R517), while the control island runs. -/
def execMeteringWindowEnd (s : State) : Host.Outcome State Fault Refusal :=
  .next (if s.pw.rstN && s.pw.clkAon then windowEnd s else s)

/-- MEM_PRESSURE_DECLARED (R519). -/
def execMemPressureDeclared (s : State) : Host.Outcome State Fault Refusal :=
  .next { s with qs := { s.qs with pressure := true } }

/-- MEM_PRESSURE_RELEASED (R519). -/
def execMemPressureReleased (s : State) : Host.Outcome State Fault Refusal :=
  .next { s with qs := { s.qs with pressure := false } }

/-- PPS_EDGE (R542 to R545), while the control island runs. -/
def execPpsEdge (s : State) : Host.Outcome State Fault Refusal :=
  .next (if s.pw.rstN && s.pw.clkAon then ppsEdge s else s)

/-- PPS_LOST (R544). -/
def execPpsLost (s : State) : Host.Outcome State Fault Refusal :=
  .next (if s.pw.rstN && s.pw.clkAon then ppsLost s else s)

end Sys2Proof.Machine
end

