-- ==== Sys2Proof/Machine/Cache.lean ====
section
/-! DEFINITION. Allocation, replacement, eviction, miss-handling entries, prefetch, the merging buffer and the atomic line buffer
(spec/02 R88 to R115, spec/04 R161 to R163). -/

namespace Sys2Proof.Machine

open Sys2Proof

/-! ## Eligible ways and victims -/

/-- The privileged way mask of a requester (R101): plan stage-in 0, controller 1, HST 2, any other 3. -/
def privMask (s : State) (who : Nat) : Nat :=
  if who = 0 then csrFld s 0x110 47 32 else if who = 1 then csrFld s 0x110 31 16 else if who = 2 then csrFld s 0x110 15 0
  else 0xFFFF

/-- Who fills for a request of a port. -/
def portWho (p : Port) : Nat := if p = .hst then 2 else 3

/-- The way slots of a set eligible for a fill (R100). -/
def eligible (s : State) (attr who set : Nat) : List Nat :=
  (((usableWays s set).filter fun w =>
    (aMask attr == 0 || (aMask attr).testBit w) && (privMask s who).testBit w).map (slotKey set)).filter fun k =>
      let l := lineAt s k
      !l.locked && !l.filling && !l.hold

/-- The first match of R104 among slots in way order. -/
def pickVictim (s : State) (ks : List Nat) : Option Nat :=
  match ks.find? fun k => (lineAt s k).st == .invalid with
  | some k => some k
  | none =>
    match ks.find? fun k => (lineAt s k).st == .fallow with
    | some k => some k
    | none =>
      match ks.find? fun k => (lineAt s k).st == .clean && (lineAt s k).age == 3 with
      | some k => some k
      | none => ks.find? fun k => (lineAt s k).st == .dirty && (lineAt s k).age == 3

/-- The ageing of R105. -/
def ageLines (s : State) (ks : List Nat) : State :=
  let top := (ks.map fun k => (lineAt s k).age).foldl max 0
  ks.foldl (fun s k => linePut s k { lineAt s k with age := (lineAt s k).age + (3 - top) }) s

/-- The victim among slots, the lines aged where R104 finds none at first (R105). -/
def victimAmong (s : State) (ks : List Nat) : State × Option Nat :=
  match pickVictim s ks with
  | some k => (s, some k)
  | none =>
    let s := ageLines s ks
    (s, pickVictim s ks)

/-- The victim for a class (R106). -/
def victim (s : State) (cls : Nat) (ks : List Nat) : State × Option Nat :=
  let own := ks.filter fun k => (lineAt s k).st != .invalid && (lineAt s k).qos == cls
  if overShare s cls && !own.isEmpty then victimAmong s own else victimAmong s ks

/-! ## Write-backs and eviction -/

/-- The line's copy an observer sees: its open entry where it is open (R161). -/
def lineView (s : State) (l : Line) : LineData :=
  match openOf s l.addr with
  | some o => o.data
  | none => l.data

/-- A line lies in a bound window (R181, R184). -/
def bound (s : State) (line : Nat) : Bool := (windowOf s line).isSome

/-- An open line closed: one full-line write of its entry, reduce_hold cleared (R163). -/
def closeLine (s : State) (line : Nat) : State :=
  match openOf s line with
  | none => s
  | some o =>
    let l := lineAt s o.slot
    let all : LineMask := BitVec.allOnes 512
    let l := writeData (crcLine s l) l o.data all
    lineUse (openDel (storeLine s o.slot { l with hold := bound s line, badPar := o.bad } all false) line) line 4

/-- An entry of the atomic line buffer is read: one whose parity fails is closed, and its line repaired as a DIRTY line (R356, R446, R452). -/
def openGood (s : State) (line detector : Nat) : State × Bool :=
  match openOf s line with
  | some o =>
    if o.bad = 0 then (s, true) else (repairLine (closeLine s line) o.slot true 6 (sectorsOf o.bad).toNat detector, false)
  | none => (s, true)

/-- A line read whole from the copy of it that is the valid one, where that holds data: its parity and CRC checked (R124, R446). -/
def readWhole (s : State) (k detector : Nat) : State × Bool :=
  let l := lineAt s k
  if l.st = .fallow ∨ l.st = .invalid then (s, true)
  else if (openOf s l.addr).isSome then openGood s l.addr detector
  else checkLine (lineUse s l.addr 4) k (BitVec.allOnes 512) true detector

/-- The copies of a line that requests share are read before one is acted on: an entry of the atomic line buffer, an eviction buffer, merging
entries, bytes merged into its miss-handling entry (R443, R446, R452). False where the access waits for a repair. -/
def heldCheck (s : State) (line detector : Nat) : State × Bool :=
  let s := match (mergesOf s line).find? (·.bad) with
    | some m => mergedLost s line m.last (2 ^ (m.sector % 8))
    | none => s
  let s := match mheOf s line with
    | some m => if m.upset && m.kind != .stage then mergedLost s line m.last (sectorsOf m.wmask).toNat else s
    | none => s
  match evictOf s line with
  | some e => if e.bad = 0 then openGood s line detector else (repairCopy s line e.last e.bad, false)
  | none => openGood s line detector

/-- A tracked line is logged before a write-back, a write or a discard that needs it (R321, R323); false where the log ring has no
room, or the line's data fails its checks (R124). `always` logs lines of the open generation too (R323). -/
def logFirst (s : State) (k : Nat) (always : Bool) : State × Bool :=
  let l := lineAt s k
  let a := (lastAt s l.last).attr
  if tracked s a && l.dirtyMask != 0 && (always || isPending s l) then
    match readWhole s k 3 with
    | (s, false) => (s, false)
    | (s, true) =>
      let l := lineAt s k
      let (s', ok) := logLine s k l (lineView s l) true !always
      if ok then (if always then s' else ev s' Ev.logEarly, true) else (s', false)
  else (s, true)

/-- The write-back of an eviction buffer issued. -/
def evictIssue (s : State) (e : Evict) : State :=
  let drop := aPaired (lastAt s e.last).attr && paired s
  let s := { s with arr := { s.arr with
    evicts := s.arr.evicts.map fun x => if x.line = e.line then { x with waitLog := false, tag := some 0 } else x } }
  memWriteLine s { for_ := .evict e.line, drop := drop, last := e.last } e.line e.data e.qos

/-- A slot emptied for another line (R76, R112, R122, R323): false where it must wait. -/
def evictSlot (s : State) (k : Nat) : State × Bool :=
  let l := lineAt s k
  match l.st with
  | .invalid => (s, true)
  | .clean | .fallow =>
    let (s, ok) := logFirst s k true
    if ok then (ev (lineDrop s k) Ev.evictClean, true) else (s, false)
  | .dirty =>
    if s.arr.evicts.length ≥ 32 ∨ (evictOf s l.addr).isSome then (s, false)
    else
      let (s, good) := checkLine s k (BitVec.allOnes 512) true 3
      if !good then (s, false)
      else
        let l := lineAt s k
        let (s, ok) := logFirst s k true
        let e : Evict := { line := l.addr, data := l.data, last := l.last, qos := (aQos (lastAt s l.last).attr), waitLog := !ok,
                           dirtyMask := (lineAt s k).dirtyMask, genTag := l.genTag }
        let s := ev { s with arr := { s.arr with evicts := s.arr.evicts ++ [e] } } Ev.evictDirty
        let s := lineDrop (lineUse s l.addr 4) k
        (if ok then evictIssue s e else s, true)

/-- An eviction buffer whose record found no room is tried again (R324); one that fails its check is withheld and repaired (R446). -/
def evictRetry (s : State) (e : Evict) : State :=
  if e.bad ≠ 0 then (if e.tag.isNone ∧ !s.hd.fenced then repairCopy s e.line e.last e.bad else s)
  else if e.waitLog && !s.hd.fenced then
    let ctx := aCtx (lastAt s e.last).attr
    let g := genOfTag s ctx e.genTag
    let (s, ok) := if logHeld s ctx g true then (s, false) else logRecord s ctx g e.last false true e.dirtyMask 1 (e.line * 512) e.data
    if ok then
      let s := match drainOf s ctx g with
        | some d => drainSet s { d with records := d.records + 1 }
        | none => { s with gen := { s.gen with early := SMap.put 0 s.gen.early ctx (SMap.get 0 s.gen.early ctx + 1) } }
      evictIssue s e
    else s
  else s

/-- The fellow is asked for a line, or for a held copy of it (R356). -/
def lineAsked (s : State) (line : Nat) : Bool :=
  s.pr.repairs.any fun r => r.copy == some line || (r.copy.isNone && findLine s line == some r.slot)

/-- A record in a log buffer as it is written: read again from the array where it fails its check and the line there is as it was copied, else
repaired as the eviction buffer that shares its copy (R452; DEDUCED, notes/assumptions 28); false where it waits for that repair. -/
def bufGood (s : State) (b : LogBuf) : State × LogBuf × Bool :=
  if b.bad = 0 then (s, b, true)
  else
    let line := b.addr / 512
    match (findLine s line).filter fun k => (lineAt s k).dirtyMask == 0 && (lineAt s k).st != .fallow with
    | some k =>
      match readWhole s k 3 with
      | (s, true) =>
        let l := lineAt s k
        (postError s St.lineRepaired { lineErr s k l 7 (sectorsOf b.bad).toNat 3 3 with history := 0, loc := 0 },
          { b with data := lineView s l, bad := 0 }, true)
      | (s, false) => (s, b, false)
    | none => (repairCopy s line b.last b.bad, b, false)

/-- The log buffers written, oldest first, as far as the rings have room: a record waits behind an earlier one of its ring (R331). DEDUCED, notes/assumptions 26. -/
def bufPump : List LogBuf → State → State
  | [], s => s
  | b :: r, s =>
    let ring := (ctxGet s b.ctx).ring
    let s := { s with gen := { s.gen with bufs := s.gen.bufs.drop 1 } }
    let back := fun (s : State) (b : LogBuf) => { s with gen := { s.gen with bufs := s.gen.bufs ++ [b] } }
    -- the records put back so far stand behind those not yet looked at
    if (s.gen.bufs.drop r.length).any (fun x => (ctxGet s x.ctx).ring == ring) ||
        (!b.early && !logDiscards s b.ctx && ((drainOf s b.ctx b.gen).map (fun d => !d.sealed)).getD false) then bufPump r (back s b)
    else match bufGood s b with
    | (s, b, false) => bufPump r (if lineAsked s (b.addr / 512) then back s b else s)
    | (s, b, true) =>
      match logRecord s b.ctx b.gen b.last false b.early b.mask b.kind b.addr b.data with
      | (s, true) => bufPump r s
      | (s, false) => bufPump r (back s b)

/-! ## Ways for fills -/

/-- The outcome of looking for a way. -/
inductive Way where
  | busy (s : State)
  | noWay (s : State)
  | slot (s : State) (k : Nat)

/-- A way for a line, its victim evicted (R100, R104 to R106, R112). -/
def findWay (s : State) (line attr who cls : Nat) : Way :=
  let ks := eligible s attr who (setOf s line)
  match victim s cls ks with
  | (s, none) => .noWay s
  | (s, some k) =>
    match evictSlot s k with
    | (s, true) => .slot s k
    | (s, false) => .busy s

/-- A FALLOW copy leaves the array for a fill of its line, logged where R323 asks for it. -/
def fallowGone (s : State) (k : Nat) : State × Bool :=
  match logFirst s k true with
  | (s, true) => (lineDrop s k, true)
  | (s, false) => (s, false)

/-- A way for the fill of a line that is INVALID or FALLOW in the array (R100, R104 to R106, R218, R432): where the victim search chooses
another way, the FALLOW copy leaves the array too. -/
def refillWay (s : State) (line attr who cls : Nat) : Way :=
  match findLine s line with
  | none => findWay s line attr who cls
  | some own =>
    match victim s cls (eligible s attr who (setOf s line)) with
    | (s, none) => .noWay s
    | (s, some k) =>
      match if k = own then (s, true) else evictSlot s k with
      | (s, false) => .busy s
      | (s, true) =>
        match fallowGone s own with
        | (s, true) => .slot s k
        | (s, false) => .busy s

/-! ## Miss-handling entries -/

/-- Miss-handling entries of R109, apart from the stage-in tracking entries. -/
def mheUsed (s : State) : Nat := (s.arr.mhes.filter fun m => m.kind != .stage).length

/-- A fill that a prefetch started (R113, R114, R432). -/
def prefetchFill (k : FillKind) : Bool := k == .nextLine || k == .stream || k == .prefetch

/-- The entries that the demand misses of a class hold (R524): those of prefetches stall no demand request (R115). -/
def mheOfClass (s : State) (c : Nat) : Nat :=
  (s.arr.mhes.filter fun m => m.kind != .stage && !prefetchFill m.kind && m.qos == c).length

/-- A demand miss of a class may take an entry (R110, R524). -/
def mheFree (s : State) (c : Nat) : Bool := decide (mheUsed s < 128 ∧ mheOfClass s c < mheMax s c)

/-- Byte mask of a sector of a line entry. -/
def sectorMask (m : Merge) : LineMask := BitVec.ofNat 512 (m.mask.toNat <<< (64 * (m.sector % 8)))
def sectorBytes (m : Merge) : LineData := BitVec.ofNat 4096 (m.data.toNat <<< (512 * (m.sector % 8)))

/-- A line's copy with the merging buffer's bytes over it, oldest entry first (R89, R295). -/
def mergeOverlay (s : State) (line : Nat) (d : LineData) : LineData :=
  (mergesOf s line).foldl (fun d m => mergeBytes d (sectorBytes m) (sectorMask m)) d

/-- The bytes of a line the merging buffer holds. -/
def mergeMask (s : State) (line : Nat) : LineMask := (mergesOf s line).foldl (fun a m => a ||| sectorMask m) 0

/-- An entry taken and its MEM read issued, critical beat first (R111); a fill that installs the line takes with it the bytes the
merging buffer holds (R89, R295). -/
def mheStart (s : State) (m : Mhe) : State :=
  let m := if m.kind == .memSide || m.kind == .bypass then m
    else { m with wdata := mergeBytes (mergeOverlay s m.line 0) m.wdata m.wmask, wmask := mergeMask s m.line ||| m.wmask }
  let s := { s with arr := { s.arr with mhes := s.arr.mhes ++ [m] } }
  memRead s (.fill m.line) (m.line * 512) 4 m.crit m.qos

/-- A line installed as filling in its slot. -/
def setFilling (s : State) (k line last cls age : Nat) : State :=
  storeLine s k { addr := line, filling := true, last := last, qos := cls, age := age } 0 true

/-! ## Prefetch (R113 to R115) -/

/-- A prefetch of a line of a last for a requester of R101, started, dropped or withheld. -/
def prefetchLine (s : State) (line li age who : Nat) (kind : FillKind) : State :=
  let l := lastAt s li
  if line * 512 < l.base ∨ l.limit ≤ line * 512 ∨ lastOfLine s line ≠ li ∨ l.cond ≠ 1 ∨ !aCache l.attr then s
  else if (findLine s line).isSome || (mheOf s line).isSome || (evictOf s line).isSome then s
  else if s.qs.pressure && csrBit s 0x3080 16 then ev s Ev.prefetchThrottled
  else if 128 - mheUsed s < 16 then ev s Ev.prefetchDropped
  else
    let cls := aQos l.attr
    match findWay s line l.attr who cls with
    | .busy s => ev s Ev.prefetchDropped
    | .noWay s => ev s Ev.allocBypass
    | .slot s k =>
      let s := setFilling s k line li cls age
      ev (mheStart s { line := line, kind := kind, slot := some k, qos := cls, last := li, age := age }) Ev.prefetchIssued

/-- The lines kept ahead of an access to a confirmed stream. -/
def streamAhead (s : State) (line li who : Nat) (up : Bool) : State :=
  let pf := (lastAt s li).prefetch
  let step := 2 ^ stripeShift s
  (List.range (fld pf 4 2 + 1)).foldl (fun s i =>
    let d := (i + 1) * step
    if up then prefetchLine s (line + d) li (if pf.testBit 7 then 3 else 2) who .stream
    else if d ≤ line then prefetchLine s (line - d) li (if pf.testBit 7 then 3 else 2) who .stream
    else s) s

/-- A tracker taken, the least recently used given up when all 16 are in use; the trackers stand in the order of their last use. -/
def streamTake (ts : List Stream) (t : Stream) : List Stream := ts.drop (ts.length - 15) ++ [t]

/-- A demand access to a line seen by the stream trackers (R114). DESIGN CHOICE, notes/assumptions 18. -/
def streamAccess (s : State) (line li who : Nat) (miss : Bool) : State :=
  let pf := (lastAt s li).prefetch
  if !pf.testBit 1 then s
  else
    let l := line >>> stripeShift s
    let next := fun (t : Stream) => t.last == li && (if t.up then t.l + 1 == l else t.l == l + 1)
    match s.arr.streams.find? next with
    | some t =>
      let s := { s with arr := { s.arr with streams := s.arr.streams.erase t ++ [{ t with l := l }] } }
      streamAhead s line li who t.up
    | none =>
      if !miss then s
      else
        let run : Stream := match s.arr.runs.find? fun r => r.last == li with
          | some r =>
            if r.l + 1 = l ∧ (r.up ∨ r.count = 1) then { r with l := l, up := true, count := r.count + 1 }
            else if r.l = l + 1 ∧ (!r.up ∨ r.count = 1) then { r with l := l, up := false, count := r.count + 1 }
            else { last := li, l := l }
          | none => { last := li, l := l }
        let rest := s.arr.runs.filter fun r => r.last != li
        if run.count ≥ fld pf 6 5 + 2 then
          let s := { s with arr := { s.arr with runs := rest, streams := streamTake s.arr.streams run } }
          streamAhead s line li who run.up
        else { s with arr := { s.arr with runs := rest ++ [run] } }

/-- What a demand miss prefetches for its requester (R101, R113, R114). -/
def missPrefetch (s : State) (line li who : Nat) : State :=
  let s := if (lastAt s li).prefetch.testBit 0 then
      prefetchLine s (line + 2 ^ stripeShift s) li 2 who .nextLine else s
  streamAccess s line li who true

/-! ## The merging buffer (R88 to R90) -/

/-- The bytes of an entry go to memory (R90). -/
def mergeSend (s : State) (n : Nat) : State :=
  match s.arr.merges.find? fun m => m.n == n && !m.draining with
  | none => s
  | some m =>
    if m.bad then mergedLost s (m.sector / 8) m.last (2 ^ (m.sector % 8)) else
    let s := { s with arr := { s.arr with
      merges := s.arr.merges.map fun x => if x.n = n then { x with draining := true } else x } }
    memWriteMasked s { for_ := .merge n, last := m.last } (m.sector / 8) (sectorBytes m) (sectorMask m)
      (aQos (lastAt s m.last).attr)

/-- Entries that have not begun to drain. -/
def mergeOpen (s : State) : List Merge := s.arr.merges.filter fun m => !m.draining

/-- An entry starts to drain, after the open entries of its line that are older (R90). -/
def mergeDrain (s : State) (n : Nat) : State :=
  match s.arr.merges.find? fun m => m.n == n with
  | none => s
  | some m => ((mergeOpen s).filter fun e => e.sector / 8 == m.sector / 8 && decide (e.n ≤ n)).foldl (fun s e => mergeSend s e.n) s

/-- While 24 or more entries are open the oldest starts to drain (R90). -/
def mergePressure : Nat → State → State
  | 0, s => s
  | k + 1, s =>
    match mergeOpen s with
    | m :: _ => if (mergeOpen s).length ≥ 24 then mergePressure k (mergeDrain s m.n) else s
    | [] => s

/-- The sectors a byte mask touches that need a free entry. -/
def mergeNeeds (s : State) (line : Nat) (m : LineMask) : Nat :=
  ((List.range 8).filter fun k => (sectorsOf m).toNat.testBit k &&
    !(s.arr.merges.any fun e => e.sector == line * 8 + k && !e.draining)).length

/-- Whether the buffer has room for a write (R88). -/
def mergeRoom (s : State) (line : Nat) (m : LineMask) : Bool := decide (s.arr.merges.length + mergeNeeds s line m ≤ 32)

/-- Bytes of a line entered into the merging buffer, which has room, for a write accepted as number `n` (R87, R88). -/
def mergeWrite (s : State) (line : Nat) (d : LineData) (m : LineMask) (src n cmd last cls : Nat) : State :=
  let s := (List.range 8).foldl (fun s k =>
    if (sectorsOf m).toNat.testBit k then
      let bm := BitVec.ofNat 64 (m.toNat >>> (64 * k))
      let bd := BitVec.ofNat 512 (d.toNat >>> (512 * k))
      let wide := BitVec.ofNat 512 (widenMask 64 bm.toNat)
      let add := fun (e : Merge) => { e with
        mask := e.mask ||| bm, data := (e.data &&& ~~~wide) ||| (bd &&& wide)
        srcs := if e.srcs.any fun x => x.1 == src then e.srcs else e.srcs ++ [(src, n)]
        cmds := if cmd = 0 ∨ e.cmds.contains cmd then e.cmds else e.cmds ++ [cmd] }
      if s.arr.merges.any fun e => e.sector == line * 8 + k && !e.draining then
        { s with arr := { s.arr with
          merges := s.arr.merges.map fun e => if e.sector = line * 8 + k ∧ !e.draining then add e else e } }
      else
        { s with arr := { s.arr with
          n := s.arr.n + 1
          merges := s.arr.merges ++ [add { n := s.arr.n, sector := line * 8 + k, opened := s.now, last := last, qos := cls }] } }
    else s) s
  mergePressure 32 s

/-- Every entry of a line starts to drain. -/
def mergeDrainWhere (s : State) (p : Merge → Bool) : State :=
  ((mergeOpen s).filter p).foldl (fun s m => mergeDrain s m.n) s

/-! ## The atomic line buffer (R161 to R163) -/

/-- A line closed for an access that is not an atomic, for a RANGE command, for a snoop or for a host request (R163), and counted (R164).
DEDUCED, notes/assumptions 23. -/
def closeFor (s : State) (line : Nat) : State :=
  if (openOf s line).isSome then ev (closeLine s line) Ev.atomicCloseWait else s

/-- A resident line opened (R161, R162) by a demand hit (R103): its data was checked; a full buffer gives up the least recently used
entry, the first (R163). -/
def openLine (s : State) (k : Nat) : State :=
  let l := lineAt s k
  let s := if s.arr.opens.length < 32 then s
    else match s.arr.opens with
      | o :: _ => closeLine s o.line
      | [] => s
  let o : OpenLine := { line := l.addr, slot := k, data := if l.st = .fallow then 0 else l.data, used := s.now }
  let s := { s with arr := { s.arr with opens := s.arr.opens ++ [o] } }
  storeLine s k { lineAt s k with hold := true, st := .dirty, age := 0 } 0 false

end Sys2Proof.Machine
end

