-- ==== Sys2Proof/Machine/Coherence.lean ====
section
/-! DEFINITION. The snoop filter, the back-invalidation tracker and bias (spec/06 R243 to R260, R280; spec/12 R453). A host line is
addr[51:6]. -/

namespace Sys2Proof.Machine

open Sys2Proof

/-! ## The snoop filter -/

/-- The snoop filter set of a host line (R245). -/
def sfSet (s : State) (h : Nat) : Nat := (setOf s (h / 8) % 4096) * 8 + h % 8

def sfAt (s : State) (k : Nat) : SfEnt := SMap.get {} s.coh.sf k
def sfPut (s : State) (k : Nat) (e : SfEnt) : State := { s with coh := { s.coh with sf := SMap.put {} s.coh.sf k e } }

/-- The keys of a set's 16 ways. -/
def sfWays (set : Nat) : List Nat := (List.range 16).map fun w => set * 16 + w

/-- Entries whose parity fails are removed and make their set cautious (R452, R453). -/
def sfCheckKeys (s : State) (ks : List Nat) (detector : Nat) : State :=
  ks.foldl (fun s k =>
    let e := sfAt s k
    let set := k / 16
    if e.st != 0 && e.bad then
      let s := sfPut s k {}
      let s := { s with coh := { s.coh with
        cautious := if s.coh.cautious.contains set then s.coh.cautious else s.coh.cautious ++ [set] } }
      postError s St.lineRepaired { unit := 9, addr := 0, action := 10, history := if e.injected then 3 else 0,
                                    detector := detector, detail := set, loc := sfLoc set, byte := 0, stuck := e.stuck }
    else s) s

/-- Every entry of a set checked at a lookup (R443). -/
def sfCheckSet (s : State) (set detector : Nat) : State := sfCheckKeys s (sfWays set) detector

/-- The key of a host line's entry. -/
def sfFind (s : State) (h : Nat) : Option Nat := (sfWays (sfSet s h)).find? fun k => (sfAt s k).st != 0 && (sfAt s k).tag == h

/-- The state the filter records for a host line: 0 none, 1 S, 2 E. -/
def sfState (s : State) (h : Nat) : Nat := match sfFind s h with
  | some k => (sfAt s k).st
  | none => 0

/-- An entry written; the flip-mask sees it (R461, target 7). -/
def sfWrite (s : State) (k : Nat) (e : SfEnt) : State :=
  if flipMatch s (slotBank (setOf s (e.tag / 8))) (e.tag / 8) && flipTarget s == 7 && decide (flipBit s ≤ 45) then
    flipFired (sfPut s k { e with bad := true, injected := true })
  else sfPut s k e

/-- The entry of a host line removed. -/
def sfDrop (s : State) (h : Nat) : State := match sfFind s h with
  | some k => sfPut s k {}
  | none => s

/-! ## The tracker -/

/-- bi_limit as it acts (R250). -/
def biLimit (s : State) : Nat :=
  let v := csrFld s 0x620 6 0
  if v = 0 then 1 else min v 0x40

/-- Whether a snoop may be issued (R249, R280, R473). -/
def snoopRoom (s : State) : Bool := decide (s.coh.snoops.length < biLimit s) && !s.hd.fenced

/-- A snoop issued (R248, R270). -/
def snoopIssue (s : State) (x : Snoop) : State :=
  let s := { s with coh := { s.coh with snoops := s.coh.snoops ++ [{ x with issued := s.now }] } }
  ev (sendMsg s .hst { cls := 2, opcode := if x.data then 1 else 0, qos := x.qos, addr := x.host * 64, size := 64 * x.count - 1 })
    Ev.sfBi

/-- A tracker entry holds the host line (R249). -/
def snoopHolds (s : State) (h : Nat) : Bool := s.coh.snoops.any fun x => decide (x.host ≤ h ∧ h < x.host + x.count)

/-- A tracker entry holds a host line of the line. -/
def snoopHoldsLine (s : State) (line : Nat) : Bool := (List.range 8).any fun i => snoopHolds s (line * 8 + i)

/-- Whether a device-side access must snoop a host line (R259, R453): `inv` where it writes. -/
def snoopNeeds (s : State) (inv : Bool) (h : Nat) : Bool :=
  let st := sfState s h
  if st = 2 then true
  else if st = 1 then inv || s.coh.cautious.contains (sfSet s h)
  else s.coh.cautious.contains (sfSet s h)

/-- Blocks of host lines snooped together where bi_block allows and every one of them needs it (R250, R270). -/
def snoopBlocks (block : Bool) : Nat → List Nat → List (Nat × Nat)
  | 0, _ => []
  | _ + 1, [] => []
  | n + 1, h :: r =>
    if block && h % 4 == 0 && [h + 1, h + 2, h + 3].all r.contains then
      (h, 4) :: snoopBlocks block n (r.filter fun x => decide (h + 4 ≤ x))
    else if block && h % 2 == 0 && r.contains (h + 1) then
      (h, 2) :: snoopBlocks block n (r.filter fun x => decide (h + 2 ≤ x))
    else (h, 1) :: snoopBlocks block n r

/-- nru set on a hit (R247). -/
def sfHit (s : State) (h : Nat) : State := match sfFind s h with
  | some k => sfPut s k { sfAt s k with nru := true }
  | none => s

/-- The snoops a device-side access needs, issued while tracker entries are free; the second part says whether all were. An access that tries
`again` has been counted (R453). -/
def snoopFor (s : State) (hosts : List Nat) (inv dropWb : Bool) (qos cmd : Nat) (again : Bool) : State × Bool :=
  let s := (hosts.map (sfSet s)).eraseDups.foldl (fun s x => sfCheckSet s x 0) s
  let s := hosts.foldl sfHit s
  let need := hosts.filter fun h => snoopNeeds s inv h && !snoopHolds s h
  let s := if !again && need.any fun h => s.coh.cautious.contains (sfSet s h) && sfState s h != 2 then ev s Ev.sfCautious else s
  let r := (snoopBlocks (csrBit s 0x620 15) 16 need).foldl (fun (x : State × Bool) b =>
    if x.2 && snoopRoom x.1 then
      (snoopIssue x.1 { host := b.1, count := b.2, data := !inv, dropWb := dropWb, qos := qos, cmd := cmd }, true)
    else (x.1, false)) (s, true)
  r

/-- The host lines of a line whose sectors a byte mask touches. -/
def hostsOf (line : Nat) (m : LineMask) : List Nat :=
  ((List.range 8).filter fun k => (sectorsOf m).toNat.testBit k).map fun k => line * 8 + k

/-! ## Allocation (R247) -/

/-- The victim of a full set, if any: a host line whose snoop is outstanding is in the tracker already (R247, R248). -/
def sfVictim (s : State) (set : Nat) : State × Option Nat :=
  let ks := (sfWays set).filter fun k => !snoopHolds s (sfAt s k).tag
  let pick := fun (s : State) =>
    match ks.find? fun k => (sfAt s k).st == 1 && !(sfAt s k).nru with
    | some k => some k
    | none => ks.find? fun k => (sfAt s k).st == 2 && !(sfAt s k).nru
  match pick s with
  | some k => (s, some k)
  | none =>
    let s := (sfWays set).foldl (fun s k => sfPut s k { sfAt s k with nru := false }) s
    (s, pick s)

/-- The host line recorded in a state; false where the victim of a full set finds no tracker entry (R247, R249). -/
def sfRecord (s : State) (h st qos : Nat) : State × Bool :=
  match sfFind s h with
  | some k => (sfWrite s k { sfAt s k with tag := h, st := st, nru := true, bad := false, injected := false }, true)
  | none =>
    let set := sfSet s h
    match (sfWays set).find? fun k => (sfAt s k).st == 0 with
    | some k => (ev (sfWrite s k { tag := h, st := st, nru := true }) Ev.sfAlloc, true)
    | none =>
      if !snoopRoom s then (s, false)
      else
        match sfVictim s set with
        | (s, none) => (s, false)
        | (s, some k) =>
          let s := snoopIssue s { host := (sfAt s k).tag, count := 1, victim := true, qos := qos }
          (ev (sfWrite s k { tag := h, st := st, nru := true }) Ev.sfAlloc, true)

/-! ## Bias (R252 to R256) -/

/-- log2 of the bias page size (R255). -/
def pageShift (s : State) : Nat := let v := csrFld s 0x600 3 2; if v = 0 then 12 else if v = 1 then 16 else 21

/-- The page of an address counted from DRF_BIAS_LO, where the table covers it (R252). -/
def biasPage (s : State) (addr : Nat) : Option Nat :=
  let k := pageShift s
  let lo := csrFld s 0x610 51 0 >>> k
  let hi := csrFld s 0x618 51 0 >>> k
  let p := addr >>> k
  if csrBit s 0x600 0 ∧ lo ≤ p ∧ p < hi then some (p - lo) else none

/-- The address of a table word (R252, R256). -/
def biasAddr (s : State) (w : Nat) : Nat := csrFld s 0x608 51 7 * 128 + 8 * w

/-- A word moved to the most recently used place, or put there; a full set gives up its least recently used word (R254). -/
def biasPut (c : List (Nat × BitVec 64)) (w : Nat) (v : BitVec 64) : List (Nat × BitVec 64) :=
  let r := c.filter fun e => e.1 != w
  let inSet := r.filter fun e => e.1 % 512 == w % 512
  let r := if inSet.length ≥ 8 then match inSet with
      | e :: _ => r.filter fun x => x.1 != e.1
      | [] => r
    else r
  r ++ [(w, v)]

/-- A word of the table read by MEM unless it is already (R254). -/
def biasRead (s : State) (w cmd : Nat) : State :=
  let same := fun (f : RdFor) => match f with
    | .bias w' _ => w' == w
    | _ => false
  if (s.arr.memRds.any fun r => same r.for_) || (s.arr.memq.any fun q => match q with
      | .rd r => same r.for_
      | _ => false) then s
  else memRead (ev s Ev.biasMiss) (.bias w cmd) (biasAddr s w / 128 * 128) 1 0 (csrFld s 0x3080 27 24)

/-- A cached word whose parity fails is dropped, to be read again from the table (R452). -/
def biasCheck (s : State) (w : Nat) : State :=
  if s.coh.biasUpset.contains w && s.coh.biasCache.any fun e => e.1 == w then
    postError { s with coh := { s.coh with biasUpset := s.coh.biasUpset.filter (· != w), biasCache := s.coh.biasCache.filter fun e => e.1 != w } }
      St.lineRepaired { unit := 10, action := 1 }
  else s

/-- The bias of an address: DEVICE or not, or none while its word is read (R252, R254). -/
def biasOf (s : State) (addr : Nat) : State × Option Bool :=
  match biasPage s addr with
  | none => (s, some false)
  | some p =>
    let w := p / 64
    let s := biasCheck s w
    match s.coh.biasCache.find? fun e => e.1 == w with
    | some e =>
      ({ s with coh := { s.coh with biasCache := biasPut s.coh.biasCache w e.2 } }, some (e.2.toNat.testBit (p % 64)))
    | none =>
      if s.coh.biasBad.contains w then (s, some false)
      else (biasRead s w 0, none)

end Sys2Proof.Machine
end

