-- ==== Sys2Proof/Machine/Operands.lean ====
section
/-! DEFINITION. The operand forms of demand messages: which stored bytes a request names, in the plain, block and raw views, and
the data it carries (spec/03 R133 to R135, R613, R614; spec/06 R270). -/

namespace Sys2Proof.Machine

open Sys2Proof

/-- A source as it is kept beside bytes on their way to memory, with whether they came by HST (R290). -/
def srcKey (m : Msg) : Nat := m.src + (if m.port = .hst then 2 ^ 18 else 0)

/-- A SYSTEM FENCE waits for bytes of its source; one on HST for those of HST requests alone (R290). -/
def fenceCovers (m : Msg) (srcs : List Nat) : Bool :=
  srcs.contains (srcKey m) || (m.port != .hst && srcs.contains (m.src + 2 ^ 18))

/-- A request of the host: HST, from the slice's own chip (R243, R279). -/
def fromHost (s : State) (m : Msg) : Bool := m.port == .hst && m.src >>> 12 == s.pw.chip

/-- A peer request (R279). -/
def fromPeer (s : State) (m : Msg) : Bool := m.port == .hst && m.src >>> 12 != s.pw.chip

/-- Bytes a request covers. -/
def opBytes (o : Op) : Nat := if o.kind = .rdBlk then (if o.m.mod = 1 then 512 else 256) else o.m.size + 1

/-- The line a request names. -/
def opLine (o : Op) : Nat := o.m.addr / 512

/-- The block view: a request on BLK or CTL to a baled last (R133). -/
def blockView (attr : Nat) (m : Msg) : Bool := aBaled attr && m.port != .hst

/-- First block, and blocks covered, of a block-view access of `n` bytes in a format (R133). -/
def firstBlock (m : Msg) : Nat := fld m.addr 8 4
def blockCount (f : FpFmt) (n : Nat) : Nat := n / blockBytes f

/-- The checks of R134, in order. -/
def blockCheck (attr : Nat) (f : FpFmt) (m : Msg) (n : Nat) : Nat :=
  if m.addr % 16 ≠ 0 then St.badAddr
  else if n % blockBytes f ≠ 0 then St.badSize
  else if firstBlock m + blockCount f n > baleBlocks (aFmt attr) then St.badAddr
  else St.ok

/-- The stored bytes of `n` blocks from block `b`. -/
def blocksMask (fmt b n : Nat) : LineMask := (List.range n).foldl (fun a j => a ||| blockMask fmt (b + j)) 0

/-- The stored bytes a read needs. -/
def readMask (attr : Nat) (o : Op) : LineMask :=
  if blockView attr o.m then
    blocksMask (aFmt attr) (firstBlock o.m) (blockCount (baleReadFmt (aReadFmt attr)) (opBytes o))
  else spanMask (if o.kind = .rdBlk ∧ o.m.mod = 1 then 0 else o.m.addr % 512) (opBytes o)

/-- A full-line read (R124): every byte of the line, or every block of the bale. -/
def readFull (attr : Nat) (o : Op) : Bool :=
  if blockView attr o.m then
    firstBlock o.m == 0 && blockCount (baleReadFmt (aReadFmt attr)) (opBytes o) == baleBlocks (aFmt attr)
  else opBytes o == 512

/-- The data a read returns from a copy of the line. -/
def readData (attr : Nat) (o : Op) (d : LineData) : Bytes :=
  if blockView attr o.m then
    expandBlocks (aFmt attr) (aReadFmt attr) d (firstBlock o.m) (blockCount (baleReadFmt (aReadFmt attr)) (opBytes o))
  else lineBytes d (if o.kind = .rdBlk ∧ o.m.mod = 1 then 0 else o.m.addr % 512) (opBytes o)

/-- The beat of the first requested bytes (R111, R149). -/
def critBeat (attr : Nat) (m : Msg) : Nat :=
  if blockView attr m then baleBlockBytes (aFmt attr) * firstBlock m / 128 else (m.addr % 512) / 128

/-- The byte mask of a write, one bit per data byte: that of a WR_MASK or a BLK beat, else every byte. -/
def dataBits (o : Op) : Nat := o.m.mask % 2 ^ opBytes o

/-- The refusal of a block-view write, 0 where there is none (R134, R614). -/
def blockWriteCheck (attr : Nat) (o : Op) : Nat :=
  let f := baleWriteFmt (aWriteFmt attr)
  let c := blockCheck attr f o.m (opBytes o)
  if c ≠ 0 then c
  else if splitsBlock (blockBytes f) (dataBits o) (blockCount f (opBytes o)) then St.badOp
  else St.ok

/-- What randomises a block-view write (R139, R140); in an IDLE context gen_track acts as 0 (R315). -/
def baleKey (s : State) (attr : Nat) : BaleKey :=
  let c := ctxGet s (aCtx attr)
  { stochastic := aStoch attr, seed := c.seed.toNat, gen := if tracked s attr then c.gen.toNat else 0 }

/-- The line bytes a write stores and their mask, with the NaN and saturated blocks it counts (R137, R146). -/
def writeBytes (s : State) (attr : Nat) (o : Op) : Baled :=
  if blockView attr o.m then
    let f := baleWriteFmt (aWriteFmt attr)
    baleWrite (aFmt attr) (aWriteFmt attr) (baleKey s attr) (opLine o * 512) (dataBits o) (leNat o.m.data)
      (firstBlock o.m) (blockCount f (opBytes o))
  else
    let off := o.m.addr % 512
    ⟨BitVec.ofNat 4096 (leNat (o.m.data.take (opBytes o)) <<< (8 * off)), BitVec.ofNat 512 (dataBits o <<< off), 0, 0⟩

/-- Whether a block-view write covers every block of its bale (R147). -/
def everyBlock (attr : Nat) (o : Op) (m : LineMask) : Bool :=
  blockView attr o.m && m == blocksMask (aFmt attr) 0 (baleBlocks (aFmt attr))

/-- The op word's fields (R271, R154, R158). -/
def opAop (o : Op) : Nat := fld o.m.op 4 0
def opAfmt (o : Op) : Nat := fld o.m.op 7 5
def opRet (o : Op) : Bool := o.m.op.testBit 8

/-- Bytes of elements an atomic covers: the whole line for ATL (R155, R156). -/
def atomBytes (o : Op) : Nat := if opAop o = 0x18 then 512 else o.m.size + 1

/-- The elements of an atomic, their operands, its compare values and the elements its mask selects. -/
def atomElems (o : Op) (d : LineData) : List Nat × List Nat × List Nat × List Bool :=
  let w := aopWidth (opAop o) (opAfmt o)
  let n := 8 * atomBytes o / w
  let off := if opAop o = 0x18 then 0 else o.m.addr % 512
  let old := unpack w n (lineNat d off (atomBytes o))
  let v := leNat o.m.data
  let cas := opAop o = 0x0A
  let a := unpack w n (if cas then v >>> (8 * atomBytes o) else v)
  let c := if cas then unpack w n v else List.replicate n 0
  let sel := (List.range n).map fun i => opAop o != 0x18 || (o.m.mask >>> (i * (w / 8))).testBit 0
  (old, a, c, sel)

/-- The line after an atomic, the bytes it changes, and its invalid operations (R170 to R174). -/
def atomResult (o : Op) (d : LineData) : LineData × LineMask × Nat :=
  let w := aopWidth (opAop o) (opAfmt o)
  let (old, a, c, sel) := atomElems o d
  let (new, inv) := aopElems (opAop o) (opAfmt o) old a c sel
  let off := if opAop o = 0x18 then 0 else o.m.addr % 512
  let bits := ((sel.zipIdx).map fun x => if x.1 then onesAt (x.2 * (w / 8)) (w / 8) else 0).foldl (· + ·) 0
  let m := BitVec.ofNat 512 (bits <<< off)
  (mergeBytes d (BitVec.ofNat 4096 (pack w new <<< (8 * off))) m, m, inv)

/-- The checks of R154 and R157 on an atomic, in order, and after them the refusal of ret 1 of R158, whose place the spec leaves open
(DESIGN CHOICE, notes/assumptions 34); `window` where its line lies in a bound window. -/
def atomCheck (o : Op) (window : Bool) : Nat :=
  let aop := opAop o
  let eb := aopWidth aop (opAfmt o) / 8
  if !aopValid aop (opAfmt o) window then St.badOp
  else if (aop = 0x0A ∧ o.m.size + 1 > 128) ∨ (aop ≠ 0x18 ∧ (o.m.size + 1) % eb ≠ 0) then St.badSize
  else if aop ≠ 0x18 ∧ (o.m.addr % eb ≠ 0 ∨ o.m.addr / 256 ≠ (o.m.addr + o.m.size) / 256) then St.badAddr
  else if aop = 0x18 ∧ o.m.addr % 512 ≠ 0 then St.badAddr
  else if aop = 0x18 ∧ splitsElem eb o.m.mask (512 / eb) then St.badOp
  else if opRet o ∧ (aop = 0x18 ∨ (window ∧ aop = 0x10)) then St.badOp
  else St.ok

end Sys2Proof.Machine
end

