-- ==== Sys2Proof/Machine/Demand.lean ====
section
/-! DEFINITION. How a demand request is performed on its line: reads, writes, atomics, contributions and hints (spec/02 R87, R109 to
R112, R116, R120, R121; spec/04 R165 to R169, R186, R187; spec/06 R246, R259 to R264; spec/07 R284 to R286, R295; spec/08 R321,
R334, R344, R346). -/

namespace Sys2Proof.Machine

open Sys2Proof

/-- What an attempt to perform an operation gives: it is over, it waits, or it is to be tried again at once. -/
inductive Res where
  | done (s : State)
  | wait (s : State) (o : Op)
  | again (s : State) (o : Op)

/-! ## Answers -/

/-- A request to a paired last answered ST_DATA_LOST or ST_FENCED marks the present µs (R360). -/
def unavailNote (s : State) (o : Op) (status : Nat) : State :=
  if (status == St.dataLost || status == St.fenced) && aPaired (lastAt s (lastOf s o.m.addr)).attr then
    { s with hl := { s.hl with unavailNow := true } }
  else s

/-- A demand request leaves: it owes no answer any more, and its trace record is written (R534). -/
def opEnd (s : State) (o : Op) (status : Nat) : State := settle (traceEnd (stage (unavailNote s o status) o.n 9) o.n status) o.n

/-- A BLK read-return beat of a demand read (R275). -/
def blkBeat (s : State) (o : Op) (half status : Nat) (data : Bytes) : State :=
  sendCh s 16 (.blk { dst := o.m.src, status := status, tag := o.m.tag, half := half, qos := o.m.qos,
                      ctx := coverCtx s o.m.addr, data := data })

/-- The half bit of the one beat of a mod 0 RD_BLK: address bit 8, in the block view too, where R275 speaks of line halves only (DESIGN
CHOICE, notes/assumptions 34). -/
def loneHalf (o : Op) : Nat := if o.m.mod = 1 then 0 else fld o.m.addr 8 8

/-- A request answered without data, or with zeros where its answer carries data (R270, R272, R273). -/
def finish (s : State) (o : Op) (status : Nat) : State :=
  if o.cmd ≠ 0 then cmdLine s o status else
  if o.acked then opEnd s o status else
  match o.kind with
  | .wb => s
  | .rdBlk =>
    let s := blkBeat (stage s o.n 8) o (loneHalf o) status (List.replicate 256 0)
    opEnd (if o.m.mod = 1 ∧ status ≠ St.badOp ∧ status ≠ St.badSize ∧ status ≠ St.badAddr then
      blkBeat s o 1 status (List.replicate 256 0) else s) o status
  | .rd => opEnd (answer (stage s o.n 8) o.m 0 0 status 0 (List.replicate (o.m.size + 1) 0)) o status
  | .atomic =>
    if opRet o then opEnd (answer (stage s o.n 8) o.m 0 0 status 0 (List.replicate (o.m.size + 1) 0)) o status
    else opEnd (cmpl (stage s o.n 8) o.m status 0) o status
  | _ => opEnd (cmpl (stage s o.n 8) o.m status o.grant) o status

/-- ac in which the arithmetic path works for an access that takes or gives `n` bytes: it handles 256 of them in each (R152, R197, R536; DEDUCED,
notes/assumptions 16). -/
def arithUse (s : State) (o : Op) (n : Nat) : State := activity s o.m.qos (coverCtx s o.m.addr) 5 (ceilDiv n 256)

/-- A read answered from a copy of its line (R270, R275). -/
def readAnswer (s : State) (attr : Nat) (o : Op) (d : LineData) (status : Nat) : State :=
  let bs := readData attr o d
  let s := if blockView attr o.m then
    evN (arithUse s o (opBytes o)) Ev.baleReadBlock (blockCount (baleReadFmt (aReadFmt attr)) (opBytes o)) else s
  if o.kind = .rdBlk then
    let s := blkBeat (stage s o.n 8) o (loneHalf o) status (bs.take 256)
    opEnd (if o.m.mod = 1 then blkBeat s o 1 status (bs.drop 256) else s) o status
  else opEnd (answer (stage s o.n 8) o.m 0 0 status o.grant bs) o status

/-- A FALLOW_NOTE (R120, R405). -/
def fallowNote (s : State) (l : Line) (o : Op) : State :=
  match l.note with
  | none => s
  | some (n, seq, cmd) =>
    let r := ringGet s n
    let k := cplLog s n
    if (r.posted + 2 ^ 32 - r.cplCons) % 2 ^ 32 < 2 ^ k then
      let w0 := recordWord0 (phaseBit r.posted k) r.overflow 2 seq 0 n cmd
      let s := hstWrite s (cplBase s n + 32 * (r.posted % 2 ^ k)) (recordBytes w0 o.m.addr o.m.src (tsNs s)) 0
      ev (ringPut s n { r with posted := (r.posted + 1) % 2 ^ 32, overflow := false }) Ev.record
    else ev (ringPut s n { r with overflow := true }) Ev.fallowNoteDrop

/-! ## What makes every access wait -/

/-- A repair of the line or of a held copy of it, or a rollback, holds it (R356). -/
def lineRepairing (s : State) (line : Nat) : Bool :=
  (s.pr.repairs.any fun r => r.copy == some line) || match findLine s line with
  | some k => repairing s k
  | none => false

/-- A PAIRED_SYNC write of the line waits for the fellow (R346). -/
def lineSyncing (s : State) (line : Nat) : Bool := s.pr.sync.any fun e => opLine e.2 == line

/-- A push of a host line awaits its HINT_ACK (R264). -/
def pushWaits (s : State) (hosts : List Nat) : Bool := s.coh.pushes.any fun p => hosts.contains p.host

/-- A count made once for an operation. -/
def noteOnce (s : State) (o : Op) (b n : Nat) : State × Op :=
  if o.noted.testBit b then (s, o) else (ev s n, { o with noted := o.noted ||| 2 ^ b })

/-- Array activity of a tag lookup, and of the half-beats of the bytes `m` of a resident line that it reads (R536). -/
def lookupAct (s : State) (o : Op) (li : Nat) (m : LineMask) : State × Op :=
  if o.noted.testBit 4 then (s, o)
  else
    let c := aCtx (lastAt s li).attr
    let hb := match findLine s (opLine o) with
      | some k => if (lineAt s k).st = .fallow then 0 else halfBeatCount m
      | none => 0
    (stage (activity (activity s o.m.qos c 1 1) o.m.qos c 0 hb) o.n 1, { o with noted := o.noted ||| 16 })

/-! ## Fills -/

/-- The stored bytes that beat `h` of a whole-line RD_BLK needs: a half of the line, or of the blocks it asks for with their scales
(R149, R275, R613). -/
def halfMask (attr : Nat) (o : Op) (h : Nat) : LineMask :=
  if blockView attr o.m then
    let n := blockCount (baleReadFmt (aReadFmt attr)) (opBytes o) / 2
    blocksMask (aFmt attr) (firstBlock o.m + h * n) n
  else spanMask (256 * h) 256

/-- The MEM beats of a line that a byte mask touches. -/
def beatsNeeded (m : LineMask) : List Nat := (List.range 4).filter fun k => (m.toNat >>> (128 * k)) % 2 ^ 128 != 0

/-- Whether the beats received hold the bytes of a mask (R111). -/
def beatsIn (m : Mhe) (need : LineMask) : Bool := (beatsNeeded need).all fun k => m.got.toNat.testBit k

/-- The bytes of uncorrectable beats (R449). -/
def badBytes (m : Mhe) : LineMask := BitVec.ofNat 512 (((List.range 4).map fun k =>
  if m.bad.toNat.testBit k then onesAt (128 * k) 128 else 0).foldl (· + ·) 0)

/-- The line as a merged read sees it: the beats received, zeros for uncorrectable ones, and the writes merged before it. -/
def mergedData (m : Mhe) (r : Merged) : LineData := mergeBytes (mergeBytes m.data 0 (badBytes m)) r.wdata r.wmask

/-- The status of what a merged read returns of the bytes of a mask (R449). -/
def mergedStatus (m : Mhe) (r : Merged) (need : LineMask) : Nat :=
  if (need &&& badBytes m &&& ~~~r.wmask) ≠ 0 then St.dataError else St.ok

/-- A merged read leaves its entry. -/
def mheLeave (s : State) (line n : Nat) : State :=
  match mheOf s line with
  | some m => mheSet s { m with reads := m.reads.filter fun x => x.op.n != n }
  | none => s

/-- One beat of a whole-line RD_BLK driven from the beats received (R111, R275). -/
def halfAnswer (s : State) (attr : Nat) (m : Mhe) (r : Merged) (h : Nat) : State :=
  let s := if blockView attr r.op.m then
    evN s Ev.baleReadBlock (blockCount (baleReadFmt (aReadFmt attr)) (opBytes r.op) / 2) else s
  blkBeat (stage s r.op.n 8) r.op h (mergedStatus m r (halfMask attr r.op h))
    (((readData attr r.op (mergedData m r)).drop (256 * h)).take 256)

/-- A whole-line RD_BLK served as far as the beats received allow: each of its two beats as soon as its own bytes are in (R111, R149). -/
def serveHalves (s : State) (line attr : Nat) (m : Mhe) (r : Merged) : State :=
  let first := !r.half && beatsIn m (halfMask attr r.op 0)
  let s := if first then halfAnswer s attr m r 0 else s
  let r := if first then { r with half := true, status := mergedStatus m r (halfMask attr r.op 0) } else r
  if r.half && beatsIn m (halfMask attr r.op 1) then
    let st := mergedStatus m r (halfMask attr r.op 1)
    opEnd (halfAnswer (mheLeave s line r.op.n) attr m r 1) r.op (if r.status ≠ 0 then r.status else st)
  else match mheOf s line with
    | some x => mheSet s { x with reads := x.reads.map fun y => if y.op.n = r.op.n then r else y }
    | none => s

/-- A merged read that ends with a status: what it has not driven goes with zeros. -/
def serveFailed (s : State) (line : Nat) (r : Merged) (status : Nat) : State :=
  let s := mheLeave s line r.op.n
  if r.half then opEnd (blkBeat s r.op 1 status (List.replicate 256 0)) r.op status else finish s r.op status

/-- A merged read served by the beats so far, where they hold its bytes (R109, R111, R449); not where its last FAILED meanwhile (R447), nor in a
block view while the arithmetic island is suspect (R493). -/
def serveMerged (s : State) (line : Nat) (r : Merged) : State :=
  match mheOf s line with
  | none => s
  | some m =>
    let attr := (lastAt s (lastOfLine s line)).attr
    if r.op.kind ≠ .rd ∧ r.op.kind ≠ .rdBlk then s
    else if (lastAt s (lastOfLine s line)).cond ≠ 1 then
      (if beatsIn m (readMask attr r.op) then serveFailed s line r St.dataLost else s)
    else if s.hl.suspect ∧ blockView attr r.op.m then
      (if beatsIn m (readMask attr r.op) then serveFailed s line r St.dataError else s)
    else if r.op.kind = .rdBlk ∧ r.op.m.mod = 1 then serveHalves s line attr m r
    else if beatsIn m (readMask attr r.op) then
      readAnswer (mheLeave s line r.op.n) attr r.op (mergedData m r) (mergedStatus m r (readMask attr r.op))
    else s

/-- Requests merged into a miss-handling entry that the beats so far can serve are answered in order (R109, R111, R449). -/
def mheServe (s : State) (line : Nat) : State :=
  match mheOf s line with
  | none => s
  | some m => m.reads.foldl (fun s r => serveMerged s line r) s

/-- A read merged into the entry of its line (R109): the bytes the merging buffer and earlier merged writes hold go with it. -/
def mheMerge (s : State) (m : Mhe) (o : Op) : State :=
  let w := mergeMask s m.line ||| m.wmask
  let d := mergeBytes (mergeOverlay s m.line 0) m.wdata m.wmask
  let s := mheSet s { m with count := m.count + 1, reads := m.reads ++ [{ op := o, wdata := d, wmask := w }] }
  mheServe (traceFlag (ev s Ev.missMerge) o.n 1) m.line

/-- A request merged into the entry of its line that waits for the end of the fill, as does every request merged after it (R109, R168). -/
def mergeWait (s : State) (o : Op) (m : Mhe) : State × Op :=
  if !(o.cmd == 0 && o.kind != .wb && !o.plan) || o.noted.testBit 5 || o.noted.testBit 8 || m.kind == .memSide || m.kind == .bypass ||
      decide (m.count ≥ 8) then (s, o)
  else (traceFlag (ev (mheSet s { m with count := m.count + 1, ordered := true }) Ev.missMerge) o.n 1, { o with noted := o.noted ||| 256 })

/-- A request that has merged into an entry, or started the fill it waits for (R109). -/
def merged (o : Op) : Bool := o.noted.testBit 5 || o.noted.testBit 8

/-- A hit counted, unless the request was counted as it merged. -/
def hitEv (s : State) (o : Op) (n : Nat) : State := if o.noted.testBit 8 then s else traceFlag (ev s n) o.n 0

/-- Acknowledgement of a plain write once its bytes are merged, every later access waiting behind it (R285). -/
def mergeAck (s : State) (o : Op) : State × Op :=
  if o.acked || o.cmd ≠ 0 || o.kind == .wb || !merged o then (s, o) else (settle (cmpl (stage s o.n 8) o.m St.ok o.grant) o.n, { o with acked := true })

/-- A read started without allocation (R102, R116). -/
def readBypass (s : State) (o : Op) (attr : Nat) : State :=
  let line := opLine o
  let r : Merged := { op := o, wdata := mergeOverlay s line 0, wmask := mergeMask s line }
  mheStart (stage s o.n 2) { line := line, kind := .bypass, qos := o.m.qos, last := lastOfLine s line, crit := critBeat attr o.m,
                             count := 1, reads := [r] }

/-! ## Reads -/

/-- A demand request, neither SNP_WB data nor a part of a command or of a write instance. -/
def demandOp (o : Op) : Bool := o.cmd == 0 && o.kind != .wb && !o.plan

/-- A demand access that is no miss, seen by the stream trackers; one that waited for the fill it started was seen as a miss (R114). -/
def hitAccess (s : State) (o : Op) (li : Nat) : State :=
  if !demandOp o || o.noted.testBit 5 then s else streamAccess s (opLine o) li (portWho o.m.port) false

/-- A demand miss: what it prefetches (R101, R113, R114). -/
def missAccess (s : State) (o : Op) (li : Nat) : State :=
  if demandOp o then missPrefetch s (opLine o) li (portWho o.m.port) else s

/-- A demand miss that finds its class without room for an entry (R110, R524). -/
def mheWait (s : State) (o : Op) : State × Op :=
  if mheUsed s ≥ 128 then (s, o) else noteOnce s o 1 Ev.qosMheLimit

/-- A demand read on its line (R246 to R259 are past; R103, R109 to R114, R116, R120, R295). A request that merges into a fill in progress is
no miss of its own for R113 and R114 (DESIGN CHOICE, notes/assumptions 35). -/
def readLine (s : State) (o : Op) (attr li : Nat) : Res :=
  let line := opLine o
  let mask := readMask attr o
  let who := portWho o.m.port
  match mheOf s line with
  | some m =>
    if m.ordered then
      let (s, o) := mergeWait s o m
      .wait s o
    else if m.kind == .memSide || m.count ≥ 8 then .wait s o
    else .done (hitAccess (mheMerge s m o) o li)
  | none =>
    if !aCache attr then
      match evictOf s line with
      | some e => .done (readAnswer s attr o (mergeOverlay s line e.data) St.ok)
      | none =>
        if mheFree s o.m.qos then .done (readBypass s o attr)
        else
          let (s, o) := mheWait s o
          .wait s o
    else
      let s := closeFor s line
      match findLine s line with
      | some k =>
        let l := lineAt s k
        if l.st = .fallow then
          let s := fallowNote (ev (ev (linePut s k { l with age := 0 }) Ev.readHit) Ev.fallowRead) l o
          .done (readAnswer (hitAccess (traceFlag s o.n 0) o li) attr o (mergeOverlay s line 0) St.ok)
        else
          let (s, good) := checkLine s k mask (readFull attr o) 0
          if !good then .again s o
          else
            let l := lineAt s k
            let s := linePut s k { l with age := 0 }
            let s := hitAccess (hitEv s o Ev.readHit) o li
            .done (readAnswer s attr o (mergeOverlay s line l.data) St.ok)
      | none =>
        match evictOf s line with
        | some e =>
          .done (missAccess (readAnswer (ev s Ev.readMiss) attr o (mergeOverlay s line e.data) St.ok) o li)
        | none =>
          if !mheFree s o.m.qos then
            let (s, o) := mheWait s o
            .wait s o
          else
            match findWay s line attr who o.m.qos with
            | .busy s => .wait s o
            | .noWay s => .done (missAccess (traceFlag (readBypass (ev (ev s Ev.readMiss) Ev.allocBypass) o attr) o.n 5) o li)
            | .slot s k =>
              let r : Merged := { op := o, wdata := mergeOverlay s line 0, wmask := mergeMask s line }
              let s := setFilling s k line li o.m.qos 1
              let s := mheStart (stage (ev s Ev.readMiss) o.n 2)
                { line := line, slot := some k, qos := o.m.qos, last := li, crit := critBeat attr o.m, count := 1, reads := [r] }
              .done (missAccess s o li)

/-! ## Writes -/

/-- A DIRTY line written back and left CLEAN (R76): false where its record finds no room, or an earlier write-back of the line still waits
in an eviction buffer (R324). `cmd` waits for the write. -/
def cleanSlot (s : State) (k cmd : Nat) : State × Bool :=
  let (s, ok) := if (evictOf s (lineAt s k).addr).isSome then (s, false) else logFirst s k true
  if !ok then (s, false)
  else
    let l := lineAt s k
    let drop := aPaired (lastAt s l.last).attr && paired s
    let l' := { l with st := .clean, dirtyMask := if aTrack (lastAt s l.last).attr then l.dirtyMask else 0 }
    let s := lineUse (storeLine s k l' 0 false) l.addr 4
    (memWriteLine s { for_ := if cmd = 0 then .none else .cmd cmd, drop := drop, last := l.last } l.addr l.data
      (aQos (lastAt s l.last).attr), true)

/-- Paired lines of a set that are DIRTY, that a fill will leave DIRTY, or that are pinned (R343). -/
def pairedLines (s : State) (set : Nat) : List Nat :=
  (s.arr.lines.filter fun e =>
    let a := (lastAt s e.2.last).attr
    let fills := e.2.filling && s.arr.mhes.any fun m => m.line == e.2.addr && m.wmask != 0
    slotSet e.1 == set && aPaired a && ((e.2.st != .invalid && (e.2.st == .dirty || aKind a == 2)) || fills)).map (·.1)

/-- The slice keeps to the mirror limit: PAIRED, SOLO or in RESYNC (R342, R343). -/
def mirrorLimited (s : State) : Bool := decide (1 ≤ s.pr.st ∧ s.pr.st ≤ 3)

/-- Room under the mirror limit for one more DIRTY paired line in a set, made by a write-back if need be (R344). -/
def mirrorRoomIn (s : State) (set : Nat) : State × Bool :=
  let held := pairedLines s set
  if held.length < s.pr.fellowMw then (s, true)
  else
    let free := held.filter fun j => let x := lineAt s j
      x.st == .dirty && !x.locked && aKind (lastAt s x.last).attr != 2
    let top := (free.map fun j => (lineAt s j).age).foldl max 0
    match free.find? fun j => (lineAt s j).age == top with
    | none => (s, false)
    | some j =>
      let (s, good) := checkLine (closeLine s (lineAt s j).addr) j (BitVec.allOnes 512) true 3
      if !good then (s, false)
      else
        let (s, ok) := cleanSlot s j 0
        if ok then (ev s Ev.mirrorClean, decide (held.length - 1 < s.pr.fellowMw)) else (s, false)

/-- Room under the mirror limit for a write that may make a resident line DIRTY (R344). -/
def mirrorRoom (s : State) (k : Nat) : State × Bool :=
  let l := lineAt s k
  let a := (lastAt s l.last).attr
  if !aPaired a || !mirrorLimited s || l.st == .dirty || aKind a == 2 then (s, true) else mirrorRoomIn s (slotSet k)

/-- Room under the mirror limit for a write merging into a fill that no write has merged into yet (R344). -/
def mirrorRoomFill (s : State) (m : Mhe) (attr : Nat) : State × Bool :=
  if m.wmask != 0 || !aPaired attr || !mirrorLimited s then (s, true) else mirrorRoomIn s (setOf s m.line)

/-- Room under the mirror limit for a write that a miss will make DIRTY (R344). -/
def mirrorRoomMiss (s : State) (line attr who : Nat) : State × Bool :=
  if !aPaired attr || !mirrorLimited s || (eligible s attr who (setOf s line)).isEmpty then (s, true) else mirrorRoomIn s (setOf s line)

/-- A write that waits for the mirror limit (R344). -/
def lagWait (s : State) (o : Op) : Res :=
  let (s, o) := noteOnce s o 2 Ev.lagWait
  .wait s o

/-- The sectors a SYNC_WR carries for a write of the bytes `m` of a line: all where the line was CLEAN or INVALID (R346). -/
def syncMask (l : Line) (m : LineMask) : BitVec 8 := if l.st = .dirty ∨ l.st = .fallow then sectorsOf m else 0xFF

/-- The sectors that a SYNC_WR carries are read from the array, and checked (R124). -/
def syncRead (s : State) (k : Nat) (mask : BitVec 8) : State × Bool :=
  if mask = 0xFF then readWhole s k 4
  else if (lineAt s k).st = .fallow then (s, true)
  else checkLine s k (maskOfSectors mask) false 4

/-- A SYNC_WR for a write of the bytes `m` of a line whose copy becomes `d` (R346); what is sent was checked as it was read (R124). -/
def syncSend (s : State) (k : Nat) (o : Op) (d : LineData) (m : LineMask) : State :=
  let l := lineAt s k
  let mask := syncMask l m
  let t := s.pr.tag
  ttSend { s with pr := { s.pr with tag := (t + 1) % 4096, sync := s.pr.sync ++ [(t, o)] } }
    { kind := 0x01, mask := mask.toNat, tag := t, set := slotSet k, addr := l.addr * 512, data := sectorData d mask }

/-- Bytes of a line written by a demand request are seen by every later scheduled read (R303): lookups that do not see an earlier plan
write of the line yet see them over what they see. -/
def unveil (s : State) (line : Nat) (m : LineMask) : State :=
  { s with pl := { s.pl with veil := s.pl.veil.map fun v =>
      if v.line = line then { v with mask := v.mask &&& ~~~m, st := .dirty } else v } }

/-- The half-beats a write of the bytes `m` of a resident line writes, and for a narrow write of a line-CRC line reads before (R125, R536). -/
def writeUse (s : State) (o : Op) (k : Nat) (m : LineMask) : State :=
  let n := halfBeatCount m
  arrayUse s o.m.qos (opLine o) (if crcLine s (lineAt s k) && m != BitVec.allOnes 512 then 2 * n else n)

/-- A resident line, at its slot, given the bytes of a performed write (R76, R121, R146, R315, R350, R355). -/
def writeSlot (s : State) (k : Nat) (d : LineData) (m : LineMask) (dirty : Bool) : State :=
  let l := lineAt s k
  let was := s.gen.pendingRc.contains l.addr
  let l' := writeData (crcLine s l) l d m
  let l' := if dirty then markWrite s { l' with st := .dirty, note := none } (sectorsOf m) else l'
  let l' := { l' with age := 0, locked := if was then false else l'.locked }
  let s := { s with gen := { s.gen with pendingRc := s.gen.pendingRc.filter (· != l.addr) } }
  storeLine s k l' m false

/-- Counters of a baled write (R142). -/
def baleCount (s : State) (attr : Nat) (o : Op) (b : Baled) : State :=
  if blockView attr o.m then
    let f := baleWriteFmt (aWriteFmt attr)
    evN (evN (evN (arithUse s o (opBytes o)) Ev.baleWriteBlock (blockCount f (opBytes o))) Ev.baleNan b.nans) Ev.baleSat b.sats
  else s

/-- A write to memory without allocation, acknowledged at its completion (R102, R116, R285). -/
def writeMemory (s : State) (o : Op) (b : Baled) : State :=
  let line := opLine o
  match (runs b.mask.toNat 512 0 none).reverse with
  | [] => finish s o St.ok
  | last :: rest =>
    let w : MemWr := { for_ := .none, srcs := [srcKey o.m], n := o.n, last := lastOfLine s line }
    let s := rest.reverse.foldl (fun s r => memWrite s { w with addr := line * 512 + r.1 } (lineBytes b.data r.1 r.2) o.m.qos) s
    traceFlag (memWrite s { w with for_ := if o.kind = .wb then .none else .req o, addr := line * 512 + last.1 }
      (lineBytes b.data last.1 last.2) o.m.qos) o.n 5

/-- The half-beats a byte mask touches, whole (R125). -/
def halfBeats (m : LineMask) : LineMask :=
  BitVec.ofNat 512 (((List.range 4).map fun k =>
    if (m.toNat >>> (128 * k)) % 2 ^ 128 = 0 then 0 else onesAt (128 * k) 128).foldl (· + ·) 0)

/-- A write to a THROUGH last (R87 to R89, R112 to R114): `alloc` where a hint fetches the line (R261). -/
def writeThrough (s : State) (o : Op) (attr li : Nat) (b : Baled) (alloc : Bool) : Res :=
  let line := opLine o
  let who := portWho o.m.port
  let enter := fun (s : State) => mergeWrite s line b.data b.mask (srcKey o.m) o.n o.cmd li o.m.qos
  if !mergeRoom s line b.mask then .wait s o
  else match mheOf s line with
  | some m =>
    if m.kind == .memSide then .wait s o
    else if m.ordered then
      let (s, o) := mergeWait s o m
      .wait s o
    else
      let s := mheSet s { m with wdata := mergeBytes m.wdata b.data b.mask, wmask := m.wmask ||| b.mask }
      .done (finish (enter (hitAccess s o li)) o St.ok)
  | none =>
    let s := closeFor s line
    let fallow : Bool := match findLine s line with
      | some k => (lineAt s k).st == .fallow
      | none => false
    let s := if fallow then match findLine s line with
        | some k => lineDrop s k
        | none => s
      else s
    match findLine s line with
    | some k =>
      let l := lineAt s k
      let (s, good) := if crcLine s l && b.mask != BitVec.allOnes 512 then checkLine s k (halfBeats b.mask) false 4 else (s, true)
      if !good then .again s o
      else .done (finish (enter (hitAccess (writeSlot (writeUse (hitEv s o Ev.writeHit) o k b.mask) k b.data b.mask false) o li)) o St.ok)
    | none =>
      if (evictOf s line).isSome then .wait s o
      else if !alloc then .done (finish (enter (missAccess (ev s Ev.writeMiss) o li)) o St.ok)
      else if !mheFree s o.m.qos then
        let (s, o) := mheWait s o
        .wait s o
      else
        match findWay s line attr who o.m.qos with
        | .busy s => .wait s o
        | .noWay s => .done (finish (enter (missAccess (ev (ev s Ev.writeMiss) Ev.allocBypass) o li)) o St.ok)
        | .slot s k =>
          let s := setFilling (ev s Ev.writeMiss) k line li o.m.qos 0
          let s := stage s o.n 2
          let s := mheStart s { line := line, slot := some k, qos := o.m.qos, last := li, age := 0, crit := critBeat attr o.m,
                                count := 1, wdata := b.data, wmask := b.mask }
          .done (finish (enter (missAccess s o li)) o St.ok)

/-- A write merged into the fill of its line (R109, R344). -/
def writeMerge (s : State) (o : Op) (attr li : Nat) (b : Baled) (m : Mhe) : Res :=
  match mirrorRoomFill s m attr with
  | (s, false) => lagWait s o
  | (s, true) =>
    let s := mheSet s { m with count := m.count + 1, wdata := mergeBytes m.wdata b.data b.mask, wmask := m.wmask ||| b.mask,
                               marks := m.marks ||| b.mask, srcs := m.srcs ++ [srcKey o.m] }
    .done (finish (baleCount (hitAccess (traceFlag (ev s Ev.missMerge) o.n 1) o li) attr o b) o St.ok)

/-- A write that hits a line of a CACHE or PINNED last (R76, R103, R121, R124, R125, R321, R344, R346). -/
def writeHit (s : State) (o : Op) (attr li : Nat) (b : Baled) (k : Nat) : Res :=
  let line := opLine o
  let sync := syncLast s (lastAt s li) && !o.synced
  let (s, ok) := logFirst s k false
  if !ok then .wait s o
  else
    let (s, room) := mirrorRoom s k
    if !room then lagWait s o
    else
      let l := lineAt s k
      let narrow := crcLine s l && b.mask != BitVec.allOnes 512 && l.st != .fallow
      let s := if narrow then crcFieldCheck s k 4 else s
      let (s, good) := if narrow then checkLine s k (halfBeats b.mask) false 4 else (s, true)
      let (s, good) := if good && sync then syncRead s k (syncMask l b.mask) else (s, good)
      if !good then .again s o
      else if sync then .done (syncSend s k o (mergeBytes (lineAt s k).data b.data b.mask) b.mask)
      else
        let s := if narrow then ev s Ev.narrowRmw else s
        let s := unveil (writeSlot (writeUse (hitEv s o Ev.writeHit) o k b.mask) k b.data b.mask true) line b.mask
        let l := lineAt s k
        let s := linePut s k { l with addr := if aKind attr = 2 then line else l.addr }
        .done (finish (baleCount (hitAccess s o li) attr o b) o St.ok)

/-- A write of every byte of a line that misses, its way found: nothing is fetched (R76, R147). -/
def writeWhole (s : State) (o : Op) (attr li : Nat) (b : Baled) (age k : Nat) : State :=
  let l : Line := { addr := opLine o, last := li, qos := o.m.qos, age := age }
  let s := storeLine (arrayUse (ev s Ev.writeMiss) o.m.qos l.addr 4) k l 0 true
  let s := storeLine s k { markWrite s (writeData (crcLine s l) l b.data (BitVec.allOnes 512)) 0xFF with st := .dirty }
    (BitVec.allOnes 512) false
  finish (baleCount (missAccess s o li) attr o b) o St.ok

/-- A write that misses in a CACHE last (R76, R102, R109 to R114, R344, R346). -/
def writeMiss (s : State) (o : Op) (attr li : Nat) (b : Baled) (age : Nat) : Res :=
  let line := opLine o
  let who := portWho o.m.port
  let sync := syncLast s (lastAt s li) && !o.synced
  let whole := decide (b.mask = BitVec.allOnes 512 ∨ everyBlock attr o b.mask)
  if !whole && !mheFree s o.m.qos then
    let (s, o) := mheWait s o
    .wait s o
  else match mirrorRoomMiss s line attr who with
  | (s, false) => lagWait s o
  | (s, true) =>
    match findWay s line attr who o.m.qos with
    | .busy s => .wait s o
    | .noWay s =>
      .done (missAccess (baleCount (writeMemory (ev (ev s Ev.writeMiss) Ev.allocBypass) o b) attr o b) o li)
    | .slot s k =>
      if whole then .done (writeWhole s o attr li b age k)
      else
        let s := setFilling (ev s Ev.writeMiss) k line li o.m.qos age
        let m : Mhe := { line := line, slot := some k, qos := o.m.qos, last := li, age := age, crit := critBeat attr o.m, count := 1 }
        if sync then .wait (missAccess (mheStart (stage s o.n 2) { m with ordered := true }) o li) { o with noted := o.noted ||| 32 }
        else
          let s := mheStart (stage s o.n 2) { m with wdata := b.data, wmask := b.mask, srcs := [srcKey o.m] }
          .done (finish (baleCount (missAccess s o li) attr o b) o St.ok)

/-- A write to a CACHE or PINNED last (R76, R111, R112, R121, R285, R321, R344, R346). -/
def writeBack (s : State) (o : Op) (attr li : Nat) (b : Baled) (age : Nat) : Res :=
  let line := opLine o
  let sync := syncLast s (lastAt s li) && !o.synced
  match mheOf s line with
  | some m =>
    if m.kind == .memSide || m.kind == .bypass then .wait s o
    else if m.ordered || sync || o.synced then
      let (s, o) := mergeWait s o m
      let (s, o) := if syncLast s (lastAt s li) then (s, o) else mergeAck s o
      .wait s o
    else if m.count ≥ 8 then .wait s o
    else writeMerge s o attr li b m
  | none =>
    let s := closeFor s line
    match findLine s line with
    | some k => writeHit s o attr li b k
    | none => if (evictOf s line).isSome then .wait s o else writeMiss s o attr li b age

/-- A write of any kind on its line. -/
def writeLine (s : State) (o : Op) (attr li : Nat) : Res :=
  let b := writeBytes s attr o
  if b.mask = 0 then .done (finish s o St.ok)
  else if !aCache attr then
    -- bytes of earlier requests leave the merging buffer first (R168)
    if !(mergesOf s (opLine o)).isEmpty then .wait (mergeDrainWhere s fun m => m.sector / 8 == opLine o) o
    else if (mheOf s (opLine o)).isSome || (evictOf s (opLine o)).isSome then .wait s o
    else .done (baleCount (writeMemory s o b) attr o b)
  else if aKind attr = 1 then writeThrough s o attr li b (o.kind == .hint)
  else writeBack s o attr li b (if o.kind = .hint then 0 else 1)

/-! ## Atomics -/

/-- Acknowledgement of an accepted atomic with ret 0 (R169). -/
def atomAck (s : State) (o : Op) : State × Op :=
  if o.acked || opRet o then (s, o) else (settle (cmpl (stage s o.n 8) o.m St.ok 0) o.n, { o with acked := true })

/-- Acknowledgement at the miss-handling entry; in a PAIRED_SYNC last it comes once the fellow holds the write (R285, R346). -/
def atomAckEntry (s : State) (o : Op) (li : Nat) : State × Op :=
  if syncLast s (lastAt s li) then (s, o) else atomAck s o

/-- An atomic performed: its old values returned where ret is 1, its invalid operations counted (R158, R173). -/
def atomDone (s : State) (o : Op) (d : LineData) (inv : Nat) : State :=
  let s := evN (stage (ev s Ev.atomic) o.n 10) Ev.atomicFpInvalid inv
  if opRet o then
    let off := o.m.addr % 512
    opEnd (answer (stage s o.n 8) o.m 0 0 St.ok 0 (lineBytes d off (o.m.size + 1))) o St.ok
  else
    let (s, o) := atomAck s o
    opEnd s o St.ok

/-- An atomic on an open line, its old values those of `old` (R161, R168). -/
def atomOpen (s : State) (o : Op) (x : OpenLine) (old : LineData) : State :=
  let (d, m, inv) := atomResult o old
  let l := lineAt s x.slot
  let s := openSet s { x with data := mergeBytes x.data d m, dirty := x.dirty ||| sectorsOf m, used := s.now }
  let l' := markWrite s { l with note := none, st := .dirty } (sectorsOf m)
  let s := linePut s x.slot { l' with locked := !s.gen.pendingRc.contains l.addr && l'.locked }
  let s := { s with gen := { s.gen with pendingRc := s.gen.pendingRc.filter (· != l.addr) } }
  let s := if o.plan then s else unveil s l.addr m
  atomDone (activity s o.m.qos (aCtx (lastAt s l.last).attr) 5 1) o old inv

/-- A contribution to a bound window (R186, R187, R192, R194; the flip-mask of R461 at target 6). One whose mask selects no element adds
the digest of a header with elem_count 0 (DESIGN CHOICE, notes/assumptions 34). -/
def contribute (s : State) (w : Window) (afmt j : Nat) (sel : List Bool) (vals : List Nat) (data : Bytes) (first count : Nat) : State :=
  let hdr := contribHeader first count afmt
  let w' := { w with digest := w.digest + crc64 (hdr ++ data) }
  let s := { s with ari := { s.ari with windows := s.ari.windows.map fun x => if x = w then w' else x } }
  let s := ev s Ev.sheafContrib
  let r := (List.range vals.length).foldl (fun (x : State × Bool) i =>
    if sel.getD i false && !x.2 then
      let k := w.first + j + i
      let h := SMap.get Sheaf.zero x.1.ari.sheaves k
      if h.bad then (x.1, true)
      else
        let h := h.add ((afmtFp afmt).decode (vals.getD i 0))
        let f := flipMatch x.1 0 (w.base / 512) && flipTarget x.1 == 6 && decide (flipBit x.1 ≤ 319)
        let h := if f then { h with acc := h.acc ^^^ BitVec.ofNat 320 (2 ^ flipBit x.1), bad := true, injected := true } else h
        let s := { x.1 with ari := { x.1.ari with sheaves := SMap.put Sheaf.zero x.1.ari.sheaves k h } }
        (if f then flipFired s else s, false)
    else x) (s, false)
  r.1

/-- A window lost (R192, R452). -/
def windowLost (s : State) (w : Window) (k detector : Nat) : State :=
  if w.lost then s
  else
    let s := { s with ari := { s.ari with windows := s.ari.windows.map fun x => if x.base = w.base then { x with lost := true } else x } }
    let h := SMap.get Sheaf.zero s.ari.sheaves k
    postError s St.dataLost { unit := 5, last := w.last, ctx := aCtx (lastAt s w.last).attr, action := 7,
                              history := if h.injected then 3 else 0, detector := detector, detail := k
                              loc := if h.bad then sheafLoc k else 0, stuck := h.stuck }

/-- The first sheaf of a window whose parity fails. -/
def badSheaf (s : State) (w : Window) : Option Nat :=
  (s.ari.sheaves.find? fun e => decide (w.first ≤ e.1 ∧ e.1 < w.first + w.count) && e.2.bad).map (·.1)

/-- The numbers of the elements a list selects. -/
def selected (sel : List Bool) : List Nat := ((sel.zipIdx).filter (·.1)).map fun x => x.2

/-- Whether the selected elements of a contribution at an address lie in the window, the address at a result element (R187). -/
def contribFits (w : Window) (addr : Nat) (sel : List Bool) : Bool :=
  let rb := (sheafReadFmt w.rf).width / 8
  decide ((addr - w.base) % rb = 0 ∧ (addr - w.base) / rb + ((selected sel).map (· + 1)).foldl max 0 ≤ w.n)

/-- A contribution of `n` elements in afmt at an address, those `sel` selects (R186, R187): its status. -/
def contribAt (s : State) (w : Window) (addr afmt n : Nat) (sel : List Bool) (bytes : Bytes) (qos : Nat) : State × Nat :=
  let eb := aopWidth 0x18 afmt / 8
  let rb := (sheafReadFmt w.rf).width / 8
  let j := (addr - w.base) / rb
  let idx := selected sel
  if !contribFits w addr sel then (s, St.badAddr)
  else
    let vals := unpack (8 * eb) n (leNat bytes)
    let data := (idx.map fun i => slice bytes (i * eb) eb).flatten
    let s := if w.lost then s else
      match badSheaf s w with
      | some k => windowLost s w k 0
      | none => contribute s w afmt j sel vals data (j + idx.headD 0) idx.length
    let c := aCtx (lastAt s w.last).attr
    (activity (activity s qos c 7 idx.length) qos c 5 (ceilDiv idx.length 64), St.ok)

/-- The elements an atomic selects: all, or those of an ATL its mask names. -/
def atomSel (o : Op) : List Bool :=
  let eb := aopWidth (opAop o) (opAfmt o) / 8
  (List.range (atomBytes o / eb)).map fun i => opAop o != 0x18 || (o.m.mask >>> (i * eb)).testBit 0

/-- The refusal of an atomic on a line of a bound window, 0 where it contributes (R165, R187): ST_UNSUPPORTED stands before the checks of
the address (DESIGN CHOICE, notes/assumptions 34). -/
def windowCheck (o : Op) (w : Window) : Nat :=
  if opAop o ≠ 0x10 ∧ opAop o ≠ 0x18 then St.sheafBound
  else if opAop o = 0x10 ∧ opAfmt o = 3 then St.unsupported
  else if contribFits w o.m.addr (atomSel o) then St.ok
  else St.badAddr

/-- What refuses an atomic before anything is done for it, 0 where nothing does: R154, the first row of R165, R157, R158, the second row
of R165. The place of ST_BAD_ATTR among them is a DESIGN CHOICE, notes/assumptions 34. -/
def atomRefusal (s : State) (attr : Nat) (o : Op) : Nat :=
  let w := windowOf s (opLine o)
  if !aopValid (opAop o) (opAfmt o) w.isSome then St.badOp
  else if aBaled attr then St.badAttr
  else if atomCheck o w.isSome ≠ 0 then atomCheck o w.isSome
  else match w with
  | some w => windowCheck o w
  | none => St.ok

/-- A FADD or ATL to a bound window (R186, R187). -/
def atomWindow (s : State) (o : Op) (w : Window) : State :=
  let afmt := opAfmt o
  if windowCheck o w ≠ 0 then finish s o (windowCheck o w)
  else
    match contribAt s w o.m.addr afmt (atomBytes o / (aopWidth (opAop o) afmt / 8)) (atomSel o) o.m.data o.m.qos with
    | (s, 0) => opEnd (cmpl (stage s o.n 8) o.m St.ok 0) o St.ok
    | (s, st) => finish s o st

/-- A line read for an atomic without allocation: on the memory-side path (R166), or for a THROUGH last (R165); bytes of a line that is
not THROUGH leave the merging buffer first. -/
def atomRead (s : State) (o : Op) (li : Nat) (through : Bool) : Res :=
  let line := opLine o
  if !through && !(mergesOf s line).isEmpty then .wait (mergeDrainWhere s fun m => m.sector / 8 == line) o
  else if !mheFree s o.m.qos then
    let (s, o) := mheWait s o
    .wait s o
  else
    let (s, o) := atomAckEntry s o li
    .done (mheStart (stage (traceFlag s o.n 3) o.n 2)
      { line := line, kind := .memSide, qos := o.m.qos, last := li, count := 1, reads := [{ op := o }] })

/-- The memory-side path starts (R166). -/
def atomMemSide (s : State) (o : Op) : Res :=
  match atomRead s o (lastOfLine s (opLine o)) false with
  | .done s => .done (ev s Ev.atomicMemPath)
  | r => r

/-- The line of an atomic without allocation is in: the atomic is performed on it, and the line written back (R166), or, of a THROUGH last,
the result entered into the merging buffer once it has room (R165, R169). -/
def memSideEnd (s : State) (m : Mhe) : State :=
  match m.reads with
  | [] => mheDel s m.line
  | r :: _ =>
    let l := lastAt s (lastOfLine s m.line)
    if m.bad ≠ 0 then finish (mheDel s m.line) r.op St.dataError
    else if l.cond ≠ 1 then finish (mheDel s m.line) r.op St.dataLost
    else if s.hl.suspect then finish (mheDel s m.line) r.op St.dataError
    else
      let old := mergeOverlay s m.line m.data
      let (d, mask, inv) := atomResult r.op old
      let done := fun (s : State) => atomDone (activity s r.op.m.qos (coverCtx s r.op.m.addr) 5 1) r.op old inv
      if aKind l.attr = 1 then
        if mergeRoom s m.line mask then
          done (mergeWrite (mheDel s m.line) m.line d mask (srcKey r.op.m) r.op.n r.op.cmd m.last r.op.m.qos)
        else s
      else
        let s := mheSet (done s) { m with reads := [] }
        memWriteLine s { for_ := .memSide m.line, srcs := [srcKey r.op.m], n := r.op.n, last := m.last } m.line d m.qos

/-- Atomics whose line is in and that waited for room in the merging buffer are tried again. -/
def memSidePump (s : State) : State :=
  (s.arr.mhes.filter fun m => m.kind == .memSide && m.got == 15 && !m.reads.isEmpty).foldl (fun s m => memSideEnd s m) s

/-- An atomic of a THROUGH last on a resident line: the result goes to the line and to the merging buffer (R165). -/
def atomThrough (s : State) (o : Op) (k li : Nat) : Res :=
  let line := opLine o
  let l := lineAt s k
  let (s, good) := if l.st = .fallow then (s, true) else checkLine s k (BitVec.allOnes 512) true 7
  if !good then .again s o
  else
    let l := lineAt s k
    let old := mergeOverlay s line (if l.st = .fallow then 0 else l.data)
    let (d, m, inv) := atomResult o old
    if !mergeRoom s line m then .wait s o
    else
      let s := if l.st = .fallow then lineDrop s k else writeSlot (writeUse s o k m) k d m false
      .done (atomDone (mergeWrite (hitAccess s o li) line d m (srcKey o.m) o.n o.cmd li o.m.qos) o old inv)

/-- An atomic that misses: filled into a way, or read without allocation where none is eligible (R102, R165, R166). -/
def atomMiss (s : State) (o : Op) (attr li : Nat) : Res :=
  let line := opLine o
  let who := portWho o.m.port
  let through := aKind attr == 1
  if (evictOf s line).isSome then .wait s o
  else if !mheFree s o.m.qos then
    let (s, o) := mheWait s o
    .wait s o
  else match if through then (s, true) else mirrorRoomMiss s line attr who with
  | (s, false) => lagWait s o
  | (s, true) =>
    match findWay s line attr who o.m.qos with
    | .busy s => .wait s o
    | .noWay s =>
      (match if through then atomRead s o li true else atomMemSide s o with
      | .done s => .done (missAccess s o li)
      | r => r)
    | .slot s k =>
      let (s, o) := atomAckEntry s o li
      let s := setFilling s k line li o.m.qos 1
      let s := stage s o.n 2
      let s := mheStart s { line := line, slot := some k, qos := o.m.qos, last := li, crit := critBeat attr o.m, count := 1,
                            ordered := true }
      .wait (missAccess s o li) { o with noted := o.noted ||| 32 }

/-- An atomic on an open line, logged and mirrored first where its last asks for it (R161, R168, R321, R346). -/
def atomEntry (s : State) (o : Op) (li : Nat) (x : OpenLine) : Res :=
  let (s, ok) := logFirst s x.slot false
  if !ok then .wait s o
  else if syncLast s (lastAt s li) && !o.synced then
    let (d, m, _) := atomResult o x.data
    .done (syncSend s x.slot o d m)
  else .done (atomOpen (hitAccess s o li) o x x.data)

/-- An atomic on a resident line of a CACHE or PINNED last: the line is opened (R161, R162, R165, R321, R344, R346). -/
def atomHit (s : State) (o : Op) (attr li k : Nat) : Res :=
  let line := opLine o
  let l := lineAt s k
  let (s, good) := if l.st = .fallow then (s, true) else checkLine s k (BitVec.allOnes 512) true 7
  if !good then .again s o
  else
    let (s, ok) := logFirst s k false
    if !ok then .wait s o
    else
      let (s, room) := mirrorRoom s k
      if !room then lagWait s o
      else if syncLast s (lastAt s li) && !o.synced then
        let (d, m, _) := atomResult o (lineAt s k).data
        .done (syncSend s k o d m)
      else
        let s := openLine (if l.st = .fallow then s else arrayUse s o.m.qos line 4) k
        match openOf s (lineAt s k).addr with
        | some x =>
          let s := linePut s k { lineAt s k with addr := if aKind attr = 2 then line else (lineAt s k).addr }
          let x := { x with line := (lineAt s k).addr }
          let s := { s with arr := { s.arr with opens := s.arr.opens.map fun y => if y.slot = k then x else y } }
          .done (atomOpen (hitAccess s o li) o x x.data)
        | none => .wait s o

/-- An atomic on its line, by the rows of R165 in their order; the refusals of the first two rows stand before every wait (atomRefusal). In a
disabled THROUGH last a resident line is left as it is (R116; DESIGN CHOICE, notes/assumptions 35). -/
def atomLine (s : State) (o : Op) (attr li : Nat) : Res :=
  let line := opLine o
  let through := aKind attr == 1
  match windowOf s line with
  | some w => .done (atomWindow s o w)
  | none =>
    if !aCache attr then
      if (mheOf s line).isSome || (evictOf s line).isSome then .wait s o
      else if through then atomRead s o li true
      else atomMemSide s o
    else match openOf s line with
    | some x => if through then .again (closeLine s line) o else atomEntry s o li x
    | none =>
      match mheOf s line with
      | some m =>
        let (s, o) := mergeWait s o m
        let (s, o) := if merged o then atomAckEntry s o li else (s, o)
        .wait s o
      | none => match findLine s line with
      | some k => if through then atomThrough s o k li else atomHit s o attr li k
      | none => atomMiss s o attr li

/-! ## What a write instance leaves for later (R217) -/

/-- The writes of a line that a lookup at t + 6 of the next instance does not see (R222). -/
def veils (s : State) (line : Nat) : List Veil := s.pl.veil.filter fun v => v.line == line && decide (s.pl.fc + 6 < v.due)

/-- The bytes of a line, and its state, as that lookup sees them (R222): the latest write of a byte that it sees, else what stood there before
the first that it does not. -/
def seenData (s : State) (line : Nat) (d : LineData) : LineData :=
  ((s.pl.veil.filter fun v => v.line == line).foldr (fun v (x : LineData × LineMask) =>
    if s.pl.fc + 6 < v.due then (mergeBytes x.1 v.old (v.mask &&& ~~~x.2), x.2) else (x.1, x.2 ||| v.mask)) (d, 0)).1

def seenState (s : State) (line : Nat) (st : LState) : LState := ((veils s line).head?.map (·.st)).getD st

/-- Bytes of a write instance put on a resident line (R217, R322, R344, R347): its status. Its age becomes 0, as on a demand hit (DESIGN
CHOICE, notes/assumptions 35). -/
def planStore (s : State) (k line li : Nat) (d : LineData) (m : LineMask) : State × Nat :=
  let attr := (lastAt s li).attr
  if slotRepairing s k then (s, St.dataError)
  else
    let l := lineAt s k
    let narrow := crcLine s l && m != BitVec.allOnes 512 && l.st != .fallow
    let (s, good) := if narrow then checkLine (ev s Ev.narrowRmw) k (halfBeats m) false 1 else (s, true)
    if !good then (s, St.dataError)
    else
      let l := lineAt s k
      let s := if isPending s l then carryLine s k l else s
      let s := writeSlot s k d m true
      let l := lineAt s k
      let s := linePut s k { l with addr := if aKind attr = 2 then line else l.addr }
      (if syncLast s (lastAt s li) then unprotect s li else s, St.ok)

/-- The sum of a BLK_ADD on a resident line (R208, R217): its status. -/
def planSum (s : State) (o : Op) (k li : Nat) : State × Nat :=
  if s.hl.suspect || slotRepairing s k then (s, St.dataError)
  else
    let l := lineAt s k
    let (s, good) := if l.st = .fallow then (s, true) else checkLine s k (spanMask 0 512) true 1
    if !good then (s, St.dataError)
    else
      let (d, m, inv) := atomResult o (seenData s (opLine o) (lineAt s k).data)
      let (s, st) := planStore s k (opLine o) li d m
      (if st = 0 then evN (ev s Ev.atomic) Ev.atomicFpInvalid inv else s, st)

/-- Room under the mirror limit for a write instance on its line (R344). -/
def planRoom (s : State) (line attr : Nat) (alloc : Bool) : State × Bool :=
  match mheOf s line with
  | some x => mirrorRoomFill s x attr
  | none => match findLine s line with
    | some k => mirrorRoom s k
    | none => if alloc then mirrorRoomMiss s line attr 0 else (s, true)

/-- An absent line allocated for a write instance, every byte zero (R217); none where no way is eligible, and false where it must
wait. -/
def planAlloc (s : State) (line li qos : Nat) : State × Option (Option Nat) :=
  let attr := (lastAt s li).attr
  match findWay s line attr 0 qos with
  | .busy s => (s, some none)
  | .noWay s => (ev s Ev.allocBypass, none)
  | .slot s k =>
    let l : Line := { addr := line, last := li, qos := qos, age := 1, st := .clean }
    let s := storeLine (arrayUse s qos line 4) k l 0 true
    let s := storeLine s k { markWrite s (writeData (crcLine s l) l 0 (BitVec.allOnes 512)) 0xFF with st := .dirty } (BitVec.allOnes 512) false
    (s, some (some k))

/-- Bytes of a write instance merged into the fill of their line (R217, R347). -/
def planMerge (s : State) (x : Mhe) (li : Nat) (d : LineData) (m : LineMask) : State :=
  let s := mheSet s { x with wdata := mergeBytes x.wdata d m, wmask := x.wmask ||| m, marks := x.marks ||| m, planned := true }
  if syncLast s (lastAt s li) then unprotect s li else s

/-- Bytes `m` of a line in its slot about to be written by an instance at t: lookups before `t + d` still find it in the state `st` with the
bytes `old` (R222), in paced issue too (DESIGN CHOICE, notes/assumptions 8). A write seen already stays as long as an earlier one of its line
is not. -/
def veil (s : State) (line d : Nat) (st : LState) (old : LineData) (m : LineMask) : State :=
  let live := s.pl.veil.foldl (fun vs v => if decide (s.pl.fc < v.due) || vs.any (fun x => x.line == v.line) then vs ++ [v] else vs) []
  { s with pl := { s.pl with veil := live ++ [{ line := line, due := s.pl.fc + d, st := st, old := old, mask := m }] } }

/-- A scheduled sum on a line open in the atomic line buffer, seen by lookups from t + 32 on (R217, R222, R322, R347). -/
def planOpen (s : State) (o : Op) (x : OpenLine) (li : Nat) : State :=
  let l := lineAt s x.slot
  let old := seenData s l.addr x.data
  let s := veil s l.addr 32 l.st x.data (atomResult o old).2.1
  let s := atomOpen (if isPending s l then carryLine s x.slot l else s) o x old
  if syncLast s (lastAt s li) then unprotect s li else s

/-- A write instance sent to memory after it had been reported as performed: it counts as a miss of the pass in progress (R217, R233).
DEDUCED, notes/assumptions 8. -/
def planMissLate (s : State) : State :=
  let s := ev s Ev.planMiss
  if s.pl.st = 2 then { s with pl := { s.pl with acc := { s.pl.acc with misses := s.pl.acc.misses + 1 } } } else s

/-- The fill of a STAGE_IN instance (R100, R104 to R106, R112, R218): ins_age in the op word, the pass in `o.idx`; it waits where its victim
finds no eviction buffer. -/
def stageFill (s : State) (o : Op) (attr li : Nat) : Res :=
  let line := opLine o
  let resident := match findLine s line with
    | some k => (lineAt s k).st != .fallow
    | none => false
  if !aCache attr then .done (stageDrop s)
  else if resident || (mheOf s line).isSome then .done s
  else if (evictOf s line).isSome then .wait s o
  else match refillWay s line attr 0 o.m.qos with
  | .busy s => .wait s o
  | .noWay s => .done (stageDrop (ev s Ev.allocBypass))
  | .slot s k =>
    let s := setFilling s k line li o.m.qos o.m.op
    .done (mheStart s { line := line, kind := .stage, slot := some k, qos := o.m.qos, last := li, age := o.m.op, pass := o.idx })

/-- What is left of an instance, on its line once nothing holds it: a stage-in, a sum, or bytes of the line in `m.data` under `m.mask`, with
alloc in bit 0 of the op word. -/
def planLeft (s : State) (o : Op) (attr li : Nat) : Res :=
  let line := opLine o
  if o.kind = .prefetch then stageFill s o attr li
  else if s.hl.suspect ∧ o.kind = .atomic then .done s
  else if (mheOf s line).isSome || (evictOf s line).isSome then .wait s o
  else if o.kind = .atomic then
    match openOf s line with
    | some x => .done (planOpen s o x li)
    | none =>
      match if aCache attr then findLine s line else none with
      | some k =>
        match planRoom s line attr false with
        | (s, false) => .wait s o
        | (s, true) => .done (planSum s o k li).1
      | none => atomMemSide s o
  else
    let d := lineOf o.m.data
    let m : LineMask := BitVec.ofNat 512 o.m.mask
    let memory := fun (s : State) => memWriteMasked s { for_ := .none, last := li } line d m o.m.qos
    if !aCache attr then .done (memory s)
    else
      let s := closeFor s line
      match planRoom s line attr (o.m.op.testBit 0) with
      | (s, false) => .wait s o
      | (s, true) =>
      match findLine s line with
      | some k => .done (planStore s k line li d m).1
      | none =>
        if !o.m.op.testBit 0 then .done (memory s)
        else match planAlloc s line li o.m.qos with
        | (s, none) => .done (memory (planMissLate s))
        | (s, some none) => .wait s o
        | (s, some (some k)) => .done (planStore s k line li d m).1

end Sys2Proof.Machine
end

