-- ==== Sys2Proof/Machine/Ranges.lean ====
section
/-! DEFINITION. The parts of commands that act on one line, and the book-keeping of commands in flight (spec/11 R424, R431 to R433,
spec/02 R107, R108, R117, R118, spec/04 R195, R196, spec/06 R259, spec/08 R319, R332, R351, R355, spec/16 R576). -/

namespace Sys2Proof.Machine

open Sys2Proof

/-! ## Making lines FALLOW -/

/-- A line made FALLOW by a discard (R76, R108, R120, R332, R355). -/
def fallowSlot (s : State) (k : Nat) (note : Option (Nat × Nat × Nat)) : State :=
  let l := lineAt s k
  let a := (lastAt s l.last).attr
  let was := s.gen.pendingRc.contains l.addr
  let l' : Line := { l with st := .fallow, data := 0, badPar := 0, crcBad := false, crc := lineCrc 0, note := note,
                            locked := l.locked && aDur a == 2 && !was }
  let l' := if aTrack a then markWrite s l' 0xFF else { l' with dirtyMask := 0 }
  storeLine { s with gen := { s.gen with pendingRc := s.gen.pendingRc.filter (· != l.addr) } } k l' (BitVec.allOnes 512) false

/-- A discard of a resident line, a pending one logged first (R321), one that fails its check not (R431); false where it must wait. -/
def discardSlot (s : State) (k : Nat) (note : Option (Nat × Nat × Nat)) (fails : Bool) : State × Bool :=
  let (s, ok) := if fails then (s, true) else logFirst s k false
  if ok then (fallowSlot s k note, true) else (s, false)

/-! ## One line of a range command -/

/-- Reads of the lines of a command wait for snoops of every host line of the line (R259); `inv` as its row says. -/
def rangeSnoop (s : State) (o : Op) (inv dropWb : Bool) : State × Op × Bool :=
  let line := opLine o
  if snoopHoldsLine s line then (s, o, false)
  else if o.snooped then (s, o, true)
  else
    let (s, all) := snoopFor s ((List.range 8).map (line * 8 + ·)) inv dropWb o.m.qos 0 (o.noted.testBit 10)
    if !all then
      let (s, o) := noteOnce s o 0 Ev.biTrackerFull
      (s, { o with noted := o.noted ||| 1024 }, false)
    else (s, { o with snooped := true }, !snoopHoldsLine s line)

/-- The row of R431 for a tracked line whose dirty_mask is not zero: it is logged and written back, whatever its state. -/
def owesLog (s : State) (l : Line) : Bool := tracked s (lastAt s l.last).attr && l.dirtyMask != 0

/-- RANGE.FLUSH of a line (R431). -/
def flushLine (s : State) (o : Op) (attr : Nat) : Res :=
  let line := opLine o
  if !(mergesOf s line).isEmpty then .wait (mergeDrainWhere s fun m => m.sector / 8 == line) o
  else if (evictOf s line).isSome || (mheOf s line).isSome then .wait s o
  else
    let s := closeFor s line
    match findLine s line with
    | none => .done (cmdLine s o St.ok)
    | some k =>
      let l := lineAt s k
      if l.st = .invalid then .done (cmdLine s o St.ok)
      else
        let (s, good) := if l.st = .fallow then (s, true) else checkLine s k (BitVec.allOnes 512) true 8
        if !good then .again s o
        else
          let l := lineAt s k
          if aDur attr = 2 ∧ l.locked ∧ !bound s line then .done (cmdLine s o St.genPending)
          else if aKind attr = 2 ∨ ((l.st = .clean ∨ l.st = .fallow) ∧ !owesLog s l) then .done (cmdLine s o St.ok)
          else
            let (s, ok) := cleanSlot s k o.cmd
            if ok then .done (cmdLine (cmdWrite s o.cmd) o St.ok) else .wait s o

/-- RANGE.INVALIDATE of a line (R431). -/
def invalLine (s : State) (o : Op) (attr : Nat) : Res :=
  let line := opLine o
  if !(mergesOf s line).isEmpty then .wait (mergeDrainWhere s fun m => m.sector / 8 == line) o
  else if (evictOf s line).isSome || (mheOf s line).isSome then .wait s o
  else
    let s := closeFor s line
    match findLine s line with
    | none => .done (cmdLine s o St.ok)
    | some k =>
      let l := lineAt s k
      let (s, good) := if l.st = .fallow then (s, true) else checkLine s k (BitVec.allOnes 512) true 8
      if !good then .again s o
      else
        let l := lineAt s k
        if bound s line then .done (cmdLine s o St.sheafBound)
        else if aDur attr = 2 ∧ l.locked then .done (cmdLine s o St.genPending)
        else if aKind attr = 2 then
          -- a line that is FALLOW already keeps the note its discard armed (R120)
          let (s, ok) := discardSlot s k (if l.st = .fallow then l.note else none) false
          if ok then .done (cmdLine s o St.ok) else .wait s o
        else if l.st = .dirty ∨ owesLog s l then
          let (s, ok) := cleanSlot s k o.cmd
          if ok then .done (cmdLine (cmdWrite (lineDrop s k) o.cmd) o St.ok) else .wait s o
        else .done (cmdLine (lineDrop s k) o St.ok)

/-- The memory copy cleared by a discard under discard_zero (R576). -/
def zeroMemory (s : State) (o : Op) (attr : Nat) (force : Bool) : State :=
  if (csrBit s 0x0F10 28 || force) && aKind attr != 2 then
    memWriteLine (cmdWrite s o.cmd) { for_ := .cmd o.cmd } (opLine o) 0 o.m.qos
  else s

/-- RANGE.DISCARD of a line, by the rows of R431 in their order, a FALLOW line among them (R332, R576); `o.m.op` bit 0 arms fallow notes, bit 1 forces the clearing of R577. -/
def discardLine (s : State) (o : Op) (attr : Nat) : Res :=
  let line := opLine o
  if !(mergesOf s line).isEmpty then .wait (mergeDrainWhere s fun m => m.sector / 8 == line) o
  else if (evictOf s line).isSome || (mheOf s line).isSome then .wait s o
  else
    let s := closeFor s line
    let zero := fun (s : State) => zeroMemory s o attr (o.m.op.testBit 1)
    match findLine s line with
    | none => .done (cmdLine (zero s) o St.ok)
    | some k =>
      let l := lineAt s k
      let fault := if l.st = .fallow then 0 else lineFault s l (BitVec.allOnes 512) true
      if fault = 0 ∧ bound s line then .done (cmdLine s o St.sheafBound)
      else
        let s := if fault ≠ 0 then
            postError s St.dataError (lineErr s k l (if l.badPar = 0 then 1 else 0) fault.toNat 0 8) else s
        let marks := (aDur attr == 2 && l.locked) || aKind attr == 2 || owesLog s l
        if l.st = .fallow ∧ !s.gen.pendingRc.contains line ∧ !marks then .done (cmdLine (zero s) o St.ok)
        else
          let armed := match cmdGet s o.cmd with
            | some c => if o.m.op.testBit 0 then some (c.ring, leAt c.desc 4 2, c.code) else none
            | none => none
          -- a line that is FALLOW already keeps the note its discard armed (R120)
          let note := if l.st = .fallow ∧ !s.gen.pendingRc.contains line then l.note else armed
          let (s, ok) := discardSlot s k note (fault != 0)
          if ok then .done (cmdLine (zero s) o St.ok) else .wait s o

/-- Locked lines of a set, and whether one more lock is refused (R107). -/
def lockRefused (s : State) (set : Nat) : Bool :=
  let n := ((List.range (fuseWays s)).filter fun w => (lineAt s (slotKey set w)).locked && (lineAt s (slotKey set w)).st != .invalid).length
  let enabled := (enabledWays s (set % 16)).length
  decide (n + 1 + pinWays s > enabled - 2)

/-- The lock or unlock of RANGE.PREFETCH on a resident line (R107, R108, R350): flags 1 lock, 2 unlock. -/
def lockSlot (s : State) (k flags attr : Nat) : State × Nat :=
  let l := lineAt s k
  if aDur attr = 2 then (s, St.ok)
  else if flags.testBit 0 then
    if l.locked then (s, St.ok)
    else if lockRefused s (slotSet k) then (s, St.lockLimit)
    else (linePut s k { l with locked := true }, St.ok)
  else if flags.testBit 1 then (linePut s k { l with locked := false }, St.ok)
  else (s, St.ok)

/-- The fill of a RANGE.PREFETCH line that is INVALID or FALLOW (R100 to R102): a command holds at most 16 entries (R432), each one that no
demand request has merged into yet (R109). -/
def fetchFill (s : State) (o : Op) (attr li age : Nat) : Res :=
  let line := opLine o
  if (s.arr.mhes.filter fun m => m.kind == .prefetch && m.reads.any fun r => r.op.cmd == o.cmd).length ≥ 16 ∨ mheUsed s ≥ 128 then .wait s o
  else
    match refillWay s line attr 1 o.m.qos with
    | .busy s => .wait s o
    | .noWay s => .done (cmdLine (ev s Ev.allocBypass) o St.noSpace)
    | .slot s k =>
      let s := setFilling s k line li o.m.qos age
      .done (ev (mheStart s { line := line, kind := .prefetch, slot := some k, qos := o.m.qos, last := li, age := age,
                              reads := [{ op := o }] }) Ev.prefetchIssued)

/-- RANGE.PREFETCH of a line (R432): flags and ins_age in `o.m.op` [4:0]. -/
def fetchLine (s : State) (o : Op) (attr li : Nat) : Res :=
  let line := opLine o
  let age := fld o.m.op 4 3
  if !aCache attr then .done (cmdLine s o St.badAttr)
  else if aKind attr = 2 then .done (cmdLine s o St.ok)
  else if (mheOf s line).isSome || (evictOf s line).isSome then .wait s o
  else
    let s := closeFor s line
    match findLine s line with
    | some k =>
      if (lineAt s k).st = .fallow then fetchFill s o attr li age
      else
        let (s, good) := checkLine s k 0 false 8
        if !good then .again s o
        else
          let l := lineAt s k
          let s := linePut s k { l with age := min l.age age }
          let (s, st) := lockSlot s k (o.m.op % 4) attr
          .done (cmdLine s o st)
    | none => fetchFill s o attr li age

/-- A line of DIGEST.RANGE read as one snapshot (R195, R196): from the array where it is resident there, also in a disabled last. It is no read
that hits for R120: it counts no ev.fallow_read and posts no note (DESIGN CHOICE, notes/assumptions 35). -/
def digestLine (s : State) (o : Op) : Res :=
  let line := opLine o
  let give := fun (s : State) (d : LineData) =>
    cmdLine (cmdUpd (ev (arithUse s o 512) Ev.digestLine) o.cmd fun c => { c with parts := c.parts ++ [(o.idx, d)] }) o St.ok
  if s.hl.suspect then .done (cmdLine s o St.dataError)
  else if (mheOf s line).isSome then .wait s o
  else match openOf s line with
  | some x => .done (give s x.data)
  | none =>
    match findLine s line with
    | some k =>
      if (lineAt s k).st = .fallow then .done (give s 0)
      else
        let (s', good) := checkLine (arrayUse s o.m.qos line 4) k (BitVec.allOnes 512) true 8
        if good then .done (give s' (mergeOverlay s' line (lineAt s' k).data)) else .done (cmdLine s' o St.dataError)
    | none =>
      match evictOf s line with
      | some e => .done (give s e.data)
      | none => .done (memRead s (.digest o) (line * 512) 4 0 o.m.qos)

/-- A line of LAST.DELETE, of a disable or of a re-enable (R117, R118, R424): `o.m.op` 1 writes it back and keeps it, 2 writes it
back and invalidates it, 3 invalidates it without write-back. -/
def cleanLine (s : State) (o : Op) (attr : Nat) : Res :=
  let line := opLine o
  if !(mergesOf s line).isEmpty ∧ o.m.op ≠ 3 then .wait (mergeDrainWhere s fun m => m.sector / 8 == line) o
  else if (evictOf s line).isSome || (mheOf s line).isSome then .wait s o
  else
    let s := closeFor s line
    match findLine s line with
    | none => .done (cmdLine s o St.ok)
    | some k =>
      let l := lineAt s k
      if aKind attr = 2 then .done (cmdLine s o St.ok)
      else if o.m.op = 3 then
        .done (cmdLine (lineDrop (if l.st = .dirty then ev s Ev.staleDirtyDrop else s) k) o St.ok)
      else
        let (s, good) := if l.st = .dirty then checkLine s k (BitVec.allOnes 512) true 3 else (s, true)
        if !good then .again s o
        else
          let l := lineAt s k
          if l.st = .dirty then
            let (s, ok) := cleanSlot s k o.cmd
            if ok then .done (cmdLine (cmdWrite (if o.m.op = 2 then lineDrop s k else s) o.cmd) o St.ok) else .wait s o
          else
            let (s, ok) := if o.m.op = 2 then logFirst s k true else (s, true)
            if !ok then .wait s o
            else .done (cmdLine (if o.m.op = 2 then lineDrop s k else s) o St.ok)

end Sys2Proof.Machine
end

