-- ==== Sys2Proof/Machine/Serve.lean ====
section
/-! DEFINITION. The request pipeline: what lets an operation be performed, the order of operations on one line, the choice among
classes in open cycles, fences, and what is tried again after each event (spec/02 R109, R110; spec/04 R168; spec/06 R246, R249,
R257 to R264, R278; spec/07 R287, R290; spec/08 R334; spec/14 R523, R524). -/

namespace Sys2Proof.Machine

open Sys2Proof

/-! ## Performing an operation -/

/-- A write of the line: what R259 and R334 treat as one. -/
def opWrites (o : Op) : Bool := o.kind == .wr || o.kind == .hint || o.kind == .atomic

/-- The host lines an operation touches (R249, R259): those of its bytes, of the bytes a host write covers (R246), or of the whole line. -/
def opHosts (s : State) (o : Op) (attr : Nat) : List Nat :=
  let line := opLine o
  match o.kind with
  | .rd | .rdBlk => hostsOf line (readMask attr o)
  | .wr | .hint | .wb =>
    hostsOf line (if o.kind = .wr ∧ fromHost s o.m then spanMask (o.m.addr % 512) (opBytes o) else (writeBytes s attr o).mask)
  | .hostDrop => [o.m.addr / 64]
  | _ => (List.range 8).map (line * 8 + ·)

/-- A refusal a request's last gives before anything else (R134, R135, R614), 0 where there is none. -/
def lastRefusal (attr : Nat) (o : Op) : Nat :=
  if !aBaled attr then 0
  else match o.kind with
  | .rd | .rdBlk =>
    if blockView attr o.m then blockCheck attr (baleReadFmt (aReadFmt attr)) o.m (opBytes o) else 0
  | .wr | .hint => if o.m.port = .hst then St.badAttr else blockWriteCheck attr o
  | _ => 0

/-- The owning context of a last is FROZEN (R334). -/
def frozen (s : State) (attr : Nat) : Bool := (ctxGet s (aCtx attr)).st == 2

/-- Host lines recorded in a state for a host request; false where a victim finds no tracker entry (R246, R247, R249). -/
def sfRecordAll (s : State) (hosts : List Nat) (g qos : Nat) : State × Bool :=
  hosts.foldl (fun (x : State × Bool) h =>
    if x.2 then sfRecord (sfCheckSet x.1 (sfSet x.1 h) 0) h g qos else x) (s, true)

/-- The host's part of a request: bias, and the snoop filter entries of R246, one for each host line it touches (R243); false where it
must wait. -/
def hostPhase (s : State) (o : Op) (attr : Nat) (hosts : List Nat) : State × Op × Bool :=
  let marked := { o with noted := o.noted ||| 8 }
  if !fromHost s o.m || o.noted.testBit 3 || (o.kind != .rd && o.kind != .wr) then (s, o, true)
  else if o.m.mod = 0 ∨ s.hl.rStep ≥ 7 then (if o.kind = .wr then hosts.foldl sfDrop s else s, marked, true)
  else
    match biasOf s o.m.addr with
    | (s, none) => (s, o, false)
    | (s, some true) => (ev s Ev.biasHostUncached, marked, true)
    | (s, some false) =>
      let g := if o.kind = .rd ∧ o.m.mod = 2 ∧ frozen s attr then 1 else o.m.mod
      let (s, ok) := sfRecordAll s hosts g o.m.qos
      if ok then (s, { marked with grant := g }, true)
      else
        let (s, o) := noteOnce s o 0 Ev.biTrackerFull
        (s, o, false)

/-- The device-side part of an access: the snoops of R259 and the push of R264; false where it must wait. -/
def devicePhase (s : State) (o : Op) (hosts : List Nat) : State × Op × Bool :=
  let inv := opWrites o
  if fromHost s o.m ∧ o.kind ≠ .hint then (s, o, true)
  else if inv && pushWaits s hosts then (s, o, false)
  else if o.snooped then (s, o, true)
  else
    let before := s.coh.snoops.length
    let (s, all) := snoopFor s hosts inv false o.m.qos 0 (o.noted.testBit 10)
    let s := if s.coh.snoops.length > before then traceFlag (stage s o.n 6) o.n 2 else s
    if !all then
      let (s, o) := noteOnce s o 0 Ev.biTrackerFull
      (s, { o with noted := o.noted ||| 1024 }, false)
    else (s, { o with snooped := true }, !hosts.any (snoopHolds s))

/-- A HINT_WR that may be pushed (R262): to_host, one whole host line, which a block view does not name (R133), hint_push 1, not from a peer,
in a slice that is not DRAINED (R506). -/
def hintPushes (s : State) (o : Op) : Bool :=
  o.kind == .hint && o.m.op.testBit 16 && decide (s.hl.rStep < 7) && !blockView (lastAt s (lastOfLine s (opLine o))).attr o.m && o.m.addr % 64 == 0 && o.m.size == 63 && csrBit s 0x620 14

/-- What a hint's push waits for (R249, R254, R262): its bias word, a tracker entry for a victim; or whether it is made. -/
inductive PushReady where
  | bias
  | tracker
  | known (push : Bool)

/-- Whether the page of a hint is known to be SHARED and its entry has room (R249, R254, R262). -/
def hintReady (s : State) (o : Op) : State × PushReady :=
  if !hintPushes s o then (s, .known false)
  else match biasOf s o.m.addr with
  | (s, none) => (s, .bias)
  | (s, some true) => (s, .known false)
  | (s, some false) =>
    let h := o.m.addr / 64
    if (sfFind s h).isSome || ((sfWays (sfSet s h)).any fun k => (sfAt s k).st == 0) || snoopRoom s then (s, .known true)
    else (s, .tracker)

/-- What follows a performed write hint (R262): the push, or the count of a hint declined. -/
def hintAfter (s : State) (o : Op) (push : Bool) : State :=
  if o.kind != .hint || !o.m.op.testBit 16 || (s.pr.sync.any fun e => e.2.n == o.n) then s
  else if !push then ev s Ev.hintDeclined
  else
    let h := o.m.addr / 64
    let (s, _) := sfRecord s h 1 o.m.qos
    let (tag, s) := hstRequest s 9 o.m.addr 63 0 (o.m.op % 2 ^ 16) (o.m.data.take 64)
    { s with coh := { s.coh with pushes := s.coh.pushes ++ [{ host := h, tag := tag }] } }

/-- A write of a context whose queued writes a CTX.RESUME performs waits for them (R335). -/
def resumeWaits (s : State) (o : Op) (attr : Nat) : Bool :=
  (ctxGet s (aCtx attr)).resuming && opWrites o && !o.noted.testBit 7 && decide ((ctxGet s (aCtx attr)).frozenAt ≤ o.n)

/-- A write to a FROZEN context (R334): rejected, or held in the freeze queue; none where it may proceed. -/
def freezePhase (s : State) (o : Op) (attr : Nat) : Option State :=
  if !frozen s attr || !opWrites o || (ctxGet s (aCtx attr)).resuming || decide (o.n < (ctxGet s (aCtx attr)).frozenAt) then none
  else if (ctxGet s (aCtx attr)).stall && s.gen.freezeQ.length < 64 then
    some { s with gen := { s.gen with freezeQ := s.gen.freezeQ ++ [o] } }
  else some (finish s o St.ctxFrozen)

/-- A demand request, or SNP_WB data, on its line once nothing holds it. -/
def performDemand (s : State) (o : Op) (attr li : Nat) : Res :=
  match o.kind with
  | .rd | .rdBlk => readLine s o attr li
  | .atomic => atomLine s o attr li
  | .hostDrop => .done (finish (sfDrop (closeFor s (opLine o)) (o.m.addr / 64)) o St.ok)
  | .hint =>
    match hintReady s o with
    | (s, .bias) => .wait s o
    | (s, .tracker) =>
      let (s, o) := noteOnce s o 0 Ev.biTrackerFull
      .wait s { o with noted := o.noted ||| 64 }
    | (s, .known push) =>
      let o := { o with noted := o.noted &&& 0xBF }
      match writeLine s o attr li with
      | .done s => .done (hintAfter s o push)
      | r => r
  | _ => writeLine s o attr li

/-- A line's part of a command once nothing holds it (R431, R432). -/
def performRange (s : State) (o : Op) (attr li : Nat) : Res :=
  match o.kind with
  | .prefetch => fetchLine s o attr li
  | .digest =>
    match rangeSnoop s o false false with
    | (s, o, false) => .wait s o
    | (s, o, true) => digestLine s o
  | .wr =>
    if pushWaits s (opHosts s o attr) then .wait s o
    else match rangeSnoop s o true false with
    | (s, o, false) => .wait s o
    | (s, o, true) => writeLine s o attr li
  | .clean => cleanLine s o attr
  | .flush =>
    match rangeSnoop s o false false with
    | (s, o, false) => .wait s o
    | (s, o, true) => flushLine s o attr
  | .inval =>
    match rangeSnoop s o true false with
    | (s, o, false) => .wait s o
    | (s, o, true) => invalLine s o attr
  | _ =>
    match rangeSnoop s o true true with
    | (s, o, false) => .wait s o
    | (s, o, true) => discardLine s o attr

/-- A line's part of a command: FAILED lasts and lines pending recomputation first (R431, R432, R196). -/
def performCommand (s : State) (o : Op) (l : Last) (li : Nat) : Res :=
  let line := opLine o
  if o.kind = .clean then performRange s o l.attr li
  else if l.cond ≠ 1 then .done (cmdLine s o St.dataLost)
  else if s.gen.pendingRc.contains line ∧ o.kind ≠ .discard ∧ o.kind ≠ .wr then .done (cmdLine s o St.recomputePending)
  else performRange s o l.attr li

/-- A resident line takes the last that covers it now (R423). -/
def retag (s : State) (line li : Nat) : State :=
  match findLine s line with
  | some k =>
    let l := lineAt s k
    if l.last = li ∨ l.st = .invalid then s else linePut s k { l with last := li }
  | none => s

/-- A line looked up: its last brought up to date, the tags of its set checked (R423, R445). -/
def lookup (s : State) (line li : Nat) : State :=
  let s := retag s line li
  tagCheckSet s (match findLine s line with
    | some k => slotSet k
    | none => setOf s line) 9

/-- An operation attempted (R168): whatever holds its line, its last's condition, its refusals, the freeze, the host's and the
device's snoops, then the access itself. -/
def perform (s : State) (o : Op) : Res :=
  let line := opLine o
  let li := lastOfLine s line
  let attr := (lastAt s li).attr
  if lineRepairing s line || lineSyncing s line then .wait s o
  else match heldCheck s line (if o.cmd = 0 then 0 else 8) with
  | (s, false) => if o.kind = .digest then .done (cmdLine s o St.dataError) else .wait s o
  | (s, true) =>
  let l := lastAt s li
  if s.arr.deleting.contains li && o.cmd == 0 && o.kind != .wb then .wait s o
  else
    -- a request of a disabled last looks nothing up (R116)
    let s := if !aCache attr && o.cmd == 0 then s else lookup s line li
    if o.cmd ≠ 0 then
      let (s, o) := lookupAct s o li 0
      performCommand s o l li
    else if o.plan then (if l.cond ≠ 1 then .done (if o.kind = .prefetch then stageDrop s else s) else planLeft s o attr li)
    else if l.cond ≠ 1 then .done (finish s o St.dataLost)
    else if o.kind = .wb then writeLine s o attr li
    else if s.hl.suspect && (o.kind == .atomic || (blockView attr o.m && o.kind != .hostDrop)) then .done (finish s o St.dataError)
    else if lastRefusal attr o ≠ 0 then .done (finish s o (lastRefusal attr o))
    else if o.kind = .atomic ∧ atomRefusal s attr o ≠ 0 then .done (finish s o (atomRefusal s attr o))
    else if s.gen.pendingRc.contains line && (o.kind == .rd || o.kind == .rdBlk || o.kind == .atomic) then
      .done (finish s o St.recomputePending)
    else if resumeWaits s o attr then .wait s o
    else match freezePhase s o attr with
    | some s => .done s
    | none =>
      let hosts := opHosts s o attr
      let (s, o) := lookupAct s o li (if o.kind = .rd ∨ o.kind = .rdBlk then readMask attr o else 0)
      if hosts.any (snoopHolds s) then .wait s o
      else match hostPhase s o attr hosts with
      | (s, o, false) => .wait s o
      | (s, o, true) =>
        match devicePhase s o hosts with
        | (s, o, false) => .wait s o
        | (s, o, true) => performDemand (if o.snooped ∧ hosts ≠ [] then stage s o.n 7 else s) o attr li

/-- An operation attempted, and again at once while a repair that ended at once calls for it. -/
def attempt : Nat → State → Op → State × Option Op
  | 0, s, o => (s, some o)
  | k + 1, s, o =>
    match perform s o with
    | .done s => (s, none)
    | .wait s o => (s, some o)
    | .again s o => attempt k s o

/-- The host lines an operation touches, by its line's last. -/
def hostsAsked (s : State) (o : Op) : List Nat := opHosts s o (lastAt s (lastOfLine s (opLine o))).attr

/-- A host request whose bias word is read, or a hint whose push asks for it (R254). -/
def atBias (s : State) (o : Op) : Bool :=
  ((fromHost s o.m && (o.kind == .rd || o.kind == .wr) && o.m.mod != 0 && !o.noted.testBit 3) || hintPushes s o) &&
  match biasPage s o.m.addr with
  | some p => !(s.coh.biasCache.any fun e => e.1 == p / 64)
  | none => false

/-- A request that waits for the tracker or for a bias word and has not reached its line (R249, R254, R280). -/
def atTracker (s : State) (o : Op) : Bool :=
  o.cmd == 0 && !o.plan && o.kind != .wb &&
    ((hostsAsked s o).any (snoopHolds s) || (o.noted.testBit 0 && !o.snooped) || o.noted.testBit 6 || atBias s o)

/-- An operation in the miss-handling entry of its line, into which later ones still merge behind it (R109). -/
def mergedIn (s : State) (w : Op) : Bool := merged w && match mheOf s (opLine w) with
  | some m => m.ordered
  | none => false

/-- An operation that waits holds back a later one of its line (R168, R287); one that waits for the tracker holds back those that
share a host line with it (R249, R280). A prefetch holds back no demand request (R115). -/
def holdsBack (s : State) (w o : Op) : Bool :=
  opLine w == opLine o && !mergedIn s w && !(w.kind == .prefetch && o.cmd == 0) && (!atTracker s w || (hostsAsked s w).any fun h => (hostsAsked s o).contains h)

/-- An operation served, or put behind the operations that wait and hold it back (R168, R287). DEDUCED, notes/assumptions 7. -/
def serve (s : State) (o : Op) : State :=
  if s.arr.waiting.any fun w => holdsBack s w o then { s with arr := { s.arr with waiting := s.arr.waiting ++ [o] } }
  else match attempt 8 s o with
  | (s, none) => s
  | (s, some o) => { s with arr := { s.arr with waiting := s.arr.waiting ++ [o] } }

/-- An operation that must stand before the others of its line: SNP_WB data, or a write the fellow holds (R259, R346). -/
def serveFirst (s : State) (o : Op) : State :=
  match attempt 8 s o with
  | (s, none) => s
  | (s, some o) => { s with arr := { s.arr with waiting := o :: s.arr.waiting } }

/-- One pass over the waiting operations, in order; those kept block later ones of their lines. -/
def retryPass : List Op → List Op → State → State × List Op × Bool
  | [], kept, s => (s, kept, false)
  | o :: r, kept, s =>
    if kept.any fun w => holdsBack s w o then retryPass r (kept ++ [o]) s
    else match attempt 8 s o with
    | (s, none) =>
      let (s, kept, _) := retryPass r kept s
      (s, kept, true)
    | (s, some o) => retryPass r (kept ++ [o]) s

/-- Waiting operations tried until none moves. -/
def retryAll : Nat → State → State
  | 0, s => s
  | k + 1, s =>
    let ws := s.arr.waiting
    if ws = [] then s
    else
      let (s, kept, moved) := retryPass ws [] { s with arr := { s.arr with waiting := [] } }
      let s := { s with arr := { s.arr with waiting := kept ++ s.arr.waiting } }
      if moved then retryAll k s else s

/-! ## Open cycles (R221, R523) -/

/-- A write of a context that must let an earlier one go first: one that a CTX.RESUME has taken out of the freeze queue (R335). -/
def resumeHeld (s : State) (o : Op) : Bool :=
  opWrites o && (s.arr.presented ++ s.arr.waiting ++ s.pr.sync.map (·.2) ++ (s.arr.mhes.map fun m => m.reads.map (·.op)).flatten).any fun x => x.noted.testBit 7 && decide (x.n < o.n) &&
    aCtx (lastAt s (lastOfLine s (opLine x))).attr == aCtx (lastAt s (lastOfLine s (opLine o))).attr

/-- A range command lets every demand write of its line go first that was accepted before it acts (R430). -/
def rangeHeld (s : State) (o : Op) : Bool :=
  (o.kind == .flush || o.kind == .inval || o.kind == .discard) &&
    s.arr.presented.any fun x => x.cmd == 0 && opWrites x && opLine x == opLine o

/-- A request its class may present: R109 and R249 let it issue, and commands keep their order on one line (R306). -/
def mayIssue (s : State) (o : Op) : Bool :=
  let attr := (lastAt s (lastOfLine s (opLine o))).attr
  (o.cmd == 0 || (match s.arr.presented.find? fun x => x.cmd != 0 && opLine x == opLine o with
    | some x => x.cmd == o.cmd
    | none => true)) && !rangeHeld s o && !((opHosts s o attr).any (snoopHolds s)) && !resumeHeld s o &&
    (match mheOf s (opLine o) with
      | some m => decide (m.count < 8)
      | none => true)

/-- The request each class presents: its oldest that may issue. -/
def classPick (s : State) (c : Nat) : Option Op := s.arr.presented.find? fun o => o.m.qos == c && mayIssue s o

/-- One choice of R523: the class chosen, whether from t1, and the credits after. -/
def choose (s : State) : Option (Nat × Bool) × SMap Int :=
  let have_ := (List.range 16).filter fun c => (classPick s c).isSome
  let t0 := have_.filter fun c => !overBudget s c
  let t1 := have_.filter fun c => overBudget s c && !hardClass s c
  let t := if t0 = [] then t1 else t0
  let cr : SMap Int := (List.range 16).foldl (fun m c => if t0.contains c || t1.contains c then m else SMap.put 0 m c 0) s.qs.credit
  let cr : SMap Int := t.foldl (fun (m : SMap Int) c => SMap.put 0 m c (SMap.get 0 m c + (weightOf s c : Int))) cr
  let best := t.foldl (fun (b : Option Nat) c => match b with
    | none => some c
    | some x => if SMap.get 0 cr c > SMap.get 0 cr x then some c else some x) none
  match best with
  | none => (none, cr)
  | some c =>
    let sum : Nat := (t.map (weightOf s)).foldl (· + ·) 0
    (some (c, t0.isEmpty), SMap.put 0 cr c (SMap.get 0 cr c - (sum : Int)))

/-- One request issued in an open cycle (R221, R523); the second part is false where none issues. -/
def issueOne (s : State) : State × Bool :=
  let (pick, cr) := choose s
  let s := { s with qs := { s.qs with credit := cr } }
  match pick with
  | none => (s, false)
  | some (c, t1) =>
    match classPick s c with
    | none => (s, false)
    | some o =>
      let s := { s with arr := { s.arr with presented := s.arr.presented.filter fun x => !(x.n == o.n && x.cmd == o.cmd && x.idx == o.idx) } }
      let s := if t1 then traceFlag (ev s Ev.qosTier1Issue) o.n 4 else s
      (serve (stage s o.n 0) o, true)

/-- The fc at which the next pass starts, or a switch ends, once its holds have run; none where only an event outside decides it (R201, R224,
R237). -/
def openUntil (s : State) : Option Nat :=
  let p := s.pl
  let held := p.fc + 64 * p.charged
  if p.st = 3 then some (max p.fc held + 16)
  else if p.st = 1 ∧ p.ran ≠ 0 then
    (if hdrStartMode (planHdr s) = 0 then some (max p.base held) else none)
  else none

/-- Whether an open cycle is left to issue a request in (R208, R221, R224, R237): one for an OPEN instance, 64 for every hold of a pass, those
from the last instance of a pass to the start of the next or to the end of a switch; with no plan running every request finds one. -/
def openRoom (s : State) : Bool :=
  let p := s.pl
  p.openNow &&
    if p.st = 2 then decide (p.openSpent < if p.holding then 64 * max 1 p.charged else 1)
    else match openUntil s with
    | some t => decide (p.openSpent < t - p.endFc)
    | none => true

/-- Requests issued while cycles are open, one in each. -/
def issueAll : Nat → State → State
  | 0, s => s
  | k + 1, s =>
    if openRoom s && s.pw.pstate == 2 && !s.pw.flowStop && !s.arr.presented.isEmpty then
      match issueOne s with
      | (s, true) => issueAll k { s with pl := { s.pl with openSpent := s.pl.openSpent + 1, openUsed := s.pl.openUsed + 1 } }
      | (s, false) => s
    else s

/-! ## Fences and conflicts (R278, R290) -/

/-- Data of a line for the host that waits for a credit (R278). -/
def answerHeld (s : State) (addr : Nat) : Bool :=
  s.txq.any fun e => match e.2 with
    | .msg .hst m => m.cls == 0 && m.dst >>> 12 == s.pw.chip && decide (m.addr / 64 * 64 ≤ addr ∧ addr ≤ m.addr + m.size)
    | _ => false

/-- Every request a FENCE covers on its ports has been acknowledged (R290). -/
def fenceCore (s : State) (f : FenceWait) : Bool :=
  !(s.arr.owed.any fun o => decide (o.n < f.n) && o.src == f.m.src &&
    (o.port == f.m.port || (f.m.port == .ctl && o.port == .blk)))

/-- A merging-buffer entry holds bytes that a write before the FENCE put there (R290). -/
def fenceMerge (f : FenceWait) (e : Merge) : Bool := e.srcs.any fun x => fenceCovers f.m [x.1] && decide (x.2 < f.n)

/-- What a SYSTEM scope waits for beside (R290): those entries, atomics acknowledged whose bytes are to enter them, and writes sent to memory
without allocation. -/
def fenceSystem (s : State) (f : FenceWait) : Bool :=
  !(s.arr.merges.any (fenceMerge f)) &&
  !(s.arr.memWrs.any fun w => fenceCovers f.m w.srcs && decide (w.n < f.n)) &&
  !(s.arr.memq.any fun q => match q with
    | .wr w _ _ => fenceCovers f.m w.srcs && decide (w.n < f.n)
    | _ => false) &&
  !(s.arr.mhes.any fun m => m.kind == .memSide && m.reads.any fun r => fenceCovers f.m [srcKey r.op.m] && decide (r.op.n < f.n)) &&
  !(s.arr.waiting.any fun o => o.acked && !o.plan && aKind (lastAt s (lastOfLine s (opLine o))).attr == 1 &&
    fenceCovers f.m [srcKey o.m] && decide (o.n < f.n))

/-- Whether a FENCE or BI_CONFLICT may be answered. -/
def fenceReady (s : State) (f : FenceWait) : Bool :=
  if f.conflict then
    !(s.arr.owed.any fun o => decide (o.n < f.n) && o.port == .hst && o.src >>> 12 == s.pw.chip &&
      decide (o.addr / 64 * 64 ≤ f.m.addr ∧ f.m.addr ≤ o.addr + o.size)) && !answerHeld s f.m.addr
  else fenceCore s f && (f.m.mod != 2 || fenceSystem s f)

/-- A SYSTEM FENCE drains the entries it covers (R90, R290). -/
def fenceDrain (s : State) (f : FenceWait) : State :=
  if f.conflict || f.m.mod != 2 then s else mergeDrainWhere s (fenceMerge f)

/-- Fences and conflicts whose conditions are met are answered, oldest first. -/
def fencePump (s : State) : State :=
  s.arr.fences.foldl (fun s f =>
    let s := fenceDrain s f
    if fenceReady s f then
      let s := { s with arr := { s.arr with fences := s.arr.fences.filter fun x => x.n != f.n } }
      let s := traceEnd (stage (stage s f.n 8) f.n 9) f.n St.ok
      if f.conflict then
        sendMsg s .hst { cls := 1, opcode := 2, qos := f.m.qos, tag := f.m.tag, dst := f.m.src, addr := f.m.addr, size := f.m.size }
      else cmpl s f.m St.ok 0
    else s) s

/-! ## Snoops of FAILED lasts and of flips (R257, R447) -/

/-- BI_SNP_INV for the host lines of FAILED lasts, as tracker entries free, in blocks where bi_block allows (R250, R447). -/
def failPump (s : State) : State :=
  let s := { s with coh := { s.coh with failing := s.coh.failing.filter fun h => sfState s h != 0 || snoopHolds s h } }
  let need := s.coh.failing.filter fun h => !snoopHolds s h
  (snoopBlocks (csrBit s 0x620 15) (need.length + 1) need).foldl (fun s b =>
    if snoopRoom s then
      snoopIssue { s with coh := { s.coh with failing := s.coh.failing.filter fun h => !decide (b.1 ≤ h ∧ h < b.1 + b.2) } }
        { host := b.1, count := b.2, dropWb := true, qos := csrFld s 0x3080 27 24 }
    else s) s

/-- Host lines of a range that the filter tracks. -/
def trackedRange (s : State) (base len : Nat) : List Nat :=
  (s.coh.sf.filter fun e => e.2.st != 0 && decide (base ≤ e.2.tag * 64 ∧ e.2.tag * 64 < base + len)).map fun e => e.2.tag

/-- The snoops of flips to DEVICE in progress, and their ends once MEM has accepted their table words (R257 steps 3 to 5, R258). -/
def flipPump (s : State) : State :=
  s.coh.flips.foldl (fun s f =>
    let need := (trackedRange s f.2.1 f.2.2.1).filter fun h => !snoopHolds s h
    let s := (snoopBlocks (csrBit s 0x620 15) 524288 need).foldl (fun s b =>
      if snoopRoom s then
        cmdUpd (snoopIssue s { host := b.1, count := b.2, qos := csrFld s 0x3080 27 24, cmd := f.1 }) f.1
          fun c => { c with acc := c.acc + 1 }
      else s) s
    if trackedRange s f.2.1 f.2.2.1 = [] ∧ ((cmdGet s f.1).map (·.writes)).getD 0 = 0 ∧
        !(s.coh.snoops.any fun x => decide (f.2.1 ≤ x.host * 64 ∧ x.host * 64 < f.2.1 + f.2.2.1)) then
      cmdEnd { s with coh := { s.coh with flips := s.coh.flips.filter fun x => x.1 != f.1 } } f.1 St.ok ((cmdGet s f.1).map (·.acc) |>.getD 0) 0
    else s) s

/-- What every event may let go on: write-backs that wait for log room, snoops, waiting operations, open cycles, fences. DESIGN CHOICE, notes/assumptions 7. -/
def pump (s : State) : State :=
  let s := s.arr.evicts.foldl evictRetry s
  let s := flipPump (failPump (memSidePump s))
  let s := retryAll (s.arr.waiting.length + 1) s
  let s := issueAll (s.arr.presented.length + 1) s
  fencePump (flipPump (failPump s))

/-- An operation of a command presented for open cycles (R523). -/
def present (s : State) (o : Op) : State := { s with arr := { s.arr with presented := s.arr.presented ++ [o] } }

end Sys2Proof.Machine
end

