-- ==== Sys2Proof/Machine/Flags.lean ====
section
/-! DEFINITION. The conditions of the slice that gate what arrives at its ports (spec/12 R473; spec/15 R547, R552 to R557; notes/
assumptions 1). -/

namespace Sys2Proof.Machine

open Sys2Proof

/-- pstate of R547. -/
abbrev Ps.reset : Nat := 0
abbrev Ps.starting : Nat := 1
abbrev Ps.serving : Nat := 2
abbrev Ps.retention : Nat := 3
abbrev Ps.backupHold : Nat := 4
abbrev Ps.quiesce : Nat := 5
abbrev Ps.fenced : Nat := 6

/-- The slice takes demand traffic and runs its engines; not from the instant FLOW_STOP_N is effective (R557). DESIGN CHOICE, notes/assumptions 1. -/
def serving (s : State) : Bool := s.pw.pstate == Ps.serving && !s.hd.fenced && !s.pw.flowStop

/-- The fabric island runs and takes what is driven to it: supply and clock present, not reset, not gated (R20, R23, R558). -/
def fabricRuns (s : State) : Bool :=
  !s.hd.fenced && !s.pw.coreDown && (s.pw.pstate == Ps.serving || s.pw.pstate == Ps.quiesce || s.pw.pstate == Ps.backupHold)

/-- The tether may train: the slice serves, or holds from there with its supply present, when its link state still moves (R376, R560). -/
def tetherRuns (s : State) : Bool :=
  serving s || (s.pw.pstate == Ps.backupHold && s.pw.prior == Ps.serving && !s.pw.coreDown && !s.hd.fenced && !s.pw.flowStop)

/-- The control island runs: VDD_AON and CLK_AON present, not in cold reset (R50, R61). -/
def controlRuns (s : State) : Bool := s.pw.rstN && s.pw.clkAon

end Sys2Proof.Machine
end

