-- ==== Sys2Proof/Machine/Fetch.lean ====
section
/-! DEFINITION. Command rings before a command starts: settings, parking, the fetch of descriptors, the checks of a descriptor and its
acceptance, the places of R397 (spec/10 R389 to R401; spec/11 R416 to R418, R421). -/

namespace Sys2Proof.Machine

open Sys2Proof

/-! ## A ring's settings -/

def ringEnabled (s : State) (n : Nat) : Bool := csrBit s (0x1018 + 64 * n) 31

/-- max_inflight as it acts (R412). -/
def maxInflight (s : State) (n : Nat) : Nat :=
  let v := csrFld s (0x1018 + 64 * n) 11 6
  if v = 0 then 1 else min v 0x20

/-- The descriptor ring's address (R389, R412): aligned to its size and to at least 1 KiB. -/
def descBase (s : State) (n : Nat) : Nat :=
  alignDown (csrGet s (0x1000 + 64 * n) + csrGet s (0x1004 + 64 * n) * 2 ^ 32) (64 * 2 ^ descLog s n)

/-- Ring `n` may name a context (R571). -/
def mayName (s : State) (n ctx : Nat) : Bool :=
  let v := csrGet s (0x1030 + 64 * n)
  decide (n < 4) || decide (fld v 11 0 ≤ ctx ∧ ctx < fld v 11 0 + fld v 28 16)

/-- RD_WATCH for a ring's doorbell line, where the slice may issue requests. -/
def watchIssue (s : State) (n : Nat) : State :=
  if s.hd.fenced || s.pw.pstate != Ps.serving then s
  else
    let s := (hstRequest s 7 (csrGet s (0x1010 + 64 * n)) 63 0 0 []).2
    ringPut s n { ringGet s n with watch := 1, again := false }

/-- A vector raised by a ring whose irq_en is 1 (R409). -/
def ringIrq (s : State) (n : Nat) : State :=
  let v := csrGet s (0x1018 + 64 * n)
  if v.testBit 12 then irqRaise s (fld v 18 13) else s

/-- A ring parked (R398 to R400, R312). -/
def park (s : State) (n reason status w2 : Nat) : State :=
  let r := ringGet s n
  let s := postEvent s 6 status n r.cons w2
  ringIrq (ringPut s n { r with parked := reason, fetched := [], early := [], offer := none, behind := false, rereads := 0, rereadOut := 0 }) n

/-! ## Descriptor fetch (R396) -/

/-- A read of the descriptors of a line from its 256-byte-aligned address up to `m` descriptors from a slot on, the first of index `i` (R396). -/
def descRead (s : State) (n i slot m : Nat) : State :=
  let k := 64 * (slot % 4 + m)
  let s := (hstRequest s 0 (descBase s n + 256 * (slot / 4)) (k - 1) 0 0 []).2
  let r := ringGet s n
  ringPut s n { r with reads := r.reads ++ [((i + m - 1) % 2 ^ 32, k)] }

/-- The reads that cover the descriptors `i` to `i + k - 1`: first index, its slot, and count of each, inside one line (R396). -/
def readSpans (size : Nat) : Nat → Nat → Nat → List (Nat × Nat × Nat)
  | 0, _, _ => []
  | f + 1, i, k =>
    if k = 0 then []
    else
      let slot := i % size
      let m := min k (4 - slot % 4)
      (i, slot, m) :: readSpans size f (i + m) (k - m)

/-- Descriptors announced and not yet asked for are read, up to max_inflight commands (R396, R397). -/
def fetch (s : State) (n : Nat) : State :=
  let r := ringGet s n
  if s.hd.fenced || s.pw.pstate != Ps.serving || !ringEnabled s n || r.parked != 0 || !r.read || r.offer.isSome || r.behind then s
  else
    let avail := (r.prod + 2 ^ 32 - r.cons) % 2 ^ 32
    let k := min avail (maxInflight s n - r.inflight) - r.fetched.length
    let i := r.cons + r.fetched.length
    let s := (readSpans (2 ^ descLog s n) k i k).foldl (fun s x => descRead s n x.1 x.2.1 x.2.2) s
    let r := ringGet s n
    ringPut s n { r with fetched := r.fetched ++ (List.range k).map fun j => (i + j) % 2 ^ 32 }

/-- More descriptors announced than the ring holds: it parks (R398), else it fetches. -/
def ringGo (s : State) (n : Nat) : State :=
  let r := ringGet s n
  if r.parked = 0 ∧ (r.prod + 2 ^ 32 - r.cons) % 2 ^ 32 > 2 ^ descLog s n then park s n 2 St.ringOverrun r.prod
  else fetch s n

/-! ## Checks of a descriptor (R392, R416, R417) -/

/-- The bits of a body field: offset in the descriptor, bits [hi:lo]. -/
def bodyBits (fs : List (Nat × Nat × Nat)) : Nat :=
  (fs.map fun f => onesAt (8 * (f.1 - 16) + f.2.2) (f.2.1 + 1 - f.2.2)).foldl (fun a b => a ||| b) 0

/-- The basic fields of a command's body, and its expert fields (the body tables of spec/11). -/
def bodyFields (code : Nat) : List (Nat × Nat × Nat) × List (Nat × Nat × Nat) :=
  if code = 0x010 then
    ([(16, 51, 0), (24, 51, 0), (32, 1, 0), (32, 19, 8), (44, 5, 0), (48, 9, 0)], [(32, 39, 0), (32, 56, 48), (40, 7, 0)])
  else if code = 0x011 then ([(16, 9, 0), (18, 11, 0)], [(20, 0, 0)])
  else if code = 0x012 then ([(16, 9, 0), (24, 51, 0)], [])
  else if code = 0x013 then ([(16, 9, 0), (18, 11, 0), (24, 51, 0), (32, 63, 0), (40, 31, 0)], [])
  else if 0x020 ≤ code ∧ code ≤ 0x023 then
    ([(16, 51, 0), (24, 63, 0), (32, 1, 0), (34, 11, 0)], [(32, 4, 2), (33, 3, 0), (36, 31, 0), (40, 31, 0)])
  else if code = 0x030 then ([(16, 11, 0), (18, 3, 0), (20, 31, 0)], [(19, 0, 0)])
  else if code = 0x031 then ([(16, 11, 0)], [(18, 1, 0)])
  else if code = 0x032 then ([(16, 3, 0), (20, 24, 0)], [])
  else if code = 0x040 then ([(16, 11, 0)], [(18, 1, 0), (20, 31, 0), (24, 31, 0)])
  else if code = 0x041 then ([(16, 11, 0)], [(18, 1, 0), (19, 3, 0), (24, 51, 0), (32, 63, 0), (40, 31, 0)])
  else if code = 0x042 then ([(16, 11, 0)], [])
  else if code = 0x043 then ([(16, 11, 0), (24, 63, 0)], [])
  else if code = 0x050 then ([(16, 51, 0), (24, 31, 0)], [])
  else if code = 0x051 then ([(16, 0, 0)], [(20, 31, 0)])
  else if code = 0x060 then ([(16, 51, 0), (24, 12, 0), (26, 1, 0), (28, 11, 0)], [])
  else if code = 0x061 then ([(16, 51, 0), (28, 11, 0)], [(24, 1, 0)])
  else if code = 0x062 then ([(16, 51, 0), (28, 11, 0)], [])
  else if code = 0x063 then ([(16, 51, 0), (24, 31, 0), (32, 0, 0), (34, 11, 0)], [(28, 31, 0)])
  else if code = 0x070 then ([(16, 51, 0), (24, 63, 0), (32, 0, 0)], [])
  else if code = 0x081 then ([(16, 17, 0)], [])
  else if code = 0x090 then ([(16, 47, 0)], [(24, 7, 7), (24, 1, 0), (25, 0, 0), (28, 31, 0)])
  else if code = 0x091 then ([(16, 51, 0), (24, 31, 0), (28, 1, 0)], [])
  else if code = 0x0A0 then ([(16, 51, 0), (24, 31, 0)], [])
  else if code = 0x0A1 then ([(20, 31, 0)], [(16, 0, 0)])
  else ([], [])

/-- The codes of R416. -/
def cmdCodes : List Nat :=
  [0x000, 0x010, 0x011, 0x012, 0x013, 0x020, 0x021, 0x022, 0x023, 0x030, 0x031, 0x032, 0x040, 0x041, 0x042, 0x043, 0x050, 0x051,
   0x052, 0x060, 0x061, 0x062, 0x063, 0x070, 0x080, 0x081, 0x090, 0x091, 0x0A0, 0x0A1]

/-- The privileged commands of R416. -/
def cmdPrivileged (code : Nat) : Bool :=
  code == 0x032 || decide (0x050 ≤ code ∧ code ≤ 0x052) || decide (0x070 ≤ code)

/-- The body checks of R417: reserved bits, and expert fields of a basic form; the pin_stride of a basic LAST.DEFINE is read only
where its kind is PINNED, and an image's fields only where CTX.FREEZE takes one. -/
def bodyBad (code : Nat) (expert : Bool) (d : Bytes) : Bool :=
  let (b, e) := bodyFields code
  let ok := bodyBits b ||| (if expert then bodyBits e else 0)
  let v := leAt d 16 46
  v &&& ok != v ||
    (code == 0x010 && !expert && leAt d 32 1 % 4 != 2 && leAt d 44 4 != 0) ||
    (code == 0x040 && !(leAt d 18 1).testBit 1 && (leAt d 20 4 != 0 || leAt d 24 4 != 0))

/-- The context a command names (R418). -/
def cmdCtx (code : Nat) (d : Bytes) : Option Nat :=
  if code = 0x010 then some (fld (leAt d 32 8) 19 8)
  else if code = 0x011 ∨ code = 0x013 then some (leAt d 18 2 % 4096)
  else if 0x020 ≤ code ∧ code ≤ 0x023 ∨ code = 0x063 then some (leAt d 34 2 % 4096)
  else if code = 0x031 ∧ (leAt d 18 1).testBit 0 then none
  else if code = 0x030 ∨ code = 0x031 ∨ 0x040 ≤ code ∧ code ≤ 0x043 then some (leAt d 16 2 % 4096)
  else if 0x060 ≤ code ∧ code ≤ 0x062 then some (leAt d 28 2 % 4096)
  else none

/-- The checks made at acceptance, in order (R392, R416 to R418): the status of the first that fails, 0 where none does. -/
def descCheck (s : State) (n : Nat) (d : Bytes) : Nat :=
  let w0 := leAt d 0 8
  let code := w0 % 4096
  if fld w0 62 48 ≠ 0 ∨ fld w0 31 18 ≠ 0 ∨ w0.testBit 12 then St.badDesc
  else if !cmdCodes.contains code then St.badOp
  else if cmdPrivileged code && decide (n ≥ 4) then St.notPrivileged
  else if bodyBad code (w0.testBit 13) d then St.badDesc
  else if code == 0x031 && (leAt d 18 1).testBit 0 && decide (n ≥ 4) then St.notPrivileged
  else if (code == 0x080 || code == 0x081) && s.pw.tetherOff then St.unsupported
  else match cmdCtx code d with
  | some c => if mayName s n c then 0 else St.ctxDenied
  | none => 0

/-! ## Acceptance (R391, R396, R397) -/

/-- Commands in flight of rings 4 to 63, and of all rings. -/
def ordinaryInflight (s : State) : Nat := (s.rg.cmds.filter fun c => decide (c.ring ≥ 4)).length

/-- Whether a ring may take a place (R396, R397, R420). -/
def hasPlace (s : State) (n : Nat) : Bool :=
  !s.hd.fenced && decide ((ringGet s n).inflight < maxInflight s n ∧ s.rg.cmds.length < 256) && (decide (n < 4) || decide (ordinaryInflight s < 240))

/-- A descriptor accepted (R391, R392, R421). -/
def acceptDesc (s : State) (n : Nat) (d : Bytes) : State :=
  let r := ringGet s n
  let code := leAt d 0 8 % 4096
  let k := s.rg.n
  let s := ringPut s n { r with cons := (r.cons + 1) % 2 ^ 32, inflight := r.inflight + 1, busy := true,
                                fetched := r.fetched.filter (· != r.cons), offer := none, behind := false, rereads := 0, rereadOut := 0 }
  let quiet := code == 0x000 || code == 0x012
  let s := { s with rg := { s.rg with
    n := k + 1
    began := s.rg.began || (cmdCodes.contains code && !quiet && code != 0x0A0)
    rrLow := if n < 4 then n else s.rg.rrLow
    rrHigh := if n < 4 then s.rg.rrHigh else n
    cmds := s.rg.cmds ++ [{ n := k, ring := n, idx := r.cons, code := code, desc := d, late := s.rg.began
                            preFreeze := code == 0x041 && s.rg.cmds.any fun x =>
                              x.code == 0x040 && x.ring != n && !x.done && leAt x.desc 16 2 % 4096 == leAt d 16 2 % 4096 }] } }
  let s := ev s Ev.command
  let st := descCheck s n d
  if st ≠ 0 then cmdEnd s k st 0 0
  else if s.pw.flowStop && !quiet then cmdEnd s k St.retention 0 0
  else if s.hl.rState ≥ 2 ∧ !quiet then cmdEnd s k St.badState 0 0
  else s

/-- The rings of a group that wait for a place, in the order of their turn (R397). -/
def turns (s : State) (lo hi last : Nat) : List Nat :=
  let ks := (s.rg.rings.filter fun e => decide (lo ≤ e.1 ∧ e.1 ≤ hi) && e.2.offer.isSome).map (·.1)
  ks.filter (fun k => decide (last < k)) ++ ks.filter (fun k => decide (k ≤ last))

/-- The phase and sequence fields of a descriptor match its index (R389). -/
def descMatches (s : State) (n idx : Nat) (d : Bytes) : Bool :=
  let w0 := leAt d 0 8
  w0.testBit 63 == phaseBit idx (descLog s n) && fld w0 47 32 == idx % 65536 && leAt d 62 2 == idx % 65536

/-- The first read of the descriptor at cons: it waits for a place, or is read again (R311, R391). -/
def descFirst (s : State) (n : Nat) (d : Bytes) : State :=
  let r := ringGet s n
  let left := r.fetched.filter (· != r.cons)
  if descMatches s n r.cons d then
    ringPut s n { r with offer := some (slice d 0 64), fetched := left, behind := false, rereads := 0, rereadOut := 0 }
  else ringPut s n { r with behind := true, rereads := 0, rereadOut := 0, fetched := left }

/-- The descriptor now at cons is taken, where its read has returned already (R391, R396). -/
def descEarly (s : State) (n : Nat) : State :=
  let r := ringGet s n
  match r.early.find? fun e => e.1 == r.cons with
  | some e => if r.parked = 0 then descFirst (ringPut s n { r with early := r.early.filter (· != e) }) n e.2 else s
  | none => s

/-- Freed places offered, one descriptor at each offer (R397). -/
def offers : Nat → State → State
  | 0, s => s
  | f + 1, s =>
    match (turns s 0 3 s.rg.rrLow ++ turns s 4 63 s.rg.rrHigh).find? (hasPlace s) with
    | none => s
    | some n =>
      match (ringGet s n).offer with
      | none => s
      | some d => offers f (fetch (descEarly (acceptDesc s n d) n) n)

/-- A command that has ended with no record: cpl_suppress, and ST_OK (R403). -/
def silent (c : Cmd) : Bool := c.done && c.status == 0 && (leAt c.desc 0 8).testBit 17

/-- A command that has left its ring: its place is free, and a ring no longer enabled drops its doorbell line when its last command
has gone (R396, R397, R401). -/
def cmdLeave (s : State) (c : Cmd) : State :=
  let r := ringGet s c.ring
  let r := { r with inflight := r.inflight - 1 }
  let off := !ringEnabled s c.ring && r.inflight == 0
  let r := { r with busy := r.inflight != 0, watch := if off then 0 else r.watch, again := r.again && !off }
  let s := ringPut { s with rg := { s.rg with cmds := s.rg.cmds.filter fun x => x.n != c.n } } c.ring r
  fetch (offers 64 s) c.ring

end Sys2Proof.Machine
end

