-- ==== Sys2Proof/Machine/Retire.lean ====
section
/-! DEFINITION. Retirement: requests, the drain of R505 step by step, and the lists of lost lines that RETIRE_DONE and FENCE_NOTICE
carry (spec/13 R502 to R507; spec/12 R474, R475). -/

namespace Sys2Proof.Machine

open Sys2Proof

/-- A retirement request for a cause (R503). -/
def raiseRetire (s : State) (reason subject : Nat) : State :=
  let s := ledAdd s 8 subject 0
  if s.hl.rState ≠ 0 then s
  else
    let s := { s with hl := { s.hl with rState := 1, rReason := reason, retires := s.hl.retires + 1 } }
    postEvent s 5 St.retireRequest 0 reason 0

/-- The drain starts (R504, R505). -/
def drainStart (s : State) : State :=
  if s.hl.rState ≥ 2 then s
  else { s with hl := { s.hl with rState := 2, rStep := 1, written := 0, lost := [] } }

/-! ## Lost lines -/

/-- A last no other slice holds: PLAIN, RECOMPUTE, or paired while SOLO or unprotected (R474), in a fenced slice as the pair stood then. -/
def unheld (s : State) (l : Last) : Bool :=
  let d := aDur l.attr
  d == 0 || d == 3 || (aPaired l.attr && (!(paired s || s.hd.fenced && s.hd.wasPaired) || l.unprot))

/-- The entries of a notice from the lines lost of each last (R475): two words each. -/
def lossEntries (s : State) (lost : List (Nat × Nat)) : List (Nat × Nat) :=
  (lost.filter fun e => e.2 != 0).map fun e =>
    let a := (lastAt s e.1).attr
    (at_ e.1 22 + at_ (aCtx a) 10 + at_ (aDur a) 7 + at_ (aKind a) 5, min e.2 (2 ^ 18 - 1))

/-- The payloads of a notice (R475): up to 100 entries in each frame. -/
def lossFrames (s : State) (reason : Nat) (lost : List (Nat × Nat)) : List (List Nat) :=
  let es := lossEntries s lost
  let total := min ((lost.map (·.2)).foldl (· + ·) 0) (2 ^ 18 - 1)
  let n := max 1 (ceilDiv es.length 100)
  (List.range n).map fun i =>
    let mine := (es.drop (100 * i)).take 100
    [at_ reason 24 + at_ (i % 256) 16 + at_ (n % 256) 8 + mine.length, total] ++ (mine.map fun e => [e.1, e.2]).flatten

/-- A count added for a last. -/
def lossAdd (m : SMap Nat) (i n : Nat) : SMap Nat := SMap.put 0 m i (SMap.get 0 m i + n)

/-- Pinned lines that no other slice holds and that are not FALLOW, by last. -/
def lostPinned (s : State) (m : SMap Nat) : SMap Nat :=
  s.arr.lines.foldl (fun m e =>
    let l := lastAt s e.2.last
    if aKind l.attr = 2 ∧ unheld s l ∧ e.2.st ≠ .fallow ∧ e.2.st ≠ .invalid then lossAdd m e.2.last 1 else m) m

/-- What the fence walk counts (R474). -/
def fenceLosses (s : State) : SMap Nat :=
  let m := lostPinned s []
  let m := s.arr.lines.foldl (fun m e =>
    let l := lastAt s e.2.last
    if aKind l.attr ≠ 2 ∧ unheld s l ∧ e.2.st = .dirty then lossAdd m e.2.last 1 else m) m
  let named := (s.arr.merges.map fun x => (x.sector / 8, x.last)).eraseDups
  named.foldl (fun m x =>
    let counted := match findLine s x.1 with
      | some k => (lineAt s k).st == .dirty
      | none => false
    if unheld s (lastAt s x.2) && !counted then lossAdd m x.2 1 else m) m

/-! ## The drain of R505 -/

/-- An atomic for a line of a list waits (R184, R188). -/
def atomWaits (s : State) (ls : List Nat) : Bool :=
  (s.arr.waiting ++ s.arr.presented).any fun o => o.kind == .atomic && ls.contains (opLine o)

/-- The readout of a window: the finished elements as bytes, and how many have range_err (R189, R190). -/
def windowResults (s : State) (w : Window) : Bytes × Nat :=
  let f := sheafReadFmt w.rf
  let rs := (List.range w.n).map fun j => (SMap.get Sheaf.zero s.ari.sheaves (w.first + j)).read f
  ((rs.map fun r => leBytes (f.width / 8) r.1).flatten, (rs.filter (·.2)).length)

/-- The lines of a window (R181). -/
def windowLines (w : Window) : List Nat :=
  (List.range (ceilDiv (w.n * ((sheafReadFmt w.rf).width / 8)) 512)).map (w.base / 512 + ·)

/-- A window and its sheaves are free (R191). -/
def windowDrop (s : State) (w : Window) : State :=
  { s with ari := { s.ari with
    windows := s.ari.windows.filter fun x => x.base != w.base
    sheaves := s.ari.sheaves.filter fun e => !decide (w.first ≤ e.1 ∧ e.1 < w.first + w.count) } }

/-- A line of a released window: DIRTY, an ordinary line of its last; a line that is open keeps the reduce_hold of its entry (R175, R191).
DEDUCED, notes/assumptions 34. -/
def windowLine (s : State) (k : Nat) : State :=
  let l := lineAt s k
  let dirty := (l.st == .clean || l.st == .fallow) && !s.gen.pendingRc.contains l.addr && (lastAt s l.last).cond == 1
  storeLine s k { l with hold := (openOf s l.addr).isSome, st := if dirty then .dirty else l.st, note := none } 0 false

/-- A window released: its sheaves are free, its lines ordinary ones (R191). -/
def windowRelease (s : State) (w : Window) : State :=
  ((windowLines w).filterMap (findLine s)).foldl windowLine (windowDrop s w)

/-- A bound window read out into its result buffer and released (R505, step 3). -/
def windowReadOut (s : State) (w : Window) : State :=
  let s := match badSheaf s w with
    | some k => windowLost s w k 10
    | none => s
  let lost := s.ari.windows.any fun x => x.base == w.base && x.lost
  let s :=
    if lost || s.hl.suspect then s
    else
      let (bs, errs) := windowResults s w
      let s := if errs = 0 then s else ev s Ev.sheafRange
      (List.range (ceilDiv bs.length 512)).foldl (fun s i =>
        let part := (bs.drop (512 * i)).take 512
        let n := s.arr.n
        let m : Msg := { addr := w.base / 512 * 512 + 512 * i, qos := aQos (lastAt s w.last).attr,
                         mask := (spanMask 0 part.length).toNat, data := part }
        serve { s with arr := { s.arr with n := n + 1 } } { n := n, kind := .wr, plan := true, m := m }) s
  windowRelease s w

/-- DIRTY lines outside PINNED lasts. -/
def looseDirty (s : State) : List Nat :=
  (s.arr.lines.filter fun e => e.2.st == .dirty && aKind (lastAt s e.2.last).attr != 2).map (·.1)

/-- One DIRTY line written back, or counted as lost where no_drain skips it (R505, step 5). -/
def retireLine (s : State) (k : Nat) : State :=
  let l := lineAt s k
  let d := aDur (lastAt s l.last).attr
  if l.filling || repairing s k then s
  else if s.hl.noDrain ∧ (d = 0 ∨ d = 3) then
    lineDrop { s with hl := { s.hl with lost := lossAdd s.hl.lost l.last 1 } } k
  else
    let (s, good) := checkLine (closeLine s l.addr) k (BitVec.allOnes 512) true 3
    if !good then s
    else match cleanSlot s k 0 with
    | (s, true) => { s with hl := { s.hl with written := s.hl.written + 1 } }
    | (s, false) => s

/-- cache_enable of every CACHE and THROUGH last cleared. -/
def disableAll (s : State) : State :=
  let s := csrPut s 0x118 (setFld (csrGet s 0x118) 56 56 0)
  { s with arr := { s.arr with lasts := SMap.mapVals {} (fun _ l =>
      if l.cond ≠ 0 ∧ aKind l.attr ≠ 2 then { l with attr := setFld l.attr 56 56 0 } else l) s.arr.lasts } }

/-- RETIRE_DONE, and the end of the drain (R505, step 7). -/
def retireDone (s : State) : State :=
  let s := (lossFrames s 0 (lostPinned s s.hl.lost)).foldl (fun s p => hdrKeep s 0x26 p) s
  let s := s.hl.rCmds.foldl (fun s n => cmdEnd s n St.ok (s.hl.written % 2 ^ 32) 0) s
  { s with hl := { s.hl with rState := 3, rCmds := [] } }

/-- The step reached, taken as far as it goes; true where it has ended. Steps 1, 2, 3 of R505 are 1, 2, 3 here, step 4 is 4 and 5,
steps 5, 6, 7 are 6, 7, 8. -/
def retireStep (s : State) : State × Bool :=
  if s.hl.rStep = 1 then (s, s.rg.cmds.all fun c => c.done || s.hl.rCmds.contains c.n)
  else if s.hl.rStep = 2 then
    if s.pl.st = 0 then (s, true) else ((if s.pl.stopAt = 0 ∧ s.pl.st ≠ 4 then planStop s else s), false)
  else if s.hl.rStep = 3 then
    -- contributions accepted before the readout are in it (R188)
    (if s.ari.windows.any fun w => atomWaits s (windowLines w) then (s, false) else (s.ari.windows.foldl windowReadOut s, true))
  else if s.hl.rStep = 4 then
    let ctxs := (s.gen.ctxs.filter fun e => e.2.st == 1).map (·.1)
    (if ctxs = [] then s else { s with gen := { s.gen with seals := s.gen.seals ++ [{ cmd := 0, ctxs := ctxs }] } }, true)
  else if s.hl.rStep = 5 then (s, s.gen.seals.isEmpty && s.gen.drains.isEmpty && (s.pr.lagged.isEmpty || !paired s))
  else if s.hl.rStep = 6 then
    let s := mergeDrainWhere s fun _ => true
    let s := (s.arr.opens.map (·.line)).foldl closeLine s
    let s := (looseDirty s).foldl retireLine s
    if (looseDirty s).isEmpty && s.arr.mhes.isEmpty && s.arr.merges.isEmpty && s.arr.evicts.isEmpty then (disableAll s, true) else (s, false)
  else if s.hl.rStep = 7 then
    let hosts := (s.coh.sf.filter fun e => e.2.st != 0).map fun e => e.2.tag
    let need := hosts.filter fun h => !snoopHolds s h
    let s := (snoopBlocks (csrBit s 0x620 15) (need.length + 1) need).foldl (fun s b =>
      if snoopRoom s then snoopIssue s { host := b.1, count := b.2, qos := csrFld s 0x3080 27 24 } else s) s
    (s, hosts.isEmpty && s.coh.snoops.isEmpty)
  else (retireDone s, false)

/-- The drain goes on. -/
def retireLoop : Nat → State → State
  | 0, s => s
  | k + 1, s =>
    if s.hl.rState ≠ 2 ∨ s.pw.pstate ≠ Ps.serving ∨ s.hd.fenced ∨ s.pw.flowStop then s
    else match retireStep s with
    | (s, true) => retireLoop k { s with hl := { s.hl with rStep := s.hl.rStep + 1 } }
    | (s, false) => s

def retirePump (s : State) : State := retireLoop 9 s

end Sys2Proof.Machine
end

