-- ==== Sys2Proof/Machine/Progress.lean ====
section
/-! DEFINITION. What goes on by itself between events: the drain walk, images, bias flips, and the ends of commands whose lines have
all been acted on (spec/08 R320 to R326, R336; spec/06 R257, R258; spec/11 R423, R424, R433, R437). -/

namespace Sys2Proof.Machine

open Sys2Proof

/-! ## Drains (R320) -/

/-- One line of a drain: logged, dropped from the walk where nothing is pending there any more, or left for later (false). -/
def drainOne (s : State) (d : Drain) (k : Nat) : State × Bool :=
  let skip := fun (s : State) => match drainOf s d.ctx d.gen with
    | some d => drainSet s { d with todo := d.todo.filter (· != k) }
    | none => s
  let l := lineAt s k
  if !(isPending s l && aCtx (lastAt s l.last).attr == d.ctx && genOfTag s d.ctx l.genTag == d.gen) then (skip s, true)
  else if repairing s k then (s, false)
  else
    let (s, good) := readWhole s k 3
    if !good then (if repairing s k then (s, false) else (skip s, true))
    else
      let l := lineAt s k
      match logLine s k l (lineView s l) false true with
      | (s, true) => (skip s, true)
      | (s, false) => (s, false)

/-- The walk of one drain, in its order, as far as it gets. -/
def drainWalk (d : Drain) : List Nat → State → State
  | [], s => s
  | k :: r, s =>
    match drainOne s d k with
    | (s, true) => drainWalk d r s
    | (s, false) => s

/-- The line field of an END record (R330). -/
def endField (carried records : Nat) : Nat :=
  at_ (b2n (decide (0 < carried))) 63 + at_ (carried % 2 ^ 31) 32 + records % 2 ^ 32

/-- The SEAL record of a drain, which its walk records follow (R331). -/
def drainSeal (s : State) (d : Drain) : State :=
  if d.sealed then s
  else
    let (s, ok) := logRecord s d.ctx d.gen 0 false false 0 3 d.sealTs 0
    match drainOf s d.ctx d.gen with
    | some d => drainSet s { d with sealed := ok }
    | none => s

/-- The END of a generation's mirror records, once its walk is over (R348). -/
def drainLag (s : State) (d : Drain) : State :=
  match drainOf s d.ctx d.gen with
  | none => s
  | some d =>
    if d.lag && !d.lagSent && d.todo.isEmpty && !bufHolds s d.ctx d.gen && paired s then
      ttSend (drainSet s { d with lagSent := true })
        { kind := 0x04, ctx := d.ctx, addr := d.gen.toNat,
          data := deltaRecord d.ctx 0 false false 0 4 (endField d.carried d.records) 0 d.gen.toNat [] }
    else s

/-- Every drain goes on. -/
def drainPump (s : State) : State :=
  if s.hd.fenced then s
  else
    let s := bufPump s.gen.bufs s
    s.gen.drains.foldl (fun s d =>
      let s := drainSeal s d
      let s := bufPump s.gen.bufs s
      drainLag (drainWalk d d.todo s) d) s

/-- ROLLBACK records that wait are written, oldest first, while the log rings have room (R357). -/
def rollPump (s : State) : State :=
  match s.pr.rollLogs with
  | [] => s
  | (ctx, base, gen) :: r =>
    match logRecord s ctx (BitVec.ofNat 32 gen) 0 false false 0 5 base 0 with
    | (s, true) => { s with pr := { s.pr with rollLogs := r } }
    | (s, false) => s

/-! ## Images (R336) -/

/-- One record of an image; false where the log ring has no room. -/
def imageRecord (s : State) (c : Cmd) (line kind : Nat) (d : LineData) : State × Bool :=
  let li := lastOfLine s line
  let (s, ok) := logRecord s (leAt c.desc 16 2) (BitVec.ofNat 32 c.acc) li true false (if kind = 1 then 0xFF else 0) kind (line * 512) d
  if ok then
    (cmdUpd s c.n fun c => { c with
      acc2 := c.acc2 + 1
      lines := c.lines.tail
      parts := [] }, true)
  else (s, false)

/-- The address a line's record carries: that of the tag where the line is pinned (R96). -/
def imageAddr (s : State) (line : Nat) : Nat :=
  if isPinned s line then match findLine s line with
    | some k => (lineAt s k).addr
    | none => line
  else line

/-- The next line of an image; false where it must wait. -/
def imageOne (s : State) (c : Cmd) (line : Nat) : State × Bool :=
  if (lastAt s (lastOfLine s line)).cond ≠ 1 then
    -- no further record of a last that FAILED (R447)
    (if c.todo ≠ 0 then (s, false) else (cmdUpd s c.n fun c => { c with lines := c.lines.tail, parts := [] }, true))
  else match c.parts with
  | (_, d) :: _ => imageRecord s c line 1 d
  | [] =>
    if c.todo ≠ 0 then (s, false)
    else match heldCheck s line 8 with
    | (s, false) => (s, false)
    | (s, true) =>
    match openOf s line with
    | some o => imageRecord s c (imageAddr s line) 1 o.data
    | none =>
      if (mheOf s line).isSome then (s, false)
      else match findLine s line with
      | some k =>
        if repairing s k then (s, false)
        else
          let l := lineAt s k
          if l.st = .fallow then imageRecord s c (imageAddr s line) 2 0
          else
            let (s, good) := checkLine s k (BitVec.allOnes 512) true 8
            if good then imageRecord s c (imageAddr s line) 1 (lineAt s k).data
            else if repairing s k then (s, false)
            else (s, true)
      | none =>
        match evictOf s line with
        | some e => imageRecord s c line 1 e.data
        | none =>
          (memRead (cmdUpd s c.n fun c => { c with todo := 1 }) (.image c.n line) (line * 512) 4 0 (csrFld s 0x3080 27 24), false)

/-- An image goes on; at its end the second END record is written and the freeze completes. -/
def imagePump : Nat → State → Nat → State
  | 0, s, _ => s
  | k + 1, s, n =>
    match cmdGet s n with
    | none => s
    | some c =>
      match c.lines with
      | [] =>
        let ctx := leAt c.desc 16 2
        let (s, ok) := logRecord s ctx (BitVec.ofNat 32 c.acc) 0 false false 0 4 c.acc2 0
        if ok then cmdEnd s n St.ok c.acc c.acc2 else s
      | line :: _ =>
        match imageOne s c line with
        | (s, true) => imagePump k s n
        | (s, false) => s

/-! ## Bias flips (R257, R258, R438) -/

def flipBase (c : Cmd) : Nat := leAt c.desc 16 8 % 2 ^ 52
def flipLen (c : Cmd) : Nat := leAt c.desc 24 8
def flipDevice (c : Cmd) : Bool := leAt c.desc 32 1 % 2 == 1

/-- A flip in progress: its words are being held, or it has taken effect and has not completed. -/
def flipRuns (c : Cmd) : Bool := c.code == 0x70 && c.started && !c.done && (c.phase == 4 || c.phase == 1)

def flipOverlaps (a b : Cmd) : Bool := decide (flipBase a < flipBase b + flipLen b ∧ flipBase b < flipBase a + flipLen a)

/-- The first page of a flip and the page after its last, counted from DRF_BIAS_LO. -/
def flipPages (s : State) (c : Cmd) : Nat × Nat :=
  let k := pageShift s
  let lo := csrFld s 0x610 51 0 >>> k
  ((flipBase c >>> k) - lo, ((flipBase c + flipLen c) >>> k) - lo)

/-- The table words of a flip. DEDUCED, notes/assumptions 27. -/
def flipWords (s : State) (c : Cmd) : List Nat :=
  let (a, b) := flipPages s c
  (List.range ((b - 1) / 64 + 1 - a / 64)).map (a / 64 + ·)

/-- A flip starts to hold its words: those the bias cache has at once, the others read by MEM (step 1 of R257). -/
def flipStart (s : State) (c : Cmd) : State :=
  (flipWords s c).foldl (fun s w =>
    let s := biasCheck s w
    match s.coh.biasCache.find? fun e => e.1 == w with
    | some e => cmdUpd s c.n fun c => { c with parts := c.parts ++ [(w, e.2.setWidth 4096)] }
    | none => biasRead (cmdUpd s c.n fun c => { c with lines := c.lines ++ [w] }) w c.n)
    (cmdUpd s c.n fun c => { c with phase := 4 })

/-- A word with the pages from `a` to `b - 1` given a bias. -/
def flipBits (w a b : Nat) (dev : Bool) (v : BitVec 64) : BitVec 64 :=
  (List.range 64).foldl (fun v i =>
    if a ≤ 64 * w + i ∧ 64 * w + i < b then
      (if dev then v ||| BitVec.ofNat 64 (2 ^ i) else v &&& ~~~BitVec.ofNat 64 (2 ^ i)) else v) v

/-- A host request in a range that has been granted a state and is not answered: its page is DEVICE now (step 2 of R257). -/
def flipHits (c : Cmd) (o : Op) : Bool :=
  o.grant != 0 && decide (flipBase c ≤ o.m.addr ∧ o.m.addr < flipBase c + flipLen c)

/-- A host request answered as for a DEVICE page (R246, R257). -/
def ungrant (c : Cmd) (o : Op) : Op := if flipHits c o then { o with grant := 0 } else o

/-- The request a MEM write answers. -/
def ungrantWr (c : Cmd) (w : MemWr) : MemWr := match w.for_ with
  | .req o => { w with for_ := .req (ungrant c o) }
  | _ => w

/-- The host requests that a flip finds granted and not answered. -/
def flipFinds (s : State) (c : Cmd) : Nat :=
  let ops := s.arr.waiting ++ s.arr.presented ++ (s.arr.mhes.map fun m => m.reads.map (·.op)).flatten ++ s.pr.sync.map (·.2)
  let req := fun (w : MemWr) => match w.for_ with
    | .req o => flipHits c o
    | _ => false
  (ops.filter (flipHits c)).length + (s.arr.memWrs.filter req).length + (s.arr.memq.filter fun q => match q with
    | .wr w _ _ => req w
    | _ => false).length

/-- Every host request in the range of a flip is answered as for a DEVICE page from its instant on (step 2 of R257). -/
def flipUngrant (s : State) (c : Cmd) : State :=
  evN { s with
    arr := { s.arr with
      waiting := s.arr.waiting.map (ungrant c)
      presented := s.arr.presented.map (ungrant c)
      mhes := s.arr.mhes.map fun m => { m with reads := m.reads.map fun r => { r with op := ungrant c r.op } }
      memWrs := s.arr.memWrs.map (ungrantWr c)
      memq := s.arr.memq.map fun q => match q with
        | .wr w d qos => .wr (ungrantWr c w) d qos
        | q => q }
    pr := { s.pr with sync := s.pr.sync.map fun e => (e.1, ungrant c e.2) } } Ev.biasHostUncached (flipFinds s c)

/-- A flip takes effect (steps 2 to 4 of R257; R258): the cache and the words other flips hold take the new values. -/
def flipApply (s : State) (c : Cmd) : State :=
  let (a, b) := flipPages s c
  let dev := flipDevice c
  let s := cmdUpd s c.n fun c => { c with phase := 1, parts := [], writes := c.parts.length }
  let s := if dev then flipUngrant s c else s
  let s := c.parts.foldl (fun s p =>
    let old := match s.coh.biasCache.find? fun e => e.1 == p.1 && !s.coh.biasUpset.contains p.1 with
      | some e => e.2
      | none => p.2.setWidth 64
    let v := flipBits p.1 a b dev old
    let s := { s with
      coh := { s.coh with biasCache := biasPut s.coh.biasCache p.1 v, biasUpset := s.coh.biasUpset.filter (· != p.1) }
      rg := { s.rg with cmds := s.rg.cmds.map fun x =>
        if x.code = 0x70 then { x with parts := x.parts.map fun q => if q.1 = p.1 then (q.1, v.setWidth 4096) else q } else x } }
    memWrite s { for_ := .cmd c.n, addr := biasAddr s p.1 } (leBytes 8 v.toNat) (csrFld s 0x3080 27 24)) s
  if dev then flipPump { s with coh := { s.coh with flips := s.coh.flips ++ [(c.n, flipBase c, flipLen c, true)] } } else s

/-- Flips go on: one whose words are held takes effect; one that waits starts when it may. -/
def flipStep (s : State) (n : Nat) : State :=
  match cmdGet s n with
  | none => s
  | some c =>
    if c.done then s
    else if c.phase = 4 ∧ c.lines = [] then flipApply s c
    else if c.phase = 3 then
      let run := s.rg.cmds.filter flipRuns
      if run.length < 4 && !run.any (flipOverlaps c) &&
          !(s.rg.cmds.any fun x => x.code == 0x70 && x.phase == 3 && !x.done && decide (x.n < n) && flipOverlaps c x) then
        let s := flipStart s c
        match cmdGet s n with
        | some c => if c.lines = [] then flipApply s c else s
        | none => s
      else s
    else s

/-! ## Replays (R337, R338) -/

/-- A line of a replay in its slot: DIRTY or FALLOW; no dirty_mask is set (R338). -/
def replayPut (s : State) (k line : Nat) (l : Line) (m : LineMask) (fallow : Bool) : State :=
  storeLine { s with gen := { s.gen with pendingRc := s.gen.pendingRc.filter (· != line) } } k
    { l with st := if fallow then .fallow else .dirty, note := none, locked := l.locked && !s.gen.pendingRc.contains line } m false

/-- One line of a replay: the bytes its `n` records carry, or FALLOW; false where it must wait (R337, R338, R344). DEDUCED,
notes/assumptions 26. A line it fills enters at age 1 (DESIGN CHOICE, notes/assumptions 35). -/
def replayLine (s : State) (line : Nat) (m : LineMask) (d : LineData) (fallow : Bool) (n : Nat) : State × Bool :=
  let li := lastOfLine s line
  let attr := (lastAt s li).attr
  let all : LineMask := BitVec.allOnes 512
  let direct := fun (s : State) => memWriteMasked s { for_ := .none, last := li } line d m (aQos attr)
  if (mheOf s line).isSome || (evictOf s line).isSome then (s, false)
  else
    let s := closeFor s line
    if !aCache attr then (direct s, true)
    else match findLine s line with
    | some k =>
      if repairing s k then (s, false)
      else
        let l := lineAt s k
        let narrow := crcLine s l && m != all && l.st != .fallow
        let (s, good) := if narrow then checkLine s k (halfBeats m) false 4 else (s, true)
        let (s, room) := if fallow then (s, true) else mirrorRoom s k
        if !good || !room then (s, false)
        else
          let l := lineAt s k
          (replayPut s k line { writeData (crcLine s l) l d m with addr := if aKind attr = 2 then line else l.addr } m fallow, true)
    | none =>
      if mheUsed s ≥ 128 then (s, false)
      else match if fallow then (s, true) else mirrorRoomMiss s line attr 1 with
      | (s, false) => (s, false)
      | (s, true) =>
        match findWay s line attr 1 (aQos attr) with
        | .busy s => (s, false)
        | .noWay s => (direct (evN s Ev.allocBypass n), true)
        | .slot s k =>
          if m = all then
            let l : Line := { addr := line, last := li, qos := aQos attr, age := 1 }
            let s := storeLine s k l 0 true
            (replayPut s k line (writeData (crcLine s l) l d m) m fallow, true)
          else
            let s := setFilling s k line li (aQos attr) 1
            (mheStart s { line := line, kind := .replay, slot := some k, qos := aQos attr, last := li, wdata := d, wmask := m }, true)

/-- A context opens at a generation (R314, R315, R615): lines of its tracked lasts written while it was IDLE join the open generation. -/
def ctxOpen (s : State) (ctx : Nat) (x : Ctx) : State :=
  let g := x.gen.toNat % 4
  let join := fun (l : Line) =>
    let li := lastOfLine s l.addr
    let a := (lastAt s li).attr
    if aTrack a && aCtx a == ctx && l.dirtyMask != 0 then { l with genTag := g, last := li } else l
  ctxPut { s with
    arr := { s.arr with lines := SMap.mapVals {} (fun _ l => join l) s.arr.lines }
    gen := { s.gen with lost := s.gen.lost.filter fun e => e.1 != ctx } } ctx { x with st := 1, stall := false }

/-- A write to a last of an IDLE context that is to be tracked is under way: it is performed before the context opens (R316, R434). -/
def writesHeld (s : State) (ctx : Nat) : Bool :=
  let mine := fun (line : Nat) =>
    let a := (lastAt s (lastOfLine s line)).attr
    aTrack a && aCtx a == ctx
  (s.arr.waiting ++ s.arr.presented ++ s.pr.sync.map (·.2)).any (fun o => (opWrites o || o.kind == .wb) && o.cmd == 0 && mine (opLine o)) ||
    s.arr.mhes.any fun m => ((m.wmask != 0 && m.kind != .replay) || m.kind == .memSide) && mine m.line

/-- The end of a replay that succeeds: its last returns to service (R340, R426), or its context opens after the target generation
(R338, R434), lines with sectors not logged joining it (R615). -/
def replayEnd (s : State) (c : Cmd) : State :=
  let target := leAt c.desc 40 4
  if c.code = 0x013 then
    let i := leAt c.desc 16 2 % 1024
    let s := lastPut s i { SMap.get {} s.arr.lasts i with cond := 1 }
    cmdEnd (postEvent s 3 St.restored 0 i target) c.n St.ok (c.acc % 2 ^ 32) 0
  else
    let ctx := leAt c.desc 16 2 % 4096
    let x := ctxGet s ctx
    let x := { x with gen := BitVec.ofNat 32 (target + 1) }
    let idle := x.st = 0
    let x := if idle then { x with ring := leAt c.desc 19 1 % 16, logEn := !(leAt c.desc 18 1).testBit 1 } else x
    if writesHeld s ctx then s
    else cmdEnd (ctxOpen s ctx x) c.n St.ok ((target + 1) % 2 ^ 32) 0

/-- A replay goes on line by line. -/
def replayPump : Nat → State → Nat → State
  | 0, s, _ => s
  | k + 1, s, n =>
    match cmdGet s n with
    | none => s
    | some c =>
      match c.recs with
      | [] => if s.arr.mhes.any fun m => m.kind == .replay then s else replayEnd s c
      | (line, m, d, f, k') :: _ =>
        match replayLine s line m d f k' with
        | (s, true) => replayPump k (cmdUpd s n fun c => { c with recs := c.recs.tail }) n
        | (s, false) => s

/-! ## Ends of commands -/

/-- The result of a range command (R433). DEDUCED, notes/assumptions 27. -/
def rangeEnd (s : State) (c : Cmd) : State :=
  let (i, st) := c.low.getD (0, St.ok)
  cmdEnd s c.n st (at_ (c.bad % 2 ^ 32) 32 + c.acted % 2 ^ 32) (min i 0xFFFFFFFF)

/-- The digest of the lines collected (R195). -/
def digestEnd (s : State) (c : Cmd) : State :=
  if c.bad ≠ 0 then cmdEnd s c.n (c.low.getD (0, St.dataError)).2 0 0
  else if s.hl.suspect then cmdEnd s c.n St.dataError 0 0
  else
    let line := fun (m : Nat) => match c.parts.find? fun p => p.1 == m with
      | some p => lineBytes p.2 0 512
      | none => []
    let count := leAt c.desc 24 4
    let stride := if (leAt c.desc 0 8).testBit 13 then leAt c.desc 28 4 else 1
    let d : BitVec 64 :=
      if leAt c.desc 32 1 % 2 = 0 then crc64 ((List.range count).map line).flatten
      else (List.range count).foldl (fun (a : BitVec 64) m =>
        a + crc64 (leBytes 8 (leAt c.desc 16 8 % 2 ^ 52 + m * stride * 512) ++ line m)) 0
    cmdEnd s c.n St.ok d.toNat c.acc

/-- The fields a LAST.DEFINE in place gives its last (R83): its record in the expert form, the defaults in the basic form (R80). -/
def definedRecord (s : State) (c : Cmd) : Last :=
  let ex := (leAt c.desc 0 8).testBit 13
  let attr := leAt c.desc 32 8
  let dflt := csrGet s 0x118
  { base := leAt c.desc 16 8
    limit := leAt c.desc 24 8
    attr := if ex then attr else setFld (setFld dflt 1 0 (fld attr 1 0)) 19 8 (fld attr 19 8)
    prefetch := if ex then leAt c.desc 40 4 else csrGet s 0x120
    pin := leAt c.desc 44 4 % 64 }

/-- A last changed in place (R83, R84): cache_enable, qos_class, way_mask and the prefetch word. -/
def lastChange (s : State) (c : Cmd) : State :=
  let i := leAt c.desc 48 2 % 1024
  let l := SMap.get {} s.arr.lasts i
  let r := definedRecord s c
  let s := lastPut s i { l with
    attr := setFld (setFld (setFld l.attr 56 56 (fld r.attr 56 56)) 23 20 (aQos r.attr)) 39 24 (aMask r.attr)
    prefetch := r.prefetch }
  cmdEnd { s with arr := { s.arr with deleting := s.arr.deleting.filter (· != i) } } c.n St.ok
    (if aKind l.attr = 2 then pinFirst l.pin else 0) 0

/-- A last removed (step 5 of R424), its pinned slots cleared (R98). -/
def lastRemove (s : State) (c : Cmd) : State :=
  let i := leAt c.desc 16 2 % 1024
  let l := SMap.get {} s.arr.lasts i
  let s := if aKind l.attr = 2 then
      (List.range (pinCount l)).foldl (fun s j => lineDrop s (pinnedSlot s (pinFirst l.pin + j))) s else s
  let s : State := { s with gen := { s.gen with
    pendingRc := s.gen.pendingRc.filter fun x => !decide (l.base ≤ x * 512 ∧ x * 512 < l.limit) } }
  cmdEnd { s with arr := { s.arr with
    lasts := SMap.del s.arr.lasts i, deleting := s.arr.deleting.filter (· != i), runs := s.arr.runs.filter fun r => r.last != i,
    streams := s.arr.streams.filter fun r => r.last != i } } c.n St.ok 0 0

/-! ## Sheaf windows (R181 to R191) -/

/-- The lines of a SHEAF.BIND, and the window it binds. -/
def bindLines (c : Cmd) : List Nat :=
  let f := sheafReadFmt (if leAt c.desc 26 1 % 4 = 2 then 0 else 1)
  (List.range (ceilDiv (leAt c.desc 24 2 * (f.width / 8)) 512)).map (leAt c.desc 16 8 % 2 ^ 52 / 512 + ·)

/-- The first of `k` blocks of 64 consecutive sheaves no window holds (R182), none of them out of allocation (R483). -/
def sheafFit (s : State) (k : Nat) : Option Nat :=
  (List.range 65).find? fun b => decide (b + k ≤ 64) && !(s.hl.banksOut.any fun x => decide (b ≤ x ∧ x < b + k)) &&
    s.ari.windows.all fun w => decide (64 * (b + k) ≤ w.first ∨ w.first + w.count ≤ 64 * b)

/-- A line resident in its slot. -/
def residentLine (s : State) (line : Nat) : Bool := match findLine s line with
  | some k => (lineAt s k).st != .invalid && !(lineAt s k).filling
  | none => false

/-- Operations on lines presented for a command; `ops` gives line, index, class and op word of each. -/
def presentLines (s : State) (c : Cmd) (kind : OpKind) (ops : List (Nat × Nat × Nat × Nat)) : State :=
  let n := s.arr.n
  let s := cmdUpd { s with arr := { s.arr with n := n + 1 } } c.n fun c => { c with phase := 1, todo := c.todo + ops.length }
  ops.foldl (fun s x => present s
    { n := n, kind := kind, cmd := c.n, idx := x.2.1, m := { addr := x.1 * 512, qos := x.2.2.1, op := x.2.2.2 } }) s

/-- The lost window that a SHEAF.BIND binds again: the same base, count and read_fmt (R192). DESIGN CHOICE, notes/assumptions 34. -/
def rebinds (c : Cmd) (w : Window) : Bool :=
  w.lost && w.base == leAt c.desc 16 8 % 2 ^ 52 && w.n == leAt c.desc 24 2 && (w.rf == 0) == (leAt c.desc 26 1 % 4 == 2)

/-- The windows as a SHEAF.BIND sees them: the lost one that it binds again is gone (R192). -/
def bindFree (s : State) (c : Cmd) : State := (s.ari.windows.filter (rebinds c)).foldl windowDrop s

/-- A window of a SHEAF.BIND overlaps one that is bound (R183). -/
def bindOverlaps (s : State) (c : Cmd) : Bool :=
  let ls := bindLines c
  s.ari.windows.any fun w => (windowLines w).any ls.contains

/-- A line of a window has a copy, or a fill on its way (R183). -/
def copyHere (s : State) (line : Nat) : Bool := residentLine s line || (mheOf s line).isSome

/-- A line of the window finds neither a copy nor a way, those that the window's other lines of its set hold or need taken off (R183). -/
def noWayFor (s : State) (ls : List Nat) (line : Nat) : Bool :=
  let set := setOf s line
  let ways := (eligible s (lastAt s (lastOfLine s line)).attr 1 set).filter fun k =>
    (lineAt s k).st == .invalid || !ls.contains (lineAt s k).addr
  !copyHere s line && decide (ways.length < (ls.filter fun x => setOf s x == set && !copyHere s x).length)

/-- The refusals of R183 that another command or a fill may have brought about since the first check: 0 where there is none. -/
def bindRefusal (s : State) (c : Cmd) : Nat :=
  let t := bindFree s c
  if bindOverlaps t c then St.badAddr
  else if (sheafFit t (ceilDiv (leAt c.desc 24 2) 64)).isNone || (bindLines c).any (noWayFor s (bindLines c)) then St.noSpace
  else St.ok

/-- A SHEAF.BIND whose fetches have ended: the window is bound once every line is resident, open ones closed first (R161, R181 to R184).
DEDUCED, notes/assumptions 34. -/
def bindStep (s : State) (c : Cmd) : State :=
  let ls := bindLines c
  let missing := ls.filter fun l => !residentLine s l
  let li := lastOfLine s (ls.headD 0)
  if c.bad ≠ 0 then cmdEnd s c.n (c.low.getD (0, St.noSpace)).2 0 0
  else if bindRefusal s c ≠ 0 then cmdEnd s c.n (bindRefusal s c) 0 0
  else if missing ≠ [] then
    presentLines s c .prefetch (missing.map fun l => (l, l - ls.headD 0, aQos (lastAt s li).attr, 8))
  else if atomWaits s ls then s
  else
    let n := leAt c.desc 24 2
    let k := ceilDiv n 64
    let s := bindFree s c
    match sheafFit s k with
    | none => cmdEnd s c.n St.noSpace 0 0
    | some b =>
      let w : Window := { base := leAt c.desc 16 8 % 2 ^ 52, n := n, rf := if leAt c.desc 26 1 % 4 = 2 then 0 else 1, first := 64 * b,
                          count := 64 * k, last := li }
      let s := ls.foldl closeLine s
      let s := (ls.filterMap (findLine s)).foldl (fun s j => linePut s j { lineAt s j with hold := true }) s
      let s := { s with ari := { s.ari with
        windows := s.ari.windows ++ [w]
        sheaves := s.ari.sheaves.filter fun e => !decide (64 * b ≤ e.1 ∧ e.1 < 64 * (b + k)) } }
      cmdEnd s c.n St.ok (at_ (64 * k) 16 + 64 * b) 0

/-- A SHEAF.READ whose result has been written (R180, R189, R191): c.acc is the digest, c.acc2 the elements with range_err. -/
def sheafReadEnd (s : State) (c : Cmd) : State :=
  let s := if (leAt c.desc 24 1).testBit 1 then
      match s.ari.windows.find? fun w => w.base == leAt c.desc 16 8 % 2 ^ 52 with
      | some w => windowRelease s w
      | none => s
    else s
  if c.bad ≠ 0 then cmdEnd s c.n (c.low.getD (0, St.dataLost)).2 c.acc c.acc2
  else cmdEnd s c.n (if c.acc2 = 0 then St.ok else St.sheafRange) c.acc c.acc2

/-- Writes that a CTX.RESUME has taken out of the freeze queue of a context and that are not performed (R335). -/
def resumeLeft (s : State) (ctx : Nat) : Bool :=
  let mine := fun (o : Op) => o.noted.testBit 7 && aCtx (lastAt s (lastOfLine s (opLine o))).attr == ctx
  let wr := fun (w : MemWr) => match w.for_ with
    | .req o => mine o
    | _ => false
  (s.arr.presented ++ s.arr.waiting ++ s.pr.sync.map (·.2)).any mine || (s.arr.mhes.any fun m => m.reads.any fun r => mine r.op) ||
    (s.arr.memWrs.any wr) || (s.arr.memq.any fun q => match q with
      | .wr w _ _ => wr w
      | .rd _ => false)

/-- A CTX.RESUME without replay ends once every queued write has been performed: the context is OPEN (R335). -/
def resumeStep (s : State) (c : Cmd) : State :=
  let ctx := leAt c.desc 16 2 % 4096
  if resumeLeft s ctx then s
  else cmdEnd (ctxPut s ctx { ctxGet s ctx with st := 1, stall := false, resuming := false }) c.n St.ok (ctxGet s ctx).gen.toNat 0

/-- A command whose lines and writes are all done. -/
def cmdFinal (s : State) (c : Cmd) : State :=
  if 0x20 ≤ c.code ∧ c.code ≤ 0x23 then rangeEnd s c
  else if c.code = 0x10 then lastChange s c
  else if c.code = 0x11 then lastRemove s c
  else if c.code = 0x42 then cmdEnd s c.n St.ok 0 0
  else if c.code = 0x60 then bindStep s c
  else if c.code = 0x61 then sheafReadEnd s c
  else if c.code = 0x63 then digestEnd s c
  else if c.code = 0x70 ∧ !flipDevice c then cmdEnd s c.n St.ok c.acc 0
  else s

/-- One command goes on. -/
def cmdStep (s : State) (n : Nat) : State :=
  match cmdGet s n with
  | none => s
  | some c =>
    if c.done || !c.started then s
    else if c.code = 0x63 ∧ c.phase = 1 ∧ c.bad ≠ 0 then digestEnd s c
    else if c.phase = 1 ∧ c.todo = 0 ∧ c.writes = 0 then cmdFinal s c
    else if c.phase = 2 then imagePump (c.lines.length + 1) s n
    else if c.phase = 6 then replayPump (c.recs.length + 1) s n
    else if c.phase = 10 then resumeStep s c
    else if c.code = 0x70 then flipStep s n
    else s

/-! ## STAGE_OUT write-backs (R324, R351) -/

/-- A DIRTY line's STAGE_OUT write-back of the bytes lookups see (R76, R208, R222, R323): a line with bytes not seen yet stays DIRTY. Where
its record finds no room it waits in an eviction buffer (R324); false where it must wait without one. -/
def stageOutWrite (s : State) (k : Nat) : State × Bool :=
  let line := (lineAt s k).addr
  if (evictOf s line).isSome then (s, false)
  else
    let s := closeFor s line
    let l := lineAt s k
    let attr := (lastAt s l.last).attr
    let left := (veils s line).foldl (fun (m : LineMask) v => m ||| v.mask) 0
    let d := seenData s line l.data
    let logs := tracked s attr && l.dirtyMask != 0
    let wait : Evict := { line := line, data := d, last := l.last, qos := aQos attr, waitLog := true, dirtyMask := l.dirtyMask,
                          genTag := l.genTag }
    let clean := fun (s : State) (mask : BitVec 8) =>
      storeLine s k { lineAt s k with st := if left = 0 then .clean else .dirty, dirtyMask := mask } 0 false
    match if logs then logLine s k l d true false else (s, true) with
    | (s, true) =>
      let s := clean s (if left = 0 then (if aTrack attr then (lineAt s k).dirtyMask else 0) else if logs then sectorsOf left else l.dirtyMask)
      (memWriteLine s { for_ := .none, drop := left == 0 && aPaired attr && paired s, last := l.last } line d (aQos attr), true)
    | (s, false) =>
      if left ≠ 0 ∨ s.arr.evicts.length ≥ 32 then (s, false)
      else (clean { s with arr := { s.arr with evicts := s.arr.evicts ++ [wait] } } 0, true)

/-- A STAGE_OUT write-back that waits is kept for later. -/
def stageOutKeep (s : State) (line : Nat) : State :=
  if s.pl.stageOuts.contains line then s else { s with pl := { s.pl with stageOuts := s.pl.stageOuts ++ [line] } }

/-- A DIRTY line of a STAGE_OUT that PAIRED_LAG holds locked (R351). -/
def lagLocked (s : State) (l : Line) : Bool := l.locked && aDur (lastAt s l.last).attr == 2

/-- The write-backs that wait are made as soon as they may be (R324, R351); one whose line is DIRTY no longer has nothing to write. -/
def stageOutPump (s : State) : State :=
  s.pl.stageOuts.foldl (fun s line =>
    let gone := fun (s : State) => { s with pl := { s.pl with stageOuts := s.pl.stageOuts.filter (· != line) } }
    match findLine s line with
    | none => gone s
    | some k =>
      let l := lineAt s k
      if l.st ≠ .dirty then gone s
      else if repairing s k || lagLocked s l then s
      else match checkLine (closeFor s line) k (BitVec.allOnes 512) true 3 with
      | (s, false) => s
      | (s, true) => match stageOutWrite s k with
        | (s, true) => gone s
        | (s, false) => s) s

/-- Commands that end with no record, and operations of commands that have ended, leave (R396, R403). -/
def cmdSweep (s : State) : State :=
  let s := (s.rg.cmds.filter silent).foldl cmdLeave s
  let live := fun (o : Op) => o.cmd == 0 || s.rg.cmds.any fun c => c.n == o.cmd && !c.done
  { s with arr := { s.arr with waiting := s.arr.waiting.filter live, presented := s.arr.presented.filter live } }

/-- Entry into safe retention ends once every request issued has completed and the plan is IDLE (R557). -/
def entryEnd (s : State) : State :=
  if s.pw.flowStop && (s.pw.pstate == Ps.serving || s.pw.pstate == Ps.quiesce) && s.arr.waiting.isEmpty && s.pl.st == 0 then
    { s with pw := { s.pw with pstate := Ps.retention, quiesced := s.pw.pstate == Ps.quiesce, ready := false } }
  else s

/-- The slice goes on as far as it can: requests, drains, commands, and requests they let go. A quiesce, an entry into safe retention and
a fence complete only what has been issued (R473, R555, R557). -/
def advance (s : State) : State :=
  if serving s then
    let s := stageOutPump (rollPump (drainPump (pump s)))
    let s := (s.rg.cmds.map (·.n)).foldl cmdStep s
    retirePump (cmdSweep (pump s))
  else if s.pw.pstate = Ps.serving ∨ s.pw.pstate = Ps.quiesce ∨ s.pw.pstate = Ps.fenced then entryEnd (cmdSweep (pump s))
  else if s.pw.pstate = Ps.retention then cmdSweep s
  else s

end Sys2Proof.Machine
end

