-- ==== Sys2Proof/Machine/Frames.lean ====
section
/-! DEFINITION. Frames of the headland ring addressed to the slice, its own frames sent again, heartbeats, the fence by frame, watchdog
and guard, and the fence walk (spec/01 R50; spec/12 R466 to R475; spec/14 R538, R539). -/

namespace Sys2Proof.Machine

open Sys2Proof

/-- The frame types accepted from the master (R468): ACK, FENCE, register reads and writes, OPPOINT_SET, STRESS_SET, RETIRE_GO,
REG_READING, TIME_SECONDS. -/
def frameTaken (t : Nat) : Bool := [0x04, 0x05, 0x10, 0x11, 0x21, 0x23, 0x25, 0x30, 0x31].contains t

/-- A frame that reaches the stop (R50, R52, R468): taken where it is addressed to the slice by an ACTIVE stop, or by a fenced slice's;
discarded where an ACTIVE stop finds its parity bad; every other frame goes on, a broadcast too. -/
def hdrGate (s : State) (f : Frame) (take : State → State) : State :=
  let active := s.hd.mode = 0
  let mine := f.dst = stopAddr s ∨ f.dst = 0xFFFF
  if active && f.bad then
    postError s St.portParity { unit := 11, action := 8, detector := 6, detail := at_ 5 28 }
  else
    let s := if f.dst ≠ stopAddr s ∨ !(active || (s.hd.fenced && s.hd.mode == 1)) then drive s (.hdr f) else s
    if mine ∧ (active || (s.hd.fenced && s.hd.mode == 1)) then (if frameTaken f.type then take s else ev s Ev.hdrBad) else s

/-- The ACK of a frame (R469). -/
def hdrAckSend (s : State) (f : Frame) : State := hdrSend s 4 f.src [f.seq % 65536]

/-- FENCE_FRAME (R472). -/
def execFenceFrame (f : Frame) (s : State) : Host.Outcome State Fault Refusal :=
  .next (hdrGate s f fun s => advance (fence (hdrAckSend s f) 1))

/-- The slice is out of cold reset with its control island running, and not fused off. -/
def alive (s : State) : Bool := controlRuns s && s.pw.pstate != Ps.reset && !s.pw.fusedOff

/-- WATCHDOG_TIMEOUT (R472). -/
def execWatchdogTimeout (s : State) : Host.Outcome State Fault Refusal := .next (if alive s then fence s 3 else s)

/-- FABRIC_GUARD_TIMEOUT (R472). -/
def execFabricGuardTimeout (s : State) : Host.Outcome State Fault Refusal := .next (if alive s then fence s 4 else s)

/-- The fence walk could not run: without the arrays' rail, access to them, their supply or their clock (R475). -/
def walkStopped (s : State) : Bool := s.pw.arrDown || s.pw.arrStopped || s.pw.coreDown || !s.pw.clocks.getLsbD 3

/-- The fence walk has ended: its notice is sent (R474, R475). -/
def fenceWalkDone (s : State) : State :=
  let frames := if walkStopped s then [[at_ s.hd.reason 24 + at_ 1 8, 2 ^ 31]] else lossFrames s s.hd.reason (fenceLosses s)
  frames.foldl (fun s p => hdrKeep s 3 p) { s with hd := { s.hd with walkDone := true } }

/-- FENCE_WALK_DONE. -/
def execFenceWalkDone (s : State) : Host.Outcome State Fault Refusal :=
  .next (if s.hd.fenced ∧ !s.hd.walkDone then fenceWalkDone s else s)

/-- An ACK (R469, R479). -/
def hdrAck (s : State) (f : Frame) : State :=
  let seq := f.payload.headD 0 % 65536
  let s := { s with hd := { s.hd with unacked := s.hd.unacked.filter fun e => e.1.seq != seq } }
  { s with hd := { s.hd with noticeAcked := s.hd.walkDone && !(s.hd.unacked.any fun e => e.1.type == 3) } }

/-- HDR_ACK. -/
def execHdrAck (f : Frame) (s : State) : Host.Outcome State Fault Refusal := .next (hdrGate s f fun s => hdrAck s f)

/-- A frame sent again (R469, R501): ERROR, OPPOINT_PROPOSE and STRESS_DONE are given up after 8 sends. -/
def frameResend (s : State) (seq : Nat) : State :=
  match s.hd.unacked.find? fun e => e.1.seq == seq with
  | none => s
  | some (f, n) =>
    if !(s.hd.mode == 0 || (s.hd.fenced && s.hd.mode == 1 && f.type == 3)) then s
    else if n ≥ 8 ∧ f.type ≠ 3 ∧ f.type ≠ 0x26 then
      ev { s with hd := { s.hd with unacked := s.hd.unacked.filter fun e => e.1.seq != seq } } Ev.hdrUndelivered
    else
      drive { s with hd := { s.hd with unacked := s.hd.unacked.map fun e => if e.1.seq = seq then (e.1, n + 1) else e } } (.hdr f)

/-- FRAME_RESEND. -/
def execFrameResend (seq : Nat) (s : State) : Host.Outcome State Fault Refusal := .next (frameResend s seq)

/-- HEARTBEAT (R468, R470). -/
def heartbeat (s : State) : State :=
  let w0 := b2n s.pw.ready + at_ (b2n (s.hl.rState != 0)) 1 + at_ (b2n s.pw.flowStop) 2 + at_ (b2n s.tm.lost) 3 + at_ (s.pr.st % 16) 4
  hdrSend s 2 (csrFld s 0x0C28 31 16) [w0, tsNs s % 2 ^ 32]

/-- HEARTBEAT. -/
def execHeartbeat (s : State) : Host.Outcome State Fault Refusal :=
  .next (if s.hd.mode = 0 ∧ csrBit s 0x0C28 15 then heartbeat s else s)

/-- The ageing period in ns (R508). -/
def ageingPeriod (s : State) : Nat := max 60 (csrFld s 0xD00 15 0) * 10 ^ 9

/-- Voltages that differ by 5 mV or more. -/
def apart (a b : Nat) : Bool := decide (a + 5 ≤ b ∨ b + 5 ≤ a)

/-- The subject of the ledger entry of the latest ageing sample (R481). -/
def ageSubject (h : Health) : Nat := at_ h.margin 16 + at_ h.dArr 8 + h.dCore

/-- A proposal where the latest sample's voltages are not those applied (R501). DESIGN CHOICE, notes/assumptions 12. -/
def propose (s : State) : State :=
  let h := s.hl
  let w := at_ (h.propArr % 65536) 16 + h.propCore % 65536
  if h.propCore != 0 && (apart h.propCore h.vCore || apart h.propArr h.vArr) &&
      (h.proposed == 0 || decide (h.proposed - 1 + ageingPeriod s ≤ tsNs s)) then
    let s := hdrKeep { s with hl := { h with proposed := tsNs s + 1 } } 0x20 [w, ageSubject h]
    ledAdd (postEventFree s 5 St.oppointProposed) 7 w 0
  else s

/-- OPPOINT_SET (R501): the applied point, entered in the ledger; one that is not what the latest sample proposes may be answered by a new
proposal. -/
def oppointSet (s : State) (f : Frame) : State :=
  let w := f.payload.headD 0
  propose (ledAdd { s with hl := { s.hl with vCore := w % 65536, vArr := fld w 31 16 } } 7 (w % 2 ^ 32) 1)

/-- OPPOINT_SET. -/
def execOppointSet (f : Frame) (s : State) : Host.Outcome State Fault Refusal := .next (hdrGate s f fun s => oppointSet s f)

/-- REG_READING (R538, R539). -/
def execRegReading (f : Frame) (s : State) : Host.Outcome State Fault Refusal :=
  .next (hdrGate s f fun s => regReading s (fld (f.payload.getD 0 0) 31 29) (f.payload.getD 1 0 % 2 ^ 32) (f.payload.getD 2 0 % 2 ^ 32))

/-- TIME_SECONDS (R539): DRF_PPS_SECONDS is loaded and a set edge armed. -/
def timeSeconds (s : State) (f : Frame) : State :=
  let s := csrPut s 0x0E10 (f.payload.getD 0 0 % 2 ^ 32 + at_ (f.payload.getD 1 0 % 4) 32)
  { s with tm := { s.tm with armed := true } }

/-- TIME_SECONDS. -/
def execTimeSeconds (f : Frame) (s : State) : Host.Outcome State Fault Refusal := .next (hdrGate s f fun s => timeSeconds s f)

/-- RETIRE_GO (R502, R504). -/
def retireGo (s : State) : State :=
  advance (drainStart (if s.hl.rState = 0 then raiseRetire s 8 8 else s))

/-- RETIRE_GO. -/
def execRetireGo (f : Frame) (s : State) : Host.Outcome State Fault Refusal := .next (hdrGate s f retireGo)

end Sys2Proof.Machine
end

