-- ==== Sys2Proof/Machine/Requests.lean ====
section
/-! DEFINITION. Demand messages as they arrive: parity, the fence, the checks of R272, the hedge, acceptance, and the rows of the
demand traffic (spec/06 R243 to R281; spec/07 R284 to R291; spec/12 R450, R473; spec/16 R564 to R568). -/

namespace Sys2Proof.Machine

open Sys2Proof

/-! ## The hedge (R564 to R568) -/

/-- The class of a requester (R564). -/
def hedgeClass (s : State) (src : Nat) : Nat :=
  match (List.range 16).find? fun m =>
    let v := csrGet s (0x0F40 + 8 * m)
    v.testBit 63 && (src &&& fld v 41 24) == (fld v 17 0 &&& fld v 41 24) with
  | some m => csrFld s (0x0F40 + 8 * m) 50 48
  | none => csrFld s 0x0F00 26 24

/-- A class the package manager has fenced (R568). -/
def hedgeFenced (s : State) (c : Nat) : Bool := csrBit s 0x0F00 (8 + c)

/-- A valid window that covers the page of an address and grants a class what it needs: bit 0 rd, bit 1 wr (R566). -/
def hedgeGrants (s : State) (addr c need : Nat) : Bool :=
  (List.range 64).any fun n =>
    let b := csrGet s (0x5000 + 32 * n)
    let p := csrGet s (0x5010 + 32 * n)
    let page := addr / 4096 * 4096
    b.testBit 63 && decide (fld b 51 0 ≤ page ∧ page + 4096 ≤ csrFld s (0x5008 + 32 * n) 51 0) &&
      (!need.testBit 0 || p.testBit (8 + c)) && (!need.testBit 1 || p.testBit c)

/-- Whether the hedge passes a request (R566). -/
def hedgePasses (s : State) (m : Msg) (c need : Nat) : Bool :=
  need == 0 || !csrBit s 0x0F00 31 || csrBit s 0x0F00 c || hedgeGrants s m.addr c need

/-- A denial latched, counted and, once per class and ms, posted (R567). DEDUCED, notes/assumptions 23. -/
def hedgeDeny (s : State) (m : Msg) (c : Nat) : State :=
  let port := tracePort m.port
  let x := s.sec
  let x := if x.denied then x else { x with denied := true, dClass := c, dPort := port, dSrc := m.src }
  let k := tsNs s / 1000000 + 1
  let s := { s with sec := { x with dCount := satInc 32 x.dCount, dEvent := SMap.put 0 x.dEvent c k } }
  if SMap.get 0 x.dEvent c = k then s
  else postEvent s 0 St.hedgeDenied 0 m.addr (at_ port 21 + at_ c 18 + m.src)

/-! ## What every message meets (R16, R266, R450, R473) -/

/-- A received message metered, its credit returned, on BLK one for each beat (R19, R266, R268, R516, R536); a quiesce returns no SNP, REQ
or STM credit (R555). DEDUCED, notes/assumptions 5. -/
def arrives (s : State) (m : Msg) (cls payload : Nat) : State :=
  let c := coverCtx s m.addr
  if m.port = .blk then
    (List.range (payload / 256)).foldl (fun s _ => returnCredit s .blk 0) (activity (meter s m.qos 1 payload) m.qos c 3 (payload / 256))
  else
    let s := activity (meter s m.qos 2 (msgBytes m.port payload)) m.qos c 4
      (msgBytes m.port payload / (if m.port = .hst then 64 else 16))
    if s.pw.pstate = Ps.quiesce ∧ 2 ≤ cls then s else returnCredit s m.port cls

/-- Port codes of the detail of unit 11 (R465). -/
def portCode (p : Port) : Nat :=
  match p with
  | .blk => 0
  | .ctl => 1
  | .syn => 2
  | .hst => 3
  | _ => 5

/-- The record of a beat that fails parity (R450, R465). -/
def parityRecord (s : State) (m : Msg) : State :=
  let ok := m.parity != .header
  postError s St.portParity
    { unit := 11, addr := if ok then m.addr else 0, action := 8, detector := 6,
      detail := at_ (portCode m.port) 28 + (if ok then 2 ^ 27 + m.src else 0) }

/-- The kinds of request that R270 names. -/
inductive Rq where
  | rd | rdBlk | wr | wrMask | blkWr | blkAtl | atomic | hostDrop | conflict | fence | hint
  deriving DecidableEq, Repr

/-- The kind of the operation a request makes. -/
def Rq.op : Rq → OpKind
  | .rd => .rd
  | .rdBlk => .rdBlk
  | .wr | .wrMask | .blkWr | .conflict | .fence => .wr
  | .blkAtl | .atomic => .atomic
  | .hostDrop => .hostDrop
  | .hint => .hint

/-- Class and opcode of R270. -/
def Rq.code : Rq → Nat × Nat
  | .rd => (3, 0)
  | .rdBlk => (3, 1)
  | .wr | .blkWr => (3, 2)
  | .wrMask => (3, 3)
  | .blkAtl | .atomic => (3, 4)
  | .hostDrop => (3, 5)
  | .conflict => (3, 6)
  | .fence => (3, 8)
  | .hint => (4, 0)

/-- Payload bytes of a request (R270, R274). -/
def Rq.payload (k : Rq) (m : Msg) : Nat :=
  match k with
  | .wr => m.size + 1
  | .wrMask => 72
  | .blkWr => 256
  | .blkAtl => 512
  | .atomic => 8 + m.data.length
  | .hint => 9 + m.size
  | _ => 0

/-- Permissions of R566: bit 0 rd, bit 1 wr. -/
def Rq.need : Rq → Nat
  | .rd | .rdBlk => 1
  | .wr | .wrMask | .blkWr | .hint => 2
  | .blkAtl | .atomic => 3
  | .hostDrop | .conflict | .fence => 0

/-- The command a request arrives by. -/
def Rq.instr (k : Rq) (m : Msg) : Instr :=
  match k with
  | .rd => .rd m
  | .rdBlk => .rdBlk m
  | .wr => .wr m
  | .wrMask => .wrMask m
  | .blkWr => .blkDemandWr m
  | .blkAtl => .blkAtl m
  | .atomic => .atomic m
  | .hostDrop => .hostDrop m
  | .conflict => .biConflict m
  | .fence => .fence m
  | .hint => .hintWr m

/-- The operation of a request: a plain WR selects every byte it covers. -/
def Rq.toOp (k : Rq) (m : Msg) (n : Nat) : Op :=
  let m' := match k with
    | .wr | .hint => { m with mask := 2 ^ (m.size + 1) - 1 }
    | .blkWr => { m with size := 255 }
    | _ => m
  { n := n, kind := k.op, m := m' }

/-- A request refused with the answer R270 names for its opcode; a reserved opcode has none, and CMP answers it (DESIGN CHOICE,
notes/assumptions 32). -/
def refuse (s : State) (k : Rq) (m : Msg) (status : Nat) : State :=
  if m.unlisted ≠ 0 then cmpl s m status 0 else
  match k with
  | .conflict => sendMsg s .hst { cls := 1, opcode := 2, status := status, qos := m.qos, tag := m.tag, dst := m.src, addr := m.addr, size := m.size }
  | _ => finish s (k.toOp m 0) status

/-- Check 1 of R272: reserved fields, mod, port and direction (R270, R271, R274, R279). -/
def badOp (s : State) (k : Rq) (m : Msg) : Bool :=
  let peer := fromPeer s m
  let host := fromHost s m
  m.rsvd || m.unlisted == 1 ||
  match k with
  | .rd | .wr | .wrMask => if host then decide (m.mod > 2) else !peer && m.mod != 0
  | .rdBlk => m.port != .ctl || decide (m.mod > 1)
  | .blkWr => m.mod != 0 || m.op != 0
  | .blkAtl => m.mod != 0 || decide (m.op ≥ 2 ^ 9) || m.op % 32 != 0x18
  | .atomic => host || (!peer && m.mod != 0) || decide (m.op ≥ 2 ^ 9) || m.op % 32 == 0x18
  | .hostDrop | .conflict => !host || m.mod != 0
  | .fence => decide (m.mod > 2)
  | .hint => (!peer && m.mod != 0) || decide (m.op ≥ 2 ^ 17) || (peer && m.op.testBit 16)

/-- Check 2 of R272: size, and the line it must lie in; a block view's addr names a bale and a block (R133). -/
def badSize (s : State) (k : Rq) (m : Msg) : Bool :=
  let view := blockView (lastAt s (lastOf s m.addr)).attr m
  match k with
  | .rd | .wr | .hint => decide (m.size > 255) || (!view && decide (m.addr % 512 + m.size ≥ 512))
  | .atomic => decide (m.size > 255) || decide (m.addr % 512 + m.size ≥ 512)
  | .wrMask | .hostDrop | .conflict => m.size != 63
  | .rdBlk | .fence => m.size != 0
  | .blkWr => m.size != 255
  | .blkAtl => false

/-- Check 3 of R272: alignment. A BLK demand WR to a baled last names a bale and a block (R133), and the model asks no 256-byte alignment of
it (DESIGN CHOICE, notes/assumptions 34). -/
def badAddr (s : State) (k : Rq) (m : Msg) : Bool :=
  let baled := aBaled (lastAt s (lastOf s m.addr)).attr
  match k with
  | .wrMask | .hostDrop | .conflict => m.addr % 64 != 0
  | .rdBlk => !baled && m.addr % (if m.mod = 1 then 512 else 256) != 0
  | .blkWr => !baled && m.addr % 256 != 0
  | .fence => m.addr != 0
  | _ => false

/-- The status of the first check of R272 that fails, 0 where none does. DEDUCED, notes/assumptions 23. -/
def reqCheck (s : State) (k : Rq) (m : Msg) : Nat :=
  if badOp s k m then St.badOp else if badSize s k m then St.badSize else if badAddr s k m then St.badAddr else 0

/-- A request accepted: its number drawn, its answer owed. -/
def accept (s : State) (m : Msg) : State × Nat :=
  let n := s.arr.n
  ({ s with
     pw := { s.pw with locked := true }
     arr := { s.arr with
       n := n + 1
       owed := s.arr.owed ++ [{ n := n, port := m.port, src := m.src, tag := m.tag, addr := m.addr, size := m.size }] } }, n)

/-- A FENCE or BI_CONFLICT accepted (R278, R290). -/
def fenceAccept (s : State) (m : Msg) (conflict : Bool) : State :=
  let n := s.arr.n
  { s with
    pw := { s.pw with locked := true }
    arr := { s.arr with n := n + 1, fences := s.arr.fences ++ [{ n := n, m := m, conflict := conflict }] } }

/-- A demand request as it arrives: it waits in BACKUP_HOLD (R560); the mesh keeps it while SLICE_READY is low (R476, R558). -/
def receive (s : State) (k : Rq) (m : Msg) : State :=
  let live := m.parity != .header
  if s.hd.fenced then
    let s := arrives s m k.code.1 (k.payload m)
    if live && m.unlisted != 2 then refuse s k m St.fenced else s
  else if s.pw.pstate = Ps.backupHold ∧ s.pw.ready then { s with held := s.held ++ [k.instr m] }
  else if !serving s then s
  else
    let s := arrives s m k.code.1 (k.payload m)
    let c := hedgeClass s m.src
    if m.parity = .header then parityRecord s m
    else if m.parity = .payload then parityRecord (if m.unlisted = 2 then s else refuse s k m St.dataError) m
    else if m.unlisted = 2 then ev s Ev.msgBad
    else if hedgeFenced s c then refuse (hedgeDeny s m c) k m St.hedgeDenied
    else if reqCheck s k m ≠ 0 then refuse s k m (reqCheck s k m)
    else if !hedgePasses s m c k.need then refuse (hedgeDeny s m c) k m St.hedgeDenied
    else match k with
    | .fence => advance (fenceAccept (traceAccept s s.arr.n k.code.1 k.code.2 m) m false)
    | .conflict => advance (fenceAccept (traceAccept s s.arr.n k.code.1 k.code.2 m) m true)
    | _ =>
      let (s, n) := accept s m
      let s := traceAccept s n k.code.1 k.code.2 m
      advance (present s (k.toOp m n))

/-! ## The rows -/

/-- RD (R270, R295). -/
def execRd (m : Msg) (s : State) : Host.Outcome State Fault Refusal := .next (receive s .rd m)

/-- RD_BLK (R270, R275, R613). -/
def execRdBlk (m : Msg) (s : State) : Host.Outcome State Fault Refusal := .next (receive s .rdBlk m)

/-- WR (R270, R285). -/
def execWr (m : Msg) (s : State) : Host.Outcome State Fault Refusal := .next (receive s .wr m)

/-- WR_MASK (R270). -/
def execWrMask (m : Msg) (s : State) : Host.Outcome State Fault Refusal := .next (receive s .wrMask m)

/-- A demand WR on BLK (R274, R286). -/
def execBlkDemandWr (m : Msg) (s : State) : Host.Outcome State Fault Refusal := .next (receive s .blkWr { m with port := .blk })

/-- An ATL on BLK (R174, R274). -/
def execBlkAtl (m : Msg) (s : State) : Host.Outcome State Fault Refusal := .next (receive s .blkAtl { m with port := .blk })

/-- ATOMIC (R154 to R173). -/
def execAtomic (m : Msg) (s : State) : Host.Outcome State Fault Refusal := .next (receive s .atomic m)

/-- HOST_DROP (R246). -/
def execHostDrop (m : Msg) (s : State) : Host.Outcome State Fault Refusal := .next (receive s .hostDrop m)

/-- BI_CONFLICT (R278). -/
def execBiConflict (m : Msg) (s : State) : Host.Outcome State Fault Refusal := .next (receive s .conflict m)

/-- FENCE (R290, R291). -/
def execFence (m : Msg) (s : State) : Host.Outcome State Fault Refusal := .next (receive s .fence m)

/-- HINT_WR (R261 to R263). -/
def execHintWr (m : Msg) (s : State) : Host.Outcome State Fault Refusal := .next (receive s .hint m)

/-! ## DAT and RSP messages (R266, R272) -/

/-- A DAT or RSP message as it arrives: held in safe retention (R558), sunk by a fence, discarded where it fails parity or a check,
else acted on by `f`. -/
def sink (s : State) (c : Instr) (m : Msg) (cls payload : Nat) (ok : Bool) (f : State → State) : State :=
  if s.hd.fenced then arrives s m cls payload
  else if s.pw.pstate = Ps.retention ∨ (s.pw.pstate = Ps.backupHold ∧ !s.pw.coreDown) then { s with held := s.held ++ [c] }
  else if s.pw.pstate ≠ Ps.serving ∧ s.pw.pstate ≠ Ps.quiesce then s
  else
    let s := arrives s m cls payload
    if m.parity ≠ .ok then parityRecord s m
    else if hedgeFenced s (hedgeClass s m.src) then s
    else if !ok || m.unlisted != 0 then ev s Ev.msgBad
    else f s

/-- The tracker entry that holds a host line. -/
def snoopOf (s : State) (h : Nat) : Option Snoop := s.coh.snoops.find? fun x => decide (x.host ≤ h ∧ h < x.host + x.count)

/-- A tracker entry changed, and freed once its BI_RSP and every SNP_WB its mask names are in (R248). -/
def snoopUpd (s : State) (x : Snoop) : State :=
  let answered := match x.rsp with
    | some m => (m &&& ~~~x.wb) == 0
    | none => false
  let left := if answered then s.coh.snoops.filter (fun y => y.host != x.host)
    else s.coh.snoops.map (fun y => if y.host = x.host then x else y)
  { s with coh := { s.coh with snoops := left } }

/-- SNP_WB data accepted (R248, R259): stored bytes, in a baled last too, where R135 lets a host write change nothing (DESIGN CHOICE,
notes/assumptions 35). -/
def snpWb (s : State) (m : Msg) : State :=
  let h := m.addr / 64
  match snoopOf s h with
  | none => s
  | some x =>
    let s := if x.dropWb then s
      else
        let n := s.arr.n
        serveFirst { s with arr := { s.arr with n := n + 1 } }
          { n := n, kind := .wb, m := { m with port := .hst, size := 63, mask := 2 ^ 64 - 1 } }
    advance (snoopUpd s { x with wb := x.wb ||| BitVec.ofNat 4 (2 ^ (h - x.host)) })

/-- SNP_WB. -/
def execSnpWb (m : Msg) (s : State) : Host.Outcome State Fault Refusal :=
  .next (sink s (.snpWb m) m 0 64 (m.port == .hst && !m.rsvd && m.mod == 0 && m.size == 63 && m.addr % 64 == 0) fun s => snpWb s m)

/-- What a BI_RSP leaves in the snoop filter (R257, R259): BI_SNP_INV removes the entries, BI_SNP_DATA leaves the state reported;
a victim's entry has gone already (R247). -/
def rspFilter (s : State) (x : Snoop) (st : Nat) : State :=
  if x.victim then s
  else (List.range x.count).foldl (fun s i =>
    match sfFind s (x.host + i) with
    | none => s
    | some k => if !x.data ∨ st = 0 then sfPut s k {} else sfPut s k { sfAt s k with st := 1 }) s

/-- BI_RSP accepted (R248, R259). -/
def biRsp (s : State) (m : Msg) : State :=
  match s.coh.snoops.find? fun x => decide (x.host = m.addr / 64 ∧ 64 * x.count = m.size + 1) && x.rsp.isNone with
  | none => s
  | some x =>
    let s := rspFilter s x m.mod
    advance (snoopUpd s { x with rsp := some (BitVec.ofNat 4 (m.status % 2 ^ x.count)) })

/-- BI_RSP. -/
def execBiRsp (m : Msg) (s : State) : Host.Outcome State Fault Refusal :=
  .next (sink s (.biRsp m) m 1 0 (m.port == .hst && !m.rsvd && decide (m.mod ≤ 1) &&
    (m.size == 63 || m.size == 127 || m.size == 255) && m.addr % (m.size + 1) == 0) fun s => biRsp s m)

/-- HINT_ACK accepted (R264). -/
def hintAck (s : State) (m : Msg) : State :=
  match s.coh.pushes.find? fun p => p.tag == m.tag && p.host == m.addr / 64 with
  | none => s
  | some p =>
    let s := { s with coh := { s.coh with pushes := s.coh.pushes.filter fun q => q.tag != p.tag } }
    advance (if m.mod = 0 then ev (sfDrop s p.host) Ev.hintDeclined else s)

/-- HINT_ACK. -/
def execHintAck (m : Msg) (s : State) : Host.Outcome State Fault Refusal :=
  .next (sink s (.hintAck m) m 1 0 (m.port == .hst && !m.rsvd && decide (m.mod ≤ 1) && m.size == 63 && m.addr % 64 == 0)
    fun s => hintAck s m)

/-- A snoop of a host line unanswered for 1 ms (R281, R451): reported once, its entry stays. -/
def biTimeout (s : State) (host : Nat) : State :=
  match s.coh.snoops.find? fun x => x.host == host && x.rsp.isNone && !x.reported with
  | none => s
  | some x =>
    let s := snoopUpd s { x with reported := true }
    let li := lastOf s (host * 64)
    postError s St.biTimeout { unit := 15, addr := host * 64, last := li, ctx := aCtx (lastAt s li).attr, detector := 10 }

/-- BI_TIMEOUT (R281, R451). -/
def execBiTimeout (host : Nat) (s : State) : Host.Outcome State Fault Refusal :=
  .next (if s.hd.fenced then s else biTimeout s host)

end Sys2Proof.Machine
end

