-- ==== Sys2Proof/Machine/Rings.lean ====
section
/-! DEFINITION. Command rings: doorbells, descriptor fetch and acceptance, completion records, interrupts, and the start of a
command (spec/10; spec/07 R305 to R312; spec/11 R416 to R421). -/

namespace Sys2Proof.Machine

open Sys2Proof

/-! ## The doorbell line (R265, R393 to R395) -/

/-- A reading of the doorbell line: GO and data have both arrived (R395). DEDUCED, notes/assumptions 30. -/
def doorbell (s : State) (n prod cpl evt : Nat) : State :=
  let r := ringGet s n
  if r.watch ≠ 1 then s
  else
    let evt := if n < 4 then evt else 0
    let same := r.read && r.prod == prod && r.cplCons == cpl && r.evtCons == evt
    let s := if same then ev s Ev.doorbellSpurious else s
    let s := ringPut s n { r with prod := prod, cplCons := cpl, evtCons := evt, read := true, watch := 2,
                                  parked := if r.parked = 1 then 0 else r.parked }
    let s := if r.again then watchIssue s n else s
    advance (ringGo s n)

/-- What arrives for a request of the slice's own on HST: `got` meters its messages and returns their credits (R266); its effect `f` is gone
in a fence (R473), held in safe retention (R558), and discarded where it fails its parity (R16, R450) or a check (R272). -/
def taken (s : State) (c : Instr) (a : Arrival) (got f : State → State) : State :=
  if s.hd.fenced then got s
  else if s.pw.pstate = Ps.retention ∨ (s.pw.pstate = Ps.backupHold ∧ !s.pw.coreDown) then { s with held := s.held ++ [c] }
  else if s.pw.pstate ≠ Ps.serving ∧ s.pw.pstate ≠ Ps.quiesce then s
  else
    let s := got s
    match a with
    | .ok => f s
    | .header => parityRecord s { port := .hst, parity := .header }
    | .payload src => parityRecord s { port := .hst, src := src, parity := .payload }
    | .refused => ev s Ev.msgBad

/-- A message that answers a request of the slice's own on HST (R268, R516). -/
def ownMsg (s : State) (addr : Nat) : Msg := { port := .hst, qos := csrFld s 0x3080 27 24, addr := addr }

/-- The GO and the DATA of a reading (R265, R268). -/
def readingGot (s : State) (n : Nat) : State :=
  let m := ownMsg s (csrGet s (0x1010 + 64 * n))
  arrives (arrives s m 1 0) m 0 64

/-- DOORBELL_READING (R16, R268, R272, R395). -/
def execDoorbellReading (ring prod cplCons evtCons : Nat) (s : State) (arrival : Arrival := .ok) : Host.Outcome State Fault Refusal :=
  .next (taken s (.doorbellReading ring prod cplCons evtCons arrival) arrival (fun s => readingGot s ring)
    fun s => doorbell s ring prod cplCons evtCons)

/-- The rings whose doorbell line an address names. -/
def watchers (s : State) (addr : Nat) : List Nat :=
  (s.rg.rings.filter fun e => e.2.watch != 0 && csrGet s (0x1010 + 64 * e.1) == addr).map (·.1)

/-- SNP_IN (R265, R395): answered with state I, the watched line dropped and read again. -/
def snpIn (s : State) (m : Msg) : State :=
  let s := sendMsg s .hst { cls := 1, opcode := 3, qos := m.qos, tag := m.tag, dst := m.src, addr := m.addr, size := m.size }
  (watchers s m.addr).foldl (fun s n =>
    let r := ringGet s n
    if r.watch = 1 then ringPut s n { r with again := true } else watchIssue (ringPut s n { r with watch := 0 }) n) s

/-- The status of the first check of R272 an SNP_IN fails, 0 where none does. -/
def snpCheck (m : Msg) : Nat :=
  if m.rsvd || m.unlisted != 0 || m.port != .hst || m.mod != 0 then St.badOp
  else if m.size ≠ 63 then St.badSize
  else if m.addr % 64 ≠ 0 then St.badAddr
  else St.ok

/-- An SNP_IN refused with SNP_RSP (R270, R272, R568): nothing changes. -/
def snpRefuse (s : State) (m : Msg) (status : Nat) : State :=
  sendMsg s (answerPort m.port)
    { cls := 1, opcode := 3, status := status, qos := m.qos, tag := m.tag, dst := m.src, addr := m.addr, size := m.size }

/-- SNP_IN (R265, R272, R395, R568). -/
def execSnpIn (m : Msg) (s : State) : Host.Outcome State Fault Refusal :=
  .next (
    if s.hd.fenced then arrives s m 2 0
    else if s.pw.pstate = Ps.backupHold ∧ s.pw.ready ∧ !s.pw.coreDown then { s with held := s.held ++ [.snpIn m] }
    else if s.pw.pstate ≠ Ps.serving ∧ s.pw.pstate ≠ Ps.quiesce then s
    else
      let s := arrives s m 2 0
      if m.parity ≠ .ok then parityRecord s m
      else if m.unlisted = 2 then ev s Ev.msgBad
      else if hedgeFenced s (hedgeClass s m.src) then snpRefuse (hedgeDeny s m (hedgeClass s m.src)) m St.hedgeDenied
      else if snpCheck m ≠ 0 then snpRefuse s m (snpCheck m)
      else snpIn s m)

/-! ## Descriptor reads -/

/-- A re-read of the descriptor at cons returns (R311, R312). -/
def descAgain (s : State) (n : Nat) (d : Bytes) : State :=
  let r := ringGet s n
  if descMatches s n r.cons d then advance (offers 64 (descFirst s n d))
  else
    let r := { r with rereadOut := r.rereadOut - 1 }
    if r.rereads ≥ 8 ∧ r.rereadOut = 0 then ev (park (ringPut s n r) n 1 St.descAhead (r.cons % 65536)) Ev.descAhead
    else ringPut s n r

/-- A descriptor read returns (R311, R391, R399): one whose turn has not come waits for it. -/
def descReturn (s : State) (n idx status : Nat) (d : Bytes) : State :=
  let r := ringGet s n
  let again := r.behind && idx == r.cons && decide (0 < r.rereadOut)
  if !(r.fetched.contains idx || again) || !ringEnabled s n || r.parked != 0 then s
  else if status = St.dataError ∨ status = St.dataLost then
    park s n 3 St.ringFault (descBase s n + 256 * (idx % 2 ^ descLog s n / 4))
  else if again then descAgain s n d
  else if idx ≠ r.cons ∨ r.offer.isSome then
    if r.early.any (fun e => e.1 == idx) then s else ringPut s n { r with early := r.early ++ [(idx, slice d 0 64)] }
  else advance (offers 64 (descFirst s n d))

/-- The last descriptor of a read is in, and with it the whole DATA message (R268). DEDUCED, notes/assumptions 30. -/
def descGot (s : State) (n idx : Nat) : State :=
  let r := ringGet s n
  match r.reads.find? fun e => e.1 == idx with
  | none => s
  | some e => arrives (ringPut s n { r with reads := r.reads.erase e }) (ownMsg s (descBase s n)) 0 e.2

/-- DESCRIPTOR_READ_RETURN (R16, R268, R272, R311). -/
def execDescriptorReadReturn (ring idx status : Nat) (bytes : Bytes) (s : State) (arrival : Arrival := .ok) :
    Host.Outcome State Fault Refusal :=
  .next (taken s (.descriptorReadReturn ring idx status bytes arrival) arrival (fun s => descGot s ring idx)
    fun s => descReturn s ring idx status bytes)

/-- DESC_REREAD: one of the 8 re-reads issued (R311). -/
def execDescReread (ring : Nat) (s : State) : Host.Outcome State Fault Refusal :=
  .next (
    let r := ringGet s ring
    if serving s && r.behind && decide (r.rereads < 8) && r.parked == 0 then
      let s := descRead s ring r.cons (r.cons % 2 ^ descLog s ring) 1
      let r := ringGet s ring
      ringPut s ring { r with rereads := r.rereads + 1, rereadOut := r.rereadOut + 1 }
    else s)

/-! ## Completion (R307 to R309, R403 to R406) -/

/-- The write steps of R308 are done, where the descriptor sets push_system. -/
def pushDone (s : State) (c : Cmd) : Bool :=
  let mine := fun (w : MemWr) => match w.for_ with
    | .cmd n => n == c.n
    | _ => false
  !(leAt c.desc 0 8).testBit 15 ||
    (!(s.rg.hstWrs.any fun w => w.2 == c.n) && !(s.arr.merges.any fun m => m.cmds.contains c.n) &&
      !(s.arr.memWrs.any mine) && !(s.arr.memq.any fun q => match q with
        | .wr w _ _ => mine w
        | _ => false))

/-- The record of a completed command written (R402 to R406, R409, R419). -/
def cplPost (s : State) (c : Cmd) : State :=
  let n := c.ring
  let r := ringGet s n
  let k := cplLog s n
  let w := leAt c.desc 0 8
  let w0 := recordWord0 (phaseBit r.posted k) r.overflow 1 (c.idx % 65536) c.status n c.code
  let s := hstWrite s (cplBase s n + 32 * (r.posted % 2 ^ k))
    (recordBytes w0 (leAt c.desc 8 8) c.word2 (at_ (c.aux % 2 ^ 32) 32 + r.cons)) 0
  let s := ev (ringPut s n { r with posted := (r.posted + 1) % 2 ^ 32, overflow := false }) Ev.record
  let s := if w.testBit 16 then ringIrq s n else s
  cmdLeave s c

/-- Whether a completed command's record may be written now: those of its ring that completed before it have been, and there is room
(R308, R403, R404). -/
def mayPost (s : State) (c : Cmd) : Bool :=
  let r := ringGet s c.ring
  c.done && !silent c && pushDone s c && decide ((r.posted + 2 ^ 32 - r.cplCons) % 2 ^ 32 < 2 ^ cplLog s c.ring) &&
    !(s.rg.cmds.any fun x => x.ring == c.ring && x.done && !silent x && decide (x.doneN < c.doneN))

/-- CPL_POST. -/
def execCplPost (ring idx : Nat) (s : State) : Host.Outcome State Fault Refusal :=
  .next (match s.rg.cmds.find? fun c => c.ring == ring && c.idx == idx && c.done with
    | some c => if mayPost s c && s.pw.pstate != Ps.quiesce then advance (cplPost s c) else s
    | none => s)

/-- CMP received for a write of the slice's own (R272, R307, R308). -/
def execCmp (m : Msg) (s : State) : Host.Outcome State Fault Refusal :=
  .next (sink s (.cmp m) m 1 0 (m.port == .hst && !m.rsvd && m.mod == 0) fun s =>
    advance { s with rg := { s.rg with hstWrs := s.rg.hstWrs.filter fun w => w.1 != m.tag } })

/-- IRQ_HOLDOFF_EXPIRY (R410). -/
def execIrqHoldoffExpiry (vec : Nat) (s : State) : Host.Outcome State Fault Refusal :=
  .next (if (SMap.get {} s.rg.irqs vec).pending && !csrBit s (0x240C + 16 * vec) 31 && !irqHeld s vec && s.pw.pstate != Ps.retention
    then irqFire s vec else s)

/-! ## The start of a command (R306, R418) -/

/-- The command of a ring and index, not yet started. -/
def cmdAt (s : State) (ring idx : Nat) : Option Cmd :=
  s.rg.cmds.find? fun c => c.ring == ring && c.idx == idx && !c.started && !c.done

/-- Ring order, and the barrier (R306). -/
def mayStart (s : State) (c : Cmd) : Bool :=
  s.rg.cmds.all fun x => x.ring != c.ring || decide (c.n ≤ x.n) || x.done ||
    (x.started && !(leAt c.desc 0 8).testBit 14)

/-- The last a command that changes a last names (R422). -/
def changesLast (c : Cmd) : Option Nat :=
  if c.code = 0x010 then some (leAt c.desc 48 2 % 1024)
  else if c.code = 0x011 ∨ c.code = 0x013 then some (leAt c.desc 16 2 % 1024)
  else none

/-- A command acts on a last (R422). -/
def actsOn (s : State) (c : Cmd) (i : Nat) : Bool :=
  let l := lastAt s i
  let meets := fun (b n : Nat) => decide (b < l.limit ∧ l.base < b + n)
  if changesLast c = some i then true
  else if 0x020 ≤ c.code ∧ c.code ≤ 0x023 then meets (leAt c.desc 16 8) (leAt c.desc 24 8)
  else if c.code = 0x063 then
    meets (leAt c.desc 16 8) (512 * leAt c.desc 24 4 * (if (leAt c.desc 0 8).testBit 13 then leAt c.desc 28 4 else 1))
  else if 0x060 ≤ c.code ∧ c.code ≤ 0x062 then meets (leAt c.desc 16 8) 1
  else if 0x040 ≤ c.code ∧ c.code ≤ 0x042 then leAt c.desc 16 2 % 4096 == aCtx l.attr
  else if c.code = 0x031 then aTrack l.attr && ((leAt c.desc 18 1).testBit 0 || leAt c.desc 16 2 % 4096 == aCtx l.attr)
  else if c.code = 0x080 then aPaired l.attr
  else c.code == 0x0A1

/-- Commands under way other than `c`. -/
def running (s : State) (c : Cmd) : List Cmd := s.rg.cmds.filter fun x => x.started && !x.done && x.n != c.n

/-- No command under way, and none accepted earlier that waits, changes a last that `c` acts on (R422). DEDUCED, notes/assumptions 27. -/
def lastsSteady (s : State) (c : Cmd) : Bool :=
  s.rg.cmds.all fun x => x.done || x.n == c.n || (!x.started && decide (c.n < x.n)) || match changesLast x with
    | some i => !actsOn s c i
    | none => true

/-- The contexts of a command that acts on contexts: one, or `none` for every one (R435). -/
def ctxOf (c : Cmd) : Option (Option Nat) :=
  if c.code = 0x030 ∨ c.code = 0x031 ∨ 0x040 ≤ c.code ∧ c.code ≤ 0x043 then some (cmdCtx c.code c.desc) else none

/-- No command accepted earlier acts on a context `c` acts on that has not started, or is a CTX.RESUME that has not ended (R435). -/
def ctxTurn (s : State) (c : Cmd) : Bool :=
  s.rg.cmds.all fun x => x.done || (x.started && x.code != 0x041) || decide (c.n ≤ x.n) || match ctxOf c, ctxOf x with
    | some (some a), some (some b) => a != b
    | some _, some _ => false
    | _, _ => true

/-- A command of a code starts (R306), in a slice that runs commands: its effect is `f`. DESIGN CHOICE, notes/assumptions 1. -/
def startCmd (s : State) (ring idx code : Nat) (f : State → Cmd → State) : State :=
  match cmdAt s ring idx with
  | none => s
  | some c =>
    if c.code = code ∧ mayStart s c ∧ lastsSteady s c ∧ ctxTurn s c ∧ !s.hd.fenced ∧
        (s.pw.pstate = Ps.serving ∨ (s.pw.pstate = Ps.retention ∧ (code = 0 ∨ code = 0x012))) then
      advance (f (cmdUpd s c.n fun c => { c with started := true }) { c with started := true })
    else s

/-- A command that waits for another is left as it was before its start (R422, R435). -/
def unstart (s : State) (c : Cmd) : State := cmdUpd s c.n fun c => { c with started := false }

/-- A refusal (R419). -/
def refuseCmd (s : State) (c : Cmd) (status : Nat) : State := cmdEnd s c.n status 0 0

/-- The records of the uncorrectable beats of a command's input, one for each (R449, R465). -/
def inputRecord (s : State) (bad : List BadBeat) : State :=
  bad.foldl (fun s b => postError s St.dataError
    { unit := 12, action := 12, detector := 5, detail := at_ (b2n b.parity) 11 + at_ (b.beat % 4) 9 + b.tag % 512 }) s

/-- A command whose input came back uncorrectable (R449). -/
def inputBad (s : State) (c : Cmd) (bad : List BadBeat) : State := cmdEnd (inputRecord s bad) c.n St.dataError 0 0

/-- The expert bit. -/
def isExpert (c : Cmd) : Bool := (leAt c.desc 0 8).testBit 13

/-- NOP (R416). -/
def execNop (ring idx : Nat) (s : State) : Host.Outcome State Fault Refusal :=
  .next (startCmd s ring idx 0x000 fun s c => cmdEnd s c.n St.ok 0 0)

end Sys2Proof.Machine
end

