-- ==== Sys2Proof/Machine/Health.lean ====
section
/-! DEFINITION. Known-answer kernels, test packs, stress tests, ageing, spare rows, way disabling, the harrow, retirement commands and
signed tables (spec/12 R454 to R458; spec/13; spec/11 R441; spec/16 R574, R575). -/

namespace Sys2Proof.Machine

open Sys2Proof

/-- A free bit: whether a test that the spec leaves to the part fails (DESIGN CHOICE, notes/assumptions 4, 12). -/
def drawBit (s : State) : Bool × State :=
  let (n, s) := drawFree s
  ((Config.freeNat n).testBit 0, s)

/-! ## Kernels (R490 to R493) -/

/-- A kernel's failure classified and acted on (R483, R492): `again` where a rerun failed too. -/
def kernelFailed (s : State) (k : Nat) (again : Bool) : State :=
  let loc := 2 ^ 34 + k
  let since := fun (ns : Nat) => (s.hl.faults.filter fun f => f.1 == loc && decide (tsNs s < f.2 + ns)).length
  let h := if again ∨ 2 ≤ since (86400 * 10 ^ 9) then 2 else if 1 ≤ since (30 * 86400 * 10 ^ 9) then 1 else 0
  let s := { s with hl := { s.hl with faults := s.hl.faults ++ [(loc, tsNs s)], fails := satInc 16 s.hl.fails } }
  let s := postEvent (ledAdd s 4 k h) 5 St.testFail 0 k h
  if h = 2 then raiseRetire { s with hl := { s.hl with suspect := true } } 3 3 else s

/-- A test pack's tests run (R495): the index of the first that fails. -/
def packRun (s : State) (slot : Nat) : State × Option Nat :=
  let n := leAt (SMap.get [] s.hl.packs slot) 8 2
  (List.range n).foldl (fun (x : State × Option Nat) i =>
    match drawBit x.1 with
    | (false, s) => (s, x.2)
    | (true, s) =>
      let s := ledAdd s 5 (at_ i 8 + slot) 0
      (postEvent s 5 St.testFail 0 (at_ i 8 + slot) 0, x.2.or (some i))) (s, none)

/-- A round ends: rounds counted, the packs of pack_auto run (R490, R495). -/
def kernelRound (s : State) : State :=
  let s := { s with hl := { s.hl with rounds := satInc 16 s.hl.rounds } }
  (List.range 4).foldl (fun s n =>
    if csrBit s 0xD00 (58 + n) && !(SMap.get [] s.hl.packs n).isEmpty then (packRun s n).1 else s) s

/-- A kernel has run: the next one's turn where it was this one's, and a round ends with the last (R490). -/
def kernelNext (s : State) (k : Nat) : State :=
  if k = s.hl.kernelAt then
    let s := { s with hl := { s.hl with kernelAt := (k + 1) % 48 } }
    if k = 47 then kernelRound s else s
  else s

/-- A rerun of the kernel that failed ends (R492). -/
def kernelRerun (s : State) (k : Nat) (bad : Bool) : State :=
  let left := s.hl.rerun - 1
  let n := s.hl.rerunBad + (if bad then 1 else 0)
  let h : Health := { s.hl with rerun := left, rerunBad := n }
  if left = 0 then kernelNext (kernelFailed { s with hl := h } k (decide (n ≠ 0))) k else { s with hl := h }

/-- A run of a kernel may end (R208, R490, R492): of the one that is rerun, of the one whose turn it is, or of one that KERNEL instances have given
the 1,024 ac of a run. -/
def kernelRuns (s : State) (k : Nat) : Bool :=
  if s.hl.rerun ≠ 0 then k == s.hl.kernel else k == s.hl.kernelAt || decide (k < 48 ∧ 1024 ≤ SMap.get 0 s.hl.kernelAc k)

/-- A run of a kernel ends with its signature (R490 to R492). -/
def kernelRunDone (s : State) (k sig : Nat) : State :=
  if !kernelRuns s k then s
  else
    let bad := !(sig == Config.kernelSig k)
    let s := ev { s with hl := { s.hl with kernelAc := SMap.put 0 s.hl.kernelAc k 0 } } Ev.kernelRun
    if s.hl.rerun ≠ 0 then kernelRerun s k bad
    else if bad then { s with hl := { s.hl with kernel := k, rerun := 2, rerunBad := 0 } }
    else kernelNext s k

/-- KERNEL_RUN_DONE. -/
def execKernelRunDone (kernel sig : Nat) (s : State) : Host.Outcome State Fault Refusal :=
  .next (if serving s ∧ csrBit s 0xD00 63 then kernelRunDone s kernel sig else s)

/-! ## TEST.RUN (R441, R496) -/

/-- The kernels a TEST.RUN names. -/
def testMask (c : Cmd) : Nat := let m := leAt c.desc 16 8 % 2 ^ 48; if m = 0 then 2 ^ 48 - 1 else m

/-- One kernel run by a TEST.RUN: whether it fails is the part's (DESIGN CHOICE, notes/assumptions 12); a failure is rerun twice (R492), or entered
as a failure at the stress point (R496). -/
def testKernel (s : State) (stress : Bool) (k : Nat) : State × Bool :=
  let s := ev s Ev.kernelRun
  match drawBit s with
  | (false, s) => (s, false)
  | (true, s) =>
    if stress then (ledAdd s 4 (256 + k) 0, true)
    else
      let (a, s) := drawBit s
      let (b, s) := drawBit s
      (kernelFailed s k (a || b), true)

/-- The named kernels and the pack, run once and `repeats` times more: the kernels that failed, the first failing pack test. -/
def testRuns (s : State) (c : Cmd) (stress : Bool) : State × Nat × Option Nat :=
  let ks := (List.range 48).filter fun k => (testMask c).testBit k
  let pack := leAt c.desc 24 1
  let n := 1 + (if isExpert c then leAt c.desc 28 4 else 0)
  (List.range n).foldl (fun (x : State × Nat × Option Nat) _ =>
    let (s, bad) := ks.foldl (fun (y : State × Nat) k =>
      match testKernel y.1 stress k with
      | (s, true) => (s, y.2 ||| 2 ^ k)
      | (s, false) => (s, y.2)) (x.1, x.2.1)
    if pack.testBit 7 then
      let (s, i) := packRun s (pack % 4)
      (s, bad, x.2.2.or i)
    else (s, bad, x.2.2)) (s, 0, none)

/-- The result of a TEST.RUN (R441). -/
def testEnd (s : State) (n bad : Nat) (pack : Option Nat) : State :=
  cmdEnd s n (if bad = 0 ∧ pack = none then St.ok else St.testFail) bad (pack.getD 0)

/-- TEST.RUN. -/
def testRun (s : State) (c : Cmd) : State :=
  let pack := leAt c.desc 24 1
  let stress := (leAt c.desc 25 1).testBit 0
  if pack.testBit 7 && (SMap.get [] s.hl.packs (pack % 4)).isEmpty then refuseCmd s c St.badState
  else if stress then
    if s.pl.st ≠ 0 then refuseCmd s c St.planBusy
    else if s.hl.stress ≠ 0 then unstart s c
    else hdrSend { s with hl := { s.hl with stress := 1, stressCmd := c.n } } 0x22 (csrFld s 0x0C28 31 16) []
  else
    let (s, bad, i) := testRuns s c false
    testEnd s c.n bad i

/-- TEST_RUN. -/
def execTestRun (ring idx : Nat) (s : State) : Host.Outcome State Fault Refusal := .next (startCmd s ring idx 0x090 testRun)

/-- STRESS_SET (R496): the run at the point, or its end, after which plan lock is to be aligned again by R33 (R497). DESIGN CHOICE,
notes/assumptions 12. -/
def stressSet (s : State) (f : Frame) : State :=
  let active := (f.payload.getD 1 0).testBit 8
  match cmdGet s s.hl.stressCmd with
  | none => { s with hl := { s.hl with stress := 0 } }
  | some c =>
    if s.hl.stress = 1 ∧ active then
      let (s, bad, i) := testRuns s c true
      let (canary, s) := drawBit s
      let s := if canary then ledAdd s 6 (at_ (s.hl.margin % 256) 16 + at_ (s.hl.dArr % 256) 8 + s.hl.dCore % 256) 0 else s
      let s := { s with hl := { s.hl with stress := 2, stressBad := bad, stressPack := match i with
        | some k => k + 1
        | none => 0 } }
      hdrKeep s 0x24 [b2n (canary || bad != 0 || i.isSome)]
    else if s.hl.stress = 2 ∧ !active then
      let p := s.hl.stressPack
      testEnd { s with pw := { s.pw with planLock := false }, hl := { s.hl with stress := 0, stressCmd := 0 } } c.n s.hl.stressBad (if p = 0 then none else some (p - 1))
    else s

/-- STRESS_SET. -/
def execStressSet (f : Frame) (s : State) : Host.Outcome State Fault Refusal :=
  .next (hdrGate s f fun s => if s.hl.stress = 0 then s else stressSet s f)

/-- STRESS_SET_TIMEOUT (R496). -/
def execStressSetTimeout (s : State) : Host.Outcome State Fault Refusal :=
  .next (if s.hl.stress = 1 then
    cmdEnd { s with hl := { s.hl with stress := 0, stressCmd := 0 } } s.hl.stressCmd St.badState 0 0 else s)

/-! ## Signatures, packs and patch tables (R494, R574, R575) -/

/-- The 256-byte block after `content` bytes, its padding zero (R574). DESIGN CHOICE, notes/assumptions 11. -/
def sigGood (s : State) (img : Bytes) (content : Nat) (operator : Bool) : Bool :=
  let start := ceilDiv content 64 * 64
  let b := slice img start 256
  let pub := slice b 16 97
  let zero := fun (bs : Bytes) => bs.all fun x => x == 0
  let key : Nat × Nat := if leAt b 0 1 = 0 then (Config.romKeyX, Config.romKeyY) else (beNat (slice pub 1 48), beNat (slice pub 49 48))
  let who :=
    if leAt b 0 1 = 0 then zero pub
    else operator && leAt b 0 1 == 1 && s.pw.opKey != 0 && beNat (sha384 pub) == s.pw.opKey && leAt pub 0 1 == 4 && onCurve key
  decide (img.length = start + 256) && zero (slice img content (start - content)) && zero (slice b 1 15) && zero (slice b 113 15) &&
    zero (slice b 224 32) && who && ecdsaGood key (img.take (start + 128)) (beNat (slice b 128 48)) (beNat (slice b 176 48))

/-- The length of a pack or patch table command (R441). -/
def tableLenBad (n : Nat) : Bool := n == 0 || n % 64 != 0 || decide (n > 16384)

/-- TEST.LOADPACK (R441, R449, R494). -/
def testLoadpack (s : State) (c : Cmd) (input : Bytes) (bad : List BadBeat) : State :=
  let n := leAt c.desc 24 4
  let img := slice input 0 n
  let tests := leAt img 8 2
  let content := 64 + 32 * tests
  if tableLenBad n then refuseCmd s c St.badSize
  else if leAt c.desc 16 8 % 64 ≠ 0 then refuseCmd s c St.badAddr
  else if bad ≠ [] then inputBad s c bad
  else if leAt img 0 4 ≠ 0x4B505244 ∨ tests = 0 ∨ 496 < tests ∨ s.pw.romBuild < leAt img 10 2 ∨
      n ≠ ceilDiv content 64 * 64 + leAt img 12 2 then refuseCmd s c St.badSize
  else if leAt img 12 2 ≠ 256 ∨ !sigGood s img content true then refuseCmd s c St.badSignature
  else
    cmdEnd { s with hl := { s.hl with packs := SMap.put [] s.hl.packs (leAt c.desc 28 1 % 4) img } } c.n St.ok (leAt img 4 4) 0

/-- TEST_LOADPACK. -/
def execTestLoadpack (ring idx : Nat) (input : Bytes) (bad : List BadBeat) (s : State) : Host.Outcome State Fault Refusal :=
  .next (startCmd s ring idx 0x091 fun s c => testLoadpack s c input bad)

/-- PATCH.LOAD (R441, R449, R575). -/
def patchLoad (s : State) (c : Cmd) (input : Bytes) (bad : List BadBeat) : State :=
  let n := leAt c.desc 24 4
  let img := slice input 0 n
  let content := 64 + leAt img 8 4
  if s.rg.patched ∨ c.late then refuseCmd s c St.badState
  else if tableLenBad n then refuseCmd s c St.badSize
  else if leAt c.desc 16 8 % 64 ≠ 0 then refuseCmd s c St.badAddr
  else if bad ≠ [] then inputBad s c bad
  else if leAt img 0 4 ≠ 0x48545044 ∨ leAt img 6 1 = 0 ∨ 64 < leAt img 6 1 ∨ n ≠ ceilDiv content 64 * 64 + 256 then
    refuseCmd s c St.badSize
  else if leAt img 4 2 ≠ s.pw.romBuild ∨ leAt img 7 1 < s.pw.minSvn ∨ !sigGood s img content false then refuseCmd s c St.badSignature
  else cmdEnd { s with rg := { s.rg with patched := true, patchTable := img } } c.n St.ok (leAt img 6 1) 0

/-- PATCH_LOAD. -/
def execPatchLoad (ring idx : Nat) (input : Bytes) (bad : List BadBeat) (s : State) : Host.Outcome State Fault Refusal :=
  .next (startCmd s ring idx 0x0A0 fun s c => patchLoad s c input bad)

/-! ## Retirement commands (R441, R502 to R504) -/

/-- SLICE.RETIRE: reason 7 where no request is pending; software's code goes into the ledger above the reason. -/
def sliceRetire (s : State) (c : Cmd) : State :=
  if s.hl.rState ≥ 2 then refuseCmd s c St.badState
  else
    let s := raiseRetire s 7 ((at_ (leAt c.desc 20 4) 4 + 7) % 2 ^ 32)
    drainStart { s with hl := { s.hl with rCmds := s.hl.rCmds ++ [c.n], noDrain := (leAt c.desc 16 1).testBit 0 } }

/-- SLICE_RETIRE. -/
def execSliceRetire (ring idx : Nat) (s : State) : Host.Outcome State Fault Refusal := .next (startCmd s ring idx 0x0A1 sliceRetire)

/-- RETIRE_HOLD_EXPIRY (R504). -/
def execRetireHoldExpiry (s : State) : Host.Outcome State Fault Refusal :=
  .next (if s.hl.rState = 1 ∧ csrFld s 0xD00 47 32 ≠ 0xFFFF then advance (drainStart s) else s)

/-! ## Ageing (R498 to R501) -/

/-- d of a pair from the counts of its running and reference oscillators, in 0.1 % units rounded up (R498). -/
def ageOf (p : Nat × Nat) : Nat := if p.2 ≤ p.1 then 0 else ceilDiv (1000 * (p.2 - p.1)) p.2

/-- The proposed voltages, the droop code needed (R499). -/
def propCore (d : Nat) : Nat := ceilDiv (7500 + 8 * d) 50 * 5
def arrFloor (v m : Nat) : Nat := v + 30 - 10 * m
def propArr (f : Nat) : Nat := ceilDiv (max 800 (f + 80)) 5 * 5
def droopCode (f : Nat) : Nat := ceilDiv (f + 20 - 600) 2

/-- An ageing sample (R498 to R501). -/
def ageingSample (s : State) (pairs : List (Nat × Nat)) (canary : List Nat) : State :=
  let dc := ((pairs.take 8).map ageOf).foldl max 0
  let da := ((pairs.drop 8).map ageOf).foldl max 0
  let m := canary.foldl min 15
  let f := arrFloor s.hl.vArr m
  let s := { s with hl := { s.hl with
    dCore := min dc 255, dArr := min da 255, margin := m, propCore := propCore dc, propArr := propArr f,
    canary0 := if s.hl.canary0 = 0 then m + 1 else s.hl.canary0 } }
  let s := ledAdd s 6 (ageSubject s.hl) 0
  let code := droopCode f
  let s := if code > csrFld s 0x48 7 0 then csrPut s 0x48 (setFld (csrGet s 0x48) 7 0 (min code 255)) else s
  let s := if code > 0x50 ∨ propArr f > 880 then raiseRetire s 5 5 else s
  let s := if propCore dc > 850 then raiseRetire s 4 4 else s
  propose s

/-- AGEING_SAMPLE. -/
def execAgeingSample (pairs : List (Nat × Nat)) (canary : List Nat) (s : State) : Host.Outcome State Fault Refusal :=
  .next (if serving s ∧ csrBit s 0xD00 62 then ageingSample s pairs canary else s)

/-! ## Spare rows (R484, R485) -/

/-- The four way slots of an array row (R483). -/
def rowSlots (bank way row : Nat) : List Nat := (List.range 4).map fun j => slotKey (64 * row + 16 * j + bank) way

/-- The oldest copy of a bank has ended, its lines repaired: the row is switched to the spare. -/
def spareDone (s : State) (bank : Nat) : State :=
  match s.hl.copies.find? fun c => c.1 == bank with
  | none => s
  | some (b, way, row) =>
    if (rowSlots b way row).any (repairing s) then s
    else
      let n := (s.hl.spares.filter fun x => x.1 == b).length
      let s := (rowSlots b way row).foldl (fun s k =>
        if (lineAt s k).stuck then linePut s k { lineAt s k with stuck := false } else s) s
      let s := { s with hl := { s.hl with
        copies := s.hl.copies.erase (b, way, row), spares := s.hl.spares ++ [(b, way, row, n)] } }
      ledAdd (postEventFree (mapSave s) 5 St.spareUsed) 2 (at_ b 24 + at_ way 20 + at_ row 13 + n % 8) 2

/-- SPARE_ROW_COPY_DONE. -/
def execSpareRowCopyDone (bank : Nat) (s : State) : Host.Outcome State Fault Refusal := .next (if serving s then spareDone s bank else s)

/-! ## Way disabling (R487 to R489) -/

/-- A line moved with its tag state to another way slot of its set; what names the slot follows. -/
def moveSlot (s : State) (k k' : Nat) : State :=
  let s := lineDrop (storeLine (lineUse s (lineAt s k).addr 4) k' (lineAt s k) (BitVec.allOnes 512) true) k
  let m : Line := SMap.get {} s.pr.mirrors k
  let moved := fun (x : Nat) => if x = k then k' else x
  let ds : List Drain := s.gen.drains.map fun d => { d with todo := d.todo.map moved }
  { s with
    pr := { s.pr with mirrors := SMap.put {} (SMap.put {} s.pr.mirrors k' m) k {}
                      lagged := s.pr.lagged.map fun e => (e.1, e.2.1, moved e.2.2) }
    gen := { s.gen with drains := ds } }

/-- Way slots of a way of a bank that hold a line of the slice, one being filled, or a mirror line (R488). -/
def waySlots (s : State) (bank way : Nat) : List Nat :=
  let mine := fun (k : Nat) => slotWay k == way && slotBank k == bank
  ((s.arr.lines.filter fun e => mine e.1 && (e.2.st != .invalid || e.2.filling)).map (·.1)) ++ ((s.pr.mirrors.filter fun e => mine e.1).map (·.1))

/-- The highest enabled unpinned way of a bank (spec/02, DRF_PIN_CTL). -/
def standIn (s : State) (bank way : Nat) : Option Nat := ((usableWays s bank).filter (· != way)).getLast?

/-- A slot of a pinned way moved to the stand-in, whose own line is evicted first; unchanged where it must wait. -/
def movePinned (s : State) (stand k : Nat) : State :=
  let k' := slotKey (slotSet k) stand
  let s := closeLine (closeLine s (lineAt s k').addr) (lineAt s k).addr
  if repairing s k || repairing s k' || (lineAt s k').filling || (lineAt s k').hold then s
  else match readWhole s k 10 with
  | (s, false) => s
  | (s, true) => match evictSlot s k' with
    | (s, true) => moveSlot s k k'
    | (s, false) => s

/-- A slot of an unpinned way emptied (R488), a line that is copied read and checked first (R124); unchanged where it must wait. -/
def emptySlot (s : State) (k : Nat) : State :=
  let l := lineAt s k
  if (openOf s l.addr).isSome || l.filling || repairing s k then s
  else if l.hold || (l.locked && aDur (lastAt s l.last).attr == 2) || s.gen.pendingRc.contains l.addr then
    match readWhole s k 10 with
    | (s, false) => s
    | (s, true) => match findWay s l.addr (lastAt s l.last).attr 3 l.qos with
      | .slot s k' => if k' = k then s else moveSlot s k k'
      | .noWay s => s
      | .busy s => s
  else (evictSlot s k).1

/-- Ways disabled over all banks. -/
def waysDisabled (s : State) : Nat := (s.hl.wayDis.map fun e => popcount 16 e.2).foldl (· + ·) 0

/-- The disable takes effect (R487, R502). -/
def wayOff (s : State) (bank way : Nat) : State :=
  let s := { s with hl := { s.hl with
    wayGoing := s.hl.wayGoing.erase (bank, way)
    wayDis := SMap.put 0 s.hl.wayDis bank (SMap.get 0 s.hl.wayDis bank ||| 2 ^ way) } }
  let s := ledAdd (postEventFree (mapSave s) 5 St.wayDisabled) 3 (at_ bank 24 + at_ way 20) 2
  let s := if waysDisabled s ≥ 5 then raiseRetire s 1 1 else s
  if (usableWays s bank).isEmpty then raiseRetire s 2 2 else s

/-- A way of a bank emptied, and disabled where nothing is left in it (R488). -/
def wayDisableDone (s : State) (bank way : Nat) : State :=
  if (pinnedWays s bank).contains way then
    match standIn s bank way with
    | none => raiseRetire s 2 2
    | some w =>
      let s := (waySlots s bank way).foldl (fun s k => movePinned s w k) s
      if (waySlots s bank way).isEmpty then
        let orig := match s.arr.roles.find? fun r => r.1 == bank && r.2.2 == way with
          | some r => r.2.1
          | none => way
        let roles := (s.arr.roles.filter fun r => !(r.1 == bank && r.2.1 == orig)) ++ [(bank, orig, w)]
        advance (wayOff { s with arr := { s.arr with roles := roles } } bank way)
      else advance s
  else
    let s := (waySlots s bank way).foldl emptySlot s
    advance (if (waySlots s bank way).isEmpty then wayOff s bank way else s)

/-- WAY_DISABLE_DONE. -/
def execWayDisableDone (bank way : Nat) (s : State) : Host.Outcome State Fault Refusal :=
  .next (if serving s ∧ s.hl.wayGoing.contains (bank, way) then wayDisableDone s bank way else s)

/-- WAY_DISABLE_TIMEOUT (R489). -/
def execWayDisableTimeout (bank way : Nat) (s : State) : Host.Outcome State Fault Refusal :=
  .next (if s.hl.wayGoing.contains (bank, way) then raiseRetire s 6 6 else s)

/-! ## The harrow (R454 to R458) -/

/-- Banks in which a way is enabled. -/
def wayBanks (s : State) (way : Nat) : List Nat := if way < fuseWays s then (List.range 16).filter fun b => !wayDisabled s b way else []

/-- N of R455: enabled way slots. -/
def harrowN (s : State) : Nat := ((List.range 16).map fun w => 512 * (wayBanks s w).length).foldl (· + ·) 0

/-- The way slot at a position of the pass (R454, R458). -/
def harrowSlot (s : State) : Nat → Nat → Nat → Nat
  | 0, _, _ => 0
  | f + 1, way, v =>
    let bs := wayBanks s way
    if v < 512 * bs.length then slotKey (v / bs.length * 16 + bs.getD (v % bs.length) 0) way
    else harrowSlot s f (way + 1) (v - 512 * bs.length)

/-- The line of a visit read and checked (R456): an upset of the cells shows here as bytes whose parity fails. A visit changes no line state of
a line that is sound. -/
def harrowLine (s : State) (k : Nat) (bad : LineMask) (stuck : Bool) : State × Bool :=
  let l := lineAt s k
  if l.st = .invalid ∧ !l.filling then
    let m := SMap.get {} s.pr.mirrors k
    let m : Line := { m with badPar := m.badPar ||| bad, stuck := m.stuck || stuck }
    if m.st ≠ .invalid ∧ !mirrorGood m then (mirrorDrop s k m 2, true) else (s, false)
  else if l.filling || (openOf s l.addr).isSome then (ev s Ev.harrowSkip, false)
  else
    let s := if bad = 0 then s else linePut s k { l with badPar := l.badPar ||| bad, stuck := l.stuck || stuck }
    let s := activity (lineUse s l.addr 4) (aQos (lastAt s l.last).attr) (aCtx (lastAt s l.last).attr) 1 1
    let (s, good) := checkLine s k (BitVec.allOnes 512) true 2
    (s, !good)

/-- Snoop filter entries and sheaves of a visit (R456, steps 3 and 4). -/
def harrowOther (s : State) (v n : Nat) : State × Bool :=
  let a := 524288 * v / n
  let b := 524288 * (v + 1) / n
  let es := (s.coh.sf.filter fun e => decide (a ≤ e.1 ∧ e.1 < b) && e.2.st != 0 && e.2.bad).map (·.1)
  let s := sfCheckKeys s es 2
  let c := 4096 * v / n
  let d := 4096 * (v + 1) / n
  let hs := (s.ari.sheaves.filter fun e => decide (c ≤ e.1 ∧ e.1 < d) && e.2.bad).map (·.1)
  let s := hs.foldl (fun s k =>
    match s.ari.windows.find? fun w => decide (w.first ≤ k ∧ k < w.first + w.count) with
    | some w => windowLost s w k 2
    | none => s) s
  (s, !es.isEmpty || !hs.isEmpty)

/-- A fault appears where an upset says (DESIGN CHOICE, notes/assumptions 9): nothing happens where what it names is not in use. -/
def upsetIn (s : State) (u : Upset) : State :=
  match u with
  | .tag k fields => linePut s k { lineAt s k with tagBad := (lineAt s k).tagBad ||| fields }
  | .crcField k => if crcLine s (lineAt s k) then linePut s k { lineAt s k with crcBad := true } else s
  | .data k m stuck =>
    let x := SMap.get {} s.pr.mirrors k
    if x.st ≠ .invalid then
      { s with pr := { s.pr with mirrors := SMap.put {} s.pr.mirrors k { x with badPar := x.badPar ||| m, stuck := x.stuck || stuck } } }
    else linePut s k { lineAt s k with badPar := (lineAt s k).badPar ||| m, stuck := (lineAt s k).stuck || stuck }
  | .silent k x => linePut s k { lineAt s k with data := (lineAt s k).data ^^^ x }
  | .openLine line m =>
    { s with arr := { s.arr with opens := s.arr.opens.map fun o => if o.line = line then { o with bad := o.bad ||| m } else o } }
  | .evict line m =>
    { s with arr := { s.arr with evicts := s.arr.evicts.map fun e => if e.line = line ∧ e.tag.isNone then { e with bad := e.bad ||| m } else e } }
  | .log line m =>
    { s with gen := { s.gen with bufs := s.gen.bufs.map fun b => if b.addr / 512 = line ∧ b.kind = 1 then { b with bad := b.bad ||| m } else b } }
  | .merge sector =>
    { s with arr := { s.arr with merges := s.arr.merges.map fun m => if m.sector = sector ∧ !m.draining then { m with bad := true } else m } }
  | .fill line =>
    { s with arr := { s.arr with mhes := s.arr.mhes.map fun m =>
      if m.line = line ∧ (m.kind = .stage ∨ m.wmask ≠ 0) then { m with upset := true } else m } }
  | .planBeat i => { s with pl := { s.pl with wbuf := s.pl.wbuf.modify i fun b => { b with bad := true } } }
  | .freeze i => { s with gen := { s.gen with freezeQ := s.gen.freezeQ.modify i fun o => { o with noted := o.noted ||| 512 } } }
  | .bias w =>
    if s.coh.biasCache.any fun e => e.1 == w then { s with coh := { s.coh with biasUpset := (w :: s.coh.biasUpset).eraseDups } } else s
  | .sheaf k stuck =>
    let h : Sheaf := { SMap.get Sheaf.zero s.ari.sheaves k with bad := true, stuck := stuck }
    { s with ari := { s.ari with sheaves := SMap.put Sheaf.zero s.ari.sheaves k h } }
  | .sf k stuck => if (sfAt s k).st = 0 then s else sfPut s k { sfAt s k with bad := true, stuck := stuck }
  | .controller => fence s 2

/-- One visit (R456), after the upsets `us` of the stores. DESIGN CHOICE, notes/assumptions 9. -/
def harrowVisit (s : State) (bad : LineMask) (stuck : Bool) (us : List Upset) : State :=
  let s := us.foldl upsetIn s
  if s.hd.fenced then advance s
  else
    let n := harrowN s
    let v := s.hl.pos
    let k := harrowSlot s 16 0 v
    let late := s.pl.resv.any fun r => decide (r.1 = slotBank k ∧ r.2.1 ≤ s.now ∧ s.now < r.2.2)
    let s := ev (if late then ev s Ev.harrowLate else s) Ev.harrowVisit
    let tag := (lineAt s k).tagBad != 0
    let s := tagCheck s k 2
    let crc := crcLine s (lineAt s k) && (lineAt s k).crcBad
    let (s, f1) := harrowLine s k bad stuck
    let (s, f2) := harrowOther s v n
    let s := if tag || crc || f1 || f2 then { s with hl := { s.hl with failures := satInc 15 s.hl.failures } } else s
    advance (if v + 1 < n then { s with hl := { s.hl with pos := v + 1 } }
      else csrSet { s with hl := { s.hl with pos := 0, passes := satInc 32 s.hl.passes } } 0xC00 (2 ^ 62))

/-- HARROW_VISIT (R456, R457). -/
def execHarrowVisit (bad : LineMask) (stuck : Bool) (s : State) (upsets : List Upset := []) : Host.Outcome State Fault Refusal :=
  .next (if serving s ∧ csrBit s 0xC00 63 ∧ !s.pw.arrStopped then harrowVisit s bad stuck upsets else s)

end Sys2Proof.Machine
end

