-- ==== Sys2Proof/Machine/Replay.lean ====
section
/-! DEFINITION. The records of a replay buffer read and checked, and what they leave of each line (spec/08 R330, R337, R338, R340). -/

namespace Sys2Proof.Machine

open Sys2Proof

/-- A delta record read back (R330). -/
structure Rec where
  kind : Nat
  ctx : Nat
  image : Bool
  mask : Nat
  line : Nat
  seq : Nat
  gen : Nat
  data : Bytes
  deriving DecidableEq, Repr

/-- Records up to the first that fails its check: those read, and the seq of the failing one. -/
def readRecords : Nat → Bytes → Option Nat → List Rec × Option Nat
  | 0, _, _ => ([], none)
  | f + 1, bs, next =>
    if bs.length < 32 then ([], none)
    else
      let w0 := leAt bs 0 8
      let kind := w0 % 256
      let n := 32 + (if kind = 1 then 64 * popcount 8 (fld w0 15 8) else 0)
      let r : Rec := { kind := kind, ctx := fld w0 39 28, image := w0.testBit 17, mask := fld w0 15 8, line := leAt bs 8 8,
                       seq := leAt bs 16 8, gen := leAt bs 24 4, data := slice bs 32 (n - 32) }
      let good := decide (n ≤ bs.length ∧ 1 ≤ kind ∧ kind ≤ 6) && (next == none || next == some r.seq) &&
        (crc32c (bs.take 28 ++ [0, 0, 0, 0] ++ r.data)).toNat == leAt bs 28 4
      if !good then ([], some r.seq)
      else
        let (rs, e) := readRecords f (bs.drop (if kind = 6 then max 32 r.line else n)) (some (r.seq + 1))
        (r :: rs, e)

/-- What replay leaves of a line: its bytes, whether it is FALLOW, and the records that made it so. -/
def applyRec (acc : SMap (LineMask × LineData × Bool × Nat)) (r : Rec) : SMap (LineMask × LineData × Bool × Nat) :=
  let k := r.line % 2 ^ 52 / 512
  let (m, d, f, n) := SMap.get (0, 0, false, 0) acc k
  if r.kind = 2 then SMap.ins acc k (BitVec.allOnes 512, 0, true, n + 1)
  else
    let rm := maskOfSectors (BitVec.ofNat 8 r.mask)
    let spread := fun (x : Nat × Bytes) (i : Nat) =>
      if r.mask.testBit i then (x.1 + (leNat (x.2.take 64) <<< (512 * i)), x.2.drop 64) else x
    let rd : LineData := BitVec.ofNat 4096 ((List.range 8).foldl spread (0, r.data)).1
    SMap.ins acc k (if f then BitVec.allOnes 512 else m ||| rm, mergeBytes d rd rm, false, n + 1)

/-- A replay buffer read: what is to be written, with the records applied, or the seq of the record a check names. -/
inductive Parsed where
  | good (recs : List (Nat × LineMask × LineData × Bool × Nat)) (n : Nat)
  | bad (seq : Nat)

/-- Records after a ROLLBACK of a last: those of later generations in it before the record go (R337). -/
def rollbackRecs (s : State) (kept : List Rec) (r : Rec) : List Rec :=
  let i := lastOf s (r.line % 2 ^ 52)
  kept.filter fun x => !(lastOf s (x.line % 2 ^ 52) == i && decide (r.gen < x.gen))

/-- A LINE or FALLOW record. -/
def Rec.body (r : Rec) : Bool := r.kind == 1 || r.kind == 2

/-- A replay buffer checked and reduced (R337, R340): of a context, or of one FAILED last; the first record that fails a check is named. A
buffer without an image of the last that LAST.RESTORE names fails at its last record (DESIGN CHOICE, notes/assumptions 26). -/
def replayParse (s : State) (ctx : Nat) (only : Option Nat) (bs : Bytes) (target : Nat) : Parsed :=
  let (all, e) := readRecords (bs.length / 32 + 1) bs none
  let rs := all.filter fun r => r.kind != 6
  let lastSeq := ((all.getLast?).map (·.seq)).getD 0
  let inLasts := fun (r : Rec) => let i := lastOf s (r.line % 2 ^ 52)
    match only with
    | some j => i == j
    | none => r.ctx == ctx && i != 1023 && (let a := (lastAt s i).attr; aTrack a && aCtx a == ctx)
  match rs with
  | [] => .bad (e.getD lastSeq)
  | first :: _ =>
    if !(first.image && first.body) then .bad first.seq
    else match (if only = none then rs.find? fun r => r.body && decide (r.gen ≤ target) && !inLasts r else none) with
    | some r => .bad r.seq
    | none =>
      match e with
      | some seq => .bad seq
      | none =>
        let ends := rs.filter fun r => r.kind == 4 && r.gen == target && r.ctx == ctx
        if !(ends.any fun r => !r.line.testBit 63) ∨ target < first.gen then
          .bad (((ends.getLast?).map (·.seq)).getD lastSeq)
        else if only.isSome ∧ !(rs.any fun r => r.image && r.body && inLasts r) then .bad lastSeq
        else
          let kept := rs.foldl (fun k r =>
            if r.body && decide (r.gen ≤ target) && inLasts r then k ++ [r]
            else if r.kind == 5 && r.ctx == ctx && decide (r.gen ≤ target) then rollbackRecs s k r
            else k) []
          .good ((kept.foldl applyRec []).map fun e => (e.1, e.2.1, e.2.2.1, e.2.2.2.1, e.2.2.2.2)) kept.length

end Sys2Proof.Machine
end

