-- ==== Sys2Proof/Machine/LastCmds.lean ====
section
/-! DEFINITION. The commands on lasts: LAST.DEFINE, LAST.DELETE, LAST.READ, LAST.RESTORE (spec/02 R77 to R98, R117 to R119; spec/08
R340, R344; spec/11 R422 to R426). -/

namespace Sys2Proof.Machine

open Sys2Proof

/-! ## What a command finds under way -/

/-- A line lies in a range. -/
def inRange (base limit line : Nat) : Bool := decide (base ≤ line * 512 ∧ line * 512 < limit)

/-- A MEM write answers a request for a line of a range once it completes (R285). -/
def answersIn (base limit : Nat) (w : MemWr) : Bool := match w.for_ with
  | .req o => inRange base limit (opLine o)
  | _ => false

/-- A request for a line of a range is under way: accepted and not performed, held for the fellow or by a freeze, in a fill, or sent to
memory (R84, R423). -/
def rangeBusy (s : State) (base limit : Nat) : Bool :=
  (s.arr.memWrs.any (answersIn base limit)) ||
    (s.arr.memq.any fun q => match q with
      | .wr w _ _ => answersIn base limit w
      | .rd _ => false) ||
  (s.arr.waiting.any fun o => o.cmd == 0 && inRange base limit (opLine o)) ||
    (s.arr.presented.any fun o => o.cmd == 0 && inRange base limit (opLine o)) ||
    (s.pr.sync.any fun e => inRange base limit (opLine e.2)) ||
    (s.gen.freezeQ.any fun o => inRange base limit (opLine o)) ||
    s.arr.mhes.any fun m => inRange base limit m.line

/-- A sheaf window is bound in a range (R185). -/
def rangeBound (s : State) (base limit : Nat) : Bool := s.ari.windows.any fun w => decide (base ≤ w.base ∧ w.base < limit)

/-- Lines in ascending order, each once. -/
def sortLines (ls : List Nat) : List Nat := (ls.foldl (fun (m : SMap Unit) l => SMap.ins m l ()) []).map (·.1)

/-- The lines of a range resident in the array, or being filled. -/
def residentLines (s : State) (base limit : Nat) : List Nat :=
  let ls : List Nat := (s.arr.lines.filter fun e => e.2.st != .invalid || e.2.filling).map fun e => e.2.addr
  ls.filter (inRange base limit)

/-- The lines of a range that the array, the atomic line buffer, the eviction buffers, the merging buffer or a fill holds (R429). -/
def heldLines (s : State) (base limit : Nat) : List Nat :=
  let opens : List Nat := s.arr.opens.map fun o => o.line
  let evicts : List Nat := s.arr.evicts.map fun e => e.line
  let merges : List Nat := s.arr.merges.map fun m => m.sector / 8
  let fills : List Nat := (s.arr.mhes.filter fun m => m.kind != .bypass && m.kind != .memSide).map fun m => m.line
  sortLines (residentLines s base limit ++ (opens ++ evicts ++ merges ++ fills).filter (inRange base limit))

/-! ## LAST.DEFINE -/

/-- Slots of paired PINNED lasts in a set, a new run of slots counted too (R344). -/
def pairedPinned (s : State) (first n set : Nat) : Nat :=
  let runs := (first, n) :: ((s.arr.lasts.filter fun e => e.2.cond != 0 && aKind e.2.attr == 2 && aPaired e.2.attr).map
    fun e => (pinFirst e.2.pin, pinCount e.2))
  (runs.map fun r => ((List.range ((r.1 + r.2 + 8191 - set) / 8192)).filter fun j => decide (r.1 ≤ 8192 * j + set ∧
    8192 * j + set < r.1 + r.2)).length).foldl (· + ·) 0

/-- The check of a new definition (R79, R82, R127, R344, R423): the status of the first check that fails, 0 where none does. DEDUCED, notes/assumptions 27. -/
def defineCheck (s : State) (r : Last) : Nat :=
  let a := r.attr
  let kind := aKind a
  let stride := pinStride r.pin
  if r.base % 512 ≠ 0 ∨ r.limit % 512 ≠ 0 ∨ r.limit ≤ r.base then St.badAttr
  else if s.arr.lasts.any fun e => e.2.cond != 0 && decide (e.2.base < r.limit ∧ r.base < e.2.limit) then St.lastOverlap
  else if (!aBaled a && aBale a != 0) || (aBaled a && (decide (aFmt a > 3) || aReadFmt a == 3)) then St.badAttr
  else if aPaired a && s.pw.tetherOff then St.unsupported
  else if aDur a ≥ 4 ∨ kind = 3 then St.badAttr
  else if kind == 1 && (aBaled a || aDur a != 0 || aTrack a) then St.badAttr
  else if aDur a == 2 && !aTrack a then St.badAttr
  else if aPaired a && !paired s then St.noFellow
  else if kind = 2 then
    if stride = 0 ∨ stride > 32 then St.badAttr
    else if !aCache a then St.badAttr
    else if aMask a ≠ 0 then St.badAttr
    else match firstFit s (pinCount r) with
    | none => St.noSpace
    | some f =>
      if aPaired a && (List.range 8192).any fun set => decide (pairedPinned s f (pinCount r) set > s.pr.fellowMw - 1) then St.noSpace
      else if !(residentLines s r.base r.limit).isEmpty then St.lastBusy
      else St.ok
  else if stride ≠ 0 then St.badAttr
  else St.ok

/-- A last defined (R95, R96, R423); the write that locks stripe_shift (R74). -/
def defineNew (s : State) (c : Cmd) (i : Nat) (r : Last) : State :=
  let first := if aKind r.attr = 2 then (firstFit s (pinCount r)).getD 0 else 0
  let r := { r with cond := 1, pin := if aKind r.attr = 2 then at_ first 6 + pinStride r.pin else 0 }
  let s := mergeDrainWhere s fun m => inRange r.base r.limit (m.sector / 8)
  let s := lastPut { s with pw := { s.pw with locked := true } } i r
  let s := if aKind r.attr = 2 then
      (List.range (pinCount r)).foldl (fun s j =>
        storeLine s (pinnedSlot s (first + j))
          { addr := r.base / 512 + j * pinStride r.pin, st := .fallow, last := i, qos := aQos r.attr, crc := lineCrc 0 } (BitVec.allOnes 512) true) s
    else s
  cmdEnd s c.n St.ok first 0

/-- The attr bits that R83 lets a change in place carry. -/
def fixedAttr (a : Nat) : Nat := setFld (setFld (setFld a 56 56 0) 23 20 0) 39 24 0

/-- A LAST.DEFINE that names a defined last (R83, R84, R117 to R119, R185, R351, R423). -/
def defineInPlace (s : State) (c : Cmd) (i : Nat) (l r : Last) : State :=
  let off := aCache l.attr && !aCache r.attr
  let on := !aCache l.attr && aCache r.attr
  if l.base ≠ r.base ∨ l.limit ≠ r.limit ∨ fixedAttr l.attr ≠ fixedAttr r.attr ∨ pinStride l.pin ≠ pinStride r.pin then
    refuseCmd s c St.lastBusy
  else if aKind l.attr = 2 ∧ (aMask r.attr ≠ 0 ∨ off) then refuseCmd s c St.badAttr
  else if off && rangeBound s l.base l.limit then refuseCmd s c St.lastBusy
  else if off && aPaired l.attr then refuseCmd s c St.badAttr
  else if ((running s c).any fun x => actsOn s x i) || rangeBusy s l.base l.limit then unstart s c
  else
    let s := if aKind l.attr = 1 then mergeDrainWhere s fun m => inRange l.base l.limit (m.sector / 8) else s
    let s := { s with arr := { s.arr with deleting := s.arr.deleting ++ [i] } }
    let ls := if (off || on) && !isExpert c then heldLines s l.base l.limit else []
    presentLines s c .clean (ls.map fun x => (x, x - l.base / 512, aQos l.attr, if off then 1 else 3))

/-- LAST.DEFINE (R423); of a definition in place that names another context, ST_CTX_DENIED (R418) stands before ST_LAST_BUSY (R83; DESIGN
CHOICE, notes/assumptions 35). -/
def lastDefine (s : State) (c : Cmd) : State :=
  let i := leAt c.desc 48 2 % 1024
  let r := definedRecord s c
  let l := SMap.get {} s.arr.lasts i
  if i = 1023 then refuseCmd s c St.badAttr
  else if l.cond = 0 then
    let st := defineCheck s r
    if st ≠ 0 then refuseCmd s c st
    else if rangeBusy s r.base r.limit then unstart s c
    else defineNew s c i r
  else if aCtx l.attr ≠ aCtx r.attr then refuseCmd s c St.ctxDenied
  else defineInPlace s c i l r

/-- LAST_DEFINE. -/
def execLastDefine (ring idx : Nat) (s : State) : Host.Outcome State Fault Refusal :=
  .next (startCmd s ring idx 0x010 lastDefine)

/-! ## LAST.DELETE -/

/-- LAST.DELETE (R185, R418, R424). -/
def lastDelete (s : State) (c : Cmd) : State :=
  let i := leAt c.desc 16 2 % 1024
  let l := SMap.get {} s.arr.lasts i
  if i = 1023 ∨ l.cond = 0 then refuseCmd s c St.badAttr
  else if aCtx l.attr ≠ leAt c.desc 18 2 % 4096 then refuseCmd s c St.ctxDenied
  else if rangeBound s l.base l.limit || (aDur l.attr == 2 && !(lockedSlots s i).isEmpty) then refuseCmd s c St.lastBusy
  else if ((running s c).any fun x => actsOn s x i) || rangeBusy s l.base l.limit then unstart s c
  else
    let s := mergeDrainWhere s fun m => inRange l.base l.limit (m.sector / 8)
    let s := { s with arr := { s.arr with deleting := s.arr.deleting ++ [i] } }
    let drop := (leAt c.desc 20 1).testBit 0
    presentLines s c .clean ((heldLines s l.base l.limit).map fun x =>
      (x, x - l.base / 512, aQos l.attr, if drop then 3 else 2))

/-- LAST_DELETE. -/
def execLastDelete (ring idx : Nat) (s : State) : Host.Outcome State Fault Refusal :=
  .next (startCmd s ring idx 0x011 lastDelete)

/-! ## LAST.READ -/

/-- The 32-byte last record (R78, R425). -/
def lastRecord (l : Last) : Bytes :=
  leBytes 8 (l.base % 2 ^ 52) ++ leBytes 8 (l.limit % 2 ^ 52) ++ leBytes 8 l.attr ++ leBytes 4 l.prefetch ++ leBytes 4 l.pin

/-- LAST.READ (R425). DEDUCED, notes/assumptions 27. -/
def lastRead (s : State) (c : Cmd) : State :=
  let i := leAt c.desc 16 2 % 1024
  let l := lastAt s i
  let pend := min 0xFF (s.gen.pendingRc.filter fun x => lastOfLine s x == i).length
  let s := hstWrite s (leAt c.desc 24 8 % 2 ^ 52) (if l.cond = 0 then List.replicate 32 0 else lastRecord l) c.n
  cmdEnd s c.n St.ok (at_ pend 3 + at_ (b2n l.unprot) 2 + l.cond % 4) 0

/-- LAST_READ. -/
def execLastRead (ring idx : Nat) (s : State) : Host.Outcome State Fault Refusal :=
  .next (startCmd s ring idx 0x012 lastRead)

/-! ## LAST.RESTORE -/

/-- LAST.RESTORE (R340, R426, R449); `input` is the replay buffer as MEM returns it, `bad` its uncorrectable beats. DEDUCED, notes/assumptions 24, 25. -/
def lastRestore (s : State) (c : Cmd) (input : Bytes) (bad : List BadBeat) : State :=
  let i := leAt c.desc 16 2 % 1024
  let l := lastAt s i
  let len := leAt c.desc 32 8
  if l.cond ≠ 0 ∧ aCtx l.attr ≠ leAt c.desc 18 2 % 4096 then refuseCmd s c St.ctxDenied
  else if leAt c.desc 24 8 % 32 ≠ 0 then refuseCmd s c St.badAddr
  else if len = 0 ∨ len % 32 ≠ 0 then refuseCmd s c St.badSize
  else if l.cond ≠ 2 then refuseCmd s c St.badState
  else if (running s c).any fun x => actsOn s x i then unstart s c
  else if bad ≠ [] then inputBad s c bad
  else match replayParse s (leAt c.desc 18 2 % 4096) (some i) (slice input 0 len) (leAt c.desc 40 4) with
  | .bad seq => cmdEnd s c.n St.badLog seq 0
  | .good recs n =>
    let s := lastPut s i { SMap.get {} s.arr.lasts i with cond := 3 }
    cmdUpd s c.n fun c => { c with phase := 6, recs := recs, acc := n }

/-- LAST_RESTORE. -/
def execLastRestore (ring idx : Nat) (input : Bytes) (bad : List BadBeat) (s : State) : Host.Outcome State Fault Refusal :=
  .next (startCmd s ring idx 0x013 fun s c => lastRestore s c input bad)

end Sys2Proof.Machine
end

