-- ==== Sys2Proof/Machine/RangeCmds.lean ====
section
/-! DEFINITION. The range commands, the sheaf and digest commands and BIAS.FLIP (spec/11 R427 to R433, R437, R438; spec/04 R181 to R196;
spec/06 R257, R258; spec/16 R576). -/

namespace Sys2Proof.Machine

open Sys2Proof

/-! ## Range commands -/

def rangeBase (c : Cmd) : Nat := leAt c.desc 16 8 % 2 ^ 52
def rangeLen (c : Cmd) : Nat := leAt c.desc 24 8
def rangeFlags (c : Cmd) : Nat := leAt c.desc 32 1

/-- A last other than the context's own is acted on in a range (R418): a defined last, or the default last where it covers a byte. -/
def rangeDenied (s : State) (base len ctx : Nat) : Bool :=
  let hit := s.arr.lasts.filter fun e => e.1 != 1023 && e.2.cond != 0 && decide (e.2.base < base + len ∧ base < e.2.limit)
  let covered := (hit.map fun e => min e.2.limit (base + len) - max e.2.base base).foldl (· + ·) 0
  (hit.any fun e => aCtx e.2.attr != ctx) || (decide (covered < len) && aCtx (csrGet s 0x118) != ctx)

/-- The checks of R427: the status of the first that fails, 0 where none does. -/
def rangeCheck (c : Cmd) : Nat :=
  let f := rangeFlags c
  let pre := c.code = 0x020
  if rangeBase c % 512 ≠ 0 ∨ rangeLen c = 0 ∨ rangeLen c % 512 ≠ 0 ∨ rangeBase c + rangeLen c > 2 ^ 52 then St.badAddr
  else if f.testBit 0 && f.testBit 1 then St.badOp
  else if (f % 4 ≠ 0 ∧ !pre) ∨ (f.testBit 2 ∧ c.code ≠ 0x023) ∨ (fld f 4 3 ≠ 0 ∧ !pre) then St.badOp
  else if pre && isExpert c && (leAt c.desc 36 4 == 0 || decide (leAt c.desc 36 4 > 2 ^ 20 ∨ leAt c.desc 40 4 ≥ leAt c.desc 36 4)) then
    St.badDesc
  else St.ok

/-- The class of a command's operation on a line (the range body's qos_class). -/
def rangeQos (s : State) (c : Cmd) (line : Nat) : Nat :=
  if isExpert c then leAt c.desc 33 1 % 16 else aQos (lastAt s (lastOfLine s line)).attr

/-- The lines a walking range command acts on (R429, R576): what the slice holds of the range in any form, one line for each slot of a
PINNED last (the line of its run that is open or tracked, where one is: R94 lets a run have one), every line where the memory copies are cleared. -/
def walkLines (s : State) (base limit : Nat) (every : Bool) : List Nat :=
  if every then (List.range ((limit - base) / 512)).map (base / 512 + ·)
  else
    let hosts := (s.coh.sf.filter fun e => e.2.st != 0 && inRange base limit (e.2.tag / 8)).map fun e => e.2.tag / 8
    let opens := (s.arr.opens.map fun o => o.line).filter (inRange base limit)
    let pins := ((s.arr.lasts.filter fun e => e.2.cond != 0 && aKind e.2.attr == 2).map fun e =>
      ((List.range (pinCount e.2)).map fun j => e.2.base / 512 + j * pinStride e.2.pin).filterMap fun a =>
        let x := max a (base / 512)
        let run := (opens ++ hosts).find? fun l => decide (a ≤ l ∧ l < a + pinStride e.2.pin)
        if decide (x < a + pinStride e.2.pin) && inRange base (min limit e.2.limit) x then some (run.getD x) else none).flatten
    let plain := (heldLines s base limit ++ hosts).filter fun l => !isPinned s l
    sortLines (pins ++ plain)

/-- The lines RANGE.PREFETCH addresses (R428). -/
def prefetchLines (s : State) (c : Cmd) : List Nat :=
  let stride := if isExpert c then leAt c.desc 36 4 else 2 ^ stripeShift s
  let phase := if isExpert c then leAt c.desc 40 4 else 0
  let n := rangeLen c / 512
  (List.range (ceilDiv (n - phase) stride)).map fun m => rangeBase c / 512 + phase + m * stride

/-- A range command (R427 to R433). -/
def rangeStart (kind : OpKind) (s : State) (c : Cmd) : State :=
  let ctx := leAt c.desc 34 2 % 4096
  let f := rangeFlags c
  if rangeCheck c ≠ 0 then refuseCmd s c (rangeCheck c)
  else if rangeDenied s (rangeBase c) (rangeLen c) ctx then refuseCmd s c St.ctxDenied
  else
    let op := if c.code = 0x020 then f % 4 + 8 * (if isExpert c then fld f 4 3 else 2)
      else if c.code = 0x023 ∧ f.testBit 2 then 1 else 0
    let ls := if c.code = 0x020 then prefetchLines s c
      else walkLines s (rangeBase c) (rangeBase c + rangeLen c) (c.code == 0x023 && csrBit s 0x0F10 28)
    -- a flush covers the merging-buffer entries of its range (R90)
    let s := if c.code = 0x021 then
        mergeDrainWhere s fun m => decide (rangeBase c ≤ m.sector * 64 ∧ m.sector * 64 < rangeBase c + rangeLen c) else s
    presentLines s c kind (ls.map fun l => (l, l - rangeBase c / 512, rangeQos s c l, op))

/-- RANGE_PREFETCH. -/
def execRangePrefetch (ring idx : Nat) (s : State) : Host.Outcome State Fault Refusal :=
  .next (startCmd s ring idx 0x020 (rangeStart .prefetch))

/-- RANGE_FLUSH. -/
def execRangeFlush (ring idx : Nat) (s : State) : Host.Outcome State Fault Refusal :=
  .next (startCmd s ring idx 0x021 (rangeStart .flush))

/-- RANGE_INVALIDATE. -/
def execRangeInvalidate (ring idx : Nat) (s : State) : Host.Outcome State Fault Refusal :=
  .next (startCmd s ring idx 0x022 (rangeStart .inval))

/-- RANGE_DISCARD. -/
def execRangeDiscard (ring idx : Nat) (s : State) : Host.Outcome State Fault Refusal :=
  .next (startCmd s ring idx 0x023 (rangeStart .discard))

/-! ## Sheaves -/

/-- The bound window a sheaf command names by its base. -/
def windowAt (s : State) (c : Cmd) : Option Window := s.ari.windows.find? fun w => w.base == rangeBase c

/-- SHEAF.BIND (R181 to R184, R192, R437). ST_CTX_DENIED stands before the checks of R183, ST_DATA_LOST after them (DESIGN CHOICE,
notes/assumptions 35). -/
def sheafBind (s : State) (c : Cmd) : State :=
  let base := rangeBase c
  let n := leAt c.desc 24 2
  let rf := leAt c.desc 26 1 % 4
  let li := lastOf s base
  let l := lastAt s li
  let ls := bindLines c
  let limit := base + 512 * ls.length
  if n = 0 ∨ n > 4096 ∨ base % 512 ≠ 0 then refuseCmd s c St.badAddr
  else if aCtx l.attr ≠ leAt c.desc 28 2 % 4096 then refuseCmd s c St.ctxDenied
  else if rf = 1 ∨ rf = 3 ∨ aBaled l.attr ∨ aKind l.attr = 1 ∨ !aCache l.attr ∨ limit > l.limit ∨
      (ls.any fun x => lastOfLine s x != li) then refuseCmd s c St.badAttr
  else if bindRefusal s c ≠ 0 then refuseCmd s c (bindRefusal s c)
  else if l.cond ≠ 1 then refuseCmd s c St.dataLost
  else cmdUpd s c.n fun c => { c with phase := 1 }

/-- SHEAF_BIND. -/
def execSheafBind (ring idx : Nat) (s : State) : Host.Outcome State Fault Refusal :=
  .next (startCmd s ring idx 0x060 sheafBind)

/-- SHEAF.READ (R188 to R192, R194, R437); with the release flag on a lost window it leaves it bound (DESIGN CHOICE, notes/assumptions
34). -/
def sheafRead (s : State) (c : Cmd) : State :=
  match windowAt s c with
  | none => refuseCmd s c St.badAddr
  | some w =>
    if aCtx (lastAt s w.last).attr ≠ leAt c.desc 28 2 % 4096 then refuseCmd s c St.ctxDenied
    else if s.hl.suspect then refuseCmd s c St.dataError
    else if (running s c).any (fun x => x.code == 0x061 && rangeBase x == w.base) || atomWaits s (windowLines w) then unstart s c
    else
      let s := match badSheaf s w with
        | some k => windowLost s w k 8
        | none => s
      match windowAt s c with
      | none => s
      | some w =>
        if w.lost then refuseCmd s c St.dataLost
        else
          let (bs, errs) := windowResults s w
          let a := (lastAt s w.last).attr
          let s := activity (activity s (aQos a) (aCtx a) 7 w.n) (aQos a) (aCtx a) 5 (ceilDiv w.n 64)
          let s := if errs = 0 then s else ev s Ev.sheafRange
          let s := cmdUpd s c.n fun c => { c with phase := 1, acc := w.digest.toNat, acc2 := errs }
          let s := if (leAt c.desc 24 1).testBit 0 then s
            else { s with ari := { s.ari with
              sheaves := s.ari.sheaves.filter fun e => !decide (w.first ≤ e.1 ∧ e.1 < w.first + w.count)
              windows := s.ari.windows.map fun x => if x.base = w.base then { x with digest := 0 } else x } }
          let n := s.arr.n
          let lines := ceilDiv bs.length 512
          let s := cmdUpd { s with arr := { s.arr with n := n + 1 } } c.n fun c => { c with todo := lines }
          (List.range lines).foldl (fun s i =>
            let d := (bs.drop (512 * i)).take 512
            present s { n := n, kind := .wr, cmd := c.n, idx := i,
                        m := { addr := w.base + 512 * i, size := d.length - 1, mask := 2 ^ d.length - 1, data := d,
                               qos := aQos (lastAt s w.last).attr } }) s

/-- SHEAF_READ. -/
def execSheafRead (ring idx : Nat) (s : State) : Host.Outcome State Fault Refusal :=
  .next (startCmd s ring idx 0x061 sheafRead)

/-- SHEAF.RELEASE (R191, R437). -/
def sheafRelease (s : State) (c : Cmd) : State :=
  match windowAt s c with
  | none => refuseCmd s c St.badAddr
  | some w =>
    if aCtx (lastAt s w.last).attr ≠ leAt c.desc 28 2 % 4096 then refuseCmd s c St.ctxDenied
    else if (running s c).any fun x => x.code == 0x061 && rangeBase x == w.base then unstart s c
    else cmdEnd (windowRelease s w) c.n St.ok 0 0

/-- SHEAF_RELEASE. -/
def execSheafRelease (ring idx : Nat) (s : State) : Host.Outcome State Fault Refusal :=
  .next (startCmd s ring idx 0x062 sheafRelease)

/-! ## Digests -/

/-- DIGEST.RANGE (R195, R196, R437). -/
def digestRange (s : State) (c : Cmd) : State :=
  let count := leAt c.desc 24 4
  let stride := if isExpert c then leAt c.desc 28 4 else 1
  let ls := (List.range count).map fun m => rangeBase c / 512 + m * stride
  if count = 0 ∨ count > 2 ^ 24 ∨ stride = 0 ∨ stride > 2 ^ 20 ∨ rangeBase c % 512 ≠ 0 then refuseCmd s c St.badAddr
  else if ls.any fun l => aCtx (lastAt s (lastOfLine s l)).attr != leAt c.desc 34 2 % 4096 then refuseCmd s c St.ctxDenied
  else if s.hl.suspect then refuseCmd s c St.dataError
  else presentLines s c .digest (ls.zipIdx.map fun x => (x.1, x.2, aQos (lastAt s (lastOfLine s x.1)).attr, 0))

/-- DIGEST_RANGE. -/
def execDigestRange (ring idx : Nat) (s : State) : Host.Outcome State Fault Refusal :=
  .next (startCmd s ring idx 0x063 digestRange)

/-! ## Bias -/

/-- BIAS.FLIP (R257, R258, R438). -/
def biasFlip (s : State) (c : Cmd) : State :=
  let page := 2 ^ pageShift s
  if !csrBit s 0x600 0 then refuseCmd s c St.badState
  else if flipBase c % page ≠ 0 ∨ flipLen c = 0 ∨ flipLen c % page ≠ 0 ∨ flipBase c < csrFld s 0x610 51 0 ∨
      flipBase c + flipLen c > csrFld s 0x618 51 0 then refuseCmd s c St.badAddr
  else cmdUpd s c.n fun c => { c with phase := 3 }

/-- BIAS_FLIP. -/
def execBiasFlip (ring idx : Nat) (s : State) : Host.Outcome State Fault Refusal :=
  .next (startCmd s ring idx 0x070 biasFlip)

end Sys2Proof.Machine
end

