-- ==== Sys2Proof/Machine/GenCmds.lean ====
section
/-! DEFINITION. Generations and contexts: the commands of spec/11 R434 and R435, the seal, the end of a drain (spec/08 R313 to R338,
R353; spec/16 R577). -/

namespace Sys2Proof.Machine

open Sys2Proof

/-- The context a generation or context command names. -/
def cmdContext (c : Cmd) : Nat := leAt c.desc 16 2 % 4096

/-- A CTX.FREEZE of a context is in progress (R435). -/
def freezing (s : State) (c : Cmd) (ctx : Nat) : Bool := (running s c).any fun x => x.code == 0x040 && cmdContext x == ctx

/-! ## GEN.OPEN, LOG.ADVANCE, CTX.SEED -/

/-- GEN.OPEN (R314, R434, R615): at one instant, writes accepted before it performed first (R316). -/
def genOpen (s : State) (c : Cmd) : State :=
  let ctx := cmdContext c
  let x := ctxGet s ctx
  let ring := leAt c.desc 18 1 % 16
  let logEn := !(leAt c.desc 19 1).testBit 0
  if x.st ≠ 0 then refuseCmd s c St.badState
  else if logEn && !csrBit s (0x808 + 16 * ring) 63 then refuseCmd s c St.badAttr
  else if writesHeld s ctx then unstart s c
  else cmdEnd (ctxOpen s ctx { x with gen := BitVec.ofNat 32 (leAt c.desc 20 4), ring := ring, logEn := logEn }) c.n St.ok 0 0

/-- GEN_OPEN. -/
def execGenOpen (ring idx : Nat) (s : State) : Host.Outcome State Fault Refusal := .next (startCmd s ring idx 0x030 genOpen)

/-- LOG.ADVANCE (R329, R434): waiting drains and write-backs go on. -/
def logAdvance (s : State) (c : Cmd) : State :=
  let n := leAt c.desc 16 1 % 16
  let tail := leAt c.desc 20 4 % 2 ^ 25
  if !csrBit s (0x808 + 16 * n) 63 then refuseCmd s c St.badState
  else if tail ≥ logUnits s n then refuseCmd s c St.badAddr
  else cmdEnd (logPut s n { logGet s n with tail := tail }) c.n St.ok (logGet s n).head 0

/-- LOG_ADVANCE. -/
def execLogAdvance (ring idx : Nat) (s : State) : Host.Outcome State Fault Refusal := .next (startCmd s ring idx 0x032 logAdvance)

/-- CTX.SEED (R434). -/
def ctxSeed (s : State) (c : Cmd) : State :=
  let ctx := cmdContext c
  let x := ctxGet s ctx
  if x.st = 1 then refuseCmd s c St.badState
  else cmdEnd (ctxPut s ctx { x with seed := BitVec.ofNat 64 (leAt c.desc 24 8) }) c.n St.ok 0 0

/-- CTX_SEED. -/
def execCtxSeed (ring idx : Nat) (s : State) : Host.Outcome State Fault Refusal := .next (startCmd s ring idx 0x043 ctxSeed)

/-! ## GEN.CLOSE and CTX.FREEZE -/

/-- GEN.CLOSE (R317, R434, R435): its seal waits in the queue. -/
def genClose (s : State) (c : Cmd) : State :=
  let all := (leAt c.desc 18 1).testBit 0
  let open_ := (s.gen.ctxs.filter fun e => e.2.st == 1).map (·.1)
  let ctxs := if all then open_ else if (ctxGet s (cmdContext c)).st = 1 then [cmdContext c] else []
  if (running s c).any fun x => x.code == 0x040 && (all || cmdContext x == cmdContext c) then unstart s c
  else if ctxs = [] then refuseCmd s c St.badState
  else { s with gen := { s.gen with seals := s.gen.seals ++ [{ cmd := c.n, ctxs := ctxs }] } }

/-- GEN_CLOSE. -/
def execGenClose (ring idx : Nat) (s : State) : Host.Outcome State Fault Refusal := .next (startCmd s ring idx 0x031 genClose)

/-- CTX.FREEZE (R333, R434): the context is FROZEN from this instant and its seal waits in the queue. -/
def ctxFreeze (s : State) (c : Cmd) : State :=
  let ctx := cmdContext c
  let x := ctxGet s ctx
  let flags := leAt c.desc 18 1
  let stride := max 1 (leAt c.desc 20 4)
  if flags.testBit 1 ∧ (stride > 2 ^ 20 ∨ leAt c.desc 24 4 ≥ stride) then refuseCmd s c St.badDesc
  else if x.st ≠ 1 then refuseCmd s c St.badState
  else if flags.testBit 1 && !x.logEn then refuseCmd s c St.badAttr
  else if s.ari.windows.any fun w => aCtx (lastAt s w.last).attr == ctx then refuseCmd s c St.sheafBound
  else
    let s := ctxPut s ctx { x with st := 2, stall := flags.testBit 0, frozenAt := s.arr.n }
    { s with gen := { s.gen with seals := s.gen.seals ++ [{ cmd := c.n, ctxs := [ctx], freeze := true }] } }

/-- CTX_FREEZE. -/
def execCtxFreeze (ring idx : Nat) (s : State) : Host.Outcome State Fault Refusal := .next (startCmd s ring idx 0x040 ctxFreeze)

/-! ## CTX.RESUME and CTX.RELEASE -/

/-- The queued writes of a context (R334). -/
def queuedOf (s : State) (ctx : Nat) : List Op :=
  s.gen.freezeQ.filter fun o => aCtx (lastAt s (lastOfLine s (opLine o))).attr == ctx

/-- A queued write whose entry fails its parity is not performed, and is answered ST_DATA_ERROR (R452). -/
def queueBad (s : State) (o : Op) : State :=
  postError (finish s o St.dataError) St.dataError
    { unit := 14, addr := o.m.addr / 512 * 512, last := lastOfLine s (opLine o), ctx := aCtx (lastAt s (lastOfLine s (opLine o))).attr, action := 8,
      detector := 10 }

/-- The queued writes of a context rejected (R334, R434). -/
def queueReject (s : State) (ctx : Nat) : State :=
  let q := queuedOf s ctx
  let s := { s with gen := { s.gen with freezeQ := s.gen.freezeQ.filter fun o => !q.contains o } }
  q.foldl (fun s o => finish s o St.ctxFrozen) s

/-- CTX.RESUME (R335, R337, R338, R434, R435, R449). -/
def ctxResume (s : State) (c : Cmd) (input : Bytes) (bad : List BadBeat) : State :=
  let ctx := cmdContext c
  let x := ctxGet s ctx
  let flags := leAt c.desc 18 1
  let len := leAt c.desc 32 8
  if freezing s c ctx || c.preFreeze then refuseCmd s c St.badState
  else if !flags.testBit 0 then
    if x.st ≠ 2 then refuseCmd s c St.badState
    else
      let q := queuedOf s ctx
      let s := ctxPut s ctx { x with resuming := true }
      let s := { s with gen := { s.gen with freezeQ := s.gen.freezeQ.filter fun o => !q.contains o } }
      let s := (q.filter fun o => o.noted.testBit 9).foldl queueBad s
      let q := q.filter fun o => !o.noted.testBit 9
      let s := { s with arr := { s.arr with presented := (q.map fun o => { o with noted := o.noted ||| 128 }) ++ s.arr.presented } }
      cmdUpd s c.n fun c => { c with phase := 10 }
  else if leAt c.desc 24 8 % 32 ≠ 0 then refuseCmd s c St.badAddr
  else if len = 0 ∨ len % 32 ≠ 0 then refuseCmd s c St.badSize
  else if x.st = 1 then refuseCmd s c St.badState
  else if x.st == 2 && (leAt c.desc 19 1 % 16 != 0 || flags.testBit 1) then refuseCmd s c St.badDesc
  else if x.st == 0 && !flags.testBit 1 && !csrBit s (0x808 + 16 * (leAt c.desc 19 1 % 16)) 63 then refuseCmd s c St.badAttr
  else
    let s := queueReject s ctx
    let idle := fun (s : State) => ctxPut s ctx { ctxGet s ctx with st := 0, stall := false }
    if bad ≠ [] then inputBad (idle s) c bad
    else match replayParse s ctx none (slice input 0 len) (leAt c.desc 40 4) with
    | .bad seq => cmdEnd (idle s) c.n St.badLog seq 0
    | .good recs n => cmdUpd s c.n fun c => { c with phase := 6, recs := recs, acc := n }

/-- CTX_RESUME. -/
def execCtxResume (ring idx : Nat) (input : Bytes) (bad : List BadBeat) (s : State) : Host.Outcome State Fault Refusal :=
  .next (startCmd s ring idx 0x041 fun s c => ctxResume s c input bad)

/-- CTX.RELEASE (R434, R577). DEDUCED, notes/assumptions 26. -/
def ctxRelease (s : State) (c : Cmd) : State :=
  let ctx := cmdContext c
  let x := ctxGet s ctx
  if x.st ≠ 2 ∨ freezing s c ctx then refuseCmd s c St.badState
  else
    let s := queueReject s ctx
    let s := ctxPut s ctx { x with st := 0, stall := false, seed := 0, gen := 0 }
    let own := s.arr.lasts.filter fun e => e.2.cond != 0 && e.1 != 1023 && aCtx e.2.attr == ctx
    let s := { s with arr := { s.arr with
      lines := SMap.mapVals {} (fun _ l => if aCtx (lastAt s l.last).attr = ctx then { l with note := none } else l) s.arr.lines } }
    let ls := if csrBit s 0x0F10 27 then
        ((own.filter fun e => aKind e.2.attr != 1).map fun e => walkLines s e.2.base e.2.limit (aKind e.2.attr != 2)).flatten
      else []
    presentLines s c .discard (ls.zipIdx.map fun l => (l.1, l.2, aQos (lastAt s (lastOfLine s l.1)).attr, 2))

/-- CTX_RELEASE. -/
def execCtxRelease (ring idx : Nat) (s : State) : Host.Outcome State Fault Refusal := .next (startCmd s ring idx 0x042 ctxRelease)

/-! ## The seal (R317 to R319) -/

/-- A line of a tracked last of one of the contexts. -/
def trackedLine (s : State) (ctxs : List Nat) (line : Nat) : Bool :=
  let a := (lastAt s (lastOfLine s line)).attr
  tracked s a && ctxs.contains (aCtx a)

/-- The steps of R319 started: host lines in state E drawn back, open lines closed. -/
def sealSteps (s : State) (ctxs : List Nat) : State :=
  let hosts := (s.coh.sf.filter fun e => e.2.st == 2 && trackedLine s ctxs (e.2.tag / 8)).map fun e => e.2.tag
  let s := (snoopBlocks (csrBit s 0x620 15) (hosts.length + 1) (hosts.filter fun h => !snoopHolds s h)).foldl (fun s b =>
    if snoopRoom s then snoopIssue s { host := b.1, count := b.2, data := true, qos := csrFld s 0x3080 27 24 } else s) s
  (s.arr.opens.filter fun o => trackedLine s ctxs o.line).foldl (fun s o => closeLine s o.line) s

/-- A write of the contexts' tracked lines accepted before the seal has not been performed (R317), or R319 is not done. DEDUCED, notes/assumptions 14, 26. -/
def sealHeld (s : State) (w : SealWait) : Bool :=
  let late := fun (o : Op) => w.freeze && decide ((w.ctxs.map fun c => (ctxGet s c).frozenAt).foldl max 0 ≤ o.n)
  let mine := fun (o : Op) => (o.kind == .wb || (opWrites o && !late o)) && trackedLine s w.ctxs (opLine o)
  (s.arr.waiting ++ s.arr.presented).any mine || (s.pr.sync.any fun e => mine e.2) ||
    (s.arr.mhes.any fun m => ((m.wmask != 0 && m.kind != .replay) || m.kind == .memSide) && trackedLine s w.ctxs m.line) ||
    (s.coh.sf.any fun e => e.2.st == 2 && trackedLine s w.ctxs (e.2.tag / 8)) ||
    (s.coh.snoops.any fun x => trackedLine s w.ctxs (x.host / 8)) ||
    (s.arr.opens.any fun o => trackedLine s w.ctxs o.line)

/-- Pending lines of a generation in the order of the walk: by set, then by way (R320). -/
def walkOrder (s : State) (ctx g : Nat) : List Nat :=
  let mine := s.arr.lines.filter fun e =>
    let a := (lastAt s e.2.last).attr
    tracked s a && aCtx a == ctx && e.2.dirtyMask != 0 && e.2.genTag == g % 4
  (mine.foldl (fun (m : SMap Nat) e => SMap.ins m (slotSet e.1 * 16 + slotWay e.1) e.1) []).map (·.2)

/-- A line of a context that a resynchronisation sends with the first generation sealed after it began, checked as it is read (R124, R353,
R444): one that fails its check stays for its repair. -/
def resyncSend (s : State) (ctx : Nat) (g : BitVec 32) (k : Nat) : State :=
  match readWhole s k 3 with
  | (s, false) => s
  | (s, true) =>
    let l := lineAt s k
    let f := l.st == .fallow
    ttSend s { kind := 0x03, mask := if f then 0 else 0xFF, ctx := ctx, set := slotSet k, addr := l.addr * 512,
               data := deltaRecord ctx l.last false false (if f then 0 else 0xFF) (if f then 2 else 1) (l.addr * 512) 0 g.toNat
                 (lineBytes (if f then 0 else lineView s l) 0 512) }

/-- One context sealed (R317, R331, R348, R353). -/
def sealOne (s : State) (cmd ctx : Nat) : State :=
  let x := ctxGet s ctx
  let g := x.gen
  let todo := walkOrder s ctx g.toNat
  let lagLast := s.arr.lasts.any fun e => e.2.cond == 1 && aDur e.2.attr == 2 && aCtx e.2.attr == ctx
  let d : Drain := { ctx := ctx, gen := g, tag := g.toNat % 4, todo := todo, records := SMap.get 0 s.gen.early ctx,
                     lag := lagLast && paired s, cmd := cmd, sealTs := tsNs s }
  let s := { s with gen := { s.gen with drains := s.gen.drains ++ [d], early := SMap.put 0 s.gen.early ctx 0 } }
  let s := ctxPut s ctx { x with gen := g + 1 }
  if s.pr.resyncCtx.contains ctx then
    ((s.arr.lines.filter fun e =>
      let a := (lastAt s e.2.last).attr
      aDur a == 2 && aCtx a == ctx && (e.2.st == .dirty || (aKind a == 2 && e.2.st != .invalid)) && !todo.contains e.1).map (·.1)).foldl
      (fun s k => resyncSend s ctx g k) s
  else s

/-- GEN_SEAL: the oldest seal that waits takes effect, where R317 to R319 allow it. DEDUCED, notes/assumptions 26. -/
def genSeal (s : State) : State :=
  match s.gen.seals with
  | [] => s
  | w :: rest =>
    let s := advance (sealSteps s w.ctxs)
    let early := match s.gen.lastSeal with
      | some t => decide (tsNs s < t + 100000)
      | none => false
    let full := w.ctxs.any fun c => decide (2 ≤ (s.gen.drains.filter fun d => d.ctx == c).length)
    if early || full || sealHeld s w then s
    else
      let s := ev { s with gen := { s.gen with seals := rest, lastSeal := some (tsNs s) } } Ev.genSeal
      let first := (ctxGet s (w.ctxs.headD 0)).gen.toNat
      let s := w.ctxs.foldl (fun s c => sealOne s w.cmd c) s
      let s := match cmdGet s w.cmd with
        | none => s
        | some c =>
          let all := c.code == 0x031 && (leAt c.desc 18 1).testBit 0
          let s := cmdUpd s c.n fun c => { c with phase := 9, todo := w.ctxs.length, acc := if all then w.ctxs.length else first }
          if c.code == 0x031 && (leAt c.desc 18 1).testBit 1 then cmdEnd s c.n St.ok (if all then w.ctxs.length else first) 0 else s
      advance s

/-- GEN_SEAL. -/
def execGenSeal (s : State) : Host.Outcome State Fault Refusal := .next (if serving s then genSeal s else s)

/-! ## The end of a drain (R325) -/

/-- Records of a generation that MEM has not completed. -/
def logWriting (s : State) (ctx gen : Nat) : Bool :=
  let mine := fun (w : MemWr) => match w.for_ with
    | .log c g => c == ctx && g == gen
    | _ => false
  s.arr.memWrs.any mine || s.arr.memq.any fun q => match q with
    | .wr w _ _ => mine w
    | _ => false

/-- An eviction buffer holds a record of a generation that waits for log room (R323 to R325). -/
def evictLogs (s : State) (ctx : Nat) (gen : BitVec 32) : Bool :=
  s.arr.evicts.any fun e => e.waitLog && aCtx (lastAt s e.last).attr == ctx && genOfTag s ctx e.genTag == gen

/-- The lines an image takes (R336). -/
def imageLines (s : State) (c : Cmd) : List Nat :=
  let ctx := cmdContext c
  let stride := max 1 (leAt c.desc 20 4)
  let phase := leAt c.desc 24 4
  ((s.arr.lasts.filter fun e => e.2.cond == 1 && aTrack e.2.attr && aCtx e.2.attr == ctx).map fun e =>
    let l := e.2
    if aKind l.attr = 2 then (List.range (pinCount l)).map fun j => l.base / 512 + j * pinStride l.pin
    else (List.range (ceilDiv ((l.limit - l.base) / 512 - phase) stride)).map fun m => l.base / 512 + phase + m * stride).flatten

/-- The command a drain belongs to hears of its end. -/
def drainTell (s : State) (d : Drain) : State :=
  match cmdGet s d.cmd with
  | none => s
  | some c =>
    if c.done || c.phase != 9 then s
    else
      let s := cmdUpd s c.n fun c => { c with todo := c.todo - 1, acc2 := c.acc2 + d.records, acted := c.acted + d.carried }
      if c.todo > 1 then s
      else if c.code = 0x040 then
        if (leAt c.desc 18 1).testBit 1 then cmdUpd s c.n fun c => { c with phase := 2, todo := 0, acc2 := 0, lines := imageLines s c }
        else cmdEnd s c.n St.ok c.acc 0
      else cmdEnd s c.n St.ok (at_ ((c.acc2 + d.records) % 2 ^ 32) 32 + c.acc) (c.acted + d.carried)

/-- DRAIN_COMPLETE (R325): the END record is written and what waited for the drain goes on. -/
def drainComplete (s : State) (ctx gen : Nat) : State :=
  match drainOf s ctx (BitVec.ofNat 32 gen) with
  | none => s
  | some d =>
    if !d.sealed || !d.todo.isEmpty || bufHolds s ctx d.gen || evictLogs s ctx d.gen || logWriting s ctx gen || (d.lag && !d.lagOk && paired s) then s
    else
      let discards := logDiscards s ctx
      match logRecord s ctx d.gen 0 false false 0 4 (endField d.carried d.records) 0 with
      | (s, false) => s
      | (s, true) =>
        let s := { s with gen := { s.gen with drains := s.gen.drains.filter fun x => !(x.ctx == ctx && x.gen == d.gen) } }
        let s := if discards then s else ctxPut s ctx { ctxGet s ctx with lastEnd := some d.gen }
        let s := if paired s then s else clearLags s ctx gen
        let s := if d.lag && paired s then { s with
            arr := { s.arr with lasts := SMap.mapVals {} (fun _ l =>
              if aDur l.attr = 2 ∧ aCtx l.attr = ctx then { l with unprot := false } else l) s.arr.lasts } } else s
        advance (drainTell s d)

/-- DRAIN_COMPLETE. -/
def execDrainComplete (ctx gen : Nat) (s : State) : Host.Outcome State Fault Refusal :=
  .next (if serving s then drainComplete s ctx gen else s)

end Sys2Proof.Machine
end

