-- ==== Sys2Proof/Machine/Pair.lean ====
section
/-! DEFINITION. Paired lasts: the fellow's mirror lines and staged records held here, and the own lines' acknowledgements, repairs,
rollbacks, resynchronisation and takeover (spec/08 R341 to R358; spec/09 R373; spec/11 R439, R440). -/

namespace Sys2Proof.Machine

open Sys2Proof

/-! ## Mirror lines held for the fellow (R341, R343) -/

def mirrorAt (s : State) (k : Nat) : Line := SMap.get {} s.pr.mirrors k
def mirrorPut (s : State) (k : Nat) (l : Line) : State := { s with pr := { s.pr with mirrors := SMap.put {} s.pr.mirrors k l } }

/-- The mirror way of a set that holds a line. -/
def mirrorFind (s : State) (set line : Nat) : Option Nat :=
  (mirrorSlots s set).find? fun k => (mirrorAt s k).st != .invalid && (mirrorAt s k).addr == line

/-- A mirror line stored; the flip-mask sees the write (R461). -/
def mirrorStore (s : State) (k : Nat) (l : Line) (m : LineMask) : State :=
  if flipMatch s (slotBank k) l.addr then
    match flipLine s l m true false false with
    | some l' => flipFired (mirrorPut s k l')
    | none => mirrorPut s k l
  else mirrorPut s k l

/-- Sectors written into a mirror line, or the line made FALLOW (R343, R346, R349): false where no mirror way of the set is free,
which a fellow that keeps R343 never meets. -/
def mirrorWrite (s : State) (set line : Nat) (mask : BitVec 8) (data : Bytes) (fallow : Bool) : State × Bool :=
  let spread := fun (x : Nat × Bytes) (i : Nat) =>
    if mask.toNat.testBit i then (x.1 + (leNat (x.2.take 64) <<< (512 * i)), x.2.drop 64) else x
  let d : LineData := BitVec.ofNat 4096 ((List.range 8).foldl spread (0, data)).1
  let put := fun (k : Nat) (old : Line) =>
    if fallow then
      (mirrorStore s k { addr := line, st := .fallow, crc := lineCrc 0 } (BitVec.allOnes 512), true)
    else
      let m := maskOfSectors mask
      (mirrorStore s k { writeData true { old with addr := line } d m with st := .dirty } m, true)
  match mirrorFind s set line with
  | some k => put k (mirrorAt s k)
  | none =>
    match (mirrorSlots s set).find? fun k => (mirrorAt s k).st == .invalid with
    | some k => put k {}
    | none => (s, false)

/-! ## Staged records (R348, R349) -/

/-- Bytes of the staging area (R342). -/
def stageSize (s : State) : Nat := 2 ^ clampLog 0x10 0x1E (csrFld s 0x908 57 53)

/-- Bytes staged. -/
def stageUsed (s : State) : Nat := (s.pr.stage.map fun e => e.2.2.2.length).foldl (· + ·) 0

/-- Whether records of every credit of channel 2 still fit (R374). DESIGN CHOICE, notes/assumptions 20. -/
def stageRoom (s : State) : Bool := decide (stageUsed s + 16 * 544 ≤ stageSize s)

/-- A record stored in the staging area, in memory at DRF_PAIR_STAGE (R348). DESIGN CHOICE, notes/assumptions 20. -/
def stagePut (s : State) (ctx gen set : Nat) (bs : Bytes) : State :=
  let size := stageSize s
  let at0 := if s.pr.stageHead + bs.length ≤ size then s.pr.stageHead else 0
  let s := memBytes {} 0 4 s (csrFld s 0x908 51 0 / size * size + at0) bs
  { s with pr := { s.pr with stage := s.pr.stage ++ [(ctx, gen, set, bs)], stageHead := at0 + bs.length } }

/-- A credit of a channel owed to the fellow (R374); those of channel 2 are withheld while the staging area is full. -/
def creditOwe (s : State) (vc : Nat) : State :=
  if vc = 2 ∧ !stageRoom s then { s with pr := { s.pr with stageOwed := s.pr.stageOwed + 1 } }
  else { s with tt := { s.tt with owed := SMap.put 0 s.tt.owed vc (SMap.get 0 s.tt.owed vc + 1) } }

/-- Credits withheld are returned once the staging area has room. -/
def stageFree (s : State) : State :=
  if stageRoom s then
    { s with
      tt := { s.tt with owed := SMap.put 0 s.tt.owed 2 (SMap.get 0 s.tt.owed 2 + s.pr.stageOwed) }
      pr := { s.pr with stageOwed := 0 } }
  else s

/-- One staged record applied to its mirror line. -/
def stageApply (s : State) (set : Nat) (bs : Bytes) : State :=
  let kind := leAt bs 0 1
  let line := leAt bs 8 8 % 2 ^ 52 / 512
  if kind = 1 then (mirrorWrite s set line (BitVec.ofNat 8 (leAt bs 1 1)) (bs.drop 32) false).1
  else if kind = 2 then (mirrorWrite s set line 0 [] true).1
  else s

/-- A generation complete: every staged record of the context up to it is applied, and the fellow told (R349). -/
def stageComplete (s : State) (ctx gen : Nat) : State :=
  let mine := fun (e : Nat × Nat × Nat × Bytes) => e.1 == ctx && decide (e.2.1 ≤ gen)
  let s := (s.pr.stage.filter mine).foldl (fun s e => stageApply s e.2.2.1 e.2.2.2) s
  let s := { s with pr := { s.pr with
    stage := s.pr.stage.filter fun e => !mine e
    ends := s.pr.ends.filter fun e => !(e.1 == ctx && decide (e.2.1 ≤ gen))
    applied := SMap.put 0 s.pr.applied ctx (gen + 1) } }
  ttSend (stageFree s) { kind := 0x06, ctx := ctx, addr := gen }

/-! ## Messages of the fellow about its own lines -/

/-- SYNC_WR (R373): the sectors written, then SYNC_ACK. -/
def syncWr (s : State) (t : TMsg) : State :=
  match mirrorWrite s t.set (t.addr / 512) (BitVec.ofNat 8 t.mask) t.data false with
  | (s, true) => ttSend s { kind := 0x02, tag := t.tag }
  | (s, false) => s

/-- LAG_REC (R348, R373). -/
def lagRec (s : State) (t : TMsg) : State := stagePut s t.ctx (leAt t.data 24 4) t.set t.data

/-- LAG_END (R349, R373): stored, accepted, and the generation applied where it is complete. -/
def lagEnd (s : State) (t : TMsg) : State :=
  let gen := leAt t.data 24 4
  let carried := (leAt t.data 8 8).testBit 63
  let s := stagePut s t.ctx gen t.set t.data
  let s := { s with pr := { s.pr with ends := s.pr.ends ++ [(t.ctx, gen, carried)] } }
  let s := ttSend s { kind := 0x05, ctx := t.ctx, addr := gen }
  if carried then s else stageComplete s t.ctx gen

/-- DROP (R345, R373). -/
def dropMirror (s : State) (t : TMsg) : State :=
  match mirrorFind s t.set (t.addr / 512) with
  | some k => mirrorPut s k {}
  | none => s

/-- REPAIR_RD (R373): the mirror line's bytes, or none where none is held; one that fails its check is dropped (R356). -/
def repairRd (s : State) (t : TMsg) : State :=
  let empty : TMsg := { kind := 0x09, tag := t.tag, set := t.set, addr := t.addr }
  match mirrorFind s t.set (t.addr / 512) with
  | none => ttSend s empty
  | some k =>
    let l := mirrorAt s k
    if mirrorGood l then ttSend s { empty with mask := 0xFF, data := lineBytes l.data 0 512 }
    else ttSend (mirrorDrop s k l 10) empty

/-- RESYNC_BEGIN (R353, R373): every mirror line of the fellow dropped, and what was staged for them. -/
def resyncBegin (s : State) : State := stageFree { s with pr := { s.pr with mirrors := [], stage := [], ends := [] } }

/-- PLAN_DATA (R373, R384): written into the PINNED last defined over its address, or discarded. -/
def planData (s : State) (t : TMsg) : State :=
  let li := lastOf s t.addr
  let l := lastAt s li
  if l.cond = 1 ∧ aKind l.attr = 2 then
    let line := t.addr / 512
    let off := t.addr % 512 / 256 * 256
    let n := s.arr.n
    let m : Msg := { addr := line * 512, qos := t.qos, mask := (spanMask off 256).toNat,
                     data := List.replicate off 0 ++ slice t.data 0 256 }
    serve { s with arr := { s.arr with n := n + 1 } } { n := n, kind := .wr, plan := true, m := m }
  else ev s Ev.tthOutDiscard

/-! ## Resynchronisation (R353, R439) -/

/-- Both parts of a resynchronisation done: PAIRED again, the fellow told, PAIR.RESYNC complete. -/
def resyncCheck (s : State) : State :=
  if s.pr.st = 3 ∧ s.pr.resyncOut = [] ∧ s.pr.resyncCtx = [] then
    let cmds := s.pr.resyncCmds
    let s := { s with
      pr := { s.pr with st := 1, resyncCmds := [] }
      arr := { s.arr with lasts := SMap.mapVals {} (fun _ l => { l with unprot := false }) s.arr.lasts } }
    let s := ttSend s { kind := 0x0C }
    cmds.foldl (fun s n => cmdEnd s n St.ok 0 0) s
  else s

/-- Lines of the slice's PAIRED_SYNC lasts that a resynchronisation sends (R353, step 2). -/
def resyncLines (s : State) : List (Nat × Line) :=
  s.arr.lines.filter fun e =>
    let l := lastAt s e.2.last
    aDur l.attr == 1 && l.cond == 1 && e.2.st != .invalid && (e.2.st == .dirty || aKind l.attr == 2)

/-- Steps 1 and 2 of R353, each line checked as it is read (R124), and the contexts whose next seal is step 3. -/
def resyncStart (s : State) : State :=
  let s := (s.arr.opens.filter fun o => aDur (lastAt s (lastOfLine s o.line)).attr == 1).foldl (fun s o => closeLine s o.line) s
  let s := (resyncLines s).foldl (fun s e => (readWhole s e.1 10).1) s
  let s := ttSend { s with pr := { s.pr with st := 3 } } { kind := 0x0B }
  let ctxs := ((s.arr.lasts.filter fun e => e.2.cond == 1 && aDur e.2.attr == 2).map fun e => aCtx e.2.attr).eraseDups
  let s := (resyncLines s).foldl (fun s e =>
    let t := s.pr.tag
    ttSend { s with pr := { s.pr with tag := (t + 1) % 4096, resyncOut := s.pr.resyncOut ++ [t] } }
      { kind := 0x01, mask := 0xFF, tag := t, set := slotSet e.1, addr := e.2.addr * 512,
        data := lineBytes (if e.2.st = .fallow then 0 else e.2.data) 0 512 }) s
  resyncCheck { s with pr := { s.pr with resyncCtx := ctxs } }

/-- PAIR.RESYNC (R439). -/
def pairResync (s : State) (c : Cmd) : State :=
  if s.tt.link ≠ 2 ∨ s.pr.st ≠ 2 then refuseCmd s c St.badState
  else resyncStart { s with pr := { s.pr with resyncCmds := s.pr.resyncCmds ++ [c.n] } }

/-- PAIR_RESYNC. -/
def execPairResync (ring idx : Nat) (s : State) : Host.Outcome State Fault Refusal := .next (startCmd s ring idx 0x080 pairResync)

/-- RESYNC_DONE (R373): the fellow's resynchronisation is over. A slice that runs one of its own ends it by its own steps (R353). DEDUCED,
notes/assumptions 29. -/
def resyncDone (s : State) : State := if s.pr.st = 2 then { s with pr := { s.pr with st := 1 } } else s

/-! ## Acknowledgements of the own lines -/

/-- SYNC_ACK (R346, R373): the write that waited is performed, or a line of a resynchronisation is held. -/
def syncAck (s : State) (t : TMsg) : State :=
  match s.pr.sync.find? fun e => e.1 == t.tag with
  | some (tag, o) =>
    let s := stage s o.n 11
    serveFirst { s with pr := { s.pr with sync := s.pr.sync.filter fun e => e.1 != tag } } { o with synced := true }
  | none => resyncCheck { s with pr := { s.pr with resyncOut := s.pr.resyncOut.filter (· != t.tag) } }

/-- LAG_ACCEPT (R325, R353, R373). -/
def lagAccept (s : State) (t : TMsg) : State :=
  match drainOf s t.ctx (BitVec.ofNat 32 t.addr) with
  | some d =>
    let s := drainSet s { d with lagOk := true }
    resyncCheck { s with pr := { s.pr with resyncCtx := s.pr.resyncCtx.filter (· != t.ctx) } }
  | none => s

/-- LAG_APPLIED (R350, R373). -/
def lagApplied (s : State) (t : TMsg) : State :=
  clearLags { s with pr := { s.pr with ownApplied := SMap.put 0 s.pr.ownApplied t.ctx (t.addr % 2 ^ 32 + 1) } } t.ctx (t.addr % 2 ^ 32)

/-! ## Repairs and rollbacks (R356, R357) -/

/-- The generation a rollback restores: the last the fellow applied, all ones where it has applied none. -/
def appliedGen (m : SMap Nat) (ctx : Nat) : Nat :=
  let v := SMap.get 0 m ctx
  if v = 0 then 0xFFFFFFFF else v - 1

/-- A rollback concluded: steps 4 and 5 of R357, and the error record. -/
def rollbackDone (s : State) (r : Repair) : State :=
  let l := lastAt s r.last
  let ctx := aCtx l.attr
  let gen := appliedGen s.pr.ownApplied ctx
  let s := { s with pr := { s.pr with
    rollLogs := s.pr.rollLogs ++ [(ctx, l.base, gen)]
    lagged := s.pr.lagged.filter fun e => (lineAt s e.2.2).last != r.last } }
  let s := postEvent (rollPump s) 1 St.rollback 0 r.last gen
  postError s St.rollback { r.err with action := 4 }

/-- A line given the bytes of the fellow's mirror line (R356, R357). -/
def restoreLine (s : State) (k : Nat) (d : LineData) : State :=
  let l := lineAt s k
  storeLine (openDel s l.addr) k (writeData (crcLine s l) l d (BitVec.allOnes 512)) (BitVec.allOnes 512) false

/-- The fellow's bytes for a held copy of a line: the eviction buffers and log buffers that wait with it take them (R356, R446, R452). -/
def restoreCopy (s : State) (line : Nat) (d : LineData) : State :=
  { s with
    arr := { s.arr with evicts := s.arr.evicts.map fun e =>
      if e.line = line ∧ e.tag.isNone then { e with data := d, bad := 0, waitLog := true } else e }
    gen := { s.gen with bufs := s.gen.bufs.map fun b => if b.addr / 512 = line ∧ b.bad ≠ 0 then { b with data := d, bad := 0 } else b } }

/-- REPAIR_DATA (R356, R357, R373). -/
def repairData (s : State) (t : TMsg) : State :=
  match s.pr.repairs.find? fun r => r.tag == t.tag with
  | none => s
  | some r =>
    let s := { s with pr := { s.pr with repairs := s.pr.repairs.filter fun x => x.tag != r.tag } }
    let l := lineAt s r.slot
    let held := t.mask ≠ 0
    match r.copy with
    | some line => if held then postError (restoreCopy s line (lineOf t.data)) St.lineRepaired r.err else lastFail s r.last r.err
    | none =>
    if r.rollback then
      let s := if held then restoreLine s r.slot (lineOf t.data)
        else if aKind (lastAt s r.last).attr = 2 then
          storeLine (openDel s l.addr) r.slot { l with st := .fallow, data := 0, badPar := 0, crcBad := false, crc := lineCrc 0 } (BitVec.allOnes 512)
            false
        else lineDrop (openDel s l.addr) r.slot
      let l := lineAt s r.slot
      let s := if l.st = .invalid then s else
        storeLine s r.slot { l with locked := false, dirtyMask := 0, st := if held then .dirty else l.st } 0 false
      if s.pr.repairs.any fun x => x.rollback && x.last == r.last then s else rollbackDone s r
    else if held then postError (restoreLine s r.slot (lineOf t.data)) St.lineRepaired r.err
    else lastFail s r.last r.err

/-! ## Takeover (R358, R440) -/

/-- A promoted last: durability PLAIN, and CACHE where no run of pinned slots holds it. -/
def promotedLast (s : State) (l : Last) : Last :=
  let a := setFld l.attr 6 4 0
  let r : Last := { base := l.base, limit := l.limit, attr := a, prefetch := l.prefetch, pin := l.pin, cond := 1 }
  if aKind a ≠ 2 then r
  else match firstFit s (pinCount r) with
    | some f => { r with pin := at_ f 6 + pinStride r.pin }
    | none => { r with attr := setFld a 1 0 0, pin := 0 }

/-- A mirror line made a DIRTY line of its last (R358, step 3): in its pinned slot, in its mirror way, or in memory where its set is
another. One that fails its check is a failed DIRTY line of a PLAIN last: the last becomes FAILED (R356). -/
def promoteLine (s : State) (i : Nat) (k : Nat) (x : Line) : State :=
  let l := lastAt s i
  let y : Line := { x with st := .dirty, last := i, qos := aQos l.attr }
  let good := mirrorGood x
  let e := mirrorErr k x i (aCtx l.attr) 5 10
  let s := mirrorPut s k {}
  if l.cond ≠ 1 then s
  else if !good then lastFail s i e
  else if aKind l.attr = 2 then storeLine s (pinnedSlot s (pinIndex l x.addr)) y (BitVec.allOnes 512) true
  else if setOf s x.addr = slotSet k then storeLine s k y 0 true
  else memWriteLine s { last := i } x.addr x.data (aQos l.attr)

/-- One last promoted, with its event records (R358, steps 2, 3 and 5); none where the table of lasts is full. DESIGN CHOICE, notes/assumptions 15. -/
def promoteLast (s : State) (i : Nat) (l : Last) : State × Nat :=
  let free := fun (j : Nat) => (SMap.get {} s.arr.lasts j).cond == 0
  match (i :: List.range 1023).find? free with
  | none => (s, 0)
  | some j =>
    let r := promotedLast s l
    let s := lastPut s j r
    let s := if aKind r.attr = 2 then
        (List.range (pinCount r)).foldl (fun s m =>
          storeLine s (pinnedSlot s (pinFirst r.pin + m))
            { addr := r.base / 512 + m * pinStride r.pin, st := .fallow, last := j, qos := aQos r.attr, crc := lineCrc 0 }
            (BitVec.allOnes 512) true) s
      else s
    let mine := s.pr.mirrors.filter fun e => e.2.st != .invalid && decide (r.base ≤ e.2.addr * 512 ∧ e.2.addr * 512 < r.limit)
    let s := mine.foldl (fun s e => promoteLine s j e.1 e.2) s
    let gen := appliedGen s.pr.applied (aCtx l.attr)
    let s := if aDur l.attr = 2 then postEvent s 1 St.rollback 0 j gen else s
    (postEvent s 1 St.takenOver 0 j gen, 1)

/-- Microseconds of unavailability counted (R360). -/
def unavailAdd (s : State) (us : Nat) : State := evN { s with hl := { s.hl with unavail := s.hl.unavail + us } } Ev.pairUnavailUs us

/-- PAIR.TAKEOVER (R358, R440). The interval from the fence notice, which no row brings to the fellow, is a free value (R360, DESIGN CHOICE,
notes/assumptions 31). `defs` are the lost slice's paired lasts, which no tether message carries (DESIGN CHOICE, notes/assumptions 15). -/
def pairTakeover (defs : List (Nat × Last)) (s : State) (c : Cmd) : State :=
  if s.pr.st ≠ 2 ∨ leAt c.desc 16 4 % 2 ^ 18 ≠ s.pr.fellowId then refuseCmd s c St.badState
  else
    let s := stageFree { s with pr := { s.pr with stage := [], ends := [] } }
    let (s, n) := (defs.filter fun d => aPaired d.2.attr).foldl (fun (x : State × Nat) d =>
      let (s, k) := promoteLast x.1 d.1 d.2
      (s, x.2 + k)) (s, 0)
    let (k, s) := drawFree s
    cmdEnd (unavailAdd { s with pr := { s.pr with st := 5 } } (Config.freeNat k)) c.n St.ok (n % 65536) 0

/-- PAIR_TAKEOVER. -/
def execPairTakeover (ring idx : Nat) (defs : List (Nat × Last)) (s : State) : Host.Outcome State Fault Refusal :=
  .next (startCmd s ring idx 0x081 (pairTakeover defs))

/-! ## Delivery (R373, R374) -/

/-- A message handled, its bytes metered (R516), its credit owed to the fellow, and what it lets go on. -/
def ttHandle (s : State) (t : TMsg) : State :=
  let q := ttClass s t
  let s := if t.kind = 0x01 then syncWr s t
    else if t.kind = 0x02 then syncAck s t
    else if t.kind = 0x03 then lagRec s t
    else if t.kind = 0x04 then lagEnd s t
    else if t.kind = 0x05 then lagAccept s t
    else if t.kind = 0x06 then lagApplied s t
    else if t.kind = 0x07 then dropMirror s t
    else if t.kind = 0x08 then repairRd s t
    else if t.kind = 0x09 then repairData s t
    else if t.kind = 0x0A then planData s t
    else if t.kind = 0x0B then resyncBegin s
    else if t.kind = 0x0C then resyncDone s
    else ev s Ev.msgBad
  advance (ttFlush (creditOwe (meter s q 3 (16 * ttChunks t)) (ttChannel t)))

/-- The delivery of a message of one kind, as it is held while array access has stopped. -/
def ttInstr (kind : Nat) (t : TMsg) : Instr :=
  if kind = 0x01 then .syncWr t else if kind = 0x02 then .syncAck t else if kind = 0x03 then .lagRec t
  else if kind = 0x04 then .lagEnd t else if kind = 0x05 then .lagAccept t else if kind = 0x06 then .lagApplied t
  else if kind = 0x07 then .dropMirror t else if kind = 0x08 then .repairRd t else if kind = 0x09 then .repairData t
  else if kind = 0x0A then .planData t else if kind = 0x0B then .resyncBegin t else .resyncDone t

/-- A message of one kind delivered while the link is UP and the slice is not fenced; it waits in BACKUP_HOLD (R560). -/
def ttDeliver (s : State) (kind : Nat) (t : TMsg) : State :=
  if s.tt.link = 2 ∧ !s.hd.fenced then
    if s.pw.pstate = Ps.backupHold then { s with held := s.held ++ [ttInstr kind t] } else ttHandle s { t with kind := kind }
  else s

/-- SYNC_WR. -/
def execSyncWr (t : TMsg) (s : State) : Host.Outcome State Fault Refusal := .next (ttDeliver s 0x01 t)
/-- SYNC_ACK. -/
def execSyncAck (t : TMsg) (s : State) : Host.Outcome State Fault Refusal := .next (ttDeliver s 0x02 t)
/-- LAG_REC. -/
def execLagRec (t : TMsg) (s : State) : Host.Outcome State Fault Refusal := .next (ttDeliver s 0x03 t)
/-- LAG_END. -/
def execLagEnd (t : TMsg) (s : State) : Host.Outcome State Fault Refusal := .next (ttDeliver s 0x04 t)
/-- LAG_ACCEPT. -/
def execLagAccept (t : TMsg) (s : State) : Host.Outcome State Fault Refusal := .next (ttDeliver s 0x05 t)
/-- LAG_APPLIED. -/
def execLagApplied (t : TMsg) (s : State) : Host.Outcome State Fault Refusal := .next (ttDeliver s 0x06 t)
/-- DROP. -/
def execDropMirror (t : TMsg) (s : State) : Host.Outcome State Fault Refusal := .next (ttDeliver s 0x07 t)
/-- REPAIR_RD. -/
def execRepairRd (t : TMsg) (s : State) : Host.Outcome State Fault Refusal := .next (ttDeliver s 0x08 t)
/-- REPAIR_DATA. -/
def execRepairData (t : TMsg) (s : State) : Host.Outcome State Fault Refusal := .next (ttDeliver s 0x09 t)
/-- PLAN_DATA. -/
def execPlanData (t : TMsg) (s : State) : Host.Outcome State Fault Refusal := .next (ttDeliver s 0x0A t)
/-- RESYNC_BEGIN. -/
def execResyncBegin (t : TMsg) (s : State) : Host.Outcome State Fault Refusal := .next (ttDeliver s 0x0B t)
/-- RESYNC_DONE. -/
def execResyncDone (t : TMsg) (s : State) : Host.Outcome State Fault Refusal := .next (ttDeliver s 0x0C t)

end Sys2Proof.Machine
end

