-- ==== Sys2Proof/Machine/Tether.lean ====
section
/-! DEFINITION. The receive side of the Birhel tether, its link states, training and negotiation (spec/09; spec/16 R579). -/

namespace Sys2Proof.Machine

open Sys2Proof

/-! ## Link states (R376, R383) -/

/-- Refusals, which hold the lanes idle (R376, R382). -/
def refused (reason : Nat) : Bool := decide (5 ≤ reason ∧ reason ≤ 7)

/-- A training from DETECT starts (R377). -/
def trainStart (s : State) : State :=
  { s with tt := { s.tt with link := 1, phase := 0, width := 0, rxWidth := 0, lanes := [], laneOk := 0, reversed := false,
                             downReason := 0, proposal := none, verdict := 0 } }

/-- A persistent error, or retrain written: RETRAIN, keeping every queued message (R370, R371). -/
def retrainStart (s : State) : State := { s with tt := { s.tt with link := 3, phase := 1 } }

/-- The link goes DOWN, or DISABLED (R376, R383, R384). -/
def linkDown (s : State) (link reason : Nat) : State :=
  let s := ttDrop s
  let s := { s with tt := { s.tt with link := link, width := 0, rxWidth := 0, downReason := reason, naks := [], nakked := false } }
  advance (stageFree (goSolo { s with pr := { s.pr with stageOwed := 0 } }))

/-- The link comes UP after a full training (R374, R383). -/
def linkUp (s : State) : State :=
  let s := { s with tt := { s.tt with
    link := 2, vc := ttGrant, txSeq := 0, rxSeq := 0, nakked := false, retry := 0, replay := [], flits := [], rxPart := [], owed := [],
    naks := [], downReason := 0, scr := (List.range 8).map fun k => (k, scrSeed k) } }
  let had := s.arr.lasts.any fun e => e.2.cond != 0 && aPaired e.2.attr
  let s :=
    if s.pr.st = 5 then s
    else if (s.pr.st == 2 || (s.pr.st == 4 && had)) then
      let s := { s with pr := { s.pr with st := 2 } }
      if s.pr.autoResync then resyncStart s else s
    else { s with pr := { s.pr with st := 1 } }
  advance (ttFlush s)

/-! ## Flits received (R364 to R374) -/

/-- Buffered flits up to an acknowledged sequence number leave (R368). -/
def flitAck (s : State) (ack : Nat) : State :=
  { s with tt := { s.tt with replay := s.tt.replay.filter fun r => !decide ((ack + 256 - r.seq) % 256 < 128) } }

/-- Every buffered flit sent again, in order (R369, R371). -/
def flitResend (s : State) : State :=
  s.tt.replay.foldl dataSend s

/-- A nak (R223, R369, R370). -/
def flitNak (s : State) : State :=
  let s := ev s Ev.tthRetry
  let naks := (s.tt.naks.filter fun t => decide (s.now < t + 2000000)) ++ [s.now]
  let more : List Replay := s.tt.replay.map fun r => { r with sends := r.sends + 1 }
  let s : State := { s with tt := { s.tt with naks := naks, retry := satInc 32 s.tt.retry, replay := more } }
  let s := (s.tt.replay.filter fun r => r.pass == some s.pl.pass).foldl (fun s _ => chargeHold s) s
  let s := flitResend s
  if naks.length > max 1 (csrFld s 0xA00 15 8) ∨ s.tt.replay.any fun r => decide (4 ≤ r.sends) then retrainStart s else s

/-- A message's fields from its bytes (R372). -/
def ttDecode (b : Bytes) : TMsg :=
  let w0 := leAt b 0 8
  { kind := fld w0 63 56, mask := fld w0 47 40, ctx := fld w0 39 28, tag := fld w0 27 16, set := fld w0 12 0,
    addr := leAt b 8 8 % 2 ^ 52, vc := fld w0 49 48, data := b.drop 16 }

/-- One chunk of a DATA flit: it begins a message or continues one, and a message complete is handled (R366, R372, R373); one of a bad length
is discarded, its credit returned (R374). -/
def rxChunk (s : State) (start : Bool) (chunk : Bytes) : State :=
  let part := if start then chunk else if s.tt.rxPart = [] then [] else s.tt.rxPart ++ chunk
  if part = [] then s
  else
    let len := fld (leAt part 0 8) 55 50
    if len = 0 ∨ 36 < len then
      advance (ttFlush (creditOwe (ev { s with tt := { s.tt with rxPart := [] } } Ev.msgBad) (ttChannel (ttDecode part))))
    else if part.length < 16 * len then { s with tt := { s.tt with rxPart := part } }
    else ttHandle { s with tt := { s.tt with rxPart := [] } } (ttDecode part)

/-- A nak sent: the last good flit is named by ack_seq (R369). DEDUCED, notes/assumptions 19. -/
def nakSend (s : State) : State := nullFlit { s with tt := { s.tt with nakked := true } } true

/-- A DATA flit that passed its CRC (R369). DEDUCED, notes/assumptions 19. -/
def dataFlit (s : State) (b : Bytes) : State :=
  let h := leAt b 0 8
  if fld h 63 56 = s.tt.rxSeq then
    let s := { s with tt := { s.tt with rxSeq := (s.tt.rxSeq + 1) % 256, nakked := false } }
    let s := (List.range 15).foldl (fun s k => rxChunk s (h.testBit k) (slice b (8 + 16 * k) 16)) s
    nullFlit s false
  else if s.tt.nakked then s
  else nakSend s

/-- A DATA flit received is charged to the class and context of the first message whose chunks it carries (R516, R536; DEDUCED,
notes/assumptions 16). -/
def flitUse (s : State) (b : Bytes) : State :=
  let h := leAt b 0 8
  let first := if s.tt.rxPart ≠ [] ∧ !h.testBit 0 then some s.tt.rxPart
    else ((List.range 15).find? h.testBit).map fun k => slice b (8 + 16 * k) 16
  match first with
  | some p => let t := ttDecode p; activity s (ttClass s t) (coverCtx s t.addr) 6 1
  | none => activity s 16 4096 6 1

/-- A flit received while the link is UP (R367 to R370, R374). -/
def flitReceived (s : State) (b : Bytes) : State :=
  let h := leAt b 0 8
  let kind := fld h 46 44
  let s := if kind = 0 then flitUse s b else s
  if b.length ≠ 256 ∨ (crc32 (b.take 252)).toNat ≠ leAt b 252 4 then (if kind = 0 then nakSend s else s)
  else if 2 ≤ kind then s
  else
    let vc : SMap Nat := (List.range 4).foldl (fun m c => SMap.put 0 m c (SMap.get 0 m c + fld h (37 + 2 * c) (36 + 2 * c))) s.tt.vc
    let s := flitAck { s with tt := { s.tt with vc := vc } } (fld h 55 48)
    let s := if h.testBit 47 then flitNak s else s
    let s := if kind = 0 ∧ s.tt.link = 2 then dataFlit s b else s
    advance (ttFlush s)

/-- A receive lane that carries the link (R379). -/
def laneActive (s : State) (lane : Nat) : Bool :=
  s.tt.rxWidth == 3 || (s.tt.rxWidth == 1 && decide (lane < 4)) || (s.tt.rxWidth == 2 && decide (4 ≤ lane))

/-- LANE_LOCK_LOSS (R370). -/
def execLaneLockLoss (lane : Nat) (s : State) : Host.Outcome State Fault Refusal :=
  .next (if s.tt.link = 2 ∧ laneActive s lane then retrainStart s else s)

/-! ## Training (R377 to R380) -/

/-- The lane_result of a lane at a phase from its word as measured (R378, R380). -/
def laneResult (phase w : Nat) : Nat :=
  if w % 8 = 5 then 5
  else if phase ≥ 3 ∧ w % 8 = 6 then 6
  else if phase ≥ 2 ∧ fld w 23 16 > 0x78 then 2
  else if phase ≥ 2 ∧ fld w 15 8 < 12 then 3
  else if phase ≥ 3 ∧ fld w 7 4 ≠ 0 then 4
  else 1

/-- eq_length from loss_db: 0.24 dB/mm, in 0.5 mm steps (R378). DEDUCED, notes/assumptions 29. -/
def eqLength (loss : Nat) : Nat := if loss = 0xFF then 0xFF else min 0xFF ((5 * loss + 3) / 6)

/-- DRF_TTH_LANEn of a measured word (R388). -/
def laneWord (phase w : Nat) : Nat :=
  let loss := if phase ≥ 2 then fld w 23 16 else 0
  at_ (if phase ≥ 2 then eqLength loss else 0) 24 + at_ loss 16 + at_ (if phase ≥ 2 then fld w 15 8 else 0) 8 +
    at_ (if phase ≥ 3 then fld w 7 4 else 0) 4 + laneResult phase w

/-- The half a direction runs on from its passing lanes, coded as width: 3 all, 1 lanes 0 to 3, 2 lanes 4 to 7, 0 none (R379). -/
def halfOf (ok : Nat) : Nat :=
  if ok = 0xFF then 3 else if ok % 16 = 15 then 1 else if ok / 16 = 15 then 2 else 0

/-- Lanes of a half. -/
def halfLanes (h : Nat) : Nat := if h = 3 then 0xFF else if h = 1 then 0x0F else if h = 2 then 0xF0 else 0

/-- Both directions at the narrower width, each on its own passing half (R379): receive, transmit. A RETRAIN never widens, and a direction
all of whose lanes pass keeps the half it has (DESIGN CHOICE, notes/assumptions 29). -/
def widthRule (wasRx wasTx rx tx : Nat) : Nat × Nat :=
  let half := fun (was h : Nat) => if h = 3 then (if was = 2 then 2 else 1) else h
  if rx = 3 ∧ tx = 3 ∧ (wasRx = 3 ∨ wasRx = 0) then (3, 3) else (half wasRx rx, half wasTx tx)

/-- A width below 8: the lanes dropped are counted, kept in lane_dropped and entered in the ledger, and an event is posted (R379). -/
def laneDrop (s : State) (dropRx dropTx : Nat) : State :=
  if s.tt.width = 3 then s
  else
    let s := evN s Ev.tthLaneDrop (popcount 8 dropRx + popcount 8 dropTx)
    let s := csrSet s 0xA08 (at_ (dropRx ||| dropTx) 32)
    let s := (List.range 8).foldl (fun s k => if dropRx.testBit k then ledAdd s 9 k 0 else s) s
    let s := (List.range 8).foldl (fun s k => if dropTx.testBit k then ledAdd s 9 (8 + k) 0 else s) s
    postEvent s 4 St.tthNarrow 0 s.tt.width (csrFld s 0xA08 39 32)

/-- The pairing token over the first 16 bytes of a frame (R579). -/
def pairToken (s : State) (b : Bytes) : Bytes :=
  if s.sec.keyValid then (hmacSha256 (leBytes 32 s.sec.key) (b.take 16)).take 8 else leBytes 8 0

/-- DRF_VERSION and DRF_CAPS (R4, R5). -/
def versionReg (s : State) : Nat := 0x11000000 + s.pw.romBuild % 65536
def capsReg (s : State) : Nat := at_ (fuseWays s) 32 + 0x7F1FF0 + (if s.pw.tetherOff then 0 else 0xE000)

/-- A negotiation frame (R381). -/
def negFrame (s : State) (round verdict : Nat) : Bytes :=
  let v := csrGet s 0xA00
  let half := if s.tt.rxWidth = 2 then 1 else 0
  let b := leBytes 4 (versionReg s) ++ leBytes 4 (capsReg s) ++ leBytes 4 (at_ (mirrorWays s) 18 + ownId s) ++
    leBytes 4 (at_ half 2 + at_ (b2n (v.testBit 29)) 1 + b2n (v.testBit 30))
  b ++ pairToken s b ++ leBytes 1 round ++ leBytes 1 verdict ++ leBytes 6 0

/-- TEST has passed: the width is set, and NEGOTIATE begins or a RETRAIN ends (R371, R377, R379). -/
def testPassed (s : State) (rx tx : Nat) (rev : Bool) : State :=
  let full := s.tt.link = 1
  let wasRx := if full then 0xFF else halfLanes s.tt.rxWidth
  let wasTx := if full then 0xFF else halfLanes s.tt.width
  let (r, t) := if full then widthRule 3 3 rx tx else widthRule s.tt.rxWidth s.tt.width rx tx
  let s := { s with tt := { s.tt with width := t, rxWidth := r, reversed := rev } }
  let s := laneDrop s (wasRx &&& (0xFF ^^^ halfLanes r)) (wasTx &&& (0xFF ^^^ halfLanes t))
  if full then
    let s := { s with tt := { s.tt with phase := 4 } }
    drive s (.train (ctrlFlit (negFrame s 0 0)))
  else
    let again : List Replay := s.tt.replay.map fun x => { x with sends := 1 }
    let s : State := { s with tt := { s.tt with link := 2, replay := again } }
    advance (ttFlush (flitResend s))

/-- Bits of each PRBS31 pattern of TEST (R380): 2^36 with long_test at a full training, else 2^24. -/
def testLength (s : State) : Nat := if csrBit s 0xA00 29 ∧ s.tt.link = 1 then 2 ^ 36 else 2 ^ 24

/-- TEST begins: its three patterns are sent on every lane (R380). -/
def testStart (s : State) : State :=
  let n := testLength s
  drive (drive (drive { s with tt := { s.tt with phase := 3 } } (.pattern .laneId 0)) (.pattern .prbs n)) (.pattern .prbsOdd n)

/-- The end of a phase before NEGOTIATE (R377): `lanes` holds the eight words as measured, then the half of the fellow's receive
direction, then 1 where the receive lanes are wired in reverse. -/
def phaseDone (s : State) (ok : Bool) (lanes : List Nat) : State :=
  let p := s.tt.phase
  if p = 0 then (if ok then { s with tt := { s.tt with phase := 1 } } else linkDown s 4 2)
  else
    let ws := (List.range 8).map fun i => laneWord p (lanes.getD i 5)
    let good := ws.zipIdx.foldl (fun a w => a + (if w.1 % 8 = 1 then 2 ^ w.2 else 0)) 0
    let m : SMap Nat := ws.zipIdx.foldl (fun m w => SMap.put 0 m w.2 w.1) []
    let s := { s with tt := { s.tt with lanes := m, laneOk := good } }
    let rx := halfOf good
    let tx := lanes.getD 8 3 % 4
    if p = 3 ∧ ws.any (fun w => w % 8 == 6) then linkDown s 4 8
    else if !ok ∨ rx = 0 ∨ tx = 0 then linkDown s 4 3
    else if p = 2 then testStart s
    else if p < 3 then { s with tt := { s.tt with phase := p + 1 } }
    else testPassed s rx tx (lanes.getD 9 0 == 1)

/-- TRAINING_PHASE_DONE. -/
def execTrainingPhaseDone (ok : Bool) (lanes : List Nat) (s : State) : Host.Outcome State Fault Refusal :=
  .next (if (s.tt.link = 1 ∨ s.tt.link = 3) ∧ s.tt.phase < 4 then phaseDone s ok lanes else s)

/-! ## Negotiation (R381, R382, R579) -/

/-- The verdict on a proposal. DEDUCED, notes/assumptions 29. -/
def verdictOf (s : State) (b : Bytes) : Nat :=
  let fellow := csrGet s 0xA10
  if fld (leAt b 0 4) 27 24 ≠ 1 then 1
  else if fellow.testBit 31 && fld (leAt b 8 4) 17 0 != fld fellow 17 0 then 2
  else if slice b 16 8 ≠ pairToken s b then 3
  else 0

/-- A refusal (R382): the link DOWN, the pair REFUSED, both versions named. -/
def pairRefuse (s : State) (verdict : Nat) (b : Bytes) : State :=
  let reason := if verdict = 2 then 6 else if verdict = 3 then 7 else 5
  let s := linkDown s 4 reason
  postEvent { s with pr := { s.pr with st := 4 } } 4 St.pairRefused 0 (at_ (versionReg s) 32 + leAt b 0 4) reason

/-- Both verdicts accept: what is learnt of the fellow, and the link UP (R382). -/
def agree (s : State) (b : Bytes) : State :=
  let ident := leAt b 8 4
  linkUp { s with
    tt := { s.tt with level := min 1 (fld (leAt b 0 4) 31 28) }
    pr := { s.pr with fellowId := fld ident 17 0, fellowVer := leAt b 0 4, fellowMw := fld ident 21 18,
                      autoResync := csrBit s 0xA00 30 && (leAt b 12 4).testBit 0 } }

/-- NEGOTIATION_FRAME. -/
def negotiation (s : State) (b : Bytes) : State :=
  if !(leAt b 24 1).testBit 0 then
    let v := verdictOf s b
    drive { s with tt := { s.tt with proposal := some b, verdict := v } } (.train (ctrlFlit (negFrame s 1 v)))
  else match s.tt.proposal with
  | none => s
  | some p =>
    let v := if s.tt.verdict ≠ 0 then s.tt.verdict else leAt b 25 1
    if v = 0 then agree s p else pairRefuse s v p

/-- A negotiation frame arrives; it waits in BACKUP_HOLD, since a link that comes UP may resynchronise lines (R560). -/
def negotiationIn (bytes : Bytes) (s : State) : State :=
  if s.tt.link = 1 ∧ s.tt.phase = 4 then
    (if s.pw.pstate = Ps.backupHold then { s with held := s.held ++ [.negotiationFrame bytes] } else negotiation s bytes) else s

/-- NEGOTIATION_FRAME. -/
def execNegotiationFrame (bytes : Bytes) (s : State) : Host.Outcome State Fault Refusal := .next (negotiationIn bytes s)

/-- The negotiation frame of a CTRL flit that passes its CRC (R365, R367, R381). -/
def ctrlFrame (b : Bytes) : Option Bytes :=
  if b.length = 256 ∧ (crc32 (b.take 252)).toNat = leAt b 252 4 ∧ fld (leAt b 0 8) 46 44 = 2 then some (slice b 8 32) else none

/-- FLIT_RECEIVED: while the link trains, a CTRL flit of NEGOTIATE (R381). -/
def execFlitReceived (bytes : Bytes) (s : State) : Host.Outcome State Fault Refusal :=
  .next (if s.tt.link = 1 then (match ctrlFrame bytes with
      | some f => negotiationIn f s
      | none => s)
    else if s.tt.link = 2 ∧ !s.hd.fenced then
      (if s.pw.pstate = Ps.backupHold then { s with held := s.held ++ [.flitReceived bytes] } else flitReceived s bytes) else s)

/-- RETRAIN_TIMEOUT (R376). -/
def execRetrainTimeout (s : State) : Host.Outcome State Fault Refusal := .next (if s.tt.link = 3 then linkDown s 4 4 else s)

/-- LINK_DOWN_RETRY (R376). -/
def execLinkDownRetry (s : State) : Host.Outcome State Fault Refusal :=
  .next (if s.tt.link = 4 ∧ csrBit s 0xA00 31 ∧ !refused s.tt.downReason ∧ tetherRuns s then
    trainStart s else s)

/-- link_en as written (R376). -/
def linkEnable (s : State) (on : Bool) : State :=
  if on then (if s.tt.link = 0 then trainStart s else s)
  else if s.tt.link = 0 then s else linkDown s 0 1

/-- retrain written (R376, R385). -/
def retrainWrite (s : State) : State :=
  if s.tt.link = 2 then retrainStart s else if s.tt.link = 4 ∧ csrBit s 0xA00 31 then trainStart s else s

end Sys2Proof.Machine
end

