-- ==== Sys2Proof/Machine/Regs.lean ====
section
/-! DEFINITION. What each setup register reads (spec/17 R581 to R597 and the register tables that R594 names): the bits software wrote,
and the read-only fields formed from the state. -/

namespace Sys2Proof.Machine

open Sys2Proof

/-- Index of an offset in a row of registers, where it lies there. -/
def regIndex (off base stride count : Nat) : Option Nat :=
  if base ≤ off ∧ (off - base) % stride = 0 ∧ (off - base) / stride < count then some ((off - base) / stride) else none

/-- Low bits that read as zero and are not stored, where another field decides how many (R586): R256, R328, R342, R412, R413, R535. -/
def lowZero (s : State) (off : Nat) : Nat :=
  if off = 0x610 ∨ off = 0x618 then pageShift s
  else if off = 0x608 then 7
  else if off = 0xD48 then 2
  else if off = 0x908 then clampLog 0x10 0x1E (csrFld s 0x908 57 53)
  else if off = 0x3408 then clampLog 6 0x14 (csrFld s 0x3408 60 56) + 6
  else match regIndex off 0x800 16 16 with
  | some n => clampLog 0x0C 0x1E (csrFld s (0x808 + 16 * n) 36 32)
  | none =>
    match regIndex off 0x1000 64 64 with
    | some n => max 10 (descLog s n + 6)
    | none =>
      match regIndex off 0x1008 64 64 with
      | some n => max 9 (cplLog s n + 5)
      | none =>
        match regIndex off 0x2000 32 4 with
        | some n => max 9 (clampLog 4 16 (csrFld s (0x2008 + 32 * n) 12 8) + 5)
        | none => 0

/-- A value with its low `z` bits zero. -/
def clearLow (v z : Nat) : Nat := v / 2 ^ z * 2 ^ z

/-- A bias table initialisation or flip is in progress (R255). -/
def biasBusyNow (s : State) : Bool := s.coh.biasBusy || !s.coh.flips.isEmpty || s.rg.cmds.any flipRuns

/-- Entries of the snoop filter in state S or E (R251). -/
def sfCount (s : State) : Nat := (s.coh.sf.filter fun e => e.2.st != 0).length

/-! ## The ledger (R480, R481, R510) -/

/-- The 16 bytes of a ledger entry. -/
def ledBytes (e : LedEnt) : Bytes :=
  let b := leBytes 8 e.ts ++ leBytes 4 e.subject ++ leBytes 1 e.kind ++ leBytes 1 (at_ (e.count % 64) 2 + e.history % 4)
  b ++ leBytes 2 (crc32c b).toNat

/-- Word `w` of an entry of a ledger ring that `n` entries were written to. -/
def ledRingWord (ring : SMap LedEnt) (n i w : Nat) : Nat :=
  if i < n then leAt (ledBytes (SMap.get {} ring i)) (4 * w) 4 else Config.ledgerBlank i % 2 ^ 32

/-- The contents of the identity region, in the order of R480; the version and grade are those at manufacture. -/
def identityList (s : State) : List Nat :=
  let h := s.hl
  [versionReg s, s.pw.grade, h.canary0, h.powerOns, h.poweredSc / 1800000000000, h.unavail, h.retires]

/-- The contents of a copy of the repair map beside its generation count (R480): of each bank its disabled ways and its spares. -/
def repairList (m : RepairMap) : List (List Nat) :=
  (List.range 16).map fun b =>
    SMap.get 0 m.ways b :: ((m.spares.filter fun x => x.1 == b).map fun x => [x.2.1, x.2.2.1, x.2.2.2]).flatten

/-- Word `i` of the 512 bytes of a copy of the repair map (R480): its generation count first, the CRC-32C of the bytes before it last (DESIGN
CHOICE, notes/assumptions 21). -/
def mapWord (m : RepairMap) (i : Nat) : Nat :=
  let word := fun (i : Nat) => if i = 0 then m.gen % 2 ^ 32 else Config.repairMapWord (repairList m) i % 2 ^ 32
  if i = 127 then (crc32c ((List.range 127).map fun j => leBytes 4 (word j)).flatten).toNat else word i

/-- The ledger word at a byte offset. -/
def ledgerWord (s : State) (off : Nat) : Nat :=
  let h := s.hl
  if off < 0x1000 then Config.identityWord (identityList s) (off / 4) % 2 ^ 32
  else if off < 0x1200 then mapWord h.maps.1 ((off - 0x1000) / 4)
  else if off < 0x1400 then mapWord h.maps.2 ((off - 0x1200) / 4)
  else if off < 0x3400 then ledRingWord h.ageRing h.ageN ((off - 0x1400) / 16) (off / 4 % 4)
  else ledRingWord h.histRing h.histN ((off - 0x3400) / 16) (off / 4 % 4)

/-! ## Read-only fields -/

/-- rate_ppb (R546): rounded towards minus infinity, in two's complement (DEDUCED, notes/assumptions 16). -/
def ratePpb (t : Time) : Nat :=
  (((t.inc : Int) * 1000000000 - 1000000000 * 2 ^ 33) / 2 ^ 33).emod (2 ^ 32) |>.toNat

/-- The read-only fields of the registers that stand alone, as one number. -/
def roFixed (s : State) (off : Nat) : Nat :=
  let p := s.pw
  let h := s.hl
  match off with
  | 0x000 => versionReg s
  | 0x008 => capsReg s
  | 0x010 => at_ (stopAddr s) 48 + ownId s
  | 0x028 =>
    let x := s.sec
    at_ (b2n x.logValid) 63 + at_ (b2n x.logOver) 62 + at_ x.logCause 58 + at_ x.logPath 56 + at_ x.logOff 40 + at_ (b2n x.logWrite) 39 +
      x.logSrc
  | 0x040 => at_ (b2n p.planLock) 15 + at_ (b2n p.lockLost) 14 + p.clocks.toNat
  | 0x048 => at_ (b2n p.onBak) 31 + at_ (b2n p.bakPresent) 30 + at_ (b2n p.switched) 29
  | 0x050 =>
    at_ p.pstate 60 + at_ p.startKind 58 + at_ (b2n p.arrLost) 57 + at_ (b2n p.coreLost) 56 + at_ (b2n p.flowStop) 55 +
      at_ (b2n p.wrstHeld) 54 + p.startNs
  | 0x100 => at_ (b2n p.locked) 31
  | 0x108 => at_ (b2n s.arr.pinBusy) 31 + at_ (freeSlots s) 4
  | 0x400 =>
    let q := s.pl
    at_ q.pass 16 + at_ q.stopReason 12 + at_ (b2n q.shadowValid) 9 + at_ q.active 8 + q.st
  | 0x600 => at_ (b2n (biasBusyNow s)) 31
  | 0x628 => at_ (min (sfCount s) (2 ^ 20 - 1)) 32 + s.coh.snoops.length
  | 0x900 => at_ s.pr.st 28 + at_ s.pr.fellowMw 8
  | 0xA08 =>
    let t := s.tt
    at_ t.link 60 + at_ t.width 58 + at_ (b2n t.reversed) 57 + at_ t.downReason 52 + at_ t.level 48 + at_ t.laneOk 40 + t.retry
  | 0xC08 => at_ h.passes 32 + at_ h.failures 17 + h.pos
  | 0xC20 => at_ (b2n s.hd.fenced) 31 + at_ (b2n s.hd.noticeAcked) 30 + at_ (b2n s.hd.walkDone) 29 + at_ s.hd.reason 16
  | 0xD08 =>
    at_ h.rState 60 + at_ h.rReason 56 + at_ (b2n h.suspect) 55 +
      at_ ((h.wayDis.map fun e => popcount 16 e.2).foldl (· + ·) 0) 44 + at_ h.spares.length 36 + at_ h.rounds 16 + h.fails
  | 0xD10 => ((List.range 16).map fun b => at_ (h.spares.filter fun x => x.1 == b).length (4 * b)).foldl (· + ·) 0
  | 0xD40 =>
    at_ (h.propCore % 2 ^ 16) 48 + at_ (h.propArr % 2 ^ 16) 32 + at_ (h.margin % 2 ^ 8) 24 + at_ (h.dArr % 2 ^ 8) 16 + at_ (h.dCore % 2 ^ 8) 8
  | 0xD4C => ledgerWord s (csrGet s 0xD48)
  | 0xE00 => tsNs s
  | 0xE08 => at_ (b2n s.tm.armed) 29
  | 0xE18 => at_ (b2n s.tm.lost) 63 + at_ (b2n s.tm.valid) 62 + at_ s.tm.glitches 32 + ratePpb s.tm
  | 0xF08 =>
    let x := s.sec
    at_ (b2n x.denied) 63 + at_ x.dClass 60 + at_ x.dPort 58 + at_ x.dSrc 40 + at_ x.dCount 8
  | 0xF10 => at_ (b2n s.sec.keyValid) 26 + at_ (s.pw.minSvn % 2 ^ 8) 16 + at_ s.sec.debugDenied 8
  | 0x3080 => at_ (b2n s.qs.pressure) 31
  | 0x3410 => at_ s.qs.written 32 + s.qs.traceDrop
  | 0x3680 => s.qs.eStat / 2 ^ 16 % 2 ^ 64
  | 0x3690 => SMap.get 0 s.qs.eCtx (csrFld s 0x3688 11 0) / 2 ^ 16 % 2 ^ 64
  | _ => 0

/-- The read-only fields of the registers that stand in rows: number `n` of the row at `base`. -/
def roRow (s : State) (base n : Nat) : Nat :=
  match base with
  | 0x0440 => (SMap.get 0 s.pl.digOut n).toNat
  | 0x0808 => at_ (b2n (logGet s n).full) 62 + (logGet s n).head
  | 0x0A40 => SMap.get 0 s.tt.lanes n
  | 0x0D20 => ((List.range 4).map fun j => at_ (SMap.get 0 s.hl.wayDis (4 * n + j)) (16 * j)).foldl (· + ·) 0
  | 0x1018 => at_ (b2n (ringGet s n).busy) 30 + at_ (b2n (decide (n ≤ 3))) 29
  | 0x1020 =>
    let r := ringGet s n
    at_ r.cons 32 + at_ (b2n (r.parked != 0)) 31 + at_ r.parked 28 + at_ r.inflight 22
  | 0x1028 => (ringGet s n).posted
  | 0x2010 =>
    let e := SMap.get {} s.rg.evs n
    at_ e.posted 32 + e.dropped
  | 0x240C => at_ (b2n (SMap.get {} s.rg.irqs n).pending) 30
  | 0x3100 => (SMap.get 0 s.qs.bw n).toNat
  | 0x3180 => at_ ((s.arr.mhes.filter fun m => m.qos == n).length % 2 ^ 8) 40 + occupancy s n
  | 0x3200 => (SMap.get 0 s.qs.memTot n).toNat
  | 0x3208 => (SMap.get 0 s.qs.portTot n).toNat
  | 0x3600 => SMap.get 0 s.qs.eCls n / 2 ^ 16 % 2 ^ 64
  | 0x4000 => if n < 0x90 then (SMap.get {} s.qs.evs n).val.toNat else 0
  | _ => 0

/-- What a register of a row of the map reads (R583, R594); the four pairing keys read as zero (R580), and bits a Meaning says read as
zero do (R586). -/
def readRow (s : State) (r : RegRow) (off : Nat) : Nat :=
  let held := csrGet s off &&& (r.rw ||| r.w1c)
  let n := if r.count ≤ 1 then 0 else (off - r.off) / r.stride
  clearLow (if r.count ≤ 1 then held ||| roFixed s off
    else if r.off = 0x4000 then roRow s r.off n
    else held ||| roRow s r.off n) (lowZero s off)

/-- What the register at an offset reads; an offset the map does not assign reads zero (R587). -/
def readReg (s : State) (off : Nat) : Nat :=
  match regAt off with
  | some r => readRow s r off
  | none => 0

end Sys2Proof.Machine
end

