-- ==== Sys2Proof/Machine/Csr.lean ====
section
/-! DEFINITION. Accesses to setup registers: the checks of R589, what a write does, and the rows that write or read a register
(spec/17; spec/15 R612; spec/16 R572, R573, R580). -/

namespace Sys2Proof.Machine

open Sys2Proof

/-! ## Where an access lies (R582, R587, R592) -/

/-- The register an access of `n` bytes at `off` overlaps, with its offset. DEDUCED, notes/assumptions 22. -/
def regFind (off n : Nat) : Option (RegRow × Nat) :=
  let lo := off / 4 * 4
  [lo - 4, lo, lo + 4, lo + 8].findSome? fun c =>
    match regAt c with
    | some r => if c < off + n ∧ off < c + r.bytes then some (r, c) else none
    | none => none

/-- Whether the size and offset serve (R582). DEDUCED, notes/assumptions 22. -/
def sizeOk (r : RegRow) (c off n : Nat) (write : Bool) : Bool :=
  (off == c && n == r.bytes) || (!write && r.bytes == 8 && n == 4 && (off == c || off == c + 4))

/-- Whether a register of a home answers in the power state (R592). DEDUCED, notes/assumptions 23. -/
def homeServed (s : State) (homeC : Bool) : Bool :=
  !homeC ||
    (if s.hd.fenced then s.pw.clocks.getLsbD 4 && !s.pw.coreDown
     else if s.pw.pstate = Ps.starting then decide (6 ≤ s.pw.startStep)
     else if s.pw.pstate = Ps.backupHold then !s.pw.coreDown
     else s.pw.pstate == Ps.serving || s.pw.pstate == Ps.quiesce)

/-- An access with a cause latched in DRF_CSR_LOG (R593). -/
def csrLatch (s : State) (cause : Nat) (hdr : Bool) (off : Nat) (write : Bool) (src : Nat) : State :=
  let x := s.sec
  if x.logValid then { s with sec := { x with logOver := true } }
  else { s with sec := { x with
    logValid := true, logCause := cause, logPath := b2n hdr, logOff := off % 2 ^ 16, logWrite := write,
    logSrc := if hdr then src % 2 ^ 16 else src % 2 ^ 18 } }

/-- A privileged register (R572). -/
def privReg (r : RegRow) (c : Nat) : Bool := r.priv == 2 || (r.priv == 1 && decide ((c - r.off) / 64 ≤ 3))

/-! ## What a write does -/

/-- What became of a write: the state, whether a rule has the slice ignore it or a field of it (R586), and the status of a refusal. -/
structure WrRes where
  s : State
  ignored : Bool := false
  status : Nat := St.ok

/-- The bits a register holds after a write of `v` (R7, R8). -/
def newBits (s : State) (r : RegRow) (off v : Nat) : Nat :=
  let old := csrGet s off
  (v &&& r.rw) ||| (old &&& r.w1c &&& (v ^^^ (2 ^ 64 - 1))) ||| (old &&& ((r.rw ||| r.w1c) ^^^ (2 ^ 64 - 1)))

/-- The bits stored, those that read as zero left out (R586). -/
def storeBits (s : State) (off v : Nat) : State :=
  let s := csrPut s off v
  csrPut s off (clearLow v (lowZero s off))

/-- The slice is in safe retention, where some writes are refused (R612). -/
def retaining (s : State) : Bool := s.pw.pstate == Ps.retention

/-- A write ignored as a whole. -/
def ignoreWrite (s : State) : WrRes := { s := s, ignored := true }

/-- A write refused in safe retention. -/
def retentionWrite (s : State) : WrRes := { s := s, status := St.retention }

/-- A plain write. DEDUCED, notes/assumptions 22. -/
def plainWrite (s : State) (r : RegRow) (off v : Nat) : WrRes := { s := storeBits s off (newBits s r off v) }

/-- A write whose field [hi:lo] is kept while `frozen`. -/
def keepField (s : State) (off : Nat) (frozen : Bool) (hi lo v : Nat) : Nat × Bool :=
  let old := fld (csrGet s off) hi lo
  if frozen && fld v hi lo != old then (setFld v hi lo old, true) else (v, false)

/-! ### Placement (R74, R85, R91, R92, R341) -/

/-- A PINNED last is defined. -/
def anyPinned (s : State) : Bool := s.arr.lasts.any fun e => e.2.cond != 0 && aKind e.2.attr == 2

/-- A paired last is defined. -/
def anyPaired (s : State) : Bool := s.arr.lasts.any fun e => e.2.cond != 0 && aPaired e.2.attr

/-- stripe_shift (R74). -/
def writeStripe (s : State) (r : RegRow) (v : Nat) : WrRes :=
  if s.pw.locked && fld v 2 0 != csrFld s 0x100 2 0 then ignoreWrite s else plainWrite s r 0x100 v

/-- pin_ways (R91, R92, R93): the highest ways enabled in each bank are the pinned ones, and the bank with the fewest sets the limit; raising it
starts the emptying of the ways reserved. -/
def writePin (s : State) (r : RegRow) (v : Nat) : WrRes :=
  let n := fld v 3 0
  if anyPinned s || s.arr.pinBusy || !s.pr.mirrors.isEmpty || decide (fewestWays s < n + 4) || decide (n < mirrorWays s) then ignoreWrite s
  else if retaining s && n != pinWays s then retentionWrite s
  else
    let up := decide (pinWays s < n)
    let s := (plainWrite s r 0x108 v).s
    { s := { s with arr := { s.arr with pinBusy := up, roles := pinRoles s n } } }

/-- mirror_ways (R341). -/
def writeMirror (s : State) (r : RegRow) (v : Nat) : WrRes :=
  let n := fld v 7 4
  if anyPinned s || anyPaired s || !s.pr.mirrors.isEmpty || decide (pinWays s < n) then ignoreWrite s
  else if retaining s && n != mirrorWays s then retentionWrite s
  else plainWrite s r 0x900 v

/-- DRF_LAST_DEFAULT (R85): a THROUGH default last that is redefined or disabled has its merging-buffer entries drained (R90). The reserved kind
0b11, and a bale_ctl beside baled 0, are stored as written (DESIGN CHOICE, notes/assumptions 35). -/
def writeDefault (s : State) (r : RegRow) (v : Nat) : WrRes :=
  if aKind v == 2 || aBaled v || aDur v != 0 || aTrack v then ignoreWrite s
  else
    let old := csrGet s 0x118
    let w := plainWrite s r 0x118 v
    if aKind old = 1 ∧ csrGet w.s 0x118 ≠ old then { w with s := mergeDrainWhere w.s fun m => m.last == 1023 } else w

/-! ### Bias (R255, R256) -/

/-- Bytes of the bias table (R256). -/
def biasTableBytes (s : State) : Nat :=
  let k := pageShift s
  let n := (csrFld s 0x618 51 0 >>> k) - (csrFld s 0x610 51 0 >>> k)
  ceilDiv n 64 * 8

/-- Every word of the table written as zero, the bias cache cleared (R255). -/
def biasInitStart (s : State) : State :=
  let n := biasTableBytes s
  let base := csrFld s 0x608 51 0
  let s := { s with coh := { s.coh with biasBusy := true, biasCache := [], biasUpset := [] } }
  (List.range (ceilDiv n 128)).foldl (fun s i =>
    memWrite s { for_ := .bias, addr := base + 128 * i } (List.replicate (min 128 (n - 128 * i)) 0) (csrFld s 0x3080 27 24)) s

/-- DRF_BIAS_CTL (R255). -/
def writeBias (s : State) (r : RegRow) (v : Nat) : WrRes :=
  let on := csrBit s 0x600 0
  if !on && v.testBit 0 && sfCount s != 0 then ignoreWrite s
  else if retaining s && (v.testBit 1 || v.testBit 0 != on) then retentionWrite s
  else
    let (v', kept) := keepField s 0x600 on 3 2 v
    let s := (plainWrite s r 0x600 v').s
    { s := if v.testBit 1 then biasInitStart s else s, ignored := kept }

/-! ### Rings (R328, R394, R401, R412, R413) -/

/-- Whether another ring that is enabled names the doorbell line of ring `n` (R393). -/
def sharesDoorbell (s : State) (n : Nat) : Bool :=
  (List.range 64).any fun k => k != n && ringEnabled s k &&
    csrGet s (0x1010 + 64 * k) == csrGet s (0x1010 + 64 * n)

/-- A ring enabled: its indices and doorbell values restart, the doorbell line is read (R394, R401); commands it still has in flight stay
so, and a reading that is on its way is its first. -/
def ringStart (s : State) (n : Nat) : State :=
  let x := ringGet s n
  let y : Ring := { reads := x.reads, inflight := x.inflight, busy := x.busy }
  if x.watch = 1 then ringPut s n { y with watch := 1 } else watchIssue (ringPut s n y) n

/-- A ring disabled: fetching stops; the doorbell line is watched until its commands have posted (R401). -/
def ringStop (s : State) (n : Nat) : State :=
  let x := ringGet s n
  let idle := x.inflight == 0
  ringPut s n { x with offer := none, fetched := [], early := [], behind := false, rereads := 0, rereadOut := 0, busy := !idle,
                       watch := if idle then 0 else x.watch, again := x.again && !idle }

/-- DRF_RINGn_CTL. -/
def writeRingCtl (s : State) (r : RegRow) (n v : Nat) : WrRes :=
  let off := 0x1018 + 64 * n
  let on := ringEnabled s n
  let busy := (ringGet s n).busy
  let (v1, k1) := keepField s off (on || busy) 28 19 v
  if !on && v.testBit 31 && sharesDoorbell s n then ignoreWrite (ev s Ev.ringCfgBad)
  else if retaining s && v.testBit 31 != on then retentionWrite s
  else
    let s := (plainWrite s r off v1).s
    let s := if v.testBit 31 && !on then ringStart s n else if on && !v.testBit 31 then ringStop s n else s
    { s := s, ignored := k1 }

/-- DRF_EVRINGn_CTL. -/
def writeEvCtl (s : State) (r : RegRow) (n v : Nat) : WrRes :=
  let off := 0x2008 + 32 * n
  let on := csrBit s off 31
  let (v1, k1) := keepField s off on 12 8 v
  if retaining s && v.testBit 31 != on then retentionWrite s
  else
    let s := (plainWrite s r off v1).s
    let e : EvRing := { SMap.get {} s.rg.evs n with posted := 0 }
    { s := if v.testBit 31 && !on then { s with rg := { s.rg with evs := SMap.put {} s.rg.evs n e } } else s, ignored := k1 }

/-- DRF_LOGn_CTL. -/
def writeLogCtl (s : State) (r : RegRow) (n v : Nat) : WrRes :=
  let off := 0x808 + 16 * n
  let on := csrBit s off 63
  let (v1, k1) := keepField s off on 36 32 v
  if retaining s && v.testBit 63 != on then retentionWrite s
  else
    let s := (plainWrite s r off v1).s
    { s := if v.testBit 63 && !on then logPut s n {} else s, ignored := k1 }

/-- DRF_IRQ_CTLv: a pending vector fires as its mask is cleared (R410), in safe retention at its exit (R612). -/
def writeIrqCtl (s : State) (r : RegRow) (n v : Nat) : WrRes :=
  let was := csrBit s (0x240C + 16 * n) 31
  let s := (plainWrite s r (0x240C + 16 * n) v).s
  { s := if was && !v.testBit 31 && (SMap.get {} s.rg.irqs n).pending then irqRaise s n else s }

/-! ### Tether, time, security, tracing, counters -/

/-- DRF_TTH_CTL (R6, R376, R385); in safe retention link_en is stored and acts at the exit (R612). -/
def writeTth (s : State) (r : RegRow) (v : Nat) : WrRes :=
  let on := csrBit s 0xA00 31
  if s.pw.tetherOff && v.testBit 31 then { s := s, status := St.unsupported }
  else if retaining s && v.testBit 28 then retentionWrite s
  else
    let s := (plainWrite s r 0xA00 v).s
    let s := if retaining s then s else if on && !v.testBit 31 then linkEnable s false
      else if !on && v.testBit 31 && tetherRuns s then linkEnable s true else s
    { s := if v.testBit 28 && tetherRuns s then retrainWrite s else s }

/-- DRF_PPS_CTL (R546). -/
def writePps (s : State) (r : RegRow) (v : Nat) : WrRes :=
  let s := (plainWrite s r 0xE08 v).s
  { s := { s with tm := { s.tm with armed := s.tm.armed || v.testBit 30, lost := s.tm.lost && v.testBit 31 } } }

/-- DRF_SEC_CTL (R573, R578): lock and debug_lock stay set; a lock clears host_priv; a debug lock disconnects an instrument. -/
def writeSec (s : State) (r : RegRow) (v : Nat) : WrRes :=
  let v := v ||| (csrGet s 0xF10 &&& 0xC0000000)
  let v := if v.testBit 31 then setFld v 29 29 0 else v
  let s := (plainWrite s r 0xF10 v).s
  { s := if v.testBit 30 then { s with sec := { s.sec with tapIr := 0, wrapIr := 0 } } else s }

/-- DRF_PAIR_KEYk (R580). DEDUCED, notes/assumptions 22. -/
def writeKey (s : State) (k v : Nat) : WrRes :=
  let x := s.sec
  let key := setFld x.key (64 * k + 63) (64 * k) v
  if k = 0 then { s := { s with sec := { x with key := key, keyValid := false, keyNext := 1 } } }
  else if x.keyNext = k then
    { s := { s with sec := { x with key := key, keyValid := x.keyValid || k == 3, keyNext := k + 1 } } }
  else { s := { s with sec := { x with key := key } } }

/-- DRF_TRACE_CTL (R533). -/
def writeTrace (s : State) (r : RegRow) (v : Nat) : WrRes :=
  let on := csrBit s 0x3400 63
  let s := (plainWrite s r 0x3400 v).s
  let seed := if v % 2 ^ 32 = 0 then 1 else v % 2 ^ 32
  { s := if v.testBit 63 && !on then { s with qs := { s.qs with lfsr := BitVec.ofNat 32 seed, written := 0 } } else s }

/-- DRF_EVTn (R531): the value written plus the occurrences of the sc. -/
def writeEvt (s : State) (n v : Nat) : WrRes :=
  let c := SMap.get {} s.qs.evs n
  let c : EvCtr := { c with val := BitVec.ofNat 48 (v % 2 ^ 48 + (if c.sc = s.now / 4 then c.inSc else 0)) }
  { s := { s with qs := { s.qs with evs := SMap.put {} s.qs.evs n c } } }

/-! ### Write-one-to-clear bits that the state holds -/

def clearClk (s : State) (v : Nat) : State := { s with pw := { s.pw with lockLost := s.pw.lockLost && !v.testBit 14 } }

def clearPower (s : State) (v : Nat) : State :=
  { s with pw := { s.pw with arrLost := s.pw.arrLost && !v.testBit 57, coreLost := s.pw.coreLost && !v.testBit 56 } }

def clearLog (s : State) (v : Nat) : State :=
  { s with sec := { s.sec with logValid := s.sec.logValid && !v.testBit 63, logOver := s.sec.logOver && !v.testBit 62 } }

def clearDenied (s : State) (v : Nat) : State := { s with sec := { s.sec with denied := s.sec.denied && !v.testBit 63 } }

/-- DRF_SUPPLY_CTL (R49). -/
def writeSupply (s : State) (r : RegRow) (v : Nat) : WrRes :=
  plainWrite { s with pw := { s.pw with switched := s.pw.switched && !v.testBit 29 } } r 0x48 (v &&& 0xFFFF)

/-! ### One write -/

/-- What a write of `v` to the register of a row does. -/
def regWrite (s : State) (r : RegRow) (off v : Nat) : WrRes :=
  let n := if r.count ≤ 1 then 0 else (off - r.off) / r.stride
  match r.off with
  | 0x028 => { s := clearLog s v }
  | 0x040 => { s := clearClk s v }
  | 0x048 => writeSupply s r v
  | 0x050 => { s := clearPower s v }
  | 0x100 => writeStripe s r v
  | 0x108 => writePin s r v
  | 0x118 => writeDefault s r v
  | 0x600 => writeBias s r v
  | 0x608 | 0x610 | 0x618 => if csrBit s 0x600 0 then ignoreWrite s else plainWrite s r off v
  | 0x800 => if csrBit s (0x808 + 16 * n) 63 then ignoreWrite s else plainWrite s r off v
  | 0x808 => writeLogCtl s r n v
  | 0x900 => writeMirror s r v
  | 0xA00 => writeTth s r v
  | 0xE08 => writePps s r v
  | 0xF08 => { s := clearDenied s v }
  | 0xF10 => writeSec s r v
  | 0xF20 => writeKey s n v
  | 0x1000 | 0x1004 | 0x1008 | 0x1010 =>
    if ringEnabled s n || (ringGet s n).busy then ignoreWrite s else plainWrite s r off v
  | 0x1018 => writeRingCtl s r n v
  | 0x2000 => if csrBit s (0x2008 + 32 * n) 31 then ignoreWrite s else plainWrite s r off v
  | 0x2008 => writeEvCtl s r n v
  | 0x240C => writeIrqCtl s r n v
  | 0x3400 => writeTrace s r v
  | 0x3408 => if csrBit s 0x3400 63 then ignoreWrite s else plainWrite s r off v
  | 0x3690 => ignoreWrite s
  | 0x4000 => writeEvt s n v
  | _ => plainWrite s r off v

/-! ## An access (R588, R589, R592) -/

/-- The answer of an access: the state, its status, and what was read. -/
structure AccRes where
  s : State
  status : Nat := St.ok
  value : Nat := 0

/-- Checks 1 to 4 of R589 for an access, as the status and the cause latched; 0 where every check passes. DEDUCED, notes/assumptions 22. -/
def accCheck (s : State) (a : Csr) (write : Bool) : Nat × Nat :=
  let off := a.m.addr % 2 ^ 16
  let n := a.m.size + 1
  let at' := regFind off n
  if !homeServed s (match at' with
      | some (r, _) => r.homeC
      | none => false) then (St.badState, 5)
  else if !a.hdr && !csrBit s 0xF00 (16 + hedgeClass s a.m.src) then (St.hedgeDenied, 3)
  else if a.hdr && a.m.rsvd then (St.badSize, 2)
  else match at' with
  | some (r, c) =>
    if !sizeOk r c off n write then (St.badSize, 2)
    else if write && !a.hdr && privReg r c && !csrBit s 0xF10 29 then (St.hedgeDenied, 3)
    else (0, 0)
  | none => (0, 0)

/-- A read performed: DRF_LEDGER_DATA advances the offset (R510, R583). -/
def csrRead (s : State) (off n : Nat) : AccRes :=
  match regFind off n with
  | none => { s := s }
  | some (_, c) =>
    let v := readReg s c
    let v := if n = 8 then v else if off = c then v % 2 ^ 32 else v / 2 ^ 32
    { s := if c = 0xD4C then csrPut s 0xD48 ((csrGet s 0xD48 + 4) % 2 ^ 16) else s, value := v }

/-- A write performed, and its causes latched (R586, R587). -/
def csrWrite (s : State) (a : Csr) (off n v : Nat) : AccRes :=
  match regFind off n with
  | none => { s := csrLatch s 4 a.hdr off true a.m.src }
  | some (r, c) =>
    let w := regWrite s r c v
    { s := if w.ignored then csrLatch w.s 1 a.hdr off true a.m.src else w.s, status := w.status }

/-- An access that reached the control island (R589). -/
def csrAccess (s : State) (a : Csr) (write : Bool) : AccRes :=
  let off := a.m.addr % 2 ^ 16
  let n := a.m.size + 1
  match accCheck s a write with
  | (0, _) => if write then csrWrite s a off n (leNat (a.m.data.take n)) else csrRead s off n
  | (st, cause) => { s := csrLatch s cause a.hdr off write a.m.src, status := st }

/-! ## The two paths (R581, R590, R591) -/

/-- A register frame as it travels (R590). -/
def csrFrame (a : Csr) (write : Bool) : Frame :=
  let wide := a.m.size == 7
  { type := if write then 0x11 else 0x10, seq := a.m.tag, dst := a.m.dst, src := a.m.src, bad := a.m.parity != .ok,
    payload := (at_ (b2n wide) 16 + a.m.addr % 2 ^ 16) :: (if write then words32 a.m.data (if wide then 2 else 1) else []) }

/-- The answer frame, kept for its src (R590, R591). -/
def csrFrameAnswer (s : State) (a : Csr) (write : Bool) (status v : Nat) : State :=
  let w0 := at_ (a.m.tag % 2 ^ 16) 16 + status
  let f : Frame :=
    { type := if write then 0x13 else 0x12, seq := s.hd.seq, dst := a.m.src, src := stopAddr s,
      payload := if write then [w0] else w0 :: words32 (leBytes 8 v) (if a.m.size = 7 then 2 else 1) }
  let kept := ((a.m.src, a.m.tag, f) :: s.hd.kept.filter fun e => e.1 != a.m.src).take 8
  drive { s with hd := { s.hd with seq := (s.hd.seq + 1) % 65536, kept := kept } } (.hdr f)

/-- A register frame taken by the stop: performed once, its kept answer sent again where it is a repeat (R591). -/
def csrByFrame (s : State) (a : Csr) (write : Bool) : State :=
  match s.hd.kept.find? fun e => e.1 == a.m.src && e.2.1 == a.m.tag with
  | some (src, seq, f) =>
    drive { s with hd := { s.hd with kept := (src, seq, f) :: s.hd.kept.filter fun e => e.1 != src } } (.hdr f)
  | none =>
    let x := csrAccess s a write
    csrFrameAnswer x.s a write x.status x.value

/-- The answer of an access over HST: CMP of a write, CSR_DATA of a read (R270). -/
def csrAnswer (s : State) (m : Msg) (write : Bool) (status v : Nat) : State :=
  if write then answer s m 1 0 status 0 [] else answer s m 0 2 status 0 (leBytes (m.size + 1) v)

/-- A CSR message on HST (R272, R279, R450, R568, R588, R589): none reaches the slice while SLICE_READY is low and it is not fenced. -/
def csrByHst (s : State) (a : Csr) (write : Bool) : State :=
  let m := { a.m with port := .hst }
  if !s.hd.fenced && !(s.pw.ready && (s.pw.pstate == Ps.serving || s.pw.pstate == Ps.backupHold)) then s
  else
    let s := arrives s m 4 (if write then m.data.length else 0)
    let say := fun (s : State) (st : Nat) => csrAnswer s m write st 0
    if m.parity = .header then parityRecord s m
    else if s.hd.fenced then (if m.unlisted = 2 then s else say s St.fenced)
    else if m.parity = .payload then parityRecord (say s St.dataError) m
    else if m.unlisted = 2 then ev s Ev.msgBad
    else if hedgeFenced s (hedgeClass s m.src) then say (hedgeDeny s m (hedgeClass s m.src)) St.hedgeDenied
    else if m.rsvd || m.mod != 0 || decide (m.addr ≥ 2 ^ 16) || m.unlisted == 1 || fromPeer s m then say s St.badOp
    else if m.size ≠ 3 ∧ m.size ≠ 7 then say s St.badSize
    else
      let x := csrAccess s { a with m := m } write
      csrAnswer x.s m write x.status x.value

/-- An access by its path; what it lets go on goes on. -/
def csrDo (s : State) (a : Csr) (write : Bool) : State :=
  advance (if a.hdr then hdrGate s (csrFrame a write) fun s => csrByFrame s a write else csrByHst s a write)

/-- An access at a register's own offset. -/
def csrAt (a : Csr) (off : Nat) : Csr := { a with m := { a.m with addr := off } }

/-! ## The rows -/

/-- CSR_WR (R581 to R594). -/
def execCsrWr (a : Csr) (s : State) : Host.Outcome State Fault Refusal := .next (csrDo s a true)

/-- BIAS_INIT (R255). -/
def execBiasInit (a : Csr) (s : State) : Host.Outcome State Fault Refusal := .next (csrDo s (csrAt a 0x600) true)

/-- BIAS_INIT_DONE (R255): busy clears once every write of the table has completed. -/
def biasInitDone (s : State) : State :=
  let mine := fun (w : MemWr) => w.for_ == .bias
  if s.arr.memWrs.any mine || (s.arr.memq.any fun q => match q with
      | .wr w _ _ => mine w
      | .rd _ => false) then s
  else { s with coh := { s.coh with biasBusy := false } }

/-- BIAS_INIT_DONE. -/
def execBiasInitDone (s : State) : Host.Outcome State Fault Refusal := .next (biasInitDone s)

/-- BIAS_ENABLE (R255). -/
def execBiasEnable (a : Csr) (s : State) : Host.Outcome State Fault Refusal := .next (csrDo s (csrAt a 0x600) true)

/-- PIN_WAYS_WRITE (R91, R92). -/
def execPinWaysWrite (a : Csr) (s : State) : Host.Outcome State Fault Refusal := .next (csrDo s (csrAt a 0x108) true)

/-- Way slots of the pinned ways that hold a line. -/
def pinSlotsHeld (s : State) : List Nat :=
  (s.arr.lines.filter fun e =>
    (e.2.st != .invalid || e.2.filling) && (pinnedWays s (slotBank e.1)).contains (slotWay e.1)).map (·.1)

/-- The ways being reserved emptied line by line (R92, R488); busy clears once they are empty. -/
def pinReserve (s : State) : State :=
  if !s.arr.pinBusy then s
  else
    let s := (pinSlotsHeld s).foldl (fun s k => emptySlot (closeLine s (lineAt s k).addr) k) s
    advance (if (pinSlotsHeld s).isEmpty then { s with arr := { s.arr with pinBusy := false } } else s)

/-- PIN_WAYS_RESERVED. -/
def execPinWaysReserved (s : State) : Host.Outcome State Fault Refusal := .next (if serving s then pinReserve s else s)

/-- MIRROR_WAYS_WRITE (R341). -/
def execMirrorWaysWrite (a : Csr) (s : State) : Host.Outcome State Fault Refusal := .next (csrDo s (csrAt a 0x900) true)

/-- STRIPE_SHIFT_WRITE (R74). -/
def execStripeShiftWrite (a : Csr) (s : State) : Host.Outcome State Fault Refusal := .next (csrDo s (csrAt a 0x100) true)

/-- RING_ENABLE (R394, R401). -/
def execRingEnable (ring : Nat) (a : Csr) (s : State) : Host.Outcome State Fault Refusal :=
  .next (csrDo s (csrAt a (0x1018 + 64 * ring)) true)

/-- RING_DISABLE (R401). -/
def execRingDisable (ring : Nat) (a : Csr) (s : State) : Host.Outcome State Fault Refusal :=
  .next (csrDo s (csrAt a (0x1018 + 64 * ring)) true)

/-- EVRING_ENABLE (R413). -/
def execEvringEnable (ring : Nat) (a : Csr) (s : State) : Host.Outcome State Fault Refusal :=
  .next (csrDo s (csrAt a (0x2008 + 32 * ring)) true)

/-- LOG_RING_ENABLE (R328). -/
def execLogRingEnable (ring : Nat) (a : Csr) (s : State) : Host.Outcome State Fault Refusal :=
  .next (csrDo s (csrAt a (0x808 + 16 * ring)) true)

/-- LINK_EN (R376). -/
def execLinkEn (a : Csr) (s : State) : Host.Outcome State Fault Refusal := .next (csrDo s (csrAt a 0xA00) true)

/-- RETRAIN (R376, R385). -/
def execRetrain (a : Csr) (s : State) : Host.Outcome State Fault Refusal := .next (csrDo s (csrAt a 0xA00) true)

/-- PPS_LOAD (R546). -/
def execPpsLoad (a : Csr) (s : State) : Host.Outcome State Fault Refusal := .next (csrDo s (csrAt a 0xE08) true)

/-- PAIR_KEY_WRITE (R580). -/
def execPairKeyWrite (k : Nat) (a : Csr) (s : State) : Host.Outcome State Fault Refusal :=
  .next (csrDo s (csrAt a (0xF20 + 8 * k)) true)

/-- LEDGER_DATA_READ, the read of a setup register (R270, R581, R582, R590); the one read with an effect is that of DRF_LEDGER_DATA, at
0x0D4C (R510, R583). -/
def execLedgerDataRead (a : Csr) (s : State) : Host.Outcome State Fault Refusal := .next (csrDo s a false)

/-- EVT_COUNTER_WRITE (R531). -/
def execEvtCounterWrite (k : Nat) (a : Csr) (s : State) : Host.Outcome State Fault Refusal :=
  .next (csrDo s (csrAt a (0x4000 + 8 * k)) true)

/-- SEC_CTL_WRITE (R573). -/
def execSecCtlWrite (a : Csr) (s : State) : Host.Outcome State Fault Refusal := .next (csrDo s (csrAt a 0xF10) true)

/-- HEDGE_WRITE (R569, R570): the register its offset names. -/
def execHedgeWrite (a : Csr) (s : State) : Host.Outcome State Fault Refusal := .next (csrDo s a true)

/-- QOS_CLASS_WRITE (R518): in force from the next window (Machine/Meter.lean). -/
def execQosClassWrite (cls : Nat) (a : Csr) (s : State) : Host.Outcome State Fault Refusal :=
  .next (csrDo s (csrAt a (0x3000 + 8 * cls)) true)

/-- FLIPMASK_ARM (R461). -/
def execFlipmaskArm (a : Csr) (s : State) : Host.Outcome State Fault Refusal := .next (csrDo s (csrAt a 0xC10) true)

/-- ENERGY_GAIN_WRITE (R540). -/
def execEnergyGainWrite (a : Csr) (s : State) : Host.Outcome State Fault Refusal := .next (csrDo s (csrAt a 0x3518) true)

/-- TRACE_ENABLE (R533). -/
def execTraceEnable (a : Csr) (s : State) : Host.Outcome State Fault Refusal := .next (csrDo s (csrAt a 0x3400) true)

end Sys2Proof.Machine
end

