-- ==== Sys2Proof/Machine/Mem.lean ====
section
/-! DEFINITION. What memory sends back: read-return beats, replays, completions and acceptances of writes; and what a completed fill
does (spec/01 R21 to R24; spec/02 R90, R111, R112; spec/04 R163, R166; spec/06 R254, R268; spec/12 R449). -/

namespace Sys2Proof.Machine

open Sys2Proof

/-- A MEM event as it arrives: in a fence only the end of a write is acted on (R473); held in safe retention (R558), else acted on. -/
def memGate (s : State) (c : Instr) (write : Bool) (f : State → State) : State :=
  if s.hd.fenced then (if write && !s.pw.coreDown then f s else s)
  else if s.pw.pstate = Ps.retention ∨ (s.pw.pstate = Ps.backupHold ∧ !s.pw.coreDown) then { s with held := s.held ++ [c] }
  else if s.pw.pstate ≠ Ps.serving ∧ s.pw.pstate ≠ Ps.quiesce then s
  else f s

/-! ## Ends of fills -/

/-- The slot a fill was given, while it still waits for it. -/
def fillSlot (s : State) (m : Mhe) : Option Nat :=
  match m.slot with
  | none => none
  | some k => if (lineAt s k).filling && (lineAt s k).addr == m.line then some k else none

/-- The RANGE.PREFETCH lines merged into a fill end with a status. -/
def fillOps (s : State) (m : Mhe) (status : Nat) : State :=
  (m.reads.filter fun r => r.op.kind == .prefetch).foldl (fun s r => cmdLine s r.op status) s

/-- A fill whose last FAILED meanwhile (R447). -/
def fillFailed (s : State) (m : Mhe) : State :=
  let s := match fillSlot s m with
    | some k => lineDrop s k
    | none => s
  fillOps (mheDel s m.line) m St.dataLost

/-- An operation that waits for the fill it started, when that fill failed (R449): an atomic ends with ST_DATA_ERROR, a write goes to
memory without allocation. -/
def fillOrphan (s : State) (o : Op) : State :=
  let attr := (lastAt s (lastOfLine s (opLine o))).attr
  if o.kind = .atomic then finish s o St.dataError
  else
    let b := writeBytes s attr o
    baleCount (writeMemory s o b) attr o b

/-- A fill with an uncorrectable beat (R449): nothing is installed. -/
def fillBad (s : State) (m : Mhe) : State :=
  let s := match fillSlot s m with
    | some k => lineDrop s k
    | none => s
  let attr := (lastAt s m.last).attr
  let s := fillOps (mheDel s m.line) m St.dataError
  let s := if m.wmask ≠ 0 ∧ aKind attr ≠ 1 then
      memWriteMasked s { for_ := .none, srcs := m.srcs, last := m.last } m.line m.wdata m.wmask (aQos attr) else s
  let mine := fun (o : Op) => opLine o == m.line && o.noted.testBit 5
  let os := s.arr.waiting.filter mine
  os.foldl fillOrphan { s with arr := { s.arr with waiting := s.arr.waiting.filter fun o => !mine o } }

/-- A line installed with the bytes its merged writes hold (R76, R111, R285). -/
def fillInstall (s : State) (m : Mhe) (k : Nat) : State :=
  let l := lineAt s k
  let dirty := m.wmask != 0 && aKind (lastAt s l.last).attr != 1
  let d := mergeBytes m.data m.wdata m.wmask
  let l := writeData (crcLine s l) { l with filling := false, st := if dirty then .dirty else .clean } d (BitVec.allOnes 512)
  let l := if m.kind = .replay then
      (if m.marks = 0 then { l with st := .dirty } else markWrite s { l with st := .dirty } (sectorsOf m.marks))
    else if dirty then markWrite s l (sectorsOf m.wmask) else l
  let s := storeLine (arrayUse s m.qos l.addr 4) k l (BitVec.allOnes 512) false
  let s := (m.reads.filter fun r => r.op.kind == .prefetch).foldl (fun s r =>
    let (s, st) := lockSlot s k (r.op.m.op % 4) (lastAt s l.last).attr
    cmdLine s r.op st) s
  mheDel s m.line

/-- The last beat of a fill is in (R111, R166, R219, R447, R449); a stage-in tracking entry that fails its parity drops its fill, and written
bytes that do put their last in FAILED (R452). -/
def fillEnd (s : State) (line : Nat) : State :=
  let s := match mheOf s line with
    | some m => if m.upset && m.kind != .stage then mergedLost s line m.last (sectorsOf m.wmask).toNat else s
    | none => s
  match mheOf s line with
  | none => s
  | some m =>
    -- the fills of a LAST.RESTORE belong to a last that is restoring (R340)
    let cond := (lastAt s m.last).cond
    let failed := cond ≠ 1 ∧ ¬(m.kind = .replay ∧ cond = 3)
    match m.kind with
    | .bypass => mheDel s line
    | .memSide => memSideEnd s m
    | .stage =>
      if failed then fillFailed s m
      else match fillSlot s m with
      | some k =>
        if m.upset then stageDrop (fillBad (postError s St.lineRepaired { unit := 14, action := 12, detector := 5 }) m)
        else if m.bad ≠ 0 then stageDrop (fillBad s m) else fillInstall s m k
      | none => mheDel s line
    | _ =>
      if failed then fillFailed s m
      else if m.bad ≠ 0 then fillBad s m
      else match fillSlot s m with
      | some k => fillInstall s m k
      | none => mheDel s line

/-! ## Beats -/

/-- The record of an uncorrectable beat (R449, R465). -/
def beatRecord (s : State) (r : MemRd) (beat : Nat) (parity : Bool) : State :=
  let line := match r.for_ with
    | .bias .. => false
    | _ => true
  let li := lastOf s r.addr
  postError s St.dataError
    { unit := 12, sectors := if line then 3 <<< (2 * beat) else 0, addr := if line then r.addr / 512 * 512 else 0,
      last := if line then li else 1023, ctx := if line then aCtx (lastAt s li).attr else 0, action := 12, detector := 5,
      detail := at_ (b2n parity) 11 + at_ beat 9 + r.tag }

/-- The word of a bias read (R254, R257, R449). -/
def biasReturn (s : State) (w : Nat) (r : MemRd) : State :=
  if r.bad ≠ 0 then
    let s := s.rg.cmds.foldl (fun s c =>
      if c.code = 0x70 ∧ c.phase = 4 ∧ !c.done ∧ c.lines.contains w then cmdEnd s c.n St.dataError 0 0 else s) s
    let s := advance { s with coh := { s.coh with biasBad := w :: s.coh.biasBad } }
    { s with coh := { s.coh with biasBad := s.coh.biasBad.filter (· != w) } }
  else
    let v : BitVec 64 := BitVec.ofNat 64 (lineNat r.data (biasAddr s w % 128) 8)
    let give := fun (c : Cmd) =>
      if c.code = 0x70 ∧ c.phase = 4 ∧ c.lines.contains w then
        { c with lines := c.lines.filter (· != w), parts := c.parts ++ [(w, v.setWidth 4096)] } else c
    { s with coh := { s.coh with biasCache := biasPut s.coh.biasCache w v, biasUpset := s.coh.biasUpset.filter (· != w) }, rg := { s.rg with cmds := s.rg.cmds.map give } }

/-- Every beat of a read is in. -/
def readEnd (s : State) (r : MemRd) : State :=
  let s := { s with arr := { s.arr with memRds := s.arr.memRds.filter fun x => x.tag != r.tag } }
  match r.for_ with
  | .fill line => fillEnd s line
  | .bias w _ => biasReturn s w r
  | .digest o =>
    if r.bad ≠ 0 ∨ s.hl.suspect then cmdLine s o St.dataError
    else if (lastAt s (lastOfLine s (opLine o))).cond ≠ 1 then cmdLine s o St.dataLost
    else cmdLine (cmdUpd (ev (arithUse s o 512) Ev.digestLine) o.cmd fun c => { c with
      acc := c.acc + 1
      parts := c.parts ++ [(o.idx, mergeOverlay s (opLine o) r.data)] }) o St.ok
  | .image n line =>
    if r.bad ≠ 0 then cmdEnd s n St.dataError 0 0
    else cmdUpd s n fun c => { c with todo := 0, parts := [(line, r.data)] }

/-- A beat of a read taken in (R111). -/
def readBeat (s : State) (r : MemRd) (beat : Nat) (bad : Bool) (bytes : Bytes) : State :=
  let k := if r.beats = 1 then 0 else beat
  let bit : BitVec 4 := BitVec.ofNat 4 (2 ^ k)
  let d := mergeBytes r.data (BitVec.ofNat 4096 (leNat (slice bytes 0 128) <<< (1024 * k))) (spanMask (128 * k) 128)
  let r := { r with got := r.got ||| bit, bad := if bad then r.bad ||| bit else r.bad, data := d }
  let s := { s with arr := { s.arr with memRds := s.arr.memRds.map fun x => if x.tag = r.tag then r else x } }
  let s := match r.for_ with
    | .fill line => match mheOf s line with
      | some m =>
        let s := if k = m.crit then fillReach s line 4 else s
        let s := if r.got = 15 then fillReach s line 5 else s
        mheServe (mheSet s { m with got := r.got, bad := r.bad, data := d }) line
      | none => s
    | _ => s
  let all : Nat := if r.beats = 1 then 1 else 15
  if r.got.toNat = all then readEnd s r else s

/-- MEM_READ_RETURN (R22, R23, R111, R449): the status of a beat is 0b00 good, 0b01 corrected, 0b10 uncorrectable; the reserved 0b11 is
taken as uncorrectable (DESIGN CHOICE, notes/assumptions 35). A quiesce discards the data (R555). -/
def memReturn (s : State) (tag beat status : Nat) (parityBad : Bool) (bytes : Bytes) : State :=
  match s.arr.memRds.find? fun r => r.tag == tag with
  | none => s
  | some r =>
    let s := activity (meter s r.qos 0 128) r.qos (coverCtx s r.addr) 2 1
    let bad := parityBad || decide (status ≥ 2)
    let s := if bad then beatRecord s r beat parityBad else s
    if s.pw.pstate = Ps.quiesce then s
    else advance (readBeat (if status = 1 ∧ !bad then ev s Ev.memCorrected else s) r beat bad bytes)

/-- MEM_READ_RETURN. -/
def execMemReadReturn (tag beat status : Nat) (parityBad : Bool) (bytes : Bytes) (s : State) : Host.Outcome State Fault Refusal :=
  .next (memGate s (.memReadReturn tag beat status parityBad bytes) false fun s => memReturn s tag beat status parityBad bytes)

/-- A beat that the link of the memory controller sends again (R24): it is awaited once more, and a hold is charged where the fill is a
stage-in of the running pass (R223). -/
def memReplay (s : State) (tag beat : Nat) : State :=
  match s.arr.memRds.find? fun r => r.tag == tag with
  | none => s
  | some r =>
    let k := if r.beats = 1 then 0 else beat
    let off : BitVec 4 := ~~~ BitVec.ofNat 4 (2 ^ k)
    let r := { r with got := r.got &&& off, bad := r.bad &&& off }
    let s := { s with arr := { s.arr with memRds := s.arr.memRds.map fun x => if x.tag = tag then r else x } }
    match r.for_ with
    | .fill line => match mheOf s line with
      | some m =>
        let s := mheSet s { m with got := m.got &&& off, bad := m.bad &&& off }
        if m.kind = .stage ∧ m.pass = s.pl.pass then chargeHold s else s
      | none => s
    | _ => s

/-- MEM_REPLAY. -/
def execMemReplay (tag beat : Nat) (s : State) : Host.Outcome State Fault Refusal :=
  .next (memGate s (.memReplay tag beat) false fun s => memReplay s tag beat)

/-! ## Writes -/

/-- Whether a drain of a merging-buffer entry still has a MEM write. -/
def mergeWriting (s : State) (n : Nat) : Bool :=
  let mine := fun (w : MemWr) => match w.for_ with
    | .merge k => k == n
    | _ => false
  s.arr.memWrs.any mine || s.arr.memq.any fun q => match q with
    | .wr w _ _ => mine w
    | _ => false

/-- What waited for MEM to accept a write (R112, R166, R258). -/
def writeAccepted (s : State) (w : MemWr) : State :=
  match w.for_ with
  | .evict line => { s with arr := { s.arr with evicts := s.arr.evicts.filter fun e => !(e.line == line && e.tag.isSome) } }
  | .memSide line => mheDel s line
  | .cmd n => match cmdGet s n with
    | some c => if c.code = 0x70 ∧ !w.accepted then cmdUpd s n fun c => { c with writes := c.writes - 1 } else s
    | none => s
  | _ => s

/-- A line has been written since its write-back was issued, or the fellow has been sent bytes for it (R345). -/
def dirtyAgain (s : State) (line : Nat) : Bool :=
  (match findLine s line with
    | some k => (lineAt s k).st == .dirty
    | none => false) || lineSyncing s line || (s.arr.mhes.any fun m => m.line == line && m.wmask != 0)

/-- What waited for the completion of a write (R90, R285, R308, R345). -/
def writeCompleted (s : State) (w : MemWr) : State :=
  let s := match w.for_ with
    | .req o => finish s o St.ok
    | .merge n => if mergeWriting s n then s else { s with arr := { s.arr with merges := s.arr.merges.filter fun m => m.n != n } }
    | .cmd n => match cmdGet s n with
      | some c => if c.code = 0x70 then s else cmdUpd s n fun c => { c with writes := c.writes - 1 }
      | none => s
    | _ => s
  if w.drop ∧ paired s ∧ !dirtyAgain s (w.addr / 512) then
    ttSend s { kind := 0x07, set := homeSet s (w.addr / 512), addr := w.addr / 512 * 512 } else s

/-- MEM_WRITE_COMPLETION. -/
def memWriteDone (s : State) (tag : Nat) : State :=
  match s.arr.memWrs.find? fun w => w.tag == tag with
  | none => s
  | some w =>
    let s := if w.accepted then s else writeAccepted s w
    let s := { s with arr := { s.arr with memWrs := s.arr.memWrs.filter fun x => x.tag != tag } }
    let s := writeCompleted s w
    advance (memPump s.arr.memq.length s)

/-- MEM_WRITE_COMPLETION (R285, R290, R325). -/
def execMemWriteCompletion (tag : Nat) (s : State) : Host.Outcome State Fault Refusal :=
  .next (memGate s (.memWriteCompletion tag) true fun s => memWriteDone s tag)

/-- MEM accepts the last beat of a write (R112, R166). -/
def memWriteAccept (s : State) (tag : Nat) : State :=
  match s.arr.memWrs.find? fun w => w.tag == tag && !w.accepted with
  | none => s
  | some w =>
    let s := writeAccepted s w
    advance { s with arr := { s.arr with memWrs := s.arr.memWrs.map fun x => if x.tag = tag then { x with accepted := true } else x } }

/-- EVICTION_WRITEBACK_ACCEPTED. -/
def execEvictionWritebackAccepted (tag : Nat) (s : State) : Host.Outcome State Fault Refusal :=
  .next (memGate s (.evictionWritebackAccepted tag) true fun s => memWriteAccept s tag)

/-! ## Timers of the buffers, credits -/

/-- MERGE_ENTRY_DRAIN: the oldest entry not draining starts to drain (R90). -/
def mergeEntryDrain (s : State) : State :=
  match mergeOpen s with
  | m :: _ => advance (mergeDrain s m.n)
  | [] => s

/-- MERGE_ENTRY_DRAIN. -/
def execMergeEntryDrain (s : State) : Host.Outcome State Fault Refusal :=
  .next (if serving s then mergeEntryDrain s else s)

/-- ATOMIC_LINE_CLOSE (R163). -/
def execAtomicLineClose (line : Nat) (s : State) : Host.Outcome State Fault Refusal :=
  .next (if serving s then advance (closeLine s line) else s)

/-- A credit returned to the slice (R14, R19, R21, R268). SYN, the tether and the headland ring have no credits of this kind. DESIGN CHOICE, notes/assumptions 5. -/
def creditReturn (s : State) (port : Port) (cls : Nat) : State :=
  match port with
  | .mem =>
    let s := giveCredit s (channel .mem cls)
    advance (memPump s.arr.memq.length s)
  | .blk => giveCredit s 16
  | .ctl => giveCredit s (channel .ctl cls)
  | .hst => advance (giveCredit s (channel .hst cls))
  | _ => s

/-- CREDIT_RETURN. -/
def execCreditReturn (port : Port) (cls : Nat) (s : State) : Host.Outcome State Fault Refusal :=
  .next (if s.pw.pstate = Ps.reset then s else creditReturn s port cls)

end Sys2Proof.Machine
end

