-- ==== Sys2Proof/Machine/Plan.lean ====
section
/-! DEFINITION. The scheduled plane: plan images, the sequencer, instances, SYN words, scheduled write beats and the plan commands
(spec/05; spec/11 R436). -/

namespace Sys2Proof.Machine

open Sys2Proof

/-! ## Plan images (R204 to R211, R241) -/

/-- What the check of an image gives: good, or the number of the failing check and the slot. -/
inductive ImageCheck where
  | good
  | bad (check slot : Nat)
  deriving DecidableEq, Repr

/-- The xforms an operation allows (R208). -/
def xformsOf (op : Nat) : List Nat :=
  if op = 2 then [0, 2, 3] else if op = 3 then [0, 1, 3] else if op = 7 ∨ op = 8 ∨ op = 9 then [0, 3] else [0]

/-- Whether an operation uses a generator (R208). -/
def usesGen (op : Nat) : Bool := decide (2 ≤ op ∧ op ≤ 9)

/-- The bits of a slot entry its operation uses (R206, R207). -/
def usedBits (w : Nat) : Nat :=
  let op := slotOp w
  let every := onesAt 122 6 + onesAt 102 14
  let gen := if usesGen op then onesAt 116 6 else 0
  let dsel := if slotXform w = 3 ∧ op ≠ 0xA ∧ op ≠ 0xB then onesAt 31 3 else 0
  let own :=
    if op = 2 then onesAt 24 1 + (if w.testBit 24 then onesAt 18 6 else onesAt 0 18)
    else if op = 3 then onesAt 27 1 + onesAt 0 18
    else if op = 4 then onesAt 28 3 + onesAt 0 18
    else if op = 5 then onesAt 25 2
    else if op = 7 then onesAt 27 1
    else if op = 0xA then onesAt 0 32
    else if op = 0xB then onesAt 0 6
    else 0
  every + gen + dsel + own

/-- A slot entry with a field its operation does not use that is not zero. -/
def slotReserved (w : Nat) : Bool := w &&& usedBits w != w

/-- The alignment of the addresses an entry's generators yield (R211). -/
def slotAlign (w : Nat) : Nat :=
  let op := slotOp w
  if op = 5 ∨ op = 6 then 512 else if (op = 2 ∧ slotXform w = 2) ∨ (op = 3 ∧ slotXform w = 1) then 16 else 256

/-- The generators an entry uses (R210). -/
def slotGens (w : Nat) : List Nat :=
  if !usesGen (slotOp w) then [] else if slotOp w = 7 then [slotGen w, (slotGen w + 1) % 64] else [slotGen w]

/-- A stride as a signed number. -/
def strideInt (v : Nat) : Int := if v < 2 ^ 63 then v else (v : Int) - 2 ^ 64

/-- Whether a generator record serves an alignment, with its strides in range. -/
def genGood (gens : Bytes) (al g : Nat) : Bool :=
  decide (leAt gens (64 * g) 8 % al = 0) && (List.range 4).all fun d =>
    let v := leAt gens (64 * g + 8 + 8 * d) 8
    decide (v % al = 0 ∧ -(2 ^ 52 : Int) ≤ strideInt v ∧ strideInt v < 2 ^ 52)

/-- The first entry, counted from 0, at which a run of 256 instances holds no OPEN instance; `run` instances have passed since the
last OPEN. -/
def closedRun : List Nat → Nat → Nat → Option Nat
  | [], _, _ => none
  | w :: r, i, run =>
    if slotOp w = 0 then closedRun r (i + 1) 0
    else if run + slotRepeat w + 1 ≥ 256 then some i
    else closedRun r (i + 1) (run + slotRepeat w + 1)

/-- Instances since the last OPEN at the end of a pass. -/
def closedTail (ws : List Nat) : Nat := ws.foldl (fun n w => if slotOp w = 0 then 0 else n + slotRepeat w + 1) 0

/-- Check 7 of R241: passes that abut are taken as a cycle. -/
def openCheck (ws : List Nat) (gap : Nat) : Option Nat :=
  match closedRun ws 0 0 with
  | some i => some i
  | none =>
    if gap ≠ 0 then none
    else if ws.any fun w => slotOp w == 0 then closedRun ws 0 (closedTail ws)
    else some 0

/-- The checks of R241 in order, on the image its header spans and the length PLAN.LOAD names. -/
def imageCheck (img : Bytes) (len : Nat) : ImageCheck :=
  let h := img.take 64
  let count := leAt h 8 4 % 2 ^ 17
  let gens := (img.drop 64).take 4096
  let ws := slotWords count (img.drop 4160)
  let mode := hdrStartMode h
  let rec_ := hdrRecMode h
  if leAt h 0 4 ≠ 0x4C505244 ∨ leAt h 4 1 ≠ 1 ∨ leAt h 5 1 ≠ 1 then .bad 1 0
  else if (crc64 (img.take 48 ++ List.replicate 8 0 ++ img.drop 56)).toNat ≠ leAt h 48 8 then .bad 2 0
  else if count = 0 ∨ count > 65536 ∨ len ≠ 4160 + 16 * count ∨ mode = 3 ∨ (mode = 1 ∧ leAt h 22 2 < 16) ∨
      (mode = 2 ∧ leAt h 24 4 = 0) ∨ (rec_ ≠ 0 ∧ (leAt h 40 4 % 2 ^ 20 = 0 ∨ leAt h 32 8 % 32 ≠ 0)) then .bad 3 0
  else if fld (leAt h 6 2) 15 2 ≠ 0 ∨ leAt h 8 4 ≥ 2 ^ 17 ∨ leAt h 12 4 ≥ 2 ^ 24 ∨ (leAt h 28 1).testBit 7 ∨ leAt h 29 3 ≠ 0 ∨
      leAt h 32 8 ≥ 2 ^ 52 ∨ leAt h 40 4 ≥ 2 ^ 20 ∨ leAt h 56 8 ≠ 0 ∨
      (List.range 64).any (fun g => decide (leAt gens (64 * g) 8 ≥ 2 ^ 52) || leAt gens (64 * g + 48) 16 != 0) then .bad 4 0
  else match (ws.zipIdx).find? fun x => slotReserved x.1 with
  | some x => .bad 4 x.2
  | none =>
    match (ws.zipIdx).find? fun x => decide (slotOp x.1 > 0xB) || !(xformsOf (slotOp x.1)).contains (slotXform x.1) ||
        (slotOp x.1 == 0xB && decide (fld x.1 5 0 > 47)) with
    | some x => .bad 5 x.2
    | none =>
      match (ws.zipIdx).find? fun x => !(slotGens x.1).all (genGood gens (slotAlign x.1)) with
      | some x => .bad 6 x.2
      | none =>
        match openCheck ws (hdrGap h) with
        | some i => .bad 7 i
        | none => .good

/-- The length an image's header gives it (R204). -/
def imageSpan (img : Bytes) : Nat := 4160 + 16 * (leAt img 8 4 % 2 ^ 17)

/-! ## Plan commands (R235, R436) -/

/-- PLAN.LOAD. -/
def planLoad (s : State) (c : Cmd) (input : Bytes) (bad : List BadBeat) : State :=
  if s.pl.st = 3 ∨ s.pl.switchCmd.isSome then refuseCmd s c St.planBusy
  else
    let sh := 1 - s.pl.active
    let put := fun (s : State) (b : PlanBank) =>
      { s with pl := { s.pl with banks := s.pl.banks.set sh b, shadowValid := b.valid } }
    let s := put s {}
    if bad ≠ [] then inputBad s c bad
    else
      let img := slice input 0 (imageSpan input)
      match imageCheck img (leAt c.desc 24 4) with
      | .bad k i => cmdEnd s c.n St.badPlan k i
      | .good =>
        cmdEnd (put s { valid := true, header := img.take 64, gens := (img.drop 64).take 4096, slots := img.drop 4160 }) c.n St.ok 0 0

def execPlanLoad (ring idx : Nat) (input : Bytes) (bad : List BadBeat) (s : State) : Host.Outcome State Fault Refusal :=
  .next (startCmd s ring idx 0x050 fun s c => planLoad s c input bad)

/-- The active bank's header governs from the fc `eff` (R201, R210, R233, R234, R237). -/
def planBegin (s : State) (eff passes : Nat) : State :=
  { s with pl := { s.pl with
    st := 1, base := eff, fc := eff, token := none, gidx := [], ran := 0, written := 0, sum := none, dig := [], wbuf := [], resv := [],
    slot := 0, rep := 0, off := 0, lockGone := false, passes := if passes = 0 then leAt (planHdr s) 16 4 else passes } }

/-- The passes field of a PLAN.RUN's expert form, 0 for the header's. -/
def runPasses (c : Cmd) : Nat := if isExpert c then leAt c.desc 20 4 else 0

/-- PLAN.RUN. -/
def planRun (s : State) (c : Cmd) : State :=
  let p := s.pl
  if (leAt c.desc 16 1).testBit 0 then
    if p.st = 4 ∨ p.st = 3 ∨ p.switchCmd.isSome then refuseCmd s c St.planBusy
    else if !p.shadowValid ∨ !s.pw.planLock then refuseCmd s c St.badState
    else if p.st = 0 then
      { s with pl := { p with st := 3, fc := s.now, endFc := s.now, openNow := true, openSpent := 0, stopAt := 0, switchCmd := some (c.n, runPasses c) } }
    else { s with pl := { p with switchCmd := some (c.n, runPasses c) } }
  else if p.st ≠ 0 then refuseCmd s c St.planBusy
  else if !(planBank s p.active).valid ∨ !s.pw.planLock then refuseCmd s c St.badState
  else cmdEnd (planBegin { s with pl := { p with veil := [] } } (s.now + 1) (runPasses c)) c.n St.ok (p.pass % 2 ^ 48) 0

def execPlanRun (ring idx : Nat) (s : State) : Host.Outcome State Fault Refusal := .next (startCmd s ring idx 0x051 planRun)

/-- PLAN.STOP. -/
def planStopCmd (s : State) (c : Cmd) : State :=
  if s.pl.st = 0 then cmdEnd s c.n St.ok (s.pl.pass % 2 ^ 48) 0
  else
    let s := { s with pl := { s.pl with stopCmds := s.pl.stopCmds ++ [c.n] } }
    if isExpert c then planAbort s 2 else planStop s

def execPlanStop (ring idx : Nat) (s : State) : Host.Outcome State Fault Refusal := .next (startCmd s ring idx 0x052 planStopCmd)

/-! ## Passes (R199 to R203, R233 to R237) -/

/-- The fc at which something that arrives now is seen by the plan. -/
def planNow (s : State) : Nat := max s.now s.pl.fc

/-- The first fc from `b` on in which the timestamp, in half ns, reaches a multiple of `p`, the timestamp advancing half a ns in every
fc (R201). -/
def periodStart (s : State) (b p : Nat) : Nat :=
  let at_b : Int := ((s.tm.ts / 2 ^ 31 : Nat) : Int) + b - s.now
  if p = 0 then b else b + ((p : Int) - at_b.emod p).toNat % p

/-- The nominal start of the pass that starts next, where it is known (R201). DEDUCED, notes/assumptions 8. -/
def nextNominal (s : State) : Option Nat :=
  let h := planHdr s
  if hdrStartMode h = 1 then s.pl.token.map (· + leAt h 22 2)
  else if hdrStartMode h = 2 then some (periodStart s s.pl.base (2 * leAt h 24 4))
  else some s.pl.base

/-- PASS_START (R201, R202, R233, R234). DEDUCED, notes/assumptions 8. -/
def passStart (s : State) : State :=
  if s.pl.st ≠ 1 ∨ s.pl.holding ∨ s.pl.charged ≠ 0 ∨ !s.pw.planLock then s
  else match nextNominal s with
  | none => s
  | some nom =>
    let h := planHdr s
    let p := s.pl
    let len := passLength (planSlots s)
    let pass := (p.pass + 1) % 2 ^ 48
    { s with pl := { p with
      st := 2, pass := pass, nominal := nom, fc := max nom p.fc, endFc := max nom p.fc, base := nom + len + hdrGap h, token := none, slot := 0, rep := 0, off := 0,
      openNow := false, openSpent := 0, holds := 0, stopAt := 0, lockGone := false
      gidx := if hdrGenReset h then [] else p.gidx
      dig := if hdrDigestPerPass h then [] else p.dig
      acc := { bank := p.active, number := pass, startTs := tsNs s } } }

def execPassStart (s : State) : Host.Outcome State Fault Refusal := .next (if serving s then passStart s else s)

/-- PASS_END (R226, R227, R233, R236, R237). DEDUCED, notes/assumptions 8. -/
def passEnd (s : State) : State :=
  if s.pl.st ≠ 2 ∨ s.pl.slot < (planSlots s).length then s
  else
    let p := s.pl
    let h := planHdr s
    let pastLimit := decide (hdrSlipLimit h ≠ 0 ∧ p.holds > hdrSlipLimit h)
    let ran := p.ran + 1
    let reason := if p.lockGone then 3 else if pastLimit then 4 else if p.stopAt ≠ 0 then p.stopAt
      else if p.passes ≠ 0 ∧ ran ≥ p.passes ∧ p.switchCmd.isNone then 1 else 0
    let s := passClose { s with pl := { p with ran := ran } } false (decide (reason ≠ 0)) p.switchCmd.isSome
    if reason ≠ 0 then planIdle s reason
    else if p.switchCmd.isSome then
      { s with pl := { s.pl with st := 3, fc := max (p.fc + hdrGap h) (p.fc + 64 * p.charged), charged := 0, holding := false, openNow := true,
                                 openSpent := 0, stopAt := 0 } }
    else { s with pl := { s.pl with st := 1, openNow := true, openSpent := 0 } }

def execPassEnd (s : State) : Host.Outcome State Fault Refusal := .next (if serving s then advance (passEnd s) else s)

/-- SWITCH_DONE (R236, R237). -/
def switchDone (s : State) : State :=
  if s.pl.st ≠ 3 then s
  else match s.pl.switchCmd with
  | none => s
  | some (n, passes) =>
    let p := s.pl
    let act := 1 - p.active
    let s := { s with pl := { p with active := act, shadowValid := (planBank s p.active).valid, switchCmd := none } }
    let s := planBegin s (p.fc + 17) passes
    let s := cmdEnd s n St.ok (at_ act 8) 0
    if p.stopAt ≠ 0 then planIdle s p.stopAt else s

def execSwitchDone (s : State) : Host.Outcome State Fault Refusal := .next (advance (switchDone s))

/-- STOPPING_DONE (R236, R237). -/
def stoppingDone (s : State) : State :=
  if s.pl.st ≠ 4 then s else planIdle (passClose s true true false) s.pl.stopAt

def execStoppingDone (s : State) : Host.Outcome State Fault Refusal := .next (advance (stoppingDone s))

/-! ## Holds (R223 to R225) -/

/-- HOLD_START: a charge has reached the sequencer at an instance boundary, or after the last instance. -/
def holdStart (s : State) : State :=
  if s.pl.charged = 0 ∨ s.pl.holding ∨ (s.pl.st ≠ 2 ∧ s.pl.st ≠ 1) then s
  else { s with pl := { s.pl with holding := true, openNow := true, openSpent := if s.pl.st = 2 then 0 else s.pl.openSpent } }

def execHoldStart (s : State) : Host.Outcome State Fault Refusal := .next (if serving s then advance (holdStart s) else s)

/-- HOLD_END: 64 fc for every charge, those that arrived during the hold among them; the cycles of a gap stay counted (R221). -/
def holdEnd (s : State) : State :=
  if !s.pl.holding then s
  else { s with pl := { s.pl with
    fc := s.pl.fc + 64 * s.pl.charged, charged := 0, holding := false, openNow := s.pl.st != 2
    openSpent := if s.pl.st = 2 then 0 else s.pl.openSpent } }

def execHoldEnd (s : State) : Host.Outcome State Fault Refusal := .next (if serving s then advance (holdEnd s) else s)

/-! ## Instances -/

/-- The address a generator yields and its indices after (R210). -/
def genNext (s : State) (g : Nat) : Nat × State :=
  let gens := (planBank s s.pl.active).gens
  let i := fun d => SMap.get 0 s.pl.gidx (4 * g + d)
  let a : Int := (leAt gens (64 * g) 8 : Int) +
    ((List.range 4).map fun d => (i d : Int) * strideInt (leAt gens (64 * g + 8 + 8 * d) 8)).foldl (· + ·) 0
  let step := (List.range 4).foldl (fun (x : SMap Nat × Bool) d =>
    if x.2 then
      let v := i d + 1
      if v > leAt gens (64 * g + 40 + 2 * d) 2 then (SMap.put 0 x.1 (4 * g + d) 0, true) else (SMap.put 0 x.1 (4 * g + d) v, false)
    else x) (s.pl.gidx, true)
  ((a.emod (2 ^ 52 : Nat)).toNat, { s with pl := { s.pl with gidx := step.1 } })

/-- One use of each generator of an entry. -/
def genAddrs (s : State) (w : Nat) : List Nat × State :=
  (slotGens w).foldl (fun (x : List Nat × State) g =>
    let (a, s) := genNext x.2 g
    (x.1 ++ [a], s)) ([], s)

/-- Bank cycles of an access of `n` half-beats (R123, R125, R153), reserved from t + 6; two that meet charge a hold (R220, R223). -/
def reserve (s : State) (line n : Nat) : State :=
  if n = 0 then s
  else
    let b := (homeSet s line) % 16
    let t := s.pl.fc + 6
    let live := s.pl.resv.filter fun r => decide (t < r.2.2)
    let s' := { s with pl := { s.pl with resv := live ++ [(b, t, t + n)] } }
    if !s.pl.lockGone && live.any (fun r => r.1 == b && decide (r.2.1 < t + n)) then chargeHold (ev s' Ev.planBankConflict) else s'

/-- Bank cycles of a write of half-beats. -/
def writeCycles (crc : Bool) (n : Nat) : Nat := if crc then 2 * n + 1 else n

/-- An instance's lookup of its line: the tags of its set checked (R445), the line's last brought up to date, but nothing in a disabled last
(R116); the snoop filter's record of the bytes it names checked and counted (R260, R443); its activity charged, `n` half-beats of the array
among it (R536). -/
def planLookup (s : State) (line : Nat) (m : LineMask) (n qos : Nat) (arith : Bool) : State :=
  let li := lastOfLine s line
  let attr := (lastAt s li).attr
  let s := if aCache attr then activity (lookup s line li) qos (aCtx attr) 1 1 else s
  let s := ((hostsOf line m).map (sfSet s)).eraseDups.foldl (fun s x => sfCheckSet s x 1) s
  let s := if (hostsOf line m).any (fun h => sfState s h != 0) then ev s Ev.planSfHit else s
  let s := activity s qos (aCtx attr) 0 n
  if arith then activity s qos (aCtx attr) 5 1 else s

/-- The stored bytes a block-view instance of `n` blocks names, where its last is baled and they lie in its bale (R209). -/
def planBlocks (attr addr n : Nat) : Option LineMask :=
  if aBaled attr && fld addr 8 4 + n ≤ baleBlocks (aFmt attr) then some (blocksMask (aFmt attr) (fld addr 8 4) n) else none

/-- The stored bytes a read instance names. -/
def planReadMask (attr addr xform : Nat) : Option LineMask :=
  if xform = 2 then planBlocks attr addr (blockCount (baleReadFmt (aReadFmt attr)) 256) else some (spanMask (addr % 512) 256)

/-- A line that failed as a lookup sees it, its failing sectors as zeros: all of them where only the line CRC failed (R222, R446). -/
def failedView (s : State) (line : Nat) (l : Line) : LineData :=
  mergeBytes (seenData s line l.data) 0 (if l.badPar = 0 then BitVec.allOnes 512 else maskOfSectors (sectorsOf l.badPar))

/-- An atomic that has been acknowledged at the miss-handling entry of a line is not performed yet: the entry is held, and the line counts as
filling (R109, R169, R303). -/
def entryHeld (s : State) (line : Nat) : Bool := s.arr.waiting.any fun o => o.acked && !o.plan && opLine o == line

/-- A read instance resolved (R120, R215, R216, R493): its status and bytes; whole sectors are checked. The requester a FALLOW_NOTE names is
the slice (DEDUCED, notes/assumptions 8). -/
def planRead (s : State) (addr xform qos : Nat) : State × Nat × Bytes :=
  let line := addr / 512
  let li := lastOfLine s line
  let l := lastAt s li
  let zero := List.replicate 256 (0 : Byte)
  match planReadMask l.attr addr xform with
  | none => (s, St.badAddr, zero)
  | some m =>
    let s := planLookup s line m (halfBeatCount m) qos (decide (2 ≤ xform))
    let s := reserve s line (halfBeatCount m)
    let out := fun (d : LineData) =>
      if xform = 2 then expandBlocks (aFmt l.attr) (aReadFmt l.attr) d (fld addr 8 4) (blockCount (baleReadFmt (aReadFmt l.attr)) 256)
      else lineBytes d (addr % 512) 256
    let count := fun (s : State) =>
      if xform = 2 then evN s Ev.baleReadBlock (blockCount (baleReadFmt (aReadFmt l.attr)) 256) else s
    if l.cond ≠ 1 then (s, St.dataLost, zero)
    else if s.hl.suspect ∧ 2 ≤ xform then (s, St.dataError, zero)
    else if s.gen.pendingRc.contains line then (s, St.recomputePending, zero)
    else if !aCache l.attr || (evictOf s line).isSome || (openOf s line).isSome || entryHeld s line then (s, St.planMiss, zero)
    else match findLine s line with
    | none => (s, St.planMiss, zero)
    | some k =>
      let x := lineAt s k
      let req : Op := { m := { addr := addr, src := ownId s } }
      if x.filling || seenState s line x.st == .invalid then (s, St.planMiss, zero)
      else if seenState s line x.st = .fallow then (fallowNote (count (ev s Ev.fallowRead)) x req, St.ok, if xform = 2 then out 0 else zero)
      else if slotRepairing s k then (s, St.dataError, out (failedView s line x))
      else match checkLine s k (maskOfSectors (sectorsOf m)) false 1 with
      | (s, true) => (count s, St.ok, out (seenData s line (lineAt s k).data))
      | (s, false) => (s, St.dataError, out (failedView s line x))

/-- Bytes fed into a plan digest accumulator (R193, R209). -/
def planFeed (s : State) (d : Nat) (bs : Bytes) : State :=
  let c : BitVec 64 := SMap.get 0 s.pl.dig d
  let c := ~~~ (bs.foldl (crcByte 0xC96C5795D7870F42) (~~~ c))
  { s with pl := { s.pl with dig := SMap.put 0 s.pl.dig d c } }

/-- What a write instance does on its line (R217): `m` bytes of a line whose data is `d`, seen by lookups from t + `vis` on (R222); bytes
that end in memory count for the slot's class (R206). A line an earlier instance has allocated and lookups do not find yet is written in its
slot by an instance with alloc, else as a miss (R242). DEDUCED, notes/assumptions 8. -/
def planPut (s : State) (line li : Nat) (d : LineData) (m : LineMask) (alloc : Bool) (qos vis : Nat) : State × Nat :=
  let req : Msg := { port := .blk, addr := line * 512, size := 511, mask := m.toNat, data := lineBytes d 0 512, op := b2n alloc, qos := qos }
  let o : Op := { n := s.arr.n, kind := .wr, plan := true, m := req }
  let later := fun (s : State) => { s with arr := { s.arr with n := s.arr.n + 1, waiting := s.arr.waiting ++ [o] } }
  let missed := if alloc then St.ok else St.planMiss
  let memory := fun (s : State) => memWriteMasked s { for_ := .none, last := li } line d m qos
  let s := if syncLast s (lastAt s li) then unprotect s li else s
  match planRoom s line (lastAt s li).attr alloc with
  | (s, false) => (later (ev s Ev.lagWait), St.ok)
  | (s, true) =>
  match mheOf s line with
  | some x =>
    if x.kind == .memSide || x.kind == .bypass then (later s, missed)
    else (planMerge s x li d m, St.ok)
  | none =>
    if (evictOf s line).isSome && (findLine s line).isNone then (later (chargeHold s), missed)
    else
      let s := if (openOf s line).isSome then closeFor (chargeHold s) line else s
      match findLine s line with
      | some k =>
        if seenState s line (lineAt s k).st = .invalid ∧ !alloc then (memory s, St.planMiss)
        else planStore (veil s line vis (lineAt s k).st (lineAt s k).data m) k line li d m
      | none =>
        if !alloc then (memory s, St.planMiss)
        else match planAlloc s line li qos with
        | (s, none) => (memory s, St.planMiss)
        | (s, some none) => (later s, St.ok)
        | (s, some (some k)) => planStore (veil s line vis .invalid 0 (BitVec.allOnes 512)) k line li d m

/-- The rows of R217 that come before the line's state: 0 where none applies. -/
def planRefusal (s : State) (line li : Nat) : Nat :=
  let l := lastAt s li
  if l.cond ≠ 1 then St.dataLost
  else if (ctxGet s (aCtx l.attr)).st = 2 then St.ctxFrozen
  else match findLine s line with
  | some k => if slotRepairing s k then St.dataError else St.ok
  | none => St.ok

/-- A write instance of BLK_TO_ARR or of the destination of ARR_TO_ARR (R209, R217, R493, R614). -/
def planWrite (s : State) (addr xform qos : Nat) (alloc : Bool) (mask : Nat) (bytes : Bytes) (vis : Nat) : State × Nat :=
  let line := addr / 512
  let li := lastOfLine s line
  let attr := (lastAt s li).attr
  let f := baleWriteFmt (aWriteFmt attr)
  let n := if xform = 1 then blockCount f 256 else 0
  let bits := mask % 2 ^ 256
  let span := if xform = 1 then (planBlocks attr addr n).getD 0 else spanMask (addr % 512) 256
  let s := planLookup s line span (halfBeatCount span) qos (decide (xform = 1 ∨ xform = 3))
  if aKind attr = 1 ∨ !aCache attr then (s, St.badAttr)
  else if xform = 1 ∧ (planBlocks attr addr n).isNone then (s, St.badAddr)
  else if s.hl.suspect ∧ (xform = 1 ∨ xform = 3) then (s, St.dataError)
  else if xform = 1 ∧ splitsBlock (blockBytes f) bits n then (s, St.badOp)
  else if planRefusal s line li ≠ 0 then (s, planRefusal s line li)
  else
    let b : Baled :=
      if xform = 1 then baleWrite (aFmt attr) (aWriteFmt attr) (baleKey s attr) (line * 512) bits (leNat bytes) (fld addr 8 4) n
      else ⟨BitVec.ofNat 4096 (leNat (bytes.take 256) <<< (8 * (addr % 512))), BitVec.ofNat 512 (bits <<< (addr % 512)), 0, 0⟩
    let s := if xform = 1 then evN (evN (evN s Ev.baleWriteBlock n) Ev.baleNan b.nans) Ev.baleSat b.sats else s
    let s := reserve s line (writeCycles (aCrc attr) (halfBeatCount span))
    if b.mask = 0 then (s, St.ok) else planPut s line li b.data b.mask alloc qos (vis + (if aCrc attr then 6 else 0))

/-- BLK_ADD on its line (R208, R217). -/
def planAdd (s : State) (addr afmt qos mask : Nat) (bytes : Bytes) : State × Nat :=
  let line := addr / 512
  let li := lastOfLine s line
  let attr := (lastAt s li).attr
  let s := planLookup s line (spanMask (addr % 512) 256) 2 qos true
  let w := windowOf s line
  let eb := aopWidth 0x18 afmt / 8
  let bits := mask % 2 ^ 256
  if aKind attr = 1 ∨ !aCache attr ∨ aBaled attr then (s, St.badAttr)
  else if s.hl.suspect then (s, St.dataError)
  else if !aopValid 0x18 afmt w.isSome then (s, St.badOp)
  else if splitsElem eb bits (256 / eb) then (s, St.badOp)
  else if planRefusal s line li ≠ 0 then (s, planRefusal s line li)
  else match w with
  | some w =>
    let n := 256 / eb
    contribAt s w addr afmt n ((List.range n).map fun i => bits.testBit (i * eb)) (slice bytes 0 256) qos
  | none =>
    let off := addr % 512
    let data : Bytes := List.replicate off 0 ++ slice bytes 0 256 ++ List.replicate (256 - off) 0
    let req : Msg := { port := .blk, addr := line * 512, size := 511, op := 0x18 + at_ afmt 5, mask := bits <<< off, qos := qos, data := data }
    let o : Op := { n := s.arr.n, kind := .atomic, acked := true, plan := true, m := req }
    let later := fun (s : State) => { s with arr := { s.arr with n := s.arr.n + 1, waiting := s.arr.waiting ++ [o] } }
    let memory := fun (s : State) =>
      match atomMemSide { s with arr := { s.arr with n := s.arr.n + 1 } } o with
      | .done s => (s, St.planMiss)
      | .wait s o | .again s o => ({ s with arr := { s.arr with waiting := s.arr.waiting ++ [o] } }, St.planMiss)
    let s := if syncLast s (lastAt s li) then unprotect s li else s
    match openOf s line with
    | some x =>
      (match openGood s line 1 with
      | (s, true) => (planOpen s o x li, St.ok)
      | (s, false) => (s, St.dataError))
    | none =>
      if (evictOf s line).isSome && (findLine s line).isNone then (later (chargeHold s), St.planMiss)
      else if (mheOf s line).isSome then (later s, St.ok)
      else match findLine s line with
      | some k =>
        let l := lineAt s k
        if seenState s line l.st = .invalid then memory s
        else match planRoom s line attr false with
        | (s, false) => (later (ev s Ev.lagWait), St.ok)
        | (s, true) => planSum (veil (reserve s line (writeCycles (aCrc attr) 2)) line 32 l.st l.data (BitVec.ofNat 512 (bits <<< off))) o k li
      | none => memory s

/-- A STAGE_IN of a line in its slot that lookups still find INVALID or FALLOW: a fill of the same way, of which an earlier instance has
written every byte (R121, R217, R218, R242). DEDUCED, notes/assumptions 8. -/
def stageSeen (s : State) (k li : Nat) (attr age qos : Nat) : State :=
  let l := lineAt s k
  if !(eligible s attr 0 (slotSet k)).contains k then stageDrop (ev s Ev.allocBypass)
  else mheStart (setFilling s k l.addr li qos age)
    { line := l.addr, kind := .stage, slot := some k, qos := qos, last := li, age := age, pass := s.pl.pass, wdata := l.data,
      wmask := BitVec.allOnes 512 }

/-- The tracking entries of stage-ins in use (R218). -/
def stageEntries (s : State) : Nat :=
  (s.arr.mhes.filter fun m => m.kind == .stage).length + (s.arr.waiting.filter fun o => o.plan && o.kind == .prefetch).length

/-- A STAGE_IN instance (R116, R218); its fill takes the class of the slot entry (R206), where R78 names the last's too (DESIGN CHOICE,
notes/assumptions 35). -/
def stageInLine (s : State) (line age qos : Nat) : State :=
  let li := lastOfLine s line
  let l := lastAt s li
  let s := planLookup s line (BitVec.allOnes 512) 0 qos false
  if !aCache l.attr then stageDrop s else
  let found := findLine s line
  let st := found.map fun k => seenState s line (lineAt s k).st
  if st = some .clean ∨ st = some .dirty then
    match found with
    | some k => linePut s k { lineAt s k with age := min age (lineAt s k).age }
    | none => s
  else if aKind l.attr = 2 ∨ (mheOf s line).isSome ∨ s.arr.waiting.any (fun o => o.plan && o.kind == .prefetch && opLine o == line) then s
  else if l.cond ≠ 1 then stageDrop s
  else if (eligible s l.attr 0 (setOf s line)).isEmpty then stageDrop (ev s Ev.allocBypass)
  else if stageEntries s ≥ 128 then stageDrop s
  else
    let o : Op := { n := s.arr.n, kind := .prefetch, plan := true, idx := s.pl.pass, m := { addr := line * 512, size := 511, op := age, qos := qos } }
    match found with
    | some k =>
      if (lineAt s k).st ≠ .fallow then stageSeen s k li l.attr age qos
      else match stageFill s o l.attr li with
      | .done s => s
      | .wait s o | .again s o => { s with arr := { s.arr with n := s.arr.n + 1, waiting := s.arr.waiting ++ [o] } }
    | none =>
      match stageFill s o l.attr li with
      | .done s => s
      | .wait s o | .again s o => { s with arr := { s.arr with n := s.arr.n + 1, waiting := s.arr.waiting ++ [o] } }

/-- A STAGE_OUT instance (R208, R242, R323, R324, R351, R446): its status. The plan never waits for the write-back. -/
def stageOutLine (s : State) (line qos : Nat) : State × Nat :=
  let li := lastOfLine s line
  let s := planLookup s line (BitVec.allOnes 512) 4 qos false
  if !aCache (lastAt s li).attr ∨ aKind (lastAt s li).attr = 2 ∨ (mheOf s line).isSome then (s, St.ok)
  else match findLine s line with
  | none => (s, St.ok)
  | some k =>
    let l := lineAt s k
    if seenState s line l.st ≠ .dirty ∨ l.st ≠ .dirty then (s, St.ok)
    else if lagLocked s l then (stageOutKeep s line, St.ok)
    else if repairing s k then (s, St.dataError)
    else match checkLine (closeFor s line) k (BitVec.allOnes 512) true 3 with
    | (s, false) => (s, St.dataError)
    | (s, true) => match stageOutWrite s k with
      | (s, true) => (s, St.ok)
      | (s, false) => (stageOutKeep s line, St.ok)

/-- TTH_OUT's payload on its way to the fellow (R223, R383, R384). That of an instance which finds the queue of 64 full stands behind it through
its hold (DESIGN CHOICE, notes/assumptions 10). -/
def planSend (s : State) (addr qos : Nat) (bs : Bytes) : State :=
  if s.tt.link ≠ 2 then ev s Ev.tthOutNolink
  else
    let s := if (s.tt.q.filter fun t => t.kind == 0x0A).length ≥ 64 then chargeHold s else s
    ttSend s { kind := 0x0A, addr := addr, qos := qos, pass := some s.pl.pass, data := bs }

/-- The scheduled beat an instance at the planned offset takes (R228): none, or the byte mask and data. One that fails its parity is discarded
(R452). -/
def takeBeat (s : State) (peer : Nat) : Option (Nat × Bytes) × State :=
  let n := s.pl.nominal + s.pl.off
  match s.pl.wbuf.find? fun b => b.stamp == n && b.src == peer with
  | none => (none, s)
  | some b =>
    let take := fun (s : State) => { s with pl := { s.pl with wbuf := s.pl.wbuf.filter fun x => !(x.stamp == n && x.src == peer) } }
    if b.bad then (none, postError (take s) St.portParity { unit := 14, action := 8, detector := 1 })
    else (some (b.mask, b.data), { s with pl := { s.pl with wbuf := s.pl.wbuf.filter fun x => !(x.stamp == n && x.src == peer) } })

/-- The status of an instance counted in the record of its pass (R216, R233). -/
def passCount (s : State) (st : Nat) : State :=
  let a := s.pl.acc
  if st = St.ok then s
  else if st = St.planMiss then ev { s with pl := { s.pl with acc := { a with misses := a.misses + 1 } } } Ev.planMiss
  else if st = St.planNodata then { s with pl := { s.pl with acc := { a with nodata := a.nodata + 1 } } }
  else { s with pl := { s.pl with acc := { a with errors := a.errors + 1 } } }

/-- The next instance of the pass issued, as `f` performs it (R199, R203, R220, R224): one fc of the plan clock. -/
def instanceRun (s : State) (w : Nat) (opens : Bool) (f : State → State × Nat) : State :=
  let s := ev { s with pl := { s.pl with openNow := opens, openSpent := 0 } } Ev.planInstance
  let (s, st) := f s
  let s := passCount s st
  let lastRep := s.pl.rep ≥ slotRepeat w
  advance { s with pl := { s.pl with
    fc := s.pl.fc + 1, endFc := s.pl.fc + 1, off := s.pl.off + 1, rep := if lastRep then 0 else s.pl.rep + 1
    slot := if lastRep then s.pl.slot + 1 else s.pl.slot } }

/-- The entry of the next instance, while the pass may issue one. -/
def nextEntry (s : State) : Option Nat :=
  if !serving s || s.pl.st != 2 || s.pl.holding then none else (planSlots s)[s.pl.slot]?

/-- The next instance of the pass issued, where it is one of operation `op`. -/
def instance_ (s : State) (op : Nat) (f : State → Nat → State × Nat) : State :=
  match nextEntry s with
  | none => s
  | some w => if slotOp w ≠ op then s else instanceRun s w (op == 0) fun s => f s w

/-- OPEN (R208, R221): the cycle is open to one demand request. -/
def execOpenCycle (s : State) : Host.Outcome State Fault Refusal := .next (instance_ s 0x0 fun s _ => (s, St.ok))

/-- A byte parity error in the active bank (R238, R452): recorded, counted in errors, and the plan stops at the pass end. -/
def planStoreBad (s : State) : State × Nat :=
  (postError { s with pl := { s.pl with stopAt := 5 } } St.dataError { unit := 14, detector := 1 }, St.dataError)

/-- QUIET (R208), or the QUIET that stands for an instance of any operation whose entry fails its parity (R238). -/
def execQuiet (s : State) (parityBad : Bool := false) : Host.Outcome State Fault Refusal :=
  .next (if parityBad then match nextEntry s with
    | some w => instanceRun s w false planStoreBad
    | none => s
  else instance_ s 0x1 fun s _ => (s, St.ok))

/-- A read instance of an entry: its state, status, bytes and address, its digest fed. -/
def readInstance (s : State) (w : Nat) : State × Nat × Bytes × List Nat :=
  let (as, s) := genAddrs s w
  let (s, st, bs) := planRead s (as.headD 0) (slotXform w) (slotQos w)
  (if st = 0 ∧ slotXform w = 3 then planFeed s (fld w 33 31) bs else s, st, bs, as)

/-- ARR_TO_BLK (R209, R212, R214, R215). -/
def execArrToBlk (s : State) : Host.Outcome State Fault Refusal :=
  .next (instance_ s 0x2 fun s w =>
    let (s, st, bs, as) := readInstance s w
    let sow := w.testBit 24
    (drive s (.blk { scheduled := true, group := if sow then fld w 23 18 else 0, dst := if sow then 0x3FFFF else slotPeer w,
                     status := st, qos := slotQos w, ctx := coverCtx s (as.headD 0), data := bs }), st))

/-- The bytes a mask selects of a beat (R209). -/
def maskedBytes (mask : Nat) (bs : Bytes) : Bytes := (((slice bs 0 256).zipIdx).filter fun x => mask.testBit x.2).map (·.1)

/-- The lookup of a write instance that finds no beat (R217, R222, R260). -/
def planNoBeat (s : State) (addr xform qos : Nat) : State :=
  let attr := (lastAt s (lastOf s addr)).attr
  planLookup s (addr / 512) (if xform = 1 then (planBlocks attr addr (blockCount (baleWriteFmt (aWriteFmt attr)) 256)).getD 0
    else spanMask (addr % 512) 256) 0 qos false

/-- BLK_TO_ARR (R209, R217, R228, R229). -/
def execBlkToArr (s : State) : Host.Outcome State Fault Refusal :=
  .next (instance_ s 0x3 fun s w =>
    let (as, s) := genAddrs s w
    match takeBeat s (slotPeer w) with
    | (none, s) => (planNoBeat s (as.headD 0) (slotXform w) (slotQos w), St.planNodata)
    | (some (mask, bs), s) =>
      let (s, st) := planWrite s (as.headD 0) (slotXform w) (slotQos w) (w.testBit 27) mask bs (if slotXform w = 1 then 25 else 12)
      (if (st = St.ok ∨ st = St.planMiss) ∧ slotXform w = 3 then planFeed s (fld w 33 31) (maskedBytes mask bs) else s, st))

/-- BLK_ADD (R208, R217). -/
def execBlkAdd (s : State) : Host.Outcome State Fault Refusal :=
  .next (instance_ s 0x4 fun s w =>
    let (as, s) := genAddrs s w
    match takeBeat s (slotPeer w) with
    | (none, s) => (planNoBeat s (as.headD 0) 0 (slotQos w), St.planNodata)
    | (some (mask, bs), s) => planAdd s (as.headD 0) (fld w 30 28) (slotQos w) mask bs)

/-- STAGE_IN (R218, R219). -/
def execStageIn (s : State) : Host.Outcome State Fault Refusal :=
  .next (instance_ s 0x5 fun s w =>
    let (as, s) := genAddrs s w
    (stageInLine s (as.headD 0 / 512) (fld w 26 25) (slotQos w), St.ok))

/-- STAGE_OUT (R208, R323). -/
def execStageOut (s : State) : Host.Outcome State Fault Refusal :=
  .next (instance_ s 0x6 fun s w =>
    let (as, s) := genAddrs s w
    stageOutLine s (as.headD 0 / 512) (slotQos w))

/-- ARR_TO_ARR (R208, R215 to R217). -/
def execArrToArr (s : State) : Host.Outcome State Fault Refusal :=
  .next (instance_ s 0x7 fun s w =>
    let (s, st, bs, as) := readInstance s w
    if st ≠ 0 then (s, st)
    else planWrite s (as.getD 1 0) 0 (slotQos w) (w.testBit 27) (2 ^ 256 - 1) bs 28)

/-- ARR_SCAN (R208, R215). -/
def execArrScan (s : State) : Host.Outcome State Fault Refusal :=
  .next (instance_ s 0x8 fun s w =>
    let (s, st, _, _) := readInstance s w
    (s, st))

/-- TTH_OUT (R208, R215, R216, R383). -/
def execTthOut (s : State) : Host.Outcome State Fault Refusal :=
  .next (instance_ s 0x9 fun s w =>
    let (s, st, bs, as) := readInstance s w
    (if st = 0 then planSend s (as.headD 0) (slotQos w) bs else s, st))

/-- What a write instance has left has not reached its line yet. -/
def planUnsettled (s : State) : Bool := (s.arr.waiting.any fun o => o.plan && o.kind != .prefetch) || s.arr.mhes.any (·.planned)

/-- In paced issue a SYN_OUT stands until the bytes of every earlier write instance are seen (R304). -/
def pacedSyn (s : State) : State :=
  if s.pl.lockGone then { s with pl := { s.pl with fc := (s.pl.veil.map (·.due)).foldl max s.pl.fc } } else s

/-- SYN_OUT (R20, R26, R230, R304). -/
def execSynOut (s : State) : Host.Outcome State Fault Refusal :=
  .next (if s.pl.lockGone ∧ planUnsettled s then s
    else instance_ s 0xA fun s w => (drive (pacedSyn s) (.syn (fld w 31 0) (ownId s)), St.ok))

/-- KERNEL (R208, R490): the arithmetic path for one ac goes to the kernel named, whose runs end as KERNEL_RUN_DONE says. -/
def execKernel (s : State) : Host.Outcome State Fault Refusal :=
  .next (instance_ s 0xB fun s w =>
    let k := fld w 5 0
    (activity { s with hl := { s.hl with kernelAc := SMap.put 0 s.hl.kernelAc k (SMap.get 0 s.hl.kernelAc k + 1) } } 16 4096 5 1, St.ok))

/-! ## SYN words and scheduled write beats -/

/-- A SYN word received (R20, R231, R232, R450); a matching barrier token that finds one accepted already is one of the others (DESIGN CHOICE,
notes/assumptions 34). -/
def synWord (s : State) (word src : Nat) (parityBad : Bool) : State :=
  let id := fld word 29 24
  if parityBad then parityRecord (ev s Ev.synBad) { port := .syn, src := src, parity := .header }
  else match fld word 31 30 with
  | 0 => s
  | 1 =>
    if (s.pl.st = 1 ∨ s.pl.st = 2) ∧ hdrStartMode (planHdr s) = 1 ∧ hdrBarrier (planHdr s) = id ∧ s.pl.token.isNone then
      { s with pl := { s.pl with token := some (planNow s) } }
    else ev s Ev.synTokenIgnored
  | 2 => csrSet s 0x408 (2 ^ id)
  | _ => ev s Ev.synBad

def execSynWord (word src : Nat) (parityBad : Bool) (s : State) : Host.Outcome State Fault Refusal :=
  .next (if fabricRuns s then synWord s word src parityBad else s)

/-- The slot entry whose instance stands at a planned offset. -/
def slotAtOffset : List Nat → Nat → Option Nat
  | [], _ => none
  | w :: r, p => if p ≤ slotRepeat w then some w else slotAtOffset r (p - (slotRepeat w + 1))

/-- The nominal starts of the passes a beat may belong to (R228): the pass in progress, and the next one due. -/
def passSpans (s : State) : List Nat :=
  let now := if s.pl.st = 2 ∨ s.pl.st = 4 then [s.pl.nominal] else []
  let due := s.pl.st = 1 ∨ (s.pl.st = 2 ∧ (s.pl.passes = 0 ∨ s.pl.ran + 1 < s.pl.passes))
  now ++ (if due then (nextNominal s).toList else [])

/-- A scheduled write beat received (R16, R228, R229, R450, R516, R568). -/
def writeBeat (s : State) (src mask : Nat) (parityBad : Bool) (bytes : Bytes) : State :=
  if parityBad then parityRecord s { port := .blk, src := src, parity := .payload }
  else if hedgeFenced s (hedgeClass s src) then ev s Ev.planStrayBeat
  else
    let n := planNow s
    let ws := planSlots s
    let len := passLength ws
    match (passSpans s).find? fun b => decide (b ≤ n ∧ n < b + len) with
    | none => ev s Ev.planStrayBeat
    | some b =>
      match slotAtOffset ws (n - b) with
      | none => ev s Ev.planStrayBeat
      | some w =>
        if (slotOp w ≠ 3 ∧ slotOp w ≠ 4) ∨ slotPeer w ≠ src ∨ s.pl.wbuf.any (fun x => x.stamp == n && x.src == src) then
          ev s Ev.planStrayBeat
        else if s.pl.wbuf.length ≥ 128 then ev s Ev.planWbufOverflow
        else
          activity (meter { s with pl := { s.pl with wbuf := s.pl.wbuf ++ [{ stamp := n, src := src, mask := mask, data := bytes }] } }
            (slotQos w) 1 256) (slotQos w) 4096 3 1

def execScheduledWriteBeat (src mask : Nat) (parityBad : Bool) (bytes : Bytes) (s : State) : Host.Outcome State Fault Refusal :=
  .next (if fabricRuns s then writeBeat s src mask parityBad bytes else s)

end Sys2Proof.Machine
end

