-- ==== Sys2Proof/Machine/Power.lean ====
section
/-! DEFINITION. Power states, resets, start-up, safe retention, backup hold and re-entry; clocks and the array supply (spec/01
R31 to R60; spec/12 R451; spec/15 R547 to R562). -/

namespace Sys2Proof.Machine

open Sys2Proof

/-! ## What goes on again after a pause -/

/-- The state a meaning answers. -/
def nextOr (s : State) : Host.Outcome State Fault Refusal → State
  | .next t => t
  | _ => s

/-- A message or beat held in safe retention or backup hold is delivered (R559, R560). -/
def deliverOne (s : State) (c : Instr) : State :=
  nextOr s (match c with
    | .rd m => execRd m s
    | .rdBlk m => execRdBlk m s
    | .wr m => execWr m s
    | .wrMask m => execWrMask m s
    | .blkDemandWr m => execBlkDemandWr m s
    | .blkAtl m => execBlkAtl m s
    | .atomic m => execAtomic m s
    | .hostDrop m => execHostDrop m s
    | .biConflict m => execBiConflict m s
    | .fence m => execFence m s
    | .hintWr m => execHintWr m s
    | .snpIn m => execSnpIn m s
    | .hintAck m => execHintAck m s
    | .snpWb m => execSnpWb m s
    | .biRsp m => execBiRsp m s
    | .cmp m => execCmp m s
    | .doorbellReading ring prod cpl evt a => execDoorbellReading ring prod cpl evt s a
    | .descriptorReadReturn ring idx status bytes a => execDescriptorReadReturn ring idx status bytes s a
    | .memReadReturn tag beat status bad bytes => execMemReadReturn tag beat status bad bytes s
    | .memReplay tag beat => execMemReplay tag beat s
    | .memWriteCompletion tag => execMemWriteCompletion tag s
    | .evictionWritebackAccepted tag => execEvictionWritebackAccepted tag s
    | .flitReceived bytes => execFlitReceived bytes s
    | .negotiationFrame bytes => execNegotiationFrame bytes s
    | .syncWr t => execSyncWr t s
    | .syncAck t => execSyncAck t s
    | .lagRec t => execLagRec t s
    | .lagEnd t => execLagEnd t s
    | .lagAccept t => execLagAccept t s
    | .lagApplied t => execLagApplied t s
    | .dropMirror t => execDropMirror t s
    | .repairRd t => execRepairRd t s
    | .repairData t => execRepairData t s
    | .planData t => execPlanData t s
    | .resyncBegin t => execResyncBegin t s
    | .resyncDone t => execResyncDone t s
    | _ => .next s)

/-- What was held, delivered in its order. -/
def deliver (s : State) : State := s.held.foldl deliverOne { s with held := [] }

/-- Enabled rings go on: a line not watched is watched, descriptors are fetched. -/
def resumeRings (s : State) : State :=
  ((List.range 64).filter (ringEnabled s)).foldl (fun s n =>
    fetch (if (ringGet s n).watch = 0 then watchIssue s n else s) n) s

/-- The tether trains when link_en is 1 (R554, R559), and is DISABLED where a write stored in safe retention has cleared it (R612). -/
def linkResume (s : State) : State :=
  if !csrBit s 0xA00 31 then (if s.tt.link = 0 then s else linkDown s 0 1)
  else if !s.pw.tetherOff && (s.tt.link == 0 || s.tt.link == 4) then trainStart s
  else s

/-- Frames the stop could not insert are sent once it is ACTIVE (R50, R469). -/
def sendHeld (s : State) : State :=
  let fs := (s.hd.unacked.filter fun e => e.2 == 0).map (·.1)
  let s : State := { s with hd := { s.hd with unacked := s.hd.unacked.map fun e => if e.2 = 0 then (e.1, 1) else e } }
  fs.foldl (fun s f => drive s (.hdr f)) s

/-! ## Cold reset (R37 to R39, R554, R561) -/

/-- Everything RST_N leaves: the ledger, whose better copy of the repair map comes into force (R482), the sheaf banks its fault history keeps out
of allocation (R483), fuses, pins, rails and time outside the slice (R554). DEDUCED, notes/assumptions 24. -/
def coldState (s : State) : State :=
  let p := s.pw
  let h := s.hl
  { pending := s.pending, out := s.out, now := s.now, free := s.free
    hd := { mode := if p.clkAon then 1 else 2 }
    pw := { grade := p.grade, tetherOff := p.tetherOff, opKey := p.opKey, debugFuse := p.debugFuse, minSvn := p.minSvn,
            romBuild := p.romBuild, fusedOff := p.fusedOff, clkAon := p.clkAon, flowStop := p.flowStop, flowAt := p.flowAt,
            onBak := p.onBak, bakPresent := p.bakPresent }
    hl := { spares := (mapBest h.maps).spares, wayDis := (mapBest h.maps).ways, mapGen := (mapBest h.maps).gen, maps := h.maps,
            mapAt := h.mapAt, banksOut := h.banksOut, faults := h.faults, ageRing := h.ageRing, ageN := h.ageN,
            histRing := h.histRing, histN := h.histN, ledWait := h.ledWait, canary0 := h.canary0, powerOns := h.powerOns,
            unavail := h.unavail, retires := h.retires, poweredSc := h.poweredSc } }

/-- RST_N_ASSERT (R38, R554). -/
def execRstNAssert (s : State) : Host.Outcome State Fault Refusal := .next (if s.pw.clkAon then coldState s else s)

/-- A start goes beyond step 4 once FLOW_STOP_N is high and every clock present (R551, R559): the crossings are aligned (R33). -/
def startGo (s : State) : State :=
  if s.pw.pstate = Ps.starting ∧ s.pw.startStep = 4 ∧ s.pw.clocks = BitVec.allOnes 5 ∧ !s.pw.flowStop ∧ !s.pw.coreDown then
    { s with pw := { s.pw with planLock := true, startStep := 6 } }
  else s

/-- The control island boots: steps 1 to 4 of R551. DESIGN CHOICE, notes/assumptions 3, 10, 24. -/
def boot (s : State) (chip die sliceId : Nat) : State :=
  let s := { s with pw := { s.pw with rstN := true, chip := chip % 64, die := die % 8, sliceId := sliceId % 32,
                                      fusedOff := s.pw.grade == 3 } }
  if s.pw.fusedOff then s
  else
    let s := { s with
      pw := { s.pw with bakPresent := true, pstate := Ps.starting, startKind := 0, startStep := 4, startAt := s.now }
      hd := { s.hd with mode := 0 }
      hl := { s.hl with powerOns := s.hl.powerOns + 1 } }
    startGo (if s.pw.debugFuse then csrSet s 0xF10 (2 ^ 30) else s)

/-- RST_N_RELEASE (R37, R551). -/
def execRstNRelease (chip die sliceId : Nat) (s : State) : Host.Outcome State Fault Refusal :=
  .next (if !s.pw.rstN && s.pw.clkAon then boot s chip die sliceId else s)

/-! ## The logic reset of a warm start and of a re-entry (R549, R550, R552, R554) -/

/-- An operation whose effect has been promised: acknowledged, data the host gave up, or what is left of a write instance (R550). DEDUCED, notes/assumptions 24. -/
def promised (o : Op) : Bool := o.acked || o.kind == .wb || o.plan

/-- A CSR field of home C that a reset returns to its reset value: trace and event counters (R554). -/
def csrCleared (off : Nat) : Bool := decide ((0x3400 ≤ off ∧ off ≤ 0x3410) ∨ (0x4000 ≤ off ∧ off < 0x4840))

/-- The enables of command and event rings cleared, counters and trace at reset (R554). -/
def csrReset (s : State) : State :=
  let s := { s with csr := s.csr.filter fun e => !csrCleared e.1 }
  let s := (List.range 64).foldl (fun s n => csrPut s (0x1018 + 64 * n) (csrGet s (0x1018 + 64 * n) &&& (2 ^ 31 - 1))) s
  (List.range 4).foldl (fun s n => csrPut s (0x2008 + 32 * n) (csrGet s (0x2008 + 32 * n) &&& (2 ^ 31 - 1))) s

/-- MEM writes that a re-entry repeats, oldest first, then those not yet issued; what waited for an answer of the slice is gone. -/
def keptWrites (a : Arr) : List MemReq :=
  let anon := fun (w : MemWr) => match w.for_ with
    | .req _ | .cmd _ | .memSide _ => { w with for_ := .none, accepted := false }
    | _ => { w with accepted := false }
  (a.memWrs.map fun w => MemReq.wr (anon w) w.data w.qos) ++ a.memq.filterMap fun q => match q with
    | .wr w d qos => some (.wr (anon w) d qos)
    | .rd _ => none

/-- The retained buffers of the array island (R549, R554): of an entry that holds an atomic without allocation, the atomic acknowledged and
not performed is kept (R550). -/
def arrRetained (a : Arr) : Arr :=
  let mhes : List Mhe := (a.mhes.map fun m =>
    { m with reads := if m.kind = .memSide then m.reads.filter (fun r => promised r.op) else [], got := 0, bad := 0 }).filter fun m =>
      m.kind != .bypass && (m.kind != .memSide || !m.reads.isEmpty)
  let merges : List Merge := a.merges.map fun m => { m with cmds := [] }
  { a with
    lasts := SMap.mapVals {} (fun _ l => if l.cond = 3 then { l with cond := 2 } else l) a.lasts
    mhes := mhes, merges := merges, streams := [], runs := [], memRds := [], memWrs := [], memq := keptWrites a
    waiting := a.waiting.filter promised, deleting := [], presented := a.presented.filter promised, owed := [], fences := [] }

/-- The sequencer at IDLE, the banks as they were (R554). -/
def planReset (p : Plan) : Plan :=
  { banks := p.banks, active := p.active, shadowValid := p.shadowValid, digOut := p.digOut, stopReason := 6 }

/-- What a warm start or a re-entry leaves (R554). DEDUCED, notes/assumptions 24; the transmit credits of BLK demand beats are preset by R19
(DESIGN CHOICE, notes/assumptions 5). -/
def retainedState (s : State) (kind : Nat) : State :=
  let s := csrReset s
  let seals := (s.gen.seals.filter (·.freeze)).map fun w => { w with cmd := 0 }
  let drains : List Drain := s.gen.drains.map fun d => { d with cmd := 0 }
  { s with
    held := [], txq := [], credits := [(16, 32)]
    pw := { s.pw with pstate := Ps.starting, ready := false, startKind := kind, startStep := 4, startAt := s.now, coreDown := false,
                      arrStopped := false, quiesced := false, wrstHeld := false, flowEntered := false, planLock := false }
    hd := { s.hd with mode := if s.pw.clkAon then 0 else 2 }
    arr := arrRetained s.arr
    coh := { s.coh with biasCache := [], biasUpset := [], biasBusy := false, biasBad := [], flips := [], pushes := [] }
    gen := { s.gen with seals := seals, drains := drains, freezeQ := []
                        ctxs := SMap.mapVals {} (fun _ (x : Ctx) => { x with resuming := false }) s.gen.ctxs }
    rg := { s.rg with
      rings := SMap.mapVals {} (fun _ (r : Ring) => { parked := r.parked }) s.rg.rings
      evs := SMap.mapVals {} (fun _ (e : EvRing) => { dropped := e.dropped }) s.rg.evs
      irqs := SMap.mapVals {} (fun _ (q : Irq) => { q with pending := false }) s.rg.irqs
      rrLow := 3, rrHigh := 63, cmds := [], hstWrs := [], began := false, patched := false, patchTable := [] }
    qs := { s.qs with credit := [], evs := [], lfsr := 1, traces := [], written := 0, traceDrop := 0, eCls := [], eCtx := [], eStat := 0,
                      actCls := [], actCtx := [], win := [] }
    pl := planReset s.pl
    pr := { s.pr with sync := s.pr.sync.filter (fun e => promised e.2), resyncCmds := [] }
    hl := { s.hl with kernel := 0, kernelAt := 0, rerun := 0, rerunBad := 0, kernelAc := [], packs := [], stress := 0, rState := 0, rReason := 0, rStep := 0, rCmds := [],
                      noDrain := false, written := 0, lost := [] } }

/-- The logic reset; the link goes DOWN and the pair SOLO where it was up (R554, R383). DEDUCED, notes/assumptions 24. -/
def logicReset (s : State) (kind : Nat) : State :=
  let s := retainedState s kind
  if s.tt.link = 0 then s else linkDown s 4 s.tt.downReason

/-! ## Loss of the arrays' contents (R459, R561) -/

/-- The stores as step 6 of R551 fills them. Buffers of the array island are emptied; a set stays cautious until RST_N (R453). -/
def fillStores (s : State) : State :=
  let pinned := fun (l : Line) => aKind (lastAt s l.last).attr == 2 && l.st == .fallow && (lastAt s l.last).cond == 2
  let windows : List Window := s.ari.windows.map fun w => { w with lost := true }
  { s with
    arr := { s.arr with lines := s.arr.lines.filter (fun e => pinned e.2), mhes := [], merges := [], evicts := [], opens := [],
                        memq := [], memWrs := [], waiting := [], presented := [] }
    coh := { s.coh with sf := [], failing := [], snoops := [], biasCache := [], biasUpset := [] }
    ari := { sheaves := [], windows := windows }
    gen := { s.gen with pendingRc := [], bufs := [] }
    pr := { s.pr with mirrors := [], sync := [], lagged := [] }
    pl := { s.pl with banks := [{}, {}], shadowValid := false, wbuf := [] }
    hl := { s.hl with pos := 0, copies := [] }
    pw := { s.pw with arrDown := false } }

/-- Every defined last but a THROUGH last FAILED, every window lost (R192, R447, R561). -/
def lostArrays (s : State) : State :=
  let s : State := { s with coh := { s.coh with sf := [], snoops := [], failing := [] } }
  let s := s.ari.windows.foldl (fun s w => windowLost s w w.first 13) s
  let lasts := s.arr.lasts.filter fun e => e.1 != 1023 && e.2.cond != 0 && aKind e.2.attr != 1
  fillStores (lasts.foldl (fun s e =>
    lastFail s e.1 { unit := 0, last := e.1, ctx := aCtx e.2.attr, detector := 13 }) s)

/-! ## The end of a start (R268, R507, R551, R552) -/

/-- The receive credits of R268 and of BLK demand writes (R19) returned; where R19 and R554 differ on the 32 of BLK, DESIGN CHOICE,
notes/assumptions 5. -/
def startCredits : List Out :=
  let row := fun (p : Port) (ns : List Nat) => (ns.zipIdx.map fun x => List.replicate x.1 (Out.credit p x.2)).flatten
  row .ctl [16, 16, 0, 64, 16] ++ row .hst [32, 32, 8, 64, 8] ++ List.replicate 32 (Out.credit .blk 0)

/-- The actions a warm start or a re-entry takes in place of the fill (R552). -/
def reissue (s : State) : State :=
  let s := s.arr.mhes.foldl (fun s m => memRead s (.fill m.line) (m.line * 512) 4 m.crit m.qos) s
  let snoops : List Snoop := s.coh.snoops.map fun x => { x with rsp := none, wb := 0, issued := s.now }
  let s : State := { s with coh := { s.coh with snoops := snoops } }
  let s := snoops.foldl (fun s x =>
    sendMsg s .hst { cls := 2, opcode := if x.data then 1 else 0, qos := x.qos, addr := x.host * 64, size := 64 * x.count - 1 }) s
  let drains : List Drain := s.gen.drains.map fun d => { d with todo := walkOrder s d.ctx d.gen.toNat }
  { s with gen := { s.gen with drains := drains } }

/-- Requests for retirement that the ledger still backs, after a cold start (R507): the ways its repair map disables, a permanent kernel failure, a
way disable entered as not completed in its time. Reasons 4 and 5 wait for a new sample. -/
def raiseAgain (s : State) : State :=
  let hist := fun (p : LedEnt → Bool) => (s.hl.histRing.any fun e => p e.2) || s.hl.ledWait.any p
  let s := if waysDisabled s ≥ 5 then raiseRetire s 1 1 else s
  let s := if (List.range 16).any fun b => (usableWays s b).isEmpty then raiseRetire s 2 2 else s
  let s := if hist fun e => e.kind == 4 && e.history == 2 then raiseRetire s 3 3 else s
  if hist fun e => e.kind == 8 && e.subject == 6 then raiseRetire s 6 6 else s

/-- SLICE_READY rises: step 7 of R551; a rail that feeds the arrays again is present (R49). -/
def startEnd (s : State) : State :=
  let cold := s.pw.startKind = 0
  let gone := s.pw.arrDown && !cold
  let s := { s with pw := { s.pw with arrDown := false, ready := true, pstate := Ps.serving, bakPresent := s.pw.bakPresent || s.pw.onBak
                                      startNs := min ((s.now - s.pw.startAt) / 2) (2 ^ 32 - 1) } }
  let s := if gone then lostArrays s else s
  let s := if cold then s else reissue s
  let s := linkResume { s with out := s.out ++ startCredits }
  let s := resumeRings s
  advance (if cold then raiseAgain s else s)

/-- START_COMPLETE (R551, R552). -/
def execStartComplete (s : State) : Host.Outcome State Fault Refusal :=
  .next (if s.pw.pstate = Ps.starting ∧ s.pw.startStep = 6 ∧ !s.pw.flowStop ∧ !s.pw.coreDown ∧ !s.pw.arrStopped then startEnd s else s)

/-! ## Warm reset (R60, R555, R556) -/

/-- WRST_N takes effect: WARM_QUIESCE begins (R555). -/
def quiesceStart (s : State) : State :=
  let s := { s with pw := { s.pw with ready := false, pstate := Ps.quiesce, wrstHeld := false } }
  let s := planAbort s 6
  let s := s.arr.opens.foldl (fun s o => closeLine s o.line) s
  let wrs := s.arr.memq.filter fun q => match q with
    | .wr _ _ _ => true
    | .rd _ => false
  advance { s with arr := { s.arr with memq := wrs } }

/-- The controller restarted alone (R554, R556): it runs the unpatched ROM, and its patch table and test packs are gone. -/
def restartController (s : State) : State :=
  { s with rg := { s.rg with began := false, patched := false, patchTable := [] }, hl := { s.hl with packs := [] } }

/-- WRST_N takes effect (R555, R556). -/
def warmReset (s : State) : State :=
  if s.hd.fenced then restartController s
  else if s.pw.pstate = Ps.serving then quiesceStart s
  else s

/-- WRST_N_ASSERT: held off while FLOW_STOP_N is effective (R60). -/
def execWrstNAssert (s : State) : Host.Outcome State Fault Refusal :=
  .next (if !controlRuns s then s
    else if s.pw.flowStop then { s with pw := { s.pw with wrstHeld := true } }
    else warmReset s)

/-- Nothing is owed to the slice from outside, and nothing issued is unfinished (step 4 of R555). -/
def quiet (s : State) : Bool :=
  s.coh.snoops.isEmpty && s.arr.memWrs.isEmpty && s.rg.hstWrs.isEmpty && s.pl.st == 0 && s.arr.memq.all fun q => match q with
    | .wr _ _ _ => false
    | .rd _ => true

/-- QUIESCE_DONE (R552, R555). -/
def execQuiesceDone (s : State) : Host.Outcome State Fault Refusal :=
  .next (if s.pw.pstate = Ps.quiesce ∧ !s.pw.flowStop ∧ quiet s then startGo (logicReset s 1) else s)

/-! ## Safe retention (R55 to R60, R557 to R559, R562) -/

/-- Commands not complete end with ST_RETENTION, but for NOP and LAST.READ (R421); the seals of a freeze and of a retirement drain stay
(R507). -/
def cmdsRetained (s : State) : State :=
  let gone := fun (c : Cmd) => !c.done && c.code != 0x000 && c.code != 0x012
  let s := (s.rg.cmds.filter gone).foldl (fun s c => cmdEnd s c.n St.retention 0 0) s
  let seals := (s.gen.seals.filter fun w => w.freeze || w.cmd == 0).map fun w => { w with cmd := 0 }
  { s with
    arr := { s.arr with deleting := []
                        lasts := SMap.mapVals {} (fun _ l => if l.cond = 3 then { l with cond := 2 } else l) s.arr.lasts }
    gen := { s.gen with seals := seals
                        ctxs := SMap.mapVals {} (fun _ (x : Ctx) =>
                          if x.resuming then { x with st := 1, stall := false, resuming := false } else x) s.gen.ctxs }
    hl := { s.hl with stress := 0, rCmds := [] } }

/-- The entry steps of R557. DEDUCED, notes/assumptions 25. -/
def flowEnter (s : State) : State :=
  let s := cmdsRetained { s with pw := { s.pw with ready := false, flowEntered := true } }
  let s := postEvent s 5 St.flowStop 0 1 0
  let s := planAbort s 6
  let s := if s.tt.link = 0 ∨ s.tt.link = 4 then s else linkDown s 4 s.tt.downReason
  advance s

/-- FLOW_STOP_EFFECTIVE (R55, R557, R562). -/
def flowStopEffective (s : State) : State :=
  let s := { s with pw := { s.pw with flowStop := true, flowAt := s.now } }
  if s.pw.pstate = Ps.serving ∨ s.pw.pstate = Ps.quiesce then flowEnter s else s

/-- FLOW_STOP_EFFECTIVE. -/
def execFlowStopEffective (s : State) : Host.Outcome State Fault Refusal :=
  .next (if s.pw.clkAon && !s.pw.flowStop then flowStopEffective s else s)

/-- RETENTION_ENTRY_LIMIT (R56, R557): what the limit cuts short is held in place. -/
def execRetentionEntryLimit (s : State) : Host.Outcome State Fault Refusal :=
  .next (if s.pw.flowStop ∧ (s.pw.pstate = Ps.serving ∨ s.pw.pstate = Ps.quiesce) then
    { s with pw := { s.pw with quiesced := s.pw.pstate == Ps.quiesce, pstate := Ps.retention, ready := false } } else s)

/-- The exit of R559, into the state the retention came from or WARM_QUIESCE (R548, R562). DEDUCED, notes/assumptions 5, 25. Plan lock is
taken to hold while the islands' clocks are gated, and to hold after the exit (DESIGN CHOICE, notes/assumptions 25). -/
def flowExit (s : State) : State :=
  let q := s.pw.quiesced || s.pw.pstate == Ps.quiesce
  let s := { s with pw := { s.pw with
    pstate := if q then Ps.quiesce else Ps.serving, quiesced := false, flowEntered := false, ready := !q && !s.pw.wrstHeld,
    planLock := s.pw.planLock || s.pw.clocks >>> 2 == 7 } }
  let s := irqWake (txDrain (postEvent s 5 St.flowStop 0 0 (min ((s.now - s.pw.flowAt) / 2000) (2 ^ 32 - 1))))
  if q then advance (deliver { s with pw := { s.pw with wrstHeld := false } })
  else if s.pw.wrstHeld then advance (deliver (quiesceStart s))
  else advance (resumeRings (deliver (linkResume s)))

/-- FLOW_STOP_RELEASE (R57, R559, R562): a WRST_N held off takes effect if it is still low (R60). -/
def flowStopRelease (s : State) (wrstLow : Bool) : State :=
  let s := { s with pw := { s.pw with flowStop := false, wrstHeld := s.pw.wrstHeld && wrstLow } }
  if s.pw.pstate = Ps.starting then startGo { s with pw := { s.pw with wrstHeld := false } }
  else if s.pw.pstate = Ps.serving ∨ s.pw.pstate = Ps.retention ∨ s.pw.pstate = Ps.quiesce then flowExit s
  else if s.hd.fenced then
    deliver { (if s.pw.wrstHeld then restartController s else s) with pw := { s.pw with wrstHeld := false } }
  else s

/-- FLOW_STOP_RELEASE. -/
def execFlowStopRelease (s : State) (wrstLow : Bool := false) : Host.Outcome State Fault Refusal :=
  .next (if s.pw.clkAon && s.pw.flowStop then flowStopRelease s wrstLow else s)

/-! ## Clocks and plan lock (R30 to R35, R451) -/

/-- The clocks without one of them. -/
def clocksWithout (v : BitVec 5) (clk : Nat) : BitVec 5 := v &&& ~~~BitVec.ofNat 5 (2 ^ clk)

/-- A clock declared absent (R34, R451): bit 4 CLK_FAB, 3 CLK_ARR, 2 CLK_ARI, 1 CLK_MEM, 0 REFCLK_TTH, as DRF_CLK_STATUS. DEDUCED, notes/assumptions 25. -/
def clockAbsent (s : State) (clk : Nat) : State :=
  let s := { s with pw := { s.pw with clocks := clocksWithout s.pw.clocks clk, planLock := s.pw.planLock && decide (clk < 2) } }
  let s := postError s St.clockLost { unit := 14, action := if clk = 0 then 0 else 9, detector := 10, detail := s.pw.clocks.toNat }
  if clk ≠ 0 then advance (fence s 5)
  else if s.tt.link = 0 ∨ s.tt.link = 4 then s
  else linkDown s 4 s.tt.downReason

/-- CLOCK_ABSENT. -/
def execClockAbsent (clk : Nat) (s : State) : Host.Outcome State Fault Refusal :=
  .next (if alive s && decide (clk < 5) && s.pw.clocks.getLsbD clk then clockAbsent s clk else s)

/-- CLOCK_PRESENT (R35, R551): a start that waits for it goes on. -/
def execClockPresent (clk : Nat) (s : State) : Host.Outcome State Fault Refusal :=
  .next (if clk < 5 ∧ controlRuns s then
    startGo { s with pw := { s.pw with clocks := s.pw.clocks ||| BitVec.ofNat 5 (2 ^ clk) } } else s)

/-- PLAN_LOCK_LOST (R32, R227). -/
def execPlanLockLost (s : State) : Host.Outcome State Fault Refusal :=
  .next (if s.pw.planLock then
    { s with pw := { s.pw with planLock := false, lockLost := true }
             pl := { s.pl with lockGone := s.pl.lockGone || s.pl.st == 2 || s.pl.st == 4 } }
    else s)

/-- LOCK_ALIGNMENT_DONE (R31, R33): before the next pass begins. -/
def execLockAlignmentDone (s : State) : Host.Outcome State Fault Refusal :=
  .next (if alive s && !s.pw.coreDown && s.pw.clocks >>> 2 == 7 && s.pl.st != 2 && s.pl.st != 4 then
    { s with pw := { s.pw with planLock := true }, pl := { s.pl with fc := max s.pl.fc (s.now + 1) } } else s)

/-! ## The array supply (R42 to R49) -/

/-- VDD_ARR_DROOP (R42, R45, R48): no switch where VDD_BAK is below 0.55 V. -/
def vddArrDroop (s : State) (bakHolds : Bool) : State :=
  let s := { s with pw := { s.pw with bakPresent := bakHolds } }
  if bakHolds && !s.pw.onBak then chargeHold { s with pw := { s.pw with onBak := true, switched := true } } else s

/-- VDD_ARR_DROOP. -/
def execVddArrDroop (bakHolds : Bool) (s : State) : Host.Outcome State Fault Refusal :=
  .next (if alive s then vddArrDroop s bakHolds else s)

/-- SWITCH_TO_VDD_ARR (R45, R47). -/
def execSwitchToVddArr (s : State) : Host.Outcome State Fault Refusal :=
  .next (if s.pw.onBak then chargeHold { s with pw := { s.pw with onBak := false, arrStopped := false } } else s)

/-- BACKUP_HOLD entered from a state that serves, retains or quiesces (R548). DEDUCED, notes/assumptions 25. -/
def backupHold (s : State) : State :=
  if s.pw.pstate = Ps.serving ∨ s.pw.pstate = Ps.retention ∨ s.pw.pstate = Ps.quiesce then
    { s with pw := { s.pw with prior := s.pw.pstate, pstate := Ps.backupHold } } else s

/-- ARRAY_ACCESS_STOP (R46). -/
def execArrayAccessStop (s : State) : Host.Outcome State Fault Refusal :=
  .next (if s.pw.onBak then backupHold { s with pw := { s.pw with arrStopped := true } } else s)

/-- ARRAY_RAIL_LOSS (R48, R560): the arrays lose what they hold; a cold start has not filled them. -/
def execArrayRailLoss (s : State) : Host.Outcome State Fault Refusal :=
  .next (if 2 ≤ s.pw.pstate ∨ (s.pw.pstate = Ps.starting ∧ s.pw.startKind ≠ 0) then
    backupHold { s with pw := { s.pw with arrLost := true, arrDown := true, bakPresent := s.pw.bakPresent && !s.pw.onBak } } else s)

/-- VDD_CORE_LOSS (R31, R558): every island but the control island is held in reset, the crossings lose their alignment, and the pair goes
SOLO with the link (R383). -/
def vddCoreLoss (s : State) : State :=
  let s := if s.tt.link = 0 then s else goSolo (ttDrop { s with tt := { s.tt with link := 4, width := 0, rxWidth := 0 } })
  backupHold { s with
    held := []
    pw := { s.pw with coreLost := true, coreDown := true, ready := false, planLock := false
                      startStep := if s.pw.pstate = Ps.starting then 4 else s.pw.startStep } }

/-- VDD_CORE_LOSS. -/
def execVddCoreLoss (s : State) : Host.Outcome State Fault Refusal := .next (if alive s then vddCoreLoss s else s)

/-- The slice goes on in the state BACKUP_HOLD came from (R560); a WRST_N whose FLOW_STOP_N was released meanwhile takes effect (R60). -/
def holdReturn (s : State) : State :=
  let p := s.pw.prior
  let s := { s with pw := { s.pw with pstate := p, ready := s.pw.ready && p == Ps.serving } }
  if s.pw.flowStop then (if p = Ps.retention then s else if s.pw.flowEntered then advance s else flowEnter s)
  else if s.pw.flowEntered then flowExit s
  else
    let s := irqWake (txDrain s)
    if s.pw.wrstHeld then
      (if p = Ps.serving then advance (deliver (quiesceStart s)) else advance (deliver { s with pw := { s.pw with wrstHeld := false } }))
    else
      let s := deliver s
      advance (if p = Ps.serving then resumeRings s else s)

/-- BACKUP_HOLD_RETURN (R46, R47, R560). -/
def execBackupHoldReturn (s : State) : Host.Outcome State Fault Refusal :=
  .next (let s := { s with pw := { s.pw with arrStopped := false } }
    if s.pw.pstate = Ps.backupHold ∧ !s.pw.arrDown ∧ !s.pw.coreDown then holdReturn s
    else if s.hd.fenced then deliver s
    else s)

/-- RE_ENTRY (R48, R49, R548, R552, R561, R562): the rail that feeds the arrays is back. -/
def reEntry (s : State) : State :=
  let gone := s.pw.arrDown
  let s := logicReset { s with pw := { s.pw with bakPresent := s.pw.bakPresent || s.pw.onBak } } 2
  startGo (if gone then lostArrays s else s)

/-- RE_ENTRY. -/
def execReEntry (s : State) : Host.Outcome State Fault Refusal :=
  .next (
    if s.pw.pstate = Ps.backupHold then
      (if (s.pw.arrDown || s.pw.coreDown) && !(s.pw.flowStop && (s.pw.prior == Ps.retention || s.pw.prior == Ps.quiesce)) then reEntry s
       else s)
    else if s.pw.pstate = Ps.starting ∧ s.pw.coreDown then startGo { s with pw := { s.pw with coreDown := false } }
    else s)

/-! ## The ring stop's supply and clock (R50) -/

/-- RING_STOP_PASSIVE (R50): without VDD_AON everything but the ledger and the fuses is lost. -/
def execRingStopPassive (supply : Bool) (s : State) : Host.Outcome State Fault Refusal :=
  .next (let s := { s with pw := { s.pw with clkAon := false }, hd := { s.hd with mode := 2 } }
    if supply then coldState s else s)

/-- CLK_AON_RETURN (R50). -/
def execClkAonReturn (s : State) : Host.Outcome State Fault Refusal :=
  .next (if s.pw.clkAon then s
    else
      let quietStop := s.hd.fenced || s.pw.pstate == Ps.reset || s.pw.fusedOff
      let s := { s with pw := { s.pw with clkAon := true }, hd := { s.hd with mode := if quietStop then 1 else 0 } }
      if quietStop then s else sendHeld s)

end Sys2Proof.Machine
end

