-- ==== Sys2Proof/Machine/TestAccess.lean ====
section
/-! DEFINITION. The test access port and the wrapper: what they accept, MBIST and the wire tests (spec/16 R578; spec/18 R604 to
R607). -/

namespace Sys2Proof.Machine

open Sys2Proof

/-- debug_lock: set by software, or by its fuse. -/
def debugLocked (s : State) : Bool := csrBit s 0xF10 30 || s.pw.debugFuse

/-- An instruction the TAP or the wrapper accepts under debug_lock. Of the TAP: 0 BYPASS, 1 IDCODE, 2 the status instrument, 3 the IEEE 1838
interconnect test, 4 MBIST, 5 MBIST hold, 6 ROM check, 7 LBIST, 8 kernel run, 9 lane loopback; of the wrapper: 0 WS_BYPASS, 1 port
EXTEST (the numbering is DESIGN CHOICE, notes/assumptions 13). -/
def tapAllowed (s : State) (wrapper : Bool) (ir : Nat) : Bool :=
  ir == 0 || (!wrapper && (ir == 1 || ir == 2 || (ir == 3 && s.tt.link == 0)))

/-! ## MBIST (R605) -/

/-- A failing row gets the lowest free spare row of its bank, where it has none yet and the bank has one left (R484). -/
def spareAssign (s : State) (row : Nat × Nat × Nat) : State :=
  let mine := s.hl.spares.filter fun x => x.1 == row.1
  match (List.range 8).find? fun n => !mine.any fun x => x.2.2.2 == n with
  | none => s
  | some n =>
    if mine.any fun x => x.2.1 == row.2.1 && x.2.2.1 == row.2.2 then s
    else { s with hl := { s.hl with spares := s.hl.spares ++ [(row.1, row.2.1, row.2.2, n)] } }

/-- MBIST ends: the failing rows recorded by bank, spare rows assigned to them, and the repair map written (R480, R605). -/
def mbistEnd (s : State) (rows : List (Nat × Nat × Nat)) : State :=
  let rows := rows.filter fun r => decide (r.1 < 16 ∧ r.2.1 < 16 ∧ r.2.2 < 128)
  let t := rows.foldl spareAssign { s with sec := { s.sec with mbist := (s.sec.mbist ++ rows).eraseDups } }
  if t.hl.spares.length = s.hl.spares.length then t else mapSave t

/-! ## Wire tests (R606, R607) -/

/-- Walking one and walking zero over `n` wires. -/
def walking (n : Nat) : List Nat :=
  let all := 2 ^ n - 1
  ((List.range n).map fun i => 2 ^ i) ++ (List.range n).map fun i => all - 2 ^ i

/-- Checkerboard over `n` wires: every other wire one, from wire 0. -/
def checkerboard (n : Nat) : Nat := ((List.range n).map fun i => if i % 2 = 0 then 2 ^ i else 0).foldl (· + ·) 0

/-- The vectors of port EXTEST in their order (R606). -/
def testVectors (n : Nat) : List Nat := walking n ++ [checkerboard n, 2 ^ n - 1 - checkerboard n]

/-- The data wires of a port in one direction with their parity bits, and for HDR valid and start of frame too (R14, R15). DEDUCED,
notes/assumptions 13. -/
def portWires : Port → Nat
  | .blk => 2304
  | .ctl => 144
  | .syn => 36
  | .hst => 576
  | .mem => 1152
  | .hdr => 38
  | .tth => 0

/-- The wires of `n` on which a captured vector differs from the one driven. -/
def badOnes (n : Nat) (driven captured : List Nat) : List Nat :=
  (List.range n).filter fun i => driven.zipIdx.any fun x => x.1.testBit i != (captured.getD x.2 0).testBit i

/-- Port EXTEST of one port: its vectors driven, and the wires that fail recorded (R606). -/
def portExtest (s : State) (p : Port) (captured : List Nat) : State :=
  let n := portWires p
  if n = 0 then s
  else
    let vs := testVectors n
    drive { s with sec := { s.sec with
      badWires := (s.sec.badWires.filter fun w => w.1 != p) ++ (badOnes n vs captured).map fun i => (p, i) } } (.test p vs)

/-- A vector over the 16 lane pairs as the wiring in reverse brings it (R363). -/
def laneReversed (v : Nat) : Nat :=
  ((List.range 16).map fun i => if v.testBit (8 * (i / 8) + 7 - i % 8) then 2 ^ i else 0).foldl (· + ·) 0

/-- Die-to-die EXTEST: walking one and walking zero over the 16 lane pairs; a pair that fails both wirings of R363 is recorded (R607). -/
def laneExtest (s : State) (captured : List Nat) : State :=
  let vs := walking 16
  let bad := badOnes 16 vs captured
  let bad := if badOnes 16 (vs.map laneReversed) captured = [] then [] else bad
  drive { s with sec := { s.sec with badPairs := (bad.map fun i => 2 ^ i).foldl (· + ·) 0 } } (.test .tth vs)

/-! ## TAP_INSTRUCTION (R578, R604) -/

/-- The test function that an accepted instruction runs, with what it finds. -/
def testFunction (s : State) (wrapper : Bool) (ir : Nat) (run : TestRun) : State :=
  match run with
  | .none => s
  | .mbist rows => if !wrapper && (ir == 4 || ir == 5) then mbistEnd s rows else s
  | .extest ports => if wrapper && ir == 1 then ports.foldl (fun s p => portExtest s p.1 p.2) s else s
  | .dieExtest captured => if !wrapper && ir == 3 && s.tt.link == 0 then laneExtest s captured else s

/-- TAP_INSTRUCTION: selected and run, or BYPASS selected in its place and counted (R578). -/
def tapInstruction (s : State) (wrapper : Bool) (ir : Nat) (run : TestRun) : State :=
  let ok := !debugLocked s || tapAllowed s wrapper ir
  let sel := if ok then ir else 0
  let s := { s with sec := if wrapper then { s.sec with wrapIr := sel } else { s.sec with tapIr := sel } }
  if ok then testFunction s wrapper ir run
  else { s with sec := { s.sec with debugDenied := satInc 8 s.sec.debugDenied } }

/-- TAP_INSTRUCTION. -/
def execTapInstruction (wrapper : Bool) (ir : Nat) (s : State) (run : TestRun := .none) : Host.Outcome State Fault Refusal :=
  .next (tapInstruction s wrapper ir run)

end Sys2Proof.Machine
end

