-- ==== Sys2Proof/Machine/Dispatch.lean ====
section
/-! DEFINITION. The one place that gives each command its meaning: an arm per constructor, each a direct call. -/

namespace Sys2Proof.Machine

open Sys2Proof

/-- The effect of a command on everything but the queue. -/
def exec (i : Instr) (s : State) : Host.Outcome State Fault Refusal :=
  match i with
  | .rstNAssert => Sys2Proof.Machine.execRstNAssert s
  | .rstNRelease chip die sliceId => Sys2Proof.Machine.execRstNRelease chip die sliceId s
  | .startComplete => Sys2Proof.Machine.execStartComplete s
  | .wrstNAssert => Sys2Proof.Machine.execWrstNAssert s
  | .quiesceDone => Sys2Proof.Machine.execQuiesceDone s
  | .flowStopEffective => Sys2Proof.Machine.execFlowStopEffective s
  | .flowStopRelease wrstLow => Sys2Proof.Machine.execFlowStopRelease s wrstLow
  | .ppsEdge => Sys2Proof.Machine.execPpsEdge s
  | .ppsLost => Sys2Proof.Machine.execPpsLost s
  | .clockAbsent clk => Sys2Proof.Machine.execClockAbsent clk s
  | .planLockLost => Sys2Proof.Machine.execPlanLockLost s
  | .lockAlignmentDone => Sys2Proof.Machine.execLockAlignmentDone s
  | .vddArrDroop bakHolds => Sys2Proof.Machine.execVddArrDroop bakHolds s
  | .switchToVddArr => Sys2Proof.Machine.execSwitchToVddArr s
  | .arrayAccessStop => Sys2Proof.Machine.execArrayAccessStop s
  | .arrayRailLoss => Sys2Proof.Machine.execArrayRailLoss s
  | .vddCoreLoss => Sys2Proof.Machine.execVddCoreLoss s
  | .backupHoldReturn => Sys2Proof.Machine.execBackupHoldReturn s
  | .reEntry => Sys2Proof.Machine.execReEntry s
  | .ringStopPassive supply => Sys2Proof.Machine.execRingStopPassive supply s
  | .rd m => Sys2Proof.Machine.execRd m s
  | .rdBlk m => Sys2Proof.Machine.execRdBlk m s
  | .wr m => Sys2Proof.Machine.execWr m s
  | .wrMask m => Sys2Proof.Machine.execWrMask m s
  | .blkDemandWr m => Sys2Proof.Machine.execBlkDemandWr m s
  | .blkAtl m => Sys2Proof.Machine.execBlkAtl m s
  | .atomic m => Sys2Proof.Machine.execAtomic m s
  | .hostDrop m => Sys2Proof.Machine.execHostDrop m s
  | .biConflict m => Sys2Proof.Machine.execBiConflict m s
  | .fence m => Sys2Proof.Machine.execFence m s
  | .hintWr m => Sys2Proof.Machine.execHintWr m s
  | .hintAck m => Sys2Proof.Machine.execHintAck m s
  | .csrWr a => Sys2Proof.Machine.execCsrWr a s
  | .snpWb m => Sys2Proof.Machine.execSnpWb m s
  | .biRsp m => Sys2Proof.Machine.execBiRsp m s
  | .biTimeout host => Sys2Proof.Machine.execBiTimeout host s
  | .snpIn m => Sys2Proof.Machine.execSnpIn m s
  | .doorbellReading ring prod cplCons evtCons arrival => Sys2Proof.Machine.execDoorbellReading ring prod cplCons evtCons s arrival
  | .descriptorReadReturn ring idx status bytes arrival => Sys2Proof.Machine.execDescriptorReadReturn ring idx status bytes s arrival
  | .descReread ring => Sys2Proof.Machine.execDescReread ring s
  | .cmp m => Sys2Proof.Machine.execCmp m s
  | .cplPost ring idx => Sys2Proof.Machine.execCplPost ring idx s
  | .irqHoldoffExpiry vec => Sys2Proof.Machine.execIrqHoldoffExpiry vec s
  | .memReadReturn tag beat status parityBad bytes => Sys2Proof.Machine.execMemReadReturn tag beat status parityBad bytes s
  | .memReplay tag beat => Sys2Proof.Machine.execMemReplay tag beat s
  | .memWriteCompletion tag => Sys2Proof.Machine.execMemWriteCompletion tag s
  | .evictionWritebackAccepted tag => Sys2Proof.Machine.execEvictionWritebackAccepted tag s
  | .memPressureDeclared => Sys2Proof.Machine.execMemPressureDeclared s
  | .memPressureReleased => Sys2Proof.Machine.execMemPressureReleased s
  | .mergeEntryDrain => Sys2Proof.Machine.execMergeEntryDrain s
  | .atomicLineClose line => Sys2Proof.Machine.execAtomicLineClose line s
  | .synWord word src parityBad => Sys2Proof.Machine.execSynWord word src parityBad s
  | .scheduledWriteBeat src mask parityBad bytes => Sys2Proof.Machine.execScheduledWriteBeat src mask parityBad bytes s
  | .passStart => Sys2Proof.Machine.execPassStart s
  | .openCycle => Sys2Proof.Machine.execOpenCycle s
  | .quiet parityBad => Sys2Proof.Machine.execQuiet s parityBad
  | .arrToBlk => Sys2Proof.Machine.execArrToBlk s
  | .blkToArr => Sys2Proof.Machine.execBlkToArr s
  | .blkAdd => Sys2Proof.Machine.execBlkAdd s
  | .stageIn => Sys2Proof.Machine.execStageIn s
  | .stageOut => Sys2Proof.Machine.execStageOut s
  | .arrToArr => Sys2Proof.Machine.execArrToArr s
  | .arrScan => Sys2Proof.Machine.execArrScan s
  | .tthOut => Sys2Proof.Machine.execTthOut s
  | .synOut => Sys2Proof.Machine.execSynOut s
  | .kernel => Sys2Proof.Machine.execKernel s
  | .holdStart => Sys2Proof.Machine.execHoldStart s
  | .holdEnd => Sys2Proof.Machine.execHoldEnd s
  | .passEnd => Sys2Proof.Machine.execPassEnd s
  | .switchDone => Sys2Proof.Machine.execSwitchDone s
  | .stoppingDone => Sys2Proof.Machine.execStoppingDone s
  | .nop ring idx => Sys2Proof.Machine.execNop ring idx s
  | .lastDefine ring idx => Sys2Proof.Machine.execLastDefine ring idx s
  | .lastDelete ring idx => Sys2Proof.Machine.execLastDelete ring idx s
  | .lastRead ring idx => Sys2Proof.Machine.execLastRead ring idx s
  | .lastRestore ring idx input bad => Sys2Proof.Machine.execLastRestore ring idx input bad s
  | .rangePrefetch ring idx => Sys2Proof.Machine.execRangePrefetch ring idx s
  | .rangeFlush ring idx => Sys2Proof.Machine.execRangeFlush ring idx s
  | .rangeInvalidate ring idx => Sys2Proof.Machine.execRangeInvalidate ring idx s
  | .rangeDiscard ring idx => Sys2Proof.Machine.execRangeDiscard ring idx s
  | .genOpen ring idx => Sys2Proof.Machine.execGenOpen ring idx s
  | .genClose ring idx => Sys2Proof.Machine.execGenClose ring idx s
  | .genSeal => Sys2Proof.Machine.execGenSeal s
  | .drainComplete ctx gen => Sys2Proof.Machine.execDrainComplete ctx gen s
  | .logAdvance ring idx => Sys2Proof.Machine.execLogAdvance ring idx s
  | .ctxFreeze ring idx => Sys2Proof.Machine.execCtxFreeze ring idx s
  | .ctxResume ring idx input bad => Sys2Proof.Machine.execCtxResume ring idx input bad s
  | .ctxRelease ring idx => Sys2Proof.Machine.execCtxRelease ring idx s
  | .ctxSeed ring idx => Sys2Proof.Machine.execCtxSeed ring idx s
  | .planLoad ring idx input bad => Sys2Proof.Machine.execPlanLoad ring idx input bad s
  | .planRun ring idx => Sys2Proof.Machine.execPlanRun ring idx s
  | .planStop ring idx => Sys2Proof.Machine.execPlanStop ring idx s
  | .sheafBind ring idx => Sys2Proof.Machine.execSheafBind ring idx s
  | .sheafRead ring idx => Sys2Proof.Machine.execSheafRead ring idx s
  | .sheafRelease ring idx => Sys2Proof.Machine.execSheafRelease ring idx s
  | .digestRange ring idx => Sys2Proof.Machine.execDigestRange ring idx s
  | .biasFlip ring idx => Sys2Proof.Machine.execBiasFlip ring idx s
  | .pairResync ring idx => Sys2Proof.Machine.execPairResync ring idx s
  | .pairTakeover ring idx defs => Sys2Proof.Machine.execPairTakeover ring idx defs s
  | .testRun ring idx => Sys2Proof.Machine.execTestRun ring idx s
  | .stressSetTimeout => Sys2Proof.Machine.execStressSetTimeout s
  | .testLoadpack ring idx input bad => Sys2Proof.Machine.execTestLoadpack ring idx input bad s
  | .patchLoad ring idx input bad => Sys2Proof.Machine.execPatchLoad ring idx input bad s
  | .sliceRetire ring idx => Sys2Proof.Machine.execSliceRetire ring idx s
  | .retireHoldExpiry => Sys2Proof.Machine.execRetireHoldExpiry s
  | .biasInit a => Sys2Proof.Machine.execBiasInit a s
  | .biasInitDone => Sys2Proof.Machine.execBiasInitDone s
  | .biasEnable a => Sys2Proof.Machine.execBiasEnable a s
  | .pinWaysWrite a => Sys2Proof.Machine.execPinWaysWrite a s
  | .pinWaysReserved => Sys2Proof.Machine.execPinWaysReserved s
  | .mirrorWaysWrite a => Sys2Proof.Machine.execMirrorWaysWrite a s
  | .stripeShiftWrite a => Sys2Proof.Machine.execStripeShiftWrite a s
  | .ringEnable ring a => Sys2Proof.Machine.execRingEnable ring a s
  | .ringDisable ring a => Sys2Proof.Machine.execRingDisable ring a s
  | .evringEnable ring a => Sys2Proof.Machine.execEvringEnable ring a s
  | .logRingEnable ring a => Sys2Proof.Machine.execLogRingEnable ring a s
  | .linkEn a => Sys2Proof.Machine.execLinkEn a s
  | .retrain a => Sys2Proof.Machine.execRetrain a s
  | .ppsLoad a => Sys2Proof.Machine.execPpsLoad a s
  | .pairKeyWrite k a => Sys2Proof.Machine.execPairKeyWrite k a s
  | .ledgerDataRead a => Sys2Proof.Machine.execLedgerDataRead a s
  | .evtCounterWrite k a => Sys2Proof.Machine.execEvtCounterWrite k a s
  | .secCtlWrite a => Sys2Proof.Machine.execSecCtlWrite a s
  | .hedgeWrite a => Sys2Proof.Machine.execHedgeWrite a s
  | .qosClassWrite cls a => Sys2Proof.Machine.execQosClassWrite cls a s
  | .flipmaskArm a => Sys2Proof.Machine.execFlipmaskArm a s
  | .energyGainWrite a => Sys2Proof.Machine.execEnergyGainWrite a s
  | .traceEnable a => Sys2Proof.Machine.execTraceEnable a s
  | .fenceFrame f => Sys2Proof.Machine.execFenceFrame f s
  | .fenceWalkDone => Sys2Proof.Machine.execFenceWalkDone s
  | .watchdogTimeout => Sys2Proof.Machine.execWatchdogTimeout s
  | .fabricGuardTimeout => Sys2Proof.Machine.execFabricGuardTimeout s
  | .hdrAck f => Sys2Proof.Machine.execHdrAck f s
  | .frameResend seq => Sys2Proof.Machine.execFrameResend seq s
  | .heartbeat => Sys2Proof.Machine.execHeartbeat s
  | .oppointSet f => Sys2Proof.Machine.execOppointSet f s
  | .stressSet f => Sys2Proof.Machine.execStressSet f s
  | .retireGo f => Sys2Proof.Machine.execRetireGo f s
  | .regReading f => Sys2Proof.Machine.execRegReading f s
  | .timeSeconds f => Sys2Proof.Machine.execTimeSeconds f s
  | .meteringWindowEnd => Sys2Proof.Machine.execMeteringWindowEnd s
  | .harrowVisit bad stuck upsets => Sys2Proof.Machine.execHarrowVisit bad stuck s upsets
  | .ageingSample pairs canary => Sys2Proof.Machine.execAgeingSample pairs canary s
  | .kernelRunDone kernel sig => Sys2Proof.Machine.execKernelRunDone kernel sig s
  | .spareRowCopyDone bank => Sys2Proof.Machine.execSpareRowCopyDone bank s
  | .wayDisableDone bank way => Sys2Proof.Machine.execWayDisableDone bank way s
  | .wayDisableTimeout bank way => Sys2Proof.Machine.execWayDisableTimeout bank way s
  | .flitReceived bytes => Sys2Proof.Machine.execFlitReceived bytes s
  | .laneLockLoss lane => Sys2Proof.Machine.execLaneLockLoss lane s
  | .trainingPhaseDone ok lanes => Sys2Proof.Machine.execTrainingPhaseDone ok lanes s
  | .negotiationFrame bytes => Sys2Proof.Machine.execNegotiationFrame bytes s
  | .retrainTimeout => Sys2Proof.Machine.execRetrainTimeout s
  | .linkDownRetry => Sys2Proof.Machine.execLinkDownRetry s
  | .syncWr t => Sys2Proof.Machine.execSyncWr t s
  | .syncAck t => Sys2Proof.Machine.execSyncAck t s
  | .lagRec t => Sys2Proof.Machine.execLagRec t s
  | .lagEnd t => Sys2Proof.Machine.execLagEnd t s
  | .lagAccept t => Sys2Proof.Machine.execLagAccept t s
  | .lagApplied t => Sys2Proof.Machine.execLagApplied t s
  | .dropMirror t => Sys2Proof.Machine.execDropMirror t s
  | .repairRd t => Sys2Proof.Machine.execRepairRd t s
  | .repairData t => Sys2Proof.Machine.execRepairData t s
  | .planData t => Sys2Proof.Machine.execPlanData t s
  | .resyncBegin t => Sys2Proof.Machine.execResyncBegin t s
  | .resyncDone t => Sys2Proof.Machine.execResyncDone t s
  | .creditReturn port cls => Sys2Proof.Machine.execCreditReturn port cls s
  | .clockPresent clk => Sys2Proof.Machine.execClockPresent clk s
  | .clkAonReturn => Sys2Proof.Machine.execClkAonReturn s
  | .retentionEntryLimit => Sys2Proof.Machine.execRetentionEntryLimit s
  | .tapInstruction wrapper ir run => Sys2Proof.Machine.execTapInstruction wrapper ir s run

end Sys2Proof.Machine
end

