-- ==== Sys2Proof/Machine/Tick.lean ====
section
/-! DEFINITION. What one cycle of clk_fab does with no command waiting: time, and the events that count states (spec/14 R529 to
R531, R541; DESIGN CHOICE, notes/assumptions 2). -/

namespace Sys2Proof.Machine

open Sys2Proof

/-- An operation on a paired last waits for a repair (R360). -/
def pairWaits (s : State) : Bool :=
  s.arr.waiting.any fun o => lineRepairing s (opLine o) && aPaired (lastAt s (lastOfLine s (opLine o))).attr

/-- An open cycle passes: one of an OPEN instance, a gap, a switch or a hold, or any while no plan runs (R221); idle where no request used it. -/
def openCounts (s : State) : State :=
  let s := ev s Ev.openCycle
  if s.pl.openUsed = 0 then ev s Ev.openIdle else s

/-- The open cycle that a request used is past. -/
def openPast (s : State) : State := { s with pl := { s.pl with openUsed := s.pl.openUsed - 1 } }

/-- The events that count the cycles a state lasts (R531). -/
def countStates (s : State) : State :=
  if s.pw.pstate ≠ 2 then s
  else
    let s := if mheUsed s ≥ 128 then ev s Ev.mheFull else s
    let s := if s.pl.st = 2 then ev s Ev.planRunning else s
    let s := if s.pl.openNow then openCounts s else s
    let s := if s.pl.openNow && s.pl.openUsed == 0 && (s.arr.presented.any fun o => overBudget s o.m.qos && hardClass s o.m.qos) &&
        s.arr.presented.all (fun o => overBudget s o.m.qos && hardClass s o.m.qos || !mayIssue s o) then ev s Ev.qosHardIdle else s
    let s := evN s Ev.biOutstanding s.coh.snoops.length
    if s.qs.pressure then ev s Ev.memPressure else s

/-- A request to a paired last that waits marks the present µs, in whatever state the slice is (R360). -/
def noteWaits (s : State) : State := if pairWaits s then { s with hl := { s.hl with unavailNow := true } } else s

/-- The end of a µs in which a mirrored region was unavailable: counted once (R360). DEDUCED, notes/assumptions 31. -/
def countMicro (s : State) : State :=
  if s.now % 2000 = 0 ∧ s.hl.unavailNow then
    ev { s with hl := { s.hl with unavail := s.hl.unavail + 1, unavailNow := false } } Ev.pairUnavailUs
  else s

/-- One fabric cycle; every fourth is an sc of the control island: the timestamp advances (R541) and a ledger entry that waits may be
written (R482). -/
def tick (s : State) : State :=
  let s := openPast (noteWaits (countStates s))
  let s := countMicro { s with now := s.now + 1 }
  if s.now % 4 = 0 && controlRuns s then
    ledPump { s with tm := scTime s.tm, hl := { s.hl with poweredSc := s.hl.poweredSc + 1 } }
  else s

end Sys2Proof.Machine
end

