-- ==== Sys2Proof/Safety.lean ====
section
/-! DEFINITION. What a safe run of the slice is, in the terms the statements use: the invariants of the state, a slice with nothing left
to go on with, and the conditions under which a command has its own effect. -/

namespace Sys2Proof.Machine

open Sys2Proof

/-- A step that neither faults nor refuses. -/
def Completes (s : State) : Prop := ∃ t, step s = .next t

/-! ## Invariants -/

/-- The sparse tables of the array, the lasts, the snoop filter and the setup registers are in canonical form. -/
def TablesWf (s : State) : Prop :=
  SMap.wf 0 s.csr = true ∧ SMap.wf {} s.arr.lines = true ∧ SMap.wf {} s.arr.lasts = true ∧ SMap.wf {} s.coh.sf = true

/-- How the power state, the fence, SLICE_READY and RST_N hang together (spec/15 R547, R548; spec/12 R473). -/
structure PowerInv (s : State) : Prop where
  /-- pstate is one of the seven of R547. -/
  range : s.pw.pstate ≤ 6
  /-- FENCED is the state of a fenced slice, and of no other. -/
  fenced : s.hd.fenced = true ↔ s.pw.pstate = 6
  /-- BACKUP_HOLD was entered from SERVING, RETENTION or WARM_QUIESCE. -/
  prior : s.pw.pstate = 4 → s.pw.prior = 2 ∨ s.pw.prior = 3 ∨ s.pw.prior = 5
  /-- SLICE_READY is high in SERVING and in a BACKUP_HOLD alone. -/
  ready : s.pw.ready = true → s.pw.pstate = 2 ∨ s.pw.pstate = 4
  /-- While RST_N is low the slice is in RESET. -/
  held : s.pw.rstN = false → s.pw.pstate = 0

/-! ## A slice with nothing left to go on with -/

/-- A command of a ring that has not started, or has ended and waits for its record. -/
def Cmd.rests (c : Cmd) : Bool :=
  (c.done || !c.started) && !(c.done && c.status == 0 && (leAt c.desc 0 8).testBit 17)

/-- Nothing waits that the slice could go on with by itself: no request, atomic, write-back, drain, image, flip, snoop, command or drain of
a retirement is under way. -/
structure Settled (s : State) : Prop where
  evicts : (s.arr.evicts.all fun e => !e.waitLog && e.bad == 0) = true
  waiting : s.arr.waiting = []
  presented : s.arr.presented = []
  fences : s.arr.fences = []
  sums : (s.arr.mhes.any fun m => m.kind == .memSide && m.got == 15 && !m.reads.isEmpty) = false
  stageOuts : s.pl.stageOuts = []
  failing : s.coh.failing = []
  flips : s.coh.flips = []
  bufs : s.gen.bufs = []
  drains : s.gen.drains = []
  rollLogs : s.pr.rollLogs = []
  cmds : s.rg.cmds.all Cmd.rests = true
  retire : s.hl.rState ≠ 2

/-! ## Rows by what they may change -/

/-- The rows that write or read a setup register (spec/17). -/
def regRow : Instr → Bool
  | .csrWr _ | .biasInit _ | .biasEnable _ | .pinWaysWrite _ | .mirrorWaysWrite _ | .stripeShiftWrite _ | .ringEnable _ _
  | .ringDisable _ _ | .evringEnable _ _ | .logRingEnable _ _ | .linkEn _ | .retrain _ | .ppsLoad _ | .pairKeyWrite _ _
  | .ledgerDataRead _ | .evtCounterWrite _ _ | .secCtlWrite _ | .hedgeWrite _ | .qosClassWrite _ _ | .flipmaskArm _
  | .energyGainWrite _ | .traceEnable _ => true
  | _ => false

/-- The rows after which the slice is as cold reset leaves it (R38, R50). -/
def coldRow : Instr → Bool
  | .rstNAssert | .ringStopPassive _ => true
  | _ => false

/-- The rows that begin a warm start or a re-entry (R554). -/
def restartRow : Instr → Bool
  | .quiesceDone | .reEntry => true
  | _ => false

/-- The rows that may restart the controller (R554, R556): those that begin a start, and those by which WRST_N takes effect on a fenced
slice. -/
def controllerRow : Instr → Bool
  | .quiesceDone | .reEntry | .wrstNAssert | .flowStopRelease _ => true
  | _ => false

/-- The rows of spec/14 that set the timestamp or its lock (R541 to R546, R539). -/
def timeRow : Instr → Bool
  | .ppsEdge | .ppsLost | .timeSeconds _ => true
  | _ => false

/-- The rows of spec/01 and spec/15 about supplies, clocks, resets, safe retention and backup hold. -/
def powerRow : Instr → Bool
  | .rstNAssert | .rstNRelease _ _ _ | .startComplete | .wrstNAssert | .quiesceDone | .flowStopEffective | .flowStopRelease _
  | .retentionEntryLimit | .clockAbsent _ | .clockPresent _ | .clkAonReturn | .planLockLost | .lockAlignmentDone
  | .vddArrDroop _ | .switchToVddArr | .arrayAccessStop | .arrayRailLoss | .vddCoreLoss | .backupHoldReturn | .reEntry
  | .ringStopPassive _ => true
  | _ => false

/-- The rows that may change a plan bank or which bank is active (R196 to R199, R236, R554, R561). -/
def planRow : Instr → Bool
  | .planLoad _ _ _ _ | .switchDone | .startComplete | .reEntry => true
  | _ => false

/-- The row by which the control island starts after RST_N (R37, R551). -/
def bootRow : Instr → Bool
  | .rstNRelease _ _ _ => true
  | _ => false

/-- The changes of pstate a row may make, by the table of R548: 0 RESET, 1 STARTING, 2 SERVING, 3 SAFE_RETENTION, 4 BACKUP_HOLD,
5 WARM_QUIESCE, 6 FENCED. -/
def psAllowed (c : Instr) (a b : Nat) : Bool :=
  match a, b with
  | _, 0 => coldRow c
  | 0, 1 => bootRow c
  | 1, 2 => (match c with | .startComplete => true | _ => false)
  | 2, 3 => true
  | 5, 3 => true
  | 3, 2 => (match c with | .flowStopRelease _ => true | _ => false)
  | 3, 5 => (match c with | .flowStopRelease _ => true | _ => false)
  | 2, 5 => (match c with | .wrstNAssert | .flowStopRelease _ => true | _ => false)
  | 5, 1 => (match c with | .quiesceDone => true | _ => false)
  | 2, 4 => (match c with | .arrayAccessStop | .arrayRailLoss | .vddCoreLoss => true | _ => false)
  | 3, 4 => (match c with | .arrayAccessStop | .arrayRailLoss | .vddCoreLoss => true | _ => false)
  | 5, 4 => (match c with | .arrayAccessStop | .arrayRailLoss | .vddCoreLoss => true | _ => false)
  | 4, 1 => (match c with | .reEntry => true | _ => false)
  | 4, 2 => (match c with | .backupHoldReturn => true | _ => false)
  | 4, 3 => (match c with | .backupHoldReturn => true | _ => false)
  | 4, 5 => (match c with | .backupHoldReturn => true | _ => false)
  | _, 6 => true
  | _, _ => false

/-! ## When a command has its own effect -/

/-- The frame a row of the headland ring carries. -/
def frameOf : Instr → Option Frame
  | .fenceFrame f | .hdrAck f | .oppointSet f | .stressSet f | .retireGo f | .regReading f | .timeSeconds f => some f
  | _ => none

/-- The ring stop takes a frame: addressed to the slice or to all, by an ACTIVE stop with good parity, or by the stop of a fenced slice in
FORWARD (R50, R52, R468). -/
def TakesFrame (s : State) (f : Frame) : Prop :=
  (f.dst = stopAddr s ∨ f.dst = 0xFFFF) ∧ (s.hd.mode = 0 ∧ f.bad = false ∨ s.hd.mode = 1 ∧ s.hd.fenced = true)

/-- The state in which a frame taken acts: a broadcast has gone on first. -/
def frameOn (s : State) (f : Frame) : State := if f.dst = stopAddr s then s else drive s (.hdr f)

/-- The access a register row makes: with its register's own offset where the row names a register, and whether it writes. -/
def accessOf : Instr → Option (Csr × Bool)
  | .csrWr a | .hedgeWrite a => some (a, true)
  | .biasInit a | .biasEnable a => some (csrAt a 0x600, true)
  | .pinWaysWrite a => some (csrAt a 0x108, true)
  | .mirrorWaysWrite a => some (csrAt a 0x900, true)
  | .stripeShiftWrite a => some (csrAt a 0x100, true)
  | .ringEnable n a | .ringDisable n a => some (csrAt a (0x1018 + 64 * n), true)
  | .evringEnable n a => some (csrAt a (0x2008 + 32 * n), true)
  | .logRingEnable n a => some (csrAt a (0x808 + 16 * n), true)
  | .linkEn a | .retrain a => some (csrAt a 0xA00, true)
  | .ppsLoad a => some (csrAt a 0xE08, true)
  | .pairKeyWrite k a => some (csrAt a (0xF20 + 8 * k), true)
  | .ledgerDataRead a => some (a, false)
  | .evtCounterWrite k a => some (csrAt a (0x4000 + 8 * k), true)
  | .secCtlWrite a => some (csrAt a 0xF10, true)
  | .qosClassWrite c a => some (csrAt a (0x3000 + 8 * c), true)
  | .flipmaskArm a => some (csrAt a 0xC10, true)
  | .energyGainWrite a => some (csrAt a 0x3518, true)
  | .traceEnable a => some (csrAt a 0x3400, true)
  | _ => none

/-- A register frame the slice takes and performs: addressed to it, good, well-formed and not a repeat of one whose answer is kept
(R590, R591). -/
def FrameAccess (s : State) (a : Csr) : Prop :=
  a.hdr = true ∧ TakesFrame s (csrFrame a true) ∧ a.m.dst = stopAddr s ∧ a.m.rsvd = false ∧
    (s.hd.kept.find? fun e => e.1 == a.m.src && e.2.1 == a.m.tag) = none

/-- A CSR message on HST of good parity, from a class the hedge does not fence, arrives in a slice that has raised SLICE_READY (R450,
R473, R568). -/
def HstArrives (s : State) (a : Csr) : Prop :=
  a.hdr = false ∧ s.hd.fenced = false ∧ s.pw.ready = true ∧ (s.pw.pstate = 2 ∨ s.pw.pstate = 4) ∧ a.m.parity = .ok ∧ a.m.unlisted ≠ 2 ∧
    hedgeFenced s (hedgeClass s a.m.src) = false

/-- A CSR message on HST that reaches the control island: through the checks of R272, and not a peer's (R279, R588). -/
def HstAccess (s : State) (a : Csr) : Prop :=
  HstArrives s a ∧ a.m.rsvd = false ∧ a.m.unlisted = 0 ∧ a.m.mod = 0 ∧ a.m.addr < 2 ^ 16 ∧
    fromPeer s { a.m with port := .hst } = false ∧ (a.m.size = 3 ∨ a.m.size = 7)

/-- The value a write carries. -/
def written (a : Csr) : Nat := leNat (a.m.data.take (a.m.size + 1))

/-- The answer frame of a write (R590). -/
def writeAnswer (s : State) (a : Csr) (status : Nat) : Out :=
  .hdr { type := 0x13, seq := s.hd.seq, dst := a.m.src, src := stopAddr s, payload := [at_ (a.m.tag % 2 ^ 16) 16 + status] }

/-- A request as the state sees it that its arrival leaves: metered, its credit returned (R266, R516). -/
def arrived (s : State) (k : Rq) (m : Msg) : State := arrives s m k.code.1 (k.payload m)

/-- A demand request of a class the hedge does not fence reaches a serving slice with good parity. -/
def Received (s : State) (m : Msg) : Prop :=
  serving s = true ∧ m.parity = .ok ∧ m.unlisted ≠ 2 ∧ hedgeFenced s (hedgeClass s m.src) = false

/-- A request the slice accepts: received, through the checks of R272, and granted by the hedge (R272, R566). -/
def Accepted (s : State) (k : Rq) (m : Msg) : Prop :=
  Received s m ∧ reqCheck s k m = 0 ∧ hedgePasses s m (hedgeClass s m.src) k.need = true

/-- The row of a request: on BLK the port is the row's. -/
def rowMsg (k : Rq) (m : Msg) : Msg := if k = .blkWr ∨ k = .blkAtl then { m with port := .blk } else m

/-- A DAT or RSP message that a slice which serves or quiesces takes: on HST, of good parity, from a class the hedge does not fence. -/
def Taken (s : State) (m : Msg) : Prop :=
  s.hd.fenced = false ∧ (s.pw.pstate = 2 ∨ s.pw.pstate = 5) ∧ m.parity = .ok ∧ m.port = .hst ∧ m.rsvd = false ∧ m.unlisted = 0 ∧
    hedgeFenced s (hedgeClass s m.src) = false

/-! ## Commands of the rings -/

/-- The row that starts a command: its ring, index, code and meaning (R416). -/
def commandOf : Instr → Option (Nat × Nat × Nat × (State → Cmd → State))
  | .nop r i => some (r, i, 0x000, fun s c => cmdEnd s c.n St.ok 0 0)
  | .lastDefine r i => some (r, i, 0x010, lastDefine)
  | .lastDelete r i => some (r, i, 0x011, lastDelete)
  | .lastRead r i => some (r, i, 0x012, lastRead)
  | .lastRestore r i input bad => some (r, i, 0x013, fun s c => lastRestore s c input bad)
  | .rangePrefetch r i => some (r, i, 0x020, rangeStart .prefetch)
  | .rangeFlush r i => some (r, i, 0x021, rangeStart .flush)
  | .rangeInvalidate r i => some (r, i, 0x022, rangeStart .inval)
  | .rangeDiscard r i => some (r, i, 0x023, rangeStart .discard)
  | .genOpen r i => some (r, i, 0x030, genOpen)
  | .genClose r i => some (r, i, 0x031, genClose)
  | .logAdvance r i => some (r, i, 0x032, logAdvance)
  | .ctxFreeze r i => some (r, i, 0x040, ctxFreeze)
  | .ctxResume r i input bad => some (r, i, 0x041, fun s c => ctxResume s c input bad)
  | .ctxRelease r i => some (r, i, 0x042, ctxRelease)
  | .ctxSeed r i => some (r, i, 0x043, ctxSeed)
  | .planLoad r i input bad => some (r, i, 0x050, fun s c => planLoad s c input bad)
  | .planRun r i => some (r, i, 0x051, planRun)
  | .planStop r i => some (r, i, 0x052, planStopCmd)
  | .sheafBind r i => some (r, i, 0x060, sheafBind)
  | .sheafRead r i => some (r, i, 0x061, sheafRead)
  | .sheafRelease r i => some (r, i, 0x062, sheafRelease)
  | .digestRange r i => some (r, i, 0x063, digestRange)
  | .biasFlip r i => some (r, i, 0x070, biasFlip)
  | .pairResync r i => some (r, i, 0x080, pairResync)
  | .pairTakeover r i defs => some (r, i, 0x081, pairTakeover defs)
  | .testRun r i => some (r, i, 0x090, testRun)
  | .testLoadpack r i input bad => some (r, i, 0x091, fun s c => testLoadpack s c input bad)
  | .patchLoad r i input bad => some (r, i, 0x0A0, fun s c => patchLoad s c input bad)
  | .sliceRetire r i => some (r, i, 0x0A1, sliceRetire)
  | _ => none

/-- The command `c` of a code waits at an index of a ring and may start: in ring order, past a barrier, with no change of a last it acts
on under way, in a slice that serves, or for NOP and LAST.READ in safe retention (R306, R421, R422). -/
def Starts (s : State) (ring idx code : Nat) (c : Cmd) : Prop :=
  cmdAt s ring idx = some c ∧ c.code = code ∧ mayStart s c = true ∧ lastsSteady s c = true ∧ ctxTurn s c = true ∧ s.hd.fenced = false ∧
    (s.pw.pstate = 2 ∨ s.pw.pstate = 3 ∧ (code = 0 ∨ code = 0x012))

/-- The command marked as started. -/
def begun (s : State) (c : Cmd) : State := cmdUpd s c.n fun x => { x with started := true }

/-- A command has ended ST_OK with a result, where it had not ended before. -/
def EndsOk (t : State) (c : Cmd) (word2 : Nat) : Prop :=
  ∃ x ∈ t.rg.cmds, x.n = c.n ∧ x.done = true ∧ x.status = St.ok ∧ x.word2 = word2

/-- A command has begun its walk: one operation on each line of a list, in its order, has been presented after those that waited (R421,
R429). -/
def Walks (s t : State) (c : Cmd) (k : OpKind) (ls : List Nat) : Prop :=
  ∃ ops, t.arr.presented = s.arr.presented ++ ops ∧ ops.map opLine = ls ∧ (∀ o ∈ ops, o.kind = k ∧ o.cmd = c.n) ∧
    ∀ x ∈ t.rg.cmds, x.n = c.n → x.started = true ∧ x.phase = 1 ∧ ∃ y ∈ s.rg.cmds, y.n = c.n ∧ x.todo = y.todo + ls.length

/-! ## Setup registers -/

/-- A register frame taken whose access passes every check of R589. -/
def Permitted (s : State) (a : Csr) (write : Bool) : Prop := FrameAccess s a ∧ accCheck s a write = (0, 0)

/-- The register at an offset given the bits a plain write leaves it (R7, R8, R586). -/
def stored (s : State) (off v : Nat) : State :=
  match regAt off with
  | some r => storeBits s off (newBits s r off v)
  | none => s

/-- A write frame performed and answered ST_OK, with the effect `u` (R590). -/
def wrote (u : State) (a : Csr) : Host.Outcome State Fault Refusal := .next (advance (csrFrameAnswer u a true St.ok 0))

/-! ## The tether -/

/-- The slice takes messages of the tether (R372, R383, R560). -/
def Delivers (s : State) : Prop := s.tt.link = 2 ∧ s.hd.fenced = false ∧ s.pw.pstate ≠ 4

/-- A message of a kind handled in `s` with the effect `u`: its bytes are metered and its credit is owed to the fellow (R374, R516). -/
def handled (s : State) (t : TMsg) (u : State) (kind : Nat) : Host.Outcome State Fault Refusal :=
  .next (advance (ttFlush (creditOwe (meter u (ttClass s { t with kind := kind }) 3 (16 * ttChunks t)) (ttChannel { t with kind := kind }))))

/-- The row of an instance is the operation of its number (R208). -/
def instOp : Instr → Option Nat
  | .openCycle => some 0x0
  | .quiet bad => if bad then none else some 0x1
  | .arrToBlk => some 0x2
  | .blkToArr => some 0x3
  | .blkAdd => some 0x4
  | .stageIn => some 0x5
  | .stageOut => some 0x6
  | .arrToArr => some 0x7
  | .arrScan => some 0x8
  | .tthOut => some 0x9
  | .synOut => some 0xA
  | .kernel => some 0xB
  | _ => none

/-- A running pass of a serving slice stands, outside a hold, at an instance of the slot entry `w` (R199, R224). -/
def AtInstance (s : State) (w : Nat) : Prop :=
  serving s = true ∧ s.pl.st = 2 ∧ s.pl.holding = false ∧ (planSlots s)[s.pl.slot]? = some w

/-- An instance has begun: the cycle is open where it is OPEN, and ev.plan_instance counts (R208, R221). -/
def instBegun (s : State) (w : Nat) : State :=
  ev { s with pl := { s.pl with openNow := slotOp w == 0, openSpent := 0 } } Ev.planInstance

/-- An instance has taken its fc, and the next one of its entry, or of the entry after it, is due (R199, R203). -/
def instDone (s : State) (w : Nat) : State :=
  { s with pl := { s.pl with
    fc := s.pl.fc + 1, endFc := s.pl.fc + 1, off := s.pl.off + 1
    rep := if slotRepeat w ≤ s.pl.rep then 0 else s.pl.rep + 1, slot := if slotRepeat w ≤ s.pl.rep then s.pl.slot + 1 else s.pl.slot } }

/-- The repair map of `t` is the one of `s` saved as it stands now: where 10 ms have passed since the copy written
last, the copy read at a start holds it with a generation above both; else its writing waits (R480, R482). -/
def MapSaved (s t : State) : Prop :=
  (s.hl.mapAt = 0 ∨ s.hl.mapAt - 1 + 10000000 ≤ tsNs s →
    mapBest t.hl.maps = { gen := t.hl.mapGen, ways := t.hl.wayDis, spares := t.hl.spares } ∧
    t.hl.mapGen = max s.hl.maps.1.gen s.hl.maps.2.gen + 1 ∧ t.hl.mapWait = false) ∧
  (s.hl.mapAt ≠ 0 → tsNs s < s.hl.mapAt - 1 + 10000000 → t.hl.mapWait = true ∧ t.hl.maps = s.hl.maps)

end Sys2Proof.Machine
end

