-- ==== Sys2Proof/Certificates/Slice0/Obligations.lean ====
section
/-! DEFINITION. The statements for the provers. Each docstring names the rules of spec/ or the log entry it rests on. -/

open Sys2Proof Sys2Proof.Machine

/-- A step runs the front command: For every command and state, a step of the state with the command at the front of its queue
is the command's effect on the state with the queue's rest; the queue is the model's own (notes/assumptions 2). (R1) -/
def Obligations.StepRunsFront : Prop :=
  ∀ (c : Instr) (q : List Instr) (s : State), step { s with pending := c :: q } = exec c { s with pending := q }

/-- An empty queue passes one fabric cycle: With no command waiting a step passes one cycle of clk_fab: the cycle count rises by
one, the timestamp advances by one sc exactly where the new count is a multiple of four and the control island runs, and nothing
in the array, the host coherence state, the plan, the rings, the tether, the power state or a setup register changes. That a
step without a command is a cycle is the model's choice (notes/assumptions 2). (R541, R530) -/
def Obligations.IdleStepPassesOneCycle : Prop :=
  ∀ s : State, s.pending = [] → ∃ t, step s = .next t ∧ t.now = s.now + 1 ∧ t.pending = [] ∧ t.out = s.out ∧
    t.tm = (if (s.now + 1) % 4 = 0 ∧ controlRuns s = true then scTime s.tm else s.tm) ∧
    t.arr = s.arr ∧ t.coh = s.coh ∧ t.pl = s.pl ∧ t.rg = s.rg ∧ t.tt = s.tt ∧ t.pw = s.pw ∧ t.hd = s.hd ∧
    ∀ off, setupReg off = true → csrGet t off = csrGet s off

/-- No table word spells a command: The table gives no row bits, so a word of any length decodes to no command and placing it
leaves every state as it is. (R581) -/
def Obligations.NoTableWordSpellsACommand : Prop :=
  ∀ (n w : Nat) (s : State), decodeTableWord n w = none ∧ s.withFetchWord n w = s

/-- The state after reset: Right after reset the slice is in RESET with RST_N low, not fenced, its ring stop in FORWARD and
SLICE_READY low, with nothing waiting or driven, the timestamp and the event counters zero, no last defined, no line resident,
no plan running, the link DISABLED, the pair UNPAIRED, and every setup register at its reset value of the register map. Values
the spec leaves open at reset are not spoken of. (R547, R50, R554, R594) -/
def Obligations.ResetState : Prop :=
  State.reset.pw.pstate = 0 ∧ State.reset.pw.rstN = false ∧ State.reset.pw.ready = false ∧ State.reset.hd.fenced = false ∧
    State.reset.hd.mode = 1 ∧ State.reset.pending = [] ∧ State.reset.out = [] ∧ State.reset.tm.ts = 0 ∧ State.reset.qs.evs = [] ∧
    State.reset.arr.lasts = [] ∧ State.reset.arr.lines = [] ∧ State.reset.pl.st = 0 ∧ State.reset.tt.link = 0 ∧
        State.reset.pr.st = 0 ∧
    ∀ off, csrGet State.reset off = regReset off % 2 ^ 64

/-- The tables are canonical at reset: The register, line, last and snoop filter tables of the state after reset are in
canonical form. (R594, R77) -/
def Obligations.TablesHoldAtReset : Prop :=
  TablesWf State.reset

/-- Every step keeps the tables canonical: In every state whose register, line, last and snoop filter tables are in canonical
form (keys strictly rising, no default listed), a step to a next state leaves them so. (R594, R77, R245) -/
def Obligations.TablesStayCanonical : Prop :=
  ∀ s t : State, TablesWf s → step s = .next t → TablesWf t

/-- The power invariant holds at reset: The state after reset satisfies the power invariant. (R547, R548) -/
def Obligations.PowerHoldsAtReset : Prop :=
  PowerInv State.reset

/-- Every step keeps the power invariant: If pstate is one of the seven power states, the slice is fenced exactly in FENCED, a
BACKUP_HOLD remembers SERVING, SAFE_RETENTION or WARM_QUIESCE, SLICE_READY is high only in SERVING or a BACKUP_HOLD, and RST_N
low means RESET, then all of this holds after every step. (R547, R548, R473) -/
def Obligations.PowerInvariant : Prop :=
  ∀ s t : State, PowerInv s → step s = .next t → PowerInv t

/-- The power state changes only as the table of R548 decides: In a state that satisfies the power invariant, a command that
changes pstate changes it along a row of the table of R548: to RESET by cold reset, to FENCED by a fence, and otherwise from the
state and by the event the table names; an entry into safe retention may end in any step. (R548) -/
def Obligations.PowerTransitions : Prop :=
  ∀ (c : Instr) (s t : State), PowerInv s → exec c s = .next t → t.pw.pstate ≠ s.pw.pstate →
    psAllowed c s.pw.pstate t.pw.pstate = true

/-- A fence stays until RST_N, with its first cause: Every step from a fenced state other than RST_N_ASSERT and the loss of
VDD_AON leaves the slice fenced with the same reason. (R472, R554) -/
def Obligations.FenceStays : Prop :=
  ∀ s t : State, s.hd.fenced = true → (s.pending.head?.map coldRow).getD false = false → step s = .next t →
    t.hd.fenced = true ∧ t.hd.reason = s.hd.reason

/-- A step takes one command and only adds outputs: A step leaves the queue without its front command, if it had one, and what
the slice has driven before it stays: outputs are only appended. No command stops the slice: each is answered with a next state.
(R266, R269) -/
def Obligations.QueueAndOutputs : Prop :=
  (∀ s t : State, step s = .next t → t.pending = s.pending.tail ∧ s.out <+: t.out) ∧
      ∀ (c : Instr) (s : State), ∃ t, exec c s = .next t

/-- A setup register changes only by an access or a reset: Every register whose bits the slice itself never changes reads the
same after a step whose command is neither a register access nor a reset, a start of the control island, a warm start or a
re-entry. (R594, R554) -/
def Obligations.SetupRegistersHold : Prop :=
  ∀ (c : Instr) (s t : State), (regRow c || restartRow c || coldRow c || bootRow c) = false → exec c s = .next t →
    ∀ off, setupReg off = true → csrGet t off = csrGet s off

/-- The timestamp state changes only by its own rows: The timestamp, its increment, its slew and its lock are changed by no
command other than the PPS rows, TIME_SECONDS, an access to a register and a cold reset; a cycle without a command advances them
(IdleStepPassesOneCycle). (R541, R546) -/
def Obligations.TimeHolds : Prop :=
  ∀ (c : Instr) (s t : State), (regRow c || timeRow c || coldRow c) = false → exec c s = .next t → t.tm = s.tm ∧ t.now = s.now

/-- The pairing key changes only by register writes and cold reset: No command other than an access to a register or a cold
reset changes the pairing key, whether it is valid, or the word it expects next. (R580) -/
def Obligations.PairKeyHolds : Prop :=
  ∀ (c : Instr) (s t : State), (regRow c || coldRow c) = false → exec c s = .next t →
    t.sec.key = s.sec.key ∧ t.sec.keyValid = s.sec.keyValid ∧ t.sec.keyNext = s.sec.keyNext

/-- The plan banks change only by a load, a switch or a start: No command other than PLAN.LOAD, the end of a switch, a start, a
re-entry or a cold reset changes a plan bank or which bank is active. (R196, R236, R561) -/
def Obligations.PlanBanksHold : Prop :=
  ∀ (c : Instr) (s t : State), (planRow c || coldRow c) = false → exec c s = .next t → t.pl.banks = s.pl.banks ∧
      t.pl.active = s.pl.active

/-- The patch table and the test packs change only by their loads and restarts: No command other than PATCH.LOAD changes the
patch table, and none other than TEST.LOADPACK a test pack, but for warm starts, re-entries, cold resets, and the rows by which
WRST_N restarts the controller of a fenced slice, which discard both. (R441, R494, R554, R556) -/
def Obligations.PatchAndPacksHold : Prop :=
  ∀ (c : Instr) (s t : State), (restartRow c || coldRow c || (controllerRow c && s.hd.fenced)) = false → exec c s = .next t →
    ((∀ r i b x, c ≠ .patchLoad r i b x) → t.rg.patched = s.rg.patched ∧ t.rg.patchTable = s.rg.patchTable) ∧
    ((∀ r i b x, c ≠ .testLoadpack r i b x) → t.hl.packs = s.hl.packs)

/-- Cold reset and the loss and return of CLK_AON: With CLK_AON running RST_N_ASSERT leaves what R554 says: RESET, no fence,
time, registers, arrays, lasts, contexts, rings, plan, link, pair and key at their reset values, and the ledger kept.
RING_STOP_PASSIVE stops CLK_AON and puts the stop in PASSIVE, and is a cold reset too where VDD_AON is lost; CLK_AON_RETURN puts
the stop back in FORWARD for a slice in reset, fenced or fused off. (R38, R50, R554, R561) -/
def Obligations.ColdResetRows : Prop :=
  (∀ s : State, s.pw.clkAon = true → ∃ t, exec .rstNAssert s = .next t ∧ t.pw.pstate = 0 ∧ t.pw.rstN = false ∧ t.pw.ready = false ∧
    t.hd.fenced = false ∧ t.hd.mode = 1 ∧ t.tm = {} ∧ t.csr = [] ∧ t.arr = {} ∧ t.coh = {} ∧ t.ari = {} ∧ t.gen = {} ∧ t.rg = {} ∧
    t.pl = {} ∧ t.tt = {} ∧ t.pr = {} ∧ t.sec = {} ∧ t.qs = {} ∧ t.hl.histRing = s.hl.histRing ∧ t.hl.ageRing = s.hl.ageRing ∧
    t.hl.powerOns = s.hl.powerOns ∧ t.out = s.out ∧ t.now = s.now) ∧
  (∀ s : State, exec (.ringStopPassive false) s =
    .next { s with pw := { s.pw with clkAon := false }, hd := { s.hd with mode := 2 } }) ∧
  (∀ s : State, ∃ t, exec (.ringStopPassive true) s = .next t ∧ t.pw.pstate = 0 ∧ t.pw.clkAon = false ∧ t.hd.mode = 2 ∧
    t.hd.fenced = false ∧ t.csr = [] ∧ t.arr = {} ∧ t.hl.histRing = s.hl.histRing) ∧
  (∀ s : State, s.pw.clkAon = false → s.hd.fenced = true ∨ s.pw.pstate = 0 ∨ s.pw.fusedOff = true →
    exec .clkAonReturn s = .next { s with pw := { s.pw with clkAon := true }, hd := { s.hd with mode := 1 } }) ∧
  (∀ s : State, s.pw.clkAon = false → s.hd.fenced = false → s.pw.pstate ≠ 0 → s.pw.fusedOff = false → s.hd.unacked = [] →
    exec .clkAonReturn s = .next { s with pw := { s.pw with clkAon := true }, hd := { s.hd with mode := 0 } })

/-- The start of the slice: RST_N_RELEASE samples the straps and begins a cold start of a slice that is not fused off: STARTING,
the stop ACTIVE, the power-on count one more, and beyond step 4 where every clock is present and FLOW_STOP_N is high. A clock
that becomes present is recorded and lets a waiting start go on. START_COMPLETE of a cold start of a slice with no ring or link
enabled and no standing request for retirement ends in SERVING with SLICE_READY high and the receive credits returned, and
leaves everything else as it is. WRST_N of a settled serving slice without a plan or open line leads to WARM_QUIESCE, with the
MEM reads not yet issued withdrawn; the end of a quiesce and a re-entry begin a start of their kind, which waits for the clocks.
(R37, R551, R552, R48, R555) -/
def Obligations.StartRows : Prop :=
  (∀ (chip die sliceId : Nat) (s : State), s.pw.rstN = false → s.pw.clkAon = true → s.pw.grade ≠ 3 → s.pw.debugFuse = false →
    ∃ t, exec (.rstNRelease chip die sliceId) s = .next t ∧ t.pw.rstN = true ∧ t.pw.pstate = 1 ∧ t.pw.startKind = 0 ∧
      t.pw.chip = chip % 64 ∧ t.pw.die = die % 8 ∧ t.pw.sliceId = sliceId % 32 ∧ t.hd.mode = 0 ∧
      t.hl.powerOns = s.hl.powerOns + 1 ∧ t.arr = s.arr ∧ t.csr = s.csr ∧ t.out = s.out ∧
      t.pw.startStep = (if s.pw.clocks = BitVec.allOnes 5 ∧ s.pw.flowStop = false ∧ s.pw.coreDown = false then 6 else 4)) ∧
  (∀ (clk : Nat) (s : State), clk < 5 → s.pw.rstN = true → s.pw.clkAon = true → s.pw.pstate ≠ 1 →
    exec (.clockPresent clk) s = .next { s with pw := { s.pw with clocks := s.pw.clocks ||| BitVec.ofNat 5 (2 ^ clk) } }) ∧
  (∀ (clk : Nat) (s : State), clk < 5 → s.pw.rstN = true → s.pw.clkAon = true → s.pw.pstate = 1 → s.pw.startStep = 4 →
    s.pw.clocks ||| BitVec.ofNat 5 (2 ^ clk) = BitVec.allOnes 5 → s.pw.flowStop = false → s.pw.coreDown = false →
    exec (.clockPresent clk) s =
      .next { s with pw := { s.pw with clocks := BitVec.allOnes 5, planLock := true, startStep := 6 } }) ∧
  (∀ s : State, s.pw.pstate = 1 → s.pw.startStep = 6 → s.pw.startKind = 0 → s.pw.flowStop = false → s.pw.coreDown = false →
    s.pw.arrStopped = false → Settled s → s.tt.link = 0 → csrBit s 0xA00 31 = false → (∀ n < 64, ringEnabled s n = false) →
        waysDisabled s < 5 →
    (∀ b < 16, usableWays s b ≠ []) →
    ((s.hl.histRing.map (·.2) ++ s.hl.ledWait).all fun e => !(e.kind == 4 && e.history == 2) && !(e.kind == 8 && e.subject == 6)) = true →
    exec .startComplete s = .next { s with
      pw := { s.pw with pstate := 2, ready := true, arrDown := false, bakPresent := s.pw.bakPresent || s.pw.onBak
                        startNs := min ((s.now - s.pw.startAt) / 2) (2 ^ 32 - 1) }
      out := s.out ++ startCredits }) ∧
  (∀ s : State, s.pw.rstN = true → s.pw.clkAon = true → s.hd.fenced = false → s.pw.flowStop = false → s.pw.pstate = 2 → Settled s →
    s.pl.st = 0 → s.arr.opens = [] → ∃ t, exec .wrstNAssert s = .next t ∧ t.pw.pstate = 5 ∧ t.pw.ready = false ∧
      t.arr.lines = s.arr.lines ∧ t.arr.memq = s.arr.memq.filter (fun q => match q with | .wr _ _ _ => true | .rd _ => false) ∧
      t.gen = s.gen ∧ t.coh = s.coh) ∧
  (∀ s : State, s.pw.pstate = 5 → s.pw.flowStop = false → quiet s = true → s.tt.link = 0 → ∃ t, exec .quiesceDone s = .next t ∧
    t.pw.pstate = 1 ∧ t.pw.startKind = 1 ∧ t.pw.startAt = s.now ∧
        t.pw.startStep = (if s.pw.clocks = BitVec.allOnes 5 then 6 else 4)) ∧
  (∀ s : State, s.pw.pstate = 4 → s.pw.coreDown = true → s.pw.arrDown = false → s.pw.flowStop = false → s.tt.link = 0 →
    ∃ t, exec .reEntry s = .next t ∧ t.pw.pstate = 1 ∧ t.pw.startKind = 2 ∧ t.pw.startAt = s.now ∧ t.pw.coreDown = false ∧
      t.pw.startStep = (if s.pw.clocks = BitVec.allOnes 5 then 6 else 4)) ∧
  (∀ s : State, s.pw.pstate = 1 → s.pw.coreDown = true → ∃ t, exec .reEntry s = .next t ∧ t.pw.coreDown = false ∧ t.pw.pstate = 1 ∧
    t = { s with pw := t.pw })

/-- Warm reset and re-entry keep the retained set: WRST_N is held off while FLOW_STOP_N is effective, restarts the controller of
a fenced slice, puts a serving slice into WARM_QUIESCE with SLICE_READY low, its plan aborted, its open lines closed and its MEM
reads not yet issued withdrawn, and does nothing else. QUIESCE_DONE of a quiet slice, and RE_ENTRY from a BACKUP_HOLD after a
loss of VDD_CORE with the arrays intact, go to STARTING and keep the array's lines, the snoop filter, the sheaves and windows,
the plan banks, the last and context tables, the log rings, the fence latch and the timestamp; commands in flight are gone, the
command rings disabled, a last that was being restored is FAILED, and the plan is IDLE with stop_reason 6; a link that was not
DISABLED goes DOWN. (The last clause is of a slice whose link is DISABLED, where no last is being restored.) (R60, R549, R550,
R552, R554, R555) -/
def Obligations.WarmResetRows : Prop :=
  (∀ s : State, s.pw.rstN = true → s.pw.clkAon = true → s.pw.flowStop = true →
    exec .wrstNAssert s = .next { s with pw := { s.pw with wrstHeld := true } }) ∧
  (∀ s : State, s.pw.rstN = true → s.pw.clkAon = true → s.pw.flowStop = false →
    (s.hd.fenced = true → exec .wrstNAssert s = .next { s with
      rg := { s.rg with began := false, patched := false, patchTable := [] }, hl := { s.hl with packs := [] } }) ∧
    (s.hd.fenced = false → s.pw.pstate ≠ 2 → exec .wrstNAssert s = .next s) ∧
    (s.hd.fenced = false → s.pw.pstate = 2 → ∀ u v, u = planAbort { s with pw := { s.pw with
        ready := false, pstate := 5, wrstHeld := false } } 6 → v = u.arr.opens.foldl (fun w o => closeLine w o.line) u →
      ∃ ws, (∀ q, q ∈ ws ↔ q ∈ v.arr.memq ∧ ∃ w d cls, q = .wr w d cls) ∧
        exec .wrstNAssert s = .next (advance { v with arr := { v.arr with memq := ws } }))) ∧
  (∀ (c : Instr) (s : State), (c = .quiesceDone ∧ s.pw.pstate = 5 ∧ s.pw.flowStop = false ∧ quiet s = true) ∨
      (c = .reEntry ∧ s.pw.pstate = 4 ∧ s.pw.coreDown = true ∧ s.pw.arrDown = false ∧ s.pw.flowStop = false) →
    ∃ u, u.pw.pstate = 1 ∧ u.pw.ready = false ∧ u.pw.startStep = 4 ∧ u.pw.startKind = (if c = .reEntry then 2 else 1) ∧
      u.arr.lines = s.arr.lines ∧ u.arr.evicts = s.arr.evicts ∧ u.arr.opens = s.arr.opens ∧ u.coh.sf = s.coh.sf ∧ u.ari = s.ari ∧
      u.pl.banks = s.pl.banks ∧ u.pl.active = s.pl.active ∧ u.pl.st = 0 ∧ u.pl.stopReason = 6 ∧
      (SMap.wf {} s.gen.ctxs = true → ∀ i, ctxGet u i = { ctxGet s i with resuming := false }) ∧
      u.gen.rings = s.gen.rings ∧ u.hd.fenced = s.hd.fenced ∧ u.hd.unacked = s.hd.unacked ∧ u.tm = s.tm ∧ u.sec = s.sec ∧
          u.pr.mirrors = s.pr.mirrors ∧
      u.rg.cmds = [] ∧ u.held = [] ∧ u.out = s.out ∧ (∀ n < 64, ringEnabled u n = false) ∧
      (SMap.wf {} s.arr.lasts = true →
          ∀ i, SMap.get {} u.arr.lasts i = (if (SMap.get {} s.arr.lasts i).cond = 3 then { SMap.get {} s.arr.lasts i with cond := 2 }
        else SMap.get {} s.arr.lasts i)) ∧
      exec c s = .next (startGo (if s.tt.link = 0 then u else linkDown u 4 s.tt.downReason))) ∧
  (∀ s : State, s.pw.rstN = true → s.pw.clkAon = true → s.hd.fenced = false → s.pw.flowStop = false → s.pw.pstate = 2 → Settled s →
    s.pl.st = 0 → s.arr.opens = [] → s.arr.memq = [] →
    exec .wrstNAssert s = .next { s with pw := { s.pw with ready := false, pstate := 5, wrstHeld := false } }) ∧
  (∀ (c : Instr) (s : State),
    (c = .quiesceDone ∧ s.pw.pstate = 5 ∧ s.pw.flowStop = false ∧ quiet s = true) ∨
      (c = .reEntry ∧ s.pw.pstate = 4 ∧ s.pw.coreDown = true ∧ s.pw.arrDown = false ∧ s.pw.flowStop = false) →
    s.tt.link = 0 → s.arr.lasts.all (fun e => e.2.cond != 3 && e.2.cond != 0) = true →
    s.gen.ctxs.all (fun e => !e.2.resuming && e.2 != {}) = true →
    ∃ t, exec c s = .next t ∧ t.pw.pstate = 1 ∧ t.pw.ready = false ∧ t.arr.lines = s.arr.lines ∧ t.arr.lasts = s.arr.lasts ∧
      t.coh.sf = s.coh.sf ∧ t.ari = s.ari ∧ t.pl.banks = s.pl.banks ∧ t.pl.active = s.pl.active ∧ t.pl.st = 0 ∧
          t.pl.stopReason = 6 ∧
      t.gen.ctxs = s.gen.ctxs ∧ t.gen.rings = s.gen.rings ∧ t.hd.fenced = s.hd.fenced ∧ t.tm = s.tm ∧ t.sec = s.sec ∧
      t.rg.cmds = [] ∧ t.out = s.out ∧ t.pw.startKind = (if c = .reEntry then 2 else 1))

/-- Entry into and exit from safe retention: FLOW_STOP_N becoming effective in a slice that neither serves nor quiesces is
recorded with its time; in a serving slice with nothing under way, no command in flight and no link or plan it ends in
SAFE_RETENTION with SLICE_READY low. The entry limit ends an entry in SAFE_RETENTION. The release, in a slice in SAFE_RETENTION
with nothing held, no ring or link enabled and no warm reset waiting, leads back to SERVING with SLICE_READY high; with a WRST_N
held off that is still low it leads to WARM_QUIESCE; and in RESET and BACKUP_HOLD it records the release, with the held warm
reset kept where WRST_N is still low. The array, the lasts and the plan stay as they are. (R55, R56, R57, R60, R557, R559) -/
def Obligations.SafeRetentionRows : Prop :=
  (∀ s : State, s.pw.clkAon = true → s.pw.flowStop = false → s.pw.pstate ≠ 2 → s.pw.pstate ≠ 5 →
    exec .flowStopEffective s = .next { s with pw := { s.pw with flowStop := true, flowAt := s.now } }) ∧
  (∀ s : State, s.pw.clkAon = true → s.pw.flowStop = false → s.pw.pstate = 2 → Settled s → s.rg.cmds = [] → s.pl.st = 0 →
    (s.tt.link = 0 ∨ s.tt.link = 4) → s.arr.lasts.all (fun e => e.2.cond != 3 && e.2.cond != 0) = true →
    ∃ t, exec .flowStopEffective s = .next t ∧ t.pw.pstate = 3 ∧ t.pw.ready = false ∧ t.pw.flowStop = true ∧ t.pw.flowAt = s.now ∧
      t.arr.lines = s.arr.lines ∧ t.arr.lasts = s.arr.lasts ∧ t.pl.banks = s.pl.banks ∧ t.pl.st = 0) ∧
  (∀ s : State, s.pw.flowStop = true → s.pw.pstate = 2 ∨ s.pw.pstate = 5 → exec .retentionEntryLimit s =
    .next { s with pw := { s.pw with quiesced := s.pw.pstate == 5, pstate := 3, ready := false } }) ∧
  (∀ s : State, s.pw.clkAon = true → s.pw.flowStop = true → s.pw.pstate = 3 → s.pw.quiesced = false → s.pw.wrstHeld = false →
    s.held = [] → Settled s → s.tt.link = 0 → csrBit s 0xA00 31 = false → (∀ n < 64, ringEnabled s n = false) →
    ∃ t, exec (.flowStopRelease false) s = .next t ∧ t.pw.pstate = 2 ∧ t.pw.ready = true ∧ t.pw.flowStop = false ∧
      t.arr.lines = s.arr.lines ∧ t.arr.lasts = s.arr.lasts ∧ t.pl.banks = s.pl.banks ∧ t.pl.st = s.pl.st) ∧
  (∀ s : State, s.pw.clkAon = true → s.pw.flowStop = true → s.pw.pstate = 3 → s.pw.quiesced = false → s.pw.wrstHeld = true →
    s.held = [] → Settled s → s.pl.st = 0 → s.arr.opens = [] →
    ∃ t, exec (.flowStopRelease true) s = .next t ∧ t.pw.pstate = 5 ∧ t.pw.ready = false ∧ t.pw.flowStop = false ∧
      t.pw.wrstHeld = false ∧ t.arr.lines = s.arr.lines ∧ t.arr.lasts = s.arr.lasts) ∧
  (∀ s : State, s.pw.clkAon = true → s.pw.flowStop = true → s.pw.pstate = 0 ∨ s.pw.pstate = 4 → s.hd.fenced = false →
    ∀ low : Bool, exec (.flowStopRelease low) s = .next { s with pw := { s.pw with flowStop := false, wrstHeld := s.pw.wrstHeld && low } })

/-- The array supply, the loss of VDD_CORE and BACKUP_HOLD: Outside a running pass: a droop of VDD_ARR moves the arrays to
VDD_BAK where it holds and records what VDD_BAK is; the return moves them back; an access stop, and the loss of the rail, enter
BACKUP_HOLD from a serving slice and leave everything else, the loss marking the contents as lost; the loss of VDD_CORE enters
BACKUP_HOLD with SLICE_READY and plan_lock low; and the return of array access goes back to the state BACKUP_HOLD came from and
sends what waited meanwhile. (R42, R45, R46, R47, R48, R558, R560) -/
def Obligations.ArraySupplyRows : Prop :=
  (∀ s : State, alive s = true → s.pl.st ≠ 2 → s.pw.onBak = false →
    exec (.vddArrDroop true) s = .next { s with pw := { s.pw with bakPresent := true, onBak := true, switched := true } }) ∧
  (∀ s : State, alive s = true → exec (.vddArrDroop false) s = .next { s with pw := { s.pw with bakPresent := false } }) ∧
  (∀ s : State, s.pw.onBak = true → s.pl.st ≠ 2 →
    exec .switchToVddArr s = .next { s with pw := { s.pw with onBak := false, arrStopped := false } }) ∧
  (∀ s : State, s.pw.onBak = true → s.pw.pstate = 2 →
    exec .arrayAccessStop s = .next { s with pw := { s.pw with arrStopped := true, prior := 2, pstate := 4 } }) ∧
  (∀ s : State, s.pw.pstate = 2 → exec .arrayRailLoss s =
    .next { s with pw := { s.pw with arrLost := true, arrDown := true, bakPresent := s.pw.bakPresent && !s.pw.onBak, prior := 2, pstate := 4 } }) ∧
  (∀ s : State, alive s = true → s.pw.pstate = 2 → s.tt.link ≠ 0 →
    ∀ u, u = goSolo (ttDrop { s with tt := { s.tt with link := 4, width := 0, rxWidth := 0 } }) →
      u.tt.link = 4 ∧ (s.pr.st = 1 ∨ s.pr.st = 3 → u.pr.st = 2) ∧ (s.pr.st ≠ 1 → s.pr.st ≠ 3 → u.pr.st = s.pr.st) ∧
      exec .vddCoreLoss s = .next (backupHold { u with held := [], pw := { u.pw with
        coreLost := true, coreDown := true, ready := false, planLock := false
        startStep := if u.pw.pstate = 1 then 4 else u.pw.startStep } })) ∧
  (∀ s : State, alive s = true → s.pw.pstate = 2 → s.tt.link = 0 → exec .vddCoreLoss s = .next { s with
    held := []
    pw := { s.pw with coreLost := true, coreDown := true, ready := false, planLock := false, prior := 2, pstate := 4 } }) ∧
  (∀ s : State, s.pw.pstate = 4 → s.pw.prior = 2 → s.pw.arrDown = false → s.pw.coreDown = false → s.pw.flowStop = false →
    s.pw.flowEntered = false → s.pw.wrstHeld = false → s.held = [] → Settled s → (∀ n < 64, ringEnabled s n = false) →
    exec .backupHoldReturn s = .next (irqWake (txDrain { s with pw := { s.pw with arrStopped := false, pstate := 2 } })))

/-- Clocks and plan lock: The loss of REFCLK_TTH with the link DISABLED clears its bit and sends an error record of unit 14; the
loss of any other clock clears its bit and fences the slice with reason 5; the loss of plan lock clears plan_lock, sets
lock_lost and marks a running pass; and the alignment sets plan_lock where the three clocks are present and no pass runs. (R31,
R32, R33, R34, R451, R227) -/
def Obligations.ClockRows : Prop :=
  (∀ s : State, alive s = true → s.pw.clocks.getLsbD 0 = true → s.tt.link = 0 → exec (.clockAbsent 0) s =
    .next (postError { s with pw := { s.pw with clocks := s.pw.clocks &&& ~~~1#5 } } St.clockLost
      { unit := 14, detector := 10, detail := (s.pw.clocks &&& ~~~1#5).toNat })) ∧
  (∀ (clk : Nat) (s : State), alive s = true → 1 ≤ clk → clk < 5 → s.pw.clocks.getLsbD clk = true → s.hd.fenced = false →
    ∃ t, exec (.clockAbsent clk) s = .next t ∧ t.hd.fenced = true ∧ t.hd.reason = 5 ∧ t.pw.pstate = 6 ∧ t.pw.ready = false ∧
      t.pw.clocks = clocksWithout s.pw.clocks clk) ∧
  (∀ s : State, s.pw.planLock = true → exec .planLockLost s =
    .next { s with pw := { s.pw with planLock := false, lockLost := true }
                   pl := { s.pl with lockGone := s.pl.lockGone || s.pl.st == 2 || s.pl.st == 4 } }) ∧
  (∀ s : State, alive s = true → s.pw.coreDown = false → s.pw.clocks >>> 2 = 7#5 → s.pl.st ≠ 2 → s.pl.st ≠ 4 →
      exec .lockAlignmentDone s =
    .next { s with pw := { s.pw with planLock := true }, pl := { s.pl with fc := max s.pl.fc (s.now + 1) } })

/-- The test access port: Without debug_lock the TAP and the wrapper select the instruction given; under debug_lock they select
it where R578 allows it, else BYPASS, counting in debug_denied. MBIST adds the failing rows it finds to those recorded, assigns
spare rows, and writes the repair map where it assigned one; port EXTEST drives its vectors on a port and records each wire that
was captured otherwise. The codes of the instructions are the model's (notes/assumptions 13). (R578, R605, R606) -/
def Obligations.TapRow : Prop :=
  (∀ (ir : Nat) (s : State), debugLocked s = false →
    exec (.tapInstruction false ir .none) s = .next { s with sec := { s.sec with tapIr := ir } } ∧
    exec (.tapInstruction true ir .none) s = .next { s with sec := { s.sec with wrapIr := ir } }) ∧
  (∀ (wrapper : Bool) (ir : Nat) (run : TestRun) (s : State), debugLocked s = true → tapAllowed s wrapper ir = false →
    exec (.tapInstruction wrapper ir run) s = .next { s with sec := { s.sec with
      tapIr := if wrapper then s.sec.tapIr else 0, wrapIr := if wrapper then 0 else s.sec.wrapIr
      debugDenied := satInc 8 s.sec.debugDenied } }) ∧
  (∀ (ir : Nat) (run : TestRun) (s : State), debugLocked s = true → ir = 0 ∨ ir = 1 ∨ ir = 2 →
    exec (.tapInstruction false ir run) s = .next { s with sec := { s.sec with tapIr := ir } }) ∧
  (∀ (rows : List (Nat × Nat × Nat)) (s : State), debugLocked s = false →
      ∃ t, exec (.tapInstruction false 4 (.mbist rows)) s = .next t ∧
    t.sec.tapIr = 4 ∧ (∀ b i j, (b, i, j) ∈ t.sec.mbist ↔ (b, i, j) ∈ s.sec.mbist ∨ ((b, i, j) ∈ rows ∧ b < 16 ∧ i < 16 ∧
        j < 128)) ∧
    s.hl.spares <+: t.hl.spares ∧ t.hl.wayDis = s.hl.wayDis ∧ (t.hl.spares = s.hl.spares → t.hl.maps = s.hl.maps ∧
        t.hl.mapGen = s.hl.mapGen) ∧
    (t.hl.spares ≠ s.hl.spares → MapSaved s t) ∧
    t.arr = s.arr ∧ t.csr = s.csr ∧ t.out = s.out) ∧
  (∀ (p : Port) (captured : List Nat) (s : State), debugLocked s = false → p ≠ .tth →
    ∃ t, exec (.tapInstruction true 1 (.extest [(p, captured)])) s = .next t ∧
        t.out = s.out ++ [.test p (testVectors (portWires p))] ∧
    (∀ i, (p, i) ∈ t.sec.badWires ↔ i < portWires p ∧ ∃ k v, (testVectors (portWires p))[k]? = some v ∧
      v.testBit i ≠ (captured.getD k 0).testBit i) ∧
    (∀ q i, q ≠ p → ((q, i) ∈ t.sec.badWires ↔ (q, i) ∈ s.sec.badWires)) ∧ t = { s with sec := t.sec, out := t.out })

/-- Edges of PPS_IN and their loss: With the control island running, each row of the table of edges decides as R542 says, in its
order: an edge while enable is 0 changes nothing; one before 0.5 s counts as a glitch and nothing else; the set edge puts the
timestamp at seconds × 10^9, disarms, sets time_valid and ends the slew; an edge after 0.75 s, the first one, and one near 1 s
slew by R543, the last setting inc; any other changes neither time nor inc. Each accepted edge restarts n and clears pps_lost.
PPS_LOST sets pps_lost, forgets n and posts its event. The array, the plan, the tether, the power state and the setup registers
stay. (R542, R543, R544, R545, R539) -/
def Obligations.PpsRows : Prop :=
  ∀ s : State, s.pw.rstN = true → s.pw.clkAon = true →
    (csrBit s 0xE08 31 = false → exec .ppsEdge s = .next s ∧ exec .ppsLost s = .next s) ∧
    (csrBit s 0xE08 31 = true →
      (∀ n, s.tm.n = some n → n < 250000000 → exec .ppsEdge s =
        .next (ev { s with tm := { s.tm with glitches := satInc 16 s.tm.glitches } } Ev.ppsGlitch)) ∧
      ((∀ n, s.tm.n = some n → 250000000 ≤ n) → ∃ t, exec .ppsEdge s = .next t ∧
        t.tm = (let acc := { s.tm with n := some 0, lastEdge := tsNs s, lost := false }
          if s.tm.armed then { acc with ts := csrFld s 0xE10 33 0 * 1000000000 * 2 ^ 32 % 2 ^ 96, armed := false, valid := true,
                                        slewLeft := 0, slew := 0 }
          else if ∀ n, s.tm.n = some n → 750000000 ≤ n then slewTo acc
          else if 499500000 ≤ s.tm.n.getD 0 ∧ s.tm.n.getD 0 ≤ 500500000 then
            slewTo { acc with inc := 1000000000 * 2 ^ 32 / s.tm.n.getD 0 }
          else acc) ∧
        t.arr = s.arr ∧ t.pl = s.pl ∧ t.tt = s.tt ∧ t.pw = s.pw ∧ t.hd = s.hd ∧ t.gen = s.gen ∧
        ∀ off, setupReg off = true → csrGet t off = csrGet s off) ∧
      (s.tm.lost = false → exec .ppsLost s = .next (postEvent { s with tm := { s.tm with lost := true, n := none } } 7 St.ppsLost 0
        s.tm.lastEdge (s.tm.glitches % 2 ^ 16))) ∧
      (s.tm.lost = true → exec .ppsLost s = .next s))

/-- The counts of a metering window: At the end of a window, in a slice out of cold reset whose control island is clocked, each
of the 16 classes has each count, in units of 64 bytes rounded down and saturating at 0xFFFF, in its DRF_QOS_BWn; the exact
bytes are added to DRF_QOS_MEMTOTn and DRF_QOS_PORTTOTn; the window counts are zero; and nothing outside the sharing and
metering state changes. (R517) -/
def Obligations.WindowCounts : Prop :=
  ∀ s : State, s.pw.rstN = true → s.pw.clkAon = true → ∃ t, exec .meteringWindowEnd s = .next t ∧ t = { s with qs := t.qs } ∧
      t.qs.evs = s.qs.evs ∧
    t.qs.pressure = s.qs.pressure ∧ t.qs.credit = s.qs.credit ∧ t.qs.traces = s.qs.traces ∧
    (∀ c g, winGet t c g = 0) ∧
    ∀ c < 16,
      SMap.get 0 t.qs.bw c = BitVec.ofNat 64 (at_ (min 0xFFFF (winGet s c 0 / 64)) 48 + at_ (min 0xFFFF (winGet s c 1 / 64)) 32 +
        at_ (min 0xFFFF (winGet s c 2 / 64)) 16 + min 0xFFFF (winGet s c 3 / 64)) ∧
      SMap.get 0 t.qs.memTot c = SMap.get 0 s.qs.memTot c + BitVec.ofNat 64 (winGet s c 0) ∧
      SMap.get 0 t.qs.portTot c = SMap.get 0 s.qs.portTot c + BitVec.ofNat 64 (winGet s c 1 + winGet s c 2 + winGet s c 3)

/-- Class settings act from the next window: A write to DRF_QOS_CLASSn by a register frame leaves the settings in force of every
class as they are, and so the sharing state; after the end of a metering window, while the control island runs, the settings in
force of each class are what its register holds. (R518) -/
def Obligations.QosClassNextWindow : Prop :=
  (∀ (cls : Nat) (a : Csr) (s : State), cls < 16 → FrameAccess s a → Settled s → s.pw.flowStop = false →
    accCheck s (csrAt a (0x3000 + 8 * cls)) true = (0, 0) → ∃ t, exec (.qosClassWrite cls a) s = .next t ∧ t.qs = s.qs ∧
    (∀ c, clsCfg t c = clsCfg s c) ∧ ∃ r, regAt (0x3000 + 8 * cls) = some r ∧
      csrGet t (0x3000 + 8 * cls) = newBits s r (0x3000 + 8 * cls) (written a) % 2 ^ 64) ∧
  (∀ s : State, s.pw.rstN = true → s.pw.clkAon = true → ∃ t, exec .meteringWindowEnd s = .next t ∧
      ∀ c < 16, clsCfg t c = csrGet s (0x3000 + 8 * c))

/-- Memory pressure, regulator readings and the second to load: MEM_PRESSURE_DECLARED and MEM_PRESSURE_RELEASED set and clear
pressure and nothing else. A REG_READING the stop takes is ignored for VDD_AON and while energy metering is off, discarded and
counted where it is older than the 4 intervals kept or the timestamp stepped in its interval, kept where another rail of its
group is still to come, and otherwise updates the gain. A TIME_SECONDS loads DRF_PPS_SECONDS and arms a set edge. A broadcast
goes on as well. (R519, R538, R539) -/
def Obligations.PressureAndReadings : Prop :=
  (∀ s : State, exec .memPressureDeclared s = .next { s with qs := { s.qs with pressure := true } } ∧
    exec .memPressureReleased s = .next { s with qs := { s.qs with pressure := false } }) ∧
  (∀ (f : Frame) (s : State), TakesFrame s f → f.type = 0x31 → exec (.timeSeconds f) s =
    .next { csrPut (frameOn s f) 0xE10 (f.payload.getD 0 0 % 2 ^ 32 + (f.payload.getD 1 0 % 4) * 2 ^ 32) with
      tm := { s.tm with armed := true } }) ∧
  (∀ (f : Frame) (s : State) (rail k uj now age : Nat), TakesFrame s f → f.type = 0x30 →
    rail = f.payload.getD 0 0 / 2 ^ 29 % 8 → k = f.payload.getD 1 0 % 2 ^ 32 → uj = f.payload.getD 2 0 % 2 ^ 32 →
    now = calInterval s (tsNs s) → age = (now % 2 ^ 32 + 2 ^ 32 - k) % 2 ^ 32 →
    (5 ≤ rail ∨ csrBit s 0x3500 31 = false → exec (.regReading f) s = .next (frameOn s f)) ∧
    (rail < 5 → csrBit s 0x3500 31 = true → 4 < age ∨ now < age ∨ now - age ∈ s.qs.steps →
      exec (.regReading f) s = .next (ev (frameOn s f) Ev.energyCalStale)) ∧
    (rail < 5 → csrBit s 0x3500 31 = true → age ≤ 4 → age ≤ now → now - age ∉ s.qs.steps →
      ∀ t g, g = (if rail = 0 then 0 else if rail ≤ 2 then 1 else 2) →
        t = { frameOn s f with qs := { s.qs with reads := SMap.put 0 s.qs.reads (8 * (now - age) + rail) (uj + 1) } } →
        exec (.regReading f) s = .next (
          if (groupRails g).all fun r => SMap.get 0 t.qs.reads (8 * (now - age) + r) != 0 then
            { calibrate t g (now - age) with qs := { (calibrate t g (now - age)).qs with
                reads := (calibrate t g (now - age)).qs.reads.filter fun e =>
                  !(e.1 / 8 == now - age && (groupRails g).contains (e.1 % 8)) } }
          else t)))

/-- Frames the ring stop does not take: A frame not addressed to the slice goes on unchanged from an ACTIVE stop; every frame
goes on from a stop that is not ACTIVE, but for one addressed to a fenced slice in FORWARD; an ACTIVE stop discards a frame
whose byte parity fails and reports it; and a frame taken of a type the slice does not accept counts ev.hdr_bad and does nothing
else. (R50, R52, R468) -/
def Obligations.FramesPassOn : Prop :=
  ∀ (c : Instr) (f : Frame) (s : State), frameOf c = some f →
    (s.hd.mode = 0 → f.bad = false → f.dst ≠ stopAddr s → f.dst ≠ 0xFFFF → exec c s = .next (drive s (.hdr f))) ∧
    (s.hd.mode ≠ 0 → s.hd.mode ≠ 1 ∨ s.hd.fenced = false ∨ (f.dst ≠ stopAddr s ∧ f.dst ≠ 0xFFFF) →
      exec c s = .next (drive s (.hdr f))) ∧
    (s.hd.mode = 0 → f.bad = true →
      exec c s = .next (postError s St.portParity { unit := 11, action := 8, detector := 6, detail := 5 * 2 ^ 28 })) ∧
    (TakesFrame s f → frameTaken f.type = false → exec c s = .next (ev (frameOn s f) Ev.hdrBad))

/-- The causes of a fence, and its walk: A FENCE frame the stop takes is answered with an ACK and fences a slice out of cold
reset with reason 1; a watchdog and a guard timeout fence it with reasons 3 and 4; each leaves FENCED with SLICE_READY low. A
further FENCE frame is answered and leaves the first reason. The end of the fence walk sets it done and keeps a FENCE_NOTICE for
the package manager. (R469, R472, R473, R474, R475) -/
def Obligations.FenceRows : Prop :=
  (∀ (f : Frame) (s : State), TakesFrame s f → f.type = 5 → s.pw.rstN = true → ∃ t, exec (.fenceFrame f) s = .next t ∧
    t.hd.fenced = true ∧ t.hd.reason = (if s.hd.fenced then s.hd.reason else 1) ∧
    (s.hd.fenced = false → t.pw.pstate = 6 ∧ t.pw.ready = false) ∧
    Out.hdr { type := 4, seq := s.hd.seq, dst := f.src, src := stopAddr s, payload := [f.seq % 65536] } ∈ t.out) ∧
  (∀ s : State, alive s = true → s.hd.fenced = false →
    (∃ t, exec .watchdogTimeout s = .next t ∧ t.hd.fenced = true ∧ t.hd.reason = 3 ∧ t.pw.pstate = 6 ∧ t.pw.ready = false) ∧
    (∃ t, exec .fabricGuardTimeout s = .next t ∧ t.hd.fenced = true ∧ t.hd.reason = 4 ∧ t.pw.pstate = 6 ∧ t.pw.ready = false)) ∧
  (∀ s : State, s.hd.fenced = true → s.hd.walkDone = false → ∃ t, exec .fenceWalkDone s = .next t ∧ t.hd.walkDone = true ∧
    t.hd.fenced = true ∧ t.hd.reason = s.hd.reason ∧ (∃ e ∈ t.hd.unacked, e.1.type = 3) ∧ t = { s with hd := t.hd, out := t.out }) ∧
  (∀ s : State, s.hd.fenced = false ∨ s.hd.walkDone = true → exec .fenceWalkDone s = .next s)

/-- Acknowledgements, frames sent again, heartbeats and the applied point: An ACK the stop takes removes the frame it names. A
kept frame is sent again where the stop may insert it, an ERROR frame only up to 8 sends, beyond which it is abandoned and
counted, a FENCE_NOTICE or RETIRE_DONE without limit. A heartbeat is sent by an ACTIVE stop with hb_en 1, with the next frame
number. An OPPOINT_SET sets the applied voltages; where the proposed ones are apart from them and no proposal was made in the
period, it makes and keeps one, and else it changes only the health state. (R469, R470, R479, R501) -/
def Obligations.FrameAnswers : Prop :=
  (∀ (f : Frame) (s : State), TakesFrame s f → f.type = 4 → ∀ left,
    left = (s.hd.unacked.filter fun e => e.1.seq != f.payload.headD 0 % 65536) →
    exec (.hdrAck f) s = .next { frameOn s f with hd := { s.hd with
      unacked := left, noticeAcked := s.hd.walkDone && !(left.any fun e => e.1.type == 3) } }) ∧
  (∀ (seq : Nat) (s : State), (∀ e ∈ s.hd.unacked, e.1.seq ≠ seq) → exec (.frameResend seq) s = .next s) ∧
  (∀ (seq n : Nat) (f : Frame) (s : State), (s.hd.unacked.find? fun e => e.1.seq == seq) = some (f, n) →
    s.hd.mode = 0 ∨ (s.hd.fenced = true ∧ s.hd.mode = 1 ∧ f.type = 3) →
    (n < 8 ∨ f.type = 3 ∨ f.type = 0x26 → exec (.frameResend seq) s = .next (drive { s with hd := { s.hd with
      unacked := s.hd.unacked.map fun e => if e.1.seq = seq then (e.1, n + 1) else e } } (.hdr f))) ∧
    (8 ≤ n → f.type ≠ 3 → f.type ≠ 0x26 → exec (.frameResend seq) s = .next (ev { s with hd := { s.hd with
      unacked := s.hd.unacked.filter fun e => e.1.seq != seq } } Ev.hdrUndelivered))) ∧
  (∀ s : State, s.hd.mode = 0 → csrBit s 0xC28 15 = true → ∃ t, exec .heartbeat s = .next t ∧
    t.out = s.out ++ [.hdr { type := 2, seq := s.hd.seq, dst := csrFld s 0xC28 31 16, src := stopAddr s, payload :=
      [b2n s.pw.ready + at_ (b2n (s.hl.rState != 0)) 1 + at_ (b2n s.pw.flowStop) 2 + at_ (b2n s.tm.lost) 3 + at_ (s.pr.st % 16) 4,
        tsNs s % 2 ^ 32] }] ∧
    t = { s with out := t.out, hd := { s.hd with seq := (s.hd.seq + 1) % 65536 } }) ∧
  (∀ s : State, s.hd.mode ≠ 0 ∨ csrBit s 0xC28 15 = false → exec .heartbeat s = .next s) ∧
  (∀ (f : Frame) (s : State), TakesFrame s f → f.type = 0x21 → ∃ t, exec (.oppointSet f) s = .next t ∧
    t.hl.vCore = f.payload.headD 0 % 65536 ∧ t.hl.vArr = f.payload.headD 0 / 65536 % 65536 ∧
    t.arr = s.arr ∧ t.pl = s.pl ∧ t.pw = s.pw ∧ t.pr = s.pr ∧ t.gen = s.gen ∧
    (s.hl.propCore ≠ 0 → apart s.hl.propCore (f.payload.headD 0 % 65536) = true ∨
        apart s.hl.propArr (f.payload.headD 0 / 65536 % 65536) = true →
      s.hl.proposed = 0 ∨ s.hl.proposed - 1 + ageingPeriod s ≤ tsNs s → t.hl.proposed = tsNs s + 1 ∧
        ∃ e ∈ t.hd.unacked, e.1.type = 0x20 ∧ e.1.payload.headD 0 = s.hl.propArr % 65536 * 65536 + s.hl.propCore % 65536) ∧
    (s.hl.propCore = 0 ∨ (apart s.hl.propCore (f.payload.headD 0 % 65536) = false ∧
        apart s.hl.propArr (f.payload.headD 0 / 65536 % 65536) = false) ∨
      (s.hl.proposed ≠ 0 ∧ tsNs s < s.hl.proposed - 1 + ageingPeriod s) → t = { frameOn s f with hl := t.hl }))

/-- Requests for retirement, and the stress point: SLICE.RETIRE of a slice not in retirement raises a request of reason 7 and
starts the drain. A RETIRE_GO starts it too, raising a request of reason 8 first where none stands; a hold that expires starts
it as well, unless retire_hold is 0xFFFF. The timeout of a stress point ends its command with ST_BAD_STATE; a STRESS_SET that
reports the point reached runs the tests and keeps a STRESS_DONE; one that reports its end ends the command with the kernels
that failed and leaves the plan lock to be aligned again. (R441, R502, R503, R504, R496) -/
def Obligations.RetirementRows : Prop :=
  (∀ (f : Frame) (s : State), TakesFrame s f → f.type = 0x25 →
    exec (.retireGo f) s = .next (advance (drainStart (if s.hl.rState = 0 then raiseRetire (frameOn s f) 8 8 else frameOn s f)))) ∧
  (∀ s : State, s.hl.rState = 0 → ∃ t, raiseRetire s 8 8 = t ∧ t.hl.rState = 1 ∧ t.hl.rReason = 8 ∧
      t.hl.retires = s.hl.retires + 1 ∧
    t.arr = s.arr ∧ t.pl = s.pl) ∧
  (∀ (ring idx : Nat) (c : Cmd) (s : State), Starts s ring idx 0x0A1 c → s.hl.rState = 0 → ∃ t,
    exec (.sliceRetire ring idx) s = .next (advance t) ∧ t.hl.rState = 2 ∧ t.hl.rStep = 1 ∧ t.hl.rReason = 7 ∧
    t.hl.rCmds = s.hl.rCmds ++ [c.n] ∧ t.arr = s.arr ∧ t.pl = s.pl) ∧
  (∀ s : State, s.hl.rState = 1 → csrFld s 0xD00 47 32 ≠ 0xFFFF → exec .retireHoldExpiry s =
    .next (advance { s with hl := { s.hl with rState := 2, rStep := 1, written := 0, lost := [] } })) ∧
  (∀ s : State, s.hl.rState ≠ 1 ∨ csrFld s 0xD00 47 32 = 0xFFFF → exec .retireHoldExpiry s = .next s) ∧
  (∀ s : State, s.hl.stress = 1 → exec .stressSetTimeout s =
    .next (cmdEnd { s with hl := { s.hl with stress := 0, stressCmd := 0 } } s.hl.stressCmd St.badState 0 0)) ∧
  (∀ s : State, s.hl.stress ≠ 1 → exec .stressSetTimeout s = .next s) ∧
  (∀ (f : Frame) (s : State) (c : Cmd), TakesFrame s f → f.type = 0x23 → cmdGet s s.hl.stressCmd = some c →
    (s.hl.stress = 0 → exec (.stressSet f) s = .next (frameOn s f)) ∧
    (s.hl.stress = 1 → (f.payload.getD 1 0).testBit 8 = true → ∃ t, exec (.stressSet f) s = .next t ∧ t.hl.stress = 2 ∧
      ∃ e ∈ t.hd.unacked, e.1.type = 0x24) ∧
    (s.hl.stress = 2 → (f.payload.getD 1 0).testBit 8 = false → exec (.stressSet f) s =
      .next (cmdEnd { frameOn s f with pw := { s.pw with planLock := false }, hl := { s.hl with stress := 0, stressCmd := 0 } } c.n
        (if s.hl.stressBad = 0 ∧ s.hl.stressPack = 0 then St.ok else St.testFail) s.hl.stressBad (s.hl.stressPack - 1))))

/-- The harrow, ageing, kernels, spare rows and disabled ways: A visit of the harrow to a way slot that holds nothing counts and
goes on to the next slot, and so does one to a line that is good. TEST.RUN of kernels alone ends ST_OK, or ST_TEST_FAIL with
those of them that failed. An ageing sample of a serving slice leaves its figures and proposed voltages. A kernel whose turn it
is and whose signature is the expected one only counts, and the turn goes on; one whose signature is not begins two reruns; a
kernel whose turn it is not changes nothing. A copied row switches to its spare, and an emptied way outside the pinned ones is
disabled; each saves the repair map under a new generation, at once where 10 ms have passed since the last copy and else later.
A disable that times out raises a request of reason 6. (R441, R456, R457, R484, R485, R487, R489, R490, R492, R498, R499) -/
def Obligations.HealthRows : Prop :=
  (∀ (bad : LineMask) (stuck : Bool) (s : State), serving s = true → csrBit s 0xC00 63 = true → s.pw.arrStopped = false →
      Settled s →
    s.pl.resv = [] → lineAt s (harrowSlot s 16 0 s.hl.pos) = {} → SMap.get {} s.pr.mirrors (harrowSlot s 16 0 s.hl.pos) = {} →
    (s.coh.sf.all fun e => !e.2.bad) = true → (s.ari.sheaves.all fun e => !e.2.bad) = true → s.hl.pos + 1 < harrowN s →
    exec (.harrowVisit bad stuck) s =
      .next { ev s Ev.harrowVisit with hl := { s.hl with pos := s.hl.pos + 1 } }) ∧
  (∀ (s : State) (k : Nat), serving s = true → csrBit s 0xC00 63 = true → s.pw.arrStopped = false → Settled s →
      s.hd.fenced = false →
    k = harrowSlot s 16 0 s.hl.pos → (lineAt s k).st ≠ .invalid → (lineAt s k).filling = false → openOf s (lineAt s k).addr = none →
    (lineAt s k).tagBad = 0 → (lineAt s k).badPar = 0 → (lineAt s k).crcBad = false → lineCrc (lineAt s k).data = (lineAt s k).crc →
    (s.coh.sf.all fun e => !e.2.bad) = true → (s.ari.sheaves.all fun e => !e.2.bad) = true → s.hl.pos + 1 < harrowN s →
    ∃ t, exec (.harrowVisit 0 false) s = .next t ∧ t.hl.pos = s.hl.pos + 1 ∧ t.hl.failures = s.hl.failures ∧
      t.arr.lines = s.arr.lines ∧ t.hd = s.hd) ∧
  (∀ (ring idx : Nat) (c : Cmd) (s : State), Starts s ring idx 0x090 c → (leAt c.desc 25 1).testBit 0 = false →
    (leAt c.desc 24 1).testBit 7 = false → ∃ t bad, exec (.testRun ring idx) s =
        .next (advance (cmdEnd t c.n (if bad = 0 then St.ok else St.testFail) bad 0)) ∧
      ∀ k, bad.testBit k = true → k < 48 ∧ (testMask c).testBit k = true) ∧
  (∀ (pairs : List (Nat × Nat)) (canary : List Nat) (s : State), serving s = true → csrBit s 0xD00 62 = true → ∃ t,
    exec (.ageingSample pairs canary) s = .next t ∧ t.hl.dCore = min (((pairs.take 8).map ageOf).foldl max 0) 255 ∧
    t.hl.dArr = min (((pairs.drop 8).map ageOf).foldl max 0) 255 ∧ t.hl.margin = canary.foldl min 15 ∧
    t.hl.propCore = propCore (((pairs.take 8).map ageOf).foldl max 0) ∧
    t.hl.propArr = propArr (arrFloor s.hl.vArr (canary.foldl min 15)) ∧ t.arr = s.arr ∧ t.pl = s.pl ∧ t.pw = s.pw) ∧
  (∀ (k sig : Nat) (s : State), serving s = true → csrBit s 0xD00 63 = true →
    (kernelRuns s k = false → exec (.kernelRunDone k sig) s = .next s) ∧
    (kernelRuns s k = true → s.hl.rerun = 0 →
      (sig = Config.kernelSig k → k ≠ 47 → exec (.kernelRunDone k sig) s =
        .next { ev s Ev.kernelRun with hl := { s.hl with
          kernelAc := SMap.put 0 s.hl.kernelAc k 0, kernelAt := if k = s.hl.kernelAt then (k + 1) % 48 else s.hl.kernelAt } }) ∧
      (sig ≠ Config.kernelSig k → exec (.kernelRunDone k sig) s =
        .next { ev s Ev.kernelRun with hl := { s.hl with
          kernelAc := SMap.put 0 s.hl.kernelAc k 0, kernel := k, rerun := 2, rerunBad := 0 } }))) ∧
  (∀ (bank way row : Nat) (s : State), serving s = true → (s.hl.copies.find? fun c => c.1 == bank) = some (bank, way, row) →
    (rowSlots bank way row).any (repairing s) = false → ∃ t, exec (.spareRowCopyDone bank) s = .next t ∧
    t.hl.spares = s.hl.spares ++ [(bank, way, row, (s.hl.spares.filter fun x => x.1 == bank).length)] ∧
    t.hl.copies = s.hl.copies.erase (bank, way, row) ∧ t.hl.wayDis = s.hl.wayDis ∧ MapSaved s t ∧ t.pl = s.pl ∧ t.pw = s.pw) ∧
  (∀ (bank way : Nat) (s : State), serving s = true → (bank, way) ∈ s.hl.wayGoing → (pinnedWays s bank).contains way = false →
    waySlots s bank way = [] → Settled s → ∃ t, exec (.wayDisableDone bank way) s = .next t ∧
    SMap.get 0 t.hl.wayDis bank = SMap.get 0 s.hl.wayDis bank ||| 2 ^ way ∧ t.hl.wayGoing = s.hl.wayGoing.erase (bank, way) ∧
    t.hl.spares = s.hl.spares ∧ MapSaved s t ∧ t.arr = s.arr ∧ t.pl = s.pl ∧ t.pw = s.pw) ∧
  (∀ (bank way : Nat) (s : State), (bank, way) ∈ s.hl.wayGoing → s.hl.rState = 0 →
      ∃ t, exec (.wayDisableTimeout bank way) s = .next t ∧
    t.hl.rState = 1 ∧ t.hl.rReason = 6 ∧ t.hl.retires = s.hl.retires + 1 ∧ t.arr = s.arr ∧ t.pl = s.pl)

/-- Accepted demand requests: A request other than a FENCE or BI_CONFLICT that a serving slice receives with good parity, from a
class the hedge does not fence and grants, and that passes the checks of R272, has its credit returned, draws the next
acceptance number, is owed its answer, is offered to the trace, and is presented for an open cycle; then the slice goes on as
far as it can. A FENCE and a BI_CONFLICT draw their number too, and wait for what they must. (R221, R266, R270, R272, R523,
R534, R566) -/
def Obligations.RequestsAccepted : Prop :=
  (∀ (k : Rq) (m : Msg) (s : State), k ≠ .fence → k ≠ .conflict → Accepted s k (rowMsg k m) →
    ∃ u, u = arrived s k (rowMsg k m) ∧ (k = .blkWr ∨ k = .blkAtl → Out.credit .blk 0 ∈ u.out) ∧
      ((rowMsg k m).port ≠ .blk → Out.credit (rowMsg k m).port k.code.1 ∈ u.out) ∧ u.arr = s.arr ∧ u.coh = s.coh ∧
      exec (k.instr m) s = .next (advance (present (traceAccept { u with
        pw := { s.pw with locked := true }
        arr := { s.arr with
          n := s.arr.n + 1
          owed := s.arr.owed ++ [{ n := s.arr.n, port := (rowMsg k m).port, src := m.src, tag := m.tag, addr := m.addr, size := m.size }] } }
        s.arr.n k.code.1 k.code.2 (rowMsg k m)) (k.toOp (rowMsg k m) s.arr.n)))) ∧
  (∀ (m : Msg) (s : State), (Accepted s .fence m → exec (.fence m) s =
      .next (advance (fenceAccept (traceAccept (arrived s .fence m) s.arr.n 3 8 m) m false))) ∧
    (Accepted s .conflict m → exec (.biConflict m) s =
      .next (advance (fenceAccept (traceAccept (arrived s .conflict m) s.arr.n 3 6 m) m true))) ∧
    ∀ b, (fenceAccept s m b).arr.n = s.arr.n + 1 ∧
        (fenceAccept s m b).arr.fences = s.arr.fences ++ [{ n := s.arr.n, m := m, conflict := b }])

/-- A request waits for an open cycle: While no cycle is open, a request accepted by a slice with nothing else to go on with
stays presented, and nothing of the lines, the snoop filter or the plan changes. (R221, R523) -/
def Obligations.RequestsWaitForCycles : Prop :=
  ∀ (k : Rq) (m : Msg) (s : State), k ≠ .fence → k ≠ .conflict → Accepted s k (rowMsg k m) → Settled s → s.pl.openNow = false →
    ∃ t, exec (k.instr m) s = .next t ∧ t.arr.presented = [k.toOp (rowMsg k m) s.arr.n] ∧ t.arr.lines = s.arr.lines ∧
      t.arr.n = s.arr.n + 1 ∧ t.coh = s.coh ∧ t.pl = s.pl

/-- A read of a resident line is answered with its bytes: A CTL RD accepted by a settled slice whose cycles are open, with no
miss, write, atomic, snoop, repair or stream under way, of bytes within one line that is resident in its last and intact, the
last in service, cached and not baled, is answered with DATA, ST_OK, the request's tag and class, and exactly the bytes of the
line it names, to its source. (Stated with a credit free on the answer's channel, the tags intact, tracing off and no host line
tracked.) (R87, R168, R221, R270, R295) -/
def Obligations.ReadHitAnswered : Prop :=
  ∀ (m : Msg) (s : State) (k : Nat), Accepted s .rd m → Settled s → m.port = .ctl → s.pw.coreDown = false → s.pl.openNow = true →
      s.pl.st = 0 →
    m.qos < 16 → s.qs.pressure = false → s.qs.traces = [] → csrBit s 0x3400 63 = false → s.txq = [] → SMap.get 0 s.credits 0 ≠ 0 →
    s.coh.sf = [] → s.coh.snoops = [] → s.coh.cautious = [] → s.arr.deleting = [] → s.arr.mhes = [] → s.arr.merges = [] →
    s.arr.opens = [] → s.arr.streams = [] → s.gen.pendingRc = [] → s.pr.repairs = [] → s.pr.sync = [] → s.hl.suspect = false →
    (s.arr.lines.all fun e => e.2.tagBad == 0) = true →
    findLine s (m.addr / 512) = some k → (lineAt s k).last = lastOfLine s (m.addr / 512) →
    ((lineAt s k).st = .clean ∨ (lineAt s k).st = .dirty) → (lineAt s k).badPar = 0 →
    (lastAt s (lastOfLine s (m.addr / 512))).cond = 1 → aBaled (lastAt s (lastOfLine s (m.addr / 512))).attr = false →
    aCache (lastAt s (lastOfLine s (m.addr / 512))).attr = true →
    ∃ t, exec (.rd m) s = .next t ∧ Out.msg .ctl
      { cls := 0, opcode := 0, status := St.ok, qos := m.qos, mod := 0, tag := m.tag, dst := m.src, src := ownId s, addr := m.addr,
        size := m.size, data := lineBytes (lineAt s k).data (m.addr % 512) (m.size + 1) } ∈ t.out

/-- FENCE and BI_CONFLICT: A FENCE accepted by a settled slice that owes its source no answer, with no scope beyond the slice,
is answered with CMP; a BI_CONFLICT accepted while no host request of the chip is owed for its line is answered with
CONFLICT_ACK; and each draws an acceptance number and leaves the lines as they are. (Stated with a credit free on the answer's
channel.) (R270, R278, R290, R291) -/
def Obligations.FencesAccepted : Prop :=
  (∀ (m : Msg) (s : State), Accepted s .fence m → Settled s → m.mod ≠ 2 →
    (s.arr.owed.all fun o => !(o.src == m.src && (o.port == m.port || (m.port == .ctl && o.port == .blk)))) = true →
    s.txq = [] → s.pw.coreDown = false → SMap.get 0 s.credits (channel (answerPort m.port) 1) ≠ 0 →
    ∃ t, exec (.fence m) s = .next t ∧ t.arr.n = s.arr.n + 1 ∧ t.arr.fences = [] ∧ t.arr.lines = s.arr.lines ∧
      Out.msg (answerPort m.port) { cls := 1, opcode := 0, qos := m.qos, tag := m.tag, dst := m.src, src := ownId s, addr := m.addr,
                                    size := m.size } ∈ t.out) ∧
  (∀ (m : Msg) (s : State), Accepted s .conflict m → Settled s → s.arr.owed = [] → s.txq = [] → s.pw.coreDown = false →
    SMap.get 0 s.credits 9 ≠ 0 →
    ∃ t, exec (.biConflict m) s = .next t ∧ t.arr.n = s.arr.n + 1 ∧ t.arr.fences = [] ∧ t.arr.lines = s.arr.lines ∧
      Out.msg .hst { cls := 1, opcode := 2, qos := m.qos, tag := m.tag, dst := m.src, src := ownId s, addr := m.addr, size := m.size }
        ∈ t.out)

/-- Requests the slice does not accept: A fenced slice answers a request ST_FENCED, and nothing more; a request that arrives in
BACKUP_HOLD waits; one that arrives while the slice does not serve is not received. In a serving slice, one of bad header parity
is reported and discarded; one of bad payload is answered ST_DATA_ERROR and reported; one of a reserved class counts as bad and
is discarded; one of a fenced class, or that the hedge does not grant, ST_HEDGE_DENIED, and logged; and one that fails a check
of R272 with the status of the first check that fails, in the order reserved and opcode fields, size, address. (R272, R450,
R473, R476, R558, R560, R567, R568) -/
def Obligations.RequestsRefused : Prop :=
  ∀ (k : Rq) (m : Msg) (s : State), rowMsg k m = m →
    (s.hd.fenced = true → exec (k.instr m) s =
      .next (if m.parity = .header ∨ m.unlisted = 2 then arrived s k m else refuse (arrived s k m) k m St.fenced)) ∧
    (s.hd.fenced = false → s.pw.pstate = 4 → s.pw.ready = true →
        exec (k.instr m) s = .next { s with held := s.held ++ [k.instr m] }) ∧
    (s.hd.fenced = false → s.pw.pstate ≠ 4 ∨ s.pw.ready = false → serving s = false → exec (k.instr m) s = .next s) ∧
    (serving s = true →
      (m.parity = .header → exec (k.instr m) s = .next (parityRecord (arrived s k m) m)) ∧
      (m.parity = .payload → m.unlisted ≠ 2 →
          exec (k.instr m) s = .next (parityRecord (refuse (arrived s k m) k m St.dataError) m)) ∧
      (m.parity = .ok → m.unlisted = 2 → exec (k.instr m) s = .next (ev (arrived s k m) Ev.msgBad)) ∧
      (m.parity = .ok → m.unlisted ≠ 2 → hedgeFenced s (hedgeClass s m.src) = true → exec (k.instr m) s =
        .next (refuse (hedgeDeny (arrived s k m) m (hedgeClass s m.src)) k m St.hedgeDenied))) ∧
    (Received s m → ∀ u, u = arrived s k m →
      (badOp s k m = true → exec (k.instr m) s = .next (refuse u k m St.badOp)) ∧
      (badOp s k m = false → badSize s k m = true → exec (k.instr m) s = .next (refuse u k m St.badSize)) ∧
      (badOp s k m = false → badSize s k m = false → badAddr s k m = true → exec (k.instr m) s = .next (refuse u k m St.badAddr)) ∧
      (reqCheck s k m = 0 → hedgePasses s m (hedgeClass s m.src) k.need = false → exec (k.instr m) s =
        .next (refuse (hedgeDeny u m (hedgeClass s m.src)) k m St.hedgeDenied)))

/-- Data and responses of the host: Taken by a settled slice with FLOW_STOP_N high: a CMP ends the write of the slice it names;
a HINT_ACK ends its push, dropping the host line and counting where the host declined; a BI_RSP of a BI_SNP_INV removes the host
lines it covers from the filter, and frees the tracker entry where no SNP_WB is to come; an SNP_WB is performed as a write of
its host line before what waits for the line, is noted at its entry, and frees it once all are in; one the slice drops is only
noted; an SNP_IN of a line no ring watches is answered SNP_RSP with state I; in BACKUP_HOLD it waits. A snoop unanswered for 1
ms is reported once and stays. (R248, R257, R259, R264, R265, R281, R307, R308) -/
def Obligations.HostAnswers : Prop :=
  (∀ (m : Msg) (s : State), Taken s m → Settled s → s.pw.flowStop = false → m.mod = 0 → exec (.cmp m) s =
    .next { arrives s m 1 0 with rg := { s.rg with hstWrs := s.rg.hstWrs.filter fun w => w.1 != m.tag } }) ∧
  (∀ (m : Msg) (s : State) (p : Push), Taken s m → Settled s → s.pw.flowStop = false → m.mod ≤ 1 → m.size = 63 → m.addr % 64 = 0 →
    (s.coh.pushes.find? fun p => p.tag == m.tag && p.host == m.addr / 64) = some p → ∀ u,
    u = { arrives s m 1 0 with coh := { s.coh with pushes := s.coh.pushes.filter fun q => q.tag != p.tag } } →
    exec (.hintAck m) s = .next (if m.mod = 0 then ev (sfDrop u p.host) Ev.hintDeclined else u)) ∧
  (∀ (m : Msg) (s : State) (x : Snoop), Taken s m → Settled s → s.pw.flowStop = false → m.mod ≤ 1 → m.size ∈ [63, 127, 255] →
    m.addr % (m.size + 1) = 0 → x.victim = false → x.data = false → x.wb = 0 → m.status % 2 ^ x.count % 16 = 0 →
    (s.coh.snoops.find? fun x => decide (x.host = m.addr / 64 ∧ 64 * x.count = m.size + 1) && x.rsp.isNone) = some x →
    ∃ t, exec (.biRsp m) s = .next t ∧ (∀ y ∈ t.coh.snoops, y.host ≠ x.host) ∧
      (∀ i k, i < x.count → sfFind s (x.host + i) = some k → SMap.get {} t.coh.sf k = {}) ∧ t.arr.lines = s.arr.lines ∧
          t.pl = s.pl) ∧
  (∀ (m : Msg) (s : State) (x : Snoop), Taken s m → Settled s → s.pw.flowStop = false → m.mod = 0 → m.size = 63 → m.addr % 64 = 0 →
    snoopOf s (m.addr / 64) = some x → x.dropWb = false → ∃ u, exec (.snpWb m) s = .next (advance (snoopUpd u
        { x with wb := x.wb ||| BitVec.ofNat 4 (2 ^ (m.addr / 64 - x.host)) })) ∧
      u = serveFirst { arrives s m 0 64 with arr := { s.arr with n := s.arr.n + 1 } }
        { n := s.arr.n, kind := .wb, m := { m with size := 63, mask := 2 ^ 64 - 1 } }) ∧
  (∀ (m : Msg) (s : State) (k : Nat) (x : Snoop) (l : Line), Taken s m → Settled s → s.pw.flowStop = false → m.mod = 0 →
      m.size = 63 →
    m.addr % 64 = 0 → m.data.length = 64 → snoopOf s (m.addr / 64) = some x → x.dropWb = false → s.arr.mhes = [] →
        s.arr.opens = [] →
    s.arr.streams = [] → s.pr.sync = [] → s.pr.repairs = [] → s.gen.pendingRc = [] → csrBit s 0xC10 63 = false →
    s.pl.veil = [] → (s.arr.lines.all fun e => e.2.tagBad == 0) = true → findLine s (m.addr / 512) = some k → l = lineAt s k →
    l.filling = false → l.crcBad = false →
    l.last = lastOfLine s (m.addr / 512) → l.st = .dirty → l.badPar = 0 → (lastAt s l.last).cond = 1 →
    aCache (lastAt s l.last).attr = true → aKind (lastAt s l.last).attr ≠ 1 → aBaled (lastAt s l.last).attr = false →
    aTrack (lastAt s l.last).attr = false → aPaired (lastAt s l.last).attr = false →
    ∃ t, exec (.snpWb m) s = .next t ∧ lineBytes (lineAt t k).data (m.addr % 512) 64 = m.data ∧ (lineAt t k).st = .dirty ∧
      (∀ j, j ≠ k → lineAt t j = lineAt s j) ∧ t.pl = s.pl) ∧
  (∀ (m : Msg) (s : State) (x : Snoop), Taken s m → Settled s → s.pw.flowStop = false → m.mod = 0 → m.size = 63 → m.addr % 64 = 0 →
    snoopOf s (m.addr / 64) = some x → x.dropWb = true → x.rsp = none → exec (.snpWb m) s =
      .next { arrives s m 0 64 with coh := { s.coh with snoops := s.coh.snoops.map fun y => if y.host = x.host then
        { x with wb := x.wb ||| BitVec.ofNat 4 (2 ^ (m.addr / 64 - x.host)) } else y } }) ∧
  (∀ (m : Msg) (s : State), Taken s m → m.mod = 0 → m.size = 63 → m.addr % 64 = 0 → watchers s m.addr = [] → exec (.snpIn m) s =
    .next (sendMsg (arrives s m 2 0) .hst
      { cls := 1, opcode := 3, qos := m.qos, tag := m.tag, dst := m.src, addr := m.addr, size := m.size })) ∧
  (∀ (m : Msg) (s : State), s.hd.fenced = false → s.pw.pstate = 4 → s.pw.ready = true → s.pw.coreDown = false →
    exec (.snpIn m) s = .next { s with held := s.held ++ [.snpIn m] }) ∧
  (∀ (host : Nat) (s : State), s.hd.fenced = false → (∀ x ∈ s.coh.snoops, x.host = host → x.rsp.isSome = true ∨ x.reported = true) →
    exec (.biTimeout host) s = .next s) ∧
  (∀ (host : Nat) (s : State) (x : Snoop), s.hd.fenced = false →
    (s.coh.snoops.find? fun x => x.host == host && x.rsp.isNone && !x.reported) = some x → x.rsp = none → exec (.biTimeout host) s =
      .next (postError { s with coh := { s.coh with snoops := s.coh.snoops.map fun y => if y.host = x.host then
        { x with reported := true } else y } } St.biTimeout
        { unit := 15, addr := host * 64, last := lastOf s (host * 64), ctx := aCtx (lastAt s (lastOf s (host * 64))).attr, detector := 10 }))

/-- Commands start: A row of a command runs the meaning of its code on the command that waits at its index of its ring, where
that command may start, and the slice then goes on as far as it can; where none of that code waits there or it may not start
yet, nothing changes. A NOP that starts ends ST_OK with word2 and aux 0. Of a command that passes its checks: LAST.DEFINE leaves
the last it defines in service and ends ST_OK; LAST.DELETE and the range and digest commands present one operation for each line
they act on, in order; LAST.READ ends ST_OK with its record written to the host; LAST.RESTORE of a good log buffer has the last
restored; SHEAF.BIND and BIAS.FLIP go on with their work; SHEAF.READ presents the writes of its results; SHEAF.RELEASE ends
ST_OK with no window bound at its base. (R306, R396, R416, R421, R422, R423, R424, R425, R426, R428, R429, R437) -/
def Obligations.CommandsStart : Prop :=
  (∀ (i : Instr) (ring idx code : Nat) (f : State → Cmd → State) (c : Cmd) (s : State), commandOf i = some (ring, idx, code, f) →
    Starts s ring idx code c → exec i s = .next (advance (f (begun s c) { c with started := true }))) ∧
  (∀ (i : Instr) (ring idx code : Nat) (f : State → Cmd → State) (s : State), commandOf i = some (ring, idx, code, f) →
    (∀ c, ¬ Starts s ring idx code c) → exec i s = .next s) ∧
  (∀ (ring idx : Nat) (c : Cmd) (s : State), Starts s ring idx 0x000 c →
      exec (.nop ring idx) s = .next (advance (cmdEnd (begun s c) c.n St.ok 0 0))) ∧
  (∀ (ring idx : Nat) (c : Cmd) (s : State) (i : Nat) (r : Last), Starts s ring idx 0x010 c → i = leAt c.desc 48 2 % 1024 →
      i ≠ 1023 →
    (SMap.get {} s.arr.lasts i).cond = 0 → r = definedRecord s c → defineCheck s r = 0 → rangeBusy s r.base r.limit = false →
    ∃ t first, exec (.lastDefine ring idx) s = .next (advance t) ∧ EndsOk t c first ∧ t.pw.locked = true ∧
      SMap.get {} t.arr.lasts i = { r with cond := 1, pin := if aKind r.attr = 2 then at_ first 6 + pinStride r.pin else 0 } ∧
      ∀ j, j ≠ i → SMap.get {} t.arr.lasts j = SMap.get {} s.arr.lasts j) ∧
  (∀ (ring idx : Nat) (c : Cmd) (s : State) (i : Nat) (l : Last), Starts s ring idx 0x011 c → i = leAt c.desc 16 2 % 1024 →
      i ≠ 1023 →
    l = SMap.get {} s.arr.lasts i → l.cond ≠ 0 → aCtx l.attr = leAt c.desc 18 2 % 4096 → rangeBound s l.base l.limit = false →
    (aDur l.attr = 2 → lockedSlots s i = []) → ((running s c).any fun x => actsOn s x i) = false →
        rangeBusy s l.base l.limit = false →
    s.arr.merges = [] → ∃ t ls, exec (.lastDelete ring idx) s = .next (advance t) ∧ Walks s t c .clean ls ∧
      (∀ x, x ∈ ls ↔ x ∈ heldLines s l.base l.limit) ∧ i ∈ t.arr.deleting ∧ t.arr.lines = s.arr.lines) ∧
  (∀ (ring idx : Nat) (c : Cmd) (s : State) (l : Last), Starts s ring idx 0x012 c → l = lastAt s (leAt c.desc 16 2 % 1024) →
    ∃ t w, exec (.lastRead ring idx) s = .next (advance t) ∧ EndsOk t c w ∧ w % 4 = l.cond % 4 ∧ w.testBit 2 = l.unprot ∧
      (s.txq = [] → portsHalt s = false → SMap.get 0 s.credits 11 ≠ 0 → ∃ m, Out.msg .hst m ∈ t.out ∧ m.cls = 3 ∧ m.opcode = 2 ∧
        m.addr = leAt c.desc 24 8 % 2 ^ 52 ∧ m.data = (if l.cond = 0 then List.replicate 32 0 else lastRecord l))) ∧
  (∀ (ring idx : Nat) (input : Bytes) (c : Cmd) (s : State) (i : Nat) (l : Last) (recs : List (Nat × LineMask × LineData × Bool × Nat)) (n : Nat), Starts s ring idx 0x013 c →
    i = leAt c.desc 16 2 % 1024 → i ≠ 1023 → l = lastAt s i → l.cond = 2 → aCtx l.attr = leAt c.desc 18 2 % 4096 →
        leAt c.desc 24 8 % 32 = 0 →
    leAt c.desc 32 8 ≠ 0 → leAt c.desc 32 8 % 32 = 0 → ((running s c).any fun x => actsOn s x i) = false →
    replayParse (begun s c) (aCtx l.attr) (some i) (slice input 0 (leAt c.desc 32 8)) (leAt c.desc 40 4) = .good recs n →
    ∃ t, exec (.lastRestore ring idx input []) s = .next (advance t) ∧ (lastAt t i).cond = 3 ∧
      (∀ x ∈ t.rg.cmds, x.n = c.n → x.phase = 6 ∧ x.recs = recs ∧ x.acc = n) ∧ t.arr.lines = s.arr.lines ∧ t.gen = s.gen) ∧
  (∀ (ring idx code : Nat) (i : Instr) (k : OpKind) (c : Cmd) (s : State), (i = .rangePrefetch ring idx ∧ code = 0x020 ∧
      k = .prefetch) ∨
      (i = .rangeFlush ring idx ∧ code = 0x021 ∧ k = .flush) ∨ (i = .rangeInvalidate ring idx ∧ code = 0x022 ∧ k = .inval) ∨
      (i = .rangeDiscard ring idx ∧ code = 0x023 ∧ k = .discard) → Starts s ring idx code c → rangeCheck c = 0 →
    rangeDenied s (rangeBase c) (rangeLen c) (leAt c.desc 34 2 % 4096) = false →
    ∃ t, exec i s = .next (advance t) ∧ t.arr.lines = s.arr.lines ∧ Walks s t c k (if code = 0x020 then prefetchLines s c
      else walkLines s (rangeBase c) (rangeBase c + rangeLen c) (code == 0x023 && csrBit s 0xF10 28))) ∧
  (∀ (ring idx : Nat) (c : Cmd) (s : State), Starts s ring idx 0x063 c → 0 < leAt c.desc 24 4 → leAt c.desc 24 4 ≤ 2 ^ 24 →
    rangeBase c % 512 = 0 → isExpert c = false → s.hl.suspect = false →
    (∀ m < leAt c.desc 24 4, aCtx (lastAt s (lastOfLine s (rangeBase c / 512 + m))).attr = leAt c.desc 34 2 % 4096) →
    ∃ t, exec (.digestRange ring idx) s = .next (advance t) ∧ t.arr.lines = s.arr.lines ∧
      Walks s t c .digest ((List.range (leAt c.desc 24 4)).map (rangeBase c / 512 + ·))) ∧
  (∀ (ring idx : Nat) (c : Cmd) (s : State) (li : Nat) (l : Last), Starts s ring idx 0x060 c → li = lastOf s (rangeBase c) →
      l = lastAt s li →
    leAt c.desc 24 2 ≠ 0 → leAt c.desc 24 2 ≤ 4096 → rangeBase c % 512 = 0 → aCtx l.attr = leAt c.desc 28 2 % 4096 →
    leAt c.desc 26 1 % 2 = 0 → aBaled l.attr = false → aKind l.attr ≠ 1 → aCache l.attr = true →
    rangeBase c + 512 * (bindLines c).length ≤ l.limit → (∀ x ∈ bindLines c, lastOfLine s x = li) → bindRefusal s c = 0 →
        l.cond = 1 →
    ∃ t, exec (.sheafBind ring idx) s = .next (advance t) ∧ t = { s with rg := t.rg } ∧
      ∀ x ∈ t.rg.cmds, x.n = c.n → x.started = true ∧ x.phase = 1) ∧
  (∀ (ring idx : Nat) (c : Cmd) (s : State) (w : Window), Starts s ring idx 0x061 c → windowAt s c = some w → w.lost = false →
    aCtx (lastAt s w.last).attr = leAt c.desc 28 2 % 4096 → s.hl.suspect = false → badSheaf s w = none →
    ((running s c).any fun x => x.code == 0x061 && rangeBase x == w.base) = false → atomWaits s (windowLines w) = false →
    ∃ t ops, exec (.sheafRead ring idx) s = .next (advance t) ∧ t.arr.presented = s.arr.presented ++ ops ∧
      (ops.map fun o => o.m.data).flatten = (windowResults s w).1 ∧ (∀ o ∈ ops, o.kind = .wr ∧ o.cmd = c.n) ∧
          t.arr.lines = s.arr.lines ∧
      ∀ x ∈ t.rg.cmds, x.n = c.n → x.phase = 1 ∧ x.acc = w.digest.toNat) ∧
  (∀ (ring idx : Nat) (c : Cmd) (s : State) (w : Window), Starts s ring idx 0x062 c → windowAt s c = some w →
    aCtx (lastAt s w.last).attr = leAt c.desc 28 2 % 4096 →
        ((running s c).any fun x => x.code == 0x061 && rangeBase x == w.base) = false →
    ∃ t, exec (.sheafRelease ring idx) s = .next (advance t) ∧ EndsOk t c 0 ∧
        t.ari.windows = s.ari.windows.filter (fun x => x.base != w.base) ∧
      ∀ e ∈ t.ari.sheaves, ¬ (w.first ≤ e.1 ∧ e.1 < w.first + w.count)) ∧
  (∀ (ring idx : Nat) (c : Cmd) (s : State), Starts s ring idx 0x070 c → csrBit s 0x600 0 = true →
      flipBase c % 2 ^ pageShift s = 0 →
    flipLen c ≠ 0 → flipLen c % 2 ^ pageShift s = 0 → csrFld s 0x610 51 0 ≤ flipBase c →
        flipBase c + flipLen c ≤ csrFld s 0x618 51 0 →
    ∃ t, exec (.biasFlip ring idx) s = .next (advance t) ∧ t = { s with rg := t.rg } ∧
      ∀ x ∈ t.rg.cmds, x.n = c.n → x.started = true ∧ x.phase = 3)

/-- Commands refused at their start: A command that a check of its table refuses ends with the status of that check, word2 and
aux 0, and has no other effect: a range that fails R427 or touches another context; generation and context commands on a context
in another state; PLAN.RUN without plan lock; a sheaf that is not bound; DIGEST.RANGE of no lines; BIAS.FLIP with the table
disabled; pair commands in another pair state; TEST.RUN of an empty pack slot; a second PATCH.LOAD; SLICE.RETIRE during a
retirement. (R407, R418, R419, R427, R434, R436, R437, R438, R439, R440, R441) -/
def Obligations.CommandsRefused : Prop :=
  (∀ (ring idx : Nat) (c : Cmd) (s : State), Starts s ring idx 0x011 c → (leAt c.desc 16 2 % 1024 = 1023 ∨
      (SMap.get {} s.arr.lasts (leAt c.desc 16 2 % 1024)).cond = 0) →
      exec (.lastDelete ring idx) s = .next (advance (cmdEnd (begun s c) c.n St.badAttr 0 0))) ∧
  (∀ (ring idx : Nat) (c : Cmd) (s : State), Starts s ring idx 0x021 c → rangeCheck c ≠ 0 →
      exec (.rangeFlush ring idx) s = .next (advance (cmdEnd (begun s c) c.n (rangeCheck c) 0 0))) ∧
  (∀ (ring idx : Nat) (c : Cmd) (s : State), Starts s ring idx 0x022 c → rangeCheck c ≠ 0 →
      exec (.rangeInvalidate ring idx) s = .next (advance (cmdEnd (begun s c) c.n (rangeCheck c) 0 0))) ∧
  (∀ (ring idx : Nat) (c : Cmd) (s : State), Starts s ring idx 0x023 c → rangeCheck c = 0 →
      rangeDenied s (rangeBase c) (rangeLen c) (leAt c.desc 34 2 % 4096) = true →
      exec (.rangeDiscard ring idx) s = .next (advance (cmdEnd (begun s c) c.n St.ctxDenied 0 0))) ∧
  (∀ (ring idx : Nat) (c : Cmd) (s : State), Starts s ring idx 0x030 c → (ctxGet s (cmdContext c)).st ≠ 0 →
      exec (.genOpen ring idx) s = .next (advance (cmdEnd (begun s c) c.n St.badState 0 0))) ∧
  (∀ (ring idx : Nat) (c : Cmd) (s : State), Starts s ring idx 0x032 c →
      csrBit s (0x808 + 16 * (leAt c.desc 16 1 % 16)) 63 = false →
      exec (.logAdvance ring idx) s = .next (advance (cmdEnd (begun s c) c.n St.badState 0 0))) ∧
  (∀ (ring idx : Nat) (c : Cmd) (s : State), Starts s ring idx 0x040 c → (leAt c.desc 18 1).testBit 1 = false →
      (ctxGet s (cmdContext c)).st ≠ 1 → exec (.ctxFreeze ring idx) s = .next (advance (cmdEnd (begun s c) c.n St.badState 0 0))) ∧
  (∀ (ring idx : Nat) (c : Cmd) (s : State), Starts s ring idx 0x042 c → (ctxGet s (cmdContext c)).st ≠ 2 →
      exec (.ctxRelease ring idx) s = .next (advance (cmdEnd (begun s c) c.n St.badState 0 0))) ∧
  (∀ (ring idx : Nat) (c : Cmd) (s : State), Starts s ring idx 0x043 c → (ctxGet s (cmdContext c)).st = 1 →
      exec (.ctxSeed ring idx) s = .next (advance (cmdEnd (begun s c) c.n St.badState 0 0))) ∧
  (∀ (ring idx : Nat) (c : Cmd) (s : State), Starts s ring idx 0x051 c → (leAt c.desc 16 1).testBit 0 = false → s.pl.st = 0 →
      s.pw.planLock = false → exec (.planRun ring idx) s = .next (advance (cmdEnd (begun s c) c.n St.badState 0 0))) ∧
  (∀ (ring idx : Nat) (c : Cmd) (s : State), Starts s ring idx 0x051 c → (leAt c.desc 16 1).testBit 0 = false → s.pl.st ≠ 0 →
      exec (.planRun ring idx) s = .next (advance (cmdEnd (begun s c) c.n St.planBusy 0 0))) ∧
  (∀ (ring idx : Nat) (c : Cmd) (s : State), Starts s ring idx 0x061 c → windowAt s c = none →
      exec (.sheafRead ring idx) s = .next (advance (cmdEnd (begun s c) c.n St.badAddr 0 0))) ∧
  (∀ (ring idx : Nat) (c : Cmd) (s : State), Starts s ring idx 0x062 c → windowAt s c = none →
      exec (.sheafRelease ring idx) s = .next (advance (cmdEnd (begun s c) c.n St.badAddr 0 0))) ∧
  (∀ (ring idx : Nat) (c : Cmd) (s : State), Starts s ring idx 0x063 c → leAt c.desc 24 4 = 0 →
      exec (.digestRange ring idx) s = .next (advance (cmdEnd (begun s c) c.n St.badAddr 0 0))) ∧
  (∀ (ring idx : Nat) (c : Cmd) (s : State), Starts s ring idx 0x070 c → csrBit s 0x600 0 = false →
      exec (.biasFlip ring idx) s = .next (advance (cmdEnd (begun s c) c.n St.badState 0 0))) ∧
  (∀ (ring idx : Nat) (c : Cmd) (s : State), Starts s ring idx 0x080 c → (s.tt.link ≠ 2 ∨ s.pr.st ≠ 2) →
      exec (.pairResync ring idx) s = .next (advance (cmdEnd (begun s c) c.n St.badState 0 0))) ∧
  (∀ (ring idx : Nat) (defs : List (Nat × Last)) (c : Cmd) (s : State), Starts s ring idx 0x081 c → s.pr.st ≠ 2 →
      exec (.pairTakeover ring idx defs) s = .next (advance (cmdEnd (begun s c) c.n St.badState 0 0))) ∧
  (∀ (ring idx : Nat) (c : Cmd) (s : State), Starts s ring idx 0x090 c → (leAt c.desc 24 1).testBit 7 = true →
      SMap.get [] s.hl.packs (leAt c.desc 24 1 % 4) = [] →
      exec (.testRun ring idx) s = .next (advance (cmdEnd (begun s c) c.n St.badState 0 0))) ∧
  (∀ (ring idx : Nat) (input : Bytes) (bad : List BadBeat) (c : Cmd) (s : State), Starts s ring idx 0x0A0 c →
      (s.rg.patched = true ∨ c.late = true) →
      exec (.patchLoad ring idx input bad) s = .next (advance (cmdEnd (begun s c) c.n St.badState 0 0))) ∧
  (∀ (ring idx : Nat) (c : Cmd) (s : State), Starts s ring idx 0x0A1 c → 2 ≤ s.hl.rState →
      exec (.sliceRetire ring idx) s = .next (advance (cmdEnd (begun s c) c.n St.badState 0 0)))

/-- Generation and context commands: GEN.OPEN opens an IDLE context at the generation, ring and logging its body names;
GEN.CLOSE of an OPEN context, or of every OPEN context, queues their seal; LOG.ADVANCE moves its ring's tail and returns the
head; CTX.FREEZE freezes an OPEN context at once and queues its seal; CTX.RESUME opens a FROZEN context, releases its queued
writes and returns its generation, or rejects them and replays a good log buffer, and ends on a bad one; CTX.RELEASE rejects the
queued writes, leaves the context IDLE with seed and generation 0 and clears fallow notes, then discards the lines of its lasts
where zeroing is set; CTX.SEED sets the seed of a context that is not OPEN. (R314, R329, R333, R334, R335, R338, R434, R435,
R449, R577) -/
def Obligations.ContextCommands : Prop :=
  (∀ (ring idx : Nat) (c : Cmd) (s : State), Starts s ring idx 0x030 c → (ctxGet s (cmdContext c)).st = 0 →
      ((leAt c.desc 19 1).testBit 0 = true ∨ csrBit s (0x808 + 16 * (leAt c.desc 18 1 % 16)) 63 = true) →
      writesHeld s (cmdContext c) = false →
      exec (.genOpen ring idx) s = .next (advance (cmdEnd (ctxOpen (begun s c) (cmdContext c) { ctxGet s (cmdContext c) with
      gen := BitVec.ofNat 32 (leAt c.desc 20 4), ring := leAt c.desc 18 1 % 16, logEn := !(leAt c.desc 19 1).testBit 0 }) c.n St.ok 0 0))) ∧
  (∀ (ring idx : Nat) (c : Cmd) (s : State), Starts s ring idx 0x031 c → (leAt c.desc 18 1).testBit 0 = false →
      (ctxGet s (cmdContext c)).st = 1 → freezing s c (cmdContext c) = false →
      exec (.genClose ring idx) s = .next (advance ({ begun s c with gen := { s.gen with seals := s.gen.seals ++ [{ cmd := c.n, ctxs := [cmdContext c] }] } }))) ∧
  (∀ (ring idx : Nat) (c : Cmd) (s : State), Starts s ring idx 0x031 c → (leAt c.desc 18 1).testBit 0 = true →
      ((running s c).any fun x => x.code == 0x040) = false → (s.gen.ctxs.filter fun e => e.2.st == 1) ≠ [] →
      exec (.genClose ring idx) s = .next (advance ({ begun s c with gen := { s.gen with
      seals := s.gen.seals ++ [{ cmd := c.n, ctxs := (s.gen.ctxs.filter fun e => e.2.st == 1).map (·.1) }] } }))) ∧
  (∀ (ring idx : Nat) (c : Cmd) (s : State), Starts s ring idx 0x032 c →
      csrBit s (0x808 + 16 * (leAt c.desc 16 1 % 16)) 63 = true → leAt c.desc 20 4 % 2 ^ 25 < logUnits s (leAt c.desc 16 1 % 16) →
      exec (.logAdvance ring idx) s = .next (advance (cmdEnd (logPut (begun s c) (leAt c.desc 16 1 % 16)
      { logGet s (leAt c.desc 16 1 % 16) with tail := leAt c.desc 20 4 % 2 ^ 25 }) c.n St.ok (logGet s (leAt c.desc 16 1 % 16)).head 0))) ∧
  (∀ (ring idx : Nat) (c : Cmd) (s : State), Starts s ring idx 0x040 c → (ctxGet s (cmdContext c)).st = 1 →
      ((leAt c.desc 18 1).testBit 1 = true → max 1 (leAt c.desc 20 4) ≤ 2 ^ 20 ∧
      leAt c.desc 24 4 < max 1 (leAt c.desc 20 4) ∧ (ctxGet s (cmdContext c)).logEn = true) →
          (s.ari.windows.any fun w => aCtx (lastAt s w.last).attr == cmdContext c) = false →
          ∀ u, u = ctxPut (begun s c) (cmdContext c) { ctxGet s (cmdContext c) with
      st := 2, stall := (leAt c.desc 18 1).testBit 0, frozenAt := s.arr.n } →
          exec (.ctxFreeze ring idx) s = .next (advance ({ u with gen := { u.gen with
      seals := u.gen.seals ++ [{ cmd := c.n, ctxs := [cmdContext c], freeze := true }] } }))) ∧
  (∀ (ring idx : Nat) (input : Bytes) (bad : List BadBeat) (c : Cmd) (s : State), Starts s ring idx 0x041 c →
      freezing s c (cmdContext c) = false → c.preFreeze = false → (leAt c.desc 18 1).testBit 0 = false →
      (ctxGet s (cmdContext c)).st = 2 → (∀ o ∈ queuedOf s (cmdContext c), o.noted.testBit 9 = false) →
      ∀ u, u = ctxPut (begun s c) (cmdContext c) { ctxGet s (cmdContext c) with resuming := true } →
      exec (.ctxResume ring idx input bad) s = .next (advance (cmdUpd { u with
      gen := { u.gen with freezeQ := u.gen.freezeQ.filter fun o => !(queuedOf s (cmdContext c)).contains o }
      arr := { u.arr with
        presented := ((queuedOf s (cmdContext c)).map fun o => { o with noted := o.noted ||| 128 }) ++ u.arr.presented } } c.n
      fun x => { x with phase := 10 }))) ∧
  (∀ (c : Cmd) (s : State), resumeLeft s (cmdContext c) = false → resumeStep s c = cmdEnd (ctxPut s (cmdContext c)
    { ctxGet s (cmdContext c) with st := 1, stall := false, resuming := false }) c.n St.ok (ctxGet s (cmdContext c)).gen.toNat 0) ∧
  (∀ (ring idx : Nat) (input : Bytes) (c : Cmd) (s : State), Starts s ring idx 0x041 c → freezing s c (cmdContext c) = false →
    c.preFreeze = false → (leAt c.desc 18 1).testBit 0 = true → leAt c.desc 24 8 % 32 = 0 → leAt c.desc 32 8 ≠ 0 →
        leAt c.desc 32 8 % 32 = 0 →
    (ctxGet s (cmdContext c)).st ≠ 1 → ((ctxGet s (cmdContext c)).st = 2 → leAt c.desc 19 1 % 16 = 0 ∧
        (leAt c.desc 18 1).testBit 1 = false) →
    ((ctxGet s (cmdContext c)).st = 0 → (leAt c.desc 18 1).testBit 1 = true ∨
        csrBit s (0x808 + 16 * (leAt c.desc 19 1 % 16)) 63 = true) →
    ∀ u, u = queueReject (begun s c) (cmdContext c) →
        ∀ v, v = ctxPut u (cmdContext c) { ctxGet u (cmdContext c) with st := 0, stall := false } →
      (∀ bad, bad ≠ [] →
          exec (.ctxResume ring idx input bad) s = .next (advance (cmdEnd (inputRecord v bad) c.n St.dataError 0 0))) ∧
      (∀ recs n, replayParse u (cmdContext c) none (slice input 0 (leAt c.desc 32 8)) (leAt c.desc 40 4) = .good recs n →
        exec (.ctxResume ring idx input []) s =
          .next (advance (cmdUpd u c.n fun x => { x with phase := 6, recs := recs, acc := n }))) ∧
      (∀ seq, replayParse u (cmdContext c) none (slice input 0 (leAt c.desc 32 8)) (leAt c.desc 40 4) = .bad seq →
        exec (.ctxResume ring idx input []) s = .next (advance (cmdEnd v c.n St.badLog seq 0)))) ∧
  (∀ (ring idx : Nat) (c : Cmd) (s : State), Starts s ring idx 0x042 c → freezing s c (cmdContext c) = false →
    (ctxGet s (cmdContext c)).st = 2 → ∀ u v, u = ctxPut (queueReject (begun s c) (cmdContext c)) (cmdContext c)
        { ctxGet s (cmdContext c) with st := 0, stall := false, seed := 0, gen := 0 } →
      v = { u with arr := { u.arr with lines := SMap.mapVals {} (fun _ l =>
        if aCtx (lastAt u l.last).attr = cmdContext c then { l with note := none } else l) u.arr.lines } } →
      (csrBit u 0xF10 27 = false → exec (.ctxRelease ring idx) s = .next (advance (presentLines v c .discard []))) ∧
      (csrBit u 0xF10 27 = true → ∃ ops, exec (.ctxRelease ring idx) s = .next (advance (presentLines v c .discard ops)) ∧
        ops.map (·.1) = (((v.arr.lasts.filter fun e => e.2.cond != 0 && e.1 != 1023 && aCtx e.2.attr == cmdContext c).filter fun e =>
          aKind e.2.attr != 1).map fun e => walkLines v e.2.base e.2.limit (aKind e.2.attr != 2)).flatten)) ∧
  (∀ (ring idx : Nat) (c : Cmd) (s : State), Starts s ring idx 0x043 c → (ctxGet s (cmdContext c)).st ≠ 1 →
      exec (.ctxSeed ring idx) s = .next (advance (cmdEnd (ctxPut (begun s c) (cmdContext c) { ctxGet s (cmdContext c) with
      seed := BitVec.ofNat 64 (leAt c.desc 24 8) }) c.n St.ok 0 0)))

/-- Commands on lasts: LAST.DEFINE of an undefined last that passes its checks, with no request of its range under way, defines
it; of a defined last, changing only what may change, it writes back what a change of cache_enable leaves and changes the last
when that is done; LAST.DELETE writes back or drops the lines of its last, whose new requests wait, and then removes it;
LAST.READ writes the last's record, or zeros, and returns its condition, whether it is unprotected and how many of its lines
await recomputation; LAST.RESTORE of a FAILED last replays a good log buffer into it, and ends on a bad one. (R78, R83, R84,
R96, R117, R422, R423, R424, R425, R426, R449) -/
def Obligations.LastCommands : Prop :=
  (∀ (ring idx : Nat) (c : Cmd) (s : State), Starts s ring idx 0x010 c → (leAt c.desc 48 2 % 1024) ≠ 1023 →
      (SMap.get {} s.arr.lasts (leAt c.desc 48 2 % 1024)).cond = 0 → defineCheck s (definedRecord s c) = 0 →
      rangeBusy s (definedRecord s c).base (definedRecord s c).limit = false →
      exec (.lastDefine ring idx) s = .next (advance (defineNew (begun s c) { c with started := true } (leAt c.desc 48 2 % 1024) (definedRecord s c)))) ∧
  (∀ (ring idx : Nat) (c : Cmd) (s : State) (l r : Last), Starts s ring idx 0x010 c → (leAt c.desc 48 2 % 1024) ≠ 1023 →
      l = SMap.get {} s.arr.lasts (leAt c.desc 48 2 % 1024) →
    r = definedRecord s c → l.cond ≠ 0 → aCtx l.attr = aCtx r.attr → l.base = r.base → l.limit = r.limit →
        fixedAttr l.attr = fixedAttr r.attr →
    pinStride l.pin = pinStride r.pin → (aKind l.attr = 2 → aMask r.attr = 0 ∧ (aCache l.attr && !aCache r.attr) = false) →
    ((aCache l.attr && !aCache r.attr) = true → rangeBound s l.base l.limit = false ∧ aPaired l.attr = false) →
    ((running s c).any fun x => actsOn s x (leAt c.desc 48 2 % 1024)) = false → rangeBusy s l.base l.limit = false →
    ∀ v u, v = (if aKind l.attr = 1 then mergeDrainWhere (begun s c) (fun m => inRange l.base l.limit (m.sector / 8)) else begun s c) →
      u = { v with arr := { v.arr with deleting := v.arr.deleting ++ [(leAt c.desc 48 2 % 1024)] } } →
      (aCache l.attr = aCache r.attr ∨ isExpert c = true →
          exec (.lastDefine ring idx) s = .next (advance (presentLines u c .clean []))) ∧
      (aCache l.attr ≠ aCache r.attr → isExpert c = false → exec (.lastDefine ring idx) s =
        .next (advance (presentLines u c .clean ((heldLines u l.base l.limit).map fun x =>
          (x, x - l.base / 512, aQos l.attr, if aCache l.attr then 1 else 3)))))) ∧
  (∀ (ring idx : Nat) (c : Cmd) (s : State) (l : Last), Starts s ring idx 0x011 c → (leAt c.desc 16 2 % 1024) ≠ 1023 →
      l = SMap.get {} s.arr.lasts (leAt c.desc 16 2 % 1024) →
    l.cond ≠ 0 → aCtx l.attr = leAt c.desc 18 2 % 4096 → rangeBound s l.base l.limit = false →
    (aDur l.attr = 2 → lockedSlots s (leAt c.desc 16 2 % 1024) = []) →
        ((running s c).any fun x => actsOn s x (leAt c.desc 16 2 % 1024)) = false → rangeBusy s l.base l.limit = false →
    ∀ v u, v = mergeDrainWhere (begun s c) (fun m => inRange l.base l.limit (m.sector / 8)) →
      u = { v with arr := { v.arr with deleting := v.arr.deleting ++ [(leAt c.desc 16 2 % 1024)] } } →
      exec (.lastDelete ring idx) s = .next (advance (presentLines u c .clean ((heldLines u l.base l.limit).map fun x =>
        (x, x - l.base / 512, aQos l.attr, if (leAt c.desc 20 1).testBit 0 then 3 else 2))))) ∧
  (∀ (ring idx : Nat) (c : Cmd) (s : State), Starts s ring idx 0x012 c →
      exec (.lastRead ring idx) s = .next (advance (cmdEnd (hstWrite (begun s c) (leAt c.desc 24 8 % 2 ^ 52)
      (if (lastAt s (leAt c.desc 16 2 % 1024)).cond = 0 then List.replicate 32 0 else lastRecord (lastAt s (leAt c.desc 16 2 % 1024))) c.n) c.n St.ok
      (at_ (min 0xFF (s.gen.pendingRc.filter fun x => lastOfLine s x == (leAt c.desc 16 2 % 1024)).length) 3 + at_ (b2n (lastAt s (leAt c.desc 16 2 % 1024)).unprot) 2 +
        (lastAt s (leAt c.desc 16 2 % 1024)).cond % 4) 0))) ∧
  (∀ (ring idx : Nat) (input : Bytes) (c : Cmd) (s : State), Starts s ring idx 0x013 c →
      (lastAt s (leAt c.desc 16 2 % 1024)).cond = 2 →
    aCtx (lastAt s (leAt c.desc 16 2 % 1024)).attr = leAt c.desc 18 2 % 4096 → leAt c.desc 24 8 % 32 = 0 → leAt c.desc 32 8 ≠ 0 →
        leAt c.desc 32 8 % 32 = 0 →
    ((running s c).any fun x => actsOn s x (leAt c.desc 16 2 % 1024)) = false →
      (∀ bad, bad ≠ [] →
          exec (.lastRestore ring idx input bad) s = .next (advance (cmdEnd (inputRecord (begun s c) bad) c.n St.dataError 0 0))) ∧
      (∀ recs n, (leAt c.desc 16 2 % 1024) ≠ 1023 →
        replayParse (begun s c) (leAt c.desc 18 2 % 4096) (some (leAt c.desc 16 2 % 1024)) (slice input 0 (leAt c.desc 32 8)) (leAt c.desc 40 4) = .good recs n →
        exec (.lastRestore ring idx input []) s = .next (advance (cmdUpd
          (lastPut (begun s c) (leAt c.desc 16 2 % 1024) { SMap.get {} s.arr.lasts (leAt c.desc 16 2 % 1024) with cond := 3 }) c.n
          fun x => { x with phase := 6, recs := recs, acc := n }))) ∧
      (∀ seq, replayParse (begun s c) (leAt c.desc 18 2 % 4096) (some (leAt c.desc 16 2 % 1024)) (slice input 0 (leAt c.desc 32 8)) (leAt c.desc 40 4) = .bad seq →
        exec (.lastRestore ring idx input []) s = .next (advance (cmdEnd (begun s c) c.n St.badLog seq 0))))

/-- Range, sheaf, digest and bias commands: A range command that passes R427 and R418 is performed on the lines it addresses:
RANGE.PREFETCH on those of its stride and phase, the others on those the slice holds, or on every line where memory copies are
cleared; RANGE.FLUSH drains the merging entries of its range first. SHEAF.BIND that passes its checks begins to fetch its
window's lines; SHEAF.READ of an intact window presents the writes of its results, keeps the window's digest and the count of
elements out of range, and clears the window unless told to keep it; SHEAF.RELEASE frees the window. DIGEST.RANGE reads its
lines; BIAS.FLIP of whole pages within the table waits for its turn. (R181, R191, R195, R257, R427, R428, R429, R431, R432,
R437, R438, R576) -/
def Obligations.RangeCommands : Prop :=
  (∀ (ring idx : Nat) (c : Cmd) (s : State), Starts s ring idx 0x020 c → rangeCheck c = 0 →
      rangeDenied s (rangeBase c) (rangeLen c) (leAt c.desc 34 2 % 4096) = false →
      exec (.rangePrefetch ring idx) s = .next (advance (presentLines (begun s c) c .prefetch
      ((prefetchLines s c).map fun l => (l, l - rangeBase c / 512, rangeQos s c l, rangeFlags c % 4 + 8 * (if isExpert c then fld (rangeFlags c) 4 3 else 2)))))) ∧
  (∀ (ring idx : Nat) (c : Cmd) (s : State), Starts s ring idx 0x021 c → rangeCheck c = 0 →
      rangeDenied s (rangeBase c) (rangeLen c) (leAt c.desc 34 2 % 4096) = false →
      exec (.rangeFlush ring idx) s = .next (advance (presentLines (mergeDrainWhere (begun s c)
      (fun m => decide (rangeBase c ≤ m.sector * 64 ∧ m.sector * 64 < rangeBase c + rangeLen c))) c .flush
      ((walkLines s (rangeBase c) (rangeBase c + rangeLen c) false).map fun l => (l, l - rangeBase c / 512, rangeQos s c l, 0))))) ∧
  (∀ (ring idx : Nat) (c : Cmd) (s : State), Starts s ring idx 0x022 c → rangeCheck c = 0 →
      rangeDenied s (rangeBase c) (rangeLen c) (leAt c.desc 34 2 % 4096) = false →
      exec (.rangeInvalidate ring idx) s = .next (advance (presentLines (begun s c) c .inval
      ((walkLines s (rangeBase c) (rangeBase c + rangeLen c) false).map fun l => (l, l - rangeBase c / 512, rangeQos s c l, 0))))) ∧
  (∀ (ring idx : Nat) (c : Cmd) (s : State), Starts s ring idx 0x023 c → rangeCheck c = 0 →
      rangeDenied s (rangeBase c) (rangeLen c) (leAt c.desc 34 2 % 4096) = false →
      exec (.rangeDiscard ring idx) s = .next (advance (presentLines (begun s c) c .discard
      ((walkLines s (rangeBase c) (rangeBase c + rangeLen c) (csrBit s 0xF10 28)).map fun l => (l, l - rangeBase c / 512, rangeQos s c l, if (rangeFlags c).testBit 2 then 1 else 0))))) ∧
  (∀ (ring idx : Nat) (c : Cmd) (s : State) (li : Nat) (l : Last), Starts s ring idx 0x060 c → li = lastOf s (rangeBase c) →
      l = lastAt s li →
    leAt c.desc 24 2 ≠ 0 → leAt c.desc 24 2 ≤ 4096 → rangeBase c % 512 = 0 → aCtx l.attr = leAt c.desc 28 2 % 4096 →
    leAt c.desc 26 1 % 2 = 0 → aBaled l.attr = false → aKind l.attr ≠ 1 → aCache l.attr = true →
    rangeBase c + 512 * (bindLines c).length ≤ l.limit → (∀ x ∈ bindLines c, lastOfLine s x = li) →
    (∀ w ∈ s.ari.windows, rangeBase c + 512 * (bindLines c).length ≤ w.base ∨
      w.base + 512 * ceilDiv (w.n * ((sheafReadFmt w.rf).width / 8)) 512 ≤ rangeBase c) →
          (sheafFit s (ceilDiv (leAt c.desc 24 2) 64)).isSome = true →
    ((bindLines c).any (noWayFor s (bindLines c))) = false → l.cond = 1 →
    exec (.sheafBind ring idx) s = .next (advance (cmdUpd (begun s c) c.n fun x => { x with phase := 1 }))) ∧
  (∀ (ring idx : Nat) (c : Cmd) (s : State) (w : Window), Starts s ring idx 0x061 c → windowAt s c = some w →
    aCtx (lastAt s w.last).attr = leAt c.desc 28 2 % 4096 → s.hl.suspect = false →
    ((running s c).any fun x => x.code == 0x061 && rangeBase x == w.base) = false →
    atomWaits s ((List.range (ceilDiv (w.n * ((sheafReadFmt w.rf).width / 8)) 512)).map (w.base / 512 + ·)) = false →
    badSheaf s w = none → w.lost = false → ∃ t, exec (.sheafRead ring idx) s = .next (advance t) ∧
      t.arr.presented.length = s.arr.presented.length + ceilDiv (windowResults s w).1.length 512 ∧
      (∀ x ∈ t.rg.cmds, x.n = c.n → x.phase = 1 ∧ x.acc = w.digest.toNat ∧ x.acc2 = (windowResults s w).2 ∧
        x.todo = ceilDiv (windowResults s w).1.length 512) ∧
      ((leAt c.desc 24 1).testBit 0 = true → t.ari = s.ari) ∧
      ((leAt c.desc 24 1).testBit 0 = false → (∀ x ∈ t.ari.windows, x.base = w.base → x.digest = 0) ∧
        ∀ e ∈ t.ari.sheaves, ¬ (w.first ≤ e.1 ∧ e.1 < w.first + w.count))) ∧
  (∀ (ring idx : Nat) (c : Cmd) (s : State) (w : Window), Starts s ring idx 0x062 c → windowAt s c = some w →
    aCtx (lastAt s w.last).attr = leAt c.desc 28 2 % 4096 →
    ((running s c).any fun x => x.code == 0x061 && rangeBase x == w.base) = false →
    exec (.sheafRelease ring idx) s = .next (advance (cmdEnd (windowRelease (begun s c) w) c.n St.ok 0 0))) ∧
  (∀ (ring idx : Nat) (c : Cmd) (s : State) (ls : List Nat), Starts s ring idx 0x063 c → 0 < leAt c.desc 24 4 →
      leAt c.desc 24 4 ≤ 2 ^ 24 →
    rangeBase c % 512 = 0 → (isExpert c = true → 0 < leAt c.desc 28 4 ∧ leAt c.desc 28 4 ≤ 2 ^ 20) →
    ls = (List.range (leAt c.desc 24 4)).map (fun m => rangeBase c / 512 + m * (if isExpert c then leAt c.desc 28 4 else 1)) →
    (∀ l ∈ ls, aCtx (lastAt s (lastOfLine s l)).attr = leAt c.desc 34 2 % 4096) → s.hl.suspect = false →
    exec (.digestRange ring idx) s = .next (advance (presentLines (begun s c) c .digest
      (ls.zipIdx.map fun x => (x.1, x.2, aQos (lastAt s (lastOfLine s x.1)).attr, 0))))) ∧
  (∀ (ring idx : Nat) (c : Cmd) (s : State), Starts s ring idx 0x070 c → csrBit s 0x600 0 = true →
      flipBase c % 2 ^ pageShift s = 0 → flipLen c ≠ 0 → flipLen c % 2 ^ pageShift s = 0 → 
    csrFld s 0x610 51 0 ≤ flipBase c → flipBase c + flipLen c ≤ csrFld s 0x618 51 0 →
        exec (.biasFlip ring idx) s = .next (advance (cmdUpd (begun s c) c.n fun x => { x with phase := 3 })))

/-- Plan, pair, test, patch and retirement commands: PLAN.LOAD empties the shadow bank, then fills it with a good image or ends
on a bad one; PLAN.RUN of an IDLE sequencer with a valid bank and plan lock arms it and returns the pass number, or with a
shadow bank switches; PLAN.STOP of an IDLE sequencer ends at once, and otherwise waits for IDLE. PAIR.RESYNC of a SOLO pair with
its link UP begins the resynchronisation; PAIR.TAKEOVER of the fellow's lasts ends ST_OK with the lasts taken and the pair
TAKEN_OVER. TEST.RUN runs the kernels named and ends ST_OK, or ST_TEST_FAIL with those that failed; with stress it asks for the
operating point. TEST.LOADPACK and PATCH.LOAD keep a table that passes its checks; SLICE.RETIRE starts the drain. (R235, R236,
R237, R353, R358, R436, R439, R440, R441, R449, R496, R504) -/
def Obligations.PlanAndUnitCommands : Prop :=
  (∀ (ring idx : Nat) (input : Bytes) (c : Cmd) (s : State), Starts s ring idx 0x050 c → s.pl.st ≠ 3 → s.pl.switchCmd = none →
    ∀ sh u, sh = 1 - s.pl.active → u = { begun s c with pl := { s.pl with banks := s.pl.banks.set sh {}, shadowValid := false } } →
      (∀ bad, bad ≠ [] →
          exec (.planLoad ring idx input bad) s = .next (advance (cmdEnd (inputRecord u bad) c.n St.dataError 0 0))) ∧
      (∀ k i, imageCheck (slice input 0 (imageSpan input)) (leAt c.desc 24 4) = .bad k i →
        exec (.planLoad ring idx input []) s = .next (advance (cmdEnd u c.n St.badPlan k i))) ∧
      (∀ img, img = slice input 0 (imageSpan input) → imageCheck img (leAt c.desc 24 4) = .good →
        exec (.planLoad ring idx input []) s = .next (advance (cmdEnd { u with pl := { u.pl with shadowValid := true, banks := (u.pl.banks.set sh
            { valid := true, header := img.take 64, gens := (img.drop 64).take 4096, slots := img.drop 4160 }) } } c.n St.ok 0 0)))) ∧
  (∀ (ring idx : Nat) (c : Cmd) (s : State), Starts s ring idx 0x051 c → (leAt c.desc 16 1).testBit 0 = false → s.pl.st = 0 →
      (planBank s s.pl.active).valid = true → s.pw.planLock = true → exec (.planRun ring idx) s = .next (advance (
      cmdEnd (planBegin { begun s c with pl := { s.pl with veil := [] } } (s.now + 1) (runPasses c)) c.n St.ok (s.pl.pass % 2 ^ 48) 0))) ∧
  (∀ (ring idx : Nat) (c : Cmd) (s : State), Starts s ring idx 0x051 c → (leAt c.desc 16 1).testBit 0 = true → s.pl.st ≤ 2 →
      s.pl.switchCmd = none → s.pl.shadowValid = true → s.pw.planLock = true →
      exec (.planRun ring idx) s = .next (advance (if s.pl.st = 0
      then { begun s c with pl := { s.pl with
          st := 3, fc := s.now, endFc := s.now, openNow := true, openSpent := 0, stopAt := 0, switchCmd := some (c.n, runPasses c) } }
      else { begun s c with pl := { s.pl with switchCmd := some (c.n, runPasses c) } }))) ∧
  (∀ (ring idx : Nat) (c : Cmd) (s : State), Starts s ring idx 0x052 c → s.pl.st = 0 →
      exec (.planStop ring idx) s = .next (advance (cmdEnd (begun s c) c.n St.ok (s.pl.pass % 2 ^ 48) 0))) ∧
  (∀ (ring idx : Nat) (c : Cmd) (s : State), Starts s ring idx 0x052 c → s.pl.st ≠ 0 →
      ∀ u, u = { begun s c with pl := { s.pl with stopCmds := s.pl.stopCmds ++ [c.n] } } →
      exec (.planStop ring idx) s = .next (advance (if isExpert c then planAbort u 2 else planStop u))) ∧
  (∀ (ring idx : Nat) (c : Cmd) (s : State), Starts s ring idx 0x080 c → s.tt.link = 2 → s.pr.st = 2 →
      exec (.pairResync ring idx) s = .next (advance (resyncStart { begun s c with pr := { s.pr with resyncCmds := s.pr.resyncCmds ++ [c.n] } }))) ∧
  (∀ (ring idx : Nat) (defs : List (Nat × Last)) (c : Cmd) (s : State), Starts s ring idx 0x081 c → s.pr.st = 2 →
      leAt c.desc 16 4 % 2 ^ 18 = s.pr.fellowId → ∃ (t : State) (n : Nat), n ≤ (defs.filter fun d => aPaired d.2.attr).length ∧
      exec (.pairTakeover ring idx defs) s = .next (advance (cmdEnd { t with pr := { t.pr with st := 5 } } c.n St.ok (n % 65536) 0))) ∧
  (∀ (ring idx : Nat) (c : Cmd) (s : State), Starts s ring idx 0x090 c → (leAt c.desc 25 1).testBit 0 = false →
    ((leAt c.desc 24 1).testBit 7 = true → SMap.get [] s.hl.packs (leAt c.desc 24 1 % 4) ≠ []) →
    ∃ t bad i, exec (.testRun ring idx) s =
        .next (advance (cmdEnd t c.n (if bad = 0 ∧ i = none then St.ok else St.testFail) bad (i.getD 0))) ∧
      (∀ k, bad.testBit k = true → k < 48 ∧ (testMask c).testBit k = true) ∧
      ((leAt c.desc 24 1).testBit 7 = false → i = none)) ∧
  (∀ (ring idx : Nat) (c : Cmd) (s : State), Starts s ring idx 0x090 c → (leAt c.desc 25 1).testBit 0 = true →
      ((leAt c.desc 24 1).testBit 7 = true → SMap.get [] s.hl.packs (leAt c.desc 24 1 % 4) ≠ []) → s.pl.st = 0 → s.hl.stress = 0 →
      exec (.testRun ring idx) s = .next (advance (hdrSend { begun s c with hl := { s.hl with stress := 1, stressCmd := c.n } } 0x22 (csrFld s 0xC28 31 16) []))) ∧
  (∀ (ring idx : Nat) (input : Bytes) (c : Cmd) (s : State), Starts s ring idx 0x091 c → tableLenBad (leAt c.desc 24 4) = false →
    leAt c.desc 16 8 % 64 = 0 → (∀ bad, bad ≠ [] →
        exec (.testLoadpack ring idx input bad) s = .next (advance (cmdEnd (inputRecord (begun s c) bad) c.n St.dataError 0 0))) ∧
      ∀ img content, img = slice input 0 (leAt c.desc 24 4) → content = 64 + 32 * leAt img 8 2 → leAt img 0 4 = 0x4B505244 →
        0 < leAt img 8 2 → leAt img 8 2 ≤ 496 → leAt img 10 2 ≤ s.pw.romBuild → leAt c.desc 24 4 = ceilDiv content 64 * 64 + 256 →
        leAt img 12 2 = 256 → exec (.testLoadpack ring idx input []) s = .next (advance (
          if sigGood s img content true then cmdEnd { begun s c with hl := { s.hl with
              packs := SMap.put [] s.hl.packs (leAt c.desc 28 1 % 4) img } } c.n St.ok (leAt img 4 4) 0
          else cmdEnd (begun s c) c.n St.badSignature 0 0))) ∧
  (∀ (ring idx : Nat) (input : Bytes) (c : Cmd) (s : State), Starts s ring idx 0x0A0 c → s.rg.patched = false → c.late = false →
    tableLenBad (leAt c.desc 24 4) = false → leAt c.desc 16 8 % 64 = 0 →
      (∀ bad, bad ≠ [] →
          exec (.patchLoad ring idx input bad) s = .next (advance (cmdEnd (inputRecord (begun s c) bad) c.n St.dataError 0 0))) ∧
      ∀ img content, img = slice input 0 (leAt c.desc 24 4) → content = 64 + leAt img 8 4 → leAt img 0 4 = 0x48545044 →
        0 < leAt img 6 1 → leAt img 6 1 ≤ 64 → leAt c.desc 24 4 = ceilDiv content 64 * 64 + 256 →
        exec (.patchLoad ring idx input []) s = .next (advance (
          if leAt img 4 2 = s.pw.romBuild ∧ s.pw.minSvn ≤ leAt img 7 1 ∧ sigGood s img content false = true then
            cmdEnd { begun s c with rg := { (begun s c).rg with patched := true, patchTable := img } } c.n St.ok (leAt img 6 1) 0
          else cmdEnd (begun s c) c.n St.badSignature 0 0))) ∧
  (∀ (ring idx : Nat) (c : Cmd) (s : State), Starts s ring idx 0x0A1 c → s.hl.rState ≤ 1 →
    ∃ t, exec (.sliceRetire ring idx) s = .next (advance t) ∧ t.hl.rState = 2 ∧ t.hl.rStep = 1 ∧ t.hl.written = 0 ∧
      t.hl.rReason = (if s.hl.rState = 0 then 7 else s.hl.rReason) ∧ t.hl.rCmds = s.hl.rCmds ++ [c.n] ∧
      t.hl.noDrain = (leAt c.desc 16 1).testBit 0)

/-- Doorbells, descriptors, records and interrupts: A doorbell reading that was asked for gives the ring its values, unparks it
from a lost order and lets it go on, and one not asked for changes nothing. A descriptor read that fits the ring's index and lap
offers its descriptor, one from an earlier lap makes the ring read again, at most 8 times before it parks, one that returns
before its turn waits for it, and one that came back uncorrectable parks it. The record of a command that has completed in its
turn, with room, is written to the next slot of the completion ring, with its phase, sequence number, status and result; else
the record waits. A pending vector whose mask is clear fires when its holdoff has ended, but in safe retention. An SNP_IN of the
line a ring watches is answered SNP_RSP with state I, and the line is read again, at once or after the reading under way. (R307,
R311, R391, R394, R395, R398, R399, R402, R403, R404, R406, R410) -/
def Obligations.RingRows : Prop :=
  (∀ (n prod cpl evt : Nat) (s : State), s.hd.fenced = false → s.pw.pstate = 2 ∨ s.pw.pstate = 5 →
    ∃ g, g = readingGot s n ∧ g = { s with qs := g.qs, out := s.out ++ [.credit .hst 1, .credit .hst 0] } ∧
    exec (.doorbellReading n prod cpl evt .header) s = .next (parityRecord g { port := .hst, parity := .header }) ∧
    (∀ src, exec (.doorbellReading n prod cpl evt (.payload src)) s =
      .next (parityRecord g { port := .hst, src := src, parity := .payload })) ∧
    exec (.doorbellReading n prod cpl evt .refused) s = .next (ev g Ev.msgBad) ∧
    ((ringGet s n).watch ≠ 1 → exec (.doorbellReading n prod cpl evt .ok) s = .next g) ∧
    ((ringGet s n).watch = 1 → ∀ e u v, e = (if n < 4 then evt else 0) →
      u = (if (ringGet s n).read = true ∧ (ringGet s n).prod = prod ∧ (ringGet s n).cplCons = cpl ∧ (ringGet s n).evtCons = e
        then ev g Ev.doorbellSpurious else g) →
      v = ringPut u n { ringGet s n with
        prod := prod, cplCons := cpl, evtCons := e, read := true, watch := 2
        parked := if (ringGet s n).parked = 1 then 0 else (ringGet s n).parked } →
      exec (.doorbellReading n prod cpl evt .ok) s =
        .next (advance (ringGo (if (ringGet s n).again = true then watchIssue v n else v) n)))) ∧
  (∀ (n idx : Nat) (d : Bytes) (s : State), s.hd.fenced = false → s.pw.pstate = 2 ∨ s.pw.pstate = 5 → idx ∈ (ringGet s n).fetched →
    ringEnabled s n = true → (ringGet s n).parked = 0 → ∃ g, g = descGot s n idx ∧
    ringGet g n = { ringGet s n with reads := (ringGet g n).reads } ∧ g.arr = s.arr ∧ g.csr = s.csr ∧
    exec (.descriptorReadReturn n idx St.ok d .header) s = .next (parityRecord g { port := .hst, parity := .header }) ∧
    exec (.descriptorReadReturn n idx St.ok d .refused) s = .next (ev g Ev.msgBad) ∧
    (∀ status, status = St.dataError ∨ status = St.dataLost →
      exec (.descriptorReadReturn n idx status d .ok) s = .next (park g n 3 St.ringFault (descBase s n + 256 * (idx % 2 ^ descLog s n / 4)))) ∧
    (idx ≠ (ringGet s n).cons → (∀ e ∈ (ringGet s n).early, e.1 ≠ idx) → exec (.descriptorReadReturn n idx St.ok d .ok) s =
      .next (ringPut g n { ringGet g n with early := (ringGet s n).early ++ [(idx, slice d 0 64)] })) ∧
    (idx = (ringGet s n).cons → (ringGet s n).offer = none → (ringGet s n).behind = false →
      (descMatches s n idx d = true →
          exec (.descriptorReadReturn n idx St.ok d .ok) s = .next (advance (offers 64 (ringPut g n { ringGet g n with
        offer := some (slice d 0 64), fetched := (ringGet s n).fetched.filter (· != idx), behind := false, rereads := 0, rereadOut := 0 })))) ∧
      (descMatches s n idx d = false → exec (.descriptorReadReturn n idx St.ok d .ok) s =
        .next (advance (offers 64 (ringPut g n { ringGet g n with
          behind := true, rereads := 0, rereadOut := 0, fetched := (ringGet s n).fetched.filter (· != idx) })))))) ∧
  (∀ (n : Nat) (d : Bytes) (s : State), s.hd.fenced = false → s.pw.pstate = 2 ∨ s.pw.pstate = 5 → (ringGet s n).behind = true →
    (ringGet s n).rereads = 8 → (ringGet s n).rereadOut = 1 → ringEnabled s n = true → (ringGet s n).parked = 0 →
    (ringGet s n).offer = none → descMatches s n (ringGet s n).cons d = false →
      exec (.descriptorReadReturn n (ringGet s n).cons St.ok d .ok) s =
        .next (ev (park (ringPut (descGot s n (ringGet s n).cons) n { ringGet (descGot s n (ringGet s n).cons) n with rereadOut := 0 })
          n 1 St.descAhead ((ringGet s n).cons % 65536)) Ev.descAhead)) ∧
  (∀ (n : Nat) (s : State), serving s = true → (ringGet s n).behind = true → (ringGet s n).rereads < 8 → (ringGet s n).parked = 0 →
    ∃ u, u = descRead s n (ringGet s n).cons ((ringGet s n).cons % 2 ^ descLog s n) 1 ∧
      u.arr = s.arr ∧ (s.txq = [] → portsHalt s = false → SMap.get 0 s.credits 11 ≠ 0 → ∃ m, Out.msg .hst m ∈ u.out ∧ m.cls = 3 ∧
          m.opcode = 0 ∧
        m.addr = descBase s n + 256 * ((ringGet s n).cons % 2 ^ descLog s n / 4) ∧
        m.size = 64 * ((ringGet s n).cons % 2 ^ descLog s n % 4 + 1) - 1) ∧
      exec (.descReread n) s = .next (ringPut u n
        { ringGet u n with rereads := (ringGet s n).rereads + 1, rereadOut := (ringGet s n).rereadOut + 1 })) ∧
  (∀ (n : Nat) (s : State), (ringGet s n).behind = false ∨ 8 ≤ (ringGet s n).rereads → exec (.descReread n) s = .next s) ∧
  (∀ (ring idx : Nat) (c : Cmd) (s : State), (s.rg.cmds.find? fun c => c.ring == ring && c.idx == idx && c.done) = some c →
    mayPost s c = true → s.pw.pstate ≠ 5 → ∃ t, exec (.cplPost ring idx) s = .next (advance t) ∧
      (s.txq = [] → portsHalt s = false → SMap.get 0 s.credits 11 ≠ 0 → Out.msg .hst
        { cls := 3, opcode := 2, qos := csrFld s 0x3080 27 24, tag := s.coh.tag, src := ownId s
          addr := cplBase s ring + 32 * ((ringGet s ring).posted % 2 ^ cplLog s ring), size := 31
          data := recordBytes (recordWord0 (phaseBit (ringGet s ring).posted (cplLog s ring)) (ringGet s ring).overflow 1 (c.idx % 65536)
            c.status ring c.code) (leAt c.desc 8 8) c.word2 (at_ (c.aux % 2 ^ 32) 32 + (ringGet s ring).cons) } ∈ t.out)) ∧
  (∀ (ring idx : Nat) (s : State), (∀ c ∈ s.rg.cmds, c.ring = ring → c.idx = idx → mayPost s c = false) →
    exec (.cplPost ring idx) s = .next s) ∧
  (∀ (m : Msg) (s u : State) (n : Nat), Taken s m → m.mod = 0 → m.size = 63 → m.addr % 64 = 0 → watchers s m.addr = [n] →
    u = sendMsg (arrives s m 2 0) .hst { cls := 1, opcode := 3, qos := m.qos, tag := m.tag, dst := m.src, addr := m.addr, size := m.size } →
    ((ringGet s n).watch = 1 → exec (.snpIn m) s = .next (ringPut u n { ringGet s n with again := true })) ∧
    ((ringGet s n).watch ≠ 1 → exec (.snpIn m) s = .next (watchIssue (ringPut u n { ringGet s n with watch := 0 }) n))) ∧
  (∀ (v : Nat) (s : State), exec (.irqHoldoffExpiry v) s =
    .next (if (SMap.get {} s.rg.irqs v).pending = true ∧ csrBit s (0x240C + 16 * v) 31 = false ∧ irqHeld s v = false ∧
        s.pw.pstate ≠ 3
      then irqFire s v else s))

/-- The seal of a generation and the end of its drain: The oldest seal that waits takes effect once its contexts' earlier writes
are performed and none of them has two drains under way, at least 100 microseconds after the last: each context's generation
number goes up by one and a drain of the sealed generation begins. A drain whose records have all been written, and accepted by
the fellow where it must, ends with its END record, and its context has the generation as the last ended, unless the record was
discarded. Until then nothing but the steps of R319 happens. (R317, R318, R319, R325, R330, R331) -/
def Obligations.SealAndDrainRows : Prop :=
  (∀ (w : SealWait) (rest : List SealWait) (ctx : Nat) (s u : State), serving s = true → s.gen.seals = w :: rest → w.ctxs = [ctx] →
    u = advance (sealSteps s w.ctxs) → (∀ t, u.gen.lastSeal = some t → t + 100000 ≤ tsNs u) →
    (u.gen.drains.filter fun d => d.ctx == ctx).length < 2 → sealHeld u w = false → ∃ t, exec .genSeal s = .next (advance t) ∧
      t.gen.seals = rest ∧ t.gen.lastSeal = some (tsNs u) ∧ (ctxGet t ctx).gen = (ctxGet u ctx).gen + 1 ∧
      ∃ d ∈ t.gen.drains, d.ctx = ctx ∧ d.gen = (ctxGet u ctx).gen ∧
        (ctx ∉ u.pr.resyncCtx → d.todo = walkOrder u ctx (ctxGet u ctx).gen.toNat)) ∧
  (∀ (w : SealWait) (rest : List SealWait) (s u : State), serving s = true → s.gen.seals = w :: rest →
      u = advance (sealSteps s w.ctxs) →
    sealHeld u w = true ∨ (∃ t, u.gen.lastSeal = some t ∧ tsNs u < t + 100000) ∨
      (∃ c ∈ w.ctxs, 2 ≤ (u.gen.drains.filter fun d => d.ctx == c).length) → exec .genSeal s = .next u) ∧
  (∀ s : State, serving s = false ∨ s.gen.seals = [] → exec .genSeal s = .next s) ∧
  (∀ (ctx gen : Nat) (d : Drain) (s v : State), serving s = true → drainOf s ctx (BitVec.ofNat 32 gen) = some d → d.sealed = true →
    d.todo = [] → bufHolds s ctx d.gen = false → evictLogs s ctx d.gen = false → logWriting s ctx gen = false →
        (d.lag && !d.lagOk && paired s) = false →
    logRecord s ctx d.gen 0 false false 0 4 (endField d.carried d.records) 0 = (v, true) →
    ∃ t, exec (.drainComplete ctx gen) s = .next (advance t) ∧
        (ctxGet t ctx).lastEnd = (if logDiscards s ctx = true then (ctxGet s ctx).lastEnd else some d.gen) ∧
      ∀ x ∈ t.gen.drains, ¬ (x.ctx = ctx ∧ x.gen = d.gen)) ∧
  (∀ (ctx gen : Nat) (s : State), (∀ d, drainOf s ctx (BitVec.ofNat 32 gen) = some d → d.sealed = false ∨ d.todo ≠ [] ∨
      logWriting s ctx gen = true ∨ bufHolds s ctx d.gen = true ∨ evictLogs s ctx d.gen = true ∨
          (d.lag && !d.lagOk && paired s) = true) →
    exec (.drainComplete ctx gen) s = .next s)

/-- The beats of a fill: A good beat of a fill that is not its last is merged into the read and the miss-handling entry at its
place and changes no line. The last good beat of a fill with nothing merged into it, whose last is in service, installs the line
CLEAN with the bytes of the four beats and frees the entry, and leaves every other way slot as it is. (Stated of a settled
serving slice with the flip-mask unarmed.) (R22, R76, R111, R516) -/
def Obligations.MemReadFills : Prop :=
  ∀ (s : State) (tag beat line : Nat) (bytes : Bytes) (r : MemRd) (m : Mhe) (d : LineData) (got : BitVec 4), serving s = true →
      Settled s →
    csrBit s 0xC10 63 = false → beat < 4 → (s.arr.memRds.find? fun r => r.tag == tag) = some r → r.for_ = .fill line → r.beats = 4 →
    r.bad = 0 → mheOf s line = some m → m.reads = [] → m.upset = false → got = r.got ||| BitVec.ofNat 4 (2 ^ beat) →
    d = mergeBytes r.data (BitVec.ofNat 4096 (leNat (slice bytes 0 128) <<< (1024 * beat))) (spanMask (128 * beat) 128) →
    (got ≠ 15 → ∃ t, exec (.memReadReturn tag beat 0 false bytes) s = .next t ∧
      t.arr.memRds = (s.arr.memRds.map fun x => if x.tag = tag then { r with got := got, data := d } else x) ∧
      t.arr.mhes = (s.arr.mhes.map fun x => if x.line = line then { m with got := got, bad := 0, data := d } else x) ∧
      t.arr.lines = s.arr.lines) ∧
    (got = 15 → m.kind ∈ [.demand, .nextLine, .stream, .prefetch] → m.wmask = 0 → (lastAt s m.last).cond = 1 →
      ∀ k, m.slot = some k → (lineAt s k).filling = true → (lineAt s k).addr = line →
      ∃ t, exec (.memReadReturn tag beat 0 false bytes) s = .next t ∧ (lineAt t k).st = .clean ∧ (lineAt t k).filling = false ∧
        (lineAt t k).addr = line ∧ (lineAt t k).data = d ∧ mheOf t line = none ∧ ∀ j, j ≠ k → lineAt t j = lineAt s j)

/-- What memory answers, the drains and the credits: In a settled serving slice: a replayed beat of a fill is awaited again; the
acceptance of an eviction's last beat frees its eviction buffer; the completion of a write that nothing waits for frees its tag;
the completion of a write sent to memory for a request finishes that request; a merging entry due drains as a MEM write, and
with none open nothing happens; an open atomic line is closed into its slot with the bytes it holds. A credit returned on a
channel drives the oldest message that waits there, else it is kept; ports without credits change nothing. (R24, R90, R112,
R163, R268, R285, R345) -/
def Obligations.MemRows : Prop :=
  (∀ (s : State) (tag beat line : Nat) (r : MemRd) (m : Mhe), serving s = true → beat < 4 →
    (s.arr.memRds.find? fun r => r.tag == tag) = some r → r.for_ = .fill line → r.beats = 4 → mheOf s line = some m →
        m.kind ≠ .stage →
    exec (.memReplay tag beat) s = .next { s with arr := { s.arr with
      memRds := s.arr.memRds.map fun x => if x.tag = tag then
        { r with got := r.got &&& ~~~BitVec.ofNat 4 (2 ^ beat), bad := r.bad &&& ~~~BitVec.ofNat 4 (2 ^ beat) } else x
      mhes := s.arr.mhes.map fun x => if x.line = m.line then
        { m with got := m.got &&& ~~~BitVec.ofNat 4 (2 ^ beat), bad := m.bad &&& ~~~BitVec.ofNat 4 (2 ^ beat) } else x } }) ∧
  (∀ (s : State) (tag line : Nat) (w : MemWr), serving s = true → Settled s →
    (s.arr.memWrs.find? fun w => w.tag == tag && !w.accepted) = some w → w.for_ = .evict line →
    exec (.evictionWritebackAccepted tag) s = .next { s with arr := { s.arr with
      evicts := s.arr.evicts.filter fun e => !(e.line == line && e.tag.isSome)
      memWrs := s.arr.memWrs.map fun x => if x.tag = tag then { x with accepted := true } else x } }) ∧
  (∀ (s : State) (tag : Nat) (w : MemWr), serving s = true → Settled s → s.arr.memq = [] →
    (s.arr.memWrs.find? fun w => w.tag == tag) = some w → w.drop = false →
    (w.for_ = .none → exec (.memWriteCompletion tag) s =
      .next { s with arr := { s.arr with memWrs := s.arr.memWrs.filter fun x => x.tag != tag } }) ∧
    (∀ o u, w.for_ = .req o → w.accepted = true →
      u = finish { s with arr := { s.arr with memWrs := s.arr.memWrs.filter fun x => x.tag != tag } } o St.ok →
      exec (.memWriteCompletion tag) s = .next (advance (memPump u.arr.memq.length u)))) ∧
  (∀ s : State, serving s = true → (mergeOpen s = [] → exec .mergeEntryDrain s = .next s) ∧
    (∀ m ms, mergeOpen s = m :: ms → exec .mergeEntryDrain s = .next (advance (mergeDrain s m.n)))) ∧
  (∀ (s : State) (line : Nat) (o : OpenLine), serving s = true → Settled s → csrBit s 0xC10 63 = false → openOf s line = some o →
    ∃ t, exec (.atomicLineClose line) s = .next t ∧ openOf t line = none ∧ (lineAt t o.slot).data = o.data ∧
      (lineAt t o.slot).st = (lineAt s o.slot).st ∧ (∀ k, k ≠ o.slot → lineAt t k = lineAt s k) ∧ t.coh = s.coh ∧ t.pl = s.pl ∧
      t.out = s.out) ∧
  (∀ (s : State) (line : Nat), serving s = true → Settled s → openOf s line = none → exec (.atomicLineClose line) s = .next s) ∧
  (∀ (s : State) (p : Port) (cls : Nat), s.pw.pstate ≠ 0 → p = .ctl ∨ p = .hst ∨ p = .blk →
    ∃ u, exec (.creditReturn p cls) s = .next (if p = .hst then advance u else u) ∧
    (∀ o rest, portsHalt s = false → takeFirst (channel p cls) s.txq = some (o, rest) → u = drive { s with txq := rest } o) ∧
    (portsHalt s = true ∨ takeFirst (channel p cls) s.txq = none → u = { s with
      credits := SMap.put 0 s.credits (channel p cls) (SMap.get 0 s.credits (channel p cls) + 1) })) ∧
  (∀ (s : State) (cls ch : Nat), serving s = true → Settled s → s.arr.memq = [] → ch = 17 + cls % 2 → takeFirst ch s.txq = none →
    exec (.creditReturn .mem cls) s = .next { s with credits := SMap.put 0 s.credits ch (SMap.get 0 s.credits ch + 1) }) ∧
  (∀ (s : State) (p : Port) (cls : Nat), p = .syn ∨ p = .tth ∨ p = .hdr ∨ s.pw.pstate = 0 → exec (.creditReturn p cls) s = .next s)

/-- Answers of memory in a paused or fenced slice: In safe retention, and in a BACKUP_HOLD with the core supplied, each row of
memory's answers waits in the slice and changes nothing else; a fenced slice drops the answers of reads, and lets the writes
memory had accepted or completes end as ever while the core is supplied; and while the slice is in reset, starting, or without
its core supply it does nothing. (R473, R558, R560) -/
def Obligations.MemHeld : Prop :=
  ∀ (c : Instr) (s : State), (∃ tag beat status bad bytes, c = .memReadReturn tag beat status bad bytes) ∨
      (∃ tag beat, c = .memReplay tag beat) ∨ (∃ tag, c = .memWriteCompletion tag) ∨ (∃ tag, c = .evictionWritebackAccepted tag) →
    (s.hd.fenced = true → s.pw.coreDown = true ∨ (∀ tag, c ≠ .memWriteCompletion tag ∧ c ≠ .evictionWritebackAccepted tag) →
      exec c s = .next s) ∧
    (s.hd.fenced = true → s.pw.coreDown = false → ∀ g, exec (.memWriteCompletion g) s = .next (memWriteDone s g) ∧
      exec (.evictionWritebackAccepted g) s = .next (memWriteAccept s g)) ∧
    (s.hd.fenced = false → s.pw.pstate = 3 ∨ (s.pw.pstate = 4 ∧ s.pw.coreDown = false) →
      exec c s = .next { s with held := s.held ++ [c] }) ∧
    (s.hd.fenced = false → s.pw.pstate ≤ 1 ∨ (s.pw.pstate = 4 ∧ s.pw.coreDown = true) → exec c s = .next s)

/-- SYN words and scheduled write beats: In a slice that serves, quiesces or holds in BACKUP_HOLD with its core supplied: a SYN
word of bad parity is counted and reported; one of class 0 does nothing; a barrier token is accepted by a plan that waits for it
and otherwise counts as ignored; a flag word sets its flag, which a reader of DRF_PLAN_SYNFLAGS sees; a word of the reserved
class counts as bad. A scheduled write beat joins the plan write buffer where an instance of its source stands at its arrival
and there is room; one that belongs to no pass counts as stray, changing nothing else. (R20, R228, R229, R231, R232, R450) -/
def Obligations.PlanInputRows : Prop :=
  ∀ s : State, fabricRuns s = true →
    (∀ word src, exec (.synWord word src true) s =
      .next (parityRecord (ev s Ev.synBad) { port := .syn, src := src, parity := .header })) ∧
    (∀ word src, word / 2 ^ 30 % 4 = 0 → exec (.synWord word src false) s = .next s) ∧
    (∀ word src, word / 2 ^ 30 % 4 = 1 →
      (s.pl.st = 1 ∨ s.pl.st = 2 → hdrStartMode (planHdr s) = 1 → hdrBarrier (planHdr s) = word / 2 ^ 24 % 64 → s.pl.token = none →
        exec (.synWord word src false) s = .next { s with pl := { s.pl with token := some (planNow s) } }) ∧
      ((s.pl.st ≠ 1 ∧ s.pl.st ≠ 2) ∨ hdrStartMode (planHdr s) ≠ 1 ∨ hdrBarrier (planHdr s) ≠ word / 2 ^ 24 % 64 ∨
          s.pl.token.isSome = true →
        exec (.synWord word src false) s = .next (ev s Ev.synTokenIgnored))) ∧
    (∀ word src, word / 2 ^ 30 % 4 = 2 → ∃ t, exec (.synWord word src false) s = .next t ∧ t = { s with csr := t.csr } ∧
      csrGet t 0x408 = csrGet s 0x408 ||| 2 ^ (word / 2 ^ 24 % 64) ∧ ∀ off, off ≠ 0x408 → csrGet t off = csrGet s off) ∧
    (∀ word src, word / 2 ^ 30 % 4 = 3 → exec (.synWord word src false) s = .next (ev s Ev.synBad)) ∧
    (∀ (src mask b w : Nat) (bytes : Bytes), hedgeFenced s (hedgeClass s src) = false →
        ((passSpans s).find? fun b => decide (b ≤ planNow s ∧ planNow s < b + passLength (planSlots s))) = some b →
      slotAtOffset (planSlots s) (planNow s - b) = some w → slotOp w = 3 ∨ slotOp w = 4 → slotPeer w = src →
      (s.pl.wbuf.any fun x => x.stamp == planNow s && x.src == src) = false → s.pl.wbuf.length < 128 →
      ∃ t, exec (.scheduledWriteBeat src mask false bytes) s = .next t ∧
        t.pl.wbuf = s.pl.wbuf ++ [{ stamp := planNow s, src := src, mask := mask, data := bytes }] ∧
        t = { s with pl := { s.pl with wbuf := t.pl.wbuf }, qs := t.qs }) ∧
    (∀ (src mask : Nat) (bytes : Bytes), passSpans s = [] →
      exec (.scheduledWriteBeat src mask false bytes) s = .next (ev s Ev.planStrayBeat))

/-- Passes, holds, the switch and a stop: PASS_START of an armed plan that holds nothing, with plan lock and a known nominal
start, runs the pass from its first entry at that start or as soon after as the sequencer may. A charge that reached the
sequencer begins a hold, which opens the cycle; its end adds 64 fc for every charge. PASS_END of a plan with no records and no
reason to stop arms the next pass. SWITCH_DONE makes the other bank the active one, leaving the banks as they are. STOPPING_DONE
of a plan with no records and no command that waits ends in IDLE with the reason of the stop. PLAN.LOAD of a good image makes
the shadow bank valid, PLAN.RUN of an IDLE sequencer with a valid bank and plan lock arms it, and PLAN.STOP ends at once where
it is IDLE and else has the pass under way be the last. (R199, R201, R203, R221, R223, R224, R225, R226, R233, R236, R237, R436)
-/
def Obligations.PassRows : Prop :=
  (∀ (s : State) (nom : Nat), serving s = true → s.pl.st = 1 → s.pl.holding = false → s.pl.charged = 0 → s.pw.planLock = true →
    nextNominal s = some nom → ∃ t, exec .passStart s = .next t ∧ t = { s with pl := t.pl } ∧ t.pl.st = 2 ∧
      t.pl.pass = (s.pl.pass + 1) % 2 ^ 48 ∧ t.pl.nominal = nom ∧ t.pl.fc = max nom s.pl.fc ∧ t.pl.slot = 0 ∧ t.pl.rep = 0 ∧
      t.pl.off = 0 ∧ t.pl.token = none ∧ t.pl.openNow = false ∧ t.pl.holds = 0 ∧ t.pl.banks = s.pl.banks ∧
      t.pl.acc = { bank := s.pl.active, number := (s.pl.pass + 1) % 2 ^ 48, startTs := tsNs s } ∧
      t.pl.base = nom + passLength (planSlots s) + hdrGap (planHdr s)) ∧
  (∀ s : State, s.pl.st ≠ 1 ∨ s.pw.planLock = false ∨ nextNominal s = none → exec .passStart s = .next s) ∧
  (∀ s : State, serving s = true → Settled s → s.pl.charged ≠ 0 → s.pl.holding = false → s.pl.st = 1 ∨ s.pl.st = 2 →
    exec .holdStart s = .next { s with pl := { s.pl with holding := true, openNow := true, openSpent := if s.pl.st = 2 then 0 else s.pl.openSpent } }) ∧
  (∀ s : State, serving s = true → Settled s → s.pl.holding = true →
    exec .holdEnd s = .next { s with pl := { s.pl with
      fc := s.pl.fc + 64 * s.pl.charged, charged := 0, holding := false, openNow := s.pl.st != 2,
      openSpent := if s.pl.st = 2 then 0 else s.pl.openSpent } }) ∧
  (∀ s : State, serving s = true → Settled s → s.pl.st = 2 → (planSlots s).length ≤ s.pl.slot → hdrRecMode (planHdr s) = 0 →
    s.pl.lockGone = false → hdrSlipLimit (planHdr s) = 0 → s.pl.stopAt = 0 → s.pl.passes = 0 → s.pl.switchCmd = none →
    ∃ t, exec .passEnd s = .next t ∧ t.pl.st = 1 ∧ t.pl.ran = s.pl.ran + 1 ∧ t.pl.openNow = true ∧ t.pl.digOut = s.pl.dig ∧
      t.pl.banks = s.pl.banks ∧ t.pl.pass = s.pl.pass ∧ t = { s with pl := t.pl, free := s.free + 1 }) ∧
  (∀ (s : State) (n passes : Nat), s.pl.st = 3 → s.pl.switchCmd = some (n, passes) → ∃ t, exec .switchDone s = .next t ∧
    t.pl.active = 1 - s.pl.active ∧ t.pl.banks = s.pl.banks ∧ t.tm = s.tm) ∧
  (∀ s : State, serving s = true → Settled s → s.pl.st = 4 → hdrRecMode (planHdr s) = 0 → s.pl.sum = none → s.pl.switchCmd = none →
    s.pl.stopCmds = [] → ∃ t, exec .stoppingDone s = .next t ∧ t.pl.st = 0 ∧ t.pl.stopReason = s.pl.stopAt ∧ t.pl.openNow = true ∧
      t.pl.banks = s.pl.banks ∧ t.arr = s.arr) ∧
  (∀ (ring idx : Nat) (input : Bytes) (c : Cmd) (s : State), Starts s ring idx 0x050 c → s.pl.st = 0 → s.pl.switchCmd = none →
    imageCheck (slice input 0 (imageSpan input)) (leAt c.desc 24 4) = .good →
    ∃ t, exec (.planLoad ring idx input []) s = .next (advance t) ∧ EndsOk t c 0 ∧ t.pl.shadowValid = true ∧
        t.pl.active = s.pl.active ∧
      t.pl.st = 0) ∧
  (∀ (ring idx : Nat) (c : Cmd) (s : State), Starts s ring idx 0x051 c → (leAt c.desc 16 1).testBit 0 = false → s.pl.st = 0 →
    (planBank s s.pl.active).valid = true → s.pw.planLock = true → ∃ t, exec (.planRun ring idx) s = .next (advance t) ∧
      EndsOk t c (s.pl.pass % 2 ^ 48) ∧ t.pl.st = 1 ∧ t.pl.base = s.now + 1 ∧ t.pl.banks = s.pl.banks) ∧
  (∀ (ring idx : Nat) (c : Cmd) (s : State), Starts s ring idx 0x052 c →
    (s.pl.st = 0 → ∃ t, exec (.planStop ring idx) s = .next (advance t) ∧ EndsOk t c (s.pl.pass % 2 ^ 48) ∧ t.pl = s.pl) ∧
    (s.pl.st = 2 → isExpert c = false → ∃ t, exec (.planStop ring idx) s = .next (advance t) ∧ t.pl.stopAt = 2 ∧ t.pl.st = 2 ∧
      t.pl.stopCmds = s.pl.stopCmds ++ [c.n]))

/-- The instances of a pass: A row of the scheduled plane acts only where a running pass stands at an instance of its operation,
else it changes nothing. At its instance it begins, does what its operation says, is counted in the record of the pass by its
status, and takes one fc: OPEN and QUIET do nothing more; ARR_TO_BLK drives one beat with the bytes and status read; BLK_TO_ARR
and BLK_ADD write the beat that arrived for them, or end with ST_PLAN_NODATA; STAGE_IN and STAGE_OUT act on their line;
ARR_TO_ARR writes what it read; ARR_SCAN only reads; TTH_OUT sends what it read; SYN_OUT drives its word; KERNEL gives the
arithmetic path to the kernel engine. (R199, R203, R208, R214, R215, R216, R218, R221, R228, R230, R490) -/
def Obligations.InstanceRows : Prop :=
  (∀ (c : Instr) (op : Nat) (s : State), instOp c = some op →
    serving s = false ∨ s.pl.st ≠ 2 ∨ s.pl.holding = true ∨ (∀ w, (planSlots s)[s.pl.slot]? = some w → slotOp w ≠ op) →
    exec c s = .next s) ∧
  (∀ (c : Instr) (s : State) (w : Nat), AtInstance s w → Settled s → (c = .openCycle ∧ slotOp w = 0) ∨ (c = .quiet false ∧
      slotOp w = 1) →
    exec c s = .next (instDone (instBegun s w) w)) ∧
  (∀ (s : State) (w : Nat), AtInstance s w → Settled s →
    exec (.quiet true) s = .next (instDone (passCount (planStoreBad
      { instBegun s w with pl := { (instBegun s w).pl with openNow := false } }).1 St.dataError) w)) ∧
  (∀ (s : State) (w : Nat), AtInstance s w → Settled s → slotOp w = 0xA →
    (s.pl.lockGone = false ∨ planUnsettled s = false →
      exec .synOut s = .next (instDone (drive (pacedSyn (instBegun s w)) (.syn (w % 2 ^ 32) (ownId s))) w)) ∧
    (s.pl.lockGone = true → planUnsettled s = true → exec .synOut s = .next s)) ∧
  (∀ (s u : State) (w : Nat), AtInstance s w → Settled s → slotOp w = 0xB → u = instBegun s w →
    exec .kernel s = .next (instDone (activity { u with hl := { s.hl with
      kernelAc := SMap.put 0 s.hl.kernelAc (w % 64) (SMap.get 0 s.hl.kernelAc (w % 64) + 1) } } 16 4096 5 1) w)) ∧
  (∀ (s u : State) (w st : Nat) (bs : Bytes) (as : List Nat), AtInstance s w → readInstance (instBegun s w) w = (u, st, bs, as) →
    (slotOp w = 2 → exec .arrToBlk s = .next (advance (instDone (passCount (drive u (.blk
      { scheduled := true, group := if w.testBit 24 then w / 2 ^ 18 % 64 else 0, dst := if w.testBit 24 then 0x3FFFF else w % 2 ^ 18,
        status := st, qos := slotQos w, ctx := coverCtx u (as.headD 0), data := bs })) st) w))) ∧
    (slotOp w = 7 → st ≠ 0 → exec .arrToArr s = .next (advance (instDone (passCount u st) w))) ∧
    (slotOp w = 7 → st = 0 → ∃ v st', planWrite u (as.getD 1 0) 0 (slotQos w) (w.testBit 27) (2 ^ 256 - 1) bs 28 = (v, st') ∧
      exec .arrToArr s = .next (advance (instDone (passCount v st') w))) ∧
    (slotOp w = 8 → exec .arrScan s = .next (advance (instDone (passCount u st) w))) ∧
    (slotOp w = 9 → exec .tthOut s = .next (advance (instDone
      (passCount (if st = 0 then planSend u (as.headD 0) (slotQos w) bs else u) st) w)))) ∧
  (∀ (s u v : State) (w : Nat) (as : List Nat), AtInstance s w → genAddrs (instBegun s w) w = (as, u) →
    (slotOp w = 5 → exec .stageIn s =
      .next (advance (instDone (stageInLine u (as.headD 0 / 512) (w / 2 ^ 25 % 4) (slotQos w)) w))) ∧
    (slotOp w = 6 → ∃ v st, stageOutLine u (as.headD 0 / 512) (slotQos w) = (v, st) ∧
      exec .stageOut s = .next (advance (instDone (passCount v st) w))) ∧
    (takeBeat u (w % 2 ^ 18) = (none, v) →
      (slotOp w = 3 → exec .blkToArr s = .next (advance (instDone (passCount
        (planNoBeat v (as.headD 0) (slotXform w) (slotQos w)) St.planNodata) w))) ∧
      (slotOp w = 4 →
          exec .blkAdd s = .next (advance (instDone (passCount (planNoBeat v (as.headD 0) 0 (slotQos w)) St.planNodata) w)))) ∧
    (∀ mask bs, takeBeat u (w % 2 ^ 18) = (some (mask, bs), v) →
      (slotOp w = 3 → ∃ x st, planWrite v (as.headD 0) (slotXform w) (slotQos w) (w.testBit 27) mask bs
          (if slotXform w = 1 then 25 else 12) = (x, st) ∧
        exec .blkToArr s = .next (advance (instDone (passCount
          (if (st = St.ok ∨ st = St.planMiss) ∧
              slotXform w = 3 then planFeed x (w / 2 ^ 31 % 8) (maskedBytes mask bs) else x) st) w))) ∧
      (slotOp w = 4 → ∃ x st, planAdd v (as.headD 0) (w / 2 ^ 28 % 8) (slotQos w) mask bs = (x, st) ∧
        exec .blkAdd s = .next (advance (instDone (passCount x st) w)))))

/-- What a read instance finds: A plain read instance of a last in service whose line is not resident nor held elsewhere ends
with ST_PLAN_MISS and zero bytes; one of a last that is not in service with ST_DATA_LOST and zero bytes; and one of a FALLOW
line whose writes are all seen with ST_OK and zero bytes. None of them changes the array's lines. (R215, R216) -/
def Obligations.ReadInstanceOutcome : Prop :=
  ∀ (s : State) (addr qos : Nat), addr % 256 = 0 → s.hl.suspect = false → s.pl.veil = [] →
    (∀ k, findLine s (addr / 512) = some k → (lineAt s k).last = lastOfLine s (addr / 512)) →
    (s.arr.lines.all fun e => e.2.tagBad == 0) = true → s.gen.pendingRc.contains (addr / 512) = false →
        entryHeld s (addr / 512) = false →
    ∀ u st bs, planRead s addr 0 qos = (u, st, bs) →
      ((lastAt s (lastOfLine s (addr / 512))).cond ≠ 1 →
        st = St.dataLost ∧ bs = List.replicate 256 0 ∧ u.arr.lines = s.arr.lines) ∧
      ((lastAt s (lastOfLine s (addr / 512))).cond = 1 → aCache (lastAt s (lastOfLine s (addr / 512))).attr = true →
        evictOf s (addr / 512) = none → openOf s (addr / 512) = none →
        (findLine s (addr / 512) = none → st = St.planMiss ∧ bs = List.replicate 256 0 ∧ u.arr.lines = s.arr.lines) ∧
        (∀ k, findLine s (addr / 512) = some k → (lineAt s k).filling = false → (lineAt s k).st = .fallow →
          st = St.ok ∧ bs = List.replicate 256 0 ∧ u.arr.lines = s.arr.lines))

/-- Register accesses: An access by a frame of the headland ring is performed once and answered by a frame with its status and
value; a repeat of one whose answer is kept has that answer sent again, which stands first among the kept ones then, and nothing
else; one by HST is answered by CMP or CSR_DATA, with ST_BAD_OP where it comes from a peer or has reserved fields or an offset
beyond the space, and ST_BAD_SIZE where it is of neither 4 nor 8 bytes. An access that fails a check changes nothing, is logged
with the cause of the first check that fails and answered with its status: an unserved home, a class without register access, a
wrong size, a privileged write by HST without host_priv. A write where no register lies is logged; a read there returns zero. A
write of a register replaces its writable bits, as DRF_SCRATCH shows. (R272, R279, R582, R586, R587, R588, R589, R590, R591,
R592, R593) -/
def Obligations.RegisterAccesses : Prop :=
  (∀ (i : Instr) (a : Csr) (w : Bool) (s : State), accessOf i = some (a, w) → FrameAccess s a → exec i s =
    .next (advance (csrFrameAnswer (csrAccess s a w).s a w (csrAccess s a w).status (csrAccess s a w).value))) ∧
  (∀ (i : Instr) (a : Csr) (w : Bool) (f : Frame) (s : State), accessOf i = some (a, w) → a.hdr = true →
      TakesFrame s (csrFrame a true) →
    a.m.dst = stopAddr s → (s.hd.kept.find? fun e => e.1 == a.m.src && e.2.1 == a.m.tag) = some (a.m.src, a.m.tag, f) →
    exec i s =
      .next (advance (drive { s with hd := { s.hd with kept := (a.m.src, a.m.tag, f) :: s.hd.kept.filter fun e => e.1 != a.m.src } } (.hdr f)))) ∧
  (∀ (i : Instr) (a : Csr) (w : Bool) (s : State) (m : Msg) (u : State), accessOf i = some (a, w) → HstAccess s a →
    m = { a.m with port := .hst } → u = arrives s m 4 (if w = true then m.data.length else 0) → exec i s =
    .next (advance (csrAnswer (csrAccess u { a with m := m } w).s m w (csrAccess u { a with m := m } w).status
      (csrAccess u { a with m := m } w).value))) ∧
  (∀ (i : Instr) (a : Csr) (w : Bool) (s : State) (m : Msg) (u : State), accessOf i = some (a, w) → HstArrives s a →
    m = { a.m with port := .hst } → u = arrives s m 4 (if w = true then m.data.length else 0) →
    (m.rsvd = true ∨ m.mod ≠ 0 ∨ 2 ^ 16 ≤ m.addr ∨ m.unlisted = 1 ∨ fromPeer s m = true →
      exec i s = .next (advance (csrAnswer u m w St.badOp 0))) ∧
    (m.rsvd = false → m.mod = 0 → m.addr < 2 ^ 16 → m.unlisted = 0 → fromPeer s m = false → m.size ≠ 3 → m.size ≠ 7 →
      exec i s = .next (advance (csrAnswer u m w St.badSize 0)))) ∧
  (∀ (a : Csr) (w : Bool) (s : State) (st cause : Nat), accCheck s a w = (st, cause) → st ≠ 0 →
    csrAccess s a w = { s := csrLatch s cause a.hdr (a.m.addr % 2 ^ 16) w a.m.src, status := st }) ∧
  (∀ (a : Csr) (w : Bool) (s : State) (r : RegRow) (c : Nat), regFind (a.m.addr % 2 ^ 16) (a.m.size + 1) = some (r, c) →
    (homeServed s r.homeC = false → accCheck s a w = (St.badState, 5)) ∧
    (homeServed s r.homeC = true → a.hdr = false → csrBit s 0xF00 (16 + hedgeClass s a.m.src) = false →
      accCheck s a w = (St.hedgeDenied, 3)) ∧
    (homeServed s r.homeC = true → (a.hdr = true ∧ a.m.rsvd = false ∨ a.hdr = false ∧
        csrBit s 0xF00 (16 + hedgeClass s a.m.src) = true) →
      (sizeOk r c (a.m.addr % 2 ^ 16) (a.m.size + 1) w = false → accCheck s a w = (St.badSize, 2)) ∧
      (sizeOk r c (a.m.addr % 2 ^ 16) (a.m.size + 1) w = true → w = true → a.hdr = false → privReg r c = true →
        csrBit s 0xF10 29 = false → accCheck s a w = (St.hedgeDenied, 3)))) ∧
  (∀ (a : Csr) (s : State), regFind (a.m.addr % 2 ^ 16) (a.m.size + 1) = none →
    (accCheck s a true = (0, 0) → csrAccess s a true = { s := csrLatch s 4 a.hdr (a.m.addr % 2 ^ 16) true a.m.src }) ∧
    (accCheck s a false = (0, 0) → csrAccess s a false = { s := s })) ∧
  (∀ (a : Csr) (s : State), Permitted s a true → a.m.addr = 0x20 → exec (.csrWr a) s = wrote (stored s 0x20 (written a)) a ∧
    csrGet (stored s 0x20 (written a)) 0x20 = written a % 2 ^ 64)

/-- Placement, mirror and bias registers: In a permitted write frame: init writes every table word as zero and clears the bias
cache, and ends when those writes have completed; enable is stored, and ignored and logged while the filter tracks host lines;
pin_ways is stored where no pinned last, mirror line or reservation stands and every bank has four ways more enabled, which
fixes the ways of each bank that are pinned; raising it starts the emptying of the ways, an open line of which is closed first,
which goes on line by line until they are empty; mirror_ways and stripe_shift are stored where the rules let them change. (R74,
R91, R92, R255, R256, R341, R586, R590) -/
def Obligations.PlacementWrites : Prop :=
  (∀ (a : Csr) (s : State), Permitted s (csrAt a 0x600) true → (written a).testBit 1 = true → ((written a).testBit 0 = true →
      csrBit s 0x600 0 = true ∨ sfCount s = 0) → s.pw.pstate ≠ 3 → (csrBit s 0x600 0 = true →
      fld (written a) 3 2 = csrFld s 0x600 3 2) →
      exec (.biasInit a) s = wrote (biasInitStart (stored s 0x600 (written a))) (csrAt a 0x600)) ∧
  (∀ (a : Csr) (s : State), Permitted s (csrAt a 0x600) true → (written a).testBit 1 = false → ((written a).testBit 0 = true →
      csrBit s 0x600 0 = true ∨ sfCount s = 0) → s.pw.pstate ≠ 3 → (csrBit s 0x600 0 = true →
      fld (written a) 3 2 = csrFld s 0x600 3 2) → exec (.biasEnable a) s = wrote (stored s 0x600 (written a)) (csrAt a 0x600)) ∧
  (∀ (a : Csr) (s : State), Permitted s (csrAt a 0x600) true → (written a).testBit 0 = true → csrBit s 0x600 0 = false →
      sfCount s ≠ 0 → exec (.biasEnable a) s = wrote (csrLatch s 1 true 0x600 true a.m.src) (csrAt a 0x600)) ∧
  (∀ s : State, exec .biasInitDone s = .next (if (s.arr.memWrs.any fun w => w.for_ == .bias) = true ∨
      (s.arr.memq.any fun q => match q with
        | .wr w _ _ => w.for_ == .bias
        | .rd _ => false) = true then s else { s with coh := { s.coh with biasBusy := false } })) ∧
  (∀ (a : Csr) (s : State), Permitted s (csrAt a 0x108) true → anyPinned s = false → s.arr.pinBusy = false → s.pr.mirrors = [] →
      fld (written a) 3 0 + 4 ≤ fewestWays s → mirrorWays s ≤ fld (written a) 3 0 → s.pw.pstate ≠ 3 →
      exec (.pinWaysWrite a) s = wrote ({ stored s 0x108 (written a) with arr := { s.arr with
      pinBusy := decide (pinWays s < fld (written a) 3 0), roles := pinRoles (stored s 0x108 (written a)) (fld (written a) 3 0) } }) (csrAt a 0x108)) ∧
  (∀ s : State, serving s = true → s.arr.pinBusy = true →
      ∀ u, u = (pinSlotsHeld s).foldl (fun v k => emptySlot (closeLine v (lineAt v k).addr) k) s → exec .pinWaysReserved s =
    .next (advance (if pinSlotsHeld u = [] then { u with arr := { u.arr with pinBusy := false } } else u))) ∧
  (∀ s : State, serving s = false ∨ s.arr.pinBusy = false → exec .pinWaysReserved s = .next s) ∧
  (∀ (a : Csr) (s : State), Permitted s (csrAt a 0x900) true → anyPinned s = false → anyPaired s = false → s.pr.mirrors = [] →
      fld (written a) 7 4 ≤ pinWays s → s.pw.pstate ≠ 3 →
      exec (.mirrorWaysWrite a) s = wrote (stored s 0x900 (written a)) (csrAt a 0x900)) ∧
  (∀ (a : Csr) (s : State), Permitted s (csrAt a 0x100) true → (s.pw.locked = false ∨ fld (written a) 2 0 = csrFld s 0x100 2 0) →
      exec (.stripeShiftWrite a) s = wrote (stored s 0x100 (written a)) (csrAt a 0x100)) ∧
  (∀ (a : Csr) (s : State), Permitted s (csrAt a 0x100) true → s.pw.locked = true → fld (written a) 2 0 ≠ csrFld s 0x100 2 0 →
      exec (.stripeShiftWrite a) s = wrote (csrLatch s 1 true 0x100 true a.m.src) (csrAt a 0x100))

/-- Ring, log and link enables: In a permitted write frame: enabling a ring whose doorbell line no other enabled ring names,
where its frozen fields stay or it is not busy, restarts its indices and reads its doorbell line; disabling it stops fetching;
enabling an event ring or a log ring restarts its indices; link_en starts training or takes the link to DISABLED; retrain starts
RETRAIN, or training where the link is DOWN. A ring that shares a doorbell line is left disabled, counted and logged. (R328,
R376, R385, R393, R394, R401, R413, R586, R590) -/
def Obligations.RingAndLinkWrites : Prop :=
  (∀ (n : Nat) (a : Csr) (s : State), Permitted s (csrAt a (0x1018 + 64 * n)) true → n < 64 → (written a).testBit 31 = true →
      ringEnabled s n = false → ((ringGet s n).busy = false ∨ fld (written a) 28 19 = csrFld s (0x1018 + 64 * n) 28 19) →
      sharesDoorbell s n = false → s.pw.pstate ≠ 3 →
      exec (.ringEnable n a) s = wrote (ringStart (stored s (0x1018 + 64 * n) (written a)) n) (csrAt a (0x1018 + 64 * n))) ∧
  (∀ (n : Nat) (a : Csr) (s : State), Permitted s (csrAt a (0x1018 + 64 * n)) true → n < 64 → (written a).testBit 31 = true →
      ringEnabled s n = false → sharesDoorbell s n = true →
      exec (.ringEnable n a) s = wrote (csrLatch (ev s Ev.ringCfgBad) 1 true (0x1018 + 64 * n) true a.m.src) (csrAt a (0x1018 + 64 * n))) ∧
  (∀ (n : Nat) (a : Csr) (s : State), Permitted s (csrAt a (0x1018 + 64 * n)) true → n < 64 → (written a).testBit 31 = false →
      ringEnabled s n = true → fld (written a) 28 19 = csrFld s (0x1018 + 64 * n) 28 19 → s.pw.pstate ≠ 3 →
      exec (.ringDisable n a) s = wrote (ringStop (stored s (0x1018 + 64 * n) (written a)) n) (csrAt a (0x1018 + 64 * n))) ∧
  (∀ (n : Nat) (a : Csr) (s : State), Permitted s (csrAt a (0x2008 + 32 * n)) true → n < 4 → (written a).testBit 31 = true →
      csrBit s (0x2008 + 32 * n) 31 = false → s.pw.pstate ≠ 3 →
      exec (.evringEnable n a) s = wrote ({ stored s (0x2008 + 32 * n) (written a) with rg := { s.rg with
      evs := SMap.put {} s.rg.evs n { SMap.get {} s.rg.evs n with posted := 0 } } }) (csrAt a (0x2008 + 32 * n))) ∧
  (∀ (n : Nat) (a : Csr) (s : State), Permitted s (csrAt a (0x808 + 16 * n)) true → n < 16 → (written a).testBit 63 = true →
      csrBit s (0x808 + 16 * n) 63 = false → s.pw.pstate ≠ 3 →
      exec (.logRingEnable n a) s = wrote (logPut (stored s (0x808 + 16 * n) (written a)) n {}) (csrAt a (0x808 + 16 * n))) ∧
  (∀ (a : Csr) (s : State), Permitted s (csrAt a 0xA00) true → (written a).testBit 31 = true → (written a).testBit 28 = false →
      csrBit s 0xA00 31 = false → s.pw.tetherOff = false → tetherRuns s = true → s.tt.link = 0 →
      exec (.linkEn a) s = wrote (trainStart (stored s 0xA00 (written a))) (csrAt a 0xA00)) ∧
  (∀ (a : Csr) (s : State), Permitted s (csrAt a 0xA00) true → (written a).testBit 31 = false → (written a).testBit 28 = false →
      csrBit s 0xA00 31 = true → s.tt.link ≠ 0 → s.pw.pstate ≠ 3 →
      exec (.linkEn a) s = wrote (linkDown (stored s 0xA00 (written a)) 0 1) (csrAt a 0xA00)) ∧
  (∀ (a : Csr) (s : State), Permitted s (csrAt a 0xA00) true → (written a).testBit 28 = true → (written a).testBit 31 = true →
      csrBit s 0xA00 31 = true → s.pw.tetherOff = false → tetherRuns s = true → s.tt.link = 2 →
      exec (.retrain a) s = wrote (retrainStart (stored s 0xA00 (written a))) (csrAt a 0xA00)) ∧
  (∀ (a : Csr) (s : State), Permitted s (csrAt a 0xA00) true → (written a).testBit 28 = true → (written a).testBit 31 = true →
      csrBit s 0xA00 31 = true → s.pw.tetherOff = false → tetherRuns s = true → s.tt.link = 4 →
      exec (.retrain a) s = wrote (trainStart (stored s 0xA00 (written a))) (csrAt a 0xA00))

/-- Hedge, key, time, counter, trace and energy registers: In a permitted access frame: the hedge registers, the class settings,
the flip-mask and the energy gain take the bits written, and a write of 1 clears the denial log; load arms the seconds for the
next edge; a word of the pairing key is stored, the key valid once its words were written in order; lock and debug_lock stay
set, lock clears host_priv, debug_lock disconnects an instrument; an event counter takes the value written plus what occurs in
that cycle of clk_ctl; enabling the trace seeds its register and empties its buffer; a read of the ledger's data returns the
word at its address and moves on to the next. (R461, R510, R518, R531, R533, R540, R546, R570, R573, R578, R580, R590) -/
def Obligations.SetupWrites : Prop :=
  (∀ (a : Csr) (r : RegRow) (s : State), Permitted s a true → regAt a.m.addr = some r →
      r.off ∈ [0xF00, 0xF40, 0x5000, 0x5008, 0x5010] →
    exec (.hedgeWrite a) s = wrote (stored s a.m.addr (written a)) a) ∧
  (∀ (a : Csr) (s : State), Permitted s a true → a.m.addr = 0xF08 → exec (.hedgeWrite a) s =
    wrote { s with sec := { s.sec with denied := s.sec.denied && !(written a).testBit 63 } } a) ∧
  (∀ (n : Nat) (a : Csr) (s : State), Permitted s (csrAt a (0x3000 + 8 * n)) true → n < 16 →
      exec (.qosClassWrite n a) s = wrote (stored s (0x3000 + 8 * n) (written a)) (csrAt a (0x3000 + 8 * n))) ∧
  (∀ (a : Csr) (s : State), Permitted s (csrAt a 0xC10) true →
      exec (.flipmaskArm a) s = wrote (stored s 0xC10 (written a)) (csrAt a 0xC10)) ∧
  (∀ (a : Csr) (s : State), Permitted s (csrAt a 0x3518) true →
      exec (.energyGainWrite a) s = wrote (stored s 0x3518 (written a)) (csrAt a 0x3518)) ∧
  (∀ (a : Csr) (s : State), Permitted s (csrAt a 0xE08) true →
      exec (.ppsLoad a) s = wrote ({ stored s 0xE08 (written a) with tm := { s.tm with armed := s.tm.armed || (written a).testBit 30, lost := s.tm.lost && (written a).testBit 31 } }) (csrAt a 0xE08)) ∧
  (∀ (k : Nat) (a : Csr) (s : State), Permitted s (csrAt a (0xF20 + 8 * k)) true → k < 4 →
      exec (.pairKeyWrite k a) s = wrote ({ s with sec := { s.sec with
      key := setFld s.sec.key (64 * k + 63) (64 * k) (written a)
      keyValid := if k = 0 then false else s.sec.keyValid || (k == 3 && s.sec.keyNext == 3)
      keyNext := if k = 0 ∨ s.sec.keyNext = k then k + 1 else s.sec.keyNext } }) (csrAt a (0xF20 + 8 * k))) ∧
  (∀ (a : Csr) (v v' : Nat) (u s : State), Permitted s (csrAt a 0xF10) true → v = written a ||| (csrGet s 0xF10 &&& 0xC0000000) →
    v' = (if v.testBit 31 = true then setFld v 29 29 0 else v) → u = stored s 0xF10 v' → exec (.secCtlWrite a) s =
    wrote (if v'.testBit 30 = true then { u with sec := { u.sec with tapIr := 0, wrapIr := 0 } } else u) (csrAt a 0xF10)) ∧
  (∀ (k : Nat) (a : Csr) (c : EvCtr) (s : State), Permitted s (csrAt a (0x4000 + 8 * k)) true → k < 256 →
      c = SMap.get {} s.qs.evs k →
    exec (.evtCounterWrite k a) s = wrote { s with qs := { s.qs with evs := SMap.put {} s.qs.evs k { c with
      val := BitVec.ofNat 48 (written a % 2 ^ 48 + if c.sc = s.now / 4 then c.inSc else 0) } } } (csrAt a (0x4000 + 8 * k))) ∧
  (∀ (a : Csr) (s : State), Permitted s (csrAt a 0x3400) true → (written a).testBit 63 = true → csrBit s 0x3400 63 = false →
      exec (.traceEnable a) s = wrote ({ stored s 0x3400 (written a) with qs := { s.qs with
      lfsr := BitVec.ofNat 32 (if written a % 2 ^ 32 = 0 then 1 else written a % 2 ^ 32), written := 0 } }) (csrAt a 0x3400)) ∧
  (∀ (a : Csr) (s : State), Permitted s (csrAt a 0x3400) true → ((written a).testBit 63 = false ∨ csrBit s 0x3400 63 = true) →
      exec (.traceEnable a) s = wrote (stored s 0x3400 (written a)) (csrAt a 0x3400)) ∧
  (∀ (a : Csr) (s : State), Permitted s a false → a.m.addr = 0xD4C → exec (.ledgerDataRead a) s =
    .next (advance (csrFrameAnswer (csrPut s 0xD48 ((csrGet s 0xD48 + 4) % 2 ^ 16)) a false St.ok
      (readReg s 0xD4C % 2 ^ 32))))

/-- The link of the tether: While the link trains, a CTRL flit carries a negotiation frame. While the link is UP: a flit whose
length or CRC is wrong is discarded, with a nak where it was a DATA flit; a good flit returns its credits and frees the flits it
acknowledges; a nak in it sends every buffered flit again; a DATA flit in sequence gives its chunks and is acknowledged, and one
out of sequence draws one nak; what can be sent is sent. A lane of the width that loses lock starts RETRAIN. A phase of training
that ends well leads to the next, with the lanes as measured, the second drives the lane numbers and the patterns of the test,
and the test leads to the width it allows; one that fails takes the link DOWN with its reason. The first negotiation frame is
answered with the verdict on it, and the second ends in agreement and UP where both accept, else in the pair REFUSED; in
BACKUP_HOLD it waits. RETRAIN that lasts too long goes DOWN; a link DOWN trains again where it may. (R367, R368, R369, R370,
R374, R376, R377, R378, R379, R381, R382, R383) -/
def Obligations.TetherLinkRows : Prop :=
  (∀ (b : Bytes) (s : State), s.tt.link ≠ 1 → s.tt.link ≠ 2 ∨ s.hd.fenced = true → exec (.flitReceived b) s = .next s) ∧
  (∀ (b f : Bytes) (s : State), s.tt.link = 1 →
    (ctrlFrame b = some f → exec (.flitReceived b) s = exec (.negotiationFrame f) s) ∧
    (ctrlFrame b = none → exec (.flitReceived b) s = .next s)) ∧
  (∀ (b : Bytes) (s x : State) (h : Nat), Delivers s → h = leAt b 0 8 → x = (if fld h 46 44 = 0 then flitUse s b else s) →
    b.length ≠ 256 ∨ (crc32 (b.take 252)).toNat ≠ leAt b 252 4 →
    exec (.flitReceived b) s = .next (if fld h 46 44 = 0 then nakSend x else x)) ∧
  (∀ (b : Bytes) (s x : State) (h : Nat), Delivers s → h = leAt b 0 8 → x = (if fld h 46 44 = 0 then flitUse s b else s) →
    b.length = 256 → (crc32 (b.take 252)).toNat = leAt b 252 4 →
    (2 ≤ fld h 46 44 → exec (.flitReceived b) s = .next s) ∧
    ∃ vc u v, (∀ c < 4, SMap.get 0 vc c = SMap.get 0 s.tt.vc c + fld h (37 + 2 * c) (36 + 2 * c)) ∧
      u = flitAck { x with tt := { s.tt with vc := vc } } (fld h 55 48) ∧ v = (if h.testBit 47 = true then flitNak u else u) ∧
      (fld h 46 44 = 1 ∨ fld h 46 44 = 0 ∧ v.tt.link ≠ 2 → exec (.flitReceived b) s = .next (advance (ttFlush v))) ∧
      (fld h 46 44 = 0 → v.tt.link = 2 →
        (fld h 63 56 = s.tt.rxSeq → exec (.flitReceived b) s = .next (advance (ttFlush (nullFlit
          ((List.range 15).foldl (fun s k => rxChunk s (h.testBit k) (slice b (8 + 16 * k) 16))
            { v with tt := { v.tt with rxSeq := (s.tt.rxSeq + 1) % 256, nakked := false } }) false)))) ∧
        (fld h 63 56 ≠ s.tt.rxSeq → exec (.flitReceived b) s =
          .next (advance (ttFlush (if s.tt.nakked = true then v else nakSend v)))))) ∧
  (∀ (lane : Nat) (s : State), exec (.laneLockLoss lane) s = .next (if s.tt.link = 2 ∧ laneActive s lane = true
    then { s with tt := { s.tt with link := 3, phase := 1 } } else s)) ∧
  (∀ (ok : Bool) (lanes : List Nat) (s : State), s.tt.link = 1 ∨ s.tt.link = 3 → s.tt.phase = 0 →
      exec (.trainingPhaseDone ok lanes) s =
    .next (if ok = true then { s with tt := { s.tt with phase := 1 } } else linkDown s 4 2)) ∧
  (∀ (ok : Bool) (lanes : List Nat) (s : State) (p : Nat), s.tt.link = 1 ∨ s.tt.link = 3 → s.tt.phase = p → 1 ≤ p → p ≤ 3 →
    ∃ m g u, (∀ i < 8, SMap.get 0 m i = laneWord p (lanes.getD i 5)) ∧
      g = ((List.range 8).map fun i => if laneWord p (lanes.getD i 5) % 8 = 1 then 2 ^ i else 0).foldl (· + ·) 0 ∧
      u = { s with tt := { s.tt with lanes := m, laneOk := g } } ∧
      (p = 3 → (∃ i < 8, laneWord p (lanes.getD i 5) % 8 = 6) → exec (.trainingPhaseDone ok lanes) s = .next (linkDown u 4 8)) ∧
      ((p = 3 → ∀ i < 8, laneWord p (lanes.getD i 5) % 8 ≠ 6) →
        (ok = false ∨ halfOf g = 0 ∨ lanes.getD 8 3 % 4 = 0 → exec (.trainingPhaseDone ok lanes) s = .next (linkDown u 4 3)) ∧
        (ok = true → halfOf g ≠ 0 → lanes.getD 8 3 % 4 ≠ 0 → exec (.trainingPhaseDone ok lanes) s =
          .next (if p = 1 then { u with tt := { u.tt with phase := 2 } } else if p = 2 then testStart u
            else testPassed u (halfOf g) (lanes.getD 8 3 % 4) (lanes.getD 9 0 == 1))))) ∧
  (∀ (b : Bytes) (s : State), s.tt.link = 1 → s.tt.phase = 4 → s.pw.pstate = 4 →
    exec (.negotiationFrame b) s = .next { s with held := s.held ++ [.negotiationFrame b] }) ∧
  (∀ (b : Bytes) (s : State), s.tt.link ≠ 1 ∨ s.tt.phase ≠ 4 → exec (.negotiationFrame b) s = .next s) ∧
  (∀ (b : Bytes) (s : State), s.tt.link = 1 → s.tt.phase = 4 → s.pw.pstate ≠ 4 →
    ((leAt b 24 1).testBit 0 = false → exec (.negotiationFrame b) s =
      .next (drive { s with tt := { s.tt with proposal := some b, verdict := verdictOf s b } } (.train (ctrlFlit (negFrame s 1 (verdictOf s b)))))) ∧
    ((leAt b 24 1).testBit 0 = true → ∀ p, s.tt.proposal = some p →
      (s.tt.verdict = 0 → leAt b 25 1 = 0 → exec (.negotiationFrame b) s = .next (agree s p)) ∧
      (s.tt.verdict ≠ 0 ∨ leAt b 25 1 ≠ 0 → ∃ t, t.pr.st = 4 ∧ exec (.negotiationFrame b) s = .next t))) ∧
  (∀ s : State, exec .retrainTimeout s = .next (if s.tt.link = 3 then linkDown s 4 4 else s)) ∧
  (∀ s : State, exec .linkDownRetry s =
    .next (if s.tt.link = 4 ∧ csrBit s 0xA00 31 = true ∧ refused s.tt.downReason = false ∧ tetherRuns s = true
      then { s with tt := { s.tt with
        link := 1, phase := 0, width := 0, rxWidth := 0, lanes := [], laneOk := 0, reversed := false, downReason := 0
        proposal := none, verdict := 0 } }
      else s))

/-- Messages of the fellow, and the pair commands: SYNC_WR writes the mirror line and is acknowledged; SYNC_ACK lets the write
that waited for it be performed; LAG_REC is staged; LAG_END is accepted, and its generation applied unless it carries lines to
the next; LAG_ACCEPT marks the drain; LAG_APPLIED unlocks the lines logged up to its generation; DROP drops the mirror line;
REPAIR_RD is answered with the mirror line's bytes, or with none, a mirror line that fails its check being dropped; REPAIR_DATA
repairs the line or the held copy, or fails its last where the fellow holds none, and the last one of a rollback concludes it;
PLAN_DATA is written into the PINNED last over its address, or discarded; RESYNC_BEGIN drops what is held for the fellow;
RESYNC_DONE makes a pair that is SOLO PAIRED; a slice that resynchronises too ends that by its own steps (notes/assumptions 29).
Each returns its credit and lets queued messages go on. PAIR.RESYNC of a SOLO pair with its link UP begins the
resynchronisation, and PAIR.TAKEOVER ends ST_OK with the pair TAKEN_OVER. None is received while the link is not UP or the slice
is fenced. (R341, R345, R346, R348, R349, R350, R353, R356, R357, R372, R373, R384) -/
def Obligations.TetherMessages : Prop :=
  (∀ (t : TMsg) (s : State) (u : State), Delivers s →
      mirrorWrite s t.set (t.addr / 512) (BitVec.ofNat 8 t.mask) t.data false = (u, true) →
      exec (.syncWr t) s = handled s t (ttSend u { kind := 0x02, tag := t.tag }) 0x01) ∧
  (∀ (t : TMsg) (s : State) (u : State), Delivers s →
      mirrorWrite s t.set (t.addr / 512) (BitVec.ofNat 8 t.mask) t.data false = (u, false) →
      exec (.syncWr t) s = handled s t (u) 0x01) ∧
  (∀ (t : TMsg) (s : State) (o : Op), Delivers s → (s.pr.sync.find? fun e => e.1 == t.tag) = some (t.tag, o) →
      exec (.syncAck t) s = handled s t (serveFirst { stage s o.n 11 with pr := { s.pr with sync := s.pr.sync.filter fun e => e.1 != t.tag } } { o with synced := true }) 0x02) ∧
  (∀ (t : TMsg) (s : State), Delivers s → (∀ e ∈ s.pr.sync, e.1 ≠ t.tag) →
      exec (.syncAck t) s = handled s t (resyncCheck { s with pr := { s.pr with resyncOut := s.pr.resyncOut.filter (· != t.tag) } }) 0x02) ∧
  (∀ (t : TMsg) (s : State), Delivers s →
      exec (.lagRec t) s = handled s t (stagePut s t.ctx (leAt t.data 24 4) t.set t.data) 0x03) ∧
  (∀ (t : TMsg) (s : State) (gen : Nat), Delivers s → gen = leAt t.data 24 4 →
      ∀ carried u v, carried = (leAt t.data 8 8).testBit 63 → u = stagePut s t.ctx gen t.set t.data →
      v = ttSend { u with pr := { u.pr with ends := u.pr.ends ++ [(t.ctx, gen, carried)] } } { kind := 0x05, ctx := t.ctx, addr := gen } → exec (.lagEnd t) s = handled s t (if carried = true then v else stageComplete v t.ctx gen) 0x04) ∧
  (∀ (t : TMsg) (s : State) (d : Drain), Delivers s → drainOf s t.ctx (BitVec.ofNat 32 t.addr) = some d →
      exec (.lagAccept t) s = handled s t (resyncCheck { drainSet s { d with lagOk := true } with
      pr := { s.pr with resyncCtx := s.pr.resyncCtx.filter (· != t.ctx) } }) 0x05) ∧
  (∀ (t : TMsg) (s : State), Delivers s → drainOf s t.ctx (BitVec.ofNat 32 t.addr) = none →
      exec (.lagAccept t) s = handled s t (s) 0x05) ∧
  (∀ (t : TMsg) (s : State), Delivers s → exec (.lagApplied t) s = handled s t (clearLags { s with pr := { s.pr with
      ownApplied := SMap.put 0 s.pr.ownApplied t.ctx (t.addr % 2 ^ 32 + 1) } } t.ctx (t.addr % 2 ^ 32)) 0x06) ∧
  (∀ (t : TMsg) (s : State) (k : Nat), Delivers s → mirrorFind s t.set (t.addr / 512) = some k →
      exec (.dropMirror t) s = handled s t ({ s with pr := { s.pr with mirrors := SMap.put {} s.pr.mirrors k {} } }) 0x07) ∧
  (∀ (t : TMsg) (s : State), Delivers s → mirrorFind s t.set (t.addr / 512) = none →
      exec (.dropMirror t) s = handled s t (s) 0x07) ∧
  (∀ (t : TMsg) (s : State) (k : Nat), Delivers s → mirrorFind s t.set (t.addr / 512) = some k → mirrorGood (mirrorAt s k) = true →
      exec (.repairRd t) s = handled s t (ttSend s { kind := 0x09, tag := t.tag, mask := 0xFF, set := t.set, addr := t.addr, data := lineBytes (mirrorAt s k).data 0 512 }) 0x08) ∧
  (∀ (t : TMsg) (s : State) (k : Nat), Delivers s → mirrorFind s t.set (t.addr / 512) = some k →
      mirrorGood (mirrorAt s k) = false →
      exec (.repairRd t) s = handled s t (ttSend (mirrorDrop s k (mirrorAt s k) 10) { kind := 0x09, tag := t.tag, set := t.set, addr := t.addr }) 0x08) ∧
  (∀ (t : TMsg) (s : State), Delivers s → mirrorFind s t.set (t.addr / 512) = none →
      exec (.repairRd t) s = handled s t (ttSend s { kind := 0x09, tag := t.tag, set := t.set, addr := t.addr }) 0x08) ∧
  (∀ (t : TMsg) (s : State), Delivers s → (∀ r ∈ s.pr.repairs, r.tag ≠ t.tag) → exec (.repairData t) s = handled s t (s) 0x09) ∧
  (∀ (t : TMsg) (s : State) (r : Repair), Delivers s → (s.pr.repairs.find? fun r => r.tag == t.tag) = some r → r.copy = none →
      r.rollback = false → ∀ u, u = { s with pr := { s.pr with repairs := s.pr.repairs.filter fun x => x.tag != r.tag } } →
      exec (.repairData t) s = handled s t (if t.mask ≠ 0 then postError (restoreLine u r.slot (lineOf t.data)) St.lineRepaired r.err else lastFail u r.last r.err) 0x09) ∧
  (∀ (t : TMsg) (s : State) (r : Repair) (line : Nat), Delivers s → (s.pr.repairs.find? fun r => r.tag == t.tag) = some r →
      r.copy = some line → ∀ u, u = { s with pr := { s.pr with repairs := s.pr.repairs.filter fun x => x.tag != r.tag } } →
      exec (.repairData t) s = handled s t (if t.mask ≠ 0 then postError (restoreCopy u line (lineOf t.data)) St.lineRepaired r.err else lastFail u r.last r.err) 0x09) ∧
  (∀ (t : TMsg) (s : State) (r : Repair), Delivers s → (s.pr.repairs.find? fun r => r.tag == t.tag) = some r → r.copy = none →
      r.rollback = true → ∀ u v w l, u = { s with pr := { s.pr with repairs := s.pr.repairs.filter fun x => x.tag != r.tag } } →
      l = lineAt u r.slot → v = (if t.mask ≠ 0 then restoreLine u r.slot (lineOf t.data)
      else if aKind (lastAt u r.last).attr = 2 then storeLine (openDel u l.addr) r.slot
        { l with st := .fallow, data := 0, badPar := 0, crcBad := false, crc := lineCrc 0 } (BitVec.allOnes 512) false
      else lineDrop (openDel u l.addr) r.slot) → w = (if (lineAt v r.slot).st = .invalid then v
      else storeLine v r.slot { lineAt v r.slot with
        locked := false, dirtyMask := 0, st := if t.mask ≠ 0 then .dirty else (lineAt v r.slot).st } 0 false) →
            exec (.repairData t) s = handled s t (if (w.pr.repairs.any fun x => x.rollback && x.last == r.last) = true then w else rollbackDone w r) 0x09) ∧
  (∀ (t : TMsg) (s : State), Delivers s → (lastAt s (lastOf s t.addr)).cond = 1 → aKind (lastAt s (lastOf s t.addr)).attr = 2 →
      exec (.planData t) s = handled s t (serve { s with arr := { s.arr with n := s.arr.n + 1 } } { n := s.arr.n, kind := .wr, plan := true, m := {
      addr := t.addr / 512 * 512, qos := t.qos, mask := (spanMask (t.addr % 512 / 256 * 256) 256).toNat
      data := List.replicate (t.addr % 512 / 256 * 256) 0 ++ slice t.data 0 256 } }) 0x0A) ∧
  (∀ (t : TMsg) (s : State), Delivers s → ((lastAt s (lastOf s t.addr)).cond ≠ 1 ∨ aKind (lastAt s (lastOf s t.addr)).attr ≠ 2) →
      exec (.planData t) s = handled s t (ev s Ev.tthOutDiscard) 0x0A) ∧
  (∀ (t : TMsg) (s : State), Delivers s →
      exec (.resyncBegin t) s = handled s t (stageFree { s with pr := { s.pr with mirrors := [], stage := [], ends := [] } }) 0x0B) ∧
  (∀ (t : TMsg) (s : State), Delivers s → s.pr.st = 2 →
      exec (.resyncDone t) s = handled s t ({ s with pr := { s.pr with st := 1 } }) 0x0C) ∧
  (∀ (t : TMsg) (s : State), Delivers s → s.pr.st ≠ 2 → exec (.resyncDone t) s = handled s t (s) 0x0C) ∧
  (∀ (ring idx : Nat) (c : Cmd) (s : State), Starts s ring idx 0x080 c → s.tt.link = 2 → s.pr.st = 2 →
      exec (.pairResync ring idx) s =
    .next (advance (resyncStart { begun s c with pr := { s.pr with resyncCmds := s.pr.resyncCmds ++ [c.n] } }))) ∧
  (∀ (ring idx : Nat) (defs : List (Nat × Last)) (c : Cmd) (s : State), Starts s ring idx 0x081 c → s.pr.st = 2 →
    leAt c.desc 16 4 % 2 ^ 18 = s.pr.fellowId → ∃ t w, exec (.pairTakeover ring idx defs) s = .next (advance t) ∧ EndsOk t c w ∧
      w ≤ defs.length ∧ t.pr.st = 5 ∧ t.pr.stage = [] ∧ t.pr.ends = [] ∧ t.tt.link = s.tt.link) ∧
  (∀ (t : TMsg) (s : State) (i : Instr), i ∈ [.syncWr t, .syncAck t, .lagRec t, .lagEnd t, .lagAccept t, .lagApplied t, .dropMirror t,
      .repairRd t, .repairData t, .planData t, .resyncBegin t, .resyncDone t] →
    (s.tt.link ≠ 2 ∨ s.hd.fenced = true → exec i s = .next s) ∧
    (s.tt.link = 2 → s.hd.fenced = false → s.pw.pstate = 4 → exec i s = .next { s with held := s.held ++ [i] }))

/-- Accesses where no register lies: A write of an offset that no register covers, by a frame of the headland ring or by HST,
that passes the checks made before is answered with ST_OK, and all it changes is the access log, where it is latched with cause
4 unless an earlier access still stands there; a read there gives zero with ST_OK and changes nothing. (R587) -/
def Obligations.UnassignedOffsets : Prop :=
  (∀ (a : Csr) (s : State), FrameAccess s a → regFind (a.m.addr % 2 ^ 16) (a.m.size + 1) = none → accCheck s a true = (0, 0) →
    exec (.csrWr a) s = .next (advance (csrFrameAnswer (csrLatch s 4 true (a.m.addr % 2 ^ 16) true a.m.src) a true St.ok 0))) ∧
  (∀ (a : Csr) (s : State) (q : Msg) (u : State), HstAccess s a → q = { a.m with port := .hst } → u = arrives s q 4 q.data.length →
    regFind (q.addr % 2 ^ 16) (q.size + 1) = none → accCheck u { a with m := q } true = (0, 0) →
    exec (.csrWr a) s = .next (advance (csrAnswer (csrLatch u 4 false (q.addr % 2 ^ 16) true q.src) q true St.ok 0))) ∧
  (∀ (s t : State) (hdr : Bool) (off src : Nat), t = csrLatch s 4 hdr off true src → { t with sec := s.sec } = s ∧
    t.sec.logValid = true ∧ (s.sec.logValid = false → t.sec.logCause = 4 ∧ t.sec.logOff = off % 2 ^ 16 ∧ t.sec.logWrite = true)) ∧
  (∀ (a : Csr) (s : State), regFind (a.m.addr % 2 ^ 16) (a.m.size + 1) = none → accCheck s a false = (0, 0) →
    csrAccess s a false = { s := s, status := St.ok, value := 0 })
end

