-- ==== Sys2Proof/Laws/Sent.lean ====
section
/-! SUPPORT. What sending a message, posting an event record and posting an error record change, and that they change nothing else. -/

namespace Sys2Proof.Machine

open Sys2Proof

set_option Elab.async false

/-- `t` is `s` but for what has been driven or waits to be, the credits, the metering and event counters, the registers the slice sets, the
tag of the next request, and the writes, vectors and event rings of records. -/
def Sent (s t : State) : Prop :=
  ∃ out credits txq qs csr tag hst irqs evs, t = { s with
    out := out, credits := credits, txq := txq, qs := qs, csr := csr, coh := { s.coh with tag := tag }
    rg := { s.rg with hstWrs := hst, irqs := irqs, evs := evs } }

theorem Sent.refl (s : State) : Sent s s := ⟨_, _, _, _, _, _, _, _, _, rfl⟩

theorem Sent.trans {s t u : State} (h : Sent s t) (k : Sent t u) : Sent s u := by
  obtain ⟨_, _, _, _, _, _, _, _, _, rfl⟩ := h
  obtain ⟨a, b, c, d, e, f, g, i, j, rfl⟩ := k
  exact ⟨a, b, c, d, e, f, g, i, j, rfl⟩

theorem Sent.evs {s t : State} (h : Sent s t) (x : SMap EvRing) : Sent s { t with rg := { t.rg with evs := x } } :=
  h.trans ⟨_, _, _, _, _, _, _, _, _, rfl⟩

theorem drive_sent (s : State) (o : Out) : Sent s (drive s o) := by
  unfold drive
  cases o <;> exact ⟨_, _, _, _, _, _, _, _, _, rfl⟩

theorem sendCh_sent (s : State) (c : Nat) (o : Out) : Sent s (sendCh s c o) := by
  unfold sendCh
  dsimp only
  split
  · exact ⟨_, _, _, _, _, _, _, _, _, rfl⟩
  · exact Sent.trans ⟨_, _, _, _, _, _, _, _, _, rfl⟩ (drive_sent _ _)

theorem sendMsg_sent (s : State) (p : Port) (m : OMsg) : Sent s (sendMsg s p m) := sendCh_sent _ _ _

theorem hstRequest_sent (s : State) (a b c d e : Nat) (f : Bytes) : Sent s (hstRequest s a b c d e f).2 :=
  Sent.trans (t := { s with coh := { s.coh with tag := (s.coh.tag + 1) % 256 } }) ⟨_, _, _, _, _, _, _, _, _, rfl⟩ (sendMsg_sent _ _ _)

theorem hstWrite_sent (s : State) (a : Nat) (d : Bytes) (c : Nat) : Sent s (hstWrite s a d c) :=
  (hstRequest_sent s 2 a (d.length - 1) 0 0 d).trans ⟨_, _, _, _, _, _, _, _, _, rfl⟩

theorem evN_sent (s : State) (n k : Nat) : Sent s (evN s n k) := by
  unfold evN
  dsimp only
  repeat' split
  all_goals exact ⟨_, _, _, _, _, _, _, _, _, rfl⟩

theorem ev_sent (s : State) (n : Nat) : Sent s (ev s n) := evN_sent s n 1

theorem irqFire_sent (s : State) (v : Nat) : Sent s (irqFire s v) :=
  Sent.trans (t := { s with rg := { s.rg with irqs := SMap.put {} s.rg.irqs v { pending := false, fired := some s.now } } })
    ⟨_, _, _, _, _, _, _, _, _, rfl⟩ (hstWrite_sent _ _ _ _)

theorem irqRaise_sent (s : State) (v : Nat) : Sent s (irqRaise s v) := by
  unfold irqRaise
  split
  · exact ⟨_, _, _, _, _, _, _, _, _, rfl⟩
  · exact irqFire_sent s v

theorem evPost_sent (s : State) (n k st r c w1 w2 w3 : Nat) : Sent s (evPost s n k st r c w1 w2 w3) := by
  unfold evPost
  dsimp only
  split
  · split
    · exact ((((hstWrite_sent s _ _ _).trans (ev_sent _ _)).evs _).trans (irqRaise_sent _ _))
    · exact ((hstWrite_sent s _ _ _).trans (ev_sent _ _)).evs _
  · exact Sent.trans ⟨_, _, _, _, _, _, _, _, _, rfl⟩ (ev_sent _ _)

/-- An event record changes nothing but what `Sent` names (R407, R408). -/
theorem postEvent_sent (s : State) (cat status ring w1 w2 : Nat) : Sent s (postEvent s cat status ring w1 w2) := evPost_sent _ _ _ _ _ _ _ _ _

/-- `t` is `s` but for what `Sent` names, the frames kept and the ledger with what it starts. -/
def Told (s t : State) : Prop :=
  ∃ out credits txq qs csr tag hst irqs evs hd hl, t = { s with
    out := out, credits := credits, txq := txq, qs := qs, csr := csr, coh := { s.coh with tag := tag }
    rg := { s.rg with hstWrs := hst, irqs := irqs, evs := evs }, hd := hd, hl := hl } ∧
    hd.fenced = s.hd.fenced ∧ hd.reason = s.hd.reason ∧ hd.mode = s.hd.mode ∧ hd.walkDone = s.hd.walkDone ∧ hl.rState = s.hl.rState

theorem Told.trans {s t u : State} (h : Told s t) (k : Told t u) : Told s u := by
  obtain ⟨_, _, _, _, _, _, _, _, _, _, _, rfl, h1, h2, h3, h4, h5⟩ := h
  obtain ⟨a, b, c, d, e, f, g, i, j, l, m, rfl, k1, k2, k3, k4, k5⟩ := k
  exact ⟨a, b, c, d, e, f, g, i, j, l, m, rfl, k1.trans h1, k2.trans h2, k3.trans h3, k4.trans h4, k5.trans h5⟩

theorem Sent.told {s t : State} (h : Sent s t) : Told s t := by
  obtain ⟨a, b, c, d, e, f, g, i, j, rfl⟩ := h
  exact ⟨a, b, c, d, e, f, g, i, j, _, _, rfl, rfl, rfl, rfl, rfl, rfl⟩

theorem told_hl {s : State} (h : Health) (hr : h.rState = s.hl.rState) : Told s { s with hl := h } :=
  ⟨_, _, _, _, _, _, _, _, _, _, _, rfl, rfl, rfl, rfl, rfl, hr⟩

theorem Told.ite {s a b : State} {c : Prop} [Decidable c] (h : Told s a) (k : Told s b) : Told s (if c then a else b) := by
  split
  · exact h
  · exact k

/-- `t` is `s` but for the rings of the ledger, the entries that wait for them and the repair map. -/
def Entered (s t : State) : Prop :=
  ∃ ar an aa hr hn ha w g m mw mt, t = { s with hl := { s.hl with
    ageRing := ar, ageN := an, ageAt := aa, histRing := hr, histN := hn, histAt := ha, ledWait := w, mapGen := g, maps := m
    mapWait := mw, mapAt := mt } }

theorem Entered.refl (s : State) : Entered s s := ⟨_, _, _, _, _, _, _, _, _, _, _, rfl⟩

theorem Entered.trans {s t u : State} (h : Entered s t) (k : Entered t u) : Entered s u := by
  obtain ⟨_, _, _, _, _, _, _, _, _, _, _, rfl⟩ := h
  obtain ⟨a, b, c, d, e, f, g, i, j, l, m, rfl⟩ := k
  exact ⟨a, b, c, d, e, f, g, i, j, l, m, rfl⟩

theorem Entered.ite {s a b : State} {c : Prop} [Decidable c] (h : Entered s a) (k : Entered s b) : Entered s (if c then a else b) := by
  split
  · exact h
  · exact k

theorem Entered.told {s t : State} (h : Entered s t) : Told s t := by
  obtain ⟨_, _, _, _, _, _, _, _, _, _, _, rfl⟩ := h
  exact told_hl _ rfl

theorem ledWrite_entered (s : State) (e : LedEnt) : Entered s (ledWrite s e) := by
  unfold ledWrite
  exact .ite ⟨_, _, _, _, _, _, _, _, _, _, _, rfl⟩ ⟨_, _, _, _, _, _, _, _, _, _, _, rfl⟩

theorem mapPump_entered (s : State) : Entered s (mapPump s) := by
  unfold mapPump
  exact .ite ⟨_, _, _, _, _, _, _, _, _, _, _, rfl⟩ (.refl s)

theorem ledPump_entered (s : State) : Entered s (ledPump s) := by
  unfold ledPump
  refine (mapPump_entered s).trans ?_
  dsimp only
  split
  · exact Entered.trans ⟨_, _, _, _, _, _, _, _, _, _, _, rfl⟩ (ledWrite_entered _ _)
  · exact .refl _

/-- An entry in the ledger changes nothing but what `Entered` names (R481, R482). -/
theorem ledAdd_entered (s : State) (kind subject history : Nat) : Entered s (ledAdd s kind subject history) := by
  unfold ledAdd
  refine (ledPump_entered s).trans ?_
  dsimp only
  refine .ite ⟨_, _, _, _, _, _, _, _, _, _, _, rfl⟩ ?_
  split
  · by_cases h : ledAgeing kind = true <;> simp only [h] <;> exact ⟨_, _, _, _, _, _, _, _, _, _, _, rfl⟩
  · exact .ite (ledWrite_entered _ _) ⟨_, _, _, _, _, _, _, _, _, _, _, rfl⟩

theorem ledAdd_told (s : State) (kind subject history : Nat) : Told s (ledAdd s kind subject history) :=
  (ledAdd_entered s kind subject history).told

theorem rowFailed_told (s : State) (loc : Nat) : Told s (rowFailed s loc) := by
  unfold rowFailed
  dsimp only
  split
  · exact (Sent.refl s).told
  · split <;> exact told_hl _ rfl

theorem permanent_told (s : State) (loc : Nat) : Told s (permanent s loc) := by
  unfold permanent
  refine .ite (rowFailed_told _ _) (.ite ?_ (Sent.refl s).told)
  exact .ite (Sent.refl s).told (told_hl _ rfl)

theorem classify_told (s : State) (e : Err) : Told s (classify s e).1 := by
  unfold classify
  dsimp only
  split
  · exact (Sent.refl s).told
  · have h := (told_hl { s.hl with faults := s.hl.faults ++ [(e.loc, tsNs s)] } rfl).trans
      (ledAdd_told { s with hl := { s.hl with faults := s.hl.faults ++ [(e.loc, tsNs s)] } } 1 (faultSubject e)
        (faultHistory s e.loc e.stuck))
    split
    · exact h.trans (permanent_told _ _)
    · exact h

theorem hdrKeep_told (s : State) (type : Nat) (payload : List Nat) : Told s (hdrKeep s type payload) := by
  unfold hdrKeep
  dsimp only
  split
  · exact Told.trans ⟨_, _, _, _, _, _, _, _, _, _, _, rfl, rfl, rfl, rfl, rfl, rfl⟩ (drive_sent _ _).told
  · exact ⟨_, _, _, _, _, _, _, _, _, _, _, rfl, rfl, rfl, rfl, rfl, rfl⟩

/-- An error record changes nothing but what `Told` names (R408, R466, R483). -/
theorem postError_told (s : State) (status : Nat) (e : Err) : Told s (postError s status e) := by
  unfold postError
  dsimp only
  refine (classify_told s e).trans ?_
  refine Told.trans ?_ (evPost_sent _ _ _ _ _ _ _ _ _).told
  split
  · exact Told.trans ⟨_, _, _, _, _, _, _, _, _, _, _, rfl, rfl, rfl, rfl, rfl, rfl⟩ (hdrKeep_told _ _ _)
  · exact Told.trans ⟨_, _, _, _, _, _, _, _, _, _, _, rfl, rfl, rfl, rfl, rfl, rfl⟩ (ev_sent _ _).told

end Sys2Proof.Machine
end

