-- ==== Sys2Proof/Laws/Settled.lean ====
section
/-! SUPPORT. A settled slice does not go on by itself: what a command leaves settled is the next state as it stands. -/

namespace Sys2Proof.Machine

open Sys2Proof

set_option Elab.async false

theorem evictRetry_settled {l : List Evict} {s : State} (h : (l.all fun e => !e.waitLog && e.bad == 0) = true) : l.foldl evictRetry s = s := by
  induction l generalizing s with
  | nil => rfl
  | cons e l ih =>
    simp only [List.all_cons, Bool.and_eq_true, Bool.not_eq_true', beq_iff_eq] at h
    have : evictRetry s e = s := by simp [evictRetry, h.1.1, h.1.2]
    simp [this, ih h.2]

theorem cmdGet_of_mem_rests {s : State} (h : s.rg.cmds.all Cmd.rests = true) (n : Nat) : cmdStep s n = s := by
  unfold cmdStep
  split
  · rfl
  · rename_i c hc
    have hm := List.mem_of_find?_eq_some hc
    have := List.all_eq_true.mp h c hm
    simp only [Cmd.rests, Bool.and_eq_true] at this
    rw [if_pos this.1]

theorem cmdStep_settled {s : State} (h : s.rg.cmds.all Cmd.rests = true) (l : List Nat) : l.foldl cmdStep s = s := by
  induction l with
  | nil => rfl
  | cons n l ih => rw [List.foldl_cons, cmdGet_of_mem_rests h, ih]

theorem memSidePump_settled {s : State} (h : Settled s) : memSidePump s = s := by
  have hf : (s.arr.mhes.filter fun m => m.kind == .memSide && m.got == 15 && !m.reads.isEmpty) = [] := by
    rw [List.filter_eq_nil_iff]
    intro m hm
    have := List.any_eq_false.mp h.sums m hm
    simpa using this
  unfold memSidePump
  rw [hf, List.foldl_nil]

theorem failPump_settled {s : State} (h : Settled s) : failPump s = s := by
  have e : { s.coh with failing := [] } = s.coh := by rw [← h.failing]
  simp [failPump, h.failing, snoopBlocks, e]

theorem pump_settled {s : State} (h : Settled s) : pump s = s := by
  have hp : ∀ k, issueAll k s = s := by
    intro k; cases k <;> simp [issueAll, h.presented]
  simp [pump, evictRetry_settled h.evicts, memSidePump_settled h, failPump_settled h, flipPump, fencePump, h.waiting, h.flips, h.fences, retryAll,
    hp]

theorem stageOutPump_settled {s : State} (h : Settled s) : stageOutPump s = s := by simp [stageOutPump, h.stageOuts]

theorem cmdSweep_settled {s : State} (h : Settled s) : cmdSweep s = s := by
  have hf : s.rg.cmds.filter silent = [] := by
    rw [List.filter_eq_nil_iff]
    intro c hc
    have := List.all_eq_true.mp h.cmds c hc
    simp only [Cmd.rests, Bool.and_eq_true, Bool.not_eq_true'] at this
    simpa [silent] using this.2
  have hw := h.waiting
  have hp := h.presented
  unfold cmdSweep
  simp only [hf, List.foldl_nil]
  rw [hw, hp]
  obtain ⟨_, _, _, _, _, _, _, _, _, _, arr, _, _, _, _, _, _, _, _, _, _, _⟩ := s
  cases arr
  simp_all

theorem drainPump_settled {s : State} (h : Settled s) : drainPump s = s := by
  simp [drainPump, h.bufs, h.drains, bufPump]

theorem rollPump_settled {s : State} (h : Settled s) : rollPump s = s := by simp [rollPump, h.rollLogs]

theorem retirePump_settled {s : State} (h : Settled s) : retirePump s = s := by
  unfold retirePump retireLoop
  simp [h.retire]

/-- A settled slice stays as it is, but for an entry into safe retention that is over (R557). -/
theorem advance_settled {s : State} (h : Settled s) : advance s = s ∨ advance s = entryEnd s := by
  unfold advance
  simp only [pump_settled h, drainPump_settled h, rollPump_settled h, stageOutPump_settled h, cmdStep_settled h.cmds, cmdSweep_settled h, retirePump_settled h]
  split
  · exact .inl rfl
  · split
    · exact .inr rfl
    · exact .inl (ite_self _)

/-- With FLOW_STOP_N high a settled slice stays as it is. -/
theorem advance_settled_high {s : State} (h : Settled s) (hf : s.pw.flowStop = false) : advance s = s := by
  rcases advance_settled h with e | e
  · exact e
  · rw [e]; simp [entryEnd, hf]

/-- With FLOW_STOP_N effective a settled slice that served or quiesced is in safe retention once the plan is IDLE (R557). -/
theorem advance_settled_low {s : State} (h : Settled s) (hf : s.pw.flowStop = true) (hp : s.pw.pstate = 2 ∨ s.pw.pstate = 5)
    (hl : s.pl.st = 0) :
    advance s = { s with pw := { s.pw with pstate := 3, quiesced := s.pw.pstate == 5, ready := false } } := by
  have hs : serving s = false := by simp [serving, hf]
  unfold advance
  simp only [hs, pump_settled h, cmdSweep_settled h, Bool.false_eq_true, if_false]
  rw [if_pos (by rcases hp with e | e <;> simp [e, Ps.serving, Ps.quiesce])]
  unfold entryEnd
  rw [if_pos (by rcases hp with e | e <;> simp [hf, e, h.waiting, hl, Ps.serving, Ps.quiesce])]

end Sys2Proof.Machine
end

