-- ==== Sys2Proof/Laws/Frames.lean ====
section
/-! SUPPORT. What becomes of a frame at the ring stop, and what a request for retirement changes. -/

namespace Sys2Proof.Machine

open Sys2Proof

set_option Elab.async false

/-- A frame driven is added to what has been driven, and nothing else. -/
@[simp] theorem drive_hdr (s : State) (f : Frame) : drive s (.hdr f) = { s with out := s.out ++ [.hdr f] } := rfl

/-- A frame the stop takes, of a type the slice accepts, is acted on in the state it leaves. -/
theorem hdrGate_taken {s : State} {f : Frame} (h : TakesFrame s f) (ht : frameTaken f.type = true) (g : State → State) :
    hdrGate s f g = g (frameOn s f) := by
  obtain ⟨hd, h⟩ := h
  unfold hdrGate frameOn
  rcases h with ⟨h1, h2⟩ | ⟨h1, h2⟩ <;> by_cases hs : f.dst = stopAddr s <;> simp_all

/-- A frame addressed elsewhere goes on from an ACTIVE stop. -/
theorem hdrGate_active {s : State} {f : Frame} (h : s.hd.mode = 0) (hb : f.bad = false) (h1 : f.dst ≠ stopAddr s) (h2 : f.dst ≠ 0xFFFF)
    (g : State → State) : hdrGate s f g = drive s (.hdr f) := by
  simp [hdrGate, h, hb, h1, h2]

/-- A frame the stop of a slice that neither acts nor is fenced with it meets goes on. -/
theorem hdrGate_passive {s : State} {f : Frame} (h : s.hd.mode ≠ 0)
    (h1 : s.hd.mode ≠ 1 ∨ s.hd.fenced = false ∨ (f.dst ≠ stopAddr s ∧ f.dst ≠ 0xFFFF)) (g : State → State) :
    hdrGate s f g = drive s (.hdr f) := by
  rcases h1 with h1 | h1 | ⟨h1, h2⟩ <;> simp [hdrGate, *]

/-- An ACTIVE stop discards a frame whose parity fails. -/
theorem hdrGate_bad {s : State} {f : Frame} (h : s.hd.mode = 0) (hb : f.bad = true) (g : State → State) :
    hdrGate s f g = postError s St.portParity { unit := 11, action := 8, detector := 6, detail := at_ 5 28 } := by
  simp [hdrGate, h, hb]

/-- A frame taken of a type the slice does not accept only counts. -/
theorem hdrGate_untaken {s : State} {f : Frame} (h : TakesFrame s f) (ht : frameTaken f.type = false) (g : State → State) :
    hdrGate s f g = ev (frameOn s f) Ev.hdrBad := by
  obtain ⟨hd, h⟩ := h
  unfold hdrGate frameOn
  rcases h with ⟨h1, h2⟩ | ⟨h1, h2⟩ <;> by_cases hs : f.dst = stopAddr s <;> simp_all

/-- A frame taken changes nothing before it acts but what has been driven. -/
theorem frameOn_eq (s : State) (f : Frame) : ∃ o, frameOn s f = { s with out := s.out ++ o } := by
  unfold frameOn
  split
  · exact ⟨[], by simp⟩
  · exact ⟨[.hdr f], rfl⟩

/-- A frame kept changes what has been driven and the frames, and is among those kept (R466, R469). -/
theorem hdrKeep_eq (s : State) (type : Nat) (payload : List Nat) : ∃ o q m, hdrKeep s type payload = { s with
    out := o, hd := { s.hd with seq := q, unacked := m } } ∧ (∃ e ∈ m, e.1.type = type) ∧ ∀ e ∈ s.hd.unacked, e ∈ m := by
  unfold hdrKeep
  dsimp only
  split
  · exact ⟨_, _, _, rfl, ⟨_, List.mem_append_right _ (List.mem_singleton.mpr rfl), rfl⟩, fun e h => List.mem_append_left _ h⟩
  · exact ⟨_, _, _, rfl, ⟨_, List.mem_append_right _ (List.mem_singleton.mpr rfl), rfl⟩, fun e h => List.mem_append_left _ h⟩

/-- A request for retirement where none stands (R503). -/
theorem raiseRetire_new {s : State} (h : s.hl.rState = 0) (reason subject : Nat) :
    ∃ t, Entered s t ∧ raiseRetire s reason subject = postEvent { t with hl := { t.hl with
      rState := 1, rReason := reason, retires := s.hl.retires + 1 } } 5 St.retireRequest 0 reason 0 := by
  obtain ⟨a, b, c, d, e, f, g, i, j, k, l, h1⟩ := ledAdd_entered s 8 subject 0
  refine ⟨_, ⟨a, b, c, d, e, f, g, i, j, k, l, rfl⟩, ?_⟩
  unfold raiseRetire
  simp [h1, h]

end Sys2Proof.Machine
end

