-- ==== Sys2Proof/Laws/SMap.lean ====
section
/-! SUPPORT. Sparse tables: reading after writing, and that every table operation keeps the canonical form. -/

namespace Sys2Proof.Machine

set_option Elab.async false

variable {α : Type}

theorem SMap.above_mono {k j : Nat} (h : k ≤ j) {m : SMap α} (hm : SMap.above j m = true) : SMap.above k m = true := by
  cases m with
  | nil => rfl
  | cons e r =>
    simp only [SMap.above, Bool.and_eq_true, decide_eq_true_eq] at hm ⊢
    exact ⟨by omega, hm.2⟩

theorem SMap.above_del {k j : Nat} {m : SMap α} (hm : SMap.above k m = true) : SMap.above k (SMap.del m j) = true := by
  induction m generalizing k with
  | nil => rfl
  | cons e r ih =>
    obtain ⟨a, v⟩ := e
    simp only [SMap.above, Bool.and_eq_true, decide_eq_true_eq] at hm
    simp only [SMap.del]
    split
    · exact SMap.above_mono (by omega) (ih hm.2)
    · simp [SMap.above, hm.1, ih hm.2]

theorem SMap.above_ins {k j : Nat} {x : α} {m : SMap α} (hk : k < j) (hm : SMap.above k m = true) :
    SMap.above k (SMap.ins m j x) = true := by
  induction m generalizing k with
  | nil => simp [SMap.ins, SMap.above, hk]
  | cons e r ih =>
    obtain ⟨a, v⟩ := e
    simp only [SMap.above, Bool.and_eq_true, decide_eq_true_eq] at hm
    simp only [SMap.ins]
    split
    · subst_vars; simp [SMap.above, hm.1, hm.2]
    · split
      · simp [SMap.above, *]
      · simp only [SMap.above, Bool.and_eq_true, decide_eq_true_eq]
        exact ⟨hm.1, ih (by omega) hm.2⟩

section
variable [DecidableEq α] {d : α}

theorem SMap.wf_cons {k : Nat} {v : α} {r : SMap α} :
    SMap.wf d ((k, v) :: r) = true ↔ SMap.above k r = true ∧ v ≠ d ∧ SMap.wf d r = true := by
  simp [SMap.wf, and_assoc]

theorem SMap.wf_del {m : SMap α} (k : Nat) (h : SMap.wf d m = true) : SMap.wf d (SMap.del m k) = true := by
  induction m with
  | nil => exact h
  | cons e r ih =>
    obtain ⟨a, v⟩ := e
    obtain ⟨h1, h2, h3⟩ := SMap.wf_cons.1 h
    simp only [SMap.del]
    split
    · exact ih h3
    · exact SMap.wf_cons.2 ⟨SMap.above_del h1, h2, ih h3⟩

theorem SMap.wf_ins {m : SMap α} (k : Nat) {x : α} (hx : x ≠ d) (h : SMap.wf d m = true) :
    SMap.wf d (SMap.ins m k x) = true := by
  induction m with
  | nil => simp [SMap.ins, SMap.wf, SMap.above, hx]
  | cons e r ih =>
    obtain ⟨a, v⟩ := e
    obtain ⟨h1, h2, h3⟩ := SMap.wf_cons.1 h
    simp only [SMap.ins]
    split
    · subst_vars; exact SMap.wf_cons.2 ⟨h1, hx, h3⟩
    · split
      · refine SMap.wf_cons.2 ⟨?_, hx, h⟩
        simp only [SMap.above, Bool.and_eq_true, decide_eq_true_eq]
        exact ⟨by omega, SMap.above_mono (by omega) h1⟩
      · exact SMap.wf_cons.2 ⟨SMap.above_ins (by omega) h1, h2, ih h3⟩

/-- A write keeps the canonical form. -/
theorem SMap.wf_put {m : SMap α} (k : Nat) (x : α) (h : SMap.wf d m = true) : SMap.wf d (SMap.put d m k x) = true := by
  unfold SMap.put
  split
  · exact SMap.wf_del k h
  · exact SMap.wf_ins k ‹_› h

theorem SMap.above_mapVals {k : Nat} (f : Nat → α → α) {m : SMap α} (h : SMap.above k m = true) (hw : SMap.wf d m = true) :
    SMap.above k (SMap.mapVals d f m) = true := by
  induction m generalizing k with
  | nil => rfl
  | cons e r ih =>
    obtain ⟨a, v⟩ := e
    obtain ⟨h1, h2, h3⟩ := SMap.wf_cons.1 hw
    simp only [SMap.above, Bool.and_eq_true, decide_eq_true_eq] at h
    simp only [SMap.mapVals]
    split
    · exact ih (SMap.above_mono (by omega) h1) h3
    · simp only [SMap.above, Bool.and_eq_true, decide_eq_true_eq]
      exact ⟨h.1, ih h1 h3⟩

/-- A change of every value keeps the canonical form. -/
theorem SMap.wf_mapVals (f : Nat → α → α) {m : SMap α} (h : SMap.wf d m = true) :
    SMap.wf d (SMap.mapVals d f m) = true := by
  induction m with
  | nil => rfl
  | cons e r ih =>
    obtain ⟨a, v⟩ := e
    obtain ⟨h1, h2, h3⟩ := SMap.wf_cons.1 h
    simp only [SMap.mapVals]
    split
    · exact ih h3
    · exact SMap.wf_cons.2 ⟨SMap.above_mapVals f h1 h3, ‹_›, ih h3⟩

theorem SMap.above_filter {k : Nat} (p : Nat × α → Bool) {m : SMap α} (h : SMap.above k m = true)
    (hw : SMap.wf d m = true) : SMap.above k (m.filter p) = true := by
  induction m generalizing k with
  | nil => rfl
  | cons e r ih =>
    obtain ⟨a, v⟩ := e
    obtain ⟨h1, h2, h3⟩ := SMap.wf_cons.1 hw
    simp only [SMap.above, Bool.and_eq_true, decide_eq_true_eq] at h
    simp only [List.filter]
    split
    · simp only [SMap.above, Bool.and_eq_true, decide_eq_true_eq]
      exact ⟨h.1, ih h1 h3⟩
    · exact ih (SMap.above_mono (by omega) h1) h3

/-- Entries left out keep the canonical form. -/
theorem SMap.wf_filter (p : Nat × α → Bool) {m : SMap α} (h : SMap.wf d m = true) :
    SMap.wf d (m.filter p : SMap α) = true := by
  induction m with
  | nil => rfl
  | cons e r ih =>
    obtain ⟨a, v⟩ := e
    obtain ⟨h1, h2, h3⟩ := SMap.wf_cons.1 h
    simp only [List.filter]
    split
    · exact SMap.wf_cons.2 ⟨SMap.above_filter p h1 h3, h2, ih h3⟩
    · exact ih h3

end

theorem SMap.get_of_above {d : α} {k j : Nat} {m : SMap α} (hj : j ≤ k) (h : SMap.above k m = true) : SMap.get d m j = d := by
  induction m generalizing k with
  | nil => rfl
  | cons e r ih =>
    obtain ⟨a, v⟩ := e
    simp only [SMap.above, Bool.and_eq_true, decide_eq_true_eq] at h
    simp only [SMap.get]
    rw [if_neg (by omega)]
    exact ih (k := a) (by omega) h.2

theorem SMap.get_del_ne {d : α} {m : SMap α} {k j : Nat} (h : j ≠ k) : SMap.get d (SMap.del m k) j = SMap.get d m j := by
  induction m with
  | nil => rfl
  | cons e r ih =>
    obtain ⟨a, v⟩ := e
    simp only [SMap.del]
    split
    · subst_vars; simp [SMap.get, h, ih]
    · simp [SMap.get, ih]

theorem SMap.get_del_self {d : α} {m : SMap α} {k : Nat} : SMap.get d (SMap.del m k) k = d := by
  induction m with
  | nil => rfl
  | cons e r ih =>
    obtain ⟨a, v⟩ := e
    simp only [SMap.del]
    split
    · exact ih
    · simp [SMap.get, *]

theorem SMap.get_ins_self {d : α} {m : SMap α} {k : Nat} {x : α} : SMap.get d (SMap.ins m k x) k = x := by
  induction m with
  | nil => simp [SMap.ins, SMap.get]
  | cons e r ih =>
    obtain ⟨a, v⟩ := e
    simp only [SMap.ins]
    split
    · simp [SMap.get]
    · split
      · simp [SMap.get]
      · simp [SMap.get, *]

theorem SMap.get_ins_ne {d : α} {m : SMap α} {k j : Nat} {x : α} (h : j ≠ k) :
    SMap.get d (SMap.ins m k x) j = SMap.get d m j := by
  induction m with
  | nil => simp [SMap.ins, SMap.get, h]
  | cons e r ih =>
    obtain ⟨a, v⟩ := e
    simp only [SMap.ins]
    split
    · subst_vars; simp [SMap.get, h]
    · split
      · simp [SMap.get, h]
      · simp [SMap.get, ih]

section
variable [DecidableEq α] {d : α}

/-- A read after a write to the same key gives the value written. -/
@[simp] theorem SMap.get_put_self {m : SMap α} {k : Nat} {x : α} : SMap.get d (SMap.put d m k x) k = x := by
  unfold SMap.put
  split
  · subst_vars; exact SMap.get_del_self
  · exact SMap.get_ins_self

/-- A write leaves every other key alone. -/
theorem SMap.get_put_ne {m : SMap α} {k j : Nat} {x : α} (h : j ≠ k) : SMap.get d (SMap.put d m k x) j = SMap.get d m j := by
  unfold SMap.put
  split
  · exact SMap.get_del_ne h
  · exact SMap.get_ins_ne h

end

end Sys2Proof.Machine
end

