-- ==== Sys2Proof/Laws/Keeps.lean ====
section
/-! SUPPORT. What the operations of the slice leave alone, whatever a command is about: the queue, the time, the pins, what has been
driven; the power state and the fence but for the ways an operation may change them; the registers and the tables that only software
sets up; the canonical form of the tables. `gr` says which groups of state are spoken of. -/

namespace Sys2Proof.Machine

open Sys2Proof

set_option Elab.async false

/-- Groups of state that few operations change. -/
inductive Group where
  | now | pins | life | time | key | plan | patch | packs | press | regs
  deriving DecidableEq, Repr

/-- Straps, fuses, resets, clocks, rails and start-up: what only the rows of Machine/Power.lean change. -/
abbrev pinsOf (p : Power) : Power :=
  { p with pstate := 0, ready := false, quiesced := false, locked := false, switched := false, lockLost := false, planLock := false, arrLost := false,
           coreLost := false, minSvn := 0 }

/-- Power state, SLICE_READY, the fence. -/
def lifeOf (s : State) : Nat × Bool × Bool × Bool × Nat := (s.pw.pstate, s.pw.ready, s.pw.quiesced, s.hd.fenced, s.hd.reason)

/-- What may become of the power state within an operation: nothing, the fence, the end of an entry into safe retention. -/
def Life (s t : State) : Prop :=
  lifeOf t = lifeOf s ∨
  (s.hd.fenced = false ∧ s.pw.rstN = true ∧ t.hd.fenced = true ∧ t.pw.pstate = 6 ∧ t.pw.ready = false) ∨
  (s.hd.fenced = t.hd.fenced ∧ s.hd.reason = t.hd.reason ∧ (s.pw.pstate = 2 ∨ s.pw.pstate = 5) ∧ s.pw.flowStop = true ∧
    t.pw.pstate = 3 ∧ t.pw.ready = false)

/-- The registers of a map of which `gr` speaks. -/
def RegsKept (gr : Group → Bool) (x y : SMap (BitVec 64)) : Prop :=
  gr .regs = true → ∀ off, setupReg off = true → SMap.get 0 y off = SMap.get 0 x off

/-- What an operation keeps. -/
structure Keeps (gr : Group → Bool) (s t : State) : Prop where
  pending : t.pending = s.pending
  out : s.out <+: t.out
  csr : SMap.wf 0 s.csr = true → SMap.wf 0 t.csr = true
  lines : SMap.wf {} s.arr.lines = true → SMap.wf {} t.arr.lines = true
  lasts : SMap.wf {} s.arr.lasts = true → SMap.wf {} t.arr.lasts = true
  sf : SMap.wf {} s.coh.sf = true → SMap.wf {} t.coh.sf = true
  now : gr .now = true → t.now = s.now
  pins : gr .pins = true → pinsOf t.pw = pinsOf s.pw
  life : gr .life = true → gr .pins = true → Life s t
  time : gr .time = true → t.tm = s.tm
  key : gr .key = true → t.sec.key = s.sec.key ∧ t.sec.keyValid = s.sec.keyValid ∧ t.sec.keyNext = s.sec.keyNext
  plan : gr .plan = true → t.pl.banks = s.pl.banks ∧ t.pl.active = s.pl.active
  patch : gr .patch = true → t.rg.patched = s.rg.patched ∧ t.rg.patchTable = s.rg.patchTable
  packs : gr .packs = true → t.hl.packs = s.hl.packs
  press : gr .press = true → t.qs.pressure = s.qs.pressure
  regs : RegsKept gr s.csr t.csr

theorem Keeps.refl (gr : Group → Bool) (s : State) : Keeps gr s s :=
  ⟨rfl, List.prefix_refl _, id, id, id, id, fun _ => rfl, fun _ => rfl, fun _ _ => .inl rfl, fun _ => rfl, fun _ => ⟨rfl, rfl, rfl⟩,
    fun _ => ⟨rfl, rfl⟩, fun _ => ⟨rfl, rfl⟩, fun _ => rfl, fun _ => rfl, fun _ _ _ => rfl⟩

theorem Life.trans {s t u : State} (hp : pinsOf t.pw = pinsOf s.pw) (h1 : Life s t) (h2 : Life t u) : Life s u := by
  have hf : t.pw.flowStop = s.pw.flowStop := by simpa [pinsOf] using congrArg Power.flowStop hp
  have hr : t.pw.rstN = s.pw.rstN := by simpa [pinsOf] using congrArg Power.rstN hp
  clear hp
  simp only [Life, lifeOf, Prod.mk.injEq] at *
  rcases h1 with ⟨a1, a2, a3, a4, a5⟩ | ⟨a1, a2, a3, a4, a5⟩ | ⟨a1, a2, a3, a4, a5, a6⟩ <;>
    rcases h2 with ⟨b1, b2, b3, b4, b5⟩ | ⟨b1, b2, b3, b4, b5⟩ | ⟨b1, b2, b3, b4, b5, b6⟩ <;> simp_all

theorem Keeps.trans {gr : Group → Bool} {s t u : State} (h : Keeps gr s t) (k : Keeps gr t u) : Keeps gr s u :=
  ⟨k.pending.trans h.pending, h.out.trans k.out, fun w => k.csr (h.csr w), fun w => k.lines (h.lines w), fun w => k.lasts (h.lasts w),
    fun w => k.sf (h.sf w), fun hb => (k.now hb).trans (h.now hb), fun hb => (k.pins hb).trans (h.pins hb),
    fun hb hp => (h.life hb hp).trans (h.pins hp) (k.life hb hp), fun hb => (k.time hb).trans (h.time hb),
    fun hb => ⟨(k.key hb).1.trans (h.key hb).1, (k.key hb).2.1.trans (h.key hb).2.1, (k.key hb).2.2.trans (h.key hb).2.2⟩,
    fun hb => ⟨(k.plan hb).1.trans (h.plan hb).1, (k.plan hb).2.trans (h.plan hb).2⟩,
    fun hb => ⟨(k.patch hb).1.trans (h.patch hb).1, (k.patch hb).2.trans (h.patch hb).2⟩,
    fun hb => (k.packs hb).trans (h.packs hb), fun hb => (k.press hb).trans (h.press hb),
    fun hb off ho => (k.regs hb off ho).trans (h.regs hb off ho)⟩

/-- The parts of a state the relation looks at, taken apart. -/
structure KeepsParts (gr : Group → Bool) (s : State) (pending : List Instr) (now : Nat) (out : List Out) (pw : Power) (fenced : Bool) (reason : Nat) (csr : SMap
    (BitVec 64)) (lines : SMap Line) (lasts : SMap Last) (sf : SMap SfEnt) (tm : Time) (key : Nat) (keyValid : Bool)
    (keyNext : Nat) (banks : List PlanBank) (active : Nat) (patched : Bool) (patchTable : Bytes) (packs : SMap Bytes)
    (pressure : Bool) : Prop where
  keeps : ∀ t : State, t.pending = pending → t.now = now → t.out = out → t.pw = pw → t.hd.fenced = fenced → t.hd.reason = reason → t.csr
    = csr → t.arr.lines = lines → t.arr.lasts = lasts → t.coh.sf = sf → t.tm = tm → t.sec.key = key → t.sec.keyValid =
    keyValid → t.sec.keyNext = keyNext → t.pl.banks = banks → t.pl.active = active → t.rg.patched = patched →
    t.rg.patchTable = patchTable → t.hl.packs = packs → t.qs.pressure = pressure → Keeps gr s t

theorem Keeps.of_parts {gr : Group → Bool} {s : State} {pending held out now free csr credits txq pw tm arr coh ari gen rg hd sec qs tt pr pl hl}
    (h : KeepsParts gr s pending now out pw hd.fenced hd.reason csr arr.lines arr.lasts coh.sf tm sec.key sec.keyValid sec.keyNext
      pl.banks pl.active rg.patched rg.patchTable hl.packs qs.pressure) :
    Keeps gr s (State.mk pending held out now free csr credits txq pw tm arr coh ari gen rg hd sec qs tt pr pl hl) :=
  h.keeps _ rfl rfl rfl rfl rfl rfl rfl rfl rfl rfl rfl rfl rfl rfl rfl rfl rfl rfl rfl rfl

theorem Keeps.mk_iff {gr : Group → Bool} {s : State} {pending held out now free csr credits txq pw tm arr coh ari gen rg hd sec qs tt pr pl hl} :
    Keeps gr s (State.mk pending held out now free csr credits txq pw tm arr coh ari gen rg hd sec qs tt pr pl hl) ↔
      KeepsParts gr s pending now out pw hd.fenced hd.reason csr arr.lines arr.lasts coh.sf tm sec.key sec.keyValid sec.keyNext
      pl.banks pl.active rg.patched rg.patchTable hl.packs qs.pressure := by
  refine ⟨fun h => ⟨fun t e1 e2 e3 e4 e5 e6 e7 e8 e9 e10 e11 e12 e13 e14 e15 e16 e17 e18 e19 e20 => ?_⟩, Keeps.of_parts⟩
  refine ⟨e1.trans h.pending, e3 ▸ h.out, e7 ▸ h.csr, e8 ▸ h.lines, e9 ▸ h.lasts, e10 ▸ h.sf, fun hb => e2.trans (h.now hb),
    fun hb => e4 ▸ h.pins hb, fun hb hp => ?_, fun hb => e11.trans (h.time hb), fun hb => ?_, fun hb => ?_, fun hb => ?_,
    fun hb => e19.trans (h.packs hb), fun hb => e20.trans (h.press hb), e7 ▸ h.regs⟩
  · have := h.life hb hp
    simp only [Life, lifeOf] at this ⊢
    rw [e4, e5, e6]
    exact this
  · exact ⟨e12.trans (h.key hb).1, e13.trans (h.key hb).2.1, e14.trans (h.key hb).2.2⟩
  · exact ⟨e15.trans (h.plan hb).1, e16.trans (h.plan hb).2⟩
  · exact ⟨e17.trans (h.patch hb).1, e18.trans (h.patch hb).2⟩

/-- A state whose parts are those of `t`, but for what is said of them. -/
theorem KeepsParts.gen {gr : Group → Bool} {s t : State} (h : Keeps gr s t) {pending : List Instr} {now : Nat} {out : List Out} {pw : Power} {fenced : Bool} {reason : Nat} {csr : SMap
    (BitVec 64)} {lines : SMap Line} {lasts : SMap Last} {sf : SMap SfEnt} {tm : Time} {key : Nat} {keyValid : Bool}
    {keyNext : Nat} {banks : List PlanBank} {active : Nat} {patched : Bool} {patchTable : Bytes} {packs : SMap Bytes}
    {pressure : Bool}
    (e1 : pending = t.pending) (e3 : t.out <+: out)
    (e7 : SMap.wf 0 t.csr = true → SMap.wf 0 csr = true) (e8 : SMap.wf {} t.arr.lines = true → SMap.wf {} lines = true)
    (e9 : SMap.wf {} t.arr.lasts = true → SMap.wf {} lasts = true) (e10 : SMap.wf {} t.coh.sf = true → SMap.wf {} sf = true)
    (e2 : gr .now = true → now = t.now) (e4 : gr .pins = true → pinsOf pw = pinsOf t.pw)
    (e5 : gr .life = true → pw.pstate = t.pw.pstate ∧ pw.ready = t.pw.ready ∧ pw.quiesced = t.pw.quiesced ∧ fenced = t.hd.fenced ∧
      reason = t.hd.reason)
    (e11 : gr .time = true → tm = t.tm)
    (e12 : gr .key = true → key = t.sec.key ∧ keyValid = t.sec.keyValid ∧ keyNext = t.sec.keyNext)
    (e15 : gr .plan = true → banks = t.pl.banks ∧ active = t.pl.active)
    (e17 : gr .patch = true → patched = t.rg.patched ∧ patchTable = t.rg.patchTable)
    (e19 : gr .packs = true → packs = t.hl.packs) (e20 : gr .press = true → pressure = t.qs.pressure)
    (e21 : RegsKept gr t.csr csr) :
    KeepsParts gr s pending now out pw fenced reason csr lines lasts sf tm key keyValid keyNext banks active patched patchTable
      packs pressure := by
  refine ⟨fun u f1 f2 f3 f4 f5 f6 f7 f8 f9 f10 f11 f12 f13 f14 f15 f16 f17 f18 f19 f20 => ?_⟩
  refine ⟨f1.trans (e1.trans h.pending), ?_, fun w => f7 ▸ e7 (h.csr w), fun w => f8 ▸ e8 (h.lines w), fun w => f9 ▸ e9 (h.lasts w),
    fun w => f10 ▸ e10 (h.sf w), fun hb => f2.trans ((e2 hb).trans (h.now hb)), fun hb => f4 ▸ (e4 hb).trans (h.pins hb),
    fun hb hp => ?_, fun hb => f11.trans ((e11 hb).trans (h.time hb)), fun hb => ?_, fun hb => ?_, fun hb => ?_,
    fun hb => f19.trans ((e19 hb).trans (h.packs hb)), fun hb => f20.trans ((e20 hb).trans (h.press hb)), fun hb off ho => ?_⟩
  · rw [f3]; exact h.out.trans e3
  · have := h.life hb hp
    obtain ⟨g1, g2, g3, g4, g5⟩ := e5 hb
    simp only [Life, lifeOf] at this ⊢
    rw [f4, f5, f6, g1, g2, g3, g4, g5]
    exact this
  · exact ⟨f12.trans ((e12 hb).1.trans (h.key hb).1), f13.trans ((e12 hb).2.1.trans (h.key hb).2.1),
      f14.trans ((e12 hb).2.2.trans (h.key hb).2.2)⟩
  · exact ⟨f15.trans ((e15 hb).1.trans (h.plan hb).1), f16.trans ((e15 hb).2.trans (h.plan hb).2)⟩
  · exact ⟨f17.trans ((e17 hb).1.trans (h.patch hb).1), f18.trans ((e17 hb).2.trans (h.patch hb).2)⟩
  · rw [f7]; exact (e21 hb off ho).trans (h.regs hb off ho)

/-- A state with the same parts. -/
theorem KeepsParts.same {gr : Group → Bool} {s t : State} (h : Keeps gr s t) {pw : Power} (hpw : pinsOf pw = pinsOf t.pw)
    (h1 : pw.pstate = t.pw.pstate) (h2 : pw.ready = t.pw.ready) (h3 : pw.quiesced = t.pw.quiesced) :
    KeepsParts gr s t.pending t.now t.out pw t.hd.fenced t.hd.reason t.csr t.arr.lines t.arr.lasts t.coh.sf t.tm t.sec.key
      t.sec.keyValid t.sec.keyNext t.pl.banks t.pl.active t.rg.patched t.rg.patchTable t.hl.packs t.qs.pressure :=
  .gen h (e1 := rfl) (e3 := List.prefix_refl _) (e7 := id) (e8 := id) (e9 := id) (e10 := id) (e2 := fun _ => rfl) (e4 := fun _ => hpw)
    (e5 := fun _ => ⟨h1, h2, h3, rfl, rfl⟩) (e11 := fun _ => rfl) (e12 := fun _ => ⟨rfl, rfl, rfl⟩) (e15 := fun _ => ⟨rfl, rfl⟩)
    (e17 := fun _ => ⟨rfl, rfl⟩) (e19 := fun _ => rfl) (e20 := fun _ => rfl) (e21 := fun _ _ _ => rfl)

/-- A state with its lines and lasts changed in ways that keep the canonical form. -/
theorem KeepsParts.tables {gr : Group → Bool} {s t : State} (h : Keeps gr s t) {lines : SMap Line} {lasts : SMap Last}
    (h1 : SMap.wf {} t.arr.lines = true → SMap.wf {} lines = true) (h2 : SMap.wf {} t.arr.lasts = true → SMap.wf {} lasts = true) :
    KeepsParts gr s t.pending t.now t.out t.pw t.hd.fenced t.hd.reason t.csr lines lasts t.coh.sf t.tm t.sec.key t.sec.keyValid
      t.sec.keyNext t.pl.banks t.pl.active t.rg.patched t.rg.patchTable t.hl.packs t.qs.pressure :=
  .gen h (e1 := rfl) (e3 := List.prefix_refl _) (e7 := id) (e8 := h1) (e9 := h2) (e10 := id) (e2 := fun _ => rfl) (e4 := fun _ => rfl)
    (e5 := fun _ => ⟨rfl, rfl, rfl, rfl, rfl⟩) (e11 := fun _ => rfl) (e12 := fun _ => ⟨rfl, rfl, rfl⟩) (e15 := fun _ => ⟨rfl, rfl⟩)
    (e17 := fun _ => ⟨rfl, rfl⟩) (e19 := fun _ => rfl) (e20 := fun _ => rfl) (e21 := fun _ _ _ => rfl)

/-- A state with a group changed of which nothing is said. -/
theorem KeepsParts.freed {gr : Group → Bool} {s t : State} (h : Keeps gr s t) {now : Nat} {pw : Power} {tm : Time} {key : Nat}
    {keyValid : Bool} {keyNext : Nat} {banks : List PlanBank} {active : Nat} {patched : Bool} {patchTable : Bytes} {packs : SMap Bytes}
    {pressure : Bool}
    (e2 : gr .now = false ∨ now = t.now :=
      by first | exact .inr rfl | exact .inl (by assumption))
    (e4 : gr .pins = false ∨ pinsOf pw = pinsOf t.pw :=
      by first | exact .inr rfl | exact .inl (by assumption))
    (e5 : gr .life = false ∨ (pw.pstate = t.pw.pstate ∧ pw.ready = t.pw.ready ∧ pw.quiesced = t.pw.quiesced) :=
      by first | exact .inr ⟨rfl, rfl, rfl⟩ | exact .inl (by assumption))
    (e11 : gr .time = false ∨ tm = t.tm :=
      by first | exact .inr rfl | exact .inl (by assumption))
    (e12 : gr .key = false ∨ (key = t.sec.key ∧ keyValid = t.sec.keyValid ∧ keyNext = t.sec.keyNext) :=
      by first | exact .inr ⟨rfl, rfl, rfl⟩ | exact .inl (by assumption))
    (e15 : gr .plan = false ∨ (banks = t.pl.banks ∧ active = t.pl.active) :=
      by first | exact .inr ⟨rfl, rfl⟩ | exact .inl (by assumption))
    (e17 : gr .patch = false ∨ (patched = t.rg.patched ∧ patchTable = t.rg.patchTable) :=
      by first | exact .inr ⟨rfl, rfl⟩ | exact .inl (by assumption))
    (e19 : gr .packs = false ∨ packs = t.hl.packs :=
      by first | exact .inr rfl | exact .inl (by assumption))
    (e20 : gr .press = false ∨ pressure = t.qs.pressure :=
      by first | exact .inr rfl | exact .inl (by assumption)) :
    KeepsParts gr s t.pending now t.out pw t.hd.fenced t.hd.reason t.csr t.arr.lines t.arr.lasts t.coh.sf tm key keyValid keyNext
      banks active patched patchTable packs pressure := by
  have no : ∀ {g : Group} {p : Prop}, (gr g = false ∨ p) → gr g = true → p := by
    intro g p h1 h2
    rcases h1 with h1 | h1
    · rw [h1] at h2; cases h2
    · exact h1
  exact .gen h (e1 := rfl) (e3 := List.prefix_refl _) (e7 := id) (e8 := id) (e9 := id) (e10 := id) (e2 := no e2) (e4 := no e4)
    (e5 := fun hb => ⟨(no e5 hb).1, (no e5 hb).2.1, (no e5 hb).2.2, rfl, rfl⟩) (e11 := no e11) (e12 := no e12) (e15 := no e15)
    (e17 := no e17) (e19 := no e19) (e20 := no e20) (e21 := fun _ _ _ => rfl)

/-- A state in which more has been driven. -/
theorem KeepsParts.appended {gr : Group → Bool} {s t : State} (h : Keeps gr s t) (l : List Out) :
    KeepsParts gr s t.pending t.now (t.out ++ l) t.pw t.hd.fenced t.hd.reason t.csr t.arr.lines t.arr.lasts t.coh.sf t.tm t.sec.key
      t.sec.keyValid t.sec.keyNext t.pl.banks t.pl.active t.rg.patched t.rg.patchTable t.hl.packs t.qs.pressure :=
  .gen h (e1 := rfl) (e3 := List.prefix_append _ _) (e7 := id) (e8 := id) (e9 := id) (e10 := id) (e2 := fun _ => rfl)
    (e4 := fun _ => rfl) (e5 := fun _ => ⟨rfl, rfl, rfl, rfl, rfl⟩) (e11 := fun _ => rfl) (e12 := fun _ => ⟨rfl, rfl, rfl⟩)
    (e15 := fun _ => ⟨rfl, rfl⟩) (e17 := fun _ => ⟨rfl, rfl⟩) (e19 := fun _ => rfl) (e20 := fun _ => rfl) (e21 := fun _ _ _ => rfl)

/-- One register changed of which nothing is said. -/
theorem RegsKept.put {gr : Group → Bool} {x y : SMap (BitVec 64)} (h : RegsKept gr x y) {off : Nat} {v : BitVec 64}
    (hoff : gr .regs = false ∨ setupReg off = false) : RegsKept gr x (SMap.put 0 y off v) := by
  intro hb o ho
  rcases hoff with e | e
  · rw [e] at hb; cases hb
  · exact (SMap.get_put_ne (fun he => by rw [he, e] at ho; cases ho)).trans (h hb o ho)

theorem setupReg_high {off : Nat} (h : 0x4820 ≤ off) : setupReg off = false := by
  simp [setupReg, Nat.not_lt.mpr h]

theorem Keeps.ite {gr : Group → Bool} {s x y : State} {c : Prop} [Decidable c] (ha : c → Keeps gr s x) (hb : ¬c → Keeps gr s y) :
    Keeps gr s (if c then x else y) := by
  split
  · exact ha ‹_›
  · exact hb ‹_›

theorem Keeps.ite_fst {gr : Group → Bool} {β : Type} {s : State} {x y : State × β} {c : Prop} [Decidable c]
    (ha : c → Keeps gr s x.1) (hb : ¬c → Keeps gr s y.1) : Keeps gr s (if c then x else y).1 := by
  split
  · exact ha ‹_›
  · exact hb ‹_›

theorem Keeps.ite_snd {gr : Group → Bool} {β : Type} {s : State} {x y : β × State} {c : Prop} [Decidable c]
    (ha : c → Keeps gr s x.2) (hb : ¬c → Keeps gr s y.2) : Keeps gr s (if c then x else y).2 := by
  split
  · exact ha ‹_›
  · exact hb ‹_›

/-- A fold of operations each of which keeps what it finds. -/
theorem Keeps.foldl {gr : Group → Bool} {α : Type} {s t : State} (f : State → α → State) (l : List α) (h : Keeps gr s t)
    (hf : ∀ t a, Keeps gr s t → Keeps gr s (f t a)) : Keeps gr s (l.foldl f t) := by
  induction l generalizing t with
  | nil => exact h
  | cons a l ih => exact ih (hf t a h)

/-- A fold that carries more than the state. -/
theorem Keeps.foldl_fst {gr : Group → Bool} {α β : Type} {s : State} (f : State × β → α → State × β) (l : List α) (x : State × β)
    (h : Keeps gr s x.1) (hf : ∀ x a, Keeps gr s x.1 → Keeps gr s (f x a).1) : Keeps gr s (l.foldl f x).1 := by
  induction l generalizing x with
  | nil => exact h
  | cons a l ih => exact ih (f x a) (hf x a h)

/-- A fold that carries the state second. -/
theorem Keeps.foldl_snd {gr : Group → Bool} {α β : Type} {s : State} (f : β × State → α → β × State) (l : List α) (x : β × State)
    (h : Keeps gr s x.2) (hf : ∀ x a, Keeps gr s x.2 → Keeps gr s (f x a).2) : Keeps gr s (l.foldl f x).2 := by
  induction l generalizing x with
  | nil => exact h
  | cons a l ih => exact ih (f x a) (hf x a h)

theorem Keeps.of_fst {gr : Group → Bool} {β : Type} {s : State} {x y : State × β} (h : Keeps gr s x.1) (e : x = y) : Keeps gr s y.1 :=
  e ▸ h
theorem Keeps.of_snd {gr : Group → Bool} {β : Type} {s : State} {x y : β × State} (h : Keeps gr s x.2) (e : x = y) : Keeps gr s y.2 :=
  e ▸ h

end Sys2Proof.Machine
end

