-- ==== Sys2Proof/Laws/KeepsOps.lean ====
section
/-! SUPPORT. What the operations of Machine/Ops.lean keep (Laws/Keeps.lean). -/

namespace Sys2Proof.Machine

open Sys2Proof

set_option Elab.async false

set_option linter.unusedSimpArgs false

theorem csrPut_keeps {gr : Group → Bool} {s0 s : State} {off v : Nat} (h : Keeps gr s0 s)
    (hoff : gr .regs = false ∨ setupReg off = false) : Keeps gr s0 (csrPut s off v) :=
  ⟨h.pending, h.out, fun w => SMap.wf_put _ _ (h.csr w), h.lines, h.lasts, h.sf, h.now, h.pins, h.life, h.time, h.key, h.plan, h.patch, h.packs, h.press,
    RegsKept.put h.regs hoff⟩

theorem csrSet_keeps {gr : Group → Bool} {s0 s : State} {off bits : Nat} (h : Keeps gr s0 s)
    (hoff : gr .regs = false ∨ setupReg off = false) : Keeps gr s0 (csrSet s off bits) := csrPut_keeps h hoff

theorem drawFree_keeps {gr : Group → Bool} {s0 : State} {s : State} (hk : Keeps gr s0 s) :
    Keeps gr s0 ((drawFree s).2) := by
  unfold drawFree
  repeat' (first
    | (with_reducible assumption)
    | (with_reducible refine Keeps.ite (fun _ => ?_) (fun _ => ?_))
    | (with_reducible refine Keeps.ite_fst (fun _ => ?_) (fun _ => ?_))
    | (with_reducible refine Keeps.ite_snd (fun _ => ?_) (fun _ => ?_))
    | (simp only [Keeps.mk_iff]; with_reducible refine KeepsParts.same (t := _) ?_ (by rfl) rfl rfl rfl))

theorem freeWord_keeps {gr : Group → Bool} {s0 : State} {s : State} (hk : Keeps gr s0 s) :
    Keeps gr s0 ((freeWord s).2) := by
  unfold freeWord
  repeat' (first
    | (with_reducible assumption)
    | (with_reducible apply drawFree_keeps))

theorem evN_keeps {gr : Group → Bool} {s0 : State} {s : State} {n k : Nat} (hk : Keeps gr s0 s) :
    Keeps gr s0 (evN s n k) := by
  unfold evN
  repeat' (first
    | (with_reducible assumption)
    | (with_reducible apply csrSet_keeps)
    | exact .inr (by decide)
    | exact .inl (by assumption)
    | exact .inr (setupReg_high (by omega))
    | (with_reducible refine Keeps.ite (fun _ => ?_) (fun _ => ?_))
    | (with_reducible refine Keeps.ite_fst (fun _ => ?_) (fun _ => ?_))
    | (with_reducible refine Keeps.ite_snd (fun _ => ?_) (fun _ => ?_))
    | (simp only [Keeps.mk_iff]; with_reducible refine KeepsParts.same (t := _) ?_ (by rfl) rfl rfl rfl))

theorem ev_keeps {gr : Group → Bool} {s0 : State} {s : State} {n : Nat} (hk : Keeps gr s0 s) :
    Keeps gr s0 (ev s n) := by
  unfold ev
  repeat' (first
    | (with_reducible assumption)
    | (with_reducible apply evN_keeps))

theorem meter_keeps {gr : Group → Bool} {s0 : State} {s : State} {cls group bytes : Nat} (hk : Keeps gr s0 s) :
    Keeps gr s0 (meter s cls group bytes) := by
  unfold meter
  repeat' (first
    | (with_reducible assumption)
    | (with_reducible refine Keeps.ite (fun _ => ?_) (fun _ => ?_))
    | (with_reducible refine Keeps.ite_fst (fun _ => ?_) (fun _ => ?_))
    | (with_reducible refine Keeps.ite_snd (fun _ => ?_) (fun _ => ?_))
    | (simp only [Keeps.mk_iff]; with_reducible refine KeepsParts.same (t := _) ?_ (by rfl) rfl rfl rfl))

theorem activity_keeps {gr : Group → Bool} {s0 : State} {s : State} {cls ctx kind k : Nat} (hk : Keeps gr s0 s) :
    Keeps gr s0 (activity s cls ctx kind k) := by
  unfold activity
  repeat' (first
    | (with_reducible assumption)
    | (with_reducible refine Keeps.ite (fun _ => ?_) (fun _ => ?_))
    | (with_reducible refine Keeps.ite_fst (fun _ => ?_) (fun _ => ?_))
    | (with_reducible refine Keeps.ite_snd (fun _ => ?_) (fun _ => ?_))
    | (simp only [Keeps.mk_iff]; with_reducible refine KeepsParts.same (t := _) ?_ (by rfl) rfl rfl rfl))

theorem arrayUse_keeps {gr : Group → Bool} {s0 : State} {s : State} {qos line n : Nat} (hk : Keeps gr s0 s) :
    Keeps gr s0 (arrayUse s qos line n) := by
  unfold arrayUse
  repeat' (first
    | (with_reducible assumption)
    | (with_reducible apply activity_keeps))

theorem traceMap_keeps {gr : Group → Bool} {s0 : State} {s : State} {n : Nat} {f : Trace → Trace} (hk : Keeps gr s0 s) :
    Keeps gr s0 (traceMap s n f) := by
  unfold traceMap
  repeat' (first
    | (with_reducible assumption)
    | (with_reducible refine Keeps.ite (fun _ => ?_) (fun _ => ?_))
    | (with_reducible refine Keeps.ite_fst (fun _ => ?_) (fun _ => ?_))
    | (with_reducible refine Keeps.ite_snd (fun _ => ?_) (fun _ => ?_))
    | (simp only [Keeps.mk_iff]; with_reducible refine KeepsParts.same (t := _) ?_ (by rfl) rfl rfl rfl))

theorem stage_keeps {gr : Group → Bool} {s0 : State} {s : State} {n i : Nat} (hk : Keeps gr s0 s) :
    Keeps gr s0 (stage s n i) := by
  unfold stage
  repeat' (first
    | (with_reducible assumption)
    | (with_reducible apply traceMap_keeps))

theorem fillReach_keeps {gr : Group → Bool} {s0 : State} {s : State} {line i : Nat} (hk : Keeps gr s0 s) :
    Keeps gr s0 (fillReach s line i) := by
  unfold fillReach
  repeat' (first
    | (with_reducible assumption)
    | (with_reducible refine Keeps.ite (fun _ => ?_) (fun _ => ?_))
    | (with_reducible refine Keeps.ite_fst (fun _ => ?_) (fun _ => ?_))
    | (with_reducible refine Keeps.ite_snd (fun _ => ?_) (fun _ => ?_))
    | (simp only [Keeps.mk_iff]; with_reducible refine KeepsParts.same (t := _) ?_ (by rfl) rfl rfl rfl))

theorem memStage_keeps {gr : Group → Bool} {s0 : State} {s : State} {q : MemReq} (hk : Keeps gr s0 s) :
    Keeps gr s0 (memStage s q) := by
  unfold memStage
  repeat' (first
    | (with_reducible assumption)
    | (with_reducible apply fillReach_keeps)
    | (with_reducible apply stage_keeps)
    | (with_reducible refine Keeps.ite (fun _ => ?_) (fun _ => ?_))
    | (with_reducible refine Keeps.ite_fst (fun _ => ?_) (fun _ => ?_))
    | (with_reducible refine Keeps.ite_snd (fun _ => ?_) (fun _ => ?_))
    | dsimp only
    | split)

theorem drive_keeps {gr : Group → Bool} {s0 s : State} {o : Out} (h : Keeps gr s0 s) : Keeps gr s0 (drive s o) := by
  have h1 : Keeps gr s0 { s with out := s.out ++ [o] } :=
    ⟨h.pending, h.out.trans (List.prefix_append _ _), h.csr, h.lines, h.lasts, h.sf, h.now, h.pins, h.life, h.time, h.key, h.plan, h.patch, h.packs, h.press, h.regs⟩
  unfold drive
  split
  · exact activity_keeps (meter_keeps h1)
  · exact activity_keeps (meter_keeps h1)
  · exact h1

theorem sendCh_keeps {gr : Group → Bool} {s0 : State} {s : State} {ch : Nat} {o : Out} (hk : Keeps gr s0 s) :
    Keeps gr s0 (sendCh s ch o) := by
  unfold sendCh
  repeat' (first
    | (with_reducible assumption)
    | (with_reducible apply drive_keeps)
    | (with_reducible refine Keeps.ite (fun _ => ?_) (fun _ => ?_))
    | (with_reducible refine Keeps.ite_fst (fun _ => ?_) (fun _ => ?_))
    | (with_reducible refine Keeps.ite_snd (fun _ => ?_) (fun _ => ?_))
    | (simp only [Keeps.mk_iff]; with_reducible refine KeepsParts.same (t := _) ?_ (by rfl) rfl rfl rfl))

theorem giveCredit_keeps {gr : Group → Bool} {s0 : State} {s : State} {ch : Nat} (hk : Keeps gr s0 s) :
    Keeps gr s0 (giveCredit s ch) := by
  unfold giveCredit
  repeat' (first
    | (with_reducible assumption)
    | (with_reducible apply drive_keeps)
    | (with_reducible refine Keeps.ite (fun _ => ?_) (fun _ => ?_))
    | (with_reducible refine Keeps.ite_fst (fun _ => ?_) (fun _ => ?_))
    | (with_reducible refine Keeps.ite_snd (fun _ => ?_) (fun _ => ?_))
    | (simp only [Keeps.mk_iff]; with_reducible refine KeepsParts.same (t := _) ?_ (by rfl) rfl rfl rfl)
    | dsimp only
    | split)

theorem txDrain_keeps {gr : Group → Bool} {s0 : State} {s : State} (hk : Keeps gr s0 s) :
    Keeps gr s0 (txDrain s) := by
  unfold txDrain
  repeat' (first
    | (with_reducible assumption)
    | (with_reducible apply sendCh_keeps)
    | (with_reducible refine Keeps.ite (fun _ => ?_) (fun _ => ?_))
    | (with_reducible refine Keeps.ite_fst (fun _ => ?_) (fun _ => ?_))
    | (with_reducible refine Keeps.ite_snd (fun _ => ?_) (fun _ => ?_))
    | (simp only [Keeps.mk_iff]; with_reducible refine KeepsParts.same (t := _) ?_ (by rfl) rfl rfl rfl)
    | (with_reducible refine Keeps.foldl _ _ ?_ (fun t a hk => ?_)))

theorem sendMsg_keeps {gr : Group → Bool} {s0 : State} {s : State} {p : Port} {m : OMsg} (hk : Keeps gr s0 s) :
    Keeps gr s0 (sendMsg s p m) := by
  unfold sendMsg
  repeat' (first
    | (with_reducible assumption)
    | (with_reducible apply sendCh_keeps))

theorem returnCredit_keeps {gr : Group → Bool} {s0 : State} {s : State} {p : Port} {cls : Nat} (hk : Keeps gr s0 s) :
    Keeps gr s0 (returnCredit s p cls) := by
  unfold returnCredit
  repeat' (first
    | (with_reducible assumption)
    | (with_reducible apply drive_keeps))

theorem answer_keeps {gr : Group → Bool} {s0 : State} {s : State} {m : Msg} {cls opcode status mod : Nat} {data : Bytes} (hk : Keeps gr s0 s) :
    Keeps gr s0 (answer s m cls opcode status mod data) := by
  unfold answer
  repeat' (first
    | (with_reducible assumption)
    | (with_reducible apply sendMsg_keeps))

theorem cmpl_keeps {gr : Group → Bool} {s0 : State} {s : State} {m : Msg} {status mod : Nat} (hk : Keeps gr s0 s) :
    Keeps gr s0 (cmpl s m status mod) := by
  unfold cmpl
  repeat' (first
    | (with_reducible assumption)
    | (with_reducible apply answer_keeps))

theorem settle_keeps {gr : Group → Bool} {s0 : State} {s : State} {n : Nat} (hk : Keeps gr s0 s) :
    Keeps gr s0 (settle s n) := by
  unfold settle
  repeat' (first
    | (with_reducible assumption)
    | (with_reducible refine Keeps.ite (fun _ => ?_) (fun _ => ?_))
    | (with_reducible refine Keeps.ite_fst (fun _ => ?_) (fun _ => ?_))
    | (with_reducible refine Keeps.ite_snd (fun _ => ?_) (fun _ => ?_))
    | (simp only [Keeps.mk_iff]; with_reducible refine KeepsParts.same (t := _) ?_ (by rfl) rfl rfl rfl))

theorem hstRequest_keeps {gr : Group → Bool} {s0 : State} {s : State} {opcode addr size mod op : Nat} {data : Bytes} (hk : Keeps gr s0 s) :
    Keeps gr s0 ((hstRequest s opcode addr size mod op data).2) := by
  unfold hstRequest
  repeat' (first
    | (with_reducible assumption)
    | (with_reducible apply sendMsg_keeps)
    | (with_reducible refine Keeps.ite (fun _ => ?_) (fun _ => ?_))
    | (with_reducible refine Keeps.ite_fst (fun _ => ?_) (fun _ => ?_))
    | (with_reducible refine Keeps.ite_snd (fun _ => ?_) (fun _ => ?_))
    | (simp only [Keeps.mk_iff]; with_reducible refine KeepsParts.same (t := _) ?_ (by rfl) rfl rfl rfl))

theorem hstWrite_keeps {gr : Group → Bool} {s0 : State} {s : State} {addr : Nat} {data : Bytes} {cmd : Nat} (hk : Keeps gr s0 s) :
    Keeps gr s0 (hstWrite s addr data cmd) := by
  unfold hstWrite
  repeat' (first
    | (with_reducible assumption)
    | (with_reducible apply hstRequest_keeps)
    | (with_reducible refine Keeps.ite (fun _ => ?_) (fun _ => ?_))
    | (with_reducible refine Keeps.ite_fst (fun _ => ?_) (fun _ => ?_))
    | (with_reducible refine Keeps.ite_snd (fun _ => ?_) (fun _ => ?_))
    | (simp only [Keeps.mk_iff]; with_reducible refine KeepsParts.same (t := _) ?_ (by rfl) rfl rfl rfl))

theorem memStep_keeps {gr : Group → Bool} {s0 s : State} (h : Keeps gr s0 s) : ∀ t, memStep s = some t → Keeps gr s0 t := by
  intro t ht
  unfold memStep at ht
  split at ht
  · cases ht
  · split at ht
    · cases ht
    · dsimp only at ht
      split at ht
      · cases ht
      · split at ht
        · split at ht
          · cases ht
          · obtain rfl := Option.some.inj ht
            exact memStage_keeps (drive_keeps (Keeps.of_parts (.same h rfl rfl rfl rfl)))
        · split at ht
          · cases ht
          · split at ht
            · cases ht
            · obtain rfl := Option.some.inj ht
              exact memStage_keeps (activity_keeps (meter_keeps (drive_keeps (Keeps.of_parts (.same h rfl rfl rfl rfl)))))

theorem memPump_keeps {gr : Group → Bool} {s0 : State} {k : Nat} {s : State} (h : Keeps gr s0 s) : Keeps gr s0 (memPump k s) := by
  induction k generalizing s with
  | zero => exact h
  | succ k ih =>
    unfold memPump
    split
    · exact ih (memStep_keeps h _ ‹_›)
    · exact h

theorem memPush_keeps {gr : Group → Bool} {s0 : State} {s : State} {q : MemReq} (hk : Keeps gr s0 s) :
    Keeps gr s0 (memPush s q) := by
  unfold memPush
  repeat' (first
    | (with_reducible assumption)
    | (with_reducible apply memPump_keeps)
    | (with_reducible refine Keeps.ite (fun _ => ?_) (fun _ => ?_))
    | (with_reducible refine Keeps.ite_fst (fun _ => ?_) (fun _ => ?_))
    | (with_reducible refine Keeps.ite_snd (fun _ => ?_) (fun _ => ?_))
    | (simp only [Keeps.mk_iff]; with_reducible refine KeepsParts.same (t := _) ?_ (by rfl) rfl rfl rfl))

theorem memRead_keeps {gr : Group → Bool} {s0 : State} {s : State} {for_ : RdFor} {addr beats crit qos : Nat} (hk : Keeps gr s0 s) :
    Keeps gr s0 (memRead s for_ addr beats crit qos) := by
  unfold memRead
  repeat' (first
    | (with_reducible assumption)
    | (with_reducible apply memPush_keeps))

theorem memWrite_keeps {gr : Group → Bool} {s0 : State} {s : State} {w : MemWr} {data : Bytes} {qos : Nat} (hk : Keeps gr s0 s) :
    Keeps gr s0 (memWrite s w data qos) := by
  unfold memWrite
  repeat' (first
    | (with_reducible assumption)
    | (with_reducible apply memPush_keeps))

theorem memWriteLine_keeps {gr : Group → Bool} {s0 : State} {s : State} {w : MemWr} {line : Nat} {d : LineData} {qos : Nat} (hk : Keeps gr s0 s) :
    Keeps gr s0 (memWriteLine s w line d qos) := by
  unfold memWriteLine
  repeat' (first
    | (with_reducible assumption)
    | (with_reducible apply memWrite_keeps))

theorem memWriteMasked_keeps {gr : Group → Bool} {s0 : State} {s : State} {w : MemWr} {line : Nat} {d : LineData} {m : LineMask} {qos : Nat} (hk : Keeps gr s0 s) :
    Keeps gr s0 (memWriteMasked s w line d m qos) := by
  unfold memWriteMasked
  repeat' (first
    | (with_reducible assumption)
    | (with_reducible apply memWrite_keeps)
    | (with_reducible refine Keeps.ite (fun _ => ?_) (fun _ => ?_))
    | (with_reducible refine Keeps.ite_fst (fun _ => ?_) (fun _ => ?_))
    | (with_reducible refine Keeps.ite_snd (fun _ => ?_) (fun _ => ?_))
    | (with_reducible refine Keeps.foldl _ _ ?_ (fun t a hk => ?_)))

theorem ringPut_keeps {gr : Group → Bool} {s0 : State} {s : State} {n : Nat} {r : Ring} (hk : Keeps gr s0 s) :
    Keeps gr s0 (ringPut s n r) := by
  unfold ringPut
  repeat' (first
    | (with_reducible assumption)
    | (with_reducible refine Keeps.ite (fun _ => ?_) (fun _ => ?_))
    | (with_reducible refine Keeps.ite_fst (fun _ => ?_) (fun _ => ?_))
    | (with_reducible refine Keeps.ite_snd (fun _ => ?_) (fun _ => ?_))
    | (simp only [Keeps.mk_iff]; with_reducible refine KeepsParts.same (t := _) ?_ (by rfl) rfl rfl rfl))

theorem irqFire_keeps {gr : Group → Bool} {s0 : State} {s : State} {v : Nat} (hk : Keeps gr s0 s) :
    Keeps gr s0 (irqFire s v) := by
  unfold irqFire
  repeat' (first
    | (with_reducible assumption)
    | (with_reducible apply hstWrite_keeps)
    | (with_reducible refine Keeps.ite (fun _ => ?_) (fun _ => ?_))
    | (with_reducible refine Keeps.ite_fst (fun _ => ?_) (fun _ => ?_))
    | (with_reducible refine Keeps.ite_snd (fun _ => ?_) (fun _ => ?_))
    | (simp only [Keeps.mk_iff]; with_reducible refine KeepsParts.same (t := _) ?_ (by rfl) rfl rfl rfl))

theorem irqRaise_keeps {gr : Group → Bool} {s0 : State} {s : State} {v : Nat} (hk : Keeps gr s0 s) :
    Keeps gr s0 (irqRaise s v) := by
  unfold irqRaise
  repeat' (first
    | (with_reducible assumption)
    | (with_reducible apply irqFire_keeps)
    | (with_reducible refine Keeps.ite (fun _ => ?_) (fun _ => ?_))
    | (with_reducible refine Keeps.ite_fst (fun _ => ?_) (fun _ => ?_))
    | (with_reducible refine Keeps.ite_snd (fun _ => ?_) (fun _ => ?_))
    | (simp only [Keeps.mk_iff]; with_reducible refine KeepsParts.same (t := _) ?_ (by rfl) rfl rfl rfl))

theorem irqWake_keeps {gr : Group → Bool} {s0 : State} {s : State} (hk : Keeps gr s0 s) :
    Keeps gr s0 (irqWake s) := by
  unfold irqWake
  repeat' (first
    | (with_reducible assumption)
    | (with_reducible apply irqRaise_keeps)
    | (with_reducible refine Keeps.ite (fun _ => ?_) (fun _ => ?_))
    | (with_reducible refine Keeps.ite_fst (fun _ => ?_) (fun _ => ?_))
    | (with_reducible refine Keeps.ite_snd (fun _ => ?_) (fun _ => ?_))
    | (with_reducible refine Keeps.foldl _ _ ?_ (fun t a hk => ?_)))

theorem evPost_keeps {gr : Group → Bool} {s0 : State} {s : State} {n : Nat} {kind status ring cat w1 w2 w3 : Nat} (hk : Keeps gr s0 s) :
    Keeps gr s0 (evPost s n kind status ring cat w1 w2 w3) := by
  unfold evPost
  repeat' (first
    | (with_reducible assumption)
    | (with_reducible apply hstWrite_keeps)
    | (with_reducible apply ev_keeps)
    | (with_reducible apply irqRaise_keeps)
    | (with_reducible refine Keeps.ite (fun _ => ?_) (fun _ => ?_))
    | (with_reducible refine Keeps.ite_fst (fun _ => ?_) (fun _ => ?_))
    | (with_reducible refine Keeps.ite_snd (fun _ => ?_) (fun _ => ?_))
    | (simp only [Keeps.mk_iff]; with_reducible refine KeepsParts.same (t := _) ?_ (by rfl) rfl rfl rfl))

theorem postEvent_keeps {gr : Group → Bool} {s0 : State} {s : State} {cat status ring w1 w2 : Nat} (hk : Keeps gr s0 s) :
    Keeps gr s0 (postEvent s cat status ring w1 w2) := by
  unfold postEvent
  repeat' (first
    | (with_reducible assumption)
    | (with_reducible apply evPost_keeps))

theorem postEventFree_keeps {gr : Group → Bool} {s0 : State} {s : State} {cat status : Nat} (hk : Keeps gr s0 s) :
    Keeps gr s0 (postEventFree s cat status) := by
  unfold postEventFree
  repeat' (first
    | (with_reducible assumption)
    | (with_reducible apply freeWord_keeps)
    | (with_reducible apply postEvent_keeps))

theorem hdrSend_keeps {gr : Group → Bool} {s0 : State} {s : State} {type dst : Nat} {payload : List Nat} (hk : Keeps gr s0 s) :
    Keeps gr s0 (hdrSend s type dst payload) := by
  unfold hdrSend
  repeat' (first
    | (with_reducible assumption)
    | (with_reducible apply drive_keeps)
    | (with_reducible refine Keeps.ite (fun _ => ?_) (fun _ => ?_))
    | (with_reducible refine Keeps.ite_fst (fun _ => ?_) (fun _ => ?_))
    | (with_reducible refine Keeps.ite_snd (fun _ => ?_) (fun _ => ?_))
    | (simp only [Keeps.mk_iff]; with_reducible refine KeepsParts.same (t := _) ?_ (by rfl) rfl rfl rfl))

theorem hdrKeep_keeps {gr : Group → Bool} {s0 : State} {s : State} {type : Nat} {payload : List Nat} (hk : Keeps gr s0 s) :
    Keeps gr s0 (hdrKeep s type payload) := by
  unfold hdrKeep
  repeat' (first
    | (with_reducible assumption)
    | (with_reducible apply drive_keeps)
    | (with_reducible refine Keeps.ite (fun _ => ?_) (fun _ => ?_))
    | (with_reducible refine Keeps.ite_fst (fun _ => ?_) (fun _ => ?_))
    | (with_reducible refine Keeps.ite_snd (fun _ => ?_) (fun _ => ?_))
    | (simp only [Keeps.mk_iff]; with_reducible refine KeepsParts.same (t := _) ?_ (by rfl) rfl rfl rfl))

theorem ledWrite_keeps {gr : Group → Bool} {s0 : State} {s : State} {e : LedEnt} (hk : Keeps gr s0 s) :
    Keeps gr s0 (ledWrite s e) := by
  unfold ledWrite
  repeat' (first
    | (with_reducible assumption)
    | (with_reducible refine Keeps.ite (fun _ => ?_) (fun _ => ?_))
    | (with_reducible refine Keeps.ite_fst (fun _ => ?_) (fun _ => ?_))
    | (with_reducible refine Keeps.ite_snd (fun _ => ?_) (fun _ => ?_))
    | (simp only [Keeps.mk_iff]; with_reducible refine KeepsParts.same (t := _) ?_ (by rfl) rfl rfl rfl))

theorem mapPump_keeps {gr : Group → Bool} {s0 : State} {s : State} (hk : Keeps gr s0 s) :
    Keeps gr s0 (mapPump s) := by
  unfold mapPump
  repeat' (first
    | (with_reducible assumption)
    | (with_reducible refine Keeps.ite (fun _ => ?_) (fun _ => ?_))
    | (with_reducible refine Keeps.ite_fst (fun _ => ?_) (fun _ => ?_))
    | (with_reducible refine Keeps.ite_snd (fun _ => ?_) (fun _ => ?_))
    | (simp only [Keeps.mk_iff]; with_reducible refine KeepsParts.same (t := _) ?_ (by rfl) rfl rfl rfl))

theorem mapSave_keeps {gr : Group → Bool} {s0 : State} {s : State} (hk : Keeps gr s0 s) :
    Keeps gr s0 (mapSave s) := by
  unfold mapSave
  repeat' (first
    | (with_reducible assumption)
    | (with_reducible apply mapPump_keeps)
    | (with_reducible refine Keeps.ite (fun _ => ?_) (fun _ => ?_))
    | (with_reducible refine Keeps.ite_fst (fun _ => ?_) (fun _ => ?_))
    | (with_reducible refine Keeps.ite_snd (fun _ => ?_) (fun _ => ?_))
    | (simp only [Keeps.mk_iff]; with_reducible refine KeepsParts.same (t := _) ?_ (by rfl) rfl rfl rfl))

theorem ledPump_keeps {gr : Group → Bool} {s0 : State} {s : State} (hk : Keeps gr s0 s) :
    Keeps gr s0 (ledPump s) := by
  unfold ledPump
  repeat' (first
    | (with_reducible assumption)
    | (with_reducible apply mapPump_keeps)
    | (with_reducible apply ledWrite_keeps)
    | (with_reducible refine Keeps.ite (fun _ => ?_) (fun _ => ?_))
    | (with_reducible refine Keeps.ite_fst (fun _ => ?_) (fun _ => ?_))
    | (with_reducible refine Keeps.ite_snd (fun _ => ?_) (fun _ => ?_))
    | (simp only [Keeps.mk_iff]; with_reducible refine KeepsParts.same (t := _) ?_ (by rfl) rfl rfl rfl)
    | dsimp only
    | split)

theorem ledAdd_keeps {gr : Group → Bool} {s0 : State} {s : State} {kind subject history : Nat} (hk : Keeps gr s0 s) :
    Keeps gr s0 (ledAdd s kind subject history) := by
  unfold ledAdd
  repeat' (first
    | (with_reducible assumption)
    | (with_reducible apply ledPump_keeps)
    | (with_reducible apply ledWrite_keeps)
    | (with_reducible refine Keeps.ite (fun _ => ?_) (fun _ => ?_))
    | (with_reducible refine Keeps.ite_fst (fun _ => ?_) (fun _ => ?_))
    | (with_reducible refine Keeps.ite_snd (fun _ => ?_) (fun _ => ?_))
    | (simp only [Keeps.mk_iff]; with_reducible refine KeepsParts.same (t := _) ?_ (by rfl) rfl rfl rfl)
    | (with_reducible refine Keeps.of_fst (y := (_, _)) (x := ite _ _ _) ?_ (by assumption))
    | (with_reducible refine Keeps.of_fst (y := (_, _, _)) (x := ite _ _ _) ?_ (by assumption))
    | dsimp only
    | split)

theorem rowFailed_keeps {gr : Group → Bool} {s0 : State} {s : State} {loc : Nat} (hk : Keeps gr s0 s) :
    Keeps gr s0 (rowFailed s loc) := by
  unfold rowFailed
  repeat' (first
    | (with_reducible assumption)
    | (with_reducible refine Keeps.ite (fun _ => ?_) (fun _ => ?_))
    | (with_reducible refine Keeps.ite_fst (fun _ => ?_) (fun _ => ?_))
    | (with_reducible refine Keeps.ite_snd (fun _ => ?_) (fun _ => ?_))
    | (simp only [Keeps.mk_iff]; with_reducible refine KeepsParts.same (t := _) ?_ (by rfl) rfl rfl rfl))

theorem permanent_keeps {gr : Group → Bool} {s0 : State} {s : State} {loc : Nat} (hk : Keeps gr s0 s) :
    Keeps gr s0 (permanent s loc) := by
  unfold permanent
  repeat' (first
    | (with_reducible assumption)
    | (with_reducible apply rowFailed_keeps)
    | (with_reducible refine Keeps.ite (fun _ => ?_) (fun _ => ?_))
    | (with_reducible refine Keeps.ite_fst (fun _ => ?_) (fun _ => ?_))
    | (with_reducible refine Keeps.ite_snd (fun _ => ?_) (fun _ => ?_))
    | (simp only [Keeps.mk_iff]; with_reducible refine KeepsParts.same (t := _) ?_ (by rfl) rfl rfl rfl))

theorem classify_keeps {gr : Group → Bool} {s0 : State} {s : State} {e : Err} (hk : Keeps gr s0 s) :
    Keeps gr s0 ((classify s e).1) := by
  unfold classify
  repeat' (first
    | (with_reducible assumption)
    | (with_reducible apply ledAdd_keeps)
    | (with_reducible apply permanent_keeps)
    | (with_reducible refine Keeps.ite (fun _ => ?_) (fun _ => ?_))
    | (with_reducible refine Keeps.ite_fst (fun _ => ?_) (fun _ => ?_))
    | (with_reducible refine Keeps.ite_snd (fun _ => ?_) (fun _ => ?_))
    | (simp only [Keeps.mk_iff]; with_reducible refine KeepsParts.same (t := _) ?_ (by rfl) rfl rfl rfl))

theorem postError_keeps {gr : Group → Bool} {s0 : State} {s : State} {status : Nat} {e : Err} (hk : Keeps gr s0 s) :
    Keeps gr s0 (postError s status e) := by
  unfold postError
  repeat' (first
    | (with_reducible assumption)
    | (with_reducible apply classify_keeps)
    | (with_reducible apply hdrKeep_keeps)
    | (with_reducible apply ev_keeps)
    | (with_reducible apply evPost_keeps)
    | (with_reducible refine Keeps.ite (fun _ => ?_) (fun _ => ?_))
    | (with_reducible refine Keeps.ite_fst (fun _ => ?_) (fun _ => ?_))
    | (with_reducible refine Keeps.ite_snd (fun _ => ?_) (fun _ => ?_))
    | (simp only [Keeps.mk_iff]; with_reducible refine KeepsParts.same (t := _) ?_ (by rfl) rfl rfl rfl))

theorem cmdUpd_keeps {gr : Group → Bool} {s0 : State} {s : State} {n : Nat} {f : Cmd → Cmd} (hk : Keeps gr s0 s) :
    Keeps gr s0 (cmdUpd s n f) := by
  unfold cmdUpd
  repeat' (first
    | (with_reducible assumption)
    | (with_reducible refine Keeps.ite (fun _ => ?_) (fun _ => ?_))
    | (with_reducible refine Keeps.ite_fst (fun _ => ?_) (fun _ => ?_))
    | (with_reducible refine Keeps.ite_snd (fun _ => ?_) (fun _ => ?_))
    | (simp only [Keeps.mk_iff]; with_reducible refine KeepsParts.same (t := _) ?_ (by rfl) rfl rfl rfl))

theorem cmdLine_keeps {gr : Group → Bool} {s0 : State} {s : State} {o : Op} {status : Nat} (hk : Keeps gr s0 s) :
    Keeps gr s0 (cmdLine s o status) := by
  unfold cmdLine
  repeat' (first
    | (with_reducible assumption)
    | (with_reducible apply cmdUpd_keeps))

theorem cmdEnd_keeps {gr : Group → Bool} {s0 : State} {s : State} {n status word2 aux : Nat} (hk : Keeps gr s0 s) :
    Keeps gr s0 (cmdEnd s n status word2 aux) := by
  unfold cmdEnd
  repeat' (first
    | (with_reducible assumption)
    | (with_reducible apply cmdUpd_keeps)
    | (with_reducible refine Keeps.ite (fun _ => ?_) (fun _ => ?_))
    | (with_reducible refine Keeps.ite_fst (fun _ => ?_) (fun _ => ?_))
    | (with_reducible refine Keeps.ite_snd (fun _ => ?_) (fun _ => ?_))
    | (simp only [Keeps.mk_iff]; with_reducible refine KeepsParts.same (t := _) ?_ (by rfl) rfl rfl rfl))

theorem cmdWrite_keeps {gr : Group → Bool} {s0 : State} {s : State} {n : Nat} (hk : Keeps gr s0 s) :
    Keeps gr s0 (cmdWrite s n) := by
  unfold cmdWrite
  repeat' (first
    | (with_reducible assumption)
    | (with_reducible apply cmdUpd_keeps))

end Sys2Proof.Machine
end

