-- ==== Sys2Proof/Laws/KeepsLasts.lean ====
section
/-! SUPPORT. What the operations of Machine/Lasts.lean keep (Laws/Keeps.lean). -/

namespace Sys2Proof.Machine

open Sys2Proof

set_option Elab.async false

set_option linter.unusedSimpArgs false

theorem lastPut_keeps {gr : Group → Bool} {s0 s : State} {i : Nat} {l : Last} (h : Keeps gr s0 s) : Keeps gr s0 (lastPut s i l) :=
  ⟨h.pending, h.out, h.csr, h.lines, fun w => SMap.wf_put _ _ (h.lasts w), h.sf, h.now, h.pins, h.life, h.time, h.key, h.plan, h.patch, h.packs, h.press, h.regs⟩

theorem lineUse_keeps {gr : Group → Bool} {s0 : State} {s : State} {line n : Nat} (hk : Keeps gr s0 s) :
    Keeps gr s0 (lineUse s line n) := by
  unfold lineUse
  repeat' (first
    | (with_reducible assumption)
    | (with_reducible apply arrayUse_keeps))

theorem ctxPut_keeps {gr : Group → Bool} {s0 : State} {s : State} {c : Nat} {x : Ctx} (hk : Keeps gr s0 s) :
    Keeps gr s0 (ctxPut s c x) := by
  unfold ctxPut
  repeat' (first
    | (with_reducible assumption)
    | (with_reducible refine Keeps.ite (fun _ => ?_) (fun _ => ?_))
    | (with_reducible refine Keeps.ite_fst (fun _ => ?_) (fun _ => ?_))
    | (with_reducible refine Keeps.ite_snd (fun _ => ?_) (fun _ => ?_))
    | (simp only [Keeps.mk_iff]; with_reducible refine KeepsParts.same (t := _) ?_ (by rfl) rfl rfl rfl))

theorem linePut_keeps {gr : Group → Bool} {s0 s : State} {k : Nat} {l : Line} (h : Keeps gr s0 s) : Keeps gr s0 (linePut s k l) :=
  ⟨h.pending, h.out, h.csr, fun w => SMap.wf_put _ _ (h.lines w), h.lasts, h.sf, h.now, h.pins, h.life, h.time, h.key, h.plan, h.patch, h.packs, h.press, h.regs⟩

theorem mheSet_keeps {gr : Group → Bool} {s0 : State} {s : State} {m : Mhe} (hk : Keeps gr s0 s) :
    Keeps gr s0 (mheSet s m) := by
  unfold mheSet
  repeat' (first
    | (with_reducible assumption)
    | (with_reducible refine Keeps.ite (fun _ => ?_) (fun _ => ?_))
    | (with_reducible refine Keeps.ite_fst (fun _ => ?_) (fun _ => ?_))
    | (with_reducible refine Keeps.ite_snd (fun _ => ?_) (fun _ => ?_))
    | (simp only [Keeps.mk_iff]; with_reducible refine KeepsParts.same (t := _) ?_ (by rfl) rfl rfl rfl))

theorem mheDel_keeps {gr : Group → Bool} {s0 : State} {s : State} {line : Nat} (hk : Keeps gr s0 s) :
    Keeps gr s0 (mheDel s line) := by
  unfold mheDel
  repeat' (first
    | (with_reducible assumption)
    | (with_reducible refine Keeps.ite (fun _ => ?_) (fun _ => ?_))
    | (with_reducible refine Keeps.ite_fst (fun _ => ?_) (fun _ => ?_))
    | (with_reducible refine Keeps.ite_snd (fun _ => ?_) (fun _ => ?_))
    | (simp only [Keeps.mk_iff]; with_reducible refine KeepsParts.same (t := _) ?_ (by rfl) rfl rfl rfl))

theorem openDel_keeps {gr : Group → Bool} {s0 : State} {s : State} {line : Nat} (hk : Keeps gr s0 s) :
    Keeps gr s0 (openDel s line) := by
  unfold openDel
  repeat' (first
    | (with_reducible assumption)
    | (with_reducible refine Keeps.ite (fun _ => ?_) (fun _ => ?_))
    | (with_reducible refine Keeps.ite_fst (fun _ => ?_) (fun _ => ?_))
    | (with_reducible refine Keeps.ite_snd (fun _ => ?_) (fun _ => ?_))
    | (simp only [Keeps.mk_iff]; with_reducible refine KeepsParts.same (t := _) ?_ (by rfl) rfl rfl rfl))

theorem openSet_keeps {gr : Group → Bool} {s0 : State} {s : State} {o : OpenLine} (hk : Keeps gr s0 s) :
    Keeps gr s0 (openSet s o) := by
  unfold openSet
  repeat' (first
    | (with_reducible assumption)
    | (with_reducible refine Keeps.ite (fun _ => ?_) (fun _ => ?_))
    | (with_reducible refine Keeps.ite_fst (fun _ => ?_) (fun _ => ?_))
    | (with_reducible refine Keeps.ite_snd (fun _ => ?_) (fun _ => ?_))
    | (simp only [Keeps.mk_iff]; with_reducible refine KeepsParts.same (t := _) ?_ (by rfl) rfl rfl rfl))

end Sys2Proof.Machine
end

