-- ==== Sys2Proof/Laws/KeepsTetherTx.lean ====
section
/-! SUPPORT. What the operations of Machine/TetherTx.lean keep (Laws/Keeps.lean). -/

namespace Sys2Proof.Machine

open Sys2Proof

set_option Elab.async false

set_option linter.unusedSimpArgs false

theorem flitSend_keeps {gr : Group → Bool} {s0 : State} {s : State} {kind seq : Nat} {nak : Bool} {start : Nat} {chunks : Bytes} (hk : Keeps gr s0 s) :
    Keeps gr s0 (flitSend s kind seq nak start chunks) := by
  unfold flitSend
  repeat' (first
    | (with_reducible assumption)
    | (with_reducible apply drive_keeps)
    | (with_reducible refine Keeps.ite (fun _ => ?_) (fun _ => ?_))
    | (with_reducible refine Keeps.ite_fst (fun _ => ?_) (fun _ => ?_))
    | (with_reducible refine Keeps.ite_snd (fun _ => ?_) (fun _ => ?_))
    | (simp only [Keeps.mk_iff]; with_reducible refine KeepsParts.same (t := _) ?_ (by rfl) rfl rfl rfl))

theorem nullFlit_keeps {gr : Group → Bool} {s0 : State} {s : State} {nak : Bool} (hk : Keeps gr s0 s) :
    Keeps gr s0 (nullFlit s nak) := by
  unfold nullFlit
  repeat' (first
    | (with_reducible assumption)
    | (with_reducible apply ev_keeps)
    | (with_reducible apply flitSend_keeps))

theorem dataSend_keeps {gr : Group → Bool} {s0 : State} {s : State} {r : Replay} (hk : Keeps gr s0 s) :
    Keeps gr s0 (dataSend s r) := by
  unfold dataSend
  repeat' (first
    | (with_reducible assumption)
    | (with_reducible apply activity_keeps)
    | (with_reducible apply ev_keeps)
    | (with_reducible apply flitSend_keeps))

theorem flitFirst_keeps {gr : Group → Bool} {s0 s t : State} (h : flitFirst s = some t) (hk : Keeps gr s0 s) : Keeps gr s0 t := by
  unfold flitFirst at h
  split at h
  · cases h
  · split at h
    · cases h
      apply dataSend_keeps
      simp only [Keeps.mk_iff]
      refine KeepsParts.same (t := _) ?_ (by rfl) rfl rfl rfl
      assumption
    · cases h

theorem ttTake_keeps {gr : Group → Bool} {s0 : State} {s : State} {t : TMsg} {r : List TMsg} (hk : Keeps gr s0 s) :
    Keeps gr s0 (ttTake s t r) := by
  unfold ttTake
  repeat' (first
    | (with_reducible assumption)
    | (with_reducible apply meter_keeps)
    | (with_reducible apply drive_keeps)
    | (with_reducible refine Keeps.ite (fun _ => ?_) (fun _ => ?_))
    | (with_reducible refine Keeps.ite_fst (fun _ => ?_) (fun _ => ?_))
    | (with_reducible refine Keeps.ite_snd (fun _ => ?_) (fun _ => ?_))
    | (simp only [Keeps.mk_iff]; with_reducible refine KeepsParts.same (t := _) ?_ (by rfl) rfl rfl rfl))

theorem ttPump_keeps {gr : Group → Bool} {s0 : State} {a0 : Nat} {s : State} (hk : Keeps gr s0 s) :
    Keeps gr s0 (ttPump a0 s) := by
  induction a0 generalizing s with
  | zero => exact hk
  | succ k ih =>
    unfold ttPump
    split
    · split
      · exact ih (ttTake_keeps hk)
      · split
        · rename_i hf
          exact ih (flitFirst_keeps hf hk)
        · exact hk
    · exact hk

theorem creditFlush_keeps {gr : Group → Bool} {s0 : State}  {a0 : Nat} {s : State} (hk : Keeps gr s0 s) :
    Keeps gr s0 (creditFlush  a0 s) := by
  induction a0 generalizing s with
  | zero =>
    unfold creditFlush
    repeat' (first
      | (with_reducible assumption))
  | succ k ih =>
    unfold creditFlush
    repeat' (first
      | (with_reducible assumption)
      | (with_reducible apply ih)
      | (with_reducible apply nullFlit_keeps)
      | (with_reducible refine Keeps.ite (fun _ => ?_) (fun _ => ?_)))

theorem ttFlush_keeps {gr : Group → Bool} {s0 : State} {s : State} (hk : Keeps gr s0 s) :
    Keeps gr s0 (ttFlush s) := by
  unfold ttFlush
  repeat' (first
    | (with_reducible assumption)
    | (with_reducible apply creditFlush_keeps)
    | (with_reducible apply ttPump_keeps))

theorem ttDrop_keeps {gr : Group → Bool} {s0 : State} {s : State} (hk : Keeps gr s0 s) :
    Keeps gr s0 (ttDrop s) := by
  unfold ttDrop
  repeat' (first
    | (with_reducible assumption)
    | (with_reducible apply evN_keeps)
    | (with_reducible refine Keeps.ite (fun _ => ?_) (fun _ => ?_))
    | (with_reducible refine Keeps.ite_fst (fun _ => ?_) (fun _ => ?_))
    | (with_reducible refine Keeps.ite_snd (fun _ => ?_) (fun _ => ?_))
    | (simp only [Keeps.mk_iff]; with_reducible refine KeepsParts.same (t := _) ?_ (by rfl) rfl rfl rfl))

theorem ttSend_keeps {gr : Group → Bool} {s0 : State} {s : State} {t : TMsg} (hk : Keeps gr s0 s) :
    Keeps gr s0 (ttSend s t) := by
  unfold ttSend
  repeat' (first
    | (with_reducible assumption)
    | (with_reducible apply ttFlush_keeps)
    | (with_reducible refine Keeps.ite (fun _ => ?_) (fun _ => ?_))
    | (with_reducible refine Keeps.ite_fst (fun _ => ?_) (fun _ => ?_))
    | (with_reducible refine Keeps.ite_snd (fun _ => ?_) (fun _ => ?_))
    | (simp only [Keeps.mk_iff]; with_reducible refine KeepsParts.same (t := _) ?_ (by rfl) rfl rfl rfl))

end Sys2Proof.Machine
end

