-- ==== Sys2Proof/Laws/KeepsGenLog.lean ====
section
/-! SUPPORT. What the operations of Machine/GenLog.lean keep (Laws/Keeps.lean). -/

namespace Sys2Proof.Machine

open Sys2Proof

set_option Elab.async false

set_option linter.unusedSimpArgs false

theorem logPut_keeps {gr : Group → Bool} {s0 : State} {s : State} {n : Nat} {r : LogRing} (hk : Keeps gr s0 s) :
    Keeps gr s0 (logPut s n r) := by
  unfold logPut
  repeat' (first
    | (with_reducible assumption)
    | (with_reducible refine Keeps.ite (fun _ => ?_) (fun _ => ?_))
    | (with_reducible refine Keeps.ite_fst (fun _ => ?_) (fun _ => ?_))
    | (with_reducible refine Keeps.ite_snd (fun _ => ?_) (fun _ => ?_))
    | (simp only [Keeps.mk_iff]; with_reducible refine KeepsParts.same (t := _) ?_ (by rfl) rfl rfl rfl))

theorem memBytes_keeps {gr : Group → Bool} {s0 : State} {w : MemWr} {qos : Nat} {a0 : Nat} {s : State} {a2 : Nat} {a3 : Bytes} (hk : Keeps gr s0 s) :
    Keeps gr s0 (memBytes w qos a0 s a2 a3) := by
  induction a0 generalizing s a2 a3 with
  | zero =>
    unfold memBytes
    repeat' (first
      | (with_reducible assumption))
  | succ k ih =>
    unfold memBytes
    repeat' (first
      | (with_reducible assumption)
      | (with_reducible apply ih)
      | (with_reducible apply memWrite_keeps)
      | (with_reducible refine Keeps.ite (fun _ => ?_) (fun _ => ?_)))

theorem logPlace_keeps {gr : Group → Bool} {s0 : State} {s : State} {n ctx gen : Nat} {bs : Bytes} {units : Nat} (hk : Keeps gr s0 s) :
    Keeps gr s0 (logPlace s n ctx gen bs units) := by
  unfold logPlace
  repeat' (first
    | (with_reducible assumption)
    | (with_reducible apply memBytes_keeps)
    | (with_reducible apply ev_keeps)
    | (with_reducible apply logPut_keeps))

theorem logFull_keeps {gr : Group → Bool} {s0 : State} {s : State} {n : Nat} (hk : Keeps gr s0 s) :
    Keeps gr s0 (logFull s n) := by
  unfold logFull
  repeat' (first
    | (with_reducible assumption)
    | (with_reducible apply ev_keeps)
    | (with_reducible apply postEvent_keeps)
    | (with_reducible apply logPut_keeps)
    | (with_reducible refine Keeps.ite (fun _ => ?_) (fun _ => ?_)))

theorem logWrite_keeps {gr : Group → Bool} {s0 : State} {s : State} {n ctx last : Nat} {image early : Bool} {mask : BitVec 8} {kind line gen : Nat} {data : Bytes} (hk : Keeps gr s0 s) :
    Keeps gr s0 ((logWrite s n ctx last image early mask kind line gen data).1) := by
  unfold logWrite
  repeat' (first
    | (with_reducible assumption)
    | (with_reducible apply logPlace_keeps)
    | (with_reducible apply logFull_keeps)
    | (with_reducible refine Keeps.ite (fun _ => ?_) (fun _ => ?_))
    | (with_reducible refine Keeps.ite_fst (fun _ => ?_) (fun _ => ?_)))

theorem drainSet_keeps {gr : Group → Bool} {s0 : State} {s : State} {d : Drain} (hk : Keeps gr s0 s) :
    Keeps gr s0 (drainSet s d) := by
  unfold drainSet
  repeat' (first
    | (with_reducible assumption)
    | (with_reducible refine Keeps.ite (fun _ => ?_) (fun _ => ?_))
    | (with_reducible refine Keeps.ite_fst (fun _ => ?_) (fun _ => ?_))
    | (with_reducible refine Keeps.ite_snd (fun _ => ?_) (fun _ => ?_))
    | (simp only [Keeps.mk_iff]; with_reducible refine KeepsParts.same (t := _) ?_ (by rfl) rfl rfl rfl))

theorem discardRecord_keeps {gr : Group → Bool} {s0 : State} {s : State} {ctx : Nat} {gen : BitVec 32} (hk : Keeps gr s0 s) :
    Keeps gr s0 (discardRecord s ctx gen) := by
  unfold discardRecord
  repeat' (first
    | (with_reducible assumption)
    | (with_reducible apply ev_keeps)
    | (with_reducible refine Keeps.ite (fun _ => ?_) (fun _ => ?_))
    | (with_reducible refine Keeps.ite_fst (fun _ => ?_) (fun _ => ?_))
    | (with_reducible refine Keeps.ite_snd (fun _ => ?_) (fun _ => ?_))
    | (simp only [Keeps.mk_iff]; with_reducible refine KeepsParts.same (t := _) ?_ (by rfl) rfl rfl rfl))

theorem logRecord_keeps {gr : Group → Bool} {s0 : State} {s : State} {ctx : Nat} {gen : BitVec 32} {last : Nat} {image early : Bool} {mask : BitVec 8} {kind line : Nat} {d : LineData} (hk : Keeps gr s0 s) :
    Keeps gr s0 ((logRecord s ctx gen last image early mask kind line d).1) := by
  unfold logRecord
  repeat' (first
    | (with_reducible assumption)
    | (with_reducible apply discardRecord_keeps)
    | (with_reducible apply logWrite_keeps)
    | (with_reducible apply ttSend_keeps)
    | (with_reducible refine Keeps.ite (fun _ => ?_) (fun _ => ?_))
    | (with_reducible refine Keeps.ite_fst (fun _ => ?_) (fun _ => ?_)))

theorem logKeep_keeps {gr : Group → Bool} {s0 : State} {s : State} {b : LogBuf} (hk : Keeps gr s0 s) :
    Keeps gr s0 ((logKeep s b).1) := by
  unfold logKeep
  repeat' (first
    | (with_reducible assumption)
    | (with_reducible refine Keeps.ite (fun _ => ?_) (fun _ => ?_))
    | (with_reducible refine Keeps.ite_fst (fun _ => ?_) (fun _ => ?_))
    | (with_reducible refine Keeps.ite_snd (fun _ => ?_) (fun _ => ?_))
    | (simp only [Keeps.mk_iff]; with_reducible refine KeepsParts.same (t := _) ?_ (by rfl) rfl rfl rfl))

theorem logLine_keeps {gr : Group → Bool} {s0 : State} {s : State} {k : Nat} {l : Line} {data : LineData} {early keep : Bool} (hk : Keeps gr s0 s) :
    Keeps gr s0 ((logLine s k l data early keep).1) := by
  unfold logLine
  repeat' (first
    | (with_reducible assumption)
    | (with_reducible apply logRecord_keeps)
    | (with_reducible apply logKeep_keeps)
    | (with_reducible apply linePut_keeps)
    | (with_reducible apply drainSet_keeps)
    | (with_reducible refine Keeps.ite (fun _ => ?_) (fun _ => ?_))
    | (with_reducible refine Keeps.ite_fst (fun _ => ?_) (fun _ => ?_))
    | (with_reducible refine Keeps.ite_snd (fun _ => ?_) (fun _ => ?_))
    | (simp only [Keeps.mk_iff]; with_reducible refine KeepsParts.same (t := _) ?_ (by rfl) rfl rfl rfl)
    | (with_reducible refine Keeps.of_fst (y := (_, _)) (x := logRecord _ _ _ _ _ _ _ _ _ _) ?_ (by assumption))
    | (with_reducible refine Keeps.of_fst (y := (_, _)) (x := logKeep _ _) ?_ (by assumption))
    | dsimp only
    | split)

theorem carryLine_keeps {gr : Group → Bool} {s0 : State} {s : State} {k : Nat} {l : Line} (hk : Keeps gr s0 s) :
    Keeps gr s0 (carryLine s k l) := by
  unfold carryLine
  repeat' (first
    | (with_reducible assumption)
    | (with_reducible apply linePut_keeps)
    | (with_reducible apply ev_keeps)
    | (with_reducible apply drainSet_keeps)
    | (with_reducible refine Keeps.ite (fun _ => ?_) (fun _ => ?_))
    | (with_reducible refine Keeps.ite_fst (fun _ => ?_) (fun _ => ?_))
    | (with_reducible refine Keeps.ite_snd (fun _ => ?_) (fun _ => ?_))
    | dsimp only
    | split)

theorem carryAll_keeps {gr : Group → Bool} {s0 : State} {s : State} {k : Nat} (hk : Keeps gr s0 s) :
    Keeps gr s0 (carryAll s k) := by
  unfold carryAll
  repeat' (first
    | (with_reducible assumption)
    | (with_reducible apply linePut_keeps)
    | (with_reducible apply evN_keeps)
    | (with_reducible refine Keeps.ite (fun _ => ?_) (fun _ => ?_))
    | (with_reducible refine Keeps.ite_fst (fun _ => ?_) (fun _ => ?_))
    | (with_reducible refine Keeps.ite_snd (fun _ => ?_) (fun _ => ?_))
    | (simp only [Keeps.mk_iff]; with_reducible refine KeepsParts.same (t := _) ?_ (by rfl) rfl rfl rfl))

theorem clearLags_keeps {gr : Group → Bool} {s0 : State} {s : State} {ctx gen : Nat} (hk : Keeps gr s0 s) :
    Keeps gr s0 (clearLags s ctx gen) := by
  unfold clearLags
  repeat' (first
    | (with_reducible assumption)
    | (with_reducible apply linePut_keeps)
    | (with_reducible refine Keeps.ite (fun _ => ?_) (fun _ => ?_))
    | (with_reducible refine Keeps.ite_fst (fun _ => ?_) (fun _ => ?_))
    | (with_reducible refine Keeps.ite_snd (fun _ => ?_) (fun _ => ?_))
    | (simp only [Keeps.mk_iff]; with_reducible refine KeepsParts.same (t := _) ?_ (by rfl) rfl rfl rfl)
    | (with_reducible refine Keeps.foldl _ _ ?_ (fun t a hk => ?_)))

end Sys2Proof.Machine
end

