-- ==== Sys2Proof/Laws/KeepsPlanRec.lean ====
section
/-! SUPPORT. What the operations of Machine/PlanRec.lean keep (Laws/Keeps.lean). -/

namespace Sys2Proof.Machine

open Sys2Proof

set_option Elab.async false

set_option linter.unusedSimpArgs false

theorem writePass_keeps {gr : Group → Bool} {s0 : State} {s : State} {r : PassRec} (hk : Keeps gr s0 s) :
    Keeps gr s0 (writePass s r) := by
  unfold writePass
  repeat' (first
    | (with_reducible assumption)
    | (with_reducible apply hstWrite_keeps)
    | (with_reducible refine Keeps.ite (fun _ => ?_) (fun _ => ?_))
    | (with_reducible refine Keeps.ite_fst (fun _ => ?_) (fun _ => ?_))
    | (with_reducible refine Keeps.ite_snd (fun _ => ?_) (fun _ => ?_))
    | (simp only [Keeps.mk_iff]; with_reducible refine KeepsParts.same (t := _) ?_ (by rfl) rfl rfl rfl))

theorem passRecord_keeps {gr : Group → Bool} {s0 : State} {s : State} {r : PassRec} {hand : Bool} (hk : Keeps gr s0 s) :
    Keeps gr s0 (passRecord s r hand) := by
  unfold passRecord
  repeat' (first
    | (with_reducible assumption)
    | (with_reducible apply writePass_keeps)
    | (with_reducible refine Keeps.ite (fun _ => ?_) (fun _ => ?_))
    | (with_reducible refine Keeps.ite_fst (fun _ => ?_) (fun _ => ?_))
    | (with_reducible refine Keeps.ite_snd (fun _ => ?_) (fun _ => ?_))
    | (simp only [Keeps.mk_iff]; with_reducible refine KeepsParts.same (t := _) ?_ (by rfl) rfl rfl rfl)
    | dsimp only
    | split)

theorem passClose_keeps {gr : Group → Bool} {s0 : State} {s : State} {aborted last hand : Bool} (hk : Keeps gr s0 s) :
    Keeps gr s0 (passClose s aborted last hand) := by
  unfold passClose
  repeat' (first
    | (with_reducible assumption)
    | (with_reducible apply drawFree_keeps)
    | (with_reducible apply passRecord_keeps)
    | (with_reducible refine Keeps.ite (fun _ => ?_) (fun _ => ?_))
    | (with_reducible refine Keeps.ite_fst (fun _ => ?_) (fun _ => ?_))
    | (with_reducible refine Keeps.ite_snd (fun _ => ?_) (fun _ => ?_))
    | (simp only [Keeps.mk_iff]; with_reducible refine KeepsParts.same (t := _) ?_ (by rfl) rfl rfl rfl))

theorem switchDrop_keeps {gr : Group → Bool} {s0 : State} {s : State} (hk : Keeps gr s0 s) :
    Keeps gr s0 (switchDrop s) := by
  unfold switchDrop
  repeat' (first
    | (with_reducible assumption)
    | (with_reducible apply cmdEnd_keeps)
    | (with_reducible refine Keeps.ite (fun _ => ?_) (fun _ => ?_))
    | (with_reducible refine Keeps.ite_fst (fun _ => ?_) (fun _ => ?_))
    | (with_reducible refine Keeps.ite_snd (fun _ => ?_) (fun _ => ?_))
    | (simp only [Keeps.mk_iff]; with_reducible refine KeepsParts.same (t := _) ?_ (by rfl) rfl rfl rfl)
    | dsimp only
    | split)

theorem planIdle_keeps {gr : Group → Bool} {s0 : State} {s : State} {reason : Nat} (hk : Keeps gr s0 s) :
    Keeps gr s0 (planIdle s reason) := by
  unfold planIdle
  repeat' (first
    | (with_reducible assumption)
    | (with_reducible apply writePass_keeps)
    | (with_reducible apply switchDrop_keeps)
    | (with_reducible apply postEvent_keeps)
    | (with_reducible apply cmdEnd_keeps)
    | (with_reducible refine Keeps.ite (fun _ => ?_) (fun _ => ?_))
    | (with_reducible refine Keeps.ite_fst (fun _ => ?_) (fun _ => ?_))
    | (with_reducible refine Keeps.ite_snd (fun _ => ?_) (fun _ => ?_))
    | (simp only [Keeps.mk_iff]; with_reducible refine KeepsParts.same (t := _) ?_ (by rfl) rfl rfl rfl)
    | (with_reducible refine Keeps.foldl _ _ ?_ (fun t a hk => ?_))
    | (with_reducible refine Keeps.foldl_fst _ _ _ ?_ (fun x a hk => ?_))
    | (with_reducible refine Keeps.foldl_snd _ _ _ ?_ (fun x a hk => ?_))
    | dsimp only
    | split)

theorem planAbort_keeps {gr : Group → Bool} {s0 : State} {s : State} {reason : Nat} (hk : Keeps gr s0 s) :
    Keeps gr s0 (planAbort s reason) := by
  unfold planAbort
  repeat' (first
    | (with_reducible assumption)
    | (with_reducible apply switchDrop_keeps)
    | (with_reducible apply planIdle_keeps)
    | (with_reducible refine Keeps.ite (fun _ => ?_) (fun _ => ?_))
    | (with_reducible refine Keeps.ite_fst (fun _ => ?_) (fun _ => ?_))
    | (with_reducible refine Keeps.ite_snd (fun _ => ?_) (fun _ => ?_))
    | (simp only [Keeps.mk_iff]; with_reducible refine KeepsParts.same (t := _) ?_ (by rfl) rfl rfl rfl))

theorem planStop_keeps {gr : Group → Bool} {s0 : State} {s : State} (hk : Keeps gr s0 s) :
    Keeps gr s0 (planStop s) := by
  unfold planStop
  repeat' (first
    | (with_reducible assumption)
    | (with_reducible apply planAbort_keeps)
    | (with_reducible refine Keeps.ite (fun _ => ?_) (fun _ => ?_))
    | (with_reducible refine Keeps.ite_fst (fun _ => ?_) (fun _ => ?_))
    | (with_reducible refine Keeps.ite_snd (fun _ => ?_) (fun _ => ?_))
    | (simp only [Keeps.mk_iff]; with_reducible refine KeepsParts.same (t := _) ?_ (by rfl) rfl rfl rfl))

end Sys2Proof.Machine
end

