-- ==== Sys2Proof/Laws/KeepsCheck.lean ====
section
/-! SUPPORT. What the operations of Machine/Check.lean keep (Laws/Keeps.lean). -/

namespace Sys2Proof.Machine

open Sys2Proof

set_option Elab.async false

set_option linter.unusedSimpArgs false

theorem flipFired_keeps {gr : Group → Bool} {s0 : State} {s : State} (hk : Keeps gr s0 s) :
    Keeps gr s0 (flipFired s) := by
  unfold flipFired
  repeat' (first
    | (with_reducible assumption)
    | (with_reducible apply csrPut_keeps)
    | exact .inr (by decide))

theorem storeLine_keeps {gr : Group → Bool} {s0 : State} {s : State} {k : Nat} {l : Line} {m : LineMask} {tagW : Bool} (hk : Keeps gr s0 s) :
    Keeps gr s0 (storeLine s k l m tagW) := by
  unfold storeLine
  repeat' (first
    | (with_reducible assumption)
    | (with_reducible apply flipFired_keeps)
    | (with_reducible apply linePut_keeps)
    | (with_reducible refine Keeps.ite (fun _ => ?_) (fun _ => ?_))
    | (with_reducible refine Keeps.ite_fst (fun _ => ?_) (fun _ => ?_))
    | (with_reducible refine Keeps.ite_snd (fun _ => ?_) (fun _ => ?_))
    | dsimp only
    | split)

theorem lineDrop_keeps {gr : Group → Bool} {s0 : State} {s : State} {k : Nat} (hk : Keeps gr s0 s) :
    Keeps gr s0 (lineDrop s k) := by
  unfold lineDrop
  repeat' (first
    | (with_reducible assumption)
    | (with_reducible apply storeLine_keeps))

theorem lastFail_keeps {gr : Group → Bool} {s0 s : State} {i : Nat} {e : Err} (h : Keeps gr s0 s) : Keeps gr s0 (lastFail s i e) := by
  unfold lastFail
  refine postError_keeps ?_
  simp only [Keeps.mk_iff]
  refine .gen (Keeps.foldl _ _ h fun t k hk => Keeps.ite (fun _ => storeLine_keeps hk) (fun _ => lineDrop_keeps hk)) (e1 := rfl)
    (e3 := List.prefix_refl _) (e7 := id) (e8 := id) (e9 := fun w => SMap.wf_put _ _ w) (e10 := id) (e2 := fun _ => rfl)
    (e4 := fun _ => rfl) (e5 := fun _ => ⟨rfl, rfl, rfl, rfl, rfl⟩) (e11 := fun _ => rfl) (e12 := fun _ => ⟨rfl, rfl, rfl⟩)
    (e15 := fun _ => ⟨rfl, rfl⟩) (e17 := fun _ => ⟨rfl, rfl⟩) (e19 := fun _ => rfl) (e20 := fun _ => rfl) (e21 := fun _ _ _ => rfl)

theorem syncRelease_keeps {gr : Group → Bool} {s0 : State} {s : State} (hk : Keeps gr s0 s) :
    Keeps gr s0 (syncRelease s) := by
  unfold syncRelease
  repeat' (first
    | (with_reducible assumption)
    | (with_reducible refine Keeps.ite (fun _ => ?_) (fun _ => ?_))
    | (with_reducible refine Keeps.ite_fst (fun _ => ?_) (fun _ => ?_))
    | (with_reducible refine Keeps.ite_snd (fun _ => ?_) (fun _ => ?_))
    | (simp only [Keeps.mk_iff]; with_reducible refine KeepsParts.same (t := _) ?_ (by rfl) rfl rfl rfl))

theorem goSolo_keeps {gr : Group → Bool} {s0 : State} {s : State} (hk : Keeps gr s0 s) :
    Keeps gr s0 (goSolo s) := by
  unfold goSolo
  repeat' (first
    | (with_reducible assumption)
    | (with_reducible apply postEvent_keeps)
    | (with_reducible apply clearLags_keeps)
    | (with_reducible apply stage_keeps)
    | (with_reducible apply lastFail_keeps)
    | (with_reducible apply syncRelease_keeps)
    | (with_reducible refine Keeps.ite (fun _ => ?_) (fun _ => ?_))
    | (with_reducible refine Keeps.ite_fst (fun _ => ?_) (fun _ => ?_))
    | (with_reducible refine Keeps.ite_snd (fun _ => ?_) (fun _ => ?_))
    | (simp only [Keeps.mk_iff]; with_reducible refine KeepsParts.same (t := _) ?_ (by rfl) rfl rfl rfl)
    | (with_reducible refine Keeps.foldl _ _ ?_ (fun t a hk => ?_)))

theorem chargeHold_keeps {gr : Group → Bool} {s0 : State} {s : State} (hk : Keeps gr s0 s) :
    Keeps gr s0 (chargeHold s) := by
  unfold chargeHold
  repeat' (first
    | (with_reducible assumption)
    | (with_reducible apply ev_keeps)
    | (with_reducible refine Keeps.ite (fun _ => ?_) (fun _ => ?_))
    | (with_reducible refine Keeps.ite_fst (fun _ => ?_) (fun _ => ?_))
    | (with_reducible refine Keeps.ite_snd (fun _ => ?_) (fun _ => ?_))
    | (simp only [Keeps.mk_iff]; with_reducible refine KeepsParts.same (t := _) ?_ (by rfl) rfl rfl rfl))

theorem stageDrop_keeps {gr : Group → Bool} {s0 : State} {s : State} (hk : Keeps gr s0 s) :
    Keeps gr s0 (stageDrop s) := by
  unfold stageDrop
  repeat' (first
    | (with_reducible assumption)
    | (with_reducible apply ev_keeps)
    | (with_reducible refine Keeps.ite (fun _ => ?_) (fun _ => ?_))
    | (with_reducible refine Keeps.ite_fst (fun _ => ?_) (fun _ => ?_))
    | (with_reducible refine Keeps.ite_snd (fun _ => ?_) (fun _ => ?_))
    | (simp only [Keeps.mk_iff]; with_reducible refine KeepsParts.same (t := _) ?_ (by rfl) rfl rfl rfl))

/-- What waits on the tether is dropped without a change of the fence, of the reason or of the power state. -/

theorem ttDrop_hd (s : State) : (ttDrop s).hd = s.hd ∧ (ttDrop s).pw = s.pw := by
  unfold ttDrop
  have h : ∀ n k, (evN s n k).hd = s.hd ∧ (evN s n k).pw = s.pw := fun n k => by
    unfold evN
    split
    · exact ⟨rfl, rfl⟩
    · dsimp only
      generalize evCtrAdd _ _ _ _ _ = x
      obtain ⟨c, w⟩ := x
      dsimp only
      split <;> exact ⟨rfl, rfl⟩
  exact h _ _

theorem fence_keeps {gr : Group → Bool} {s0 s : State} {reason : Nat} (hk : Keeps gr s0 s) : Keeps gr s0 (fence s reason) := by
  unfold fence
  refine Keeps.ite (fun _ => hk) (fun hn => ?_)
  refine postError_keeps (planAbort_keeps ?_)
  have h : Keeps gr s0 (if s.tt.link = 0 then s else goSolo (ttDrop s)) := Keeps.ite (fun _ => hk) (fun _ => goSolo_keeps (ttDrop_keeps hk))
  refine ⟨h.pending, h.out, h.csr, h.lines, h.lasts, h.sf, h.now, h.pins, fun hb hp => ?_, h.time, h.key, h.plan, h.patch, h.packs,
    h.press, h.regs⟩
  have hf : s.hd.fenced = false ∧ s.pw.rstN = true := by simpa using hn
  have hr : s.pw.rstN = s0.pw.rstN := by simpa [pinsOf] using congrArg Power.rstN (hk.pins hp)
  obtain ⟨hf, hs⟩ := hf
  refine .inr (.inl ⟨?_, hr ▸ hs, rfl, rfl, rfl⟩)
  rcases hk.life hb hp with e | e | e
  · have := congrArg (fun x => x.2.2.2.1) e
    simpa [lifeOf, hf] using this.symm
  · exact e.1
  · rw [e.1, hf]

theorem unprotect_keeps {gr : Group → Bool} {s0 : State} {s : State} {i : Nat} (hk : Keeps gr s0 s) :
    Keeps gr s0 (unprotect s i) := by
  unfold unprotect
  repeat' (first
    | (with_reducible assumption)
    | (with_reducible apply postEvent_keeps)
    | (with_reducible apply lastPut_keeps)
    | (with_reducible refine Keeps.ite (fun _ => ?_) (fun _ => ?_)))

theorem mirrorDrop_keeps {gr : Group → Bool} {s0 : State} {s : State} {k : Nat} {x : Line} {detector : Nat} (hk : Keeps gr s0 s) :
    Keeps gr s0 (mirrorDrop s k x detector) := by
  unfold mirrorDrop
  repeat' (first
    | (with_reducible assumption)
    | (with_reducible apply postError_keeps)
    | (with_reducible refine Keeps.ite (fun _ => ?_) (fun _ => ?_))
    | (with_reducible refine Keeps.ite_fst (fun _ => ?_) (fun _ => ?_))
    | (with_reducible refine Keeps.ite_snd (fun _ => ?_) (fun _ => ?_))
    | (simp only [Keeps.mk_iff]; with_reducible refine KeepsParts.same (t := _) ?_ (by rfl) rfl rfl rfl))

theorem tagRebuilt_keeps {gr : Group → Bool} {s0 : State} {s : State} {k f : Nat} (hk : Keeps gr s0 s) :
    Keeps gr s0 (tagRebuilt s k f) := by
  unfold tagRebuilt
  repeat' (first
    | (with_reducible assumption)
    | (with_reducible apply linePut_keeps)
    | (with_reducible apply carryAll_keeps)
    | (with_reducible refine Keeps.ite (fun _ => ?_) (fun _ => ?_))
    | (with_reducible refine Keeps.ite_fst (fun _ => ?_) (fun _ => ?_))
    | (with_reducible refine Keeps.ite_snd (fun _ => ?_) (fun _ => ?_))
    | dsimp only
    | split)

theorem tagCheck_keeps {gr : Group → Bool} {s0 : State} {s : State} {k detector : Nat} (hk : Keeps gr s0 s) :
    Keeps gr s0 (tagCheck s k detector) := by
  unfold tagCheck
  repeat' (first
    | (with_reducible assumption)
    | (with_reducible apply fence_keeps)
    | (with_reducible apply linePut_keeps)
    | (with_reducible apply lineDrop_keeps)
    | (with_reducible apply postError_keeps)
    | (with_reducible apply tagRebuilt_keeps)
    | (with_reducible refine Keeps.ite (fun _ => ?_) (fun _ => ?_))
    | (with_reducible refine Keeps.ite_fst (fun _ => ?_) (fun _ => ?_))
    | (with_reducible refine Keeps.ite_snd (fun _ => ?_) (fun _ => ?_))
    | (with_reducible refine Keeps.foldl _ _ ?_ (fun t a hk => ?_)))

theorem tagCheckSet_keeps {gr : Group → Bool} {s0 : State} {s : State} {set detector : Nat} (hk : Keeps gr s0 s) :
    Keeps gr s0 (tagCheckSet s set detector) := by
  unfold tagCheckSet
  repeat' (first
    | (with_reducible assumption)
    | (with_reducible apply tagCheck_keeps)
    | (with_reducible refine Keeps.ite (fun _ => ?_) (fun _ => ?_))
    | (with_reducible refine Keeps.ite_fst (fun _ => ?_) (fun _ => ?_))
    | (with_reducible refine Keeps.ite_snd (fun _ => ?_) (fun _ => ?_))
    | (with_reducible refine Keeps.foldl _ _ ?_ (fun t a hk => ?_)))

theorem repairAsk_keeps {gr : Group → Bool} {s0 : State} {s : State} {k : Nat} {rollback : Bool} {e : Err} (hk : Keeps gr s0 s) :
    Keeps gr s0 (repairAsk s k rollback e) := by
  unfold repairAsk
  repeat' (first
    | (with_reducible assumption)
    | (with_reducible apply ttSend_keeps)
    | (with_reducible refine Keeps.ite (fun _ => ?_) (fun _ => ?_))
    | (with_reducible refine Keeps.ite_fst (fun _ => ?_) (fun _ => ?_))
    | (with_reducible refine Keeps.ite_snd (fun _ => ?_) (fun _ => ?_))
    | (simp only [Keeps.mk_iff]; with_reducible refine KeepsParts.same (t := _) ?_ (by rfl) rfl rfl rfl))

theorem rollbackStart_keeps {gr : Group → Bool} {s0 : State} {s : State} {i : Nat} {e : Err} (hk : Keeps gr s0 s) :
    Keeps gr s0 (rollbackStart s i e) := by
  unfold rollbackStart
  repeat' (first
    | (with_reducible assumption)
    | (with_reducible apply repairAsk_keeps)
    | (with_reducible refine Keeps.ite (fun _ => ?_) (fun _ => ?_))
    | (with_reducible refine Keeps.ite_fst (fun _ => ?_) (fun _ => ?_))
    | (with_reducible refine Keeps.ite_snd (fun _ => ?_) (fun _ => ?_))
    | (with_reducible refine Keeps.foldl _ _ ?_ (fun t a hk => ?_)))

theorem recomputePending_keeps {gr : Group → Bool} {s0 : State} {s : State} {k : Nat} {l : Line} {e : Err} (hk : Keeps gr s0 s) :
    Keeps gr s0 (recomputePending s k l e) := by
  unfold recomputePending
  repeat' (first
    | (with_reducible assumption)
    | (with_reducible apply lastFail_keeps)
    | (with_reducible apply storeLine_keeps)
    | (with_reducible apply postError_keeps)
    | (with_reducible refine Keeps.ite (fun _ => ?_) (fun _ => ?_))
    | (with_reducible refine Keeps.ite_fst (fun _ => ?_) (fun _ => ?_))
    | (with_reducible refine Keeps.ite_snd (fun _ => ?_) (fun _ => ?_))
    | (simp only [Keeps.mk_iff]; with_reducible refine KeepsParts.same (t := _) ?_ (by rfl) rfl rfl rfl))

theorem repairLine_keeps {gr : Group → Bool} {s0 : State} {s : State} {k : Nat} {held : Bool} {unit sectors detector : Nat} (hk : Keeps gr s0 s) :
    Keeps gr s0 (repairLine s k held unit sectors detector) := by
  unfold repairLine
  repeat' (first
    | (with_reducible assumption)
    | (with_reducible apply postError_keeps)
    | (with_reducible apply storeLine_keeps)
    | (with_reducible apply lineDrop_keeps)
    | (with_reducible apply repairAsk_keeps)
    | (with_reducible apply rollbackStart_keeps)
    | (with_reducible apply recomputePending_keeps)
    | (with_reducible apply lastFail_keeps)
    | (with_reducible refine Keeps.ite (fun _ => ?_) (fun _ => ?_)))

theorem copyAsk_keeps {gr : Group → Bool} {s0 : State} {s : State} {line i : Nat} {e : Err} (hk : Keeps gr s0 s) :
    Keeps gr s0 (copyAsk s line i e) := by
  unfold copyAsk
  repeat' (first
    | (with_reducible assumption)
    | (with_reducible apply ttSend_keeps)
    | (with_reducible refine Keeps.ite (fun _ => ?_) (fun _ => ?_))
    | (with_reducible refine Keeps.ite_fst (fun _ => ?_) (fun _ => ?_))
    | (with_reducible refine Keeps.ite_snd (fun _ => ?_) (fun _ => ?_))
    | (simp only [Keeps.mk_iff]; with_reducible refine KeepsParts.same (t := _) ?_ (by rfl) rfl rfl rfl))

theorem copiesDrop_keeps {gr : Group → Bool} {s0 : State} {s : State} {line : Nat} (hk : Keeps gr s0 s) :
    Keeps gr s0 (copiesDrop s line) := by
  unfold copiesDrop
  repeat' (first
    | (with_reducible assumption)
    | (with_reducible refine Keeps.ite (fun _ => ?_) (fun _ => ?_))
    | (with_reducible refine Keeps.ite_fst (fun _ => ?_) (fun _ => ?_))
    | (with_reducible refine Keeps.ite_snd (fun _ => ?_) (fun _ => ?_))
    | (simp only [Keeps.mk_iff]; with_reducible refine KeepsParts.same (t := _) ?_ (by rfl) rfl rfl rfl))

theorem repairCopy_keeps {gr : Group → Bool} {s0 : State} {s : State} {line i : Nat} {bad : LineMask} (hk : Keeps gr s0 s) :
    Keeps gr s0 (repairCopy s line i bad) := by
  unfold repairCopy
  repeat' (first
    | (with_reducible assumption)
    | (with_reducible apply copyAsk_keeps)
    | (with_reducible apply rollbackStart_keeps)
    | (with_reducible apply copiesDrop_keeps)
    | (with_reducible apply recomputePending_keeps)
    | (with_reducible apply postError_keeps)
    | (with_reducible apply lastFail_keeps)
    | (with_reducible refine Keeps.ite (fun _ => ?_) (fun _ => ?_))
    | (with_reducible refine Keeps.ite_fst (fun _ => ?_) (fun _ => ?_))
    | (with_reducible refine Keeps.ite_snd (fun _ => ?_) (fun _ => ?_))
    | (simp only [Keeps.mk_iff]; with_reducible refine KeepsParts.same (t := _) ?_ (by rfl) rfl rfl rfl)
    | dsimp only
    | split)

theorem mergedLost_keeps {gr : Group → Bool} {s0 : State} {s : State} {line i : Nat} {sectors : Nat} (hk : Keeps gr s0 s) :
    Keeps gr s0 (mergedLost s line i sectors) := by
  unfold mergedLost
  repeat' (first
    | (with_reducible assumption)
    | (with_reducible apply lastFail_keeps))

theorem crcFieldCheck_keeps {gr : Group → Bool} {s0 : State} {s : State} {k detector : Nat} (hk : Keeps gr s0 s) :
    Keeps gr s0 (crcFieldCheck s k detector) := by
  unfold crcFieldCheck
  repeat' (first
    | (with_reducible assumption)
    | (with_reducible apply postError_keeps)
    | (with_reducible apply storeLine_keeps)
    | (with_reducible refine Keeps.ite (fun _ => ?_) (fun _ => ?_)))

theorem checkLine_keeps {gr : Group → Bool} {s0 : State} {s : State} {k : Nat} {m : LineMask} {full : Bool} {detector : Nat} (hk : Keeps gr s0 s) :
    Keeps gr s0 ((checkLine s k m full detector).1) := by
  unfold checkLine
  repeat' (first
    | (with_reducible assumption)
    | (with_reducible apply crcFieldCheck_keeps)
    | (with_reducible apply repairLine_keeps)
    | (with_reducible refine Keeps.ite (fun _ => ?_) (fun _ => ?_))
    | (with_reducible refine Keeps.ite_fst (fun _ => ?_) (fun _ => ?_)))

end Sys2Proof.Machine
end

