-- ==== Sys2Proof/Laws/KeepsMeter.lean ====
section
/-! SUPPORT. What the operations of Machine/Meter.lean keep (Laws/Keeps.lean). -/

namespace Sys2Proof.Machine

open Sys2Proof

set_option Elab.async false

set_option linter.unusedSimpArgs false

theorem windowEnd_keeps {gr : Group → Bool} {s0 : State} {s : State} (hk : Keeps gr s0 s) :
    Keeps gr s0 (windowEnd s) := by
  unfold windowEnd
  repeat' (first
    | (with_reducible assumption)
    | (with_reducible refine Keeps.ite (fun _ => ?_) (fun _ => ?_))
    | (with_reducible refine Keeps.ite_fst (fun _ => ?_) (fun _ => ?_))
    | (with_reducible refine Keeps.ite_snd (fun _ => ?_) (fun _ => ?_))
    | (simp only [Keeps.mk_iff]; with_reducible refine KeepsParts.same (t := _) ?_ (by rfl) rfl rfl rfl)
    | (with_reducible refine Keeps.foldl _ _ ?_ (fun t a hk => ?_))
    | (with_reducible refine Keeps.foldl_fst _ _ _ ?_ (fun x a hk => ?_))
    | (with_reducible refine Keeps.foldl_snd _ _ _ ?_ (fun x a hk => ?_))
    | dsimp only
    | split)

theorem calibrate_keeps {gr : Group → Bool} {s0 : State} {s : State} {g k : Nat} (hk : Keeps gr s0 s) :
    Keeps gr s0 (calibrate s g k) := by
  unfold calibrate
  repeat' (first
    | (with_reducible assumption)
    | (with_reducible apply ev_keeps)
    | (with_reducible apply csrPut_keeps)
    | exact .inr (by decide)
    | (with_reducible refine Keeps.ite (fun _ => ?_) (fun _ => ?_)))

theorem regReading_keeps {gr : Group → Bool} {s0 : State} {s : State} {rail k32 uj : Nat} (hk : Keeps gr s0 s) :
    Keeps gr s0 (regReading s rail k32 uj) := by
  unfold regReading
  repeat' (first
    | (with_reducible assumption)
    | (with_reducible apply ev_keeps)
    | (with_reducible apply calibrate_keeps)
    | (with_reducible refine Keeps.ite (fun _ => ?_) (fun _ => ?_))
    | (with_reducible refine Keeps.ite_fst (fun _ => ?_) (fun _ => ?_))
    | (with_reducible refine Keeps.ite_snd (fun _ => ?_) (fun _ => ?_))
    | (simp only [Keeps.mk_iff]; with_reducible refine KeepsParts.same (t := _) ?_ (by rfl) rfl rfl rfl))

theorem ppsRegained_keeps {gr : Group → Bool} {s0 : State} {s : State} {tsBefore e : Nat} (hk : Keeps gr s0 s) (hbTime : gr .time = false) :
    Keeps gr s0 (ppsRegained s tsBefore e) := by
  unfold ppsRegained
  repeat' (first
    | (with_reducible assumption)
    | (with_reducible apply postEvent_keeps)
    | (with_reducible refine Keeps.ite (fun _ => ?_) (fun _ => ?_))
    | (with_reducible refine Keeps.ite_fst (fun _ => ?_) (fun _ => ?_))
    | (with_reducible refine Keeps.ite_snd (fun _ => ?_) (fun _ => ?_))
    | (simp only [Keeps.mk_iff]; refine KeepsParts.freed (t := _) ?_))

theorem edgeAccepted_keeps {gr : Group → Bool} {s0 : State} {s : State} {e : Nat} (hk : Keeps gr s0 s) (hbTime : gr .time = false) :
    Keeps gr s0 (edgeAccepted s e) := by
  unfold edgeAccepted
  repeat' (first
    | (with_reducible assumption)
    | (with_reducible apply ev_keeps)
    | (with_reducible apply ppsRegained_keeps)
    | (with_reducible refine Keeps.ite (fun _ => ?_) (fun _ => ?_))
    | (with_reducible refine Keeps.ite_fst (fun _ => ?_) (fun _ => ?_))
    | (with_reducible refine Keeps.ite_snd (fun _ => ?_) (fun _ => ?_))
    | (simp only [Keeps.mk_iff]; refine KeepsParts.freed (t := _) ?_))

theorem ppsEdge_keeps {gr : Group → Bool} {s0 : State} {s : State} (hk : Keeps gr s0 s) (hbTime : gr .time = false) :
    Keeps gr s0 (ppsEdge s) := by
  unfold ppsEdge
  repeat' (first
    | (with_reducible assumption)
    | (with_reducible apply ev_keeps)
    | (with_reducible apply edgeAccepted_keeps)
    | (with_reducible apply drawFree_keeps)
    | (with_reducible apply windowEnd_keeps)
    | (with_reducible refine Keeps.ite (fun _ => ?_) (fun _ => ?_))
    | (with_reducible refine Keeps.ite_fst (fun _ => ?_) (fun _ => ?_))
    | (with_reducible refine Keeps.ite_snd (fun _ => ?_) (fun _ => ?_))
    | (simp only [Keeps.mk_iff]; refine KeepsParts.freed (t := _) ?_)
    | (with_reducible refine Keeps.of_snd (y := (_, _)) (x := drawFree _) ?_ (by assumption))
    | unfold ppsEdge.setEdge
    | unfold ppsEdge.slewEdge
    | dsimp only
    | split)

theorem ppsLost_keeps {gr : Group → Bool} {s0 : State} {s : State} (hk : Keeps gr s0 s) (hbTime : gr .time = false) :
    Keeps gr s0 (ppsLost s) := by
  unfold ppsLost
  repeat' (first
    | (with_reducible assumption)
    | (with_reducible apply postEvent_keeps)
    | (with_reducible refine Keeps.ite (fun _ => ?_) (fun _ => ?_))
    | (with_reducible refine Keeps.ite_fst (fun _ => ?_) (fun _ => ?_))
    | (with_reducible refine Keeps.ite_snd (fun _ => ?_) (fun _ => ?_))
    | (simp only [Keeps.mk_iff]; refine KeepsParts.freed (t := _) ?_))

theorem traceAccept_keeps {gr : Group → Bool} {s0 : State} {s : State} {n cls opcode : Nat} {m : Msg} (hk : Keeps gr s0 s) :
    Keeps gr s0 (traceAccept s n cls opcode m) := by
  unfold traceAccept
  repeat' (first
    | (with_reducible assumption)
    | (with_reducible apply ev_keeps)
    | (with_reducible refine Keeps.ite (fun _ => ?_) (fun _ => ?_))
    | (with_reducible refine Keeps.ite_fst (fun _ => ?_) (fun _ => ?_))
    | (with_reducible refine Keeps.ite_snd (fun _ => ?_) (fun _ => ?_))
    | (simp only [Keeps.mk_iff]; with_reducible refine KeepsParts.same (t := _) ?_ (by rfl) rfl rfl rfl))

theorem traceFlag_keeps {gr : Group → Bool} {s0 : State} {s : State} {n b : Nat} (hk : Keeps gr s0 s) :
    Keeps gr s0 (traceFlag s n b) := by
  unfold traceFlag
  repeat' (first
    | (with_reducible assumption)
    | (with_reducible apply traceMap_keeps))

theorem traceEnd_keeps {gr : Group → Bool} {s0 : State} {s : State} {n status : Nat} (hk : Keeps gr s0 s) :
    Keeps gr s0 (traceEnd s n status) := by
  unfold traceEnd
  repeat' (first
    | (with_reducible assumption)
    | (with_reducible apply memWrite_keeps)
    | (with_reducible refine Keeps.ite (fun _ => ?_) (fun _ => ?_))
    | (with_reducible refine Keeps.ite_fst (fun _ => ?_) (fun _ => ?_))
    | (with_reducible refine Keeps.ite_snd (fun _ => ?_) (fun _ => ?_))
    | (simp only [Keeps.mk_iff]; with_reducible refine KeepsParts.same (t := _) ?_ (by rfl) rfl rfl rfl)
    | dsimp only
    | split)

theorem execMeteringWindowEnd_keeps {gr : Group → Bool} {s : State}  :
    ∀ s1, execMeteringWindowEnd s = .next s1 → Keeps gr s s1 := by
  intro s1 ht
  unfold execMeteringWindowEnd at ht
  obtain rfl := Host.Outcome.next.inj ht
  have hk := Keeps.refl gr s
  repeat' (first
    | (with_reducible assumption)
    | (with_reducible apply windowEnd_keeps)
    | (with_reducible refine Keeps.ite (fun _ => ?_) (fun _ => ?_)))

theorem execMemPressureDeclared_keeps {gr : Group → Bool} {s : State}  (hbPress : gr .press = false) :
    ∀ s1, execMemPressureDeclared s = .next s1 → Keeps gr s s1 := by
  intro s1 ht
  unfold execMemPressureDeclared at ht
  obtain rfl := Host.Outcome.next.inj ht
  have hk := Keeps.refl gr s
  repeat' (first
    | (with_reducible assumption)
    | (with_reducible refine Keeps.ite (fun _ => ?_) (fun _ => ?_))
    | (with_reducible refine Keeps.ite_fst (fun _ => ?_) (fun _ => ?_))
    | (with_reducible refine Keeps.ite_snd (fun _ => ?_) (fun _ => ?_))
    | (simp only [Keeps.mk_iff]; refine KeepsParts.freed (t := _) ?_))

theorem execMemPressureReleased_keeps {gr : Group → Bool} {s : State}  (hbPress : gr .press = false) :
    ∀ s1, execMemPressureReleased s = .next s1 → Keeps gr s s1 := by
  intro s1 ht
  unfold execMemPressureReleased at ht
  obtain rfl := Host.Outcome.next.inj ht
  have hk := Keeps.refl gr s
  repeat' (first
    | (with_reducible assumption)
    | (with_reducible refine Keeps.ite (fun _ => ?_) (fun _ => ?_))
    | (with_reducible refine Keeps.ite_fst (fun _ => ?_) (fun _ => ?_))
    | (with_reducible refine Keeps.ite_snd (fun _ => ?_) (fun _ => ?_))
    | (simp only [Keeps.mk_iff]; refine KeepsParts.freed (t := _) ?_))

theorem execPpsEdge_keeps {gr : Group → Bool} {s : State}  (hbTime : gr .time = false) :
    ∀ s1, execPpsEdge s = .next s1 → Keeps gr s s1 := by
  intro s1 ht
  unfold execPpsEdge at ht
  obtain rfl := Host.Outcome.next.inj ht
  have hk := Keeps.refl gr s
  repeat' (first
    | (with_reducible assumption)
    | (with_reducible apply ppsEdge_keeps)
    | (with_reducible refine Keeps.ite (fun _ => ?_) (fun _ => ?_)))

theorem execPpsLost_keeps {gr : Group → Bool} {s : State}  (hbTime : gr .time = false) :
    ∀ s1, execPpsLost s = .next s1 → Keeps gr s s1 := by
  intro s1 ht
  unfold execPpsLost at ht
  obtain rfl := Host.Outcome.next.inj ht
  have hk := Keeps.refl gr s
  repeat' (first
    | (with_reducible assumption)
    | (with_reducible apply ppsLost_keeps)
    | (with_reducible refine Keeps.ite (fun _ => ?_) (fun _ => ?_)))

end Sys2Proof.Machine
end

