-- ==== Sys2Proof/Laws/KeepsCache.lean ====
section
/-! SUPPORT. What the operations of Machine/Cache.lean keep (Laws/Keeps.lean). -/

namespace Sys2Proof.Machine

open Sys2Proof

set_option Elab.async false

set_option linter.unusedSimpArgs false

/-- The state a search for a way leaves. -/
def wayState : Way → State
  | .busy s => s
  | .noWay s => s
  | .slot s _ => s

theorem wayState_busy (s : State) : wayState (.busy s) = s := rfl

theorem wayState_noWay (s : State) : wayState (.noWay s) = s := rfl

theorem wayState_slot (s : State) (k : Nat) : wayState (.slot s k) = s := rfl

theorem Keeps.of_busy {gr : Group → Bool} {s t : State} {x : Way} (h : Keeps gr s (wayState x)) (e : x = .busy t) : Keeps gr s t := by subst e; exact h

theorem Keeps.of_noWay {gr : Group → Bool} {s t : State} {x : Way} (h : Keeps gr s (wayState x)) (e : x = .noWay t) : Keeps gr s t := by subst e; exact h

theorem Keeps.of_slot {gr : Group → Bool} {s t : State} {x : Way} {k : Nat} (h : Keeps gr s (wayState x)) (e : x = .slot t k) : Keeps gr s t := by
  subst e; exact h

theorem ageLines_keeps {gr : Group → Bool} {s0 : State} {s : State} {ks : List Nat} (hk : Keeps gr s0 s) :
    Keeps gr s0 (ageLines s ks) := by
  unfold ageLines
  repeat' (first
    | (with_reducible assumption)
    | (with_reducible apply linePut_keeps)
    | (with_reducible refine Keeps.ite (fun _ => ?_) (fun _ => ?_))
    | (with_reducible refine Keeps.ite_fst (fun _ => ?_) (fun _ => ?_))
    | (with_reducible refine Keeps.ite_snd (fun _ => ?_) (fun _ => ?_))
    | (with_reducible refine Keeps.foldl _ _ ?_ (fun t a hk => ?_)))

theorem victimAmong_keeps {gr : Group → Bool} {s0 : State} {s : State} {ks : List Nat} (hk : Keeps gr s0 s) :
    Keeps gr s0 ((victimAmong s ks).1) := by
  unfold victimAmong
  repeat' (first
    | (with_reducible assumption)
    | (with_reducible apply ageLines_keeps)
    | (with_reducible refine Keeps.ite (fun _ => ?_) (fun _ => ?_))
    | (with_reducible refine Keeps.ite_fst (fun _ => ?_) (fun _ => ?_))
    | (with_reducible refine Keeps.ite_snd (fun _ => ?_) (fun _ => ?_))
    | dsimp only
    | split)

theorem victim_keeps {gr : Group → Bool} {s0 : State} {s : State} {cls : Nat} {ks : List Nat} (hk : Keeps gr s0 s) :
    Keeps gr s0 ((victim s cls ks).1) := by
  unfold victim
  repeat' (first
    | (with_reducible assumption)
    | (with_reducible apply victimAmong_keeps)
    | (with_reducible refine Keeps.ite (fun _ => ?_) (fun _ => ?_))
    | (with_reducible refine Keeps.ite_fst (fun _ => ?_) (fun _ => ?_)))

theorem closeLine_keeps {gr : Group → Bool} {s0 : State} {s : State} {line : Nat} (hk : Keeps gr s0 s) :
    Keeps gr s0 (closeLine s line) := by
  unfold closeLine
  repeat' (first
    | (with_reducible assumption)
    | (with_reducible apply lineUse_keeps)
    | (with_reducible apply openDel_keeps)
    | (with_reducible apply storeLine_keeps)
    | (with_reducible refine Keeps.ite (fun _ => ?_) (fun _ => ?_))
    | (with_reducible refine Keeps.ite_fst (fun _ => ?_) (fun _ => ?_))
    | (with_reducible refine Keeps.ite_snd (fun _ => ?_) (fun _ => ?_))
    | dsimp only
    | split)

theorem openGood_keeps {gr : Group → Bool} {s0 : State} {s : State} {line detector : Nat} (hk : Keeps gr s0 s) :
    Keeps gr s0 ((openGood s line detector).1) := by
  unfold openGood
  repeat' (first
    | (with_reducible assumption)
    | (with_reducible apply repairLine_keeps)
    | (with_reducible apply closeLine_keeps)
    | (with_reducible refine Keeps.ite (fun _ => ?_) (fun _ => ?_))
    | (with_reducible refine Keeps.ite_fst (fun _ => ?_) (fun _ => ?_))
    | (with_reducible refine Keeps.ite_snd (fun _ => ?_) (fun _ => ?_))
    | dsimp only
    | split)

theorem readWhole_keeps {gr : Group → Bool} {s0 : State} {s : State} {k detector : Nat} (hk : Keeps gr s0 s) :
    Keeps gr s0 ((readWhole s k detector).1) := by
  unfold readWhole
  repeat' (first
    | (with_reducible assumption)
    | (with_reducible apply openGood_keeps)
    | (with_reducible apply checkLine_keeps)
    | (with_reducible apply lineUse_keeps)
    | (with_reducible refine Keeps.ite (fun _ => ?_) (fun _ => ?_))
    | (with_reducible refine Keeps.ite_fst (fun _ => ?_) (fun _ => ?_)))

theorem heldCheck_keeps {gr : Group → Bool} {s0 : State} {s : State} {line detector : Nat} (hk : Keeps gr s0 s) :
    Keeps gr s0 ((heldCheck s line detector).1) := by
  unfold heldCheck
  repeat' (first
    | (with_reducible assumption)
    | (with_reducible apply mergedLost_keeps)
    | (with_reducible apply stage_keeps)
    | (with_reducible apply openGood_keeps)
    | (with_reducible apply repairCopy_keeps)
    | (with_reducible refine Keeps.ite (fun _ => ?_) (fun _ => ?_))
    | (with_reducible refine Keeps.ite_fst (fun _ => ?_) (fun _ => ?_))
    | (with_reducible refine Keeps.ite_snd (fun _ => ?_) (fun _ => ?_))
    | (with_reducible refine Keeps.of_fst (y := (_, _)) (x := openGood _ _ _) ?_ (by assumption))
    | dsimp only
    | split)

theorem logFirst_keeps {gr : Group → Bool} {s0 : State} {s : State} {k : Nat} {always : Bool} (hk : Keeps gr s0 s) :
    Keeps gr s0 ((logFirst s k always).1) := by
  unfold logFirst
  repeat' (first
    | (with_reducible assumption)
    | (with_reducible apply readWhole_keeps)
    | (with_reducible apply logLine_keeps)
    | (with_reducible apply ev_keeps)
    | (with_reducible refine Keeps.ite (fun _ => ?_) (fun _ => ?_))
    | (with_reducible refine Keeps.ite_fst (fun _ => ?_) (fun _ => ?_))
    | (with_reducible refine Keeps.ite_snd (fun _ => ?_) (fun _ => ?_))
    | (with_reducible refine Keeps.of_fst (y := (_, _)) (x := readWhole _ _ _) ?_ (by assumption))
    | (with_reducible refine Keeps.of_fst (y := (_, _)) (x := logLine _ _ _ _ _ _) ?_ (by assumption))
    | dsimp only
    | split)

theorem evictIssue_keeps {gr : Group → Bool} {s0 : State} {s : State} {e : Evict} (hk : Keeps gr s0 s) :
    Keeps gr s0 (evictIssue s e) := by
  unfold evictIssue
  repeat' (first
    | (with_reducible assumption)
    | (with_reducible apply memWriteLine_keeps)
    | (with_reducible refine Keeps.ite (fun _ => ?_) (fun _ => ?_))
    | (with_reducible refine Keeps.ite_fst (fun _ => ?_) (fun _ => ?_))
    | (with_reducible refine Keeps.ite_snd (fun _ => ?_) (fun _ => ?_))
    | (simp only [Keeps.mk_iff]; with_reducible refine KeepsParts.same (t := _) ?_ (by rfl) rfl rfl rfl))

theorem evictSlot_keeps {gr : Group → Bool} {s0 : State} {s : State} {k : Nat} (hk : Keeps gr s0 s) :
    Keeps gr s0 ((evictSlot s k).1) := by
  unfold evictSlot
  repeat' (first
    | (with_reducible assumption)
    | (with_reducible apply logFirst_keeps)
    | (with_reducible apply ev_keeps)
    | (with_reducible apply lineDrop_keeps)
    | (with_reducible apply checkLine_keeps)
    | (with_reducible apply lineUse_keeps)
    | (with_reducible apply evictIssue_keeps)
    | (with_reducible refine Keeps.ite (fun _ => ?_) (fun _ => ?_))
    | (with_reducible refine Keeps.ite_fst (fun _ => ?_) (fun _ => ?_))
    | (with_reducible refine Keeps.ite_snd (fun _ => ?_) (fun _ => ?_))
    | (simp only [Keeps.mk_iff]; with_reducible refine KeepsParts.same (t := _) ?_ (by rfl) rfl rfl rfl)
    | (with_reducible refine Keeps.of_fst (y := (_, _)) (x := logFirst _ _ _) ?_ (by assumption))
    | (with_reducible refine Keeps.of_fst (y := (_, _)) (x := checkLine _ _ _ _ _) ?_ (by assumption))
    | dsimp only
    | split)

theorem evictRetry_keeps {gr : Group → Bool} {s0 : State} {s : State} {e : Evict} (hk : Keeps gr s0 s) :
    Keeps gr s0 (evictRetry s e) := by
  unfold evictRetry
  repeat' (first
    | (with_reducible assumption)
    | (with_reducible apply repairCopy_keeps)
    | (with_reducible apply logRecord_keeps)
    | (with_reducible apply drainSet_keeps)
    | (with_reducible apply evictIssue_keeps)
    | (with_reducible refine Keeps.ite (fun _ => ?_) (fun _ => ?_))
    | (with_reducible refine Keeps.ite_fst (fun _ => ?_) (fun _ => ?_))
    | (with_reducible refine Keeps.ite_snd (fun _ => ?_) (fun _ => ?_))
    | (simp only [Keeps.mk_iff]; with_reducible refine KeepsParts.same (t := _) ?_ (by rfl) rfl rfl rfl)
    | (with_reducible refine Keeps.of_fst (y := (_, _)) (x := logRecord _ _ _ _ _ _ _ _ _ _) ?_ (by assumption))
    | dsimp only
    | split)

theorem bufGood_keeps {gr : Group → Bool} {s0 : State} {s : State} {b : LogBuf} (hk : Keeps gr s0 s) :
    Keeps gr s0 ((bufGood s b).1) := by
  unfold bufGood
  repeat' (first
    | (with_reducible assumption)
    | (with_reducible apply readWhole_keeps)
    | (with_reducible apply postError_keeps)
    | (with_reducible apply repairCopy_keeps)
    | (with_reducible refine Keeps.ite (fun _ => ?_) (fun _ => ?_))
    | (with_reducible refine Keeps.ite_fst (fun _ => ?_) (fun _ => ?_))
    | (with_reducible refine Keeps.ite_snd (fun _ => ?_) (fun _ => ?_))
    | (with_reducible refine Keeps.of_fst (y := (_, _)) (x := readWhole _ _ _) ?_ (by assumption))
    | dsimp only
    | split)

theorem bufPump_keeps {gr : Group → Bool} {s0 : State}  {a0 : List LogBuf} {s : State} (hk : Keeps gr s0 s) :
    Keeps gr s0 (bufPump  a0 s) := by
  induction a0 generalizing s with
  | nil =>
    unfold bufPump
    repeat' (first
      | (with_reducible assumption))
  | cons x r ih =>
    unfold bufPump
    repeat' (first
      | (with_reducible assumption)
      | (with_reducible apply ih)
      | (with_reducible apply bufGood_keeps)
      | (with_reducible apply logRecord_keeps)
      | (with_reducible refine Keeps.ite (fun _ => ?_) (fun _ => ?_))
      | (with_reducible refine Keeps.ite_fst (fun _ => ?_) (fun _ => ?_))
      | (with_reducible refine Keeps.ite_snd (fun _ => ?_) (fun _ => ?_))
      | (simp only [Keeps.mk_iff]; with_reducible refine KeepsParts.same (t := _) ?_ (by rfl) rfl rfl rfl)
      | (with_reducible refine Keeps.of_fst (y := (_, _)) (x := bufGood _ _) ?_ (by assumption))
      | (with_reducible refine Keeps.of_fst (y := (_, _, _)) (x := bufGood _ _) ?_ (by assumption))
      | (with_reducible refine Keeps.of_fst (y := (_, _)) (x := logRecord _ _ _ _ _ _ _ _ _ _) ?_ (by assumption))
      | dsimp only
      | split)

theorem findWay_keeps {gr : Group → Bool} {s0 : State} {s : State} {line attr who cls : Nat} (hk : Keeps gr s0 s) :
    Keeps gr s0 (wayState (findWay s line attr who cls)) := by
  unfold findWay
  repeat' (first
    | (with_reducible assumption)
    | (with_reducible apply victim_keeps)
    | (with_reducible apply evictSlot_keeps)
    | (with_reducible refine Keeps.ite (fun _ => ?_) (fun _ => ?_))
    | (with_reducible refine Keeps.ite_fst (fun _ => ?_) (fun _ => ?_))
    | (with_reducible refine Keeps.ite_snd (fun _ => ?_) (fun _ => ?_))
    | (with_reducible refine Keeps.of_fst (y := (_, _)) (x := victim _ _ _) ?_ (by assumption))
    | (with_reducible refine Keeps.of_fst (y := (_, _)) (x := evictSlot _ _) ?_ (by assumption))
    | dsimp only [wayState_busy, wayState_noWay, wayState_slot]
    | dsimp only
    | split)

theorem fallowGone_keeps {gr : Group → Bool} {s0 : State} {s : State} {k : Nat} (hk : Keeps gr s0 s) :
    Keeps gr s0 ((fallowGone s k).1) := by
  unfold fallowGone
  repeat' (first
    | (with_reducible assumption)
    | (with_reducible apply logFirst_keeps)
    | (with_reducible apply lineDrop_keeps)
    | (with_reducible refine Keeps.ite (fun _ => ?_) (fun _ => ?_))
    | (with_reducible refine Keeps.ite_fst (fun _ => ?_) (fun _ => ?_))
    | (with_reducible refine Keeps.ite_snd (fun _ => ?_) (fun _ => ?_))
    | (with_reducible refine Keeps.of_fst (y := (_, _)) (x := logFirst _ _ _) ?_ (by assumption))
    | dsimp only
    | split)

theorem refillWay_keeps {gr : Group → Bool} {s0 : State} {s : State} {line attr who cls : Nat} (hk : Keeps gr s0 s) :
    Keeps gr s0 (wayState (refillWay s line attr who cls)) := by
  unfold refillWay
  repeat' (first
    | (with_reducible assumption)
    | (with_reducible apply findWay_keeps)
    | (with_reducible apply victim_keeps)
    | (with_reducible apply evictSlot_keeps)
    | (with_reducible apply fallowGone_keeps)
    | (with_reducible refine Keeps.ite (fun _ => ?_) (fun _ => ?_))
    | (with_reducible refine Keeps.ite_fst (fun _ => ?_) (fun _ => ?_))
    | (with_reducible refine Keeps.ite_snd (fun _ => ?_) (fun _ => ?_))
    | (with_reducible refine Keeps.of_busy (x := findWay _ _ _ _ _) ?_ (by assumption))
    | (with_reducible refine Keeps.of_noWay (x := findWay _ _ _ _ _) ?_ (by assumption))
    | (with_reducible refine Keeps.of_slot (x := findWay _ _ _ _ _) ?_ (by assumption))
    | (with_reducible refine Keeps.of_fst (y := (_, _)) (x := victim _ _ _) ?_ (by assumption))
    | (with_reducible refine Keeps.of_fst (y := (_, _)) (x := evictSlot _ _) ?_ (by assumption))
    | (with_reducible refine Keeps.of_fst (y := (_, _)) (x := fallowGone _ _) ?_ (by assumption))
    | (with_reducible refine Keeps.of_fst (y := (_, _)) (x := ite _ _ _) ?_ (by assumption))
    | (with_reducible refine Keeps.of_fst (y := (_, _, _)) (x := ite _ _ _) ?_ (by assumption))
    | dsimp only [wayState_busy, wayState_noWay, wayState_slot]
    | dsimp only
    | split)

theorem mheStart_keeps {gr : Group → Bool} {s0 : State} {s : State} {m : Mhe} (hk : Keeps gr s0 s) :
    Keeps gr s0 (mheStart s m) := by
  unfold mheStart
  repeat' (first
    | (with_reducible assumption)
    | (with_reducible apply memRead_keeps)
    | (with_reducible refine Keeps.ite (fun _ => ?_) (fun _ => ?_))
    | (with_reducible refine Keeps.ite_fst (fun _ => ?_) (fun _ => ?_))
    | (with_reducible refine Keeps.ite_snd (fun _ => ?_) (fun _ => ?_))
    | (simp only [Keeps.mk_iff]; with_reducible refine KeepsParts.same (t := _) ?_ (by rfl) rfl rfl rfl))

theorem setFilling_keeps {gr : Group → Bool} {s0 : State} {s : State} {k line last cls age : Nat} (hk : Keeps gr s0 s) :
    Keeps gr s0 (setFilling s k line last cls age) := by
  unfold setFilling
  repeat' (first
    | (with_reducible assumption)
    | (with_reducible apply storeLine_keeps))

theorem prefetchLine_keeps {gr : Group → Bool} {s0 : State} {s : State} {line li age who : Nat} {kind : FillKind} (hk : Keeps gr s0 s) :
    Keeps gr s0 (prefetchLine s line li age who kind) := by
  unfold prefetchLine
  repeat' (first
    | (with_reducible assumption)
    | (with_reducible apply ev_keeps)
    | (with_reducible apply findWay_keeps)
    | (with_reducible apply setFilling_keeps)
    | (with_reducible apply mheStart_keeps)
    | (with_reducible refine Keeps.ite (fun _ => ?_) (fun _ => ?_))
    | (with_reducible refine Keeps.ite_fst (fun _ => ?_) (fun _ => ?_))
    | (with_reducible refine Keeps.ite_snd (fun _ => ?_) (fun _ => ?_))
    | (with_reducible refine Keeps.of_busy (x := findWay _ _ _ _ _) ?_ (by assumption))
    | (with_reducible refine Keeps.of_noWay (x := findWay _ _ _ _ _) ?_ (by assumption))
    | (with_reducible refine Keeps.of_slot (x := findWay _ _ _ _ _) ?_ (by assumption))
    | dsimp only
    | split)

theorem streamAhead_keeps {gr : Group → Bool} {s0 : State} {s : State} {line li who : Nat} {up : Bool} (hk : Keeps gr s0 s) :
    Keeps gr s0 (streamAhead s line li who up) := by
  unfold streamAhead
  repeat' (first
    | (with_reducible assumption)
    | (with_reducible apply prefetchLine_keeps)
    | (with_reducible refine Keeps.ite (fun _ => ?_) (fun _ => ?_))
    | (with_reducible refine Keeps.ite_fst (fun _ => ?_) (fun _ => ?_))
    | (with_reducible refine Keeps.ite_snd (fun _ => ?_) (fun _ => ?_))
    | (with_reducible refine Keeps.foldl _ _ ?_ (fun t a hk => ?_)))

theorem streamAccess_keeps {gr : Group → Bool} {s0 : State} {s : State} {line li who : Nat} {miss : Bool} (hk : Keeps gr s0 s) :
    Keeps gr s0 (streamAccess s line li who miss) := by
  unfold streamAccess
  repeat' (first
    | (with_reducible assumption)
    | (with_reducible apply streamAhead_keeps)
    | (with_reducible refine Keeps.ite (fun _ => ?_) (fun _ => ?_))
    | (with_reducible refine Keeps.ite_fst (fun _ => ?_) (fun _ => ?_))
    | (with_reducible refine Keeps.ite_snd (fun _ => ?_) (fun _ => ?_))
    | (simp only [Keeps.mk_iff]; with_reducible refine KeepsParts.same (t := _) ?_ (by rfl) rfl rfl rfl)
    | dsimp only
    | split)

theorem missPrefetch_keeps {gr : Group → Bool} {s0 : State} {s : State} {line li who : Nat} (hk : Keeps gr s0 s) :
    Keeps gr s0 (missPrefetch s line li who) := by
  unfold missPrefetch
  repeat' (first
    | (with_reducible assumption)
    | (with_reducible apply prefetchLine_keeps)
    | (with_reducible apply streamAccess_keeps)
    | (with_reducible refine Keeps.ite (fun _ => ?_) (fun _ => ?_)))

theorem mergeSend_keeps {gr : Group → Bool} {s0 : State} {s : State} {n : Nat} (hk : Keeps gr s0 s) :
    Keeps gr s0 (mergeSend s n) := by
  unfold mergeSend
  repeat' (first
    | (with_reducible assumption)
    | (with_reducible apply mergedLost_keeps)
    | (with_reducible apply memWriteMasked_keeps)
    | (with_reducible refine Keeps.ite (fun _ => ?_) (fun _ => ?_))
    | (with_reducible refine Keeps.ite_fst (fun _ => ?_) (fun _ => ?_))
    | (with_reducible refine Keeps.ite_snd (fun _ => ?_) (fun _ => ?_))
    | (simp only [Keeps.mk_iff]; with_reducible refine KeepsParts.same (t := _) ?_ (by rfl) rfl rfl rfl)
    | dsimp only
    | split)

theorem mergeDrain_keeps {gr : Group → Bool} {s0 : State} {s : State} {n : Nat} (hk : Keeps gr s0 s) :
    Keeps gr s0 (mergeDrain s n) := by
  unfold mergeDrain
  repeat' (first
    | (with_reducible assumption)
    | (with_reducible apply mergeSend_keeps)
    | (with_reducible refine Keeps.ite (fun _ => ?_) (fun _ => ?_))
    | (with_reducible refine Keeps.ite_fst (fun _ => ?_) (fun _ => ?_))
    | (with_reducible refine Keeps.ite_snd (fun _ => ?_) (fun _ => ?_))
    | (with_reducible refine Keeps.foldl _ _ ?_ (fun t a hk => ?_))
    | (with_reducible refine Keeps.foldl_fst _ _ _ ?_ (fun x a hk => ?_))
    | (with_reducible refine Keeps.foldl_snd _ _ _ ?_ (fun x a hk => ?_))
    | dsimp only
    | split)

theorem mergePressure_keeps {gr : Group → Bool} {s0 : State}  {a0 : Nat} {s : State} (hk : Keeps gr s0 s) :
    Keeps gr s0 (mergePressure  a0 s) := by
  induction a0 generalizing s with
  | zero =>
    unfold mergePressure
    repeat' (first
      | (with_reducible assumption))
  | succ k ih =>
    unfold mergePressure
    repeat' (first
      | (with_reducible assumption)
      | (with_reducible apply ih)
      | (with_reducible apply mergeDrain_keeps)
      | (with_reducible refine Keeps.ite (fun _ => ?_) (fun _ => ?_))
      | (with_reducible refine Keeps.ite_fst (fun _ => ?_) (fun _ => ?_))
      | (with_reducible refine Keeps.ite_snd (fun _ => ?_) (fun _ => ?_))
      | dsimp only
      | split)

theorem mergeWrite_keeps {gr : Group → Bool} {s0 : State} {s : State} {line : Nat} {d : LineData} {m : LineMask} {src n cmd last cls : Nat} (hk : Keeps gr s0 s) :
    Keeps gr s0 (mergeWrite s line d m src n cmd last cls) := by
  unfold mergeWrite
  repeat' (first
    | (with_reducible assumption)
    | (with_reducible apply mergePressure_keeps)
    | (with_reducible refine Keeps.ite (fun _ => ?_) (fun _ => ?_))
    | (with_reducible refine Keeps.ite_fst (fun _ => ?_) (fun _ => ?_))
    | (with_reducible refine Keeps.ite_snd (fun _ => ?_) (fun _ => ?_))
    | (simp only [Keeps.mk_iff]; with_reducible refine KeepsParts.same (t := _) ?_ (by rfl) rfl rfl rfl)
    | (with_reducible refine Keeps.foldl _ _ ?_ (fun t a hk => ?_)))

theorem mergeDrainWhere_keeps {gr : Group → Bool} {s0 : State} {s : State} {p : Merge → Bool} (hk : Keeps gr s0 s) :
    Keeps gr s0 (mergeDrainWhere s p) := by
  unfold mergeDrainWhere
  repeat' (first
    | (with_reducible assumption)
    | (with_reducible apply mergeDrain_keeps)
    | (with_reducible refine Keeps.ite (fun _ => ?_) (fun _ => ?_))
    | (with_reducible refine Keeps.ite_fst (fun _ => ?_) (fun _ => ?_))
    | (with_reducible refine Keeps.ite_snd (fun _ => ?_) (fun _ => ?_))
    | (with_reducible refine Keeps.foldl _ _ ?_ (fun t a hk => ?_)))

theorem closeFor_keeps {gr : Group → Bool} {s0 : State} {s : State} {line : Nat} (hk : Keeps gr s0 s) :
    Keeps gr s0 (closeFor s line) := by
  unfold closeFor
  repeat' (first
    | (with_reducible assumption)
    | (with_reducible apply ev_keeps)
    | (with_reducible apply closeLine_keeps)
    | (with_reducible refine Keeps.ite (fun _ => ?_) (fun _ => ?_)))

theorem openLine_keeps {gr : Group → Bool} {s0 : State} {s : State} {k : Nat} (hk : Keeps gr s0 s) :
    Keeps gr s0 (openLine s k) := by
  unfold openLine
  repeat' (first
    | (with_reducible assumption)
    | (with_reducible apply closeLine_keeps)
    | (with_reducible apply storeLine_keeps)
    | (with_reducible refine Keeps.ite (fun _ => ?_) (fun _ => ?_))
    | (with_reducible refine Keeps.ite_fst (fun _ => ?_) (fun _ => ?_))
    | (with_reducible refine Keeps.ite_snd (fun _ => ?_) (fun _ => ?_))
    | (simp only [Keeps.mk_iff]; with_reducible refine KeepsParts.same (t := _) ?_ (by rfl) rfl rfl rfl)
    | dsimp only
    | split)

end Sys2Proof.Machine
end

