-- ==== Sys2Proof/Laws/KeepsCoherence.lean ====
section
/-! SUPPORT. What the operations of Machine/Coherence.lean keep (Laws/Keeps.lean). -/

namespace Sys2Proof.Machine

open Sys2Proof

set_option Elab.async false

set_option linter.unusedSimpArgs false

theorem sfPut_keeps {gr : Group → Bool} {s0 s : State} {k : Nat} {e : SfEnt} (h : Keeps gr s0 s) : Keeps gr s0 (sfPut s k e) :=
  ⟨h.pending, h.out, h.csr, h.lines, h.lasts, fun w => SMap.wf_put _ _ (h.sf w), h.now, h.pins, h.life, h.time, h.key, h.plan, h.patch, h.packs, h.press, h.regs⟩

theorem sfCheckKeys_keeps {gr : Group → Bool} {s0 : State} {s : State} {ks : List Nat} {detector : Nat} (hk : Keeps gr s0 s) :
    Keeps gr s0 (sfCheckKeys s ks detector) := by
  unfold sfCheckKeys
  repeat' (first
    | (with_reducible assumption)
    | (with_reducible apply sfPut_keeps)
    | (with_reducible apply postError_keeps)
    | (with_reducible refine Keeps.ite (fun _ => ?_) (fun _ => ?_))
    | (with_reducible refine Keeps.ite_fst (fun _ => ?_) (fun _ => ?_))
    | (with_reducible refine Keeps.ite_snd (fun _ => ?_) (fun _ => ?_))
    | (simp only [Keeps.mk_iff]; with_reducible refine KeepsParts.same (t := _) ?_ (by rfl) rfl rfl rfl)
    | (with_reducible refine Keeps.foldl _ _ ?_ (fun t a hk => ?_)))

theorem sfCheckSet_keeps {gr : Group → Bool} {s0 : State} {s : State} {set detector : Nat} (hk : Keeps gr s0 s) :
    Keeps gr s0 (sfCheckSet s set detector) := by
  unfold sfCheckSet
  repeat' (first
    | (with_reducible assumption)
    | (with_reducible apply sfCheckKeys_keeps))

theorem sfWrite_keeps {gr : Group → Bool} {s0 : State} {s : State} {k : Nat} {e : SfEnt} (hk : Keeps gr s0 s) :
    Keeps gr s0 (sfWrite s k e) := by
  unfold sfWrite
  repeat' (first
    | (with_reducible assumption)
    | (with_reducible apply flipFired_keeps)
    | (with_reducible apply sfPut_keeps)
    | (with_reducible refine Keeps.ite (fun _ => ?_) (fun _ => ?_)))

theorem sfDrop_keeps {gr : Group → Bool} {s0 : State} {s : State} {h : Nat} (hk : Keeps gr s0 s) :
    Keeps gr s0 (sfDrop s h) := by
  unfold sfDrop
  repeat' (first
    | (with_reducible assumption)
    | (with_reducible apply sfPut_keeps)
    | (with_reducible refine Keeps.ite (fun _ => ?_) (fun _ => ?_))
    | (with_reducible refine Keeps.ite_fst (fun _ => ?_) (fun _ => ?_))
    | (with_reducible refine Keeps.ite_snd (fun _ => ?_) (fun _ => ?_))
    | dsimp only
    | split)

theorem snoopIssue_keeps {gr : Group → Bool} {s0 : State} {s : State} {x : Snoop} (hk : Keeps gr s0 s) :
    Keeps gr s0 (snoopIssue s x) := by
  unfold snoopIssue
  repeat' (first
    | (with_reducible assumption)
    | (with_reducible apply ev_keeps)
    | (with_reducible apply sendMsg_keeps)
    | (with_reducible refine Keeps.ite (fun _ => ?_) (fun _ => ?_))
    | (with_reducible refine Keeps.ite_fst (fun _ => ?_) (fun _ => ?_))
    | (with_reducible refine Keeps.ite_snd (fun _ => ?_) (fun _ => ?_))
    | (simp only [Keeps.mk_iff]; with_reducible refine KeepsParts.same (t := _) ?_ (by rfl) rfl rfl rfl))

theorem sfHit_keeps {gr : Group → Bool} {s0 : State} {s : State} {h : Nat} (hk : Keeps gr s0 s) :
    Keeps gr s0 (sfHit s h) := by
  unfold sfHit
  repeat' (first
    | (with_reducible assumption)
    | (with_reducible apply sfPut_keeps)
    | (with_reducible refine Keeps.ite (fun _ => ?_) (fun _ => ?_))
    | (with_reducible refine Keeps.ite_fst (fun _ => ?_) (fun _ => ?_))
    | (with_reducible refine Keeps.ite_snd (fun _ => ?_) (fun _ => ?_))
    | dsimp only
    | split)

theorem snoopFor_keeps {gr : Group → Bool} {s0 : State} {s : State} {hosts : List Nat} {inv dropWb : Bool} {qos cmd : Nat} {again : Bool} (hk : Keeps gr s0 s) :
    Keeps gr s0 ((snoopFor s hosts inv dropWb qos cmd again).1) := by
  unfold snoopFor
  repeat' (first
    | (with_reducible assumption)
    | (with_reducible apply sfCheckSet_keeps)
    | (with_reducible apply sfHit_keeps)
    | (with_reducible apply ev_keeps)
    | (with_reducible apply snoopIssue_keeps)
    | (with_reducible refine Keeps.ite (fun _ => ?_) (fun _ => ?_))
    | (with_reducible refine Keeps.ite_fst (fun _ => ?_) (fun _ => ?_))
    | (with_reducible refine Keeps.ite_snd (fun _ => ?_) (fun _ => ?_))
    | (with_reducible refine Keeps.foldl _ _ ?_ (fun t a hk => ?_))
    | (with_reducible refine Keeps.foldl_fst _ _ _ ?_ (fun x a hk => ?_)))

theorem sfVictim_keeps {gr : Group → Bool} {s0 : State} {s : State} {set : Nat} (hk : Keeps gr s0 s) :
    Keeps gr s0 ((sfVictim s set).1) := by
  unfold sfVictim
  repeat' (first
    | (with_reducible assumption)
    | (with_reducible apply sfPut_keeps)
    | (with_reducible refine Keeps.ite (fun _ => ?_) (fun _ => ?_))
    | (with_reducible refine Keeps.ite_fst (fun _ => ?_) (fun _ => ?_))
    | (with_reducible refine Keeps.ite_snd (fun _ => ?_) (fun _ => ?_))
    | (with_reducible refine Keeps.foldl _ _ ?_ (fun t a hk => ?_))
    | (with_reducible refine Keeps.foldl_fst _ _ _ ?_ (fun x a hk => ?_))
    | (with_reducible refine Keeps.foldl_snd _ _ _ ?_ (fun x a hk => ?_))
    | dsimp only
    | split)

theorem sfRecord_keeps {gr : Group → Bool} {s0 : State} {s : State} {h st qos : Nat} (hk : Keeps gr s0 s) :
    Keeps gr s0 ((sfRecord s h st qos).1) := by
  unfold sfRecord
  repeat' (first
    | (with_reducible assumption)
    | (with_reducible apply sfWrite_keeps)
    | (with_reducible apply ev_keeps)
    | (with_reducible apply sfVictim_keeps)
    | (with_reducible apply snoopIssue_keeps)
    | (with_reducible apply victim_keeps)
    | (with_reducible refine Keeps.ite (fun _ => ?_) (fun _ => ?_))
    | (with_reducible refine Keeps.ite_fst (fun _ => ?_) (fun _ => ?_))
    | (with_reducible refine Keeps.ite_snd (fun _ => ?_) (fun _ => ?_))
    | (with_reducible refine Keeps.of_fst (y := (_, _)) (x := sfVictim _ _) ?_ (by assumption))
    | (with_reducible refine Keeps.of_fst (y := (_, _)) (x := victim _ _ _) ?_ (by assumption))
    | dsimp only
    | split)

theorem biasRead_keeps {gr : Group → Bool} {s0 : State} {s : State} {w cmd : Nat} (hk : Keeps gr s0 s) :
    Keeps gr s0 (biasRead s w cmd) := by
  unfold biasRead
  repeat' (first
    | (with_reducible assumption)
    | (with_reducible apply memRead_keeps)
    | (with_reducible apply ev_keeps)
    | (with_reducible refine Keeps.ite (fun _ => ?_) (fun _ => ?_)))

theorem biasCheck_keeps {gr : Group → Bool} {s0 : State} {s : State} {w : Nat} (hk : Keeps gr s0 s) :
    Keeps gr s0 (biasCheck s w) := by
  unfold biasCheck
  repeat' (first
    | (with_reducible assumption)
    | (with_reducible apply postError_keeps)
    | (with_reducible refine Keeps.ite (fun _ => ?_) (fun _ => ?_))
    | (with_reducible refine Keeps.ite_fst (fun _ => ?_) (fun _ => ?_))
    | (with_reducible refine Keeps.ite_snd (fun _ => ?_) (fun _ => ?_))
    | (simp only [Keeps.mk_iff]; with_reducible refine KeepsParts.same (t := _) ?_ (by rfl) rfl rfl rfl))

theorem biasOf_keeps {gr : Group → Bool} {s0 : State} {s : State} {addr : Nat} (hk : Keeps gr s0 s) :
    Keeps gr s0 ((biasOf s addr).1) := by
  unfold biasOf
  repeat' (first
    | (with_reducible assumption)
    | (with_reducible apply biasCheck_keeps)
    | (with_reducible apply biasRead_keeps)
    | (with_reducible refine Keeps.ite (fun _ => ?_) (fun _ => ?_))
    | (with_reducible refine Keeps.ite_fst (fun _ => ?_) (fun _ => ?_))
    | (with_reducible refine Keeps.ite_snd (fun _ => ?_) (fun _ => ?_))
    | (simp only [Keeps.mk_iff]; with_reducible refine KeepsParts.same (t := _) ?_ (by rfl) rfl rfl rfl)
    | dsimp only
    | split)

end Sys2Proof.Machine
end

