-- ==== Sys2Proof/Laws/KeepsDemand.lean ====
section
/-! SUPPORT. What the operations of Machine/Demand.lean keep (Laws/Keeps.lean). -/

namespace Sys2Proof.Machine

open Sys2Proof

set_option Elab.async false

set_option linter.unusedSimpArgs false

/-- The state an attempt at an operation leaves. -/
def resState : Res → State
  | .done s => s
  | .wait s _ => s
  | .again s _ => s

theorem resState_done (s : State) : resState (.done s) = s := rfl

theorem resState_wait (s : State) (o : Op) : resState (.wait s o) = s := rfl

theorem resState_again (s : State) (o : Op) : resState (.again s o) = s := rfl

theorem Keeps.ite_res {gr : Group → Bool} {s : State} {x y : Res} {c : Prop} [Decidable c] (ha : c → Keeps gr s (resState x))
    (hb : ¬c → Keeps gr s (resState y)) : Keeps gr s (resState (if c then x else y)) := by
  split
  · exact ha ‹_›
  · exact hb ‹_›

theorem Keeps.of_done {gr : Group → Bool} {s t : State} {x : Res} (h : Keeps gr s (resState x)) (e : x = .done t) : Keeps gr s t := by subst e; exact h

theorem Keeps.of_wait {gr : Group → Bool} {s t : State} {x : Res} {o : Op} (h : Keeps gr s (resState x)) (e : x = .wait t o) : Keeps gr s t := by
  subst e; exact h

theorem Keeps.of_again {gr : Group → Bool} {s t : State} {x : Res} {o : Op} (h : Keeps gr s (resState x)) (e : x = .again t o) : Keeps gr s t := by
  subst e; exact h

theorem unavailNote_keeps {gr : Group → Bool} {s0 : State} {s : State} {o : Op} {status : Nat} (hk : Keeps gr s0 s) :
    Keeps gr s0 (unavailNote s o status) := by
  unfold unavailNote
  repeat' (first
    | (with_reducible assumption)
    | (with_reducible refine Keeps.ite (fun _ => ?_) (fun _ => ?_))
    | (with_reducible refine Keeps.ite_fst (fun _ => ?_) (fun _ => ?_))
    | (with_reducible refine Keeps.ite_snd (fun _ => ?_) (fun _ => ?_))
    | (simp only [Keeps.mk_iff]; with_reducible refine KeepsParts.same (t := _) ?_ (by rfl) rfl rfl rfl))

theorem opEnd_keeps {gr : Group → Bool} {s0 : State} {s : State} {o : Op} {status : Nat} (hk : Keeps gr s0 s) :
    Keeps gr s0 (opEnd s o status) := by
  unfold opEnd
  repeat' (first
    | (with_reducible assumption)
    | (with_reducible apply settle_keeps)
    | (with_reducible apply traceEnd_keeps)
    | (with_reducible apply stage_keeps)
    | (with_reducible apply unavailNote_keeps))

theorem blkBeat_keeps {gr : Group → Bool} {s0 : State} {s : State} {o : Op} {half status : Nat} {data : Bytes} (hk : Keeps gr s0 s) :
    Keeps gr s0 (blkBeat s o half status data) := by
  unfold blkBeat
  repeat' (first
    | (with_reducible assumption)
    | (with_reducible apply sendCh_keeps))

theorem finish_keeps {gr : Group → Bool} {s0 : State} {s : State} {o : Op} {status : Nat} (hk : Keeps gr s0 s) :
    Keeps gr s0 (finish s o status) := by
  unfold finish
  repeat' (first
    | (with_reducible assumption)
    | (with_reducible apply cmdLine_keeps)
    | (with_reducible apply opEnd_keeps)
    | (with_reducible apply blkBeat_keeps)
    | (with_reducible apply stage_keeps)
    | (with_reducible apply answer_keeps)
    | (with_reducible apply cmpl_keeps)
    | (with_reducible refine Keeps.ite (fun _ => ?_) (fun _ => ?_))
    | (with_reducible refine Keeps.ite_fst (fun _ => ?_) (fun _ => ?_))
    | (with_reducible refine Keeps.ite_snd (fun _ => ?_) (fun _ => ?_))
    | dsimp only
    | split)

theorem arithUse_keeps {gr : Group → Bool} {s0 : State} {s : State} {o : Op} {n : Nat} (hk : Keeps gr s0 s) :
    Keeps gr s0 (arithUse s o n) := by
  unfold arithUse
  repeat' (first
    | (with_reducible assumption)
    | (with_reducible apply activity_keeps))

theorem readAnswer_keeps {gr : Group → Bool} {s0 : State} {s : State} {attr : Nat} {o : Op} {d : LineData} {status : Nat} (hk : Keeps gr s0 s) :
    Keeps gr s0 (readAnswer s attr o d status) := by
  unfold readAnswer
  repeat' (first
    | (with_reducible assumption)
    | (with_reducible apply evN_keeps)
    | (with_reducible apply arithUse_keeps)
    | (with_reducible apply blkBeat_keeps)
    | (with_reducible apply stage_keeps)
    | (with_reducible apply opEnd_keeps)
    | (with_reducible apply answer_keeps)
    | (with_reducible refine Keeps.ite (fun _ => ?_) (fun _ => ?_)))

theorem fallowNote_keeps {gr : Group → Bool} {s0 : State} {s : State} {l : Line} {o : Op} (hk : Keeps gr s0 s) :
    Keeps gr s0 (fallowNote s l o) := by
  unfold fallowNote
  repeat' (first
    | (with_reducible assumption)
    | (with_reducible apply hstWrite_keeps)
    | (with_reducible apply ev_keeps)
    | (with_reducible apply ringPut_keeps)
    | (with_reducible refine Keeps.ite (fun _ => ?_) (fun _ => ?_))
    | (with_reducible refine Keeps.ite_fst (fun _ => ?_) (fun _ => ?_))
    | (with_reducible refine Keeps.ite_snd (fun _ => ?_) (fun _ => ?_))
    | dsimp only
    | split)

theorem noteOnce_keeps {gr : Group → Bool} {s0 : State} {s : State} {o : Op} {b n : Nat} (hk : Keeps gr s0 s) :
    Keeps gr s0 ((noteOnce s o b n).1) := by
  unfold noteOnce
  repeat' (first
    | (with_reducible assumption)
    | (with_reducible apply ev_keeps)
    | (with_reducible refine Keeps.ite (fun _ => ?_) (fun _ => ?_))
    | (with_reducible refine Keeps.ite_fst (fun _ => ?_) (fun _ => ?_)))

theorem lookupAct_keeps {gr : Group → Bool} {s0 : State} {s : State} {o : Op} {li : Nat} {m : LineMask} (hk : Keeps gr s0 s) :
    Keeps gr s0 ((lookupAct s o li m).1) := by
  unfold lookupAct
  repeat' (first
    | (with_reducible assumption)
    | (with_reducible apply stage_keeps)
    | (with_reducible apply activity_keeps)
    | (with_reducible refine Keeps.ite (fun _ => ?_) (fun _ => ?_))
    | (with_reducible refine Keeps.ite_fst (fun _ => ?_) (fun _ => ?_)))

theorem mheLeave_keeps {gr : Group → Bool} {s0 : State} {s : State} {line n : Nat} (hk : Keeps gr s0 s) :
    Keeps gr s0 (mheLeave s line n) := by
  unfold mheLeave
  repeat' (first
    | (with_reducible assumption)
    | (with_reducible apply mheSet_keeps)
    | (with_reducible refine Keeps.ite (fun _ => ?_) (fun _ => ?_))
    | (with_reducible refine Keeps.ite_fst (fun _ => ?_) (fun _ => ?_))
    | (with_reducible refine Keeps.ite_snd (fun _ => ?_) (fun _ => ?_))
    | dsimp only
    | split)

theorem halfAnswer_keeps {gr : Group → Bool} {s0 : State} {s : State} {attr : Nat} {m : Mhe} {r : Merged} {h : Nat} (hk : Keeps gr s0 s) :
    Keeps gr s0 (halfAnswer s attr m r h) := by
  unfold halfAnswer
  repeat' (first
    | (with_reducible assumption)
    | (with_reducible apply evN_keeps)
    | (with_reducible apply blkBeat_keeps)
    | (with_reducible apply stage_keeps)
    | (with_reducible refine Keeps.ite (fun _ => ?_) (fun _ => ?_)))

theorem serveHalves_keeps {gr : Group → Bool} {s0 : State} {s : State} {line attr : Nat} {m : Mhe} {r : Merged} (hk : Keeps gr s0 s) :
    Keeps gr s0 (serveHalves s line attr m r) := by
  unfold serveHalves
  repeat' (first
    | (with_reducible assumption)
    | (with_reducible apply halfAnswer_keeps)
    | (with_reducible apply opEnd_keeps)
    | (with_reducible apply mheLeave_keeps)
    | (with_reducible apply mheSet_keeps)
    | (with_reducible refine Keeps.ite (fun _ => ?_) (fun _ => ?_))
    | (with_reducible refine Keeps.ite_fst (fun _ => ?_) (fun _ => ?_))
    | (with_reducible refine Keeps.ite_snd (fun _ => ?_) (fun _ => ?_))
    | dsimp only
    | split)

theorem serveFailed_keeps {gr : Group → Bool} {s0 : State} {s : State} {line : Nat} {r : Merged} {status : Nat} (hk : Keeps gr s0 s) :
    Keeps gr s0 (serveFailed s line r status) := by
  unfold serveFailed
  repeat' (first
    | (with_reducible assumption)
    | (with_reducible apply mheLeave_keeps)
    | (with_reducible apply opEnd_keeps)
    | (with_reducible apply blkBeat_keeps)
    | (with_reducible apply finish_keeps)
    | (with_reducible refine Keeps.ite (fun _ => ?_) (fun _ => ?_)))

theorem serveMerged_keeps {gr : Group → Bool} {s0 : State} {s : State} {line : Nat} {r : Merged} (hk : Keeps gr s0 s) :
    Keeps gr s0 (serveMerged s line r) := by
  unfold serveMerged
  repeat' (first
    | (with_reducible assumption)
    | (with_reducible apply serveFailed_keeps)
    | (with_reducible apply serveHalves_keeps)
    | (with_reducible apply readAnswer_keeps)
    | (with_reducible apply mheLeave_keeps)
    | (with_reducible refine Keeps.ite (fun _ => ?_) (fun _ => ?_))
    | (with_reducible refine Keeps.ite_fst (fun _ => ?_) (fun _ => ?_))
    | (with_reducible refine Keeps.ite_snd (fun _ => ?_) (fun _ => ?_))
    | dsimp only
    | split)

theorem mheServe_keeps {gr : Group → Bool} {s0 : State} {s : State} {line : Nat} (hk : Keeps gr s0 s) :
    Keeps gr s0 (mheServe s line) := by
  unfold mheServe
  repeat' (first
    | (with_reducible assumption)
    | (with_reducible apply serveMerged_keeps)
    | (with_reducible refine Keeps.ite (fun _ => ?_) (fun _ => ?_))
    | (with_reducible refine Keeps.ite_fst (fun _ => ?_) (fun _ => ?_))
    | (with_reducible refine Keeps.ite_snd (fun _ => ?_) (fun _ => ?_))
    | (with_reducible refine Keeps.foldl _ _ ?_ (fun t a hk => ?_))
    | (with_reducible refine Keeps.foldl_fst _ _ _ ?_ (fun x a hk => ?_))
    | (with_reducible refine Keeps.foldl_snd _ _ _ ?_ (fun x a hk => ?_))
    | dsimp only
    | split)

theorem mheMerge_keeps {gr : Group → Bool} {s0 : State} {s : State} {m : Mhe} {o : Op} (hk : Keeps gr s0 s) :
    Keeps gr s0 (mheMerge s m o) := by
  unfold mheMerge
  repeat' (first
    | (with_reducible assumption)
    | (with_reducible apply mheSet_keeps)
    | (with_reducible apply mheServe_keeps)
    | (with_reducible apply traceFlag_keeps)
    | (with_reducible apply ev_keeps))

theorem mergeWait_keeps {gr : Group → Bool} {s0 : State} {s : State} {o : Op} {m : Mhe} (hk : Keeps gr s0 s) :
    Keeps gr s0 ((mergeWait s o m).1) := by
  unfold mergeWait
  repeat' (first
    | (with_reducible assumption)
    | (with_reducible apply traceFlag_keeps)
    | (with_reducible apply ev_keeps)
    | (with_reducible apply mheSet_keeps)
    | (with_reducible refine Keeps.ite (fun _ => ?_) (fun _ => ?_))
    | (with_reducible refine Keeps.ite_fst (fun _ => ?_) (fun _ => ?_)))

theorem hitEv_keeps {gr : Group → Bool} {s0 : State} {s : State} {o : Op} {n : Nat} (hk : Keeps gr s0 s) :
    Keeps gr s0 (hitEv s o n) := by
  unfold hitEv
  repeat' (first
    | (with_reducible assumption)
    | (with_reducible apply traceFlag_keeps)
    | (with_reducible apply ev_keeps)
    | (with_reducible refine Keeps.ite (fun _ => ?_) (fun _ => ?_)))

theorem mergeAck_keeps {gr : Group → Bool} {s0 : State} {s : State} {o : Op} (hk : Keeps gr s0 s) :
    Keeps gr s0 ((mergeAck s o).1) := by
  unfold mergeAck
  repeat' (first
    | (with_reducible assumption)
    | (with_reducible apply settle_keeps)
    | (with_reducible apply cmpl_keeps)
    | (with_reducible apply stage_keeps)
    | (with_reducible refine Keeps.ite (fun _ => ?_) (fun _ => ?_))
    | (with_reducible refine Keeps.ite_fst (fun _ => ?_) (fun _ => ?_)))

theorem readBypass_keeps {gr : Group → Bool} {s0 : State} {s : State} {o : Op} {attr : Nat} (hk : Keeps gr s0 s) :
    Keeps gr s0 (readBypass s o attr) := by
  unfold readBypass
  repeat' (first
    | (with_reducible assumption)
    | (with_reducible apply mheStart_keeps)
    | (with_reducible apply stage_keeps))

theorem hitAccess_keeps {gr : Group → Bool} {s0 : State} {s : State} {o : Op} {li : Nat} (hk : Keeps gr s0 s) :
    Keeps gr s0 (hitAccess s o li) := by
  unfold hitAccess
  repeat' (first
    | (with_reducible assumption)
    | (with_reducible apply streamAccess_keeps)
    | (with_reducible refine Keeps.ite (fun _ => ?_) (fun _ => ?_)))

theorem missAccess_keeps {gr : Group → Bool} {s0 : State} {s : State} {o : Op} {li : Nat} (hk : Keeps gr s0 s) :
    Keeps gr s0 (missAccess s o li) := by
  unfold missAccess
  repeat' (first
    | (with_reducible assumption)
    | (with_reducible apply missPrefetch_keeps)
    | (with_reducible refine Keeps.ite (fun _ => ?_) (fun _ => ?_)))

theorem mheWait_keeps {gr : Group → Bool} {s0 : State} {s : State} {o : Op} (hk : Keeps gr s0 s) :
    Keeps gr s0 ((mheWait s o).1) := by
  unfold mheWait
  repeat' (first
    | (with_reducible assumption)
    | (with_reducible apply noteOnce_keeps)
    | (with_reducible refine Keeps.ite (fun _ => ?_) (fun _ => ?_))
    | (with_reducible refine Keeps.ite_fst (fun _ => ?_) (fun _ => ?_)))

theorem readLine_keeps {gr : Group → Bool} {s0 : State} {s : State} {o : Op} {attr li : Nat} (hk : Keeps gr s0 s) :
    Keeps gr s0 (resState (readLine s o attr li)) := by
  unfold readLine
  repeat' (first
    | (with_reducible assumption)
    | (with_reducible apply mergeWait_keeps)
    | (with_reducible apply hitAccess_keeps)
    | (with_reducible apply mheMerge_keeps)
    | (with_reducible apply readAnswer_keeps)
    | (with_reducible apply readBypass_keeps)
    | (with_reducible apply mheWait_keeps)
    | (with_reducible apply closeFor_keeps)
    | (with_reducible apply fallowNote_keeps)
    | (with_reducible apply ev_keeps)
    | (with_reducible apply linePut_keeps)
    | (with_reducible apply traceFlag_keeps)
    | (with_reducible apply checkLine_keeps)
    | (with_reducible apply hitEv_keeps)
    | (with_reducible apply missAccess_keeps)
    | (with_reducible apply findWay_keeps)
    | (with_reducible apply setFilling_keeps)
    | (with_reducible apply mheStart_keeps)
    | (with_reducible apply stage_keeps)
    | (with_reducible refine Keeps.ite (fun _ => ?_) (fun _ => ?_))
    | (with_reducible refine Keeps.ite_fst (fun _ => ?_) (fun _ => ?_))
    | (with_reducible refine Keeps.ite_snd (fun _ => ?_) (fun _ => ?_))
    | (with_reducible refine Keeps.ite_res (fun _ => ?_) (fun _ => ?_))
    | (with_reducible refine Keeps.of_fst (y := (_, _)) (x := mergeWait _ _ _) ?_ (by assumption))
    | (with_reducible refine Keeps.of_fst (y := (_, _)) (x := mheWait _ _) ?_ (by assumption))
    | (with_reducible refine Keeps.of_fst (y := (_, _)) (x := checkLine _ _ _ _ _) ?_ (by assumption))
    | (with_reducible refine Keeps.of_busy (x := findWay _ _ _ _ _) ?_ (by assumption))
    | (with_reducible refine Keeps.of_noWay (x := findWay _ _ _ _ _) ?_ (by assumption))
    | (with_reducible refine Keeps.of_slot (x := findWay _ _ _ _ _) ?_ (by assumption))
    | dsimp only [resState_done, resState_wait, resState_again]
    | dsimp only
    | split)

theorem cleanSlot_keeps {gr : Group → Bool} {s0 : State} {s : State} {k cmd : Nat} (hk : Keeps gr s0 s) :
    Keeps gr s0 ((cleanSlot s k cmd).1) := by
  unfold cleanSlot
  repeat' (first
    | (with_reducible assumption)
    | (with_reducible apply logFirst_keeps)
    | (with_reducible apply lineUse_keeps)
    | (with_reducible apply storeLine_keeps)
    | (with_reducible apply memWriteLine_keeps)
    | (with_reducible refine Keeps.ite (fun _ => ?_) (fun _ => ?_))
    | (with_reducible refine Keeps.ite_fst (fun _ => ?_) (fun _ => ?_)))

theorem mirrorRoomIn_keeps {gr : Group → Bool} {s0 : State} {s : State} {set : Nat} (hk : Keeps gr s0 s) :
    Keeps gr s0 ((mirrorRoomIn s set).1) := by
  unfold mirrorRoomIn
  repeat' (first
    | (with_reducible assumption)
    | (with_reducible apply checkLine_keeps)
    | (with_reducible apply closeLine_keeps)
    | (with_reducible apply cleanSlot_keeps)
    | (with_reducible apply ev_keeps)
    | (with_reducible refine Keeps.ite (fun _ => ?_) (fun _ => ?_))
    | (with_reducible refine Keeps.ite_fst (fun _ => ?_) (fun _ => ?_))
    | (with_reducible refine Keeps.ite_snd (fun _ => ?_) (fun _ => ?_))
    | (with_reducible refine Keeps.of_fst (y := (_, _)) (x := checkLine _ _ _ _ _) ?_ (by assumption))
    | (with_reducible refine Keeps.of_fst (y := (_, _)) (x := cleanSlot _ _ _) ?_ (by assumption))
    | (with_reducible refine Keeps.foldl _ _ ?_ (fun t a hk => ?_))
    | (with_reducible refine Keeps.foldl_fst _ _ _ ?_ (fun x a hk => ?_))
    | (with_reducible refine Keeps.foldl_snd _ _ _ ?_ (fun x a hk => ?_))
    | dsimp only
    | split)

theorem mirrorRoom_keeps {gr : Group → Bool} {s0 : State} {s : State} {k : Nat} (hk : Keeps gr s0 s) :
    Keeps gr s0 ((mirrorRoom s k).1) := by
  unfold mirrorRoom
  repeat' (first
    | (with_reducible assumption)
    | (with_reducible apply mirrorRoomIn_keeps)
    | (with_reducible refine Keeps.ite (fun _ => ?_) (fun _ => ?_))
    | (with_reducible refine Keeps.ite_fst (fun _ => ?_) (fun _ => ?_)))

theorem mirrorRoomFill_keeps {gr : Group → Bool} {s0 : State} {s : State} {m : Mhe} {attr : Nat} (hk : Keeps gr s0 s) :
    Keeps gr s0 ((mirrorRoomFill s m attr).1) := by
  unfold mirrorRoomFill
  repeat' (first
    | (with_reducible assumption)
    | (with_reducible apply mirrorRoomIn_keeps)
    | (with_reducible refine Keeps.ite (fun _ => ?_) (fun _ => ?_))
    | (with_reducible refine Keeps.ite_fst (fun _ => ?_) (fun _ => ?_)))

theorem mirrorRoomMiss_keeps {gr : Group → Bool} {s0 : State} {s : State} {line attr who : Nat} (hk : Keeps gr s0 s) :
    Keeps gr s0 ((mirrorRoomMiss s line attr who).1) := by
  unfold mirrorRoomMiss
  repeat' (first
    | (with_reducible assumption)
    | (with_reducible apply mirrorRoomIn_keeps)
    | (with_reducible refine Keeps.ite (fun _ => ?_) (fun _ => ?_))
    | (with_reducible refine Keeps.ite_fst (fun _ => ?_) (fun _ => ?_)))

theorem lagWait_keeps {gr : Group → Bool} {s0 : State} {s : State} {o : Op} (hk : Keeps gr s0 s) :
    Keeps gr s0 (resState (lagWait s o)) := by
  unfold lagWait
  repeat' (first
    | (with_reducible assumption)
    | (with_reducible apply noteOnce_keeps)
    | (with_reducible refine Keeps.ite (fun _ => ?_) (fun _ => ?_))
    | (with_reducible refine Keeps.ite_fst (fun _ => ?_) (fun _ => ?_))
    | (with_reducible refine Keeps.ite_snd (fun _ => ?_) (fun _ => ?_))
    | (with_reducible refine Keeps.ite_res (fun _ => ?_) (fun _ => ?_))
    | (with_reducible refine Keeps.of_fst (y := (_, _)) (x := noteOnce _ _ _ _) ?_ (by assumption))
    | dsimp only [resState_done, resState_wait, resState_again])

theorem syncRead_keeps {gr : Group → Bool} {s0 : State} {s : State} {k : Nat} {mask : BitVec 8} (hk : Keeps gr s0 s) :
    Keeps gr s0 ((syncRead s k mask).1) := by
  unfold syncRead
  repeat' (first
    | (with_reducible assumption)
    | (with_reducible apply readWhole_keeps)
    | (with_reducible apply checkLine_keeps)
    | (with_reducible refine Keeps.ite (fun _ => ?_) (fun _ => ?_))
    | (with_reducible refine Keeps.ite_fst (fun _ => ?_) (fun _ => ?_)))

theorem syncSend_keeps {gr : Group → Bool} {s0 : State} {s : State} {k : Nat} {o : Op} {d : LineData} {m : LineMask} (hk : Keeps gr s0 s) :
    Keeps gr s0 (syncSend s k o d m) := by
  unfold syncSend
  repeat' (first
    | (with_reducible assumption)
    | (with_reducible apply ttSend_keeps)
    | (with_reducible refine Keeps.ite (fun _ => ?_) (fun _ => ?_))
    | (with_reducible refine Keeps.ite_fst (fun _ => ?_) (fun _ => ?_))
    | (with_reducible refine Keeps.ite_snd (fun _ => ?_) (fun _ => ?_))
    | (simp only [Keeps.mk_iff]; with_reducible refine KeepsParts.same (t := _) ?_ (by rfl) rfl rfl rfl))

theorem unveil_keeps {gr : Group → Bool} {s0 : State} {s : State} {line : Nat} {m : LineMask} (hk : Keeps gr s0 s) :
    Keeps gr s0 (unveil s line m) := by
  unfold unveil
  repeat' (first
    | (with_reducible assumption)
    | (with_reducible apply veil_keeps)
    | (with_reducible refine Keeps.ite (fun _ => ?_) (fun _ => ?_))
    | (with_reducible refine Keeps.ite_fst (fun _ => ?_) (fun _ => ?_))
    | (with_reducible refine Keeps.ite_snd (fun _ => ?_) (fun _ => ?_))
    | (simp only [Keeps.mk_iff]; with_reducible refine KeepsParts.same (t := _) ?_ (by rfl) rfl rfl rfl))

theorem writeUse_keeps {gr : Group → Bool} {s0 : State} {s : State} {o : Op} {k : Nat} {m : LineMask} (hk : Keeps gr s0 s) :
    Keeps gr s0 (writeUse s o k m) := by
  unfold writeUse
  repeat' (first
    | (with_reducible assumption)
    | (with_reducible apply arrayUse_keeps))

theorem writeSlot_keeps {gr : Group → Bool} {s0 : State} {s : State} {k : Nat} {d : LineData} {m : LineMask} {dirty : Bool} (hk : Keeps gr s0 s) :
    Keeps gr s0 (writeSlot s k d m dirty) := by
  unfold writeSlot
  repeat' (first
    | (with_reducible assumption)
    | (with_reducible apply storeLine_keeps)
    | (with_reducible refine Keeps.ite (fun _ => ?_) (fun _ => ?_))
    | (with_reducible refine Keeps.ite_fst (fun _ => ?_) (fun _ => ?_))
    | (with_reducible refine Keeps.ite_snd (fun _ => ?_) (fun _ => ?_))
    | (simp only [Keeps.mk_iff]; with_reducible refine KeepsParts.same (t := _) ?_ (by rfl) rfl rfl rfl))

theorem baleCount_keeps {gr : Group → Bool} {s0 : State} {s : State} {attr : Nat} {o : Op} {b : Baled} (hk : Keeps gr s0 s) :
    Keeps gr s0 (baleCount s attr o b) := by
  unfold baleCount
  repeat' (first
    | (with_reducible assumption)
    | (with_reducible apply evN_keeps)
    | (with_reducible apply arithUse_keeps)
    | (with_reducible refine Keeps.ite (fun _ => ?_) (fun _ => ?_)))

theorem writeMemory_keeps {gr : Group → Bool} {s0 : State} {s : State} {o : Op} {b : Baled} (hk : Keeps gr s0 s) :
    Keeps gr s0 (writeMemory s o b) := by
  unfold writeMemory
  repeat' (first
    | (with_reducible assumption)
    | (with_reducible apply finish_keeps)
    | (with_reducible apply memWrite_keeps)
    | (with_reducible apply traceFlag_keeps)
    | (with_reducible refine Keeps.ite (fun _ => ?_) (fun _ => ?_))
    | (with_reducible refine Keeps.ite_fst (fun _ => ?_) (fun _ => ?_))
    | (with_reducible refine Keeps.ite_snd (fun _ => ?_) (fun _ => ?_))
    | (with_reducible refine Keeps.foldl _ _ ?_ (fun t a hk => ?_))
    | (with_reducible refine Keeps.foldl_fst _ _ _ ?_ (fun x a hk => ?_))
    | (with_reducible refine Keeps.foldl_snd _ _ _ ?_ (fun x a hk => ?_))
    | dsimp only
    | split)

theorem writeThrough_keeps {gr : Group → Bool} {s0 : State} {s : State} {o : Op} {attr li : Nat} {b : Baled} {alloc : Bool} (hk : Keeps gr s0 s) :
    Keeps gr s0 (resState (writeThrough s o attr li b alloc)) := by
  unfold writeThrough
  repeat' (first
    | (with_reducible assumption)
    | (with_reducible apply mergeWrite_keeps)
    | (with_reducible apply mergeWait_keeps)
    | (with_reducible apply mheSet_keeps)
    | (with_reducible apply finish_keeps)
    | (with_reducible apply hitAccess_keeps)
    | (with_reducible apply closeFor_keeps)
    | (with_reducible apply lineDrop_keeps)
    | (with_reducible apply checkLine_keeps)
    | (with_reducible apply writeSlot_keeps)
    | (with_reducible apply writeUse_keeps)
    | (with_reducible apply hitEv_keeps)
    | (with_reducible apply missAccess_keeps)
    | (with_reducible apply ev_keeps)
    | (with_reducible apply mheWait_keeps)
    | (with_reducible apply findWay_keeps)
    | (with_reducible apply setFilling_keeps)
    | (with_reducible apply stage_keeps)
    | (with_reducible apply mheStart_keeps)
    | (with_reducible refine Keeps.ite (fun _ => ?_) (fun _ => ?_))
    | (with_reducible refine Keeps.ite_fst (fun _ => ?_) (fun _ => ?_))
    | (with_reducible refine Keeps.ite_snd (fun _ => ?_) (fun _ => ?_))
    | (with_reducible refine Keeps.ite_res (fun _ => ?_) (fun _ => ?_))
    | (with_reducible refine Keeps.of_fst (y := (_, _)) (x := mergeWait _ _ _) ?_ (by assumption))
    | (with_reducible refine Keeps.of_fst (y := (_, _)) (x := checkLine _ _ _ _ _) ?_ (by assumption))
    | (with_reducible refine Keeps.of_fst (y := (_, _)) (x := mheWait _ _) ?_ (by assumption))
    | (with_reducible refine Keeps.of_busy (x := findWay _ _ _ _ _) ?_ (by assumption))
    | (with_reducible refine Keeps.of_noWay (x := findWay _ _ _ _ _) ?_ (by assumption))
    | (with_reducible refine Keeps.of_slot (x := findWay _ _ _ _ _) ?_ (by assumption))
    | dsimp only [resState_done, resState_wait, resState_again]
    | dsimp only
    | split)

theorem writeMerge_keeps {gr : Group → Bool} {s0 : State} {s : State} {o : Op} {attr li : Nat} {b : Baled} {m : Mhe} (hk : Keeps gr s0 s) :
    Keeps gr s0 (resState (writeMerge s o attr li b m)) := by
  unfold writeMerge
  repeat' (first
    | (with_reducible assumption)
    | (with_reducible apply mirrorRoomFill_keeps)
    | (with_reducible apply lagWait_keeps)
    | (with_reducible apply mheSet_keeps)
    | (with_reducible apply finish_keeps)
    | (with_reducible apply baleCount_keeps)
    | (with_reducible apply hitAccess_keeps)
    | (with_reducible apply traceFlag_keeps)
    | (with_reducible apply ev_keeps)
    | (with_reducible refine Keeps.ite (fun _ => ?_) (fun _ => ?_))
    | (with_reducible refine Keeps.ite_fst (fun _ => ?_) (fun _ => ?_))
    | (with_reducible refine Keeps.ite_snd (fun _ => ?_) (fun _ => ?_))
    | (with_reducible refine Keeps.ite_res (fun _ => ?_) (fun _ => ?_))
    | (with_reducible refine Keeps.of_fst (y := (_, _)) (x := mirrorRoomFill _ _ _) ?_ (by assumption))
    | (with_reducible refine Keeps.of_done (x := lagWait _ _) ?_ (by assumption))
    | (with_reducible refine Keeps.of_wait (x := lagWait _ _) ?_ (by assumption))
    | (with_reducible refine Keeps.of_again (x := lagWait _ _) ?_ (by assumption))
    | dsimp only [resState_done, resState_wait, resState_again]
    | dsimp only
    | split)

theorem writeHit_keeps {gr : Group → Bool} {s0 : State} {s : State} {o : Op} {attr li : Nat} {b : Baled} {k : Nat} (hk : Keeps gr s0 s) :
    Keeps gr s0 (resState (writeHit s o attr li b k)) := by
  unfold writeHit
  repeat' (first
    | (with_reducible assumption)
    | (with_reducible apply logFirst_keeps)
    | (with_reducible apply mirrorRoom_keeps)
    | (with_reducible apply lagWait_keeps)
    | (with_reducible apply crcFieldCheck_keeps)
    | (with_reducible apply checkLine_keeps)
    | (with_reducible apply syncRead_keeps)
    | (with_reducible apply syncSend_keeps)
    | (with_reducible apply ev_keeps)
    | (with_reducible apply unveil_keeps)
    | (with_reducible apply writeSlot_keeps)
    | (with_reducible apply writeUse_keeps)
    | (with_reducible apply hitEv_keeps)
    | (with_reducible apply linePut_keeps)
    | (with_reducible apply finish_keeps)
    | (with_reducible apply baleCount_keeps)
    | (with_reducible apply hitAccess_keeps)
    | (with_reducible refine Keeps.ite (fun _ => ?_) (fun _ => ?_))
    | (with_reducible refine Keeps.ite_fst (fun _ => ?_) (fun _ => ?_))
    | (with_reducible refine Keeps.ite_snd (fun _ => ?_) (fun _ => ?_))
    | (with_reducible refine Keeps.ite_res (fun _ => ?_) (fun _ => ?_))
    | (with_reducible refine Keeps.of_fst (y := (_, _)) (x := logFirst _ _ _) ?_ (by assumption))
    | (with_reducible refine Keeps.of_fst (y := (_, _)) (x := mirrorRoom _ _) ?_ (by assumption))
    | (with_reducible refine Keeps.of_done (x := lagWait _ _) ?_ (by assumption))
    | (with_reducible refine Keeps.of_wait (x := lagWait _ _) ?_ (by assumption))
    | (with_reducible refine Keeps.of_again (x := lagWait _ _) ?_ (by assumption))
    | (with_reducible refine Keeps.of_fst (y := (_, _)) (x := checkLine _ _ _ _ _) ?_ (by assumption))
    | (with_reducible refine Keeps.of_fst (y := (_, _)) (x := syncRead _ _ _) ?_ (by assumption))
    | dsimp only [resState_done, resState_wait, resState_again])

theorem writeWhole_keeps {gr : Group → Bool} {s0 : State} {s : State} {o : Op} {attr li : Nat} {b : Baled} {age k : Nat} (hk : Keeps gr s0 s) :
    Keeps gr s0 (writeWhole s o attr li b age k) := by
  unfold writeWhole
  repeat' (first
    | (with_reducible assumption)
    | (with_reducible apply storeLine_keeps)
    | (with_reducible apply arrayUse_keeps)
    | (with_reducible apply ev_keeps)
    | (with_reducible apply finish_keeps)
    | (with_reducible apply baleCount_keeps)
    | (with_reducible apply missAccess_keeps))

theorem writeMiss_keeps {gr : Group → Bool} {s0 : State} {s : State} {o : Op} {attr li : Nat} {b : Baled} {age : Nat} (hk : Keeps gr s0 s) :
    Keeps gr s0 (resState (writeMiss s o attr li b age)) := by
  unfold writeMiss
  repeat' (first
    | (with_reducible assumption)
    | (with_reducible apply mheWait_keeps)
    | (with_reducible apply mirrorRoomMiss_keeps)
    | (with_reducible apply lagWait_keeps)
    | (with_reducible apply findWay_keeps)
    | (with_reducible apply missAccess_keeps)
    | (with_reducible apply baleCount_keeps)
    | (with_reducible apply writeMemory_keeps)
    | (with_reducible apply ev_keeps)
    | (with_reducible apply writeWhole_keeps)
    | (with_reducible apply setFilling_keeps)
    | (with_reducible apply mheStart_keeps)
    | (with_reducible apply stage_keeps)
    | (with_reducible apply finish_keeps)
    | (with_reducible refine Keeps.ite (fun _ => ?_) (fun _ => ?_))
    | (with_reducible refine Keeps.ite_fst (fun _ => ?_) (fun _ => ?_))
    | (with_reducible refine Keeps.ite_snd (fun _ => ?_) (fun _ => ?_))
    | (with_reducible refine Keeps.ite_res (fun _ => ?_) (fun _ => ?_))
    | (with_reducible refine Keeps.of_fst (y := (_, _)) (x := mheWait _ _) ?_ (by assumption))
    | (with_reducible refine Keeps.of_fst (y := (_, _)) (x := mirrorRoomMiss _ _ _ _) ?_ (by assumption))
    | (with_reducible refine Keeps.of_done (x := lagWait _ _) ?_ (by assumption))
    | (with_reducible refine Keeps.of_wait (x := lagWait _ _) ?_ (by assumption))
    | (with_reducible refine Keeps.of_again (x := lagWait _ _) ?_ (by assumption))
    | (with_reducible refine Keeps.of_busy (x := findWay _ _ _ _ _) ?_ (by assumption))
    | (with_reducible refine Keeps.of_noWay (x := findWay _ _ _ _ _) ?_ (by assumption))
    | (with_reducible refine Keeps.of_slot (x := findWay _ _ _ _ _) ?_ (by assumption))
    | dsimp only [resState_done, resState_wait, resState_again]
    | dsimp only
    | split)

theorem writeBack_keeps {gr : Group → Bool} {s0 : State} {s : State} {o : Op} {attr li : Nat} {b : Baled} {age : Nat} (hk : Keeps gr s0 s) :
    Keeps gr s0 (resState (writeBack s o attr li b age)) := by
  unfold writeBack
  repeat' (first
    | (with_reducible assumption)
    | (with_reducible apply mergeWait_keeps)
    | (with_reducible apply mergeAck_keeps)
    | (with_reducible apply writeMerge_keeps)
    | (with_reducible apply closeFor_keeps)
    | (with_reducible apply writeHit_keeps)
    | (with_reducible apply writeMiss_keeps)
    | (with_reducible refine Keeps.ite (fun _ => ?_) (fun _ => ?_))
    | (with_reducible refine Keeps.ite_fst (fun _ => ?_) (fun _ => ?_))
    | (with_reducible refine Keeps.ite_snd (fun _ => ?_) (fun _ => ?_))
    | (with_reducible refine Keeps.ite_res (fun _ => ?_) (fun _ => ?_))
    | (with_reducible refine Keeps.of_fst (y := (_, _)) (x := mergeWait _ _ _) ?_ (by assumption))
    | (with_reducible refine Keeps.of_fst (y := (_, _)) (x := mergeAck _ _) ?_ (by assumption))
    | (with_reducible refine Keeps.of_done (x := writeMerge _ _ _ _ _ _) ?_ (by assumption))
    | (with_reducible refine Keeps.of_wait (x := writeMerge _ _ _ _ _ _) ?_ (by assumption))
    | (with_reducible refine Keeps.of_again (x := writeMerge _ _ _ _ _ _) ?_ (by assumption))
    | (with_reducible refine Keeps.of_done (x := writeHit _ _ _ _ _ _) ?_ (by assumption))
    | (with_reducible refine Keeps.of_wait (x := writeHit _ _ _ _ _ _) ?_ (by assumption))
    | (with_reducible refine Keeps.of_again (x := writeHit _ _ _ _ _ _) ?_ (by assumption))
    | (with_reducible refine Keeps.of_done (x := writeMiss _ _ _ _ _ _) ?_ (by assumption))
    | (with_reducible refine Keeps.of_wait (x := writeMiss _ _ _ _ _ _) ?_ (by assumption))
    | (with_reducible refine Keeps.of_again (x := writeMiss _ _ _ _ _ _) ?_ (by assumption))
    | dsimp only [resState_done, resState_wait, resState_again]
    | dsimp only
    | split)

theorem writeLine_keeps {gr : Group → Bool} {s0 : State} {s : State} {o : Op} {attr li : Nat} (hk : Keeps gr s0 s) :
    Keeps gr s0 (resState (writeLine s o attr li)) := by
  unfold writeLine
  repeat' (first
    | (with_reducible assumption)
    | (with_reducible apply finish_keeps)
    | (with_reducible apply mergeDrainWhere_keeps)
    | (with_reducible apply baleCount_keeps)
    | (with_reducible apply writeMemory_keeps)
    | (with_reducible apply writeThrough_keeps)
    | (with_reducible apply writeBack_keeps)
    | (with_reducible refine Keeps.ite (fun _ => ?_) (fun _ => ?_))
    | (with_reducible refine Keeps.ite_fst (fun _ => ?_) (fun _ => ?_))
    | (with_reducible refine Keeps.ite_snd (fun _ => ?_) (fun _ => ?_))
    | (with_reducible refine Keeps.ite_res (fun _ => ?_) (fun _ => ?_))
    | (with_reducible refine Keeps.of_done (x := writeThrough _ _ _ _ _ _) ?_ (by assumption))
    | (with_reducible refine Keeps.of_wait (x := writeThrough _ _ _ _ _ _) ?_ (by assumption))
    | (with_reducible refine Keeps.of_again (x := writeThrough _ _ _ _ _ _) ?_ (by assumption))
    | (with_reducible refine Keeps.of_done (x := writeBack _ _ _ _ _ _) ?_ (by assumption))
    | (with_reducible refine Keeps.of_wait (x := writeBack _ _ _ _ _ _) ?_ (by assumption))
    | (with_reducible refine Keeps.of_again (x := writeBack _ _ _ _ _ _) ?_ (by assumption))
    | dsimp only [resState_done, resState_wait, resState_again])

theorem atomAck_keeps {gr : Group → Bool} {s0 : State} {s : State} {o : Op} (hk : Keeps gr s0 s) :
    Keeps gr s0 ((atomAck s o).1) := by
  unfold atomAck
  repeat' (first
    | (with_reducible assumption)
    | (with_reducible apply settle_keeps)
    | (with_reducible apply cmpl_keeps)
    | (with_reducible apply stage_keeps)
    | (with_reducible refine Keeps.ite (fun _ => ?_) (fun _ => ?_))
    | (with_reducible refine Keeps.ite_fst (fun _ => ?_) (fun _ => ?_)))

theorem atomAckEntry_keeps {gr : Group → Bool} {s0 : State} {s : State} {o : Op} {li : Nat} (hk : Keeps gr s0 s) :
    Keeps gr s0 ((atomAckEntry s o li).1) := by
  unfold atomAckEntry
  repeat' (first
    | (with_reducible assumption)
    | (with_reducible apply atomAck_keeps)
    | (with_reducible refine Keeps.ite (fun _ => ?_) (fun _ => ?_))
    | (with_reducible refine Keeps.ite_fst (fun _ => ?_) (fun _ => ?_)))

theorem atomDone_keeps {gr : Group → Bool} {s0 : State} {s : State} {o : Op} {d : LineData} {inv : Nat} (hk : Keeps gr s0 s) :
    Keeps gr s0 (atomDone s o d inv) := by
  unfold atomDone
  repeat' (first
    | (with_reducible assumption)
    | (with_reducible apply evN_keeps)
    | (with_reducible apply stage_keeps)
    | (with_reducible apply ev_keeps)
    | (with_reducible apply opEnd_keeps)
    | (with_reducible apply answer_keeps)
    | (with_reducible apply atomAck_keeps)
    | (with_reducible refine Keeps.ite (fun _ => ?_) (fun _ => ?_)))

theorem atomOpen_keeps {gr : Group → Bool} {s0 : State} {s : State} {o : Op} {x : OpenLine} {old : LineData} (hk : Keeps gr s0 s) :
    Keeps gr s0 (atomOpen s o x old) := by
  unfold atomOpen
  repeat' (first
    | (with_reducible assumption)
    | (with_reducible apply openSet_keeps)
    | (with_reducible apply linePut_keeps)
    | (with_reducible apply unveil_keeps)
    | (with_reducible apply atomDone_keeps)
    | (with_reducible apply activity_keeps)
    | (with_reducible refine Keeps.ite (fun _ => ?_) (fun _ => ?_))
    | (with_reducible refine Keeps.ite_fst (fun _ => ?_) (fun _ => ?_))
    | (with_reducible refine Keeps.ite_snd (fun _ => ?_) (fun _ => ?_))
    | (simp only [Keeps.mk_iff]; with_reducible refine KeepsParts.same (t := _) ?_ (by rfl) rfl rfl rfl))

theorem contribute_keeps {gr : Group → Bool} {s0 : State} {s : State} {w : Window} {afmt j : Nat} {sel : List Bool} {vals : List Nat} {data : Bytes} {first count : Nat} (hk : Keeps gr s0 s) :
    Keeps gr s0 (contribute s w afmt j sel vals data first count) := by
  unfold contribute
  repeat' (first
    | (with_reducible assumption)
    | (with_reducible apply ev_keeps)
    | (with_reducible apply flipFired_keeps)
    | (with_reducible refine Keeps.ite (fun _ => ?_) (fun _ => ?_))
    | (with_reducible refine Keeps.ite_fst (fun _ => ?_) (fun _ => ?_))
    | (with_reducible refine Keeps.ite_snd (fun _ => ?_) (fun _ => ?_))
    | (simp only [Keeps.mk_iff]; with_reducible refine KeepsParts.same (t := _) ?_ (by rfl) rfl rfl rfl)
    | (with_reducible refine Keeps.foldl _ _ ?_ (fun t a hk => ?_))
    | (with_reducible refine Keeps.foldl_fst _ _ _ ?_ (fun x a hk => ?_)))

theorem windowLost_keeps {gr : Group → Bool} {s0 : State} {s : State} {w : Window} {k detector : Nat} (hk : Keeps gr s0 s) :
    Keeps gr s0 (windowLost s w k detector) := by
  unfold windowLost
  repeat' (first
    | (with_reducible assumption)
    | (with_reducible apply postError_keeps)
    | (with_reducible refine Keeps.ite (fun _ => ?_) (fun _ => ?_))
    | (with_reducible refine Keeps.ite_fst (fun _ => ?_) (fun _ => ?_))
    | (with_reducible refine Keeps.ite_snd (fun _ => ?_) (fun _ => ?_))
    | (simp only [Keeps.mk_iff]; with_reducible refine KeepsParts.same (t := _) ?_ (by rfl) rfl rfl rfl))

theorem contribAt_keeps {gr : Group → Bool} {s0 : State} {s : State} {w : Window} {addr afmt n : Nat} {sel : List Bool} {bytes : Bytes} {qos : Nat} (hk : Keeps gr s0 s) :
    Keeps gr s0 ((contribAt s w addr afmt n sel bytes qos).1) := by
  unfold contribAt
  repeat' (first
    | (with_reducible assumption)
    | (with_reducible apply windowLost_keeps)
    | (with_reducible apply contribute_keeps)
    | (with_reducible apply activity_keeps)
    | (with_reducible refine Keeps.ite (fun _ => ?_) (fun _ => ?_))
    | (with_reducible refine Keeps.ite_fst (fun _ => ?_) (fun _ => ?_))
    | (with_reducible refine Keeps.ite_snd (fun _ => ?_) (fun _ => ?_))
    | dsimp only
    | split)

theorem atomWindow_keeps {gr : Group → Bool} {s0 : State} {s : State} {o : Op} {w : Window} (hk : Keeps gr s0 s) :
    Keeps gr s0 (atomWindow s o w) := by
  unfold atomWindow
  repeat' (first
    | (with_reducible assumption)
    | (with_reducible apply finish_keeps)
    | (with_reducible apply contribAt_keeps)
    | (with_reducible apply opEnd_keeps)
    | (with_reducible apply cmpl_keeps)
    | (with_reducible apply stage_keeps)
    | (with_reducible refine Keeps.ite (fun _ => ?_) (fun _ => ?_))
    | (with_reducible refine Keeps.ite_fst (fun _ => ?_) (fun _ => ?_))
    | (with_reducible refine Keeps.ite_snd (fun _ => ?_) (fun _ => ?_))
    | (with_reducible refine Keeps.of_fst (y := (_, _)) (x := contribAt _ _ _ _ _ _ _ _) ?_ (by assumption))
    | dsimp only
    | split)

theorem atomRead_keeps {gr : Group → Bool} {s0 : State} {s : State} {o : Op} {li : Nat} {through : Bool} (hk : Keeps gr s0 s) :
    Keeps gr s0 (resState (atomRead s o li through)) := by
  unfold atomRead
  repeat' (first
    | (with_reducible assumption)
    | (with_reducible apply mergeDrainWhere_keeps)
    | (with_reducible apply mheWait_keeps)
    | (with_reducible apply atomAckEntry_keeps)
    | (with_reducible apply mheStart_keeps)
    | (with_reducible apply stage_keeps)
    | (with_reducible apply traceFlag_keeps)
    | (with_reducible refine Keeps.ite (fun _ => ?_) (fun _ => ?_))
    | (with_reducible refine Keeps.ite_fst (fun _ => ?_) (fun _ => ?_))
    | (with_reducible refine Keeps.ite_snd (fun _ => ?_) (fun _ => ?_))
    | (with_reducible refine Keeps.ite_res (fun _ => ?_) (fun _ => ?_))
    | (with_reducible refine Keeps.of_fst (y := (_, _)) (x := mheWait _ _) ?_ (by assumption))
    | (with_reducible refine Keeps.of_fst (y := (_, _)) (x := atomAckEntry _ _ _) ?_ (by assumption))
    | dsimp only [resState_done, resState_wait, resState_again])

theorem atomMemSide_keeps {gr : Group → Bool} {s0 : State} {s : State} {o : Op} (hk : Keeps gr s0 s) :
    Keeps gr s0 (resState (atomMemSide s o)) := by
  unfold atomMemSide
  repeat' (first
    | (with_reducible assumption)
    | (with_reducible apply atomRead_keeps)
    | (with_reducible apply ev_keeps)
    | (with_reducible refine Keeps.ite (fun _ => ?_) (fun _ => ?_))
    | (with_reducible refine Keeps.ite_fst (fun _ => ?_) (fun _ => ?_))
    | (with_reducible refine Keeps.ite_snd (fun _ => ?_) (fun _ => ?_))
    | (with_reducible refine Keeps.ite_res (fun _ => ?_) (fun _ => ?_))
    | (with_reducible refine Keeps.of_done (x := atomRead _ _ _ _) ?_ (by assumption))
    | (with_reducible refine Keeps.of_wait (x := atomRead _ _ _ _) ?_ (by assumption))
    | (with_reducible refine Keeps.of_again (x := atomRead _ _ _ _) ?_ (by assumption))
    | dsimp only [resState_done, resState_wait, resState_again]
    | dsimp only
    | split)

theorem memSideEnd_keeps {gr : Group → Bool} {s0 : State} {s : State} {m : Mhe} (hk : Keeps gr s0 s) :
    Keeps gr s0 (memSideEnd s m) := by
  unfold memSideEnd
  repeat' (first
    | (with_reducible assumption)
    | (with_reducible apply mheDel_keeps)
    | (with_reducible apply finish_keeps)
    | (with_reducible apply atomDone_keeps)
    | (with_reducible apply activity_keeps)
    | (with_reducible apply mergeWrite_keeps)
    | (with_reducible apply mheSet_keeps)
    | (with_reducible apply memWriteLine_keeps)
    | (with_reducible refine Keeps.ite (fun _ => ?_) (fun _ => ?_))
    | (with_reducible refine Keeps.ite_fst (fun _ => ?_) (fun _ => ?_))
    | (with_reducible refine Keeps.ite_snd (fun _ => ?_) (fun _ => ?_))
    | dsimp only
    | split)

theorem memSidePump_keeps {gr : Group → Bool} {s0 : State} {s : State} (hk : Keeps gr s0 s) :
    Keeps gr s0 (memSidePump s) := by
  unfold memSidePump
  repeat' (first
    | (with_reducible assumption)
    | (with_reducible apply memSideEnd_keeps)
    | (with_reducible refine Keeps.ite (fun _ => ?_) (fun _ => ?_))
    | (with_reducible refine Keeps.ite_fst (fun _ => ?_) (fun _ => ?_))
    | (with_reducible refine Keeps.ite_snd (fun _ => ?_) (fun _ => ?_))
    | (with_reducible refine Keeps.foldl _ _ ?_ (fun t a hk => ?_)))

theorem atomThrough_keeps {gr : Group → Bool} {s0 : State} {s : State} {o : Op} {k li : Nat} (hk : Keeps gr s0 s) :
    Keeps gr s0 (resState (atomThrough s o k li)) := by
  unfold atomThrough
  repeat' (first
    | (with_reducible assumption)
    | (with_reducible apply checkLine_keeps)
    | (with_reducible apply lineDrop_keeps)
    | (with_reducible apply writeSlot_keeps)
    | (with_reducible apply writeUse_keeps)
    | (with_reducible apply atomDone_keeps)
    | (with_reducible apply mergeWrite_keeps)
    | (with_reducible apply hitAccess_keeps)
    | (with_reducible refine Keeps.ite (fun _ => ?_) (fun _ => ?_))
    | (with_reducible refine Keeps.ite_fst (fun _ => ?_) (fun _ => ?_))
    | (with_reducible refine Keeps.ite_snd (fun _ => ?_) (fun _ => ?_))
    | (with_reducible refine Keeps.ite_res (fun _ => ?_) (fun _ => ?_))
    | (with_reducible refine Keeps.of_fst (y := (_, _)) (x := checkLine _ _ _ _ _) ?_ (by assumption))
    | dsimp only [resState_done, resState_wait, resState_again])

theorem atomMiss_keeps {gr : Group → Bool} {s0 : State} {s : State} {o : Op} {attr li : Nat} (hk : Keeps gr s0 s) :
    Keeps gr s0 (resState (atomMiss s o attr li)) := by
  unfold atomMiss
  repeat' (first
    | (with_reducible assumption)
    | (with_reducible apply mheWait_keeps)
    | (with_reducible apply mirrorRoomMiss_keeps)
    | (with_reducible apply lagWait_keeps)
    | (with_reducible apply findWay_keeps)
    | (with_reducible apply atomRead_keeps)
    | (with_reducible apply atomMemSide_keeps)
    | (with_reducible apply missAccess_keeps)
    | (with_reducible apply atomAckEntry_keeps)
    | (with_reducible apply setFilling_keeps)
    | (with_reducible apply stage_keeps)
    | (with_reducible apply mheStart_keeps)
    | (with_reducible refine Keeps.ite (fun _ => ?_) (fun _ => ?_))
    | (with_reducible refine Keeps.ite_fst (fun _ => ?_) (fun _ => ?_))
    | (with_reducible refine Keeps.ite_snd (fun _ => ?_) (fun _ => ?_))
    | (with_reducible refine Keeps.ite_res (fun _ => ?_) (fun _ => ?_))
    | (with_reducible refine Keeps.of_fst (y := (_, _)) (x := mheWait _ _) ?_ (by assumption))
    | (with_reducible refine Keeps.of_fst (y := (_, _)) (x := mirrorRoomMiss _ _ _ _) ?_ (by assumption))
    | (with_reducible refine Keeps.of_done (x := lagWait _ _) ?_ (by assumption))
    | (with_reducible refine Keeps.of_wait (x := lagWait _ _) ?_ (by assumption))
    | (with_reducible refine Keeps.of_again (x := lagWait _ _) ?_ (by assumption))
    | (with_reducible refine Keeps.of_busy (x := findWay _ _ _ _ _) ?_ (by assumption))
    | (with_reducible refine Keeps.of_noWay (x := findWay _ _ _ _ _) ?_ (by assumption))
    | (with_reducible refine Keeps.of_slot (x := findWay _ _ _ _ _) ?_ (by assumption))
    | (with_reducible refine Keeps.of_done (x := atomRead _ _ _ _) ?_ (by assumption))
    | (with_reducible refine Keeps.of_wait (x := atomRead _ _ _ _) ?_ (by assumption))
    | (with_reducible refine Keeps.of_again (x := atomRead _ _ _ _) ?_ (by assumption))
    | (with_reducible refine Keeps.of_done (x := atomMemSide _ _) ?_ (by assumption))
    | (with_reducible refine Keeps.of_wait (x := atomMemSide _ _) ?_ (by assumption))
    | (with_reducible refine Keeps.of_again (x := atomMemSide _ _) ?_ (by assumption))
    | (with_reducible refine Keeps.of_fst (y := (_, _)) (x := atomAckEntry _ _ _) ?_ (by assumption))
    | (with_reducible refine Keeps.of_fst (y := (_, _)) (x := ite _ _ _) ?_ (by assumption))
    | (with_reducible refine Keeps.of_fst (y := (_, _, _)) (x := ite _ _ _) ?_ (by assumption))
    | (with_reducible refine Keeps.of_done (x := ite _ _ _) ?_ (by assumption))
    | (with_reducible refine Keeps.of_wait (x := ite _ _ _) ?_ (by assumption))
    | (with_reducible refine Keeps.of_again (x := ite _ _ _) ?_ (by assumption))
    | dsimp only [resState_done, resState_wait, resState_again]
    | dsimp only
    | split)

theorem atomEntry_keeps {gr : Group → Bool} {s0 : State} {s : State} {o : Op} {li : Nat} {x : OpenLine} (hk : Keeps gr s0 s) :
    Keeps gr s0 (resState (atomEntry s o li x)) := by
  unfold atomEntry
  repeat' (first
    | (with_reducible assumption)
    | (with_reducible apply logFirst_keeps)
    | (with_reducible apply syncSend_keeps)
    | (with_reducible apply atomOpen_keeps)
    | (with_reducible apply hitAccess_keeps)
    | (with_reducible refine Keeps.ite (fun _ => ?_) (fun _ => ?_))
    | (with_reducible refine Keeps.ite_fst (fun _ => ?_) (fun _ => ?_))
    | (with_reducible refine Keeps.ite_snd (fun _ => ?_) (fun _ => ?_))
    | (with_reducible refine Keeps.ite_res (fun _ => ?_) (fun _ => ?_))
    | (with_reducible refine Keeps.of_fst (y := (_, _)) (x := logFirst _ _ _) ?_ (by assumption))
    | dsimp only [resState_done, resState_wait, resState_again])

theorem atomHit_keeps {gr : Group → Bool} {s0 : State} {s : State} {o : Op} {attr li k : Nat} (hk : Keeps gr s0 s) :
    Keeps gr s0 (resState (atomHit s o attr li k)) := by
  unfold atomHit
  repeat' (first
    | (with_reducible assumption)
    | (with_reducible apply checkLine_keeps)
    | (with_reducible apply logFirst_keeps)
    | (with_reducible apply mirrorRoom_keeps)
    | (with_reducible apply lagWait_keeps)
    | (with_reducible apply syncSend_keeps)
    | (with_reducible apply openLine_keeps)
    | (with_reducible apply arrayUse_keeps)
    | (with_reducible apply linePut_keeps)
    | (with_reducible apply atomOpen_keeps)
    | (with_reducible apply hitAccess_keeps)
    | (with_reducible refine Keeps.ite (fun _ => ?_) (fun _ => ?_))
    | (with_reducible refine Keeps.ite_fst (fun _ => ?_) (fun _ => ?_))
    | (with_reducible refine Keeps.ite_snd (fun _ => ?_) (fun _ => ?_))
    | (with_reducible refine Keeps.ite_res (fun _ => ?_) (fun _ => ?_))
    | (simp only [Keeps.mk_iff]; with_reducible refine KeepsParts.same (t := _) ?_ (by rfl) rfl rfl rfl)
    | (with_reducible refine Keeps.of_fst (y := (_, _)) (x := checkLine _ _ _ _ _) ?_ (by assumption))
    | (with_reducible refine Keeps.of_fst (y := (_, _)) (x := logFirst _ _ _) ?_ (by assumption))
    | (with_reducible refine Keeps.of_fst (y := (_, _)) (x := mirrorRoom _ _) ?_ (by assumption))
    | (with_reducible refine Keeps.of_done (x := lagWait _ _) ?_ (by assumption))
    | (with_reducible refine Keeps.of_wait (x := lagWait _ _) ?_ (by assumption))
    | (with_reducible refine Keeps.of_again (x := lagWait _ _) ?_ (by assumption))
    | dsimp only [resState_done, resState_wait, resState_again]
    | dsimp only
    | split)

theorem atomLine_keeps {gr : Group → Bool} {s0 : State} {s : State} {o : Op} {attr li : Nat} (hk : Keeps gr s0 s) :
    Keeps gr s0 (resState (atomLine s o attr li)) := by
  unfold atomLine
  repeat' (first
    | (with_reducible assumption)
    | (with_reducible apply atomWindow_keeps)
    | (with_reducible apply atomRead_keeps)
    | (with_reducible apply atomMemSide_keeps)
    | (with_reducible apply closeLine_keeps)
    | (with_reducible apply atomEntry_keeps)
    | (with_reducible apply mergeWait_keeps)
    | (with_reducible apply atomAckEntry_keeps)
    | (with_reducible apply atomThrough_keeps)
    | (with_reducible apply atomHit_keeps)
    | (with_reducible apply atomMiss_keeps)
    | (with_reducible refine Keeps.ite (fun _ => ?_) (fun _ => ?_))
    | (with_reducible refine Keeps.ite_fst (fun _ => ?_) (fun _ => ?_))
    | (with_reducible refine Keeps.ite_snd (fun _ => ?_) (fun _ => ?_))
    | (with_reducible refine Keeps.ite_res (fun _ => ?_) (fun _ => ?_))
    | (with_reducible refine Keeps.of_done (x := atomRead _ _ _ _) ?_ (by assumption))
    | (with_reducible refine Keeps.of_wait (x := atomRead _ _ _ _) ?_ (by assumption))
    | (with_reducible refine Keeps.of_again (x := atomRead _ _ _ _) ?_ (by assumption))
    | (with_reducible refine Keeps.of_done (x := atomMemSide _ _) ?_ (by assumption))
    | (with_reducible refine Keeps.of_wait (x := atomMemSide _ _) ?_ (by assumption))
    | (with_reducible refine Keeps.of_again (x := atomMemSide _ _) ?_ (by assumption))
    | (with_reducible refine Keeps.of_done (x := atomEntry _ _ _ _) ?_ (by assumption))
    | (with_reducible refine Keeps.of_wait (x := atomEntry _ _ _ _) ?_ (by assumption))
    | (with_reducible refine Keeps.of_again (x := atomEntry _ _ _ _) ?_ (by assumption))
    | (with_reducible refine Keeps.of_fst (y := (_, _)) (x := mergeWait _ _ _) ?_ (by assumption))
    | (with_reducible refine Keeps.of_fst (y := (_, _)) (x := atomAckEntry _ _ _) ?_ (by assumption))
    | (with_reducible refine Keeps.of_done (x := atomThrough _ _ _ _) ?_ (by assumption))
    | (with_reducible refine Keeps.of_wait (x := atomThrough _ _ _ _) ?_ (by assumption))
    | (with_reducible refine Keeps.of_again (x := atomThrough _ _ _ _) ?_ (by assumption))
    | (with_reducible refine Keeps.of_done (x := atomHit _ _ _ _ _) ?_ (by assumption))
    | (with_reducible refine Keeps.of_wait (x := atomHit _ _ _ _ _) ?_ (by assumption))
    | (with_reducible refine Keeps.of_again (x := atomHit _ _ _ _ _) ?_ (by assumption))
    | (with_reducible refine Keeps.of_done (x := atomMiss _ _ _ _) ?_ (by assumption))
    | (with_reducible refine Keeps.of_wait (x := atomMiss _ _ _ _) ?_ (by assumption))
    | (with_reducible refine Keeps.of_again (x := atomMiss _ _ _ _) ?_ (by assumption))
    | dsimp only [resState_done, resState_wait, resState_again]
    | dsimp only
    | split)

theorem planStore_keeps {gr : Group → Bool} {s0 : State} {s : State} {k line li : Nat} {d : LineData} {m : LineMask} (hk : Keeps gr s0 s) :
    Keeps gr s0 ((planStore s k line li d m).1) := by
  unfold planStore
  repeat' (first
    | (with_reducible assumption)
    | (with_reducible apply checkLine_keeps)
    | (with_reducible apply ev_keeps)
    | (with_reducible apply carryLine_keeps)
    | (with_reducible apply writeSlot_keeps)
    | (with_reducible apply linePut_keeps)
    | (with_reducible apply unprotect_keeps)
    | (with_reducible refine Keeps.ite (fun _ => ?_) (fun _ => ?_))
    | (with_reducible refine Keeps.ite_fst (fun _ => ?_) (fun _ => ?_)))

theorem planSum_keeps {gr : Group → Bool} {s0 : State} {s : State} {o : Op} {k li : Nat} (hk : Keeps gr s0 s) :
    Keeps gr s0 ((planSum s o k li).1) := by
  unfold planSum
  repeat' (first
    | (with_reducible assumption)
    | (with_reducible apply checkLine_keeps)
    | (with_reducible apply planStore_keeps)
    | (with_reducible apply evN_keeps)
    | (with_reducible apply ev_keeps)
    | (with_reducible refine Keeps.ite (fun _ => ?_) (fun _ => ?_))
    | (with_reducible refine Keeps.ite_fst (fun _ => ?_) (fun _ => ?_)))

theorem planRoom_keeps {gr : Group → Bool} {s0 : State} {s : State} {line attr : Nat} {alloc : Bool} (hk : Keeps gr s0 s) :
    Keeps gr s0 ((planRoom s line attr alloc).1) := by
  unfold planRoom
  repeat' (first
    | (with_reducible assumption)
    | (with_reducible apply mirrorRoomFill_keeps)
    | (with_reducible apply mirrorRoom_keeps)
    | (with_reducible apply mirrorRoomMiss_keeps)
    | (with_reducible refine Keeps.ite (fun _ => ?_) (fun _ => ?_))
    | (with_reducible refine Keeps.ite_fst (fun _ => ?_) (fun _ => ?_))
    | (with_reducible refine Keeps.ite_snd (fun _ => ?_) (fun _ => ?_))
    | (with_reducible refine Keeps.of_fst (y := (_, _)) (x := mirrorRoomFill _ _ _) ?_ (by assumption))
    | (with_reducible refine Keeps.of_fst (y := (_, _)) (x := mirrorRoom _ _) ?_ (by assumption))
    | (with_reducible refine Keeps.of_fst (y := (_, _)) (x := mirrorRoomMiss _ _ _ _) ?_ (by assumption))
    | dsimp only
    | split)

theorem planAlloc_keeps {gr : Group → Bool} {s0 : State} {s : State} {line li qos : Nat} (hk : Keeps gr s0 s) :
    Keeps gr s0 ((planAlloc s line li qos).1) := by
  unfold planAlloc
  repeat' (first
    | (with_reducible assumption)
    | (with_reducible apply findWay_keeps)
    | (with_reducible apply ev_keeps)
    | (with_reducible apply storeLine_keeps)
    | (with_reducible apply arrayUse_keeps)
    | (with_reducible refine Keeps.ite (fun _ => ?_) (fun _ => ?_))
    | (with_reducible refine Keeps.ite_fst (fun _ => ?_) (fun _ => ?_))
    | (with_reducible refine Keeps.ite_snd (fun _ => ?_) (fun _ => ?_))
    | (with_reducible refine Keeps.of_busy (x := findWay _ _ _ _ _) ?_ (by assumption))
    | (with_reducible refine Keeps.of_noWay (x := findWay _ _ _ _ _) ?_ (by assumption))
    | (with_reducible refine Keeps.of_slot (x := findWay _ _ _ _ _) ?_ (by assumption))
    | dsimp only
    | split)

theorem planMerge_keeps {gr : Group → Bool} {s0 : State} {s : State} {x : Mhe} {li : Nat} {d : LineData} {m : LineMask} (hk : Keeps gr s0 s) :
    Keeps gr s0 (planMerge s x li d m) := by
  unfold planMerge
  repeat' (first
    | (with_reducible assumption)
    | (with_reducible apply mheSet_keeps)
    | (with_reducible apply unprotect_keeps)
    | (with_reducible refine Keeps.ite (fun _ => ?_) (fun _ => ?_)))

theorem veil_keeps {gr : Group → Bool} {s0 : State} {s : State} {line d : Nat} {st : LState} {old : LineData} {m : LineMask} (hk : Keeps gr s0 s) :
    Keeps gr s0 (veil s line d st old m) := by
  unfold veil
  repeat' (first
    | (with_reducible assumption)
    | (with_reducible refine Keeps.ite (fun _ => ?_) (fun _ => ?_))
    | (with_reducible refine Keeps.ite_fst (fun _ => ?_) (fun _ => ?_))
    | (with_reducible refine Keeps.ite_snd (fun _ => ?_) (fun _ => ?_))
    | (simp only [Keeps.mk_iff]; with_reducible refine KeepsParts.same (t := _) ?_ (by rfl) rfl rfl rfl))

theorem planOpen_keeps {gr : Group → Bool} {s0 : State} {s : State} {o : Op} {x : OpenLine} {li : Nat} (hk : Keeps gr s0 s) :
    Keeps gr s0 (planOpen s o x li) := by
  unfold planOpen
  repeat' (first
    | (with_reducible assumption)
    | (with_reducible apply veil_keeps)
    | (with_reducible apply atomOpen_keeps)
    | (with_reducible apply carryLine_keeps)
    | (with_reducible apply unprotect_keeps)
    | (with_reducible refine Keeps.ite (fun _ => ?_) (fun _ => ?_)))

theorem planMissLate_keeps {gr : Group → Bool} {s0 : State} {s : State} (hk : Keeps gr s0 s) :
    Keeps gr s0 (planMissLate s) := by
  unfold planMissLate
  repeat' (first
    | (with_reducible assumption)
    | (with_reducible apply ev_keeps)
    | (with_reducible refine Keeps.ite (fun _ => ?_) (fun _ => ?_))
    | (with_reducible refine Keeps.ite_fst (fun _ => ?_) (fun _ => ?_))
    | (with_reducible refine Keeps.ite_snd (fun _ => ?_) (fun _ => ?_))
    | (simp only [Keeps.mk_iff]; with_reducible refine KeepsParts.same (t := _) ?_ (by rfl) rfl rfl rfl))

theorem stageFill_keeps {gr : Group → Bool} {s0 : State} {s : State} {o : Op} {attr li : Nat} (hk : Keeps gr s0 s) :
    Keeps gr s0 (resState (stageFill s o attr li)) := by
  unfold stageFill
  repeat' (first
    | (with_reducible assumption)
    | (with_reducible apply stageDrop_keeps)
    | (with_reducible apply refillWay_keeps)
    | (with_reducible apply ev_keeps)
    | (with_reducible apply setFilling_keeps)
    | (with_reducible apply mheStart_keeps)
    | (with_reducible apply stage_keeps)
    | (with_reducible refine Keeps.ite (fun _ => ?_) (fun _ => ?_))
    | (with_reducible refine Keeps.ite_fst (fun _ => ?_) (fun _ => ?_))
    | (with_reducible refine Keeps.ite_snd (fun _ => ?_) (fun _ => ?_))
    | (with_reducible refine Keeps.ite_res (fun _ => ?_) (fun _ => ?_))
    | (with_reducible refine Keeps.of_busy (x := refillWay _ _ _ _ _) ?_ (by assumption))
    | (with_reducible refine Keeps.of_noWay (x := refillWay _ _ _ _ _) ?_ (by assumption))
    | (with_reducible refine Keeps.of_slot (x := refillWay _ _ _ _ _) ?_ (by assumption))
    | dsimp only [resState_done, resState_wait, resState_again]
    | dsimp only
    | split)

theorem planLeft_keeps {gr : Group → Bool} {s0 : State} {s : State} {o : Op} {attr li : Nat} (hk : Keeps gr s0 s) :
    Keeps gr s0 (resState (planLeft s o attr li)) := by
  unfold planLeft
  repeat' (first
    | (with_reducible assumption)
    | (with_reducible apply stageFill_keeps)
    | (with_reducible apply planOpen_keeps)
    | (with_reducible apply planRoom_keeps)
    | (with_reducible apply planSum_keeps)
    | (with_reducible apply atomMemSide_keeps)
    | (with_reducible apply memWriteMasked_keeps)
    | (with_reducible apply closeFor_keeps)
    | (with_reducible apply planStore_keeps)
    | (with_reducible apply planAlloc_keeps)
    | (with_reducible apply planMissLate_keeps)
    | (with_reducible refine Keeps.ite (fun _ => ?_) (fun _ => ?_))
    | (with_reducible refine Keeps.ite_fst (fun _ => ?_) (fun _ => ?_))
    | (with_reducible refine Keeps.ite_snd (fun _ => ?_) (fun _ => ?_))
    | (with_reducible refine Keeps.ite_res (fun _ => ?_) (fun _ => ?_))
    | (with_reducible refine Keeps.of_done (x := stageFill _ _ _ _) ?_ (by assumption))
    | (with_reducible refine Keeps.of_wait (x := stageFill _ _ _ _) ?_ (by assumption))
    | (with_reducible refine Keeps.of_again (x := stageFill _ _ _ _) ?_ (by assumption))
    | (with_reducible refine Keeps.of_fst (y := (_, _)) (x := planRoom _ _ _ _) ?_ (by assumption))
    | (with_reducible refine Keeps.of_fst (y := (_, _)) (x := planSum _ _ _ _) ?_ (by assumption))
    | (with_reducible refine Keeps.of_done (x := atomMemSide _ _) ?_ (by assumption))
    | (with_reducible refine Keeps.of_wait (x := atomMemSide _ _) ?_ (by assumption))
    | (with_reducible refine Keeps.of_again (x := atomMemSide _ _) ?_ (by assumption))
    | (with_reducible refine Keeps.of_fst (y := (_, _)) (x := planStore _ _ _ _ _ _) ?_ (by assumption))
    | (with_reducible refine Keeps.of_fst (y := (_, _)) (x := planAlloc _ _ _ _) ?_ (by assumption))
    | (with_reducible refine Keeps.of_fst (y := (_, _)) (x := ite _ _ _) ?_ (by assumption))
    | (with_reducible refine Keeps.of_fst (y := (_, _, _)) (x := ite _ _ _) ?_ (by assumption))
    | (with_reducible refine Keeps.of_done (x := ite _ _ _) ?_ (by assumption))
    | (with_reducible refine Keeps.of_wait (x := ite _ _ _) ?_ (by assumption))
    | (with_reducible refine Keeps.of_again (x := ite _ _ _) ?_ (by assumption))
    | dsimp only [resState_done, resState_wait, resState_again]
    | dsimp only
    | split)

end Sys2Proof.Machine
end

