-- ==== Sys2Proof/Laws/KeepsRanges.lean ====
section
/-! SUPPORT. What the operations of Machine/Ranges.lean keep (Laws/Keeps.lean). -/

namespace Sys2Proof.Machine

open Sys2Proof

set_option Elab.async false

set_option linter.unusedSimpArgs false

theorem fallowSlot_keeps {gr : Group → Bool} {s0 : State} {s : State} {k : Nat} {note : Option (Nat × Nat × Nat)} (hk : Keeps gr s0 s) :
    Keeps gr s0 (fallowSlot s k note) := by
  unfold fallowSlot
  repeat' (first
    | (with_reducible assumption)
    | (with_reducible apply storeLine_keeps)
    | (with_reducible refine Keeps.ite (fun _ => ?_) (fun _ => ?_))
    | (with_reducible refine Keeps.ite_fst (fun _ => ?_) (fun _ => ?_))
    | (with_reducible refine Keeps.ite_snd (fun _ => ?_) (fun _ => ?_))
    | (simp only [Keeps.mk_iff]; with_reducible refine KeepsParts.same (t := _) ?_ (by rfl) rfl rfl rfl))

theorem discardSlot_keeps {gr : Group → Bool} {s0 : State} {s : State} {k : Nat} {note : Option (Nat × Nat × Nat)} {fails : Bool} (hk : Keeps gr s0 s) :
    Keeps gr s0 ((discardSlot s k note fails).1) := by
  unfold discardSlot
  repeat' (first
    | (with_reducible assumption)
    | (with_reducible apply logFirst_keeps)
    | (with_reducible apply fallowSlot_keeps)
    | (with_reducible refine Keeps.ite (fun _ => ?_) (fun _ => ?_))
    | (with_reducible refine Keeps.ite_fst (fun _ => ?_) (fun _ => ?_)))

theorem rangeSnoop_keeps {gr : Group → Bool} {s0 : State} {s : State} {o : Op} {inv dropWb : Bool} (hk : Keeps gr s0 s) :
    Keeps gr s0 ((rangeSnoop s o inv dropWb).1) := by
  unfold rangeSnoop
  repeat' (first
    | (with_reducible assumption)
    | (with_reducible apply snoopFor_keeps)
    | (with_reducible apply noteOnce_keeps)
    | (with_reducible refine Keeps.ite (fun _ => ?_) (fun _ => ?_))
    | (with_reducible refine Keeps.ite_fst (fun _ => ?_) (fun _ => ?_)))

theorem flushLine_keeps {gr : Group → Bool} {s0 : State} {s : State} {o : Op} {attr : Nat} (hk : Keeps gr s0 s) :
    Keeps gr s0 (resState (flushLine s o attr)) := by
  unfold flushLine
  repeat' (first
    | (with_reducible assumption)
    | (with_reducible apply mergeDrainWhere_keeps)
    | (with_reducible apply closeFor_keeps)
    | (with_reducible apply cmdLine_keeps)
    | (with_reducible apply checkLine_keeps)
    | (with_reducible apply cleanSlot_keeps)
    | (with_reducible apply cmdWrite_keeps)
    | (with_reducible refine Keeps.ite (fun _ => ?_) (fun _ => ?_))
    | (with_reducible refine Keeps.ite_fst (fun _ => ?_) (fun _ => ?_))
    | (with_reducible refine Keeps.ite_snd (fun _ => ?_) (fun _ => ?_))
    | (with_reducible refine Keeps.ite_res (fun _ => ?_) (fun _ => ?_))
    | (with_reducible refine Keeps.of_fst (y := (_, _)) (x := checkLine _ _ _ _ _) ?_ (by assumption))
    | (with_reducible refine Keeps.of_fst (y := (_, _)) (x := cleanSlot _ _ _) ?_ (by assumption))
    | dsimp only [resState_done, resState_wait, resState_again]
    | dsimp only
    | split)

theorem invalLine_keeps {gr : Group → Bool} {s0 : State} {s : State} {o : Op} {attr : Nat} (hk : Keeps gr s0 s) :
    Keeps gr s0 (resState (invalLine s o attr)) := by
  unfold invalLine
  repeat' (first
    | (with_reducible assumption)
    | (with_reducible apply mergeDrainWhere_keeps)
    | (with_reducible apply closeFor_keeps)
    | (with_reducible apply cmdLine_keeps)
    | (with_reducible apply checkLine_keeps)
    | (with_reducible apply discardSlot_keeps)
    | (with_reducible apply cleanSlot_keeps)
    | (with_reducible apply cmdWrite_keeps)
    | (with_reducible apply lineDrop_keeps)
    | (with_reducible refine Keeps.ite (fun _ => ?_) (fun _ => ?_))
    | (with_reducible refine Keeps.ite_fst (fun _ => ?_) (fun _ => ?_))
    | (with_reducible refine Keeps.ite_snd (fun _ => ?_) (fun _ => ?_))
    | (with_reducible refine Keeps.ite_res (fun _ => ?_) (fun _ => ?_))
    | (with_reducible refine Keeps.of_fst (y := (_, _)) (x := checkLine _ _ _ _ _) ?_ (by assumption))
    | (with_reducible refine Keeps.of_fst (y := (_, _)) (x := discardSlot _ _ _ _) ?_ (by assumption))
    | (with_reducible refine Keeps.of_fst (y := (_, _)) (x := cleanSlot _ _ _) ?_ (by assumption))
    | dsimp only [resState_done, resState_wait, resState_again]
    | dsimp only
    | split)

theorem zeroMemory_keeps {gr : Group → Bool} {s0 : State} {s : State} {o : Op} {attr : Nat} {force : Bool} (hk : Keeps gr s0 s) :
    Keeps gr s0 (zeroMemory s o attr force) := by
  unfold zeroMemory
  repeat' (first
    | (with_reducible assumption)
    | (with_reducible apply memWriteLine_keeps)
    | (with_reducible apply cmdWrite_keeps)
    | (with_reducible refine Keeps.ite (fun _ => ?_) (fun _ => ?_)))

theorem discardLine_keeps {gr : Group → Bool} {s0 : State} {s : State} {o : Op} {attr : Nat} (hk : Keeps gr s0 s) :
    Keeps gr s0 (resState (discardLine s o attr)) := by
  unfold discardLine
  repeat' (first
    | (with_reducible assumption)
    | (with_reducible apply mergeDrainWhere_keeps)
    | (with_reducible apply closeFor_keeps)
    | (with_reducible apply zeroMemory_keeps)
    | (with_reducible apply cmdLine_keeps)
    | (with_reducible apply postError_keeps)
    | (with_reducible apply discardSlot_keeps)
    | (with_reducible refine Keeps.ite (fun _ => ?_) (fun _ => ?_))
    | (with_reducible refine Keeps.ite_fst (fun _ => ?_) (fun _ => ?_))
    | (with_reducible refine Keeps.ite_snd (fun _ => ?_) (fun _ => ?_))
    | (with_reducible refine Keeps.ite_res (fun _ => ?_) (fun _ => ?_))
    | (with_reducible refine Keeps.of_fst (y := (_, _)) (x := discardSlot _ _ _ _) ?_ (by assumption))
    | dsimp only [resState_done, resState_wait, resState_again]
    | dsimp only
    | split)

theorem lockSlot_keeps {gr : Group → Bool} {s0 : State} {s : State} {k flags attr : Nat} (hk : Keeps gr s0 s) :
    Keeps gr s0 ((lockSlot s k flags attr).1) := by
  unfold lockSlot
  repeat' (first
    | (with_reducible assumption)
    | (with_reducible apply linePut_keeps)
    | (with_reducible refine Keeps.ite (fun _ => ?_) (fun _ => ?_))
    | (with_reducible refine Keeps.ite_fst (fun _ => ?_) (fun _ => ?_)))

theorem fetchFill_keeps {gr : Group → Bool} {s0 : State} {s : State} {o : Op} {attr li age : Nat} (hk : Keeps gr s0 s) :
    Keeps gr s0 (resState (fetchFill s o attr li age)) := by
  unfold fetchFill
  repeat' (first
    | (with_reducible assumption)
    | (with_reducible apply refillWay_keeps)
    | (with_reducible apply cmdLine_keeps)
    | (with_reducible apply ev_keeps)
    | (with_reducible apply setFilling_keeps)
    | (with_reducible apply mheStart_keeps)
    | (with_reducible refine Keeps.ite (fun _ => ?_) (fun _ => ?_))
    | (with_reducible refine Keeps.ite_fst (fun _ => ?_) (fun _ => ?_))
    | (with_reducible refine Keeps.ite_snd (fun _ => ?_) (fun _ => ?_))
    | (with_reducible refine Keeps.ite_res (fun _ => ?_) (fun _ => ?_))
    | (with_reducible refine Keeps.of_busy (x := refillWay _ _ _ _ _) ?_ (by assumption))
    | (with_reducible refine Keeps.of_noWay (x := refillWay _ _ _ _ _) ?_ (by assumption))
    | (with_reducible refine Keeps.of_slot (x := refillWay _ _ _ _ _) ?_ (by assumption))
    | dsimp only [resState_done, resState_wait, resState_again]
    | dsimp only
    | split)

theorem fetchLine_keeps {gr : Group → Bool} {s0 : State} {s : State} {o : Op} {attr li : Nat} (hk : Keeps gr s0 s) :
    Keeps gr s0 (resState (fetchLine s o attr li)) := by
  unfold fetchLine
  repeat' (first
    | (with_reducible assumption)
    | (with_reducible apply cmdLine_keeps)
    | (with_reducible apply closeFor_keeps)
    | (with_reducible apply fetchFill_keeps)
    | (with_reducible apply checkLine_keeps)
    | (with_reducible apply linePut_keeps)
    | (with_reducible apply lockSlot_keeps)
    | (with_reducible refine Keeps.ite (fun _ => ?_) (fun _ => ?_))
    | (with_reducible refine Keeps.ite_fst (fun _ => ?_) (fun _ => ?_))
    | (with_reducible refine Keeps.ite_snd (fun _ => ?_) (fun _ => ?_))
    | (with_reducible refine Keeps.ite_res (fun _ => ?_) (fun _ => ?_))
    | (with_reducible refine Keeps.of_done (x := fetchFill _ _ _ _ _) ?_ (by assumption))
    | (with_reducible refine Keeps.of_wait (x := fetchFill _ _ _ _ _) ?_ (by assumption))
    | (with_reducible refine Keeps.of_again (x := fetchFill _ _ _ _ _) ?_ (by assumption))
    | (with_reducible refine Keeps.of_fst (y := (_, _)) (x := checkLine _ _ _ _ _) ?_ (by assumption))
    | (with_reducible refine Keeps.of_fst (y := (_, _)) (x := lockSlot _ _ _ _) ?_ (by assumption))
    | dsimp only [resState_done, resState_wait, resState_again]
    | dsimp only
    | split)

theorem digestLine_keeps {gr : Group → Bool} {s0 : State} {s : State} {o : Op} (hk : Keeps gr s0 s) :
    Keeps gr s0 (resState (digestLine s o)) := by
  unfold digestLine
  repeat' (first
    | (with_reducible assumption)
    | (with_reducible apply cmdLine_keeps)
    | (with_reducible apply cmdUpd_keeps)
    | (with_reducible apply ev_keeps)
    | (with_reducible apply arithUse_keeps)
    | (with_reducible apply checkLine_keeps)
    | (with_reducible apply arrayUse_keeps)
    | (with_reducible apply memRead_keeps)
    | (with_reducible refine Keeps.ite (fun _ => ?_) (fun _ => ?_))
    | (with_reducible refine Keeps.ite_fst (fun _ => ?_) (fun _ => ?_))
    | (with_reducible refine Keeps.ite_snd (fun _ => ?_) (fun _ => ?_))
    | (with_reducible refine Keeps.ite_res (fun _ => ?_) (fun _ => ?_))
    | (with_reducible refine Keeps.of_fst (y := (_, _)) (x := checkLine _ _ _ _ _) ?_ (by assumption))
    | dsimp only [resState_done, resState_wait, resState_again]
    | dsimp only
    | split)

theorem cleanLine_keeps {gr : Group → Bool} {s0 : State} {s : State} {o : Op} {attr : Nat} (hk : Keeps gr s0 s) :
    Keeps gr s0 (resState (cleanLine s o attr)) := by
  unfold cleanLine
  repeat' (first
    | (with_reducible assumption)
    | (with_reducible apply mergeDrainWhere_keeps)
    | (with_reducible apply closeFor_keeps)
    | (with_reducible apply cmdLine_keeps)
    | (with_reducible apply lineDrop_keeps)
    | (with_reducible apply ev_keeps)
    | (with_reducible apply checkLine_keeps)
    | (with_reducible apply cleanSlot_keeps)
    | (with_reducible apply cmdWrite_keeps)
    | (with_reducible apply logFirst_keeps)
    | (with_reducible refine Keeps.ite (fun _ => ?_) (fun _ => ?_))
    | (with_reducible refine Keeps.ite_fst (fun _ => ?_) (fun _ => ?_))
    | (with_reducible refine Keeps.ite_snd (fun _ => ?_) (fun _ => ?_))
    | (with_reducible refine Keeps.ite_res (fun _ => ?_) (fun _ => ?_))
    | (with_reducible refine Keeps.of_fst (y := (_, _)) (x := checkLine _ _ _ _ _) ?_ (by assumption))
    | (with_reducible refine Keeps.of_fst (y := (_, _)) (x := cleanSlot _ _ _) ?_ (by assumption))
    | (with_reducible refine Keeps.of_fst (y := (_, _)) (x := logFirst _ _ _) ?_ (by assumption))
    | dsimp only [resState_done, resState_wait, resState_again]
    | dsimp only
    | split)

end Sys2Proof.Machine
end

