-- ==== Sys2Proof/Laws/KeepsServe.lean ====
section
/-! SUPPORT. What the operations of Machine/Serve.lean keep (Laws/Keeps.lean). -/

namespace Sys2Proof.Machine

open Sys2Proof

set_option Elab.async false

set_option linter.unusedSimpArgs false

theorem sfRecordAll_keeps {gr : Group → Bool} {s0 : State} {s : State} {hosts : List Nat} {g qos : Nat} (hk : Keeps gr s0 s) :
    Keeps gr s0 ((sfRecordAll s hosts g qos).1) := by
  unfold sfRecordAll
  repeat' (first
    | (with_reducible assumption)
    | (with_reducible apply sfRecord_keeps)
    | (with_reducible apply sfCheckSet_keeps)
    | (with_reducible refine Keeps.ite (fun _ => ?_) (fun _ => ?_))
    | (with_reducible refine Keeps.ite_fst (fun _ => ?_) (fun _ => ?_))
    | (with_reducible refine Keeps.ite_snd (fun _ => ?_) (fun _ => ?_))
    | (with_reducible refine Keeps.of_fst (y := (_, _)) (x := sfRecord _ _ _ _) ?_ (by assumption))
    | (with_reducible refine Keeps.foldl _ _ ?_ (fun t a hk => ?_))
    | (with_reducible refine Keeps.foldl_fst _ _ _ ?_ (fun x a hk => ?_)))

theorem hostPhase_keeps {gr : Group → Bool} {s0 : State} {s : State} {o : Op} {attr : Nat} {hosts : List Nat} (hk : Keeps gr s0 s) :
    Keeps gr s0 ((hostPhase s o attr hosts).1) := by
  unfold hostPhase
  repeat' (first
    | (with_reducible assumption)
    | (with_reducible apply sfDrop_keeps)
    | (with_reducible apply biasOf_keeps)
    | (with_reducible apply ev_keeps)
    | (with_reducible apply sfRecordAll_keeps)
    | (with_reducible apply noteOnce_keeps)
    | (with_reducible refine Keeps.ite (fun _ => ?_) (fun _ => ?_))
    | (with_reducible refine Keeps.ite_fst (fun _ => ?_) (fun _ => ?_))
    | (with_reducible refine Keeps.ite_snd (fun _ => ?_) (fun _ => ?_))
    | (with_reducible refine Keeps.of_fst (y := (_, _)) (x := biasOf _ _) ?_ (by assumption))
    | (with_reducible refine Keeps.of_fst (y := (_, _)) (x := sfRecordAll _ _ _ _) ?_ (by assumption))
    | (with_reducible refine Keeps.of_fst (y := (_, _)) (x := noteOnce _ _ _ _) ?_ (by assumption))
    | (with_reducible refine Keeps.foldl _ _ ?_ (fun t a hk => ?_))
    | (with_reducible refine Keeps.foldl_fst _ _ _ ?_ (fun x a hk => ?_))
    | (with_reducible refine Keeps.foldl_snd _ _ _ ?_ (fun x a hk => ?_))
    | dsimp only
    | split)

theorem devicePhase_keeps {gr : Group → Bool} {s0 : State} {s : State} {o : Op} {hosts : List Nat} (hk : Keeps gr s0 s) :
    Keeps gr s0 ((devicePhase s o hosts).1) := by
  unfold devicePhase
  repeat' (first
    | (with_reducible assumption)
    | (with_reducible apply snoopFor_keeps)
    | (with_reducible apply traceFlag_keeps)
    | (with_reducible apply stage_keeps)
    | (with_reducible apply noteOnce_keeps)
    | (with_reducible refine Keeps.ite (fun _ => ?_) (fun _ => ?_))
    | (with_reducible refine Keeps.ite_fst (fun _ => ?_) (fun _ => ?_)))

theorem hintReady_keeps {gr : Group → Bool} {s0 : State} {s : State} {o : Op} (hk : Keeps gr s0 s) :
    Keeps gr s0 ((hintReady s o).1) := by
  unfold hintReady
  repeat' (first
    | (with_reducible assumption)
    | (with_reducible apply biasOf_keeps)
    | (with_reducible refine Keeps.ite (fun _ => ?_) (fun _ => ?_))
    | (with_reducible refine Keeps.ite_fst (fun _ => ?_) (fun _ => ?_))
    | (with_reducible refine Keeps.ite_snd (fun _ => ?_) (fun _ => ?_))
    | (with_reducible refine Keeps.of_fst (y := (_, _)) (x := biasOf _ _) ?_ (by assumption))
    | dsimp only
    | split)

theorem hintAfter_keeps {gr : Group → Bool} {s0 : State} {s : State} {o : Op} {push : Bool} (hk : Keeps gr s0 s) :
    Keeps gr s0 (hintAfter s o push) := by
  unfold hintAfter
  repeat' (first
    | (with_reducible assumption)
    | (with_reducible apply ev_keeps)
    | (with_reducible apply sfRecord_keeps)
    | (with_reducible apply hstRequest_keeps)
    | (with_reducible refine Keeps.ite (fun _ => ?_) (fun _ => ?_))
    | (with_reducible refine Keeps.ite_fst (fun _ => ?_) (fun _ => ?_))
    | (with_reducible refine Keeps.ite_snd (fun _ => ?_) (fun _ => ?_))
    | (simp only [Keeps.mk_iff]; with_reducible refine KeepsParts.same (t := _) ?_ (by rfl) rfl rfl rfl))

theorem freezePhase_keeps {gr : Group → Bool} {s0 s : State} {o : Op} {attr : Nat} (hk : Keeps gr s0 s) :
    ∀ t, freezePhase s o attr = some t → Keeps gr s0 t := by
  intro t ht
  unfold freezePhase at ht
  split at ht
  · cases ht
  · split at ht
    · obtain rfl := Option.some.inj ht
      exact Keeps.of_parts (.same hk rfl rfl rfl rfl)
    · obtain rfl := Option.some.inj ht
      exact finish_keeps hk

theorem performDemand_keeps {gr : Group → Bool} {s0 : State} {s : State} {o : Op} {attr li : Nat} (hk : Keeps gr s0 s) :
    Keeps gr s0 (resState (performDemand s o attr li)) := by
  unfold performDemand
  repeat' (first
    | (with_reducible assumption)
    | (with_reducible apply readLine_keeps)
    | (with_reducible apply atomLine_keeps)
    | (with_reducible apply finish_keeps)
    | (with_reducible apply sfDrop_keeps)
    | (with_reducible apply closeFor_keeps)
    | (with_reducible apply hintReady_keeps)
    | (with_reducible apply noteOnce_keeps)
    | (with_reducible apply writeLine_keeps)
    | (with_reducible apply hintAfter_keeps)
    | (with_reducible refine Keeps.ite (fun _ => ?_) (fun _ => ?_))
    | (with_reducible refine Keeps.ite_fst (fun _ => ?_) (fun _ => ?_))
    | (with_reducible refine Keeps.ite_snd (fun _ => ?_) (fun _ => ?_))
    | (with_reducible refine Keeps.ite_res (fun _ => ?_) (fun _ => ?_))
    | (with_reducible refine Keeps.of_done (x := readLine _ _ _ _) ?_ (by assumption))
    | (with_reducible refine Keeps.of_wait (x := readLine _ _ _ _) ?_ (by assumption))
    | (with_reducible refine Keeps.of_again (x := readLine _ _ _ _) ?_ (by assumption))
    | (with_reducible refine Keeps.of_done (x := atomLine _ _ _ _) ?_ (by assumption))
    | (with_reducible refine Keeps.of_wait (x := atomLine _ _ _ _) ?_ (by assumption))
    | (with_reducible refine Keeps.of_again (x := atomLine _ _ _ _) ?_ (by assumption))
    | (with_reducible refine Keeps.of_fst (y := (_, _)) (x := hintReady _ _) ?_ (by assumption))
    | (with_reducible refine Keeps.of_fst (y := (_, _)) (x := noteOnce _ _ _ _) ?_ (by assumption))
    | (with_reducible refine Keeps.of_done (x := writeLine _ _ _ _) ?_ (by assumption))
    | (with_reducible refine Keeps.of_wait (x := writeLine _ _ _ _) ?_ (by assumption))
    | (with_reducible refine Keeps.of_again (x := writeLine _ _ _ _) ?_ (by assumption))
    | dsimp only [resState_done, resState_wait, resState_again]
    | dsimp only
    | split)

theorem performRange_keeps {gr : Group → Bool} {s0 : State} {s : State} {o : Op} {attr li : Nat} (hk : Keeps gr s0 s) :
    Keeps gr s0 (resState (performRange s o attr li)) := by
  unfold performRange
  repeat' (first
    | (with_reducible assumption)
    | (with_reducible apply fetchLine_keeps)
    | (with_reducible apply rangeSnoop_keeps)
    | (with_reducible apply digestLine_keeps)
    | (with_reducible apply writeLine_keeps)
    | (with_reducible apply cleanLine_keeps)
    | (with_reducible apply flushLine_keeps)
    | (with_reducible apply invalLine_keeps)
    | (with_reducible apply discardLine_keeps)
    | (with_reducible refine Keeps.ite (fun _ => ?_) (fun _ => ?_))
    | (with_reducible refine Keeps.ite_fst (fun _ => ?_) (fun _ => ?_))
    | (with_reducible refine Keeps.ite_snd (fun _ => ?_) (fun _ => ?_))
    | (with_reducible refine Keeps.ite_res (fun _ => ?_) (fun _ => ?_))
    | (with_reducible refine Keeps.of_done (x := fetchLine _ _ _ _) ?_ (by assumption))
    | (with_reducible refine Keeps.of_wait (x := fetchLine _ _ _ _) ?_ (by assumption))
    | (with_reducible refine Keeps.of_again (x := fetchLine _ _ _ _) ?_ (by assumption))
    | (with_reducible refine Keeps.of_fst (y := (_, _)) (x := rangeSnoop _ _ _ _) ?_ (by assumption))
    | (with_reducible refine Keeps.of_fst (y := (_, _, _)) (x := rangeSnoop _ _ _ _) ?_ (by assumption))
    | (with_reducible refine Keeps.of_done (x := digestLine _ _) ?_ (by assumption))
    | (with_reducible refine Keeps.of_wait (x := digestLine _ _) ?_ (by assumption))
    | (with_reducible refine Keeps.of_again (x := digestLine _ _) ?_ (by assumption))
    | (with_reducible refine Keeps.of_done (x := writeLine _ _ _ _) ?_ (by assumption))
    | (with_reducible refine Keeps.of_wait (x := writeLine _ _ _ _) ?_ (by assumption))
    | (with_reducible refine Keeps.of_again (x := writeLine _ _ _ _) ?_ (by assumption))
    | (with_reducible refine Keeps.of_done (x := cleanLine _ _ _) ?_ (by assumption))
    | (with_reducible refine Keeps.of_wait (x := cleanLine _ _ _) ?_ (by assumption))
    | (with_reducible refine Keeps.of_again (x := cleanLine _ _ _) ?_ (by assumption))
    | (with_reducible refine Keeps.of_done (x := flushLine _ _ _) ?_ (by assumption))
    | (with_reducible refine Keeps.of_wait (x := flushLine _ _ _) ?_ (by assumption))
    | (with_reducible refine Keeps.of_again (x := flushLine _ _ _) ?_ (by assumption))
    | (with_reducible refine Keeps.of_done (x := invalLine _ _ _) ?_ (by assumption))
    | (with_reducible refine Keeps.of_wait (x := invalLine _ _ _) ?_ (by assumption))
    | (with_reducible refine Keeps.of_again (x := invalLine _ _ _) ?_ (by assumption))
    | (with_reducible refine Keeps.of_done (x := discardLine _ _ _) ?_ (by assumption))
    | (with_reducible refine Keeps.of_wait (x := discardLine _ _ _) ?_ (by assumption))
    | (with_reducible refine Keeps.of_again (x := discardLine _ _ _) ?_ (by assumption))
    | dsimp only [resState_done, resState_wait, resState_again]
    | dsimp only
    | split)

theorem performCommand_keeps {gr : Group → Bool} {s0 : State} {s : State} {o : Op} {l : Last} {li : Nat} (hk : Keeps gr s0 s) :
    Keeps gr s0 (resState (performCommand s o l li)) := by
  unfold performCommand
  repeat' (first
    | (with_reducible assumption)
    | (with_reducible apply performRange_keeps)
    | (with_reducible apply cmdLine_keeps)
    | (with_reducible refine Keeps.ite (fun _ => ?_) (fun _ => ?_))
    | (with_reducible refine Keeps.ite_fst (fun _ => ?_) (fun _ => ?_))
    | (with_reducible refine Keeps.ite_snd (fun _ => ?_) (fun _ => ?_))
    | (with_reducible refine Keeps.ite_res (fun _ => ?_) (fun _ => ?_))
    | (with_reducible refine Keeps.of_done (x := performRange _ _ _ _) ?_ (by assumption))
    | (with_reducible refine Keeps.of_wait (x := performRange _ _ _ _) ?_ (by assumption))
    | (with_reducible refine Keeps.of_again (x := performRange _ _ _ _) ?_ (by assumption))
    | dsimp only [resState_done, resState_wait, resState_again])

theorem retag_keeps {gr : Group → Bool} {s0 : State} {s : State} {line li : Nat} (hk : Keeps gr s0 s) :
    Keeps gr s0 (retag s line li) := by
  unfold retag
  repeat' (first
    | (with_reducible assumption)
    | (with_reducible apply linePut_keeps)
    | (with_reducible refine Keeps.ite (fun _ => ?_) (fun _ => ?_))
    | (with_reducible refine Keeps.ite_fst (fun _ => ?_) (fun _ => ?_))
    | (with_reducible refine Keeps.ite_snd (fun _ => ?_) (fun _ => ?_))
    | dsimp only
    | split)

theorem lookup_keeps {gr : Group → Bool} {s0 : State} {s : State} {line li : Nat} (hk : Keeps gr s0 s) :
    Keeps gr s0 (lookup s line li) := by
  unfold lookup
  repeat' (first
    | (with_reducible assumption)
    | (with_reducible apply retag_keeps)
    | (with_reducible apply tagCheckSet_keeps))

theorem perform_keeps {gr : Group → Bool} {s0 : State} {s : State} {o : Op} (hk : Keeps gr s0 s) :
    Keeps gr s0 (resState (perform s o)) := by
  unfold perform
  repeat' (first
    | (with_reducible assumption)
    | (with_reducible apply heldCheck_keeps)
    | (with_reducible apply cmdLine_keeps)
    | (with_reducible apply lookup_keeps)
    | (with_reducible apply lookupAct_keeps)
    | (with_reducible apply performCommand_keeps)
    | (with_reducible apply stageDrop_keeps)
    | (with_reducible apply planLeft_keeps)
    | (with_reducible apply finish_keeps)
    | (with_reducible apply writeLine_keeps)
    | (with_reducible apply hostPhase_keeps)
    | (with_reducible apply devicePhase_keeps)
    | (with_reducible apply performDemand_keeps)
    | (with_reducible apply stage_keeps)
    | (with_reducible refine Keeps.ite (fun _ => ?_) (fun _ => ?_))
    | (with_reducible refine Keeps.ite_fst (fun _ => ?_) (fun _ => ?_))
    | (with_reducible refine Keeps.ite_snd (fun _ => ?_) (fun _ => ?_))
    | (with_reducible refine Keeps.ite_res (fun _ => ?_) (fun _ => ?_))
    | (with_reducible refine Keeps.of_fst (y := (_, _)) (x := heldCheck _ _ _) ?_ (by assumption))
    | (with_reducible refine Keeps.of_fst (y := (_, _)) (x := lookupAct _ _ _ _) ?_ (by assumption))
    | (with_reducible refine Keeps.of_done (x := performCommand _ _ _ _) ?_ (by assumption))
    | (with_reducible refine Keeps.of_wait (x := performCommand _ _ _ _) ?_ (by assumption))
    | (with_reducible refine Keeps.of_again (x := performCommand _ _ _ _) ?_ (by assumption))
    | (with_reducible refine Keeps.of_done (x := planLeft _ _ _ _) ?_ (by assumption))
    | (with_reducible refine Keeps.of_wait (x := planLeft _ _ _ _) ?_ (by assumption))
    | (with_reducible refine Keeps.of_again (x := planLeft _ _ _ _) ?_ (by assumption))
    | (with_reducible refine Keeps.of_done (x := writeLine _ _ _ _) ?_ (by assumption))
    | (with_reducible refine Keeps.of_wait (x := writeLine _ _ _ _) ?_ (by assumption))
    | (with_reducible refine Keeps.of_again (x := writeLine _ _ _ _) ?_ (by assumption))
    | (with_reducible refine freezePhase_keeps ?_ _ (by assumption))
    | (with_reducible refine Keeps.of_fst (y := (_, _)) (x := hostPhase _ _ _ _) ?_ (by assumption))
    | (with_reducible refine Keeps.of_fst (y := (_, _, _)) (x := hostPhase _ _ _ _) ?_ (by assumption))
    | (with_reducible refine Keeps.of_fst (y := (_, _)) (x := devicePhase _ _ _) ?_ (by assumption))
    | (with_reducible refine Keeps.of_fst (y := (_, _, _)) (x := devicePhase _ _ _) ?_ (by assumption))
    | (with_reducible refine Keeps.of_done (x := performDemand _ _ _ _) ?_ (by assumption))
    | (with_reducible refine Keeps.of_wait (x := performDemand _ _ _ _) ?_ (by assumption))
    | (with_reducible refine Keeps.of_again (x := performDemand _ _ _ _) ?_ (by assumption))
    | dsimp only [resState_done, resState_wait, resState_again]
    | dsimp only
    | split)

theorem attempt_keeps {gr : Group → Bool} {s0 : State}  {a0 : Nat} {s : State} {a2 : Op} (hk : Keeps gr s0 s) :
    Keeps gr s0 (attempt  a0 s a2).1 := by
  induction a0 generalizing s a2 with
  | zero =>
    unfold attempt
    repeat' (first
      | (with_reducible assumption))
  | succ k ih =>
    unfold attempt
    repeat' (first
      | (with_reducible assumption)
      | (with_reducible apply ih)
      | (with_reducible apply perform_keeps)
      | (with_reducible refine Keeps.ite (fun _ => ?_) (fun _ => ?_))
      | (with_reducible refine Keeps.ite_fst (fun _ => ?_) (fun _ => ?_))
      | (with_reducible refine Keeps.ite_snd (fun _ => ?_) (fun _ => ?_))
      | (with_reducible refine Keeps.of_done (x := perform _ _) ?_ (by assumption))
      | (with_reducible refine Keeps.of_wait (x := perform _ _) ?_ (by assumption))
      | (with_reducible refine Keeps.of_again (x := perform _ _) ?_ (by assumption))
      | dsimp only
      | split)

theorem serve_keeps {gr : Group → Bool} {s0 : State} {s : State} {o : Op} (hk : Keeps gr s0 s) :
    Keeps gr s0 (serve s o) := by
  unfold serve
  repeat' (first
    | (with_reducible assumption)
    | (with_reducible apply attempt_keeps)
    | (with_reducible refine Keeps.ite (fun _ => ?_) (fun _ => ?_))
    | (with_reducible refine Keeps.ite_fst (fun _ => ?_) (fun _ => ?_))
    | (with_reducible refine Keeps.ite_snd (fun _ => ?_) (fun _ => ?_))
    | (simp only [Keeps.mk_iff]; with_reducible refine KeepsParts.same (t := _) ?_ (by rfl) rfl rfl rfl)
    | (with_reducible refine Keeps.of_fst (y := (_, _)) (x := attempt _ _ _) ?_ (by assumption))
    | dsimp only
    | split)

theorem serveFirst_keeps {gr : Group → Bool} {s0 : State} {s : State} {o : Op} (hk : Keeps gr s0 s) :
    Keeps gr s0 (serveFirst s o) := by
  unfold serveFirst
  repeat' (first
    | (with_reducible assumption)
    | (with_reducible apply attempt_keeps)
    | (with_reducible refine Keeps.ite (fun _ => ?_) (fun _ => ?_))
    | (with_reducible refine Keeps.ite_fst (fun _ => ?_) (fun _ => ?_))
    | (with_reducible refine Keeps.ite_snd (fun _ => ?_) (fun _ => ?_))
    | (simp only [Keeps.mk_iff]; with_reducible refine KeepsParts.same (t := _) ?_ (by rfl) rfl rfl rfl)
    | (with_reducible refine Keeps.of_fst (y := (_, _)) (x := attempt _ _ _) ?_ (by assumption))
    | dsimp only
    | split)

theorem retryPass_keeps {gr : Group → Bool} {s0 : State}  {a0 : List Op} {a1 : List Op} {s : State} (hk : Keeps gr s0 s) :
    Keeps gr s0 (retryPass  a0 a1 s).1 := by
  induction a0 generalizing a1 s with
  | nil =>
    unfold retryPass
    repeat' (first
      | (with_reducible assumption))
  | cons x r ih =>
    unfold retryPass
    repeat' (first
      | (with_reducible assumption)
      | (with_reducible apply ih)
      | (with_reducible apply attempt_keeps)
      | (with_reducible refine Keeps.ite (fun _ => ?_) (fun _ => ?_))
      | (with_reducible refine Keeps.ite_fst (fun _ => ?_) (fun _ => ?_))
      | (with_reducible refine Keeps.ite_snd (fun _ => ?_) (fun _ => ?_))
      | (with_reducible refine Keeps.of_fst (y := (_, _)) (x := attempt _ _ _) ?_ (by assumption))
      | dsimp only
      | split)

theorem retryAll_keeps {gr : Group → Bool} {s0 : State}  {a0 : Nat} {s : State} (hk : Keeps gr s0 s) :
    Keeps gr s0 (retryAll  a0 s) := by
  induction a0 generalizing s with
  | zero =>
    unfold retryAll
    repeat' (first
      | (with_reducible assumption))
  | succ k ih =>
    unfold retryAll
    repeat' (first
      | (with_reducible assumption)
      | (with_reducible apply ih)
      | (with_reducible apply retryPass_keeps)
      | (with_reducible refine Keeps.ite (fun _ => ?_) (fun _ => ?_))
      | (with_reducible refine Keeps.ite_fst (fun _ => ?_) (fun _ => ?_))
      | (with_reducible refine Keeps.ite_snd (fun _ => ?_) (fun _ => ?_))
      | (simp only [Keeps.mk_iff]; with_reducible refine KeepsParts.same (t := _) ?_ (by rfl) rfl rfl rfl))

theorem issueOne_keeps {gr : Group → Bool} {s0 : State} {s : State} (hk : Keeps gr s0 s) :
    Keeps gr s0 ((issueOne s).1) := by
  unfold issueOne
  repeat' (first
    | (with_reducible assumption)
    | (with_reducible apply traceFlag_keeps)
    | (with_reducible apply ev_keeps)
    | (with_reducible apply serve_keeps)
    | (with_reducible apply stage_keeps)
    | (with_reducible refine Keeps.ite (fun _ => ?_) (fun _ => ?_))
    | (with_reducible refine Keeps.ite_fst (fun _ => ?_) (fun _ => ?_))
    | (with_reducible refine Keeps.ite_snd (fun _ => ?_) (fun _ => ?_))
    | (simp only [Keeps.mk_iff]; with_reducible refine KeepsParts.same (t := _) ?_ (by rfl) rfl rfl rfl)
    | dsimp only
    | split)

theorem issueAll_keeps {gr : Group → Bool} {s0 : State}  {a0 : Nat} {s : State} (hk : Keeps gr s0 s) :
    Keeps gr s0 (issueAll  a0 s) := by
  induction a0 generalizing s with
  | zero =>
    unfold issueAll
    repeat' (first
      | (with_reducible assumption))
  | succ k ih =>
    unfold issueAll
    repeat' (first
      | (with_reducible assumption)
      | (with_reducible apply ih)
      | (with_reducible apply issueOne_keeps)
      | (with_reducible refine Keeps.ite (fun _ => ?_) (fun _ => ?_))
      | (with_reducible refine Keeps.ite_fst (fun _ => ?_) (fun _ => ?_))
      | (with_reducible refine Keeps.ite_snd (fun _ => ?_) (fun _ => ?_))
      | (simp only [Keeps.mk_iff]; with_reducible refine KeepsParts.same (t := _) ?_ (by rfl) rfl rfl rfl)
      | (with_reducible refine Keeps.of_fst (y := (_, _)) (x := issueOne _) ?_ (by assumption))
      | dsimp only
      | split)

theorem fenceDrain_keeps {gr : Group → Bool} {s0 : State} {s : State} {f : FenceWait} (hk : Keeps gr s0 s) :
    Keeps gr s0 (fenceDrain s f) := by
  unfold fenceDrain
  repeat' (first
    | (with_reducible assumption)
    | (with_reducible apply mergeDrainWhere_keeps)
    | (with_reducible refine Keeps.ite (fun _ => ?_) (fun _ => ?_)))

theorem fencePump_keeps {gr : Group → Bool} {s0 : State} {s : State} (hk : Keeps gr s0 s) :
    Keeps gr s0 (fencePump s) := by
  unfold fencePump
  repeat' (first
    | (with_reducible assumption)
    | (with_reducible apply fenceDrain_keeps)
    | (with_reducible apply traceEnd_keeps)
    | (with_reducible apply stage_keeps)
    | (with_reducible apply sendMsg_keeps)
    | (with_reducible apply cmpl_keeps)
    | (with_reducible refine Keeps.ite (fun _ => ?_) (fun _ => ?_))
    | (with_reducible refine Keeps.ite_fst (fun _ => ?_) (fun _ => ?_))
    | (with_reducible refine Keeps.ite_snd (fun _ => ?_) (fun _ => ?_))
    | (simp only [Keeps.mk_iff]; with_reducible refine KeepsParts.same (t := _) ?_ (by rfl) rfl rfl rfl)
    | (with_reducible refine Keeps.foldl _ _ ?_ (fun t a hk => ?_)))

theorem failPump_keeps {gr : Group → Bool} {s0 : State} {s : State} (hk : Keeps gr s0 s) :
    Keeps gr s0 (failPump s) := by
  unfold failPump
  repeat' (first
    | (with_reducible assumption)
    | (with_reducible apply snoopIssue_keeps)
    | (with_reducible refine Keeps.ite (fun _ => ?_) (fun _ => ?_))
    | (with_reducible refine Keeps.ite_fst (fun _ => ?_) (fun _ => ?_))
    | (with_reducible refine Keeps.ite_snd (fun _ => ?_) (fun _ => ?_))
    | (simp only [Keeps.mk_iff]; with_reducible refine KeepsParts.same (t := _) ?_ (by rfl) rfl rfl rfl)
    | (with_reducible refine Keeps.foldl _ _ ?_ (fun t a hk => ?_)))

theorem flipPump_keeps {gr : Group → Bool} {s0 : State} {s : State} (hk : Keeps gr s0 s) :
    Keeps gr s0 (flipPump s) := by
  unfold flipPump
  repeat' (first
    | (with_reducible assumption)
    | (with_reducible apply cmdUpd_keeps)
    | (with_reducible apply snoopIssue_keeps)
    | (with_reducible apply cmdEnd_keeps)
    | (with_reducible refine Keeps.ite (fun _ => ?_) (fun _ => ?_))
    | (with_reducible refine Keeps.ite_fst (fun _ => ?_) (fun _ => ?_))
    | (with_reducible refine Keeps.ite_snd (fun _ => ?_) (fun _ => ?_))
    | (simp only [Keeps.mk_iff]; with_reducible refine KeepsParts.same (t := _) ?_ (by rfl) rfl rfl rfl)
    | (with_reducible refine Keeps.foldl _ _ ?_ (fun t a hk => ?_)))

theorem pump_keeps {gr : Group → Bool} {s0 : State} {s : State} (hk : Keeps gr s0 s) :
    Keeps gr s0 (pump s) := by
  unfold pump
  repeat' (first
    | (with_reducible assumption)
    | (with_reducible apply evictRetry_keeps)
    | (with_reducible apply flipPump_keeps)
    | (with_reducible apply failPump_keeps)
    | (with_reducible apply memSidePump_keeps)
    | (with_reducible apply retryAll_keeps)
    | (with_reducible apply issueAll_keeps)
    | (with_reducible apply fencePump_keeps)
    | (with_reducible refine Keeps.ite (fun _ => ?_) (fun _ => ?_))
    | (with_reducible refine Keeps.ite_fst (fun _ => ?_) (fun _ => ?_))
    | (with_reducible refine Keeps.ite_snd (fun _ => ?_) (fun _ => ?_))
    | (with_reducible refine Keeps.foldl _ _ ?_ (fun t a hk => ?_)))

theorem present_keeps {gr : Group → Bool} {s0 : State} {s : State} {o : Op} (hk : Keeps gr s0 s) :
    Keeps gr s0 (present s o) := by
  unfold present
  repeat' (first
    | (with_reducible assumption)
    | (with_reducible refine Keeps.ite (fun _ => ?_) (fun _ => ?_))
    | (with_reducible refine Keeps.ite_fst (fun _ => ?_) (fun _ => ?_))
    | (with_reducible refine Keeps.ite_snd (fun _ => ?_) (fun _ => ?_))
    | (simp only [Keeps.mk_iff]; with_reducible refine KeepsParts.same (t := _) ?_ (by rfl) rfl rfl rfl))

end Sys2Proof.Machine
end

