-- ==== Sys2Proof/Laws/KeepsFetch.lean ====
section
/-! SUPPORT. What the operations of Machine/Fetch.lean keep (Laws/Keeps.lean). -/

namespace Sys2Proof.Machine

open Sys2Proof

set_option Elab.async false

set_option linter.unusedSimpArgs false

theorem watchIssue_keeps {gr : Group → Bool} {s0 : State} {s : State} {n : Nat} (hk : Keeps gr s0 s) :
    Keeps gr s0 (watchIssue s n) := by
  unfold watchIssue
  repeat' (first
    | (with_reducible assumption)
    | (with_reducible apply hstRequest_keeps)
    | (with_reducible apply ringPut_keeps)
    | (with_reducible refine Keeps.ite (fun _ => ?_) (fun _ => ?_)))

theorem ringIrq_keeps {gr : Group → Bool} {s0 : State} {s : State} {n : Nat} (hk : Keeps gr s0 s) :
    Keeps gr s0 (ringIrq s n) := by
  unfold ringIrq
  repeat' (first
    | (with_reducible assumption)
    | (with_reducible apply irqRaise_keeps)
    | (with_reducible refine Keeps.ite (fun _ => ?_) (fun _ => ?_)))

theorem park_keeps {gr : Group → Bool} {s0 : State} {s : State} {n reason status w2 : Nat} (hk : Keeps gr s0 s) :
    Keeps gr s0 (park s n reason status w2) := by
  unfold park
  repeat' (first
    | (with_reducible assumption)
    | (with_reducible apply postEvent_keeps)
    | (with_reducible apply ringIrq_keeps)
    | (with_reducible apply ringPut_keeps))

theorem descRead_keeps {gr : Group → Bool} {s0 : State} {s : State} {n i slot m : Nat} (hk : Keeps gr s0 s) :
    Keeps gr s0 (descRead s n i slot m) := by
  unfold descRead
  repeat' (first
    | (with_reducible assumption)
    | (with_reducible apply hstRequest_keeps)
    | (with_reducible apply ringPut_keeps))

theorem fetch_keeps {gr : Group → Bool} {s0 : State} {s : State} {n : Nat} (hk : Keeps gr s0 s) :
    Keeps gr s0 (fetch s n) := by
  unfold fetch
  repeat' (first
    | (with_reducible assumption)
    | (with_reducible apply descRead_keeps)
    | (with_reducible apply ringPut_keeps)
    | (with_reducible refine Keeps.ite (fun _ => ?_) (fun _ => ?_))
    | (with_reducible refine Keeps.ite_fst (fun _ => ?_) (fun _ => ?_))
    | (with_reducible refine Keeps.ite_snd (fun _ => ?_) (fun _ => ?_))
    | (with_reducible refine Keeps.foldl _ _ ?_ (fun t a hk => ?_)))

theorem ringGo_keeps {gr : Group → Bool} {s0 : State} {s : State} {n : Nat} (hk : Keeps gr s0 s) :
    Keeps gr s0 (ringGo s n) := by
  unfold ringGo
  repeat' (first
    | (with_reducible assumption)
    | (with_reducible apply park_keeps)
    | (with_reducible apply fetch_keeps)
    | (with_reducible refine Keeps.ite (fun _ => ?_) (fun _ => ?_)))

theorem acceptDesc_keeps {gr : Group → Bool} {s0 : State} {s : State} {n : Nat} {d : Bytes} (hk : Keeps gr s0 s) :
    Keeps gr s0 (acceptDesc s n d) := by
  unfold acceptDesc
  repeat' (first
    | (with_reducible assumption)
    | (with_reducible apply ringPut_keeps)
    | (with_reducible apply ev_keeps)
    | (with_reducible apply cmdEnd_keeps)
    | (with_reducible refine Keeps.ite (fun _ => ?_) (fun _ => ?_))
    | (with_reducible refine Keeps.ite_fst (fun _ => ?_) (fun _ => ?_))
    | (with_reducible refine Keeps.ite_snd (fun _ => ?_) (fun _ => ?_))
    | (simp only [Keeps.mk_iff]; with_reducible refine KeepsParts.same (t := _) ?_ (by rfl) rfl rfl rfl))

theorem descFirst_keeps {gr : Group → Bool} {s0 : State} {s : State} {n : Nat} {d : Bytes} (hk : Keeps gr s0 s) :
    Keeps gr s0 (descFirst s n d) := by
  unfold descFirst
  repeat' (first
    | (with_reducible assumption)
    | (with_reducible apply ringPut_keeps)
    | (with_reducible refine Keeps.ite (fun _ => ?_) (fun _ => ?_)))

theorem descEarly_keeps {gr : Group → Bool} {s0 : State} {s : State} {n : Nat} (hk : Keeps gr s0 s) :
    Keeps gr s0 (descEarly s n) := by
  unfold descEarly
  repeat' (first
    | (with_reducible assumption)
    | (with_reducible apply descFirst_keeps)
    | (with_reducible apply ringPut_keeps)
    | (with_reducible refine Keeps.ite (fun _ => ?_) (fun _ => ?_))
    | (with_reducible refine Keeps.ite_fst (fun _ => ?_) (fun _ => ?_))
    | (with_reducible refine Keeps.ite_snd (fun _ => ?_) (fun _ => ?_))
    | dsimp only
    | split)

theorem offers_keeps {gr : Group → Bool} {s0 : State}  {a0 : Nat} {s : State} (hk : Keeps gr s0 s) :
    Keeps gr s0 (offers  a0 s) := by
  induction a0 generalizing s with
  | zero =>
    unfold offers
    repeat' (first
      | (with_reducible assumption))
  | succ k ih =>
    unfold offers
    repeat' (first
      | (with_reducible assumption)
      | (with_reducible apply ih)
      | (with_reducible apply fetch_keeps)
      | (with_reducible apply descEarly_keeps)
      | (with_reducible apply acceptDesc_keeps)
      | (with_reducible refine Keeps.ite (fun _ => ?_) (fun _ => ?_))
      | (with_reducible refine Keeps.ite_fst (fun _ => ?_) (fun _ => ?_))
      | (with_reducible refine Keeps.ite_snd (fun _ => ?_) (fun _ => ?_))
      | dsimp only
      | split)

theorem cmdLeave_keeps {gr : Group → Bool} {s0 : State} {s : State} {c : Cmd} (hk : Keeps gr s0 s) :
    Keeps gr s0 (cmdLeave s c) := by
  unfold cmdLeave
  repeat' (first
    | (with_reducible assumption)
    | (with_reducible apply ringPut_keeps)
    | (with_reducible apply fetch_keeps)
    | (with_reducible apply offers_keeps)
    | (with_reducible refine Keeps.ite (fun _ => ?_) (fun _ => ?_))
    | (with_reducible refine Keeps.ite_fst (fun _ => ?_) (fun _ => ?_))
    | (with_reducible refine Keeps.ite_snd (fun _ => ?_) (fun _ => ?_))
    | (simp only [Keeps.mk_iff]; with_reducible refine KeepsParts.same (t := _) ?_ (by rfl) rfl rfl rfl))

end Sys2Proof.Machine
end

