-- ==== Sys2Proof/Laws/KeepsRetire.lean ====
section
/-! SUPPORT. What the operations of Machine/Retire.lean keep (Laws/Keeps.lean). -/

namespace Sys2Proof.Machine

open Sys2Proof

set_option Elab.async false

set_option linter.unusedSimpArgs false

theorem raiseRetire_keeps {gr : Group → Bool} {s0 : State} {s : State} {reason subject : Nat} (hk : Keeps gr s0 s) :
    Keeps gr s0 (raiseRetire s reason subject) := by
  unfold raiseRetire
  repeat' (first
    | (with_reducible assumption)
    | (with_reducible apply ledAdd_keeps)
    | (with_reducible apply postEvent_keeps)
    | (with_reducible refine Keeps.ite (fun _ => ?_) (fun _ => ?_))
    | (with_reducible refine Keeps.ite_fst (fun _ => ?_) (fun _ => ?_))
    | (with_reducible refine Keeps.ite_snd (fun _ => ?_) (fun _ => ?_))
    | (simp only [Keeps.mk_iff]; with_reducible refine KeepsParts.same (t := _) ?_ (by rfl) rfl rfl rfl))

theorem drainStart_keeps {gr : Group → Bool} {s0 : State} {s : State} (hk : Keeps gr s0 s) :
    Keeps gr s0 (drainStart s) := by
  unfold drainStart
  repeat' (first
    | (with_reducible assumption)
    | (with_reducible refine Keeps.ite (fun _ => ?_) (fun _ => ?_))
    | (with_reducible refine Keeps.ite_fst (fun _ => ?_) (fun _ => ?_))
    | (with_reducible refine Keeps.ite_snd (fun _ => ?_) (fun _ => ?_))
    | (simp only [Keeps.mk_iff]; with_reducible refine KeepsParts.same (t := _) ?_ (by rfl) rfl rfl rfl))

theorem windowDrop_keeps {gr : Group → Bool} {s0 : State} {s : State} {w : Window} (hk : Keeps gr s0 s) :
    Keeps gr s0 (windowDrop s w) := by
  unfold windowDrop
  repeat' (first
    | (with_reducible assumption)
    | (with_reducible refine Keeps.ite (fun _ => ?_) (fun _ => ?_))
    | (with_reducible refine Keeps.ite_fst (fun _ => ?_) (fun _ => ?_))
    | (with_reducible refine Keeps.ite_snd (fun _ => ?_) (fun _ => ?_))
    | (simp only [Keeps.mk_iff]; with_reducible refine KeepsParts.same (t := _) ?_ (by rfl) rfl rfl rfl))

theorem windowLine_keeps {gr : Group → Bool} {s0 : State} {s : State} {k : Nat} (hk : Keeps gr s0 s) :
    Keeps gr s0 (windowLine s k) := by
  unfold windowLine
  repeat' (first
    | (with_reducible assumption)
    | (with_reducible apply storeLine_keeps))

theorem windowRelease_keeps {gr : Group → Bool} {s0 : State} {s : State} {w : Window} (hk : Keeps gr s0 s) :
    Keeps gr s0 (windowRelease s w) := by
  unfold windowRelease
  repeat' (first
    | (with_reducible assumption)
    | (with_reducible apply windowLine_keeps)
    | (with_reducible apply windowDrop_keeps)
    | (with_reducible refine Keeps.ite (fun _ => ?_) (fun _ => ?_))
    | (with_reducible refine Keeps.ite_fst (fun _ => ?_) (fun _ => ?_))
    | (with_reducible refine Keeps.ite_snd (fun _ => ?_) (fun _ => ?_))
    | (with_reducible refine Keeps.foldl _ _ ?_ (fun t a hk => ?_)))

theorem windowReadOut_keeps {gr : Group → Bool} {s0 : State} {s : State} {w : Window} (hk : Keeps gr s0 s) :
    Keeps gr s0 (windowReadOut s w) := by
  unfold windowReadOut
  repeat' (first
    | (with_reducible assumption)
    | (with_reducible apply windowLost_keeps)
    | (with_reducible apply ev_keeps)
    | (with_reducible apply serve_keeps)
    | (with_reducible apply windowRelease_keeps)
    | (with_reducible refine Keeps.ite (fun _ => ?_) (fun _ => ?_))
    | (with_reducible refine Keeps.ite_fst (fun _ => ?_) (fun _ => ?_))
    | (with_reducible refine Keeps.ite_snd (fun _ => ?_) (fun _ => ?_))
    | (simp only [Keeps.mk_iff]; with_reducible refine KeepsParts.same (t := _) ?_ (by rfl) rfl rfl rfl)
    | (with_reducible refine Keeps.foldl _ _ ?_ (fun t a hk => ?_))
    | (with_reducible refine Keeps.foldl_fst _ _ _ ?_ (fun x a hk => ?_))
    | (with_reducible refine Keeps.foldl_snd _ _ _ ?_ (fun x a hk => ?_))
    | dsimp only
    | split)

theorem retireLine_keeps {gr : Group → Bool} {s0 : State} {s : State} {k : Nat} (hk : Keeps gr s0 s) :
    Keeps gr s0 (retireLine s k) := by
  unfold retireLine
  repeat' (first
    | (with_reducible assumption)
    | (with_reducible apply lineDrop_keeps)
    | (with_reducible apply checkLine_keeps)
    | (with_reducible apply closeLine_keeps)
    | (with_reducible apply cleanSlot_keeps)
    | (with_reducible refine Keeps.ite (fun _ => ?_) (fun _ => ?_))
    | (with_reducible refine Keeps.ite_fst (fun _ => ?_) (fun _ => ?_))
    | (with_reducible refine Keeps.ite_snd (fun _ => ?_) (fun _ => ?_))
    | (simp only [Keeps.mk_iff]; with_reducible refine KeepsParts.same (t := _) ?_ (by rfl) rfl rfl rfl)
    | (with_reducible refine Keeps.of_fst (y := (_, _)) (x := checkLine _ _ _ _ _) ?_ (by assumption))
    | (with_reducible refine Keeps.of_fst (y := (_, _)) (x := cleanSlot _ _ _) ?_ (by assumption))
    | dsimp only
    | split)

theorem disableAll_keeps {gr : Group → Bool} {s0 : State} {s : State} (hk : Keeps gr s0 s) :
    Keeps gr s0 (disableAll s) := by
  unfold disableAll
  repeat' (first
    | (with_reducible assumption)
    | (with_reducible apply csrPut_keeps)
    | exact .inr (by decide)
    | (with_reducible refine Keeps.ite (fun _ => ?_) (fun _ => ?_))
    | (with_reducible refine Keeps.ite_fst (fun _ => ?_) (fun _ => ?_))
    | (with_reducible refine Keeps.ite_snd (fun _ => ?_) (fun _ => ?_))
    | (simp only [Keeps.mk_iff]; with_reducible refine KeepsParts.tables (t := _) ?_ (fun w => w) (fun w => SMap.wf_mapVals _ w)))

theorem retireDone_keeps {gr : Group → Bool} {s0 : State} {s : State} (hk : Keeps gr s0 s) :
    Keeps gr s0 (retireDone s) := by
  unfold retireDone
  repeat' (first
    | (with_reducible assumption)
    | (with_reducible apply hdrKeep_keeps)
    | (with_reducible apply cmdEnd_keeps)
    | (with_reducible refine Keeps.ite (fun _ => ?_) (fun _ => ?_))
    | (with_reducible refine Keeps.ite_fst (fun _ => ?_) (fun _ => ?_))
    | (with_reducible refine Keeps.ite_snd (fun _ => ?_) (fun _ => ?_))
    | (simp only [Keeps.mk_iff]; with_reducible refine KeepsParts.same (t := _) ?_ (by rfl) rfl rfl rfl)
    | (with_reducible refine Keeps.foldl _ _ ?_ (fun t a hk => ?_)))

theorem retireStep_keeps {gr : Group → Bool} {s0 : State} {s : State} (hk : Keeps gr s0 s) :
    Keeps gr s0 ((retireStep s).1) := by
  unfold retireStep
  repeat' (first
    | (with_reducible assumption)
    | (with_reducible apply planStop_keeps)
    | (with_reducible apply windowReadOut_keeps)
    | (with_reducible apply mergeDrainWhere_keeps)
    | (with_reducible apply closeLine_keeps)
    | (with_reducible apply retireLine_keeps)
    | (with_reducible apply disableAll_keeps)
    | (with_reducible apply snoopIssue_keeps)
    | (with_reducible apply retireDone_keeps)
    | (with_reducible refine Keeps.ite (fun _ => ?_) (fun _ => ?_))
    | (with_reducible refine Keeps.ite_fst (fun _ => ?_) (fun _ => ?_))
    | (with_reducible refine Keeps.ite_snd (fun _ => ?_) (fun _ => ?_))
    | (simp only [Keeps.mk_iff]; with_reducible refine KeepsParts.same (t := _) ?_ (by rfl) rfl rfl rfl)
    | (with_reducible refine Keeps.foldl _ _ ?_ (fun t a hk => ?_)))

theorem retireLoop_keeps {gr : Group → Bool} {s0 : State}  {a0 : Nat} {s : State} (hk : Keeps gr s0 s) :
    Keeps gr s0 (retireLoop  a0 s) := by
  induction a0 generalizing s with
  | zero =>
    unfold retireLoop
    repeat' (first
      | (with_reducible assumption))
  | succ k ih =>
    unfold retireLoop
    repeat' (first
      | (with_reducible assumption)
      | (with_reducible apply ih)
      | (with_reducible apply retireStep_keeps)
      | (with_reducible refine Keeps.ite (fun _ => ?_) (fun _ => ?_))
      | (with_reducible refine Keeps.ite_fst (fun _ => ?_) (fun _ => ?_))
      | (with_reducible refine Keeps.ite_snd (fun _ => ?_) (fun _ => ?_))
      | (simp only [Keeps.mk_iff]; with_reducible refine KeepsParts.same (t := _) ?_ (by rfl) rfl rfl rfl)
      | (with_reducible refine Keeps.of_fst (y := (_, _)) (x := retireStep _) ?_ (by assumption))
      | dsimp only
      | split)

theorem retirePump_keeps {gr : Group → Bool} {s0 : State} {s : State} (hk : Keeps gr s0 s) :
    Keeps gr s0 (retirePump s) := by
  unfold retirePump
  repeat' (first
    | (with_reducible assumption)
    | (with_reducible apply retireLoop_keeps))

end Sys2Proof.Machine
end

