-- ==== Sys2Proof/Laws/KeepsProgress.lean ====
section
/-! SUPPORT. What the operations of Machine/Progress.lean keep (Laws/Keeps.lean). -/

namespace Sys2Proof.Machine

open Sys2Proof

set_option Elab.async false

set_option linter.unusedSimpArgs false

theorem drainOne_keeps {gr : Group → Bool} {s0 : State} {s : State} {d : Drain} {k : Nat} (hk : Keeps gr s0 s) :
    Keeps gr s0 ((drainOne s d k).1) := by
  unfold drainOne
  repeat' (first
    | (with_reducible assumption)
    | (with_reducible apply drainSet_keeps)
    | (with_reducible apply readWhole_keeps)
    | (with_reducible apply logLine_keeps)
    | (with_reducible refine Keeps.ite (fun _ => ?_) (fun _ => ?_))
    | (with_reducible refine Keeps.ite_fst (fun _ => ?_) (fun _ => ?_))
    | (with_reducible refine Keeps.ite_snd (fun _ => ?_) (fun _ => ?_))
    | (with_reducible refine Keeps.of_fst (y := (_, _)) (x := readWhole _ _ _) ?_ (by assumption))
    | (with_reducible refine Keeps.of_fst (y := (_, _)) (x := logLine _ _ _ _ _ _) ?_ (by assumption))
    | dsimp only
    | split)

theorem drainWalk_keeps {gr : Group → Bool} {s0 : State} {d : Drain} {a0 : List Nat} {s : State} (hk : Keeps gr s0 s) :
    Keeps gr s0 (drainWalk d a0 s) := by
  induction a0 generalizing s with
  | nil =>
    unfold drainWalk
    repeat' (first
      | (with_reducible assumption))
  | cons x r ih =>
    unfold drainWalk
    repeat' (first
      | (with_reducible assumption)
      | (with_reducible apply ih)
      | (with_reducible apply drainOne_keeps)
      | (with_reducible refine Keeps.ite (fun _ => ?_) (fun _ => ?_))
      | (with_reducible refine Keeps.ite_fst (fun _ => ?_) (fun _ => ?_))
      | (with_reducible refine Keeps.ite_snd (fun _ => ?_) (fun _ => ?_))
      | (with_reducible refine Keeps.of_fst (y := (_, _)) (x := drainOne _ _ _) ?_ (by assumption))
      | dsimp only
      | split)

theorem drainSeal_keeps {gr : Group → Bool} {s0 : State} {s : State} {d : Drain} (hk : Keeps gr s0 s) :
    Keeps gr s0 (drainSeal s d) := by
  unfold drainSeal
  repeat' (first
    | (with_reducible assumption)
    | (with_reducible apply logRecord_keeps)
    | (with_reducible apply drainSet_keeps)
    | (with_reducible refine Keeps.ite (fun _ => ?_) (fun _ => ?_))
    | (with_reducible refine Keeps.ite_fst (fun _ => ?_) (fun _ => ?_))
    | (with_reducible refine Keeps.ite_snd (fun _ => ?_) (fun _ => ?_))
    | (with_reducible refine Keeps.of_fst (y := (_, _)) (x := logRecord _ _ _ _ _ _ _ _ _ _) ?_ (by assumption))
    | dsimp only
    | split)

theorem drainLag_keeps {gr : Group → Bool} {s0 : State} {s : State} {d : Drain} (hk : Keeps gr s0 s) :
    Keeps gr s0 (drainLag s d) := by
  unfold drainLag
  repeat' (first
    | (with_reducible assumption)
    | (with_reducible apply ttSend_keeps)
    | (with_reducible apply drainSet_keeps)
    | (with_reducible refine Keeps.ite (fun _ => ?_) (fun _ => ?_))
    | (with_reducible refine Keeps.ite_fst (fun _ => ?_) (fun _ => ?_))
    | (with_reducible refine Keeps.ite_snd (fun _ => ?_) (fun _ => ?_))
    | dsimp only
    | split)

theorem drainPump_keeps {gr : Group → Bool} {s0 : State} {s : State} (hk : Keeps gr s0 s) :
    Keeps gr s0 (drainPump s) := by
  unfold drainPump
  repeat' (first
    | (with_reducible assumption)
    | (with_reducible apply bufPump_keeps)
    | (with_reducible apply drainSeal_keeps)
    | (with_reducible apply drainLag_keeps)
    | (with_reducible apply drainWalk_keeps)
    | (with_reducible refine Keeps.ite (fun _ => ?_) (fun _ => ?_))
    | (with_reducible refine Keeps.ite_fst (fun _ => ?_) (fun _ => ?_))
    | (with_reducible refine Keeps.ite_snd (fun _ => ?_) (fun _ => ?_))
    | (with_reducible refine Keeps.foldl _ _ ?_ (fun t a hk => ?_)))

theorem rollPump_keeps {gr : Group → Bool} {s0 : State} {s : State} (hk : Keeps gr s0 s) :
    Keeps gr s0 (rollPump s) := by
  unfold rollPump
  repeat' (first
    | (with_reducible assumption)
    | (with_reducible apply logRecord_keeps)
    | (with_reducible refine Keeps.ite (fun _ => ?_) (fun _ => ?_))
    | (with_reducible refine Keeps.ite_fst (fun _ => ?_) (fun _ => ?_))
    | (with_reducible refine Keeps.ite_snd (fun _ => ?_) (fun _ => ?_))
    | (simp only [Keeps.mk_iff]; with_reducible refine KeepsParts.same (t := _) ?_ (by rfl) rfl rfl rfl)
    | (with_reducible refine Keeps.of_fst (y := (_, _)) (x := logRecord _ _ _ _ _ _ _ _ _ _) ?_ (by assumption))
    | dsimp only
    | split)

theorem imageRecord_keeps {gr : Group → Bool} {s0 : State} {s : State} {c : Cmd} {line kind : Nat} {d : LineData} (hk : Keeps gr s0 s) :
    Keeps gr s0 ((imageRecord s c line kind d).1) := by
  unfold imageRecord
  repeat' (first
    | (with_reducible assumption)
    | (with_reducible apply logRecord_keeps)
    | (with_reducible apply cmdUpd_keeps)
    | (with_reducible refine Keeps.ite (fun _ => ?_) (fun _ => ?_))
    | (with_reducible refine Keeps.ite_fst (fun _ => ?_) (fun _ => ?_)))

theorem imageOne_keeps {gr : Group → Bool} {s0 : State} {s : State} {c : Cmd} {line : Nat} (hk : Keeps gr s0 s) :
    Keeps gr s0 ((imageOne s c line).1) := by
  unfold imageOne
  repeat' (first
    | (with_reducible assumption)
    | (with_reducible apply cmdUpd_keeps)
    | (with_reducible apply imageRecord_keeps)
    | (with_reducible apply heldCheck_keeps)
    | (with_reducible apply checkLine_keeps)
    | (with_reducible apply memRead_keeps)
    | (with_reducible refine Keeps.ite (fun _ => ?_) (fun _ => ?_))
    | (with_reducible refine Keeps.ite_fst (fun _ => ?_) (fun _ => ?_))
    | (with_reducible refine Keeps.ite_snd (fun _ => ?_) (fun _ => ?_))
    | (with_reducible refine Keeps.of_fst (y := (_, _)) (x := imageRecord _ _ _ _ _) ?_ (by assumption))
    | (with_reducible refine Keeps.of_fst (y := (_, _)) (x := heldCheck _ _ _) ?_ (by assumption))
    | (with_reducible refine Keeps.of_fst (y := (_, _)) (x := checkLine _ _ _ _ _) ?_ (by assumption))
    | dsimp only
    | split)

theorem imagePump_keeps {gr : Group → Bool} {s0 : State}  {a0 : Nat} {s : State} {a2 : Nat} (hk : Keeps gr s0 s) :
    Keeps gr s0 (imagePump  a0 s a2) := by
  induction a0 generalizing s a2 with
  | zero =>
    unfold imagePump
    repeat' (first
      | (with_reducible assumption))
  | succ k ih =>
    unfold imagePump
    repeat' (first
      | (with_reducible assumption)
      | (with_reducible apply ih)
      | (with_reducible apply logRecord_keeps)
      | (with_reducible apply cmdEnd_keeps)
      | (with_reducible apply imageOne_keeps)
      | (with_reducible refine Keeps.ite (fun _ => ?_) (fun _ => ?_))
      | (with_reducible refine Keeps.ite_fst (fun _ => ?_) (fun _ => ?_))
      | (with_reducible refine Keeps.ite_snd (fun _ => ?_) (fun _ => ?_))
      | (with_reducible refine Keeps.of_fst (y := (_, _)) (x := logRecord _ _ _ _ _ _ _ _ _ _) ?_ (by assumption))
      | (with_reducible refine Keeps.of_fst (y := (_, _)) (x := imageOne _ _ _) ?_ (by assumption))
      | dsimp only
      | split)

theorem flipStart_keeps {gr : Group → Bool} {s0 : State} {s : State} {c : Cmd} (hk : Keeps gr s0 s) :
    Keeps gr s0 (flipStart s c) := by
  unfold flipStart
  repeat' (first
    | (with_reducible assumption)
    | (with_reducible apply biasCheck_keeps)
    | (with_reducible apply cmdUpd_keeps)
    | (with_reducible apply biasRead_keeps)
    | (with_reducible refine Keeps.ite (fun _ => ?_) (fun _ => ?_))
    | (with_reducible refine Keeps.ite_fst (fun _ => ?_) (fun _ => ?_))
    | (with_reducible refine Keeps.ite_snd (fun _ => ?_) (fun _ => ?_))
    | (with_reducible refine Keeps.foldl _ _ ?_ (fun t a hk => ?_))
    | (with_reducible refine Keeps.foldl_fst _ _ _ ?_ (fun x a hk => ?_))
    | (with_reducible refine Keeps.foldl_snd _ _ _ ?_ (fun x a hk => ?_))
    | dsimp only
    | split)

theorem flipUngrant_keeps {gr : Group → Bool} {s0 : State} {s : State} {c : Cmd} (hk : Keeps gr s0 s) :
    Keeps gr s0 (flipUngrant s c) := by
  unfold flipUngrant
  repeat' (first
    | (with_reducible assumption)
    | (with_reducible apply evN_keeps)
    | (with_reducible refine Keeps.ite (fun _ => ?_) (fun _ => ?_))
    | (with_reducible refine Keeps.ite_fst (fun _ => ?_) (fun _ => ?_))
    | (with_reducible refine Keeps.ite_snd (fun _ => ?_) (fun _ => ?_))
    | (simp only [Keeps.mk_iff]; with_reducible refine KeepsParts.same (t := _) ?_ (by rfl) rfl rfl rfl))

theorem flipApply_keeps {gr : Group → Bool} {s0 : State} {s : State} {c : Cmd} (hk : Keeps gr s0 s) :
    Keeps gr s0 (flipApply s c) := by
  unfold flipApply
  repeat' (first
    | (with_reducible assumption)
    | (with_reducible apply cmdUpd_keeps)
    | (with_reducible apply flipUngrant_keeps)
    | (with_reducible apply memWrite_keeps)
    | (with_reducible apply flipPump_keeps)
    | (with_reducible refine Keeps.ite (fun _ => ?_) (fun _ => ?_))
    | (with_reducible refine Keeps.ite_fst (fun _ => ?_) (fun _ => ?_))
    | (with_reducible refine Keeps.ite_snd (fun _ => ?_) (fun _ => ?_))
    | (simp only [Keeps.mk_iff]; with_reducible refine KeepsParts.same (t := _) ?_ (by rfl) rfl rfl rfl)
    | (with_reducible refine Keeps.foldl _ _ ?_ (fun t a hk => ?_)))

theorem flipStep_keeps {gr : Group → Bool} {s0 : State} {s : State} {n : Nat} (hk : Keeps gr s0 s) :
    Keeps gr s0 (flipStep s n) := by
  unfold flipStep
  repeat' (first
    | (with_reducible assumption)
    | (with_reducible apply flipApply_keeps)
    | (with_reducible apply flipStart_keeps)
    | (with_reducible refine Keeps.ite (fun _ => ?_) (fun _ => ?_))
    | (with_reducible refine Keeps.ite_fst (fun _ => ?_) (fun _ => ?_))
    | (with_reducible refine Keeps.ite_snd (fun _ => ?_) (fun _ => ?_))
    | dsimp only
    | split)

theorem replayPut_keeps {gr : Group → Bool} {s0 : State} {s : State} {k line : Nat} {l : Line} {m : LineMask} {fallow : Bool} (hk : Keeps gr s0 s) :
    Keeps gr s0 (replayPut s k line l m fallow) := by
  unfold replayPut
  repeat' (first
    | (with_reducible assumption)
    | (with_reducible apply storeLine_keeps)
    | (with_reducible refine Keeps.ite (fun _ => ?_) (fun _ => ?_))
    | (with_reducible refine Keeps.ite_fst (fun _ => ?_) (fun _ => ?_))
    | (with_reducible refine Keeps.ite_snd (fun _ => ?_) (fun _ => ?_))
    | (simp only [Keeps.mk_iff]; with_reducible refine KeepsParts.same (t := _) ?_ (by rfl) rfl rfl rfl))

theorem replayLine_keeps {gr : Group → Bool} {s0 : State} {s : State} {line : Nat} {m : LineMask} {d : LineData} {fallow : Bool} {n : Nat} (hk : Keeps gr s0 s) :
    Keeps gr s0 ((replayLine s line m d fallow n).1) := by
  unfold replayLine
  repeat' (first
    | (with_reducible assumption)
    | (with_reducible apply memWriteMasked_keeps)
    | (with_reducible apply closeFor_keeps)
    | (with_reducible apply checkLine_keeps)
    | (with_reducible apply mirrorRoom_keeps)
    | (with_reducible apply replayPut_keeps)
    | (with_reducible apply mirrorRoomMiss_keeps)
    | (with_reducible apply findWay_keeps)
    | (with_reducible apply evN_keeps)
    | (with_reducible apply storeLine_keeps)
    | (with_reducible apply setFilling_keeps)
    | (with_reducible apply mheStart_keeps)
    | (with_reducible refine Keeps.ite (fun _ => ?_) (fun _ => ?_))
    | (with_reducible refine Keeps.ite_fst (fun _ => ?_) (fun _ => ?_))
    | (with_reducible refine Keeps.ite_snd (fun _ => ?_) (fun _ => ?_))
    | (with_reducible refine Keeps.of_fst (y := (_, _)) (x := checkLine _ _ _ _ _) ?_ (by assumption))
    | (with_reducible refine Keeps.of_fst (y := (_, _)) (x := mirrorRoom _ _) ?_ (by assumption))
    | (with_reducible refine Keeps.of_fst (y := (_, _)) (x := mirrorRoomMiss _ _ _ _) ?_ (by assumption))
    | (with_reducible refine Keeps.of_busy (x := findWay _ _ _ _ _) ?_ (by assumption))
    | (with_reducible refine Keeps.of_noWay (x := findWay _ _ _ _ _) ?_ (by assumption))
    | (with_reducible refine Keeps.of_slot (x := findWay _ _ _ _ _) ?_ (by assumption))
    | (with_reducible refine Keeps.of_fst (y := (_, _)) (x := ite _ _ _) ?_ (by assumption))
    | (with_reducible refine Keeps.of_fst (y := (_, _, _)) (x := ite _ _ _) ?_ (by assumption))
    | dsimp only
    | split)

theorem ctxOpen_keeps {gr : Group → Bool} {s0 : State} {s : State} {ctx : Nat} {x : Ctx} (hk : Keeps gr s0 s) :
    Keeps gr s0 (ctxOpen s ctx x) := by
  unfold ctxOpen
  repeat' (first
    | (with_reducible assumption)
    | (with_reducible apply ctxPut_keeps)
    | (with_reducible refine Keeps.ite (fun _ => ?_) (fun _ => ?_))
    | (with_reducible refine Keeps.ite_fst (fun _ => ?_) (fun _ => ?_))
    | (with_reducible refine Keeps.ite_snd (fun _ => ?_) (fun _ => ?_))
    | (simp only [Keeps.mk_iff]; with_reducible refine KeepsParts.tables (t := _) ?_ (fun w => SMap.wf_mapVals _ w) (fun w => w)))

theorem replayEnd_keeps {gr : Group → Bool} {s0 : State} {s : State} {c : Cmd} (hk : Keeps gr s0 s) :
    Keeps gr s0 (replayEnd s c) := by
  unfold replayEnd
  repeat' (first
    | (with_reducible assumption)
    | (with_reducible apply lastPut_keeps)
    | (with_reducible apply cmdEnd_keeps)
    | (with_reducible apply postEvent_keeps)
    | (with_reducible apply ctxOpen_keeps)
    | (with_reducible refine Keeps.ite (fun _ => ?_) (fun _ => ?_)))

theorem replayPump_keeps {gr : Group → Bool} {s0 : State}  {a0 : Nat} {s : State} {a2 : Nat} (hk : Keeps gr s0 s) :
    Keeps gr s0 (replayPump  a0 s a2) := by
  induction a0 generalizing s a2 with
  | zero =>
    unfold replayPump
    repeat' (first
      | (with_reducible assumption))
  | succ k ih =>
    unfold replayPump
    repeat' (first
      | (with_reducible assumption)
      | (with_reducible apply ih)
      | (with_reducible apply replayEnd_keeps)
      | (with_reducible apply replayLine_keeps)
      | (with_reducible apply cmdUpd_keeps)
      | (with_reducible refine Keeps.ite (fun _ => ?_) (fun _ => ?_))
      | (with_reducible refine Keeps.ite_fst (fun _ => ?_) (fun _ => ?_))
      | (with_reducible refine Keeps.ite_snd (fun _ => ?_) (fun _ => ?_))
      | (with_reducible refine Keeps.of_fst (y := (_, _)) (x := replayLine _ _ _ _ _ _) ?_ (by assumption))
      | dsimp only
      | split)

theorem rangeEnd_keeps {gr : Group → Bool} {s0 : State} {s : State} {c : Cmd} (hk : Keeps gr s0 s) :
    Keeps gr s0 (rangeEnd s c) := by
  unfold rangeEnd
  repeat' (first
    | (with_reducible assumption)
    | (with_reducible apply cmdEnd_keeps))

theorem digestEnd_keeps {gr : Group → Bool} {s0 : State} {s : State} {c : Cmd} (hk : Keeps gr s0 s) :
    Keeps gr s0 (digestEnd s c) := by
  unfold digestEnd
  repeat' (first
    | (with_reducible assumption)
    | (with_reducible apply cmdEnd_keeps)
    | (with_reducible refine Keeps.ite (fun _ => ?_) (fun _ => ?_)))

theorem lastChange_keeps {gr : Group → Bool} {s0 : State} {s : State} {c : Cmd} (hk : Keeps gr s0 s) :
    Keeps gr s0 (lastChange s c) := by
  unfold lastChange
  repeat' (first
    | (with_reducible assumption)
    | (with_reducible apply lastPut_keeps)
    | (with_reducible apply cmdEnd_keeps)
    | (with_reducible refine Keeps.ite (fun _ => ?_) (fun _ => ?_))
    | (with_reducible refine Keeps.ite_fst (fun _ => ?_) (fun _ => ?_))
    | (with_reducible refine Keeps.ite_snd (fun _ => ?_) (fun _ => ?_))
    | (simp only [Keeps.mk_iff]; with_reducible refine KeepsParts.same (t := _) ?_ (by rfl) rfl rfl rfl))

theorem lastRemove_keeps {gr : Group → Bool} {s0 : State} {s : State} {c : Cmd} (hk : Keeps gr s0 s) :
    Keeps gr s0 (lastRemove s c) := by
  unfold lastRemove
  repeat' (first
    | (with_reducible assumption)
    | (with_reducible apply lineDrop_keeps)
    | (with_reducible apply cmdEnd_keeps)
    | (with_reducible refine Keeps.ite (fun _ => ?_) (fun _ => ?_))
    | (with_reducible refine Keeps.ite_fst (fun _ => ?_) (fun _ => ?_))
    | (with_reducible refine Keeps.ite_snd (fun _ => ?_) (fun _ => ?_))
    | (simp only [Keeps.mk_iff]; with_reducible refine KeepsParts.tables (t := _) ?_ (fun w => w) (fun w => SMap.wf_del _ w))
    | (with_reducible refine Keeps.foldl _ _ ?_ (fun t a hk => ?_)))

theorem presentLines_keeps {gr : Group → Bool} {s0 : State} {s : State} {c : Cmd} {kind : OpKind} {ops : List (Nat × Nat × Nat × Nat)} (hk : Keeps gr s0 s) :
    Keeps gr s0 (presentLines s c kind ops) := by
  unfold presentLines
  repeat' (first
    | (with_reducible assumption)
    | (with_reducible apply cmdUpd_keeps)
    | (with_reducible apply present_keeps)
    | (with_reducible refine Keeps.ite (fun _ => ?_) (fun _ => ?_))
    | (with_reducible refine Keeps.ite_fst (fun _ => ?_) (fun _ => ?_))
    | (with_reducible refine Keeps.ite_snd (fun _ => ?_) (fun _ => ?_))
    | (simp only [Keeps.mk_iff]; with_reducible refine KeepsParts.same (t := _) ?_ (by rfl) rfl rfl rfl)
    | (with_reducible refine Keeps.foldl _ _ ?_ (fun t a hk => ?_)))

theorem bindFree_keeps {gr : Group → Bool} {s0 : State} {s : State} {c : Cmd} (hk : Keeps gr s0 s) :
    Keeps gr s0 (bindFree s c) := by
  unfold bindFree
  repeat' (first
    | (with_reducible assumption)
    | (with_reducible apply windowDrop_keeps)
    | (with_reducible refine Keeps.ite (fun _ => ?_) (fun _ => ?_))
    | (with_reducible refine Keeps.ite_fst (fun _ => ?_) (fun _ => ?_))
    | (with_reducible refine Keeps.ite_snd (fun _ => ?_) (fun _ => ?_))
    | (with_reducible refine Keeps.foldl _ _ ?_ (fun t a hk => ?_)))

theorem bindStep_keeps {gr : Group → Bool} {s0 : State} {s : State} {c : Cmd} (hk : Keeps gr s0 s) :
    Keeps gr s0 (bindStep s c) := by
  unfold bindStep
  repeat' (first
    | (with_reducible assumption)
    | (with_reducible apply cmdEnd_keeps)
    | (with_reducible apply presentLines_keeps)
    | (with_reducible apply bindFree_keeps)
    | (with_reducible apply closeLine_keeps)
    | (with_reducible apply linePut_keeps)
    | (with_reducible refine Keeps.ite (fun _ => ?_) (fun _ => ?_))
    | (with_reducible refine Keeps.ite_fst (fun _ => ?_) (fun _ => ?_))
    | (with_reducible refine Keeps.ite_snd (fun _ => ?_) (fun _ => ?_))
    | (simp only [Keeps.mk_iff]; with_reducible refine KeepsParts.same (t := _) ?_ (by rfl) rfl rfl rfl)
    | (with_reducible refine Keeps.foldl _ _ ?_ (fun t a hk => ?_))
    | (with_reducible refine Keeps.foldl_fst _ _ _ ?_ (fun x a hk => ?_))
    | (with_reducible refine Keeps.foldl_snd _ _ _ ?_ (fun x a hk => ?_))
    | dsimp only
    | split)

theorem sheafReadEnd_keeps {gr : Group → Bool} {s0 : State} {s : State} {c : Cmd} (hk : Keeps gr s0 s) :
    Keeps gr s0 (sheafReadEnd s c) := by
  unfold sheafReadEnd
  repeat' (first
    | (with_reducible assumption)
    | (with_reducible apply windowRelease_keeps)
    | (with_reducible apply cmdEnd_keeps)
    | (with_reducible refine Keeps.ite (fun _ => ?_) (fun _ => ?_))
    | (with_reducible refine Keeps.ite_fst (fun _ => ?_) (fun _ => ?_))
    | (with_reducible refine Keeps.ite_snd (fun _ => ?_) (fun _ => ?_))
    | dsimp only
    | split)

theorem resumeStep_keeps {gr : Group → Bool} {s0 : State} {s : State} {c : Cmd} (hk : Keeps gr s0 s) :
    Keeps gr s0 (resumeStep s c) := by
  unfold resumeStep
  repeat' (first
    | (with_reducible assumption)
    | (with_reducible apply cmdEnd_keeps)
    | (with_reducible apply ctxPut_keeps)
    | (with_reducible refine Keeps.ite (fun _ => ?_) (fun _ => ?_)))

theorem cmdFinal_keeps {gr : Group → Bool} {s0 : State} {s : State} {c : Cmd} (hk : Keeps gr s0 s) :
    Keeps gr s0 (cmdFinal s c) := by
  unfold cmdFinal
  repeat' (first
    | (with_reducible assumption)
    | (with_reducible apply rangeEnd_keeps)
    | (with_reducible apply lastChange_keeps)
    | (with_reducible apply lastRemove_keeps)
    | (with_reducible apply cmdEnd_keeps)
    | (with_reducible apply bindStep_keeps)
    | (with_reducible apply sheafReadEnd_keeps)
    | (with_reducible apply digestEnd_keeps)
    | (with_reducible refine Keeps.ite (fun _ => ?_) (fun _ => ?_)))

theorem cmdStep_keeps {gr : Group → Bool} {s0 : State} {s : State} {n : Nat} (hk : Keeps gr s0 s) :
    Keeps gr s0 (cmdStep s n) := by
  unfold cmdStep
  repeat' (first
    | (with_reducible assumption)
    | (with_reducible apply digestEnd_keeps)
    | (with_reducible apply cmdFinal_keeps)
    | (with_reducible apply imagePump_keeps)
    | (with_reducible apply replayPump_keeps)
    | (with_reducible apply resumeStep_keeps)
    | (with_reducible apply flipStep_keeps)
    | (with_reducible refine Keeps.ite (fun _ => ?_) (fun _ => ?_))
    | (with_reducible refine Keeps.ite_fst (fun _ => ?_) (fun _ => ?_))
    | (with_reducible refine Keeps.ite_snd (fun _ => ?_) (fun _ => ?_))
    | dsimp only
    | split)

theorem stageOutWrite_keeps {gr : Group → Bool} {s0 : State} {s : State} {k : Nat} (hk : Keeps gr s0 s) :
    Keeps gr s0 ((stageOutWrite s k).1) := by
  unfold stageOutWrite
  repeat' (first
    | (with_reducible assumption)
    | (with_reducible apply closeFor_keeps)
    | (with_reducible apply storeLine_keeps)
    | (with_reducible apply logLine_keeps)
    | (with_reducible apply memWriteLine_keeps)
    | (with_reducible refine Keeps.ite (fun _ => ?_) (fun _ => ?_))
    | (with_reducible refine Keeps.ite_fst (fun _ => ?_) (fun _ => ?_))
    | (with_reducible refine Keeps.ite_snd (fun _ => ?_) (fun _ => ?_))
    | (simp only [Keeps.mk_iff]; with_reducible refine KeepsParts.same (t := _) ?_ (by rfl) rfl rfl rfl)
    | (with_reducible refine Keeps.of_fst (y := (_, _)) (x := logLine _ _ _ _ _ _) ?_ (by assumption))
    | (with_reducible refine Keeps.of_fst (y := (_, _)) (x := ite _ _ _) ?_ (by assumption))
    | (with_reducible refine Keeps.of_fst (y := (_, _, _)) (x := ite _ _ _) ?_ (by assumption))
    | (with_reducible refine Keeps.foldl _ _ ?_ (fun t a hk => ?_))
    | (with_reducible refine Keeps.foldl_fst _ _ _ ?_ (fun x a hk => ?_))
    | (with_reducible refine Keeps.foldl_snd _ _ _ ?_ (fun x a hk => ?_))
    | dsimp only
    | split)

theorem stageOutKeep_keeps {gr : Group → Bool} {s0 : State} {s : State} {line : Nat} (hk : Keeps gr s0 s) :
    Keeps gr s0 (stageOutKeep s line) := by
  unfold stageOutKeep
  repeat' (first
    | (with_reducible assumption)
    | (with_reducible refine Keeps.ite (fun _ => ?_) (fun _ => ?_))
    | (with_reducible refine Keeps.ite_fst (fun _ => ?_) (fun _ => ?_))
    | (with_reducible refine Keeps.ite_snd (fun _ => ?_) (fun _ => ?_))
    | (simp only [Keeps.mk_iff]; with_reducible refine KeepsParts.same (t := _) ?_ (by rfl) rfl rfl rfl))

theorem stageOutPump_keeps {gr : Group → Bool} {s0 : State} {s : State} (hk : Keeps gr s0 s) :
    Keeps gr s0 (stageOutPump s) := by
  unfold stageOutPump
  repeat' (first
    | (with_reducible assumption)
    | (with_reducible apply checkLine_keeps)
    | (with_reducible apply closeFor_keeps)
    | (with_reducible apply stageOutWrite_keeps)
    | (with_reducible refine Keeps.ite (fun _ => ?_) (fun _ => ?_))
    | (with_reducible refine Keeps.ite_fst (fun _ => ?_) (fun _ => ?_))
    | (with_reducible refine Keeps.ite_snd (fun _ => ?_) (fun _ => ?_))
    | (simp only [Keeps.mk_iff]; with_reducible refine KeepsParts.same (t := _) ?_ (by rfl) rfl rfl rfl)
    | (with_reducible refine Keeps.of_fst (y := (_, _)) (x := checkLine _ _ _ _ _) ?_ (by assumption))
    | (with_reducible refine Keeps.of_fst (y := (_, _)) (x := stageOutWrite _ _) ?_ (by assumption))
    | (with_reducible refine Keeps.foldl _ _ ?_ (fun t a hk => ?_))
    | (with_reducible refine Keeps.foldl_fst _ _ _ ?_ (fun x a hk => ?_))
    | (with_reducible refine Keeps.foldl_snd _ _ _ ?_ (fun x a hk => ?_))
    | dsimp only
    | split)

theorem cmdSweep_keeps {gr : Group → Bool} {s0 : State} {s : State} (hk : Keeps gr s0 s) :
    Keeps gr s0 (cmdSweep s) := by
  unfold cmdSweep
  repeat' (first
    | (with_reducible assumption)
    | (with_reducible apply cmdLeave_keeps)
    | (with_reducible refine Keeps.ite (fun _ => ?_) (fun _ => ?_))
    | (with_reducible refine Keeps.ite_fst (fun _ => ?_) (fun _ => ?_))
    | (with_reducible refine Keeps.ite_snd (fun _ => ?_) (fun _ => ?_))
    | (simp only [Keeps.mk_iff]; with_reducible refine KeepsParts.same (t := _) ?_ (by rfl) rfl rfl rfl)
    | (with_reducible refine Keeps.foldl _ _ ?_ (fun t a hk => ?_)))

theorem entryEnd_keeps {gr : Group → Bool} {s0 s : State} (hk : Keeps gr s0 s) : Keeps gr s0 (entryEnd s) := by
  unfold entryEnd
  refine Keeps.ite (fun hc => ?_) (fun _ => hk)
  refine ⟨hk.pending, hk.out, hk.csr, hk.lines, hk.lasts, hk.sf, hk.now, hk.pins, fun hb hpn => ?_, hk.time, hk.key, hk.plan, hk.patch,
    hk.packs, hk.press, hk.regs⟩
  simp only [Bool.and_eq_true, Bool.or_eq_true, beq_iff_eq] at hc
  obtain ⟨⟨⟨hf, hp⟩, -⟩, -⟩ := hc
  have hpin : s.pw.flowStop = s0.pw.flowStop := by simpa [pinsOf] using congrArg Power.flowStop (hk.pins hpn)
  have hp' : s.pw.pstate = 2 ∨ s.pw.pstate = 5 := by simpa [Ps.serving, Ps.quiesce] using hp
  refine .inr (.inr ?_)
  rcases hk.life hb hpn with e | e | e
  · simp only [lifeOf, Prod.mk.injEq] at e
    obtain ⟨e1, e2, e3, e4, e5⟩ := e
    exact ⟨e4.symm, e5.symm, e1 ▸ hp', hpin ▸ hf, rfl, rfl⟩
  · omega
  · omega

theorem advance_keeps {gr : Group → Bool} {s0 : State} {s : State} (hk : Keeps gr s0 s) :
    Keeps gr s0 (advance s) := by
  unfold advance
  repeat' (first
    | (with_reducible assumption)
    | (with_reducible apply stageOutPump_keeps)
    | (with_reducible apply rollPump_keeps)
    | (with_reducible apply drainPump_keeps)
    | (with_reducible apply pump_keeps)
    | (with_reducible apply cmdStep_keeps)
    | (with_reducible apply retirePump_keeps)
    | (with_reducible apply cmdSweep_keeps)
    | (with_reducible apply entryEnd_keeps)
    | (with_reducible refine Keeps.ite (fun _ => ?_) (fun _ => ?_))
    | (with_reducible refine Keeps.ite_fst (fun _ => ?_) (fun _ => ?_))
    | (with_reducible refine Keeps.ite_snd (fun _ => ?_) (fun _ => ?_))
    | (with_reducible refine Keeps.foldl _ _ ?_ (fun t a hk => ?_)))

end Sys2Proof.Machine
end

