-- ==== Sys2Proof/Laws/KeepsFrames.lean ====
section
/-! SUPPORT. What the operations of Machine/Frames.lean keep (Laws/Keeps.lean). -/

namespace Sys2Proof.Machine

open Sys2Proof

set_option Elab.async false

set_option linter.unusedSimpArgs false

theorem hdrGate_keeps {gr : Group → Bool} {s0 : State} {s : State} {f : Frame} {take : State → State} (hk : Keeps gr s0 s) (hf : ∀ t, Keeps gr s0 t → Keeps gr s0 (take t)) :
    Keeps gr s0 (hdrGate s f take) := by
  unfold hdrGate
  repeat' (first
    | (with_reducible assumption)
    | (with_reducible refine hf _ ?_)
    | (with_reducible apply hf)
    | (with_reducible apply postError_keeps)
    | (with_reducible apply drive_keeps)
    | (with_reducible apply ev_keeps)
    | (with_reducible refine Keeps.ite (fun _ => ?_) (fun _ => ?_)))

theorem hdrAckSend_keeps {gr : Group → Bool} {s0 : State} {s : State} {f : Frame} (hk : Keeps gr s0 s) :
    Keeps gr s0 (hdrAckSend s f) := by
  unfold hdrAckSend
  repeat' (first
    | (with_reducible assumption)
    | (with_reducible apply hdrSend_keeps))

theorem execFenceFrame_keeps {gr : Group → Bool} {s : State} {f : Frame} :
    ∀ s1, execFenceFrame f s = .next s1 → Keeps gr s s1 := by
  intro s1 ht
  unfold execFenceFrame at ht
  obtain rfl := Host.Outcome.next.inj ht
  have hk := Keeps.refl gr s
  repeat' (first
    | (with_reducible assumption)
    | (with_reducible apply hdrGate_keeps)
    | (with_reducible apply advance_keeps)
    | (with_reducible apply fence_keeps)
    | (with_reducible apply hdrAckSend_keeps)
    | (with_reducible refine Keeps.ite (fun _ => ?_) (fun _ => ?_))
    | (with_reducible refine Keeps.ite_fst (fun _ => ?_) (fun _ => ?_))
    | (with_reducible refine Keeps.ite_snd (fun _ => ?_) (fun _ => ?_))
    | intro t a hk
    | intro t hk)

theorem execWatchdogTimeout_keeps {gr : Group → Bool} {s : State}  :
    ∀ s1, execWatchdogTimeout s = .next s1 → Keeps gr s s1 := by
  intro s1 ht
  unfold execWatchdogTimeout at ht
  obtain rfl := Host.Outcome.next.inj ht
  have hk := Keeps.refl gr s
  repeat' (first
    | (with_reducible assumption)
    | (with_reducible apply fence_keeps)
    | (with_reducible refine Keeps.ite (fun _ => ?_) (fun _ => ?_)))

theorem execFabricGuardTimeout_keeps {gr : Group → Bool} {s : State}  :
    ∀ s1, execFabricGuardTimeout s = .next s1 → Keeps gr s s1 := by
  intro s1 ht
  unfold execFabricGuardTimeout at ht
  obtain rfl := Host.Outcome.next.inj ht
  have hk := Keeps.refl gr s
  repeat' (first
    | (with_reducible assumption)
    | (with_reducible apply fence_keeps)
    | (with_reducible refine Keeps.ite (fun _ => ?_) (fun _ => ?_)))

theorem fenceWalkDone_keeps {gr : Group → Bool} {s0 : State} {s : State} (hk : Keeps gr s0 s) :
    Keeps gr s0 (fenceWalkDone s) := by
  unfold fenceWalkDone
  repeat' (first
    | (with_reducible assumption)
    | (with_reducible apply hdrKeep_keeps)
    | (with_reducible refine Keeps.ite (fun _ => ?_) (fun _ => ?_))
    | (with_reducible refine Keeps.ite_fst (fun _ => ?_) (fun _ => ?_))
    | (with_reducible refine Keeps.ite_snd (fun _ => ?_) (fun _ => ?_))
    | (simp only [Keeps.mk_iff]; with_reducible refine KeepsParts.same (t := _) ?_ (by rfl) rfl rfl rfl)
    | (with_reducible refine Keeps.foldl _ _ ?_ (fun t a hk => ?_)))

theorem execFenceWalkDone_keeps {gr : Group → Bool} {s : State}  :
    ∀ s1, execFenceWalkDone s = .next s1 → Keeps gr s s1 := by
  intro s1 ht
  unfold execFenceWalkDone at ht
  obtain rfl := Host.Outcome.next.inj ht
  have hk := Keeps.refl gr s
  repeat' (first
    | (with_reducible assumption)
    | (with_reducible apply fenceWalkDone_keeps)
    | (with_reducible refine Keeps.ite (fun _ => ?_) (fun _ => ?_)))

theorem hdrAck_keeps {gr : Group → Bool} {s0 : State} {s : State} {f : Frame} (hk : Keeps gr s0 s) :
    Keeps gr s0 (hdrAck s f) := by
  unfold hdrAck
  repeat' (first
    | (with_reducible assumption)
    | (with_reducible refine Keeps.ite (fun _ => ?_) (fun _ => ?_))
    | (with_reducible refine Keeps.ite_fst (fun _ => ?_) (fun _ => ?_))
    | (with_reducible refine Keeps.ite_snd (fun _ => ?_) (fun _ => ?_))
    | (simp only [Keeps.mk_iff]; with_reducible refine KeepsParts.same (t := _) ?_ (by rfl) rfl rfl rfl))

theorem execHdrAck_keeps {gr : Group → Bool} {s : State} {f : Frame} :
    ∀ s1, execHdrAck f s = .next s1 → Keeps gr s s1 := by
  intro s1 ht
  unfold execHdrAck at ht
  obtain rfl := Host.Outcome.next.inj ht
  have hk := Keeps.refl gr s
  repeat' (first
    | (with_reducible assumption)
    | (with_reducible apply hdrGate_keeps)
    | (with_reducible apply hdrAck_keeps)
    | (with_reducible refine Keeps.ite (fun _ => ?_) (fun _ => ?_))
    | (with_reducible refine Keeps.ite_fst (fun _ => ?_) (fun _ => ?_))
    | (with_reducible refine Keeps.ite_snd (fun _ => ?_) (fun _ => ?_))
    | intro t a hk
    | intro t hk)

theorem frameResend_keeps {gr : Group → Bool} {s0 : State} {s : State} {seq : Nat} (hk : Keeps gr s0 s) :
    Keeps gr s0 (frameResend s seq) := by
  unfold frameResend
  repeat' (first
    | (with_reducible assumption)
    | (with_reducible apply ev_keeps)
    | (with_reducible apply drive_keeps)
    | (with_reducible refine Keeps.ite (fun _ => ?_) (fun _ => ?_))
    | (with_reducible refine Keeps.ite_fst (fun _ => ?_) (fun _ => ?_))
    | (with_reducible refine Keeps.ite_snd (fun _ => ?_) (fun _ => ?_))
    | (simp only [Keeps.mk_iff]; with_reducible refine KeepsParts.same (t := _) ?_ (by rfl) rfl rfl rfl)
    | dsimp only
    | split)

theorem execFrameResend_keeps {gr : Group → Bool} {s : State} {seq : Nat} :
    ∀ s1, execFrameResend seq s = .next s1 → Keeps gr s s1 := by
  intro s1 ht
  unfold execFrameResend at ht
  obtain rfl := Host.Outcome.next.inj ht
  have hk := Keeps.refl gr s
  repeat' (first
    | (with_reducible assumption)
    | (with_reducible apply frameResend_keeps))

theorem heartbeat_keeps {gr : Group → Bool} {s0 : State} {s : State} (hk : Keeps gr s0 s) :
    Keeps gr s0 (heartbeat s) := by
  unfold heartbeat
  repeat' (first
    | (with_reducible assumption)
    | (with_reducible apply hdrSend_keeps))

theorem execHeartbeat_keeps {gr : Group → Bool} {s : State}  :
    ∀ s1, execHeartbeat s = .next s1 → Keeps gr s s1 := by
  intro s1 ht
  unfold execHeartbeat at ht
  obtain rfl := Host.Outcome.next.inj ht
  have hk := Keeps.refl gr s
  repeat' (first
    | (with_reducible assumption)
    | (with_reducible apply heartbeat_keeps)
    | (with_reducible refine Keeps.ite (fun _ => ?_) (fun _ => ?_)))

theorem propose_keeps {gr : Group → Bool} {s0 : State} {s : State} (hk : Keeps gr s0 s) :
    Keeps gr s0 (propose s) := by
  unfold propose
  repeat' (first
    | (with_reducible assumption)
    | (with_reducible apply hdrKeep_keeps)
    | (with_reducible apply ledAdd_keeps)
    | (with_reducible apply postEventFree_keeps)
    | (with_reducible refine Keeps.ite (fun _ => ?_) (fun _ => ?_))
    | (with_reducible refine Keeps.ite_fst (fun _ => ?_) (fun _ => ?_))
    | (with_reducible refine Keeps.ite_snd (fun _ => ?_) (fun _ => ?_))
    | (simp only [Keeps.mk_iff]; with_reducible refine KeepsParts.same (t := _) ?_ (by rfl) rfl rfl rfl))

theorem oppointSet_keeps {gr : Group → Bool} {s0 : State} {s : State} {f : Frame} (hk : Keeps gr s0 s) :
    Keeps gr s0 (oppointSet s f) := by
  unfold oppointSet
  repeat' (first
    | (with_reducible assumption)
    | (with_reducible apply propose_keeps)
    | (with_reducible apply ledAdd_keeps)
    | (with_reducible refine Keeps.ite (fun _ => ?_) (fun _ => ?_))
    | (with_reducible refine Keeps.ite_fst (fun _ => ?_) (fun _ => ?_))
    | (with_reducible refine Keeps.ite_snd (fun _ => ?_) (fun _ => ?_))
    | (simp only [Keeps.mk_iff]; with_reducible refine KeepsParts.same (t := _) ?_ (by rfl) rfl rfl rfl))

theorem execOppointSet_keeps {gr : Group → Bool} {s : State} {f : Frame} :
    ∀ s1, execOppointSet f s = .next s1 → Keeps gr s s1 := by
  intro s1 ht
  unfold execOppointSet at ht
  obtain rfl := Host.Outcome.next.inj ht
  have hk := Keeps.refl gr s
  repeat' (first
    | (with_reducible assumption)
    | (with_reducible apply hdrGate_keeps)
    | (with_reducible apply oppointSet_keeps)
    | (with_reducible refine Keeps.ite (fun _ => ?_) (fun _ => ?_))
    | (with_reducible refine Keeps.ite_fst (fun _ => ?_) (fun _ => ?_))
    | (with_reducible refine Keeps.ite_snd (fun _ => ?_) (fun _ => ?_))
    | intro t a hk
    | intro t hk)

theorem execRegReading_keeps {gr : Group → Bool} {s : State} {f : Frame} :
    ∀ s1, execRegReading f s = .next s1 → Keeps gr s s1 := by
  intro s1 ht
  unfold execRegReading at ht
  obtain rfl := Host.Outcome.next.inj ht
  have hk := Keeps.refl gr s
  repeat' (first
    | (with_reducible assumption)
    | (with_reducible apply hdrGate_keeps)
    | (with_reducible apply regReading_keeps)
    | (with_reducible refine Keeps.ite (fun _ => ?_) (fun _ => ?_))
    | (with_reducible refine Keeps.ite_fst (fun _ => ?_) (fun _ => ?_))
    | (with_reducible refine Keeps.ite_snd (fun _ => ?_) (fun _ => ?_))
    | intro t a hk
    | intro t hk)

theorem timeSeconds_keeps {gr : Group → Bool} {s0 : State} {s : State} {f : Frame} (hk : Keeps gr s0 s) (hbTime : gr .time = false) :
    Keeps gr s0 (timeSeconds s f) := by
  unfold timeSeconds
  repeat' (first
    | (with_reducible assumption)
    | (with_reducible apply csrPut_keeps)
    | exact .inr (by decide)
    | (with_reducible refine Keeps.ite (fun _ => ?_) (fun _ => ?_))
    | (with_reducible refine Keeps.ite_fst (fun _ => ?_) (fun _ => ?_))
    | (with_reducible refine Keeps.ite_snd (fun _ => ?_) (fun _ => ?_))
    | (simp only [Keeps.mk_iff]; refine KeepsParts.freed (t := _) ?_))

theorem execTimeSeconds_keeps {gr : Group → Bool} {s : State} {f : Frame} (hbTime : gr .time = false) :
    ∀ s1, execTimeSeconds f s = .next s1 → Keeps gr s s1 := by
  intro s1 ht
  unfold execTimeSeconds at ht
  obtain rfl := Host.Outcome.next.inj ht
  have hk := Keeps.refl gr s
  repeat' (first
    | (with_reducible assumption)
    | (with_reducible apply hdrGate_keeps)
    | (with_reducible apply timeSeconds_keeps)
    | (with_reducible refine Keeps.ite (fun _ => ?_) (fun _ => ?_))
    | (with_reducible refine Keeps.ite_fst (fun _ => ?_) (fun _ => ?_))
    | (with_reducible refine Keeps.ite_snd (fun _ => ?_) (fun _ => ?_))
    | intro t a hk
    | intro t hk)

theorem retireGo_keeps {gr : Group → Bool} {s0 : State} {s : State} (hk : Keeps gr s0 s) :
    Keeps gr s0 (retireGo s) := by
  unfold retireGo
  repeat' (first
    | (with_reducible assumption)
    | (with_reducible apply advance_keeps)
    | (with_reducible apply drainStart_keeps)
    | (with_reducible apply raiseRetire_keeps)
    | (with_reducible refine Keeps.ite (fun _ => ?_) (fun _ => ?_)))

theorem execRetireGo_keeps {gr : Group → Bool} {s : State} {f : Frame} :
    ∀ s1, execRetireGo f s = .next s1 → Keeps gr s s1 := by
  intro s1 ht
  unfold execRetireGo at ht
  obtain rfl := Host.Outcome.next.inj ht
  have hk := Keeps.refl gr s
  repeat' (first
    | (with_reducible assumption)
    | (with_reducible apply hdrGate_keeps)
    | (with_reducible apply retireGo_keeps))

end Sys2Proof.Machine
end

