-- ==== Sys2Proof/Laws/KeepsRequests.lean ====
section
/-! SUPPORT. What the operations of Machine/Requests.lean keep (Laws/Keeps.lean). -/

namespace Sys2Proof.Machine

open Sys2Proof

set_option Elab.async false

set_option linter.unusedSimpArgs false

theorem hedgeDeny_keeps {gr : Group → Bool} {s0 : State} {s : State} {m : Msg} {c : Nat} (hk : Keeps gr s0 s) :
    Keeps gr s0 (hedgeDeny s m c) := by
  unfold hedgeDeny
  repeat' (first
    | (with_reducible assumption)
    | (with_reducible apply postEvent_keeps)
    | (with_reducible refine Keeps.ite (fun _ => ?_) (fun _ => ?_))
    | (with_reducible refine Keeps.ite_fst (fun _ => ?_) (fun _ => ?_))
    | (with_reducible refine Keeps.ite_snd (fun _ => ?_) (fun _ => ?_))
    | (simp only [Keeps.mk_iff]; with_reducible refine KeepsParts.same (t := _) ?_ (by rfl) rfl rfl rfl)
    | dsimp only
    | split)

theorem arrives_keeps {gr : Group → Bool} {s0 : State} {s : State} {m : Msg} {cls payload : Nat} (hk : Keeps gr s0 s) :
    Keeps gr s0 (arrives s m cls payload) := by
  unfold arrives
  repeat' (first
    | (with_reducible assumption)
    | (with_reducible apply returnCredit_keeps)
    | (with_reducible apply activity_keeps)
    | (with_reducible apply meter_keeps)
    | (with_reducible refine Keeps.ite (fun _ => ?_) (fun _ => ?_))
    | (with_reducible refine Keeps.ite_fst (fun _ => ?_) (fun _ => ?_))
    | (with_reducible refine Keeps.ite_snd (fun _ => ?_) (fun _ => ?_))
    | (with_reducible refine Keeps.foldl _ _ ?_ (fun t a hk => ?_)))

theorem parityRecord_keeps {gr : Group → Bool} {s0 : State} {s : State} {m : Msg} (hk : Keeps gr s0 s) :
    Keeps gr s0 (parityRecord s m) := by
  unfold parityRecord
  repeat' (first
    | (with_reducible assumption)
    | (with_reducible apply postError_keeps))

theorem refuse_keeps {gr : Group → Bool} {s0 : State} {s : State} {k : Rq} {m : Msg} {status : Nat} (hk : Keeps gr s0 s) :
    Keeps gr s0 (refuse s k m status) := by
  unfold refuse
  repeat' (first
    | (with_reducible assumption)
    | (with_reducible apply cmpl_keeps)
    | (with_reducible apply sendMsg_keeps)
    | (with_reducible apply finish_keeps)
    | (with_reducible refine Keeps.ite (fun _ => ?_) (fun _ => ?_))
    | (with_reducible refine Keeps.ite_fst (fun _ => ?_) (fun _ => ?_))
    | (with_reducible refine Keeps.ite_snd (fun _ => ?_) (fun _ => ?_))
    | dsimp only
    | split)

theorem accept_keeps {gr : Group → Bool} {s0 : State} {s : State} {m : Msg} (hk : Keeps gr s0 s) :
    Keeps gr s0 ((accept s m).1) := by
  unfold accept
  repeat' (first
    | (with_reducible assumption)
    | (with_reducible refine Keeps.ite (fun _ => ?_) (fun _ => ?_))
    | (with_reducible refine Keeps.ite_fst (fun _ => ?_) (fun _ => ?_))
    | (with_reducible refine Keeps.ite_snd (fun _ => ?_) (fun _ => ?_))
    | (simp only [Keeps.mk_iff]; with_reducible refine KeepsParts.same (t := _) ?_ (by rfl) rfl rfl rfl))

theorem fenceAccept_keeps {gr : Group → Bool} {s0 : State} {s : State} {m : Msg} {conflict : Bool} (hk : Keeps gr s0 s) :
    Keeps gr s0 (fenceAccept s m conflict) := by
  unfold fenceAccept
  repeat' (first
    | (with_reducible assumption)
    | (with_reducible refine Keeps.ite (fun _ => ?_) (fun _ => ?_))
    | (with_reducible refine Keeps.ite_fst (fun _ => ?_) (fun _ => ?_))
    | (with_reducible refine Keeps.ite_snd (fun _ => ?_) (fun _ => ?_))
    | (simp only [Keeps.mk_iff]; with_reducible refine KeepsParts.same (t := _) ?_ (by rfl) rfl rfl rfl))

theorem receive_keeps {gr : Group → Bool} {s0 : State} {s : State} {k : Rq} {m : Msg} (hk : Keeps gr s0 s) :
    Keeps gr s0 (receive s k m) := by
  unfold receive
  repeat' (first
    | (with_reducible assumption)
    | (with_reducible apply arrives_keeps)
    | (with_reducible apply refuse_keeps)
    | (with_reducible apply parityRecord_keeps)
    | (with_reducible apply ev_keeps)
    | (with_reducible apply hedgeDeny_keeps)
    | (with_reducible apply fence_keeps)
    | (with_reducible apply advance_keeps)
    | (with_reducible apply fenceAccept_keeps)
    | (with_reducible apply traceAccept_keeps)
    | (with_reducible apply accept_keeps)
    | (with_reducible apply present_keeps)
    | (with_reducible refine Keeps.ite (fun _ => ?_) (fun _ => ?_))
    | (with_reducible refine Keeps.ite_fst (fun _ => ?_) (fun _ => ?_))
    | (with_reducible refine Keeps.ite_snd (fun _ => ?_) (fun _ => ?_))
    | (simp only [Keeps.mk_iff]; with_reducible refine KeepsParts.same (t := _) ?_ (by rfl) rfl rfl rfl)
    | (with_reducible refine Keeps.of_fst (y := (_, _)) (x := accept _ _) ?_ (by assumption))
    | dsimp only
    | split)

theorem execRd_keeps {gr : Group → Bool} {s : State} {m : Msg} :
    ∀ s1, execRd m s = .next s1 → Keeps gr s s1 := by
  intro s1 ht
  unfold execRd at ht
  obtain rfl := Host.Outcome.next.inj ht
  have hk := Keeps.refl gr s
  repeat' (first
    | (with_reducible assumption)
    | (with_reducible apply receive_keeps))

theorem execRdBlk_keeps {gr : Group → Bool} {s : State} {m : Msg} :
    ∀ s1, execRdBlk m s = .next s1 → Keeps gr s s1 := by
  intro s1 ht
  unfold execRdBlk at ht
  obtain rfl := Host.Outcome.next.inj ht
  have hk := Keeps.refl gr s
  repeat' (first
    | (with_reducible assumption)
    | (with_reducible apply receive_keeps))

theorem execWr_keeps {gr : Group → Bool} {s : State} {m : Msg} :
    ∀ s1, execWr m s = .next s1 → Keeps gr s s1 := by
  intro s1 ht
  unfold execWr at ht
  obtain rfl := Host.Outcome.next.inj ht
  have hk := Keeps.refl gr s
  repeat' (first
    | (with_reducible assumption)
    | (with_reducible apply receive_keeps))

theorem execWrMask_keeps {gr : Group → Bool} {s : State} {m : Msg} :
    ∀ s1, execWrMask m s = .next s1 → Keeps gr s s1 := by
  intro s1 ht
  unfold execWrMask at ht
  obtain rfl := Host.Outcome.next.inj ht
  have hk := Keeps.refl gr s
  repeat' (first
    | (with_reducible assumption)
    | (with_reducible apply receive_keeps))

theorem execBlkDemandWr_keeps {gr : Group → Bool} {s : State} {m : Msg} :
    ∀ s1, execBlkDemandWr m s = .next s1 → Keeps gr s s1 := by
  intro s1 ht
  unfold execBlkDemandWr at ht
  obtain rfl := Host.Outcome.next.inj ht
  have hk := Keeps.refl gr s
  repeat' (first
    | (with_reducible assumption)
    | (with_reducible apply receive_keeps))

theorem execBlkAtl_keeps {gr : Group → Bool} {s : State} {m : Msg} :
    ∀ s1, execBlkAtl m s = .next s1 → Keeps gr s s1 := by
  intro s1 ht
  unfold execBlkAtl at ht
  obtain rfl := Host.Outcome.next.inj ht
  have hk := Keeps.refl gr s
  repeat' (first
    | (with_reducible assumption)
    | (with_reducible apply receive_keeps))

theorem execAtomic_keeps {gr : Group → Bool} {s : State} {m : Msg} :
    ∀ s1, execAtomic m s = .next s1 → Keeps gr s s1 := by
  intro s1 ht
  unfold execAtomic at ht
  obtain rfl := Host.Outcome.next.inj ht
  have hk := Keeps.refl gr s
  repeat' (first
    | (with_reducible assumption)
    | (with_reducible apply receive_keeps))

theorem execHostDrop_keeps {gr : Group → Bool} {s : State} {m : Msg} :
    ∀ s1, execHostDrop m s = .next s1 → Keeps gr s s1 := by
  intro s1 ht
  unfold execHostDrop at ht
  obtain rfl := Host.Outcome.next.inj ht
  have hk := Keeps.refl gr s
  repeat' (first
    | (with_reducible assumption)
    | (with_reducible apply receive_keeps))

theorem execBiConflict_keeps {gr : Group → Bool} {s : State} {m : Msg} :
    ∀ s1, execBiConflict m s = .next s1 → Keeps gr s s1 := by
  intro s1 ht
  unfold execBiConflict at ht
  obtain rfl := Host.Outcome.next.inj ht
  have hk := Keeps.refl gr s
  repeat' (first
    | (with_reducible assumption)
    | (with_reducible apply receive_keeps))

theorem execFence_keeps {gr : Group → Bool} {s : State} {m : Msg} :
    ∀ s1, execFence m s = .next s1 → Keeps gr s s1 := by
  intro s1 ht
  unfold execFence at ht
  obtain rfl := Host.Outcome.next.inj ht
  have hk := Keeps.refl gr s
  repeat' (first
    | (with_reducible assumption)
    | (with_reducible apply receive_keeps))

theorem execHintWr_keeps {gr : Group → Bool} {s : State} {m : Msg} :
    ∀ s1, execHintWr m s = .next s1 → Keeps gr s s1 := by
  intro s1 ht
  unfold execHintWr at ht
  obtain rfl := Host.Outcome.next.inj ht
  have hk := Keeps.refl gr s
  repeat' (first
    | (with_reducible assumption)
    | (with_reducible apply receive_keeps))

theorem sink_keeps {gr : Group → Bool} {s0 : State} {s : State} {c : Instr} {m : Msg} {cls payload : Nat} {ok : Bool} {f : State → State} (hk : Keeps gr s0 s) (hf : ∀ t, Keeps gr s0 t → Keeps gr s0 (f t)) :
    Keeps gr s0 (sink s c m cls payload ok f) := by
  unfold sink
  repeat' (first
    | (with_reducible assumption)
    | (with_reducible refine hf _ ?_)
    | (with_reducible apply hf)
    | (with_reducible apply arrives_keeps)
    | (with_reducible apply parityRecord_keeps)
    | (with_reducible apply ev_keeps)
    | (with_reducible refine Keeps.ite (fun _ => ?_) (fun _ => ?_))
    | (with_reducible refine Keeps.ite_fst (fun _ => ?_) (fun _ => ?_))
    | (with_reducible refine Keeps.ite_snd (fun _ => ?_) (fun _ => ?_))
    | (simp only [Keeps.mk_iff]; with_reducible refine KeepsParts.same (t := _) ?_ (by rfl) rfl rfl rfl))

theorem snoopUpd_keeps {gr : Group → Bool} {s0 : State} {s : State} {x : Snoop} (hk : Keeps gr s0 s) :
    Keeps gr s0 (snoopUpd s x) := by
  unfold snoopUpd
  repeat' (first
    | (with_reducible assumption)
    | (with_reducible refine Keeps.ite (fun _ => ?_) (fun _ => ?_))
    | (with_reducible refine Keeps.ite_fst (fun _ => ?_) (fun _ => ?_))
    | (with_reducible refine Keeps.ite_snd (fun _ => ?_) (fun _ => ?_))
    | (simp only [Keeps.mk_iff]; with_reducible refine KeepsParts.same (t := _) ?_ (by rfl) rfl rfl rfl))

theorem snpWb_keeps {gr : Group → Bool} {s0 : State} {s : State} {m : Msg} (hk : Keeps gr s0 s) :
    Keeps gr s0 (snpWb s m) := by
  unfold snpWb
  repeat' (first
    | (with_reducible assumption)
    | (with_reducible apply serveFirst_keeps)
    | (with_reducible apply advance_keeps)
    | (with_reducible apply snoopUpd_keeps)
    | (with_reducible refine Keeps.ite (fun _ => ?_) (fun _ => ?_))
    | (with_reducible refine Keeps.ite_fst (fun _ => ?_) (fun _ => ?_))
    | (with_reducible refine Keeps.ite_snd (fun _ => ?_) (fun _ => ?_))
    | (simp only [Keeps.mk_iff]; with_reducible refine KeepsParts.same (t := _) ?_ (by rfl) rfl rfl rfl)
    | dsimp only
    | split)

theorem execSnpWb_keeps {gr : Group → Bool} {s : State} {m : Msg} :
    ∀ s1, execSnpWb m s = .next s1 → Keeps gr s s1 := by
  intro s1 ht
  unfold execSnpWb at ht
  obtain rfl := Host.Outcome.next.inj ht
  have hk := Keeps.refl gr s
  repeat' (first
    | (with_reducible assumption)
    | (with_reducible apply sink_keeps)
    | (with_reducible apply snpWb_keeps)
    | (with_reducible refine Keeps.ite (fun _ => ?_) (fun _ => ?_))
    | (with_reducible refine Keeps.ite_fst (fun _ => ?_) (fun _ => ?_))
    | (with_reducible refine Keeps.ite_snd (fun _ => ?_) (fun _ => ?_))
    | intro t a hk
    | intro t hk)

theorem rspFilter_keeps {gr : Group → Bool} {s0 : State} {s : State} {x : Snoop} {st : Nat} (hk : Keeps gr s0 s) :
    Keeps gr s0 (rspFilter s x st) := by
  unfold rspFilter
  repeat' (first
    | (with_reducible assumption)
    | (with_reducible apply sfPut_keeps)
    | (with_reducible refine Keeps.ite (fun _ => ?_) (fun _ => ?_))
    | (with_reducible refine Keeps.ite_fst (fun _ => ?_) (fun _ => ?_))
    | (with_reducible refine Keeps.ite_snd (fun _ => ?_) (fun _ => ?_))
    | (with_reducible refine Keeps.foldl _ _ ?_ (fun t a hk => ?_))
    | (with_reducible refine Keeps.foldl_fst _ _ _ ?_ (fun x a hk => ?_))
    | (with_reducible refine Keeps.foldl_snd _ _ _ ?_ (fun x a hk => ?_))
    | dsimp only
    | split)

theorem biRsp_keeps {gr : Group → Bool} {s0 : State} {s : State} {m : Msg} (hk : Keeps gr s0 s) :
    Keeps gr s0 (biRsp s m) := by
  unfold biRsp
  repeat' (first
    | (with_reducible assumption)
    | (with_reducible apply rspFilter_keeps)
    | (with_reducible apply advance_keeps)
    | (with_reducible apply snoopUpd_keeps)
    | (with_reducible refine Keeps.ite (fun _ => ?_) (fun _ => ?_))
    | (with_reducible refine Keeps.ite_fst (fun _ => ?_) (fun _ => ?_))
    | (with_reducible refine Keeps.ite_snd (fun _ => ?_) (fun _ => ?_))
    | dsimp only
    | split)

theorem execBiRsp_keeps {gr : Group → Bool} {s : State} {m : Msg} :
    ∀ s1, execBiRsp m s = .next s1 → Keeps gr s s1 := by
  intro s1 ht
  unfold execBiRsp at ht
  obtain rfl := Host.Outcome.next.inj ht
  have hk := Keeps.refl gr s
  repeat' (first
    | (with_reducible assumption)
    | (with_reducible apply sink_keeps)
    | (with_reducible apply biRsp_keeps)
    | (with_reducible refine Keeps.ite (fun _ => ?_) (fun _ => ?_))
    | (with_reducible refine Keeps.ite_fst (fun _ => ?_) (fun _ => ?_))
    | (with_reducible refine Keeps.ite_snd (fun _ => ?_) (fun _ => ?_))
    | intro t a hk
    | intro t hk)

theorem hintAck_keeps {gr : Group → Bool} {s0 : State} {s : State} {m : Msg} (hk : Keeps gr s0 s) :
    Keeps gr s0 (hintAck s m) := by
  unfold hintAck
  repeat' (first
    | (with_reducible assumption)
    | (with_reducible apply advance_keeps)
    | (with_reducible apply ev_keeps)
    | (with_reducible apply sfDrop_keeps)
    | (with_reducible refine Keeps.ite (fun _ => ?_) (fun _ => ?_))
    | (with_reducible refine Keeps.ite_fst (fun _ => ?_) (fun _ => ?_))
    | (with_reducible refine Keeps.ite_snd (fun _ => ?_) (fun _ => ?_))
    | (simp only [Keeps.mk_iff]; with_reducible refine KeepsParts.same (t := _) ?_ (by rfl) rfl rfl rfl)
    | dsimp only
    | split)

theorem execHintAck_keeps {gr : Group → Bool} {s : State} {m : Msg} :
    ∀ s1, execHintAck m s = .next s1 → Keeps gr s s1 := by
  intro s1 ht
  unfold execHintAck at ht
  obtain rfl := Host.Outcome.next.inj ht
  have hk := Keeps.refl gr s
  repeat' (first
    | (with_reducible assumption)
    | (with_reducible apply sink_keeps)
    | (with_reducible apply hintAck_keeps)
    | (with_reducible refine Keeps.ite (fun _ => ?_) (fun _ => ?_))
    | (with_reducible refine Keeps.ite_fst (fun _ => ?_) (fun _ => ?_))
    | (with_reducible refine Keeps.ite_snd (fun _ => ?_) (fun _ => ?_))
    | intro t a hk
    | intro t hk)

theorem biTimeout_keeps {gr : Group → Bool} {s0 : State} {s : State} {host : Nat} (hk : Keeps gr s0 s) :
    Keeps gr s0 (biTimeout s host) := by
  unfold biTimeout
  repeat' (first
    | (with_reducible assumption)
    | (with_reducible apply snoopUpd_keeps)
    | (with_reducible apply postError_keeps)
    | (with_reducible refine Keeps.ite (fun _ => ?_) (fun _ => ?_))
    | (with_reducible refine Keeps.ite_fst (fun _ => ?_) (fun _ => ?_))
    | (with_reducible refine Keeps.ite_snd (fun _ => ?_) (fun _ => ?_))
    | dsimp only
    | split)

theorem execBiTimeout_keeps {gr : Group → Bool} {s : State} {host : Nat} :
    ∀ s1, execBiTimeout host s = .next s1 → Keeps gr s s1 := by
  intro s1 ht
  unfold execBiTimeout at ht
  obtain rfl := Host.Outcome.next.inj ht
  have hk := Keeps.refl gr s
  repeat' (first
    | (with_reducible assumption)
    | (with_reducible apply biTimeout_keeps)
    | (with_reducible refine Keeps.ite (fun _ => ?_) (fun _ => ?_)))

end Sys2Proof.Machine
end

