-- ==== Sys2Proof/Laws/KeepsRings.lean ====
section
/-! SUPPORT. What the operations of Machine/Rings.lean keep (Laws/Keeps.lean). -/

namespace Sys2Proof.Machine

open Sys2Proof

set_option Elab.async false

set_option linter.unusedSimpArgs false

theorem doorbell_keeps {gr : Group → Bool} {s0 : State} {s : State} {n prod cpl evt : Nat} (hk : Keeps gr s0 s) :
    Keeps gr s0 (doorbell s n prod cpl evt) := by
  unfold doorbell
  repeat' (first
    | (with_reducible assumption)
    | (with_reducible apply ev_keeps)
    | (with_reducible apply ringPut_keeps)
    | (with_reducible apply watchIssue_keeps)
    | (with_reducible apply advance_keeps)
    | (with_reducible apply ringGo_keeps)
    | (with_reducible refine Keeps.ite (fun _ => ?_) (fun _ => ?_)))

theorem taken_keeps {gr : Group → Bool} {s0 : State} {s : State} {c : Instr} {a : Arrival} {got f : State → State} (hk : Keeps gr s0 s) (hf : ∀ t, Keeps gr s0 t → Keeps gr s0 (got t)) (hf2 : ∀ t, Keeps gr s0 t → Keeps gr s0 (f t)) :
    Keeps gr s0 (taken s c a got f) := by
  unfold taken
  repeat' (first
    | (with_reducible assumption)
    | (with_reducible refine hf _ ?_)
    | (with_reducible apply hf)
    | (with_reducible refine hf2 _ ?_)
    | (with_reducible apply hf2)
    | (with_reducible apply parityRecord_keeps)
    | (with_reducible apply ev_keeps)
    | (with_reducible refine Keeps.ite (fun _ => ?_) (fun _ => ?_))
    | (with_reducible refine Keeps.ite_fst (fun _ => ?_) (fun _ => ?_))
    | (with_reducible refine Keeps.ite_snd (fun _ => ?_) (fun _ => ?_))
    | (simp only [Keeps.mk_iff]; with_reducible refine KeepsParts.same (t := _) ?_ (by rfl) rfl rfl rfl)
    | dsimp only
    | split)

theorem readingGot_keeps {gr : Group → Bool} {s0 : State} {s : State} {n : Nat} (hk : Keeps gr s0 s) :
    Keeps gr s0 (readingGot s n) := by
  unfold readingGot
  repeat' (first
    | (with_reducible assumption)
    | (with_reducible apply arrives_keeps))

theorem execDoorbellReading_keeps {gr : Group → Bool} {s : State} {ring prod cplCons evtCons : Nat} {arrival : Arrival} :
    ∀ s1, execDoorbellReading ring prod cplCons evtCons s arrival = .next s1 → Keeps gr s s1 := by
  intro s1 ht
  unfold execDoorbellReading at ht
  obtain rfl := Host.Outcome.next.inj ht
  have hk := Keeps.refl gr s
  repeat' (first
    | (with_reducible assumption)
    | (with_reducible apply taken_keeps)
    | (with_reducible apply readingGot_keeps)
    | (with_reducible apply doorbell_keeps)
    | (with_reducible refine Keeps.ite (fun _ => ?_) (fun _ => ?_))
    | (with_reducible refine Keeps.ite_fst (fun _ => ?_) (fun _ => ?_))
    | (with_reducible refine Keeps.ite_snd (fun _ => ?_) (fun _ => ?_))
    | intro t a hk
    | intro t hk)

theorem snpIn_keeps {gr : Group → Bool} {s0 : State} {s : State} {m : Msg} (hk : Keeps gr s0 s) :
    Keeps gr s0 (snpIn s m) := by
  unfold snpIn
  repeat' (first
    | (with_reducible assumption)
    | (with_reducible apply sendMsg_keeps)
    | (with_reducible apply ringPut_keeps)
    | (with_reducible apply watchIssue_keeps)
    | (with_reducible refine Keeps.ite (fun _ => ?_) (fun _ => ?_))
    | (with_reducible refine Keeps.ite_fst (fun _ => ?_) (fun _ => ?_))
    | (with_reducible refine Keeps.ite_snd (fun _ => ?_) (fun _ => ?_))
    | (with_reducible refine Keeps.foldl _ _ ?_ (fun t a hk => ?_)))

theorem snpRefuse_keeps {gr : Group → Bool} {s0 : State} {s : State} {m : Msg} {status : Nat} (hk : Keeps gr s0 s) :
    Keeps gr s0 (snpRefuse s m status) := by
  unfold snpRefuse
  repeat' (first
    | (with_reducible assumption)
    | (with_reducible apply sendMsg_keeps))

theorem execSnpIn_keeps {gr : Group → Bool} {s : State} {m : Msg} :
    ∀ s1, execSnpIn m s = .next s1 → Keeps gr s s1 := by
  intro s1 ht
  unfold execSnpIn at ht
  obtain rfl := Host.Outcome.next.inj ht
  have hk := Keeps.refl gr s
  repeat' (first
    | (with_reducible assumption)
    | (with_reducible apply arrives_keeps)
    | (with_reducible apply snpIn_keeps)
    | (with_reducible apply parityRecord_keeps)
    | (with_reducible apply ev_keeps)
    | (with_reducible apply snpRefuse_keeps)
    | (with_reducible apply hedgeDeny_keeps)
    | (with_reducible refine Keeps.ite (fun _ => ?_) (fun _ => ?_))
    | (with_reducible refine Keeps.ite_fst (fun _ => ?_) (fun _ => ?_))
    | (with_reducible refine Keeps.ite_snd (fun _ => ?_) (fun _ => ?_))
    | (simp only [Keeps.mk_iff]; with_reducible refine KeepsParts.same (t := _) ?_ (by rfl) rfl rfl rfl))

theorem descAgain_keeps {gr : Group → Bool} {s0 : State} {s : State} {n : Nat} {d : Bytes} (hk : Keeps gr s0 s) :
    Keeps gr s0 (descAgain s n d) := by
  unfold descAgain
  repeat' (first
    | (with_reducible assumption)
    | (with_reducible apply advance_keeps)
    | (with_reducible apply offers_keeps)
    | (with_reducible apply descFirst_keeps)
    | (with_reducible apply ev_keeps)
    | (with_reducible apply park_keeps)
    | (with_reducible apply ringPut_keeps)
    | (with_reducible refine Keeps.ite (fun _ => ?_) (fun _ => ?_)))

theorem descReturn_keeps {gr : Group → Bool} {s0 : State} {s : State} {n idx status : Nat} {d : Bytes} (hk : Keeps gr s0 s) :
    Keeps gr s0 (descReturn s n idx status d) := by
  unfold descReturn
  repeat' (first
    | (with_reducible assumption)
    | (with_reducible apply park_keeps)
    | (with_reducible apply descAgain_keeps)
    | (with_reducible apply ringPut_keeps)
    | (with_reducible apply advance_keeps)
    | (with_reducible apply offers_keeps)
    | (with_reducible apply descFirst_keeps)
    | (with_reducible refine Keeps.ite (fun _ => ?_) (fun _ => ?_)))

theorem descGot_keeps {gr : Group → Bool} {s0 : State} {s : State} {n idx : Nat} (hk : Keeps gr s0 s) :
    Keeps gr s0 (descGot s n idx) := by
  unfold descGot
  repeat' (first
    | (with_reducible assumption)
    | (with_reducible apply arrives_keeps)
    | (with_reducible apply ringPut_keeps)
    | (with_reducible refine Keeps.ite (fun _ => ?_) (fun _ => ?_))
    | (with_reducible refine Keeps.ite_fst (fun _ => ?_) (fun _ => ?_))
    | (with_reducible refine Keeps.ite_snd (fun _ => ?_) (fun _ => ?_))
    | dsimp only
    | split)

theorem execDescriptorReadReturn_keeps {gr : Group → Bool} {s : State} {ring idx status : Nat} {bytes : Bytes} {arrival : Arrival} :
    ∀ s1, execDescriptorReadReturn ring idx status bytes s arrival = .next s1 → Keeps gr s s1 := by
  intro s1 ht
  unfold execDescriptorReadReturn at ht
  obtain rfl := Host.Outcome.next.inj ht
  have hk := Keeps.refl gr s
  repeat' (first
    | (with_reducible assumption)
    | (with_reducible apply taken_keeps)
    | (with_reducible apply descGot_keeps)
    | (with_reducible apply descReturn_keeps)
    | (with_reducible refine Keeps.ite (fun _ => ?_) (fun _ => ?_))
    | (with_reducible refine Keeps.ite_fst (fun _ => ?_) (fun _ => ?_))
    | (with_reducible refine Keeps.ite_snd (fun _ => ?_) (fun _ => ?_))
    | intro t a hk
    | intro t hk)

theorem execDescReread_keeps {gr : Group → Bool} {s : State} {ring : Nat} :
    ∀ s1, execDescReread ring s = .next s1 → Keeps gr s s1 := by
  intro s1 ht
  unfold execDescReread at ht
  obtain rfl := Host.Outcome.next.inj ht
  have hk := Keeps.refl gr s
  repeat' (first
    | (with_reducible assumption)
    | (with_reducible apply descRead_keeps)
    | (with_reducible apply ringPut_keeps)
    | (with_reducible refine Keeps.ite (fun _ => ?_) (fun _ => ?_)))

theorem cplPost_keeps {gr : Group → Bool} {s0 : State} {s : State} {c : Cmd} (hk : Keeps gr s0 s) :
    Keeps gr s0 (cplPost s c) := by
  unfold cplPost
  repeat' (first
    | (with_reducible assumption)
    | (with_reducible apply hstWrite_keeps)
    | (with_reducible apply ev_keeps)
    | (with_reducible apply ringPut_keeps)
    | (with_reducible apply ringIrq_keeps)
    | (with_reducible apply cmdLeave_keeps)
    | (with_reducible refine Keeps.ite (fun _ => ?_) (fun _ => ?_)))

theorem execCplPost_keeps {gr : Group → Bool} {s : State} {ring idx : Nat} :
    ∀ s1, execCplPost ring idx s = .next s1 → Keeps gr s s1 := by
  intro s1 ht
  unfold execCplPost at ht
  obtain rfl := Host.Outcome.next.inj ht
  have hk := Keeps.refl gr s
  repeat' (first
    | (with_reducible assumption)
    | (with_reducible apply advance_keeps)
    | (with_reducible apply cplPost_keeps)
    | (with_reducible refine Keeps.ite (fun _ => ?_) (fun _ => ?_))
    | (with_reducible refine Keeps.ite_fst (fun _ => ?_) (fun _ => ?_))
    | (with_reducible refine Keeps.ite_snd (fun _ => ?_) (fun _ => ?_))
    | dsimp only
    | split)

theorem execCmp_keeps {gr : Group → Bool} {s : State} {m : Msg} :
    ∀ s1, execCmp m s = .next s1 → Keeps gr s s1 := by
  intro s1 ht
  unfold execCmp at ht
  obtain rfl := Host.Outcome.next.inj ht
  have hk := Keeps.refl gr s
  repeat' (first
    | (with_reducible assumption)
    | (with_reducible apply sink_keeps)
    | (with_reducible apply advance_keeps)
    | (with_reducible refine Keeps.ite (fun _ => ?_) (fun _ => ?_))
    | (with_reducible refine Keeps.ite_fst (fun _ => ?_) (fun _ => ?_))
    | (with_reducible refine Keeps.ite_snd (fun _ => ?_) (fun _ => ?_))
    | (simp only [Keeps.mk_iff]; with_reducible refine KeepsParts.same (t := _) ?_ (by rfl) rfl rfl rfl)
    | intro t a hk
    | intro t hk)

theorem execIrqHoldoffExpiry_keeps {gr : Group → Bool} {s : State} {vec : Nat} :
    ∀ s1, execIrqHoldoffExpiry vec s = .next s1 → Keeps gr s s1 := by
  intro s1 ht
  unfold execIrqHoldoffExpiry at ht
  obtain rfl := Host.Outcome.next.inj ht
  have hk := Keeps.refl gr s
  repeat' (first
    | (with_reducible assumption)
    | (with_reducible apply irqFire_keeps)
    | (with_reducible refine Keeps.ite (fun _ => ?_) (fun _ => ?_)))

theorem startCmd_keeps {gr : Group → Bool} {s0 : State} {s : State} {ring idx code : Nat} {f : State → Cmd → State} (hk : Keeps gr s0 s) (hf : ∀ t c, Keeps gr s0 t → Keeps gr s0 (f t c)) :
    Keeps gr s0 (startCmd s ring idx code f) := by
  unfold startCmd
  repeat' (first
    | (with_reducible assumption)
    | (with_reducible refine hf _ ?_)
    | (with_reducible apply hf)
    | (with_reducible apply advance_keeps)
    | (with_reducible apply cmdUpd_keeps)
    | (with_reducible refine Keeps.ite (fun _ => ?_) (fun _ => ?_))
    | (with_reducible refine Keeps.ite_fst (fun _ => ?_) (fun _ => ?_))
    | (with_reducible refine Keeps.ite_snd (fun _ => ?_) (fun _ => ?_))
    | dsimp only
    | split)

theorem unstart_keeps {gr : Group → Bool} {s0 : State} {s : State} {c : Cmd} (hk : Keeps gr s0 s) :
    Keeps gr s0 (unstart s c) := by
  unfold unstart
  repeat' (first
    | (with_reducible assumption)
    | (with_reducible apply cmdUpd_keeps))

theorem refuseCmd_keeps {gr : Group → Bool} {s0 : State} {s : State} {c : Cmd} {status : Nat} (hk : Keeps gr s0 s) :
    Keeps gr s0 (refuseCmd s c status) := by
  unfold refuseCmd
  repeat' (first
    | (with_reducible assumption)
    | (with_reducible apply cmdEnd_keeps))

theorem inputRecord_keeps {gr : Group → Bool} {s0 : State} {s : State} {bad : List BadBeat} (hk : Keeps gr s0 s) :
    Keeps gr s0 (inputRecord s bad) := by
  unfold inputRecord
  repeat' (first
    | (with_reducible assumption)
    | (with_reducible apply postError_keeps)
    | (with_reducible refine Keeps.ite (fun _ => ?_) (fun _ => ?_))
    | (with_reducible refine Keeps.ite_fst (fun _ => ?_) (fun _ => ?_))
    | (with_reducible refine Keeps.ite_snd (fun _ => ?_) (fun _ => ?_))
    | (with_reducible refine Keeps.foldl _ _ ?_ (fun t a hk => ?_)))

theorem inputBad_keeps {gr : Group → Bool} {s0 : State} {s : State} {c : Cmd} {bad : List BadBeat} (hk : Keeps gr s0 s) :
    Keeps gr s0 (inputBad s c bad) := by
  unfold inputBad
  repeat' (first
    | (with_reducible assumption)
    | (with_reducible apply cmdEnd_keeps)
    | (with_reducible apply inputRecord_keeps))

theorem execNop_keeps {gr : Group → Bool} {s : State} {ring idx : Nat} :
    ∀ s1, execNop ring idx s = .next s1 → Keeps gr s s1 := by
  intro s1 ht
  unfold execNop at ht
  obtain rfl := Host.Outcome.next.inj ht
  have hk := Keeps.refl gr s
  repeat' (first
    | (with_reducible assumption)
    | (with_reducible apply startCmd_keeps)
    | (with_reducible apply cmdEnd_keeps)
    | (with_reducible refine Keeps.ite (fun _ => ?_) (fun _ => ?_))
    | (with_reducible refine Keeps.ite_fst (fun _ => ?_) (fun _ => ?_))
    | (with_reducible refine Keeps.ite_snd (fun _ => ?_) (fun _ => ?_))
    | intro t a hk)

end Sys2Proof.Machine
end

