-- ==== Sys2Proof/Laws/KeepsLastCmds.lean ====
section
/-! SUPPORT. What the operations of Machine/LastCmds.lean keep (Laws/Keeps.lean). -/

namespace Sys2Proof.Machine

open Sys2Proof

set_option Elab.async false

set_option linter.unusedSimpArgs false

theorem defineNew_keeps {gr : Group → Bool} {s0 : State} {s : State} {c : Cmd} {i : Nat} {r : Last} (hk : Keeps gr s0 s) :
    Keeps gr s0 (defineNew s c i r) := by
  unfold defineNew
  repeat' (first
    | (with_reducible assumption)
    | (with_reducible apply mergeDrainWhere_keeps)
    | (with_reducible apply lastPut_keeps)
    | (with_reducible apply storeLine_keeps)
    | (with_reducible apply cmdEnd_keeps)
    | (with_reducible refine Keeps.ite (fun _ => ?_) (fun _ => ?_))
    | (with_reducible refine Keeps.ite_fst (fun _ => ?_) (fun _ => ?_))
    | (with_reducible refine Keeps.ite_snd (fun _ => ?_) (fun _ => ?_))
    | (simp only [Keeps.mk_iff]; with_reducible refine KeepsParts.same (t := _) ?_ (by rfl) rfl rfl rfl)
    | (with_reducible refine Keeps.foldl _ _ ?_ (fun t a hk => ?_)))

theorem defineInPlace_keeps {gr : Group → Bool} {s0 : State} {s : State} {c : Cmd} {i : Nat} {l r : Last} (hk : Keeps gr s0 s) :
    Keeps gr s0 (defineInPlace s c i l r) := by
  unfold defineInPlace
  repeat' (first
    | (with_reducible assumption)
    | (with_reducible apply refuseCmd_keeps)
    | (with_reducible apply unstart_keeps)
    | (with_reducible apply mergeDrainWhere_keeps)
    | (with_reducible apply presentLines_keeps)
    | (with_reducible refine Keeps.ite (fun _ => ?_) (fun _ => ?_))
    | (with_reducible refine Keeps.ite_fst (fun _ => ?_) (fun _ => ?_))
    | (with_reducible refine Keeps.ite_snd (fun _ => ?_) (fun _ => ?_))
    | (simp only [Keeps.mk_iff]; with_reducible refine KeepsParts.same (t := _) ?_ (by rfl) rfl rfl rfl))

theorem lastDefine_keeps {gr : Group → Bool} {s0 : State} {s : State} {c : Cmd} (hk : Keeps gr s0 s) :
    Keeps gr s0 (lastDefine s c) := by
  unfold lastDefine
  repeat' (first
    | (with_reducible assumption)
    | (with_reducible apply refuseCmd_keeps)
    | (with_reducible apply unstart_keeps)
    | (with_reducible apply defineNew_keeps)
    | (with_reducible apply defineInPlace_keeps)
    | (with_reducible refine Keeps.ite (fun _ => ?_) (fun _ => ?_)))

theorem execLastDefine_keeps {gr : Group → Bool} {s : State} {ring idx : Nat} :
    ∀ s1, execLastDefine ring idx s = .next s1 → Keeps gr s s1 := by
  intro s1 ht
  unfold execLastDefine at ht
  obtain rfl := Host.Outcome.next.inj ht
  have hk := Keeps.refl gr s
  repeat' (first
    | (with_reducible assumption)
    | (with_reducible apply startCmd_keeps)
    | (with_reducible apply lastDefine_keeps))

theorem lastDelete_keeps {gr : Group → Bool} {s0 : State} {s : State} {c : Cmd} (hk : Keeps gr s0 s) :
    Keeps gr s0 (lastDelete s c) := by
  unfold lastDelete
  repeat' (first
    | (with_reducible assumption)
    | (with_reducible apply refuseCmd_keeps)
    | (with_reducible apply unstart_keeps)
    | (with_reducible apply mergeDrainWhere_keeps)
    | (with_reducible apply presentLines_keeps)
    | (with_reducible refine Keeps.ite (fun _ => ?_) (fun _ => ?_))
    | (with_reducible refine Keeps.ite_fst (fun _ => ?_) (fun _ => ?_))
    | (with_reducible refine Keeps.ite_snd (fun _ => ?_) (fun _ => ?_))
    | (simp only [Keeps.mk_iff]; with_reducible refine KeepsParts.same (t := _) ?_ (by rfl) rfl rfl rfl))

theorem execLastDelete_keeps {gr : Group → Bool} {s : State} {ring idx : Nat} :
    ∀ s1, execLastDelete ring idx s = .next s1 → Keeps gr s s1 := by
  intro s1 ht
  unfold execLastDelete at ht
  obtain rfl := Host.Outcome.next.inj ht
  have hk := Keeps.refl gr s
  repeat' (first
    | (with_reducible assumption)
    | (with_reducible apply startCmd_keeps)
    | (with_reducible apply lastDelete_keeps))

theorem lastRead_keeps {gr : Group → Bool} {s0 : State} {s : State} {c : Cmd} (hk : Keeps gr s0 s) :
    Keeps gr s0 (lastRead s c) := by
  unfold lastRead
  repeat' (first
    | (with_reducible assumption)
    | (with_reducible apply hstWrite_keeps)
    | (with_reducible apply cmdEnd_keeps))

theorem execLastRead_keeps {gr : Group → Bool} {s : State} {ring idx : Nat} :
    ∀ s1, execLastRead ring idx s = .next s1 → Keeps gr s s1 := by
  intro s1 ht
  unfold execLastRead at ht
  obtain rfl := Host.Outcome.next.inj ht
  have hk := Keeps.refl gr s
  repeat' (first
    | (with_reducible assumption)
    | (with_reducible apply startCmd_keeps)
    | (with_reducible apply lastRead_keeps))

theorem lastRestore_keeps {gr : Group → Bool} {s0 : State} {s : State} {c : Cmd} {input : Bytes} {bad : List BadBeat} (hk : Keeps gr s0 s) :
    Keeps gr s0 (lastRestore s c input bad) := by
  unfold lastRestore
  repeat' (first
    | (with_reducible assumption)
    | (with_reducible apply refuseCmd_keeps)
    | (with_reducible apply unstart_keeps)
    | (with_reducible apply inputBad_keeps)
    | (with_reducible apply cmdEnd_keeps)
    | (with_reducible apply lastPut_keeps)
    | (with_reducible apply cmdUpd_keeps)
    | (with_reducible refine Keeps.ite (fun _ => ?_) (fun _ => ?_))
    | (with_reducible refine Keeps.ite_fst (fun _ => ?_) (fun _ => ?_))
    | (with_reducible refine Keeps.ite_snd (fun _ => ?_) (fun _ => ?_))
    | dsimp only
    | split)

theorem execLastRestore_keeps {gr : Group → Bool} {s : State} {ring idx : Nat} {input : Bytes} {bad : List BadBeat} :
    ∀ s1, execLastRestore ring idx input bad s = .next s1 → Keeps gr s s1 := by
  intro s1 ht
  unfold execLastRestore at ht
  obtain rfl := Host.Outcome.next.inj ht
  have hk := Keeps.refl gr s
  repeat' (first
    | (with_reducible assumption)
    | (with_reducible apply startCmd_keeps)
    | (with_reducible apply lastRestore_keeps)
    | (with_reducible refine Keeps.ite (fun _ => ?_) (fun _ => ?_))
    | (with_reducible refine Keeps.ite_fst (fun _ => ?_) (fun _ => ?_))
    | (with_reducible refine Keeps.ite_snd (fun _ => ?_) (fun _ => ?_))
    | intro t a hk)

end Sys2Proof.Machine
end

