-- ==== Sys2Proof/Laws/KeepsRangeCmds.lean ====
section
/-! SUPPORT. What the operations of Machine/RangeCmds.lean keep (Laws/Keeps.lean). -/

namespace Sys2Proof.Machine

open Sys2Proof

set_option Elab.async false

set_option linter.unusedSimpArgs false

theorem rangeStart_keeps {gr : Group → Bool} {s0 : State} {kind : OpKind} {s : State} {c : Cmd} (hk : Keeps gr s0 s) :
    Keeps gr s0 (rangeStart kind s c) := by
  unfold rangeStart
  repeat' (first
    | (with_reducible assumption)
    | (with_reducible apply refuseCmd_keeps)
    | (with_reducible apply mergeDrainWhere_keeps)
    | (with_reducible apply presentLines_keeps)
    | (with_reducible refine Keeps.ite (fun _ => ?_) (fun _ => ?_)))

theorem execRangePrefetch_keeps {gr : Group → Bool} {s : State} {ring idx : Nat} :
    ∀ s1, execRangePrefetch ring idx s = .next s1 → Keeps gr s s1 := by
  intro s1 ht
  unfold execRangePrefetch at ht
  obtain rfl := Host.Outcome.next.inj ht
  have hk := Keeps.refl gr s
  repeat' (first
    | (with_reducible assumption)
    | (with_reducible apply startCmd_keeps)
    | (with_reducible apply rangeStart_keeps))

theorem execRangeFlush_keeps {gr : Group → Bool} {s : State} {ring idx : Nat} :
    ∀ s1, execRangeFlush ring idx s = .next s1 → Keeps gr s s1 := by
  intro s1 ht
  unfold execRangeFlush at ht
  obtain rfl := Host.Outcome.next.inj ht
  have hk := Keeps.refl gr s
  repeat' (first
    | (with_reducible assumption)
    | (with_reducible apply startCmd_keeps)
    | (with_reducible apply rangeStart_keeps))

theorem execRangeInvalidate_keeps {gr : Group → Bool} {s : State} {ring idx : Nat} :
    ∀ s1, execRangeInvalidate ring idx s = .next s1 → Keeps gr s s1 := by
  intro s1 ht
  unfold execRangeInvalidate at ht
  obtain rfl := Host.Outcome.next.inj ht
  have hk := Keeps.refl gr s
  repeat' (first
    | (with_reducible assumption)
    | (with_reducible apply startCmd_keeps)
    | (with_reducible apply rangeStart_keeps))

theorem execRangeDiscard_keeps {gr : Group → Bool} {s : State} {ring idx : Nat} :
    ∀ s1, execRangeDiscard ring idx s = .next s1 → Keeps gr s s1 := by
  intro s1 ht
  unfold execRangeDiscard at ht
  obtain rfl := Host.Outcome.next.inj ht
  have hk := Keeps.refl gr s
  repeat' (first
    | (with_reducible assumption)
    | (with_reducible apply startCmd_keeps)
    | (with_reducible apply rangeStart_keeps))

theorem sheafBind_keeps {gr : Group → Bool} {s0 : State} {s : State} {c : Cmd} (hk : Keeps gr s0 s) :
    Keeps gr s0 (sheafBind s c) := by
  unfold sheafBind
  repeat' (first
    | (with_reducible assumption)
    | (with_reducible apply refuseCmd_keeps)
    | (with_reducible apply cmdUpd_keeps)
    | (with_reducible refine Keeps.ite (fun _ => ?_) (fun _ => ?_)))

theorem execSheafBind_keeps {gr : Group → Bool} {s : State} {ring idx : Nat} :
    ∀ s1, execSheafBind ring idx s = .next s1 → Keeps gr s s1 := by
  intro s1 ht
  unfold execSheafBind at ht
  obtain rfl := Host.Outcome.next.inj ht
  have hk := Keeps.refl gr s
  repeat' (first
    | (with_reducible assumption)
    | (with_reducible apply startCmd_keeps)
    | (with_reducible apply sheafBind_keeps))

theorem sheafRead_keeps {gr : Group → Bool} {s0 : State} {s : State} {c : Cmd} (hk : Keeps gr s0 s) :
    Keeps gr s0 (sheafRead s c) := by
  unfold sheafRead
  repeat' (first
    | (with_reducible assumption)
    | (with_reducible apply refuseCmd_keeps)
    | (with_reducible apply unstart_keeps)
    | (with_reducible apply windowLost_keeps)
    | (with_reducible apply activity_keeps)
    | (with_reducible apply ev_keeps)
    | (with_reducible apply cmdUpd_keeps)
    | (with_reducible apply present_keeps)
    | (with_reducible refine Keeps.ite (fun _ => ?_) (fun _ => ?_))
    | (with_reducible refine Keeps.ite_fst (fun _ => ?_) (fun _ => ?_))
    | (with_reducible refine Keeps.ite_snd (fun _ => ?_) (fun _ => ?_))
    | (simp only [Keeps.mk_iff]; with_reducible refine KeepsParts.same (t := _) ?_ (by rfl) rfl rfl rfl)
    | (with_reducible refine Keeps.foldl _ _ ?_ (fun t a hk => ?_))
    | (with_reducible refine Keeps.foldl_fst _ _ _ ?_ (fun x a hk => ?_))
    | (with_reducible refine Keeps.foldl_snd _ _ _ ?_ (fun x a hk => ?_))
    | dsimp only
    | split)

theorem execSheafRead_keeps {gr : Group → Bool} {s : State} {ring idx : Nat} :
    ∀ s1, execSheafRead ring idx s = .next s1 → Keeps gr s s1 := by
  intro s1 ht
  unfold execSheafRead at ht
  obtain rfl := Host.Outcome.next.inj ht
  have hk := Keeps.refl gr s
  repeat' (first
    | (with_reducible assumption)
    | (with_reducible apply startCmd_keeps)
    | (with_reducible apply sheafRead_keeps))

theorem sheafRelease_keeps {gr : Group → Bool} {s0 : State} {s : State} {c : Cmd} (hk : Keeps gr s0 s) :
    Keeps gr s0 (sheafRelease s c) := by
  unfold sheafRelease
  repeat' (first
    | (with_reducible assumption)
    | (with_reducible apply refuseCmd_keeps)
    | (with_reducible apply unstart_keeps)
    | (with_reducible apply cmdEnd_keeps)
    | (with_reducible apply windowRelease_keeps)
    | (with_reducible refine Keeps.ite (fun _ => ?_) (fun _ => ?_))
    | (with_reducible refine Keeps.ite_fst (fun _ => ?_) (fun _ => ?_))
    | (with_reducible refine Keeps.ite_snd (fun _ => ?_) (fun _ => ?_))
    | dsimp only
    | split)

theorem execSheafRelease_keeps {gr : Group → Bool} {s : State} {ring idx : Nat} :
    ∀ s1, execSheafRelease ring idx s = .next s1 → Keeps gr s s1 := by
  intro s1 ht
  unfold execSheafRelease at ht
  obtain rfl := Host.Outcome.next.inj ht
  have hk := Keeps.refl gr s
  repeat' (first
    | (with_reducible assumption)
    | (with_reducible apply startCmd_keeps)
    | (with_reducible apply sheafRelease_keeps))

theorem digestRange_keeps {gr : Group → Bool} {s0 : State} {s : State} {c : Cmd} (hk : Keeps gr s0 s) :
    Keeps gr s0 (digestRange s c) := by
  unfold digestRange
  repeat' (first
    | (with_reducible assumption)
    | (with_reducible apply refuseCmd_keeps)
    | (with_reducible apply presentLines_keeps)
    | (with_reducible refine Keeps.ite (fun _ => ?_) (fun _ => ?_)))

theorem execDigestRange_keeps {gr : Group → Bool} {s : State} {ring idx : Nat} :
    ∀ s1, execDigestRange ring idx s = .next s1 → Keeps gr s s1 := by
  intro s1 ht
  unfold execDigestRange at ht
  obtain rfl := Host.Outcome.next.inj ht
  have hk := Keeps.refl gr s
  repeat' (first
    | (with_reducible assumption)
    | (with_reducible apply startCmd_keeps)
    | (with_reducible apply digestRange_keeps))

theorem biasFlip_keeps {gr : Group → Bool} {s0 : State} {s : State} {c : Cmd} (hk : Keeps gr s0 s) :
    Keeps gr s0 (biasFlip s c) := by
  unfold biasFlip
  repeat' (first
    | (with_reducible assumption)
    | (with_reducible apply refuseCmd_keeps)
    | (with_reducible apply cmdUpd_keeps)
    | (with_reducible refine Keeps.ite (fun _ => ?_) (fun _ => ?_)))

theorem execBiasFlip_keeps {gr : Group → Bool} {s : State} {ring idx : Nat} :
    ∀ s1, execBiasFlip ring idx s = .next s1 → Keeps gr s s1 := by
  intro s1 ht
  unfold execBiasFlip at ht
  obtain rfl := Host.Outcome.next.inj ht
  have hk := Keeps.refl gr s
  repeat' (first
    | (with_reducible assumption)
    | (with_reducible apply startCmd_keeps)
    | (with_reducible apply biasFlip_keeps))

end Sys2Proof.Machine
end

