-- ==== Sys2Proof/Laws/KeepsGenCmds.lean ====
section
/-! SUPPORT. What the operations of Machine/GenCmds.lean keep (Laws/Keeps.lean). -/

namespace Sys2Proof.Machine

open Sys2Proof

set_option Elab.async false

set_option linter.unusedSimpArgs false

theorem genOpen_keeps {gr : Group → Bool} {s0 : State} {s : State} {c : Cmd} (hk : Keeps gr s0 s) :
    Keeps gr s0 (genOpen s c) := by
  unfold genOpen
  repeat' (first
    | (with_reducible assumption)
    | (with_reducible apply refuseCmd_keeps)
    | (with_reducible apply unstart_keeps)
    | (with_reducible apply cmdEnd_keeps)
    | (with_reducible apply ctxOpen_keeps)
    | (with_reducible refine Keeps.ite (fun _ => ?_) (fun _ => ?_)))

theorem execGenOpen_keeps {gr : Group → Bool} {s : State} {ring idx : Nat} :
    ∀ s1, execGenOpen ring idx s = .next s1 → Keeps gr s s1 := by
  intro s1 ht
  unfold execGenOpen at ht
  obtain rfl := Host.Outcome.next.inj ht
  have hk := Keeps.refl gr s
  repeat' (first
    | (with_reducible assumption)
    | (with_reducible apply startCmd_keeps)
    | (with_reducible apply genOpen_keeps))

theorem logAdvance_keeps {gr : Group → Bool} {s0 : State} {s : State} {c : Cmd} (hk : Keeps gr s0 s) :
    Keeps gr s0 (logAdvance s c) := by
  unfold logAdvance
  repeat' (first
    | (with_reducible assumption)
    | (with_reducible apply refuseCmd_keeps)
    | (with_reducible apply cmdEnd_keeps)
    | (with_reducible apply logPut_keeps)
    | (with_reducible refine Keeps.ite (fun _ => ?_) (fun _ => ?_)))

theorem execLogAdvance_keeps {gr : Group → Bool} {s : State} {ring idx : Nat} :
    ∀ s1, execLogAdvance ring idx s = .next s1 → Keeps gr s s1 := by
  intro s1 ht
  unfold execLogAdvance at ht
  obtain rfl := Host.Outcome.next.inj ht
  have hk := Keeps.refl gr s
  repeat' (first
    | (with_reducible assumption)
    | (with_reducible apply startCmd_keeps)
    | (with_reducible apply logAdvance_keeps))

theorem ctxSeed_keeps {gr : Group → Bool} {s0 : State} {s : State} {c : Cmd} (hk : Keeps gr s0 s) :
    Keeps gr s0 (ctxSeed s c) := by
  unfold ctxSeed
  repeat' (first
    | (with_reducible assumption)
    | (with_reducible apply refuseCmd_keeps)
    | (with_reducible apply cmdEnd_keeps)
    | (with_reducible apply ctxPut_keeps)
    | (with_reducible refine Keeps.ite (fun _ => ?_) (fun _ => ?_)))

theorem execCtxSeed_keeps {gr : Group → Bool} {s : State} {ring idx : Nat} :
    ∀ s1, execCtxSeed ring idx s = .next s1 → Keeps gr s s1 := by
  intro s1 ht
  unfold execCtxSeed at ht
  obtain rfl := Host.Outcome.next.inj ht
  have hk := Keeps.refl gr s
  repeat' (first
    | (with_reducible assumption)
    | (with_reducible apply startCmd_keeps)
    | (with_reducible apply ctxSeed_keeps))

theorem genClose_keeps {gr : Group → Bool} {s0 : State} {s : State} {c : Cmd} (hk : Keeps gr s0 s) :
    Keeps gr s0 (genClose s c) := by
  unfold genClose
  repeat' (first
    | (with_reducible assumption)
    | (with_reducible apply unstart_keeps)
    | (with_reducible apply refuseCmd_keeps)
    | (with_reducible refine Keeps.ite (fun _ => ?_) (fun _ => ?_))
    | (with_reducible refine Keeps.ite_fst (fun _ => ?_) (fun _ => ?_))
    | (with_reducible refine Keeps.ite_snd (fun _ => ?_) (fun _ => ?_))
    | (simp only [Keeps.mk_iff]; with_reducible refine KeepsParts.same (t := _) ?_ (by rfl) rfl rfl rfl))

theorem execGenClose_keeps {gr : Group → Bool} {s : State} {ring idx : Nat} :
    ∀ s1, execGenClose ring idx s = .next s1 → Keeps gr s s1 := by
  intro s1 ht
  unfold execGenClose at ht
  obtain rfl := Host.Outcome.next.inj ht
  have hk := Keeps.refl gr s
  repeat' (first
    | (with_reducible assumption)
    | (with_reducible apply startCmd_keeps)
    | (with_reducible apply genClose_keeps))

theorem ctxFreeze_keeps {gr : Group → Bool} {s0 : State} {s : State} {c : Cmd} (hk : Keeps gr s0 s) :
    Keeps gr s0 (ctxFreeze s c) := by
  unfold ctxFreeze
  repeat' (first
    | (with_reducible assumption)
    | (with_reducible apply refuseCmd_keeps)
    | (with_reducible apply ctxPut_keeps)
    | (with_reducible refine Keeps.ite (fun _ => ?_) (fun _ => ?_))
    | (with_reducible refine Keeps.ite_fst (fun _ => ?_) (fun _ => ?_))
    | (with_reducible refine Keeps.ite_snd (fun _ => ?_) (fun _ => ?_))
    | (simp only [Keeps.mk_iff]; with_reducible refine KeepsParts.same (t := _) ?_ (by rfl) rfl rfl rfl))

theorem execCtxFreeze_keeps {gr : Group → Bool} {s : State} {ring idx : Nat} :
    ∀ s1, execCtxFreeze ring idx s = .next s1 → Keeps gr s s1 := by
  intro s1 ht
  unfold execCtxFreeze at ht
  obtain rfl := Host.Outcome.next.inj ht
  have hk := Keeps.refl gr s
  repeat' (first
    | (with_reducible assumption)
    | (with_reducible apply startCmd_keeps)
    | (with_reducible apply ctxFreeze_keeps))

theorem queueBad_keeps {gr : Group → Bool} {s0 : State} {s : State} {o : Op} (hk : Keeps gr s0 s) :
    Keeps gr s0 (queueBad s o) := by
  unfold queueBad
  repeat' (first
    | (with_reducible assumption)
    | (with_reducible apply postError_keeps)
    | (with_reducible apply finish_keeps))

theorem queueReject_keeps {gr : Group → Bool} {s0 : State} {s : State} {ctx : Nat} (hk : Keeps gr s0 s) :
    Keeps gr s0 (queueReject s ctx) := by
  unfold queueReject
  repeat' (first
    | (with_reducible assumption)
    | (with_reducible apply finish_keeps)
    | (with_reducible refine Keeps.ite (fun _ => ?_) (fun _ => ?_))
    | (with_reducible refine Keeps.ite_fst (fun _ => ?_) (fun _ => ?_))
    | (with_reducible refine Keeps.ite_snd (fun _ => ?_) (fun _ => ?_))
    | (simp only [Keeps.mk_iff]; with_reducible refine KeepsParts.same (t := _) ?_ (by rfl) rfl rfl rfl)
    | (with_reducible refine Keeps.foldl _ _ ?_ (fun t a hk => ?_)))

theorem ctxResume_keeps {gr : Group → Bool} {s0 : State} {s : State} {c : Cmd} {input : Bytes} {bad : List BadBeat} (hk : Keeps gr s0 s) :
    Keeps gr s0 (ctxResume s c input bad) := by
  unfold ctxResume
  repeat' (first
    | (with_reducible assumption)
    | (with_reducible apply refuseCmd_keeps)
    | (with_reducible apply ctxPut_keeps)
    | (with_reducible apply queueBad_keeps)
    | (with_reducible apply cmdUpd_keeps)
    | (with_reducible apply queueReject_keeps)
    | (with_reducible apply inputBad_keeps)
    | (with_reducible apply cmdEnd_keeps)
    | (with_reducible refine Keeps.ite (fun _ => ?_) (fun _ => ?_))
    | (with_reducible refine Keeps.ite_fst (fun _ => ?_) (fun _ => ?_))
    | (with_reducible refine Keeps.ite_snd (fun _ => ?_) (fun _ => ?_))
    | (simp only [Keeps.mk_iff]; with_reducible refine KeepsParts.same (t := _) ?_ (by rfl) rfl rfl rfl)
    | (with_reducible refine Keeps.foldl _ _ ?_ (fun t a hk => ?_))
    | (with_reducible refine Keeps.foldl_fst _ _ _ ?_ (fun x a hk => ?_))
    | (with_reducible refine Keeps.foldl_snd _ _ _ ?_ (fun x a hk => ?_))
    | dsimp only
    | split)

theorem execCtxResume_keeps {gr : Group → Bool} {s : State} {ring idx : Nat} {input : Bytes} {bad : List BadBeat} :
    ∀ s1, execCtxResume ring idx input bad s = .next s1 → Keeps gr s s1 := by
  intro s1 ht
  unfold execCtxResume at ht
  obtain rfl := Host.Outcome.next.inj ht
  have hk := Keeps.refl gr s
  repeat' (first
    | (with_reducible assumption)
    | (with_reducible apply startCmd_keeps)
    | (with_reducible apply ctxResume_keeps)
    | (with_reducible refine Keeps.ite (fun _ => ?_) (fun _ => ?_))
    | (with_reducible refine Keeps.ite_fst (fun _ => ?_) (fun _ => ?_))
    | (with_reducible refine Keeps.ite_snd (fun _ => ?_) (fun _ => ?_))
    | intro t a hk)

theorem ctxRelease_keeps {gr : Group → Bool} {s0 : State} {s : State} {c : Cmd} (hk : Keeps gr s0 s) :
    Keeps gr s0 (ctxRelease s c) := by
  unfold ctxRelease
  repeat' (first
    | (with_reducible assumption)
    | (with_reducible apply refuseCmd_keeps)
    | (with_reducible apply queueReject_keeps)
    | (with_reducible apply ctxPut_keeps)
    | (with_reducible apply presentLines_keeps)
    | (with_reducible refine Keeps.ite (fun _ => ?_) (fun _ => ?_))
    | (with_reducible refine Keeps.ite_fst (fun _ => ?_) (fun _ => ?_))
    | (with_reducible refine Keeps.ite_snd (fun _ => ?_) (fun _ => ?_))
    | (simp only [Keeps.mk_iff]; with_reducible refine KeepsParts.tables (t := _) ?_ (fun w => SMap.wf_mapVals _ w) (fun w => w)))

theorem execCtxRelease_keeps {gr : Group → Bool} {s : State} {ring idx : Nat} :
    ∀ s1, execCtxRelease ring idx s = .next s1 → Keeps gr s s1 := by
  intro s1 ht
  unfold execCtxRelease at ht
  obtain rfl := Host.Outcome.next.inj ht
  have hk := Keeps.refl gr s
  repeat' (first
    | (with_reducible assumption)
    | (with_reducible apply startCmd_keeps)
    | (with_reducible apply ctxRelease_keeps))

theorem sealSteps_keeps {gr : Group → Bool} {s0 : State} {s : State} {ctxs : List Nat} (hk : Keeps gr s0 s) :
    Keeps gr s0 (sealSteps s ctxs) := by
  unfold sealSteps
  repeat' (first
    | (with_reducible assumption)
    | (with_reducible apply snoopIssue_keeps)
    | (with_reducible apply closeLine_keeps)
    | (with_reducible refine Keeps.ite (fun _ => ?_) (fun _ => ?_))
    | (with_reducible refine Keeps.ite_fst (fun _ => ?_) (fun _ => ?_))
    | (with_reducible refine Keeps.ite_snd (fun _ => ?_) (fun _ => ?_))
    | (with_reducible refine Keeps.foldl _ _ ?_ (fun t a hk => ?_)))

theorem resyncSend_keeps {gr : Group → Bool} {s0 : State} {s : State} {ctx : Nat} {g : BitVec 32} {k : Nat} (hk : Keeps gr s0 s) :
    Keeps gr s0 (resyncSend s ctx g k) := by
  unfold resyncSend
  repeat' (first
    | (with_reducible assumption)
    | (with_reducible apply readWhole_keeps)
    | (with_reducible apply ttSend_keeps)
    | (with_reducible refine Keeps.ite (fun _ => ?_) (fun _ => ?_))
    | (with_reducible refine Keeps.ite_fst (fun _ => ?_) (fun _ => ?_))
    | (with_reducible refine Keeps.ite_snd (fun _ => ?_) (fun _ => ?_))
    | (with_reducible refine Keeps.of_fst (y := (_, _)) (x := readWhole _ _ _) ?_ (by assumption))
    | dsimp only
    | split)

theorem sealOne_keeps {gr : Group → Bool} {s0 : State} {s : State} {cmd ctx : Nat} (hk : Keeps gr s0 s) :
    Keeps gr s0 (sealOne s cmd ctx) := by
  unfold sealOne
  repeat' (first
    | (with_reducible assumption)
    | (with_reducible apply ctxPut_keeps)
    | (with_reducible apply resyncSend_keeps)
    | (with_reducible refine Keeps.ite (fun _ => ?_) (fun _ => ?_))
    | (with_reducible refine Keeps.ite_fst (fun _ => ?_) (fun _ => ?_))
    | (with_reducible refine Keeps.ite_snd (fun _ => ?_) (fun _ => ?_))
    | (simp only [Keeps.mk_iff]; with_reducible refine KeepsParts.same (t := _) ?_ (by rfl) rfl rfl rfl)
    | (with_reducible refine Keeps.foldl _ _ ?_ (fun t a hk => ?_)))

theorem genSeal_keeps {gr : Group → Bool} {s0 : State} {s : State} (hk : Keeps gr s0 s) :
    Keeps gr s0 (genSeal s) := by
  unfold genSeal
  repeat' (first
    | (with_reducible assumption)
    | (with_reducible apply advance_keeps)
    | (with_reducible apply sealSteps_keeps)
    | (with_reducible apply ev_keeps)
    | (with_reducible apply sealOne_keeps)
    | (with_reducible apply cmdUpd_keeps)
    | (with_reducible apply cmdEnd_keeps)
    | (with_reducible refine Keeps.ite (fun _ => ?_) (fun _ => ?_))
    | (with_reducible refine Keeps.ite_fst (fun _ => ?_) (fun _ => ?_))
    | (with_reducible refine Keeps.ite_snd (fun _ => ?_) (fun _ => ?_))
    | (simp only [Keeps.mk_iff]; with_reducible refine KeepsParts.same (t := _) ?_ (by rfl) rfl rfl rfl)
    | (with_reducible refine Keeps.foldl _ _ ?_ (fun t a hk => ?_))
    | (with_reducible refine Keeps.foldl_fst _ _ _ ?_ (fun x a hk => ?_))
    | (with_reducible refine Keeps.foldl_snd _ _ _ ?_ (fun x a hk => ?_))
    | dsimp only
    | split)

theorem execGenSeal_keeps {gr : Group → Bool} {s : State}  :
    ∀ s1, execGenSeal s = .next s1 → Keeps gr s s1 := by
  intro s1 ht
  unfold execGenSeal at ht
  obtain rfl := Host.Outcome.next.inj ht
  have hk := Keeps.refl gr s
  repeat' (first
    | (with_reducible assumption)
    | (with_reducible apply genSeal_keeps)
    | (with_reducible refine Keeps.ite (fun _ => ?_) (fun _ => ?_)))

theorem drainTell_keeps {gr : Group → Bool} {s0 : State} {s : State} {d : Drain} (hk : Keeps gr s0 s) :
    Keeps gr s0 (drainTell s d) := by
  unfold drainTell
  repeat' (first
    | (with_reducible assumption)
    | (with_reducible apply cmdUpd_keeps)
    | (with_reducible apply cmdEnd_keeps)
    | (with_reducible refine Keeps.ite (fun _ => ?_) (fun _ => ?_))
    | (with_reducible refine Keeps.ite_fst (fun _ => ?_) (fun _ => ?_))
    | (with_reducible refine Keeps.ite_snd (fun _ => ?_) (fun _ => ?_))
    | dsimp only
    | split)

theorem drainComplete_keeps {gr : Group → Bool} {s0 : State} {s : State} {ctx gen : Nat} (hk : Keeps gr s0 s) :
    Keeps gr s0 (drainComplete s ctx gen) := by
  unfold drainComplete
  repeat' (first
    | (with_reducible assumption)
    | (with_reducible apply logRecord_keeps)
    | (with_reducible apply ctxPut_keeps)
    | (with_reducible apply clearLags_keeps)
    | (with_reducible apply advance_keeps)
    | (with_reducible apply drainTell_keeps)
    | (with_reducible refine Keeps.ite (fun _ => ?_) (fun _ => ?_))
    | (with_reducible refine Keeps.ite_fst (fun _ => ?_) (fun _ => ?_))
    | (with_reducible refine Keeps.ite_snd (fun _ => ?_) (fun _ => ?_))
    | (simp only [Keeps.mk_iff]; with_reducible refine KeepsParts.same (t := _) ?_ (by rfl) rfl rfl rfl)
    | (simp only [Keeps.mk_iff]; with_reducible refine KeepsParts.tables (t := _) ?_ (fun w => w) (fun w => SMap.wf_mapVals _ w))
    | (with_reducible refine Keeps.of_fst (y := (_, _)) (x := logRecord _ _ _ _ _ _ _ _ _ _) ?_ (by assumption))
    | dsimp only
    | split)

theorem execDrainComplete_keeps {gr : Group → Bool} {s : State} {ctx gen : Nat} :
    ∀ s1, execDrainComplete ctx gen s = .next s1 → Keeps gr s s1 := by
  intro s1 ht
  unfold execDrainComplete at ht
  obtain rfl := Host.Outcome.next.inj ht
  have hk := Keeps.refl gr s
  repeat' (first
    | (with_reducible assumption)
    | (with_reducible apply drainComplete_keeps)
    | (with_reducible refine Keeps.ite (fun _ => ?_) (fun _ => ?_)))

end Sys2Proof.Machine
end

