-- ==== Sys2Proof/Laws/KeepsHealth.lean ====
section
/-! SUPPORT. What the operations of Machine/Health.lean keep (Laws/Keeps.lean). -/

namespace Sys2Proof.Machine

open Sys2Proof

set_option Elab.async false

set_option linter.unusedSimpArgs false

theorem drawBit_keeps {gr : Group → Bool} {s0 : State} {s : State} (hk : Keeps gr s0 s) :
    Keeps gr s0 ((drawBit s).2) := by
  unfold drawBit
  repeat' (first
    | (with_reducible assumption)
    | (with_reducible apply drawFree_keeps))

theorem kernelFailed_keeps {gr : Group → Bool} {s0 : State} {s : State} {k : Nat} {again : Bool} (hk : Keeps gr s0 s) :
    Keeps gr s0 (kernelFailed s k again) := by
  unfold kernelFailed
  repeat' (first
    | (with_reducible assumption)
    | (with_reducible apply postEvent_keeps)
    | (with_reducible apply ledAdd_keeps)
    | (with_reducible apply raiseRetire_keeps)
    | (with_reducible refine Keeps.ite (fun _ => ?_) (fun _ => ?_))
    | (with_reducible refine Keeps.ite_fst (fun _ => ?_) (fun _ => ?_))
    | (with_reducible refine Keeps.ite_snd (fun _ => ?_) (fun _ => ?_))
    | (simp only [Keeps.mk_iff]; with_reducible refine KeepsParts.same (t := _) ?_ (by rfl) rfl rfl rfl))

theorem packRun_keeps {gr : Group → Bool} {s0 : State} {s : State} {slot : Nat} (hk : Keeps gr s0 s) :
    Keeps gr s0 ((packRun s slot).1) := by
  unfold packRun
  repeat' (first
    | (with_reducible assumption)
    | (with_reducible apply drawBit_keeps)
    | (with_reducible apply ledAdd_keeps)
    | (with_reducible apply postEvent_keeps)
    | (with_reducible refine Keeps.ite (fun _ => ?_) (fun _ => ?_))
    | (with_reducible refine Keeps.ite_fst (fun _ => ?_) (fun _ => ?_))
    | (with_reducible refine Keeps.ite_snd (fun _ => ?_) (fun _ => ?_))
    | (with_reducible refine Keeps.of_snd (y := (_, _)) (x := drawBit _) ?_ (by assumption))
    | (with_reducible refine Keeps.foldl _ _ ?_ (fun t a hk => ?_))
    | (with_reducible refine Keeps.foldl_fst _ _ _ ?_ (fun x a hk => ?_))
    | (with_reducible refine Keeps.foldl_snd _ _ _ ?_ (fun x a hk => ?_))
    | dsimp only
    | split)

theorem kernelRound_keeps {gr : Group → Bool} {s0 : State} {s : State} (hk : Keeps gr s0 s) :
    Keeps gr s0 (kernelRound s) := by
  unfold kernelRound
  repeat' (first
    | (with_reducible assumption)
    | (with_reducible apply packRun_keeps)
    | (with_reducible refine Keeps.ite (fun _ => ?_) (fun _ => ?_))
    | (with_reducible refine Keeps.ite_fst (fun _ => ?_) (fun _ => ?_))
    | (with_reducible refine Keeps.ite_snd (fun _ => ?_) (fun _ => ?_))
    | (simp only [Keeps.mk_iff]; with_reducible refine KeepsParts.same (t := _) ?_ (by rfl) rfl rfl rfl)
    | (with_reducible refine Keeps.of_fst (y := (_, _)) (x := packRun _ _) ?_ (by assumption))
    | (with_reducible refine Keeps.foldl _ _ ?_ (fun t a hk => ?_)))

theorem kernelNext_keeps {gr : Group → Bool} {s0 : State} {s : State} {k : Nat} (hk : Keeps gr s0 s) :
    Keeps gr s0 (kernelNext s k) := by
  unfold kernelNext
  repeat' (first
    | (with_reducible assumption)
    | (with_reducible apply kernelRound_keeps)
    | (with_reducible refine Keeps.ite (fun _ => ?_) (fun _ => ?_))
    | (with_reducible refine Keeps.ite_fst (fun _ => ?_) (fun _ => ?_))
    | (with_reducible refine Keeps.ite_snd (fun _ => ?_) (fun _ => ?_))
    | (simp only [Keeps.mk_iff]; with_reducible refine KeepsParts.same (t := _) ?_ (by rfl) rfl rfl rfl))

theorem kernelRerun_keeps {gr : Group → Bool} {s0 : State} {s : State} {k : Nat} {bad : Bool} (hk : Keeps gr s0 s) :
    Keeps gr s0 (kernelRerun s k bad) := by
  unfold kernelRerun
  repeat' (first
    | (with_reducible assumption)
    | (with_reducible apply kernelNext_keeps)
    | (with_reducible apply kernelFailed_keeps)
    | (with_reducible refine Keeps.ite (fun _ => ?_) (fun _ => ?_))
    | (with_reducible refine Keeps.ite_fst (fun _ => ?_) (fun _ => ?_))
    | (with_reducible refine Keeps.ite_snd (fun _ => ?_) (fun _ => ?_))
    | (simp only [Keeps.mk_iff]; with_reducible refine KeepsParts.same (t := _) ?_ (by rfl) rfl rfl rfl))

theorem kernelRunDone_keeps {gr : Group → Bool} {s0 : State} {s : State} {k sig : Nat} (hk : Keeps gr s0 s) :
    Keeps gr s0 (kernelRunDone s k sig) := by
  unfold kernelRunDone
  repeat' (first
    | (with_reducible assumption)
    | (with_reducible apply ev_keeps)
    | (with_reducible apply kernelRerun_keeps)
    | (with_reducible apply kernelNext_keeps)
    | (with_reducible refine Keeps.ite (fun _ => ?_) (fun _ => ?_))
    | (with_reducible refine Keeps.ite_fst (fun _ => ?_) (fun _ => ?_))
    | (with_reducible refine Keeps.ite_snd (fun _ => ?_) (fun _ => ?_))
    | (simp only [Keeps.mk_iff]; with_reducible refine KeepsParts.same (t := _) ?_ (by rfl) rfl rfl rfl))

theorem execKernelRunDone_keeps {gr : Group → Bool} {s : State} {kernel sig : Nat} :
    ∀ s1, execKernelRunDone kernel sig s = .next s1 → Keeps gr s s1 := by
  intro s1 ht
  unfold execKernelRunDone at ht
  obtain rfl := Host.Outcome.next.inj ht
  have hk := Keeps.refl gr s
  repeat' (first
    | (with_reducible assumption)
    | (with_reducible apply kernelRunDone_keeps)
    | (with_reducible refine Keeps.ite (fun _ => ?_) (fun _ => ?_)))

theorem testKernel_keeps {gr : Group → Bool} {s0 : State} {s : State} {stress : Bool} {k : Nat} (hk : Keeps gr s0 s) :
    Keeps gr s0 ((testKernel s stress k).1) := by
  unfold testKernel
  repeat' (first
    | (with_reducible assumption)
    | (with_reducible apply ev_keeps)
    | (with_reducible apply drawBit_keeps)
    | (with_reducible apply ledAdd_keeps)
    | (with_reducible apply kernelFailed_keeps)
    | (with_reducible refine Keeps.ite (fun _ => ?_) (fun _ => ?_))
    | (with_reducible refine Keeps.ite_fst (fun _ => ?_) (fun _ => ?_))
    | (with_reducible refine Keeps.ite_snd (fun _ => ?_) (fun _ => ?_))
    | (with_reducible refine Keeps.of_snd (y := (_, _)) (x := drawBit _) ?_ (by assumption))
    | dsimp only
    | split)

theorem testRuns_keeps {gr : Group → Bool} {s0 : State} {s : State} {c : Cmd} {stress : Bool} (hk : Keeps gr s0 s) :
    Keeps gr s0 ((testRuns s c stress).1) := by
  unfold testRuns
  repeat' (first
    | (with_reducible assumption)
    | (with_reducible apply testKernel_keeps)
    | (with_reducible apply packRun_keeps)
    | (with_reducible refine Keeps.ite (fun _ => ?_) (fun _ => ?_))
    | (with_reducible refine Keeps.ite_fst (fun _ => ?_) (fun _ => ?_))
    | (with_reducible refine Keeps.ite_snd (fun _ => ?_) (fun _ => ?_))
    | (with_reducible refine Keeps.of_fst (y := (_, _)) (x := testKernel _ _ _) ?_ (by assumption))
    | (with_reducible refine Keeps.of_fst (y := (_, _)) (x := packRun _ _) ?_ (by assumption))
    | (with_reducible refine Keeps.foldl _ _ ?_ (fun t a hk => ?_))
    | (with_reducible refine Keeps.foldl_fst _ _ _ ?_ (fun x a hk => ?_))
    | (with_reducible refine Keeps.foldl_snd _ _ _ ?_ (fun x a hk => ?_))
    | dsimp only
    | split)

theorem testEnd_keeps {gr : Group → Bool} {s0 : State} {s : State} {n bad : Nat} {pack : Option Nat} (hk : Keeps gr s0 s) :
    Keeps gr s0 (testEnd s n bad pack) := by
  unfold testEnd
  repeat' (first
    | (with_reducible assumption)
    | (with_reducible apply cmdEnd_keeps))

theorem testRun_keeps {gr : Group → Bool} {s0 : State} {s : State} {c : Cmd} (hk : Keeps gr s0 s) :
    Keeps gr s0 (testRun s c) := by
  unfold testRun
  repeat' (first
    | (with_reducible assumption)
    | (with_reducible apply refuseCmd_keeps)
    | (with_reducible apply unstart_keeps)
    | (with_reducible apply hdrSend_keeps)
    | (with_reducible apply testRuns_keeps)
    | (with_reducible apply testEnd_keeps)
    | (with_reducible refine Keeps.ite (fun _ => ?_) (fun _ => ?_))
    | (with_reducible refine Keeps.ite_fst (fun _ => ?_) (fun _ => ?_))
    | (with_reducible refine Keeps.ite_snd (fun _ => ?_) (fun _ => ?_))
    | (simp only [Keeps.mk_iff]; with_reducible refine KeepsParts.same (t := _) ?_ (by rfl) rfl rfl rfl))

theorem execTestRun_keeps {gr : Group → Bool} {s : State} {ring idx : Nat} :
    ∀ s1, execTestRun ring idx s = .next s1 → Keeps gr s s1 := by
  intro s1 ht
  unfold execTestRun at ht
  obtain rfl := Host.Outcome.next.inj ht
  have hk := Keeps.refl gr s
  repeat' (first
    | (with_reducible assumption)
    | (with_reducible apply startCmd_keeps)
    | (with_reducible apply testRun_keeps))

theorem stressSet_keeps {gr : Group → Bool} {s0 : State} {s : State} {f : Frame} (hk : Keeps gr s0 s) :
    Keeps gr s0 (stressSet s f) := by
  unfold stressSet
  repeat' (first
    | (with_reducible assumption)
    | (with_reducible apply testRuns_keeps)
    | (with_reducible apply drawBit_keeps)
    | (with_reducible apply ledAdd_keeps)
    | (with_reducible apply hdrKeep_keeps)
    | (with_reducible apply testEnd_keeps)
    | (with_reducible refine Keeps.ite (fun _ => ?_) (fun _ => ?_))
    | (with_reducible refine Keeps.ite_fst (fun _ => ?_) (fun _ => ?_))
    | (with_reducible refine Keeps.ite_snd (fun _ => ?_) (fun _ => ?_))
    | (simp only [Keeps.mk_iff]; with_reducible refine KeepsParts.same (t := _) ?_ (by rfl) rfl rfl rfl)
    | (with_reducible refine Keeps.of_fst (y := (_, _)) (x := testRuns _ _ _) ?_ (by assumption))
    | (with_reducible refine Keeps.of_fst (y := (_, _, _)) (x := testRuns _ _ _) ?_ (by assumption))
    | (with_reducible refine Keeps.of_snd (y := (_, _)) (x := drawBit _) ?_ (by assumption))
    | dsimp only
    | split)

theorem execStressSet_keeps {gr : Group → Bool} {s : State} {f : Frame} :
    ∀ s1, execStressSet f s = .next s1 → Keeps gr s s1 := by
  intro s1 ht
  unfold execStressSet at ht
  obtain rfl := Host.Outcome.next.inj ht
  have hk := Keeps.refl gr s
  repeat' (first
    | (with_reducible assumption)
    | (with_reducible apply hdrGate_keeps)
    | (with_reducible apply stressSet_keeps)
    | (with_reducible refine Keeps.ite (fun _ => ?_) (fun _ => ?_))
    | (with_reducible refine Keeps.ite_fst (fun _ => ?_) (fun _ => ?_))
    | (with_reducible refine Keeps.ite_snd (fun _ => ?_) (fun _ => ?_))
    | intro t a hk
    | intro t hk)

theorem execStressSetTimeout_keeps {gr : Group → Bool} {s : State}  :
    ∀ s1, execStressSetTimeout s = .next s1 → Keeps gr s s1 := by
  intro s1 ht
  unfold execStressSetTimeout at ht
  obtain rfl := Host.Outcome.next.inj ht
  have hk := Keeps.refl gr s
  repeat' (first
    | (with_reducible assumption)
    | (with_reducible apply cmdEnd_keeps)
    | (with_reducible refine Keeps.ite (fun _ => ?_) (fun _ => ?_))
    | (with_reducible refine Keeps.ite_fst (fun _ => ?_) (fun _ => ?_))
    | (with_reducible refine Keeps.ite_snd (fun _ => ?_) (fun _ => ?_))
    | (simp only [Keeps.mk_iff]; with_reducible refine KeepsParts.same (t := _) ?_ (by rfl) rfl rfl rfl))

theorem testLoadpack_keeps {gr : Group → Bool} {s0 : State} {s : State} {c : Cmd} {input : Bytes} {bad : List BadBeat} (hk : Keeps gr s0 s) (hbPacks : gr .packs = false) :
    Keeps gr s0 (testLoadpack s c input bad) := by
  unfold testLoadpack
  repeat' (first
    | (with_reducible assumption)
    | (with_reducible apply refuseCmd_keeps)
    | (with_reducible apply inputBad_keeps)
    | (with_reducible apply cmdEnd_keeps)
    | (with_reducible refine Keeps.ite (fun _ => ?_) (fun _ => ?_))
    | (with_reducible refine Keeps.ite_fst (fun _ => ?_) (fun _ => ?_))
    | (with_reducible refine Keeps.ite_snd (fun _ => ?_) (fun _ => ?_))
    | (simp only [Keeps.mk_iff]; refine KeepsParts.freed (t := _) ?_))

theorem execTestLoadpack_keeps {gr : Group → Bool} {s : State} {ring idx : Nat} {input : Bytes} {bad : List BadBeat} (hbPacks : gr .packs = false) :
    ∀ s1, execTestLoadpack ring idx input bad s = .next s1 → Keeps gr s s1 := by
  intro s1 ht
  unfold execTestLoadpack at ht
  obtain rfl := Host.Outcome.next.inj ht
  have hk := Keeps.refl gr s
  repeat' (first
    | (with_reducible assumption)
    | (with_reducible apply startCmd_keeps)
    | (with_reducible apply testLoadpack_keeps)
    | (with_reducible refine Keeps.ite (fun _ => ?_) (fun _ => ?_))
    | (with_reducible refine Keeps.ite_fst (fun _ => ?_) (fun _ => ?_))
    | (with_reducible refine Keeps.ite_snd (fun _ => ?_) (fun _ => ?_))
    | intro t a hk)

theorem patchLoad_keeps {gr : Group → Bool} {s0 : State} {s : State} {c : Cmd} {input : Bytes} {bad : List BadBeat} (hk : Keeps gr s0 s) (hbPatch : gr .patch = false) :
    Keeps gr s0 (patchLoad s c input bad) := by
  unfold patchLoad
  repeat' (first
    | (with_reducible assumption)
    | (with_reducible apply refuseCmd_keeps)
    | (with_reducible apply inputBad_keeps)
    | (with_reducible apply cmdEnd_keeps)
    | (with_reducible refine Keeps.ite (fun _ => ?_) (fun _ => ?_))
    | (with_reducible refine Keeps.ite_fst (fun _ => ?_) (fun _ => ?_))
    | (with_reducible refine Keeps.ite_snd (fun _ => ?_) (fun _ => ?_))
    | (simp only [Keeps.mk_iff]; refine KeepsParts.freed (t := _) ?_))

theorem execPatchLoad_keeps {gr : Group → Bool} {s : State} {ring idx : Nat} {input : Bytes} {bad : List BadBeat} (hbPatch : gr .patch = false) :
    ∀ s1, execPatchLoad ring idx input bad s = .next s1 → Keeps gr s s1 := by
  intro s1 ht
  unfold execPatchLoad at ht
  obtain rfl := Host.Outcome.next.inj ht
  have hk := Keeps.refl gr s
  repeat' (first
    | (with_reducible assumption)
    | (with_reducible apply startCmd_keeps)
    | (with_reducible apply patchLoad_keeps)
    | (with_reducible refine Keeps.ite (fun _ => ?_) (fun _ => ?_))
    | (with_reducible refine Keeps.ite_fst (fun _ => ?_) (fun _ => ?_))
    | (with_reducible refine Keeps.ite_snd (fun _ => ?_) (fun _ => ?_))
    | intro t a hk)

theorem sliceRetire_keeps {gr : Group → Bool} {s0 : State} {s : State} {c : Cmd} (hk : Keeps gr s0 s) :
    Keeps gr s0 (sliceRetire s c) := by
  unfold sliceRetire
  repeat' (first
    | (with_reducible assumption)
    | (with_reducible apply refuseCmd_keeps)
    | (with_reducible apply raiseRetire_keeps)
    | (with_reducible apply drainStart_keeps)
    | (with_reducible refine Keeps.ite (fun _ => ?_) (fun _ => ?_))
    | (with_reducible refine Keeps.ite_fst (fun _ => ?_) (fun _ => ?_))
    | (with_reducible refine Keeps.ite_snd (fun _ => ?_) (fun _ => ?_))
    | (simp only [Keeps.mk_iff]; with_reducible refine KeepsParts.same (t := _) ?_ (by rfl) rfl rfl rfl))

theorem execSliceRetire_keeps {gr : Group → Bool} {s : State} {ring idx : Nat} :
    ∀ s1, execSliceRetire ring idx s = .next s1 → Keeps gr s s1 := by
  intro s1 ht
  unfold execSliceRetire at ht
  obtain rfl := Host.Outcome.next.inj ht
  have hk := Keeps.refl gr s
  repeat' (first
    | (with_reducible assumption)
    | (with_reducible apply startCmd_keeps)
    | (with_reducible apply sliceRetire_keeps))

theorem execRetireHoldExpiry_keeps {gr : Group → Bool} {s : State}  :
    ∀ s1, execRetireHoldExpiry s = .next s1 → Keeps gr s s1 := by
  intro s1 ht
  unfold execRetireHoldExpiry at ht
  obtain rfl := Host.Outcome.next.inj ht
  have hk := Keeps.refl gr s
  repeat' (first
    | (with_reducible assumption)
    | (with_reducible apply advance_keeps)
    | (with_reducible apply drainStart_keeps)
    | (with_reducible refine Keeps.ite (fun _ => ?_) (fun _ => ?_)))

theorem ageingSample_keeps {gr : Group → Bool} {s0 : State} {s : State} {pairs : List (Nat × Nat)} {canary : List Nat} (hk : Keeps gr s0 s) :
    Keeps gr s0 (ageingSample s pairs canary) := by
  unfold ageingSample
  repeat' (first
    | (with_reducible assumption)
    | (with_reducible apply ledAdd_keeps)
    | (with_reducible apply csrPut_keeps)
    | (with_reducible apply raiseRetire_keeps)
    | (with_reducible apply propose_keeps)
    | exact .inr (by decide)
    | (with_reducible refine Keeps.ite (fun _ => ?_) (fun _ => ?_))
    | (with_reducible refine Keeps.ite_fst (fun _ => ?_) (fun _ => ?_))
    | (with_reducible refine Keeps.ite_snd (fun _ => ?_) (fun _ => ?_))
    | (simp only [Keeps.mk_iff]; with_reducible refine KeepsParts.same (t := _) ?_ (by rfl) rfl rfl rfl))

theorem execAgeingSample_keeps {gr : Group → Bool} {s : State} {pairs : List (Nat × Nat)} {canary : List Nat} :
    ∀ s1, execAgeingSample pairs canary s = .next s1 → Keeps gr s s1 := by
  intro s1 ht
  unfold execAgeingSample at ht
  obtain rfl := Host.Outcome.next.inj ht
  have hk := Keeps.refl gr s
  repeat' (first
    | (with_reducible assumption)
    | (with_reducible apply ageingSample_keeps)
    | (with_reducible refine Keeps.ite (fun _ => ?_) (fun _ => ?_)))

theorem spareDone_keeps {gr : Group → Bool} {s0 : State} {s : State} {bank : Nat} (hk : Keeps gr s0 s) :
    Keeps gr s0 (spareDone s bank) := by
  unfold spareDone
  repeat' (first
    | (with_reducible assumption)
    | (with_reducible apply linePut_keeps)
    | (with_reducible apply ledAdd_keeps)
    | (with_reducible apply postEventFree_keeps)
    | (with_reducible apply mapSave_keeps)
    | (with_reducible refine Keeps.ite (fun _ => ?_) (fun _ => ?_))
    | (with_reducible refine Keeps.ite_fst (fun _ => ?_) (fun _ => ?_))
    | (with_reducible refine Keeps.ite_snd (fun _ => ?_) (fun _ => ?_))
    | (simp only [Keeps.mk_iff]; with_reducible refine KeepsParts.same (t := _) ?_ (by rfl) rfl rfl rfl)
    | (with_reducible refine Keeps.foldl _ _ ?_ (fun t a hk => ?_))
    | (with_reducible refine Keeps.foldl_fst _ _ _ ?_ (fun x a hk => ?_))
    | (with_reducible refine Keeps.foldl_snd _ _ _ ?_ (fun x a hk => ?_))
    | dsimp only
    | split)

theorem execSpareRowCopyDone_keeps {gr : Group → Bool} {s : State} {bank : Nat} :
    ∀ s1, execSpareRowCopyDone bank s = .next s1 → Keeps gr s s1 := by
  intro s1 ht
  unfold execSpareRowCopyDone at ht
  obtain rfl := Host.Outcome.next.inj ht
  have hk := Keeps.refl gr s
  repeat' (first
    | (with_reducible assumption)
    | (with_reducible apply spareDone_keeps)
    | (with_reducible refine Keeps.ite (fun _ => ?_) (fun _ => ?_)))

theorem moveSlot_keeps {gr : Group → Bool} {s0 : State} {s : State} {k k' : Nat} (hk : Keeps gr s0 s) :
    Keeps gr s0 (moveSlot s k k') := by
  unfold moveSlot
  repeat' (first
    | (with_reducible assumption)
    | (with_reducible apply lineDrop_keeps)
    | (with_reducible apply storeLine_keeps)
    | (with_reducible apply lineUse_keeps)
    | (with_reducible refine Keeps.ite (fun _ => ?_) (fun _ => ?_))
    | (with_reducible refine Keeps.ite_fst (fun _ => ?_) (fun _ => ?_))
    | (with_reducible refine Keeps.ite_snd (fun _ => ?_) (fun _ => ?_))
    | (simp only [Keeps.mk_iff]; with_reducible refine KeepsParts.same (t := _) ?_ (by rfl) rfl rfl rfl))

theorem movePinned_keeps {gr : Group → Bool} {s0 : State} {s : State} {stand k : Nat} (hk : Keeps gr s0 s) :
    Keeps gr s0 (movePinned s stand k) := by
  unfold movePinned
  repeat' (first
    | (with_reducible assumption)
    | (with_reducible apply closeLine_keeps)
    | (with_reducible apply readWhole_keeps)
    | (with_reducible apply evictSlot_keeps)
    | (with_reducible apply moveSlot_keeps)
    | (with_reducible refine Keeps.ite (fun _ => ?_) (fun _ => ?_))
    | (with_reducible refine Keeps.ite_fst (fun _ => ?_) (fun _ => ?_))
    | (with_reducible refine Keeps.ite_snd (fun _ => ?_) (fun _ => ?_))
    | (with_reducible refine Keeps.of_fst (y := (_, _)) (x := readWhole _ _ _) ?_ (by assumption))
    | (with_reducible refine Keeps.of_fst (y := (_, _)) (x := evictSlot _ _) ?_ (by assumption))
    | dsimp only
    | split)

theorem emptySlot_keeps {gr : Group → Bool} {s0 : State} {s : State} {k : Nat} (hk : Keeps gr s0 s) :
    Keeps gr s0 (emptySlot s k) := by
  unfold emptySlot
  repeat' (first
    | (with_reducible assumption)
    | (with_reducible apply readWhole_keeps)
    | (with_reducible apply findWay_keeps)
    | (with_reducible apply moveSlot_keeps)
    | (with_reducible apply evictSlot_keeps)
    | (with_reducible refine Keeps.ite (fun _ => ?_) (fun _ => ?_))
    | (with_reducible refine Keeps.ite_fst (fun _ => ?_) (fun _ => ?_))
    | (with_reducible refine Keeps.ite_snd (fun _ => ?_) (fun _ => ?_))
    | (with_reducible refine Keeps.of_fst (y := (_, _)) (x := readWhole _ _ _) ?_ (by assumption))
    | (with_reducible refine Keeps.of_busy (x := findWay _ _ _ _ _) ?_ (by assumption))
    | (with_reducible refine Keeps.of_noWay (x := findWay _ _ _ _ _) ?_ (by assumption))
    | (with_reducible refine Keeps.of_slot (x := findWay _ _ _ _ _) ?_ (by assumption))
    | (with_reducible refine Keeps.of_fst (y := (_, _)) (x := evictSlot _ _) ?_ (by assumption))
    | dsimp only
    | split)

theorem wayOff_keeps {gr : Group → Bool} {s0 : State} {s : State} {bank way : Nat} (hk : Keeps gr s0 s) :
    Keeps gr s0 (wayOff s bank way) := by
  unfold wayOff
  repeat' (first
    | (with_reducible assumption)
    | (with_reducible apply ledAdd_keeps)
    | (with_reducible apply postEventFree_keeps)
    | (with_reducible apply mapSave_keeps)
    | (with_reducible apply raiseRetire_keeps)
    | (with_reducible refine Keeps.ite (fun _ => ?_) (fun _ => ?_))
    | (with_reducible refine Keeps.ite_fst (fun _ => ?_) (fun _ => ?_))
    | (with_reducible refine Keeps.ite_snd (fun _ => ?_) (fun _ => ?_))
    | (simp only [Keeps.mk_iff]; with_reducible refine KeepsParts.same (t := _) ?_ (by rfl) rfl rfl rfl))

theorem wayDisableDone_keeps {gr : Group → Bool} {s0 : State} {s : State} {bank way : Nat} (hk : Keeps gr s0 s) :
    Keeps gr s0 (wayDisableDone s bank way) := by
  unfold wayDisableDone
  repeat' (first
    | (with_reducible assumption)
    | (with_reducible apply raiseRetire_keeps)
    | (with_reducible apply movePinned_keeps)
    | (with_reducible apply advance_keeps)
    | (with_reducible apply wayOff_keeps)
    | (with_reducible apply emptySlot_keeps)
    | (with_reducible refine Keeps.ite (fun _ => ?_) (fun _ => ?_))
    | (with_reducible refine Keeps.ite_fst (fun _ => ?_) (fun _ => ?_))
    | (with_reducible refine Keeps.ite_snd (fun _ => ?_) (fun _ => ?_))
    | (simp only [Keeps.mk_iff]; with_reducible refine KeepsParts.same (t := _) ?_ (by rfl) rfl rfl rfl)
    | (with_reducible refine Keeps.foldl _ _ ?_ (fun t a hk => ?_))
    | (with_reducible refine Keeps.foldl_fst _ _ _ ?_ (fun x a hk => ?_))
    | (with_reducible refine Keeps.foldl_snd _ _ _ ?_ (fun x a hk => ?_))
    | dsimp only
    | split)

theorem execWayDisableDone_keeps {gr : Group → Bool} {s : State} {bank way : Nat} :
    ∀ s1, execWayDisableDone bank way s = .next s1 → Keeps gr s s1 := by
  intro s1 ht
  unfold execWayDisableDone at ht
  obtain rfl := Host.Outcome.next.inj ht
  have hk := Keeps.refl gr s
  repeat' (first
    | (with_reducible assumption)
    | (with_reducible apply wayDisableDone_keeps)
    | (with_reducible refine Keeps.ite (fun _ => ?_) (fun _ => ?_)))

theorem execWayDisableTimeout_keeps {gr : Group → Bool} {s : State} {bank way : Nat} :
    ∀ s1, execWayDisableTimeout bank way s = .next s1 → Keeps gr s s1 := by
  intro s1 ht
  unfold execWayDisableTimeout at ht
  obtain rfl := Host.Outcome.next.inj ht
  have hk := Keeps.refl gr s
  repeat' (first
    | (with_reducible assumption)
    | (with_reducible apply raiseRetire_keeps)
    | (with_reducible refine Keeps.ite (fun _ => ?_) (fun _ => ?_)))

theorem harrowLine_keeps {gr : Group → Bool} {s0 : State} {s : State} {k : Nat} {bad : LineMask} {stuck : Bool} (hk : Keeps gr s0 s) :
    Keeps gr s0 ((harrowLine s k bad stuck).1) := by
  unfold harrowLine
  repeat' (first
    | (with_reducible assumption)
    | (with_reducible apply mirrorDrop_keeps)
    | (with_reducible apply ev_keeps)
    | (with_reducible apply linePut_keeps)
    | (with_reducible apply activity_keeps)
    | (with_reducible apply lineUse_keeps)
    | (with_reducible apply checkLine_keeps)
    | (with_reducible refine Keeps.ite (fun _ => ?_) (fun _ => ?_))
    | (with_reducible refine Keeps.ite_fst (fun _ => ?_) (fun _ => ?_)))

theorem harrowOther_keeps {gr : Group → Bool} {s0 : State} {s : State} {v n : Nat} (hk : Keeps gr s0 s) :
    Keeps gr s0 ((harrowOther s v n).1) := by
  unfold harrowOther
  repeat' (first
    | (with_reducible assumption)
    | (with_reducible apply sfCheckKeys_keeps)
    | (with_reducible apply windowLost_keeps)
    | (with_reducible refine Keeps.ite (fun _ => ?_) (fun _ => ?_))
    | (with_reducible refine Keeps.ite_fst (fun _ => ?_) (fun _ => ?_))
    | (with_reducible refine Keeps.ite_snd (fun _ => ?_) (fun _ => ?_))
    | (with_reducible refine Keeps.foldl _ _ ?_ (fun t a hk => ?_))
    | (with_reducible refine Keeps.foldl_fst _ _ _ ?_ (fun x a hk => ?_))
    | (with_reducible refine Keeps.foldl_snd _ _ _ ?_ (fun x a hk => ?_))
    | dsimp only
    | split)

theorem upsetIn_keeps {gr : Group → Bool} {s0 : State} {s : State} {u : Upset} (hk : Keeps gr s0 s) :
    Keeps gr s0 (upsetIn s u) := by
  unfold upsetIn
  repeat' (first
    | (with_reducible assumption)
    | (with_reducible apply linePut_keeps)
    | (with_reducible apply openLine_keeps)
    | (with_reducible apply stage_keeps)
    | (with_reducible apply sfPut_keeps)
    | (with_reducible apply fence_keeps)
    | (with_reducible refine Keeps.ite (fun _ => ?_) (fun _ => ?_))
    | (with_reducible refine Keeps.ite_fst (fun _ => ?_) (fun _ => ?_))
    | (with_reducible refine Keeps.ite_snd (fun _ => ?_) (fun _ => ?_))
    | (simp only [Keeps.mk_iff]; with_reducible refine KeepsParts.same (t := _) ?_ (by rfl) rfl rfl rfl)
    | dsimp only
    | split)

theorem harrowVisit_keeps {gr : Group → Bool} {s0 : State} {s : State} {bad : LineMask} {stuck : Bool} {us : List Upset} (hk : Keeps gr s0 s) :
    Keeps gr s0 (harrowVisit s bad stuck us) := by
  unfold harrowVisit
  repeat' (first
    | (with_reducible assumption)
    | (with_reducible apply upsetIn_keeps)
    | (with_reducible apply advance_keeps)
    | (with_reducible apply ev_keeps)
    | (with_reducible apply tagCheck_keeps)
    | (with_reducible apply harrowLine_keeps)
    | (with_reducible apply harrowOther_keeps)
    | (with_reducible apply csrSet_keeps)
    | exact .inr (by decide)
    | (with_reducible refine Keeps.ite (fun _ => ?_) (fun _ => ?_))
    | (with_reducible refine Keeps.ite_fst (fun _ => ?_) (fun _ => ?_))
    | (with_reducible refine Keeps.ite_snd (fun _ => ?_) (fun _ => ?_))
    | (simp only [Keeps.mk_iff]; with_reducible refine KeepsParts.same (t := _) ?_ (by rfl) rfl rfl rfl)
    | (with_reducible refine Keeps.of_fst (y := (_, _)) (x := harrowLine _ _ _ _) ?_ (by assumption))
    | (with_reducible refine Keeps.of_fst (y := (_, _)) (x := harrowOther _ _ _) ?_ (by assumption))
    | (with_reducible refine Keeps.foldl _ _ ?_ (fun t a hk => ?_)))

theorem execHarrowVisit_keeps {gr : Group → Bool} {s : State} {bad : LineMask} {stuck : Bool} {upsets : List Upset} :
    ∀ s1, execHarrowVisit bad stuck s upsets = .next s1 → Keeps gr s s1 := by
  intro s1 ht
  unfold execHarrowVisit at ht
  obtain rfl := Host.Outcome.next.inj ht
  have hk := Keeps.refl gr s
  repeat' (first
    | (with_reducible assumption)
    | (with_reducible apply harrowVisit_keeps)
    | (with_reducible refine Keeps.ite (fun _ => ?_) (fun _ => ?_)))

end Sys2Proof.Machine
end

