-- ==== Sys2Proof/Laws/KeepsPair.lean ====
section
/-! SUPPORT. What the operations of Machine/Pair.lean keep (Laws/Keeps.lean). -/

namespace Sys2Proof.Machine

open Sys2Proof

set_option Elab.async false

set_option linter.unusedSimpArgs false

theorem mirrorPut_keeps {gr : Group → Bool} {s0 : State} {s : State} {k : Nat} {l : Line} (hk : Keeps gr s0 s) :
    Keeps gr s0 (mirrorPut s k l) := by
  unfold mirrorPut
  repeat' (first
    | (with_reducible assumption)
    | (with_reducible refine Keeps.ite (fun _ => ?_) (fun _ => ?_))
    | (with_reducible refine Keeps.ite_fst (fun _ => ?_) (fun _ => ?_))
    | (with_reducible refine Keeps.ite_snd (fun _ => ?_) (fun _ => ?_))
    | (simp only [Keeps.mk_iff]; with_reducible refine KeepsParts.same (t := _) ?_ (by rfl) rfl rfl rfl))

theorem mirrorStore_keeps {gr : Group → Bool} {s0 : State} {s : State} {k : Nat} {l : Line} {m : LineMask} (hk : Keeps gr s0 s) :
    Keeps gr s0 (mirrorStore s k l m) := by
  unfold mirrorStore
  repeat' (first
    | (with_reducible assumption)
    | (with_reducible apply flipFired_keeps)
    | (with_reducible apply mirrorPut_keeps)
    | (with_reducible refine Keeps.ite (fun _ => ?_) (fun _ => ?_))
    | (with_reducible refine Keeps.ite_fst (fun _ => ?_) (fun _ => ?_))
    | (with_reducible refine Keeps.ite_snd (fun _ => ?_) (fun _ => ?_))
    | dsimp only
    | split)

theorem mirrorWrite_keeps {gr : Group → Bool} {s0 : State} {s : State} {set line : Nat} {mask : BitVec 8} {data : Bytes} {fallow : Bool} (hk : Keeps gr s0 s) :
    Keeps gr s0 ((mirrorWrite s set line mask data fallow).1) := by
  unfold mirrorWrite
  repeat' (first
    | (with_reducible assumption)
    | (with_reducible apply mirrorStore_keeps)
    | (with_reducible refine Keeps.ite (fun _ => ?_) (fun _ => ?_))
    | (with_reducible refine Keeps.ite_fst (fun _ => ?_) (fun _ => ?_))
    | (with_reducible refine Keeps.ite_snd (fun _ => ?_) (fun _ => ?_))
    | (with_reducible refine Keeps.foldl _ _ ?_ (fun t a hk => ?_))
    | (with_reducible refine Keeps.foldl_fst _ _ _ ?_ (fun x a hk => ?_))
    | (with_reducible refine Keeps.foldl_snd _ _ _ ?_ (fun x a hk => ?_))
    | dsimp only
    | split)

theorem stagePut_keeps {gr : Group → Bool} {s0 : State} {s : State} {ctx gen set : Nat} {bs : Bytes} (hk : Keeps gr s0 s) :
    Keeps gr s0 (stagePut s ctx gen set bs) := by
  unfold stagePut
  repeat' (first
    | (with_reducible assumption)
    | (with_reducible apply memBytes_keeps)
    | (with_reducible apply stage_keeps)
    | (with_reducible refine Keeps.ite (fun _ => ?_) (fun _ => ?_))
    | (with_reducible refine Keeps.ite_fst (fun _ => ?_) (fun _ => ?_))
    | (with_reducible refine Keeps.ite_snd (fun _ => ?_) (fun _ => ?_))
    | (simp only [Keeps.mk_iff]; with_reducible refine KeepsParts.same (t := _) ?_ (by rfl) rfl rfl rfl))

theorem creditOwe_keeps {gr : Group → Bool} {s0 : State} {s : State} {vc : Nat} (hk : Keeps gr s0 s) :
    Keeps gr s0 (creditOwe s vc) := by
  unfold creditOwe
  repeat' (first
    | (with_reducible assumption)
    | (with_reducible refine Keeps.ite (fun _ => ?_) (fun _ => ?_))
    | (with_reducible refine Keeps.ite_fst (fun _ => ?_) (fun _ => ?_))
    | (with_reducible refine Keeps.ite_snd (fun _ => ?_) (fun _ => ?_))
    | (simp only [Keeps.mk_iff]; with_reducible refine KeepsParts.same (t := _) ?_ (by rfl) rfl rfl rfl))

theorem stageFree_keeps {gr : Group → Bool} {s0 : State} {s : State} (hk : Keeps gr s0 s) :
    Keeps gr s0 (stageFree s) := by
  unfold stageFree
  repeat' (first
    | (with_reducible assumption)
    | (with_reducible refine Keeps.ite (fun _ => ?_) (fun _ => ?_))
    | (with_reducible refine Keeps.ite_fst (fun _ => ?_) (fun _ => ?_))
    | (with_reducible refine Keeps.ite_snd (fun _ => ?_) (fun _ => ?_))
    | (simp only [Keeps.mk_iff]; with_reducible refine KeepsParts.same (t := _) ?_ (by rfl) rfl rfl rfl))

theorem stageApply_keeps {gr : Group → Bool} {s0 : State} {s : State} {set : Nat} {bs : Bytes} (hk : Keeps gr s0 s) :
    Keeps gr s0 (stageApply s set bs) := by
  unfold stageApply
  repeat' (first
    | (with_reducible assumption)
    | (with_reducible apply mirrorWrite_keeps)
    | (with_reducible refine Keeps.ite (fun _ => ?_) (fun _ => ?_)))

theorem stageComplete_keeps {gr : Group → Bool} {s0 : State} {s : State} {ctx gen : Nat} (hk : Keeps gr s0 s) :
    Keeps gr s0 (stageComplete s ctx gen) := by
  unfold stageComplete
  repeat' (first
    | (with_reducible assumption)
    | (with_reducible apply stageApply_keeps)
    | (with_reducible apply stage_keeps)
    | (with_reducible apply ttSend_keeps)
    | (with_reducible apply stageFree_keeps)
    | (with_reducible refine Keeps.ite (fun _ => ?_) (fun _ => ?_))
    | (with_reducible refine Keeps.ite_fst (fun _ => ?_) (fun _ => ?_))
    | (with_reducible refine Keeps.ite_snd (fun _ => ?_) (fun _ => ?_))
    | (simp only [Keeps.mk_iff]; with_reducible refine KeepsParts.same (t := _) ?_ (by rfl) rfl rfl rfl)
    | (with_reducible refine Keeps.foldl _ _ ?_ (fun t a hk => ?_)))

theorem syncWr_keeps {gr : Group → Bool} {s0 : State} {s : State} {t : TMsg} (hk : Keeps gr s0 s) :
    Keeps gr s0 (syncWr s t) := by
  unfold syncWr
  repeat' (first
    | (with_reducible assumption)
    | (with_reducible apply mirrorWrite_keeps)
    | (with_reducible apply ttSend_keeps)
    | (with_reducible refine Keeps.ite (fun _ => ?_) (fun _ => ?_))
    | (with_reducible refine Keeps.ite_fst (fun _ => ?_) (fun _ => ?_))
    | (with_reducible refine Keeps.ite_snd (fun _ => ?_) (fun _ => ?_))
    | (with_reducible refine Keeps.of_fst (y := (_, _)) (x := mirrorWrite _ _ _ _ _ _) ?_ (by assumption))
    | dsimp only
    | split)

theorem lagRec_keeps {gr : Group → Bool} {s0 : State} {s : State} {t : TMsg} (hk : Keeps gr s0 s) :
    Keeps gr s0 (lagRec s t) := by
  unfold lagRec
  repeat' (first
    | (with_reducible assumption)
    | (with_reducible apply stagePut_keeps))

theorem lagEnd_keeps {gr : Group → Bool} {s0 : State} {s : State} {t : TMsg} (hk : Keeps gr s0 s) :
    Keeps gr s0 (lagEnd s t) := by
  unfold lagEnd
  repeat' (first
    | (with_reducible assumption)
    | (with_reducible apply stagePut_keeps)
    | (with_reducible apply ttSend_keeps)
    | (with_reducible apply stageComplete_keeps)
    | (with_reducible refine Keeps.ite (fun _ => ?_) (fun _ => ?_))
    | (with_reducible refine Keeps.ite_fst (fun _ => ?_) (fun _ => ?_))
    | (with_reducible refine Keeps.ite_snd (fun _ => ?_) (fun _ => ?_))
    | (simp only [Keeps.mk_iff]; with_reducible refine KeepsParts.same (t := _) ?_ (by rfl) rfl rfl rfl))

theorem dropMirror_keeps {gr : Group → Bool} {s0 : State} {s : State} {t : TMsg} (hk : Keeps gr s0 s) :
    Keeps gr s0 (dropMirror s t) := by
  unfold dropMirror
  repeat' (first
    | (with_reducible assumption)
    | (with_reducible apply mirrorPut_keeps)
    | (with_reducible refine Keeps.ite (fun _ => ?_) (fun _ => ?_))
    | (with_reducible refine Keeps.ite_fst (fun _ => ?_) (fun _ => ?_))
    | (with_reducible refine Keeps.ite_snd (fun _ => ?_) (fun _ => ?_))
    | dsimp only
    | split)

theorem repairRd_keeps {gr : Group → Bool} {s0 : State} {s : State} {t : TMsg} (hk : Keeps gr s0 s) :
    Keeps gr s0 (repairRd s t) := by
  unfold repairRd
  repeat' (first
    | (with_reducible assumption)
    | (with_reducible apply ttSend_keeps)
    | (with_reducible apply mirrorDrop_keeps)
    | (with_reducible refine Keeps.ite (fun _ => ?_) (fun _ => ?_))
    | (with_reducible refine Keeps.ite_fst (fun _ => ?_) (fun _ => ?_))
    | (with_reducible refine Keeps.ite_snd (fun _ => ?_) (fun _ => ?_))
    | dsimp only
    | split)

theorem resyncBegin_keeps {gr : Group → Bool} {s0 : State} {s : State} (hk : Keeps gr s0 s) :
    Keeps gr s0 (resyncBegin s) := by
  unfold resyncBegin
  repeat' (first
    | (with_reducible assumption)
    | (with_reducible apply stageFree_keeps)
    | (with_reducible apply stage_keeps)
    | (with_reducible refine Keeps.ite (fun _ => ?_) (fun _ => ?_))
    | (with_reducible refine Keeps.ite_fst (fun _ => ?_) (fun _ => ?_))
    | (with_reducible refine Keeps.ite_snd (fun _ => ?_) (fun _ => ?_))
    | (simp only [Keeps.mk_iff]; with_reducible refine KeepsParts.same (t := _) ?_ (by rfl) rfl rfl rfl))

theorem planData_keeps {gr : Group → Bool} {s0 : State} {s : State} {t : TMsg} (hk : Keeps gr s0 s) :
    Keeps gr s0 (planData s t) := by
  unfold planData
  repeat' (first
    | (with_reducible assumption)
    | (with_reducible apply serve_keeps)
    | (with_reducible apply ev_keeps)
    | (with_reducible refine Keeps.ite (fun _ => ?_) (fun _ => ?_))
    | (with_reducible refine Keeps.ite_fst (fun _ => ?_) (fun _ => ?_))
    | (with_reducible refine Keeps.ite_snd (fun _ => ?_) (fun _ => ?_))
    | (simp only [Keeps.mk_iff]; with_reducible refine KeepsParts.same (t := _) ?_ (by rfl) rfl rfl rfl))

theorem resyncCheck_keeps {gr : Group → Bool} {s0 : State} {s : State} (hk : Keeps gr s0 s) :
    Keeps gr s0 (resyncCheck s) := by
  unfold resyncCheck
  repeat' (first
    | (with_reducible assumption)
    | (with_reducible apply ttSend_keeps)
    | (with_reducible apply cmdEnd_keeps)
    | (with_reducible refine Keeps.ite (fun _ => ?_) (fun _ => ?_))
    | (with_reducible refine Keeps.ite_fst (fun _ => ?_) (fun _ => ?_))
    | (with_reducible refine Keeps.ite_snd (fun _ => ?_) (fun _ => ?_))
    | (simp only [Keeps.mk_iff]; with_reducible refine KeepsParts.tables (t := _) ?_ (fun w => w) (fun w => SMap.wf_mapVals _ w))
    | (with_reducible refine Keeps.foldl _ _ ?_ (fun t a hk => ?_)))

theorem resyncStart_keeps {gr : Group → Bool} {s0 : State} {s : State} (hk : Keeps gr s0 s) :
    Keeps gr s0 (resyncStart s) := by
  unfold resyncStart
  repeat' (first
    | (with_reducible assumption)
    | (with_reducible apply closeLine_keeps)
    | (with_reducible apply readWhole_keeps)
    | (with_reducible apply ttSend_keeps)
    | (with_reducible apply resyncCheck_keeps)
    | (with_reducible refine Keeps.ite (fun _ => ?_) (fun _ => ?_))
    | (with_reducible refine Keeps.ite_fst (fun _ => ?_) (fun _ => ?_))
    | (with_reducible refine Keeps.ite_snd (fun _ => ?_) (fun _ => ?_))
    | (simp only [Keeps.mk_iff]; with_reducible refine KeepsParts.same (t := _) ?_ (by rfl) rfl rfl rfl)
    | (with_reducible refine Keeps.of_fst (y := (_, _)) (x := readWhole _ _ _) ?_ (by assumption))
    | (with_reducible refine Keeps.foldl _ _ ?_ (fun t a hk => ?_)))

theorem pairResync_keeps {gr : Group → Bool} {s0 : State} {s : State} {c : Cmd} (hk : Keeps gr s0 s) :
    Keeps gr s0 (pairResync s c) := by
  unfold pairResync
  repeat' (first
    | (with_reducible assumption)
    | (with_reducible apply refuseCmd_keeps)
    | (with_reducible apply resyncStart_keeps)
    | (with_reducible refine Keeps.ite (fun _ => ?_) (fun _ => ?_))
    | (with_reducible refine Keeps.ite_fst (fun _ => ?_) (fun _ => ?_))
    | (with_reducible refine Keeps.ite_snd (fun _ => ?_) (fun _ => ?_))
    | (simp only [Keeps.mk_iff]; with_reducible refine KeepsParts.same (t := _) ?_ (by rfl) rfl rfl rfl))

theorem execPairResync_keeps {gr : Group → Bool} {s : State} {ring idx : Nat} :
    ∀ s1, execPairResync ring idx s = .next s1 → Keeps gr s s1 := by
  intro s1 ht
  unfold execPairResync at ht
  obtain rfl := Host.Outcome.next.inj ht
  have hk := Keeps.refl gr s
  repeat' (first
    | (with_reducible assumption)
    | (with_reducible apply startCmd_keeps)
    | (with_reducible apply pairResync_keeps))

theorem resyncDone_keeps {gr : Group → Bool} {s0 : State} {s : State} (hk : Keeps gr s0 s) :
    Keeps gr s0 (resyncDone s) := by
  unfold resyncDone
  repeat' (first
    | (with_reducible assumption)
    | (with_reducible refine Keeps.ite (fun _ => ?_) (fun _ => ?_))
    | (with_reducible refine Keeps.ite_fst (fun _ => ?_) (fun _ => ?_))
    | (with_reducible refine Keeps.ite_snd (fun _ => ?_) (fun _ => ?_))
    | (simp only [Keeps.mk_iff]; with_reducible refine KeepsParts.same (t := _) ?_ (by rfl) rfl rfl rfl))

theorem syncAck_keeps {gr : Group → Bool} {s0 : State} {s : State} {t : TMsg} (hk : Keeps gr s0 s) :
    Keeps gr s0 (syncAck s t) := by
  unfold syncAck
  repeat' (first
    | (with_reducible assumption)
    | (with_reducible apply stage_keeps)
    | (with_reducible apply serveFirst_keeps)
    | (with_reducible apply resyncCheck_keeps)
    | (with_reducible refine Keeps.ite (fun _ => ?_) (fun _ => ?_))
    | (with_reducible refine Keeps.ite_fst (fun _ => ?_) (fun _ => ?_))
    | (with_reducible refine Keeps.ite_snd (fun _ => ?_) (fun _ => ?_))
    | (simp only [Keeps.mk_iff]; with_reducible refine KeepsParts.same (t := _) ?_ (by rfl) rfl rfl rfl)
    | dsimp only
    | split)

theorem lagAccept_keeps {gr : Group → Bool} {s0 : State} {s : State} {t : TMsg} (hk : Keeps gr s0 s) :
    Keeps gr s0 (lagAccept s t) := by
  unfold lagAccept
  repeat' (first
    | (with_reducible assumption)
    | (with_reducible apply drainSet_keeps)
    | (with_reducible apply resyncCheck_keeps)
    | (with_reducible refine Keeps.ite (fun _ => ?_) (fun _ => ?_))
    | (with_reducible refine Keeps.ite_fst (fun _ => ?_) (fun _ => ?_))
    | (with_reducible refine Keeps.ite_snd (fun _ => ?_) (fun _ => ?_))
    | (simp only [Keeps.mk_iff]; with_reducible refine KeepsParts.same (t := _) ?_ (by rfl) rfl rfl rfl)
    | dsimp only
    | split)

theorem lagApplied_keeps {gr : Group → Bool} {s0 : State} {s : State} {t : TMsg} (hk : Keeps gr s0 s) :
    Keeps gr s0 (lagApplied s t) := by
  unfold lagApplied
  repeat' (first
    | (with_reducible assumption)
    | (with_reducible apply clearLags_keeps)
    | (with_reducible refine Keeps.ite (fun _ => ?_) (fun _ => ?_))
    | (with_reducible refine Keeps.ite_fst (fun _ => ?_) (fun _ => ?_))
    | (with_reducible refine Keeps.ite_snd (fun _ => ?_) (fun _ => ?_))
    | (simp only [Keeps.mk_iff]; with_reducible refine KeepsParts.same (t := _) ?_ (by rfl) rfl rfl rfl))

theorem rollbackDone_keeps {gr : Group → Bool} {s0 : State} {s : State} {r : Repair} (hk : Keeps gr s0 s) :
    Keeps gr s0 (rollbackDone s r) := by
  unfold rollbackDone
  repeat' (first
    | (with_reducible assumption)
    | (with_reducible apply postEvent_keeps)
    | (with_reducible apply rollPump_keeps)
    | (with_reducible apply postError_keeps)
    | (with_reducible refine Keeps.ite (fun _ => ?_) (fun _ => ?_))
    | (with_reducible refine Keeps.ite_fst (fun _ => ?_) (fun _ => ?_))
    | (with_reducible refine Keeps.ite_snd (fun _ => ?_) (fun _ => ?_))
    | (simp only [Keeps.mk_iff]; with_reducible refine KeepsParts.same (t := _) ?_ (by rfl) rfl rfl rfl))

theorem restoreLine_keeps {gr : Group → Bool} {s0 : State} {s : State} {k : Nat} {d : LineData} (hk : Keeps gr s0 s) :
    Keeps gr s0 (restoreLine s k d) := by
  unfold restoreLine
  repeat' (first
    | (with_reducible assumption)
    | (with_reducible apply storeLine_keeps)
    | (with_reducible apply openDel_keeps))

theorem restoreCopy_keeps {gr : Group → Bool} {s0 : State} {s : State} {line : Nat} {d : LineData} (hk : Keeps gr s0 s) :
    Keeps gr s0 (restoreCopy s line d) := by
  unfold restoreCopy
  repeat' (first
    | (with_reducible assumption)
    | (with_reducible refine Keeps.ite (fun _ => ?_) (fun _ => ?_))
    | (with_reducible refine Keeps.ite_fst (fun _ => ?_) (fun _ => ?_))
    | (with_reducible refine Keeps.ite_snd (fun _ => ?_) (fun _ => ?_))
    | (simp only [Keeps.mk_iff]; with_reducible refine KeepsParts.same (t := _) ?_ (by rfl) rfl rfl rfl))

theorem repairData_keeps {gr : Group → Bool} {s0 : State} {s : State} {t : TMsg} (hk : Keeps gr s0 s) :
    Keeps gr s0 (repairData s t) := by
  unfold repairData
  repeat' (first
    | (with_reducible assumption)
    | (with_reducible apply postError_keeps)
    | (with_reducible apply restoreCopy_keeps)
    | (with_reducible apply lastFail_keeps)
    | (with_reducible apply restoreLine_keeps)
    | (with_reducible apply storeLine_keeps)
    | (with_reducible apply openDel_keeps)
    | (with_reducible apply lineDrop_keeps)
    | (with_reducible apply rollbackDone_keeps)
    | (with_reducible refine Keeps.ite (fun _ => ?_) (fun _ => ?_))
    | (with_reducible refine Keeps.ite_fst (fun _ => ?_) (fun _ => ?_))
    | (with_reducible refine Keeps.ite_snd (fun _ => ?_) (fun _ => ?_))
    | (simp only [Keeps.mk_iff]; with_reducible refine KeepsParts.same (t := _) ?_ (by rfl) rfl rfl rfl)
    | dsimp only
    | split)

theorem promoteLine_keeps {gr : Group → Bool} {s0 : State} {s : State} {i : Nat} {k : Nat} {x : Line} (hk : Keeps gr s0 s) :
    Keeps gr s0 (promoteLine s i k x) := by
  unfold promoteLine
  repeat' (first
    | (with_reducible assumption)
    | (with_reducible apply mirrorPut_keeps)
    | (with_reducible apply lastFail_keeps)
    | (with_reducible apply storeLine_keeps)
    | (with_reducible apply memWriteLine_keeps)
    | (with_reducible refine Keeps.ite (fun _ => ?_) (fun _ => ?_)))

theorem promoteLast_keeps {gr : Group → Bool} {s0 : State} {s : State} {i : Nat} {l : Last} (hk : Keeps gr s0 s) :
    Keeps gr s0 ((promoteLast s i l).1) := by
  unfold promoteLast
  repeat' (first
    | (with_reducible assumption)
    | (with_reducible apply lastPut_keeps)
    | (with_reducible apply storeLine_keeps)
    | (with_reducible apply promoteLine_keeps)
    | (with_reducible apply postEvent_keeps)
    | (with_reducible refine Keeps.ite (fun _ => ?_) (fun _ => ?_))
    | (with_reducible refine Keeps.ite_fst (fun _ => ?_) (fun _ => ?_))
    | (with_reducible refine Keeps.ite_snd (fun _ => ?_) (fun _ => ?_))
    | (with_reducible refine Keeps.foldl _ _ ?_ (fun t a hk => ?_))
    | (with_reducible refine Keeps.foldl_fst _ _ _ ?_ (fun x a hk => ?_))
    | (with_reducible refine Keeps.foldl_snd _ _ _ ?_ (fun x a hk => ?_))
    | dsimp only
    | split)

theorem unavailAdd_keeps {gr : Group → Bool} {s0 : State} {s : State} {us : Nat} (hk : Keeps gr s0 s) :
    Keeps gr s0 (unavailAdd s us) := by
  unfold unavailAdd
  repeat' (first
    | (with_reducible assumption)
    | (with_reducible apply evN_keeps)
    | (with_reducible refine Keeps.ite (fun _ => ?_) (fun _ => ?_))
    | (with_reducible refine Keeps.ite_fst (fun _ => ?_) (fun _ => ?_))
    | (with_reducible refine Keeps.ite_snd (fun _ => ?_) (fun _ => ?_))
    | (simp only [Keeps.mk_iff]; with_reducible refine KeepsParts.same (t := _) ?_ (by rfl) rfl rfl rfl))

theorem pairTakeover_keeps {gr : Group → Bool} {s0 : State} {defs : List (Nat × Last)} {s : State} {c : Cmd} (hk : Keeps gr s0 s) :
    Keeps gr s0 (pairTakeover defs s c) := by
  unfold pairTakeover
  repeat' (first
    | (with_reducible assumption)
    | (with_reducible apply refuseCmd_keeps)
    | (with_reducible apply stageFree_keeps)
    | (with_reducible apply stage_keeps)
    | (with_reducible apply promoteLast_keeps)
    | (with_reducible apply drawFree_keeps)
    | (with_reducible apply cmdEnd_keeps)
    | (with_reducible apply unavailAdd_keeps)
    | (with_reducible refine Keeps.ite (fun _ => ?_) (fun _ => ?_))
    | (with_reducible refine Keeps.ite_fst (fun _ => ?_) (fun _ => ?_))
    | (with_reducible refine Keeps.ite_snd (fun _ => ?_) (fun _ => ?_))
    | (simp only [Keeps.mk_iff]; with_reducible refine KeepsParts.same (t := _) ?_ (by rfl) rfl rfl rfl)
    | (with_reducible refine Keeps.of_fst (y := (_, _)) (x := promoteLast _ _ _) ?_ (by assumption))
    | (with_reducible refine Keeps.of_snd (y := (_, _)) (x := drawFree _) ?_ (by assumption))
    | (with_reducible refine Keeps.foldl _ _ ?_ (fun t a hk => ?_))
    | (with_reducible refine Keeps.foldl_fst _ _ _ ?_ (fun x a hk => ?_)))

theorem execPairTakeover_keeps {gr : Group → Bool} {s : State} {ring idx : Nat} {defs : List (Nat × Last)} :
    ∀ s1, execPairTakeover ring idx defs s = .next s1 → Keeps gr s s1 := by
  intro s1 ht
  unfold execPairTakeover at ht
  obtain rfl := Host.Outcome.next.inj ht
  have hk := Keeps.refl gr s
  repeat' (first
    | (with_reducible assumption)
    | (with_reducible apply startCmd_keeps)
    | (with_reducible apply pairTakeover_keeps))

theorem ttHandle_keeps {gr : Group → Bool} {s0 : State} {s : State} {t : TMsg} (hk : Keeps gr s0 s) :
    Keeps gr s0 (ttHandle s t) := by
  unfold ttHandle
  repeat' (first
    | (with_reducible assumption)
    | (with_reducible apply syncWr_keeps)
    | (with_reducible apply syncAck_keeps)
    | (with_reducible apply lagRec_keeps)
    | (with_reducible apply lagEnd_keeps)
    | (with_reducible apply lagAccept_keeps)
    | (with_reducible apply lagApplied_keeps)
    | (with_reducible apply dropMirror_keeps)
    | (with_reducible apply repairRd_keeps)
    | (with_reducible apply repairData_keeps)
    | (with_reducible apply planData_keeps)
    | (with_reducible apply resyncBegin_keeps)
    | (with_reducible apply resyncDone_keeps)
    | (with_reducible apply ev_keeps)
    | (with_reducible apply advance_keeps)
    | (with_reducible apply ttFlush_keeps)
    | (with_reducible apply creditOwe_keeps)
    | (with_reducible apply meter_keeps)
    | (with_reducible refine Keeps.ite (fun _ => ?_) (fun _ => ?_)))

theorem ttDeliver_keeps {gr : Group → Bool} {s0 : State} {s : State} {kind : Nat} {t : TMsg} (hk : Keeps gr s0 s) :
    Keeps gr s0 (ttDeliver s kind t) := by
  unfold ttDeliver
  repeat' (first
    | (with_reducible assumption)
    | (with_reducible apply ttHandle_keeps)
    | (with_reducible refine Keeps.ite (fun _ => ?_) (fun _ => ?_))
    | (with_reducible refine Keeps.ite_fst (fun _ => ?_) (fun _ => ?_))
    | (with_reducible refine Keeps.ite_snd (fun _ => ?_) (fun _ => ?_))
    | (simp only [Keeps.mk_iff]; with_reducible refine KeepsParts.same (t := _) ?_ (by rfl) rfl rfl rfl))

theorem execSyncWr_keeps {gr : Group → Bool} {s : State} {t : TMsg} :
    ∀ s1, execSyncWr t s = .next s1 → Keeps gr s s1 := by
  intro s1 ht
  unfold execSyncWr at ht
  obtain rfl := Host.Outcome.next.inj ht
  have hk := Keeps.refl gr s
  repeat' (first
    | (with_reducible assumption)
    | (with_reducible apply ttDeliver_keeps))

theorem execSyncAck_keeps {gr : Group → Bool} {s : State} {t : TMsg} :
    ∀ s1, execSyncAck t s = .next s1 → Keeps gr s s1 := by
  intro s1 ht
  unfold execSyncAck at ht
  obtain rfl := Host.Outcome.next.inj ht
  have hk := Keeps.refl gr s
  repeat' (first
    | (with_reducible assumption)
    | (with_reducible apply ttDeliver_keeps))

theorem execLagRec_keeps {gr : Group → Bool} {s : State} {t : TMsg} :
    ∀ s1, execLagRec t s = .next s1 → Keeps gr s s1 := by
  intro s1 ht
  unfold execLagRec at ht
  obtain rfl := Host.Outcome.next.inj ht
  have hk := Keeps.refl gr s
  repeat' (first
    | (with_reducible assumption)
    | (with_reducible apply ttDeliver_keeps))

theorem execLagEnd_keeps {gr : Group → Bool} {s : State} {t : TMsg} :
    ∀ s1, execLagEnd t s = .next s1 → Keeps gr s s1 := by
  intro s1 ht
  unfold execLagEnd at ht
  obtain rfl := Host.Outcome.next.inj ht
  have hk := Keeps.refl gr s
  repeat' (first
    | (with_reducible assumption)
    | (with_reducible apply ttDeliver_keeps))

theorem execLagAccept_keeps {gr : Group → Bool} {s : State} {t : TMsg} :
    ∀ s1, execLagAccept t s = .next s1 → Keeps gr s s1 := by
  intro s1 ht
  unfold execLagAccept at ht
  obtain rfl := Host.Outcome.next.inj ht
  have hk := Keeps.refl gr s
  repeat' (first
    | (with_reducible assumption)
    | (with_reducible apply ttDeliver_keeps))

theorem execLagApplied_keeps {gr : Group → Bool} {s : State} {t : TMsg} :
    ∀ s1, execLagApplied t s = .next s1 → Keeps gr s s1 := by
  intro s1 ht
  unfold execLagApplied at ht
  obtain rfl := Host.Outcome.next.inj ht
  have hk := Keeps.refl gr s
  repeat' (first
    | (with_reducible assumption)
    | (with_reducible apply ttDeliver_keeps))

theorem execDropMirror_keeps {gr : Group → Bool} {s : State} {t : TMsg} :
    ∀ s1, execDropMirror t s = .next s1 → Keeps gr s s1 := by
  intro s1 ht
  unfold execDropMirror at ht
  obtain rfl := Host.Outcome.next.inj ht
  have hk := Keeps.refl gr s
  repeat' (first
    | (with_reducible assumption)
    | (with_reducible apply ttDeliver_keeps))

theorem execRepairRd_keeps {gr : Group → Bool} {s : State} {t : TMsg} :
    ∀ s1, execRepairRd t s = .next s1 → Keeps gr s s1 := by
  intro s1 ht
  unfold execRepairRd at ht
  obtain rfl := Host.Outcome.next.inj ht
  have hk := Keeps.refl gr s
  repeat' (first
    | (with_reducible assumption)
    | (with_reducible apply ttDeliver_keeps))

theorem execRepairData_keeps {gr : Group → Bool} {s : State} {t : TMsg} :
    ∀ s1, execRepairData t s = .next s1 → Keeps gr s s1 := by
  intro s1 ht
  unfold execRepairData at ht
  obtain rfl := Host.Outcome.next.inj ht
  have hk := Keeps.refl gr s
  repeat' (first
    | (with_reducible assumption)
    | (with_reducible apply ttDeliver_keeps))

theorem execPlanData_keeps {gr : Group → Bool} {s : State} {t : TMsg} :
    ∀ s1, execPlanData t s = .next s1 → Keeps gr s s1 := by
  intro s1 ht
  unfold execPlanData at ht
  obtain rfl := Host.Outcome.next.inj ht
  have hk := Keeps.refl gr s
  repeat' (first
    | (with_reducible assumption)
    | (with_reducible apply ttDeliver_keeps))

theorem execResyncBegin_keeps {gr : Group → Bool} {s : State} {t : TMsg} :
    ∀ s1, execResyncBegin t s = .next s1 → Keeps gr s s1 := by
  intro s1 ht
  unfold execResyncBegin at ht
  obtain rfl := Host.Outcome.next.inj ht
  have hk := Keeps.refl gr s
  repeat' (first
    | (with_reducible assumption)
    | (with_reducible apply ttDeliver_keeps))

theorem execResyncDone_keeps {gr : Group → Bool} {s : State} {t : TMsg} :
    ∀ s1, execResyncDone t s = .next s1 → Keeps gr s s1 := by
  intro s1 ht
  unfold execResyncDone at ht
  obtain rfl := Host.Outcome.next.inj ht
  have hk := Keeps.refl gr s
  repeat' (first
    | (with_reducible assumption)
    | (with_reducible apply ttDeliver_keeps))

end Sys2Proof.Machine
end

