-- ==== Sys2Proof/Laws/KeepsTether.lean ====
section
/-! SUPPORT. What the operations of Machine/Tether.lean keep (Laws/Keeps.lean). -/

namespace Sys2Proof.Machine

open Sys2Proof

set_option Elab.async false

set_option linter.unusedSimpArgs false

theorem trainStart_keeps {gr : Group → Bool} {s0 : State} {s : State} (hk : Keeps gr s0 s) :
    Keeps gr s0 (trainStart s) := by
  unfold trainStart
  repeat' (first
    | (with_reducible assumption)
    | (with_reducible refine Keeps.ite (fun _ => ?_) (fun _ => ?_))
    | (with_reducible refine Keeps.ite_fst (fun _ => ?_) (fun _ => ?_))
    | (with_reducible refine Keeps.ite_snd (fun _ => ?_) (fun _ => ?_))
    | (simp only [Keeps.mk_iff]; with_reducible refine KeepsParts.same (t := _) ?_ (by rfl) rfl rfl rfl))

theorem retrainStart_keeps {gr : Group → Bool} {s0 : State} {s : State} (hk : Keeps gr s0 s) :
    Keeps gr s0 (retrainStart s) := by
  unfold retrainStart
  repeat' (first
    | (with_reducible assumption)
    | (with_reducible refine Keeps.ite (fun _ => ?_) (fun _ => ?_))
    | (with_reducible refine Keeps.ite_fst (fun _ => ?_) (fun _ => ?_))
    | (with_reducible refine Keeps.ite_snd (fun _ => ?_) (fun _ => ?_))
    | (simp only [Keeps.mk_iff]; with_reducible refine KeepsParts.same (t := _) ?_ (by rfl) rfl rfl rfl))

theorem linkDown_keeps {gr : Group → Bool} {s0 : State} {s : State} {link reason : Nat} (hk : Keeps gr s0 s) :
    Keeps gr s0 (linkDown s link reason) := by
  unfold linkDown
  repeat' (first
    | (with_reducible assumption)
    | (with_reducible apply ttDrop_keeps)
    | (with_reducible apply advance_keeps)
    | (with_reducible apply stageFree_keeps)
    | (with_reducible apply goSolo_keeps)
    | (with_reducible refine Keeps.ite (fun _ => ?_) (fun _ => ?_))
    | (with_reducible refine Keeps.ite_fst (fun _ => ?_) (fun _ => ?_))
    | (with_reducible refine Keeps.ite_snd (fun _ => ?_) (fun _ => ?_))
    | (simp only [Keeps.mk_iff]; with_reducible refine KeepsParts.same (t := _) ?_ (by rfl) rfl rfl rfl))

theorem linkUp_keeps {gr : Group → Bool} {s0 : State} {s : State} (hk : Keeps gr s0 s) :
    Keeps gr s0 (linkUp s) := by
  unfold linkUp
  repeat' (first
    | (with_reducible assumption)
    | (with_reducible apply resyncStart_keeps)
    | (with_reducible apply advance_keeps)
    | (with_reducible apply ttFlush_keeps)
    | (with_reducible refine Keeps.ite (fun _ => ?_) (fun _ => ?_))
    | (with_reducible refine Keeps.ite_fst (fun _ => ?_) (fun _ => ?_))
    | (with_reducible refine Keeps.ite_snd (fun _ => ?_) (fun _ => ?_))
    | (simp only [Keeps.mk_iff]; with_reducible refine KeepsParts.same (t := _) ?_ (by rfl) rfl rfl rfl))

theorem flitAck_keeps {gr : Group → Bool} {s0 : State} {s : State} {ack : Nat} (hk : Keeps gr s0 s) :
    Keeps gr s0 (flitAck s ack) := by
  unfold flitAck
  repeat' (first
    | (with_reducible assumption)
    | (with_reducible refine Keeps.ite (fun _ => ?_) (fun _ => ?_))
    | (with_reducible refine Keeps.ite_fst (fun _ => ?_) (fun _ => ?_))
    | (with_reducible refine Keeps.ite_snd (fun _ => ?_) (fun _ => ?_))
    | (simp only [Keeps.mk_iff]; with_reducible refine KeepsParts.same (t := _) ?_ (by rfl) rfl rfl rfl))

theorem flitResend_keeps {gr : Group → Bool} {s0 : State} {s : State} (hk : Keeps gr s0 s) :
    Keeps gr s0 (flitResend s) := by
  unfold flitResend
  repeat' (first
    | (with_reducible assumption)
    | (with_reducible apply dataSend_keeps)
    | (with_reducible refine Keeps.ite (fun _ => ?_) (fun _ => ?_))
    | (with_reducible refine Keeps.ite_fst (fun _ => ?_) (fun _ => ?_))
    | (with_reducible refine Keeps.ite_snd (fun _ => ?_) (fun _ => ?_))
    | (with_reducible refine Keeps.foldl _ _ ?_ (fun t a hk => ?_)))

theorem flitNak_keeps {gr : Group → Bool} {s0 : State} {s : State} (hk : Keeps gr s0 s) :
    Keeps gr s0 (flitNak s) := by
  unfold flitNak
  repeat' (first
    | (with_reducible assumption)
    | (with_reducible apply ev_keeps)
    | (with_reducible apply chargeHold_keeps)
    | (with_reducible apply flitResend_keeps)
    | (with_reducible apply retrainStart_keeps)
    | (with_reducible refine Keeps.ite (fun _ => ?_) (fun _ => ?_))
    | (with_reducible refine Keeps.ite_fst (fun _ => ?_) (fun _ => ?_))
    | (with_reducible refine Keeps.ite_snd (fun _ => ?_) (fun _ => ?_))
    | (simp only [Keeps.mk_iff]; with_reducible refine KeepsParts.same (t := _) ?_ (by rfl) rfl rfl rfl)
    | (with_reducible refine Keeps.foldl _ _ ?_ (fun t a hk => ?_)))

theorem rxChunk_keeps {gr : Group → Bool} {s0 : State} {s : State} {start : Bool} {chunk : Bytes} (hk : Keeps gr s0 s) :
    Keeps gr s0 (rxChunk s start chunk) := by
  unfold rxChunk
  repeat' (first
    | (with_reducible assumption)
    | (with_reducible apply advance_keeps)
    | (with_reducible apply ttFlush_keeps)
    | (with_reducible apply creditOwe_keeps)
    | (with_reducible apply ev_keeps)
    | (with_reducible apply ttHandle_keeps)
    | (with_reducible refine Keeps.ite (fun _ => ?_) (fun _ => ?_))
    | (with_reducible refine Keeps.ite_fst (fun _ => ?_) (fun _ => ?_))
    | (with_reducible refine Keeps.ite_snd (fun _ => ?_) (fun _ => ?_))
    | (simp only [Keeps.mk_iff]; with_reducible refine KeepsParts.same (t := _) ?_ (by rfl) rfl rfl rfl))

theorem nakSend_keeps {gr : Group → Bool} {s0 : State} {s : State} (hk : Keeps gr s0 s) :
    Keeps gr s0 (nakSend s) := by
  unfold nakSend
  repeat' (first
    | (with_reducible assumption)
    | (with_reducible apply nullFlit_keeps)
    | (with_reducible refine Keeps.ite (fun _ => ?_) (fun _ => ?_))
    | (with_reducible refine Keeps.ite_fst (fun _ => ?_) (fun _ => ?_))
    | (with_reducible refine Keeps.ite_snd (fun _ => ?_) (fun _ => ?_))
    | (simp only [Keeps.mk_iff]; with_reducible refine KeepsParts.same (t := _) ?_ (by rfl) rfl rfl rfl))

theorem dataFlit_keeps {gr : Group → Bool} {s0 : State} {s : State} {b : Bytes} (hk : Keeps gr s0 s) :
    Keeps gr s0 (dataFlit s b) := by
  unfold dataFlit
  repeat' (first
    | (with_reducible assumption)
    | (with_reducible apply rxChunk_keeps)
    | (with_reducible apply nullFlit_keeps)
    | (with_reducible apply nakSend_keeps)
    | (with_reducible refine Keeps.ite (fun _ => ?_) (fun _ => ?_))
    | (with_reducible refine Keeps.ite_fst (fun _ => ?_) (fun _ => ?_))
    | (with_reducible refine Keeps.ite_snd (fun _ => ?_) (fun _ => ?_))
    | (simp only [Keeps.mk_iff]; with_reducible refine KeepsParts.same (t := _) ?_ (by rfl) rfl rfl rfl)
    | (with_reducible refine Keeps.foldl _ _ ?_ (fun t a hk => ?_)))

theorem flitUse_keeps {gr : Group → Bool} {s0 : State} {s : State} {b : Bytes} (hk : Keeps gr s0 s) :
    Keeps gr s0 (flitUse s b) := by
  unfold flitUse
  repeat' (first
    | (with_reducible assumption)
    | (with_reducible apply activity_keeps)
    | (with_reducible refine Keeps.ite (fun _ => ?_) (fun _ => ?_))
    | (with_reducible refine Keeps.ite_fst (fun _ => ?_) (fun _ => ?_))
    | (with_reducible refine Keeps.ite_snd (fun _ => ?_) (fun _ => ?_))
    | dsimp only
    | split)

theorem flitReceived_keeps {gr : Group → Bool} {s0 : State} {s : State} {b : Bytes} (hk : Keeps gr s0 s) :
    Keeps gr s0 (flitReceived s b) := by
  unfold flitReceived
  repeat' (first
    | (with_reducible assumption)
    | (with_reducible apply flitUse_keeps)
    | (with_reducible apply nakSend_keeps)
    | (with_reducible apply flitAck_keeps)
    | (with_reducible apply flitNak_keeps)
    | (with_reducible apply dataFlit_keeps)
    | (with_reducible apply advance_keeps)
    | (with_reducible apply ttFlush_keeps)
    | (with_reducible refine Keeps.ite (fun _ => ?_) (fun _ => ?_))
    | (with_reducible refine Keeps.ite_fst (fun _ => ?_) (fun _ => ?_))
    | (with_reducible refine Keeps.ite_snd (fun _ => ?_) (fun _ => ?_))
    | (simp only [Keeps.mk_iff]; with_reducible refine KeepsParts.same (t := _) ?_ (by rfl) rfl rfl rfl))

theorem execLaneLockLoss_keeps {gr : Group → Bool} {s : State} {lane : Nat} :
    ∀ s1, execLaneLockLoss lane s = .next s1 → Keeps gr s s1 := by
  intro s1 ht
  unfold execLaneLockLoss at ht
  obtain rfl := Host.Outcome.next.inj ht
  have hk := Keeps.refl gr s
  repeat' (first
    | (with_reducible assumption)
    | (with_reducible apply retrainStart_keeps)
    | (with_reducible refine Keeps.ite (fun _ => ?_) (fun _ => ?_)))

theorem laneDrop_keeps {gr : Group → Bool} {s0 : State} {s : State} {dropRx dropTx : Nat} (hk : Keeps gr s0 s) :
    Keeps gr s0 (laneDrop s dropRx dropTx) := by
  unfold laneDrop
  repeat' (first
    | (with_reducible assumption)
    | (with_reducible apply evN_keeps)
    | (with_reducible apply csrSet_keeps)
    | (with_reducible apply ledAdd_keeps)
    | (with_reducible apply postEvent_keeps)
    | exact .inr (by decide)
    | (with_reducible refine Keeps.ite (fun _ => ?_) (fun _ => ?_))
    | (with_reducible refine Keeps.ite_fst (fun _ => ?_) (fun _ => ?_))
    | (with_reducible refine Keeps.ite_snd (fun _ => ?_) (fun _ => ?_))
    | (with_reducible refine Keeps.foldl _ _ ?_ (fun t a hk => ?_)))

theorem testPassed_keeps {gr : Group → Bool} {s0 : State} {s : State} {rx tx : Nat} {rev : Bool} (hk : Keeps gr s0 s) :
    Keeps gr s0 (testPassed s rx tx rev) := by
  unfold testPassed
  repeat' (first
    | (with_reducible assumption)
    | (with_reducible apply laneDrop_keeps)
    | (with_reducible apply drive_keeps)
    | (with_reducible apply advance_keeps)
    | (with_reducible apply ttFlush_keeps)
    | (with_reducible apply flitResend_keeps)
    | (with_reducible refine Keeps.ite (fun _ => ?_) (fun _ => ?_))
    | (with_reducible refine Keeps.ite_fst (fun _ => ?_) (fun _ => ?_))
    | (with_reducible refine Keeps.ite_snd (fun _ => ?_) (fun _ => ?_))
    | (simp only [Keeps.mk_iff]; with_reducible refine KeepsParts.same (t := _) ?_ (by rfl) rfl rfl rfl))

theorem testStart_keeps {gr : Group → Bool} {s0 : State} {s : State} (hk : Keeps gr s0 s) :
    Keeps gr s0 (testStart s) := by
  unfold testStart
  repeat' (first
    | (with_reducible assumption)
    | (with_reducible apply drive_keeps)
    | (with_reducible refine Keeps.ite (fun _ => ?_) (fun _ => ?_))
    | (with_reducible refine Keeps.ite_fst (fun _ => ?_) (fun _ => ?_))
    | (with_reducible refine Keeps.ite_snd (fun _ => ?_) (fun _ => ?_))
    | (simp only [Keeps.mk_iff]; with_reducible refine KeepsParts.same (t := _) ?_ (by rfl) rfl rfl rfl))

theorem phaseDone_keeps {gr : Group → Bool} {s0 : State} {s : State} {ok : Bool} {lanes : List Nat} (hk : Keeps gr s0 s) :
    Keeps gr s0 (phaseDone s ok lanes) := by
  unfold phaseDone
  repeat' (first
    | (with_reducible assumption)
    | (with_reducible apply linkDown_keeps)
    | (with_reducible apply testStart_keeps)
    | (with_reducible apply testPassed_keeps)
    | (with_reducible refine Keeps.ite (fun _ => ?_) (fun _ => ?_))
    | (with_reducible refine Keeps.ite_fst (fun _ => ?_) (fun _ => ?_))
    | (with_reducible refine Keeps.ite_snd (fun _ => ?_) (fun _ => ?_))
    | (simp only [Keeps.mk_iff]; with_reducible refine KeepsParts.same (t := _) ?_ (by rfl) rfl rfl rfl))

theorem execTrainingPhaseDone_keeps {gr : Group → Bool} {s : State} {ok : Bool} {lanes : List Nat} :
    ∀ s1, execTrainingPhaseDone ok lanes s = .next s1 → Keeps gr s s1 := by
  intro s1 ht
  unfold execTrainingPhaseDone at ht
  obtain rfl := Host.Outcome.next.inj ht
  have hk := Keeps.refl gr s
  repeat' (first
    | (with_reducible assumption)
    | (with_reducible apply phaseDone_keeps)
    | (with_reducible refine Keeps.ite (fun _ => ?_) (fun _ => ?_)))

theorem pairRefuse_keeps {gr : Group → Bool} {s0 : State} {s : State} {verdict : Nat} {b : Bytes} (hk : Keeps gr s0 s) :
    Keeps gr s0 (pairRefuse s verdict b) := by
  unfold pairRefuse
  repeat' (first
    | (with_reducible assumption)
    | (with_reducible apply linkDown_keeps)
    | (with_reducible apply postEvent_keeps)
    | (with_reducible refine Keeps.ite (fun _ => ?_) (fun _ => ?_))
    | (with_reducible refine Keeps.ite_fst (fun _ => ?_) (fun _ => ?_))
    | (with_reducible refine Keeps.ite_snd (fun _ => ?_) (fun _ => ?_))
    | (simp only [Keeps.mk_iff]; with_reducible refine KeepsParts.same (t := _) ?_ (by rfl) rfl rfl rfl))

theorem agree_keeps {gr : Group → Bool} {s0 : State} {s : State} {b : Bytes} (hk : Keeps gr s0 s) :
    Keeps gr s0 (agree s b) := by
  unfold agree
  repeat' (first
    | (with_reducible assumption)
    | (with_reducible apply linkUp_keeps)
    | (with_reducible refine Keeps.ite (fun _ => ?_) (fun _ => ?_))
    | (with_reducible refine Keeps.ite_fst (fun _ => ?_) (fun _ => ?_))
    | (with_reducible refine Keeps.ite_snd (fun _ => ?_) (fun _ => ?_))
    | (simp only [Keeps.mk_iff]; with_reducible refine KeepsParts.same (t := _) ?_ (by rfl) rfl rfl rfl))

theorem negotiation_keeps {gr : Group → Bool} {s0 : State} {s : State} {b : Bytes} (hk : Keeps gr s0 s) :
    Keeps gr s0 (negotiation s b) := by
  unfold negotiation
  repeat' (first
    | (with_reducible assumption)
    | (with_reducible apply drive_keeps)
    | (with_reducible apply agree_keeps)
    | (with_reducible apply pairRefuse_keeps)
    | (with_reducible refine Keeps.ite (fun _ => ?_) (fun _ => ?_))
    | (with_reducible refine Keeps.ite_fst (fun _ => ?_) (fun _ => ?_))
    | (with_reducible refine Keeps.ite_snd (fun _ => ?_) (fun _ => ?_))
    | (simp only [Keeps.mk_iff]; with_reducible refine KeepsParts.same (t := _) ?_ (by rfl) rfl rfl rfl)
    | dsimp only
    | split)

theorem negotiationIn_keeps {gr : Group → Bool} {s0 : State} {bytes : Bytes} {s : State} (hk : Keeps gr s0 s) :
    Keeps gr s0 (negotiationIn bytes s) := by
  unfold negotiationIn
  repeat' (first
    | (with_reducible assumption)
    | (with_reducible apply negotiation_keeps)
    | (with_reducible refine Keeps.ite (fun _ => ?_) (fun _ => ?_))
    | (with_reducible refine Keeps.ite_fst (fun _ => ?_) (fun _ => ?_))
    | (with_reducible refine Keeps.ite_snd (fun _ => ?_) (fun _ => ?_))
    | (simp only [Keeps.mk_iff]; with_reducible refine KeepsParts.same (t := _) ?_ (by rfl) rfl rfl rfl))

theorem execNegotiationFrame_keeps {gr : Group → Bool} {s : State} {bytes : Bytes} :
    ∀ s1, execNegotiationFrame bytes s = .next s1 → Keeps gr s s1 := by
  intro s1 ht
  unfold execNegotiationFrame at ht
  obtain rfl := Host.Outcome.next.inj ht
  have hk := Keeps.refl gr s
  repeat' (first
    | (with_reducible assumption)
    | (with_reducible apply negotiationIn_keeps))

theorem execFlitReceived_keeps {gr : Group → Bool} {s : State} {bytes : Bytes} :
    ∀ s1, execFlitReceived bytes s = .next s1 → Keeps gr s s1 := by
  intro s1 ht
  unfold execFlitReceived at ht
  obtain rfl := Host.Outcome.next.inj ht
  have hk := Keeps.refl gr s
  repeat' (first
    | (with_reducible assumption)
    | (with_reducible apply negotiationIn_keeps)
    | (with_reducible apply flitReceived_keeps)
    | (with_reducible refine Keeps.ite (fun _ => ?_) (fun _ => ?_))
    | (with_reducible refine Keeps.ite_fst (fun _ => ?_) (fun _ => ?_))
    | (with_reducible refine Keeps.ite_snd (fun _ => ?_) (fun _ => ?_))
    | (simp only [Keeps.mk_iff]; with_reducible refine KeepsParts.same (t := _) ?_ (by rfl) rfl rfl rfl)
    | dsimp only
    | split)

theorem execRetrainTimeout_keeps {gr : Group → Bool} {s : State}  :
    ∀ s1, execRetrainTimeout s = .next s1 → Keeps gr s s1 := by
  intro s1 ht
  unfold execRetrainTimeout at ht
  obtain rfl := Host.Outcome.next.inj ht
  have hk := Keeps.refl gr s
  repeat' (first
    | (with_reducible assumption)
    | (with_reducible apply linkDown_keeps)
    | (with_reducible refine Keeps.ite (fun _ => ?_) (fun _ => ?_)))

theorem execLinkDownRetry_keeps {gr : Group → Bool} {s : State}  :
    ∀ s1, execLinkDownRetry s = .next s1 → Keeps gr s s1 := by
  intro s1 ht
  unfold execLinkDownRetry at ht
  obtain rfl := Host.Outcome.next.inj ht
  have hk := Keeps.refl gr s
  repeat' (first
    | (with_reducible assumption)
    | (with_reducible apply trainStart_keeps)
    | (with_reducible refine Keeps.ite (fun _ => ?_) (fun _ => ?_)))

theorem linkEnable_keeps {gr : Group → Bool} {s0 : State} {s : State} {on : Bool} (hk : Keeps gr s0 s) :
    Keeps gr s0 (linkEnable s on) := by
  unfold linkEnable
  repeat' (first
    | (with_reducible assumption)
    | (with_reducible apply trainStart_keeps)
    | (with_reducible apply linkDown_keeps)
    | (with_reducible refine Keeps.ite (fun _ => ?_) (fun _ => ?_)))

theorem retrainWrite_keeps {gr : Group → Bool} {s0 : State} {s : State} (hk : Keeps gr s0 s) :
    Keeps gr s0 (retrainWrite s) := by
  unfold retrainWrite
  repeat' (first
    | (with_reducible assumption)
    | (with_reducible apply retrainStart_keeps)
    | (with_reducible apply trainStart_keeps)
    | (with_reducible refine Keeps.ite (fun _ => ?_) (fun _ => ?_)))

end Sys2Proof.Machine
end

