-- ==== Sys2Proof/Laws/KeepsCsr.lean ====
section
/-! SUPPORT. What the operations of Machine/Csr.lean keep (Laws/Keeps.lean). -/

namespace Sys2Proof.Machine

open Sys2Proof

set_option Elab.async false

set_option linter.unusedSimpArgs false

theorem Keeps.ite_wr {gr : Group → Bool} {s : State} {x y : WrRes} {c : Prop} [Decidable c] (ha : c → Keeps gr s x.s)
    (hb : ¬c → Keeps gr s y.s) : Keeps gr s (if c then x else y : WrRes).s := by
  split
  · exact ha ‹_›
  · exact hb ‹_›

theorem Keeps.ite_acc {gr : Group → Bool} {s : State} {x y : AccRes} {c : Prop} [Decidable c] (ha : c → Keeps gr s x.s)
    (hb : ¬c → Keeps gr s y.s) : Keeps gr s (if c then x else y : AccRes).s := by
  split
  · exact ha ‹_›
  · exact hb ‹_›

theorem csrLatch_keeps {gr : Group → Bool} {s0 : State} {s : State} {cause : Nat} {hdr : Bool} {off : Nat} {write : Bool} {src : Nat} (hk : Keeps gr s0 s) :
    Keeps gr s0 (csrLatch s cause hdr off write src) := by
  unfold csrLatch
  repeat' (first
    | (with_reducible assumption)
    | (with_reducible apply logWrite_keeps)
    | (with_reducible refine Keeps.ite (fun _ => ?_) (fun _ => ?_))
    | (with_reducible refine Keeps.ite_fst (fun _ => ?_) (fun _ => ?_))
    | (with_reducible refine Keeps.ite_snd (fun _ => ?_) (fun _ => ?_))
    | (simp only [Keeps.mk_iff]; with_reducible refine KeepsParts.same (t := _) ?_ (by rfl) rfl rfl rfl))

theorem storeBits_keeps {gr : Group → Bool} {s0 : State} {s : State} {off v : Nat} (hk : Keeps gr s0 s) (hbRegs : gr .regs = false) :
    Keeps gr s0 (storeBits s off v) := by
  unfold storeBits
  repeat' (first
    | (with_reducible assumption)
    | (with_reducible apply csrPut_keeps)
    | exact .inr (by decide)
    | exact .inl (by assumption))

theorem ignoreWrite_keeps {gr : Group → Bool} {s0 : State} {s : State} (hk : Keeps gr s0 s) :
    Keeps gr s0 ((ignoreWrite s).s) := by
  unfold ignoreWrite
  repeat' (first
    | (with_reducible assumption))

theorem retentionWrite_keeps {gr : Group → Bool} {s0 : State} {s : State} (hk : Keeps gr s0 s) :
    Keeps gr s0 ((retentionWrite s).s) := by
  unfold retentionWrite
  repeat' (first
    | (with_reducible assumption))

theorem plainWrite_keeps {gr : Group → Bool} {s0 : State} {s : State} {r : RegRow} {off v : Nat} (hk : Keeps gr s0 s) (hbRegs : gr .regs = false) :
    Keeps gr s0 ((plainWrite s r off v).s) := by
  unfold plainWrite
  repeat' (first
    | (with_reducible assumption)
    | (with_reducible apply storeBits_keeps))

theorem writeStripe_keeps {gr : Group → Bool} {s0 : State} {s : State} {r : RegRow} {v : Nat} (hk : Keeps gr s0 s) (hbRegs : gr .regs = false) :
    Keeps gr s0 ((writeStripe s r v).s) := by
  unfold writeStripe
  repeat' (first
    | (with_reducible assumption)
    | (with_reducible apply ignoreWrite_keeps)
    | (with_reducible apply plainWrite_keeps)
    | (with_reducible refine Keeps.ite (fun _ => ?_) (fun _ => ?_))
    | (with_reducible refine Keeps.ite_fst (fun _ => ?_) (fun _ => ?_))
    | (with_reducible refine Keeps.ite_snd (fun _ => ?_) (fun _ => ?_))
    | (with_reducible refine Keeps.ite_wr (fun _ => ?_) (fun _ => ?_)))

theorem writePin_keeps {gr : Group → Bool} {s0 : State} {s : State} {r : RegRow} {v : Nat} (hk : Keeps gr s0 s) (hbRegs : gr .regs = false) :
    Keeps gr s0 ((writePin s r v).s) := by
  unfold writePin
  repeat' (first
    | (with_reducible assumption)
    | (with_reducible apply ignoreWrite_keeps)
    | (with_reducible apply retentionWrite_keeps)
    | (with_reducible apply plainWrite_keeps)
    | (with_reducible refine Keeps.ite (fun _ => ?_) (fun _ => ?_))
    | (with_reducible refine Keeps.ite_fst (fun _ => ?_) (fun _ => ?_))
    | (with_reducible refine Keeps.ite_snd (fun _ => ?_) (fun _ => ?_))
    | (with_reducible refine Keeps.ite_wr (fun _ => ?_) (fun _ => ?_))
    | (simp only [Keeps.mk_iff]; with_reducible refine KeepsParts.same (t := _) ?_ (by rfl) rfl rfl rfl))

theorem writeMirror_keeps {gr : Group → Bool} {s0 : State} {s : State} {r : RegRow} {v : Nat} (hk : Keeps gr s0 s) (hbRegs : gr .regs = false) :
    Keeps gr s0 ((writeMirror s r v).s) := by
  unfold writeMirror
  repeat' (first
    | (with_reducible assumption)
    | (with_reducible apply ignoreWrite_keeps)
    | (with_reducible apply retentionWrite_keeps)
    | (with_reducible apply plainWrite_keeps)
    | (with_reducible refine Keeps.ite (fun _ => ?_) (fun _ => ?_))
    | (with_reducible refine Keeps.ite_fst (fun _ => ?_) (fun _ => ?_))
    | (with_reducible refine Keeps.ite_snd (fun _ => ?_) (fun _ => ?_))
    | (with_reducible refine Keeps.ite_wr (fun _ => ?_) (fun _ => ?_)))

theorem writeDefault_keeps {gr : Group → Bool} {s0 : State} {s : State} {r : RegRow} {v : Nat} (hk : Keeps gr s0 s) (hbRegs : gr .regs = false) :
    Keeps gr s0 ((writeDefault s r v).s) := by
  unfold writeDefault
  repeat' (first
    | (with_reducible assumption)
    | (with_reducible apply ignoreWrite_keeps)
    | (with_reducible apply plainWrite_keeps)
    | (with_reducible apply mergeDrainWhere_keeps)
    | (with_reducible refine Keeps.ite (fun _ => ?_) (fun _ => ?_))
    | (with_reducible refine Keeps.ite_fst (fun _ => ?_) (fun _ => ?_))
    | (with_reducible refine Keeps.ite_snd (fun _ => ?_) (fun _ => ?_))
    | (with_reducible refine Keeps.ite_wr (fun _ => ?_) (fun _ => ?_)))

theorem biasInitStart_keeps {gr : Group → Bool} {s0 : State} {s : State} (hk : Keeps gr s0 s) :
    Keeps gr s0 (biasInitStart s) := by
  unfold biasInitStart
  repeat' (first
    | (with_reducible assumption)
    | (with_reducible apply memWrite_keeps)
    | (with_reducible refine Keeps.ite (fun _ => ?_) (fun _ => ?_))
    | (with_reducible refine Keeps.ite_fst (fun _ => ?_) (fun _ => ?_))
    | (with_reducible refine Keeps.ite_snd (fun _ => ?_) (fun _ => ?_))
    | (simp only [Keeps.mk_iff]; with_reducible refine KeepsParts.same (t := _) ?_ (by rfl) rfl rfl rfl)
    | (with_reducible refine Keeps.foldl _ _ ?_ (fun t a hk => ?_)))

theorem writeBias_keeps {gr : Group → Bool} {s0 : State} {s : State} {r : RegRow} {v : Nat} (hk : Keeps gr s0 s) (hbRegs : gr .regs = false) :
    Keeps gr s0 ((writeBias s r v).s) := by
  unfold writeBias
  repeat' (first
    | (with_reducible assumption)
    | (with_reducible apply ignoreWrite_keeps)
    | (with_reducible apply retentionWrite_keeps)
    | (with_reducible apply plainWrite_keeps)
    | (with_reducible apply biasInitStart_keeps)
    | (with_reducible refine Keeps.ite (fun _ => ?_) (fun _ => ?_))
    | (with_reducible refine Keeps.ite_fst (fun _ => ?_) (fun _ => ?_))
    | (with_reducible refine Keeps.ite_snd (fun _ => ?_) (fun _ => ?_))
    | (with_reducible refine Keeps.ite_wr (fun _ => ?_) (fun _ => ?_)))

theorem ringStart_keeps {gr : Group → Bool} {s0 : State} {s : State} {n : Nat} (hk : Keeps gr s0 s) :
    Keeps gr s0 (ringStart s n) := by
  unfold ringStart
  repeat' (first
    | (with_reducible assumption)
    | (with_reducible apply ringPut_keeps)
    | (with_reducible apply watchIssue_keeps)
    | (with_reducible refine Keeps.ite (fun _ => ?_) (fun _ => ?_)))

theorem ringStop_keeps {gr : Group → Bool} {s0 : State} {s : State} {n : Nat} (hk : Keeps gr s0 s) :
    Keeps gr s0 (ringStop s n) := by
  unfold ringStop
  repeat' (first
    | (with_reducible assumption)
    | (with_reducible apply ringPut_keeps))

theorem writeRingCtl_keeps {gr : Group → Bool} {s0 : State} {s : State} {r : RegRow} {n v : Nat} (hk : Keeps gr s0 s) (hbRegs : gr .regs = false) :
    Keeps gr s0 ((writeRingCtl s r n v).s) := by
  unfold writeRingCtl
  repeat' (first
    | (with_reducible assumption)
    | (with_reducible apply ignoreWrite_keeps)
    | (with_reducible apply ev_keeps)
    | (with_reducible apply retentionWrite_keeps)
    | (with_reducible apply plainWrite_keeps)
    | (with_reducible apply ringStart_keeps)
    | (with_reducible apply ringStop_keeps)
    | (with_reducible refine Keeps.ite (fun _ => ?_) (fun _ => ?_))
    | (with_reducible refine Keeps.ite_fst (fun _ => ?_) (fun _ => ?_))
    | (with_reducible refine Keeps.ite_snd (fun _ => ?_) (fun _ => ?_))
    | (with_reducible refine Keeps.ite_wr (fun _ => ?_) (fun _ => ?_)))

theorem writeEvCtl_keeps {gr : Group → Bool} {s0 : State} {s : State} {r : RegRow} {n v : Nat} (hk : Keeps gr s0 s) (hbRegs : gr .regs = false) :
    Keeps gr s0 ((writeEvCtl s r n v).s) := by
  unfold writeEvCtl
  repeat' (first
    | (with_reducible assumption)
    | (with_reducible apply retentionWrite_keeps)
    | (with_reducible apply plainWrite_keeps)
    | (with_reducible refine Keeps.ite (fun _ => ?_) (fun _ => ?_))
    | (with_reducible refine Keeps.ite_fst (fun _ => ?_) (fun _ => ?_))
    | (with_reducible refine Keeps.ite_snd (fun _ => ?_) (fun _ => ?_))
    | (with_reducible refine Keeps.ite_wr (fun _ => ?_) (fun _ => ?_))
    | (simp only [Keeps.mk_iff]; with_reducible refine KeepsParts.same (t := _) ?_ (by rfl) rfl rfl rfl))

theorem writeLogCtl_keeps {gr : Group → Bool} {s0 : State} {s : State} {r : RegRow} {n v : Nat} (hk : Keeps gr s0 s) (hbRegs : gr .regs = false) :
    Keeps gr s0 ((writeLogCtl s r n v).s) := by
  unfold writeLogCtl
  repeat' (first
    | (with_reducible assumption)
    | (with_reducible apply retentionWrite_keeps)
    | (with_reducible apply plainWrite_keeps)
    | (with_reducible apply logPut_keeps)
    | (with_reducible refine Keeps.ite (fun _ => ?_) (fun _ => ?_))
    | (with_reducible refine Keeps.ite_fst (fun _ => ?_) (fun _ => ?_))
    | (with_reducible refine Keeps.ite_snd (fun _ => ?_) (fun _ => ?_))
    | (with_reducible refine Keeps.ite_wr (fun _ => ?_) (fun _ => ?_)))

theorem writeIrqCtl_keeps {gr : Group → Bool} {s0 : State} {s : State} {r : RegRow} {n v : Nat} (hk : Keeps gr s0 s) (hbRegs : gr .regs = false) :
    Keeps gr s0 ((writeIrqCtl s r n v).s) := by
  unfold writeIrqCtl
  repeat' (first
    | (with_reducible assumption)
    | (with_reducible apply plainWrite_keeps)
    | (with_reducible apply irqRaise_keeps)
    | (with_reducible refine Keeps.ite (fun _ => ?_) (fun _ => ?_)))

theorem writeTth_keeps {gr : Group → Bool} {s0 : State} {s : State} {r : RegRow} {v : Nat} (hk : Keeps gr s0 s) (hbRegs : gr .regs = false) :
    Keeps gr s0 ((writeTth s r v).s) := by
  unfold writeTth
  repeat' (first
    | (with_reducible assumption)
    | (with_reducible apply retentionWrite_keeps)
    | (with_reducible apply plainWrite_keeps)
    | (with_reducible apply linkEnable_keeps)
    | (with_reducible apply retrainWrite_keeps)
    | (with_reducible refine Keeps.ite (fun _ => ?_) (fun _ => ?_))
    | (with_reducible refine Keeps.ite_fst (fun _ => ?_) (fun _ => ?_))
    | (with_reducible refine Keeps.ite_snd (fun _ => ?_) (fun _ => ?_))
    | (with_reducible refine Keeps.ite_wr (fun _ => ?_) (fun _ => ?_)))

theorem writePps_keeps {gr : Group → Bool} {s0 : State} {s : State} {r : RegRow} {v : Nat} (hk : Keeps gr s0 s) (hbTime : gr .time = false) (hbRegs : gr .regs = false) :
    Keeps gr s0 ((writePps s r v).s) := by
  unfold writePps
  repeat' (first
    | (with_reducible assumption)
    | (with_reducible apply plainWrite_keeps)
    | (with_reducible refine Keeps.ite (fun _ => ?_) (fun _ => ?_))
    | (with_reducible refine Keeps.ite_fst (fun _ => ?_) (fun _ => ?_))
    | (with_reducible refine Keeps.ite_snd (fun _ => ?_) (fun _ => ?_))
    | (with_reducible refine Keeps.ite_wr (fun _ => ?_) (fun _ => ?_))
    | (simp only [Keeps.mk_iff]; refine KeepsParts.freed (t := _) ?_))

theorem writeSec_keeps {gr : Group → Bool} {s0 : State} {s : State} {r : RegRow} {v : Nat} (hk : Keeps gr s0 s) (hbRegs : gr .regs = false) :
    Keeps gr s0 ((writeSec s r v).s) := by
  unfold writeSec
  repeat' (first
    | (with_reducible assumption)
    | (with_reducible apply plainWrite_keeps)
    | (with_reducible refine Keeps.ite (fun _ => ?_) (fun _ => ?_))
    | (with_reducible refine Keeps.ite_fst (fun _ => ?_) (fun _ => ?_))
    | (with_reducible refine Keeps.ite_snd (fun _ => ?_) (fun _ => ?_))
    | (with_reducible refine Keeps.ite_wr (fun _ => ?_) (fun _ => ?_))
    | (simp only [Keeps.mk_iff]; with_reducible refine KeepsParts.same (t := _) ?_ (by rfl) rfl rfl rfl))

theorem writeKey_keeps {gr : Group → Bool} {s0 : State} {s : State} {k v : Nat} (hk : Keeps gr s0 s) (hbKey : gr .key = false) :
    Keeps gr s0 ((writeKey s k v).s) := by
  unfold writeKey
  repeat' (first
    | (with_reducible assumption)
    | (with_reducible refine Keeps.ite (fun _ => ?_) (fun _ => ?_))
    | (with_reducible refine Keeps.ite_fst (fun _ => ?_) (fun _ => ?_))
    | (with_reducible refine Keeps.ite_snd (fun _ => ?_) (fun _ => ?_))
    | (with_reducible refine Keeps.ite_wr (fun _ => ?_) (fun _ => ?_))
    | (simp only [Keeps.mk_iff]; refine KeepsParts.freed (t := _) ?_))

theorem writeTrace_keeps {gr : Group → Bool} {s0 : State} {s : State} {r : RegRow} {v : Nat} (hk : Keeps gr s0 s) (hbRegs : gr .regs = false) :
    Keeps gr s0 ((writeTrace s r v).s) := by
  unfold writeTrace
  repeat' (first
    | (with_reducible assumption)
    | (with_reducible apply plainWrite_keeps)
    | (with_reducible refine Keeps.ite (fun _ => ?_) (fun _ => ?_))
    | (with_reducible refine Keeps.ite_fst (fun _ => ?_) (fun _ => ?_))
    | (with_reducible refine Keeps.ite_snd (fun _ => ?_) (fun _ => ?_))
    | (with_reducible refine Keeps.ite_wr (fun _ => ?_) (fun _ => ?_))
    | (simp only [Keeps.mk_iff]; with_reducible refine KeepsParts.same (t := _) ?_ (by rfl) rfl rfl rfl))

theorem writeEvt_keeps {gr : Group → Bool} {s0 : State} {s : State} {n v : Nat} (hk : Keeps gr s0 s) :
    Keeps gr s0 ((writeEvt s n v).s) := by
  unfold writeEvt
  repeat' (first
    | (with_reducible assumption)
    | (with_reducible refine Keeps.ite (fun _ => ?_) (fun _ => ?_))
    | (with_reducible refine Keeps.ite_fst (fun _ => ?_) (fun _ => ?_))
    | (with_reducible refine Keeps.ite_snd (fun _ => ?_) (fun _ => ?_))
    | (with_reducible refine Keeps.ite_wr (fun _ => ?_) (fun _ => ?_))
    | (simp only [Keeps.mk_iff]; with_reducible refine KeepsParts.same (t := _) ?_ (by rfl) rfl rfl rfl))

theorem clearClk_keeps {gr : Group → Bool} {s0 : State} {s : State} {v : Nat} (hk : Keeps gr s0 s) :
    Keeps gr s0 (clearClk s v) := by
  unfold clearClk
  repeat' (first
    | (with_reducible assumption)
    | (with_reducible refine Keeps.ite (fun _ => ?_) (fun _ => ?_))
    | (with_reducible refine Keeps.ite_fst (fun _ => ?_) (fun _ => ?_))
    | (with_reducible refine Keeps.ite_snd (fun _ => ?_) (fun _ => ?_))
    | (simp only [Keeps.mk_iff]; with_reducible refine KeepsParts.same (t := _) ?_ (by rfl) rfl rfl rfl))

theorem clearPower_keeps {gr : Group → Bool} {s0 : State} {s : State} {v : Nat} (hk : Keeps gr s0 s) :
    Keeps gr s0 (clearPower s v) := by
  unfold clearPower
  repeat' (first
    | (with_reducible assumption)
    | (with_reducible refine Keeps.ite (fun _ => ?_) (fun _ => ?_))
    | (with_reducible refine Keeps.ite_fst (fun _ => ?_) (fun _ => ?_))
    | (with_reducible refine Keeps.ite_snd (fun _ => ?_) (fun _ => ?_))
    | (simp only [Keeps.mk_iff]; with_reducible refine KeepsParts.same (t := _) ?_ (by rfl) rfl rfl rfl))

theorem clearLog_keeps {gr : Group → Bool} {s0 : State} {s : State} {v : Nat} (hk : Keeps gr s0 s) :
    Keeps gr s0 (clearLog s v) := by
  unfold clearLog
  repeat' (first
    | (with_reducible assumption)
    | (with_reducible refine Keeps.ite (fun _ => ?_) (fun _ => ?_))
    | (with_reducible refine Keeps.ite_fst (fun _ => ?_) (fun _ => ?_))
    | (with_reducible refine Keeps.ite_snd (fun _ => ?_) (fun _ => ?_))
    | (simp only [Keeps.mk_iff]; with_reducible refine KeepsParts.same (t := _) ?_ (by rfl) rfl rfl rfl))

theorem clearDenied_keeps {gr : Group → Bool} {s0 : State} {s : State} {v : Nat} (hk : Keeps gr s0 s) :
    Keeps gr s0 (clearDenied s v) := by
  unfold clearDenied
  repeat' (first
    | (with_reducible assumption)
    | (with_reducible refine Keeps.ite (fun _ => ?_) (fun _ => ?_))
    | (with_reducible refine Keeps.ite_fst (fun _ => ?_) (fun _ => ?_))
    | (with_reducible refine Keeps.ite_snd (fun _ => ?_) (fun _ => ?_))
    | (simp only [Keeps.mk_iff]; with_reducible refine KeepsParts.same (t := _) ?_ (by rfl) rfl rfl rfl))

theorem writeSupply_keeps {gr : Group → Bool} {s0 : State} {s : State} {r : RegRow} {v : Nat} (hk : Keeps gr s0 s) (hbRegs : gr .regs = false) :
    Keeps gr s0 ((writeSupply s r v).s) := by
  unfold writeSupply
  repeat' (first
    | (with_reducible assumption)
    | (with_reducible apply plainWrite_keeps)
    | (with_reducible refine Keeps.ite (fun _ => ?_) (fun _ => ?_))
    | (with_reducible refine Keeps.ite_fst (fun _ => ?_) (fun _ => ?_))
    | (with_reducible refine Keeps.ite_snd (fun _ => ?_) (fun _ => ?_))
    | (with_reducible refine Keeps.ite_wr (fun _ => ?_) (fun _ => ?_))
    | (simp only [Keeps.mk_iff]; with_reducible refine KeepsParts.same (t := _) ?_ (by rfl) rfl rfl rfl))

theorem regWrite_keeps {gr : Group → Bool} {s0 : State} {s : State} {r : RegRow} {off v : Nat} (hk : Keeps gr s0 s) (hbTime : gr .time = false) (hbKey : gr .key = false) (hbRegs : gr .regs = false) :
    Keeps gr s0 ((regWrite s r off v).s) := by
  unfold regWrite
  repeat' (first
    | (with_reducible assumption)
    | (with_reducible apply clearLog_keeps)
    | (with_reducible apply clearClk_keeps)
    | (with_reducible apply writeSupply_keeps)
    | (with_reducible apply clearPower_keeps)
    | (with_reducible apply writeStripe_keeps)
    | (with_reducible apply writePin_keeps)
    | (with_reducible apply writeDefault_keeps)
    | (with_reducible apply writeBias_keeps)
    | (with_reducible apply ignoreWrite_keeps)
    | (with_reducible apply plainWrite_keeps)
    | (with_reducible apply writeLogCtl_keeps)
    | (with_reducible apply writeMirror_keeps)
    | (with_reducible apply writeTth_keeps)
    | (with_reducible apply writePps_keeps)
    | (with_reducible apply clearDenied_keeps)
    | (with_reducible apply writeSec_keeps)
    | (with_reducible apply writeKey_keeps)
    | (with_reducible apply writeRingCtl_keeps)
    | (with_reducible apply writeEvCtl_keeps)
    | (with_reducible apply writeIrqCtl_keeps)
    | (with_reducible apply writeTrace_keeps)
    | (with_reducible apply writeEvt_keeps)
    | (with_reducible refine Keeps.ite (fun _ => ?_) (fun _ => ?_))
    | (with_reducible refine Keeps.ite_fst (fun _ => ?_) (fun _ => ?_))
    | (with_reducible refine Keeps.ite_snd (fun _ => ?_) (fun _ => ?_))
    | (with_reducible refine Keeps.ite_wr (fun _ => ?_) (fun _ => ?_))
    | dsimp only
    | split)

theorem csrRead_keeps {gr : Group → Bool} {s0 : State} {s : State} {off n : Nat} (hk : Keeps gr s0 s) :
    Keeps gr s0 ((csrRead s off n).s) := by
  unfold csrRead
  repeat' (first
    | (with_reducible assumption)
    | (with_reducible apply csrPut_keeps)
    | exact .inr (by decide)
    | (with_reducible refine Keeps.ite (fun _ => ?_) (fun _ => ?_))
    | (with_reducible refine Keeps.ite_fst (fun _ => ?_) (fun _ => ?_))
    | (with_reducible refine Keeps.ite_snd (fun _ => ?_) (fun _ => ?_))
    | (with_reducible refine Keeps.ite_acc (fun _ => ?_) (fun _ => ?_))
    | dsimp only
    | split)

theorem csrWrite_keeps {gr : Group → Bool} {s0 : State} {s : State} {a : Csr} {off n v : Nat} (hk : Keeps gr s0 s) (hbTime : gr .time = false) (hbKey : gr .key = false) (hbRegs : gr .regs = false) :
    Keeps gr s0 ((csrWrite s a off n v).s) := by
  unfold csrWrite
  repeat' (first
    | (with_reducible assumption)
    | (with_reducible apply csrLatch_keeps)
    | (with_reducible apply regWrite_keeps)
    | (with_reducible refine Keeps.ite (fun _ => ?_) (fun _ => ?_))
    | (with_reducible refine Keeps.ite_fst (fun _ => ?_) (fun _ => ?_))
    | (with_reducible refine Keeps.ite_snd (fun _ => ?_) (fun _ => ?_))
    | (with_reducible refine Keeps.ite_acc (fun _ => ?_) (fun _ => ?_))
    | dsimp only
    | split)

theorem csrAccess_keeps {gr : Group → Bool} {s0 : State} {s : State} {a : Csr} {write : Bool} (hk : Keeps gr s0 s) (hbTime : gr .time = false) (hbKey : gr .key = false) (hbRegs : gr .regs = false) :
    Keeps gr s0 ((csrAccess s a write).s) := by
  unfold csrAccess
  repeat' (first
    | (with_reducible assumption)
    | (with_reducible apply csrWrite_keeps)
    | (with_reducible apply csrRead_keeps)
    | (with_reducible apply csrLatch_keeps)
    | (with_reducible refine Keeps.ite (fun _ => ?_) (fun _ => ?_))
    | (with_reducible refine Keeps.ite_fst (fun _ => ?_) (fun _ => ?_))
    | (with_reducible refine Keeps.ite_snd (fun _ => ?_) (fun _ => ?_))
    | (with_reducible refine Keeps.ite_acc (fun _ => ?_) (fun _ => ?_))
    | dsimp only
    | split)

theorem csrFrameAnswer_keeps {gr : Group → Bool} {s0 : State} {s : State} {a : Csr} {write : Bool} {status v : Nat} (hk : Keeps gr s0 s) :
    Keeps gr s0 (csrFrameAnswer s a write status v) := by
  unfold csrFrameAnswer
  repeat' (first
    | (with_reducible assumption)
    | (with_reducible apply drive_keeps)
    | (with_reducible refine Keeps.ite (fun _ => ?_) (fun _ => ?_))
    | (with_reducible refine Keeps.ite_fst (fun _ => ?_) (fun _ => ?_))
    | (with_reducible refine Keeps.ite_snd (fun _ => ?_) (fun _ => ?_))
    | (simp only [Keeps.mk_iff]; with_reducible refine KeepsParts.same (t := _) ?_ (by rfl) rfl rfl rfl))

theorem csrByFrame_keeps {gr : Group → Bool} {s0 : State} {s : State} {a : Csr} {write : Bool} (hk : Keeps gr s0 s) (hbTime : gr .time = false) (hbKey : gr .key = false) (hbRegs : gr .regs = false) :
    Keeps gr s0 (csrByFrame s a write) := by
  unfold csrByFrame
  repeat' (first
    | (with_reducible assumption)
    | (with_reducible apply drive_keeps)
    | (with_reducible apply csrAccess_keeps)
    | (with_reducible apply csrFrameAnswer_keeps)
    | (with_reducible refine Keeps.ite (fun _ => ?_) (fun _ => ?_))
    | (with_reducible refine Keeps.ite_fst (fun _ => ?_) (fun _ => ?_))
    | (with_reducible refine Keeps.ite_snd (fun _ => ?_) (fun _ => ?_))
    | (simp only [Keeps.mk_iff]; with_reducible refine KeepsParts.same (t := _) ?_ (by rfl) rfl rfl rfl)
    | dsimp only
    | split)

theorem csrAnswer_keeps {gr : Group → Bool} {s0 : State} {s : State} {m : Msg} {write : Bool} {status v : Nat} (hk : Keeps gr s0 s) :
    Keeps gr s0 (csrAnswer s m write status v) := by
  unfold csrAnswer
  repeat' (first
    | (with_reducible assumption)
    | (with_reducible apply answer_keeps)
    | (with_reducible refine Keeps.ite (fun _ => ?_) (fun _ => ?_)))

theorem csrByHst_keeps {gr : Group → Bool} {s0 : State} {s : State} {a : Csr} {write : Bool} (hk : Keeps gr s0 s) (hbTime : gr .time = false) (hbKey : gr .key = false) (hbRegs : gr .regs = false) :
    Keeps gr s0 (csrByHst s a write) := by
  unfold csrByHst
  repeat' (first
    | (with_reducible assumption)
    | (with_reducible apply arrives_keeps)
    | (with_reducible apply csrAnswer_keeps)
    | (with_reducible apply parityRecord_keeps)
    | (with_reducible apply ev_keeps)
    | (with_reducible apply hedgeDeny_keeps)
    | (with_reducible apply csrAccess_keeps)
    | (with_reducible refine Keeps.ite (fun _ => ?_) (fun _ => ?_)))

theorem csrDo_keeps {gr : Group → Bool} {s0 : State} {s : State} {a : Csr} {write : Bool} (hk : Keeps gr s0 s) (hbTime : gr .time = false) (hbKey : gr .key = false) (hbRegs : gr .regs = false) :
    Keeps gr s0 (csrDo s a write) := by
  unfold csrDo
  repeat' (first
    | (with_reducible assumption)
    | (with_reducible apply advance_keeps)
    | (with_reducible apply hdrGate_keeps)
    | (with_reducible apply csrByFrame_keeps)
    | (with_reducible apply csrByHst_keeps)
    | (with_reducible refine Keeps.ite (fun _ => ?_) (fun _ => ?_))
    | (with_reducible refine Keeps.ite_fst (fun _ => ?_) (fun _ => ?_))
    | (with_reducible refine Keeps.ite_snd (fun _ => ?_) (fun _ => ?_))
    | intro t a hk
    | intro t hk)

theorem execCsrWr_keeps {gr : Group → Bool} {s : State} {a : Csr} (hbTime : gr .time = false) (hbKey : gr .key = false) (hbRegs : gr .regs = false) :
    ∀ s1, execCsrWr a s = .next s1 → Keeps gr s s1 := by
  intro s1 ht
  unfold execCsrWr at ht
  obtain rfl := Host.Outcome.next.inj ht
  have hk := Keeps.refl gr s
  repeat' (first
    | (with_reducible assumption)
    | (with_reducible apply csrDo_keeps))

theorem execBiasInit_keeps {gr : Group → Bool} {s : State} {a : Csr} (hbTime : gr .time = false) (hbKey : gr .key = false) (hbRegs : gr .regs = false) :
    ∀ s1, execBiasInit a s = .next s1 → Keeps gr s s1 := by
  intro s1 ht
  unfold execBiasInit at ht
  obtain rfl := Host.Outcome.next.inj ht
  have hk := Keeps.refl gr s
  repeat' (first
    | (with_reducible assumption)
    | (with_reducible apply csrDo_keeps))

theorem biasInitDone_keeps {gr : Group → Bool} {s0 : State} {s : State} (hk : Keeps gr s0 s) :
    Keeps gr s0 (biasInitDone s) := by
  unfold biasInitDone
  repeat' (first
    | (with_reducible assumption)
    | (with_reducible refine Keeps.ite (fun _ => ?_) (fun _ => ?_))
    | (with_reducible refine Keeps.ite_fst (fun _ => ?_) (fun _ => ?_))
    | (with_reducible refine Keeps.ite_snd (fun _ => ?_) (fun _ => ?_))
    | (simp only [Keeps.mk_iff]; with_reducible refine KeepsParts.same (t := _) ?_ (by rfl) rfl rfl rfl))

theorem execBiasInitDone_keeps {gr : Group → Bool} {s : State}  :
    ∀ s1, execBiasInitDone s = .next s1 → Keeps gr s s1 := by
  intro s1 ht
  unfold execBiasInitDone at ht
  obtain rfl := Host.Outcome.next.inj ht
  have hk := Keeps.refl gr s
  repeat' (first
    | (with_reducible assumption)
    | (with_reducible apply biasInitDone_keeps))

theorem execBiasEnable_keeps {gr : Group → Bool} {s : State} {a : Csr} (hbTime : gr .time = false) (hbKey : gr .key = false) (hbRegs : gr .regs = false) :
    ∀ s1, execBiasEnable a s = .next s1 → Keeps gr s s1 := by
  intro s1 ht
  unfold execBiasEnable at ht
  obtain rfl := Host.Outcome.next.inj ht
  have hk := Keeps.refl gr s
  repeat' (first
    | (with_reducible assumption)
    | (with_reducible apply csrDo_keeps))

theorem execPinWaysWrite_keeps {gr : Group → Bool} {s : State} {a : Csr} (hbTime : gr .time = false) (hbKey : gr .key = false) (hbRegs : gr .regs = false) :
    ∀ s1, execPinWaysWrite a s = .next s1 → Keeps gr s s1 := by
  intro s1 ht
  unfold execPinWaysWrite at ht
  obtain rfl := Host.Outcome.next.inj ht
  have hk := Keeps.refl gr s
  repeat' (first
    | (with_reducible assumption)
    | (with_reducible apply csrDo_keeps))

theorem pinReserve_keeps {gr : Group → Bool} {s0 : State} {s : State} (hk : Keeps gr s0 s) :
    Keeps gr s0 (pinReserve s) := by
  unfold pinReserve
  repeat' (first
    | (with_reducible assumption)
    | (with_reducible apply emptySlot_keeps)
    | (with_reducible apply closeLine_keeps)
    | (with_reducible apply advance_keeps)
    | (with_reducible refine Keeps.ite (fun _ => ?_) (fun _ => ?_))
    | (with_reducible refine Keeps.ite_fst (fun _ => ?_) (fun _ => ?_))
    | (with_reducible refine Keeps.ite_snd (fun _ => ?_) (fun _ => ?_))
    | (simp only [Keeps.mk_iff]; with_reducible refine KeepsParts.same (t := _) ?_ (by rfl) rfl rfl rfl)
    | (with_reducible refine Keeps.foldl _ _ ?_ (fun t a hk => ?_)))

theorem execPinWaysReserved_keeps {gr : Group → Bool} {s : State}  :
    ∀ s1, execPinWaysReserved s = .next s1 → Keeps gr s s1 := by
  intro s1 ht
  unfold execPinWaysReserved at ht
  obtain rfl := Host.Outcome.next.inj ht
  have hk := Keeps.refl gr s
  repeat' (first
    | (with_reducible assumption)
    | (with_reducible apply pinReserve_keeps)
    | (with_reducible refine Keeps.ite (fun _ => ?_) (fun _ => ?_)))

theorem execMirrorWaysWrite_keeps {gr : Group → Bool} {s : State} {a : Csr} (hbTime : gr .time = false) (hbKey : gr .key = false) (hbRegs : gr .regs = false) :
    ∀ s1, execMirrorWaysWrite a s = .next s1 → Keeps gr s s1 := by
  intro s1 ht
  unfold execMirrorWaysWrite at ht
  obtain rfl := Host.Outcome.next.inj ht
  have hk := Keeps.refl gr s
  repeat' (first
    | (with_reducible assumption)
    | (with_reducible apply csrDo_keeps))

theorem execStripeShiftWrite_keeps {gr : Group → Bool} {s : State} {a : Csr} (hbTime : gr .time = false) (hbKey : gr .key = false) (hbRegs : gr .regs = false) :
    ∀ s1, execStripeShiftWrite a s = .next s1 → Keeps gr s s1 := by
  intro s1 ht
  unfold execStripeShiftWrite at ht
  obtain rfl := Host.Outcome.next.inj ht
  have hk := Keeps.refl gr s
  repeat' (first
    | (with_reducible assumption)
    | (with_reducible apply csrDo_keeps))

theorem execRingEnable_keeps {gr : Group → Bool} {s : State} {ring : Nat} {a : Csr} (hbTime : gr .time = false) (hbKey : gr .key = false) (hbRegs : gr .regs = false) :
    ∀ s1, execRingEnable ring a s = .next s1 → Keeps gr s s1 := by
  intro s1 ht
  unfold execRingEnable at ht
  obtain rfl := Host.Outcome.next.inj ht
  have hk := Keeps.refl gr s
  repeat' (first
    | (with_reducible assumption)
    | (with_reducible apply csrDo_keeps))

theorem execRingDisable_keeps {gr : Group → Bool} {s : State} {ring : Nat} {a : Csr} (hbTime : gr .time = false) (hbKey : gr .key = false) (hbRegs : gr .regs = false) :
    ∀ s1, execRingDisable ring a s = .next s1 → Keeps gr s s1 := by
  intro s1 ht
  unfold execRingDisable at ht
  obtain rfl := Host.Outcome.next.inj ht
  have hk := Keeps.refl gr s
  repeat' (first
    | (with_reducible assumption)
    | (with_reducible apply csrDo_keeps))

theorem execEvringEnable_keeps {gr : Group → Bool} {s : State} {ring : Nat} {a : Csr} (hbTime : gr .time = false) (hbKey : gr .key = false) (hbRegs : gr .regs = false) :
    ∀ s1, execEvringEnable ring a s = .next s1 → Keeps gr s s1 := by
  intro s1 ht
  unfold execEvringEnable at ht
  obtain rfl := Host.Outcome.next.inj ht
  have hk := Keeps.refl gr s
  repeat' (first
    | (with_reducible assumption)
    | (with_reducible apply csrDo_keeps))

theorem execLogRingEnable_keeps {gr : Group → Bool} {s : State} {ring : Nat} {a : Csr} (hbTime : gr .time = false) (hbKey : gr .key = false) (hbRegs : gr .regs = false) :
    ∀ s1, execLogRingEnable ring a s = .next s1 → Keeps gr s s1 := by
  intro s1 ht
  unfold execLogRingEnable at ht
  obtain rfl := Host.Outcome.next.inj ht
  have hk := Keeps.refl gr s
  repeat' (first
    | (with_reducible assumption)
    | (with_reducible apply csrDo_keeps))

theorem execLinkEn_keeps {gr : Group → Bool} {s : State} {a : Csr} (hbTime : gr .time = false) (hbKey : gr .key = false) (hbRegs : gr .regs = false) :
    ∀ s1, execLinkEn a s = .next s1 → Keeps gr s s1 := by
  intro s1 ht
  unfold execLinkEn at ht
  obtain rfl := Host.Outcome.next.inj ht
  have hk := Keeps.refl gr s
  repeat' (first
    | (with_reducible assumption)
    | (with_reducible apply csrDo_keeps))

theorem execRetrain_keeps {gr : Group → Bool} {s : State} {a : Csr} (hbTime : gr .time = false) (hbKey : gr .key = false) (hbRegs : gr .regs = false) :
    ∀ s1, execRetrain a s = .next s1 → Keeps gr s s1 := by
  intro s1 ht
  unfold execRetrain at ht
  obtain rfl := Host.Outcome.next.inj ht
  have hk := Keeps.refl gr s
  repeat' (first
    | (with_reducible assumption)
    | (with_reducible apply csrDo_keeps))

theorem execPpsLoad_keeps {gr : Group → Bool} {s : State} {a : Csr} (hbTime : gr .time = false) (hbKey : gr .key = false) (hbRegs : gr .regs = false) :
    ∀ s1, execPpsLoad a s = .next s1 → Keeps gr s s1 := by
  intro s1 ht
  unfold execPpsLoad at ht
  obtain rfl := Host.Outcome.next.inj ht
  have hk := Keeps.refl gr s
  repeat' (first
    | (with_reducible assumption)
    | (with_reducible apply csrDo_keeps))

theorem execPairKeyWrite_keeps {gr : Group → Bool} {s : State} {k : Nat} {a : Csr} (hbTime : gr .time = false) (hbKey : gr .key = false) (hbRegs : gr .regs = false) :
    ∀ s1, execPairKeyWrite k a s = .next s1 → Keeps gr s s1 := by
  intro s1 ht
  unfold execPairKeyWrite at ht
  obtain rfl := Host.Outcome.next.inj ht
  have hk := Keeps.refl gr s
  repeat' (first
    | (with_reducible assumption)
    | (with_reducible apply csrDo_keeps))

theorem execLedgerDataRead_keeps {gr : Group → Bool} {s : State} {a : Csr} (hbTime : gr .time = false) (hbKey : gr .key = false) (hbRegs : gr .regs = false) :
    ∀ s1, execLedgerDataRead a s = .next s1 → Keeps gr s s1 := by
  intro s1 ht
  unfold execLedgerDataRead at ht
  obtain rfl := Host.Outcome.next.inj ht
  have hk := Keeps.refl gr s
  repeat' (first
    | (with_reducible assumption)
    | (with_reducible apply csrDo_keeps))

theorem execEvtCounterWrite_keeps {gr : Group → Bool} {s : State} {k : Nat} {a : Csr} (hbTime : gr .time = false) (hbKey : gr .key = false) (hbRegs : gr .regs = false) :
    ∀ s1, execEvtCounterWrite k a s = .next s1 → Keeps gr s s1 := by
  intro s1 ht
  unfold execEvtCounterWrite at ht
  obtain rfl := Host.Outcome.next.inj ht
  have hk := Keeps.refl gr s
  repeat' (first
    | (with_reducible assumption)
    | (with_reducible apply csrDo_keeps))

theorem execSecCtlWrite_keeps {gr : Group → Bool} {s : State} {a : Csr} (hbTime : gr .time = false) (hbKey : gr .key = false) (hbRegs : gr .regs = false) :
    ∀ s1, execSecCtlWrite a s = .next s1 → Keeps gr s s1 := by
  intro s1 ht
  unfold execSecCtlWrite at ht
  obtain rfl := Host.Outcome.next.inj ht
  have hk := Keeps.refl gr s
  repeat' (first
    | (with_reducible assumption)
    | (with_reducible apply csrDo_keeps))

theorem execHedgeWrite_keeps {gr : Group → Bool} {s : State} {a : Csr} (hbTime : gr .time = false) (hbKey : gr .key = false) (hbRegs : gr .regs = false) :
    ∀ s1, execHedgeWrite a s = .next s1 → Keeps gr s s1 := by
  intro s1 ht
  unfold execHedgeWrite at ht
  obtain rfl := Host.Outcome.next.inj ht
  have hk := Keeps.refl gr s
  repeat' (first
    | (with_reducible assumption)
    | (with_reducible apply csrDo_keeps))

theorem execQosClassWrite_keeps {gr : Group → Bool} {s : State} {cls : Nat} {a : Csr} (hbTime : gr .time = false) (hbKey : gr .key = false) (hbRegs : gr .regs = false) :
    ∀ s1, execQosClassWrite cls a s = .next s1 → Keeps gr s s1 := by
  intro s1 ht
  unfold execQosClassWrite at ht
  obtain rfl := Host.Outcome.next.inj ht
  have hk := Keeps.refl gr s
  repeat' (first
    | (with_reducible assumption)
    | (with_reducible apply csrDo_keeps))

theorem execFlipmaskArm_keeps {gr : Group → Bool} {s : State} {a : Csr} (hbTime : gr .time = false) (hbKey : gr .key = false) (hbRegs : gr .regs = false) :
    ∀ s1, execFlipmaskArm a s = .next s1 → Keeps gr s s1 := by
  intro s1 ht
  unfold execFlipmaskArm at ht
  obtain rfl := Host.Outcome.next.inj ht
  have hk := Keeps.refl gr s
  repeat' (first
    | (with_reducible assumption)
    | (with_reducible apply csrDo_keeps))

theorem execEnergyGainWrite_keeps {gr : Group → Bool} {s : State} {a : Csr} (hbTime : gr .time = false) (hbKey : gr .key = false) (hbRegs : gr .regs = false) :
    ∀ s1, execEnergyGainWrite a s = .next s1 → Keeps gr s s1 := by
  intro s1 ht
  unfold execEnergyGainWrite at ht
  obtain rfl := Host.Outcome.next.inj ht
  have hk := Keeps.refl gr s
  repeat' (first
    | (with_reducible assumption)
    | (with_reducible apply csrDo_keeps))

theorem execTraceEnable_keeps {gr : Group → Bool} {s : State} {a : Csr} (hbTime : gr .time = false) (hbKey : gr .key = false) (hbRegs : gr .regs = false) :
    ∀ s1, execTraceEnable a s = .next s1 → Keeps gr s s1 := by
  intro s1 ht
  unfold execTraceEnable at ht
  obtain rfl := Host.Outcome.next.inj ht
  have hk := Keeps.refl gr s
  repeat' (first
    | (with_reducible assumption)
    | (with_reducible apply csrDo_keeps))

end Sys2Proof.Machine
end

