-- ==== Sys2Proof/Laws/KeepsMem.lean ====
section
/-! SUPPORT. What the operations of Machine/Mem.lean keep (Laws/Keeps.lean). -/

namespace Sys2Proof.Machine

open Sys2Proof

set_option Elab.async false

set_option linter.unusedSimpArgs false

theorem memGate_keeps {gr : Group → Bool} {s0 : State} {s : State} {c : Instr} {write : Bool} {f : State → State} (hk : Keeps gr s0 s) (hf : ∀ t, Keeps gr s0 t → Keeps gr s0 (f t)) :
    Keeps gr s0 (memGate s c write f) := by
  unfold memGate
  repeat' (first
    | (with_reducible assumption)
    | (with_reducible refine hf _ ?_)
    | (with_reducible apply hf)
    | (with_reducible refine Keeps.ite (fun _ => ?_) (fun _ => ?_))
    | (with_reducible refine Keeps.ite_fst (fun _ => ?_) (fun _ => ?_))
    | (with_reducible refine Keeps.ite_snd (fun _ => ?_) (fun _ => ?_))
    | (simp only [Keeps.mk_iff]; with_reducible refine KeepsParts.same (t := _) ?_ (by rfl) rfl rfl rfl))

theorem fillOps_keeps {gr : Group → Bool} {s0 : State} {s : State} {m : Mhe} {status : Nat} (hk : Keeps gr s0 s) :
    Keeps gr s0 (fillOps s m status) := by
  unfold fillOps
  repeat' (first
    | (with_reducible assumption)
    | (with_reducible apply cmdLine_keeps)
    | (with_reducible refine Keeps.ite (fun _ => ?_) (fun _ => ?_))
    | (with_reducible refine Keeps.ite_fst (fun _ => ?_) (fun _ => ?_))
    | (with_reducible refine Keeps.ite_snd (fun _ => ?_) (fun _ => ?_))
    | (with_reducible refine Keeps.foldl _ _ ?_ (fun t a hk => ?_)))

theorem fillFailed_keeps {gr : Group → Bool} {s0 : State} {s : State} {m : Mhe} (hk : Keeps gr s0 s) :
    Keeps gr s0 (fillFailed s m) := by
  unfold fillFailed
  repeat' (first
    | (with_reducible assumption)
    | (with_reducible apply lineDrop_keeps)
    | (with_reducible apply fillOps_keeps)
    | (with_reducible apply mheDel_keeps)
    | (with_reducible refine Keeps.ite (fun _ => ?_) (fun _ => ?_))
    | (with_reducible refine Keeps.ite_fst (fun _ => ?_) (fun _ => ?_))
    | (with_reducible refine Keeps.ite_snd (fun _ => ?_) (fun _ => ?_))
    | dsimp only
    | split)

theorem fillOrphan_keeps {gr : Group → Bool} {s0 : State} {s : State} {o : Op} (hk : Keeps gr s0 s) :
    Keeps gr s0 (fillOrphan s o) := by
  unfold fillOrphan
  repeat' (first
    | (with_reducible assumption)
    | (with_reducible apply finish_keeps)
    | (with_reducible apply baleCount_keeps)
    | (with_reducible apply writeMemory_keeps)
    | (with_reducible refine Keeps.ite (fun _ => ?_) (fun _ => ?_)))

theorem fillBad_keeps {gr : Group → Bool} {s0 : State} {s : State} {m : Mhe} (hk : Keeps gr s0 s) :
    Keeps gr s0 (fillBad s m) := by
  unfold fillBad
  repeat' (first
    | (with_reducible assumption)
    | (with_reducible apply lineDrop_keeps)
    | (with_reducible apply fillOps_keeps)
    | (with_reducible apply mheDel_keeps)
    | (with_reducible apply memWriteMasked_keeps)
    | (with_reducible apply fillOrphan_keeps)
    | (with_reducible refine Keeps.ite (fun _ => ?_) (fun _ => ?_))
    | (with_reducible refine Keeps.ite_fst (fun _ => ?_) (fun _ => ?_))
    | (with_reducible refine Keeps.ite_snd (fun _ => ?_) (fun _ => ?_))
    | (simp only [Keeps.mk_iff]; with_reducible refine KeepsParts.same (t := _) ?_ (by rfl) rfl rfl rfl)
    | (with_reducible refine Keeps.foldl _ _ ?_ (fun t a hk => ?_))
    | (with_reducible refine Keeps.foldl_fst _ _ _ ?_ (fun x a hk => ?_))
    | (with_reducible refine Keeps.foldl_snd _ _ _ ?_ (fun x a hk => ?_))
    | dsimp only
    | split)

theorem fillInstall_keeps {gr : Group → Bool} {s0 : State} {s : State} {m : Mhe} {k : Nat} (hk : Keeps gr s0 s) :
    Keeps gr s0 (fillInstall s m k) := by
  unfold fillInstall
  repeat' (first
    | (with_reducible assumption)
    | (with_reducible apply storeLine_keeps)
    | (with_reducible apply arrayUse_keeps)
    | (with_reducible apply lockSlot_keeps)
    | (with_reducible apply cmdLine_keeps)
    | (with_reducible apply mheDel_keeps)
    | (with_reducible refine Keeps.ite (fun _ => ?_) (fun _ => ?_))
    | (with_reducible refine Keeps.ite_fst (fun _ => ?_) (fun _ => ?_))
    | (with_reducible refine Keeps.ite_snd (fun _ => ?_) (fun _ => ?_))
    | (with_reducible refine Keeps.of_fst (y := (_, _)) (x := lockSlot _ _ _ _) ?_ (by assumption))
    | (with_reducible refine Keeps.foldl _ _ ?_ (fun t a hk => ?_)))

theorem fillEnd_keeps {gr : Group → Bool} {s0 : State} {s : State} {line : Nat} (hk : Keeps gr s0 s) :
    Keeps gr s0 (fillEnd s line) := by
  unfold fillEnd
  repeat' (first
    | (with_reducible assumption)
    | (with_reducible apply stage_keeps)
    | (with_reducible apply mergedLost_keeps)
    | (with_reducible apply mheDel_keeps)
    | (with_reducible apply memSideEnd_keeps)
    | (with_reducible apply fillFailed_keeps)
    | (with_reducible apply stageDrop_keeps)
    | (with_reducible apply fillBad_keeps)
    | (with_reducible apply postError_keeps)
    | (with_reducible apply fillInstall_keeps)
    | (with_reducible refine Keeps.ite (fun _ => ?_) (fun _ => ?_))
    | (with_reducible refine Keeps.ite_fst (fun _ => ?_) (fun _ => ?_))
    | (with_reducible refine Keeps.ite_snd (fun _ => ?_) (fun _ => ?_))
    | dsimp only
    | split)

theorem beatRecord_keeps {gr : Group → Bool} {s0 : State} {s : State} {r : MemRd} {beat : Nat} {parity : Bool} (hk : Keeps gr s0 s) :
    Keeps gr s0 (beatRecord s r beat parity) := by
  unfold beatRecord
  repeat' (first
    | (with_reducible assumption)
    | (with_reducible apply postError_keeps))

theorem biasReturn_keeps {gr : Group → Bool} {s0 : State} {s : State} {w : Nat} {r : MemRd} (hk : Keeps gr s0 s) :
    Keeps gr s0 (biasReturn s w r) := by
  unfold biasReturn
  repeat' (first
    | (with_reducible assumption)
    | (with_reducible apply cmdEnd_keeps)
    | (with_reducible apply advance_keeps)
    | (with_reducible refine Keeps.ite (fun _ => ?_) (fun _ => ?_))
    | (with_reducible refine Keeps.ite_fst (fun _ => ?_) (fun _ => ?_))
    | (with_reducible refine Keeps.ite_snd (fun _ => ?_) (fun _ => ?_))
    | (simp only [Keeps.mk_iff]; with_reducible refine KeepsParts.same (t := _) ?_ (by rfl) rfl rfl rfl)
    | (with_reducible refine Keeps.foldl _ _ ?_ (fun t a hk => ?_)))

theorem readEnd_keeps {gr : Group → Bool} {s0 : State} {s : State} {r : MemRd} (hk : Keeps gr s0 s) :
    Keeps gr s0 (readEnd s r) := by
  unfold readEnd
  repeat' (first
    | (with_reducible assumption)
    | (with_reducible apply fillEnd_keeps)
    | (with_reducible apply biasReturn_keeps)
    | (with_reducible apply cmdLine_keeps)
    | (with_reducible apply cmdUpd_keeps)
    | (with_reducible apply ev_keeps)
    | (with_reducible apply arithUse_keeps)
    | (with_reducible apply cmdEnd_keeps)
    | (with_reducible refine Keeps.ite (fun _ => ?_) (fun _ => ?_))
    | (with_reducible refine Keeps.ite_fst (fun _ => ?_) (fun _ => ?_))
    | (with_reducible refine Keeps.ite_snd (fun _ => ?_) (fun _ => ?_))
    | (simp only [Keeps.mk_iff]; with_reducible refine KeepsParts.same (t := _) ?_ (by rfl) rfl rfl rfl)
    | dsimp only
    | split)

theorem readBeat_keeps {gr : Group → Bool} {s0 : State} {s : State} {r : MemRd} {beat : Nat} {bad : Bool} {bytes : Bytes} (hk : Keeps gr s0 s) :
    Keeps gr s0 (readBeat s r beat bad bytes) := by
  unfold readBeat
  repeat' (first
    | (with_reducible assumption)
    | (with_reducible apply fillReach_keeps)
    | (with_reducible apply mheServe_keeps)
    | (with_reducible apply mheSet_keeps)
    | (with_reducible apply readEnd_keeps)
    | (with_reducible refine Keeps.ite (fun _ => ?_) (fun _ => ?_))
    | (with_reducible refine Keeps.ite_fst (fun _ => ?_) (fun _ => ?_))
    | (with_reducible refine Keeps.ite_snd (fun _ => ?_) (fun _ => ?_))
    | (simp only [Keeps.mk_iff]; with_reducible refine KeepsParts.same (t := _) ?_ (by rfl) rfl rfl rfl)
    | dsimp only
    | split)

theorem memReturn_keeps {gr : Group → Bool} {s0 : State} {s : State} {tag beat status : Nat} {parityBad : Bool} {bytes : Bytes} (hk : Keeps gr s0 s) :
    Keeps gr s0 (memReturn s tag beat status parityBad bytes) := by
  unfold memReturn
  repeat' (first
    | (with_reducible assumption)
    | (with_reducible apply activity_keeps)
    | (with_reducible apply meter_keeps)
    | (with_reducible apply beatRecord_keeps)
    | (with_reducible apply advance_keeps)
    | (with_reducible apply readBeat_keeps)
    | (with_reducible apply ev_keeps)
    | (with_reducible refine Keeps.ite (fun _ => ?_) (fun _ => ?_))
    | (with_reducible refine Keeps.ite_fst (fun _ => ?_) (fun _ => ?_))
    | (with_reducible refine Keeps.ite_snd (fun _ => ?_) (fun _ => ?_))
    | dsimp only
    | split)

theorem execMemReadReturn_keeps {gr : Group → Bool} {s : State} {tag beat status : Nat} {parityBad : Bool} {bytes : Bytes} :
    ∀ s1, execMemReadReturn tag beat status parityBad bytes s = .next s1 → Keeps gr s s1 := by
  intro s1 ht
  unfold execMemReadReturn at ht
  obtain rfl := Host.Outcome.next.inj ht
  have hk := Keeps.refl gr s
  repeat' (first
    | (with_reducible assumption)
    | (with_reducible apply memGate_keeps)
    | (with_reducible apply memReturn_keeps)
    | (with_reducible refine Keeps.ite (fun _ => ?_) (fun _ => ?_))
    | (with_reducible refine Keeps.ite_fst (fun _ => ?_) (fun _ => ?_))
    | (with_reducible refine Keeps.ite_snd (fun _ => ?_) (fun _ => ?_))
    | intro t a hk
    | intro t hk)

theorem memReplay_keeps {gr : Group → Bool} {s0 : State} {s : State} {tag beat : Nat} (hk : Keeps gr s0 s) :
    Keeps gr s0 (memReplay s tag beat) := by
  unfold memReplay
  repeat' (first
    | (with_reducible assumption)
    | (with_reducible apply mheSet_keeps)
    | (with_reducible apply stage_keeps)
    | (with_reducible apply chargeHold_keeps)
    | (with_reducible refine Keeps.ite (fun _ => ?_) (fun _ => ?_))
    | (with_reducible refine Keeps.ite_fst (fun _ => ?_) (fun _ => ?_))
    | (with_reducible refine Keeps.ite_snd (fun _ => ?_) (fun _ => ?_))
    | (simp only [Keeps.mk_iff]; with_reducible refine KeepsParts.same (t := _) ?_ (by rfl) rfl rfl rfl)
    | dsimp only
    | split)

theorem execMemReplay_keeps {gr : Group → Bool} {s : State} {tag beat : Nat} :
    ∀ s1, execMemReplay tag beat s = .next s1 → Keeps gr s s1 := by
  intro s1 ht
  unfold execMemReplay at ht
  obtain rfl := Host.Outcome.next.inj ht
  have hk := Keeps.refl gr s
  repeat' (first
    | (with_reducible assumption)
    | (with_reducible apply memGate_keeps)
    | (with_reducible apply memReplay_keeps)
    | (with_reducible refine Keeps.ite (fun _ => ?_) (fun _ => ?_))
    | (with_reducible refine Keeps.ite_fst (fun _ => ?_) (fun _ => ?_))
    | (with_reducible refine Keeps.ite_snd (fun _ => ?_) (fun _ => ?_))
    | intro t a hk
    | intro t hk)

theorem writeAccepted_keeps {gr : Group → Bool} {s0 : State} {s : State} {w : MemWr} (hk : Keeps gr s0 s) :
    Keeps gr s0 (writeAccepted s w) := by
  unfold writeAccepted
  repeat' (first
    | (with_reducible assumption)
    | (with_reducible apply mheDel_keeps)
    | (with_reducible apply cmdUpd_keeps)
    | (with_reducible refine Keeps.ite (fun _ => ?_) (fun _ => ?_))
    | (with_reducible refine Keeps.ite_fst (fun _ => ?_) (fun _ => ?_))
    | (with_reducible refine Keeps.ite_snd (fun _ => ?_) (fun _ => ?_))
    | (simp only [Keeps.mk_iff]; with_reducible refine KeepsParts.same (t := _) ?_ (by rfl) rfl rfl rfl)
    | dsimp only
    | split)

theorem writeCompleted_keeps {gr : Group → Bool} {s0 : State} {s : State} {w : MemWr} (hk : Keeps gr s0 s) :
    Keeps gr s0 (writeCompleted s w) := by
  unfold writeCompleted
  repeat' (first
    | (with_reducible assumption)
    | (with_reducible apply finish_keeps)
    | (with_reducible apply cmdUpd_keeps)
    | (with_reducible apply ttSend_keeps)
    | (with_reducible refine Keeps.ite (fun _ => ?_) (fun _ => ?_))
    | (with_reducible refine Keeps.ite_fst (fun _ => ?_) (fun _ => ?_))
    | (with_reducible refine Keeps.ite_snd (fun _ => ?_) (fun _ => ?_))
    | (simp only [Keeps.mk_iff]; with_reducible refine KeepsParts.same (t := _) ?_ (by rfl) rfl rfl rfl)
    | dsimp only
    | split)

theorem memWriteDone_keeps {gr : Group → Bool} {s0 : State} {s : State} {tag : Nat} (hk : Keeps gr s0 s) :
    Keeps gr s0 (memWriteDone s tag) := by
  unfold memWriteDone
  repeat' (first
    | (with_reducible assumption)
    | (with_reducible apply writeAccepted_keeps)
    | (with_reducible apply writeCompleted_keeps)
    | (with_reducible apply advance_keeps)
    | (with_reducible apply memPump_keeps)
    | (with_reducible refine Keeps.ite (fun _ => ?_) (fun _ => ?_))
    | (with_reducible refine Keeps.ite_fst (fun _ => ?_) (fun _ => ?_))
    | (with_reducible refine Keeps.ite_snd (fun _ => ?_) (fun _ => ?_))
    | (simp only [Keeps.mk_iff]; with_reducible refine KeepsParts.same (t := _) ?_ (by rfl) rfl rfl rfl)
    | dsimp only
    | split)

theorem execMemWriteCompletion_keeps {gr : Group → Bool} {s : State} {tag : Nat} :
    ∀ s1, execMemWriteCompletion tag s = .next s1 → Keeps gr s s1 := by
  intro s1 ht
  unfold execMemWriteCompletion at ht
  obtain rfl := Host.Outcome.next.inj ht
  have hk := Keeps.refl gr s
  repeat' (first
    | (with_reducible assumption)
    | (with_reducible apply memGate_keeps)
    | (with_reducible apply memWriteDone_keeps)
    | (with_reducible refine Keeps.ite (fun _ => ?_) (fun _ => ?_))
    | (with_reducible refine Keeps.ite_fst (fun _ => ?_) (fun _ => ?_))
    | (with_reducible refine Keeps.ite_snd (fun _ => ?_) (fun _ => ?_))
    | intro t a hk
    | intro t hk)

theorem memWriteAccept_keeps {gr : Group → Bool} {s0 : State} {s : State} {tag : Nat} (hk : Keeps gr s0 s) :
    Keeps gr s0 (memWriteAccept s tag) := by
  unfold memWriteAccept
  repeat' (first
    | (with_reducible assumption)
    | (with_reducible apply writeAccepted_keeps)
    | (with_reducible apply advance_keeps)
    | (with_reducible refine Keeps.ite (fun _ => ?_) (fun _ => ?_))
    | (with_reducible refine Keeps.ite_fst (fun _ => ?_) (fun _ => ?_))
    | (with_reducible refine Keeps.ite_snd (fun _ => ?_) (fun _ => ?_))
    | (simp only [Keeps.mk_iff]; with_reducible refine KeepsParts.same (t := _) ?_ (by rfl) rfl rfl rfl)
    | dsimp only
    | split)

theorem execEvictionWritebackAccepted_keeps {gr : Group → Bool} {s : State} {tag : Nat} :
    ∀ s1, execEvictionWritebackAccepted tag s = .next s1 → Keeps gr s s1 := by
  intro s1 ht
  unfold execEvictionWritebackAccepted at ht
  obtain rfl := Host.Outcome.next.inj ht
  have hk := Keeps.refl gr s
  repeat' (first
    | (with_reducible assumption)
    | (with_reducible apply memGate_keeps)
    | (with_reducible apply memWriteAccept_keeps)
    | (with_reducible refine Keeps.ite (fun _ => ?_) (fun _ => ?_))
    | (with_reducible refine Keeps.ite_fst (fun _ => ?_) (fun _ => ?_))
    | (with_reducible refine Keeps.ite_snd (fun _ => ?_) (fun _ => ?_))
    | intro t a hk
    | intro t hk)

theorem mergeEntryDrain_keeps {gr : Group → Bool} {s0 : State} {s : State} (hk : Keeps gr s0 s) :
    Keeps gr s0 (mergeEntryDrain s) := by
  unfold mergeEntryDrain
  repeat' (first
    | (with_reducible assumption)
    | (with_reducible apply advance_keeps)
    | (with_reducible apply mergeDrain_keeps)
    | (with_reducible refine Keeps.ite (fun _ => ?_) (fun _ => ?_))
    | (with_reducible refine Keeps.ite_fst (fun _ => ?_) (fun _ => ?_))
    | (with_reducible refine Keeps.ite_snd (fun _ => ?_) (fun _ => ?_))
    | dsimp only
    | split)

theorem execMergeEntryDrain_keeps {gr : Group → Bool} {s : State}  :
    ∀ s1, execMergeEntryDrain s = .next s1 → Keeps gr s s1 := by
  intro s1 ht
  unfold execMergeEntryDrain at ht
  obtain rfl := Host.Outcome.next.inj ht
  have hk := Keeps.refl gr s
  repeat' (first
    | (with_reducible assumption)
    | (with_reducible apply mergeEntryDrain_keeps)
    | (with_reducible refine Keeps.ite (fun _ => ?_) (fun _ => ?_)))

theorem execAtomicLineClose_keeps {gr : Group → Bool} {s : State} {line : Nat} :
    ∀ s1, execAtomicLineClose line s = .next s1 → Keeps gr s s1 := by
  intro s1 ht
  unfold execAtomicLineClose at ht
  obtain rfl := Host.Outcome.next.inj ht
  have hk := Keeps.refl gr s
  repeat' (first
    | (with_reducible assumption)
    | (with_reducible apply advance_keeps)
    | (with_reducible apply closeLine_keeps)
    | (with_reducible refine Keeps.ite (fun _ => ?_) (fun _ => ?_)))

theorem creditReturn_keeps {gr : Group → Bool} {s0 : State} {s : State} {port : Port} {cls : Nat} (hk : Keeps gr s0 s) :
    Keeps gr s0 (creditReturn s port cls) := by
  unfold creditReturn
  repeat' (first
    | (with_reducible assumption)
    | (with_reducible apply giveCredit_keeps)
    | (with_reducible apply advance_keeps)
    | (with_reducible apply memPump_keeps)
    | (with_reducible refine Keeps.ite (fun _ => ?_) (fun _ => ?_))
    | (with_reducible refine Keeps.ite_fst (fun _ => ?_) (fun _ => ?_))
    | (with_reducible refine Keeps.ite_snd (fun _ => ?_) (fun _ => ?_))
    | dsimp only
    | split)

theorem execCreditReturn_keeps {gr : Group → Bool} {s : State} {port : Port} {cls : Nat} :
    ∀ s1, execCreditReturn port cls s = .next s1 → Keeps gr s s1 := by
  intro s1 ht
  unfold execCreditReturn at ht
  obtain rfl := Host.Outcome.next.inj ht
  have hk := Keeps.refl gr s
  repeat' (first
    | (with_reducible assumption)
    | (with_reducible apply creditReturn_keeps)
    | (with_reducible refine Keeps.ite (fun _ => ?_) (fun _ => ?_)))

end Sys2Proof.Machine
end

