-- ==== Sys2Proof/Laws/KeepsPlan.lean ====
section
/-! SUPPORT. What the operations of Machine/Plan.lean keep (Laws/Keeps.lean). -/

namespace Sys2Proof.Machine

open Sys2Proof

set_option Elab.async false

set_option linter.unusedSimpArgs false

theorem planLoad_keeps {gr : Group → Bool} {s0 : State} {s : State} {c : Cmd} {input : Bytes} {bad : List BadBeat} (hk : Keeps gr s0 s) (hbPlan : gr .plan = false) :
    Keeps gr s0 (planLoad s c input bad) := by
  unfold planLoad
  repeat' (first
    | (with_reducible assumption)
    | (with_reducible apply refuseCmd_keeps)
    | (with_reducible apply inputBad_keeps)
    | (with_reducible apply cmdEnd_keeps)
    | (with_reducible refine Keeps.ite (fun _ => ?_) (fun _ => ?_))
    | (with_reducible refine Keeps.ite_fst (fun _ => ?_) (fun _ => ?_))
    | (with_reducible refine Keeps.ite_snd (fun _ => ?_) (fun _ => ?_))
    | (simp only [Keeps.mk_iff]; refine KeepsParts.freed (t := _) ?_)
    | dsimp only
    | split)

theorem execPlanLoad_keeps {gr : Group → Bool} {s : State} {ring idx : Nat} {input : Bytes} {bad : List BadBeat} (hbPlan : gr .plan = false) :
    ∀ s1, execPlanLoad ring idx input bad s = .next s1 → Keeps gr s s1 := by
  intro s1 ht
  unfold execPlanLoad at ht
  obtain rfl := Host.Outcome.next.inj ht
  have hk := Keeps.refl gr s
  repeat' (first
    | (with_reducible assumption)
    | (with_reducible apply startCmd_keeps)
    | (with_reducible apply planLoad_keeps)
    | (with_reducible refine Keeps.ite (fun _ => ?_) (fun _ => ?_))
    | (with_reducible refine Keeps.ite_fst (fun _ => ?_) (fun _ => ?_))
    | (with_reducible refine Keeps.ite_snd (fun _ => ?_) (fun _ => ?_))
    | intro t a hk)

theorem planBegin_keeps {gr : Group → Bool} {s0 : State} {s : State} {eff passes : Nat} (hk : Keeps gr s0 s) :
    Keeps gr s0 (planBegin s eff passes) := by
  unfold planBegin
  repeat' (first
    | (with_reducible assumption)
    | (with_reducible refine Keeps.ite (fun _ => ?_) (fun _ => ?_))
    | (with_reducible refine Keeps.ite_fst (fun _ => ?_) (fun _ => ?_))
    | (with_reducible refine Keeps.ite_snd (fun _ => ?_) (fun _ => ?_))
    | (simp only [Keeps.mk_iff]; with_reducible refine KeepsParts.same (t := _) ?_ (by rfl) rfl rfl rfl))

theorem planRun_keeps {gr : Group → Bool} {s0 : State} {s : State} {c : Cmd} (hk : Keeps gr s0 s) :
    Keeps gr s0 (planRun s c) := by
  unfold planRun
  repeat' (first
    | (with_reducible assumption)
    | (with_reducible apply refuseCmd_keeps)
    | (with_reducible apply cmdEnd_keeps)
    | (with_reducible apply planBegin_keeps)
    | (with_reducible apply veil_keeps)
    | (with_reducible refine Keeps.ite (fun _ => ?_) (fun _ => ?_))
    | (with_reducible refine Keeps.ite_fst (fun _ => ?_) (fun _ => ?_))
    | (with_reducible refine Keeps.ite_snd (fun _ => ?_) (fun _ => ?_))
    | (simp only [Keeps.mk_iff]; with_reducible refine KeepsParts.same (t := _) ?_ (by rfl) rfl rfl rfl))

theorem execPlanRun_keeps {gr : Group → Bool} {s : State} {ring idx : Nat} :
    ∀ s1, execPlanRun ring idx s = .next s1 → Keeps gr s s1 := by
  intro s1 ht
  unfold execPlanRun at ht
  obtain rfl := Host.Outcome.next.inj ht
  have hk := Keeps.refl gr s
  repeat' (first
    | (with_reducible assumption)
    | (with_reducible apply startCmd_keeps)
    | (with_reducible apply planRun_keeps))

theorem planStopCmd_keeps {gr : Group → Bool} {s0 : State} {s : State} {c : Cmd} (hk : Keeps gr s0 s) :
    Keeps gr s0 (planStopCmd s c) := by
  unfold planStopCmd
  repeat' (first
    | (with_reducible assumption)
    | (with_reducible apply cmdEnd_keeps)
    | (with_reducible apply planAbort_keeps)
    | (with_reducible apply planStop_keeps)
    | (with_reducible refine Keeps.ite (fun _ => ?_) (fun _ => ?_))
    | (with_reducible refine Keeps.ite_fst (fun _ => ?_) (fun _ => ?_))
    | (with_reducible refine Keeps.ite_snd (fun _ => ?_) (fun _ => ?_))
    | (simp only [Keeps.mk_iff]; with_reducible refine KeepsParts.same (t := _) ?_ (by rfl) rfl rfl rfl))

theorem execPlanStop_keeps {gr : Group → Bool} {s : State} {ring idx : Nat} :
    ∀ s1, execPlanStop ring idx s = .next s1 → Keeps gr s s1 := by
  intro s1 ht
  unfold execPlanStop at ht
  obtain rfl := Host.Outcome.next.inj ht
  have hk := Keeps.refl gr s
  repeat' (first
    | (with_reducible assumption)
    | (with_reducible apply startCmd_keeps)
    | (with_reducible apply planStopCmd_keeps))

theorem passStart_keeps {gr : Group → Bool} {s0 : State} {s : State} (hk : Keeps gr s0 s) :
    Keeps gr s0 (passStart s) := by
  unfold passStart
  repeat' (first
    | (with_reducible assumption)
    | (with_reducible refine Keeps.ite (fun _ => ?_) (fun _ => ?_))
    | (with_reducible refine Keeps.ite_fst (fun _ => ?_) (fun _ => ?_))
    | (with_reducible refine Keeps.ite_snd (fun _ => ?_) (fun _ => ?_))
    | (simp only [Keeps.mk_iff]; with_reducible refine KeepsParts.same (t := _) ?_ (by rfl) rfl rfl rfl)
    | dsimp only
    | split)

theorem execPassStart_keeps {gr : Group → Bool} {s : State}  :
    ∀ s1, execPassStart s = .next s1 → Keeps gr s s1 := by
  intro s1 ht
  unfold execPassStart at ht
  obtain rfl := Host.Outcome.next.inj ht
  have hk := Keeps.refl gr s
  repeat' (first
    | (with_reducible assumption)
    | (with_reducible apply passStart_keeps)
    | (with_reducible refine Keeps.ite (fun _ => ?_) (fun _ => ?_)))

theorem passEnd_keeps {gr : Group → Bool} {s0 : State} {s : State} (hk : Keeps gr s0 s) :
    Keeps gr s0 (passEnd s) := by
  unfold passEnd
  repeat' (first
    | (with_reducible assumption)
    | (with_reducible apply passClose_keeps)
    | (with_reducible apply planIdle_keeps)
    | (with_reducible refine Keeps.ite (fun _ => ?_) (fun _ => ?_))
    | (with_reducible refine Keeps.ite_fst (fun _ => ?_) (fun _ => ?_))
    | (with_reducible refine Keeps.ite_snd (fun _ => ?_) (fun _ => ?_))
    | (simp only [Keeps.mk_iff]; with_reducible refine KeepsParts.same (t := _) ?_ (by rfl) rfl rfl rfl))

theorem execPassEnd_keeps {gr : Group → Bool} {s : State}  :
    ∀ s1, execPassEnd s = .next s1 → Keeps gr s s1 := by
  intro s1 ht
  unfold execPassEnd at ht
  obtain rfl := Host.Outcome.next.inj ht
  have hk := Keeps.refl gr s
  repeat' (first
    | (with_reducible assumption)
    | (with_reducible apply advance_keeps)
    | (with_reducible apply passEnd_keeps)
    | (with_reducible refine Keeps.ite (fun _ => ?_) (fun _ => ?_)))

theorem switchDone_keeps {gr : Group → Bool} {s0 : State} {s : State} (hk : Keeps gr s0 s) (hbPlan : gr .plan = false) :
    Keeps gr s0 (switchDone s) := by
  unfold switchDone
  repeat' (first
    | (with_reducible assumption)
    | (with_reducible apply planBegin_keeps)
    | (with_reducible apply cmdEnd_keeps)
    | (with_reducible apply planIdle_keeps)
    | (with_reducible refine Keeps.ite (fun _ => ?_) (fun _ => ?_))
    | (with_reducible refine Keeps.ite_fst (fun _ => ?_) (fun _ => ?_))
    | (with_reducible refine Keeps.ite_snd (fun _ => ?_) (fun _ => ?_))
    | (simp only [Keeps.mk_iff]; refine KeepsParts.freed (t := _) ?_)
    | dsimp only
    | split)

theorem execSwitchDone_keeps {gr : Group → Bool} {s : State}  (hbPlan : gr .plan = false) :
    ∀ s1, execSwitchDone s = .next s1 → Keeps gr s s1 := by
  intro s1 ht
  unfold execSwitchDone at ht
  obtain rfl := Host.Outcome.next.inj ht
  have hk := Keeps.refl gr s
  repeat' (first
    | (with_reducible assumption)
    | (with_reducible apply advance_keeps)
    | (with_reducible apply switchDone_keeps))

theorem stoppingDone_keeps {gr : Group → Bool} {s0 : State} {s : State} (hk : Keeps gr s0 s) :
    Keeps gr s0 (stoppingDone s) := by
  unfold stoppingDone
  repeat' (first
    | (with_reducible assumption)
    | (with_reducible apply planIdle_keeps)
    | (with_reducible apply passClose_keeps)
    | (with_reducible refine Keeps.ite (fun _ => ?_) (fun _ => ?_)))

theorem execStoppingDone_keeps {gr : Group → Bool} {s : State}  :
    ∀ s1, execStoppingDone s = .next s1 → Keeps gr s s1 := by
  intro s1 ht
  unfold execStoppingDone at ht
  obtain rfl := Host.Outcome.next.inj ht
  have hk := Keeps.refl gr s
  repeat' (first
    | (with_reducible assumption)
    | (with_reducible apply advance_keeps)
    | (with_reducible apply stoppingDone_keeps))

theorem holdStart_keeps {gr : Group → Bool} {s0 : State} {s : State} (hk : Keeps gr s0 s) :
    Keeps gr s0 (holdStart s) := by
  unfold holdStart
  repeat' (first
    | (with_reducible assumption)
    | (with_reducible refine Keeps.ite (fun _ => ?_) (fun _ => ?_))
    | (with_reducible refine Keeps.ite_fst (fun _ => ?_) (fun _ => ?_))
    | (with_reducible refine Keeps.ite_snd (fun _ => ?_) (fun _ => ?_))
    | (simp only [Keeps.mk_iff]; with_reducible refine KeepsParts.same (t := _) ?_ (by rfl) rfl rfl rfl))

theorem execHoldStart_keeps {gr : Group → Bool} {s : State}  :
    ∀ s1, execHoldStart s = .next s1 → Keeps gr s s1 := by
  intro s1 ht
  unfold execHoldStart at ht
  obtain rfl := Host.Outcome.next.inj ht
  have hk := Keeps.refl gr s
  repeat' (first
    | (with_reducible assumption)
    | (with_reducible apply advance_keeps)
    | (with_reducible apply holdStart_keeps)
    | (with_reducible refine Keeps.ite (fun _ => ?_) (fun _ => ?_)))

theorem holdEnd_keeps {gr : Group → Bool} {s0 : State} {s : State} (hk : Keeps gr s0 s) :
    Keeps gr s0 (holdEnd s) := by
  unfold holdEnd
  repeat' (first
    | (with_reducible assumption)
    | (with_reducible refine Keeps.ite (fun _ => ?_) (fun _ => ?_))
    | (with_reducible refine Keeps.ite_fst (fun _ => ?_) (fun _ => ?_))
    | (with_reducible refine Keeps.ite_snd (fun _ => ?_) (fun _ => ?_))
    | (simp only [Keeps.mk_iff]; with_reducible refine KeepsParts.same (t := _) ?_ (by rfl) rfl rfl rfl))

theorem execHoldEnd_keeps {gr : Group → Bool} {s : State}  :
    ∀ s1, execHoldEnd s = .next s1 → Keeps gr s s1 := by
  intro s1 ht
  unfold execHoldEnd at ht
  obtain rfl := Host.Outcome.next.inj ht
  have hk := Keeps.refl gr s
  repeat' (first
    | (with_reducible assumption)
    | (with_reducible apply advance_keeps)
    | (with_reducible apply holdEnd_keeps)
    | (with_reducible refine Keeps.ite (fun _ => ?_) (fun _ => ?_)))

theorem genNext_keeps {gr : Group → Bool} {s0 : State} {s : State} {g : Nat} (hk : Keeps gr s0 s) :
    Keeps gr s0 ((genNext s g).2) := by
  unfold genNext
  repeat' (first
    | (with_reducible assumption)
    | (with_reducible refine Keeps.ite (fun _ => ?_) (fun _ => ?_))
    | (with_reducible refine Keeps.ite_fst (fun _ => ?_) (fun _ => ?_))
    | (with_reducible refine Keeps.ite_snd (fun _ => ?_) (fun _ => ?_))
    | (simp only [Keeps.mk_iff]; with_reducible refine KeepsParts.same (t := _) ?_ (by rfl) rfl rfl rfl))

theorem genAddrs_keeps {gr : Group → Bool} {s0 : State} {s : State} {w : Nat} (hk : Keeps gr s0 s) :
    Keeps gr s0 ((genAddrs s w).2) := by
  unfold genAddrs
  repeat' (first
    | (with_reducible assumption)
    | (with_reducible apply genNext_keeps)
    | (with_reducible refine Keeps.ite (fun _ => ?_) (fun _ => ?_))
    | (with_reducible refine Keeps.ite_fst (fun _ => ?_) (fun _ => ?_))
    | (with_reducible refine Keeps.ite_snd (fun _ => ?_) (fun _ => ?_))
    | (with_reducible refine Keeps.of_snd (y := (_, _)) (x := genNext _ _) ?_ (by assumption))
    | (with_reducible refine Keeps.foldl _ _ ?_ (fun t a hk => ?_))
    | (with_reducible refine Keeps.foldl_fst _ _ _ ?_ (fun x a hk => ?_))
    | (with_reducible refine Keeps.foldl_snd _ _ _ ?_ (fun x a hk => ?_)))

theorem reserve_keeps {gr : Group → Bool} {s0 : State} {s : State} {line n : Nat} (hk : Keeps gr s0 s) :
    Keeps gr s0 (reserve s line n) := by
  unfold reserve
  repeat' (first
    | (with_reducible assumption)
    | (with_reducible apply chargeHold_keeps)
    | (with_reducible apply ev_keeps)
    | (with_reducible refine Keeps.ite (fun _ => ?_) (fun _ => ?_))
    | (with_reducible refine Keeps.ite_fst (fun _ => ?_) (fun _ => ?_))
    | (with_reducible refine Keeps.ite_snd (fun _ => ?_) (fun _ => ?_))
    | (simp only [Keeps.mk_iff]; with_reducible refine KeepsParts.same (t := _) ?_ (by rfl) rfl rfl rfl))

theorem planLookup_keeps {gr : Group → Bool} {s0 : State} {s : State} {line : Nat} {m : LineMask} {n qos : Nat} {arith : Bool} (hk : Keeps gr s0 s) :
    Keeps gr s0 (planLookup s line m n qos arith) := by
  unfold planLookup
  repeat' (first
    | (with_reducible assumption)
    | (with_reducible apply activity_keeps)
    | (with_reducible apply lookup_keeps)
    | (with_reducible apply sfCheckSet_keeps)
    | (with_reducible apply ev_keeps)
    | (with_reducible refine Keeps.ite (fun _ => ?_) (fun _ => ?_))
    | (with_reducible refine Keeps.ite_fst (fun _ => ?_) (fun _ => ?_))
    | (with_reducible refine Keeps.ite_snd (fun _ => ?_) (fun _ => ?_))
    | (with_reducible refine Keeps.foldl _ _ ?_ (fun t a hk => ?_)))

theorem planRead_keeps {gr : Group → Bool} {s0 : State} {s : State} {addr xform qos : Nat} (hk : Keeps gr s0 s) :
    Keeps gr s0 ((planRead s addr xform qos).1) := by
  unfold planRead
  repeat' (first
    | (with_reducible assumption)
    | (with_reducible apply planLookup_keeps)
    | (with_reducible apply reserve_keeps)
    | (with_reducible apply evN_keeps)
    | (with_reducible apply fallowNote_keeps)
    | (with_reducible apply ev_keeps)
    | (with_reducible apply checkLine_keeps)
    | (with_reducible refine Keeps.ite (fun _ => ?_) (fun _ => ?_))
    | (with_reducible refine Keeps.ite_fst (fun _ => ?_) (fun _ => ?_))
    | (with_reducible refine Keeps.ite_snd (fun _ => ?_) (fun _ => ?_))
    | (with_reducible refine Keeps.of_fst (y := (_, _)) (x := checkLine _ _ _ _ _) ?_ (by assumption))
    | dsimp only
    | split)

theorem planFeed_keeps {gr : Group → Bool} {s0 : State} {s : State} {d : Nat} {bs : Bytes} (hk : Keeps gr s0 s) :
    Keeps gr s0 (planFeed s d bs) := by
  unfold planFeed
  repeat' (first
    | (with_reducible assumption)
    | (with_reducible refine Keeps.ite (fun _ => ?_) (fun _ => ?_))
    | (with_reducible refine Keeps.ite_fst (fun _ => ?_) (fun _ => ?_))
    | (with_reducible refine Keeps.ite_snd (fun _ => ?_) (fun _ => ?_))
    | (simp only [Keeps.mk_iff]; with_reducible refine KeepsParts.same (t := _) ?_ (by rfl) rfl rfl rfl))

theorem planPut_keeps {gr : Group → Bool} {s0 : State} {s : State} {line li : Nat} {d : LineData} {m : LineMask} {alloc : Bool} {qos vis : Nat} (hk : Keeps gr s0 s) :
    Keeps gr s0 ((planPut s line li d m alloc qos vis).1) := by
  unfold planPut
  repeat' (first
    | (with_reducible assumption)
    | (with_reducible apply memWriteMasked_keeps)
    | (with_reducible apply unprotect_keeps)
    | (with_reducible apply planRoom_keeps)
    | (with_reducible apply ev_keeps)
    | (with_reducible apply planMerge_keeps)
    | (with_reducible apply chargeHold_keeps)
    | (with_reducible apply closeFor_keeps)
    | (with_reducible apply planStore_keeps)
    | (with_reducible apply veil_keeps)
    | (with_reducible apply planAlloc_keeps)
    | (with_reducible refine Keeps.ite (fun _ => ?_) (fun _ => ?_))
    | (with_reducible refine Keeps.ite_fst (fun _ => ?_) (fun _ => ?_))
    | (with_reducible refine Keeps.ite_snd (fun _ => ?_) (fun _ => ?_))
    | (simp only [Keeps.mk_iff]; with_reducible refine KeepsParts.same (t := _) ?_ (by rfl) rfl rfl rfl)
    | (with_reducible refine Keeps.of_fst (y := (_, _)) (x := planRoom _ _ _ _) ?_ (by assumption))
    | (with_reducible refine Keeps.of_fst (y := (_, _)) (x := planStore _ _ _ _ _ _) ?_ (by assumption))
    | (with_reducible refine Keeps.of_fst (y := (_, _)) (x := planAlloc _ _ _ _) ?_ (by assumption))
    | dsimp only
    | split)

theorem planWrite_keeps {gr : Group → Bool} {s0 : State} {s : State} {addr xform qos : Nat} {alloc : Bool} {mask : Nat} {bytes : Bytes} {vis : Nat} (hk : Keeps gr s0 s) :
    Keeps gr s0 ((planWrite s addr xform qos alloc mask bytes vis).1) := by
  unfold planWrite
  repeat' (first
    | (with_reducible assumption)
    | (with_reducible apply planLookup_keeps)
    | (with_reducible apply evN_keeps)
    | (with_reducible apply reserve_keeps)
    | (with_reducible apply planPut_keeps)
    | (with_reducible refine Keeps.ite (fun _ => ?_) (fun _ => ?_))
    | (with_reducible refine Keeps.ite_fst (fun _ => ?_) (fun _ => ?_)))

theorem planAdd_keeps {gr : Group → Bool} {s0 : State} {s : State} {addr afmt qos mask : Nat} {bytes : Bytes} (hk : Keeps gr s0 s) :
    Keeps gr s0 ((planAdd s addr afmt qos mask bytes).1) := by
  unfold planAdd
  repeat' (first
    | (with_reducible assumption)
    | (with_reducible apply planLookup_keeps)
    | (with_reducible apply contribAt_keeps)
    | (with_reducible apply atomMemSide_keeps)
    | (with_reducible apply unprotect_keeps)
    | (with_reducible apply openGood_keeps)
    | (with_reducible apply planOpen_keeps)
    | (with_reducible apply chargeHold_keeps)
    | (with_reducible apply planRoom_keeps)
    | (with_reducible apply ev_keeps)
    | (with_reducible apply planSum_keeps)
    | (with_reducible apply veil_keeps)
    | (with_reducible apply reserve_keeps)
    | (with_reducible refine Keeps.ite (fun _ => ?_) (fun _ => ?_))
    | (with_reducible refine Keeps.ite_fst (fun _ => ?_) (fun _ => ?_))
    | (with_reducible refine Keeps.ite_snd (fun _ => ?_) (fun _ => ?_))
    | (simp only [Keeps.mk_iff]; with_reducible refine KeepsParts.same (t := _) ?_ (by rfl) rfl rfl rfl)
    | (with_reducible refine Keeps.of_fst (y := (_, _)) (x := contribAt _ _ _ _ _ _ _ _) ?_ (by assumption))
    | (with_reducible refine Keeps.of_done (x := atomMemSide _ _) ?_ (by assumption))
    | (with_reducible refine Keeps.of_wait (x := atomMemSide _ _) ?_ (by assumption))
    | (with_reducible refine Keeps.of_again (x := atomMemSide _ _) ?_ (by assumption))
    | (with_reducible refine Keeps.of_fst (y := (_, _)) (x := openGood _ _ _) ?_ (by assumption))
    | (with_reducible refine Keeps.of_fst (y := (_, _)) (x := planRoom _ _ _ _) ?_ (by assumption))
    | (with_reducible refine Keeps.of_fst (y := (_, _)) (x := planSum _ _ _ _) ?_ (by assumption))
    | dsimp only
    | split)

theorem stageSeen_keeps {gr : Group → Bool} {s0 : State} {s : State} {k li : Nat} {attr age qos : Nat} (hk : Keeps gr s0 s) :
    Keeps gr s0 (stageSeen s k li attr age qos) := by
  unfold stageSeen
  repeat' (first
    | (with_reducible assumption)
    | (with_reducible apply stageDrop_keeps)
    | (with_reducible apply ev_keeps)
    | (with_reducible apply mheStart_keeps)
    | (with_reducible apply setFilling_keeps)
    | (with_reducible apply stage_keeps)
    | (with_reducible refine Keeps.ite (fun _ => ?_) (fun _ => ?_)))

theorem stageInLine_keeps {gr : Group → Bool} {s0 : State} {s : State} {line age qos : Nat} (hk : Keeps gr s0 s) :
    Keeps gr s0 (stageInLine s line age qos) := by
  unfold stageInLine
  repeat' (first
    | (with_reducible assumption)
    | (with_reducible apply planLookup_keeps)
    | (with_reducible apply stageDrop_keeps)
    | (with_reducible apply linePut_keeps)
    | (with_reducible apply ev_keeps)
    | (with_reducible apply stageSeen_keeps)
    | (with_reducible apply stageFill_keeps)
    | (with_reducible refine Keeps.ite (fun _ => ?_) (fun _ => ?_))
    | (with_reducible refine Keeps.ite_fst (fun _ => ?_) (fun _ => ?_))
    | (with_reducible refine Keeps.ite_snd (fun _ => ?_) (fun _ => ?_))
    | (simp only [Keeps.mk_iff]; with_reducible refine KeepsParts.same (t := _) ?_ (by rfl) rfl rfl rfl)
    | (with_reducible refine Keeps.of_done (x := stageFill _ _ _ _) ?_ (by assumption))
    | (with_reducible refine Keeps.of_wait (x := stageFill _ _ _ _) ?_ (by assumption))
    | (with_reducible refine Keeps.of_again (x := stageFill _ _ _ _) ?_ (by assumption))
    | dsimp only
    | split)

theorem stageOutLine_keeps {gr : Group → Bool} {s0 : State} {s : State} {line qos : Nat} (hk : Keeps gr s0 s) :
    Keeps gr s0 ((stageOutLine s line qos).1) := by
  unfold stageOutLine
  repeat' (first
    | (with_reducible assumption)
    | (with_reducible apply planLookup_keeps)
    | (with_reducible apply stageOutKeep_keeps)
    | (with_reducible apply checkLine_keeps)
    | (with_reducible apply closeFor_keeps)
    | (with_reducible apply stageOutWrite_keeps)
    | (with_reducible refine Keeps.ite (fun _ => ?_) (fun _ => ?_))
    | (with_reducible refine Keeps.ite_fst (fun _ => ?_) (fun _ => ?_))
    | (with_reducible refine Keeps.ite_snd (fun _ => ?_) (fun _ => ?_))
    | (with_reducible refine Keeps.of_fst (y := (_, _)) (x := checkLine _ _ _ _ _) ?_ (by assumption))
    | (with_reducible refine Keeps.of_fst (y := (_, _)) (x := stageOutWrite _ _) ?_ (by assumption))
    | dsimp only
    | split)

theorem planSend_keeps {gr : Group → Bool} {s0 : State} {s : State} {addr qos : Nat} {bs : Bytes} (hk : Keeps gr s0 s) :
    Keeps gr s0 (planSend s addr qos bs) := by
  unfold planSend
  repeat' (first
    | (with_reducible assumption)
    | (with_reducible apply ev_keeps)
    | (with_reducible apply chargeHold_keeps)
    | (with_reducible apply ttSend_keeps)
    | (with_reducible refine Keeps.ite (fun _ => ?_) (fun _ => ?_)))

theorem takeBeat_keeps {gr : Group → Bool} {s0 : State} {s : State} {peer : Nat} (hk : Keeps gr s0 s) :
    Keeps gr s0 ((takeBeat s peer).2) := by
  unfold takeBeat
  repeat' (first
    | (with_reducible assumption)
    | (with_reducible apply postError_keeps)
    | (with_reducible refine Keeps.ite (fun _ => ?_) (fun _ => ?_))
    | (with_reducible refine Keeps.ite_fst (fun _ => ?_) (fun _ => ?_))
    | (with_reducible refine Keeps.ite_snd (fun _ => ?_) (fun _ => ?_))
    | (simp only [Keeps.mk_iff]; with_reducible refine KeepsParts.same (t := _) ?_ (by rfl) rfl rfl rfl)
    | dsimp only
    | split)

theorem passCount_keeps {gr : Group → Bool} {s0 : State} {s : State} {st : Nat} (hk : Keeps gr s0 s) :
    Keeps gr s0 (passCount s st) := by
  unfold passCount
  repeat' (first
    | (with_reducible assumption)
    | (with_reducible apply ev_keeps)
    | (with_reducible refine Keeps.ite (fun _ => ?_) (fun _ => ?_))
    | (with_reducible refine Keeps.ite_fst (fun _ => ?_) (fun _ => ?_))
    | (with_reducible refine Keeps.ite_snd (fun _ => ?_) (fun _ => ?_))
    | (simp only [Keeps.mk_iff]; with_reducible refine KeepsParts.same (t := _) ?_ (by rfl) rfl rfl rfl))

theorem instanceRun_keeps {gr : Group → Bool} {s0 : State} {s : State} {w : Nat} {opens : Bool} {f : State → State × Nat} (hk : Keeps gr s0 s) (hf : ∀ t, Keeps gr s0 t → Keeps gr s0 (f t).1) :
    Keeps gr s0 (instanceRun s w opens f) := by
  unfold instanceRun
  repeat' (first
    | (with_reducible assumption)
    | (with_reducible refine hf _ ?_)
    | (with_reducible apply hf)
    | (with_reducible apply ev_keeps)
    | (with_reducible apply passCount_keeps)
    | (with_reducible apply advance_keeps)
    | (with_reducible refine Keeps.ite (fun _ => ?_) (fun _ => ?_))
    | (with_reducible refine Keeps.ite_fst (fun _ => ?_) (fun _ => ?_))
    | (with_reducible refine Keeps.ite_snd (fun _ => ?_) (fun _ => ?_))
    | (simp only [Keeps.mk_iff]; with_reducible refine KeepsParts.same (t := _) ?_ (by rfl) rfl rfl rfl))

theorem instance__keeps {gr : Group → Bool} {s0 : State} {s : State} {op : Nat} {f : State → Nat → State × Nat} (hk : Keeps gr s0 s) (hf : ∀ t c, Keeps gr s0 t → Keeps gr s0 (f t c).1) :
    Keeps gr s0 (instance_ s op f) := by
  unfold instance_
  repeat' (first
    | (with_reducible assumption)
    | (with_reducible refine hf _ ?_)
    | (with_reducible apply hf)
    | (with_reducible apply instanceRun_keeps)
    | (with_reducible refine Keeps.ite (fun _ => ?_) (fun _ => ?_))
    | (with_reducible refine Keeps.ite_fst (fun _ => ?_) (fun _ => ?_))
    | (with_reducible refine Keeps.ite_snd (fun _ => ?_) (fun _ => ?_))
    | intro t a hk
    | intro t hk
    | dsimp only
    | split)

theorem execOpenCycle_keeps {gr : Group → Bool} {s : State}  :
    ∀ s1, execOpenCycle s = .next s1 → Keeps gr s s1 := by
  intro s1 ht
  unfold execOpenCycle at ht
  obtain rfl := Host.Outcome.next.inj ht
  have hk := Keeps.refl gr s
  repeat' (first
    | (with_reducible assumption)
    | (with_reducible apply instance__keeps)
    | (with_reducible refine Keeps.ite (fun _ => ?_) (fun _ => ?_))
    | (with_reducible refine Keeps.ite_fst (fun _ => ?_) (fun _ => ?_))
    | (with_reducible refine Keeps.ite_snd (fun _ => ?_) (fun _ => ?_))
    | intro t a hk)

theorem planStoreBad_keeps {gr : Group → Bool} {s0 : State} {s : State} (hk : Keeps gr s0 s) :
    Keeps gr s0 ((planStoreBad s).1) := by
  unfold planStoreBad
  repeat' (first
    | (with_reducible assumption)
    | (with_reducible apply postError_keeps)
    | (with_reducible refine Keeps.ite (fun _ => ?_) (fun _ => ?_))
    | (with_reducible refine Keeps.ite_fst (fun _ => ?_) (fun _ => ?_))
    | (with_reducible refine Keeps.ite_snd (fun _ => ?_) (fun _ => ?_))
    | (simp only [Keeps.mk_iff]; with_reducible refine KeepsParts.same (t := _) ?_ (by rfl) rfl rfl rfl))

theorem execQuiet_keeps {gr : Group → Bool} {s : State} {parityBad : Bool} :
    ∀ s1, execQuiet s parityBad = .next s1 → Keeps gr s s1 := by
  intro s1 ht
  unfold execQuiet at ht
  obtain rfl := Host.Outcome.next.inj ht
  have hk := Keeps.refl gr s
  repeat' (first
    | (with_reducible assumption)
    | (with_reducible apply instanceRun_keeps)
    | (with_reducible apply planStoreBad_keeps)
    | (with_reducible apply instance__keeps)
    | (with_reducible refine Keeps.ite (fun _ => ?_) (fun _ => ?_))
    | (with_reducible refine Keeps.ite_fst (fun _ => ?_) (fun _ => ?_))
    | (with_reducible refine Keeps.ite_snd (fun _ => ?_) (fun _ => ?_))
    | (with_reducible refine Keeps.of_fst (y := (_, _)) (x := planStoreBad _) ?_ (by assumption))
    | intro t a hk
    | intro t hk
    | dsimp only
    | split)

theorem readInstance_keeps {gr : Group → Bool} {s0 : State} {s : State} {w : Nat} (hk : Keeps gr s0 s) :
    Keeps gr s0 ((readInstance s w).1) := by
  unfold readInstance
  repeat' (first
    | (with_reducible assumption)
    | (with_reducible apply genAddrs_keeps)
    | (with_reducible apply planRead_keeps)
    | (with_reducible apply planFeed_keeps)
    | (with_reducible refine Keeps.ite (fun _ => ?_) (fun _ => ?_)))

theorem execArrToBlk_keeps {gr : Group → Bool} {s : State}  :
    ∀ s1, execArrToBlk s = .next s1 → Keeps gr s s1 := by
  intro s1 ht
  unfold execArrToBlk at ht
  obtain rfl := Host.Outcome.next.inj ht
  have hk := Keeps.refl gr s
  repeat' (first
    | (with_reducible assumption)
    | (with_reducible apply instance__keeps)
    | (with_reducible apply readInstance_keeps)
    | (with_reducible apply drive_keeps)
    | (with_reducible refine Keeps.ite (fun _ => ?_) (fun _ => ?_))
    | (with_reducible refine Keeps.ite_fst (fun _ => ?_) (fun _ => ?_))
    | (with_reducible refine Keeps.ite_snd (fun _ => ?_) (fun _ => ?_))
    | (with_reducible refine Keeps.of_fst (y := (_, _)) (x := readInstance _ _) ?_ (by assumption))
    | (with_reducible refine Keeps.of_fst (y := (_, _, _)) (x := readInstance _ _) ?_ (by assumption))
    | intro t a hk)

theorem planNoBeat_keeps {gr : Group → Bool} {s0 : State} {s : State} {addr xform qos : Nat} (hk : Keeps gr s0 s) :
    Keeps gr s0 (planNoBeat s addr xform qos) := by
  unfold planNoBeat
  repeat' (first
    | (with_reducible assumption)
    | (with_reducible apply planLookup_keeps))

theorem execBlkToArr_keeps {gr : Group → Bool} {s : State}  :
    ∀ s1, execBlkToArr s = .next s1 → Keeps gr s s1 := by
  intro s1 ht
  unfold execBlkToArr at ht
  obtain rfl := Host.Outcome.next.inj ht
  have hk := Keeps.refl gr s
  repeat' (first
    | (with_reducible assumption)
    | (with_reducible apply instance__keeps)
    | (with_reducible apply genAddrs_keeps)
    | (with_reducible apply takeBeat_keeps)
    | (with_reducible apply planNoBeat_keeps)
    | (with_reducible apply planWrite_keeps)
    | (with_reducible apply planFeed_keeps)
    | (with_reducible refine Keeps.ite (fun _ => ?_) (fun _ => ?_))
    | (with_reducible refine Keeps.ite_fst (fun _ => ?_) (fun _ => ?_))
    | (with_reducible refine Keeps.ite_snd (fun _ => ?_) (fun _ => ?_))
    | (with_reducible refine Keeps.of_snd (y := (_, _)) (x := genAddrs _ _) ?_ (by assumption))
    | (with_reducible refine Keeps.of_snd (y := (_, _)) (x := takeBeat _ _) ?_ (by assumption))
    | (with_reducible refine Keeps.of_fst (y := (_, _)) (x := planWrite _ _ _ _ _ _ _ _) ?_ (by assumption))
    | intro t a hk
    | intro t hk
    | dsimp only
    | split)

theorem execBlkAdd_keeps {gr : Group → Bool} {s : State}  :
    ∀ s1, execBlkAdd s = .next s1 → Keeps gr s s1 := by
  intro s1 ht
  unfold execBlkAdd at ht
  obtain rfl := Host.Outcome.next.inj ht
  have hk := Keeps.refl gr s
  repeat' (first
    | (with_reducible assumption)
    | (with_reducible apply instance__keeps)
    | (with_reducible apply genAddrs_keeps)
    | (with_reducible apply takeBeat_keeps)
    | (with_reducible apply planNoBeat_keeps)
    | (with_reducible apply planAdd_keeps)
    | (with_reducible refine Keeps.ite (fun _ => ?_) (fun _ => ?_))
    | (with_reducible refine Keeps.ite_fst (fun _ => ?_) (fun _ => ?_))
    | (with_reducible refine Keeps.ite_snd (fun _ => ?_) (fun _ => ?_))
    | (with_reducible refine Keeps.of_snd (y := (_, _)) (x := genAddrs _ _) ?_ (by assumption))
    | (with_reducible refine Keeps.of_snd (y := (_, _)) (x := takeBeat _ _) ?_ (by assumption))
    | (with_reducible refine Keeps.of_fst (y := (_, _)) (x := planAdd _ _ _ _ _ _) ?_ (by assumption))
    | intro t a hk
    | intro t hk
    | dsimp only
    | split)

theorem execStageIn_keeps {gr : Group → Bool} {s : State}  :
    ∀ s1, execStageIn s = .next s1 → Keeps gr s s1 := by
  intro s1 ht
  unfold execStageIn at ht
  obtain rfl := Host.Outcome.next.inj ht
  have hk := Keeps.refl gr s
  repeat' (first
    | (with_reducible assumption)
    | (with_reducible apply instance__keeps)
    | (with_reducible apply genAddrs_keeps)
    | (with_reducible apply stageInLine_keeps)
    | (with_reducible refine Keeps.ite (fun _ => ?_) (fun _ => ?_))
    | (with_reducible refine Keeps.ite_fst (fun _ => ?_) (fun _ => ?_))
    | (with_reducible refine Keeps.ite_snd (fun _ => ?_) (fun _ => ?_))
    | (with_reducible refine Keeps.of_snd (y := (_, _)) (x := genAddrs _ _) ?_ (by assumption))
    | intro t a hk)

theorem execStageOut_keeps {gr : Group → Bool} {s : State}  :
    ∀ s1, execStageOut s = .next s1 → Keeps gr s s1 := by
  intro s1 ht
  unfold execStageOut at ht
  obtain rfl := Host.Outcome.next.inj ht
  have hk := Keeps.refl gr s
  repeat' (first
    | (with_reducible assumption)
    | (with_reducible apply instance__keeps)
    | (with_reducible apply genAddrs_keeps)
    | (with_reducible apply stageOutLine_keeps)
    | (with_reducible refine Keeps.ite (fun _ => ?_) (fun _ => ?_))
    | (with_reducible refine Keeps.ite_fst (fun _ => ?_) (fun _ => ?_))
    | (with_reducible refine Keeps.ite_snd (fun _ => ?_) (fun _ => ?_))
    | (with_reducible refine Keeps.of_snd (y := (_, _)) (x := genAddrs _ _) ?_ (by assumption))
    | (with_reducible refine Keeps.of_fst (y := (_, _)) (x := stageOutLine _ _ _) ?_ (by assumption))
    | intro t a hk)

theorem execArrToArr_keeps {gr : Group → Bool} {s : State}  :
    ∀ s1, execArrToArr s = .next s1 → Keeps gr s s1 := by
  intro s1 ht
  unfold execArrToArr at ht
  obtain rfl := Host.Outcome.next.inj ht
  have hk := Keeps.refl gr s
  repeat' (first
    | (with_reducible assumption)
    | (with_reducible apply instance__keeps)
    | (with_reducible apply readInstance_keeps)
    | (with_reducible apply planWrite_keeps)
    | (with_reducible refine Keeps.ite (fun _ => ?_) (fun _ => ?_))
    | (with_reducible refine Keeps.ite_fst (fun _ => ?_) (fun _ => ?_))
    | (with_reducible refine Keeps.ite_snd (fun _ => ?_) (fun _ => ?_))
    | (with_reducible refine Keeps.of_fst (y := (_, _)) (x := readInstance _ _) ?_ (by assumption))
    | (with_reducible refine Keeps.of_fst (y := (_, _, _)) (x := readInstance _ _) ?_ (by assumption))
    | (with_reducible refine Keeps.of_fst (y := (_, _)) (x := planWrite _ _ _ _ _ _ _ _) ?_ (by assumption))
    | intro t a hk)

theorem execArrScan_keeps {gr : Group → Bool} {s : State}  :
    ∀ s1, execArrScan s = .next s1 → Keeps gr s s1 := by
  intro s1 ht
  unfold execArrScan at ht
  obtain rfl := Host.Outcome.next.inj ht
  have hk := Keeps.refl gr s
  repeat' (first
    | (with_reducible assumption)
    | (with_reducible apply instance__keeps)
    | (with_reducible apply readInstance_keeps))

theorem execTthOut_keeps {gr : Group → Bool} {s : State}  :
    ∀ s1, execTthOut s = .next s1 → Keeps gr s s1 := by
  intro s1 ht
  unfold execTthOut at ht
  obtain rfl := Host.Outcome.next.inj ht
  have hk := Keeps.refl gr s
  repeat' (first
    | (with_reducible assumption)
    | (with_reducible apply instance__keeps)
    | (with_reducible apply readInstance_keeps)
    | (with_reducible apply planSend_keeps)
    | (with_reducible refine Keeps.ite (fun _ => ?_) (fun _ => ?_))
    | (with_reducible refine Keeps.ite_fst (fun _ => ?_) (fun _ => ?_))
    | (with_reducible refine Keeps.ite_snd (fun _ => ?_) (fun _ => ?_))
    | (with_reducible refine Keeps.of_fst (y := (_, _)) (x := readInstance _ _) ?_ (by assumption))
    | (with_reducible refine Keeps.of_fst (y := (_, _, _)) (x := readInstance _ _) ?_ (by assumption))
    | intro t a hk)

theorem pacedSyn_keeps {gr : Group → Bool} {s0 : State} {s : State} (hk : Keeps gr s0 s) :
    Keeps gr s0 (pacedSyn s) := by
  unfold pacedSyn
  repeat' (first
    | (with_reducible assumption)
    | (with_reducible refine Keeps.ite (fun _ => ?_) (fun _ => ?_))
    | (with_reducible refine Keeps.ite_fst (fun _ => ?_) (fun _ => ?_))
    | (with_reducible refine Keeps.ite_snd (fun _ => ?_) (fun _ => ?_))
    | (simp only [Keeps.mk_iff]; with_reducible refine KeepsParts.same (t := _) ?_ (by rfl) rfl rfl rfl))

theorem execSynOut_keeps {gr : Group → Bool} {s : State}  :
    ∀ s1, execSynOut s = .next s1 → Keeps gr s s1 := by
  intro s1 ht
  unfold execSynOut at ht
  obtain rfl := Host.Outcome.next.inj ht
  have hk := Keeps.refl gr s
  repeat' (first
    | (with_reducible assumption)
    | (with_reducible apply instance__keeps)
    | (with_reducible apply drive_keeps)
    | (with_reducible apply pacedSyn_keeps)
    | (with_reducible refine Keeps.ite (fun _ => ?_) (fun _ => ?_))
    | (with_reducible refine Keeps.ite_fst (fun _ => ?_) (fun _ => ?_))
    | (with_reducible refine Keeps.ite_snd (fun _ => ?_) (fun _ => ?_))
    | intro t a hk)

theorem execKernel_keeps {gr : Group → Bool} {s : State}  :
    ∀ s1, execKernel s = .next s1 → Keeps gr s s1 := by
  intro s1 ht
  unfold execKernel at ht
  obtain rfl := Host.Outcome.next.inj ht
  have hk := Keeps.refl gr s
  repeat' (first
    | (with_reducible assumption)
    | (with_reducible apply instance__keeps)
    | (with_reducible apply activity_keeps)
    | (with_reducible refine Keeps.ite (fun _ => ?_) (fun _ => ?_))
    | (with_reducible refine Keeps.ite_fst (fun _ => ?_) (fun _ => ?_))
    | (with_reducible refine Keeps.ite_snd (fun _ => ?_) (fun _ => ?_))
    | (simp only [Keeps.mk_iff]; with_reducible refine KeepsParts.same (t := _) ?_ (by rfl) rfl rfl rfl)
    | intro t a hk)

theorem synWord_keeps {gr : Group → Bool} {s0 : State} {s : State} {word src : Nat} {parityBad : Bool} (hk : Keeps gr s0 s) :
    Keeps gr s0 (synWord s word src parityBad) := by
  unfold synWord
  repeat' (first
    | (with_reducible assumption)
    | (with_reducible apply parityRecord_keeps)
    | (with_reducible apply ev_keeps)
    | (with_reducible apply csrSet_keeps)
    | exact .inr (by decide)
    | (with_reducible refine Keeps.ite (fun _ => ?_) (fun _ => ?_))
    | (with_reducible refine Keeps.ite_fst (fun _ => ?_) (fun _ => ?_))
    | (with_reducible refine Keeps.ite_snd (fun _ => ?_) (fun _ => ?_))
    | (simp only [Keeps.mk_iff]; with_reducible refine KeepsParts.same (t := _) ?_ (by rfl) rfl rfl rfl)
    | dsimp only
    | split)

theorem execSynWord_keeps {gr : Group → Bool} {s : State} {word src : Nat} {parityBad : Bool} :
    ∀ s1, execSynWord word src parityBad s = .next s1 → Keeps gr s s1 := by
  intro s1 ht
  unfold execSynWord at ht
  obtain rfl := Host.Outcome.next.inj ht
  have hk := Keeps.refl gr s
  repeat' (first
    | (with_reducible assumption)
    | (with_reducible apply synWord_keeps)
    | (with_reducible refine Keeps.ite (fun _ => ?_) (fun _ => ?_)))

theorem writeBeat_keeps {gr : Group → Bool} {s0 : State} {s : State} {src mask : Nat} {parityBad : Bool} {bytes : Bytes} (hk : Keeps gr s0 s) :
    Keeps gr s0 (writeBeat s src mask parityBad bytes) := by
  unfold writeBeat
  repeat' (first
    | (with_reducible assumption)
    | (with_reducible apply parityRecord_keeps)
    | (with_reducible apply ev_keeps)
    | (with_reducible apply activity_keeps)
    | (with_reducible apply meter_keeps)
    | (with_reducible refine Keeps.ite (fun _ => ?_) (fun _ => ?_))
    | (with_reducible refine Keeps.ite_fst (fun _ => ?_) (fun _ => ?_))
    | (with_reducible refine Keeps.ite_snd (fun _ => ?_) (fun _ => ?_))
    | (simp only [Keeps.mk_iff]; with_reducible refine KeepsParts.same (t := _) ?_ (by rfl) rfl rfl rfl)
    | dsimp only
    | split)

theorem execScheduledWriteBeat_keeps {gr : Group → Bool} {s : State} {src mask : Nat} {parityBad : Bool} {bytes : Bytes} :
    ∀ s1, execScheduledWriteBeat src mask parityBad bytes s = .next s1 → Keeps gr s s1 := by
  intro s1 ht
  unfold execScheduledWriteBeat at ht
  obtain rfl := Host.Outcome.next.inj ht
  have hk := Keeps.refl gr s
  repeat' (first
    | (with_reducible assumption)
    | (with_reducible apply writeBeat_keeps)
    | (with_reducible refine Keeps.ite (fun _ => ?_) (fun _ => ?_)))

end Sys2Proof.Machine
end

