-- ==== Sys2Proof/Laws/KeepsPower.lean ====
section
/-! SUPPORT. What the operations of Machine/Power.lean keep (Laws/Keeps.lean). -/

namespace Sys2Proof.Machine

open Sys2Proof

set_option Elab.async false

set_option linter.unusedSimpArgs false

/-- What the state a meaning answers keeps. -/

theorem nextOr_keeps {gr : Group → Bool} {s0 s : State} {r : Host.Outcome State Fault Refusal} (hk : Keeps gr s0 s)
    (h : ∀ s1, r = .next s1 → Keeps gr s s1) : Keeps gr s0 (nextOr s r) := by
  unfold nextOr
  split
  · exact hk.trans (h _ rfl)
  · exact hk

theorem deliverOne_keeps {gr : Group → Bool} {s0 s : State} {c : Instr} (hk : Keeps gr s0 s) : Keeps gr s0 (deliverOne s c) := by
  unfold deliverOne
  refine nextOr_keeps hk ?_
  split
  · exact execRd_keeps
  · exact execRdBlk_keeps
  · exact execWr_keeps
  · exact execWrMask_keeps
  · exact execBlkDemandWr_keeps
  · exact execBlkAtl_keeps
  · exact execAtomic_keeps
  · exact execHostDrop_keeps
  · exact execBiConflict_keeps
  · exact execFence_keeps
  · exact execHintWr_keeps
  · exact execSnpIn_keeps
  · exact execHintAck_keeps
  · exact execSnpWb_keeps
  · exact execBiRsp_keeps
  · exact execCmp_keeps
  · exact execDoorbellReading_keeps
  · exact execDescriptorReadReturn_keeps
  · exact execMemReadReturn_keeps
  · exact execMemReplay_keeps
  · exact execMemWriteCompletion_keeps
  · exact execEvictionWritebackAccepted_keeps
  · exact execFlitReceived_keeps
  · exact execNegotiationFrame_keeps
  · exact execSyncWr_keeps
  · exact execSyncAck_keeps
  · exact execLagRec_keeps
  · exact execLagEnd_keeps
  · exact execLagAccept_keeps
  · exact execLagApplied_keeps
  · exact execDropMirror_keeps
  · exact execRepairRd_keeps
  · exact execRepairData_keeps
  · exact execPlanData_keeps
  · exact execResyncBegin_keeps
  · exact execResyncDone_keeps
  · intro s1 h
    cases h
    exact Keeps.refl gr s

theorem deliver_keeps {gr : Group → Bool} {s0 : State} {s : State} (hk : Keeps gr s0 s) :
    Keeps gr s0 (deliver s) := by
  unfold deliver
  repeat' (first
    | (with_reducible assumption)
    | (with_reducible apply deliverOne_keeps)
    | (with_reducible refine Keeps.ite (fun _ => ?_) (fun _ => ?_))
    | (with_reducible refine Keeps.ite_fst (fun _ => ?_) (fun _ => ?_))
    | (with_reducible refine Keeps.ite_snd (fun _ => ?_) (fun _ => ?_))
    | (simp only [Keeps.mk_iff]; with_reducible refine KeepsParts.same (t := _) ?_ (by rfl) rfl rfl rfl)
    | (with_reducible refine Keeps.foldl _ _ ?_ (fun t a hk => ?_)))

theorem resumeRings_keeps {gr : Group → Bool} {s0 : State} {s : State} (hk : Keeps gr s0 s) :
    Keeps gr s0 (resumeRings s) := by
  unfold resumeRings
  repeat' (first
    | (with_reducible assumption)
    | (with_reducible apply fetch_keeps)
    | (with_reducible apply watchIssue_keeps)
    | (with_reducible refine Keeps.ite (fun _ => ?_) (fun _ => ?_))
    | (with_reducible refine Keeps.ite_fst (fun _ => ?_) (fun _ => ?_))
    | (with_reducible refine Keeps.ite_snd (fun _ => ?_) (fun _ => ?_))
    | (with_reducible refine Keeps.foldl _ _ ?_ (fun t a hk => ?_)))

theorem linkResume_keeps {gr : Group → Bool} {s0 : State} {s : State} (hk : Keeps gr s0 s) :
    Keeps gr s0 (linkResume s) := by
  unfold linkResume
  repeat' (first
    | (with_reducible assumption)
    | (with_reducible apply linkDown_keeps)
    | (with_reducible apply trainStart_keeps)
    | (with_reducible refine Keeps.ite (fun _ => ?_) (fun _ => ?_)))

theorem sendHeld_keeps {gr : Group → Bool} {s0 : State} {s : State} (hk : Keeps gr s0 s) :
    Keeps gr s0 (sendHeld s) := by
  unfold sendHeld
  repeat' (first
    | (with_reducible assumption)
    | (with_reducible apply drive_keeps)
    | (with_reducible refine Keeps.ite (fun _ => ?_) (fun _ => ?_))
    | (with_reducible refine Keeps.ite_fst (fun _ => ?_) (fun _ => ?_))
    | (with_reducible refine Keeps.ite_snd (fun _ => ?_) (fun _ => ?_))
    | (simp only [Keeps.mk_iff]; with_reducible refine KeepsParts.same (t := _) ?_ (by rfl) rfl rfl rfl)
    | (with_reducible refine Keeps.foldl _ _ ?_ (fun t a hk => ?_)))

theorem coldState_keeps {gr : Group → Bool} {s0 s : State} (hk : Keeps gr s0 s) (hbPins : gr .pins = false)
    (hbLife : gr .life = false) (hbTime : gr .time = false) (hbKey : gr .key = false) (hbPlan : gr .plan = false)
    (hbPatch : gr .patch = false) (hbPacks : gr .packs = false) (hbPress : gr .press = false) (hbRegs : gr .regs = false) :
    Keeps gr s0 (coldState s) := by
  refine ⟨hk.pending, hk.out, fun _ => rfl, fun _ => rfl, fun _ => rfl, fun _ => rfl, hk.now, ?_, ?_, ?_, ?_, ?_, ?_, ?_, ?_, ?_⟩ <;>
    intro hb
  · rw [hbPins] at hb; cases hb
  · rw [hbLife] at hb; cases hb
  · rw [hbTime] at hb; cases hb
  · rw [hbKey] at hb; cases hb
  · rw [hbPlan] at hb; cases hb
  · rw [hbPatch] at hb; cases hb
  · rw [hbPacks] at hb; cases hb
  · rw [hbPress] at hb; cases hb
  · rw [hbRegs] at hb; cases hb

theorem execRstNAssert_keeps {gr : Group → Bool} {s : State}  (hbPins : gr .pins = false) (hbLife : gr .life = false) (hbTime : gr .time = false) (hbKey : gr .key = false) (hbPlan : gr .plan = false) (hbPatch : gr .patch = false) (hbPacks : gr .packs = false) (hbPress : gr .press = false) (hbRegs : gr .regs = false) :
    ∀ s1, execRstNAssert s = .next s1 → Keeps gr s s1 := by
  intro s1 ht
  unfold execRstNAssert at ht
  obtain rfl := Host.Outcome.next.inj ht
  have hk := Keeps.refl gr s
  repeat' (first
    | (with_reducible assumption)
    | (with_reducible apply coldState_keeps)
    | (with_reducible refine Keeps.ite (fun _ => ?_) (fun _ => ?_)))

theorem startGo_keeps {gr : Group → Bool} {s0 : State} {s : State} (hk : Keeps gr s0 s) (hbPins : gr .pins = false) :
    Keeps gr s0 (startGo s) := by
  unfold startGo
  repeat' (first
    | (with_reducible assumption)
    | (with_reducible refine Keeps.ite (fun _ => ?_) (fun _ => ?_))
    | (with_reducible refine Keeps.ite_fst (fun _ => ?_) (fun _ => ?_))
    | (with_reducible refine Keeps.ite_snd (fun _ => ?_) (fun _ => ?_))
    | (simp only [Keeps.mk_iff]; refine KeepsParts.freed (t := _) ?_))

theorem boot_keeps {gr : Group → Bool} {s0 : State} {s : State} {chip die sliceId : Nat} (hk : Keeps gr s0 s) (hbPins : gr .pins = false) (hbLife : gr .life = false) (hbRegs : gr .regs = false) :
    Keeps gr s0 (boot s chip die sliceId) := by
  unfold boot
  repeat' (first
    | (with_reducible assumption)
    | (with_reducible apply startGo_keeps)
    | (with_reducible apply csrSet_keeps)
    | exact .inr (by decide)
    | exact .inl (by assumption)
    | (with_reducible refine Keeps.ite (fun _ => ?_) (fun _ => ?_))
    | (with_reducible refine Keeps.ite_fst (fun _ => ?_) (fun _ => ?_))
    | (with_reducible refine Keeps.ite_snd (fun _ => ?_) (fun _ => ?_))
    | (simp only [Keeps.mk_iff]; refine KeepsParts.freed (t := _) ?_))

theorem execRstNRelease_keeps {gr : Group → Bool} {s : State} {chip die sliceId : Nat} (hbPins : gr .pins = false) (hbLife : gr .life = false) (hbRegs : gr .regs = false) :
    ∀ s1, execRstNRelease chip die sliceId s = .next s1 → Keeps gr s s1 := by
  intro s1 ht
  unfold execRstNRelease at ht
  obtain rfl := Host.Outcome.next.inj ht
  have hk := Keeps.refl gr s
  repeat' (first
    | (with_reducible assumption)
    | (with_reducible apply boot_keeps)
    | (with_reducible refine Keeps.ite (fun _ => ?_) (fun _ => ?_)))

theorem csrReset_keeps {gr : Group → Bool} {s0 s : State} (hk : Keeps gr s0 s) (hbRegs : gr .regs = false) :
    Keeps gr s0 (csrReset s) := by
  unfold csrReset
  refine Keeps.foldl _ _ (Keeps.foldl _ _ ?_ fun t a hk => csrPut_keeps hk (.inl hbRegs)) fun t a hk => csrPut_keeps hk (.inl hbRegs)
  exact ⟨hk.pending, hk.out, fun w => SMap.wf_filter _ (hk.csr w), hk.lines, hk.lasts, hk.sf, hk.now, hk.pins, hk.life, hk.time, hk.key,
    hk.plan, hk.patch, hk.packs, hk.press, fun hb => by rw [hbRegs] at hb; cases hb⟩

theorem retainedState_keeps {gr : Group → Bool} {s0 s : State} {kind : Nat} (hk : Keeps gr s0 s) (hbPins : gr .pins = false)
    (hbLife : gr .life = false) (hbPatch : gr .patch = false) (hbPacks : gr .packs = false) (hbRegs : gr .regs = false) :
    Keeps gr s0 (retainedState s kind) := by
  have no : ∀ {g : Group} {p : Prop}, gr g = false → gr g = true → p := by
    intro g p h1 h2
    rw [h1] at h2; cases h2
  unfold retainedState
  simp only [Keeps.mk_iff]
  exact .gen (csrReset_keeps hk hbRegs) (e1 := rfl) (e3 := List.prefix_refl _) (e7 := id) (e8 := id)
    (e9 := fun w => SMap.wf_mapVals _ w) (e10 := id) (e2 := fun _ => rfl) (e4 := no hbPins) (e5 := no hbLife) (e11 := fun _ => rfl)
    (e12 := fun _ => ⟨rfl, rfl, rfl⟩) (e15 := fun _ => ⟨rfl, rfl⟩) (e17 := no hbPatch) (e19 := no hbPacks) (e20 := fun _ => rfl)
    (e21 := fun _ _ _ => rfl)

theorem logicReset_keeps {gr : Group → Bool} {s0 : State} {s : State} {kind : Nat} (hk : Keeps gr s0 s) (hbPins : gr .pins = false) (hbLife : gr .life = false) (hbPatch : gr .patch = false) (hbPacks : gr .packs = false) (hbRegs : gr .regs = false) :
    Keeps gr s0 (logicReset s kind) := by
  unfold logicReset
  repeat' (first
    | (with_reducible assumption)
    | (with_reducible apply retainedState_keeps)
    | (with_reducible apply linkDown_keeps)
    | (with_reducible refine Keeps.ite (fun _ => ?_) (fun _ => ?_)))

theorem fillStores_keeps {gr : Group → Bool} {s0 s : State} (hk : Keeps gr s0 s) (hbPins : gr .pins = false)
    (hbPlan : gr .plan = false) : Keeps gr s0 (fillStores s) := by
  have no : ∀ {g : Group} {p : Prop}, gr g = false → gr g = true → p := by
    intro g p h1 h2
    rw [h1] at h2; cases h2
  unfold fillStores
  simp only [Keeps.mk_iff]
  exact .gen hk (e1 := rfl) (e3 := List.prefix_refl _) (e7 := id) (e8 := fun w => SMap.wf_filter _ w) (e9 := id)
    (e10 := fun _ => rfl) (e2 := fun _ => rfl) (e4 := no hbPins) (e5 := fun _ => ⟨rfl, rfl, rfl, rfl, rfl⟩) (e11 := fun _ => rfl)
    (e12 := fun _ => ⟨rfl, rfl, rfl⟩) (e15 := no hbPlan) (e17 := fun _ => ⟨rfl, rfl⟩) (e19 := fun _ => rfl) (e20 := fun _ => rfl)
    (e21 := fun _ _ _ => rfl)

theorem lostArrays_keeps {gr : Group → Bool} {s0 s : State} (hk : Keeps gr s0 s) (hbPins : gr .pins = false)
    (hbPlan : gr .plan = false) : Keeps gr s0 (lostArrays s) := by
  unfold lostArrays
  dsimp only
  refine fillStores_keeps (Keeps.foldl _ _ (Keeps.foldl _ _ ?_ fun t a hk => windowLost_keeps hk) fun t a hk => lastFail_keeps hk) hbPins
    hbPlan
  exact ⟨hk.pending, hk.out, hk.csr, hk.lines, hk.lasts, fun _ => rfl, hk.now, hk.pins, hk.life, hk.time, hk.key, hk.plan, hk.patch,
    hk.packs, hk.press, hk.regs⟩

theorem reissue_keeps {gr : Group → Bool} {s0 : State} {s : State} (hk : Keeps gr s0 s) :
    Keeps gr s0 (reissue s) := by
  unfold reissue
  repeat' (first
    | (with_reducible assumption)
    | (with_reducible apply memRead_keeps)
    | (with_reducible apply sendMsg_keeps)
    | (with_reducible refine Keeps.ite (fun _ => ?_) (fun _ => ?_))
    | (with_reducible refine Keeps.ite_fst (fun _ => ?_) (fun _ => ?_))
    | (with_reducible refine Keeps.ite_snd (fun _ => ?_) (fun _ => ?_))
    | (simp only [Keeps.mk_iff]; with_reducible refine KeepsParts.same (t := _) ?_ (by rfl) rfl rfl rfl)
    | (with_reducible refine Keeps.foldl _ _ ?_ (fun t a hk => ?_)))

theorem raiseAgain_keeps {gr : Group → Bool} {s0 : State} {s : State} (hk : Keeps gr s0 s) :
    Keeps gr s0 (raiseAgain s) := by
  unfold raiseAgain
  repeat' (first
    | (with_reducible assumption)
    | (with_reducible apply raiseRetire_keeps)
    | (with_reducible refine Keeps.ite (fun _ => ?_) (fun _ => ?_)))

theorem startEnd_keeps {gr : Group → Bool} {s0 : State} {s : State} (hk : Keeps gr s0 s) (hbPins : gr .pins = false) (hbLife : gr .life = false) (hbPlan : gr .plan = false) :
    Keeps gr s0 (startEnd s) := by
  unfold startEnd
  repeat' (first
    | (with_reducible assumption)
    | (with_reducible apply lostArrays_keeps)
    | (with_reducible apply reissue_keeps)
    | (with_reducible apply linkResume_keeps)
    | (with_reducible apply resumeRings_keeps)
    | (with_reducible apply advance_keeps)
    | (with_reducible apply raiseAgain_keeps)
    | (with_reducible refine Keeps.ite (fun _ => ?_) (fun _ => ?_))
    | (with_reducible refine Keeps.ite_fst (fun _ => ?_) (fun _ => ?_))
    | (with_reducible refine Keeps.ite_snd (fun _ => ?_) (fun _ => ?_))
    | (simp only [Keeps.mk_iff]; refine KeepsParts.freed (t := _) ?_)
    | (simp only [Keeps.mk_iff]; with_reducible refine KeepsParts.appended (t := _) ?_ _))

theorem execStartComplete_keeps {gr : Group → Bool} {s : State}  (hbPins : gr .pins = false) (hbLife : gr .life = false) (hbPlan : gr .plan = false) :
    ∀ s1, execStartComplete s = .next s1 → Keeps gr s s1 := by
  intro s1 ht
  unfold execStartComplete at ht
  obtain rfl := Host.Outcome.next.inj ht
  have hk := Keeps.refl gr s
  repeat' (first
    | (with_reducible assumption)
    | (with_reducible apply startEnd_keeps)
    | (with_reducible refine Keeps.ite (fun _ => ?_) (fun _ => ?_)))

theorem quiesceStart_keeps {gr : Group → Bool} {s0 : State} {s : State} (hk : Keeps gr s0 s) (hbPins : gr .pins = false) (hbLife : gr .life = false) :
    Keeps gr s0 (quiesceStart s) := by
  unfold quiesceStart
  repeat' (first
    | (with_reducible assumption)
    | (with_reducible apply planAbort_keeps)
    | (with_reducible apply closeLine_keeps)
    | (with_reducible apply advance_keeps)
    | (with_reducible refine Keeps.ite (fun _ => ?_) (fun _ => ?_))
    | (with_reducible refine Keeps.ite_fst (fun _ => ?_) (fun _ => ?_))
    | (with_reducible refine Keeps.ite_snd (fun _ => ?_) (fun _ => ?_))
    | (simp only [Keeps.mk_iff]; with_reducible refine KeepsParts.same (t := _) ?_ (by rfl) rfl rfl rfl)
    | (simp only [Keeps.mk_iff]; refine KeepsParts.freed (t := _) ?_)
    | (with_reducible refine Keeps.foldl _ _ ?_ (fun t a hk => ?_)))

theorem restartController_keeps {gr : Group → Bool} {s0 : State} {s : State} (hk : Keeps gr s0 s) (hbPatch : gr .patch = false) (hbPacks : gr .packs = false) :
    Keeps gr s0 (restartController s) := by
  unfold restartController
  repeat' (first
    | (with_reducible assumption)
    | (with_reducible refine Keeps.ite (fun _ => ?_) (fun _ => ?_))
    | (with_reducible refine Keeps.ite_fst (fun _ => ?_) (fun _ => ?_))
    | (with_reducible refine Keeps.ite_snd (fun _ => ?_) (fun _ => ?_))
    | (simp only [Keeps.mk_iff]; refine KeepsParts.freed (t := _) ?_))

theorem warmReset_keeps {gr : Group → Bool} {s0 : State} {s : State} (hk : Keeps gr s0 s) (hbPins : gr .pins = false) (hbLife : gr .life = false) (hbPatch : gr .patch = false) (hbPacks : gr .packs = false) :
    Keeps gr s0 (warmReset s) := by
  unfold warmReset
  repeat' (first
    | (with_reducible assumption)
    | (with_reducible apply restartController_keeps)
    | (with_reducible apply quiesceStart_keeps)
    | (with_reducible refine Keeps.ite (fun _ => ?_) (fun _ => ?_)))

theorem execWrstNAssert_keeps {gr : Group → Bool} {s : State}  (hbPins : gr .pins = false) (hbLife : gr .life = false) (hbPatch : gr .patch = false) (hbPacks : gr .packs = false) :
    ∀ s1, execWrstNAssert s = .next s1 → Keeps gr s s1 := by
  intro s1 ht
  unfold execWrstNAssert at ht
  obtain rfl := Host.Outcome.next.inj ht
  have hk := Keeps.refl gr s
  repeat' (first
    | (with_reducible assumption)
    | (with_reducible apply warmReset_keeps)
    | (with_reducible refine Keeps.ite (fun _ => ?_) (fun _ => ?_))
    | (with_reducible refine Keeps.ite_fst (fun _ => ?_) (fun _ => ?_))
    | (with_reducible refine Keeps.ite_snd (fun _ => ?_) (fun _ => ?_))
    | (simp only [Keeps.mk_iff]; refine KeepsParts.freed (t := _) ?_))

theorem execQuiesceDone_keeps {gr : Group → Bool} {s : State}  (hbPins : gr .pins = false) (hbLife : gr .life = false) (hbPatch : gr .patch = false) (hbPacks : gr .packs = false) (hbRegs : gr .regs = false) :
    ∀ s1, execQuiesceDone s = .next s1 → Keeps gr s s1 := by
  intro s1 ht
  unfold execQuiesceDone at ht
  obtain rfl := Host.Outcome.next.inj ht
  have hk := Keeps.refl gr s
  repeat' (first
    | (with_reducible assumption)
    | (with_reducible apply startGo_keeps)
    | (with_reducible apply logicReset_keeps)
    | (with_reducible refine Keeps.ite (fun _ => ?_) (fun _ => ?_)))

theorem cmdsRetained_keeps {gr : Group → Bool} {s0 : State} {s : State} (hk : Keeps gr s0 s) :
    Keeps gr s0 (cmdsRetained s) := by
  unfold cmdsRetained
  repeat' (first
    | (with_reducible assumption)
    | (with_reducible apply cmdEnd_keeps)
    | (with_reducible refine Keeps.ite (fun _ => ?_) (fun _ => ?_))
    | (with_reducible refine Keeps.ite_fst (fun _ => ?_) (fun _ => ?_))
    | (with_reducible refine Keeps.ite_snd (fun _ => ?_) (fun _ => ?_))
    | (simp only [Keeps.mk_iff]; with_reducible refine KeepsParts.tables (t := _) ?_ (fun w => w) (fun w => SMap.wf_mapVals _ w))
    | (with_reducible refine Keeps.foldl _ _ ?_ (fun t a hk => ?_)))

theorem flowEnter_keeps {gr : Group → Bool} {s0 : State} {s : State} (hk : Keeps gr s0 s) (hbPins : gr .pins = false) (hbLife : gr .life = false) :
    Keeps gr s0 (flowEnter s) := by
  unfold flowEnter
  repeat' (first
    | (with_reducible assumption)
    | (with_reducible apply cmdsRetained_keeps)
    | (with_reducible apply postEvent_keeps)
    | (with_reducible apply planAbort_keeps)
    | (with_reducible apply linkDown_keeps)
    | (with_reducible apply advance_keeps)
    | (with_reducible refine Keeps.ite (fun _ => ?_) (fun _ => ?_))
    | (with_reducible refine Keeps.ite_fst (fun _ => ?_) (fun _ => ?_))
    | (with_reducible refine Keeps.ite_snd (fun _ => ?_) (fun _ => ?_))
    | (simp only [Keeps.mk_iff]; refine KeepsParts.freed (t := _) ?_))

theorem flowStopEffective_keeps {gr : Group → Bool} {s0 : State} {s : State} (hk : Keeps gr s0 s) (hbPins : gr .pins = false) (hbLife : gr .life = false) :
    Keeps gr s0 (flowStopEffective s) := by
  unfold flowStopEffective
  repeat' (first
    | (with_reducible assumption)
    | (with_reducible apply flowEnter_keeps)
    | (with_reducible refine Keeps.ite (fun _ => ?_) (fun _ => ?_))
    | (with_reducible refine Keeps.ite_fst (fun _ => ?_) (fun _ => ?_))
    | (with_reducible refine Keeps.ite_snd (fun _ => ?_) (fun _ => ?_))
    | (simp only [Keeps.mk_iff]; refine KeepsParts.freed (t := _) ?_))

theorem execFlowStopEffective_keeps {gr : Group → Bool} {s : State}  (hbPins : gr .pins = false) (hbLife : gr .life = false) :
    ∀ s1, execFlowStopEffective s = .next s1 → Keeps gr s s1 := by
  intro s1 ht
  unfold execFlowStopEffective at ht
  obtain rfl := Host.Outcome.next.inj ht
  have hk := Keeps.refl gr s
  repeat' (first
    | (with_reducible assumption)
    | (with_reducible apply flowStopEffective_keeps)
    | (with_reducible refine Keeps.ite (fun _ => ?_) (fun _ => ?_)))

theorem execRetentionEntryLimit_keeps {gr : Group → Bool} {s : State}  (hbLife : gr .life = false) :
    ∀ s1, execRetentionEntryLimit s = .next s1 → Keeps gr s s1 := by
  intro s1 ht
  unfold execRetentionEntryLimit at ht
  obtain rfl := Host.Outcome.next.inj ht
  have hk := Keeps.refl gr s
  repeat' (first
    | (with_reducible assumption)
    | (with_reducible refine Keeps.ite (fun _ => ?_) (fun _ => ?_))
    | (with_reducible refine Keeps.ite_fst (fun _ => ?_) (fun _ => ?_))
    | (with_reducible refine Keeps.ite_snd (fun _ => ?_) (fun _ => ?_))
    | (simp only [Keeps.mk_iff]; refine KeepsParts.freed (t := _) ?_))

theorem flowExit_keeps {gr : Group → Bool} {s0 : State} {s : State} (hk : Keeps gr s0 s) (hbPins : gr .pins = false) (hbLife : gr .life = false) :
    Keeps gr s0 (flowExit s) := by
  unfold flowExit
  repeat' (first
    | (with_reducible assumption)
    | (with_reducible apply irqWake_keeps)
    | (with_reducible apply txDrain_keeps)
    | (with_reducible apply postEvent_keeps)
    | (with_reducible apply advance_keeps)
    | (with_reducible apply deliver_keeps)
    | (with_reducible apply quiesceStart_keeps)
    | (with_reducible apply resumeRings_keeps)
    | (with_reducible apply linkResume_keeps)
    | (with_reducible refine Keeps.ite (fun _ => ?_) (fun _ => ?_))
    | (with_reducible refine Keeps.ite_fst (fun _ => ?_) (fun _ => ?_))
    | (with_reducible refine Keeps.ite_snd (fun _ => ?_) (fun _ => ?_))
    | (simp only [Keeps.mk_iff]; refine KeepsParts.freed (t := _) ?_))

theorem flowStopRelease_keeps {gr : Group → Bool} {s0 : State} {s : State} {wrstLow : Bool} (hk : Keeps gr s0 s) (hbPins : gr .pins = false) (hbLife : gr .life = false) (hbPatch : gr .patch = false) (hbPacks : gr .packs = false) :
    Keeps gr s0 (flowStopRelease s wrstLow) := by
  unfold flowStopRelease
  repeat' (first
    | (with_reducible assumption)
    | (with_reducible apply startGo_keeps)
    | (with_reducible apply flowExit_keeps)
    | (with_reducible apply deliver_keeps)
    | (with_reducible apply restartController_keeps)
    | (with_reducible refine Keeps.ite (fun _ => ?_) (fun _ => ?_))
    | (with_reducible refine Keeps.ite_fst (fun _ => ?_) (fun _ => ?_))
    | (with_reducible refine Keeps.ite_snd (fun _ => ?_) (fun _ => ?_))
    | (simp only [Keeps.mk_iff]; refine KeepsParts.freed (t := _) ?_))

theorem execFlowStopRelease_keeps {gr : Group → Bool} {s : State} {wrstLow : Bool} (hbPins : gr .pins = false) (hbLife : gr .life = false) (hbPatch : gr .patch = false) (hbPacks : gr .packs = false) :
    ∀ s1, execFlowStopRelease s wrstLow = .next s1 → Keeps gr s s1 := by
  intro s1 ht
  unfold execFlowStopRelease at ht
  obtain rfl := Host.Outcome.next.inj ht
  have hk := Keeps.refl gr s
  repeat' (first
    | (with_reducible assumption)
    | (with_reducible apply flowStopRelease_keeps)
    | (with_reducible refine Keeps.ite (fun _ => ?_) (fun _ => ?_)))

theorem clockAbsent_keeps {gr : Group → Bool} {s0 : State} {s : State} {clk : Nat} (hk : Keeps gr s0 s) (hbPins : gr .pins = false) :
    Keeps gr s0 (clockAbsent s clk) := by
  unfold clockAbsent
  repeat' (first
    | (with_reducible assumption)
    | (with_reducible apply postError_keeps)
    | (with_reducible apply advance_keeps)
    | (with_reducible apply fence_keeps)
    | (with_reducible apply linkDown_keeps)
    | (with_reducible refine Keeps.ite (fun _ => ?_) (fun _ => ?_))
    | (with_reducible refine Keeps.ite_fst (fun _ => ?_) (fun _ => ?_))
    | (with_reducible refine Keeps.ite_snd (fun _ => ?_) (fun _ => ?_))
    | (simp only [Keeps.mk_iff]; refine KeepsParts.freed (t := _) ?_))

theorem execClockAbsent_keeps {gr : Group → Bool} {s : State} {clk : Nat} (hbPins : gr .pins = false) :
    ∀ s1, execClockAbsent clk s = .next s1 → Keeps gr s s1 := by
  intro s1 ht
  unfold execClockAbsent at ht
  obtain rfl := Host.Outcome.next.inj ht
  have hk := Keeps.refl gr s
  repeat' (first
    | (with_reducible assumption)
    | (with_reducible apply clockAbsent_keeps)
    | (with_reducible refine Keeps.ite (fun _ => ?_) (fun _ => ?_)))

theorem execClockPresent_keeps {gr : Group → Bool} {s : State} {clk : Nat} (hbPins : gr .pins = false) :
    ∀ s1, execClockPresent clk s = .next s1 → Keeps gr s s1 := by
  intro s1 ht
  unfold execClockPresent at ht
  obtain rfl := Host.Outcome.next.inj ht
  have hk := Keeps.refl gr s
  repeat' (first
    | (with_reducible assumption)
    | (with_reducible apply startGo_keeps)
    | (with_reducible refine Keeps.ite (fun _ => ?_) (fun _ => ?_))
    | (with_reducible refine Keeps.ite_fst (fun _ => ?_) (fun _ => ?_))
    | (with_reducible refine Keeps.ite_snd (fun _ => ?_) (fun _ => ?_))
    | (simp only [Keeps.mk_iff]; refine KeepsParts.freed (t := _) ?_))

theorem execPlanLockLost_keeps {gr : Group → Bool} {s : State}  :
    ∀ s1, execPlanLockLost s = .next s1 → Keeps gr s s1 := by
  intro s1 ht
  unfold execPlanLockLost at ht
  obtain rfl := Host.Outcome.next.inj ht
  have hk := Keeps.refl gr s
  repeat' (first
    | (with_reducible assumption)
    | (with_reducible refine Keeps.ite (fun _ => ?_) (fun _ => ?_))
    | (with_reducible refine Keeps.ite_fst (fun _ => ?_) (fun _ => ?_))
    | (with_reducible refine Keeps.ite_snd (fun _ => ?_) (fun _ => ?_))
    | (simp only [Keeps.mk_iff]; with_reducible refine KeepsParts.same (t := _) ?_ (by rfl) rfl rfl rfl))

theorem execLockAlignmentDone_keeps {gr : Group → Bool} {s : State}  :
    ∀ s1, execLockAlignmentDone s = .next s1 → Keeps gr s s1 := by
  intro s1 ht
  unfold execLockAlignmentDone at ht
  obtain rfl := Host.Outcome.next.inj ht
  have hk := Keeps.refl gr s
  repeat' (first
    | (with_reducible assumption)
    | (with_reducible refine Keeps.ite (fun _ => ?_) (fun _ => ?_))
    | (with_reducible refine Keeps.ite_fst (fun _ => ?_) (fun _ => ?_))
    | (with_reducible refine Keeps.ite_snd (fun _ => ?_) (fun _ => ?_))
    | (simp only [Keeps.mk_iff]; with_reducible refine KeepsParts.same (t := _) ?_ (by rfl) rfl rfl rfl))

theorem vddArrDroop_keeps {gr : Group → Bool} {s0 : State} {s : State} {bakHolds : Bool} (hk : Keeps gr s0 s) (hbPins : gr .pins = false) :
    Keeps gr s0 (vddArrDroop s bakHolds) := by
  unfold vddArrDroop
  repeat' (first
    | (with_reducible assumption)
    | (with_reducible apply chargeHold_keeps)
    | (with_reducible refine Keeps.ite (fun _ => ?_) (fun _ => ?_))
    | (with_reducible refine Keeps.ite_fst (fun _ => ?_) (fun _ => ?_))
    | (with_reducible refine Keeps.ite_snd (fun _ => ?_) (fun _ => ?_))
    | (simp only [Keeps.mk_iff]; refine KeepsParts.freed (t := _) ?_))

theorem execVddArrDroop_keeps {gr : Group → Bool} {s : State} {bakHolds : Bool} (hbPins : gr .pins = false) :
    ∀ s1, execVddArrDroop bakHolds s = .next s1 → Keeps gr s s1 := by
  intro s1 ht
  unfold execVddArrDroop at ht
  obtain rfl := Host.Outcome.next.inj ht
  have hk := Keeps.refl gr s
  repeat' (first
    | (with_reducible assumption)
    | (with_reducible apply vddArrDroop_keeps)
    | (with_reducible refine Keeps.ite (fun _ => ?_) (fun _ => ?_)))

theorem execSwitchToVddArr_keeps {gr : Group → Bool} {s : State}  (hbPins : gr .pins = false) :
    ∀ s1, execSwitchToVddArr s = .next s1 → Keeps gr s s1 := by
  intro s1 ht
  unfold execSwitchToVddArr at ht
  obtain rfl := Host.Outcome.next.inj ht
  have hk := Keeps.refl gr s
  repeat' (first
    | (with_reducible assumption)
    | (with_reducible apply chargeHold_keeps)
    | (with_reducible refine Keeps.ite (fun _ => ?_) (fun _ => ?_))
    | (with_reducible refine Keeps.ite_fst (fun _ => ?_) (fun _ => ?_))
    | (with_reducible refine Keeps.ite_snd (fun _ => ?_) (fun _ => ?_))
    | (simp only [Keeps.mk_iff]; refine KeepsParts.freed (t := _) ?_))

theorem backupHold_keeps {gr : Group → Bool} {s0 : State} {s : State} (hk : Keeps gr s0 s) (hbPins : gr .pins = false) (hbLife : gr .life = false) :
    Keeps gr s0 (backupHold s) := by
  unfold backupHold
  repeat' (first
    | (with_reducible assumption)
    | (with_reducible refine Keeps.ite (fun _ => ?_) (fun _ => ?_))
    | (with_reducible refine Keeps.ite_fst (fun _ => ?_) (fun _ => ?_))
    | (with_reducible refine Keeps.ite_snd (fun _ => ?_) (fun _ => ?_))
    | (simp only [Keeps.mk_iff]; refine KeepsParts.freed (t := _) ?_))

theorem execArrayAccessStop_keeps {gr : Group → Bool} {s : State}  (hbPins : gr .pins = false) (hbLife : gr .life = false) :
    ∀ s1, execArrayAccessStop s = .next s1 → Keeps gr s s1 := by
  intro s1 ht
  unfold execArrayAccessStop at ht
  obtain rfl := Host.Outcome.next.inj ht
  have hk := Keeps.refl gr s
  repeat' (first
    | (with_reducible assumption)
    | (with_reducible apply backupHold_keeps)
    | (with_reducible refine Keeps.ite (fun _ => ?_) (fun _ => ?_))
    | (with_reducible refine Keeps.ite_fst (fun _ => ?_) (fun _ => ?_))
    | (with_reducible refine Keeps.ite_snd (fun _ => ?_) (fun _ => ?_))
    | (simp only [Keeps.mk_iff]; refine KeepsParts.freed (t := _) ?_))

theorem execArrayRailLoss_keeps {gr : Group → Bool} {s : State}  (hbPins : gr .pins = false) (hbLife : gr .life = false) :
    ∀ s1, execArrayRailLoss s = .next s1 → Keeps gr s s1 := by
  intro s1 ht
  unfold execArrayRailLoss at ht
  obtain rfl := Host.Outcome.next.inj ht
  have hk := Keeps.refl gr s
  repeat' (first
    | (with_reducible assumption)
    | (with_reducible apply backupHold_keeps)
    | (with_reducible refine Keeps.ite (fun _ => ?_) (fun _ => ?_))
    | (with_reducible refine Keeps.ite_fst (fun _ => ?_) (fun _ => ?_))
    | (with_reducible refine Keeps.ite_snd (fun _ => ?_) (fun _ => ?_))
    | (simp only [Keeps.mk_iff]; refine KeepsParts.freed (t := _) ?_))

theorem vddCoreLoss_keeps {gr : Group → Bool} {s0 : State} {s : State} (hk : Keeps gr s0 s) (hbPins : gr .pins = false) (hbLife : gr .life = false) :
    Keeps gr s0 (vddCoreLoss s) := by
  unfold vddCoreLoss
  repeat' (first
    | (with_reducible assumption)
    | (with_reducible apply goSolo_keeps)
    | (with_reducible apply ttDrop_keeps)
    | (with_reducible apply backupHold_keeps)
    | (with_reducible refine Keeps.ite (fun _ => ?_) (fun _ => ?_))
    | (with_reducible refine Keeps.ite_fst (fun _ => ?_) (fun _ => ?_))
    | (with_reducible refine Keeps.ite_snd (fun _ => ?_) (fun _ => ?_))
    | (simp only [Keeps.mk_iff]; with_reducible refine KeepsParts.same (t := _) ?_ (by rfl) rfl rfl rfl)
    | (simp only [Keeps.mk_iff]; refine KeepsParts.freed (t := _) ?_))

theorem execVddCoreLoss_keeps {gr : Group → Bool} {s : State}  (hbPins : gr .pins = false) (hbLife : gr .life = false) :
    ∀ s1, execVddCoreLoss s = .next s1 → Keeps gr s s1 := by
  intro s1 ht
  unfold execVddCoreLoss at ht
  obtain rfl := Host.Outcome.next.inj ht
  have hk := Keeps.refl gr s
  repeat' (first
    | (with_reducible assumption)
    | (with_reducible apply vddCoreLoss_keeps)
    | (with_reducible refine Keeps.ite (fun _ => ?_) (fun _ => ?_)))

theorem holdReturn_keeps {gr : Group → Bool} {s0 : State} {s : State} (hk : Keeps gr s0 s) (hbPins : gr .pins = false) (hbLife : gr .life = false) :
    Keeps gr s0 (holdReturn s) := by
  unfold holdReturn
  repeat' (first
    | (with_reducible assumption)
    | (with_reducible apply advance_keeps)
    | (with_reducible apply flowEnter_keeps)
    | (with_reducible apply flowExit_keeps)
    | (with_reducible apply irqWake_keeps)
    | (with_reducible apply txDrain_keeps)
    | (with_reducible apply deliver_keeps)
    | (with_reducible apply quiesceStart_keeps)
    | (with_reducible apply resumeRings_keeps)
    | (with_reducible refine Keeps.ite (fun _ => ?_) (fun _ => ?_))
    | (with_reducible refine Keeps.ite_fst (fun _ => ?_) (fun _ => ?_))
    | (with_reducible refine Keeps.ite_snd (fun _ => ?_) (fun _ => ?_))
    | (simp only [Keeps.mk_iff]; refine KeepsParts.freed (t := _) ?_))

theorem execBackupHoldReturn_keeps {gr : Group → Bool} {s : State}  (hbPins : gr .pins = false) (hbLife : gr .life = false) :
    ∀ s1, execBackupHoldReturn s = .next s1 → Keeps gr s s1 := by
  intro s1 ht
  unfold execBackupHoldReturn at ht
  obtain rfl := Host.Outcome.next.inj ht
  have hk := Keeps.refl gr s
  repeat' (first
    | (with_reducible assumption)
    | (with_reducible apply holdReturn_keeps)
    | (with_reducible apply deliver_keeps)
    | (with_reducible refine Keeps.ite (fun _ => ?_) (fun _ => ?_))
    | (with_reducible refine Keeps.ite_fst (fun _ => ?_) (fun _ => ?_))
    | (with_reducible refine Keeps.ite_snd (fun _ => ?_) (fun _ => ?_))
    | (simp only [Keeps.mk_iff]; refine KeepsParts.freed (t := _) ?_))

theorem reEntry_keeps {gr : Group → Bool} {s0 : State} {s : State} (hk : Keeps gr s0 s) (hbPins : gr .pins = false) (hbLife : gr .life = false) (hbPlan : gr .plan = false) (hbPatch : gr .patch = false) (hbPacks : gr .packs = false) (hbRegs : gr .regs = false) :
    Keeps gr s0 (reEntry s) := by
  unfold reEntry
  repeat' (first
    | (with_reducible assumption)
    | (with_reducible apply logicReset_keeps)
    | (with_reducible apply startGo_keeps)
    | (with_reducible apply lostArrays_keeps)
    | (with_reducible refine Keeps.ite (fun _ => ?_) (fun _ => ?_))
    | (with_reducible refine Keeps.ite_fst (fun _ => ?_) (fun _ => ?_))
    | (with_reducible refine Keeps.ite_snd (fun _ => ?_) (fun _ => ?_))
    | (simp only [Keeps.mk_iff]; refine KeepsParts.freed (t := _) ?_))

theorem execReEntry_keeps {gr : Group → Bool} {s : State}  (hbPins : gr .pins = false) (hbLife : gr .life = false) (hbPlan : gr .plan = false) (hbPatch : gr .patch = false) (hbPacks : gr .packs = false) (hbRegs : gr .regs = false) :
    ∀ s1, execReEntry s = .next s1 → Keeps gr s s1 := by
  intro s1 ht
  unfold execReEntry at ht
  obtain rfl := Host.Outcome.next.inj ht
  have hk := Keeps.refl gr s
  repeat' (first
    | (with_reducible assumption)
    | (with_reducible apply reEntry_keeps)
    | (with_reducible apply startGo_keeps)
    | (with_reducible refine Keeps.ite (fun _ => ?_) (fun _ => ?_))
    | (with_reducible refine Keeps.ite_fst (fun _ => ?_) (fun _ => ?_))
    | (with_reducible refine Keeps.ite_snd (fun _ => ?_) (fun _ => ?_))
    | (simp only [Keeps.mk_iff]; refine KeepsParts.freed (t := _) ?_))

theorem execRingStopPassive_keeps {gr : Group → Bool} {s : State} {supply : Bool} (hbPins : gr .pins = false) (hbLife : gr .life = false) (hbTime : gr .time = false) (hbKey : gr .key = false) (hbPlan : gr .plan = false) (hbPatch : gr .patch = false) (hbPacks : gr .packs = false) (hbPress : gr .press = false) (hbRegs : gr .regs = false) :
    ∀ s1, execRingStopPassive supply s = .next s1 → Keeps gr s s1 := by
  intro s1 ht
  unfold execRingStopPassive at ht
  obtain rfl := Host.Outcome.next.inj ht
  have hk := Keeps.refl gr s
  repeat' (first
    | (with_reducible assumption)
    | (with_reducible apply coldState_keeps)
    | (with_reducible refine Keeps.ite (fun _ => ?_) (fun _ => ?_))
    | (with_reducible refine Keeps.ite_fst (fun _ => ?_) (fun _ => ?_))
    | (with_reducible refine Keeps.ite_snd (fun _ => ?_) (fun _ => ?_))
    | (simp only [Keeps.mk_iff]; refine KeepsParts.freed (t := _) ?_))

theorem execClkAonReturn_keeps {gr : Group → Bool} {s : State}  (hbPins : gr .pins = false) :
    ∀ s1, execClkAonReturn s = .next s1 → Keeps gr s s1 := by
  intro s1 ht
  unfold execClkAonReturn at ht
  obtain rfl := Host.Outcome.next.inj ht
  have hk := Keeps.refl gr s
  repeat' (first
    | (with_reducible assumption)
    | (with_reducible apply sendHeld_keeps)
    | (with_reducible refine Keeps.ite (fun _ => ?_) (fun _ => ?_))
    | (with_reducible refine Keeps.ite_fst (fun _ => ?_) (fun _ => ?_))
    | (with_reducible refine Keeps.ite_snd (fun _ => ?_) (fun _ => ?_))
    | (simp only [Keeps.mk_iff]; refine KeepsParts.freed (t := _) ?_))

end Sys2Proof.Machine
end

