-- ==== Sys2Proof/Laws/KeepsTestAccess.lean ====
section
/-! SUPPORT. What the operations of Machine/TestAccess.lean keep (Laws/Keeps.lean). -/

namespace Sys2Proof.Machine

open Sys2Proof

set_option Elab.async false

set_option linter.unusedSimpArgs false

theorem spareAssign_keeps {gr : Group → Bool} {s0 : State} {s : State} {row : Nat × Nat × Nat} (hk : Keeps gr s0 s) :
    Keeps gr s0 (spareAssign s row) := by
  unfold spareAssign
  repeat' (first
    | (with_reducible assumption)
    | (with_reducible refine Keeps.ite (fun _ => ?_) (fun _ => ?_))
    | (with_reducible refine Keeps.ite_fst (fun _ => ?_) (fun _ => ?_))
    | (with_reducible refine Keeps.ite_snd (fun _ => ?_) (fun _ => ?_))
    | (simp only [Keeps.mk_iff]; with_reducible refine KeepsParts.same (t := _) ?_ (by rfl) rfl rfl rfl)
    | dsimp only
    | split)

theorem mbistEnd_keeps {gr : Group → Bool} {s0 : State} {s : State} {rows : List (Nat × Nat × Nat)} (hk : Keeps gr s0 s) :
    Keeps gr s0 (mbistEnd s rows) := by
  unfold mbistEnd
  repeat' (first
    | (with_reducible assumption)
    | (with_reducible apply spareAssign_keeps)
    | (with_reducible apply mapSave_keeps)
    | (with_reducible refine Keeps.ite (fun _ => ?_) (fun _ => ?_))
    | (with_reducible refine Keeps.ite_fst (fun _ => ?_) (fun _ => ?_))
    | (with_reducible refine Keeps.ite_snd (fun _ => ?_) (fun _ => ?_))
    | (simp only [Keeps.mk_iff]; with_reducible refine KeepsParts.same (t := _) ?_ (by rfl) rfl rfl rfl)
    | (with_reducible refine Keeps.foldl _ _ ?_ (fun t a hk => ?_)))

theorem portExtest_keeps {gr : Group → Bool} {s0 : State} {s : State} {p : Port} {captured : List Nat} (hk : Keeps gr s0 s) :
    Keeps gr s0 (portExtest s p captured) := by
  unfold portExtest
  repeat' (first
    | (with_reducible assumption)
    | (with_reducible apply drive_keeps)
    | (with_reducible refine Keeps.ite (fun _ => ?_) (fun _ => ?_))
    | (with_reducible refine Keeps.ite_fst (fun _ => ?_) (fun _ => ?_))
    | (with_reducible refine Keeps.ite_snd (fun _ => ?_) (fun _ => ?_))
    | (simp only [Keeps.mk_iff]; with_reducible refine KeepsParts.same (t := _) ?_ (by rfl) rfl rfl rfl))

theorem laneExtest_keeps {gr : Group → Bool} {s0 : State} {s : State} {captured : List Nat} (hk : Keeps gr s0 s) :
    Keeps gr s0 (laneExtest s captured) := by
  unfold laneExtest
  repeat' (first
    | (with_reducible assumption)
    | (with_reducible apply drive_keeps)
    | (with_reducible refine Keeps.ite (fun _ => ?_) (fun _ => ?_))
    | (with_reducible refine Keeps.ite_fst (fun _ => ?_) (fun _ => ?_))
    | (with_reducible refine Keeps.ite_snd (fun _ => ?_) (fun _ => ?_))
    | (simp only [Keeps.mk_iff]; with_reducible refine KeepsParts.same (t := _) ?_ (by rfl) rfl rfl rfl))

theorem testFunction_keeps {gr : Group → Bool} {s0 : State} {s : State} {wrapper : Bool} {ir : Nat} {run : TestRun} (hk : Keeps gr s0 s) :
    Keeps gr s0 (testFunction s wrapper ir run) := by
  unfold testFunction
  repeat' (first
    | (with_reducible assumption)
    | (with_reducible apply mbistEnd_keeps)
    | (with_reducible apply portExtest_keeps)
    | (with_reducible apply laneExtest_keeps)
    | (with_reducible refine Keeps.ite (fun _ => ?_) (fun _ => ?_))
    | (with_reducible refine Keeps.ite_fst (fun _ => ?_) (fun _ => ?_))
    | (with_reducible refine Keeps.ite_snd (fun _ => ?_) (fun _ => ?_))
    | (with_reducible refine Keeps.foldl _ _ ?_ (fun t a hk => ?_))
    | (with_reducible refine Keeps.foldl_fst _ _ _ ?_ (fun x a hk => ?_))
    | (with_reducible refine Keeps.foldl_snd _ _ _ ?_ (fun x a hk => ?_))
    | dsimp only
    | split)

theorem tapInstruction_keeps {gr : Group → Bool} {s0 : State} {s : State} {wrapper : Bool} {ir : Nat} {run : TestRun} (hk : Keeps gr s0 s) :
    Keeps gr s0 (tapInstruction s wrapper ir run) := by
  unfold tapInstruction
  repeat' (first
    | (with_reducible assumption)
    | (with_reducible apply testFunction_keeps)
    | (with_reducible refine Keeps.ite (fun _ => ?_) (fun _ => ?_))
    | (with_reducible refine Keeps.ite_fst (fun _ => ?_) (fun _ => ?_))
    | (with_reducible refine Keeps.ite_snd (fun _ => ?_) (fun _ => ?_))
    | (simp only [Keeps.mk_iff]; with_reducible refine KeepsParts.same (t := _) ?_ (by rfl) rfl rfl rfl)
    | dsimp only
    | split)

theorem execTapInstruction_keeps {gr : Group → Bool} {s : State} {wrapper : Bool} {ir : Nat} {run : TestRun} :
    ∀ s1, execTapInstruction wrapper ir s run = .next s1 → Keeps gr s s1 := by
  intro s1 ht
  unfold execTapInstruction at ht
  obtain rfl := Host.Outcome.next.inj ht
  have hk := Keeps.refl gr s
  repeat' (first
    | (with_reducible assumption)
    | (with_reducible apply tapInstruction_keeps))

end Sys2Proof.Machine
end

