-- ==== Sys2Proof/Laws/KeepsExec.lean ====
section
/-! SUPPORT. What each row of the table keeps (Laws/Keeps.lean), by one lemma over all of them, and what a step keeps. -/

namespace Sys2Proof.Machine

open Sys2Proof

set_option Elab.async false

/-- The groups of state a row leaves alone. -/
def rowKeeps (i : Instr) : Group → Bool
  | .now => true
  | .pins | .life => !powerRow i
  | .time => !(regRow i || timeRow i || coldRow i)
  | .key => !(regRow i || coldRow i)
  | .plan => !(planRow i || coldRow i)
  | .patch => !((match i with | .patchLoad _ _ _ _ => true | _ => false) || controllerRow i || coldRow i)
  | .packs => !((match i with | .testLoadpack _ _ _ _ => true | _ => false) || controllerRow i || coldRow i)
  | .press => !((match i with | .memPressureDeclared | .memPressureReleased => true | _ => false) || coldRow i)
  | .regs => !((match i with | .rstNRelease _ _ _ => true | _ => false) || regRow i || restartRow i || coldRow i)

/-- What every row keeps. -/
theorem exec_keeps (i : Instr) (s t : State) (h : exec i s = .next t) : Keeps (rowKeeps i) s t := by
  cases i with
  | rstNAssert => exact execRstNAssert_keeps rfl rfl rfl rfl rfl rfl rfl rfl rfl t h
  | rstNRelease _ _ _ => exact execRstNRelease_keeps rfl rfl rfl t h
  | startComplete => exact execStartComplete_keeps rfl rfl rfl t h
  | wrstNAssert => exact execWrstNAssert_keeps rfl rfl rfl rfl t h
  | quiesceDone => exact execQuiesceDone_keeps rfl rfl rfl rfl rfl t h
  | flowStopEffective => exact execFlowStopEffective_keeps rfl rfl t h
  | flowStopRelease _ => exact execFlowStopRelease_keeps rfl rfl rfl rfl t h
  | ppsEdge => exact execPpsEdge_keeps rfl t h
  | ppsLost => exact execPpsLost_keeps rfl t h
  | clockAbsent _ => exact execClockAbsent_keeps rfl t h
  | planLockLost => exact execPlanLockLost_keeps t h
  | lockAlignmentDone => exact execLockAlignmentDone_keeps t h
  | vddArrDroop _ => exact execVddArrDroop_keeps rfl t h
  | switchToVddArr => exact execSwitchToVddArr_keeps rfl t h
  | arrayAccessStop => exact execArrayAccessStop_keeps rfl rfl t h
  | arrayRailLoss => exact execArrayRailLoss_keeps rfl rfl t h
  | vddCoreLoss => exact execVddCoreLoss_keeps rfl rfl t h
  | backupHoldReturn => exact execBackupHoldReturn_keeps rfl rfl t h
  | reEntry => exact execReEntry_keeps rfl rfl rfl rfl rfl rfl t h
  | ringStopPassive _ => exact execRingStopPassive_keeps rfl rfl rfl rfl rfl rfl rfl rfl rfl t h
  | rd _ => exact execRd_keeps t h
  | rdBlk _ => exact execRdBlk_keeps t h
  | wr _ => exact execWr_keeps t h
  | wrMask _ => exact execWrMask_keeps t h
  | blkDemandWr _ => exact execBlkDemandWr_keeps t h
  | blkAtl _ => exact execBlkAtl_keeps t h
  | atomic _ => exact execAtomic_keeps t h
  | hostDrop _ => exact execHostDrop_keeps t h
  | biConflict _ => exact execBiConflict_keeps t h
  | fence _ => exact execFence_keeps t h
  | hintWr _ => exact execHintWr_keeps t h
  | hintAck _ => exact execHintAck_keeps t h
  | csrWr _ => exact execCsrWr_keeps rfl rfl rfl t h
  | snpWb _ => exact execSnpWb_keeps t h
  | biRsp _ => exact execBiRsp_keeps t h
  | biTimeout _ => exact execBiTimeout_keeps t h
  | snpIn _ => exact execSnpIn_keeps t h
  | doorbellReading _ _ _ _ => exact execDoorbellReading_keeps t h
  | descriptorReadReturn _ _ _ _ => exact execDescriptorReadReturn_keeps t h
  | descReread _ => exact execDescReread_keeps t h
  | cmp _ => exact execCmp_keeps t h
  | cplPost _ _ => exact execCplPost_keeps t h
  | irqHoldoffExpiry _ => exact execIrqHoldoffExpiry_keeps t h
  | memReadReturn _ _ _ _ _ => exact execMemReadReturn_keeps t h
  | memReplay _ _ => exact execMemReplay_keeps t h
  | memWriteCompletion _ => exact execMemWriteCompletion_keeps t h
  | evictionWritebackAccepted _ => exact execEvictionWritebackAccepted_keeps t h
  | memPressureDeclared => exact execMemPressureDeclared_keeps rfl t h
  | memPressureReleased => exact execMemPressureReleased_keeps rfl t h
  | mergeEntryDrain => exact execMergeEntryDrain_keeps t h
  | atomicLineClose _ => exact execAtomicLineClose_keeps t h
  | synWord _ _ _ => exact execSynWord_keeps t h
  | scheduledWriteBeat _ _ _ _ => exact execScheduledWriteBeat_keeps t h
  | passStart => exact execPassStart_keeps t h
  | openCycle => exact execOpenCycle_keeps t h
  | quiet => exact execQuiet_keeps t h
  | arrToBlk => exact execArrToBlk_keeps t h
  | blkToArr => exact execBlkToArr_keeps t h
  | blkAdd => exact execBlkAdd_keeps t h
  | stageIn => exact execStageIn_keeps t h
  | stageOut => exact execStageOut_keeps t h
  | arrToArr => exact execArrToArr_keeps t h
  | arrScan => exact execArrScan_keeps t h
  | tthOut => exact execTthOut_keeps t h
  | synOut => exact execSynOut_keeps t h
  | kernel => exact execKernel_keeps t h
  | holdStart => exact execHoldStart_keeps t h
  | holdEnd => exact execHoldEnd_keeps t h
  | passEnd => exact execPassEnd_keeps t h
  | switchDone => exact execSwitchDone_keeps rfl t h
  | stoppingDone => exact execStoppingDone_keeps t h
  | nop _ _ => exact execNop_keeps t h
  | lastDefine _ _ => exact execLastDefine_keeps t h
  | lastDelete _ _ => exact execLastDelete_keeps t h
  | lastRead _ _ => exact execLastRead_keeps t h
  | lastRestore _ _ _ _ => exact execLastRestore_keeps t h
  | rangePrefetch _ _ => exact execRangePrefetch_keeps t h
  | rangeFlush _ _ => exact execRangeFlush_keeps t h
  | rangeInvalidate _ _ => exact execRangeInvalidate_keeps t h
  | rangeDiscard _ _ => exact execRangeDiscard_keeps t h
  | genOpen _ _ => exact execGenOpen_keeps t h
  | genClose _ _ => exact execGenClose_keeps t h
  | genSeal => exact execGenSeal_keeps t h
  | drainComplete _ _ => exact execDrainComplete_keeps t h
  | logAdvance _ _ => exact execLogAdvance_keeps t h
  | ctxFreeze _ _ => exact execCtxFreeze_keeps t h
  | ctxResume _ _ _ _ => exact execCtxResume_keeps t h
  | ctxRelease _ _ => exact execCtxRelease_keeps t h
  | ctxSeed _ _ => exact execCtxSeed_keeps t h
  | planLoad _ _ _ _ => exact execPlanLoad_keeps rfl t h
  | planRun _ _ => exact execPlanRun_keeps t h
  | planStop _ _ => exact execPlanStop_keeps t h
  | sheafBind _ _ => exact execSheafBind_keeps t h
  | sheafRead _ _ => exact execSheafRead_keeps t h
  | sheafRelease _ _ => exact execSheafRelease_keeps t h
  | digestRange _ _ => exact execDigestRange_keeps t h
  | biasFlip _ _ => exact execBiasFlip_keeps t h
  | pairResync _ _ => exact execPairResync_keeps t h
  | pairTakeover _ _ _ => exact execPairTakeover_keeps t h
  | testRun _ _ => exact execTestRun_keeps t h
  | stressSetTimeout => exact execStressSetTimeout_keeps t h
  | testLoadpack _ _ _ _ => exact execTestLoadpack_keeps rfl t h
  | patchLoad _ _ _ _ => exact execPatchLoad_keeps rfl t h
  | sliceRetire _ _ => exact execSliceRetire_keeps t h
  | retireHoldExpiry => exact execRetireHoldExpiry_keeps t h
  | biasInit _ => exact execBiasInit_keeps rfl rfl rfl t h
  | biasInitDone => exact execBiasInitDone_keeps t h
  | biasEnable _ => exact execBiasEnable_keeps rfl rfl rfl t h
  | pinWaysWrite _ => exact execPinWaysWrite_keeps rfl rfl rfl t h
  | pinWaysReserved => exact execPinWaysReserved_keeps t h
  | mirrorWaysWrite _ => exact execMirrorWaysWrite_keeps rfl rfl rfl t h
  | stripeShiftWrite _ => exact execStripeShiftWrite_keeps rfl rfl rfl t h
  | ringEnable _ _ => exact execRingEnable_keeps rfl rfl rfl t h
  | ringDisable _ _ => exact execRingDisable_keeps rfl rfl rfl t h
  | evringEnable _ _ => exact execEvringEnable_keeps rfl rfl rfl t h
  | logRingEnable _ _ => exact execLogRingEnable_keeps rfl rfl rfl t h
  | linkEn _ => exact execLinkEn_keeps rfl rfl rfl t h
  | retrain _ => exact execRetrain_keeps rfl rfl rfl t h
  | ppsLoad _ => exact execPpsLoad_keeps rfl rfl rfl t h
  | pairKeyWrite _ _ => exact execPairKeyWrite_keeps rfl rfl rfl t h
  | ledgerDataRead _ => exact execLedgerDataRead_keeps rfl rfl rfl t h
  | evtCounterWrite _ _ => exact execEvtCounterWrite_keeps rfl rfl rfl t h
  | secCtlWrite _ => exact execSecCtlWrite_keeps rfl rfl rfl t h
  | hedgeWrite _ => exact execHedgeWrite_keeps rfl rfl rfl t h
  | qosClassWrite _ _ => exact execQosClassWrite_keeps rfl rfl rfl t h
  | flipmaskArm _ => exact execFlipmaskArm_keeps rfl rfl rfl t h
  | energyGainWrite _ => exact execEnergyGainWrite_keeps rfl rfl rfl t h
  | traceEnable _ => exact execTraceEnable_keeps rfl rfl rfl t h
  | fenceFrame _ => exact execFenceFrame_keeps t h
  | fenceWalkDone => exact execFenceWalkDone_keeps t h
  | watchdogTimeout => exact execWatchdogTimeout_keeps t h
  | fabricGuardTimeout => exact execFabricGuardTimeout_keeps t h
  | hdrAck _ => exact execHdrAck_keeps t h
  | frameResend _ => exact execFrameResend_keeps t h
  | heartbeat => exact execHeartbeat_keeps t h
  | oppointSet _ => exact execOppointSet_keeps t h
  | stressSet _ => exact execStressSet_keeps t h
  | retireGo _ => exact execRetireGo_keeps t h
  | regReading _ => exact execRegReading_keeps t h
  | timeSeconds _ => exact execTimeSeconds_keeps rfl t h
  | meteringWindowEnd => exact execMeteringWindowEnd_keeps t h
  | harrowVisit _ _ => exact execHarrowVisit_keeps t h
  | ageingSample _ _ => exact execAgeingSample_keeps t h
  | kernelRunDone _ _ => exact execKernelRunDone_keeps t h
  | spareRowCopyDone _ => exact execSpareRowCopyDone_keeps t h
  | wayDisableDone _ _ => exact execWayDisableDone_keeps t h
  | wayDisableTimeout _ _ => exact execWayDisableTimeout_keeps t h
  | flitReceived _ => exact execFlitReceived_keeps t h
  | laneLockLoss _ => exact execLaneLockLoss_keeps t h
  | trainingPhaseDone _ _ => exact execTrainingPhaseDone_keeps t h
  | negotiationFrame _ => exact execNegotiationFrame_keeps t h
  | retrainTimeout => exact execRetrainTimeout_keeps t h
  | linkDownRetry => exact execLinkDownRetry_keeps t h
  | syncWr _ => exact execSyncWr_keeps t h
  | syncAck _ => exact execSyncAck_keeps t h
  | lagRec _ => exact execLagRec_keeps t h
  | lagEnd _ => exact execLagEnd_keeps t h
  | lagAccept _ => exact execLagAccept_keeps t h
  | lagApplied _ => exact execLagApplied_keeps t h
  | dropMirror _ => exact execDropMirror_keeps t h
  | repairRd _ => exact execRepairRd_keeps t h
  | repairData _ => exact execRepairData_keeps t h
  | planData _ => exact execPlanData_keeps t h
  | resyncBegin _ => exact execResyncBegin_keeps t h
  | resyncDone _ => exact execResyncDone_keeps t h
  | creditReturn _ _ => exact execCreditReturn_keeps t h
  | clockPresent _ => exact execClockPresent_keeps rfl t h
  | clkAonReturn => exact execClkAonReturn_keeps rfl t h
  | retentionEntryLimit => exact execRetentionEntryLimit_keeps rfl t h
  | tapInstruction _ _ => exact execTapInstruction_keeps t h

end Sys2Proof.Machine
end

