-- ==== Sys2Proof/Laws/Life.lean ====
section
/-! SUPPORT. What the operations inside a row do to the power state and the fence (Laws/Keeps.lean says what they keep). -/

namespace Sys2Proof.Machine

open Sys2Proof

set_option Elab.async false

/-! ## The power state is not an operation's business -/

theorem drive_pw (s : State) (o : Out) : (drive s o).pw = s.pw := by unfold drive; split <;> rfl
theorem sendCh_pw (s : State) (c : Nat) (o : Out) : (sendCh s c o).pw = s.pw := by
  unfold sendCh; dsimp only; split
  · rfl
  · rw [drive_pw]
theorem sendMsg_pw (s : State) (p : Port) (m : OMsg) : (sendMsg s p m).pw = s.pw := sendCh_pw _ _ _
theorem hstRequest_pw (s : State) (a b c d e : Nat) (f : Bytes) : (hstRequest s a b c d e f).2.pw = s.pw := sendMsg_pw _ _ _
theorem hstWrite_pw (s : State) (a : Nat) (d : Bytes) (c : Nat) : (hstWrite s a d c).pw = s.pw := by
  unfold hstWrite; exact hstRequest_pw s 2 a (d.length - 1) 0 0 d
theorem evN_pw (s : State) (n k : Nat) : (evN s n k).pw = s.pw := by
  unfold evN; dsimp only; repeat' split
  all_goals rfl
theorem ev_pw (s : State) (n : Nat) : (ev s n).pw = s.pw := evN_pw s n 1
theorem irqFire_pw (s : State) (v : Nat) : (irqFire s v).pw = s.pw := by unfold irqFire; rw [hstWrite_pw]
theorem irqRaise_pw (s : State) (v : Nat) : (irqRaise s v).pw = s.pw := by
  unfold irqRaise; split
  · rfl
  · exact irqFire_pw s v
theorem evPost_pw (s : State) (n k st r c w1 w2 w3 : Nat) : (evPost s n k st r c w1 w2 w3).pw = s.pw := by
  unfold evPost
  dsimp only
  split
  · split
    · rw [irqRaise_pw, ev_pw, hstWrite_pw]
    · rw [ev_pw, hstWrite_pw]
  · rw [ev_pw]

theorem txDrain_pw (s : State) : (txDrain s).pw = s.pw := by
  have h : ∀ (l : List (Nat × Out)) (t : State), (l.foldl (fun s e => sendCh s e.1 e.2) t).pw = t.pw := by
    intro l
    induction l with
    | nil => intro t; rfl
    | cons e l ih => intro t; rw [List.foldl_cons, ih, sendCh_pw]
  unfold txDrain; rw [h]
theorem irqWake_pw (s : State) : (irqWake s).pw = s.pw := by
  have h : ∀ (l : SMap Irq) (t : State), (l.foldl (fun s e => irqRaise s e.1) t).pw = t.pw := by
    intro l
    induction l with
    | nil => intro t; rfl
    | cons e l ih => intro t; rw [List.foldl_cons, ih, irqRaise_pw]
  unfold irqWake; rw [h]

/-! ## What an operation may do to the power state and the fence -/

/-- What an operation inside a row may do to the power state: `Life`, with FLOW_STOP_N, RST_N and the state a BACKUP_HOLD came from kept. -/
structure LifeStep (s t : State) : Prop where
  life : Life s t
  flow : t.pw.flowStop = s.pw.flowStop
  rstN : t.pw.rstN = s.pw.rstN
  prior : t.pw.prior = s.pw.prior

theorem LifeStep.of_keeps {gr : Group → Bool} {s t : State} (k : Keeps gr s t) (h1 : gr .life = true) (h2 : gr .pins = true) : LifeStep s t :=
  ⟨k.life h1 h2, by simpa [pinsOf] using congrArg Power.flowStop (k.pins h2), by simpa [pinsOf] using congrArg Power.rstN (k.pins h2),
    by simpa [pinsOf] using congrArg Power.prior (k.pins h2)⟩

theorem LifeStep.trans {s t u : State} (h : LifeStep s t) (k : LifeStep t u) : LifeStep s u := by
  obtain ⟨h1, h2, h3, h4⟩ := h
  obtain ⟨k1, k2, k3, k4⟩ := k
  refine ⟨?_, k2.trans h2, k3.trans h3, k4.trans h4⟩
  simp only [Life, lifeOf, Prod.mk.injEq] at *
  rcases h1 with ⟨a1, a2, a3, a4, a5⟩ | ⟨a1, a2, a3, a4, a5⟩ | ⟨a1, a2, a3, a4, a5, a6⟩ <;>
    rcases k1 with ⟨b1, b2, b3, b4, b5⟩ | ⟨b1, b2, b3, b4, b5⟩ | ⟨b1, b2, b3, b4, b5, b6⟩ <;> simp_all

/-- The groups `LifeStep` speaks of. -/
abbrev lifeGroups : Group → Bool := fun g => g == .life || g == .pins

theorem LifeStep.keeps {s t : State} (k : Keeps lifeGroups s t) : LifeStep s t := .of_keeps k rfl rfl

/-- A state that differs in none of these. -/
theorem LifeStep.same {s t : State} (h1 : lifeOf t = lifeOf s) (h2 : t.pw.flowStop = s.pw.flowStop) (h3 : t.pw.rstN = s.pw.rstN)
    (h4 : t.pw.prior = s.pw.prior) : LifeStep s t := ⟨.inl h1, h2, h3, h4⟩

theorem LifeStep.refl (s : State) : LifeStep s s := .same rfl rfl rfl rfl

theorem LifeStep.ite {s a b : State} {c : Prop} [Decidable c] (ha : c → LifeStep s a) (hb : ¬c → LifeStep s b) :
    LifeStep s (if c then a else b) := by
  split
  · exact ha ‹_›
  · exact hb ‹_›

variable {s t : State}

theorem LifeStep.advance (h : LifeStep s t) : LifeStep s (advance t) := h.trans (.keeps (advance_keeps (Keeps.refl _ _)))
theorem LifeStep.deliver (h : LifeStep s t) : LifeStep s (deliver t) := h.trans (.keeps (deliver_keeps (Keeps.refl _ _)))
theorem LifeStep.linkDown (h : LifeStep s t) (a b : Nat) : LifeStep s (linkDown t a b) := h.trans (.keeps (linkDown_keeps (Keeps.refl _ _)))
theorem LifeStep.postEvent (h : LifeStep s t) (a b c d e : Nat) : LifeStep s (postEvent t a b c d e) :=
  h.trans (.keeps (postEvent_keeps (Keeps.refl _ _)))
theorem LifeStep.postError (h : LifeStep s t) (a : Nat) (e : Err) : LifeStep s (postError t a e) := h.trans (.keeps (postError_keeps (Keeps.refl _ _)))
theorem LifeStep.planAbort (h : LifeStep s t) (a : Nat) : LifeStep s (planAbort t a) := h.trans (.keeps (planAbort_keeps (Keeps.refl _ _)))
theorem LifeStep.fence (h : LifeStep s t) (a : Nat) : LifeStep s (fence t a) := h.trans (.keeps (fence_keeps (Keeps.refl _ _)))
theorem LifeStep.resumeRings (h : LifeStep s t) : LifeStep s (resumeRings t) := h.trans (.keeps (resumeRings_keeps (Keeps.refl _ _)))
theorem LifeStep.linkResume (h : LifeStep s t) : LifeStep s (linkResume t) := h.trans (.keeps (linkResume_keeps (Keeps.refl _ _)))
theorem LifeStep.cmdsRetained (h : LifeStep s t) : LifeStep s (cmdsRetained t) := h.trans (.keeps (cmdsRetained_keeps (Keeps.refl _ _)))
theorem LifeStep.reissue (h : LifeStep s t) : LifeStep s (reissue t) := h.trans (.keeps (reissue_keeps (Keeps.refl _ _)))
theorem LifeStep.raiseAgain (h : LifeStep s t) : LifeStep s (raiseAgain t) := h.trans (.keeps (raiseAgain_keeps (Keeps.refl _ _)))
theorem LifeStep.sendHeld (h : LifeStep s t) : LifeStep s (sendHeld t) := h.trans (.keeps (sendHeld_keeps (Keeps.refl _ _)))
theorem LifeStep.chargeHold (h : LifeStep s t) : LifeStep s (chargeHold t) := h.trans (.keeps (chargeHold_keeps (Keeps.refl _ _)))
theorem LifeStep.closes (h : LifeStep s t) (l : List OpenLine) : LifeStep s (l.foldl (fun s o => closeLine s o.line) t) := by
  induction l generalizing t with
  | nil => exact h
  | cons a l ih => exact ih (h.trans (.keeps (closeLine_keeps (Keeps.refl _ _))))
theorem LifeStep.fillStores (h : LifeStep s t) : LifeStep s (fillStores t) := h.trans (.same rfl rfl rfl rfl)
theorem LifeStep.startGo (h : LifeStep s t) : LifeStep s (startGo t) := by
  unfold Machine.startGo
  exact .ite (fun _ => h.trans (.same rfl rfl rfl rfl)) (fun _ => h)
theorem LifeStep.lostArrays (h : LifeStep s t) : LifeStep s (lostArrays t) := by
  refine h.trans ?_
  unfold Machine.lostArrays
  refine LifeStep.fillStores (.keeps (Keeps.foldl _ _ (Keeps.foldl _ _ ?_ ?_) ?_))
  · exact Keeps.of_parts (.gen (Keeps.refl lifeGroups t) (e1 := rfl) (e3 := List.prefix_refl _) (e7 := id) (e8 := id) (e9 := id)
      (e10 := fun _ => rfl) (e2 := fun _ => rfl) (e4 := fun _ => rfl) (e5 := fun _ => ⟨rfl, rfl, rfl, rfl, rfl⟩) (e11 := fun _ => rfl)
      (e12 := fun _ => ⟨rfl, rfl, rfl⟩) (e15 := fun _ => ⟨rfl, rfl⟩) (e17 := fun _ => ⟨rfl, rfl⟩) (e19 := fun _ => rfl)
      (e20 := fun _ => rfl) (e21 := fun _ _ _ => rfl))
  · intro t a k; exact windowLost_keeps k
  · intro t a k; exact lastFail_keeps k

/-- What becomes of a state that is not fenced and whose FLOW_STOP_N is high: it is as it was, or fenced. -/
theorem LifeStep.pstate_of_high (h : LifeStep s t) (hf : s.pw.flowStop = false) : t.pw.pstate = s.pw.pstate ∨ t.pw.pstate = 6 := by
  have := h.life
  simp only [Life, lifeOf, Prod.mk.injEq] at this
  rcases this with p | p | p
  · exact .inl p.1
  · exact .inr p.2.2.2.1
  · rw [hf] at p; simp at p

/-- What becomes of any state. -/
theorem LifeStep.pstate (h : LifeStep s t) :
    t.pw.pstate = s.pw.pstate ∨ t.pw.pstate = 6 ∨ ((s.pw.pstate = 2 ∨ s.pw.pstate = 5) ∧ t.pw.pstate = 3) := by
  have := h.life
  simp only [Life, lifeOf, Prod.mk.injEq] at this
  rcases this with p | p | p
  · exact .inl p.1
  · exact .inr (.inl p.2.2.2.1)
  · exact .inr (.inr ⟨p.2.2.1, p.2.2.2.2.1⟩)

/-- A fence stays, and its reason. -/
theorem LifeStep.fenced (h : LifeStep s t) (hf : s.hd.fenced = true) : t.hd.fenced = true ∧ t.hd.reason = s.hd.reason := by
  have := h.life
  simp only [Life, lifeOf, Prod.mk.injEq] at this
  rcases this with p | p | p
  · exact ⟨p.2.2.2.1.trans hf, p.2.2.2.2⟩
  · simp [hf] at p
  · exact ⟨p.1.symm.trans hf, p.2.1.symm⟩

/-- A fenced slice in FENCED with SLICE_READY low stays so. -/
theorem LifeStep.of_fenced (h : LifeStep s t) (hf : s.hd.fenced = true) (hp : s.pw.pstate = 6) (hr : s.pw.ready = false) :
    t.hd.fenced = true ∧ t.hd.reason = s.hd.reason ∧ t.pw.pstate = 6 ∧ t.pw.ready = false := by
  have := h.life
  simp only [Life, lifeOf, Prod.mk.injEq] at this
  rcases this with p | p | p
  · exact ⟨p.2.2.2.1.trans hf, p.2.2.2.2, p.1.trans hp, p.2.1.trans hr⟩
  · simp [hf] at p
  · omega

/-- A slice out of cold reset that is not fenced is, after a cause (R472, R473). -/
theorem fence_new (hf : s.hd.fenced = false) (hr : s.pw.rstN = true) (r : Nat) :
    (Machine.fence s r).hd.fenced = true ∧ (Machine.fence s r).hd.reason = r ∧ (Machine.fence s r).pw.pstate = 6 ∧
      (Machine.fence s r).pw.ready = false := by
  unfold Machine.fence
  rw [if_neg (by simp [hf, hr])]
  dsimp only
  generalize paired s = held
  generalize (if s.tt.link = 0 then s else goSolo (ttDrop s)) = s
  refine LifeStep.of_fenced (s := { s with
    hd := { s.hd with fenced := true, reason := r, wasPaired := held, mode := if s.hd.mode = 2 then 2 else 1 }
    pw := { s.pw with pstate := 6, ready := false }
    tt := { s.tt with link := if s.tt.link = 0 then 0 else 4 }
    rg := { s.rg with
      doneN := s.rg.doneN + s.rg.cmds.length
      cmds := s.rg.cmds.zipIdx.map fun x =>
        if x.1.done then x.1
        else { x.1 with done := true, status := St.fenced, word2 := 0, aux := 0, doneN := s.rg.doneN + x.2 } } })
    (((LifeStep.refl _).planAbort 6).postError _ _) rfl rfl rfl

end Sys2Proof.Machine
end

