-- ==== Sys2Proof/Laws/PowerInv.lean ====
section
/-! SUPPORT. The operations inside the power rows keep the invariant of the power state (Safety.lean, PowerInv). -/

namespace Sys2Proof.Machine

open Sys2Proof

set_option Elab.async false

theorem powerInvKeeps {gr : Group → Bool} {s t : State} (h : PowerInv s) (k : Keeps gr s t) (h1 : gr .life = true) (h2 : gr .pins = true) :
    PowerInv t := by
  have hl := k.life h1 h2
  have hp := k.pins h2
  have e1 : t.pw.prior = s.pw.prior := by simpa [pinsOf] using congrArg Power.prior hp
  have e2 : t.pw.rstN = s.pw.rstN := by simpa [pinsOf] using congrArg Power.rstN hp
  obtain ⟨a, b, c, d, e⟩ := h
  simp only [Life, lifeOf, Prod.mk.injEq] at hl
  rcases hl with ⟨p1, p2, p3, p4, p5⟩ | ⟨p1, p2, p3, p4, p5⟩ | ⟨p1, p2, p3, p4, p5, p6⟩
  · constructor <;> simp_all
  · constructor <;> simp_all
  · constructor
    · omega
    · simp [p5, ← p1]; rcases p3 with p | p <;> simp_all
    · omega
    · simp [p6]
    · intro hr; rw [e2] at hr; have := e hr; omega

abbrev lifePins : Group → Bool := fun g => g == .life || g == .pins
theorem powerInv_keeps {s t : State} (h : PowerInv s) (k : Keeps lifePins s t) : PowerInv t := powerInvKeeps h k rfl rfl

theorem powerInv_ite {c : Prop} [Decidable c] {a b : State} (ha : c → PowerInv a) (hb : ¬c → PowerInv b) : PowerInv (if c then a else b) := by
  split
  · exact ha ‹_›
  · exact hb ‹_›

theorem powerInv_startGo {s : State} (h : PowerInv s) : PowerInv (startGo s) := by
  unfold startGo; split
  · obtain ⟨a, b, c, d, e⟩ := h; exact ⟨a, b, c, d, e⟩
  · exact h
theorem powerInv_cold {s : State} : PowerInv (coldState s) := by
  constructor <;> simp [coldState]
theorem powerInv_deliver {s : State} (h : PowerInv s) : PowerInv (deliver s) := powerInv_keeps h (deliver_keeps (Keeps.refl _ _))
theorem powerInv_advance {s : State} (h : PowerInv s) : PowerInv (advance s) := powerInv_keeps h (advance_keeps (Keeps.refl _ _))
theorem powerInv_linkDown {s : State} {a b} (h : PowerInv s) : PowerInv (linkDown s a b) := powerInv_keeps h (linkDown_keeps (Keeps.refl _ _))
theorem powerInv_postEvent {s : State} {a b c d e} (h : PowerInv s) : PowerInv (postEvent s a b c d e) := powerInv_keeps h (postEvent_keeps (Keeps.refl _ _))
theorem powerInv_postError {s : State} {a b} (h : PowerInv s) : PowerInv (postError s a b) := powerInv_keeps h (postError_keeps (Keeps.refl _ _))
theorem powerInv_planAbort {s : State} {a} (h : PowerInv s) : PowerInv (planAbort s a) := powerInv_keeps h (planAbort_keeps (Keeps.refl _ _))
theorem powerInv_fence {s : State} {a} (h : PowerInv s) : PowerInv (fence s a) := powerInv_keeps h (fence_keeps (Keeps.refl _ _))
theorem powerInv_resumeRings {s : State} (h : PowerInv s) : PowerInv (resumeRings s) := powerInv_keeps h (resumeRings_keeps (Keeps.refl _ _))
theorem powerInv_linkResume {s : State} (h : PowerInv s) : PowerInv (linkResume s) := powerInv_keeps h (linkResume_keeps (Keeps.refl _ _))
theorem powerInv_cmdsRetained {s : State} (h : PowerInv s) : PowerInv (cmdsRetained s) := powerInv_keeps h (cmdsRetained_keeps (Keeps.refl _ _))
theorem powerInv_reissue {s : State} (h : PowerInv s) : PowerInv (reissue s) := powerInv_keeps h (reissue_keeps (Keeps.refl _ _))
theorem powerInv_raiseAgain {s : State} (h : PowerInv s) : PowerInv (raiseAgain s) := powerInv_keeps h (raiseAgain_keeps (Keeps.refl _ _))
theorem powerInv_sendHeld {s : State} (h : PowerInv s) : PowerInv (sendHeld s) := powerInv_keeps h (sendHeld_keeps (Keeps.refl _ _))
theorem powerInv_chargeHold {s : State} (h : PowerInv s) : PowerInv (chargeHold s) := powerInv_keeps h (chargeHold_keeps (Keeps.refl _ _))
theorem powerInv_closes {s : State} (h : PowerInv s) (l : List OpenLine) : PowerInv (l.foldl (fun s o => closeLine s o.line) s) := by
  induction l generalizing s with
  | nil => exact h
  | cons a l ih => exact ih (powerInv_keeps h (closeLine_keeps (Keeps.refl _ _)))
theorem powerInv_mk {s t : State} (h : PowerInv s) (h1 : t.pw.pstate = s.pw.pstate) (h2 : t.pw.ready = s.pw.ready) (h3 : t.hd.fenced = s.hd.fenced)
  (h4 : t.pw.prior = s.pw.prior) (h5 : t.pw.rstN = s.pw.rstN) : PowerInv t := by
  obtain ⟨a, b, c, d, e⟩ := h
  constructor <;> simp_all
theorem powerInv_fill {s : State} (h : PowerInv s) : PowerInv (fillStores s) := powerInv_mk h rfl rfl rfl rfl rfl
theorem powerInv_lost {s : State} (h : PowerInv s) : PowerInv (lostArrays s) := by
  unfold lostArrays
  refine powerInv_fill (powerInv_keeps h (Keeps.foldl _ _ (Keeps.foldl _ _ ?_ ?_) ?_))
  · exact Keeps.of_parts (.gen (Keeps.refl lifePins s) (e1 := rfl) (e3 := List.prefix_refl _) (e7 := id) (e8 := id) (e9 := id) (e10 := fun _ => rfl)
      (e2 := fun _ => rfl) (e4 := fun _ => rfl) (e5 := fun _ => ⟨rfl, rfl, rfl, rfl, rfl⟩) (e11 := fun _ => rfl)
      (e12 := fun _ => ⟨rfl, rfl, rfl⟩) (e15 := fun _ => ⟨rfl, rfl⟩) (e17 := fun _ => ⟨rfl, rfl⟩) (e19 := fun _ => rfl)
      (e20 := fun _ => rfl) (e21 := fun _ _ _ => rfl))
  · intro t a k; exact windowLost_keeps k
  · intro t a k; exact lastFail_keeps k

theorem csrReset_pw (s : State) : (csrReset s).pw = s.pw ∧ (csrReset s).hd = s.hd := by
  have f : ∀ (l : List Nat) (g : Nat → Nat) (v : State → Nat → Nat) (s : State), (l.foldl (fun s n => csrPut s (g n) (v s n)) s).pw = s.pw ∧ (l.foldl (fun s n => csrPut s (g n) (v s n)) s).hd = s.hd := by
    intro l g v
    induction l with
    | nil => intro s; exact ⟨rfl, rfl⟩
    | cons a l ih => intro s; exact ih _
  unfold csrReset
  constructor
  · exact ((f (List.range 4) _ _ _).1).trans ((f (List.range 64) _ _ _).1)
  · exact ((f (List.range 4) _ _ _).2).trans ((f (List.range 64) _ _ _).2)

theorem powerInv_retained {s : State} {k} (hr : s.pw.rstN = true) (hf : s.hd.fenced = false) : PowerInv (retainedState s k) := by
  have := (csrReset_pw s)
  unfold retainedState
  constructor <;> simp [this.1, this.2, hr, hf, Ps.starting]

theorem powerInv_logicReset {s : State} {k} (hr : s.pw.rstN = true) (hf : s.hd.fenced = false) : PowerInv (logicReset s k) := by
  unfold logicReset
  dsimp only
  split
  · exact powerInv_retained hr hf
  · exact powerInv_linkDown (powerInv_retained hr hf)

theorem powerInv_boot {s : State} {a b c} (h : PowerInv s) (hr : s.pw.rstN = false) : PowerInv (boot s a b c) := by
  have h0 := h.held hr
  have hf : s.hd.fenced = false := by have := h.fenced; simp_all
  have hrd : s.pw.ready = false := by have := h.ready; cases e : s.pw.ready <;> simp_all
  unfold boot
  dsimp only
  split
  · constructor <;> simp [h0, hf, hrd]
  · apply powerInv_startGo
    split
    · constructor <;> simp [csrSet, csrPut, hf, Ps.starting, hrd]
    · constructor <;> simp [hf, Ps.starting, hrd]

theorem rstN_true {s : State} (h : PowerInv s) (h1 : s.pw.pstate ≠ 0) : s.pw.rstN = true := by
  cases e : s.pw.rstN
  · exact absurd (h.held e) h1
  · rfl
theorem notFenced {s : State} (h : PowerInv s) (h1 : s.pw.pstate ≠ 6) : s.hd.fenced = false := by
  have := h.fenced
  cases e : s.hd.fenced <;> simp_all

theorem powerInv_startEnd {s : State} (h : PowerInv s) (h1 : s.pw.pstate = 1) : PowerInv (startEnd s) := by
  have hr := rstN_true h (by omega)
  have hf := notFenced h (by omega)
  unfold startEnd
  dsimp only
  apply powerInv_advance
  have base : PowerInv { s with pw := { s.pw with
      arrDown := false, ready := true, pstate := Ps.serving, bakPresent := s.pw.bakPresent || s.pw.onBak
      startNs := min ((s.now - s.pw.startAt) / 2) (2 ^ 32 - 1) } } := by
    constructor <;> simp [hf, Ps.serving, hr]
  have step2 : ∀ u : State, PowerInv u → ∀ c : Bool, PowerInv (resumeRings (linkResume { (if c then u else reissue u) with out := (if c then u else reissue u).out ++ startCredits })) := by
    intro u hu c
    refine powerInv_resumeRings (powerInv_linkResume ?_)
    cases c
    · exact powerInv_mk (powerInv_reissue hu) rfl rfl rfl rfl rfl
    · exact powerInv_mk hu rfl rfl rfl rfl rfl
  by_cases hc : s.pw.startKind = 0
  · simp only [hc, decide_true, if_true, Bool.not_true, Bool.and_false, Bool.false_eq_true, if_false]
    refine powerInv_raiseAgain ?_
    have := step2 _ base true
    simp only [if_true, hc] at this ⊢
    exact this
  · simp only [hc, decide_false, if_false, Bool.not_false, Bool.and_true]
    split
    · exact step2 _ (powerInv_lost base) false
    · exact step2 _ base false

theorem powerInv_quiesceStart {s : State} (h : PowerInv s) (h1 : s.pw.pstate = 2) : PowerInv (quiesceStart s) := by
  have hr := rstN_true h (by omega)
  have hf := notFenced h (by omega)
  unfold quiesceStart
  dsimp only
  refine powerInv_advance (powerInv_mk (powerInv_closes (powerInv_planAbort (s := {s with pw := { s.pw with ready := false, pstate := Ps.quiesce, wrstHeld := false } }) ?_) _) rfl rfl rfl rfl rfl)
  constructor <;> simp [hf, Ps.quiesce, hr]

theorem powerInv_flowEnter {s : State} (h : PowerInv s) : PowerInv (flowEnter s) := by
  unfold flowEnter
  dsimp only
  have base : PowerInv { s with pw := { s.pw with ready := false, flowEntered := true } } := by
    obtain ⟨a, b, c, d, e⟩ := h
    constructor <;> simp_all
  split
  · exact powerInv_advance (powerInv_planAbort (powerInv_postEvent (powerInv_cmdsRetained base)))
  · exact powerInv_advance (powerInv_linkDown (powerInv_planAbort (powerInv_postEvent (powerInv_cmdsRetained base))))

theorem powerInv_wake {s : State} (h : PowerInv s) : PowerInv (irqWake (txDrain s)) :=
  powerInv_keeps h (irqWake_keeps (txDrain_keeps (Keeps.refl _ _)))
theorem powerInv_wrst {s : State} {b : Bool} (h : PowerInv s) : PowerInv { s with pw := { s.pw with wrstHeld := b } } := powerInv_mk h rfl rfl rfl rfl rfl
theorem powerInv_flowExit {s : State} (h : PowerInv s) (h1 : s.pw.pstate = 2 ∨ s.pw.pstate = 3 ∨ s.pw.pstate = 5) : PowerInv (flowExit s) := by
  have hr := rstN_true h (by omega)
  have hf := notFenced h (by omega)
  have base : PowerInv { s with pw := { s.pw with
    pstate := if s.pw.quiesced || s.pw.pstate == Ps.quiesce then Ps.quiesce else Ps.serving, quiesced := false, flowEntered := false,
    ready := !(s.pw.quiesced || s.pw.pstate == Ps.quiesce) && !s.pw.wrstHeld,
    planLock := s.pw.planLock || s.pw.clocks >>> 2 == 7 } } := by
    obtain ⟨q, hq⟩ : ∃ q, (s.pw.quiesced || s.pw.pstate == Ps.quiesce) = q := ⟨_, rfl⟩
    rw [hq]
    constructor <;> cases q <;> simp [hf, Ps.quiesce, Ps.serving, hr]
  unfold flowExit
  dsimp only
  refine powerInv_ite (fun _ => ?_) (fun hq => powerInv_ite (fun _ => ?_) (fun _ => ?_))
  · exact powerInv_advance (powerInv_deliver (powerInv_wrst (powerInv_wake (powerInv_postEvent base))))
  · refine powerInv_advance (powerInv_deliver (powerInv_quiesceStart (powerInv_wake (powerInv_postEvent base)) ?_))
    rw [irqWake_pw, txDrain_pw, postEvent, evPost_pw]
    exact if_neg hq
  · exact powerInv_advance (powerInv_resumeRings (powerInv_deliver (powerInv_linkResume (powerInv_wake (powerInv_postEvent base)))))

theorem powerInv_backupHold {s : State} (h : PowerInv s) : PowerInv (backupHold s) := by
  unfold backupHold
  split
  · rename_i hc
    have hr := rstN_true h (by simp only [Ps.serving, Ps.retention, Ps.quiesce] at hc; omega)
    have hf := notFenced h (by simp only [Ps.serving, Ps.retention, Ps.quiesce] at hc; omega)
    constructor <;> simp [hf, hr, Ps.backupHold]
    simpa [Ps.serving, Ps.retention, Ps.quiesce] using hc
  · exact h

theorem powerInv_holdReturn {s : State} (h : PowerInv s) (h1 : s.pw.pstate = 4) : PowerInv (holdReturn s) := by
  have hr := rstN_true h (by omega)
  have hf := notFenced h (by omega)
  have hp := h.prior h1
  have base : PowerInv { s with pw := { s.pw with pstate := s.pw.prior, ready := s.pw.ready && s.pw.prior == Ps.serving } } := by
    constructor
    · show s.pw.prior ≤ 6; omega
    · simp [hf]; omega
    · intro h; simp at h; omega
    · intro h; simp [Ps.serving] at h; exact .inl h.2
    · intro h; simp [hr] at h
  unfold holdReturn
  dsimp only
  split
  · split
    · exact base
    · split
      · exact powerInv_advance base
      · exact powerInv_flowEnter base
  · split
    · exact powerInv_flowExit base hp
    · split
      · split
        · rename_i hs
          refine powerInv_advance (powerInv_deliver (powerInv_quiesceStart (powerInv_wake base) ?_))
          rw [irqWake_pw, txDrain_pw]
          exact hs
        · exact powerInv_advance (powerInv_deliver (powerInv_wrst (powerInv_wake base)))
      · apply powerInv_advance
        split
        · exact powerInv_resumeRings (powerInv_deliver (powerInv_wake base))
        · exact powerInv_deliver (powerInv_wake base)

end Sys2Proof.Machine
end

