-- ==== Sys2Proof/Laws/Starts.lean ====
section
/-! SUPPORT. What the row that starts a command does, by whether the command may start (spec/10 R397, spec/11 R421, R422). -/

namespace Sys2Proof.Machine

open Sys2Proof

set_option Elab.async false

/-- A command that may start is marked as started and acted on. -/
theorem startCmd_starts {s : State} {ring idx code : Nat} {c : Cmd} (h : Starts s ring idx code c) (f : State → Cmd → State) :
    startCmd s ring idx code f = advance (f (begun s c) { c with started := true }) := by
  obtain ⟨h1, h2, h3, h4, h7, h5, h6⟩ := h
  unfold startCmd
  simp only [h1]
  rw [if_pos ⟨h2, h3, h4, h7, by simp [h5], h6⟩]
  rfl

/-- Where no command of the code may start at the index, nothing changes. -/
theorem startCmd_none {s : State} {ring idx code : Nat} (h : ∀ c, ¬ Starts s ring idx code c) (f : State → Cmd → State) :
    startCmd s ring idx code f = s := by
  unfold startCmd
  split
  · rfl
  · rename_i c hc
    rw [if_neg]
    rintro ⟨h2, h3, h4, h7, h5, h6⟩
    exact h c ⟨hc, h2, h3, h4, h7, by simpa using h5, h6⟩

/-! ## What a command that starts does to the table, and the lines it walks (R421, R429) -/

/-- What waits at an index of a ring is a command of the table that has not ended. -/
theorem mem_of_cmdAt {s : State} {ring idx : Nat} {c : Cmd} (h : cmdAt s ring idx = some c) : c ∈ s.rg.cmds ∧ c.done = false := by
  have hm := List.mem_of_find?_eq_some h
  have hp := List.find?_some h
  simp at hp
  exact ⟨hm, hp.2⟩

/-- A command marked as started. -/
theorem begun_cmds (s : State) (c : Cmd) : (begun s c).rg.cmds = s.rg.cmds.map fun x => if x.n = c.n then { x with started := true }
    else x := rfl

/-- A command of the table that has not ended ends with the result given. -/
theorem endsOk_cmdEnd {s : State} {c : Cmd} (hm : ∃ x ∈ s.rg.cmds, x.n = c.n ∧ x.done = false) (w a : Nat) :
    EndsOk (cmdEnd s c.n St.ok w a) c w := by
  obtain ⟨x, hx, hn, hd⟩ := hm
  refine ⟨{ x with done := true, status := St.ok, word2 := w, aux := a, doneN := s.rg.doneN }, ?_, hn, rfl, rfl, rfl⟩
  unfold cmdEnd cmdUpd
  exact List.mem_map.mpr ⟨x, hx, by simp [hn, hd]⟩

/-- The command that starts stands in the table. -/
theorem begun_mem {s : State} {ring idx code : Nat} {c : Cmd} (h : Starts s ring idx code c) :
    ∃ x ∈ (begun s c).rg.cmds, x.n = c.n ∧ x.done = false := by
  obtain ⟨hm, hd⟩ := mem_of_cmdAt h.1
  exact ⟨{ c with started := true }, List.mem_map.mpr ⟨c, hm, by simp⟩, rfl, hd⟩

/-- Operations presented one after another. -/
theorem foldl_present (f : (Nat × Nat × Nat × Nat) → Op) (ops : List (Nat × Nat × Nat × Nat)) (s : State) :
    ops.foldl (fun s x => present s (f x)) s = { s with arr := { s.arr with presented := s.arr.presented ++ ops.map f } } := by
  induction ops generalizing s with
  | nil => simp
  | cons x l ih => rw [List.foldl_cons, ih]; simp [present]

/-- Everything the presenting of a list of lines does: the command's phase and count, the acceptance number, and one operation a line. -/
theorem presentLines_eq (s : State) (c : Cmd) (k : OpKind) (ops : List (Nat × Nat × Nat × Nat)) :
    ∃ l : List Op, l.map opLine = ops.map (·.1) ∧ (∀ o ∈ l, o.kind = k ∧ o.cmd = c.n) ∧
      presentLines s c k ops = { cmdUpd s c.n (fun c => { c with phase := 1, todo := c.todo + ops.length }) with
        arr := { s.arr with n := s.arr.n + 1, presented := s.arr.presented ++ l } } := by
  unfold presentLines
  dsimp only
  rw [foldl_present]
  refine ⟨_, ?_, ?_, rfl⟩
  · rw [List.map_map]
    apply List.map_congr_left
    intro x _
    simp [opLine]
  · intro o ho
    obtain ⟨x, _, rfl⟩ := List.mem_map.mp ho
    exact ⟨rfl, rfl⟩

/-- A command that presents lines walks them. -/
theorem walks_present {s : State} {c : Cmd} {k : OpKind} {ops : List (Nat × Nat × Nat × Nat)} {u : State} {c' : Cmd} (hc : c'.n = c.n)
    (hu : u.rg = (begun s c).rg) (hp : u.arr.presented = s.arr.presented) :
    Walks s (presentLines u c' k ops) c k (ops.map (·.1)) := by
  obtain ⟨l, h1, h2, h3⟩ := presentLines_eq u c' k ops
  refine ⟨l, ?_, h1, ?_, ?_⟩
  · rw [h3, ← hp]
  · intro o ho; rw [← hc]; exact h2 o ho
  · rw [h3]
    show ∀ x ∈ List.map _ u.rg.cmds, _
    rw [hu, begun_cmds, List.map_map]
    intro x hx hn
    obtain ⟨y, hy, rfl⟩ := List.mem_map.mp hx
    simp only [Function.comp] at hn ⊢
    by_cases h : y.n = c.n
    · simp only [h, hc, if_true, List.length_map, true_and]
      exact ⟨y, hy, h, rfl⟩
    · exfalso; simp only [h, if_false] at hn
      split at hn
      · exact h hn
      · exact h hn

/-- Presenting lines leaves the array's lines. -/
theorem presentLines_lines (u : State) (c : Cmd) (k : OpKind) (ops : List (Nat × Nat × Nat × Nat)) :
    (presentLines u c k ops).arr.lines = u.arr.lines := by
  obtain ⟨l, _, _, h⟩ := presentLines_eq u c k ops
  rw [h]

/-- Presenting lines leaves the lasts under change. -/
theorem presentLines_deleting (u : State) (c : Cmd) (k : OpKind) (ops : List (Nat × Nat × Nat × Nat)) :
    (presentLines u c k ops).arr.deleting = u.arr.deleting := by
  obtain ⟨l, _, _, h⟩ := presentLines_eq u c k ops
  rw [h]

/-- The commands that run beside a command do not depend on its own mark. -/
theorem running_begun (s : State) (c : Cmd) (b : Bool) : running (begun s c) { c with started := b } = running s c := by
  unfold running begun cmdUpd
  simp only
  induction s.rg.cmds with
  | nil => rfl
  | cons x l ih =>
    simp only [List.map_cons, List.filter_cons]
    rw [ih]
    by_cases h : x.n = c.n <;> simp [h]

/-- A line stored leaves the lasts. -/
theorem storeLine_lasts (s : State) (k : Nat) (l : Line) (m : LineMask) (b : Bool) : (storeLine s k l m b).arr.lasts = s.arr.lasts := by
  simp only [storeLine]
  repeat' split
  all_goals rfl

/-- A line stored leaves the rings. -/
theorem storeLine_rg (s : State) (k : Nat) (l : Line) (m : LineMask) (b : Bool) : (storeLine s k l m b).rg = s.rg := by
  simp only [storeLine]
  repeat' split
  all_goals rfl

/-- A line stored leaves the power state. -/
theorem storeLine_pw (s : State) (k : Nat) (l : Line) (m : LineMask) (b : Bool) : (storeLine s k l m b).pw = s.pw := by
  simp only [storeLine]
  repeat' split
  all_goals rfl

end Sys2Proof.Machine
end

