-- ==== Sys2Proof/Laws/State.lean ====
section
/-! SUPPORT. The plain updates of the state, field by field: what each leaves as it was, and the field it writes. -/

namespace Sys2Proof.Machine

open Sys2Proof

set_option Elab.async false

/-! ## csrPut -/

@[simp] theorem csrPut_pending (s : State) (off v : Nat) : (csrPut s off v).pending = s.pending := rfl
@[simp] theorem csrPut_held (s : State) (off v : Nat) : (csrPut s off v).held = s.held := rfl
@[simp] theorem csrPut_out (s : State) (off v : Nat) : (csrPut s off v).out = s.out := rfl
@[simp] theorem csrPut_now (s : State) (off v : Nat) : (csrPut s off v).now = s.now := rfl
@[simp] theorem csrPut_free (s : State) (off v : Nat) : (csrPut s off v).free = s.free := rfl
@[simp] theorem csrPut_credits (s : State) (off v : Nat) : (csrPut s off v).credits = s.credits := rfl
@[simp] theorem csrPut_txq (s : State) (off v : Nat) : (csrPut s off v).txq = s.txq := rfl
@[simp] theorem csrPut_pw (s : State) (off v : Nat) : (csrPut s off v).pw = s.pw := rfl
@[simp] theorem csrPut_tm (s : State) (off v : Nat) : (csrPut s off v).tm = s.tm := rfl
@[simp] theorem csrPut_arr (s : State) (off v : Nat) : (csrPut s off v).arr = s.arr := rfl
@[simp] theorem csrPut_coh (s : State) (off v : Nat) : (csrPut s off v).coh = s.coh := rfl
@[simp] theorem csrPut_ari (s : State) (off v : Nat) : (csrPut s off v).ari = s.ari := rfl
@[simp] theorem csrPut_gen (s : State) (off v : Nat) : (csrPut s off v).gen = s.gen := rfl
@[simp] theorem csrPut_rg (s : State) (off v : Nat) : (csrPut s off v).rg = s.rg := rfl
@[simp] theorem csrPut_hd (s : State) (off v : Nat) : (csrPut s off v).hd = s.hd := rfl
@[simp] theorem csrPut_sec (s : State) (off v : Nat) : (csrPut s off v).sec = s.sec := rfl
@[simp] theorem csrPut_qs (s : State) (off v : Nat) : (csrPut s off v).qs = s.qs := rfl
@[simp] theorem csrPut_tt (s : State) (off v : Nat) : (csrPut s off v).tt = s.tt := rfl
@[simp] theorem csrPut_pr (s : State) (off v : Nat) : (csrPut s off v).pr = s.pr := rfl
@[simp] theorem csrPut_pl (s : State) (off v : Nat) : (csrPut s off v).pl = s.pl := rfl
@[simp] theorem csrPut_hl (s : State) (off v : Nat) : (csrPut s off v).hl = s.hl := rfl

/-! ## linePut -/

@[simp] theorem linePut_pending (s : State) (k : Nat) (l : Line) : (linePut s k l).pending = s.pending := rfl
@[simp] theorem linePut_held (s : State) (k : Nat) (l : Line) : (linePut s k l).held = s.held := rfl
@[simp] theorem linePut_out (s : State) (k : Nat) (l : Line) : (linePut s k l).out = s.out := rfl
@[simp] theorem linePut_now (s : State) (k : Nat) (l : Line) : (linePut s k l).now = s.now := rfl
@[simp] theorem linePut_free (s : State) (k : Nat) (l : Line) : (linePut s k l).free = s.free := rfl
@[simp] theorem linePut_csr (s : State) (k : Nat) (l : Line) : (linePut s k l).csr = s.csr := rfl
@[simp] theorem linePut_credits (s : State) (k : Nat) (l : Line) : (linePut s k l).credits = s.credits := rfl
@[simp] theorem linePut_txq (s : State) (k : Nat) (l : Line) : (linePut s k l).txq = s.txq := rfl
@[simp] theorem linePut_pw (s : State) (k : Nat) (l : Line) : (linePut s k l).pw = s.pw := rfl
@[simp] theorem linePut_tm (s : State) (k : Nat) (l : Line) : (linePut s k l).tm = s.tm := rfl
@[simp] theorem linePut_coh (s : State) (k : Nat) (l : Line) : (linePut s k l).coh = s.coh := rfl
@[simp] theorem linePut_ari (s : State) (k : Nat) (l : Line) : (linePut s k l).ari = s.ari := rfl
@[simp] theorem linePut_gen (s : State) (k : Nat) (l : Line) : (linePut s k l).gen = s.gen := rfl
@[simp] theorem linePut_rg (s : State) (k : Nat) (l : Line) : (linePut s k l).rg = s.rg := rfl
@[simp] theorem linePut_hd (s : State) (k : Nat) (l : Line) : (linePut s k l).hd = s.hd := rfl
@[simp] theorem linePut_sec (s : State) (k : Nat) (l : Line) : (linePut s k l).sec = s.sec := rfl
@[simp] theorem linePut_qs (s : State) (k : Nat) (l : Line) : (linePut s k l).qs = s.qs := rfl
@[simp] theorem linePut_tt (s : State) (k : Nat) (l : Line) : (linePut s k l).tt = s.tt := rfl
@[simp] theorem linePut_pr (s : State) (k : Nat) (l : Line) : (linePut s k l).pr = s.pr := rfl
@[simp] theorem linePut_pl (s : State) (k : Nat) (l : Line) : (linePut s k l).pl = s.pl := rfl
@[simp] theorem linePut_hl (s : State) (k : Nat) (l : Line) : (linePut s k l).hl = s.hl := rfl
@[simp] theorem linePut_arr_lines (s : State) (k : Nat) (l : Line) :
    (linePut s k l).arr.lines = SMap.put {} s.arr.lines k l := rfl
@[simp] theorem linePut_arr_lasts (s : State) (k : Nat) (l : Line) : (linePut s k l).arr.lasts = s.arr.lasts := rfl
@[simp] theorem linePut_arr_pinBusy (s : State) (k : Nat) (l : Line) : (linePut s k l).arr.pinBusy = s.arr.pinBusy := rfl
@[simp] theorem linePut_arr_roles (s : State) (k : Nat) (l : Line) : (linePut s k l).arr.roles = s.arr.roles := rfl
@[simp] theorem linePut_arr_mhes (s : State) (k : Nat) (l : Line) : (linePut s k l).arr.mhes = s.arr.mhes := rfl
@[simp] theorem linePut_arr_merges (s : State) (k : Nat) (l : Line) : (linePut s k l).arr.merges = s.arr.merges := rfl
@[simp] theorem linePut_arr_evicts (s : State) (k : Nat) (l : Line) : (linePut s k l).arr.evicts = s.arr.evicts := rfl
@[simp] theorem linePut_arr_opens (s : State) (k : Nat) (l : Line) : (linePut s k l).arr.opens = s.arr.opens := rfl
@[simp] theorem linePut_arr_streams (s : State) (k : Nat) (l : Line) : (linePut s k l).arr.streams = s.arr.streams := rfl
@[simp] theorem linePut_arr_runs (s : State) (k : Nat) (l : Line) : (linePut s k l).arr.runs = s.arr.runs := rfl
@[simp] theorem linePut_arr_memRds (s : State) (k : Nat) (l : Line) : (linePut s k l).arr.memRds = s.arr.memRds := rfl
@[simp] theorem linePut_arr_memWrs (s : State) (k : Nat) (l : Line) : (linePut s k l).arr.memWrs = s.arr.memWrs := rfl
@[simp] theorem linePut_arr_memq (s : State) (k : Nat) (l : Line) : (linePut s k l).arr.memq = s.arr.memq := rfl
@[simp] theorem linePut_arr_waiting (s : State) (k : Nat) (l : Line) : (linePut s k l).arr.waiting = s.arr.waiting := rfl
@[simp] theorem linePut_arr_deleting (s : State) (k : Nat) (l : Line) : (linePut s k l).arr.deleting = s.arr.deleting := rfl
@[simp] theorem linePut_arr_presented (s : State) (k : Nat) (l : Line) : (linePut s k l).arr.presented = s.arr.presented := rfl
@[simp] theorem linePut_arr_owed (s : State) (k : Nat) (l : Line) : (linePut s k l).arr.owed = s.arr.owed := rfl
@[simp] theorem linePut_arr_fences (s : State) (k : Nat) (l : Line) : (linePut s k l).arr.fences = s.arr.fences := rfl
@[simp] theorem linePut_arr_n (s : State) (k : Nat) (l : Line) : (linePut s k l).arr.n = s.arr.n := rfl

/-! ## lastPut -/

@[simp] theorem lastPut_pending (s : State) (i : Nat) (l : Last) : (lastPut s i l).pending = s.pending := rfl
@[simp] theorem lastPut_held (s : State) (i : Nat) (l : Last) : (lastPut s i l).held = s.held := rfl
@[simp] theorem lastPut_out (s : State) (i : Nat) (l : Last) : (lastPut s i l).out = s.out := rfl
@[simp] theorem lastPut_now (s : State) (i : Nat) (l : Last) : (lastPut s i l).now = s.now := rfl
@[simp] theorem lastPut_free (s : State) (i : Nat) (l : Last) : (lastPut s i l).free = s.free := rfl
@[simp] theorem lastPut_csr (s : State) (i : Nat) (l : Last) : (lastPut s i l).csr = s.csr := rfl
@[simp] theorem lastPut_credits (s : State) (i : Nat) (l : Last) : (lastPut s i l).credits = s.credits := rfl
@[simp] theorem lastPut_txq (s : State) (i : Nat) (l : Last) : (lastPut s i l).txq = s.txq := rfl
@[simp] theorem lastPut_pw (s : State) (i : Nat) (l : Last) : (lastPut s i l).pw = s.pw := rfl
@[simp] theorem lastPut_tm (s : State) (i : Nat) (l : Last) : (lastPut s i l).tm = s.tm := rfl
@[simp] theorem lastPut_coh (s : State) (i : Nat) (l : Last) : (lastPut s i l).coh = s.coh := rfl
@[simp] theorem lastPut_ari (s : State) (i : Nat) (l : Last) : (lastPut s i l).ari = s.ari := rfl
@[simp] theorem lastPut_gen (s : State) (i : Nat) (l : Last) : (lastPut s i l).gen = s.gen := rfl
@[simp] theorem lastPut_rg (s : State) (i : Nat) (l : Last) : (lastPut s i l).rg = s.rg := rfl
@[simp] theorem lastPut_hd (s : State) (i : Nat) (l : Last) : (lastPut s i l).hd = s.hd := rfl
@[simp] theorem lastPut_sec (s : State) (i : Nat) (l : Last) : (lastPut s i l).sec = s.sec := rfl
@[simp] theorem lastPut_qs (s : State) (i : Nat) (l : Last) : (lastPut s i l).qs = s.qs := rfl
@[simp] theorem lastPut_tt (s : State) (i : Nat) (l : Last) : (lastPut s i l).tt = s.tt := rfl
@[simp] theorem lastPut_pr (s : State) (i : Nat) (l : Last) : (lastPut s i l).pr = s.pr := rfl
@[simp] theorem lastPut_pl (s : State) (i : Nat) (l : Last) : (lastPut s i l).pl = s.pl := rfl
@[simp] theorem lastPut_hl (s : State) (i : Nat) (l : Last) : (lastPut s i l).hl = s.hl := rfl
@[simp] theorem lastPut_arr_lines (s : State) (i : Nat) (l : Last) : (lastPut s i l).arr.lines = s.arr.lines := rfl
@[simp] theorem lastPut_arr_lasts (s : State) (i : Nat) (l : Last) :
    (lastPut s i l).arr.lasts = SMap.put {} s.arr.lasts i l := rfl
@[simp] theorem lastPut_arr_pinBusy (s : State) (i : Nat) (l : Last) : (lastPut s i l).arr.pinBusy = s.arr.pinBusy := rfl
@[simp] theorem lastPut_arr_roles (s : State) (i : Nat) (l : Last) : (lastPut s i l).arr.roles = s.arr.roles := rfl
@[simp] theorem lastPut_arr_mhes (s : State) (i : Nat) (l : Last) : (lastPut s i l).arr.mhes = s.arr.mhes := rfl
@[simp] theorem lastPut_arr_merges (s : State) (i : Nat) (l : Last) : (lastPut s i l).arr.merges = s.arr.merges := rfl
@[simp] theorem lastPut_arr_evicts (s : State) (i : Nat) (l : Last) : (lastPut s i l).arr.evicts = s.arr.evicts := rfl
@[simp] theorem lastPut_arr_opens (s : State) (i : Nat) (l : Last) : (lastPut s i l).arr.opens = s.arr.opens := rfl
@[simp] theorem lastPut_arr_streams (s : State) (i : Nat) (l : Last) : (lastPut s i l).arr.streams = s.arr.streams := rfl
@[simp] theorem lastPut_arr_runs (s : State) (i : Nat) (l : Last) : (lastPut s i l).arr.runs = s.arr.runs := rfl
@[simp] theorem lastPut_arr_memRds (s : State) (i : Nat) (l : Last) : (lastPut s i l).arr.memRds = s.arr.memRds := rfl
@[simp] theorem lastPut_arr_memWrs (s : State) (i : Nat) (l : Last) : (lastPut s i l).arr.memWrs = s.arr.memWrs := rfl
@[simp] theorem lastPut_arr_memq (s : State) (i : Nat) (l : Last) : (lastPut s i l).arr.memq = s.arr.memq := rfl
@[simp] theorem lastPut_arr_waiting (s : State) (i : Nat) (l : Last) : (lastPut s i l).arr.waiting = s.arr.waiting := rfl
@[simp] theorem lastPut_arr_deleting (s : State) (i : Nat) (l : Last) : (lastPut s i l).arr.deleting = s.arr.deleting := rfl
@[simp] theorem lastPut_arr_presented (s : State) (i : Nat) (l : Last) : (lastPut s i l).arr.presented = s.arr.presented := rfl
@[simp] theorem lastPut_arr_owed (s : State) (i : Nat) (l : Last) : (lastPut s i l).arr.owed = s.arr.owed := rfl
@[simp] theorem lastPut_arr_fences (s : State) (i : Nat) (l : Last) : (lastPut s i l).arr.fences = s.arr.fences := rfl
@[simp] theorem lastPut_arr_n (s : State) (i : Nat) (l : Last) : (lastPut s i l).arr.n = s.arr.n := rfl

/-! ## ctxPut -/

@[simp] theorem ctxPut_pending (s : State) (c : Nat) (x : Ctx) : (ctxPut s c x).pending = s.pending := rfl
@[simp] theorem ctxPut_held (s : State) (c : Nat) (x : Ctx) : (ctxPut s c x).held = s.held := rfl
@[simp] theorem ctxPut_out (s : State) (c : Nat) (x : Ctx) : (ctxPut s c x).out = s.out := rfl
@[simp] theorem ctxPut_now (s : State) (c : Nat) (x : Ctx) : (ctxPut s c x).now = s.now := rfl
@[simp] theorem ctxPut_free (s : State) (c : Nat) (x : Ctx) : (ctxPut s c x).free = s.free := rfl
@[simp] theorem ctxPut_csr (s : State) (c : Nat) (x : Ctx) : (ctxPut s c x).csr = s.csr := rfl
@[simp] theorem ctxPut_credits (s : State) (c : Nat) (x : Ctx) : (ctxPut s c x).credits = s.credits := rfl
@[simp] theorem ctxPut_txq (s : State) (c : Nat) (x : Ctx) : (ctxPut s c x).txq = s.txq := rfl
@[simp] theorem ctxPut_pw (s : State) (c : Nat) (x : Ctx) : (ctxPut s c x).pw = s.pw := rfl
@[simp] theorem ctxPut_tm (s : State) (c : Nat) (x : Ctx) : (ctxPut s c x).tm = s.tm := rfl
@[simp] theorem ctxPut_arr (s : State) (c : Nat) (x : Ctx) : (ctxPut s c x).arr = s.arr := rfl
@[simp] theorem ctxPut_coh (s : State) (c : Nat) (x : Ctx) : (ctxPut s c x).coh = s.coh := rfl
@[simp] theorem ctxPut_ari (s : State) (c : Nat) (x : Ctx) : (ctxPut s c x).ari = s.ari := rfl
@[simp] theorem ctxPut_rg (s : State) (c : Nat) (x : Ctx) : (ctxPut s c x).rg = s.rg := rfl
@[simp] theorem ctxPut_hd (s : State) (c : Nat) (x : Ctx) : (ctxPut s c x).hd = s.hd := rfl
@[simp] theorem ctxPut_sec (s : State) (c : Nat) (x : Ctx) : (ctxPut s c x).sec = s.sec := rfl
@[simp] theorem ctxPut_qs (s : State) (c : Nat) (x : Ctx) : (ctxPut s c x).qs = s.qs := rfl
@[simp] theorem ctxPut_tt (s : State) (c : Nat) (x : Ctx) : (ctxPut s c x).tt = s.tt := rfl
@[simp] theorem ctxPut_pr (s : State) (c : Nat) (x : Ctx) : (ctxPut s c x).pr = s.pr := rfl
@[simp] theorem ctxPut_pl (s : State) (c : Nat) (x : Ctx) : (ctxPut s c x).pl = s.pl := rfl
@[simp] theorem ctxPut_hl (s : State) (c : Nat) (x : Ctx) : (ctxPut s c x).hl = s.hl := rfl
@[simp] theorem ctxPut_gen_ctxs (s : State) (c : Nat) (x : Ctx) :
    (ctxPut s c x).gen.ctxs = SMap.put {} s.gen.ctxs c x := rfl
@[simp] theorem ctxPut_gen_drains (s : State) (c : Nat) (x : Ctx) : (ctxPut s c x).gen.drains = s.gen.drains := rfl
@[simp] theorem ctxPut_gen_rings (s : State) (c : Nat) (x : Ctx) : (ctxPut s c x).gen.rings = s.gen.rings := rfl
@[simp] theorem ctxPut_gen_bufs (s : State) (c : Nat) (x : Ctx) : (ctxPut s c x).gen.bufs = s.gen.bufs := rfl
@[simp] theorem ctxPut_gen_lost (s : State) (c : Nat) (x : Ctx) : (ctxPut s c x).gen.lost = s.gen.lost := rfl
@[simp] theorem ctxPut_gen_early (s : State) (c : Nat) (x : Ctx) : (ctxPut s c x).gen.early = s.gen.early := rfl
@[simp] theorem ctxPut_gen_freezeQ (s : State) (c : Nat) (x : Ctx) : (ctxPut s c x).gen.freezeQ = s.gen.freezeQ := rfl
@[simp] theorem ctxPut_gen_seals (s : State) (c : Nat) (x : Ctx) : (ctxPut s c x).gen.seals = s.gen.seals := rfl
@[simp] theorem ctxPut_gen_lastSeal (s : State) (c : Nat) (x : Ctx) : (ctxPut s c x).gen.lastSeal = s.gen.lastSeal := rfl
@[simp] theorem ctxPut_gen_pendingRc (s : State) (c : Nat) (x : Ctx) : (ctxPut s c x).gen.pendingRc = s.gen.pendingRc := rfl

/-! ## logPut -/

@[simp] theorem logPut_pending (s : State) (n : Nat) (r : LogRing) : (logPut s n r).pending = s.pending := rfl
@[simp] theorem logPut_held (s : State) (n : Nat) (r : LogRing) : (logPut s n r).held = s.held := rfl
@[simp] theorem logPut_out (s : State) (n : Nat) (r : LogRing) : (logPut s n r).out = s.out := rfl
@[simp] theorem logPut_now (s : State) (n : Nat) (r : LogRing) : (logPut s n r).now = s.now := rfl
@[simp] theorem logPut_free (s : State) (n : Nat) (r : LogRing) : (logPut s n r).free = s.free := rfl
@[simp] theorem logPut_csr (s : State) (n : Nat) (r : LogRing) : (logPut s n r).csr = s.csr := rfl
@[simp] theorem logPut_credits (s : State) (n : Nat) (r : LogRing) : (logPut s n r).credits = s.credits := rfl
@[simp] theorem logPut_txq (s : State) (n : Nat) (r : LogRing) : (logPut s n r).txq = s.txq := rfl
@[simp] theorem logPut_pw (s : State) (n : Nat) (r : LogRing) : (logPut s n r).pw = s.pw := rfl
@[simp] theorem logPut_tm (s : State) (n : Nat) (r : LogRing) : (logPut s n r).tm = s.tm := rfl
@[simp] theorem logPut_arr (s : State) (n : Nat) (r : LogRing) : (logPut s n r).arr = s.arr := rfl
@[simp] theorem logPut_coh (s : State) (n : Nat) (r : LogRing) : (logPut s n r).coh = s.coh := rfl
@[simp] theorem logPut_ari (s : State) (n : Nat) (r : LogRing) : (logPut s n r).ari = s.ari := rfl
@[simp] theorem logPut_rg (s : State) (n : Nat) (r : LogRing) : (logPut s n r).rg = s.rg := rfl
@[simp] theorem logPut_hd (s : State) (n : Nat) (r : LogRing) : (logPut s n r).hd = s.hd := rfl
@[simp] theorem logPut_sec (s : State) (n : Nat) (r : LogRing) : (logPut s n r).sec = s.sec := rfl
@[simp] theorem logPut_qs (s : State) (n : Nat) (r : LogRing) : (logPut s n r).qs = s.qs := rfl
@[simp] theorem logPut_tt (s : State) (n : Nat) (r : LogRing) : (logPut s n r).tt = s.tt := rfl
@[simp] theorem logPut_pr (s : State) (n : Nat) (r : LogRing) : (logPut s n r).pr = s.pr := rfl
@[simp] theorem logPut_pl (s : State) (n : Nat) (r : LogRing) : (logPut s n r).pl = s.pl := rfl
@[simp] theorem logPut_hl (s : State) (n : Nat) (r : LogRing) : (logPut s n r).hl = s.hl := rfl
@[simp] theorem logPut_gen_ctxs (s : State) (n : Nat) (r : LogRing) : (logPut s n r).gen.ctxs = s.gen.ctxs := rfl
@[simp] theorem logPut_gen_drains (s : State) (n : Nat) (r : LogRing) : (logPut s n r).gen.drains = s.gen.drains := rfl
@[simp] theorem logPut_gen_rings (s : State) (n : Nat) (r : LogRing) :
    (logPut s n r).gen.rings = SMap.put {} s.gen.rings n r := rfl
@[simp] theorem logPut_gen_bufs (s : State) (n : Nat) (r : LogRing) : (logPut s n r).gen.bufs = s.gen.bufs := rfl
@[simp] theorem logPut_gen_lost (s : State) (n : Nat) (r : LogRing) : (logPut s n r).gen.lost = s.gen.lost := rfl
@[simp] theorem logPut_gen_early (s : State) (n : Nat) (r : LogRing) : (logPut s n r).gen.early = s.gen.early := rfl
@[simp] theorem logPut_gen_freezeQ (s : State) (n : Nat) (r : LogRing) : (logPut s n r).gen.freezeQ = s.gen.freezeQ := rfl
@[simp] theorem logPut_gen_seals (s : State) (n : Nat) (r : LogRing) : (logPut s n r).gen.seals = s.gen.seals := rfl
@[simp] theorem logPut_gen_lastSeal (s : State) (n : Nat) (r : LogRing) : (logPut s n r).gen.lastSeal = s.gen.lastSeal := rfl
@[simp] theorem logPut_gen_pendingRc (s : State) (n : Nat) (r : LogRing) : (logPut s n r).gen.pendingRc = s.gen.pendingRc := rfl

/-! ## sfPut -/

@[simp] theorem sfPut_pending (s : State) (k : Nat) (e : SfEnt) : (sfPut s k e).pending = s.pending := rfl
@[simp] theorem sfPut_held (s : State) (k : Nat) (e : SfEnt) : (sfPut s k e).held = s.held := rfl
@[simp] theorem sfPut_out (s : State) (k : Nat) (e : SfEnt) : (sfPut s k e).out = s.out := rfl
@[simp] theorem sfPut_now (s : State) (k : Nat) (e : SfEnt) : (sfPut s k e).now = s.now := rfl
@[simp] theorem sfPut_free (s : State) (k : Nat) (e : SfEnt) : (sfPut s k e).free = s.free := rfl
@[simp] theorem sfPut_csr (s : State) (k : Nat) (e : SfEnt) : (sfPut s k e).csr = s.csr := rfl
@[simp] theorem sfPut_credits (s : State) (k : Nat) (e : SfEnt) : (sfPut s k e).credits = s.credits := rfl
@[simp] theorem sfPut_txq (s : State) (k : Nat) (e : SfEnt) : (sfPut s k e).txq = s.txq := rfl
@[simp] theorem sfPut_pw (s : State) (k : Nat) (e : SfEnt) : (sfPut s k e).pw = s.pw := rfl
@[simp] theorem sfPut_tm (s : State) (k : Nat) (e : SfEnt) : (sfPut s k e).tm = s.tm := rfl
@[simp] theorem sfPut_arr (s : State) (k : Nat) (e : SfEnt) : (sfPut s k e).arr = s.arr := rfl
@[simp] theorem sfPut_ari (s : State) (k : Nat) (e : SfEnt) : (sfPut s k e).ari = s.ari := rfl
@[simp] theorem sfPut_gen (s : State) (k : Nat) (e : SfEnt) : (sfPut s k e).gen = s.gen := rfl
@[simp] theorem sfPut_rg (s : State) (k : Nat) (e : SfEnt) : (sfPut s k e).rg = s.rg := rfl
@[simp] theorem sfPut_hd (s : State) (k : Nat) (e : SfEnt) : (sfPut s k e).hd = s.hd := rfl
@[simp] theorem sfPut_sec (s : State) (k : Nat) (e : SfEnt) : (sfPut s k e).sec = s.sec := rfl
@[simp] theorem sfPut_qs (s : State) (k : Nat) (e : SfEnt) : (sfPut s k e).qs = s.qs := rfl
@[simp] theorem sfPut_tt (s : State) (k : Nat) (e : SfEnt) : (sfPut s k e).tt = s.tt := rfl
@[simp] theorem sfPut_pr (s : State) (k : Nat) (e : SfEnt) : (sfPut s k e).pr = s.pr := rfl
@[simp] theorem sfPut_pl (s : State) (k : Nat) (e : SfEnt) : (sfPut s k e).pl = s.pl := rfl
@[simp] theorem sfPut_hl (s : State) (k : Nat) (e : SfEnt) : (sfPut s k e).hl = s.hl := rfl
@[simp] theorem sfPut_coh_sf (s : State) (k : Nat) (e : SfEnt) :
    (sfPut s k e).coh.sf = SMap.put {} s.coh.sf k e := rfl
@[simp] theorem sfPut_coh_cautious (s : State) (k : Nat) (e : SfEnt) : (sfPut s k e).coh.cautious = s.coh.cautious := rfl
@[simp] theorem sfPut_coh_failing (s : State) (k : Nat) (e : SfEnt) : (sfPut s k e).coh.failing = s.coh.failing := rfl
@[simp] theorem sfPut_coh_snoops (s : State) (k : Nat) (e : SfEnt) : (sfPut s k e).coh.snoops = s.coh.snoops := rfl
@[simp] theorem sfPut_coh_biasCache (s : State) (k : Nat) (e : SfEnt) : (sfPut s k e).coh.biasCache = s.coh.biasCache := rfl
@[simp] theorem sfPut_coh_biasBusy (s : State) (k : Nat) (e : SfEnt) : (sfPut s k e).coh.biasBusy = s.coh.biasBusy := rfl
@[simp] theorem sfPut_coh_biasBad (s : State) (k : Nat) (e : SfEnt) : (sfPut s k e).coh.biasBad = s.coh.biasBad := rfl
@[simp] theorem sfPut_coh_flips (s : State) (k : Nat) (e : SfEnt) : (sfPut s k e).coh.flips = s.coh.flips := rfl
@[simp] theorem sfPut_coh_pushes (s : State) (k : Nat) (e : SfEnt) : (sfPut s k e).coh.pushes = s.coh.pushes := rfl
@[simp] theorem sfPut_coh_tag (s : State) (k : Nat) (e : SfEnt) : (sfPut s k e).coh.tag = s.coh.tag := rfl
@[simp] theorem sfPut_coh_biasUpset (s : State) (k : Nat) (e : SfEnt) : (sfPut s k e).coh.biasUpset = s.coh.biasUpset := rfl

/-! ## ringPut -/

@[simp] theorem ringPut_pending (s : State) (n : Nat) (r : Ring) : (ringPut s n r).pending = s.pending := rfl
@[simp] theorem ringPut_held (s : State) (n : Nat) (r : Ring) : (ringPut s n r).held = s.held := rfl
@[simp] theorem ringPut_out (s : State) (n : Nat) (r : Ring) : (ringPut s n r).out = s.out := rfl
@[simp] theorem ringPut_now (s : State) (n : Nat) (r : Ring) : (ringPut s n r).now = s.now := rfl
@[simp] theorem ringPut_free (s : State) (n : Nat) (r : Ring) : (ringPut s n r).free = s.free := rfl
@[simp] theorem ringPut_csr (s : State) (n : Nat) (r : Ring) : (ringPut s n r).csr = s.csr := rfl
@[simp] theorem ringPut_credits (s : State) (n : Nat) (r : Ring) : (ringPut s n r).credits = s.credits := rfl
@[simp] theorem ringPut_txq (s : State) (n : Nat) (r : Ring) : (ringPut s n r).txq = s.txq := rfl
@[simp] theorem ringPut_pw (s : State) (n : Nat) (r : Ring) : (ringPut s n r).pw = s.pw := rfl
@[simp] theorem ringPut_tm (s : State) (n : Nat) (r : Ring) : (ringPut s n r).tm = s.tm := rfl
@[simp] theorem ringPut_arr (s : State) (n : Nat) (r : Ring) : (ringPut s n r).arr = s.arr := rfl
@[simp] theorem ringPut_coh (s : State) (n : Nat) (r : Ring) : (ringPut s n r).coh = s.coh := rfl
@[simp] theorem ringPut_ari (s : State) (n : Nat) (r : Ring) : (ringPut s n r).ari = s.ari := rfl
@[simp] theorem ringPut_gen (s : State) (n : Nat) (r : Ring) : (ringPut s n r).gen = s.gen := rfl
@[simp] theorem ringPut_hd (s : State) (n : Nat) (r : Ring) : (ringPut s n r).hd = s.hd := rfl
@[simp] theorem ringPut_sec (s : State) (n : Nat) (r : Ring) : (ringPut s n r).sec = s.sec := rfl
@[simp] theorem ringPut_qs (s : State) (n : Nat) (r : Ring) : (ringPut s n r).qs = s.qs := rfl
@[simp] theorem ringPut_tt (s : State) (n : Nat) (r : Ring) : (ringPut s n r).tt = s.tt := rfl
@[simp] theorem ringPut_pr (s : State) (n : Nat) (r : Ring) : (ringPut s n r).pr = s.pr := rfl
@[simp] theorem ringPut_pl (s : State) (n : Nat) (r : Ring) : (ringPut s n r).pl = s.pl := rfl
@[simp] theorem ringPut_hl (s : State) (n : Nat) (r : Ring) : (ringPut s n r).hl = s.hl := rfl
@[simp] theorem ringPut_rg_rings (s : State) (n : Nat) (r : Ring) :
    (ringPut s n r).rg.rings = SMap.put {} s.rg.rings n r := rfl
@[simp] theorem ringPut_rg_evs (s : State) (n : Nat) (r : Ring) : (ringPut s n r).rg.evs = s.rg.evs := rfl
@[simp] theorem ringPut_rg_irqs (s : State) (n : Nat) (r : Ring) : (ringPut s n r).rg.irqs = s.rg.irqs := rfl
@[simp] theorem ringPut_rg_cmds (s : State) (n : Nat) (r : Ring) : (ringPut s n r).rg.cmds = s.rg.cmds := rfl
@[simp] theorem ringPut_rg_rrLow (s : State) (n : Nat) (r : Ring) : (ringPut s n r).rg.rrLow = s.rg.rrLow := rfl
@[simp] theorem ringPut_rg_rrHigh (s : State) (n : Nat) (r : Ring) : (ringPut s n r).rg.rrHigh = s.rg.rrHigh := rfl
@[simp] theorem ringPut_rg_n (s : State) (n : Nat) (r : Ring) : (ringPut s n r).rg.n = s.rg.n := rfl
@[simp] theorem ringPut_rg_doneN (s : State) (n : Nat) (r : Ring) : (ringPut s n r).rg.doneN = s.rg.doneN := rfl
@[simp] theorem ringPut_rg_began (s : State) (n : Nat) (r : Ring) : (ringPut s n r).rg.began = s.rg.began := rfl
@[simp] theorem ringPut_rg_patched (s : State) (n : Nat) (r : Ring) : (ringPut s n r).rg.patched = s.rg.patched := rfl
@[simp] theorem ringPut_rg_patchTable (s : State) (n : Nat) (r : Ring) : (ringPut s n r).rg.patchTable = s.rg.patchTable := rfl
@[simp] theorem ringPut_rg_hstWrs (s : State) (n : Nat) (r : Ring) : (ringPut s n r).rg.hstWrs = s.rg.hstWrs := rfl

/-! ## mirrorPut -/

@[simp] theorem mirrorPut_pending (s : State) (k : Nat) (l : Line) : (mirrorPut s k l).pending = s.pending := rfl
@[simp] theorem mirrorPut_held (s : State) (k : Nat) (l : Line) : (mirrorPut s k l).held = s.held := rfl
@[simp] theorem mirrorPut_out (s : State) (k : Nat) (l : Line) : (mirrorPut s k l).out = s.out := rfl
@[simp] theorem mirrorPut_now (s : State) (k : Nat) (l : Line) : (mirrorPut s k l).now = s.now := rfl
@[simp] theorem mirrorPut_free (s : State) (k : Nat) (l : Line) : (mirrorPut s k l).free = s.free := rfl
@[simp] theorem mirrorPut_csr (s : State) (k : Nat) (l : Line) : (mirrorPut s k l).csr = s.csr := rfl
@[simp] theorem mirrorPut_credits (s : State) (k : Nat) (l : Line) : (mirrorPut s k l).credits = s.credits := rfl
@[simp] theorem mirrorPut_txq (s : State) (k : Nat) (l : Line) : (mirrorPut s k l).txq = s.txq := rfl
@[simp] theorem mirrorPut_pw (s : State) (k : Nat) (l : Line) : (mirrorPut s k l).pw = s.pw := rfl
@[simp] theorem mirrorPut_tm (s : State) (k : Nat) (l : Line) : (mirrorPut s k l).tm = s.tm := rfl
@[simp] theorem mirrorPut_arr (s : State) (k : Nat) (l : Line) : (mirrorPut s k l).arr = s.arr := rfl
@[simp] theorem mirrorPut_coh (s : State) (k : Nat) (l : Line) : (mirrorPut s k l).coh = s.coh := rfl
@[simp] theorem mirrorPut_ari (s : State) (k : Nat) (l : Line) : (mirrorPut s k l).ari = s.ari := rfl
@[simp] theorem mirrorPut_gen (s : State) (k : Nat) (l : Line) : (mirrorPut s k l).gen = s.gen := rfl
@[simp] theorem mirrorPut_rg (s : State) (k : Nat) (l : Line) : (mirrorPut s k l).rg = s.rg := rfl
@[simp] theorem mirrorPut_hd (s : State) (k : Nat) (l : Line) : (mirrorPut s k l).hd = s.hd := rfl
@[simp] theorem mirrorPut_sec (s : State) (k : Nat) (l : Line) : (mirrorPut s k l).sec = s.sec := rfl
@[simp] theorem mirrorPut_qs (s : State) (k : Nat) (l : Line) : (mirrorPut s k l).qs = s.qs := rfl
@[simp] theorem mirrorPut_tt (s : State) (k : Nat) (l : Line) : (mirrorPut s k l).tt = s.tt := rfl
@[simp] theorem mirrorPut_pl (s : State) (k : Nat) (l : Line) : (mirrorPut s k l).pl = s.pl := rfl
@[simp] theorem mirrorPut_hl (s : State) (k : Nat) (l : Line) : (mirrorPut s k l).hl = s.hl := rfl
@[simp] theorem mirrorPut_pr_st (s : State) (k : Nat) (l : Line) : (mirrorPut s k l).pr.st = s.pr.st := rfl
@[simp] theorem mirrorPut_pr_fellowId (s : State) (k : Nat) (l : Line) : (mirrorPut s k l).pr.fellowId = s.pr.fellowId := rfl
@[simp] theorem mirrorPut_pr_fellowVer (s : State) (k : Nat) (l : Line) : (mirrorPut s k l).pr.fellowVer = s.pr.fellowVer := rfl
@[simp] theorem mirrorPut_pr_fellowMw (s : State) (k : Nat) (l : Line) : (mirrorPut s k l).pr.fellowMw = s.pr.fellowMw := rfl
@[simp] theorem mirrorPut_pr_autoResync (s : State) (k : Nat) (l : Line) : (mirrorPut s k l).pr.autoResync = s.pr.autoResync := rfl
@[simp] theorem mirrorPut_pr_tag (s : State) (k : Nat) (l : Line) : (mirrorPut s k l).pr.tag = s.pr.tag := rfl
@[simp] theorem mirrorPut_pr_sync (s : State) (k : Nat) (l : Line) : (mirrorPut s k l).pr.sync = s.pr.sync := rfl
@[simp] theorem mirrorPut_pr_mirrors (s : State) (k : Nat) (l : Line) :
    (mirrorPut s k l).pr.mirrors = SMap.put {} s.pr.mirrors k l := rfl
@[simp] theorem mirrorPut_pr_stage (s : State) (k : Nat) (l : Line) : (mirrorPut s k l).pr.stage = s.pr.stage := rfl
@[simp] theorem mirrorPut_pr_stageHead (s : State) (k : Nat) (l : Line) : (mirrorPut s k l).pr.stageHead = s.pr.stageHead := rfl
@[simp] theorem mirrorPut_pr_stageOwed (s : State) (k : Nat) (l : Line) : (mirrorPut s k l).pr.stageOwed = s.pr.stageOwed := rfl
@[simp] theorem mirrorPut_pr_ends (s : State) (k : Nat) (l : Line) : (mirrorPut s k l).pr.ends = s.pr.ends := rfl
@[simp] theorem mirrorPut_pr_applied (s : State) (k : Nat) (l : Line) : (mirrorPut s k l).pr.applied = s.pr.applied := rfl
@[simp] theorem mirrorPut_pr_lagged (s : State) (k : Nat) (l : Line) : (mirrorPut s k l).pr.lagged = s.pr.lagged := rfl
@[simp] theorem mirrorPut_pr_ownApplied (s : State) (k : Nat) (l : Line) : (mirrorPut s k l).pr.ownApplied = s.pr.ownApplied := rfl
@[simp] theorem mirrorPut_pr_repairs (s : State) (k : Nat) (l : Line) : (mirrorPut s k l).pr.repairs = s.pr.repairs := rfl
@[simp] theorem mirrorPut_pr_resyncCtx (s : State) (k : Nat) (l : Line) : (mirrorPut s k l).pr.resyncCtx = s.pr.resyncCtx := rfl
@[simp] theorem mirrorPut_pr_resyncOut (s : State) (k : Nat) (l : Line) : (mirrorPut s k l).pr.resyncOut = s.pr.resyncOut := rfl
@[simp] theorem mirrorPut_pr_resyncCmds (s : State) (k : Nat) (l : Line) : (mirrorPut s k l).pr.resyncCmds = s.pr.resyncCmds := rfl
@[simp] theorem mirrorPut_pr_rollLogs (s : State) (k : Nat) (l : Line) : (mirrorPut s k l).pr.rollLogs = s.pr.rollLogs := rfl

/-! ## cmdUpd -/

@[simp] theorem cmdUpd_pending (s : State) (n : Nat) (f : Cmd → Cmd) : (cmdUpd s n f).pending = s.pending := rfl
@[simp] theorem cmdUpd_held (s : State) (n : Nat) (f : Cmd → Cmd) : (cmdUpd s n f).held = s.held := rfl
@[simp] theorem cmdUpd_out (s : State) (n : Nat) (f : Cmd → Cmd) : (cmdUpd s n f).out = s.out := rfl
@[simp] theorem cmdUpd_now (s : State) (n : Nat) (f : Cmd → Cmd) : (cmdUpd s n f).now = s.now := rfl
@[simp] theorem cmdUpd_free (s : State) (n : Nat) (f : Cmd → Cmd) : (cmdUpd s n f).free = s.free := rfl
@[simp] theorem cmdUpd_csr (s : State) (n : Nat) (f : Cmd → Cmd) : (cmdUpd s n f).csr = s.csr := rfl
@[simp] theorem cmdUpd_credits (s : State) (n : Nat) (f : Cmd → Cmd) : (cmdUpd s n f).credits = s.credits := rfl
@[simp] theorem cmdUpd_txq (s : State) (n : Nat) (f : Cmd → Cmd) : (cmdUpd s n f).txq = s.txq := rfl
@[simp] theorem cmdUpd_pw (s : State) (n : Nat) (f : Cmd → Cmd) : (cmdUpd s n f).pw = s.pw := rfl
@[simp] theorem cmdUpd_tm (s : State) (n : Nat) (f : Cmd → Cmd) : (cmdUpd s n f).tm = s.tm := rfl
@[simp] theorem cmdUpd_arr (s : State) (n : Nat) (f : Cmd → Cmd) : (cmdUpd s n f).arr = s.arr := rfl
@[simp] theorem cmdUpd_coh (s : State) (n : Nat) (f : Cmd → Cmd) : (cmdUpd s n f).coh = s.coh := rfl
@[simp] theorem cmdUpd_ari (s : State) (n : Nat) (f : Cmd → Cmd) : (cmdUpd s n f).ari = s.ari := rfl
@[simp] theorem cmdUpd_gen (s : State) (n : Nat) (f : Cmd → Cmd) : (cmdUpd s n f).gen = s.gen := rfl
@[simp] theorem cmdUpd_hd (s : State) (n : Nat) (f : Cmd → Cmd) : (cmdUpd s n f).hd = s.hd := rfl
@[simp] theorem cmdUpd_sec (s : State) (n : Nat) (f : Cmd → Cmd) : (cmdUpd s n f).sec = s.sec := rfl
@[simp] theorem cmdUpd_qs (s : State) (n : Nat) (f : Cmd → Cmd) : (cmdUpd s n f).qs = s.qs := rfl
@[simp] theorem cmdUpd_tt (s : State) (n : Nat) (f : Cmd → Cmd) : (cmdUpd s n f).tt = s.tt := rfl
@[simp] theorem cmdUpd_pr (s : State) (n : Nat) (f : Cmd → Cmd) : (cmdUpd s n f).pr = s.pr := rfl
@[simp] theorem cmdUpd_pl (s : State) (n : Nat) (f : Cmd → Cmd) : (cmdUpd s n f).pl = s.pl := rfl
@[simp] theorem cmdUpd_hl (s : State) (n : Nat) (f : Cmd → Cmd) : (cmdUpd s n f).hl = s.hl := rfl
@[simp] theorem cmdUpd_rg_rings (s : State) (n : Nat) (f : Cmd → Cmd) : (cmdUpd s n f).rg.rings = s.rg.rings := rfl
@[simp] theorem cmdUpd_rg_evs (s : State) (n : Nat) (f : Cmd → Cmd) : (cmdUpd s n f).rg.evs = s.rg.evs := rfl
@[simp] theorem cmdUpd_rg_irqs (s : State) (n : Nat) (f : Cmd → Cmd) : (cmdUpd s n f).rg.irqs = s.rg.irqs := rfl
@[simp] theorem cmdUpd_rg_cmds (s : State) (n : Nat) (f : Cmd → Cmd) :
    (cmdUpd s n f).rg.cmds = s.rg.cmds.map fun c => if c.n = n then f c else c := rfl
@[simp] theorem cmdUpd_rg_rrLow (s : State) (n : Nat) (f : Cmd → Cmd) : (cmdUpd s n f).rg.rrLow = s.rg.rrLow := rfl
@[simp] theorem cmdUpd_rg_rrHigh (s : State) (n : Nat) (f : Cmd → Cmd) : (cmdUpd s n f).rg.rrHigh = s.rg.rrHigh := rfl
@[simp] theorem cmdUpd_rg_n (s : State) (n : Nat) (f : Cmd → Cmd) : (cmdUpd s n f).rg.n = s.rg.n := rfl
@[simp] theorem cmdUpd_rg_doneN (s : State) (n : Nat) (f : Cmd → Cmd) : (cmdUpd s n f).rg.doneN = s.rg.doneN := rfl
@[simp] theorem cmdUpd_rg_began (s : State) (n : Nat) (f : Cmd → Cmd) : (cmdUpd s n f).rg.began = s.rg.began := rfl
@[simp] theorem cmdUpd_rg_patched (s : State) (n : Nat) (f : Cmd → Cmd) : (cmdUpd s n f).rg.patched = s.rg.patched := rfl
@[simp] theorem cmdUpd_rg_patchTable (s : State) (n : Nat) (f : Cmd → Cmd) : (cmdUpd s n f).rg.patchTable = s.rg.patchTable := rfl
@[simp] theorem cmdUpd_rg_hstWrs (s : State) (n : Nat) (f : Cmd → Cmd) : (cmdUpd s n f).rg.hstWrs = s.rg.hstWrs := rfl

/-! ## mheSet -/

@[simp] theorem mheSet_pending (s : State) (m : Mhe) : (mheSet s m).pending = s.pending := rfl
@[simp] theorem mheSet_held (s : State) (m : Mhe) : (mheSet s m).held = s.held := rfl
@[simp] theorem mheSet_out (s : State) (m : Mhe) : (mheSet s m).out = s.out := rfl
@[simp] theorem mheSet_now (s : State) (m : Mhe) : (mheSet s m).now = s.now := rfl
@[simp] theorem mheSet_free (s : State) (m : Mhe) : (mheSet s m).free = s.free := rfl
@[simp] theorem mheSet_csr (s : State) (m : Mhe) : (mheSet s m).csr = s.csr := rfl
@[simp] theorem mheSet_credits (s : State) (m : Mhe) : (mheSet s m).credits = s.credits := rfl
@[simp] theorem mheSet_txq (s : State) (m : Mhe) : (mheSet s m).txq = s.txq := rfl
@[simp] theorem mheSet_pw (s : State) (m : Mhe) : (mheSet s m).pw = s.pw := rfl
@[simp] theorem mheSet_tm (s : State) (m : Mhe) : (mheSet s m).tm = s.tm := rfl
@[simp] theorem mheSet_coh (s : State) (m : Mhe) : (mheSet s m).coh = s.coh := rfl
@[simp] theorem mheSet_ari (s : State) (m : Mhe) : (mheSet s m).ari = s.ari := rfl
@[simp] theorem mheSet_gen (s : State) (m : Mhe) : (mheSet s m).gen = s.gen := rfl
@[simp] theorem mheSet_rg (s : State) (m : Mhe) : (mheSet s m).rg = s.rg := rfl
@[simp] theorem mheSet_hd (s : State) (m : Mhe) : (mheSet s m).hd = s.hd := rfl
@[simp] theorem mheSet_sec (s : State) (m : Mhe) : (mheSet s m).sec = s.sec := rfl
@[simp] theorem mheSet_qs (s : State) (m : Mhe) : (mheSet s m).qs = s.qs := rfl
@[simp] theorem mheSet_tt (s : State) (m : Mhe) : (mheSet s m).tt = s.tt := rfl
@[simp] theorem mheSet_pr (s : State) (m : Mhe) : (mheSet s m).pr = s.pr := rfl
@[simp] theorem mheSet_pl (s : State) (m : Mhe) : (mheSet s m).pl = s.pl := rfl
@[simp] theorem mheSet_hl (s : State) (m : Mhe) : (mheSet s m).hl = s.hl := rfl
@[simp] theorem mheSet_arr_lines (s : State) (m : Mhe) : (mheSet s m).arr.lines = s.arr.lines := rfl
@[simp] theorem mheSet_arr_lasts (s : State) (m : Mhe) : (mheSet s m).arr.lasts = s.arr.lasts := rfl
@[simp] theorem mheSet_arr_pinBusy (s : State) (m : Mhe) : (mheSet s m).arr.pinBusy = s.arr.pinBusy := rfl
@[simp] theorem mheSet_arr_roles (s : State) (m : Mhe) : (mheSet s m).arr.roles = s.arr.roles := rfl
@[simp] theorem mheSet_arr_mhes (s : State) (m : Mhe) :
    (mheSet s m).arr.mhes = s.arr.mhes.map fun x => if x.line = m.line then m else x := rfl
@[simp] theorem mheSet_arr_merges (s : State) (m : Mhe) : (mheSet s m).arr.merges = s.arr.merges := rfl
@[simp] theorem mheSet_arr_evicts (s : State) (m : Mhe) : (mheSet s m).arr.evicts = s.arr.evicts := rfl
@[simp] theorem mheSet_arr_opens (s : State) (m : Mhe) : (mheSet s m).arr.opens = s.arr.opens := rfl
@[simp] theorem mheSet_arr_streams (s : State) (m : Mhe) : (mheSet s m).arr.streams = s.arr.streams := rfl
@[simp] theorem mheSet_arr_runs (s : State) (m : Mhe) : (mheSet s m).arr.runs = s.arr.runs := rfl
@[simp] theorem mheSet_arr_memRds (s : State) (m : Mhe) : (mheSet s m).arr.memRds = s.arr.memRds := rfl
@[simp] theorem mheSet_arr_memWrs (s : State) (m : Mhe) : (mheSet s m).arr.memWrs = s.arr.memWrs := rfl
@[simp] theorem mheSet_arr_memq (s : State) (m : Mhe) : (mheSet s m).arr.memq = s.arr.memq := rfl
@[simp] theorem mheSet_arr_waiting (s : State) (m : Mhe) : (mheSet s m).arr.waiting = s.arr.waiting := rfl
@[simp] theorem mheSet_arr_deleting (s : State) (m : Mhe) : (mheSet s m).arr.deleting = s.arr.deleting := rfl
@[simp] theorem mheSet_arr_presented (s : State) (m : Mhe) : (mheSet s m).arr.presented = s.arr.presented := rfl
@[simp] theorem mheSet_arr_owed (s : State) (m : Mhe) : (mheSet s m).arr.owed = s.arr.owed := rfl
@[simp] theorem mheSet_arr_fences (s : State) (m : Mhe) : (mheSet s m).arr.fences = s.arr.fences := rfl
@[simp] theorem mheSet_arr_n (s : State) (m : Mhe) : (mheSet s m).arr.n = s.arr.n := rfl

/-! ## mheDel -/

@[simp] theorem mheDel_pending (s : State) (line : Nat) : (mheDel s line).pending = s.pending := rfl
@[simp] theorem mheDel_held (s : State) (line : Nat) : (mheDel s line).held = s.held := rfl
@[simp] theorem mheDel_out (s : State) (line : Nat) : (mheDel s line).out = s.out := rfl
@[simp] theorem mheDel_now (s : State) (line : Nat) : (mheDel s line).now = s.now := rfl
@[simp] theorem mheDel_free (s : State) (line : Nat) : (mheDel s line).free = s.free := rfl
@[simp] theorem mheDel_csr (s : State) (line : Nat) : (mheDel s line).csr = s.csr := rfl
@[simp] theorem mheDel_credits (s : State) (line : Nat) : (mheDel s line).credits = s.credits := rfl
@[simp] theorem mheDel_txq (s : State) (line : Nat) : (mheDel s line).txq = s.txq := rfl
@[simp] theorem mheDel_pw (s : State) (line : Nat) : (mheDel s line).pw = s.pw := rfl
@[simp] theorem mheDel_tm (s : State) (line : Nat) : (mheDel s line).tm = s.tm := rfl
@[simp] theorem mheDel_coh (s : State) (line : Nat) : (mheDel s line).coh = s.coh := rfl
@[simp] theorem mheDel_ari (s : State) (line : Nat) : (mheDel s line).ari = s.ari := rfl
@[simp] theorem mheDel_gen (s : State) (line : Nat) : (mheDel s line).gen = s.gen := rfl
@[simp] theorem mheDel_rg (s : State) (line : Nat) : (mheDel s line).rg = s.rg := rfl
@[simp] theorem mheDel_hd (s : State) (line : Nat) : (mheDel s line).hd = s.hd := rfl
@[simp] theorem mheDel_sec (s : State) (line : Nat) : (mheDel s line).sec = s.sec := rfl
@[simp] theorem mheDel_qs (s : State) (line : Nat) : (mheDel s line).qs = s.qs := rfl
@[simp] theorem mheDel_tt (s : State) (line : Nat) : (mheDel s line).tt = s.tt := rfl
@[simp] theorem mheDel_pr (s : State) (line : Nat) : (mheDel s line).pr = s.pr := rfl
@[simp] theorem mheDel_pl (s : State) (line : Nat) : (mheDel s line).pl = s.pl := rfl
@[simp] theorem mheDel_hl (s : State) (line : Nat) : (mheDel s line).hl = s.hl := rfl
@[simp] theorem mheDel_arr_lines (s : State) (line : Nat) : (mheDel s line).arr.lines = s.arr.lines := rfl
@[simp] theorem mheDel_arr_lasts (s : State) (line : Nat) : (mheDel s line).arr.lasts = s.arr.lasts := rfl
@[simp] theorem mheDel_arr_pinBusy (s : State) (line : Nat) : (mheDel s line).arr.pinBusy = s.arr.pinBusy := rfl
@[simp] theorem mheDel_arr_roles (s : State) (line : Nat) : (mheDel s line).arr.roles = s.arr.roles := rfl
@[simp] theorem mheDel_arr_mhes (s : State) (line : Nat) :
    (mheDel s line).arr.mhes = s.arr.mhes.filter fun x => x.line != line := rfl
@[simp] theorem mheDel_arr_merges (s : State) (line : Nat) : (mheDel s line).arr.merges = s.arr.merges := rfl
@[simp] theorem mheDel_arr_evicts (s : State) (line : Nat) : (mheDel s line).arr.evicts = s.arr.evicts := rfl
@[simp] theorem mheDel_arr_opens (s : State) (line : Nat) : (mheDel s line).arr.opens = s.arr.opens := rfl
@[simp] theorem mheDel_arr_streams (s : State) (line : Nat) : (mheDel s line).arr.streams = s.arr.streams := rfl
@[simp] theorem mheDel_arr_runs (s : State) (line : Nat) : (mheDel s line).arr.runs = s.arr.runs := rfl
@[simp] theorem mheDel_arr_memRds (s : State) (line : Nat) : (mheDel s line).arr.memRds = s.arr.memRds := rfl
@[simp] theorem mheDel_arr_memWrs (s : State) (line : Nat) : (mheDel s line).arr.memWrs = s.arr.memWrs := rfl
@[simp] theorem mheDel_arr_memq (s : State) (line : Nat) : (mheDel s line).arr.memq = s.arr.memq := rfl
@[simp] theorem mheDel_arr_waiting (s : State) (line : Nat) : (mheDel s line).arr.waiting = s.arr.waiting := rfl
@[simp] theorem mheDel_arr_deleting (s : State) (line : Nat) : (mheDel s line).arr.deleting = s.arr.deleting := rfl
@[simp] theorem mheDel_arr_presented (s : State) (line : Nat) : (mheDel s line).arr.presented = s.arr.presented := rfl
@[simp] theorem mheDel_arr_owed (s : State) (line : Nat) : (mheDel s line).arr.owed = s.arr.owed := rfl
@[simp] theorem mheDel_arr_fences (s : State) (line : Nat) : (mheDel s line).arr.fences = s.arr.fences := rfl
@[simp] theorem mheDel_arr_n (s : State) (line : Nat) : (mheDel s line).arr.n = s.arr.n := rfl

/-! ## openSet -/

@[simp] theorem openSet_pending (s : State) (o : OpenLine) : (openSet s o).pending = s.pending := rfl
@[simp] theorem openSet_held (s : State) (o : OpenLine) : (openSet s o).held = s.held := rfl
@[simp] theorem openSet_out (s : State) (o : OpenLine) : (openSet s o).out = s.out := rfl
@[simp] theorem openSet_now (s : State) (o : OpenLine) : (openSet s o).now = s.now := rfl
@[simp] theorem openSet_free (s : State) (o : OpenLine) : (openSet s o).free = s.free := rfl
@[simp] theorem openSet_csr (s : State) (o : OpenLine) : (openSet s o).csr = s.csr := rfl
@[simp] theorem openSet_credits (s : State) (o : OpenLine) : (openSet s o).credits = s.credits := rfl
@[simp] theorem openSet_txq (s : State) (o : OpenLine) : (openSet s o).txq = s.txq := rfl
@[simp] theorem openSet_pw (s : State) (o : OpenLine) : (openSet s o).pw = s.pw := rfl
@[simp] theorem openSet_tm (s : State) (o : OpenLine) : (openSet s o).tm = s.tm := rfl
@[simp] theorem openSet_coh (s : State) (o : OpenLine) : (openSet s o).coh = s.coh := rfl
@[simp] theorem openSet_ari (s : State) (o : OpenLine) : (openSet s o).ari = s.ari := rfl
@[simp] theorem openSet_gen (s : State) (o : OpenLine) : (openSet s o).gen = s.gen := rfl
@[simp] theorem openSet_rg (s : State) (o : OpenLine) : (openSet s o).rg = s.rg := rfl
@[simp] theorem openSet_hd (s : State) (o : OpenLine) : (openSet s o).hd = s.hd := rfl
@[simp] theorem openSet_sec (s : State) (o : OpenLine) : (openSet s o).sec = s.sec := rfl
@[simp] theorem openSet_qs (s : State) (o : OpenLine) : (openSet s o).qs = s.qs := rfl
@[simp] theorem openSet_tt (s : State) (o : OpenLine) : (openSet s o).tt = s.tt := rfl
@[simp] theorem openSet_pr (s : State) (o : OpenLine) : (openSet s o).pr = s.pr := rfl
@[simp] theorem openSet_pl (s : State) (o : OpenLine) : (openSet s o).pl = s.pl := rfl
@[simp] theorem openSet_hl (s : State) (o : OpenLine) : (openSet s o).hl = s.hl := rfl
@[simp] theorem openSet_arr_lines (s : State) (o : OpenLine) : (openSet s o).arr.lines = s.arr.lines := rfl
@[simp] theorem openSet_arr_lasts (s : State) (o : OpenLine) : (openSet s o).arr.lasts = s.arr.lasts := rfl
@[simp] theorem openSet_arr_pinBusy (s : State) (o : OpenLine) : (openSet s o).arr.pinBusy = s.arr.pinBusy := rfl
@[simp] theorem openSet_arr_roles (s : State) (o : OpenLine) : (openSet s o).arr.roles = s.arr.roles := rfl
@[simp] theorem openSet_arr_mhes (s : State) (o : OpenLine) : (openSet s o).arr.mhes = s.arr.mhes := rfl
@[simp] theorem openSet_arr_merges (s : State) (o : OpenLine) : (openSet s o).arr.merges = s.arr.merges := rfl
@[simp] theorem openSet_arr_evicts (s : State) (o : OpenLine) : (openSet s o).arr.evicts = s.arr.evicts := rfl
@[simp] theorem openSet_arr_opens (s : State) (o : OpenLine) :
    (openSet s o).arr.opens = s.arr.opens.filter (fun x => x.line != o.line) ++ [o] := rfl
@[simp] theorem openSet_arr_streams (s : State) (o : OpenLine) : (openSet s o).arr.streams = s.arr.streams := rfl
@[simp] theorem openSet_arr_runs (s : State) (o : OpenLine) : (openSet s o).arr.runs = s.arr.runs := rfl
@[simp] theorem openSet_arr_memRds (s : State) (o : OpenLine) : (openSet s o).arr.memRds = s.arr.memRds := rfl
@[simp] theorem openSet_arr_memWrs (s : State) (o : OpenLine) : (openSet s o).arr.memWrs = s.arr.memWrs := rfl
@[simp] theorem openSet_arr_memq (s : State) (o : OpenLine) : (openSet s o).arr.memq = s.arr.memq := rfl
@[simp] theorem openSet_arr_waiting (s : State) (o : OpenLine) : (openSet s o).arr.waiting = s.arr.waiting := rfl
@[simp] theorem openSet_arr_deleting (s : State) (o : OpenLine) : (openSet s o).arr.deleting = s.arr.deleting := rfl
@[simp] theorem openSet_arr_presented (s : State) (o : OpenLine) : (openSet s o).arr.presented = s.arr.presented := rfl
@[simp] theorem openSet_arr_owed (s : State) (o : OpenLine) : (openSet s o).arr.owed = s.arr.owed := rfl
@[simp] theorem openSet_arr_fences (s : State) (o : OpenLine) : (openSet s o).arr.fences = s.arr.fences := rfl
@[simp] theorem openSet_arr_n (s : State) (o : OpenLine) : (openSet s o).arr.n = s.arr.n := rfl

/-! ## openDel -/

@[simp] theorem openDel_pending (s : State) (line : Nat) : (openDel s line).pending = s.pending := rfl
@[simp] theorem openDel_held (s : State) (line : Nat) : (openDel s line).held = s.held := rfl
@[simp] theorem openDel_out (s : State) (line : Nat) : (openDel s line).out = s.out := rfl
@[simp] theorem openDel_now (s : State) (line : Nat) : (openDel s line).now = s.now := rfl
@[simp] theorem openDel_free (s : State) (line : Nat) : (openDel s line).free = s.free := rfl
@[simp] theorem openDel_csr (s : State) (line : Nat) : (openDel s line).csr = s.csr := rfl
@[simp] theorem openDel_credits (s : State) (line : Nat) : (openDel s line).credits = s.credits := rfl
@[simp] theorem openDel_txq (s : State) (line : Nat) : (openDel s line).txq = s.txq := rfl
@[simp] theorem openDel_pw (s : State) (line : Nat) : (openDel s line).pw = s.pw := rfl
@[simp] theorem openDel_tm (s : State) (line : Nat) : (openDel s line).tm = s.tm := rfl
@[simp] theorem openDel_coh (s : State) (line : Nat) : (openDel s line).coh = s.coh := rfl
@[simp] theorem openDel_ari (s : State) (line : Nat) : (openDel s line).ari = s.ari := rfl
@[simp] theorem openDel_gen (s : State) (line : Nat) : (openDel s line).gen = s.gen := rfl
@[simp] theorem openDel_rg (s : State) (line : Nat) : (openDel s line).rg = s.rg := rfl
@[simp] theorem openDel_hd (s : State) (line : Nat) : (openDel s line).hd = s.hd := rfl
@[simp] theorem openDel_sec (s : State) (line : Nat) : (openDel s line).sec = s.sec := rfl
@[simp] theorem openDel_qs (s : State) (line : Nat) : (openDel s line).qs = s.qs := rfl
@[simp] theorem openDel_tt (s : State) (line : Nat) : (openDel s line).tt = s.tt := rfl
@[simp] theorem openDel_pr (s : State) (line : Nat) : (openDel s line).pr = s.pr := rfl
@[simp] theorem openDel_pl (s : State) (line : Nat) : (openDel s line).pl = s.pl := rfl
@[simp] theorem openDel_hl (s : State) (line : Nat) : (openDel s line).hl = s.hl := rfl
@[simp] theorem openDel_arr_lines (s : State) (line : Nat) : (openDel s line).arr.lines = s.arr.lines := rfl
@[simp] theorem openDel_arr_lasts (s : State) (line : Nat) : (openDel s line).arr.lasts = s.arr.lasts := rfl
@[simp] theorem openDel_arr_pinBusy (s : State) (line : Nat) : (openDel s line).arr.pinBusy = s.arr.pinBusy := rfl
@[simp] theorem openDel_arr_roles (s : State) (line : Nat) : (openDel s line).arr.roles = s.arr.roles := rfl
@[simp] theorem openDel_arr_mhes (s : State) (line : Nat) : (openDel s line).arr.mhes = s.arr.mhes := rfl
@[simp] theorem openDel_arr_merges (s : State) (line : Nat) : (openDel s line).arr.merges = s.arr.merges := rfl
@[simp] theorem openDel_arr_evicts (s : State) (line : Nat) : (openDel s line).arr.evicts = s.arr.evicts := rfl
@[simp] theorem openDel_arr_opens (s : State) (line : Nat) :
    (openDel s line).arr.opens = s.arr.opens.filter fun x => x.line != line := rfl
@[simp] theorem openDel_arr_streams (s : State) (line : Nat) : (openDel s line).arr.streams = s.arr.streams := rfl
@[simp] theorem openDel_arr_runs (s : State) (line : Nat) : (openDel s line).arr.runs = s.arr.runs := rfl
@[simp] theorem openDel_arr_memRds (s : State) (line : Nat) : (openDel s line).arr.memRds = s.arr.memRds := rfl
@[simp] theorem openDel_arr_memWrs (s : State) (line : Nat) : (openDel s line).arr.memWrs = s.arr.memWrs := rfl
@[simp] theorem openDel_arr_memq (s : State) (line : Nat) : (openDel s line).arr.memq = s.arr.memq := rfl
@[simp] theorem openDel_arr_waiting (s : State) (line : Nat) : (openDel s line).arr.waiting = s.arr.waiting := rfl
@[simp] theorem openDel_arr_deleting (s : State) (line : Nat) : (openDel s line).arr.deleting = s.arr.deleting := rfl
@[simp] theorem openDel_arr_presented (s : State) (line : Nat) : (openDel s line).arr.presented = s.arr.presented := rfl
@[simp] theorem openDel_arr_owed (s : State) (line : Nat) : (openDel s line).arr.owed = s.arr.owed := rfl
@[simp] theorem openDel_arr_fences (s : State) (line : Nat) : (openDel s line).arr.fences = s.arr.fences := rfl
@[simp] theorem openDel_arr_n (s : State) (line : Nat) : (openDel s line).arr.n = s.arr.n := rfl

/-! ## settle -/

@[simp] theorem settle_pending (s : State) (n : Nat) : (settle s n).pending = s.pending := rfl
@[simp] theorem settle_held (s : State) (n : Nat) : (settle s n).held = s.held := rfl
@[simp] theorem settle_out (s : State) (n : Nat) : (settle s n).out = s.out := rfl
@[simp] theorem settle_now (s : State) (n : Nat) : (settle s n).now = s.now := rfl
@[simp] theorem settle_free (s : State) (n : Nat) : (settle s n).free = s.free := rfl
@[simp] theorem settle_csr (s : State) (n : Nat) : (settle s n).csr = s.csr := rfl
@[simp] theorem settle_credits (s : State) (n : Nat) : (settle s n).credits = s.credits := rfl
@[simp] theorem settle_txq (s : State) (n : Nat) : (settle s n).txq = s.txq := rfl
@[simp] theorem settle_pw (s : State) (n : Nat) : (settle s n).pw = s.pw := rfl
@[simp] theorem settle_tm (s : State) (n : Nat) : (settle s n).tm = s.tm := rfl
@[simp] theorem settle_coh (s : State) (n : Nat) : (settle s n).coh = s.coh := rfl
@[simp] theorem settle_ari (s : State) (n : Nat) : (settle s n).ari = s.ari := rfl
@[simp] theorem settle_gen (s : State) (n : Nat) : (settle s n).gen = s.gen := rfl
@[simp] theorem settle_rg (s : State) (n : Nat) : (settle s n).rg = s.rg := rfl
@[simp] theorem settle_hd (s : State) (n : Nat) : (settle s n).hd = s.hd := rfl
@[simp] theorem settle_sec (s : State) (n : Nat) : (settle s n).sec = s.sec := rfl
@[simp] theorem settle_qs (s : State) (n : Nat) : (settle s n).qs = s.qs := rfl
@[simp] theorem settle_tt (s : State) (n : Nat) : (settle s n).tt = s.tt := rfl
@[simp] theorem settle_pr (s : State) (n : Nat) : (settle s n).pr = s.pr := rfl
@[simp] theorem settle_pl (s : State) (n : Nat) : (settle s n).pl = s.pl := rfl
@[simp] theorem settle_hl (s : State) (n : Nat) : (settle s n).hl = s.hl := rfl
@[simp] theorem settle_arr_lines (s : State) (n : Nat) : (settle s n).arr.lines = s.arr.lines := rfl
@[simp] theorem settle_arr_lasts (s : State) (n : Nat) : (settle s n).arr.lasts = s.arr.lasts := rfl
@[simp] theorem settle_arr_pinBusy (s : State) (n : Nat) : (settle s n).arr.pinBusy = s.arr.pinBusy := rfl
@[simp] theorem settle_arr_roles (s : State) (n : Nat) : (settle s n).arr.roles = s.arr.roles := rfl
@[simp] theorem settle_arr_mhes (s : State) (n : Nat) : (settle s n).arr.mhes = s.arr.mhes := rfl
@[simp] theorem settle_arr_merges (s : State) (n : Nat) : (settle s n).arr.merges = s.arr.merges := rfl
@[simp] theorem settle_arr_evicts (s : State) (n : Nat) : (settle s n).arr.evicts = s.arr.evicts := rfl
@[simp] theorem settle_arr_opens (s : State) (n : Nat) : (settle s n).arr.opens = s.arr.opens := rfl
@[simp] theorem settle_arr_streams (s : State) (n : Nat) : (settle s n).arr.streams = s.arr.streams := rfl
@[simp] theorem settle_arr_runs (s : State) (n : Nat) : (settle s n).arr.runs = s.arr.runs := rfl
@[simp] theorem settle_arr_memRds (s : State) (n : Nat) : (settle s n).arr.memRds = s.arr.memRds := rfl
@[simp] theorem settle_arr_memWrs (s : State) (n : Nat) : (settle s n).arr.memWrs = s.arr.memWrs := rfl
@[simp] theorem settle_arr_memq (s : State) (n : Nat) : (settle s n).arr.memq = s.arr.memq := rfl
@[simp] theorem settle_arr_waiting (s : State) (n : Nat) : (settle s n).arr.waiting = s.arr.waiting := rfl
@[simp] theorem settle_arr_deleting (s : State) (n : Nat) : (settle s n).arr.deleting = s.arr.deleting := rfl
@[simp] theorem settle_arr_presented (s : State) (n : Nat) : (settle s n).arr.presented = s.arr.presented := rfl
@[simp] theorem settle_arr_owed (s : State) (n : Nat) :
    (settle s n).arr.owed = s.arr.owed.filter fun o => o.n != n := rfl
@[simp] theorem settle_arr_fences (s : State) (n : Nat) : (settle s n).arr.fences = s.arr.fences := rfl
@[simp] theorem settle_arr_n (s : State) (n : Nat) : (settle s n).arr.n = s.arr.n := rfl

/-! ## unveil -/

@[simp] theorem unveil_pending (s : State) (line : Nat) (m : LineMask) : (unveil s line m).pending = s.pending := rfl
@[simp] theorem unveil_held (s : State) (line : Nat) (m : LineMask) : (unveil s line m).held = s.held := rfl
@[simp] theorem unveil_out (s : State) (line : Nat) (m : LineMask) : (unveil s line m).out = s.out := rfl
@[simp] theorem unveil_now (s : State) (line : Nat) (m : LineMask) : (unveil s line m).now = s.now := rfl
@[simp] theorem unveil_free (s : State) (line : Nat) (m : LineMask) : (unveil s line m).free = s.free := rfl
@[simp] theorem unveil_csr (s : State) (line : Nat) (m : LineMask) : (unveil s line m).csr = s.csr := rfl
@[simp] theorem unveil_credits (s : State) (line : Nat) (m : LineMask) : (unveil s line m).credits = s.credits := rfl
@[simp] theorem unveil_txq (s : State) (line : Nat) (m : LineMask) : (unveil s line m).txq = s.txq := rfl
@[simp] theorem unveil_pw (s : State) (line : Nat) (m : LineMask) : (unveil s line m).pw = s.pw := rfl
@[simp] theorem unveil_tm (s : State) (line : Nat) (m : LineMask) : (unveil s line m).tm = s.tm := rfl
@[simp] theorem unveil_arr (s : State) (line : Nat) (m : LineMask) : (unveil s line m).arr = s.arr := rfl
@[simp] theorem unveil_coh (s : State) (line : Nat) (m : LineMask) : (unveil s line m).coh = s.coh := rfl
@[simp] theorem unveil_ari (s : State) (line : Nat) (m : LineMask) : (unveil s line m).ari = s.ari := rfl
@[simp] theorem unveil_gen (s : State) (line : Nat) (m : LineMask) : (unveil s line m).gen = s.gen := rfl
@[simp] theorem unveil_rg (s : State) (line : Nat) (m : LineMask) : (unveil s line m).rg = s.rg := rfl
@[simp] theorem unveil_hd (s : State) (line : Nat) (m : LineMask) : (unveil s line m).hd = s.hd := rfl
@[simp] theorem unveil_sec (s : State) (line : Nat) (m : LineMask) : (unveil s line m).sec = s.sec := rfl
@[simp] theorem unveil_qs (s : State) (line : Nat) (m : LineMask) : (unveil s line m).qs = s.qs := rfl
@[simp] theorem unveil_tt (s : State) (line : Nat) (m : LineMask) : (unveil s line m).tt = s.tt := rfl
@[simp] theorem unveil_pr (s : State) (line : Nat) (m : LineMask) : (unveil s line m).pr = s.pr := rfl
@[simp] theorem unveil_hl (s : State) (line : Nat) (m : LineMask) : (unveil s line m).hl = s.hl := rfl
@[simp] theorem unveil_pl_banks (s : State) (line : Nat) (m : LineMask) : (unveil s line m).pl.banks = s.pl.banks := rfl
@[simp] theorem unveil_pl_active (s : State) (line : Nat) (m : LineMask) : (unveil s line m).pl.active = s.pl.active := rfl
@[simp] theorem unveil_pl_st (s : State) (line : Nat) (m : LineMask) : (unveil s line m).pl.st = s.pl.st := rfl
@[simp] theorem unveil_pl_shadowValid (s : State) (line : Nat) (m : LineMask) : (unveil s line m).pl.shadowValid = s.pl.shadowValid := rfl
@[simp] theorem unveil_pl_stopReason (s : State) (line : Nat) (m : LineMask) : (unveil s line m).pl.stopReason = s.pl.stopReason := rfl
@[simp] theorem unveil_pl_pass (s : State) (line : Nat) (m : LineMask) : (unveil s line m).pl.pass = s.pl.pass := rfl
@[simp] theorem unveil_pl_openNow (s : State) (line : Nat) (m : LineMask) : (unveil s line m).pl.openNow = s.pl.openNow := rfl
@[simp] theorem unveil_pl_charged (s : State) (line : Nat) (m : LineMask) : (unveil s line m).pl.charged = s.pl.charged := rfl
@[simp] theorem unveil_pl_holding (s : State) (line : Nat) (m : LineMask) : (unveil s line m).pl.holding = s.pl.holding := rfl
@[simp] theorem unveil_pl_holds (s : State) (line : Nat) (m : LineMask) : (unveil s line m).pl.holds = s.pl.holds := rfl
@[simp] theorem unveil_pl_acc (s : State) (line : Nat) (m : LineMask) : (unveil s line m).pl.acc = s.pl.acc := rfl
@[simp] theorem unveil_pl_stopAt (s : State) (line : Nat) (m : LineMask) : (unveil s line m).pl.stopAt = s.pl.stopAt := rfl
@[simp] theorem unveil_pl_openSpent (s : State) (line : Nat) (m : LineMask) : (unveil s line m).pl.openSpent = s.pl.openSpent := rfl
@[simp] theorem unveil_pl_openUsed (s : State) (line : Nat) (m : LineMask) : (unveil s line m).pl.openUsed = s.pl.openUsed := rfl
@[simp] theorem unveil_pl_fc (s : State) (line : Nat) (m : LineMask) : (unveil s line m).pl.fc = s.pl.fc := rfl
@[simp] theorem unveil_pl_base (s : State) (line : Nat) (m : LineMask) : (unveil s line m).pl.base = s.pl.base := rfl
@[simp] theorem unveil_pl_nominal (s : State) (line : Nat) (m : LineMask) : (unveil s line m).pl.nominal = s.pl.nominal := rfl
@[simp] theorem unveil_pl_slot (s : State) (line : Nat) (m : LineMask) : (unveil s line m).pl.slot = s.pl.slot := rfl
@[simp] theorem unveil_pl_rep (s : State) (line : Nat) (m : LineMask) : (unveil s line m).pl.rep = s.pl.rep := rfl
@[simp] theorem unveil_pl_off (s : State) (line : Nat) (m : LineMask) : (unveil s line m).pl.off = s.pl.off := rfl
@[simp] theorem unveil_pl_gidx (s : State) (line : Nat) (m : LineMask) : (unveil s line m).pl.gidx = s.pl.gidx := rfl
@[simp] theorem unveil_pl_passes (s : State) (line : Nat) (m : LineMask) : (unveil s line m).pl.passes = s.pl.passes := rfl
@[simp] theorem unveil_pl_ran (s : State) (line : Nat) (m : LineMask) : (unveil s line m).pl.ran = s.pl.ran := rfl
@[simp] theorem unveil_pl_written (s : State) (line : Nat) (m : LineMask) : (unveil s line m).pl.written = s.pl.written := rfl
@[simp] theorem unveil_pl_sum (s : State) (line : Nat) (m : LineMask) : (unveil s line m).pl.sum = s.pl.sum := rfl
@[simp] theorem unveil_pl_dig (s : State) (line : Nat) (m : LineMask) : (unveil s line m).pl.dig = s.pl.dig := rfl
@[simp] theorem unveil_pl_digOut (s : State) (line : Nat) (m : LineMask) : (unveil s line m).pl.digOut = s.pl.digOut := rfl
@[simp] theorem unveil_pl_wbuf (s : State) (line : Nat) (m : LineMask) : (unveil s line m).pl.wbuf = s.pl.wbuf := rfl
@[simp] theorem unveil_pl_token (s : State) (line : Nat) (m : LineMask) : (unveil s line m).pl.token = s.pl.token := rfl
@[simp] theorem unveil_pl_switchCmd (s : State) (line : Nat) (m : LineMask) : (unveil s line m).pl.switchCmd = s.pl.switchCmd := rfl
@[simp] theorem unveil_pl_stopCmds (s : State) (line : Nat) (m : LineMask) : (unveil s line m).pl.stopCmds = s.pl.stopCmds := rfl
@[simp] theorem unveil_pl_lockGone (s : State) (line : Nat) (m : LineMask) : (unveil s line m).pl.lockGone = s.pl.lockGone := rfl
@[simp] theorem unveil_pl_resv (s : State) (line : Nat) (m : LineMask) : (unveil s line m).pl.resv = s.pl.resv := rfl
@[simp] theorem unveil_pl_stageOuts (s : State) (line : Nat) (m : LineMask) : (unveil s line m).pl.stageOuts = s.pl.stageOuts := rfl
@[simp] theorem unveil_pl_endFc (s : State) (line : Nat) (m : LineMask) : (unveil s line m).pl.endFc = s.pl.endFc := rfl

/-! ## windowDrop -/

@[simp] theorem windowDrop_pending (s : State) (w : Window) : (windowDrop s w).pending = s.pending := rfl
@[simp] theorem windowDrop_held (s : State) (w : Window) : (windowDrop s w).held = s.held := rfl
@[simp] theorem windowDrop_out (s : State) (w : Window) : (windowDrop s w).out = s.out := rfl
@[simp] theorem windowDrop_now (s : State) (w : Window) : (windowDrop s w).now = s.now := rfl
@[simp] theorem windowDrop_free (s : State) (w : Window) : (windowDrop s w).free = s.free := rfl
@[simp] theorem windowDrop_csr (s : State) (w : Window) : (windowDrop s w).csr = s.csr := rfl
@[simp] theorem windowDrop_credits (s : State) (w : Window) : (windowDrop s w).credits = s.credits := rfl
@[simp] theorem windowDrop_txq (s : State) (w : Window) : (windowDrop s w).txq = s.txq := rfl
@[simp] theorem windowDrop_pw (s : State) (w : Window) : (windowDrop s w).pw = s.pw := rfl
@[simp] theorem windowDrop_tm (s : State) (w : Window) : (windowDrop s w).tm = s.tm := rfl
@[simp] theorem windowDrop_arr (s : State) (w : Window) : (windowDrop s w).arr = s.arr := rfl
@[simp] theorem windowDrop_coh (s : State) (w : Window) : (windowDrop s w).coh = s.coh := rfl
@[simp] theorem windowDrop_gen (s : State) (w : Window) : (windowDrop s w).gen = s.gen := rfl
@[simp] theorem windowDrop_rg (s : State) (w : Window) : (windowDrop s w).rg = s.rg := rfl
@[simp] theorem windowDrop_hd (s : State) (w : Window) : (windowDrop s w).hd = s.hd := rfl
@[simp] theorem windowDrop_sec (s : State) (w : Window) : (windowDrop s w).sec = s.sec := rfl
@[simp] theorem windowDrop_qs (s : State) (w : Window) : (windowDrop s w).qs = s.qs := rfl
@[simp] theorem windowDrop_tt (s : State) (w : Window) : (windowDrop s w).tt = s.tt := rfl
@[simp] theorem windowDrop_pr (s : State) (w : Window) : (windowDrop s w).pr = s.pr := rfl
@[simp] theorem windowDrop_pl (s : State) (w : Window) : (windowDrop s w).pl = s.pl := rfl
@[simp] theorem windowDrop_hl (s : State) (w : Window) : (windowDrop s w).hl = s.hl := rfl
@[simp] theorem windowDrop_ari_windows (s : State) (w : Window) :
    (windowDrop s w).ari.windows = s.ari.windows.filter fun x => x.base != w.base := rfl

end Sys2Proof.Machine
end

