-- ==== Sys2Proof/WellFormed.lean ====
section
/-! DEFINITION. Well-formed commands: operand fields that fit the widths the spec gives them (spec/06 R26, R269, R270; spec/10 R389;
spec/12 R467; spec/09 R364, R372; spec/01 R21; spec/18 R604 to R607). -/

namespace Sys2Proof

/-- The header fields fit R269 and the payload is no longer than the size says (R270). -/
def Msg.wf (m : Msg) : Bool :=
  decide (m.src < 2 ^ 18 ∧ m.dst < 2 ^ 18 ∧ m.tag < 2 ^ 8 ∧ m.qos < 16 ∧ m.mod < 4 ∧ m.addr < 2 ^ 52 ∧ m.size < 2 ^ 9 ∧
    m.status < 16 ∧ m.op < 2 ^ 64 ∧ m.mask < 2 ^ 512 ∧ m.data.length ≤ 512 ∧ m.unlisted ≤ 2)

/-- The words of a frame (R467). -/
def Frame.wf (f : Frame) : Bool :=
  decide (f.type < 2 ^ 8 ∧ f.seq < 2 ^ 16 ∧ f.dst < 2 ^ 16 ∧ f.src < 2 ^ 16 ∧ f.payload.length ≤ 255) &&
    f.payload.all fun w => decide (w < 2 ^ 32)

/-- A register access (R581, R589, R590). -/
def Csr.wf (a : Csr) : Bool := a.m.wf

/-- The requester ID of a message whose payload fails its parity (R269). -/
def Arrival.wf : Arrival → Bool
  | .payload src => decide (src < 2 ^ 18)
  | .ok | .header | .refused => true

/-- A tether message (R372). -/
def TMsg.wf (t : TMsg) : Bool :=
  decide (t.kind < 2 ^ 8 ∧ t.mask < 2 ^ 8 ∧ t.ctx < 2 ^ 12 ∧ t.tag < 2 ^ 12 ∧ t.set < 2 ^ 13 ∧ t.addr < 2 ^ 52 ∧ t.vc < 4)

/-- What a test function found lies in the arrays and on ports with a wrapper (R604 to R607). -/
def TestRun.wf : TestRun → Bool
  | .none => true
  | .mbist rows => rows.all fun r => decide (r.1 < 16 ∧ r.2.1 < 16 ∧ r.2.2 < 128)
  | .extest ports => ports.all fun p => p.1 != .tth
  | .dieExtest captured => captured.all fun v => decide (v < 2 ^ 16)

/-- A ring and a descriptor index (R389). -/
def ringWf (ring idx : Nat) : Bool := decide (ring < 64 ∧ idx < 2 ^ 32)

/-- The operands of a command fit their fields. -/
def Instr.wf : Instr → Bool
  | .rd m | .rdBlk m | .wr m | .wrMask m | .blkDemandWr m | .blkAtl m | .atomic m | .hostDrop m | .biConflict m | .fence m
  | .hintWr m | .hintAck m | .snpWb m | .biRsp m | .snpIn m | .cmp m => m.wf
  | .rstNRelease chip die sliceId => decide (chip < 64 ∧ die < 8 ∧ sliceId < 32)
  | .clockAbsent c | .clockPresent c => decide (c < 5)
  | .csrWr a | .biasInit a | .biasEnable a | .pinWaysWrite a | .mirrorWaysWrite a | .stripeShiftWrite a | .linkEn a | .retrain a
  | .ppsLoad a | .ledgerDataRead a | .secCtlWrite a | .hedgeWrite a | .flipmaskArm a | .energyGainWrite a | .traceEnable a => a.wf
  | .ringEnable n a | .ringDisable n a => decide (n < 64) && a.wf
  | .evringEnable n a => decide (n < 4) && a.wf
  | .logRingEnable n a | .qosClassWrite n a => decide (n < 16) && a.wf
  | .pairKeyWrite k a => decide (k < 4) && a.wf
  | .evtCounterWrite k a => decide (k < 256) && a.wf
  | .biTimeout h => decide (h < 2 ^ 46)
  | .doorbellReading ring prod cplCons evtCons a =>
    decide (ring < 64 ∧ prod < 2 ^ 32 ∧ cplCons < 2 ^ 32 ∧ evtCons < 2 ^ 32) && a.wf
  | .descriptorReadReturn ring idx status bytes a => ringWf ring idx && decide (status < 16 ∧ bytes.length ≤ 64) && a.wf
  | .descReread ring => decide (ring < 64)
  | .cplPost ring idx | .nop ring idx | .lastDefine ring idx | .lastDelete ring idx | .lastRead ring idx | .rangePrefetch ring idx
  | .rangeFlush ring idx | .rangeInvalidate ring idx | .rangeDiscard ring idx | .genOpen ring idx | .genClose ring idx
  | .logAdvance ring idx | .ctxFreeze ring idx | .ctxRelease ring idx | .ctxSeed ring idx | .planRun ring idx | .planStop ring idx
  | .sheafBind ring idx | .sheafRead ring idx | .sheafRelease ring idx | .digestRange ring idx | .biasFlip ring idx
  | .pairResync ring idx | .testRun ring idx | .sliceRetire ring idx => ringWf ring idx
  | .pairTakeover ring idx defs => ringWf ring idx && defs.all fun d => decide (d.1 < 1023 ∧ d.2.limit ≤ 2 ^ 52)
  | .lastRestore ring idx _ _ | .ctxResume ring idx _ _ | .planLoad ring idx _ _ | .testLoadpack ring idx _ _
  | .patchLoad ring idx _ _ => ringWf ring idx
  | .irqHoldoffExpiry v => decide (v < 64)
  | .memReadReturn tag beat status _ bytes => decide (tag < 512 ∧ beat < 4 ∧ status < 4 ∧ bytes.length ≤ 128)
  | .memReplay tag beat => decide (tag < 512 ∧ beat < 4)
  | .memWriteCompletion tag | .evictionWritebackAccepted tag => decide (tag < 512)
  | .atomicLineClose line => decide (line < 2 ^ 43)
  | .synWord word src _ => decide (word < 2 ^ 32 ∧ src < 2 ^ 18)
  | .scheduledWriteBeat src mask _ bytes => decide (src < 2 ^ 18 ∧ mask < 2 ^ 256 ∧ bytes.length ≤ 256)
  | .drainComplete ctx gen => decide (ctx < 4096 ∧ gen < 2 ^ 32)
  | .fenceFrame f | .hdrAck f | .oppointSet f | .stressSet f | .retireGo f | .regReading f | .timeSeconds f => f.wf
  | .frameResend seq => decide (seq < 2 ^ 16)
  | .ageingSample pairs canary => decide (pairs.length = 16) && canary.all fun m => decide (m < 16)
  | .kernelRunDone k sig => decide (k < 48 ∧ sig < 2 ^ 64)
  | .spareRowCopyDone bank => decide (bank < 16)
  | .wayDisableDone bank way | .wayDisableTimeout bank way => decide (bank < 16 ∧ way < 16)
  | .flitReceived bytes => decide (bytes.length = 256)
  | .laneLockLoss lane => decide (lane < 8)
  | .trainingPhaseDone _ lanes => decide (lanes.length ≤ 10)
  | .negotiationFrame bytes => decide (bytes.length ≤ 64)
  | .syncWr t | .syncAck t | .lagRec t | .lagEnd t | .lagAccept t | .lagApplied t | .dropMirror t | .repairRd t | .repairData t
  | .planData t | .resyncBegin t | .resyncDone t => t.wf
  | .creditReturn _ cls => decide (cls < 5)
  | .tapInstruction _ _ run => run.wf
  | .rstNAssert | .startComplete | .wrstNAssert | .quiesceDone | .flowStopEffective | .flowStopRelease _ | .ppsEdge | .ppsLost
  | .planLockLost | .lockAlignmentDone | .vddArrDroop _ | .switchToVddArr | .arrayAccessStop | .arrayRailLoss | .vddCoreLoss
  | .backupHoldReturn | .reEntry | .ringStopPassive _ | .memPressureDeclared | .memPressureReleased | .mergeEntryDrain | .passStart
  | .openCycle | .quiet _ | .arrToBlk | .blkToArr | .blkAdd | .stageIn | .stageOut | .arrToArr | .arrScan | .tthOut | .synOut
  | .kernel | .holdStart | .holdEnd | .passEnd | .switchDone | .stoppingDone | .genSeal | .stressSetTimeout | .retireHoldExpiry
  | .biasInitDone | .pinWaysReserved | .fenceWalkDone | .watchdogTimeout | .fabricGuardTimeout | .heartbeat
  | .meteringWindowEnd | .harrowVisit _ _ _ | .retrainTimeout | .linkDownRetry | .clkAonReturn | .retentionEntryLimit => true

end Sys2Proof
end

