-- ==== Sys2Proof/Tests/Slice0.lean ====
section
/-! SUPPORT. The model's own tests: ill-formed terms that the checks refuse, small checks of the effects against the spec's worked
examples, and for every statement with premises a state and operands that meet them, case by case. -/

namespace Sys2Proof.Tests

open Sys2Proof Sys2Proof.Machine

set_option Elab.async false

/-! ## States and messages the tests use -/

/-- A serving slice: every clock present, RST_N high, its ring stop ACTIVE, 8 transmit credits on every channel. -/
def up : State := { State.reset with
  pw := { State.reset.pw with pstate := 2, rstN := true, ready := true, clocks := 0x1F, planLock := true, bakPresent := true }
  hd := { State.reset.hd with mode := 0 }
  credits := (List.range 18).map fun c => (c, 8) }

/-- A serving slice with a register as software would set it. -/
def upCsr (off v : Nat) : State := csrPut up off v

/-- A serving slice whose power pins and states are changed. -/
def upPw (f : Power → Power) : State := { up with pw := f up.pw }

/-- The next state of an outcome. -/
def after : Host.Outcome State Fault Refusal → State
  | .next t => t
  | _ => State.reset

/-- Whether an outcome is a next state. -/
def goesOn : Host.Outcome State Fault Refusal → Bool
  | .next _ => true
  | _ => false

theorem next_of {o : Host.Outcome State Fault Refusal} (h : goesOn o = true) : o = .next (after o) := by
  cases o <;> first | rfl | cases h

/-- `Settled` as a test. -/
def isSettled (s : State) : Bool :=
  (s.arr.evicts.all fun e => !e.waitLog && e.bad == 0) && s.arr.waiting.isEmpty && s.arr.presented.isEmpty && s.arr.fences.isEmpty &&
  !(s.arr.mhes.any fun m => m.kind == .memSide && m.got == 15 && !m.reads.isEmpty) && s.pl.stageOuts.isEmpty &&
  s.coh.failing.isEmpty && s.coh.flips.isEmpty && s.gen.bufs.isEmpty && s.gen.drains.isEmpty && s.pr.rollLogs.isEmpty &&
  s.rg.cmds.all Cmd.rests && s.hl.rState != 2

theorem settled_of {s : State} (h : isSettled s = true) : Settled s := by
  simp only [isSettled, Bool.and_eq_true, List.isEmpty_iff, bne_iff_ne, Bool.not_eq_true'] at h
  obtain ⟨⟨⟨⟨⟨⟨⟨⟨⟨⟨⟨⟨a, b⟩, c⟩, d⟩, m⟩, o⟩, e⟩, f⟩, g⟩, i⟩, j⟩, k⟩, l⟩ := h
  exact ⟨a, b, c, d, m, o, e, f, g, i, j, k, l⟩

theorem reset_powerInv : PowerInv State.reset := ⟨by decide, by decide, by decide, by decide, by decide⟩

/-- A register frame addressed to the slice: offset, bytes of the data. -/
def regW (off : Nat) (data : Bytes) : Csr :=
  { hdr := true, m := { port := .hdr, addr := off, size := 7, src := 0x8005, dst := stopAddr up, tag := 1, data := data } }

/-- A CLEAN line 3 of the default last, and where the array holds it: way 15 of its set. -/
def upLine : Line := { addr := 3, st := .clean, age := 2 }

def upSlot : Nat := slotKey (setOf up 3) 15

/-- A serving slice that holds a line 3. -/
def withLine (l : Line) : State := { up with arr := { up.arr with lines := [(upSlot, l)] } }

/-- A serving slice whose snoop filter holds host line `h` in state `st`. -/
def upSf (h st : Nat) : State := sfPut up (sfSet up h * 16) { tag := h, st := st }

/-- Descriptor bytes from (offset, value) pairs. -/
def descOf (l : List (Nat × Nat)) : Bytes := leBytes 64 (l.foldl (fun a e => a + e.2 * 2 ^ (8 * e.1)) 0)

/-- A command accepted from ring 2 at index 5. -/
def cmdOf (code : Nat) (l : List (Nat × Nat)) : Cmd := { n := 1, ring := 2, idx := 5, code := code, desc := descOf l }

/-- A slice that holds one command. -/
def withCmd (s : State) (code : Nat) (l : List (Nat × Nat)) : State := { s with rg := { s.rg with cmds := [cmdOf code l], n := 2 } }

/-- A serving slice with one last of number 7, at [2^20, 2^21). -/
def upLast (attr : Nat) (cond : Nat) : State :=
  { up with arr := { up.arr with lasts := [(7, { base := 2 ^ 20, limit := 2 ^ 21, attr := attr, cond := cond })] } }

/-- A serving slice whose context 3 is in state `x`. -/
def upCtx (x : Ctx) : State := { up with gen := { up.gen with ctxs := [(3, x)] } }

/-- A slice with a sheaf window bound at 2^20. -/
def withWindow (s : State) : State := { s with ari := { s.ari with windows := [{ base := 2 ^ 20, n := 64, count := 64 }] } }

/-- A replay buffer: the image of one FALLOW line of context 3 at 2^20, and the END of generation 1 (R330, R337). -/
def replayBuf : Bytes := deltaRecord 3 7 true false 0 2 (2 ^ 20) 0 1 [] ++ deltaRecord 3 1023 false false 0 4 0 1 1 []

def isGood : Parsed → Bool
  | .good _ _ => true
  | .bad _ => false

def goodLines : Parsed → List (Nat × LineMask × LineData × Bool × Nat)
  | .good r _ => r
  | .bad _ => []

def goodCount : Parsed → Nat
  | .good _ n => n
  | .bad _ => 0

def badSeq : Parsed → Nat
  | .good _ _ => 0
  | .bad n => n

theorem good_of {p : Parsed} (h : isGood p = true) : p = .good (goodLines p) (goodCount p) := by
  cases p <;> first | rfl | cases h

theorem bad_of {p : Parsed} (h : isGood p = false) : p = .bad (badSeq p) := by
  cases p <;> first | rfl | cases h

/-- The header of a plan image of one slot entry, whose own bytes bring its check code to all ones (R197, R204). -/
def planHead : Bytes :=
  leBytes 64 0xffffffffffffffff000000000000000000000000ad11448e0000000000000000000000009a6c000c0000000000000001000001014c505244

/-- A plan image of one OPEN slot entry: the header, generators and slot of zeros. -/
def planImage : Bytes := planHead ++ List.replicate 4112 0

theorem crc64_zeros (n : Nat) (c : BitVec 64) (h : crcByte (0xC96C5795D7870F42 : BitVec 64) c 0 = c) :
    (List.replicate n (0 : Byte)).foldl (crcByte (0xC96C5795D7870F42 : BitVec 64)) c = c := by
  induction n with
  | zero => rfl
  | succ n ih => rw [List.replicate_succ, List.foldl_cons, h, ih]

theorem crc64_image (h : Bytes) (n : Nat) (hl : h.length = 64)
    (hc : (h.take 48 ++ List.replicate 8 0 ++ h.drop 56).foldl (crcByte (0xC96C5795D7870F42 : BitVec 64)) (BitVec.allOnes 64) = 0) :
    crc64 ((h ++ List.replicate n 0).take 48 ++ List.replicate 8 0 ++ (h ++ List.replicate n 0).drop 56) = BitVec.allOnes 64 := by
  rw [List.take_append_of_le_length (by omega), List.drop_append_of_le_length (by omega), ← List.append_assoc]
  unfold crc64 crcReflected
  rw [List.foldl_append, hc, crc64_zeros _ _ (by decide +kernel)]
  decide

theorem leNat_zeros : (n : Nat) → leNat (List.replicate n 0) = 0
  | 0 => rfl
  | n + 1 => by rw [List.replicate_succ, leNat, leNat_zeros n]; rfl

theorem leAt_zeros (n off k : Nat) : leAt (List.replicate n 0) off k = 0 := by
  rw [leAt, List.drop_replicate, List.take_replicate, leNat_zeros]

theorem planImage_good : imageCheck planImage 4176 = .good := by
  unfold imageCheck planImage
  rw [crc64_image planHead 4112 (by decide +kernel) (by decide +kernel), List.drop_append_of_le_length (by decide +kernel),
    show planHead.drop 64 = [] from by decide +kernel, List.nil_append, List.take_replicate]
  simp only [leAt_zeros]
  decide +kernel

theorem planImage_length : planImage.length = 4176 := by
  rw [planImage, List.length_append, List.length_replicate, show planHead.length = 64 from by decide +kernel]

theorem planImage_slice : slice planImage 0 (imageSpan planImage) = planImage := by
  rw [show imageSpan planImage = 4176 from by decide +kernel]
  unfold slice
  rw [List.drop_zero, List.take_of_length_le (Nat.le_trans (Nat.le_of_eq planImage_length) (by decide)), planImage_length]
  exact List.append_nil _

theorem planImage_checked : imageCheck (slice planImage 0 (imageSpan planImage)) (leAt (cmdOf 0x050 [(24, 4176)]).desc 24 4) = .good := by
  rw [planImage_slice, show leAt (cmdOf 0x050 [(24, 4176)]).desc 24 4 = 4176 from by decide +kernel, planImage_good]

/-- A serving slice whose active plan bank holds one slot entry, its plan changed by `f`. -/
def upPlan (slot : Nat) (f : Plan → Plan) : State :=
  { up with pl := f { up.pl with banks := [{ valid := true, header := leBytes 64 0, gens := [], slots := leBytes 16 slot }, {}] } }

/-- A serving slice with log ring 0 enabled, context 3 open, and a drain of its generation 5 that has nothing left to log. -/
def upDrain : State :=
  { upCsr 0x808 (2 ^ 63) with
    gen := { up.gen with
      ctxs := [(3, { st := 1, gen := 6, logEn := true })]
      drains := [{ ctx := 3, gen := 5, tag := 1, sealed := true }] } }

theorem pair_of {α β : Type} {p : α × β} {b : β} (h : p.2 = b) : p = (p.1, b) := by rw [← h]

theorem pair1_of {α β : Type} {p : α × β} {a : α} (h : p.1 = a) : p = (a, p.2) := by rw [← h]

/-- What `findLine` answers for a line, as a test. -/
theorem lineOk_of {s : State} {x n : Nat}
    (h : (match findLine s x with | some k => (lineAt s k).last == n | none => true) = true) :
    ∀ k, findLine s x = some k → (lineAt s k).last = n := by
  intro k hk
  rw [hk] at h
  exact of_decide_eq_true h

theorem two_of {α β : Type} (p : α × β) : p = (p.1, p.2) := rfl

theorem three_of {α β γ : Type} (p : α × β × γ) : p = (p.1, p.2.1, p.2.2) := rfl

theorem four_of {α β γ δ : Type} (p : α × β × γ × δ) : p = (p.1, p.2.1, p.2.2.1, p.2.2.2) := rfl

/-- A serving slice that holds line 0. -/
def withLine0 (l : Line) : State := { up with arr := { up.arr with lines := [(slotKey (setOf up 0) 15, l)] } }

/-- A serving slice whose plan runs and stands at a slot entry, first instance. -/
def runAt (slot : Nat) : State := upPlan slot fun p => { p with st := 2 }

/-- The same with a beat in the plan write buffer for this fc. -/
def runBeat (slot : Nat) : State := upPlan slot fun p => { p with st := 2, wbuf := [{ stamp := 0, src := 0, mask := 1, data := [7] }] }

/-- The same with line 0 resident and FALLOW. -/
def runHit (slot : Nat) : State := { runAt slot with arr := (withLine0 { st := .fallow }).arr }

/-- A register frame of 4 bytes. -/
def reg4 (off : Nat) (data : Bytes) : Csr := { regW off data with m := { (regW off data).m with size := 3 } }

/-- An HST access of 8 bytes. -/
def regH (off : Nat) (data : Bytes) : Csr := { m := { port := .hst, addr := off, size := 7, src := 5, dst := ownId up, tag := 1, data := data } }

/-- An HST access of `n + 1` bytes. -/
def regN (n off : Nat) (data : Bytes) : Csr := { regH off data with m := { (regH off data).m with size := n } }

/-- A good mirror line 3: FALLOW, its check code as of zeros. -/
def mirLine : Line := { addr := 3, st := .fallow, crc := lineCrc 0 }

/-- A flit whose first 12 bytes bring its check code to all ones, and zeros (R364, R365). -/
def flitOf (x : Nat) : Bytes := leBytes 12 x ++ (List.replicate 240 0 ++ leBytes 4 0xFFFFFFFF)

theorem crc32_zeros (n : Nat) : (List.replicate n (0 : Byte)).foldl (crcByte (0xEDB88320 : BitVec 32)) 0 = 0 := by
  induction n with
  | zero => rfl
  | succ n ih => rw [List.replicate_succ, List.foldl_cons, show crcByte (0xEDB88320 : BitVec 32) 0 0 = 0 from by decide +kernel, ih]

theorem flit_crc (x : Nat) (hl : (leBytes 12 x).length = 12)
    (h : (leBytes 12 x).foldl (crcByte (0xEDB88320 : BitVec 32)) (BitVec.allOnes 32) = 0) :
    (crc32 ((flitOf x).take 252)).toNat = leAt (flitOf x) 252 4 := by
  have ht : (flitOf x).take 252 = leBytes 12 x ++ List.replicate 240 0 := by
    rw [flitOf, List.take_append, List.take_of_length_le (by omega), hl, List.take_append,
      List.take_of_length_le (Nat.le_trans (Nat.le_of_eq List.length_replicate) (by decide)), List.length_replicate]
    exact congrArg _ (List.append_nil _)
  have hd : leAt (flitOf x) 252 4 = 0xFFFFFFFF := by
    unfold leAt flitOf
    rw [List.drop_append, List.drop_of_length_le (by omega), hl, List.drop_append, List.drop_of_length_le (Nat.le_trans (Nat.le_of_eq List.length_replicate) (by decide)),
      List.length_replicate]
    decide +kernel
  rw [ht, hd, crc32, crcReflected, List.foldl_append, h, crc32_zeros]
  decide

theorem none_of {α : Type} {o : Option α} {p : α → Prop} (h : o = none) : ∀ k, o = some k → p k := by
  intro k hk
  rw [h] at hk
  cases hk

theorem mirLine_good : mirrorGood mirLine = true := by simp [mirrorGood, mirLine]

/-- A slice with the tether UP and one mirror way, which holds `mirLine` for the fellow. -/
def upMirror : State :=
  { upCsr 0x900 0x10 with
    tt := { up.tt with link := 2 }
    pr := { up.pr with mirrors := [((mirrorSlots (upCsr 0x900 0x10) 5).headD 0, mirLine)] } }

theorem upMirror_good : mirrorGood (mirrorAt upMirror ((mirrorSlots (upCsr 0x900 0x10) 5).headD 0)) = true := by
  rw [mirrorAt, upMirror, SMap.get, if_pos rfl]
  exact mirLine_good


/-! ## The CRC of a line of zeros, which an empty way slot holds (R459) -/

theorem leBytes_zero : (n : Nat) → leBytes n 0 = List.replicate n 0
  | 0 => rfl
  | n + 1 => by rw [leBytes, Nat.zero_div, leBytes_zero n]; rfl

theorem crc32c_zeros (n : Nat) (c d : BitVec 32)
    (h : (List.replicate 64 (0 : Byte)).foldl (crcByte (0x82F63B78 : BitVec 32)) c = d) :
    (List.replicate (64 + n) (0 : Byte)).foldl (crcByte (0x82F63B78 : BitVec 32)) c =
      (List.replicate n (0 : Byte)).foldl (crcByte (0x82F63B78 : BitVec 32)) d := by
  rw [← List.replicate_append_replicate, List.foldl_append, h]

theorem lineCrc_zero : lineCrc 0 = ({} : Line).crc := by
  have h : (List.replicate 512 (0 : Byte)).foldl (crcByte (0x82F63B78 : BitVec 32)) (BitVec.allOnes 32) = 0xcf03123f := by
    rw [show (512 : Nat) = 64 + 448 from rfl,
      crc32c_zeros 448 (BitVec.allOnes 32) 0xfc371498 (by decide +kernel), show (448 : Nat) = 64 + 384 from rfl,
      crc32c_zeros 384 (0xfc371498) 0xf7d89b24 (by decide +kernel), show (384 : Nat) = 64 + 320 from rfl,
      crc32c_zeros 320 (0xf7d89b24) 0x8bca87cf (by decide +kernel), show (320 : Nat) = 64 + 256 from rfl,
      crc32c_zeros 256 (0x8bca87cf) 0x478d4e6f (by decide +kernel), show (256 : Nat) = 64 + 192 from rfl,
      crc32c_zeros 192 (0x478d4e6f) 0x3d5a233 (by decide +kernel), show (192 : Nat) = 64 + 128 from rfl,
      crc32c_zeros 128 (0x3d5a233) 0x4509d0c9 (by decide +kernel), show (128 : Nat) = 64 + 64 from rfl,
      crc32c_zeros 64 (0x4509d0c9) 0xcc289dc7 (by decide +kernel), show (64 : Nat) = 64 + 0 from rfl,
      crc32c_zeros 0 (0xcc289dc7) 0xcf03123f (by decide +kernel)]
    rfl
  rw [lineCrc, lineBytes, show lineNat 0 0 512 = 0 from by decide +kernel, leBytes_zero, crc32c, crcReflected, h]
  rfl
/-! ## Well-formedness: one ill-formed term for each check, which the check refuses -/

theorem test_wf_msg :
    [Msg.wf { src := 2 ^ 18 }, Msg.wf { dst := 2 ^ 18 }, Msg.wf { tag := 256 }, Msg.wf { qos := 16 }, Msg.wf { mod := 4 },
      Msg.wf { addr := 2 ^ 52 }, Msg.wf { size := 512 }, Msg.wf { status := 16 }, Msg.wf { op := 2 ^ 64 },
      Msg.wf { mask := 2 ^ 512 }, Msg.wf { unlisted := 3 }, Msg.wf { data := List.replicate 513 0 }].all (· == false) = true := by decide +kernel

theorem test_wf_frame :
    [Frame.wf { type := 256 }, Frame.wf { seq := 65536 }, Frame.wf { dst := 65536 }, Frame.wf { src := 65536 },
      Frame.wf { payload := List.replicate 256 0 }, Frame.wf { payload := [2 ^ 32] }, Csr.wf { m := { tag := 256 } }].all
      (· == false) = true := by decide +kernel

theorem test_wf_tmsg :
    [TMsg.wf { kind := 256 }, TMsg.wf { mask := 256 }, TMsg.wf { ctx := 4096 }, TMsg.wf { tag := 4096 }, TMsg.wf { set := 8192 },
      TMsg.wf { addr := 2 ^ 52 }, ringWf 64 0, ringWf 0 (2 ^ 32)].all (· == false) = true := by decide +kernel

theorem test_wf_rows :
    [Instr.rd { qos := 16 }, .rstNRelease 64 0 0, .rstNRelease 0 8 0, .rstNRelease 0 0 32, .clockAbsent 5, .csrWr { m := { qos := 16 } },
      .ringEnable 64 {}, .evringEnable 4 {}, .logRingEnable 16 {}, .qosClassWrite 16 {}, .pairKeyWrite 4 {},
      .evtCounterWrite 256 {}, .biTimeout (2 ^ 46), .doorbellReading 64 0 0 0, .doorbellReading 0 (2 ^ 32) 0 0,
      .doorbellReading 0 0 (2 ^ 32) 0, .doorbellReading 0 0 0 (2 ^ 32), .descriptorReadReturn 0 0 16 [],
      .descriptorReadReturn 0 0 0 (List.replicate 65 0), .descReread 64, .nop 64 0, .pairTakeover 0 0 [(1023, {})],
      .pairTakeover 0 0 [(0, { limit := 2 ^ 52 + 1 })], .planLoad 64 0 [] [], .irqHoldoffExpiry 64,
      .memReadReturn 512 0 0 false [], .memReadReturn 0 4 0 false [], .memReadReturn 0 0 4 false [],
      .memReadReturn 0 0 0 false (List.replicate 129 0), .memReplay 512 0, .memReplay 0 4, .memWriteCompletion 512,
      .atomicLineClose (2 ^ 43), .synWord (2 ^ 32) 0 false, .synWord 0 (2 ^ 18) false, .scheduledWriteBeat (2 ^ 18) 0 false [],
      .scheduledWriteBeat 0 (2 ^ 256) false [], .scheduledWriteBeat 0 0 false (List.replicate 257 0), .drainComplete 4096 0,
      .drainComplete 0 (2 ^ 32), .retireGo { type := 256 }, .frameResend 65536, .ageingSample [] [],
      .ageingSample (List.replicate 16 (0, 0)) [16], .kernelRunDone 48 0, .kernelRunDone 0 (2 ^ 64), .spareRowCopyDone 16,
      .wayDisableDone 16 0, .wayDisableDone 0 16, .flitReceived [], .laneLockLoss 8, .trainingPhaseDone false (List.replicate 11 0),
      .negotiationFrame (List.replicate 65 0), .syncWr { kind := 256 }, .creditReturn .ctl 5,
      .tapInstruction false 4 (.mbist [(16, 0, 0)]), .tapInstruction true 1 (.extest [(.tth, [])]),
      .tapInstruction false 3 (.dieExtest [2 ^ 16])].all (fun i => !i.wf) = true := by
  decide +kernel

theorem test_wf_accepts :
    [Instr.rd { src := 2 ^ 18 - 1, addr := 2 ^ 52 - 1, size := 511 }, .nop 63 (2 ^ 32 - 1), .rstNRelease 63 7 31, .passStart].all
      Instr.wf = true := by decide +kernel

/-! ## The table gives no row any bits -/

theorem test_decode_none : decodeTableWord 64 0 = none := rfl

/-! ## Small checks of the effects; where the spec has a worked example, the figures are its own -/

/-- The published check values of the three codes over the digits 1 to 9 (R75, R193, R365). -/
theorem test_crc :
    crc32c [49, 50, 51, 52, 53, 54, 55, 56, 57] = 0xE3069283 ∧ crc32 [49, 50, 51, 52, 53, 54, 55, 56, 57] = 0xCBF43926 ∧
      crc64 [49, 50, 51, 52, 53, 54, 55, 56, 57] = 0x995DC9BBDF1939FA := by decide +kernel

/-- Slice 7 of die 1 of chip 1, as in the examples of spec/12 and spec/17. -/
def slice7 : State := { upPw (fun p => { p with chip := 1, die := 1, sliceId := 7 }) with hd := { up.hd with seq := 7 } }

/-- spec/17, "locking a slice after set-up": the stop address. -/
theorem test_stop_address : stopAddr slice7 = 0x8127 := by decide +kernel

/-- spec/17, "locking a slice after set-up": the frame's access. -/
def lockAccess : Csr :=
  { hdr := true, m := { port := .hdr, addr := 0xF10, size := 3, src := 0x0010, dst := 0x8127, tag := 0x0042, data := leBytes 4 0xA8000000 } }

/-- spec/17, "locking a slice after set-up": the words of the REG_WR frame after its header. -/
theorem test_lock_frame : (csrFrame lockAccess true).payload = [0x00000F10, 0xA8000000] ∧ (csrFrame lockAccess true).type = 0x11 := by
  decide +kernel

/-- spec/17, "locking a slice after set-up": the answer frame. -/
theorem test_lock_answer :
    (after (exec (.secCtlWrite lockAccess) slice7)).out =
      [.hdr { type := 0x13, seq := 0x0007, dst := 0x0010, src := 0x8127, payload := [0x00420000] }] := by decide +kernel

/-- spec/17, "locking a slice after set-up": lock and zero_release are set, host_priv reads 0 (R573). -/
theorem test_lock_value : csrGet (after (exec (.secCtlWrite lockAccess) slice7)) 0xF10 = 0x88000000 := by decide +kernel

/-- spec/09, the example of a lane measuring 9.6 dB: 40 mm. -/
theorem test_eq_length : eqLength 0x60 = 0x50 := by decide

/-- spec/16, the example of a hedge match: its agents are in class 3, the next one is not. -/
theorem test_hedge_class :
    hedgeClass (upCsr 0xF40 0x800303FF80000A00) 0x0A7F = 3 ∧ hedgeClass (upCsr 0xF40 0x800303FF80000A00) 0x0A80 = 0 := by
  decide +kernel

/-- spec/10, the example of ring 9: the phases of descriptors 1,000 and 1,024 of 256. -/
theorem test_phase : phaseBit 1023 8 = false ∧ phaseBit 1024 8 = true := by decide

/-- spec/03, the example of an MXFP6 E3M2 block: 20.0 and 0.3 in BF16. -/
theorem test_bale_example :
    (let q := quantise 1 ⟨false, 0, 0⟩ 0 ((unpack 16 32 (0x41A0 + 0x3E9A * 2 ^ 16)).map (baleWriteFmt 0).decode)
     (q.scale, q.elems % 64, q.elems / 64 % 64)) = (0x7F, 0x1D, 0x05) := by decide +kernel

/-- spec/04, the example of a sheaf: 2^24, 1.0 and -2^24 sum to 1.0. -/
theorem test_sheaf_example :
    ((((Sheaf.zero.add (fp32.decode 0x4B800000)).add (fp32.decode 0x3F800000)).add (fp32.decode 0xCB800000)).read fp32).1 =
      0x3F800000 := by decide +kernel

/-- spec/13, the example of an ageing sample: the voltages proposed. -/
theorem test_ageing_example :
    (after (exec (.ageingSample (List.replicate 16 (977, 1000)) [11]) (upCsr 0xD00 (2 ^ 62)))).out.getLast? =
      some (.hdr { type := 0x20, seq := 0, dst := csrFld up 0xC28 31 16, src := stopAddr up,
                   payload := [800 * 65536 + 770, 11 * 65536 + 23 * 256 + 23] }) := by decide +kernel

/-- R295, R270: a read of four bytes of a resident line answers with them in address order. -/
theorem test_read_hit :
    (after (exec (.rd { addr := 3 * 512 + 2, size := 3, src := 5, tag := 9, qos := 4, dst := ownId up })
      (withLine { upLine with data := 0x0807060504030201 }))).out.getLast?.map
      (fun o => match o with
        | .msg p m => decide (p = .ctl) && m.tag == 9 && m.dst == 5 && m.status == 0 && m.data == [3, 4, 5, 6]
        | _ => false) = some true := by decide +kernel

/-- R551, R548: RST_N high takes the slice from RESET to STARTING with the straps read. -/
theorem test_rst_n_release :
    ((after (exec (.rstNRelease 1 2 3) State.reset)).pw.pstate, (after (exec (.rstNRelease 1 2 3) State.reset)).pw.die) = (1, 2) := by
  decide +kernel

/-- R38: RST_N low leaves what State.reset holds of the array and the lasts. -/
theorem test_rst_n_assert : (after (exec .rstNAssert (withLine upLine))).arr = State.reset.arr := by decide +kernel

/-- R361: the levels of the four pairs of bits, the earlier bit first; the seed of lane 5. -/
theorem test_pam4 :
    levels [false, false, false, true, true, true, true, false] = [-3, -1, 1, 3] ∧ scrSeed 5 = 0x7FFFFFFD := by decide +kernel

/-- R15: nine bits with an odd number of ones. -/
theorem test_parity : wired [0x00, 0x01, 0xFF] = [(0x00, true), (0x01, false), (0xFF, true)] := by decide +kernel

/-- R269, R270: the header of an RD on CTL, read from the wires; a parity bit turned makes its header bad. -/
theorem test_header :
    readWire .ctl (wired (leBytes 8 (3 + 5 * 2 ^ 8 + 9 * 2 ^ 44 + 4 * 2 ^ 54) ++ leBytes 8 (0x40 + 63 * 2 ^ 52))) =
        some (.rd { src := 5, tag := 9, qos := 4, addr := 0x40, size := 63 }) ∧
      (readWire .ctl ((3, false) :: wired (leBytes 15 0))) = some (.rd { size := 0, parity := .header }) := by decide +kernel

/-- R605: MBIST gives a failing row the first spare row of its bank and writes the repair map. -/
theorem test_mbist :
    (let t := after (exec (.tapInstruction false 4 (.mbist [(2, 3, 100)])) up)
     (t.hl.spares, t.hl.mapGen, t.sec.mbist)) = ([(2, 3, 100, 0)], up.hl.mapGen + 1, [(2, 3, 100)]) := by decide +kernel

/-- R606: a SYN wire stuck at 0 fails, the others do not. -/
theorem test_extest :
    (after (exec (.tapInstruction true 1 (.extest [(.syn, (testVectors 36).map fun v => if v.testBit 7 then v - 2 ^ 7 else v)])) up)).sec.badWires =
      [(.syn, 7)] := by decide +kernel

/-- R238: an instance whose entry fails its parity counts in errors, and the plan stops with reason 5. -/
theorem test_plan_parity :
    (let t := after (exec (.quiet true) (runAt (2 * 2 ^ 124)))
     (t.pl.acc.errors, t.pl.stopAt, t.pl.slot)) = (1, 5, 1) := by decide +kernel

/-- The queue is taken from the front. -/
theorem test_step_front :
    (after (step { up with pending := [.nop 0 0, .quiet false] })).pending = [.quiet false] := by decide +kernel

/-! ## The premises of the statements can be met

One theorem for a statement, one clause for each of its cases, with a state and operands that meet all premises of the case. -/

/-- The premises of `Obligations.IdleStepPassesOneCycle`, clause by clause, can be met. -/
theorem test_meets_IdleStepPassesOneCycle :
    (∃ (s : State) (off : Nat), s.pending = [] ∧ setupReg off = true) :=
    ⟨up, 0x3000, by decide +kernel⟩

/-- The premises of `Obligations.TablesStayCanonical`, clause by clause, can be met. -/
theorem test_meets_TablesStayCanonical :
    (∃ (s : State) (t : State), step s = .next t ∧ TablesWf s) :=
    ⟨up, after (step up), next_of (by decide +kernel), by unfold TablesWf; decide +kernel⟩

/-- The premises of `Obligations.PowerInvariant`, clause by clause, can be met. -/
theorem test_meets_PowerInvariant :
    (∃ (s : State) (t : State), PowerInv s ∧ step s = .next t) :=
    ⟨State.reset, after (step State.reset), reset_powerInv, next_of (by decide +kernel)⟩

/-- The premises of `Obligations.PowerTransitions`, clause by clause, can be met. -/
theorem test_meets_PowerTransitions :
    (∃ (c : Instr) (s : State) (t : State), PowerInv s ∧ exec c s = .next t ∧ t.pw.pstate ≠ s.pw.pstate) :=
    ⟨.rstNRelease 1 2 3, State.reset, after (exec (.rstNRelease 1 2 3) State.reset), reset_powerInv, next_of (by decide +kernel),
      by decide +kernel⟩

/-- The premises of `Obligations.FenceStays`, clause by clause, can be met. -/
theorem test_meets_FenceStays :
    (∃ (s : State) (t : State), step s = .next t ∧ s.hd.fenced = true ∧ (s.pending.head?.map coldRow).getD false = false) :=
    ⟨{ upPw (fun p => { p with pstate := 6, ready := false }) with hd := { up.hd with fenced := true } },
      after (step { upPw (fun p => { p with pstate := 6, ready := false }) with hd := { up.hd with fenced := true } }),
      next_of (by decide +kernel), by decide +kernel⟩

/-- The premises of `Obligations.QueueAndOutputs`, clause by clause, can be met. -/
theorem test_meets_QueueAndOutputs :
    (∃ (s : State) (t : State), step s = .next t) :=
    ⟨up, after (step up), next_of (by decide +kernel)⟩

/-- The premises of `Obligations.SetupRegistersHold`, clause by clause, can be met. -/
theorem test_meets_SetupRegistersHold :
    (∃ (c : Instr) (s : State) (t : State) (off : Nat), exec c s = .next t ∧
      (regRow c || restartRow c || coldRow c || bootRow c) = false ∧ setupReg off = true) :=
    ⟨.mergeEntryDrain, up, after (exec .mergeEntryDrain up), 0x3000, next_of (by decide +kernel), by decide +kernel⟩

/-- The premises of `Obligations.TimeHolds`, clause by clause, can be met. -/
theorem test_meets_TimeHolds :
    (∃ (c : Instr) (s : State) (t : State), exec c s = .next t ∧ (regRow c || timeRow c || coldRow c) = false) :=
    ⟨.mergeEntryDrain, up, after (exec .mergeEntryDrain up), next_of (by decide +kernel), by decide +kernel⟩

/-- The premises of `Obligations.PairKeyHolds`, clause by clause, can be met. -/
theorem test_meets_PairKeyHolds :
    (∃ (c : Instr) (s : State) (t : State), exec c s = .next t ∧ (regRow c || coldRow c) = false) :=
    ⟨.mergeEntryDrain, up, after (exec .mergeEntryDrain up), next_of (by decide +kernel), by decide +kernel⟩

/-- The premises of `Obligations.PlanBanksHold`, clause by clause, can be met. -/
theorem test_meets_PlanBanksHold :
    (∃ (c : Instr) (s : State) (t : State), exec c s = .next t ∧ (planRow c || coldRow c) = false) :=
    ⟨.mergeEntryDrain, up, after (exec .mergeEntryDrain up), next_of (by decide +kernel), by decide +kernel⟩

/-- The premises of `Obligations.PatchAndPacksHold`, clause by clause, can be met. -/
theorem test_meets_PatchAndPacksHold :
    (∃ (c : Instr) (s : State) (t : State), exec c s = .next t ∧ ((∀ r i b x, c ≠ .patchLoad r i b x)) ∧
      (restartRow c || coldRow c || (controllerRow c && s.hd.fenced)) = false) ∧
    (∃ (c : Instr) (s : State) (t : State), exec c s = .next t ∧ ((∀ r i b x, c ≠ .testLoadpack r i b x)) ∧
      (restartRow c || coldRow c || (controllerRow c && s.hd.fenced)) = false) :=
  ⟨⟨.mergeEntryDrain, up, after (exec .mergeEntryDrain up), next_of (by decide +kernel), nofun, by decide +kernel⟩,
    ⟨.mergeEntryDrain, up, after (exec .mergeEntryDrain up), next_of (by decide +kernel), nofun, by decide +kernel⟩⟩

/-- The premises of `Obligations.ColdResetRows`, clause by clause, can be met. -/
theorem test_meets_ColdResetRows :
    (∃ (s : State), s.pw.clkAon = true) ∧
    (∃ (s : State), s.pw.clkAon = false ∧ (s.hd.fenced = true ∨ s.pw.pstate = 0 ∨ s.pw.fusedOff = true)) ∧
    (∃ (s : State), s.pw.clkAon = false ∧ s.hd.fenced = false ∧ s.pw.pstate ≠ 0 ∧ s.pw.fusedOff = false ∧ s.hd.unacked = []) :=
  ⟨⟨up, by decide +kernel⟩,
    ⟨(upPw fun p => { p with clkAon := false, fusedOff := true }), by decide +kernel⟩,
    ⟨(upPw fun p => { p with clkAon := false }), by decide +kernel⟩⟩

/-- The premises of `Obligations.StartRows`, clause by clause, can be met. -/
theorem test_meets_StartRows :
    (∃ (s : State), s.pw.rstN = false ∧ s.pw.clkAon = true ∧ s.pw.grade ≠ 3 ∧ s.pw.debugFuse = false) ∧
    (∃ (clk : Nat) (s : State), clk < 5 ∧ s.pw.rstN = true ∧ s.pw.clkAon = true ∧ s.pw.pstate ≠ 1) ∧
    (∃ (clk : Nat) (s : State), clk < 5 ∧ s.pw.rstN = true ∧ s.pw.clkAon = true ∧ s.pw.pstate = 1 ∧ s.pw.startStep = 4 ∧
      s.pw.clocks ||| BitVec.ofNat 5 (2 ^ clk) = BitVec.allOnes 5 ∧ s.pw.flowStop = false ∧ s.pw.coreDown = false) ∧
    (∃ (s : State), Settled s ∧ s.pw.pstate = 1 ∧ s.pw.startStep = 6 ∧ s.pw.startKind = 0 ∧ s.pw.flowStop = false ∧
      s.pw.coreDown = false ∧ s.pw.arrStopped = false ∧ s.tt.link = 0 ∧ csrBit s 0xA00 31 = false ∧ ((∀ n < 64,
      ringEnabled s n = false)) ∧ waysDisabled s < 5 ∧ ((∀ b < 16, usableWays s b ≠ [])) ∧
      (((s.hl.histRing.map (·.2) ++ s.hl.ledWait).all fun e => !(e.kind == 4 && e.history == 2) && !(e.kind == 8 && e.subject == 6)) = true)) ∧
    (∃ (s : State), Settled s ∧ s.pw.rstN = true ∧ s.pw.clkAon = true ∧ s.hd.fenced = false ∧ s.pw.flowStop = false ∧
      s.pw.pstate = 2 ∧ s.pl.st = 0 ∧ s.arr.opens = []) ∧
    (∃ (s : State), s.pw.pstate = 5 ∧ s.pw.flowStop = false ∧ quiet s = true ∧ s.tt.link = 0) ∧
    (∃ (s : State), s.pw.pstate = 4 ∧ s.pw.coreDown = true ∧ s.pw.arrDown = false ∧ s.pw.flowStop = false ∧ s.tt.link = 0) ∧
    (∃ (s : State), s.pw.pstate = 1 ∧ s.pw.coreDown = true) :=
  ⟨⟨State.reset, by decide +kernel⟩,
    ⟨4, up, by decide +kernel⟩,
    ⟨0, (upPw fun p => { p with pstate := 1, startStep := 4, clocks := 0x1E }), by decide +kernel⟩,
    ⟨(upPw fun p => { p with pstate := 1, startStep := 6 }), settled_of (by decide +kernel), by decide +kernel⟩,
    ⟨up, settled_of (by decide +kernel), by decide +kernel⟩,
    ⟨(upPw fun p => { p with pstate := 5 }), by decide +kernel⟩,
    ⟨(upPw fun p => { p with pstate := 4, prior := 2, coreDown := true }), by decide +kernel⟩,
    ⟨(upPw fun p => { p with pstate := 1, coreDown := true }), by decide +kernel⟩⟩

/-- The premises of `Obligations.WarmResetRows`, clause by clause, can be met. -/
theorem test_meets_WarmResetRows :
    (∃ (s : State), s.pw.rstN = true ∧ s.pw.clkAon = true ∧ s.pw.flowStop = true) ∧
    (∃ (s : State), s.pw.rstN = true ∧ s.pw.clkAon = true ∧ s.pw.flowStop = false ∧ s.hd.fenced = true) ∧
    (∃ (s : State), s.pw.rstN = true ∧ s.pw.clkAon = true ∧ s.pw.flowStop = false ∧ s.hd.fenced = false ∧ s.pw.pstate ≠ 2) ∧
    (∃ (c : Instr) (s : State), ((c = .quiesceDone ∧ s.pw.pstate = 5 ∧ s.pw.flowStop = false ∧ quiet s = true) ∨ (c = .reEntry ∧
      s.pw.pstate = 4 ∧ s.pw.coreDown = true ∧ s.pw.arrDown = false ∧ s.pw.flowStop = false)) ∧ SMap.wf {} s.gen.ctxs = true) ∧
    (∃ (c : Instr) (s : State) (n : Nat), ((c = .quiesceDone ∧ s.pw.pstate = 5 ∧ s.pw.flowStop = false ∧ quiet s = true) ∨
      (c = .reEntry ∧ s.pw.pstate = 4 ∧ s.pw.coreDown = true ∧ s.pw.arrDown = false ∧ s.pw.flowStop = false)) ∧ n < 64) ∧
    (∃ (c : Instr) (s : State), ((c = .quiesceDone ∧ s.pw.pstate = 5 ∧ s.pw.flowStop = false ∧ quiet s = true) ∨ (c = .reEntry ∧
      s.pw.pstate = 4 ∧ s.pw.coreDown = true ∧ s.pw.arrDown = false ∧ s.pw.flowStop = false)) ∧ SMap.wf {} s.arr.lasts = true) ∧
    (∃ (s : State), Settled s ∧ s.pw.rstN = true ∧ s.pw.clkAon = true ∧ s.hd.fenced = false ∧ s.pw.flowStop = false ∧
      s.pw.pstate = 2 ∧ s.pl.st = 0 ∧ s.arr.opens = [] ∧ s.arr.memq = []) ∧
    (∃ (c : Instr) (s : State), ((c = .quiesceDone ∧ s.pw.pstate = 5 ∧ s.pw.flowStop = false ∧ quiet s = true) ∨ (c = .reEntry ∧
      s.pw.pstate = 4 ∧ s.pw.coreDown = true ∧ s.pw.arrDown = false ∧ s.pw.flowStop = false)) ∧ s.tt.link = 0 ∧
      (s.arr.lasts.all (fun e => e.2.cond != 3 && e.2.cond != 0) = true) ∧
      (s.gen.ctxs.all (fun e => !e.2.resuming && e.2 != {}) = true)) :=
  ⟨⟨(upPw fun p => { p with flowStop := true }), by decide +kernel⟩,
    ⟨{ upPw (fun p => { p with pstate := 6, ready := false }) with hd := { up.hd with fenced := true } }, by decide +kernel⟩,
    ⟨(upPw fun p => { p with pstate := 1 }), by decide +kernel⟩,
    ⟨.reEntry, (upPw fun p => { p with pstate := 4, prior := 2, coreDown := true }), by decide +kernel⟩,
    ⟨.quiesceDone, (upPw fun p => { p with pstate := 5 }), 63, by decide +kernel⟩,
    ⟨.reEntry, (upPw fun p => { p with pstate := 4, prior := 2, coreDown := true }), by decide +kernel⟩,
    ⟨up, settled_of (by decide +kernel), by decide +kernel⟩,
    ⟨.reEntry, (upPw fun p => { p with pstate := 4, prior := 2, coreDown := true }), by decide +kernel⟩⟩

/-- The premises of `Obligations.SafeRetentionRows`, clause by clause, can be met. -/
theorem test_meets_SafeRetentionRows :
    (∃ (s : State), s.pw.clkAon = true ∧ s.pw.flowStop = false ∧ s.pw.pstate ≠ 2 ∧ s.pw.pstate ≠ 5) ∧
    (∃ (s : State), Settled s ∧ s.pw.clkAon = true ∧ s.pw.flowStop = false ∧ s.pw.pstate = 2 ∧ s.rg.cmds = [] ∧ s.pl.st = 0 ∧
      ((s.tt.link = 0 ∨ s.tt.link = 4)) ∧ (s.arr.lasts.all (fun e => e.2.cond != 3 && e.2.cond != 0) = true)) ∧
    (∃ (s : State), s.pw.flowStop = true ∧ (s.pw.pstate = 2 ∨ s.pw.pstate = 5)) ∧
    (∃ (s : State), Settled s ∧ s.pw.clkAon = true ∧ s.pw.flowStop = true ∧ s.pw.pstate = 3 ∧ s.pw.quiesced = false ∧
      s.pw.wrstHeld = false ∧ s.held = [] ∧ s.tt.link = 0 ∧ csrBit s 0xA00 31 = false ∧ ((∀ n < 64, ringEnabled s n = false))) ∧
    (∃ (s : State), Settled s ∧ s.pw.clkAon = true ∧ s.pw.flowStop = true ∧ s.pw.pstate = 3 ∧ s.pw.quiesced = false ∧
      s.pw.wrstHeld = true ∧ s.held = [] ∧ s.pl.st = 0 ∧ s.arr.opens = []) ∧
    (∃ (s : State), s.pw.clkAon = true ∧ s.pw.flowStop = true ∧ (s.pw.pstate = 0 ∨ s.pw.pstate = 4) ∧ s.hd.fenced = false) :=
  ⟨⟨State.reset, by decide +kernel⟩,
    ⟨up, settled_of (by decide +kernel), by decide +kernel⟩,
    ⟨(upPw fun p => { p with flowStop := true }), by decide +kernel⟩,
    ⟨(upPw fun p => { p with flowStop := true, pstate := 3 }), settled_of (by decide +kernel), by decide +kernel⟩,
    ⟨(upPw fun p => { p with flowStop := true, pstate := 3, wrstHeld := true }), settled_of (by decide +kernel),
      by decide +kernel⟩,
    ⟨(upPw fun p => { p with flowStop := true, pstate := 4, prior := 2 }), by decide +kernel⟩⟩

/-- The premises of `Obligations.ArraySupplyRows`, clause by clause, can be met. -/
theorem test_meets_ArraySupplyRows :
    (∃ (s : State), alive s = true ∧ s.pl.st ≠ 2 ∧ s.pw.onBak = false) ∧
    (∃ (s : State), s.pw.onBak = true ∧ s.pl.st ≠ 2) ∧
    (∃ (s : State), s.pw.onBak = true ∧ s.pw.pstate = 2) ∧
    (∃ (s : State), alive s = true ∧ s.pw.pstate = 2 ∧ s.tt.link ≠ 0 ∧ (s.pr.st = 1 ∨ s.pr.st = 3)) ∧
    (∃ (s : State), alive s = true ∧ s.pw.pstate = 2 ∧ s.tt.link ≠ 0 ∧ s.pr.st ≠ 1 ∧ s.pr.st ≠ 3) ∧
    (∃ (s : State), alive s = true ∧ s.pw.pstate = 2 ∧ s.tt.link = 0) ∧
    (∃ (s : State), Settled s ∧ s.pw.pstate = 4 ∧ s.pw.prior = 2 ∧ s.pw.arrDown = false ∧ s.pw.coreDown = false ∧
      s.pw.flowStop = false ∧ s.pw.flowEntered = false ∧ s.pw.wrstHeld = false ∧ s.held = [] ∧ ((∀ n < 64,
      ringEnabled s n = false))) :=
  ⟨⟨up, by decide +kernel⟩,
    ⟨(upPw fun p => { p with onBak := true }), by decide +kernel⟩,
    ⟨(upPw fun p => { p with onBak := true }), by decide +kernel⟩,
    ⟨{ up with tt := { up.tt with link := 2 }, pr := { up.pr with st := 1 } }, by decide +kernel⟩,
    ⟨{ up with tt := { up.tt with link := 2 }, pr := { up.pr with st := 2 } }, by decide +kernel⟩,
    ⟨up, by decide +kernel⟩,
    ⟨(upPw fun p => { p with pstate := 4, prior := 2 }), settled_of (by decide +kernel), by decide +kernel⟩⟩

/-- The premises of `Obligations.ClockRows`, clause by clause, can be met. -/
theorem test_meets_ClockRows :
    (∃ (s : State), alive s = true ∧ s.pw.clocks.getLsbD 0 = true ∧ s.tt.link = 0) ∧
    (∃ (clk : Nat) (s : State), alive s = true ∧ 1 ≤ clk ∧ clk < 5 ∧ s.pw.clocks.getLsbD clk = true ∧ s.hd.fenced = false) ∧
    (∃ (s : State), s.pw.planLock = true) ∧
    (∃ (s : State), alive s = true ∧ s.pw.coreDown = false ∧ s.pw.clocks >>> 2 = 7#5 ∧ s.pl.st ≠ 2 ∧ s.pl.st ≠ 4) :=
  ⟨⟨up, by decide +kernel⟩,
    ⟨4, up, by decide +kernel⟩,
    ⟨up, by decide +kernel⟩,
    ⟨up, by decide +kernel⟩⟩

/-- The premises of `Obligations.TapRow`, clause by clause, can be met. -/
theorem test_meets_TapRow :
    (∃ (wrapper : Bool) (ir : Nat) (s : State), debugLocked s = true ∧ tapAllowed s wrapper ir = false) ∧
    (∃ (ir : Nat) (s : State), debugLocked s = true ∧ (ir = 0 ∨ ir = 1 ∨ ir = 2)) ∧
    (∃ (p : Port) (s : State) (q : Port), debugLocked s = false ∧ p ≠ .tth ∧ q ≠ p) :=
  ⟨⟨true, 1, (upCsr 0xF10 (2 ^ 30)), by decide +kernel⟩,
    ⟨2, (upCsr 0xF10 (2 ^ 30)), by decide +kernel⟩,
    ⟨.ctl, up, .hst, by decide +kernel⟩⟩

/-- The premises of `Obligations.PpsRows`, clause by clause, can be met. -/
theorem test_meets_PpsRows :
    (∃ (s : State), s.pw.rstN = true ∧ s.pw.clkAon = true ∧ csrBit s 0xE08 31 = false) ∧
    (∃ (s : State) (n : Nat), s.pw.rstN = true ∧ s.pw.clkAon = true ∧ csrBit s 0xE08 31 = true ∧ s.tm.n = some n ∧
      n < 250000000) ∧
    (∃ (s : State) (off : Nat), ((∀ n, s.tm.n = some n → 250000000 ≤ n)) ∧ s.pw.rstN = true ∧ s.pw.clkAon = true ∧
      csrBit s 0xE08 31 = true ∧ setupReg off = true) ∧
    (∃ (s : State), s.pw.rstN = true ∧ s.pw.clkAon = true ∧ csrBit s 0xE08 31 = true ∧ s.tm.lost = false) ∧
    (∃ (s : State), s.pw.rstN = true ∧ s.pw.clkAon = true ∧ csrBit s 0xE08 31 = true ∧ s.tm.lost = true) :=
  ⟨⟨(upCsr 0xE08 0), by decide +kernel⟩,
    ⟨{ up with tm := { up.tm with n := some 249999999 } }, 249999999, by decide +kernel⟩,
    ⟨{ up with tm := { up.tm with n := some 250000000 } }, 0x3000, fun _ h => Nat.le_of_eq (Option.some.inj h), by decide +kernel⟩,
    ⟨up, by decide +kernel⟩,
    ⟨{ up with tm := { up.tm with lost := true } }, by decide +kernel⟩⟩

/-- The premises of `Obligations.WindowCounts`, clause by clause, can be met. -/
theorem test_meets_WindowCounts :
    (∃ (s : State) (c : Nat), s.pw.rstN = true ∧ s.pw.clkAon = true ∧ c < 16) :=
    ⟨up, 15, by decide +kernel⟩

/-- The premises of `Obligations.QosClassNextWindow`, clause by clause, can be met. -/
theorem test_meets_QosClassNextWindow :
    (∃ (cls : Nat) (a : Csr) (s : State), Settled s ∧ cls < 16 ∧ FrameAccess s a ∧ s.pw.flowStop = false ∧
      accCheck s (csrAt a (0x3000 + 8 * cls)) true = (0, 0)) ∧
    (∃ (s : State) (c : Nat), s.pw.rstN = true ∧ s.pw.clkAon = true ∧ c < 16) :=
  ⟨⟨15, (regW 0 []), up, settled_of (by decide +kernel), by unfold FrameAccess TakesFrame; decide +kernel⟩,
    ⟨up, 15, by decide +kernel⟩⟩

/-- The premises of `Obligations.PressureAndReadings`, clause by clause, can be met. -/
theorem test_meets_PressureAndReadings :
    (∃ (f : Frame) (s : State), TakesFrame s f ∧ f.type = 0x31) ∧
    (∃ (f : Frame) (s : State), TakesFrame s f ∧ f.type = 0x30 ∧ (5 ≤ (f.payload.getD 0 0 / 2 ^ 29 % 8) ∨
      csrBit s 0x3500 31 = false)) ∧
    (∃ (f : Frame) (s : State), TakesFrame s f ∧ f.type = 0x30 ∧ (f.payload.getD 0 0 / 2 ^ 29 % 8) < 5 ∧
      csrBit s 0x3500 31 = true ∧ (4 < (((calInterval s (tsNs s)) % 2 ^ 32 + 2 ^ 32 - (f.payload.getD 1 0 % 2 ^ 32)) % 2 ^ 32) ∨
      (calInterval s (tsNs s)) < (((calInterval s (tsNs s)) % 2 ^ 32 + 2 ^ 32 - (f.payload.getD 1 0 % 2 ^ 32)) % 2 ^ 32) ∨
      (calInterval s (tsNs s)) - (((calInterval s (tsNs s)) % 2 ^ 32 + 2 ^ 32 - (f.payload.getD 1 0 % 2 ^ 32)) % 2 ^ 32) ∈ s.qs.steps)) ∧
    (∃ (f : Frame) (s : State), TakesFrame s f ∧ f.type = 0x30 ∧ (f.payload.getD 0 0 / 2 ^ 29 % 8) < 5 ∧
      csrBit s 0x3500 31 = true ∧ (((calInterval s (tsNs s)) % 2 ^ 32 + 2 ^ 32 - (f.payload.getD 1 0 % 2 ^ 32)) % 2 ^ 32) ≤ 4 ∧
      (((calInterval s (tsNs s)) % 2 ^ 32 + 2 ^ 32 - (f.payload.getD 1 0 % 2 ^ 32)) % 2 ^ 32) ≤ (calInterval s (tsNs s)) ∧
      (calInterval s (tsNs s)) - (((calInterval s (tsNs s)) % 2 ^ 32 + 2 ^ 32 - (f.payload.getD 1 0 % 2 ^ 32)) % 2 ^ 32) ∉ s.qs.steps) :=
  ⟨⟨{ type := 0x31, dst := stopAddr up, payload := [] }, up, by unfold TakesFrame; decide +kernel⟩,
    ⟨{ type := 0x30, dst := stopAddr up, payload := [5 * 2 ^ 29] }, (upCsr 0x3500 (2 ^ 31)), by unfold TakesFrame; decide +kernel⟩,
    ⟨{ type := 0x30, dst := stopAddr up, payload := [0, 1] }, (upCsr 0x3500 (2 ^ 31)), by unfold TakesFrame; decide +kernel⟩,
    ⟨{ type := 0x30, dst := stopAddr up, payload := [4 * 2 ^ 29, 0] }, (upCsr 0x3500 (2 ^ 31)),
      by unfold TakesFrame; decide +kernel⟩⟩

/-- The premises of `Obligations.FramesPassOn`, clause by clause, can be met. -/
theorem test_meets_FramesPassOn :
    (∃ (c : Instr) (f : Frame) (s : State), frameOf c = some f ∧ s.hd.mode = 0 ∧ f.bad = false ∧ f.dst ≠ stopAddr s ∧
      f.dst ≠ 0xFFFF) ∧
    (∃ (c : Instr) (f : Frame) (s : State), frameOf c = some f ∧ s.hd.mode ≠ 0 ∧ (s.hd.mode ≠ 1 ∨ s.hd.fenced = false ∨
      (f.dst ≠ stopAddr s ∧ f.dst ≠ 0xFFFF))) ∧
    (∃ (c : Instr) (f : Frame) (s : State), frameOf c = some f ∧ s.hd.mode = 0 ∧ f.bad = true) ∧
    (∃ (c : Instr) (f : Frame) (s : State), frameOf c = some f ∧ TakesFrame s f ∧ frameTaken f.type = false) :=
  ⟨⟨.retireGo { dst := 0x8001 }, { dst := 0x8001 }, up, by decide +kernel⟩,
    ⟨.retireGo {}, {}, { up with hd := { up.hd with mode := 1 } }, by decide +kernel⟩,
    ⟨.hdrAck { bad := true }, { bad := true }, up, by decide +kernel⟩,
    ⟨.retireGo { type := 0x12, dst := 0xFFFF }, { type := 0x12, dst := 0xFFFF }, up, by unfold TakesFrame; decide +kernel⟩⟩

/-- The premises of `Obligations.FenceRows`, clause by clause, can be met. -/
theorem test_meets_FenceRows :
    (∃ (f : Frame) (s : State), TakesFrame s f ∧ f.type = 5 ∧ s.pw.rstN = true ∧ s.hd.fenced = false) ∧
    (∃ (s : State), alive s = true ∧ s.hd.fenced = false) ∧
    (∃ (s : State), s.hd.fenced = true ∧ s.hd.walkDone = false) ∧
    (∃ (s : State), (s.hd.fenced = false ∨ s.hd.walkDone = true)) :=
  ⟨⟨{ type := 5, dst := stopAddr up, payload := [] }, up, by unfold TakesFrame; decide +kernel⟩,
    ⟨up, by decide +kernel⟩,
    ⟨{ up with hd := { up.hd with fenced := true } }, by decide +kernel⟩,
    ⟨up, by decide +kernel⟩⟩

/-- The premises of `Obligations.FrameAnswers`, clause by clause, can be met. -/
theorem test_meets_FrameAnswers :
    (∃ (f : Frame) (s : State), TakesFrame s f ∧ f.type = 4) ∧
    (∃ (seq : Nat) (s : State), ((∀ e ∈ s.hd.unacked, e.1.seq ≠ seq))) ∧
    (∃ (seq : Nat) (n : Nat) (f : Frame) (s : State), ((s.hd.unacked.find? fun e => e.1.seq == seq) = some (f, n)) ∧
      (s.hd.mode = 0 ∨ (s.hd.fenced = true ∧ s.hd.mode = 1 ∧ f.type = 3)) ∧ (n < 8 ∨ f.type = 3 ∨ f.type = 0x26)) ∧
    (∃ (seq : Nat) (n : Nat) (f : Frame) (s : State), ((s.hd.unacked.find? fun e => e.1.seq == seq) = some (f, n)) ∧
      (s.hd.mode = 0 ∨ (s.hd.fenced = true ∧ s.hd.mode = 1 ∧ f.type = 3)) ∧ 8 ≤ n ∧ f.type ≠ 3 ∧ f.type ≠ 0x26) ∧
    (∃ (s : State), s.hd.mode = 0 ∧ csrBit s 0xC28 15 = true) ∧
    (∃ (s : State), (s.hd.mode ≠ 0 ∨ csrBit s 0xC28 15 = false)) ∧
    (∃ (f : Frame) (s : State), TakesFrame s f ∧ f.type = 0x21 ∧ s.hl.propCore ≠ 0 ∧
      (apart s.hl.propCore (f.payload.headD 0 % 65536) = true ∨ apart s.hl.propArr (f.payload.headD 0 / 65536 % 65536) = true) ∧
      (s.hl.proposed = 0 ∨ s.hl.proposed - 1 + ageingPeriod s ≤ tsNs s)) ∧
    (∃ (f : Frame) (s : State), TakesFrame s f ∧ f.type = 0x21 ∧ (s.hl.propCore = 0 ∨
      (apart s.hl.propCore (f.payload.headD 0 % 65536) = false ∧ apart s.hl.propArr (f.payload.headD 0 / 65536 % 65536) = false) ∨
      (s.hl.proposed ≠ 0 ∧ tsNs s < s.hl.proposed - 1 + ageingPeriod s))) :=
  ⟨⟨{ type := 4, dst := stopAddr up, payload := [] }, up, by unfold TakesFrame; decide +kernel⟩,
    ⟨7, up, by decide +kernel⟩,
    ⟨7, 7, { type := 2, seq := 7 }, { up with hd := { up.hd with unacked := [({ type := 2, seq := 7 }, 7)] } }, by decide +kernel⟩,
    ⟨7, 8, { type := 2, seq := 7 }, { up with hd := { up.hd with unacked := [({ type := 2, seq := 7 }, 8)] } }, by decide +kernel⟩,
    ⟨(upCsr 0xC28 (2 ^ 15)), by decide +kernel⟩,
    ⟨(upCsr 0xC28 0), by decide +kernel⟩,
    ⟨{ type := 0x21, dst := stopAddr up, payload := [0] }, { up with hl := { up.hl with propCore := 770, propArr := 800 } },
      by unfold TakesFrame; decide +kernel⟩,
    ⟨{ type := 0x21, dst := stopAddr up, payload := [] }, up, by unfold TakesFrame; decide +kernel⟩⟩

/-- The premises of `Obligations.RetirementRows`, clause by clause, can be met. -/
theorem test_meets_RetirementRows :
    (∃ (f : Frame) (s : State), TakesFrame s f ∧ f.type = 0x25) ∧
    (∃ (ring : Nat) (idx : Nat) (c : Cmd) (s : State), Starts s ring idx 0x0A1 c ∧ s.hl.rState = 0) ∧
    (∃ (s : State), s.hl.rState = 1 ∧ csrFld s 0xD00 47 32 ≠ 0xFFFF) ∧
    (∃ (s : State), (s.hl.rState ≠ 1 ∨ csrFld s 0xD00 47 32 = 0xFFFF)) ∧
    (∃ (s : State), s.hl.stress ≠ 1) ∧
    (∃ (f : Frame) (s : State) (c : Cmd), TakesFrame s f ∧ f.type = 0x23 ∧ cmdGet s s.hl.stressCmd = some c ∧ s.hl.stress = 0) ∧
    (∃ (f : Frame) (s : State) (c : Cmd), TakesFrame s f ∧ f.type = 0x23 ∧ cmdGet s s.hl.stressCmd = some c ∧ s.hl.stress = 1 ∧
      (f.payload.getD 1 0).testBit 8 = true) ∧
    (∃ (f : Frame) (s : State) (c : Cmd), TakesFrame s f ∧ f.type = 0x23 ∧ cmdGet s s.hl.stressCmd = some c ∧ s.hl.stress = 2 ∧
      (f.payload.getD 1 0).testBit 8 = false) :=
  ⟨⟨{ type := 0x25, dst := stopAddr up, payload := [] }, up, by unfold TakesFrame; decide +kernel⟩,
    ⟨2, 5, cmdOf 0x0A1 [], (withCmd up 0x0A1 []), by unfold Starts; decide +kernel⟩,
    ⟨{ up with hl := { up.hl with rState := 1 } }, by decide +kernel⟩,
    ⟨up, by decide +kernel⟩,
    ⟨up, by decide +kernel⟩,
    ⟨{ type := 0x23, dst := stopAddr up, payload := [] },
      { up with hl := { up.hl with stress := 0, stressCmd := 1 }, rg := { up.rg with cmds := [{ n := 1, code := 0x090, desc := [] }], n := 2 } },
      { n := 1, code := 0x090, desc := [] }, by unfold TakesFrame; decide +kernel⟩,
    ⟨{ type := 0x23, dst := stopAddr up, payload := [0, 256] },
      { up with hl := { up.hl with stress := 1, stressCmd := 1 }, rg := { up.rg with cmds := [{ n := 1, code := 0x090, desc := [] }], n := 2 } },
      { n := 1, code := 0x090, desc := [] }, by unfold TakesFrame; decide +kernel⟩,
    ⟨{ type := 0x23, dst := stopAddr up, payload := [0, 0] },
      { up with hl := { up.hl with stress := 2, stressCmd := 1 }, rg := { up.rg with cmds := [{ n := 1, code := 0x090, desc := [] }], n := 2 } },
      { n := 1, code := 0x090, desc := [] }, by unfold TakesFrame; decide +kernel⟩⟩

/-- The premises of `Obligations.HealthRows`, clause by clause, can be met. -/
theorem test_meets_HealthRows :
    (∃ (s : State), Settled s ∧ serving s = true ∧ csrBit s 0xC00 63 = true ∧ s.pw.arrStopped = false ∧ s.pl.resv = [] ∧
      lineAt s (harrowSlot s 16 0 s.hl.pos) = {} ∧ SMap.get {} s.pr.mirrors (harrowSlot s 16 0 s.hl.pos) = {} ∧
      ((s.coh.sf.all fun e => !e.2.bad) = true) ∧ ((s.ari.sheaves.all fun e => !e.2.bad) = true) ∧ s.hl.pos + 1 < harrowN s) ∧
    (∃ (s : State), Settled s ∧
      lineCrc (lineAt s (harrowSlot s 16 0 s.hl.pos)).data = (lineAt s (harrowSlot s 16 0 s.hl.pos)).crc ∧ serving s = true ∧
      csrBit s 0xC00 63 = true ∧ s.pw.arrStopped = false ∧ s.hd.fenced = false ∧
      (lineAt s (harrowSlot s 16 0 s.hl.pos)).st ≠ .invalid ∧ (lineAt s (harrowSlot s 16 0 s.hl.pos)).filling = false ∧
      openOf s (lineAt s (harrowSlot s 16 0 s.hl.pos)).addr = none ∧ (lineAt s (harrowSlot s 16 0 s.hl.pos)).tagBad = 0 ∧
      (lineAt s (harrowSlot s 16 0 s.hl.pos)).badPar = 0 ∧ (lineAt s (harrowSlot s 16 0 s.hl.pos)).crcBad = false ∧
      ((s.coh.sf.all fun e => !e.2.bad) = true) ∧ ((s.ari.sheaves.all fun e => !e.2.bad) = true) ∧ s.hl.pos + 1 < harrowN s) ∧
    (∃ (ring : Nat) (idx : Nat) (c : Cmd) (s : State), Starts s ring idx 0x090 c ∧ (leAt c.desc 25 1).testBit 0 = false ∧
      (leAt c.desc 24 1).testBit 7 = false) ∧
    (∃ (s : State), serving s = true ∧ csrBit s 0xD00 62 = true) ∧
    (∃ (k : Nat) (s : State), serving s = true ∧ csrBit s 0xD00 63 = true ∧ kernelRuns s k = false) ∧
    (∃ (k : Nat) (s : State), serving s = true ∧ csrBit s 0xD00 63 = true ∧ kernelRuns s k = true ∧ s.hl.rerun = 0 ∧ k ≠ 47) ∧
    (∃ (k : Nat) (sig : Nat) (s : State), sig ≠ Config.kernelSig k ∧ serving s = true ∧ csrBit s 0xD00 63 = true ∧
      kernelRuns s k = true ∧ s.hl.rerun = 0) ∧
    (∃ (bank : Nat) (way : Nat) (row : Nat) (s : State), serving s = true ∧
      ((s.hl.copies.find? fun c => c.1 == bank) = some (bank, way, row)) ∧ (rowSlots bank way row).any (repairing s) = false) ∧
    (∃ (bank : Nat) (way : Nat) (s : State), Settled s ∧ serving s = true ∧ (bank, way) ∈ s.hl.wayGoing ∧
      (pinnedWays s bank).contains way = false ∧ waySlots s bank way = []) ∧
    (∃ (bank : Nat) (way : Nat) (s : State), (bank, way) ∈ s.hl.wayGoing ∧ s.hl.rState = 0) :=
  ⟨⟨(upCsr 0xC00 (2 ^ 63)), settled_of (by decide +kernel), by decide +kernel⟩,
    ⟨{ upCsr 0xC00 (2 ^ 63) with arr := { up.arr with lines := [(harrowSlot up 16 0 0, { addr := 3, st := .clean })] } },
      settled_of (by decide +kernel),
      by rw [show lineAt _ _ = { addr := 3, st := .clean } from by decide +kernel]; exact lineCrc_zero, by decide +kernel⟩,
    ⟨2, 5, cmdOf 0x090 [], (withCmd up 0x090 []), by unfold Starts; decide +kernel⟩,
    ⟨(upCsr 0xD00 (2 ^ 62)), by decide +kernel⟩,
    ⟨46, (upCsr 0xD00 (2 ^ 63)), by decide +kernel⟩,
    ⟨46, { upCsr 0xD00 (2 ^ 63) with hl := { up.hl with kernelAt := 46 } }, by decide +kernel⟩,
    ⟨0, Config.kernelSig 0 + 1, (upCsr 0xD00 (2 ^ 63)), Nat.succ_ne_self _, by decide +kernel⟩,
    ⟨15, 3, 2, { up with hl := { up.hl with copies := [(15, 3, 2)] } }, by decide +kernel⟩,
    ⟨15, 3, { up with hl := { up.hl with wayGoing := [(15, 3)] } }, settled_of (by decide +kernel), by decide +kernel⟩,
    ⟨15, 3, { up with hl := { up.hl with wayGoing := [(15, 3)] } }, by decide +kernel⟩⟩

/-- The premises of `Obligations.RequestsAccepted`, clause by clause, can be met. -/
theorem test_meets_RequestsAccepted :
    (∃ (k : Rq) (m : Msg) (s : State), k ≠ .fence ∧ k ≠ .conflict ∧ Accepted s k (rowMsg k m) ∧ (k = .blkWr ∨ k = .blkAtl)) ∧
    (∃ (k : Rq) (m : Msg) (s : State), k ≠ .fence ∧ k ≠ .conflict ∧ Accepted s k (rowMsg k m) ∧ (rowMsg k m).port ≠ .blk) ∧
    (∃ (m : Msg) (s : State), Accepted s .fence m) ∧
    (∃ (m : Msg) (s : State), Accepted s .conflict m) :=
  ⟨⟨.blkWr, { addr := 512, size := 255, src := 5, tag := 9, qos := 4, dst := ownId up }, up,
      by unfold Accepted Received; decide +kernel⟩,
    ⟨.wr, { addr := 3 * 512 + 2, size := 3, src := 5, tag := 9, qos := 4, dst := ownId up }, up,
      by unfold Accepted Received; decide +kernel⟩,
    ⟨{ port := .ctl, src := 5, tag := 9, mod := 2 }, up, by unfold Accepted Received; decide +kernel⟩,
    ⟨{ port := .hst, src := 5, tag := 9, size := 63, addr := 128 }, up, by unfold Accepted Received; decide +kernel⟩⟩

/-- The premises of `Obligations.RequestsWaitForCycles`, clause by clause, can be met. -/
theorem test_meets_RequestsWaitForCycles :
    (∃ (k : Rq) (m : Msg) (s : State), Settled s ∧ k ≠ .fence ∧ k ≠ .conflict ∧ Accepted s k (rowMsg k m) ∧
      s.pl.openNow = false) :=
    ⟨.rd, { addr := 3 * 512 + 2, size := 3, src := 5, tag := 9, qos := 4, dst := ownId up },
      { up with pl := { up.pl with openNow := false } }, settled_of (by decide +kernel),
      by unfold Accepted Received; decide +kernel⟩

/-- The premises of `Obligations.ReadHitAnswered`, clause by clause, can be met. -/
theorem test_meets_ReadHitAnswered :
    (∃ (m : Msg) (s : State) (k : Nat), Settled s ∧ Accepted s .rd m ∧ m.port = .ctl ∧ s.pw.coreDown = false ∧
      s.pl.openNow = true ∧ s.pl.st = 0 ∧ m.qos < 16 ∧ s.qs.pressure = false ∧ s.qs.traces = [] ∧ csrBit s 0x3400 63 = false ∧
      s.txq = [] ∧ SMap.get 0 s.credits 0 ≠ 0 ∧ s.coh.sf = [] ∧ s.coh.snoops = [] ∧ s.coh.cautious = [] ∧ s.arr.deleting = [] ∧
      s.arr.mhes = [] ∧ s.arr.merges = [] ∧ s.arr.opens = [] ∧ s.arr.streams = [] ∧ s.gen.pendingRc = [] ∧ s.pr.repairs = [] ∧
      s.pr.sync = [] ∧ s.hl.suspect = false ∧ ((s.arr.lines.all fun e => e.2.tagBad == 0) = true) ∧
      findLine s (m.addr / 512) = some k ∧ (lineAt s k).last = lastOfLine s (m.addr / 512) ∧ (((lineAt s k).st = .clean ∨
      (lineAt s k).st = .dirty)) ∧ (lineAt s k).badPar = 0 ∧ (lastAt s (lastOfLine s (m.addr / 512))).cond = 1 ∧
      aBaled (lastAt s (lastOfLine s (m.addr / 512))).attr = false ∧
      aCache (lastAt s (lastOfLine s (m.addr / 512))).attr = true) :=
    ⟨{ addr := 3 * 512 + 2, size := 3, src := 5, tag := 9, qos := 4, dst := ownId up },
      (withLine { upLine with data := 0x0807060504030201 }), upSlot, settled_of (by decide +kernel),
      by unfold Accepted Received; decide +kernel⟩

/-- The premises of `Obligations.FencesAccepted`, clause by clause, can be met. -/
theorem test_meets_FencesAccepted :
    (∃ (m : Msg) (s : State), Settled s ∧ Accepted s .fence m ∧ m.mod ≠ 2 ∧
      ((s.arr.owed.all fun o => !(o.src == m.src && (o.port == m.port || (m.port == .ctl && o.port == .blk)))) = true) ∧
      s.txq = [] ∧ s.pw.coreDown = false ∧ SMap.get 0 s.credits (channel (answerPort m.port) 1) ≠ 0) ∧
    (∃ (m : Msg) (s : State), Settled s ∧ Accepted s .conflict m ∧ s.arr.owed = [] ∧ s.txq = [] ∧ s.pw.coreDown = false ∧
      SMap.get 0 s.credits 9 ≠ 0) :=
  ⟨⟨{ port := .ctl, src := 5, tag := 9, mod := 1 }, up, settled_of (by decide +kernel),
      by unfold Accepted Received; decide +kernel⟩,
    ⟨{ port := .hst, src := 5, tag := 9, size := 63, addr := 128 }, up, settled_of (by decide +kernel),
      by unfold Accepted Received; decide +kernel⟩⟩

/-- The premises of `Obligations.RequestsRefused`, clause by clause, can be met. -/
theorem test_meets_RequestsRefused :
    (∃ (k : Rq) (m : Msg) (s : State), rowMsg k m = m ∧ s.hd.fenced = true) ∧
    (∃ (k : Rq) (m : Msg) (s : State), rowMsg k m = m ∧ s.hd.fenced = false ∧ s.pw.pstate = 4 ∧ s.pw.ready = true) ∧
    (∃ (k : Rq) (m : Msg) (s : State), rowMsg k m = m ∧ s.hd.fenced = false ∧ (s.pw.pstate ≠ 4 ∨ s.pw.ready = false) ∧
      serving s = false) ∧
    (∃ (k : Rq) (m : Msg) (s : State), rowMsg k m = m ∧ serving s = true ∧ m.parity = .header) ∧
    (∃ (k : Rq) (m : Msg) (s : State), rowMsg k m = m ∧ serving s = true ∧ m.parity = .payload ∧ m.unlisted ≠ 2) ∧
    (∃ (k : Rq) (m : Msg) (s : State), rowMsg k m = m ∧ serving s = true ∧ m.parity = .ok ∧ m.unlisted = 2) ∧
    (∃ (k : Rq) (m : Msg) (s : State), rowMsg k m = m ∧ serving s = true ∧ m.parity = .ok ∧ m.unlisted ≠ 2 ∧
      hedgeFenced s (hedgeClass s m.src) = true) ∧
    (∃ (k : Rq) (m : Msg) (s : State), rowMsg k m = m ∧ Received s m ∧ badOp s k m = true) ∧
    (∃ (k : Rq) (m : Msg) (s : State), rowMsg k m = m ∧ Received s m ∧ badOp s k m = false ∧ badSize s k m = true) ∧
    (∃ (k : Rq) (m : Msg) (s : State), rowMsg k m = m ∧ Received s m ∧ badOp s k m = false ∧ badSize s k m = false ∧
      badAddr s k m = true) ∧
    (∃ (k : Rq) (m : Msg) (s : State), rowMsg k m = m ∧ Received s m ∧ reqCheck s k m = 0 ∧
      hedgePasses s m (hedgeClass s m.src) k.need = false) :=
  ⟨⟨.rd, { addr := 3 * 512 + 2, size := 3, src := 5, tag := 9, qos := 4, dst := ownId up },
      { upPw (fun p => { p with pstate := 6, ready := false }) with hd := { up.hd with fenced := true } }, by decide +kernel⟩,
    ⟨.rd, { addr := 3 * 512 + 2, size := 3, src := 5, tag := 9, qos := 4, dst := ownId up },
      (upPw fun p => { p with pstate := 4, prior := 2 }), by decide +kernel⟩,
    ⟨.rd, { addr := 3 * 512 + 2, size := 3, src := 5, tag := 9, qos := 4, dst := ownId up },
      (upPw fun p => { p with pstate := 3, ready := false }), by decide +kernel⟩,
    ⟨.rd, { addr := 3 * 512 + 2, size := 3, src := 5, tag := 9, qos := 4, dst := ownId up , parity := .header }, up,
      by decide +kernel⟩,
    ⟨.wr, { addr := 3 * 512 + 2, size := 3, src := 5, tag := 9, qos := 4, dst := ownId up , parity := .payload }, up,
      by decide +kernel⟩,
    ⟨.rd, { addr := 3 * 512 + 2, size := 3, src := 5, tag := 9, qos := 4, dst := ownId up , unlisted := 2 }, up,
      by decide +kernel⟩,
    ⟨.rd, { addr := 3 * 512 + 2, size := 3, src := 5, tag := 9, qos := 4, dst := ownId up }, (upCsr 0xF00 (2 ^ 8)),
      by decide +kernel⟩,
    ⟨.rd, { addr := 3 * 512 + 2, size := 3, src := 5, tag := 9, qos := 4, dst := ownId up , mod := 1 }, up,
      by unfold Received; decide +kernel⟩,
    ⟨.rd, { addr := 3 * 512 + 2, size := 510, src := 5, tag := 9, qos := 4, dst := ownId up  }, up,
      by unfold Received; decide +kernel⟩,
    ⟨.rdBlk, { addr := 3 * 512 + 2, size := 0, src := 5, tag := 9, qos := 4, dst := ownId up }, up,
      by unfold Received; decide +kernel⟩,
    ⟨.rd, { addr := 3 * 512 + 2, size := 3, src := 5, tag := 9, qos := 4, dst := ownId up }, (upCsr 0xF00 (2 ^ 31)),
      by unfold Received; decide +kernel⟩⟩

/-- The premises of `Obligations.HostAnswers`, clause by clause, can be met. -/
theorem test_meets_HostAnswers :
    (∃ (m : Msg) (s : State) (p : Push), Settled s ∧ Taken s m ∧ s.pw.flowStop = false ∧ m.mod ≤ 1 ∧ m.size = 63 ∧
      m.addr % 64 = 0 ∧ ((s.coh.pushes.find? fun p => p.tag == m.tag && p.host == m.addr / 64) = some p)) ∧
    (∃ (m : Msg) (s : State) (x : Snoop) (i : Nat) (k : Nat), Settled s ∧ Taken s m ∧ s.pw.flowStop = false ∧ m.mod ≤ 1 ∧
      m.size ∈ [63, 127, 255] ∧ m.addr % (m.size + 1) = 0 ∧ x.victim = false ∧ x.data = false ∧ x.wb = 0 ∧
      m.status % 2 ^ x.count % 16 = 0 ∧ ((s.coh.snoops.find? fun x => decide (x.host = m.addr / 64 ∧
      64 * x.count = m.size + 1) && x.rsp.isNone) = some x) ∧ i < x.count ∧ sfFind s (x.host + i) = some k) ∧
    (∃ (m : Msg) (s : State) (k : Nat) (x : Snoop) (j : Nat), Settled s ∧ Taken s m ∧ s.pw.flowStop = false ∧ m.mod = 0 ∧
      m.size = 63 ∧ m.addr % 64 = 0 ∧ m.data.length = 64 ∧ snoopOf s (m.addr / 64) = some x ∧ x.dropWb = false ∧ s.arr.mhes = [] ∧
      s.arr.opens = [] ∧ s.arr.streams = [] ∧ s.pr.sync = [] ∧ s.pr.repairs = [] ∧ s.gen.pendingRc = [] ∧
      csrBit s 0xC10 63 = false ∧ s.pl.veil = [] ∧ ((s.arr.lines.all fun e => e.2.tagBad == 0) = true) ∧
      findLine s (m.addr / 512) = some k ∧ (lineAt s k).filling = false ∧ (lineAt s k).crcBad = false ∧
      (lineAt s k).last = lastOfLine s (m.addr / 512) ∧ (lineAt s k).st = .dirty ∧ (lineAt s k).badPar = 0 ∧
      (lastAt s (lineAt s k).last).cond = 1 ∧ aCache (lastAt s (lineAt s k).last).attr = true ∧
      aKind (lastAt s (lineAt s k).last).attr ≠ 1 ∧ aBaled (lastAt s (lineAt s k).last).attr = false ∧
      aTrack (lastAt s (lineAt s k).last).attr = false ∧ aPaired (lastAt s (lineAt s k).last).attr = false ∧ j ≠ k) ∧
    (∃ (m : Msg) (s : State) (x : Snoop), Settled s ∧ Taken s m ∧ s.pw.flowStop = false ∧ m.mod = 0 ∧ m.size = 63 ∧
      m.addr % 64 = 0 ∧ snoopOf s (m.addr / 64) = some x ∧ x.dropWb = true ∧ x.rsp = none) ∧
    (∃ (m : Msg) (s : State), Taken s m ∧ m.mod = 0 ∧ m.size = 63 ∧ m.addr % 64 = 0 ∧ watchers s m.addr = []) ∧
    (∃ (s : State), s.hd.fenced = false ∧ s.pw.pstate = 4 ∧ s.pw.ready = true ∧ s.pw.coreDown = false) ∧
    (∃ (host : Nat) (s : State), s.hd.fenced = false ∧ ((∀ x ∈ s.coh.snoops, x.host = host → x.rsp.isSome = true ∨
      x.reported = true))) ∧
    (∃ (host : Nat) (s : State) (x : Snoop), s.hd.fenced = false ∧
      ((s.coh.snoops.find? fun x => x.host == host && x.rsp.isNone && !x.reported) = some x) ∧ x.rsp = none) :=
  ⟨⟨{ port := .hst, src := 5, tag := 9, size := 63, addr := 128 },
      { up with coh := { up.coh with pushes := [{ host := 2, tag := 9 }] } }, { host := 2, tag := 9 },
      settled_of (by decide +kernel), by unfold Taken; decide +kernel⟩,
    ⟨{ port := .hst, src := 5, tag := 9, size := 255, addr := 1024, status := 0 },
      { (upSf 19 1) with coh := { (upSf 19 1).coh with snoops := [{ host := 16, count := 4 }] } }, { host := 16, count := 4 }, 3,
      sfSet up 19 * 16, settled_of (by decide +kernel), by unfold Taken; decide +kernel⟩,
    ⟨{ port := .hst, src := 5, tag := 9, size := 63, addr := 1536, data := leBytes 64 5 },
      { (withLine { upLine with st := .dirty }) with coh := { (withLine { upLine with st := .dirty }).coh with snoops := [{ host := 24 }] } },
      upSlot, { host := 24 }, 0, settled_of (by decide +kernel), by unfold Taken; decide +kernel⟩,
    ⟨{ port := .hst, src := 5, tag := 9, size := 63, addr := 128 },
      { up with coh := { up.coh with snoops := [{ host := 2, dropWb := true }] } }, { host := 2, dropWb := true },
      settled_of (by decide +kernel), by unfold Taken; decide +kernel⟩,
    ⟨{ port := .hst, src := 5, tag := 9, size := 63, addr := 128 }, up, by unfold Taken; decide +kernel⟩,
    ⟨(upPw fun p => { p with pstate := 4, prior := 2 }), by decide +kernel⟩,
    ⟨2, up, by decide +kernel⟩,
    ⟨2, { up with coh := { up.coh with snoops := [{ host := 2 }] } }, { host := 2 }, by decide +kernel⟩⟩

/-- The premises of `Obligations.CommandsStart`, clause by clause, can be met. -/
theorem test_meets_CommandsStart :
    (∃ (i : Instr) (ring : Nat) (idx : Nat) (code : Nat) (f : State → Cmd → State) (c : Cmd) (s : State),
      commandOf i = some (ring, idx, code, f) ∧ Starts s ring idx code c) ∧
    (∃ (i : Instr) (ring : Nat) (idx : Nat) (code : Nat) (f : State → Cmd → State) (s : State), commandOf i = some (ring, idx,
      code, f) ∧ ((∀ c, ¬ Starts s ring idx code c))) ∧
    (∃ (ring : Nat) (idx : Nat) (c : Cmd) (s : State), Starts s ring idx 0x000 c) ∧
    (∃ (ring : Nat) (idx : Nat) (c : Cmd) (s : State) (j : Nat), Starts s ring idx 0x010 c ∧ (leAt c.desc 48 2 % 1024) ≠ 1023 ∧
      (SMap.get {} s.arr.lasts (leAt c.desc 48 2 % 1024)).cond = 0 ∧ defineCheck s (definedRecord s c) = 0 ∧
      rangeBusy s (definedRecord s c).base (definedRecord s c).limit = false ∧ j ≠ (leAt c.desc 48 2 % 1024)) ∧
    (∃ (ring : Nat) (idx : Nat) (c : Cmd) (s : State), Starts s ring idx 0x011 c ∧ (leAt c.desc 16 2 % 1024) ≠ 1023 ∧
      (SMap.get {} s.arr.lasts (leAt c.desc 16 2 % 1024)).cond ≠ 0 ∧
      aCtx (SMap.get {} s.arr.lasts (leAt c.desc 16 2 % 1024)).attr = leAt c.desc 18 2 % 4096 ∧
      rangeBound s (SMap.get {} s.arr.lasts (leAt c.desc 16 2 % 1024)).base (SMap.get {} s.arr.lasts (leAt c.desc 16 2 % 1024)).limit = false ∧
      ((aDur (SMap.get {} s.arr.lasts (leAt c.desc 16 2 % 1024)).attr = 2 → lockedSlots s (leAt c.desc 16 2 % 1024) = [])) ∧
      (((running s c).any fun x => actsOn s x (leAt c.desc 16 2 % 1024)) = false) ∧
      rangeBusy s (SMap.get {} s.arr.lasts (leAt c.desc 16 2 % 1024)).base (SMap.get {} s.arr.lasts (leAt c.desc 16 2 % 1024)).limit = false ∧
      s.arr.merges = []) ∧
    (∃ (ring : Nat) (idx : Nat) (c : Cmd) (s : State), Starts s ring idx 0x012 c ∧ s.txq = [] ∧ portsHalt s = false ∧
      SMap.get 0 s.credits 11 ≠ 0) ∧
    (∃ (ring : Nat) (idx : Nat) (input : Bytes) (c : Cmd) (s : State) (recs : List (Nat × LineMask × LineData × Bool × Nat)) (n : Nat) (x : Cmd),
      replayParse (begun s c) (aCtx (lastAt s (leAt c.desc 16 2 % 1024)).attr) (some (leAt c.desc 16 2 % 1024)) (slice input 0 (leAt c.desc 32 8)) (leAt c.desc 40 4) = .good recs n ∧
      Starts s ring idx 0x013 c ∧ (leAt c.desc 16 2 % 1024) ≠ 1023 ∧ (lastAt s (leAt c.desc 16 2 % 1024)).cond = 2 ∧
      aCtx (lastAt s (leAt c.desc 16 2 % 1024)).attr = leAt c.desc 18 2 % 4096 ∧ leAt c.desc 24 8 % 32 = 0 ∧
      leAt c.desc 32 8 ≠ 0 ∧ leAt c.desc 32 8 % 32 = 0 ∧
      (((running s c).any fun x => actsOn s x (leAt c.desc 16 2 % 1024)) = false) ∧ x.n = c.n) ∧
    (∃ (ring : Nat) (idx : Nat) (code : Nat) (i : Instr) (k : OpKind) (c : Cmd) (s : State), ((i = .rangePrefetch ring idx ∧
      code = 0x020 ∧ k = .prefetch) ∨ (i = .rangeFlush ring idx ∧ code = 0x021 ∧ k = .flush) ∨ (i = .rangeInvalidate ring idx ∧
      code = 0x022 ∧ k = .inval) ∨ (i = .rangeDiscard ring idx ∧ code = 0x023 ∧ k = .discard)) ∧ Starts s ring idx code c ∧
      rangeCheck c = 0 ∧ rangeDenied s (rangeBase c) (rangeLen c) (leAt c.desc 34 2 % 4096) = false) ∧
    (∃ (ring : Nat) (idx : Nat) (c : Cmd) (s : State), Starts s ring idx 0x063 c ∧ 0 < leAt c.desc 24 4 ∧
      leAt c.desc 24 4 ≤ 2 ^ 24 ∧ rangeBase c % 512 = 0 ∧ isExpert c = false ∧ s.hl.suspect = false ∧ ((∀ m < leAt c.desc 24 4,
      aCtx (lastAt s (lastOfLine s (rangeBase c / 512 + m))).attr = leAt c.desc 34 2 % 4096))) ∧
    (∃ (ring : Nat) (idx : Nat) (c : Cmd) (s : State) (x : Cmd), Starts s ring idx 0x060 c ∧ leAt c.desc 24 2 ≠ 0 ∧
      leAt c.desc 24 2 ≤ 4096 ∧ rangeBase c % 512 = 0 ∧ aCtx (lastAt s (lastOf s (rangeBase c))).attr = leAt c.desc 28 2 % 4096 ∧
      leAt c.desc 26 1 % 2 = 0 ∧ aBaled (lastAt s (lastOf s (rangeBase c))).attr = false ∧
      aKind (lastAt s (lastOf s (rangeBase c))).attr ≠ 1 ∧ aCache (lastAt s (lastOf s (rangeBase c))).attr = true ∧
      rangeBase c + 512 * (bindLines c).length ≤ (lastAt s (lastOf s (rangeBase c))).limit ∧ ((∀ x ∈ bindLines c,
      lastOfLine s x = (lastOf s (rangeBase c)))) ∧ bindRefusal s c = 0 ∧ (lastAt s (lastOf s (rangeBase c))).cond = 1 ∧
      x.n = c.n) ∧
    (∃ (ring : Nat) (idx : Nat) (c : Cmd) (s : State) (w : Window) (x : Cmd), Starts s ring idx 0x061 c ∧ windowAt s c = some w ∧
      w.lost = false ∧ aCtx (lastAt s w.last).attr = leAt c.desc 28 2 % 4096 ∧ s.hl.suspect = false ∧ badSheaf s w = none ∧
      (((running s c).any fun x => x.code == 0x061 && rangeBase x == w.base) = false) ∧ atomWaits s (windowLines w) = false ∧
      x.n = c.n) ∧
    (∃ (ring : Nat) (idx : Nat) (c : Cmd) (s : State) (w : Window), Starts s ring idx 0x062 c ∧ windowAt s c = some w ∧
      aCtx (lastAt s w.last).attr = leAt c.desc 28 2 % 4096 ∧
      (((running s c).any fun x => x.code == 0x061 && rangeBase x == w.base) = false)) ∧
    (∃ (ring : Nat) (idx : Nat) (c : Cmd) (s : State) (x : Cmd), Starts s ring idx 0x070 c ∧ csrBit s 0x600 0 = true ∧
      flipBase c % 2 ^ pageShift s = 0 ∧ flipLen c ≠ 0 ∧ flipLen c % 2 ^ pageShift s = 0 ∧ csrFld s 0x610 51 0 ≤ flipBase c ∧
      flipBase c + flipLen c ≤ csrFld s 0x618 51 0 ∧ x.n = c.n) :=
  ⟨⟨.nop 2 5, 2, 5, 0, _, cmdOf 0 [], (withCmd up 0 []), rfl, by unfold Starts; decide +kernel⟩,
    ⟨.nop 2 5, 2, 5, 0, _, up, rfl, fun _ h => nomatch h.1⟩,
    ⟨2, 5, cmdOf 0 [], (withCmd up 0 []), by unfold Starts; decide +kernel⟩,
    ⟨2, 5, cmdOf 0x010 [(16, 2 ^ 20), (24, 2 ^ 21), (32, 2 ^ 56 + 768), (48, 7)], (withCmd up 0x010 [(16, 2 ^ 20), (24, 2 ^ 21),
      (32, 2 ^ 56 + 768), (48, 7)]), 8, by unfold Starts; decide +kernel⟩,
    ⟨2, 5, cmdOf 0x011 [(16, 7), (18, 3)], (withCmd (upLast 0x100000000000300 1) 0x011 [(16, 7), (18, 3)]),
      by unfold Starts; decide +kernel⟩,
    ⟨2, 5, cmdOf 0x012 [(16, 7)], (withCmd up 0x012 [(16, 7)]), by unfold Starts; decide +kernel⟩,
    ⟨2, 5, replayBuf, cmdOf 0x013 [(16, 7), (18, 3), (32, 64), (40, 1)], (withCmd (upLast 0x100000000000300 2) 0x013 [(16, 7),
      (18, 3), (32, 64), (40, 1)]), _, _, (cmdOf 0x013 []), good_of (by decide +kernel), by unfold Starts; decide +kernel⟩,
    ⟨2, 5, 0x020, .rangePrefetch 2 5, .prefetch, cmdOf 0x020 [(16, 2 ^ 20), (24, 512)], (withCmd up 0x020 [(16, 2 ^ 20), (24,
      512)]), by unfold Starts; decide +kernel⟩,
    ⟨2, 5, cmdOf 0x063 [(16, 2 ^ 20), (24, 2)], (withCmd up 0x063 [(16, 2 ^ 20), (24, 2)]), by unfold Starts; decide +kernel⟩,
    ⟨2, 5, cmdOf 0x060 [(16, 2 ^ 20), (24, 64), (26, 2)], (withCmd up 0x060 [(16, 2 ^ 20), (24, 64), (26, 2)]), (cmdOf 0x060 []),
      by unfold Starts; decide +kernel⟩,
    ⟨2, 5, cmdOf 0x061 [(16, 2 ^ 20)], (withCmd (withWindow up) 0x061 [(16, 2 ^ 20)]), { base := 2 ^ 20, n := 64, count := 64 },
      (cmdOf 0x061 []), by unfold Starts; decide +kernel⟩,
    ⟨2, 5, cmdOf 0x062 [(16, 2 ^ 20)], (withCmd (withWindow up) 0x062 [(16, 2 ^ 20)]), { base := 2 ^ 20, n := 64, count := 64 },
      by unfold Starts; decide +kernel⟩,
    ⟨2, 5, cmdOf 0x070 [(16, 4096), (24, 4096)], (withCmd (csrPut (csrPut (csrPut up 0x600 1) 0x610 0) 0x618 (2 ^ 21)) 0x070 [(16,
      4096), (24, 4096)]), (cmdOf 0x070 []), by unfold Starts; decide +kernel⟩⟩

/-- The premises of `Obligations.CommandsRefused`, clause by clause, can be met. -/
theorem test_meets_CommandsRefused :
    (∃ (ring : Nat) (idx : Nat) (c : Cmd) (s : State), Starts s ring idx 0x011 c ∧ ((leAt c.desc 16 2 % 1024 = 1023 ∨
      (SMap.get {} s.arr.lasts (leAt c.desc 16 2 % 1024)).cond = 0))) ∧
    (∃ (ring : Nat) (idx : Nat) (c : Cmd) (s : State), Starts s ring idx 0x021 c ∧ rangeCheck c ≠ 0) ∧
    (∃ (ring : Nat) (idx : Nat) (c : Cmd) (s : State), Starts s ring idx 0x022 c ∧ rangeCheck c ≠ 0) ∧
    (∃ (ring : Nat) (idx : Nat) (c : Cmd) (s : State), Starts s ring idx 0x023 c ∧ rangeCheck c = 0 ∧
      rangeDenied s (rangeBase c) (rangeLen c) (leAt c.desc 34 2 % 4096) = true) ∧
    (∃ (ring : Nat) (idx : Nat) (c : Cmd) (s : State), Starts s ring idx 0x030 c ∧ (ctxGet s (cmdContext c)).st ≠ 0) ∧
    (∃ (ring : Nat) (idx : Nat) (c : Cmd) (s : State), Starts s ring idx 0x032 c ∧
      csrBit s (0x808 + 16 * (leAt c.desc 16 1 % 16)) 63 = false) ∧
    (∃ (ring : Nat) (idx : Nat) (c : Cmd) (s : State), Starts s ring idx 0x040 c ∧ (leAt c.desc 18 1).testBit 1 = false ∧
      (ctxGet s (cmdContext c)).st ≠ 1) ∧
    (∃ (ring : Nat) (idx : Nat) (c : Cmd) (s : State), Starts s ring idx 0x042 c ∧ (ctxGet s (cmdContext c)).st ≠ 2) ∧
    (∃ (ring : Nat) (idx : Nat) (c : Cmd) (s : State), Starts s ring idx 0x043 c ∧ (ctxGet s (cmdContext c)).st = 1) ∧
    (∃ (ring : Nat) (idx : Nat) (c : Cmd) (s : State), Starts s ring idx 0x051 c ∧ (leAt c.desc 16 1).testBit 0 = false ∧
      s.pl.st = 0 ∧ s.pw.planLock = false) ∧
    (∃ (ring : Nat) (idx : Nat) (c : Cmd) (s : State), Starts s ring idx 0x051 c ∧ (leAt c.desc 16 1).testBit 0 = false ∧
      s.pl.st ≠ 0) ∧
    (∃ (ring : Nat) (idx : Nat) (c : Cmd) (s : State), Starts s ring idx 0x061 c ∧ windowAt s c = none) ∧
    (∃ (ring : Nat) (idx : Nat) (c : Cmd) (s : State), Starts s ring idx 0x062 c ∧ windowAt s c = none) ∧
    (∃ (ring : Nat) (idx : Nat) (c : Cmd) (s : State), Starts s ring idx 0x063 c ∧ leAt c.desc 24 4 = 0) ∧
    (∃ (ring : Nat) (idx : Nat) (c : Cmd) (s : State), Starts s ring idx 0x070 c ∧ csrBit s 0x600 0 = false) ∧
    (∃ (ring : Nat) (idx : Nat) (c : Cmd) (s : State), Starts s ring idx 0x080 c ∧ ((s.tt.link ≠ 2 ∨ s.pr.st ≠ 2))) ∧
    (∃ (ring : Nat) (idx : Nat) (c : Cmd) (s : State), Starts s ring idx 0x081 c ∧ s.pr.st ≠ 2) ∧
    (∃ (ring : Nat) (idx : Nat) (c : Cmd) (s : State), Starts s ring idx 0x090 c ∧ (leAt c.desc 24 1).testBit 7 = true ∧
      SMap.get [] s.hl.packs (leAt c.desc 24 1 % 4) = []) ∧
    (∃ (ring : Nat) (idx : Nat) (c : Cmd) (s : State), Starts s ring idx 0x0A0 c ∧ ((s.rg.patched = true ∨ c.late = true))) ∧
    (∃ (ring : Nat) (idx : Nat) (c : Cmd) (s : State), Starts s ring idx 0x0A1 c ∧ 2 ≤ s.hl.rState) :=
  ⟨⟨2, 5, cmdOf 0x011 [(16, 1023)], (withCmd up 0x011 [(16, 1023)]), by unfold Starts; decide +kernel⟩,
    ⟨2, 5, cmdOf 0x021 [], (withCmd up 0x021 []), by unfold Starts; decide +kernel⟩,
    ⟨2, 5, cmdOf 0x022 [], (withCmd up 0x022 []), by unfold Starts; decide +kernel⟩,
    ⟨2, 5, cmdOf 0x023 [(24, 512), (34, 5)], (withCmd up 0x023 [(24, 512), (34, 5)]), by unfold Starts; decide +kernel⟩,
    ⟨2, 5, cmdOf 0x030 [(16, 3)], (withCmd (upCtx { st := 1 }) 0x030 [(16, 3)]), by unfold Starts; decide +kernel⟩,
    ⟨2, 5, cmdOf 0x032 [], (withCmd up 0x032 []), by unfold Starts; decide +kernel⟩,
    ⟨2, 5, cmdOf 0x040 [], (withCmd up 0x040 []), by unfold Starts; decide +kernel⟩,
    ⟨2, 5, cmdOf 0x042 [], (withCmd up 0x042 []), by unfold Starts; decide +kernel⟩,
    ⟨2, 5, cmdOf 0x043 [(16, 3)], (withCmd (upCtx { st := 1 }) 0x043 [(16, 3)]), by unfold Starts; decide +kernel⟩,
    ⟨2, 5, cmdOf 0x051 [], (withCmd (upPw fun p => { p with planLock := false }) 0x051 []), by unfold Starts; decide +kernel⟩,
    ⟨2, 5, cmdOf 0x051 [], (withCmd { up with pl := { up.pl with st := 1 } } 0x051 []), by unfold Starts; decide +kernel⟩,
    ⟨2, 5, cmdOf 0x061 [], (withCmd up 0x061 []), by unfold Starts; decide +kernel⟩,
    ⟨2, 5, cmdOf 0x062 [], (withCmd up 0x062 []), by unfold Starts; decide +kernel⟩,
    ⟨2, 5, cmdOf 0x063 [], (withCmd up 0x063 []), by unfold Starts; decide +kernel⟩,
    ⟨2, 5, cmdOf 0x070 [], (withCmd up 0x070 []), by unfold Starts; decide +kernel⟩,
    ⟨2, 5, cmdOf 0x080 [], (withCmd up 0x080 []), by unfold Starts; decide +kernel⟩,
    ⟨2, 5, cmdOf 0x081 [], (withCmd up 0x081 []), by unfold Starts; decide +kernel⟩,
    ⟨2, 5, cmdOf 0x090 [(24, 0x80)], (withCmd up 0x090 [(24, 0x80)]), by unfold Starts; decide +kernel⟩,
    ⟨2, 5, cmdOf 0x0A0 [], (withCmd { up with rg := { up.rg with patched := true } } 0x0A0 []), by unfold Starts; decide +kernel⟩,
    ⟨2, 5, cmdOf 0x0A1 [], (withCmd { up with hl := { up.hl with rState := 2 } } 0x0A1 []), by unfold Starts; decide +kernel⟩⟩

/-- The premises of `Obligations.ContextCommands`, clause by clause, can be met. -/
theorem test_meets_ContextCommands :
    (∃ (ring : Nat) (idx : Nat) (c : Cmd) (s : State), Starts s ring idx 0x030 c ∧ (ctxGet s (cmdContext c)).st = 0 ∧
      (((leAt c.desc 19 1).testBit 0 = true ∨ csrBit s (0x808 + 16 * (leAt c.desc 18 1 % 16)) 63 = true)) ∧
      writesHeld s (cmdContext c) = false) ∧
    (∃ (ring : Nat) (idx : Nat) (c : Cmd) (s : State), Starts s ring idx 0x031 c ∧ (leAt c.desc 18 1).testBit 0 = false ∧
      (ctxGet s (cmdContext c)).st = 1 ∧ freezing s c (cmdContext c) = false) ∧
    (∃ (ring : Nat) (idx : Nat) (c : Cmd) (s : State), Starts s ring idx 0x031 c ∧ (leAt c.desc 18 1).testBit 0 = true ∧
      (((running s c).any fun x => x.code == 0x040) = false) ∧ ((s.gen.ctxs.filter fun e => e.2.st == 1) ≠ [])) ∧
    (∃ (ring : Nat) (idx : Nat) (c : Cmd) (s : State), Starts s ring idx 0x032 c ∧
      csrBit s (0x808 + 16 * (leAt c.desc 16 1 % 16)) 63 = true ∧
      leAt c.desc 20 4 % 2 ^ 25 < logUnits s (leAt c.desc 16 1 % 16)) ∧
    (∃ (ring : Nat) (idx : Nat) (c : Cmd) (s : State), Starts s ring idx 0x040 c ∧ (ctxGet s (cmdContext c)).st = 1 ∧
      (((leAt c.desc 18 1).testBit 1 = true → max 1 (leAt c.desc 20 4) ≤ 2 ^ 20 ∧ leAt c.desc 24 4 < max 1 (leAt c.desc 20 4) ∧
      (ctxGet s (cmdContext c)).logEn = true)) ∧
      ((s.ari.windows.any fun w => aCtx (lastAt s w.last).attr == cmdContext c) = false)) ∧
    (∃ (ring : Nat) (idx : Nat) (c : Cmd) (s : State), Starts s ring idx 0x041 c ∧ freezing s c (cmdContext c) = false ∧
      c.preFreeze = false ∧ (leAt c.desc 18 1).testBit 0 = false ∧ (ctxGet s (cmdContext c)).st = 2 ∧
      ((∀ o ∈ queuedOf s (cmdContext c), o.noted.testBit 9 = false))) ∧
    (∃ (c : Cmd) (s : State), resumeLeft s (cmdContext c) = false) ∧
    (∃ (ring : Nat) (idx : Nat) (c : Cmd) (s : State) (bad : List BadBeat), Starts s ring idx 0x041 c ∧
      freezing s c (cmdContext c) = false ∧ c.preFreeze = false ∧ (leAt c.desc 18 1).testBit 0 = true ∧
      leAt c.desc 24 8 % 32 = 0 ∧ leAt c.desc 32 8 ≠ 0 ∧ leAt c.desc 32 8 % 32 = 0 ∧ (ctxGet s (cmdContext c)).st ≠ 1 ∧
      (((ctxGet s (cmdContext c)).st = 2 → leAt c.desc 19 1 % 16 = 0 ∧ (leAt c.desc 18 1).testBit 1 = false)) ∧
      (((ctxGet s (cmdContext c)).st = 0 → (leAt c.desc 18 1).testBit 1 = true ∨
      csrBit s (0x808 + 16 * (leAt c.desc 19 1 % 16)) 63 = true)) ∧ bad ≠ []) ∧
    (∃ (ring : Nat) (idx : Nat) (input : Bytes) (c : Cmd) (s : State) (recs : List (Nat × LineMask × LineData × Bool × Nat)) (n : Nat),
      replayParse (queueReject (begun s c) (cmdContext c)) (cmdContext c) none (slice input 0 (leAt c.desc 32 8)) (leAt c.desc 40 4) = .good recs n ∧
      Starts s ring idx 0x041 c ∧ freezing s c (cmdContext c) = false ∧ c.preFreeze = false ∧
      (leAt c.desc 18 1).testBit 0 = true ∧ leAt c.desc 24 8 % 32 = 0 ∧ leAt c.desc 32 8 ≠ 0 ∧ leAt c.desc 32 8 % 32 = 0 ∧
      (ctxGet s (cmdContext c)).st ≠ 1 ∧ (((ctxGet s (cmdContext c)).st = 2 → leAt c.desc 19 1 % 16 = 0 ∧
      (leAt c.desc 18 1).testBit 1 = false)) ∧ (((ctxGet s (cmdContext c)).st = 0 → (leAt c.desc 18 1).testBit 1 = true ∨
      csrBit s (0x808 + 16 * (leAt c.desc 19 1 % 16)) 63 = true))) ∧
    (∃ (ring : Nat) (idx : Nat) (input : Bytes) (c : Cmd) (s : State) (seq : Nat),
      replayParse (queueReject (begun s c) (cmdContext c)) (cmdContext c) none (slice input 0 (leAt c.desc 32 8)) (leAt c.desc 40 4) = .bad seq ∧
      Starts s ring idx 0x041 c ∧ freezing s c (cmdContext c) = false ∧ c.preFreeze = false ∧
      (leAt c.desc 18 1).testBit 0 = true ∧ leAt c.desc 24 8 % 32 = 0 ∧ leAt c.desc 32 8 ≠ 0 ∧ leAt c.desc 32 8 % 32 = 0 ∧
      (ctxGet s (cmdContext c)).st ≠ 1 ∧ (((ctxGet s (cmdContext c)).st = 2 → leAt c.desc 19 1 % 16 = 0 ∧
      (leAt c.desc 18 1).testBit 1 = false)) ∧ (((ctxGet s (cmdContext c)).st = 0 → (leAt c.desc 18 1).testBit 1 = true ∨
      csrBit s (0x808 + 16 * (leAt c.desc 19 1 % 16)) 63 = true))) ∧
    (∃ (ring : Nat) (idx : Nat) (c : Cmd) (s : State), Starts s ring idx 0x042 c ∧ freezing s c (cmdContext c) = false ∧
      (ctxGet s (cmdContext c)).st = 2 ∧
      csrBit (ctxPut (queueReject (begun s c) (cmdContext c)) (cmdContext c) { ctxGet s (cmdContext c) with st := 0, stall := false, seed := 0, gen := 0 }) 0xF10 27 = false) ∧
    (∃ (ring : Nat) (idx : Nat) (c : Cmd) (s : State), Starts s ring idx 0x042 c ∧ freezing s c (cmdContext c) = false ∧
      (ctxGet s (cmdContext c)).st = 2 ∧
      csrBit (ctxPut (queueReject (begun s c) (cmdContext c)) (cmdContext c) { ctxGet s (cmdContext c) with st := 0, stall := false, seed := 0, gen := 0 }) 0xF10 27 = true) ∧
    (∃ (ring : Nat) (idx : Nat) (c : Cmd) (s : State), Starts s ring idx 0x043 c ∧ (ctxGet s (cmdContext c)).st ≠ 1) :=
  ⟨⟨2, 5, cmdOf 0x030 [(16, 3), (19, 1)], (withCmd up 0x030 [(16, 3), (19, 1)]), by unfold Starts; decide +kernel⟩,
    ⟨2, 5, cmdOf 0x031 [(16, 3)], (withCmd (upCtx { st := 1 }) 0x031 [(16, 3)]), by unfold Starts; decide +kernel⟩,
    ⟨2, 5, cmdOf 0x031 [(18, 1)], (withCmd (upCtx { st := 1 }) 0x031 [(18, 1)]), by unfold Starts; decide +kernel⟩,
    ⟨2, 5, cmdOf 0x032 [(20, 0)], (withCmd (upCsr 0x808 (2 ^ 63)) 0x032 [(20, 0)]), by unfold Starts; decide +kernel⟩,
    ⟨2, 5, cmdOf 0x040 [(16, 3), (18, 2)], (withCmd (upCtx { st := 1, logEn := true }) 0x040 [(16, 3), (18, 2)]),
      by unfold Starts; decide +kernel⟩,
    ⟨2, 5, cmdOf 0x041 [(16, 3)], (withCmd (upCtx { st := 2 }) 0x041 [(16, 3)]), by unfold Starts; decide +kernel⟩,
    ⟨cmdOf 0x041 [(16, 3)], up, by decide +kernel⟩,
    ⟨2, 5, cmdOf 0x041 [(16, 3), (18, 1), (32, 32)], (withCmd (upCtx { st := 2 }) 0x041 [(16, 3), (18, 1), (32, 32)]), [{}],
      by unfold Starts; decide +kernel⟩,
    ⟨2, 5, replayBuf, cmdOf 0x041 [(16, 3), (18, 1), (32, 64), (40, 1)],
      (withCmd { (upCtx { st := 2 }) with arr := (upLast 0x100000000000380 1).arr } 0x041 [(16, 3), (18, 1), (32, 64), (40, 1)]),
      _, _, good_of (by decide +kernel), by unfold Starts; decide +kernel⟩,
    ⟨2, 5, [], cmdOf 0x041 [(16, 3), (18, 1), (32, 32)], (withCmd (upCtx { st := 2 }) 0x041 [(16, 3), (18, 1), (32, 32)]), _,
      bad_of (by decide +kernel), by unfold Starts; decide +kernel⟩,
    ⟨2, 5, cmdOf 0x042 [(16, 3)], (withCmd (csrPut (upCtx { st := 2 }) 0xF10 0) 0x042 [(16, 3)]),
      by unfold Starts; decide +kernel⟩,
    ⟨2, 5, cmdOf 0x042 [(16, 3)], (withCmd (upCtx { st := 2 }) 0x042 [(16, 3)]), by unfold Starts; decide +kernel⟩,
    ⟨2, 5, cmdOf 0x043 [(16, 3)], (withCmd up 0x043 [(16, 3)]), by unfold Starts; decide +kernel⟩⟩

/-- The premises of `Obligations.LastCommands`, clause by clause, can be met. -/
theorem test_meets_LastCommands :
    (∃ (ring : Nat) (idx : Nat) (c : Cmd) (s : State), Starts s ring idx 0x010 c ∧ (leAt c.desc 48 2 % 1024) ≠ 1023 ∧
      (SMap.get {} s.arr.lasts (leAt c.desc 48 2 % 1024)).cond = 0 ∧ defineCheck s (definedRecord s c) = 0 ∧
      rangeBusy s (definedRecord s c).base (definedRecord s c).limit = false) ∧
    (∃ (ring : Nat) (idx : Nat) (c : Cmd) (s : State), Starts s ring idx 0x010 c ∧ (leAt c.desc 48 2 % 1024) ≠ 1023 ∧
      (SMap.get {} s.arr.lasts (leAt c.desc 48 2 % 1024)).cond ≠ 0 ∧
      aCtx (SMap.get {} s.arr.lasts (leAt c.desc 48 2 % 1024)).attr = aCtx (definedRecord s c).attr ∧
      (SMap.get {} s.arr.lasts (leAt c.desc 48 2 % 1024)).base = (definedRecord s c).base ∧
      (SMap.get {} s.arr.lasts (leAt c.desc 48 2 % 1024)).limit = (definedRecord s c).limit ∧
      fixedAttr (SMap.get {} s.arr.lasts (leAt c.desc 48 2 % 1024)).attr = fixedAttr (definedRecord s c).attr ∧
      pinStride (SMap.get {} s.arr.lasts (leAt c.desc 48 2 % 1024)).pin = pinStride (definedRecord s c).pin ∧
      ((aKind (SMap.get {} s.arr.lasts (leAt c.desc 48 2 % 1024)).attr = 2 → aMask (definedRecord s c).attr = 0 ∧
      (aCache (SMap.get {} s.arr.lasts (leAt c.desc 48 2 % 1024)).attr && !aCache (definedRecord s c).attr) = false)) ∧
      (((aCache (SMap.get {} s.arr.lasts (leAt c.desc 48 2 % 1024)).attr && !aCache (definedRecord s c).attr) = true →
      rangeBound s (SMap.get {} s.arr.lasts (leAt c.desc 48 2 % 1024)).base (SMap.get {} s.arr.lasts (leAt c.desc 48 2 % 1024)).limit = false ∧
      aPaired (SMap.get {} s.arr.lasts (leAt c.desc 48 2 % 1024)).attr = false)) ∧
      (((running s c).any fun x => actsOn s x (leAt c.desc 48 2 % 1024)) = false) ∧
      rangeBusy s (SMap.get {} s.arr.lasts (leAt c.desc 48 2 % 1024)).base (SMap.get {} s.arr.lasts (leAt c.desc 48 2 % 1024)).limit = false ∧
      (aCache (SMap.get {} s.arr.lasts (leAt c.desc 48 2 % 1024)).attr = aCache (definedRecord s c).attr ∨ isExpert c = true)) ∧
    (∃ (ring : Nat) (idx : Nat) (c : Cmd) (s : State), Starts s ring idx 0x010 c ∧ (leAt c.desc 48 2 % 1024) ≠ 1023 ∧
      (SMap.get {} s.arr.lasts (leAt c.desc 48 2 % 1024)).cond ≠ 0 ∧
      aCtx (SMap.get {} s.arr.lasts (leAt c.desc 48 2 % 1024)).attr = aCtx (definedRecord s c).attr ∧
      (SMap.get {} s.arr.lasts (leAt c.desc 48 2 % 1024)).base = (definedRecord s c).base ∧
      (SMap.get {} s.arr.lasts (leAt c.desc 48 2 % 1024)).limit = (definedRecord s c).limit ∧
      fixedAttr (SMap.get {} s.arr.lasts (leAt c.desc 48 2 % 1024)).attr = fixedAttr (definedRecord s c).attr ∧
      pinStride (SMap.get {} s.arr.lasts (leAt c.desc 48 2 % 1024)).pin = pinStride (definedRecord s c).pin ∧
      ((aKind (SMap.get {} s.arr.lasts (leAt c.desc 48 2 % 1024)).attr = 2 → aMask (definedRecord s c).attr = 0 ∧
      (aCache (SMap.get {} s.arr.lasts (leAt c.desc 48 2 % 1024)).attr && !aCache (definedRecord s c).attr) = false)) ∧
      (((aCache (SMap.get {} s.arr.lasts (leAt c.desc 48 2 % 1024)).attr && !aCache (definedRecord s c).attr) = true →
      rangeBound s (SMap.get {} s.arr.lasts (leAt c.desc 48 2 % 1024)).base (SMap.get {} s.arr.lasts (leAt c.desc 48 2 % 1024)).limit = false ∧
      aPaired (SMap.get {} s.arr.lasts (leAt c.desc 48 2 % 1024)).attr = false)) ∧
      (((running s c).any fun x => actsOn s x (leAt c.desc 48 2 % 1024)) = false) ∧
      rangeBusy s (SMap.get {} s.arr.lasts (leAt c.desc 48 2 % 1024)).base (SMap.get {} s.arr.lasts (leAt c.desc 48 2 % 1024)).limit = false ∧
      aCache (SMap.get {} s.arr.lasts (leAt c.desc 48 2 % 1024)).attr ≠ aCache (definedRecord s c).attr ∧ isExpert c = false) ∧
    (∃ (ring : Nat) (idx : Nat) (c : Cmd) (s : State), Starts s ring idx 0x011 c ∧ (leAt c.desc 16 2 % 1024) ≠ 1023 ∧
      (SMap.get {} s.arr.lasts (leAt c.desc 16 2 % 1024)).cond ≠ 0 ∧
      aCtx (SMap.get {} s.arr.lasts (leAt c.desc 16 2 % 1024)).attr = leAt c.desc 18 2 % 4096 ∧
      rangeBound s (SMap.get {} s.arr.lasts (leAt c.desc 16 2 % 1024)).base (SMap.get {} s.arr.lasts (leAt c.desc 16 2 % 1024)).limit = false ∧
      ((aDur (SMap.get {} s.arr.lasts (leAt c.desc 16 2 % 1024)).attr = 2 → lockedSlots s (leAt c.desc 16 2 % 1024) = [])) ∧
      (((running s c).any fun x => actsOn s x (leAt c.desc 16 2 % 1024)) = false) ∧
      rangeBusy s (SMap.get {} s.arr.lasts (leAt c.desc 16 2 % 1024)).base (SMap.get {} s.arr.lasts (leAt c.desc 16 2 % 1024)).limit = false) ∧
    (∃ (ring : Nat) (idx : Nat) (c : Cmd) (s : State), Starts s ring idx 0x012 c) ∧
    (∃ (ring : Nat) (idx : Nat) (c : Cmd) (s : State) (bad : List BadBeat), Starts s ring idx 0x013 c ∧
      (lastAt s (leAt c.desc 16 2 % 1024)).cond = 2 ∧ aCtx (lastAt s (leAt c.desc 16 2 % 1024)).attr = leAt c.desc 18 2 % 4096 ∧
      leAt c.desc 24 8 % 32 = 0 ∧ leAt c.desc 32 8 ≠ 0 ∧ leAt c.desc 32 8 % 32 = 0 ∧
      (((running s c).any fun x => actsOn s x (leAt c.desc 16 2 % 1024)) = false) ∧ bad ≠ []) ∧
    (∃ (ring : Nat) (idx : Nat) (input : Bytes) (c : Cmd) (s : State) (recs : List (Nat × LineMask × LineData × Bool × Nat)) (n : Nat),
      replayParse (begun s c) (leAt c.desc 18 2 % 4096) (some (leAt c.desc 16 2 % 1024)) (slice input 0 (leAt c.desc 32 8)) (leAt c.desc 40 4) = .good recs n ∧
      Starts s ring idx 0x013 c ∧ (lastAt s (leAt c.desc 16 2 % 1024)).cond = 2 ∧
      aCtx (lastAt s (leAt c.desc 16 2 % 1024)).attr = leAt c.desc 18 2 % 4096 ∧ leAt c.desc 24 8 % 32 = 0 ∧
      leAt c.desc 32 8 ≠ 0 ∧ leAt c.desc 32 8 % 32 = 0 ∧
      (((running s c).any fun x => actsOn s x (leAt c.desc 16 2 % 1024)) = false) ∧ (leAt c.desc 16 2 % 1024) ≠ 1023) ∧
    (∃ (ring : Nat) (idx : Nat) (input : Bytes) (c : Cmd) (s : State) (seq : Nat),
      replayParse (begun s c) (leAt c.desc 18 2 % 4096) (some (leAt c.desc 16 2 % 1024)) (slice input 0 (leAt c.desc 32 8)) (leAt c.desc 40 4) = .bad seq ∧
      Starts s ring idx 0x013 c ∧ (lastAt s (leAt c.desc 16 2 % 1024)).cond = 2 ∧
      aCtx (lastAt s (leAt c.desc 16 2 % 1024)).attr = leAt c.desc 18 2 % 4096 ∧ leAt c.desc 24 8 % 32 = 0 ∧
      leAt c.desc 32 8 ≠ 0 ∧ leAt c.desc 32 8 % 32 = 0 ∧
      (((running s c).any fun x => actsOn s x (leAt c.desc 16 2 % 1024)) = false)) :=
  ⟨⟨2, 5, cmdOf 0x010 [(16, 2 ^ 20), (24, 2 ^ 21), (32, 2 ^ 56 + 768), (48, 7)], (withCmd up 0x010 [(16, 2 ^ 20), (24, 2 ^ 21),
      (32, 2 ^ 56 + 768), (48, 7)]), by unfold Starts; decide +kernel⟩,
    ⟨2, 5, cmdOf 0x010 [(0, 2 ^ 13), (16, 2 ^ 20), (24, 2 ^ 21), (32, 2 ^ 56 + 768), (48, 7)],
      (withCmd (upLast 0x100000000000300 1) 0x010 [(0, 2 ^ 13), (16, 2 ^ 20), (24, 2 ^ 21), (32, 2 ^ 56 + 768), (48, 7)]),
      by unfold Starts; decide +kernel⟩,
    ⟨2, 5, cmdOf 0x010 [(16, 2 ^ 20), (24, 2 ^ 21), (32, 2 ^ 56 + 768), (48, 7)], (withCmd (upLast 0x300 1) 0x010 [(16, 2 ^ 20),
      (24, 2 ^ 21), (32, 2 ^ 56 + 768), (48, 7)]), by unfold Starts; decide +kernel⟩,
    ⟨2, 5, cmdOf 0x011 [(16, 7), (18, 3)], (withCmd (upLast 0x100000000000300 1) 0x011 [(16, 7), (18, 3)]),
      by unfold Starts; decide +kernel⟩,
    ⟨2, 5, cmdOf 0x012 [(16, 7)], (withCmd up 0x012 [(16, 7)]), by unfold Starts; decide +kernel⟩,
    ⟨2, 5, cmdOf 0x013 [(16, 7), (18, 3), (32, 32)], (withCmd (upLast 0x100000000000300 2) 0x013 [(16, 7), (18, 3), (32, 32)]),
      [{}], by unfold Starts; decide +kernel⟩,
    ⟨2, 5, replayBuf, cmdOf 0x013 [(16, 7), (18, 3), (32, 64), (40, 1)], (withCmd (upLast 0x100000000000300 2) 0x013 [(16, 7),
      (18, 3), (32, 64), (40, 1)]), _, _, good_of (by decide +kernel), by unfold Starts; decide +kernel⟩,
    ⟨2, 5, [], cmdOf 0x013 [(16, 7), (18, 3), (32, 32)], (withCmd (upLast 0x100000000000300 2) 0x013 [(16, 7), (18, 3), (32,
      32)]), _, bad_of (by decide +kernel), by unfold Starts; decide +kernel⟩⟩

/-- The premises of `Obligations.RangeCommands`, clause by clause, can be met. -/
theorem test_meets_RangeCommands :
    (∃ (ring : Nat) (idx : Nat) (c : Cmd) (s : State), Starts s ring idx 0x020 c ∧ rangeCheck c = 0 ∧
      rangeDenied s (rangeBase c) (rangeLen c) (leAt c.desc 34 2 % 4096) = false) ∧
    (∃ (ring : Nat) (idx : Nat) (c : Cmd) (s : State), Starts s ring idx 0x021 c ∧ rangeCheck c = 0 ∧
      rangeDenied s (rangeBase c) (rangeLen c) (leAt c.desc 34 2 % 4096) = false) ∧
    (∃ (ring : Nat) (idx : Nat) (c : Cmd) (s : State), Starts s ring idx 0x022 c ∧ rangeCheck c = 0 ∧
      rangeDenied s (rangeBase c) (rangeLen c) (leAt c.desc 34 2 % 4096) = false) ∧
    (∃ (ring : Nat) (idx : Nat) (c : Cmd) (s : State), Starts s ring idx 0x023 c ∧ rangeCheck c = 0 ∧
      rangeDenied s (rangeBase c) (rangeLen c) (leAt c.desc 34 2 % 4096) = false) ∧
    (∃ (ring : Nat) (idx : Nat) (c : Cmd) (s : State), Starts s ring idx 0x060 c ∧ leAt c.desc 24 2 ≠ 0 ∧
      leAt c.desc 24 2 ≤ 4096 ∧ rangeBase c % 512 = 0 ∧ aCtx (lastAt s (lastOf s (rangeBase c))).attr = leAt c.desc 28 2 % 4096 ∧
      leAt c.desc 26 1 % 2 = 0 ∧ aBaled (lastAt s (lastOf s (rangeBase c))).attr = false ∧
      aKind (lastAt s (lastOf s (rangeBase c))).attr ≠ 1 ∧ aCache (lastAt s (lastOf s (rangeBase c))).attr = true ∧
      rangeBase c + 512 * (bindLines c).length ≤ (lastAt s (lastOf s (rangeBase c))).limit ∧ ((∀ x ∈ bindLines c,
      lastOfLine s x = (lastOf s (rangeBase c)))) ∧ ((∀ w ∈ s.ari.windows, rangeBase c + 512 * (bindLines c).length ≤ w.base ∨
      w.base + 512 * ceilDiv (w.n * ((sheafReadFmt w.rf).width / 8)) 512 ≤ rangeBase c)) ∧
      (sheafFit s (ceilDiv (leAt c.desc 24 2) 64)).isSome = true ∧ ((bindLines c).any (noWayFor s (bindLines c))) = false ∧
      (lastAt s (lastOf s (rangeBase c))).cond = 1) ∧
    (∃ (ring : Nat) (idx : Nat) (c : Cmd) (s : State) (w : Window) (x : Cmd), Starts s ring idx 0x061 c ∧ windowAt s c = some w ∧
      aCtx (lastAt s w.last).attr = leAt c.desc 28 2 % 4096 ∧ s.hl.suspect = false ∧
      (((running s c).any fun x => x.code == 0x061 && rangeBase x == w.base) = false) ∧
      atomWaits s ((List.range (ceilDiv (w.n * ((sheafReadFmt w.rf).width / 8)) 512)).map (w.base / 512 + ·)) = false ∧
      badSheaf s w = none ∧ w.lost = false ∧ x.n = c.n) ∧
    (∃ (ring : Nat) (idx : Nat) (c : Cmd) (s : State) (w : Window), Starts s ring idx 0x061 c ∧ windowAt s c = some w ∧
      aCtx (lastAt s w.last).attr = leAt c.desc 28 2 % 4096 ∧ s.hl.suspect = false ∧
      (((running s c).any fun x => x.code == 0x061 && rangeBase x == w.base) = false) ∧
      atomWaits s ((List.range (ceilDiv (w.n * ((sheafReadFmt w.rf).width / 8)) 512)).map (w.base / 512 + ·)) = false ∧
      badSheaf s w = none ∧ w.lost = false ∧ (leAt c.desc 24 1).testBit 0 = true) ∧
    (∃ (ring : Nat) (idx : Nat) (c : Cmd) (s : State) (w : Window) (x : Window), Starts s ring idx 0x061 c ∧
      windowAt s c = some w ∧ aCtx (lastAt s w.last).attr = leAt c.desc 28 2 % 4096 ∧ s.hl.suspect = false ∧
      (((running s c).any fun x => x.code == 0x061 && rangeBase x == w.base) = false) ∧
      atomWaits s ((List.range (ceilDiv (w.n * ((sheafReadFmt w.rf).width / 8)) 512)).map (w.base / 512 + ·)) = false ∧
      badSheaf s w = none ∧ w.lost = false ∧ (leAt c.desc 24 1).testBit 0 = false ∧ x.base = w.base) ∧
    (∃ (ring : Nat) (idx : Nat) (c : Cmd) (s : State) (w : Window), Starts s ring idx 0x062 c ∧ windowAt s c = some w ∧
      aCtx (lastAt s w.last).attr = leAt c.desc 28 2 % 4096 ∧
      (((running s c).any fun x => x.code == 0x061 && rangeBase x == w.base) = false)) ∧
    (∃ (ring : Nat) (idx : Nat) (c : Cmd) (s : State), Starts s ring idx 0x063 c ∧ 0 < leAt c.desc 24 4 ∧
      leAt c.desc 24 4 ≤ 2 ^ 24 ∧ rangeBase c % 512 = 0 ∧ ((isExpert c = true → 0 < leAt c.desc 28 4 ∧
      leAt c.desc 28 4 ≤ 2 ^ 20)) ∧
      ((∀ l ∈ ((List.range (leAt c.desc 24 4)).map (fun m => rangeBase c / 512 + m * (if isExpert c then leAt c.desc 28 4 else 1))),
      aCtx (lastAt s (lastOfLine s l)).attr = leAt c.desc 34 2 % 4096)) ∧ s.hl.suspect = false) ∧
    (∃ (ring : Nat) (idx : Nat) (c : Cmd) (s : State), Starts s ring idx 0x070 c ∧ csrBit s 0x600 0 = true ∧
      flipBase c % 2 ^ pageShift s = 0 ∧ flipLen c ≠ 0 ∧ flipLen c % 2 ^ pageShift s = 0 ∧ csrFld s 0x610 51 0 ≤ flipBase c ∧
      flipBase c + flipLen c ≤ csrFld s 0x618 51 0) :=
  ⟨⟨2, 5, cmdOf 0x020 [(16, 2 ^ 20), (24, 512)], (withCmd up 0x020 [(16, 2 ^ 20), (24, 512)]), by unfold Starts; decide +kernel⟩,
    ⟨2, 5, cmdOf 0x021 [(16, 2 ^ 20), (24, 512)], (withCmd up 0x021 [(16, 2 ^ 20), (24, 512)]), by unfold Starts; decide +kernel⟩,
    ⟨2, 5, cmdOf 0x022 [(16, 2 ^ 20), (24, 512)], (withCmd up 0x022 [(16, 2 ^ 20), (24, 512)]), by unfold Starts; decide +kernel⟩,
    ⟨2, 5, cmdOf 0x023 [(16, 2 ^ 20), (24, 512)], (withCmd up 0x023 [(16, 2 ^ 20), (24, 512)]), by unfold Starts; decide +kernel⟩,
    ⟨2, 5, cmdOf 0x060 [(16, 2 ^ 20), (24, 64), (26, 2)], (withCmd up 0x060 [(16, 2 ^ 20), (24, 64), (26, 2)]),
      by unfold Starts; decide +kernel⟩,
    ⟨2, 5, cmdOf 0x061 [(16, 2 ^ 20)], (withCmd (withWindow up) 0x061 [(16, 2 ^ 20)]), { base := 2 ^ 20, n := 64, count := 64 },
      cmdOf 0x061 [(16, 2 ^ 20)], by unfold Starts; decide +kernel⟩,
    ⟨2, 5, cmdOf 0x061 [(16, 2 ^ 20), (24, 1)], (withCmd (withWindow up) 0x061 [(16, 2 ^ 20), (24, 1)]),
      { base := 2 ^ 20, n := 64, count := 64 }, by unfold Starts; decide +kernel⟩,
    ⟨2, 5, cmdOf 0x061 [(16, 2 ^ 20)], (withCmd (withWindow up) 0x061 [(16, 2 ^ 20)]), { base := 2 ^ 20, n := 64, count := 64 },
      { base := 2 ^ 20, n := 64, count := 64 }, by unfold Starts; decide +kernel⟩,
    ⟨2, 5, cmdOf 0x062 [(16, 2 ^ 20)], (withCmd (withWindow up) 0x062 [(16, 2 ^ 20)]), { base := 2 ^ 20, n := 64, count := 64 },
      by unfold Starts; decide +kernel⟩,
    ⟨2, 5, cmdOf 0x063 [(16, 2 ^ 20), (24, 2)], (withCmd up 0x063 [(16, 2 ^ 20), (24, 2)]), by unfold Starts; decide +kernel⟩,
    ⟨2, 5, cmdOf 0x070 [(16, 4096), (24, 4096)], (withCmd (csrPut (csrPut (csrPut up 0x600 1) 0x610 0) 0x618 (2 ^ 21)) 0x070 [(16,
      4096), (24, 4096)]), by unfold Starts; decide +kernel⟩⟩

/-- The premises of `Obligations.PlanAndUnitCommands`, clause by clause, can be met. -/
theorem test_meets_PlanAndUnitCommands :
    (∃ (ring : Nat) (idx : Nat) (c : Cmd) (s : State) (bad : List BadBeat), Starts s ring idx 0x050 c ∧ s.pl.st ≠ 3 ∧
      s.pl.switchCmd = none ∧ bad ≠ []) ∧
    (∃ (ring : Nat) (idx : Nat) (input : Bytes) (c : Cmd) (s : State) (k : Nat) (i : Nat), Starts s ring idx 0x050 c ∧
      s.pl.st ≠ 3 ∧ s.pl.switchCmd = none ∧ imageCheck (slice input 0 (imageSpan input)) (leAt c.desc 24 4) = .bad k i) ∧
    (∃ (ring : Nat) (idx : Nat) (input : Bytes) (c : Cmd) (s : State),
      imageCheck (slice input 0 (imageSpan input)) (leAt c.desc 24 4) = .good ∧ Starts s ring idx 0x050 c ∧ s.pl.st ≠ 3 ∧
      s.pl.switchCmd = none) ∧
    (∃ (ring : Nat) (idx : Nat) (c : Cmd) (s : State), Starts s ring idx 0x051 c ∧ (leAt c.desc 16 1).testBit 0 = false ∧
      s.pl.st = 0 ∧ (planBank s s.pl.active).valid = true ∧ s.pw.planLock = true) ∧
    (∃ (ring : Nat) (idx : Nat) (c : Cmd) (s : State), Starts s ring idx 0x051 c ∧ (leAt c.desc 16 1).testBit 0 = true ∧
      s.pl.st ≤ 2 ∧ s.pl.switchCmd = none ∧ s.pl.shadowValid = true ∧ s.pw.planLock = true) ∧
    (∃ (ring : Nat) (idx : Nat) (c : Cmd) (s : State), Starts s ring idx 0x052 c ∧ s.pl.st = 0) ∧
    (∃ (ring : Nat) (idx : Nat) (c : Cmd) (s : State), Starts s ring idx 0x052 c ∧ s.pl.st ≠ 0) ∧
    (∃ (ring : Nat) (idx : Nat) (c : Cmd) (s : State), Starts s ring idx 0x080 c ∧ s.tt.link = 2 ∧ s.pr.st = 2) ∧
    (∃ (ring : Nat) (idx : Nat) (c : Cmd) (s : State), Starts s ring idx 0x081 c ∧ s.pr.st = 2 ∧
      leAt c.desc 16 4 % 2 ^ 18 = s.pr.fellowId) ∧
    (∃ (ring : Nat) (idx : Nat) (c : Cmd) (s : State), Starts s ring idx 0x090 c ∧ (leAt c.desc 25 1).testBit 0 = false ∧
      (((leAt c.desc 24 1).testBit 7 = true → SMap.get [] s.hl.packs (leAt c.desc 24 1 % 4) ≠ [])) ∧
      (leAt c.desc 24 1).testBit 7 = false) ∧
    (∃ (ring : Nat) (idx : Nat) (c : Cmd) (s : State), Starts s ring idx 0x090 c ∧ (leAt c.desc 25 1).testBit 0 = true ∧
      (((leAt c.desc 24 1).testBit 7 = true → SMap.get [] s.hl.packs (leAt c.desc 24 1 % 4) ≠ [])) ∧ s.pl.st = 0 ∧
      s.hl.stress = 0) ∧
    (∃ (ring : Nat) (idx : Nat) (c : Cmd) (s : State) (bad : List BadBeat), Starts s ring idx 0x091 c ∧
      tableLenBad (leAt c.desc 24 4) = false ∧ leAt c.desc 16 8 % 64 = 0 ∧ bad ≠ []) ∧
    (∃ (ring : Nat) (idx : Nat) (input : Bytes) (c : Cmd) (s : State), Starts s ring idx 0x091 c ∧
      tableLenBad (leAt c.desc 24 4) = false ∧ leAt c.desc 16 8 % 64 = 0 ∧
      leAt (slice input 0 (leAt c.desc 24 4)) 0 4 = 0x4B505244 ∧ 0 < leAt (slice input 0 (leAt c.desc 24 4)) 8 2 ∧
      leAt (slice input 0 (leAt c.desc 24 4)) 8 2 ≤ 496 ∧ leAt (slice input 0 (leAt c.desc 24 4)) 10 2 ≤ s.pw.romBuild ∧
      leAt c.desc 24 4 = ceilDiv (64 + 32 * leAt (slice input 0 (leAt c.desc 24 4)) 8 2) 64 * 64 + 256 ∧
      leAt (slice input 0 (leAt c.desc 24 4)) 12 2 = 256) ∧
    (∃ (ring : Nat) (idx : Nat) (c : Cmd) (s : State) (bad : List BadBeat), Starts s ring idx 0x0A0 c ∧ s.rg.patched = false ∧
      c.late = false ∧ tableLenBad (leAt c.desc 24 4) = false ∧ leAt c.desc 16 8 % 64 = 0 ∧ bad ≠ []) ∧
    (∃ (ring : Nat) (idx : Nat) (input : Bytes) (c : Cmd) (s : State), Starts s ring idx 0x0A0 c ∧ s.rg.patched = false ∧
      c.late = false ∧ tableLenBad (leAt c.desc 24 4) = false ∧ leAt c.desc 16 8 % 64 = 0 ∧
      leAt (slice input 0 (leAt c.desc 24 4)) 0 4 = 0x48545044 ∧ 0 < leAt (slice input 0 (leAt c.desc 24 4)) 6 1 ∧
      leAt (slice input 0 (leAt c.desc 24 4)) 6 1 ≤ 64 ∧
      leAt c.desc 24 4 = ceilDiv (64 + leAt (slice input 0 (leAt c.desc 24 4)) 8 4) 64 * 64 + 256) ∧
    (∃ (ring : Nat) (idx : Nat) (c : Cmd) (s : State), Starts s ring idx 0x0A1 c ∧ s.hl.rState ≤ 1) :=
  ⟨⟨2, 5, cmdOf 0x050 [], (withCmd up 0x050 []), [{}], by unfold Starts; decide +kernel⟩,
    ⟨2, 5, [], cmdOf 0x050 [(24, 4176)], (withCmd up 0x050 [(24, 4176)]), 1, 0, by unfold Starts; decide +kernel⟩,
    ⟨2, 5, planImage, cmdOf 0x050 [(24, 4176)], (withCmd up 0x050 [(24, 4176)]), planImage_checked,
      by unfold Starts; decide +kernel⟩,
    ⟨2, 5, cmdOf 0x051 [], (withCmd (upPlan 0 fun p => p) 0x051 []), by unfold Starts; decide +kernel⟩,
    ⟨2, 5, cmdOf 0x051 [(16, 1)], (withCmd (upPlan 0 fun p => { p with shadowValid := true }) 0x051 [(16, 1)]),
      by unfold Starts; decide +kernel⟩,
    ⟨2, 5, cmdOf 0x052 [], (withCmd up 0x052 []), by unfold Starts; decide +kernel⟩,
    ⟨2, 5, cmdOf 0x052 [], (withCmd { up with pl := { up.pl with st := 2 } } 0x052 []), by unfold Starts; decide +kernel⟩,
    ⟨2, 5, cmdOf 0x080 [], (withCmd { up with tt := { up.tt with link := 2 }, pr := { up.pr with st := 2 } } 0x080 []),
      by unfold Starts; decide +kernel⟩,
    ⟨2, 5, cmdOf 0x081 [(16, 77)], (withCmd { up with pr := { up.pr with st := 2, fellowId := 77 } } 0x081 [(16, 77)]),
      by unfold Starts; decide +kernel⟩,
    ⟨2, 5, cmdOf 0x090 [], (withCmd up 0x090 []), by unfold Starts; decide +kernel⟩,
    ⟨2, 5, cmdOf 0x090 [(25, 1)], (withCmd up 0x090 [(25, 1)]), by unfold Starts; decide +kernel⟩,
    ⟨2, 5, cmdOf 0x091 [(24, 384)], (withCmd up 0x091 [(24, 384)]), [{}], by unfold Starts; decide +kernel⟩,
    ⟨2, 5, leBytes 384 (0x4B505244 + 2 ^ 64 + 256 * 2 ^ 96), cmdOf 0x091 [(24, 384)], (withCmd up 0x091 [(24, 384)]),
      by unfold Starts; decide +kernel⟩,
    ⟨2, 5, cmdOf 0x0A0 [(24, 384)], (withCmd up 0x0A0 [(24, 384)]), [{}], by unfold Starts; decide +kernel⟩,
    ⟨2, 5, leBytes 384 (0x48545044 + 2 ^ 48 + 64 * 2 ^ 64), cmdOf 0x0A0 [(24, 384)], (withCmd up 0x0A0 [(24, 384)]),
      by unfold Starts; decide +kernel⟩,
    ⟨2, 5, cmdOf 0x0A1 [], (withCmd up 0x0A1 []), by unfold Starts; decide +kernel⟩⟩

/-- The premises of `Obligations.RingRows`, clause by clause, can be met. -/
theorem test_meets_RingRows :
    (∃ (n : Nat) (s : State), s.hd.fenced = false ∧ (s.pw.pstate = 2 ∨ s.pw.pstate = 5) ∧ (ringGet s n).watch ≠ 1) ∧
    (∃ (n : Nat) (s : State), s.hd.fenced = false ∧ (s.pw.pstate = 2 ∨ s.pw.pstate = 5) ∧ (ringGet s n).watch = 1) ∧
    (∃ (n : Nat) (idx : Nat) (s : State) (status : Nat), s.hd.fenced = false ∧ (s.pw.pstate = 2 ∨ s.pw.pstate = 5) ∧
      idx ∈ (ringGet s n).fetched ∧ ringEnabled s n = true ∧ (ringGet s n).parked = 0 ∧ (status = St.dataError ∨
      status = St.dataLost)) ∧
    (∃ (n : Nat) (idx : Nat) (s : State), ((∀ e ∈ (ringGet s n).early, e.1 ≠ idx)) ∧ s.hd.fenced = false ∧ (s.pw.pstate = 2 ∨
      s.pw.pstate = 5) ∧ idx ∈ (ringGet s n).fetched ∧ ringEnabled s n = true ∧ (ringGet s n).parked = 0 ∧
      idx ≠ (ringGet s n).cons) ∧
    (∃ (n : Nat) (idx : Nat) (d : Bytes) (s : State), s.hd.fenced = false ∧ (s.pw.pstate = 2 ∨ s.pw.pstate = 5) ∧
      idx ∈ (ringGet s n).fetched ∧ ringEnabled s n = true ∧ (ringGet s n).parked = 0 ∧ idx = (ringGet s n).cons ∧
      (ringGet s n).offer = none ∧ (ringGet s n).behind = false ∧ descMatches s n idx d = true) ∧
    (∃ (n : Nat) (idx : Nat) (d : Bytes) (s : State), s.hd.fenced = false ∧ (s.pw.pstate = 2 ∨ s.pw.pstate = 5) ∧
      idx ∈ (ringGet s n).fetched ∧ ringEnabled s n = true ∧ (ringGet s n).parked = 0 ∧ idx = (ringGet s n).cons ∧
      (ringGet s n).offer = none ∧ (ringGet s n).behind = false ∧ descMatches s n idx d = false) ∧
    (∃ (n : Nat) (d : Bytes) (s : State), s.hd.fenced = false ∧ (s.pw.pstate = 2 ∨ s.pw.pstate = 5) ∧
      (ringGet s n).behind = true ∧ (ringGet s n).rereads = 8 ∧ (ringGet s n).rereadOut = 1 ∧ ringEnabled s n = true ∧
      (ringGet s n).parked = 0 ∧ (ringGet s n).offer = none ∧ descMatches s n (ringGet s n).cons d = false) ∧
    (∃ (n : Nat) (s : State), serving s = true ∧ (ringGet s n).behind = true ∧ (ringGet s n).rereads < 8 ∧
      (ringGet s n).parked = 0 ∧ s.txq = [] ∧ portsHalt s = false ∧ SMap.get 0 s.credits 11 ≠ 0) ∧
    (∃ (n : Nat) (s : State), ((ringGet s n).behind = false ∨ 8 ≤ (ringGet s n).rereads)) ∧
    (∃ (ring : Nat) (idx : Nat) (c : Cmd) (s : State),
      ((s.rg.cmds.find? fun c => c.ring == ring && c.idx == idx && c.done) = some c) ∧ mayPost s c = true ∧ s.pw.pstate ≠ 5 ∧
      s.txq = [] ∧ portsHalt s = false ∧ SMap.get 0 s.credits 11 ≠ 0) ∧
    (∃ (ring : Nat) (idx : Nat) (s : State), ((∀ c ∈ s.rg.cmds, c.ring = ring → c.idx = idx → mayPost s c = false))) ∧
    (∃ (m : Msg) (s : State) (n : Nat), Taken s m ∧ m.mod = 0 ∧ m.size = 63 ∧ m.addr % 64 = 0 ∧ watchers s m.addr = [n] ∧
      (ringGet s n).watch = 1) ∧
    (∃ (m : Msg) (s : State) (n : Nat), Taken s m ∧ m.mod = 0 ∧ m.size = 63 ∧ m.addr % 64 = 0 ∧ watchers s m.addr = [n] ∧
      (ringGet s n).watch ≠ 1) :=
  ⟨⟨2, up, by decide +kernel⟩,
    ⟨2, { upCsr (0x1018 + 128) (2 ^ 31) with rg := { up.rg with rings := [(2, { watch := 1 })] } }, by decide +kernel⟩,
    ⟨2, 5, { upCsr (0x1018 + 128) (2 ^ 31) with rg := { up.rg with rings := [(2, { fetched := [5] })] } }, St.dataLost,
      by decide +kernel⟩,
    ⟨2, 6, { upCsr (0x1018 + 128) (2 ^ 31) with rg := { up.rg with rings := [(2, { fetched := [5, 6], cons := 5 })] } }, nofun,
      by decide +kernel⟩,
    ⟨2, 5, (leBytes 64 (2 ^ 63 + 5 * 2 ^ 32 + 5 * 2 ^ 496)),
      { upCsr (0x1018 + 128) (2 ^ 31) with rg := { up.rg with rings := [(2, { fetched := [5], cons := 5 })] } },
      by decide +kernel⟩,
    ⟨2, 5, [], { upCsr (0x1018 + 128) (2 ^ 31) with rg := { up.rg with rings := [(2, { fetched := [5], cons := 5 })] } },
      by decide +kernel⟩,
    ⟨2, [], { upCsr (0x1018 + 128) (2 ^ 31) with rg := { up.rg with rings := [(2, { behind := true, rereads := 8, rereadOut := 1 })] } },
      by decide +kernel⟩,
    ⟨2, { upCsr (0x1018 + 128) (2 ^ 31) with rg := { up.rg with rings := [(2, { behind := true, rereads := 7 })] } },
      by decide +kernel⟩,
    ⟨2, up, by decide +kernel⟩,
    ⟨2, 5, { n := 1, ring := 2, idx := 5, done := true },
      { up with rg := { up.rg with cmds := [{ n := 1, ring := 2, idx := 5, done := true }], n := 2 } }, by decide +kernel⟩,
    ⟨2, 5, up, nofun⟩,
    ⟨{ port := .hst, src := 5, tag := 9, size := 63, addr := 0 },
      { upCsr (0x1018 + 128) (2 ^ 31) with rg := { up.rg with rings := [(2, { watch := 1 })] } }, 2,
      by unfold Taken; decide +kernel⟩,
    ⟨{ port := .hst, src := 5, tag := 9, size := 63, addr := 0 },
      { upCsr (0x1018 + 128) (2 ^ 31) with rg := { up.rg with rings := [(2, { watch := 2 })] } }, 2,
      by unfold Taken; decide +kernel⟩⟩

/-- The premises of `Obligations.SealAndDrainRows`, clause by clause, can be met. -/
theorem test_meets_SealAndDrainRows :
    (∃ (w : SealWait) (rest : List SealWait) (ctx : Nat) (s : State), serving s = true ∧ s.gen.seals = w :: rest ∧
      w.ctxs = [ctx] ∧ (((advance (sealSteps s w.ctxs)).gen.drains.filter fun d => d.ctx == ctx).length < 2) ∧
      sealHeld (advance (sealSteps s w.ctxs)) w = false) ∧
    (∃ (w : SealWait) (rest : List SealWait) (ctx : Nat) (s : State), serving s = true ∧ s.gen.seals = w :: rest ∧
      w.ctxs = [ctx] ∧ sealHeld (advance (sealSteps s w.ctxs)) w = false ∧ ctx ∉ (advance (sealSteps s w.ctxs)).pr.resyncCtx) ∧
    (∃ (w : SealWait) (rest : List SealWait) (s : State), (sealHeld (advance (sealSteps s w.ctxs)) w = true ∨ (∃ t,
      (advance (sealSteps s w.ctxs)).gen.lastSeal = some t ∧ tsNs (advance (sealSteps s w.ctxs)) < t + 100000) ∨ (∃ c ∈ w.ctxs,
      2 ≤ ((advance (sealSteps s w.ctxs)).gen.drains.filter fun d => d.ctx == c).length)) ∧ serving s = true ∧
      s.gen.seals = w :: rest) ∧
    (∃ (s : State), (serving s = false ∨ s.gen.seals = [])) ∧
    (∃ (ctx : Nat) (gen : Nat) (d : Drain) (s : State) (v : State),
      logRecord s ctx d.gen 0 false false 0 4 (endField d.carried d.records) 0 = (v, true) ∧ serving s = true ∧
      drainOf s ctx (BitVec.ofNat 32 gen) = some d ∧ d.sealed = true ∧ d.todo = [] ∧ bufHolds s ctx d.gen = false ∧
      evictLogs s ctx d.gen = false ∧ logWriting s ctx gen = false ∧ (d.lag && !d.lagOk && paired s) = false) ∧
    (∃ (ctx : Nat) (gen : Nat) (s : State), ((∀ d, drainOf s ctx (BitVec.ofNat 32 gen) = some d → d.sealed = false ∨ d.todo ≠ [] ∨
      logWriting s ctx gen = true ∨ bufHolds s ctx d.gen = true ∨ evictLogs s ctx d.gen = true ∨
      (d.lag && !d.lagOk && paired s) = true))) :=
  ⟨⟨{ cmd := 1, ctxs := [3] }, [], 3, { up with gen := { up.gen with seals := [{ cmd := 1, ctxs := [3] }] } }, by decide +kernel⟩,
    ⟨{ cmd := 1, ctxs := [3] }, [], 3, { up with gen := { up.gen with seals := [{ cmd := 1, ctxs := [3] }] } }, by decide +kernel⟩,
    ⟨{ cmd := 1, ctxs := [3] }, [], { up with gen := { up.gen with seals := [{ cmd := 1, ctxs := [3] }], lastSeal := some 0 } },
      .inr (.inl ⟨0, by decide +kernel, by decide +kernel⟩), by decide +kernel⟩,
    ⟨up, by decide +kernel⟩,
    ⟨3, 5, { ctx := 3, gen := 5, tag := 1, sealed := true }, upDrain,
      (logRecord upDrain 3 5 0 false false 0 4 (endField 0 0) 0).1, pair_of (by decide +kernel), by decide +kernel⟩,
    ⟨3, 5, up, nofun⟩⟩

/-- The premises of `Obligations.MemReadFills`, clause by clause, can be met. -/
theorem test_meets_MemReadFills :
    (∃ (s : State) (tag : Nat) (beat : Nat) (line : Nat) (r : MemRd) (m : Mhe), Settled s ∧ serving s = true ∧
      csrBit s 0xC10 63 = false ∧ beat < 4 ∧ ((s.arr.memRds.find? fun r => r.tag == tag) = some r) ∧ r.for_ = .fill line ∧
      r.beats = 4 ∧ r.bad = 0 ∧ mheOf s line = some m ∧ m.reads = [] ∧ m.upset = false ∧
      (r.got ||| BitVec.ofNat 4 (2 ^ beat)) ≠ 15) ∧
    (∃ (s : State) (tag : Nat) (beat : Nat) (line : Nat) (r : MemRd) (m : Mhe) (k : Nat) (j : Nat), Settled s ∧ serving s = true ∧
      csrBit s 0xC10 63 = false ∧ beat < 4 ∧ ((s.arr.memRds.find? fun r => r.tag == tag) = some r) ∧ r.for_ = .fill line ∧
      r.beats = 4 ∧ r.bad = 0 ∧ mheOf s line = some m ∧ m.reads = [] ∧ m.upset = false ∧
      (r.got ||| BitVec.ofNat 4 (2 ^ beat)) = 15 ∧ m.kind ∈ [.demand, .nextLine, .stream, .prefetch] ∧ m.wmask = 0 ∧
      (lastAt s m.last).cond = 1 ∧ m.slot = some k ∧ (lineAt s k).filling = true ∧ (lineAt s k).addr = line ∧ j ≠ k) :=
  ⟨⟨{ up with arr := { up.arr with memRds := [{ tag := 4, addr := 1536, got := 1, for_ := .fill 3 }], mhes := [{ line := 3, slot := some upSlot }], lines := [(upSlot, { upLine with filling := true, last := 1023 })] } },
      4, 3, 3, { tag := 4, addr := 1536, got := 1, for_ := .fill 3 }, { line := 3, slot := some upSlot },
      settled_of (by decide +kernel), by decide +kernel⟩,
    ⟨{ up with arr := { up.arr with memRds := [{ tag := 4, addr := 1536, got := 7, for_ := .fill 3 }], mhes := [{ line := 3, slot := some upSlot }], lines := [(upSlot, { upLine with filling := true, last := 1023 })] } },
      4, 3, 3, { tag := 4, addr := 1536, got := 7, for_ := .fill 3 }, { line := 3, slot := some upSlot }, upSlot, 0,
      settled_of (by decide +kernel), by decide +kernel⟩⟩

/-- The premises of `Obligations.MemRows`, clause by clause, can be met. -/
theorem test_meets_MemRows :
    (∃ (s : State) (tag : Nat) (beat : Nat) (line : Nat) (r : MemRd) (m : Mhe), serving s = true ∧ beat < 4 ∧
      ((s.arr.memRds.find? fun r => r.tag == tag) = some r) ∧ r.for_ = .fill line ∧ r.beats = 4 ∧ mheOf s line = some m ∧
      m.kind ≠ .stage) ∧
    (∃ (s : State) (tag : Nat) (line : Nat) (w : MemWr), Settled s ∧ serving s = true ∧
      ((s.arr.memWrs.find? fun w => w.tag == tag && !w.accepted) = some w) ∧ w.for_ = .evict line) ∧
    (∃ (s : State) (tag : Nat) (w : MemWr), Settled s ∧ serving s = true ∧ s.arr.memq = [] ∧
      ((s.arr.memWrs.find? fun w => w.tag == tag) = some w) ∧ w.drop = false ∧ w.for_ = .none) ∧
    (∃ (s : State) (tag : Nat) (w : MemWr) (o : Op), Settled s ∧ serving s = true ∧ s.arr.memq = [] ∧
      ((s.arr.memWrs.find? fun w => w.tag == tag) = some w) ∧ w.drop = false ∧ w.for_ = .req o ∧ w.accepted = true) ∧
    (∃ (s : State), serving s = true ∧ mergeOpen s = []) ∧
    (∃ (s : State) (m : Merge) (ms : List Merge), serving s = true ∧ mergeOpen s = m :: ms) ∧
    (∃ (s : State) (line : Nat) (o : OpenLine) (k : Nat), Settled s ∧ serving s = true ∧ csrBit s 0xC10 63 = false ∧
      openOf s line = some o ∧ k ≠ o.slot) ∧
    (∃ (s : State) (line : Nat), Settled s ∧ serving s = true ∧ openOf s line = none) ∧
    (∃ (s : State) (p : Port) (cls : Nat) (o : Out) (rest : List (Nat × Out)), s.pw.pstate ≠ 0 ∧ (p = .ctl ∨ p = .hst ∨
      p = .blk) ∧ portsHalt s = false ∧ takeFirst (channel p cls) s.txq = some (o, rest)) ∧
    (∃ (s : State) (p : Port) (cls : Nat), s.pw.pstate ≠ 0 ∧ (p = .ctl ∨ p = .hst ∨ p = .blk) ∧ (portsHalt s = true ∨
      takeFirst (channel p cls) s.txq = none)) ∧
    (∃ (s : State) (cls : Nat), Settled s ∧ serving s = true ∧ s.arr.memq = [] ∧ takeFirst (17 + cls % 2) s.txq = none) ∧
    (∃ (s : State) (p : Port), (p = .syn ∨ p = .tth ∨ p = .hdr ∨ s.pw.pstate = 0)) :=
  ⟨⟨{ up with arr := { up.arr with memRds := [{ tag := 4, addr := 1536, got := 1, for_ := .fill 3 }], mhes := [{ line := 3, slot := some upSlot }], lines := [(upSlot, { upLine with filling := true, last := 1023 })] } },
      4, 3, 3, { tag := 4, addr := 1536, got := 1, for_ := .fill 3 }, { line := 3, slot := some upSlot }, by decide +kernel⟩,
    ⟨{ up with arr := { up.arr with memWrs := [{ tag := 6, for_ := .evict 3 }] } }, 6, 3, { tag := 6, for_ := .evict 3 },
      settled_of (by decide +kernel), by decide +kernel⟩,
    ⟨{ up with arr := { up.arr with memWrs := [{ tag := 6 }] } }, 6, { tag := 6 }, settled_of (by decide +kernel),
      by decide +kernel⟩,
    ⟨{ up with arr := { up.arr with memWrs := [{ tag := 6, for_ := .req {}, accepted := true }] } }, 6,
      { tag := 6, for_ := .req {}, accepted := true }, {}, settled_of (by decide +kernel), by decide +kernel⟩,
    ⟨up, by decide +kernel⟩,
    ⟨{ up with arr := { up.arr with merges := [{ n := 1 }] } }, { n := 1 }, [], by decide +kernel⟩,
    ⟨{ up with arr := { up.arr with opens := [{ line := 3, slot := upSlot }] } }, 3, { line := 3, slot := upSlot }, 0,
      settled_of (by decide +kernel), by decide +kernel⟩,
    ⟨up, 3, settled_of (by decide +kernel), by decide +kernel⟩,
    ⟨{ up with txq := [(1, .msg .ctl {})] }, .ctl, 1, .msg .ctl {}, [], by decide +kernel⟩,
    ⟨up, .blk, 0, by decide +kernel⟩,
    ⟨up, 1, settled_of (by decide +kernel), by decide +kernel⟩,
    ⟨up, .hdr, by decide +kernel⟩⟩

/-- The premises of `Obligations.MemHeld`, clause by clause, can be met. -/
theorem test_meets_MemHeld :
    (∃ (c : Instr) (s : State), ((∃ tag beat status bad bytes, c = .memReadReturn tag beat status bad bytes) ∨ (∃ tag beat,
      c = .memReplay tag beat) ∨ (∃ tag, c = .memWriteCompletion tag) ∨ (∃ tag, c = .evictionWritebackAccepted tag)) ∧
      (s.pw.coreDown = true ∨ (∀ tag, c ≠ .memWriteCompletion tag ∧ c ≠ .evictionWritebackAccepted tag)) ∧ s.hd.fenced = true) ∧
    (∃ (c : Instr) (s : State), ((∃ tag beat status bad bytes, c = .memReadReturn tag beat status bad bytes) ∨ (∃ tag beat,
      c = .memReplay tag beat) ∨ (∃ tag, c = .memWriteCompletion tag) ∨ (∃ tag, c = .evictionWritebackAccepted tag)) ∧
      s.hd.fenced = true ∧ s.pw.coreDown = false) ∧
    (∃ (c : Instr) (s : State), ((∃ tag beat status bad bytes, c = .memReadReturn tag beat status bad bytes) ∨ (∃ tag beat,
      c = .memReplay tag beat) ∨ (∃ tag, c = .memWriteCompletion tag) ∨ (∃ tag, c = .evictionWritebackAccepted tag)) ∧
      s.hd.fenced = false ∧ (s.pw.pstate = 3 ∨ (s.pw.pstate = 4 ∧ s.pw.coreDown = false))) ∧
    (∃ (c : Instr) (s : State), ((∃ tag beat status bad bytes, c = .memReadReturn tag beat status bad bytes) ∨ (∃ tag beat,
      c = .memReplay tag beat) ∨ (∃ tag, c = .memWriteCompletion tag) ∨ (∃ tag, c = .evictionWritebackAccepted tag)) ∧
      s.hd.fenced = false ∧ (s.pw.pstate ≤ 1 ∨ (s.pw.pstate = 4 ∧ s.pw.coreDown = true))) :=
  ⟨⟨.memWriteCompletion 6,
      { upPw (fun p => { p with pstate := 6, ready := false, coreDown := true }) with hd := { up.hd with fenced := true } },
      .inr (.inr (.inl ⟨6, rfl⟩)), .inl (by decide +kernel), by decide +kernel⟩,
    ⟨.memWriteCompletion 6, { upPw (fun p => { p with pstate := 6, ready := false }) with hd := { up.hd with fenced := true } },
      .inr (.inr (.inl ⟨6, rfl⟩)), by decide +kernel⟩,
    ⟨.memWriteCompletion 6, (upPw fun p => { p with pstate := 3 }), .inr (.inr (.inl ⟨6, rfl⟩)), by decide +kernel⟩,
    ⟨.memWriteCompletion 6, (upPw fun p => { p with pstate := 4, coreDown := true }), .inr (.inr (.inl ⟨6, rfl⟩)),
      by decide +kernel⟩⟩

/-- The premises of `Obligations.PlanInputRows`, clause by clause, can be met. -/
theorem test_meets_PlanInputRows :
    (∃ (s : State) (word : Nat), fabricRuns s = true ∧ word / 2 ^ 30 % 4 = 0) ∧
    (∃ (s : State) (word : Nat), fabricRuns s = true ∧ word / 2 ^ 30 % 4 = 1 ∧ (s.pl.st = 1 ∨ s.pl.st = 2) ∧
      hdrStartMode (planHdr s) = 1 ∧ hdrBarrier (planHdr s) = word / 2 ^ 24 % 64 ∧ s.pl.token = none) ∧
    (∃ (s : State) (word : Nat), fabricRuns s = true ∧ word / 2 ^ 30 % 4 = 1 ∧ ((s.pl.st ≠ 1 ∧ s.pl.st ≠ 2) ∨
      hdrStartMode (planHdr s) ≠ 1 ∨ hdrBarrier (planHdr s) ≠ word / 2 ^ 24 % 64 ∨ s.pl.token.isSome = true)) ∧
    (∃ (s : State) (word : Nat) (off : Nat), fabricRuns s = true ∧ word / 2 ^ 30 % 4 = 2 ∧ off ≠ 0x408) ∧
    (∃ (s : State) (word : Nat), fabricRuns s = true ∧ word / 2 ^ 30 % 4 = 3) ∧
    (∃ (s : State) (src : Nat) (b : Nat) (w : Nat), fabricRuns s = true ∧ hedgeFenced s (hedgeClass s src) = false ∧
      (((passSpans s).find? fun b => decide (b ≤ planNow s ∧ planNow s < b + passLength (planSlots s))) = some b) ∧
      slotAtOffset (planSlots s) (planNow s - b) = some w ∧ (slotOp w = 3 ∨ slotOp w = 4) ∧ slotPeer w = src ∧
      ((s.pl.wbuf.any fun x => x.stamp == planNow s && x.src == src) = false) ∧ s.pl.wbuf.length < 128) ∧
    (∃ (s : State), fabricRuns s = true ∧ passSpans s = []) :=
  ⟨⟨up, 7, by decide +kernel⟩,
    ⟨{ up with pl := { up.pl with st := 1, banks := [{ valid := true, header := leBytes 64 (2 ^ 160 * (1 + 4 * 9)), gens := [], slots := leBytes 16 0 }, {}] } },
      2 ^ 30 + 9 * 2 ^ 24, by decide +kernel⟩,
    ⟨up, 2 ^ 30, by decide +kernel⟩,
    ⟨up, 2 ^ 31, 0x400, by decide +kernel⟩,
    ⟨up, 2 ^ 32 - 1, by decide +kernel⟩,
    ⟨(upPlan (3 * 2 ^ 124 + 77) fun p => { p with st := 2 }), 77, 0, 3 * 2 ^ 124 + 77, by decide +kernel⟩,
    ⟨up, by decide +kernel⟩⟩

/-- The premises of `Obligations.PassRows`, clause by clause, can be met. -/
theorem test_meets_PassRows :
    (∃ (s : State) (nom : Nat), serving s = true ∧ s.pl.st = 1 ∧ s.pl.holding = false ∧ s.pl.charged = 0 ∧ s.pw.planLock = true ∧
      nextNominal s = some nom) ∧
    (∃ (s : State), (s.pl.st ≠ 1 ∨ s.pw.planLock = false ∨ nextNominal s = none)) ∧
    (∃ (s : State), Settled s ∧ serving s = true ∧ s.pl.charged ≠ 0 ∧ s.pl.holding = false ∧ (s.pl.st = 1 ∨ s.pl.st = 2)) ∧
    (∃ (s : State), Settled s ∧ serving s = true ∧ s.pl.holding = true) ∧
    (∃ (s : State), Settled s ∧ serving s = true ∧ s.pl.st = 2 ∧ (planSlots s).length ≤ s.pl.slot ∧ hdrRecMode (planHdr s) = 0 ∧
      s.pl.lockGone = false ∧ hdrSlipLimit (planHdr s) = 0 ∧ s.pl.stopAt = 0 ∧ s.pl.passes = 0 ∧ s.pl.switchCmd = none) ∧
    (∃ (s : State) (n : Nat) (passes : Nat), s.pl.st = 3 ∧ s.pl.switchCmd = some (n, passes)) ∧
    (∃ (s : State), Settled s ∧ serving s = true ∧ s.pl.st = 4 ∧ hdrRecMode (planHdr s) = 0 ∧ s.pl.sum = none ∧
      s.pl.switchCmd = none ∧ s.pl.stopCmds = []) ∧
    (∃ (ring : Nat) (idx : Nat) (input : Bytes) (c : Cmd) (s : State),
      imageCheck (slice input 0 (imageSpan input)) (leAt c.desc 24 4) = .good ∧ Starts s ring idx 0x050 c ∧ s.pl.st = 0 ∧
      s.pl.switchCmd = none) ∧
    (∃ (ring : Nat) (idx : Nat) (c : Cmd) (s : State), Starts s ring idx 0x051 c ∧ (leAt c.desc 16 1).testBit 0 = false ∧
      s.pl.st = 0 ∧ (planBank s s.pl.active).valid = true ∧ s.pw.planLock = true) ∧
    (∃ (ring : Nat) (idx : Nat) (c : Cmd) (s : State), Starts s ring idx 0x052 c ∧ s.pl.st = 0) ∧
    (∃ (ring : Nat) (idx : Nat) (c : Cmd) (s : State), Starts s ring idx 0x052 c ∧ s.pl.st = 2 ∧ isExpert c = false) :=
  ⟨⟨(upPlan 0 fun p => { p with st := 1 }), 0, by decide +kernel⟩,
    ⟨up, by decide +kernel⟩,
    ⟨{ up with pl := { up.pl with st := 2, charged := 1 } }, settled_of (by decide +kernel), by decide +kernel⟩,
    ⟨{ up with pl := { up.pl with holding := true } }, settled_of (by decide +kernel), by decide +kernel⟩,
    ⟨(upPlan 0 fun p => { p with st := 2, slot := 1 }), settled_of (by decide +kernel), by decide +kernel⟩,
    ⟨{ up with pl := { up.pl with st := 3, switchCmd := some (1, 0) } }, 1, 0, by decide +kernel⟩,
    ⟨(upPlan 0 fun p => { p with st := 4 }), settled_of (by decide +kernel), by decide +kernel⟩,
    ⟨2, 5, planImage, cmdOf 0x050 [(24, 4176)], (withCmd up 0x050 [(24, 4176)]), planImage_checked,
      by unfold Starts; decide +kernel⟩,
    ⟨2, 5, cmdOf 0x051 [], (withCmd (upPlan 0 fun p => p) 0x051 []), by unfold Starts; decide +kernel⟩,
    ⟨2, 5, cmdOf 0x052 [], (withCmd up 0x052 []), by unfold Starts; decide +kernel⟩,
    ⟨2, 5, cmdOf 0x052 [], (withCmd { up with pl := { up.pl with st := 2 } } 0x052 []), by unfold Starts; decide +kernel⟩⟩

/-- The premises of `Obligations.InstanceRows`, clause by clause, can be met. -/
theorem test_meets_InstanceRows :
    (∃ (c : Instr) (op : Nat) (s : State), (serving s = false ∨ s.pl.st ≠ 2 ∨ s.pl.holding = true ∨ (∀ w,
      (planSlots s)[s.pl.slot]? = some w → slotOp w ≠ op)) ∧ instOp c = some op) ∧
    (∃ (c : Instr) (s : State) (w : Nat), Settled s ∧ AtInstance s w ∧ ((c = .openCycle ∧ slotOp w = 0) ∨ (c = .quiet false ∧
      slotOp w = 1))) ∧
    (∃ (s : State) (w : Nat), Settled s ∧ AtInstance s w ∧ slotOp w = 0xA ∧ (s.pl.lockGone = false ∨ planUnsettled s = false)) ∧
    (∃ (s : State) (w : Nat), Settled s ∧ AtInstance s w ∧ slotOp w = 0xA ∧ s.pl.lockGone = true ∧ planUnsettled s = true) ∧
    (∃ (s : State) (w : Nat), Settled s ∧ AtInstance s w ∧ slotOp w = 0xB) ∧
    (∃ (s : State) (u : State) (w : Nat) (st : Nat) (bs : Bytes) (as : List Nat), readInstance (instBegun s w) w = (u, st, bs,
      as) ∧ AtInstance s w ∧ slotOp w = 2) ∧
    (∃ (s : State) (u : State) (w : Nat) (st : Nat) (bs : Bytes) (as : List Nat), readInstance (instBegun s w) w = (u, st, bs,
      as) ∧ AtInstance s w ∧ slotOp w = 7 ∧ st ≠ 0) ∧
    (∃ (s : State) (u : State) (w : Nat) (st : Nat) (bs : Bytes) (as : List Nat), readInstance (instBegun s w) w = (u, st, bs,
      as) ∧ AtInstance s w ∧ slotOp w = 7 ∧ st = 0) ∧
    (∃ (s : State) (u : State) (w : Nat) (st : Nat) (bs : Bytes) (as : List Nat), readInstance (instBegun s w) w = (u, st, bs,
      as) ∧ AtInstance s w ∧ slotOp w = 8) ∧
    (∃ (s : State) (u : State) (w : Nat) (st : Nat) (bs : Bytes) (as : List Nat), readInstance (instBegun s w) w = (u, st, bs,
      as) ∧ AtInstance s w ∧ slotOp w = 9) ∧
    (∃ (s : State) (u : State) (w : Nat) (as : List Nat), genAddrs (instBegun s w) w = (as, u) ∧ AtInstance s w ∧ slotOp w = 5) ∧
    (∃ (s : State) (u : State) (w : Nat) (as : List Nat), genAddrs (instBegun s w) w = (as, u) ∧ AtInstance s w ∧ slotOp w = 6) ∧
    (∃ (s : State) (u : State) (v : State) (w : Nat) (as : List Nat), genAddrs (instBegun s w) w = (as, u) ∧
      takeBeat u (w % 2 ^ 18) = (none, v) ∧ AtInstance s w ∧ slotOp w = 3) ∧
    (∃ (s : State) (u : State) (v : State) (w : Nat) (as : List Nat), genAddrs (instBegun s w) w = (as, u) ∧
      takeBeat u (w % 2 ^ 18) = (none, v) ∧ AtInstance s w ∧ slotOp w = 4) ∧
    (∃ (s : State) (u : State) (v : State) (w : Nat) (as : List Nat) (mask : Nat) (bs : Bytes), genAddrs (instBegun s w) w = (as,
      u) ∧ takeBeat u (w % 2 ^ 18) = (some (mask, bs), v) ∧ AtInstance s w ∧ slotOp w = 3) ∧
    (∃ (s : State) (u : State) (v : State) (w : Nat) (as : List Nat) (mask : Nat) (bs : Bytes), genAddrs (instBegun s w) w = (as,
      u) ∧ takeBeat u (w % 2 ^ 18) = (some (mask, bs), v) ∧ AtInstance s w ∧ slotOp w = 4) :=
  ⟨⟨.kernel, 0xB, up, .inr (.inl (by decide +kernel)), by decide +kernel⟩,
    ⟨.openCycle, (runAt (0 * 2 ^ 124)), 0 * 2 ^ 124, settled_of (by decide +kernel), by unfold AtInstance; decide +kernel⟩,
    ⟨(runAt (10 * 2 ^ 124)), 10 * 2 ^ 124, settled_of (by decide +kernel), by unfold AtInstance; decide +kernel⟩,
    ⟨{ upPlan (0xA * 2 ^ 124) (fun p => { p with st := 2, lockGone := true }) with arr := { up.arr with mhes := [{ line := 3, slot := some upSlot, planned := true }] } },
      0xA * 2 ^ 124, settled_of (by decide +kernel), by unfold AtInstance; decide +kernel⟩,
    ⟨(runAt (11 * 2 ^ 124)), 11 * 2 ^ 124, settled_of (by decide +kernel), by unfold AtInstance; decide +kernel⟩,
    ⟨(runAt (2 * 2 ^ 124)), _, 2 * 2 ^ 124, _, _, _, four_of _, by unfold AtInstance; decide +kernel⟩,
    ⟨(runAt (7 * 2 ^ 124)), _, 7 * 2 ^ 124, _, _, _, four_of _, by unfold AtInstance; decide +kernel⟩,
    ⟨(runHit (7 * 2 ^ 124)), _, 7 * 2 ^ 124, _, _, _, four_of _, by unfold AtInstance; decide +kernel⟩,
    ⟨(runAt (8 * 2 ^ 124)), _, 8 * 2 ^ 124, _, _, _, four_of _, by unfold AtInstance; decide +kernel⟩,
    ⟨(runAt (9 * 2 ^ 124)), _, 9 * 2 ^ 124, _, _, _, four_of _, by unfold AtInstance; decide +kernel⟩,
    ⟨(runAt (5 * 2 ^ 124)), _, 5 * 2 ^ 124, _, two_of _, by unfold AtInstance; decide +kernel⟩,
    ⟨(runAt (6 * 2 ^ 124)), _, 6 * 2 ^ 124, _, two_of _, by unfold AtInstance; decide +kernel⟩,
    ⟨(runAt (3 * 2 ^ 124)), _, _, 3 * 2 ^ 124, _, two_of _, pair1_of (by decide +kernel), by unfold AtInstance; decide +kernel⟩,
    ⟨(runAt (4 * 2 ^ 124)), _, _, 4 * 2 ^ 124, _, two_of _, pair1_of (by decide +kernel), by unfold AtInstance; decide +kernel⟩,
    ⟨(runBeat (3 * 2 ^ 124)), _, _, 3 * 2 ^ 124, _, 1, [7], two_of _, pair1_of (by decide +kernel),
      by unfold AtInstance; decide +kernel⟩,
    ⟨(runBeat (4 * 2 ^ 124)), _, _, 4 * 2 ^ 124, _, 1, [7], two_of _, pair1_of (by decide +kernel),
      by unfold AtInstance; decide +kernel⟩⟩

/-- The premises of `Obligations.ReadInstanceOutcome`, clause by clause, can be met. -/
theorem test_meets_ReadInstanceOutcome :
    (∃ (s : State) (addr : Nat) (qos : Nat) (u : State) (st : Nat) (bs : Bytes), ((∀ k, findLine s (addr / 512) = some k →
      (lineAt s k).last = lastOfLine s (addr / 512))) ∧ planRead s addr 0 qos = (u, st, bs) ∧ addr % 256 = 0 ∧
      s.hl.suspect = false ∧ s.pl.veil = [] ∧ ((s.arr.lines.all fun e => e.2.tagBad == 0) = true) ∧
      s.gen.pendingRc.contains (addr / 512) = false ∧ entryHeld s (addr / 512) = false ∧
      (lastAt s (lastOfLine s (addr / 512))).cond ≠ 1) ∧
    (∃ (s : State) (addr : Nat) (qos : Nat) (u : State) (st : Nat) (bs : Bytes), ((∀ k, findLine s (addr / 512) = some k →
      (lineAt s k).last = lastOfLine s (addr / 512))) ∧ planRead s addr 0 qos = (u, st, bs) ∧ addr % 256 = 0 ∧
      s.hl.suspect = false ∧ s.pl.veil = [] ∧ ((s.arr.lines.all fun e => e.2.tagBad == 0) = true) ∧
      s.gen.pendingRc.contains (addr / 512) = false ∧ entryHeld s (addr / 512) = false ∧
      (lastAt s (lastOfLine s (addr / 512))).cond = 1 ∧ aCache (lastAt s (lastOfLine s (addr / 512))).attr = true ∧
      evictOf s (addr / 512) = none ∧ openOf s (addr / 512) = none ∧ findLine s (addr / 512) = none) ∧
    (∃ (s : State) (addr : Nat) (qos : Nat) (u : State) (st : Nat) (bs : Bytes) (k : Nat), ((∀ k,
      findLine s (addr / 512) = some k → (lineAt s k).last = lastOfLine s (addr / 512))) ∧ planRead s addr 0 qos = (u, st, bs) ∧
      addr % 256 = 0 ∧ s.hl.suspect = false ∧ s.pl.veil = [] ∧ ((s.arr.lines.all fun e => e.2.tagBad == 0) = true) ∧
      s.gen.pendingRc.contains (addr / 512) = false ∧ entryHeld s (addr / 512) = false ∧
      (lastAt s (lastOfLine s (addr / 512))).cond = 1 ∧ aCache (lastAt s (lastOfLine s (addr / 512))).attr = true ∧
      evictOf s (addr / 512) = none ∧ openOf s (addr / 512) = none ∧ findLine s (addr / 512) = some k ∧
      (lineAt s k).filling = false ∧ (lineAt s k).st = .fallow) :=
  ⟨⟨(upLast 0x300 2), (2 ^ 20), 4, (planRead (upLast 0x300 2) (2 ^ 20) 0 4).1, (planRead (upLast 0x300 2) (2 ^ 20) 0 4).2.1,
      (planRead (upLast 0x300 2) (2 ^ 20) 0 4).2.2, nofun, three_of _, by decide +kernel⟩,
    ⟨up, 512, 4, (planRead up 512 0 4).1, (planRead up 512 0 4).2.1, (planRead up 512 0 4).2.2, nofun, three_of _,
      by decide +kernel⟩,
    ⟨(withLine { upLine with st := .fallow }), 1536, 4, (planRead (withLine { upLine with st := .fallow }) 1536 0 4).1,
      (planRead (withLine { upLine with st := .fallow }) 1536 0 4).2.1,
      (planRead (withLine { upLine with st := .fallow }) 1536 0 4).2.2, upSlot, lineOk_of (by decide +kernel), three_of _,
      by decide +kernel⟩⟩

/-- The premises of `Obligations.RegisterAccesses`, clause by clause, can be met. -/
theorem test_meets_RegisterAccesses :
    (∃ (i : Instr) (a : Csr) (w : Bool) (s : State), accessOf i = some (a, w) ∧ FrameAccess s a) ∧
    (∃ (i : Instr) (a : Csr) (w : Bool) (f : Frame) (s : State), accessOf i = some (a, w) ∧ a.hdr = true ∧
      TakesFrame s (csrFrame a true) ∧ a.m.dst = stopAddr s ∧
      ((s.hd.kept.find? fun e => e.1 == a.m.src && e.2.1 == a.m.tag) = some (a.m.src, a.m.tag, f))) ∧
    (∃ (i : Instr) (a : Csr) (w : Bool) (s : State), accessOf i = some (a, w) ∧ HstAccess s a) ∧
    (∃ (i : Instr) (a : Csr) (w : Bool) (s : State), accessOf i = some (a, w) ∧ HstArrives s a ∧
      (({ a.m with port := .hst }).rsvd = true ∨ ({ a.m with port := .hst }).mod ≠ 0 ∨ 2 ^ 16 ≤ ({ a.m with port := .hst }).addr ∨
      ({ a.m with port := .hst }).unlisted = 1 ∨ fromPeer s ({ a.m with port := .hst }) = true)) ∧
    (∃ (i : Instr) (a : Csr) (w : Bool) (s : State), accessOf i = some (a, w) ∧ HstArrives s a ∧
      ({ a.m with port := .hst }).rsvd = false ∧ ({ a.m with port := .hst }).mod = 0 ∧ ({ a.m with port := .hst }).addr < 2 ^ 16 ∧
      ({ a.m with port := .hst }).unlisted = 0 ∧ fromPeer s ({ a.m with port := .hst }) = false ∧
      ({ a.m with port := .hst }).size ≠ 3 ∧ ({ a.m with port := .hst }).size ≠ 7) ∧
    (∃ (a : Csr) (w : Bool) (s : State) (st : Nat) (cause : Nat), accCheck s a w = (st, cause) ∧ st ≠ 0) ∧
    (∃ (a : Csr) (s : State) (r : RegRow) (c : Nat), regFind (a.m.addr % 2 ^ 16) (a.m.size + 1) = some (r, c) ∧
      homeServed s r.homeC = false) ∧
    (∃ (a : Csr) (s : State) (r : RegRow) (c : Nat), regFind (a.m.addr % 2 ^ 16) (a.m.size + 1) = some (r, c) ∧
      homeServed s r.homeC = true ∧ a.hdr = false ∧ csrBit s 0xF00 (16 + hedgeClass s a.m.src) = false) ∧
    (∃ (a : Csr) (w : Bool) (s : State) (r : RegRow) (c : Nat), regFind (a.m.addr % 2 ^ 16) (a.m.size + 1) = some (r, c) ∧
      homeServed s r.homeC = true ∧ ((a.hdr = true ∧ a.m.rsvd = false ∨ a.hdr = false ∧
      csrBit s 0xF00 (16 + hedgeClass s a.m.src) = true)) ∧ sizeOk r c (a.m.addr % 2 ^ 16) (a.m.size + 1) w = false) ∧
    (∃ (a : Csr) (w : Bool) (s : State) (r : RegRow) (c : Nat), regFind (a.m.addr % 2 ^ 16) (a.m.size + 1) = some (r, c) ∧
      homeServed s r.homeC = true ∧ ((a.hdr = true ∧ a.m.rsvd = false ∨ a.hdr = false ∧
      csrBit s 0xF00 (16 + hedgeClass s a.m.src) = true)) ∧ sizeOk r c (a.m.addr % 2 ^ 16) (a.m.size + 1) w = true ∧ w = true ∧
      a.hdr = false ∧ privReg r c = true ∧ csrBit s 0xF10 29 = false) ∧
    (∃ (a : Csr) (s : State), regFind (a.m.addr % 2 ^ 16) (a.m.size + 1) = none ∧ accCheck s a true = (0, 0)) ∧
    (∃ (a : Csr) (s : State), regFind (a.m.addr % 2 ^ 16) (a.m.size + 1) = none ∧ accCheck s a false = (0, 0)) ∧
    (∃ (a : Csr) (s : State), Permitted s a true ∧ a.m.addr = 0x20) :=
  ⟨⟨.csrWr (regW 0x20 (leBytes 8 77)), (regW 0x20 (leBytes 8 77)), true, up, by unfold FrameAccess TakesFrame; decide +kernel⟩,
    ⟨.csrWr (regW 0x20 (leBytes 8 77)), (regW 0x20 (leBytes 8 77)), true, {},
      { up with hd := { up.hd with kept := [(0x8005, 1, {})] } }, by unfold TakesFrame; decide +kernel⟩,
    ⟨.csrWr (regH 0x20 []), (regH 0x20 []), true, up, by unfold HstAccess HstArrives; decide +kernel⟩,
    ⟨.csrWr (regH 0x10000 []), (regH 0x10000 []), true, up, by unfold HstArrives; decide +kernel⟩,
    ⟨.csrWr (regN 15 0x20 []), (regN 15 0x20 []), true, up, by unfold HstArrives; decide +kernel⟩,
    ⟨(reg4 0x20 []), true, up, _, _, two_of _, by decide +kernel⟩,
    ⟨(regW (((regRows.find? fun r => r.homeC).getD ⟨0, 0, 0, 0, 0, 0, 0, false, 0⟩)).off []),
      (upPw fun p => { p with pstate := 1 }), ((regRows.find? fun r => r.homeC).getD ⟨0, 0, 0, 0, 0, 0, 0, false, 0⟩),
      (((regRows.find? fun r => r.homeC).getD ⟨0, 0, 0, 0, 0, 0, 0, false, 0⟩)).off, by decide +kernel⟩,
    ⟨(regH 0x20 []), (upCsr 0xF00 0), ⟨0x0020, 0, 1, 8, 0xFFFFFFFFFFFFFFFF, 0, 0, false, 0⟩, 0x20, by decide +kernel⟩,
    ⟨(reg4 0x20 []), true, up, ⟨0x0020, 0, 1, 8, 0xFFFFFFFFFFFFFFFF, 0, 0, false, 0⟩, 0x20, by decide +kernel⟩,
    ⟨(regH 0x110 []), true, (upCsr 0xF10 0), ((regAt 0x110).getD ⟨0x0020, 0, 1, 8, 0xFFFFFFFFFFFFFFFF, 0, 0, false, 0⟩), 0x110,
      by decide +kernel⟩,
    ⟨(regW 0x30 []), up, by decide +kernel⟩,
    ⟨(regW 0x30 []), up, by decide +kernel⟩,
    ⟨(regW 0x20 (leBytes 8 77)), up, by unfold Permitted FrameAccess TakesFrame; decide +kernel⟩⟩

/-- The premises of `Obligations.PlacementWrites`, clause by clause, can be met. -/
theorem test_meets_PlacementWrites :
    (∃ (a : Csr) (s : State), Permitted s (csrAt a 0x600) true ∧ (written a).testBit 1 = true ∧ (((written a).testBit 0 = true →
      csrBit s 0x600 0 = true ∨ sfCount s = 0)) ∧ s.pw.pstate ≠ 3 ∧ ((csrBit s 0x600 0 = true →
      fld (written a) 3 2 = csrFld s 0x600 3 2))) ∧
    (∃ (a : Csr) (s : State), Permitted s (csrAt a 0x600) true ∧ (written a).testBit 1 = false ∧ (((written a).testBit 0 = true →
      csrBit s 0x600 0 = true ∨ sfCount s = 0)) ∧ s.pw.pstate ≠ 3 ∧ ((csrBit s 0x600 0 = true →
      fld (written a) 3 2 = csrFld s 0x600 3 2))) ∧
    (∃ (a : Csr) (s : State), Permitted s (csrAt a 0x600) true ∧ (written a).testBit 0 = true ∧ csrBit s 0x600 0 = false ∧
      sfCount s ≠ 0) ∧
    (∃ (a : Csr) (s : State), Permitted s (csrAt a 0x108) true ∧ anyPinned s = false ∧ s.arr.pinBusy = false ∧ s.pr.mirrors = [] ∧
      fld (written a) 3 0 + 4 ≤ fewestWays s ∧ mirrorWays s ≤ fld (written a) 3 0 ∧ s.pw.pstate ≠ 3) ∧
    (∃ (s : State), serving s = true ∧ s.arr.pinBusy = true) ∧
    (∃ (s : State), (serving s = false ∨ s.arr.pinBusy = false)) ∧
    (∃ (a : Csr) (s : State), Permitted s (csrAt a 0x900) true ∧ anyPinned s = false ∧ anyPaired s = false ∧ s.pr.mirrors = [] ∧
      fld (written a) 7 4 ≤ pinWays s ∧ s.pw.pstate ≠ 3) ∧
    (∃ (a : Csr) (s : State), Permitted s (csrAt a 0x100) true ∧ ((s.pw.locked = false ∨
      fld (written a) 2 0 = csrFld s 0x100 2 0))) ∧
    (∃ (a : Csr) (s : State), Permitted s (csrAt a 0x100) true ∧ s.pw.locked = true ∧ fld (written a) 2 0 ≠ csrFld s 0x100 2 0) :=
  ⟨⟨(reg4 0 (leBytes 4 (2))), up, by unfold Permitted FrameAccess TakesFrame; decide +kernel⟩,
    ⟨(reg4 0 (leBytes 4 (1))), up, by unfold Permitted FrameAccess TakesFrame; decide +kernel⟩,
    ⟨(reg4 0 (leBytes 4 (1))), (upSf 19 1), by unfold Permitted FrameAccess TakesFrame; decide +kernel⟩,
    ⟨(reg4 0 (leBytes 4 (12))), up, by unfold Permitted FrameAccess TakesFrame; decide +kernel⟩,
    ⟨{ up with arr := { up.arr with pinBusy := true } }, by decide +kernel⟩,
    ⟨up, by decide +kernel⟩,
    ⟨(reg4 0 (leBytes 4 (0))), up, by unfold Permitted FrameAccess TakesFrame; decide +kernel⟩,
    ⟨(reg4 0 (leBytes 4 (7))), up, by unfold Permitted FrameAccess TakesFrame; decide +kernel⟩,
    ⟨(reg4 0 (leBytes 4 (7))), (upPw fun p => { p with locked := true }),
      by unfold Permitted FrameAccess TakesFrame; decide +kernel⟩⟩

/-- The premises of `Obligations.RingAndLinkWrites`, clause by clause, can be met. -/
theorem test_meets_RingAndLinkWrites :
    (∃ (n : Nat) (a : Csr) (s : State), Permitted s (csrAt a (0x1018 + 64 * n)) true ∧ n < 64 ∧ (written a).testBit 31 = true ∧
      ringEnabled s n = false ∧ (((ringGet s n).busy = false ∨ fld (written a) 28 19 = csrFld s (0x1018 + 64 * n) 28 19)) ∧
      sharesDoorbell s n = false ∧ s.pw.pstate ≠ 3) ∧
    (∃ (n : Nat) (a : Csr) (s : State), Permitted s (csrAt a (0x1018 + 64 * n)) true ∧ n < 64 ∧ (written a).testBit 31 = true ∧
      ringEnabled s n = false ∧ sharesDoorbell s n = true) ∧
    (∃ (n : Nat) (a : Csr) (s : State), Permitted s (csrAt a (0x1018 + 64 * n)) true ∧ n < 64 ∧ (written a).testBit 31 = false ∧
      ringEnabled s n = true ∧ fld (written a) 28 19 = csrFld s (0x1018 + 64 * n) 28 19 ∧ s.pw.pstate ≠ 3) ∧
    (∃ (n : Nat) (a : Csr) (s : State), Permitted s (csrAt a (0x2008 + 32 * n)) true ∧ n < 4 ∧ (written a).testBit 31 = true ∧
      csrBit s (0x2008 + 32 * n) 31 = false ∧ s.pw.pstate ≠ 3) ∧
    (∃ (n : Nat) (a : Csr) (s : State), Permitted s (csrAt a (0x808 + 16 * n)) true ∧ n < 16 ∧ (written a).testBit 63 = true ∧
      csrBit s (0x808 + 16 * n) 63 = false ∧ s.pw.pstate ≠ 3) ∧
    (∃ (a : Csr) (s : State), Permitted s (csrAt a 0xA00) true ∧ (written a).testBit 31 = true ∧ (written a).testBit 28 = false ∧
      csrBit s 0xA00 31 = false ∧ s.pw.tetherOff = false ∧ tetherRuns s = true ∧ s.tt.link = 0) ∧
    (∃ (a : Csr) (s : State), Permitted s (csrAt a 0xA00) true ∧ (written a).testBit 31 = false ∧ (written a).testBit 28 = false ∧
      csrBit s 0xA00 31 = true ∧ s.tt.link ≠ 0 ∧ s.pw.pstate ≠ 3) ∧
    (∃ (a : Csr) (s : State), Permitted s (csrAt a 0xA00) true ∧ (written a).testBit 28 = true ∧ (written a).testBit 31 = true ∧
      csrBit s 0xA00 31 = true ∧ s.pw.tetherOff = false ∧ tetherRuns s = true ∧ s.tt.link = 2) ∧
    (∃ (a : Csr) (s : State), Permitted s (csrAt a 0xA00) true ∧ (written a).testBit 28 = true ∧ (written a).testBit 31 = true ∧
      csrBit s 0xA00 31 = true ∧ s.pw.tetherOff = false ∧ tetherRuns s = true ∧ s.tt.link = 4) :=
  ⟨⟨63, (reg4 0 (leBytes 4 (2 ^ 31))), (upCsr (0x1010 + 64 * 63) 4096),
      by unfold Permitted FrameAccess TakesFrame; decide +kernel⟩,
    ⟨63, (reg4 0 (leBytes 4 (2 ^ 31))), (upCsr 0x1018 (2 ^ 31)), by unfold Permitted FrameAccess TakesFrame; decide +kernel⟩,
    ⟨63, (reg4 0 (leBytes 4 (0))), (upCsr (0x1018 + 64 * 63) (2 ^ 31)),
      by unfold Permitted FrameAccess TakesFrame; decide +kernel⟩,
    ⟨3, (reg4 0 (leBytes 4 (2 ^ 31))), up, by unfold Permitted FrameAccess TakesFrame; decide +kernel⟩,
    ⟨15, (regW 0 (leBytes 8 (2 ^ 63))), up, by unfold Permitted FrameAccess TakesFrame; decide +kernel⟩,
    ⟨(reg4 0 (leBytes 4 (2 ^ 31))), up, by unfold Permitted FrameAccess TakesFrame; decide +kernel⟩,
    ⟨(reg4 0 (leBytes 4 (0))), { (upCsr 0xA00 (2 ^ 31)) with tt := { up.tt with link := 2 } },
      by unfold Permitted FrameAccess TakesFrame; decide +kernel⟩,
    ⟨(reg4 0 (leBytes 4 (2 ^ 31 + 2 ^ 28))), { (upCsr 0xA00 (2 ^ 31)) with tt := { up.tt with link := 2 } },
      by unfold Permitted FrameAccess TakesFrame; decide +kernel⟩,
    ⟨(reg4 0 (leBytes 4 (2 ^ 31 + 2 ^ 28))), { (upCsr 0xA00 (2 ^ 31)) with tt := { up.tt with link := 4 } },
      by unfold Permitted FrameAccess TakesFrame; decide +kernel⟩⟩

/-- The premises of `Obligations.SetupWrites`, clause by clause, can be met. -/
theorem test_meets_SetupWrites :
    (∃ (a : Csr) (r : RegRow) (s : State), Permitted s a true ∧ regAt a.m.addr = some r ∧ r.off ∈ [0xF00, 0xF40, 0x5000, 0x5008,
      0x5010]) ∧
    (∃ (a : Csr) (s : State), Permitted s a true ∧ a.m.addr = 0xF08) ∧
    (∃ (n : Nat) (a : Csr) (s : State), Permitted s (csrAt a (0x3000 + 8 * n)) true ∧ n < 16) ∧
    (∃ (a : Csr) (s : State), Permitted s (csrAt a 0xC10) true) ∧
    (∃ (a : Csr) (s : State), Permitted s (csrAt a 0x3518) true) ∧
    (∃ (a : Csr) (s : State), Permitted s (csrAt a 0xE08) true) ∧
    (∃ (k : Nat) (a : Csr) (s : State), Permitted s (csrAt a (0xF20 + 8 * k)) true ∧ k < 4) ∧
    (∃ (a : Csr) (s : State), Permitted s (csrAt a 0xF10) true) ∧
    (∃ (k : Nat) (a : Csr) (s : State), Permitted s (csrAt a (0x4000 + 8 * k)) true ∧ k < 256) ∧
    (∃ (a : Csr) (s : State), Permitted s (csrAt a 0x3400) true ∧ (written a).testBit 63 = true ∧ csrBit s 0x3400 63 = false) ∧
    (∃ (a : Csr) (s : State), Permitted s (csrAt a 0x3400) true ∧ (((written a).testBit 63 = false ∨
      csrBit s 0x3400 63 = true))) ∧
    (∃ (a : Csr) (s : State), Permitted s a false ∧ a.m.addr = 0xD4C) :=
  ⟨⟨(regW 0xF40 (leBytes 8 1)), ((regAt 0xF40).getD ⟨0x0020, 0, 1, 8, 0xFFFFFFFFFFFFFFFF, 0, 0, false, 0⟩), up,
      by unfold Permitted FrameAccess TakesFrame; decide +kernel⟩,
    ⟨(regW 0xF08 (leBytes 8 (2 ^ 63))), up, by unfold Permitted FrameAccess TakesFrame; decide +kernel⟩,
    ⟨15, (regW 0 (leBytes 8 (1))), up, by unfold Permitted FrameAccess TakesFrame; decide +kernel⟩,
    ⟨(regW 0 (leBytes 8 (2 ^ 63))), up, by unfold Permitted FrameAccess TakesFrame; decide +kernel⟩,
    ⟨(regW 0 (leBytes 8 (1))), up, by unfold Permitted FrameAccess TakesFrame; decide +kernel⟩,
    ⟨(reg4 0 (leBytes 4 (0))), up, by unfold Permitted FrameAccess TakesFrame; decide +kernel⟩,
    ⟨3, (regW 0 (leBytes 8 (1))), up, by unfold Permitted FrameAccess TakesFrame; decide +kernel⟩,
    ⟨(reg4 0 (leBytes 4 (2 ^ 31))), up, by unfold Permitted FrameAccess TakesFrame; decide +kernel⟩,
    ⟨255, (regW 0 (leBytes 8 (1))), up, by unfold Permitted FrameAccess TakesFrame; decide +kernel⟩,
    ⟨(regW 0 (leBytes 8 (2 ^ 63))), up, by unfold Permitted FrameAccess TakesFrame; decide +kernel⟩,
    ⟨(regW 0 (leBytes 8 (0))), up, by unfold Permitted FrameAccess TakesFrame; decide +kernel⟩,
    ⟨(reg4 0xD4C []), up, by unfold Permitted FrameAccess TakesFrame; decide +kernel⟩⟩

/-- The premises of `Obligations.TetherLinkRows`, clause by clause, can be met. -/
theorem test_meets_TetherLinkRows :
    (∃ (s : State), s.tt.link ≠ 1 ∧ (s.tt.link ≠ 2 ∨ s.hd.fenced = true)) ∧
    (∃ (b : Bytes) (f : Bytes) (s : State), ctrlFrame b = some f ∧ s.tt.link = 1) ∧
    (∃ (b : Bytes) (s : State), s.tt.link = 1 ∧ ctrlFrame b = none) ∧
    (∃ (b : Bytes) (s : State), (b.length ≠ 256 ∨ (crc32 (b.take 252)).toNat ≠ leAt b 252 4) ∧ Delivers s) ∧
    (∃ (b : Bytes) (s : State), (crc32 (b.take 252)).toNat = leAt b 252 4 ∧ Delivers s ∧ b.length = 256 ∧
      2 ≤ fld (leAt b 0 8) 46 44) ∧
    (∃ (b : Bytes) (s : State) (c : Nat), (crc32 (b.take 252)).toNat = leAt b 252 4 ∧ Delivers s ∧ b.length = 256 ∧ c < 4) ∧
    (∃ (b : Bytes) (s : State), (crc32 (b.take 252)).toNat = leAt b 252 4 ∧ Delivers s ∧ b.length = 256 ∧
      fld (leAt b 0 8) 46 44 = 0 ∧ fld (leAt b 0 8) 63 56 = s.tt.rxSeq) ∧
    (∃ (b : Bytes) (s : State), (crc32 (b.take 252)).toNat = leAt b 252 4 ∧ Delivers s ∧ b.length = 256 ∧
      fld (leAt b 0 8) 46 44 = 0 ∧ fld (leAt b 0 8) 63 56 ≠ s.tt.rxSeq) ∧
    (∃ (s : State), (s.tt.link = 1 ∨ s.tt.link = 3) ∧ s.tt.phase = 0) ∧
    (∃ (s : State) (p : Nat) (i : Nat), (s.tt.link = 1 ∨ s.tt.link = 3) ∧ s.tt.phase = p ∧ 1 ≤ p ∧ p ≤ 3 ∧ i < 8) ∧
    (∃ (lanes : List Nat) (s : State) (p : Nat), ((∃ i < 8, laneWord p (lanes.getD i 5) % 8 = 6)) ∧ (s.tt.link = 1 ∨
      s.tt.link = 3) ∧ s.tt.phase = p ∧ 1 ≤ p ∧ p ≤ 3 ∧ p = 3) ∧
    (∃ (lanes : List Nat) (s : State) (p : Nat), (s.tt.link = 1 ∨ s.tt.link = 3) ∧ s.tt.phase = p ∧ 1 ≤ p ∧ p ≤ 3 ∧ ((p = 3 →
      ∀ i < 8, laneWord p (lanes.getD i 5) % 8 ≠ 6)) ∧ lanes.getD 8 3 % 4 ≠ 0) ∧
    (∃ (s : State), s.tt.link = 1 ∧ s.tt.phase = 4 ∧ s.pw.pstate = 4) ∧
    (∃ (s : State), (s.tt.link ≠ 1 ∨ s.tt.phase ≠ 4)) ∧
    (∃ (b : Bytes) (s : State), s.tt.link = 1 ∧ s.tt.phase = 4 ∧ s.pw.pstate ≠ 4 ∧ (leAt b 24 1).testBit 0 = false) ∧
    (∃ (b : Bytes) (s : State) (p : Bytes), s.tt.link = 1 ∧ s.tt.phase = 4 ∧ s.pw.pstate ≠ 4 ∧ (leAt b 24 1).testBit 0 = true ∧
      s.tt.proposal = some p ∧ s.tt.verdict = 0 ∧ leAt b 25 1 = 0) ∧
    (∃ (b : Bytes) (s : State) (p : Bytes), s.tt.link = 1 ∧ s.tt.phase = 4 ∧ s.pw.pstate ≠ 4 ∧ (leAt b 24 1).testBit 0 = true ∧
      s.tt.proposal = some p ∧ (s.tt.verdict ≠ 0 ∨ leAt b 25 1 ≠ 0)) :=
  ⟨⟨up, by decide +kernel⟩,
    ⟨(flitOf 0xa29066760000200000000000), (slice (flitOf 0xa29066760000200000000000) 8 32),
      { up with tt := { up.tt with link := 1 } }, by rw [ctrlFrame, if_pos ⟨by decide +kernel,
      flit_crc _ (by decide +kernel) (by decide +kernel), by decide +kernel⟩], by decide +kernel⟩,
    ⟨[], { up with tt := { up.tt with link := 1 } }, by decide +kernel⟩,
    ⟨(leBytes 255 0), { up with tt := { up.tt with link := 2 } }, .inl (by decide +kernel), by unfold Delivers; decide +kernel⟩,
    ⟨(flitOf 0xa29066760000200000000000), { up with tt := { up.tt with link := 2 } },
      flit_crc _ (by decide +kernel) (by decide +kernel), by unfold Delivers; decide +kernel⟩,
    ⟨(flitOf 0x9add20960000000000000000), { up with tt := { up.tt with link := 2 } }, 3,
      flit_crc _ (by decide +kernel) (by decide +kernel), by unfold Delivers; decide +kernel⟩,
    ⟨(flitOf 0x9add20960000000000000000), { up with tt := { up.tt with link := 2 } },
      flit_crc _ (by decide +kernel) (by decide +kernel), by unfold Delivers; decide +kernel⟩,
    ⟨(flitOf 0xedda10000100000000000000), { up with tt := { up.tt with link := 2 } },
      flit_crc _ (by decide +kernel) (by decide +kernel), by unfold Delivers; decide +kernel⟩,
    ⟨{ up with tt := { up.tt with link := 1, phase := 0 } }, by decide +kernel⟩,
    ⟨{ up with tt := { up.tt with link := 3, phase := 3 } }, 3, 7, by decide +kernel⟩,
    ⟨[6], { up with tt := { up.tt with link := 1, phase := 3 } }, 3, ⟨0, by decide +kernel⟩, by decide +kernel⟩,
    ⟨[1], { up with tt := { up.tt with link := 1, phase := 3 } }, 3, by decide +kernel⟩,
    ⟨{ upPw (fun p => { p with pstate := 4 }) with tt := { up.tt with link := 1, phase := 4 } }, by decide +kernel⟩,
    ⟨up, by decide +kernel⟩,
    ⟨(leBytes 64 0), { up with tt := { up.tt with link := 1, phase := 4 } }, by decide +kernel⟩,
    ⟨(leBytes 64 (2 ^ 192)), { up with tt := { up.tt with link := 1, phase := 4, proposal := some [] } }, [], by decide +kernel⟩,
    ⟨(leBytes 64 (2 ^ 192)), { up with tt := { up.tt with link := 1, phase := 4, proposal := some [], verdict := 3 } }, [],
      by decide +kernel⟩⟩

/-- The premises of `Obligations.TetherMessages`, clause by clause, can be met. -/
theorem test_meets_TetherMessages :
    (∃ (t : TMsg) (s : State) (u : State), mirrorWrite s t.set (t.addr / 512) (BitVec.ofNat 8 t.mask) t.data false = (u, true) ∧
      Delivers s) ∧
    (∃ (t : TMsg) (s : State) (u : State), mirrorWrite s t.set (t.addr / 512) (BitVec.ofNat 8 t.mask) t.data false = (u, false) ∧
      Delivers s) ∧
    (∃ (t : TMsg) (s : State) (o : Op), Delivers s ∧ ((s.pr.sync.find? fun e => e.1 == t.tag) = some (t.tag, o))) ∧
    (∃ (t : TMsg) (s : State), Delivers s ∧ ((∀ e ∈ s.pr.sync, e.1 ≠ t.tag))) ∧
    (∃ (t : TMsg) (s : State) (d : Drain), Delivers s ∧ drainOf s t.ctx (BitVec.ofNat 32 t.addr) = some d) ∧
    (∃ (t : TMsg) (s : State), Delivers s ∧ drainOf s t.ctx (BitVec.ofNat 32 t.addr) = none) ∧
    (∃ (t : TMsg) (s : State), Delivers s ∧ mirrorFind s t.set (t.addr / 512) = none) ∧
    (∃ (t : TMsg) (s : State) (k : Nat), mirrorGood (mirrorAt s k) = true ∧ Delivers s ∧
      mirrorFind s t.set (t.addr / 512) = some k) ∧
    (∃ (t : TMsg) (s : State) (k : Nat), Delivers s ∧ mirrorFind s t.set (t.addr / 512) = some k ∧
      mirrorGood (mirrorAt s k) = false) ∧
    (∃ (t : TMsg) (s : State), Delivers s ∧ ((∀ r ∈ s.pr.repairs, r.tag ≠ t.tag))) ∧
    (∃ (t : TMsg) (s : State) (r : Repair), Delivers s ∧ ((s.pr.repairs.find? fun r => r.tag == t.tag) = some r) ∧ r.copy = none ∧
      r.rollback = false) ∧
    (∃ (t : TMsg) (s : State) (r : Repair) (line : Nat), Delivers s ∧ ((s.pr.repairs.find? fun r => r.tag == t.tag) = some r) ∧
      r.copy = some line) ∧
    (∃ (t : TMsg) (s : State) (r : Repair), Delivers s ∧ ((s.pr.repairs.find? fun r => r.tag == t.tag) = some r) ∧ r.copy = none ∧
      r.rollback = true) ∧
    (∃ (t : TMsg) (s : State), Delivers s ∧ (lastAt s (lastOf s t.addr)).cond = 1 ∧ aKind (lastAt s (lastOf s t.addr)).attr = 2) ∧
    (∃ (t : TMsg) (s : State), Delivers s ∧ (((lastAt s (lastOf s t.addr)).cond ≠ 1 ∨
      aKind (lastAt s (lastOf s t.addr)).attr ≠ 2))) ∧
    (∃ (s : State), Delivers s ∧ s.pr.st = 2) ∧
    (∃ (s : State), Delivers s ∧ s.pr.st ≠ 2) ∧
    (∃ (ring : Nat) (idx : Nat) (c : Cmd) (s : State), Starts s ring idx 0x080 c ∧ s.tt.link = 2 ∧ s.pr.st = 2) ∧
    (∃ (ring : Nat) (idx : Nat) (c : Cmd) (s : State), Starts s ring idx 0x081 c ∧ s.pr.st = 2 ∧
      leAt c.desc 16 4 % 2 ^ 18 = s.pr.fellowId) ∧
    (∃ (t : TMsg) (s : State) (i : Instr), i ∈ [.syncWr t, .syncAck t, .lagRec t, .lagEnd t, .lagAccept t, .lagApplied t,
      .dropMirror t, .repairRd t, .repairData t, .planData t, .resyncBegin t, .resyncDone t] ∧ (s.tt.link ≠ 2 ∨
      s.hd.fenced = true)) ∧
    (∃ (t : TMsg) (s : State) (i : Instr), i ∈ [.syncWr t, .syncAck t, .lagRec t, .lagEnd t, .lagAccept t, .lagApplied t,
      .dropMirror t, .repairRd t, .repairData t, .planData t, .resyncBegin t, .resyncDone t] ∧ s.tt.link = 2 ∧
      s.hd.fenced = false ∧ s.pw.pstate = 4) :=
  ⟨⟨{ tag := 4, set := 5, addr := 1536 }, { (upCsr 0x900 0x10) with tt := { up.tt with link := 2 } }, _,
      pair_of (by decide +kernel), by unfold Delivers; decide +kernel⟩,
    ⟨{ tag := 4, set := 5, addr := 1536 }, { up with tt := { up.tt with link := 2 } }, _, pair_of (by decide +kernel),
      by unfold Delivers; decide +kernel⟩,
    ⟨{ tag := 4, set := 5, addr := 1536 }, { up with tt := { up.tt with link := 2 }, pr := { up.pr with sync := [(4, {})] } }, {},
      by unfold Delivers; decide +kernel⟩,
    ⟨{ tag := 4, set := 5, addr := 1536 }, { up with tt := { up.tt with link := 2 } }, by unfold Delivers; decide +kernel⟩,
    ⟨{ ctx := 3, addr := 5 },
      { up with tt := { up.tt with link := 2 }, gen := { up.gen with drains := [{ ctx := 3, gen := 5 }] } },
      { ctx := 3, gen := 5 }, by unfold Delivers; decide +kernel⟩,
    ⟨{ tag := 4, set := 5, addr := 1536 }, { up with tt := { up.tt with link := 2 } }, by unfold Delivers; decide +kernel⟩,
    ⟨{ tag := 4, set := 5, addr := 1536 }, { up with tt := { up.tt with link := 2 } }, by unfold Delivers; decide +kernel⟩,
    ⟨{ tag := 4, set := 5, addr := 1536 }, upMirror, (mirrorSlots (upCsr 0x900 0x10) 5).headD 0, upMirror_good,
      by unfold Delivers; decide +kernel⟩,
    ⟨{ tag := 4, set := 5, addr := 1536 },
      { (upCsr 0x900 0x10) with tt := { up.tt with link := 2 }, pr := { up.pr with mirrors := [((mirrorSlots (upCsr 0x900 0x10) 5).headD 0, { addr := 3, st := .fallow, badPar := 1 })] } },
      (mirrorSlots (upCsr 0x900 0x10) 5).headD 0, by unfold Delivers; decide +kernel⟩,
    ⟨{ tag := 4, set := 5, addr := 1536 }, { up with tt := { up.tt with link := 2 } }, by unfold Delivers; decide +kernel⟩,
    ⟨{ tag := 4, set := 5, addr := 1536 },
      { up with tt := { up.tt with link := 2 }, pr := { up.pr with repairs := [{ tag := 4, rollback := false }] } },
      { tag := 4, rollback := false }, by unfold Delivers; decide +kernel⟩,
    ⟨{ tag := 4, set := 5, addr := 1536 },
      { up with tt := { up.tt with link := 2 }, pr := { up.pr with repairs := [{ tag := 4, copy := some 3 }] } },
      { tag := 4, copy := some 3 }, 3, by unfold Delivers; decide +kernel⟩,
    ⟨{ tag := 4, set := 5, addr := 1536 },
      { up with tt := { up.tt with link := 2 }, pr := { up.pr with repairs := [{ tag := 4, rollback := true }] } },
      { tag := 4, rollback := true }, by unfold Delivers; decide +kernel⟩,
    ⟨{ addr := 2 ^ 20 }, { (upLast 0x302 1) with tt := { up.tt with link := 2 } }, by unfold Delivers; decide +kernel⟩,
    ⟨{ tag := 4, set := 5, addr := 1536 }, { up with tt := { up.tt with link := 2 } }, by unfold Delivers; decide +kernel⟩,
    ⟨{ up with tt := { up.tt with link := 2 }, pr := { up.pr with st := 2 } }, by unfold Delivers; decide +kernel⟩,
    ⟨{ up with tt := { up.tt with link := 2 } }, by unfold Delivers; decide +kernel⟩,
    ⟨2, 5, cmdOf 0x080 [], (withCmd { up with tt := { up.tt with link := 2 }, pr := { up.pr with st := 2 } } 0x080 []),
      by unfold Starts; decide +kernel⟩,
    ⟨2, 5, cmdOf 0x081 [(16, 77)], (withCmd { up with pr := { up.pr with st := 2, fellowId := 77 } } 0x081 [(16, 77)]),
      by unfold Starts; decide +kernel⟩,
    ⟨{ tag := 4, set := 5, addr := 1536 }, up, .lagEnd { tag := 4, set := 5, addr := 1536 }, by decide +kernel⟩,
    ⟨{ tag := 4, set := 5, addr := 1536 }, { (upPw fun p => { p with pstate := 4 }) with tt := { up.tt with link := 2 } },
      .lagEnd { tag := 4, set := 5, addr := 1536 }, by decide +kernel⟩⟩

/-- The premises of `Obligations.UnassignedOffsets`, clause by clause, can be met. -/
theorem test_meets_UnassignedOffsets :
    (∃ (a : Csr) (s : State), FrameAccess s a ∧ regFind (a.m.addr % 2 ^ 16) (a.m.size + 1) = none ∧ accCheck s a true = (0, 0)) ∧
    (∃ (a : Csr) (s : State), HstAccess s a ∧
      regFind (({ a.m with port := .hst }).addr % 2 ^ 16) (({ a.m with port := .hst }).size + 1) = none ∧
      accCheck (arrives s ({ a.m with port := .hst }) 4 ({ a.m with port := .hst }).data.length) { a with m := ({ a.m with port := .hst }) } true = (0,
      0)) ∧
    (∃ (s : State), s.sec.logValid = false) ∧
    (∃ (a : Csr) (s : State), regFind (a.m.addr % 2 ^ 16) (a.m.size + 1) = none ∧ accCheck s a false = (0, 0)) :=
  ⟨⟨(regW 0x30 []), up, by unfold FrameAccess TakesFrame; decide +kernel⟩,
    ⟨(regH 0x30 []), up, by unfold HstAccess HstArrives; decide +kernel⟩,
    ⟨up, by decide +kernel⟩,
    ⟨(regW 0x30 []), up, by decide +kernel⟩⟩

end Sys2Proof.Tests
end

section
/-! The equation of a step with a command waiting. -/

namespace Sys2Proof.Machine

open Sys2Proof

/-- The equation of `step` where a command waits: its front command runs with the queue's rest (notes/assumptions 2). -/
theorem step_of_pending_cons {c : Instr} {q : List Instr} {s : State} (h : s.pending = c :: q) :
    step s = exec c { s with pending := q } := by
  rw [step, h]

/-- Settles O1: the queue put in front is the one the step reads, and its rest replaces it. -/
theorem stepRunsFront : Obligations.StepRunsFront := fun _ _ _ =>
  step_of_pending_cons rfl

end Sys2Proof.Machine
end

section
/-! A read of a resident line, from its acceptance to the answer driven (O35). -/

namespace Sys2Proof.Machine

open Sys2Proof

/-- What a read of `m` finds in a slice where nothing is under way and its line is resident in slot `k`, intact, in a cached last in service. -/
structure ReadHit (s : State) (m : Msg) (k : Nat) : Prop where
  ctl : m.port = .ctl
  size : m.size < 256
  serves : serving s = true
  supplied : s.pw.coreDown = false
  sent : s.txq = []
  credit : SMap.get 0 s.credits 0 ≠ 0
  traces : s.qs.traces = []
  evicts : (s.arr.evicts.all fun e => !e.waitLog && e.bad == 0) = true
  mhes : s.arr.mhes = []
  merges : s.arr.merges = []
  opens : s.arr.opens = []
  streams : s.arr.streams = []
  deleting : s.arr.deleting = []
  waiting : s.arr.waiting = []
  sf : s.coh.sf = []
  snoops : s.coh.snoops = []
  cautious : s.coh.cautious = []
  pendingRc : s.gen.pendingRc = []
  repairs : s.pr.repairs = []
  sync : s.pr.sync = []
  suspect : s.hl.suspect = false
  tags : (s.arr.lines.all fun e => e.2.tagBad == 0) = true
  found : findLine s (m.addr / 512) = some k
  last : (lineAt s k).last = lastOfLine s (m.addr / 512)
  valid : (lineAt s k).st = .clean ∨ (lineAt s k).st = .dirty
  parity : (lineAt s k).badPar = 0
  service : (lastAt s (lastOfLine s (m.addr / 512))).cond = 1
  plain : aBaled (lastAt s (lastOfLine s (m.addr / 512))).attr = false
  cached : aCache (lastAt s (lastOfLine s (m.addr / 512))).attr = true

/-- What is said of a value listed in a table holds of what the table reads, where it holds of the default. -/
theorem SMap.get_of_all {α : Type} {d : α} {p : α → Bool} (hd : p d = true) {t : SMap α} (h : (t.all fun e => p e.2) = true) (k : Nat) :
    p (SMap.get d t k) = true := by
  induction t with
  | nil => exact hd
  | cons e t ih =>
    simp only [List.all_cons, Bool.and_eq_true] at h
    rw [SMap.get]
    split
    · exact h.1
    · exact ih h.2

/-- A fold whose every step leaves the state as it is leaves it as it is. -/
theorem foldl_of_fixed {β : Type} {s : State} {f : State → β → State} (h : ∀ b, f s b = s) (l : List β) : l.foldl f s = s := by
  induction l with
  | nil => rfl
  | cons b l ih => rw [List.foldl_cons, h, ih]

/-- Where no tag of the array fails, the check of a set changes nothing (R443). -/
theorem tagCheckSet_of_good {s : State} (h : (s.arr.lines.all fun e => e.2.tagBad == 0) = true) (set d : Nat) : tagCheckSet s set d = s := by
  have good (k : Nat) : tagCheck s k d = s := by
    have hk : (lineAt s k).tagBad = 0 := by simpa [lineAt] using SMap.get_of_all (d := ({} : Line)) (p := fun l => l.tagBad == 0) rfl h k
    simp [tagCheck, hk]
  exact foldl_of_fixed (fun w => good (slotKey set w)) _

section
variable {s : State} {m : Msg} {k : Nat}

/-- The copies of a line that requests share pass their checks. -/
theorem ReadHit.heldCheck (h : ReadHit s m k) (line d : Nat) : heldCheck s line d = (s, true) := by
  have hev : ∀ e, evictOf s line = some e → e.bad = 0 := fun e he => by
    have := List.all_eq_true.mp h.evicts e (List.mem_of_find?_eq_some he)
    simp_all
  simp only [Machine.heldCheck, mergesOf, mheOf, openGood, openOf, h.merges, h.mhes, h.opens, List.filter_nil, List.find?_nil]
  split
  · rw [if_pos (hev _ ‹_›)]
  · rfl

/-- The lookup of the line finds its last up to date and every tag good. -/
theorem ReadHit.lookup (h : ReadHit s m k) : lookup s (m.addr / 512) (lastOfLine s (m.addr / 512)) = s := by
  have hr : retag s (m.addr / 512) (lastOfLine s (m.addr / 512)) = s := by simp [retag, h.found, h.last]
  simp only [Machine.lookup, hr, tagCheckSet_of_good h.tags]

/-- With no request tagged, a stage reached and a flag set change nothing. -/
theorem traceMap_of_none (h : s.qs.traces = []) (n : Nat) (f : Trace → Trace) : traceMap s n f = s := by
  have e : { s.qs with traces := [] } = s.qs := by rw [← h]
  simp [traceMap, h, e]

theorem stage_untraced (h : s.qs.traces = []) (n i : Nat) : stage s n i = s := traceMap_of_none h n _

/-- A read that snoops nothing issues none, and is then past its snoops (R259). -/
theorem devicePhase_untracked {o : Op} (hk : o.kind = .rd) (hf : fromHost s o.m = false) (ho : o.snooped = false) (h1 : s.coh.sf = [])
    (h2 : s.coh.snoops = []) (h3 : s.coh.cautious = []) (hosts : List Nat) :
    devicePhase s o hosts = (s, { o with snooped := true }, true) := by
  have hat (k : Nat) : sfAt s k = {} := by rw [sfAt, h1, SMap.get]
  have hfind (x : Nat) : sfFind s x = none := by simp [sfFind, hat]
  have hcheck (set : Nat) : sfCheckSet s set 0 = s := by
    unfold sfCheckSet sfCheckKeys
    exact foldl_of_fixed (fun k => by simp [hat]) _
  have hsets (l : List Nat) : l.foldl (fun s x => sfCheckSet s x 0) s = s := foldl_of_fixed (f := fun s x => sfCheckSet s x 0) hcheck l
  have hhits (l : List Nat) : l.foldl sfHit s = s := foldl_of_fixed (fun x => by rw [sfHit, hfind]) l
  have hneed : (hosts.filter fun x => snoopNeeds s false x && !snoopHolds s x) = [] := by
    simp [snoopNeeds, sfState, hfind, h3]
  have hsnoop : snoopFor s hosts false false o.m.qos 0 (o.noted.testBit 10) = (s, true) := by
    simp [snoopFor, hsets, hhits, hneed, snoopBlocks]
  have hw : opWrites o = false := by simp [opWrites, hk]
  simp [devicePhase, hw, hf, ho, hsnoop, snoopHolds, h2]

/-- Bytes of no line touch no sector. -/
theorem sectorsOf_of_toNat_eq_zero {b : LineMask} (h : b.toNat = 0) : sectorsOf b = 0 := by
  unfold sectorsOf
  rw [h]
  decide

/-- The line's data is intact where an access of part of the line looks at it (R124, R446). -/
theorem checkLine_of_intact {s : State} {k : Nat} (h : (lineAt s k).badPar = 0) (b : LineMask) (d : Nat) :
    checkLine s k b false d = (s, true) := by
  have hs : sectorsOf (0 &&& b) = 0 := sectorsOf_of_toNat_eq_zero (by
    simp only [BitVec.toNat_and, BitVec.ofNat_eq_ofNat, BitVec.toNat_zero, Nat.zero_and])
  have hf : lineFault s (lineAt s k) b false = 0 := by
    unfold lineFault
    rw [h, hs]
    rfl
  simp [checkLine, hf]

/-- An access that is no miss moves no stream where none is confirmed (R114). -/
theorem hitAccess_of_none {s : State} (h : s.arr.streams = []) (o : Op) (li : Nat) : hitAccess s o li = s := by
  simp [hitAccess, streamAccess, h]

/-- An event counted changes its counter, and with a wrap a register, alone. -/
theorem ev_eq (s : State) (n : Nat) : ∃ e c, ev s n = { s with qs := { s.qs with evs := e }, csr := c } := by
  unfold ev evN
  dsimp only
  repeat' split
  all_goals exact ⟨_, _, rfl⟩

@[simp] theorem ev_arr (s : State) (n : Nat) : (ev s n).arr = s.arr := by obtain ⟨e, c, h⟩ := ev_eq s n; rw [h]
@[simp] theorem ev_credits (s : State) (n : Nat) : (ev s n).credits = s.credits := by obtain ⟨e, c, h⟩ := ev_eq s n; rw [h]
@[simp] theorem ev_txq (s : State) (n : Nat) : (ev s n).txq = s.txq := by obtain ⟨e, c, h⟩ := ev_eq s n; rw [h]
@[simp] theorem ev_traces (s : State) (n : Nat) : (ev s n).qs.traces = s.qs.traces := by obtain ⟨e, c, h⟩ := ev_eq s n; rw [h]

/-- The state in which a read that hits is answered: its line used anew and the hit counted (R103, R531). -/
def readHitState (s : State) (k : Nat) : State := ev (linePut s k { lineAt s k with age := 0 }) Ev.readHit

/-- A read that hits is answered from the line (R87, R103, R295). -/
theorem ReadHit.readLine (h : ReadHit s m k) {o : Op} (hm : o.m = m) (hk : o.kind = .rd) (ho : o.noted.testBit 8 = false) :
    readLine s o (lastAt s (lastOfLine s (m.addr / 512))).attr (lastOfLine s (m.addr / 512)) =
      .done (readAnswer (readHitState s k) (lastAt s (lastOfLine s (m.addr / 512))).attr o (lineAt s k).data St.ok) := by
  have hline : opLine o = m.addr / 512 := by rw [opLine, hm]
  have hmhe : mheOf s (m.addr / 512) = none := by simp [mheOf, h.mhes]
  have hclose : closeFor s (m.addr / 512) = s := by simp [closeFor, openOf, h.opens]
  have hst : (lineAt s k).st ≠ .fallow := by rcases h.valid with e | e <;> simp [e]
  have hfull : readFull (lastAt s (lastOfLine s (m.addr / 512))).attr o = false := by
    have hsize : opBytes o ≠ 512 := by
      have hb : opBytes o = m.size + 1 := by simp [opBytes, hk, hm]
      have := h.size
      omega
    rw [readFull, if_neg (by simp [blockView, h.plain])]
    exact beq_false_of_ne hsize
  have hhit : hitEv (linePut s k { lineAt s k with age := 0 }) o Ev.readHit = readHitState s k := by
    simp [hitEv, ho, traceFlag, readHitState, traceMap_of_none, h.traces]
  have hstreams : (readHitState s k).arr.streams = [] := by simp [readHitState, h.streams]
  have hmerges : (readHitState s k).arr.merges = [] := by simp [readHitState, h.merges]
  simp [Machine.readLine, hline, hmhe, h.cached, hclose, h.found, hst, hfull, checkLine_of_intact h.parity, hhit,
    hitAccess_of_none hstreams, mergeOverlay, mergesOf, hmerges]

/-- The lookup of an untagged request that makes its first charges activity (R536). -/
theorem lookupAct_untraced (h : s.qs.traces = []) {o : Op} (ho : o.noted.testBit 4 = false) (li : Nat) (b : LineMask) :
    ∃ c x, lookupAct s o li b =
      (activity (activity s o.m.qos c 1 1) o.m.qos c 0 x, { o with noted := o.noted ||| 16 }) := by
  rw [lookupAct, if_neg (by simp [ho])]
  dsimp only
  rw [stage_untraced (by exact h)]
  exact ⟨_, _, rfl⟩

/-- What has been driven, metered and accepted, and what is presented, is nothing that a read looks at on its line. -/
theorem ReadHit.moved (h : ReadHit s m k) {q : Qos} (hq : q.traces = []) (out : List Out) (b : Bool) (n : Nat) (owed : List Owed)
    (ops : List Op) : ReadHit { s with
      out := out, qs := q, pw := { s.pw with locked := b }, arr := { s.arr with n := n, owed := owed, presented := ops } } m k :=
  ⟨h.ctl, h.size, h.serves, h.supplied, h.sent, h.credit, hq, h.evicts, h.mhes, h.merges, h.opens, h.streams, h.deleting, h.waiting,
    h.sf, h.snoops, h.cautious, h.pendingRc, h.repairs, h.sync, h.suspect, h.tags, h.found, h.last, h.valid, h.parity, h.service,
    h.plain, h.cached⟩

/-- A read that hits is performed at once: looked up, past its snoops, and answered from the line (R168, R295). -/
theorem ReadHit.perform (h : ReadHit s m k) (n : Nat) :
    ∃ t o, o.m = m ∧ o.kind = .rd ∧ o.grant = 0 ∧ ReadHit t m k ∧ (lineAt t k).data = (lineAt s k).data ∧ ownId t = ownId s ∧
      perform s { n := n, m := m } =
        .done (readAnswer (readHitState t k) (lastAt t (lastOfLine t (m.addr / 512))).attr o (lineAt t k).data St.ok) := by
  have hline : opLine { n := n, m := m } = m.addr / 512 := rfl
  have hrep : lineRepairing s (m.addr / 512) = false := by simp [lineRepairing, h.repairs, h.found, repairing]
  have hsync : lineSyncing s (m.addr / 512) = false := by simp [lineSyncing, h.sync]
  have hrefuse : lastRefusal (lastAt s (lastOfLine s (m.addr / 512))).attr { n := n, m := m } = 0 := by simp [lastRefusal, h.plain]
  have hfreeze : freezePhase s { n := n, m := m } (lastAt s (lastOfLine s (m.addr / 512))).attr = none := by simp [freezePhase, opWrites]
  have hresume : resumeWaits s { n := n, m := m } (lastAt s (lastOfLine s (m.addr / 512))).attr = false := by simp [resumeWaits, opWrites]
  obtain ⟨c, x, hlook⟩ := lookupAct_untraced (o := { n := n, m := m }) h.traces (by simp) (lastOfLine s (m.addr / 512))
    (readMask (lastAt s (lastOfLine s (m.addr / 512))).attr { n := n, m := m })
  have ht : ReadHit (activity (activity s m.qos c 1 1) m.qos c 0 x) m k := h.moved (by exact h.traces) _ _ _ _ _
  generalize hu : activity (activity s m.qos c 1 1) m.qos c 0 x = t at ht hlook
  have hhost (hosts : List Nat) (a : Nat) : hostPhase t { n := n, m := m, noted := 16 } a hosts = (t, { n := n, m := m, noted := 16 }, true) := by
    have : fromHost t m = false := by simp [fromHost, h.ctl]
    simp [hostPhase, this]
  have hdev := devicePhase_untracked (s := t) (o := { n := n, m := m, noted := 16 }) rfl (by simp [fromHost, h.ctl]) rfl ht.sf ht.snoops
    ht.cautious
  have hli : lastOfLine t (m.addr / 512) = lastOfLine s (m.addr / 512) := by subst hu; rfl
  have hlast : lastAt t (lastOfLine s (m.addr / 512)) = lastAt s (lastOfLine s (m.addr / 512)) := by subst hu; rfl
  have hread := ht.readLine (o := { n := n, m := m, noted := 16, snooped := true }) rfl rfl (show Nat.testBit 16 8 = false by decide)
  rw [hli, hlast] at hread
  refine ⟨t, { n := n, m := m, noted := 16, snooped := true }, rfl, rfl, rfl, ht, by subst hu; rfl, by subst hu; rfl, ?_⟩
  unfold Machine.perform
  simp [hline, hrep, hsync, h.heldCheck, h.deleting, h.cached, h.lookup, h.service, h.suspect, hrefuse, h.pendingRc, hfreeze, hresume,
    hlook, snoopHolds, ht.snoops, hhost, hdev, performDemand, stage_untraced ht.traces, hread, hli, hlast]

/-- The answer of a read to CTL (R270). -/
def readReply (s : State) (m : Msg) (data : Bytes) : Out :=
  .msg .ctl { cls := 0, opcode := 0, status := St.ok, qos := m.qos, mod := 0, tag := m.tag, dst := m.src, src := ownId s, addr := m.addr,
              size := m.size, data := data }

/-- A message sent with a credit free, none waiting and the ports running is driven at once (R268). -/
theorem sendCh_driven {s : State} {ch : Nat} {o : Out} (h1 : SMap.get 0 s.credits ch ≠ 0) (h2 : s.txq = []) (h3 : portsHalt s = false) :
    o ∈ (sendCh s ch o).out := by
  have hd (u : State) : o ∈ (drive u o).out := by
    unfold drive
    cases o <;> simp [activity, meter]
  simp [sendCh, h1, h2, h3, hd]

/-- A demand read of bytes that are not baled, answered with a credit free, drives its answer (R270). -/
theorem readAnswer_driven {s : State} {attr : Nat} {o : Op} (hb : aBaled attr = false) (hk : o.kind = .rd) (hg : o.grant = 0)
    (hp : o.m.port = .ctl) (h1 : SMap.get 0 s.credits 0 ≠ 0) (h2 : s.txq = []) (h3 : portsHalt s = false) (h4 : s.qs.traces = []) (d : LineData) :
    readReply s o.m (lineBytes d (o.m.addr % 512) (o.m.size + 1)) ∈ (readAnswer s attr o d St.ok).out := by
  have hsent : readReply s o.m (lineBytes d (o.m.addr % 512) (o.m.size + 1)) ∈
      (answer s o.m 0 0 St.ok 0 (lineBytes d (o.m.addr % 512) (o.m.size + 1))).out := by
    simp only [answer, sendMsg, answerPort, hp, readReply]
    exact sendCh_driven h1 h2 h3
  have hkeep := (opEnd_keeps (gr := fun _ => false) (o := o) (status := St.ok)
    (Keeps.refl _ (answer s o.m 0 0 St.ok 0 (lineBytes d (o.m.addr % 512) (o.m.size + 1))))).out.subset hsent
  simpa [readAnswer, blockView, hb, hk, hg, readData, opBytes, stage_untraced h4] using hkeep

/-- A read that hits is served with its answer. -/
theorem ReadHit.serve (h : ReadHit s m k) (n : Nat) :
    readReply s m (lineBytes (lineAt s k).data (m.addr % 512) (m.size + 1)) ∈ (serve s { n := n, m := m }).out := by
  obtain ⟨t, o, rfl, hk, hg, ht, hd, hid, hp⟩ := h.perform n
  have hserve : serve s { n := n, m := o.m } =
      readAnswer (readHitState t k) (lastAt t (lastOfLine t (o.m.addr / 512))).attr o (lineAt t k).data St.ok := by
    simp [Machine.serve, h.waiting, attempt, hp]
  have hpw : (readHitState t k).pw = t.pw := by simp [readHitState, ev_pw]
  have hhalt : portsHalt (readHitState t k) = false := by
    have := ht.serves
    simp_all [portsHalt, serving, ht.supplied, Ps.serving]
  have hans := readAnswer_driven (s := readHitState t k) ht.plain hk hg ht.ctl (by simpa [readHitState] using ht.credit)
    (by simpa [readHitState] using ht.sent) hhalt (by simpa [readHitState] using ht.traces) (lineAt t k).data
  have hown : ownId (readHitState t k) = ownId s := by rw [← hid]; simp only [ownId, hpw]
  rw [readReply, hown] at hans
  rw [hserve, ← hd]
  exact hans

/-! ## The one request presented is issued (R221, R523) -/

/-- Its class presents the one request there is, and no other class presents one. -/
theorem classPick_single {s : State} {o : Op} (h : s.arr.presented = [o]) (hi : mayIssue s o = true) (c : Nat) :
    classPick s c = if c = o.m.qos then some o else none := by
  by_cases hc : c = o.m.qos
  · simp [classPick, h, hi, hc]
  · simp [classPick, h, hc, Ne.symm hc]

/-- With no memory pressure the class of the one request presented is chosen (R520, R523). -/
theorem choose_single {s : State} {o : Op} (h : s.arr.presented = [o]) (hi : mayIssue s o = true) (hq : o.m.qos < 16)
    (hp : s.qs.pressure = false) : (choose s).1 = some (o.m.qos, false) := by
  have hone : (List.range 16).filter (fun c => (classPick s c).isSome) = [o.m.qos] := by
    have hf : (fun c => (classPick s c).isSome) = fun c => decide (c = o.m.qos) := by
      funext c
      rw [classPick_single h hi]
      by_cases hc : c = o.m.qos <;> simp [hc]
    have hall : ∀ q < 16, ((List.range 16).filter fun c => decide (c = q)) = [q] := by decide
    rw [hf, hall _ hq]
  have hb (c : Nat) : overBudget s c = false := by simp [overBudget, hp]
  simp [choose, hone, hb]

/-- The one request presented is served at once (R523). -/
theorem issueOne_single {s : State} {o : Op} (h : s.arr.presented = [o]) (hi : mayIssue s o = true) (hq : o.m.qos < 16)
    (hp : s.qs.pressure = false) : ∃ cr, issueOne s = (serve (stage { s with
      qs := { s.qs with credit := cr }, arr := { s.arr with presented := [] } } o.n 0) o, true) := by
  have hc := choose_single h hi hq hp
  have hpick (cr : SMap Int) : classPick { s with qs := { s.qs with credit := cr } } o.m.qos = some o :=
    (classPick_single (s := { s with qs := { s.qs with credit := cr } }) h hi _).trans (if_pos rfl)
  refine ⟨(choose s).2, ?_⟩
  unfold issueOne
  simp [hc, hpick, h]

/-- An open cycle with room issues a request, and what is driven by that stays driven. -/
theorem issueAll_out {s : State} (h1 : openRoom s = true) (h2 : serving s = true) (h3 : s.arr.presented ≠ []) (n : Nat) :
    (issueOne s).1.out <+: (issueAll (n + 1) s).out := by
  simp only [serving, Bool.and_eq_true, beq_iff_eq, Bool.not_eq_true'] at h2
  obtain ⟨⟨hps, -⟩, hfl⟩ := h2
  have hgo : (openRoom s && s.pw.pstate == 2 && !s.pw.flowStop && !s.arr.presented.isEmpty) = true := by
    simp [h1, hps, hfl, h3]
  rw [issueAll, if_pos hgo]
  split
  · rename_i t he
    rw [he]
    exact (issueAll_keeps (gr := fun _ => false) (Keeps.refl _ { t with pl := { t.pl with
      openSpent := t.pl.openSpent + 1, openUsed := t.pl.openUsed + 1 } })).out
  · rename_i t he
    have ht : t = (issueOne s).1 := by simp only [he]
    exact ht ▸ List.prefix_refl _

/-- Where nothing else can go on, what the first request issued drives stays driven. -/
theorem pump_out {s : State} (h1 : (s.arr.evicts.all fun e => !e.waitLog && e.bad == 0) = true) (h2 : s.arr.mhes = [])
    (h3 : s.coh.failing = []) (h4 : s.coh.flips = []) (h5 : s.arr.waiting = []) (h6 : s.arr.presented ≠ []) (h7 : openRoom s = true)
    (h8 : serving s = true) : (issueOne s).1.out <+: (pump s).out := by
  have hside : memSidePump s = s := by simp [memSidePump, h2]
  have hfail : failPump s = s := by
    have e : { s.coh with failing := [] } = s.coh := by rw [← h3]
    simp [failPump, h3, snoopBlocks, e]
  have hflip : flipPump s = s := by simp [flipPump, h4]
  have hwait : retryAll (s.arr.waiting.length + 1) s = s := by simp [retryAll, h5]
  simp only [pump, evictRetry_settled h1, hside, hfail, hflip, hwait]
  exact (issueAll_out h7 h8 h6 _).trans (fencePump_keeps (gr := fun _ => false)
    (flipPump_keeps (failPump_keeps (Keeps.refl _ (issueAll (s.arr.presented.length + 1) s))))).out

/-- In a slice that serves, what is driven before it has gone on otherwise stays driven. -/
theorem advance_out {s : State} (h : serving s = true) : (pump s).out <+: (advance s).out := by
  rw [advance, if_pos h]
  exact (retirePump_keeps (gr := fun _ => false) (cmdSweep_keeps (pump_keeps (Keeps.foldl cmdStep _
    (stageOutPump_keeps (rollPump_keeps (drainPump_keeps (Keeps.refl _ (pump s))))) fun _ _ => cmdStep_keeps)))).out

/-! ## The acceptance of a read on CTL (R266, R272) -/

/-- A message of CTL that arrives in a slice that serves is metered and its credit returned. -/
theorem arrives_ctl {s : State} {m : Msg} (h : m.port = .ctl) (hs : serving s = true) (c p : Nat) :
    ∃ q o, arrives s m c p = { s with qs := q, out := o } ∧ q.traces = s.qs.traces ∧ q.pressure = s.qs.pressure := by
  simp only [serving, Bool.and_eq_true, beq_iff_eq, Bool.not_eq_true'] at hs
  rw [arrives, if_neg (by simp [h]), if_neg (by simp [activity, meter, hs, Ps.serving, Ps.quiesce])]
  generalize msgBytes m.port p = b
  exact ⟨_, _, rfl, rfl, rfl⟩

/-- A read that passes the checks of R272 covers at most 256 bytes. -/
theorem size_of_reqCheck_rd (h : reqCheck s .rd m = 0) : m.size < 256 := by
  refine Nat.lt_of_not_le fun hn => ?_
  have hb : badSize s .rd m = true := by simp [badSize]; omega
  rw [reqCheck, if_pos hb] at h
  split at h <;> cases h

/-- The hedge goes by the registers alone (R564 to R566). -/
theorem hedgePasses_of_csr {s t : State} (h : t.csr = s.csr) (m : Msg) (c need : Nat) : hedgePasses t m c need = hedgePasses s m c need := by
  have hg : csrGet t = csrGet s := by funext off; simp only [csrGet, h]
  unfold hedgePasses hedgeGrants csrBit csrFld
  rw [hg]

/-- A request accepted on CTL is presented (R272, R523). -/
theorem receive_rd_ctl (h : Accepted s .rd m) (hp : m.port = .ctl) :
    ∃ q o u, receive s .rd m = advance (present (traceAccept (accept u m).1 s.arr.n 3 0 m) { n := s.arr.n, m := m }) ∧
      u = { s with qs := q, out := o } ∧ q.traces = s.qs.traces ∧ q.pressure = s.qs.pressure := by
  obtain ⟨⟨hs, hpar, hun, hfence⟩, hcheck, hpass⟩ := h
  obtain ⟨q, o, ha, hq⟩ := arrives_ctl (m := m) hp hs (Rq.code .rd).1 (Rq.payload .rd m)
  generalize hu : ({ s with qs := q, out := o } : State) = u at ha
  refine ⟨q, o, u, ?_, hu.symm, hq⟩
  have hf : hedgeFenced u (hedgeClass u m.src) = false := by subst hu; exact hfence
  have hc : reqCheck u .rd m = 0 := by subst hu; exact hcheck
  have hh : hedgePasses u m (hedgeClass u m.src) (Rq.need .rd) = true := by
    have hcl : hedgeClass u m.src = hedgeClass s m.src := by subst hu; rfl
    rw [hcl, hedgePasses_of_csr (by rw [← hu])]
    exact hpass
  have hn : (accept u m).2 = s.arr.n := by subst hu; rfl
  have hserv := hs
  simp only [serving, Bool.and_eq_true, beq_iff_eq, Bool.not_eq_true'] at hserv
  obtain ⟨⟨hps, hfen⟩, -⟩ := hserv
  rw [receive, if_neg (by simp [hfen]), if_neg (by simp [hps, Ps.serving, Ps.backupHold]), if_neg (by simp [hs]), ha]
  dsimp only
  rw [if_neg (by simp [hpar]), if_neg (by simp [hpar]), if_neg hun, if_neg (by simp [hf]), if_neg (by simp [hc]), if_neg (by simp [hh]), hn]
  rfl

/-- With the trace off a request accepted is not passed to it (R533). -/
theorem traceAccept_off {s : State} (h : csrBit s 0x3400 63 = false) (n c p : Nat) (m : Msg) : traceAccept s n c p m = s := by
  have : (csrGet s 0x3400).testBit 63 = false := h
  simp [traceAccept, this]

/-- With no plan running every request finds an open cycle while cycles are open (R221). -/
theorem openRoom_idle {s : State} (h1 : s.pl.openNow = true) (h2 : s.pl.st = 0) : openRoom s = true := by
  simp [openRoom, openUntil, h1, h2]

/-- A read that hits is answered before the slice goes on otherwise, where it is the one request presented. -/
theorem ReadHit.advance (h : ReadHit s m k) {n : Nat} (hp : s.arr.presented = [{ n := n, m := m }]) (hq : m.qos < 16)
    (hpr : s.qs.pressure = false) (hr : openRoom s = true) (hf : s.coh.failing = []) (hfl : s.coh.flips = []) :
    readReply s m (lineBytes (lineAt s k).data (m.addr % 512) (m.size + 1)) ∈ (advance s).out := by
  have hi : mayIssue s { n := n, m := m } = true := by
    simp [mayIssue, rangeHeld, resumeHeld, opWrites, mheOf, h.mhes, snoopHolds, h.snoops]
  obtain ⟨cr, hissue⟩ := issueOne_single hp hi hq hpr
  rw [stage_untraced (by exact h.traces)] at hissue
  have hserve := (h.moved (q := { s.qs with credit := cr }) h.traces s.out s.pw.locked s.arr.n s.arr.owed []).serve n
  have hpump := pump_out h.evicts h.mhes hf hfl h.waiting (by simp [hp]) hr h.serves
  rw [hissue] at hpump
  exact (hpump.trans (advance_out h.serves)).subset hserve

end

/-- Settles O35: the read is presented alone, issued at once, found in its slot and answered, and what is driven stays driven. -/
theorem readHitAnswered : Obligations.ReadHitAnswered := by
  intro m s k hacc hset hctl hcore hopen hplan hqos hpress htr htrace htxq hcred hsf hsn hca hdel hmhe hmrg hopn hstr hrc hrep hsync hsus
    htag hfind hlast hst hpar hcond hbale hcache
  have ⟨⟨hserve, _, _, _⟩, hcheck, _⟩ := hacc
  have hit : ReadHit s m k := ⟨hctl, size_of_reqCheck_rd hcheck, hserve, hcore, htxq, hcred, htr, hset.evicts, hmhe, hmrg, hopn, hstr,
    hdel, hset.waiting, hsf, hsn, hca, hrc, hrep, hsync, hsus, htag, hfind, hlast, hst, hpar, hcond, hbale, hcache⟩
  obtain ⟨q, o, u, hrecv, hu, hqt, hqp⟩ := receive_rd_ctl hacc hctl
  rw [traceAccept_off (by rw [hu]; exact htrace)] at hrecv
  refine ⟨_, congrArg Host.Outcome.next hrecv, ?_⟩
  have hmoved := hit.moved (hqt.trans htr) o true (s.arr.n + 1)
    (s.arr.owed ++ [{ n := s.arr.n, port := m.port, src := m.src, tag := m.tag, addr := m.addr, size := m.size }])
    (s.arr.presented ++ [{ n := s.arr.n, m := m }])
  have hans := hmoved.advance (n := s.arr.n) (by rw [hset.presented]; rfl) hqos (hqp.trans hpress)
    (openRoom_idle (by exact hopen) (by exact hplan)) hset.failing hset.flips
  subst hu
  exact hans

end Sys2Proof.Machine
end

section
/-! The commands on lasts where their checks pass (O42). -/

namespace Sys2Proof.Machine

open Sys2Proof

/-! ## What a command on a last reads does not depend on its own mark -/

section
variable (s : State) (c : Cmd) (i : Nat)

theorem definedRecord_begun : definedRecord (begun s c) { c with started := true } = definedRecord s c := rfl

theorem actsOn_begun (x : Cmd) : actsOn (begun s c) x i = actsOn s x i := rfl

theorem rangeBusy_begun (base limit : Nat) : rangeBusy (begun s c) base limit = rangeBusy s base limit := rfl

theorem rangeBound_begun (base limit : Nat) : rangeBound (begun s c) base limit = rangeBound s base limit := rfl

theorem lockedSlots_begun : lockedSlots (begun s c) i = lockedSlots s i := rfl

theorem defineCheck_begun (r : Last) : defineCheck (begun s c) r = defineCheck s r := rfl

/-- No other command acts on a last, seen from the state in which a command starts. -/
theorem any_running_begun : ((running (begun s c) { c with started := true }).any fun x => actsOn (begun s c) x i) =
    (running s c).any fun x => actsOn s x i := by
  rw [running_begun]
  rfl

end

/-! ## What each command does where its checks pass -/

section
variable {s : State} {c : Cmd}

/-- LAST.DEFINE of an undefined last that passes its checks defines it (R423). -/
theorem lastDefine_undefined (hi : leAt c.desc 48 2 % 1024 ≠ 1023) (hl : (SMap.get {} s.arr.lasts (leAt c.desc 48 2 % 1024)).cond = 0)
    (hc : defineCheck s (definedRecord s c) = 0) (hb : rangeBusy s (definedRecord s c).base (definedRecord s c).limit = false) :
    lastDefine s c = defineNew s c (leAt c.desc 48 2 % 1024) (definedRecord s c) := by
  rw [lastDefine, if_neg hi, if_pos hl, if_neg (by simp [hc]), if_neg (by simp [hb])]

/-- LAST.DEFINE of a defined last of the same context changes it in place (R83, R423). -/
theorem lastDefine_defined (hi : leAt c.desc 48 2 % 1024 ≠ 1023) {l r : Last} (hl : l = SMap.get {} s.arr.lasts (leAt c.desc 48 2 % 1024))
    (hr : r = definedRecord s c) (hd : l.cond ≠ 0) (hx : aCtx l.attr = aCtx r.attr) :
    lastDefine s c = defineInPlace s c (leAt c.desc 48 2 % 1024) l r := by
  subst hl hr
  rw [lastDefine, if_neg hi, if_neg hd, if_neg (fun h => h hx)]

/-- The merging-buffer entries of a THROUGH last drain before it is changed in place, and its new requests wait from then on (R84, R90). -/
def changeBegun (s : State) (i : Nat) (l : Last) : State :=
  let v := if aKind l.attr = 1 then mergeDrainWhere s fun m => inRange l.base l.limit (m.sector / 8) else s
  { v with arr := { v.arr with deleting := v.arr.deleting ++ [i] } }

/-- The lines that a change of cache_enable from the record `l` to `r` walks, unless the command is expert (R117 to R119). -/
def changeWalk (s : State) (c : Cmd) (l r : Last) : List (Nat × Nat × Nat × Nat) :=
  (if ((aCache l.attr && !aCache r.attr) || (!aCache l.attr && aCache r.attr)) && !isExpert c then heldLines s l.base l.limit else []).map
    fun x => (x, x - l.base / 512, aQos l.attr, if aCache l.attr && !aCache r.attr then 1 else 3)

/-- A change that leaves cache_enable, or of an expert command, walks no line. -/
theorem changeWalk_none {l r : Last} (h : aCache l.attr = aCache r.attr ∨ isExpert c = true) : changeWalk s c l r = [] := by
  rcases h with h | h <;> simp [changeWalk, h]

/-- A change of cache_enable walks every line held in the range of its last. -/
theorem changeWalk_held {l r : Last} (h : aCache l.attr ≠ aCache r.attr) (he : isExpert c = false) :
    changeWalk s c l r = (heldLines s l.base l.limit).map fun x => (x, x - l.base / 512, aQos l.attr, if aCache l.attr then 1 else 3) := by
  have hr : aCache r.attr = !aCache l.attr := by cases hl : aCache l.attr <;> simp_all
  simp [changeWalk, he, hr]

/-- A change in place that passes its checks walks the lines that it leaves to be written back (R83, R117 to R119). -/
theorem defineInPlace_walks {i : Nat} {l r : Last} (hb : l.base = r.base) (hl : l.limit = r.limit) (ha : fixedAttr l.attr = fixedAttr r.attr)
    (hp : pinStride l.pin = pinStride r.pin) (hk : aKind l.attr = 2 → aMask r.attr = 0 ∧ (aCache l.attr && !aCache r.attr) = false)
    (ho : (aCache l.attr && !aCache r.attr) = true → rangeBound s l.base l.limit = false ∧ aPaired l.attr = false)
    (hr : ((running s c).any fun x => actsOn s x i) = false) (hy : rangeBusy s l.base l.limit = false) :
    defineInPlace s c i l r = presentLines (changeBegun s i l) c .clean (changeWalk (changeBegun s i l) c l r) := by
  have h1 : ¬(l.base ≠ r.base ∨ l.limit ≠ r.limit ∨ fixedAttr l.attr ≠ fixedAttr r.attr ∨ pinStride l.pin ≠ pinStride r.pin) := by
    simp [hb, hl, ha, hp]
  have h2 : ¬(aKind l.attr = 2 ∧ (aMask r.attr ≠ 0 ∨ (aCache l.attr && !aCache r.attr) = true)) := by
    rintro ⟨e, f⟩
    simp [hk e] at f
  have h3 : ¬((aCache l.attr && !aCache r.attr) && rangeBound s l.base l.limit) = true := by
    rw [Bool.and_eq_true]
    rintro ⟨e, f⟩
    simp [ho e] at f
  have h4 : ¬((aCache l.attr && !aCache r.attr) && aPaired l.attr) = true := by
    rw [Bool.and_eq_true]
    rintro ⟨e, f⟩
    simp [ho e] at f
  rw [defineInPlace, if_neg h1, if_neg h2, if_neg h3, if_neg h4, if_neg (by simp [hr, hy])]
  rfl

/-- LAST.DELETE that passes its checks drains the merging-buffer entries of its range and walks the lines held there (R424). -/
theorem lastDelete_walks (hi : leAt c.desc 16 2 % 1024 ≠ 1023) {l : Last} (hl : l = SMap.get {} s.arr.lasts (leAt c.desc 16 2 % 1024))
    (hd : l.cond ≠ 0) (hx : aCtx l.attr = leAt c.desc 18 2 % 4096) (hb : rangeBound s l.base l.limit = false)
    (hk : aDur l.attr = 2 → lockedSlots s (leAt c.desc 16 2 % 1024) = [])
    (hr : ((running s c).any fun x => actsOn s x (leAt c.desc 16 2 % 1024)) = false) (hy : rangeBusy s l.base l.limit = false) {v u : State}
    (hv : v = mergeDrainWhere s fun m => inRange l.base l.limit (m.sector / 8))
    (hu : u = { v with arr := { v.arr with deleting := v.arr.deleting ++ [leAt c.desc 16 2 % 1024] } }) :
    lastDelete s c = presentLines u c .clean ((heldLines u l.base l.limit).map fun x =>
      (x, x - l.base / 512, aQos l.attr, if (leAt c.desc 20 1).testBit 0 then 3 else 2)) := by
  have hlock : (rangeBound s l.base l.limit || (aDur l.attr == 2 && !(lockedSlots s (leAt c.desc 16 2 % 1024)).isEmpty)) = false := by
    by_cases h : aDur l.attr = 2
    · simp [hb, hk h]
    · simp [hb, h]
  subst hl hv hu
  rw [lastDelete, if_neg (by simp [hi, hd]), if_neg (fun h => h hx), if_neg (by simp [hlock]), if_neg (by simp [hr, hy])]

/-- LAST.RESTORE of a FAILED last of its context reads its buffer once no other command acts on the last (R426, R449). -/
theorem lastRestore_reads {input : Bytes} {bad : List BadBeat} (hl : (lastAt s (leAt c.desc 16 2 % 1024)).cond = 2)
    (hx : aCtx (lastAt s (leAt c.desc 16 2 % 1024)).attr = leAt c.desc 18 2 % 4096) (ha : leAt c.desc 24 8 % 32 = 0)
    (hn : leAt c.desc 32 8 ≠ 0) (hm : leAt c.desc 32 8 % 32 = 0)
    (hr : ((running s c).any fun x => actsOn s x (leAt c.desc 16 2 % 1024)) = false) :
    lastRestore s c input bad = if bad ≠ [] then inputBad s c bad else
      match replayParse s (leAt c.desc 18 2 % 4096) (some (leAt c.desc 16 2 % 1024)) (slice input 0 (leAt c.desc 32 8)) (leAt c.desc 40 4) with
      | .bad seq => cmdEnd s c.n St.badLog seq 0
      | .good recs n => cmdUpd (lastPut s (leAt c.desc 16 2 % 1024) { SMap.get {} s.arr.lasts (leAt c.desc 16 2 % 1024) with cond := 3 }) c.n
          fun x => { x with phase := 6, recs := recs, acc := n } := by
  rw [lastRestore, if_neg (by simp [hx]), if_neg (by simp [ha]), if_neg (by simp [hn, hm]), if_neg (by simp [hl]), if_neg (by simp [hr])] <;> rfl

end

/-- The row of a command that starts, with what the command then does. -/
theorem next_startCmd {s : State} {ring idx code : Nat} {c : Cmd} (h : Starts s ring idx code c) {f : State → Cmd → State} {t : State}
    (hf : f (begun s c) { c with started := true } = t) :
    (.next (startCmd s ring idx code f) : Host.Outcome State Fault Refusal) = .next (advance t) := by
  rw [startCmd_starts h, hf]

/-- Settles O42: each command on a last that starts past its checks, with no other command and no request on its last, does what its row
says. -/
theorem lastCommands : Obligations.LastCommands := by
  refine ⟨?define, ?change, ?delete, ?read, ?restore⟩
  case define =>
    intro ring idx c s hs hi hl hc hb
    exact next_startCmd hs (lastDefine_undefined (s := begun s c) (c := { c with started := true }) hi hl hc hb)
  case change =>
    intro ring idx c s l r hs hi hl hr hd hx hbase hlim ha hp hk ho hrun hbusy v u hv hu
    have hrow : exec (.lastDefine ring idx) s = .next (advance (presentLines u c .clean (changeWalk u c l r))) := by
      subst hv hu
      exact next_startCmd hs ((lastDefine_defined (s := begun s c) (c := { c with started := true }) hi hl hr hd hx).trans
        (defineInPlace_walks hbase hlim ha hp hk ho (by rw [any_running_begun]; exact hrun) hbusy))
    exact ⟨fun h => by rw [hrow, changeWalk_none h], fun h he => by rw [hrow, changeWalk_held h he]⟩
  case delete =>
    intro ring idx c s l hs hi hl hd hx hb hk hrun hbusy v u hv hu
    exact next_startCmd hs (lastDelete_walks (s := begun s c) (c := { c with started := true }) hi hl hd hx hb hk
      (by rw [any_running_begun]; exact hrun) hbusy hv hu)
  case read =>
    intro ring idx c s hs
    exact next_startCmd hs rfl
  case restore =>
    intro ring idx input c s hs hl hx ha hn hm hrun
    have hread (bad : List BadBeat) := lastRestore_reads (s := begun s c) (c := { c with started := true }) (input := input) (bad := bad)
      hl hx ha hn hm (by rw [any_running_begun]; exact hrun)
    refine ⟨fun bad hbad => ?_, fun recs n hi hp => ?_, fun seq hp => ?_⟩
    · exact next_startCmd hs ((hread bad).trans (if_pos hbad))
    · exact next_startCmd hs ((hread []).trans (by rw [if_neg (fun h => h rfl), hp]; rfl))
    · exact next_startCmd hs ((hread []).trans (by rw [if_neg (fun h => h rfl), hp]))

end Sys2Proof.Machine
end

section
/-! A write frame that passes its checks, and the writes of the placement, mirror and bias registers (O55). -/

namespace Sys2Proof.Machine

open Sys2Proof

/-! ## A permitted write frame (R589, R590) -/

/-- An access at the offset of a register meets that register, where the one before it ends there. -/
theorem regFind_at {off : Nat} {r : RegRow} (h : regAt off = some r) (ha : off % 4 = 0) (h4 : 4 ≤ off) (hr : 0 < r.bytes)
    (hb : ((regAt (off - 4)).all fun q => decide (q.bytes ≤ 4)) = true) (n : Nat) : regFind off (n + 1) = some (r, off) := by
  have hlo : off / 4 * 4 = off := by omega
  have hself : off < off + (n + 1) ∧ off < off + r.bytes := by omega
  unfold regFind
  simp only [hlo, List.findSome?_cons, h]
  cases hq : regAt (off - 4) with
  | none => simp [hself]
  | some q =>
    have hq4 : q.bytes ≤ 4 := by simpa [hq] using hb
    have hn : ¬(off - 4 < off + (n + 1) ∧ off < off - 4 + q.bytes) := by omega
    simp [hself, hn]

/-- A frame that is no repeat performs its access once and is answered (R590, R591). -/
theorem csrDo_frame {s : State} {a : Csr} (h : FrameAccess s a) :
    csrDo s a true = advance (csrFrameAnswer (csrAccess s a true).s a true (csrAccess s a true).status (csrAccess s a true).value) := by
  obtain ⟨hh, ht, hd, -, hk⟩ := h
  have hon : frameOn s (csrFrame a true) = s := if_pos hd
  rw [csrDo, if_pos hh, hdrGate_taken ht rfl, hon, csrByFrame, hk]

/-- What an access answers of a write. -/
def writeRes (a : Csr) (w : WrRes) : AccRes :=
  { s := if w.ignored then csrLatch w.s 1 a.hdr (a.m.addr % 2 ^ 16) true a.m.src else w.s, status := w.status }

/-- A write that passes every check of R589 is performed on its register. -/
theorem csrAccess_write {s : State} {a : Csr} {r : RegRow} {off : Nat} (h : accCheck s a true = (0, 0))
    (hr : regFind (a.m.addr % 2 ^ 16) (a.m.size + 1) = some (r, off)) :
    csrAccess s a true = writeRes a (regWrite s r off (written a)) := by
  unfold csrAccess csrWrite
  rw [h]
  dsimp only
  rw [if_pos rfl, hr]
  generalize hw : regWrite s r off (written a) = w
  unfold written at hw
  dsimp only
  rw [hw]
  rfl

section
variable {s : State} {a : Csr} {off : Nat} {r : RegRow}

/-- A permitted write frame at the offset of a register is answered with what the write of that register gives (R589, R590). -/
theorem csrDo_at (h : Permitted s (csrAt a off) true) (hoff : off < 2 ^ 16) (hr : ∀ n, regFind off (n + 1) = some (r, off)) :
    csrDo s (csrAt a off) true = advance (csrFrameAnswer (writeRes (csrAt a off) (regWrite s r off (written a))).s (csrAt a off) true
      (writeRes (csrAt a off) (regWrite s r off (written a))).status 0) := by
  have hmod : (csrAt a off).m.addr % 2 ^ 16 = off := Nat.mod_eq_of_lt hoff
  rw [csrDo_frame h.1, csrAccess_write h.2 (by rw [hmod]; exact hr _)]
  rfl

/-- A permitted write frame that stores is answered ST_OK with its effect. -/
theorem next_csrDo_stored (h : Permitted s (csrAt a off) true) (hoff : off < 2 ^ 16) (hr : ∀ n, regFind off (n + 1) = some (r, off)) {u : State}
    (hw : regWrite s r off (written a) = { s := u }) : .next (csrDo s (csrAt a off) true) = wrote u (csrAt a off) := by
  rw [csrDo_at h hoff hr, hw]
  rfl

/-- A permitted write frame that a rule has the slice ignore is answered ST_OK and logged (R586). -/
theorem next_csrDo_ignored (h : Permitted s (csrAt a off) true) (hoff : off < 2 ^ 16) (hr : ∀ n, regFind off (n + 1) = some (r, off))
    (hw : regWrite s r off (written a) = ignoreWrite s) :
    .next (csrDo s (csrAt a off) true) = wrote (csrLatch s 1 true off true a.m.src) (csrAt a off) := by
  have hres : writeRes (csrAt a off) (ignoreWrite s) = { s := csrLatch s 1 true off true a.m.src } := by
    have hh : a.hdr = true := h.1.1
    have hmod : off % 65536 = off := Nat.mod_eq_of_lt hoff
    simp [writeRes, ignoreWrite, csrAt, hh, hmod]
  rw [csrDo_at h hoff hr, hw, hres]
  rfl

/-- A plain write stores the bits written. -/
theorem plainWrite_eq (hr : regAt off = some r) (s : State) (v : Nat) : plainWrite s r off v = { s := stored s off v } := by
  simp [plainWrite, stored, hr]

end

/-! ## The placement, mirror and bias registers -/

/-- DRF_BIAS_CTL (R255). -/
def biasRow : RegRow := ⟨0x600, 0, 1, 4, 0xD, 0x0, 0x0, false, 0⟩
/-- DRF_PIN_CTL (R99). -/
def pinRow : RegRow := ⟨0x108, 0, 1, 4, 0xF, 0x0, 0x0, false, 0⟩
/-- DRF_PAIR_CTL (R342). -/
def pairRow : RegRow := ⟨0x900, 0, 1, 4, 0xF0, 0x0, 0x0, false, 0⟩
/-- DRF_INDEX_CTL (R74). -/
def indexRow : RegRow := ⟨0x100, 0, 1, 4, 0x7, 0x0, 0x0, false, 0⟩

theorem regAt_bias : regAt 0x600 = some biasRow := by decide
theorem regAt_pin : regAt 0x108 = some pinRow := by decide
theorem regAt_pair : regAt 0x900 = some pairRow := by decide
theorem regAt_index : regAt 0x100 = some indexRow := by decide

theorem regFind_bias (n : Nat) : regFind 0x600 (n + 1) = some (biasRow, 0x600) :=
  regFind_at regAt_bias (by decide) (by decide) (by decide) (by decide) n
theorem regFind_pin (n : Nat) : regFind 0x108 (n + 1) = some (pinRow, 0x108) :=
  regFind_at regAt_pin (by decide) (by decide) (by decide) (by decide) n
theorem regFind_pair (n : Nat) : regFind 0x900 (n + 1) = some (pairRow, 0x900) :=
  regFind_at regAt_pair (by decide) (by decide) (by decide) (by decide) n
theorem regFind_index (n : Nat) : regFind 0x100 (n + 1) = some (indexRow, 0x100) :=
  regFind_at regAt_index (by decide) (by decide) (by decide) (by decide) n

section
variable {s : State} {v : Nat}

/-- DRF_BIAS_CTL stored where enable may take its value and page_size is kept (R255). -/
theorem writeBias_stored (h1 : v.testBit 0 = true → csrBit s 0x600 0 = true ∨ sfCount s = 0) (h2 : s.pw.pstate ≠ 3)
    (h3 : csrBit s 0x600 0 = true → fld v 3 2 = csrFld s 0x600 3 2) :
    writeBias s biasRow v = { s := if v.testBit 1 then biasInitStart (stored s 0x600 v) else stored s 0x600 v } := by
  have hon : (!csrBit s 0x600 0 && v.testBit 0 && sfCount s != 0) = false := by
    cases hv : v.testBit 0
    · simp
    · rcases h1 hv with h | h <;> simp [h]
  have hret : retaining s = false := by simp [retaining, h2]
  have hkeep : keepField s 0x600 (csrBit s 0x600 0) 3 2 v = (v, false) := by
    cases hb : csrBit s 0x600 0
    · simp [keepField]
    · simp [keepField, h3 hb, csrFld]
  unfold writeBias
  dsimp only
  rw [hon, hret, hkeep, plainWrite_eq regAt_bias]
  rfl

/-- The enable of bias is ignored while the filter tracks host lines (R255). -/
theorem writeBias_ignored (h1 : v.testBit 0 = true) (h2 : csrBit s 0x600 0 = false) (h3 : sfCount s ≠ 0) :
    writeBias s biasRow v = ignoreWrite s := by
  unfold writeBias
  rw [if_pos (by simp [h1, h2, h3])]

/-- DRF_PIN_CTL stored where the rules let pin_ways change (R91, R92, R341). -/
theorem writePin_stored (h1 : anyPinned s = false) (h2 : s.arr.pinBusy = false) (h3 : s.pr.mirrors = []) (h4 : fld v 3 0 + 4 ≤ fewestWays s)
    (h5 : mirrorWays s ≤ fld v 3 0) (h6 : s.pw.pstate ≠ 3) :
    writePin s pinRow v = { s := { stored s 0x108 v with arr := { s.arr with
      pinBusy := decide (pinWays s < fld v 3 0), roles := pinRoles (stored s 0x108 v) (fld v 3 0) } } } := by
  have harr : (stored s 0x108 v).arr = s.arr := by
    unfold stored
    rw [regAt_pin]
    rfl
  unfold writePin
  dsimp only
  rw [if_neg (by simp [h1, h2, h3, h4, h5]), if_neg (by simp [retaining, h6]), plainWrite_eq regAt_pin, harr]

/-- DRF_PAIR_CTL stored where the rules let mirror_ways change (R341). -/
theorem writeMirror_stored (h1 : anyPinned s = false) (h2 : anyPaired s = false) (h3 : s.pr.mirrors = []) (h4 : fld v 7 4 ≤ pinWays s)
    (h5 : s.pw.pstate ≠ 3) : writeMirror s pairRow v = { s := stored s 0x900 v } := by
  unfold writeMirror
  dsimp only
  rw [if_neg (by simp [h1, h2, h3, h4]), if_neg (by simp [retaining, h5]), plainWrite_eq regAt_pair]

/-- DRF_INDEX_CTL stored before demand traffic, or where stripe_shift is kept (R74). -/
theorem writeStripe_stored (h : s.pw.locked = false ∨ fld v 2 0 = csrFld s 0x100 2 0) : writeStripe s indexRow v = { s := stored s 0x100 v } := by
  unfold writeStripe
  rw [if_neg (by rcases h with h | h <;> simp [h]), plainWrite_eq regAt_index]

/-- A change of stripe_shift after demand traffic is ignored (R74). -/
theorem writeStripe_ignored (h1 : s.pw.locked = true) (h2 : fld v 2 0 ≠ csrFld s 0x100 2 0) : writeStripe s indexRow v = ignoreWrite s := by
  unfold writeStripe
  rw [if_pos (by simp [h1, h2])]

end

/-! ## The other rows -/

/-- BIAS_INIT_DONE ends the clearing of the table once none of its writes is under way (R255). -/
theorem biasInitDone_eq (s : State) : biasInitDone s = if (s.arr.memWrs.any fun w => w.for_ == .bias) = true ∨
    (s.arr.memq.any fun q => match q with
      | .wr w _ _ => w.for_ == .bias
      | .rd _ => false) = true then s else { s with coh := { s.coh with biasBusy := false } } := by
  unfold biasInitDone
  simp only [Bool.or_eq_true] <;> rfl

/-- The emptying of the ways being reserved goes over the lines they hold, and ends once they hold none (R92). -/
theorem pinReserve_busy {s u : State} (h : s.arr.pinBusy = true)
    (hu : u = (pinSlotsHeld s).foldl (fun v k => emptySlot (closeLine v (lineAt v k).addr) k) s) :
    pinReserve s = advance (if pinSlotsHeld u = [] then { u with arr := { u.arr with pinBusy := false } } else u) := by
  subst hu
  rw [pinReserve, if_neg (by simp [h])]
  simp only [List.isEmpty_iff]

/-- Settles O55: a permitted write frame reaches its register once, whose write stores, or is ignored, by the register's own rule. -/
theorem placementWrites : Obligations.PlacementWrites := by
  refine ⟨?init, ?enable, ?tracked, ?done, ?pin, ?empty, ?idle, ?mirror, ?stripe, ?locked⟩
  case init =>
    intro a s h hv h0 hp hk
    exact next_csrDo_stored h (by decide) regFind_bias ((writeBias_stored h0 hp hk).trans (by rw [if_pos hv]))
  case enable =>
    intro a s h hv h0 hp hk
    exact next_csrDo_stored h (by decide) regFind_bias ((writeBias_stored h0 hp hk).trans (by rw [if_neg (by simp [hv])]))
  case tracked =>
    intro a s h h0 hon hc
    exact next_csrDo_ignored h (by decide) regFind_bias (writeBias_ignored h0 hon hc)
  case done => exact fun s => congrArg Host.Outcome.next (biasInitDone_eq s)
  case pin =>
    intro a s h h1 h2 h3 h4 h5 h6
    exact next_csrDo_stored h (by decide) regFind_pin (writePin_stored h1 h2 h3 h4 h5 h6)
  case empty =>
    intro s hs hb u hu
    exact congrArg Host.Outcome.next ((if_pos hs).trans (pinReserve_busy hb hu))
  case idle =>
    intro s h
    have hidle : (if serving s then pinReserve s else s) = s := by
      rcases h with h | h
      · exact if_neg (by simp [h])
      · have : pinReserve s = s := by rw [pinReserve, if_pos (by simp [h])]
        rw [this, ite_self]
    exact congrArg Host.Outcome.next hidle
  case mirror =>
    intro a s h h1 h2 h3 h4 h5
    exact next_csrDo_stored h (by decide) regFind_pair (writeMirror_stored h1 h2 h3 h4 h5)
  case stripe =>
    intro a s h hl
    exact next_csrDo_stored h (by decide) regFind_index (writeStripe_stored hl)
  case locked =>
    intro a s h hl hv
    exact next_csrDo_ignored h (by decide) regFind_index (writeStripe_ignored hl hv)

end Sys2Proof.Machine
end

section
/-! The plan banks over a row that is none of their own (O15). -/

namespace Sys2Proof.Machine

open Sys2Proof

/-- Settles O15: of the groups that every row keeps, the plan banks are one that only their own rows and a cold reset leave. -/
theorem planBanksHold : Obligations.PlanBanksHold := by
  intro c s t hrow h
  have hplan : rowKeeps c .plan = true := by simp [rowKeeps, hrow]
  exact (exec_keeps c s t h).plan hplan

end Sys2Proof.Machine
end

section
/-! A RANGE.FLUSH whose drain changes the class of the line it then flushes (O43). -/

namespace Sys2Proof.Machine

open Sys2Proof

/-- A RANGE.FLUSH of the one line at 2^20, not expert: its operation takes the class of the last that covers the line (R427). -/
def oneLineFlush : Cmd :=
  { n := 1, ring := 2, idx := 5, code := 0x021, desc := List.replicate 16 0 ++ leBytes 8 (2 ^ 20) ++ leBytes 8 512 ++ List.replicate 32 0 }

/-- A serving slice, between open cycles, whose table keeps a record of class 5 for the undefined last 7, and whose merging buffer
holds a bad entry of that last. LAST.DELETE empties the record and drains the entries first (R424), so the slice does not come here by
itself, but the statement speaks of every state. -/
def strayEntry : State :=
  { pw := { pstate := 2, rstN := true, ready := true }
    rg := { cmds := [oneLineFlush], n := 2 }
    arr := { lasts := [(7, { base := 2 ^ 20, limit := 2 ^ 21, attr := 5 * 2 ^ 20, cond := 0 })]
             merges := [{ n := 1, sector := 2 ^ 14, last := 7, bad := true }], n := 2 }
    pl := { openNow := false } }

/-- The classes of the operations presented in the next state of an outcome. -/
def presentedClasses : Host.Outcome State Fault Refusal → List Nat
  | .next t => t.arr.presented.map (·.m.qos)
  | _ => []

theorem strayEntry_starts : Starts strayEntry 2 5 0x021 oneLineFlush := by unfold Starts; decide +kernel

/-- The flush walks the line of the entry (R429). -/
theorem strayEntry_walkLines :
    walkLines strayEntry (rangeBase oneLineFlush) (rangeBase oneLineFlush + rangeLen oneLineFlush) false = [2 ^ 11] := by decide +kernel

/-- Before the drain the default last covers that line, whose class is 0. -/
theorem strayEntry_rangeQos : rangeQos strayEntry oneLineFlush (2 ^ 11) = 0 := by decide +kernel

/-- The row presents the flush in class 5: the drain of the bad entry has made last 7 FAILED (R452), and a FAILED last covers its lines. -/
theorem rangeFlush_strayEntry : presentedClasses (exec (.rangeFlush 2 5) strayEntry) = [5] := by decide +kernel

/-- Refutes O43: RANGE.FLUSH reads the class of a line after it has drained the merging entries of its range, where the statement reads it
before; a drain that makes an undefined last FAILED changes the last that covers the line, and so its class. -/
theorem not_rangeCommands : ¬ Obligations.RangeCommands := by
  rintro ⟨-, hflush, -⟩
  have hclasses := congrArg presentedClasses
    (hflush 2 5 oneLineFlush strayEntry strayEntry_starts (by decide +kernel) (by decide +kernel))
  rw [rangeFlush_strayEntry, strayEntry_walkLines, List.map_singleton, strayEntry_rangeQos] at hclasses
  exact absurd hclasses (by decide +kernel)

end Sys2Proof.Machine
end

section
/-! The queue and what has been driven, over one step (O11). -/

namespace Sys2Proof.Machine

open Sys2Proof

/-- Every row of the table is answered with a next state (notes/assumptions 1, 2). -/
theorem exec_next (c : Instr) (s : State) : ∃ t, exec c s = .next t := by
  cases c <;> exact ⟨_, rfl⟩

/-- A cycle passed keeps the queue and what has been driven (R541). -/
theorem tick_appends (s : State) : (tick s).pending = s.pending ∧ s.out <+: (tick s).out :=
  have hkeep := tick_keeps (gr := fun _ => false) (Keeps.refl _ s) rfl rfl
  ⟨hkeep.pending, hkeep.out⟩

/-- Settles O11: what every row keeps covers the queue's rest and what has been driven, and a cycle without a row keeps both too. -/
theorem queueAndOutputs : Obligations.QueueAndOutputs := by
  refine ⟨fun s t h => ?_, exec_next⟩
  cases hq : s.pending with
  | nil =>
    obtain rfl : tick s = t := Host.Outcome.next.inj (by rw [← h, step, hq])
    obtain ⟨hpending, hout⟩ := tick_appends s
    exact ⟨hpending.trans hq, hout⟩
  | cons c q =>
    rw [step_of_pending_cons hq] at h
    have hkeep := exec_keeps c { s with pending := q } t h
    exact ⟨hkeep.pending, hkeep.out⟩

end Sys2Proof.Machine
end

section
/-! Requests that the slice does not accept (O37). -/

namespace Sys2Proof.Machine

open Sys2Proof

/-! ## The arrival of a message (R266, R516) -/

/-- A message that arrives is metered and its credit returned; nothing else changes (R266, R516). -/
theorem arrives_eq (s : State) (m : Msg) (c p : Nat) : ∃ q o, arrives s m c p = { s with qs := q, out := o } := by
  have credits (l : List Nat) (t : State) : ∃ q o, l.foldl (fun s _ => returnCredit s .blk 0) t = { t with qs := q, out := o } := by
    induction l generalizing t with
    | nil => exact ⟨_, _, rfl⟩
    | cons n l ih =>
      obtain ⟨q, o, h⟩ := ih (returnCredit t .blk 0)
      exact ⟨q, o, h⟩
  by_cases hb : m.port = .blk
  · rw [arrives, if_pos hb]
    exact credits _ _
  · rw [arrives, if_neg hb]
    generalize msgBytes m.port p = b
    generalize b / (if m.port = .hst then 64 else 16) = beats
    dsimp only
    split
    · exact ⟨_, _, rfl⟩
    · exact ⟨_, _, rfl⟩

section
variable {s t : State} {q : Qos} {o : List Out}

/-- The class of a requester goes by the registers (R564). -/
theorem hedgeClass_of_qs_out (h : t = { s with qs := q, out := o }) (src : Nat) : hedgeClass t src = hedgeClass s src := by subst h; rfl

/-- Whether a class is fenced goes by the registers (R568). -/
theorem hedgeFenced_of_qs_out (h : t = { s with qs := q, out := o }) (c : Nat) : hedgeFenced t c = hedgeFenced s c := by subst h; rfl

/-- The checks of R272 go by the straps and the lasts. -/
theorem reqCheck_of_qs_out (h : t = { s with qs := q, out := o }) (k : Rq) (m : Msg) : reqCheck t k m = reqCheck s k m := by subst h; rfl

end

/-! ## What `receive` does, case by case -/

/-- What the slice does with a request it accepts, once it has arrived (`receive_serving`). -/
def requestTaken (u : State) (k : Rq) (m : Msg) : State :=
  match k with
  | .fence => advance (fenceAccept (traceAccept u u.arr.n k.code.1 k.code.2 m) m false)
  | .conflict => advance (fenceAccept (traceAccept u u.arr.n k.code.1 k.code.2 m) m true)
  | _ => advance (present (traceAccept (accept u m).1 u.arr.n k.code.1 k.code.2 m) (k.toOp m u.arr.n))

/-- The row of a request is its receipt. -/
theorem exec_request {k : Rq} {m : Msg} (h : rowMsg k m = m) (s : State) : exec (k.instr m) s = .next (receive s k m) := by
  cases k with
  | blkWr | blkAtl =>
    have hport : ({ m with port := .blk } : Msg) = m := h
    exact congrArg (fun x => Host.Outcome.next (receive s _ x)) hport
  | _ => rfl

section
variable {s : State} {k : Rq} {m : Msg}

/-- A fenced slice answers ST_FENCED whatever it can answer (R473). -/
theorem receive_fenced (h : s.hd.fenced = true) :
    receive s k m = if m.parity = .header ∨ m.unlisted = 2 then arrived s k m else refuse (arrived s k m) k m St.fenced := by
  rw [receive, if_pos h]
  by_cases hp : m.parity = .header
  · rw [if_pos (Or.inl hp), hp]
    rfl
  · have hpar : (m.parity != .header) = true := bne_iff_ne.mpr hp
    by_cases hu : m.unlisted = 2
    · rw [if_pos (Or.inr hu), hpar, hu]
      rfl
    · have hun : (m.unlisted != 2) = true := bne_iff_ne.mpr hu
      rw [if_neg (not_or.mpr ⟨hp, hu⟩), hpar, hun]
      rfl

/-- A request that arrives in BACKUP_HOLD waits (R560). -/
theorem receive_backupHold (hf : s.hd.fenced = false) (hp : s.pw.pstate = 4) (hr : s.pw.ready = true) :
    receive s k m = { s with held := s.held ++ [k.instr m] } := by
  rw [receive, if_neg (by simp [hf]), if_pos ⟨hp, hr⟩]

/-- The mesh keeps a request while the slice does not serve (R476, R558). -/
theorem receive_notServing (hf : s.hd.fenced = false) (hp : s.pw.pstate ≠ 4 ∨ s.pw.ready = false) (hs : serving s = false) :
    receive s k m = s := by
  have hold : ¬(s.pw.pstate = Ps.backupHold ∧ s.pw.ready = true) := by
    rintro ⟨h4, hr⟩
    cases hp with
    | inl hne => exact hne h4
    | inr hnr => exact absurd hr (Bool.eq_false_iff.mp hnr)
  rw [receive, if_neg (Bool.eq_false_iff.mp hf), if_neg hold, hs]
  rfl

/-- What a slice that serves does with a request once it has arrived (R272, R450, R566, R568). -/
theorem receive_serving (hs : serving s = true) : receive s k m =
    if m.parity = .header then parityRecord (arrived s k m) m
    else if m.parity = .payload then
      parityRecord (if m.unlisted = 2 then arrived s k m else refuse (arrived s k m) k m St.dataError) m
    else if m.unlisted = 2 then ev (arrived s k m) Ev.msgBad
    else if hedgeFenced s (hedgeClass s m.src) then
      refuse (hedgeDeny (arrived s k m) m (hedgeClass s m.src)) k m St.hedgeDenied
    else if reqCheck s k m ≠ 0 then refuse (arrived s k m) k m (reqCheck s k m)
    else if !hedgePasses s m (hedgeClass s m.src) k.need then
      refuse (hedgeDeny (arrived s k m) m (hedgeClass s m.src)) k m St.hedgeDenied
    else requestTaken (arrived s k m) k m := by
  obtain ⟨q, o, ha⟩ := arrives_eq s m k.code.1 (k.payload m)
  rw [← arrived] at ha
  have hserv := hs
  simp only [serving, Bool.and_eq_true, beq_iff_eq, Bool.not_eq_true'] at hserv
  obtain ⟨⟨hps, hfen⟩, -⟩ := hserv
  have hpass : hedgePasses (arrived s k m) m (hedgeClass s m.src) k.need = hedgePasses s m (hedgeClass s m.src) k.need :=
    hedgePasses_of_csr (by rw [ha]) _ _ _
  rw [receive, if_neg (by simp [hfen]), if_neg (by simp [hps, Ps.serving, Ps.backupHold]), if_neg (by simp [hs])]
  dsimp only
  rw [← arrived, hedgeClass_of_qs_out ha, hpass, hedgeFenced_of_qs_out ha, reqCheck_of_qs_out ha]
  cases k <;> rfl

/-- A request received past the checks of R450 and R568 meets those of R272, then the hedge. -/
theorem receive_received (h : Received s m) : receive s k m =
    if reqCheck s k m ≠ 0 then refuse (arrived s k m) k m (reqCheck s k m)
    else if !hedgePasses s m (hedgeClass s m.src) k.need then
      refuse (hedgeDeny (arrived s k m) m (hedgeClass s m.src)) k m St.hedgeDenied
    else requestTaken (arrived s k m) k m := by
  obtain ⟨hs, hpar, hun, hfence⟩ := h
  rw [receive_serving hs, if_neg (by simp [hpar]), if_neg (by simp [hpar]), if_neg hun, if_neg (by simp [hfence])]

/-- A request that fails a check of R272 is refused with the status of the first. -/
theorem receive_checked (h : Received s m) {st : Nat} (hc : reqCheck s k m = st) (hst : st ≠ 0) :
    receive s k m = refuse (arrived s k m) k m st := by
  rw [receive_received h, hc, if_pos hst]

/-- A request that the hedge does not grant is refused and logged (R566, R567). -/
theorem receive_denied (h : Received s m) (hc : reqCheck s k m = 0) (hp : hedgePasses s m (hedgeClass s m.src) k.need = false) :
    receive s k m = refuse (hedgeDeny (arrived s k m) m (hedgeClass s m.src)) k m St.hedgeDenied := by
  rw [receive_received h, if_neg (by simp [hc]), if_pos (by simp [hp])]

/-- A request through every check and granted by the hedge is taken (R272, R566). -/
theorem receive_accepted (h : Accepted s k m) : receive s k m = requestTaken (arrived s k m) k m := by
  obtain ⟨hr, hc, hp⟩ := h
  rw [receive_received hr, if_neg (by simp [hc]), if_neg (by simp [hp])]

end

/-- Settles O37: a request falls at the first check it fails, in the order in which the slice makes them. -/
theorem requestsRefused : Obligations.RequestsRefused := by
  intro k m s hrow
  rw [exec_request hrow]
  refine ⟨?fenced, ?held, ?idle, ?serving, ?received⟩
  case fenced => exact fun hf => congrArg Host.Outcome.next (receive_fenced hf)
  case held => exact fun hf hp hr => congrArg Host.Outcome.next (receive_backupHold hf hp hr)
  case idle => exact fun hf hp hs => congrArg Host.Outcome.next (receive_notServing hf hp hs)
  case serving =>
    intro hs
    rw [receive_serving hs]
    refine ⟨fun hpar => ?_, fun hpar hun => ?_, fun hpar hun => ?_, fun hpar hun hfence => ?_⟩
    · rw [if_pos hpar]
    · rw [if_neg (by simp [hpar]), if_pos hpar, if_neg hun]
    · rw [if_neg (by simp [hpar]), if_neg (by simp [hpar]), if_pos hun]
    · rw [if_neg (by simp [hpar]), if_neg (by simp [hpar]), if_neg hun, if_pos hfence]
  case received =>
    rintro hr u rfl
    refine ⟨fun hop => ?_, fun hop hsize => ?_, fun hop hsize haddr => ?_, fun hc hp => ?_⟩
    · rw [receive_checked hr (by rw [reqCheck, if_pos hop]) (by decide)]
    · rw [receive_checked hr (by rw [reqCheck, if_neg (by simp [hop]), if_pos hsize]) (by decide)]
    · rw [receive_checked hr (by rw [reqCheck, if_neg (by simp [hop]), if_neg (by simp [hsize]), if_pos haddr]) (by decide)]
    · rw [receive_denied hr hc hp]

end Sys2Proof.Machine
end

section
/-! A FENCE and a BI_CONFLICT, from their acceptance to the answer driven (O36). -/

namespace Sys2Proof.Machine

open Sys2Proof

/-! ## MEM requests and the end of a traced request -/

/-- `t` is `s` but for MEM requests that join those waiting or are issued, with what is driven, metered and traced for them; no credit of CTL,
HST or BLK is used. -/
def MemSent (s t : State) : Prop :=
  ∃ out credits qs q r w, t = { s with
    out := out, credits := credits, qs := qs, arr := { s.arr with memq := q, memRds := r, memWrs := w } } ∧
    ∀ ch < 17, SMap.get 0 credits ch = SMap.get 0 s.credits ch

theorem MemSent.refl (s : State) : MemSent s s := ⟨_, _, _, _, _, _, rfl, fun _ _ => rfl⟩

theorem MemSent.trans {s t u : State} (h : MemSent s t) (k : MemSent t u) : MemSent s u := by
  obtain ⟨_, _, _, _, _, _, rfl, hc⟩ := h
  obtain ⟨a, b, c, d, e, f, rfl, kc⟩ := k
  exact ⟨a, b, c, d, e, f, rfl, fun ch h => (kc ch h).trans (hc ch h)⟩

/-- Stages reached by the requests that a MEM request serves change traces alone (R534). -/
theorem memStage_memSent (s : State) (q : MemReq) : MemSent s (memStage s q) := by
  unfold memStage
  repeat' split
  all_goals exact ⟨_, _, _, _, _, _, rfl, fun _ _ => rfl⟩

/-- A MEM request issued uses credits of MEM alone (R14, R21). -/
theorem memStep_memSent {s t : State} (h : memStep s = some t) : MemSent s t := by
  have hcredit {ch n : Nat} {c : SMap Nat} (hn : 17 ≤ n) (v : Nat) (hch : ch < 17) : SMap.get 0 (SMap.put 0 c n v) ch = SMap.get 0 c ch :=
    SMap.get_put_ne (by omega)
  unfold memStep at h
  dsimp only at h
  split at h
  · cases h
  split at h
  · cases h
  split at h
  · cases h
  split at h
  · split at h
    · cases h
    cases h
    exact .trans ⟨_, _, _, _, _, _, rfl, fun ch hch => hcredit (by decide) _ hch⟩ (memStage_memSent _ _)
  · split at h
    · cases h
    split at h
    · cases h
    cases h
    exact .trans ⟨_, _, _, _, _, _, rfl, fun ch hch => (hcredit (by decide) _ hch).trans (hcredit (by decide) _ hch)⟩ (memStage_memSent _ _)

theorem memPump_memSent (k : Nat) (s : State) : MemSent s (memPump k s) := by
  induction k generalizing s with
  | zero => exact .refl s
  | succ k ih =>
    rw [memPump]
    split
    · exact (memStep_memSent ‹_›).trans (ih _)
    · exact .refl s

theorem memPush_memSent (s : State) (q : MemReq) : MemSent s (memPush s q) :=
  .trans ⟨_, _, _, _, _, _, rfl, fun _ _ => rfl⟩ (memPump_memSent _ _)

/-- The record of a tagged request that completes is written to memory (R534). -/
theorem traceEnd_memSent (s : State) (n status : Nat) : MemSent s (traceEnd s n status) := by
  unfold traceEnd
  split
  · exact .refl s
  · dsimp only
    split
    · exact ⟨_, _, _, _, _, _, rfl, fun _ _ => rfl⟩
    · exact .trans ⟨_, _, _, _, _, _, rfl, fun _ _ => rfl⟩ (memPush_memSent _ _)

theorem stage_memSent (s : State) (n i : Nat) : MemSent s (stage s n i) := ⟨_, _, _, _, _, _, rfl, fun _ _ => rfl⟩

/-- A slice with nothing to go on with has none either when MEM requests have been made. -/
theorem Settled.memSent {s t : State} (h : Settled s) (k : MemSent s t) : Settled t := by
  obtain ⟨_, _, _, _, _, _, rfl, -⟩ := k
  exact ⟨h.evicts, h.waiting, h.presented, h.fences, h.sums, h.stageOuts, h.failing, h.flips, h.bufs, h.drains, h.rollLogs, h.cmds, h.retire⟩

/-- A slice with nothing to go on with has none either when a message has been sent. -/
theorem Settled.sent {s t : State} (h : Settled s) (k : Sent s t) : Settled t := by
  obtain ⟨_, _, _, _, _, _, _, _, _, rfl⟩ := k
  exact ⟨h.evicts, h.waiting, h.presented, h.fences, h.sums, h.stageOuts, h.failing, h.flips, h.bufs, h.drains, h.rollLogs, h.cmds, h.retire⟩

/-! ## The one fence that waits is answered (R278, R290) -/

/-- The slice without what fences wait for. -/
def unfenced (s : State) : State := { s with arr := { s.arr with fences := [] } }

/-- The port by which a FENCE or a BI_CONFLICT is answered (R270). -/
def fencePort (f : FenceWait) : Port := if f.conflict then .hst else answerPort f.m.port

/-- The answer to a FENCE or a BI_CONFLICT (R270). -/
def fenceReply (s : State) (f : FenceWait) : Out :=
  .msg (fencePort f)
    { cls := 1, opcode := if f.conflict then 2 else 0, qos := f.m.qos, tag := f.m.tag, dst := f.m.src, src := ownId s, addr := f.m.addr,
      size := f.m.size }

/-- `t` is `s` with its only fence answered. -/
structure FenceAnswered (s t : State) (f : FenceWait) : Prop where
  n : t.arr.n = s.arr.n
  fences : t.arr.fences = []
  lines : t.arr.lines = s.arr.lines
  driven : fenceReply s f ∈ t.out

section
variable {s : State} {f : FenceWait}

/-- A fence that may be answered is, with its trace ended. -/
theorem fencePump_ready (hf : s.arr.fences = [f]) (hd : fenceDrain s f = s) (hr : fenceReady s f = true) :
    ∃ w, MemSent (unfenced s) w ∧ fencePump s = sendCh w (channel (fencePort f) 1) (fenceReply s f) := by
  have hsent := ((stage_memSent (unfenced s) f.n 8).trans (stage_memSent _ f.n 9)).trans (traceEnd_memSent _ f.n St.ok)
  have hfilter : (s.arr.fences.filter fun x => x.n != f.n) = [] := by simp [hf]
  unfold fencePump
  rw [hf, List.foldl_cons, List.foldl_nil]
  dsimp only
  rw [hd, if_pos hr, hfilter, ← unfenced]
  generalize traceEnd (stage (stage (unfenced s) f.n 8) f.n 9) f.n St.ok = w at hsent ⊢
  have hown : ownId w = ownId s := by obtain ⟨_, _, _, _, _, _, rfl, -⟩ := hsent; rfl
  refine ⟨w, hsent, ?_⟩
  cases hc : f.conflict <;> simp only [fenceReply, fencePort, hc, Bool.false_eq_true, if_false, if_true, cmpl, answer, sendMsg, hown]

/-- A slice that serves with nothing to go on with after it has gone on once does not go on further. -/
theorem advance_of_pump {t : State} (hs : serving s = true) (hp : pump s = t) (ht : Settled t) : advance s = t := by
  rw [advance, if_pos hs]
  simp only [hp, drainPump_settled ht, rollPump_settled ht, stageOutPump_settled ht, cmdStep_settled ht.cmds, pump_settled ht,
    cmdSweep_settled ht, retirePump_settled ht]

/-- With nothing else to go on with, what fences wait for is looked at. -/
theorem pump_fences (h : Settled (unfenced s)) : pump s = fencePump s := by
  have hside : memSidePump s = s := by
    have hf : (s.arr.mhes.filter fun m => m.kind == .memSide && m.got == 15 && !m.reads.isEmpty) = [] :=
      List.filter_eq_nil_iff.mpr fun m hm => List.any_eq_false.mp h.sums m hm
    rw [memSidePump, hf, List.foldl_nil]
  have hfail : failPump s = s := by
    have hnone : s.coh.failing = [] := h.failing
    have e : { s.coh with failing := [] } = s.coh := by rw [← hnone]
    simp [failPump, hnone, snoopBlocks, e]
  have hflip : flipPump s = s := by
    have hnone : s.coh.flips = [] := h.flips
    simp [flipPump, hnone]
  have hwait : s.arr.waiting = [] := h.waiting
  have hpres : s.arr.presented = [] := h.presented
  have hretry (k : Nat) : retryAll k s = s := by cases k <;> simp [retryAll, hwait]
  have hissue (k : Nat) : issueAll k s = s := by cases k <;> simp [issueAll, hpres]
  have hevict : s.arr.evicts.foldl evictRetry s = s := evictRetry_settled h.evicts
  simp only [pump, hevict, hside, hfail, hflip, hretry, hissue]

/-- A slice that has nothing to go on with but a fence, whose conditions are met and whose answer has a credit, answers it (R278, R290). -/
theorem advance_fence (hs : serving s = true) (hset : Settled (unfenced s)) (hf : s.arr.fences = [f])
    (hm : f.conflict = true ∨ f.m.mod ≠ 2) (hr : fenceReady s f = true) (htx : s.txq = []) (hcore : s.pw.coreDown = false)
    (hcred : SMap.get 0 s.credits (channel (fencePort f) 1) ≠ 0) :
    FenceAnswered s (advance s) f := by
  have hd : fenceDrain s f = s := by
    rw [fenceDrain, if_pos (by rcases hm with h | h <;> simp [h])]
  have hch : channel (fencePort f) 1 < 17 := by
    unfold fencePort answerPort
    split
    · decide
    · split <;> decide
  obtain ⟨w, hw, hp⟩ := fencePump_ready hf hd hr
  have hsent := sendCh_sent w (channel (fencePort f) 1) (fenceReply s f)
  have hend := (hset.memSent hw).sent hsent
  rw [advance_of_pump hs ((pump_fences hset).trans hp) hend]
  have hdriven : fenceReply s f ∈ (sendCh w (channel (fencePort f) 1) (fenceReply s f)).out := by
    obtain ⟨_, _, _, _, _, _, rfl, hkeep⟩ := hw
    simp only [serving, Bool.and_eq_true, beq_iff_eq] at hs
    obtain ⟨⟨hps, -⟩, -⟩ := hs
    exact sendCh_driven (by rw [hkeep _ hch]; exact hcred) htx (by simp [portsHalt, unfenced, hps, hcore, Ps.serving])
  generalize sendCh w (channel (fencePort f) 1) (fenceReply s f) = t at hsent hend hdriven
  obtain ⟨_, _, _, _, _, _, rfl, -⟩ := hw
  obtain ⟨_, _, _, _, _, _, _, _, _, rfl⟩ := hsent
  exact ⟨rfl, hend.fences, rfl, hdriven⟩

end

/-! ## Acceptance -/

/-- A request passed to the trace changes the trace, its counts and the registers of counters that wrapped alone (R533, R534). -/
theorem traceAccept_eq (s : State) (n c p : Nat) (m : Msg) : ∃ q r, traceAccept s n c p m = { s with qs := q, csr := r } := by
  have hev (t : State) (k : Nat) (ht : ∃ q, t = { s with qs := q }) : ∃ q r, ev t k = { s with qs := q, csr := r } := by
    obtain ⟨q, rfl⟩ := ht
    obtain ⟨e, r, h⟩ := ev_eq { s with qs := q } k
    exact ⟨_, _, h⟩
  unfold traceAccept
  dsimp only
  generalize (if fld (csrGet s 0x3400) 53 51 = 0 then 7 else fld (csrGet s 0x3400) 53 51) = mask
  split
  · exact ⟨_, _, rfl⟩
  split
  · exact ⟨_, _, rfl⟩
  split
  · exact hev _ _ ⟨_, rfl⟩
  · exact hev _ _ ⟨_, rfl⟩

/-- A FENCE or BI_CONFLICT accepted by a settled slice is answered where nothing holds it back (R278, R290). -/
theorem fence_accepted {s : State} {m : Msg} {k : Rq} {conflict : Bool} (h : Accepted s k m) (hset : Settled s)
    (hm : conflict = true ∨ m.mod ≠ 2) (hready : ∀ t, t.arr.owed = s.arr.owed → t.txq = s.txq →
      fenceReady t { n := s.arr.n, m := m, conflict := conflict } = true)
    (htx : s.txq = []) (hcore : s.pw.coreDown = false)
    (hcred : SMap.get 0 s.credits (channel (fencePort { m := m, conflict := conflict }) 1) ≠ 0) {t : State}
    (ht : t = advance (fenceAccept (traceAccept (arrived s k m) s.arr.n k.code.1 k.code.2 m) m conflict)) :
    t.arr.n = s.arr.n + 1 ∧ t.arr.fences = [] ∧ t.arr.lines = s.arr.lines ∧
      fenceReply s { n := s.arr.n, m := m, conflict := conflict } ∈ t.out := by
  obtain ⟨⟨hs, -⟩, -⟩ := h
  obtain ⟨q, o, ha⟩ := arrives_eq s m k.code.1 (k.payload m)
  rw [← arrived] at ha
  obtain ⟨q', r, htr⟩ := traceAccept_eq (arrived s k m) s.arr.n k.code.1 k.code.2 m
  rw [htr, ha] at ht
  have hans := advance_fence (s := fenceAccept { s with out := o, qs := q', csr := r } m conflict)
    (f := { n := s.arr.n, m := m, conflict := conflict }) hs
    ⟨hset.evicts, hset.waiting, hset.presented, rfl, hset.sums, hset.stageOuts, hset.failing, hset.flips, hset.bufs, hset.drains,
      hset.rollLogs, hset.cmds, hset.retire⟩
    (by simp [fenceAccept, hset.fences]) hm (hready _ rfl rfl) htx hcore hcred
  subst ht
  exact ⟨hans.n, hans.fences, hans.lines, hans.driven⟩

/-- Settles O36: what is accepted waits alone, for nothing, and is answered in the row that brings it. -/
theorem fencesAccepted : Obligations.FencesAccepted := by
  refine ⟨?fence, ?conflict⟩
  case fence =>
    intro m s h hset hm howed htx hcore hcred
    refine ⟨_, (exec_request (k := .fence) rfl s).trans (congrArg Host.Outcome.next (receive_accepted h)),
      fence_accepted (conflict := false) h hset (.inr hm) (fun t ho _ => ?_) htx hcore hcred ?_⟩
    · have hnone : fenceCore t { n := s.arr.n, m := m } = true := by
        rw [fenceCore, ho, Bool.not_eq_true', List.any_eq_false]
        intro x hx
        have hnot := List.all_eq_true.mp howed x hx
        rw [Bool.not_eq_true'] at hnot
        simp [Bool.and_assoc, hnot]
      simp [fenceReady, hnone, hm]
    · obtain ⟨q, o, ha⟩ := arrives_eq s m (Rq.code .fence).1 (Rq.payload .fence m)
      rw [requestTaken, arrived, ha]
  case conflict =>
    intro m s h hset howed htx hcore hcred
    refine ⟨_, (exec_request (k := .conflict) rfl s).trans (congrArg Host.Outcome.next (receive_accepted h)),
      fence_accepted h hset (.inl rfl) (fun t ho ht => ?_) htx hcore hcred ?_⟩
    · simp [fenceReady, answerHeld, ho, ht, howed, htx]
    · obtain ⟨q, o, ha⟩ := arrives_eq s m (Rq.code .conflict).1 (Rq.payload .conflict m)
      rw [requestTaken, arrived, ha]

end Sys2Proof.Machine
end

section
/-! Register accesses, by a frame and over HST (O54). -/

namespace Sys2Proof.Machine

open Sys2Proof

/-! ## An access by a frame (R590, R591) -/

/-- The row of a register is the access it makes. -/
theorem exec_access {i : Instr} {a : Csr} {w : Bool} (h : accessOf i = some (a, w)) (s : State) : exec i s = .next (csrDo s a w) := by
  cases i <;> cases h <;> rfl

section
variable {s : State} {a : Csr}

/-- A frame of an access, a write or a read, is taken by the stop it is addressed to. -/
theorem csrDo_taken (hh : a.hdr = true) (ht : TakesFrame s (csrFrame a true)) (hd : a.m.dst = stopAddr s) (w : Bool) :
    csrDo s a w = advance (csrByFrame s a w) := by
  have hon : frameOn s (csrFrame a w) = s := if_pos hd
  have htype : frameTaken (csrFrame a w).type = true := by cases w <;> rfl
  rw [csrDo, if_pos hh, hdrGate_taken (f := csrFrame a w) ht htype, hon]

/-- A frame that is no repeat has its access performed and answered (R590, R591). -/
theorem csrByFrame_new (h : (s.hd.kept.find? fun e => e.1 == a.m.src && e.2.1 == a.m.tag) = none) (w : Bool) :
    csrByFrame s a w = csrFrameAnswer (csrAccess s a w).s a w (csrAccess s a w).status (csrAccess s a w).value := by
  rw [csrByFrame, h]

/-- A repeat has the answer kept for it sent again (R591). -/
theorem csrByFrame_repeat {src tag : Nat} {f : Frame}
    (h : (s.hd.kept.find? fun e => e.1 == a.m.src && e.2.1 == a.m.tag) = some (src, tag, f)) (w : Bool) :
    csrByFrame s a w = drive { s with hd := { s.hd with kept := (src, tag, f) :: s.hd.kept.filter fun e => e.1 != src } } (.hdr f) := by
  rw [csrByFrame, h]

end

/-! ## An access over HST (R272, R279, R588) -/

section
variable {s u : State} {a : Csr} {m : Msg} {w : Bool}

/-- A CSR message that arrives meets the checks of R272, and then those of the access. -/
theorem csrDo_hst (h : HstArrives s a) (hm : m = { a.m with port := .hst })
    (hu : u = arrives s m 4 (if w = true then m.data.length else 0)) :
    csrDo s a w = advance
      (if (m.rsvd || m.mod != 0 || decide (m.addr ≥ 2 ^ 16) || m.unlisted == 1 || fromPeer s m) = true then csrAnswer u m w St.badOp 0
      else if m.size ≠ 3 ∧ m.size ≠ 7 then csrAnswer u m w St.badSize 0
      else csrAnswer (csrAccess u { a with m := m } w).s m w (csrAccess u { a with m := m } w).status
        (csrAccess u { a with m := m } w).value) := by
  obtain ⟨hh, hf, hr, hp, hpar, hun, hfence⟩ := h
  subst hm
  obtain ⟨q, o, ha⟩ := arrives_eq s { a.m with port := .hst } 4 (if w = true then a.m.data.length else 0)
  have hsent := hu.trans ha
  have hopen : (!s.hd.fenced && !(s.pw.ready && (s.pw.pstate == Ps.serving || s.pw.pstate == Ps.backupHold))) = false := by
    rcases hp with hp | hp <;> simp [hr, hp, Ps.serving, Ps.backupHold]
  have hpeer : fromPeer u { a.m with port := .hst } = fromPeer s { a.m with port := .hst } := by rw [hsent]; rfl
  have hfen : u.hd.fenced = false := by rw [hsent]; exact hf
  rw [csrDo, if_neg (by simp [hh]), csrByHst, if_neg (by rw [hopen]; decide)]
  dsimp only
  rw [← hu, if_neg (by simp [hpar]), if_neg (by simp [hfen]), if_neg (by simp [hpar]), if_neg hun, hedgeClass_of_qs_out hsent,
    hedgeFenced_of_qs_out hsent, if_neg (by simp [hfence]), hpeer]

/-- The message of an access that fails no check of R272 but that of its size. -/
theorem hstFields_good (hrsvd : m.rsvd = false) (hmod : m.mod = 0) (haddr : m.addr < 2 ^ 16) (hun : m.unlisted = 0)
    (hpeer : fromPeer s m = false) :
    ¬(m.rsvd || m.mod != 0 || decide (m.addr ≥ 2 ^ 16) || m.unlisted == 1 || fromPeer s m) = true := by
  rw [hrsvd, hmod, decide_eq_false (show ¬m.addr ≥ 2 ^ 16 from Nat.not_le.mpr haddr), hun, hpeer]
  decide

/-- An access that fails no check of R272 is performed and answered (R279, R588). -/
theorem csrDo_performed (h : HstAccess s a) (hm : m = { a.m with port := .hst })
    (hu : u = arrives s m 4 (if w = true then m.data.length else 0)) :
    csrDo s a w = advance (csrAnswer (csrAccess u { a with m := m } w).s m w (csrAccess u { a with m := m } w).status
      (csrAccess u { a with m := m } w).value) := by
  obtain ⟨harr, hrsvd, hun, hmod, haddr, hpeer, hsize⟩ := h
  have hsizes : ¬(m.size ≠ 3 ∧ m.size ≠ 7) := by
    rw [hm]
    dsimp only
    omega
  rw [csrDo_hst harr hm hu, if_neg (by subst hm; exact hstFields_good hrsvd hmod haddr hun hpeer), if_neg hsizes]

/-- An access of a peer, of reserved fields or of an offset beyond the space is answered ST_BAD_OP (R272, R279). -/
theorem csrDo_badOp (h : HstArrives s a) (hm : m = { a.m with port := .hst })
    (hu : u = arrives s m 4 (if w = true then m.data.length else 0))
    (hbad : m.rsvd = true ∨ m.mod ≠ 0 ∨ 2 ^ 16 ≤ m.addr ∨ m.unlisted = 1 ∨ fromPeer s m = true) :
    csrDo s a w = advance (csrAnswer u m w St.badOp 0) := by
  rw [csrDo_hst h hm hu, if_pos (by simpa [or_assoc] using hbad)]

/-- An access of neither 4 nor 8 bytes is answered ST_BAD_SIZE (R272, R582). -/
theorem csrDo_badSize (h : HstArrives s a) (hm : m = { a.m with port := .hst })
    (hu : u = arrives s m 4 (if w = true then m.data.length else 0)) (hrsvd : m.rsvd = false) (hmod : m.mod = 0) (haddr : m.addr < 2 ^ 16)
    (hun : m.unlisted = 0) (hpeer : fromPeer s m = false) (h4 : m.size ≠ 3) (h8 : m.size ≠ 7) :
    csrDo s a w = advance (csrAnswer u m w St.badSize 0) := by
  rw [csrDo_hst h hm hu, if_neg (hstFields_good hrsvd hmod haddr hun hpeer), if_pos ⟨h4, h8⟩]

end

/-! ## The checks of an access (R582, R588, R589, R592) -/

section
variable {s : State} {a : Csr} {w : Bool}

/-- An access that fails a check changes nothing but the log (R589, R593). -/
theorem csrAccess_refused {st cause : Nat} (h : accCheck s a w = (st, cause)) (hst : st ≠ 0) :
    csrAccess s a w = { s := csrLatch s cause a.hdr (a.m.addr % 2 ^ 16) w a.m.src, status := st } := by
  unfold csrAccess
  rw [h]
  cases st with
  | zero => exact absurd rfl hst
  | succ n => rfl

/-- The checks of an access that overlaps a register, in their order. -/
theorem accCheck_at {r : RegRow} {c : Nat} (h : regFind (a.m.addr % 2 ^ 16) (a.m.size + 1) = some (r, c)) : accCheck s a w =
    if (!homeServed s r.homeC) = true then (St.badState, 5)
    else if (!a.hdr && !csrBit s 0xF00 (16 + hedgeClass s a.m.src)) = true then (St.hedgeDenied, 3)
    else if (a.hdr && a.m.rsvd) = true then (St.badSize, 2)
    else if (!sizeOk r c (a.m.addr % 2 ^ 16) (a.m.size + 1) w) = true then (St.badSize, 2)
    else if (w && !a.hdr && privReg r c && !csrBit s 0xF10 29) = true then (St.hedgeDenied, 3)
    else (0, 0) := by
  unfold accCheck
  dsimp only
  rw [h]

/-- A write where no register lies is logged (R587). -/
theorem csrAccess_write_none (hr : regFind (a.m.addr % 2 ^ 16) (a.m.size + 1) = none) (h : accCheck s a true = (0, 0)) :
    csrAccess s a true = { s := csrLatch s 4 a.hdr (a.m.addr % 2 ^ 16) true a.m.src } := by
  unfold csrAccess csrWrite
  rw [h]
  dsimp only
  rw [if_pos rfl, hr]
  rfl

/-- A read where no register lies returns zero (R587). -/
theorem csrAccess_read_none (hr : regFind (a.m.addr % 2 ^ 16) (a.m.size + 1) = none) (h : accCheck s a false = (0, 0)) :
    csrAccess s a false = { s := s } := by
  unfold csrAccess csrRead
  rw [h]
  dsimp only
  rw [if_neg (by decide), hr]
  rfl

end

/-! ## DRF_SCRATCH (R586, R593) -/

/-- DRF_SCRATCH, whose every bit software writes. -/
def scratchRow : RegRow := ⟨0x20, 0, 1, 8, 0xFFFFFFFFFFFFFFFF, 0x0, 0x0, false, 0⟩

theorem regAt_scratch : regAt 0x20 = some scratchRow := by decide

theorem regFind_scratch (n : Nat) : regFind 0x20 (n + 1) = some (scratchRow, 0x20) :=
  regFind_at regAt_scratch (by decide) (by decide) (by decide) (by decide) n

/-- A register reads the 64 bits put in it. -/
theorem csrGet_csrPut_self (s : State) (off v : Nat) : csrGet (csrPut s off v) off = v % 2 ^ 64 := by
  rw [csrGet, csrPut, SMap.get_put_self, BitVec.xor_assoc, BitVec.xor_self, BitVec.xor_zero, BitVec.toNat_ofNat]

/-- A write of DRF_SCRATCH replaces all its bits. -/
theorem csrGet_stored_scratch (s : State) (v : Nat) : csrGet (stored s 0x20 v) 0x20 = v % 2 ^ 64 := by
  have hlow : lowZero (csrPut s 0x20 (newBits s scratchRow 0x20 v)) 0x20 = 0 := rfl
  have hbits : newBits s scratchRow 0x20 v = v % 2 ^ 64 := by
    simpa [newBits, scratchRow] using Nat.and_two_pow_sub_one_eq_mod v 64
  unfold stored
  rw [regAt_scratch]
  dsimp only
  rw [storeBits, csrGet_csrPut_self, hlow, hbits, clearLow, Nat.pow_zero, Nat.div_one, Nat.mul_one, Nat.mod_mod]

/-- Settles O54: the two paths differ in how an access arrives and is answered; its checks and its effect are one. -/
theorem registerAccesses : Obligations.RegisterAccesses := by
  refine ⟨?frame, ?again, ?host, ?refused, ?failed, ?order, ?nowhere, ?scratch⟩
  case frame =>
    rintro i a w s hi ⟨hh, ht, hd, -, hk⟩
    rw [exec_access hi, csrDo_taken hh ht hd, csrByFrame_new hk]
  case again =>
    intro i a w f s hi hh ht hd hk
    rw [exec_access hi, csrDo_taken hh ht hd, csrByFrame_repeat hk]
  case host =>
    intro i a w s m u hi h hm hu
    rw [exec_access hi, csrDo_performed h hm hu]
  case refused =>
    intro i a w s m u hi h hm hu
    rw [exec_access hi]
    exact ⟨fun hbad => congrArg Host.Outcome.next (csrDo_badOp h hm hu hbad), fun hrsvd hmod haddr hun hpeer h4 h8 =>
      congrArg Host.Outcome.next (csrDo_badSize h hm hu hrsvd hmod haddr hun hpeer h4 h8)⟩
  case failed => exact fun a w s st cause => csrAccess_refused
  case order =>
    intro a w s r c hr
    rw [accCheck_at hr]
    refine ⟨fun hhome => ?_, fun hhome hh hclass => ?_, fun hhome hpath => ?_⟩
    · rw [if_pos (by simp [hhome])]
    · rw [if_neg (by simp [hhome]), if_pos (by simp [hh, hclass])]
    · rw [if_neg (by simp [hhome]), if_neg (by rcases hpath with ⟨hh, -⟩ | ⟨-, hclass⟩ <;> simp [*]),
        if_neg (by rcases hpath with ⟨-, hrsvd⟩ | ⟨hh, -⟩ <;> simp [*])]
      refine ⟨fun hsize => ?_, fun hsize hw hh hpriv hhost => ?_⟩
      · rw [if_pos (by rw [hsize]; rfl)]
      · rw [if_neg (by rw [hsize]; decide), if_pos (by simp [hw, hh, hpriv, hhost])]
  case nowhere => exact fun a s hr => ⟨csrAccess_write_none hr, csrAccess_read_none hr⟩
  case scratch =>
    intro a s h haddr
    have ha : csrAt a 0x20 = a := by rw [← haddr]; rfl
    have hstored := next_csrDo_stored (s := s) (a := a) (off := 0x20) (by rw [ha]; exact h) (by decide) regFind_scratch
      (show regWrite s scratchRow 0x20 (written a) = _ from plainWrite_eq regAt_scratch s (written a))
    rw [ha] at hstored
    exact ⟨(exec_access (i := .csrWr a) rfl s).trans hstored, csrGet_stored_scratch s (written a)⟩

end Sys2Proof.Machine
end

section
/-! SNP_WB data for a line of which the merging buffer holds a bad entry (O38). -/

namespace Sys2Proof.Machine

open Sys2Proof

/-- The 64 bytes of host line 0, written back for a snoop. -/
def writtenBack : Msg := { port := .hst, size := 63, data := List.replicate 64 0 }

/-- The tracker entry of that snoop. -/
def wbSnoop : Snoop := { host := 0 }

/-- The last of line 0: CACHE, in service, neither baled, tracked nor paired. -/
def cachedLast : Last := { base := 0, limit := 2 ^ 20, attr := 2 ^ 56, cond := 1 }

/-- Line 0 of that last, DIRTY and intact. -/
def dirtyLine : Line := { st := .dirty, last := 7 }

/-- A serving slice that has snooped host line 0, with its line resident and intact in a CACHE last, and a bad merging-buffer entry of that
last for the line. The slice makes entries for THROUGH lasts (R87) and drains them before it deletes one (R424); the statement speaks of every
state, and leaves the merging buffer open. -/
def strayMerge : State :=
  { pw := { pstate := 2, rstN := true, ready := true }
    arr := { lasts := [(7, cachedLast)], lines := [(0, dirtyLine)], merges := [{ n := 1, sector := 0, last := 7, bad := true }], n := 2 }
    coh := { snoops := [wbSnoop] } }

/-- The state of the line in a slot in the next state of an outcome. -/
def slotState (k : Nat) : Host.Outcome State Fault Refusal → Option LState
  | .next t => some (lineAt t k).st
  | _ => none

theorem strayMerge_settled : Settled strayMerge :=
  ⟨rfl, rfl, rfl, rfl, rfl, rfl, rfl, rfl, rfl, rfl, rfl, rfl, by decide⟩

theorem strayMerge_taken : Taken strayMerge writtenBack := by unfold Taken; decide +kernel

/-- The write-back reads the bad entry first: its last becomes FAILED and the line INVALID (R447, R452), and nothing is written. -/
theorem snpWb_strayMerge : slotState 0 (exec (.snpWb writtenBack) strayMerge) = some .invalid := by decide +kernel

/-- Refutes O38: the clause of a resident DIRTY line says nothing of the merging buffer, and a bad entry of the line there makes its last FAILED
before the SNP_WB is performed. -/
theorem not_hostAnswers : ¬ Obligations.HostAnswers := by
  rintro ⟨-, -, -, -, hresident, -⟩
  obtain ⟨t, hexec, -, hdirty, -⟩ := hresident writtenBack strayMerge 0 wbSnoop dirtyLine strayMerge_taken strayMerge_settled rfl rfl rfl rfl
    rfl (by decide +kernel) rfl rfl rfl rfl rfl rfl rfl (by decide +kernel) rfl rfl (by decide +kernel) rfl rfl rfl (by decide +kernel) rfl rfl
    (by decide +kernel) (by decide +kernel) (by decide +kernel) (by decide +kernel) (by decide +kernel) (by decide +kernel)
  have hstate := snpWb_strayMerge
  rw [hexec] at hstate
  exact absurd ((Option.some.inj hstate).symm.trans hdirty) (by decide)

end Sys2Proof.Machine
end

section
/-! What no repair, failure, record or message changes: the contexts, the seals, which drains are under way, the commands, what is staged for the
fellow and the link (O46, O59). -/

namespace Sys2Proof.Machine

open Sys2Proof

/-- The contexts, the seals that wait and the last one made, the context and generation of each drain, the commands, what is staged for the
fellow, and the link. -/
structure Standing where
  ctxs : SMap Ctx
  seals : List SealWait
  lastSeal : Option Nat
  drains : List (Nat × BitVec 32)
  cmds : List Cmd
  stage : List (Nat × Nat × Nat × Bytes)
  ends : List (Nat × Nat × Bool)
  link : Nat

/-- What stands in a state. -/
def standing (s : State) : Standing where
  ctxs := s.gen.ctxs
  seals := s.gen.seals
  lastSeal := s.gen.lastSeal
  drains := s.gen.drains.map fun d => (d.ctx, d.gen)
  cmds := s.rg.cmds
  stage := s.pr.stage
  ends := s.pr.ends
  link := s.tt.link

theorem Sent.standing {s t : State} (h : Sent s t) : standing t = standing s := by
  obtain ⟨_, _, _, _, _, _, _, _, _, rfl⟩ := h
  rfl

theorem Told.standing {s t : State} (h : Told s t) : standing t = standing s := by
  obtain ⟨_, _, _, _, _, _, _, _, _, _, _, rfl, -⟩ := h
  rfl

theorem MemSent.standing {s t : State} (h : MemSent s t) : standing t = standing s := by
  obtain ⟨_, _, _, _, _, _, rfl, -⟩ := h
  rfl

/-- What stands over every step of a fold stands over the fold. -/
theorem foldl_standing {β : Type} {f : State → β → State} (hf : ∀ s b, standing (f s b) = standing s) (l : List β) (s : State) :
    standing (l.foldl f s) = standing s := by
  induction l generalizing s with
  | nil => rfl
  | cons b l ih => rw [List.foldl_cons, ih, hf]

/-! ## Lines and lasts -/

@[simp] theorem standing_storeLine (s : State) (k : Nat) (l : Line) (m : LineMask) (b : Bool) :
    standing (storeLine s k l m b) = standing s := by
  unfold storeLine
  dsimp only
  repeat' split
  all_goals rfl

@[simp] theorem standing_lineDrop (s : State) (k : Nat) : standing (lineDrop s k) = standing s := standing_storeLine _ _ _ _ _

@[simp] theorem standing_closeLine (s : State) (line : Nat) : standing (closeLine s line) = standing s := by
  unfold closeLine
  split
  · rfl
  · exact standing_storeLine _ _ _ _ _

@[simp] theorem standing_postError (s : State) (status : Nat) (e : Err) : standing (postError s status e) = standing s :=
  (postError_told s status e).standing

@[simp] theorem standing_postEvent (s : State) (cat status ring w1 w2 : Nat) : standing (postEvent s cat status ring w1 w2) = standing s :=
  (postEvent_sent s cat status ring w1 w2).standing

/-- Lines, lasts, snoops and lists of lines may change, and drains lose lines of their walks, while the same drains stay under way. -/
theorem standing_drains {s u : State} (h : standing u = standing s) {arr : Arr} {coh : Coh} {pending : List Nat} {bufs : List LogBuf}
    {ds : List Drain} (hd : ds.map (fun d => (d.ctx, d.gen)) = s.gen.drains.map fun d => (d.ctx, d.gen)) :
    standing { u with arr := arr, coh := coh, gen := { u.gen with pendingRc := pending, bufs := bufs, drains := ds } } = standing s :=
  calc _ = { standing u with drains := ds.map fun d => (d.ctx, d.gen) } := rfl
    _ = standing s := by rw [h, hd]; rfl

/-- A last that fails drops lines of its drains' walks, and ends no drain (R447). -/
@[simp] theorem standing_lastFail (s : State) (i : Nat) (e : Err) : standing (lastFail s i e) = standing s := by
  unfold lastFail
  dsimp only
  rw [standing_postError]
  refine standing_drains (foldl_standing (fun t k => ?_) _ s) (List.map_map ..)
  split
  · exact standing_storeLine _ _ _ _ _
  · exact standing_lineDrop _ _

/-! ## Messages to the fellow (R366 to R374) -/

theorem standing_ev (s : State) (n : Nat) : standing (ev s n) = standing s := (ev_sent s n).standing

theorem standing_dataSend (s : State) (r : Replay) : standing (dataSend s r) = standing s := standing_ev _ _

theorem standing_flitFirst {s t : State} (h : flitFirst s = some t) : standing t = standing s := by
  unfold flitFirst at h
  split at h
  · cases h
  · split at h
    · cases h
      exact standing_dataSend _ _
    · cases h

theorem standing_ttPump (k : Nat) (s : State) : standing (ttPump k s) = standing s := by
  induction k generalizing s with
  | zero => rfl
  | succ k ih =>
    rw [ttPump]
    split
    · split
      · exact ih _
      · split
        · exact (ih _).trans (standing_flitFirst ‹_›)
        · rfl
    · rfl

theorem standing_creditFlush (k : Nat) (s : State) : standing (creditFlush k s) = standing s := by
  induction k generalizing s with
  | zero => rfl
  | succ k ih =>
    rw [creditFlush]
    split
    · exact (ih _).trans (standing_ev _ _)
    · rfl

theorem standing_ttSend (s : State) (t : TMsg) : standing (ttSend s t) = standing s :=
  (standing_creditFlush _ _).trans (standing_ttPump _ _)

/-! ## Repairs (R356, R357) -/

theorem standing_repairAsk (s : State) (k : Nat) (b : Bool) (e : Err) : standing (repairAsk s k b e) = standing s := standing_ttSend _ _

theorem standing_rollbackStart (s : State) (i : Nat) (e : Err) : standing (rollbackStart s i e) = standing s :=
  foldl_standing (fun t k => by
    split
    · rfl
    · exact standing_repairAsk _ _ _ _) _ s

theorem standing_recomputePending (s : State) (k : Nat) (l : Line) (e : Err) : standing (recomputePending s k l e) = standing s := by
  unfold recomputePending
  split
  · exact standing_lastFail _ _ _
  · exact (standing_postError _ _ _).trans (standing_storeLine _ _ _ _ _)

theorem standing_repairLine (s : State) (k : Nat) (b : Bool) (u c d : Nat) : standing (repairLine s k b u c d) = standing s := by
  unfold repairLine
  dsimp only
  split
  · rfl
  split
  · simp
  split
  · simp
  split
  · exact standing_repairAsk _ _ _ _
  split
  · exact standing_rollbackStart _ _ _
  split
  · exact standing_recomputePending _ _ _ _
  · exact standing_lastFail _ _ _

theorem standing_crcFieldCheck (s : State) (k d : Nat) : standing (crcFieldCheck s k d) = standing s := by
  unfold crcFieldCheck
  dsimp only
  split
  · simp
  · rfl

theorem standing_checkLine (s : State) (k : Nat) (m : LineMask) (full : Bool) (d : Nat) :
    standing (checkLine s k m full d).1 = standing s := by
  have hcrc : standing (if full = true then crcFieldCheck s k d else s) = standing s := by
    split
    · exact standing_crcFieldCheck _ _ _
    · rfl
  unfold checkLine
  dsimp only
  generalize (if full = true then crcFieldCheck s k d else s) = t at hcrc ⊢
  split
  · exact hcrc
  · exact (standing_repairLine _ _ _ _ _ _).trans hcrc

theorem standing_openGood (s : State) (line d : Nat) : standing (openGood s line d).1 = standing s := by
  unfold openGood
  split
  · split
    · rfl
    · exact (standing_repairLine _ _ _ _ _ _).trans (standing_closeLine _ _)
  · rfl

theorem standing_readWhole (s : State) (k d : Nat) : standing (readWhole s k d).1 = standing s := by
  unfold readWhole
  dsimp only
  split
  · rfl
  split
  · exact standing_openGood _ _ _
  · exact standing_checkLine _ _ _ _ _

end Sys2Proof.Machine
end

section
/-! The seal of a generation and the end of its drain (O46). -/

namespace Sys2Proof.Machine

open Sys2Proof

/-! ## The seal (R317, R318, R331, R353) -/

theorem standing_resyncSend (s : State) (ctx : Nat) (g : BitVec 32) (k : Nat) : standing (resyncSend s ctx g k) = standing s := by
  have hread := standing_readWhole s k 3
  unfold resyncSend
  split
  · rename_i heq
    rw [heq] at hread
    exact hread
  · rename_i heq
    rw [heq] at hread
    exact (standing_ttSend _ _).trans hread

/-- The drain that the seal of a context begins: of the generation it seals, over the lines that wait to be logged in it (R320). -/
def sealDrain (s : State) (cmd ctx : Nat) : Drain where
  ctx := ctx
  gen := (ctxGet s ctx).gen
  tag := (ctxGet s ctx).gen.toNat % 4
  todo := walkOrder s ctx (ctxGet s ctx).gen.toNat
  records := SMap.get 0 s.gen.early ctx
  lag := (s.arr.lasts.any fun e => e.2.cond == 1 && aDur e.2.attr == 2 && aCtx e.2.attr == ctx) && paired s
  cmd := cmd
  sealTs := tsNs s

/-- A context with its generation sealed, before a resynchronisation sends its lines. -/
def sealBegun (s : State) (cmd ctx : Nat) : State :=
  ctxPut { s with gen := { s.gen with
    drains := s.gen.drains ++ [sealDrain s cmd ctx], early := SMap.put 0 s.gen.early ctx 0 } } ctx
    { ctxGet s ctx with gen := (ctxGet s ctx).gen + 1 }

/-- The seal of a context whose lines no resynchronisation sends. -/
theorem sealOne_of_not_mem {s : State} {ctx : Nat} (h : ctx ∉ s.pr.resyncCtx) (cmd : Nat) : sealOne s cmd ctx = sealBegun s cmd ctx := by
  unfold sealOne
  exact if_neg (by simpa [ctxPut] using h)

/-- What a resynchronisation sends with the seal changes neither the contexts nor which drains are under way. -/
theorem standing_sealOne (s : State) (cmd ctx : Nat) : standing (sealOne s cmd ctx) = standing (sealBegun s cmd ctx) := by
  unfold sealOne
  dsimp only
  split
  · exact foldl_standing (fun t k => standing_resyncSend t ctx _ k) _ _
  · rfl

/-- The seals and the last one made, as the sealing of a context leaves them. -/
theorem sealOne_seals (s : State) (cmd ctx : Nat) :
    (sealOne s cmd ctx).gen.seals = s.gen.seals ∧ (sealOne s cmd ctx).gen.lastSeal = s.gen.lastSeal :=
  ⟨congrArg Standing.seals (standing_sealOne s cmd ctx), congrArg Standing.lastSeal (standing_sealOne s cmd ctx)⟩

/-- The generation of a context goes up by one as it is sealed (R317). -/
theorem ctxGet_sealOne (s : State) (cmd ctx : Nat) : (ctxGet (sealOne s cmd ctx) ctx).gen = (ctxGet s ctx).gen + 1 := by
  have hctxs : (sealOne s cmd ctx).gen.ctxs = (sealBegun s cmd ctx).gen.ctxs := congrArg Standing.ctxs (standing_sealOne s cmd ctx)
  rw [ctxGet, hctxs, sealBegun, ctxPut_gen_ctxs, SMap.get_put_self]

/-- The drain of the sealed generation is under way once its context is sealed (R318, R320). -/
theorem sealOne_drain (s : State) (cmd ctx : Nat) : ∃ d ∈ (sealOne s cmd ctx).gen.drains, d.ctx = ctx ∧ d.gen = (ctxGet s ctx).gen ∧
    (ctx ∉ s.pr.resyncCtx → d.todo = walkOrder s ctx (ctxGet s ctx).gen.toNat) := by
  by_cases hmem : ctx ∈ s.pr.resyncCtx
  · have hkeys : (sealOne s cmd ctx).gen.drains.map (fun d => (d.ctx, d.gen)) =
        (s.gen.drains ++ [sealDrain s cmd ctx]).map fun d => (d.ctx, d.gen) := congrArg Standing.drains (standing_sealOne s cmd ctx)
    have hnew : (ctx, (ctxGet s ctx).gen) ∈ (sealOne s cmd ctx).gen.drains.map fun d => (d.ctx, d.gen) := by
      rw [hkeys]
      simp [sealDrain]
    obtain ⟨d, hd, hkey⟩ := List.mem_map.mp hnew
    obtain ⟨rfl, hgen⟩ := Prod.mk.inj hkey
    exact ⟨d, hd, rfl, hgen, fun h => absurd hmem h⟩
  · rw [sealOne_of_not_mem hmem]
    exact ⟨sealDrain s cmd ctx, by simp [sealBegun], rfl, rfl, fun _ => rfl⟩

/-- The state in which the oldest seal takes effect: it waits no longer, and its time is kept (R318). -/
def sealTaken (u : State) (rest : List SealWait) : State :=
  ev { u with gen := { u.gen with seals := rest, lastSeal := some (tsNs u) } } Ev.genSeal

theorem sealTaken_eq (u : State) (rest : List SealWait) : ∃ q r, sealTaken u rest =
    { u with qs := q, csr := r, gen := { u.gen with seals := rest, lastSeal := some (tsNs u) } } := by
  obtain ⟨e, c, h⟩ := ev_eq { u with gen := { u.gen with seals := rest, lastSeal := some (tsNs u) } } Ev.genSeal
  exact ⟨_, _, h⟩

/-! An event counted leaves the registers below the overflow flags, and with them the default last. -/

/-- A register reads as before where another is put. -/
theorem csrGet_csrPut_ne {off j : Nat} (h : off ≠ j) (s : State) (v : Nat) : csrGet (csrPut s j v) off = csrGet s off := by
  rw [csrGet, csrPut, SMap.get_put_ne h]
  rfl

/-- An event counted changes no register below the overflow flags of the counters (R531, R532). -/
theorem csrGet_ev {off : Nat} (h : off < 0x4820) (s : State) (n : Nat) : csrGet (ev s n) off = csrGet s off := by
  have hne : off ≠ 0x4820 + 8 * (n / 64) := by omega
  unfold ev evN
  dsimp only
  rw [if_neg (by decide)]
  generalize evCtrAdd _ _ _ _ _ = x
  split
  · exact csrGet_csrPut_ne hne _ _
  · rfl

/-- The lasts read the same in states of the same table and the same registers of the default last. -/
theorem lastAt_congr {s t : State} (hlasts : t.arr.lasts = s.arr.lasts) (hattr : csrGet t 0x118 = csrGet s 0x118)
    (hpf : csrGet t 0x120 = csrGet s 0x120) (i : Nat) : lastAt t i = lastAt s i := by
  simp only [lastAt, hlasts, hattr, hpf]

theorem walkOrder_sealTaken (u : State) (rest : List SealWait) (ctx g : Nat) : walkOrder (sealTaken u rest) ctx g = walkOrder u ctx g := by
  have harr : (sealTaken u rest).arr = u.arr := by rw [sealTaken, ev_arr]
  have hreg {off : Nat} (h : off < 0x4820) : csrGet (sealTaken u rest) off = csrGet u off := csrGet_ev h _ _
  have hlast (i : Nat) : lastAt (sealTaken u rest) i = lastAt u i :=
    lastAt_congr (by rw [harr]) (hreg (by decide)) (hreg (by decide)) i
  have hctx (c : Nat) : ctxGet (sealTaken u rest) c = ctxGet u c := by
    obtain ⟨q, r, h⟩ := sealTaken_eq u rest
    rw [h]
    rfl
  simp only [walkOrder, tracked, hlast, hctx, harr]

section
variable {s u : State} {w : SealWait} {rest : List SealWait}

/-- The oldest seal, whose steps have run, waits for its writes, its time or the drains of its contexts (R317 to R319). -/
theorem genSeal_waits (h : s.gen.seals = w :: rest) (hu : u = advance (sealSteps s w.ctxs))
    (hw : sealHeld u w = true ∨ (∃ t, u.gen.lastSeal = some t ∧ tsNs u < t + 100000) ∨
      ∃ c ∈ w.ctxs, 2 ≤ (u.gen.drains.filter fun d => d.ctx == c).length) : genSeal s = u := by
  unfold genSeal
  simp only [h, ← hu]
  rw [if_pos]
  rcases hw with hheld | ⟨t, ht, hlt⟩ | ⟨c, hc, hfull⟩
  · simp [hheld]
  · simp [ht, hlt]
  · have hany : (w.ctxs.any fun c => decide (2 ≤ (u.gen.drains.filter fun d => d.ctx == c).length)) = true :=
      List.any_eq_true.mpr ⟨c, hc, decide_eq_true hfull⟩
    simp only [hany, Bool.or_true, Bool.true_or]

/-- The oldest seal takes effect in each of its contexts, and its command hears of it (R317, R318). -/
theorem genSeal_seals (h : s.gen.seals = w :: rest) (hu : u = advance (sealSteps s w.ctxs))
    (hearly : ∀ t, u.gen.lastSeal = some t → t + 100000 ≤ tsNs u)
    (hroom : ∀ c ∈ w.ctxs, (u.gen.drains.filter fun d => d.ctx == c).length < 2) (hheld : sealHeld u w = false) :
    ∃ t, genSeal s = advance t ∧ t.gen = (w.ctxs.foldl (fun s c => sealOne s w.cmd c) (sealTaken u rest)).gen := by
  have hfull : (w.ctxs.any fun c => decide (2 ≤ (u.gen.drains.filter fun d => d.ctx == c).length)) = false :=
    List.any_eq_false.mpr fun c hc => by simpa using hroom c hc
  have hlate : (match u.gen.lastSeal with
      | some t => decide (tsNs u < t + 100000)
      | none => false) = false := by
    split
    · exact decide_eq_false (Nat.not_lt.mpr (hearly _ ‹_›))
    · rfl
  unfold genSeal
  simp only [h, ← hu]
  rw [if_neg (by simp only [hfull, hheld, Bool.or_false]; rw [Bool.not_eq_true]; exact hlate)]
  refine ⟨_, rfl, ?_⟩
  split
  · rfl
  · split <;> rfl

end

/-! ## The end of a drain (R325) -/

theorem standing_memBytes (w : MemWr) (qos k : Nat) (s : State) (addr : Nat) (bs : Bytes) :
    standing (memBytes w qos k s addr bs) = standing s := by
  induction k generalizing s addr bs with
  | zero => rfl
  | succ k ih =>
    rw [memBytes]
    split
    · rfl
    · exact (ih _ _ _).trans (memPush_memSent _ _).standing

theorem standing_logPlace (s : State) (n ctx gen : Nat) (bs : Bytes) (units : Nat) :
    standing (logPlace s n ctx gen bs units) = standing s :=
  (standing_ev _ _).trans (standing_memBytes _ _ _ _ _ _)

theorem standing_logFull (s : State) (n : Nat) : standing (logFull s n) = standing s := by
  unfold logFull
  dsimp only
  split
  · rfl
  · exact (standing_ev _ _).trans (standing_postEvent _ _ _ _ _ _)

theorem standing_logWrite (s : State) (n ctx last : Nat) (image early : Bool) (mask : BitVec 8) (kind line gen : Nat) (data : Bytes) :
    standing (logWrite s n ctx last image early mask kind line gen data).1 = standing s := by
  unfold logWrite
  dsimp only
  split
  · split
    · exact standing_logPlace _ _ _ _ _ _
    · exact standing_logFull _ _
  · split
    · split
      · exact (standing_logPlace _ _ _ _ _ _).trans (standing_logPlace _ _ _ _ _ _)
      · exact (standing_logFull _ _).trans (standing_logPlace _ _ _ _ _ _)
    · exact standing_logFull _ _

theorem standing_discardRecord (s : State) (ctx : Nat) (gen : BitVec 32) : standing (discardRecord s ctx gen) = standing s := by
  unfold discardRecord
  split
  · rfl
  · exact standing_ev _ _

/-- A record, written or discarded, changes neither the contexts nor which drains are under way (R326, R330). -/
theorem standing_logRecord (s : State) (ctx : Nat) (gen : BitVec 32) (last : Nat) (image early : Bool) (mask : BitVec 8) (kind line : Nat)
    (d : LineData) : standing (logRecord s ctx gen last image early mask kind line d).1 = standing s := by
  unfold logRecord
  dsimp only
  generalize hx : (if logDiscards s ctx = true then (discardRecord s ctx gen, true) else
    logWrite s (ctxGet s ctx).ring ctx last image early (if kind = 1 then mask else 0) kind line gen.toNat
      (if kind = 1 then sectorData d (if kind = 1 then mask else 0) else [])) = x
  have hwritten : standing x.1 = standing s := by
    rw [← hx]
    split
    · exact standing_discardRecord _ _ _
    · exact standing_logWrite _ _ _ _ _ _ _ _ _ _ _
  split
  · exact (standing_ttSend _ _).trans hwritten
  · exact hwritten

/-- Locks that are cleared change lines alone (R350). -/
theorem clearLags_gen (s : State) (ctx gen : Nat) : (clearLags s ctx gen).gen = s.gen := by
  have hfold (l : List (Nat × Nat × Nat)) (rest : List (Nat × Nat × Nat)) (t : State) : (l.foldl (fun s e =>
      if (lineAt s e.2.2).dirtyMask = 0 ∧ !(rest.any fun r => r.2.2 == e.2.2) then linePut s e.2.2 { lineAt s e.2.2 with locked := false }
      else s) t).gen = t.gen := by
    induction l generalizing t with
    | nil => rfl
    | cons e l ih =>
      rw [List.foldl_cons, ih]
      split <;> rfl
  exact hfold _ _ _

/-- The command of a drain hears of its end, and no generation changes. -/
theorem drainTell_gen (s : State) (d : Drain) : (drainTell s d).gen = s.gen := by
  unfold drainTell
  dsimp only
  repeat' split
  all_goals rfl

/-- A drain taken off, its generation noted as the last ended of its context unless its records were discarded (R325, R326). -/
def drainEnded (v : State) (ctx : Nat) (g : BitVec 32) (discards : Bool) : State :=
  let w := { v with gen := { v.gen with drains := v.gen.drains.filter fun x => !(x.ctx == ctx && x.gen == g) } }
  if discards then w else ctxPut w ctx { ctxGet w ctx with lastEnd := some g }

theorem drainEnded_lastEnd (v : State) (ctx : Nat) (g : BitVec 32) (b : Bool) :
    (ctxGet (drainEnded v ctx g b) ctx).lastEnd = if b = true then (ctxGet v ctx).lastEnd else some g := by
  cases b
  · simp [drainEnded, ctxGet, ctxPut, SMap.get_put_self]
  · rfl

theorem drainEnded_drains (v : State) (ctx : Nat) (g : BitVec 32) (b : Bool) :
    ∀ x ∈ (drainEnded v ctx g b).gen.drains, ¬(x.ctx = ctx ∧ x.gen = g) := by
  have hdrains : (drainEnded v ctx g b).gen.drains = v.gen.drains.filter fun x => !(x.ctx == ctx && x.gen == g) := by
    cases b <;> rfl
  rintro x hx ⟨hctx, hgen⟩
  rw [hdrains] at hx
  have hkept := (List.mem_filter.mp hx).2
  simp [hctx, hgen] at hkept

/-- What keeps a drain from its end: its SEAL or a record of it is still to be written, or the fellow has not accepted it (R325). -/
def drainHeld (s : State) (ctx gen : Nat) (d : Drain) : Bool :=
  !d.sealed || !d.todo.isEmpty || bufHolds s ctx d.gen || evictLogs s ctx d.gen || logWriting s ctx gen || (d.lag && !d.lagOk && paired s)

section
variable {s v : State} {ctx gen : Nat} {d : Drain}

theorem drainComplete_none (h : drainOf s ctx (BitVec.ofNat 32 gen) = none) : drainComplete s ctx gen = s := by
  rw [drainComplete, h]

theorem drainComplete_held (h : drainOf s ctx (BitVec.ofNat 32 gen) = some d) (hd : drainHeld s ctx gen d = true) :
    drainComplete s ctx gen = s := by
  rw [drainComplete, h]
  exact if_pos hd

/-- A drain that nothing keeps ends with its END record (R325). -/
theorem drainComplete_ends (h : drainOf s ctx (BitVec.ofNat 32 gen) = some d) (hd : drainHeld s ctx gen d = false)
    (hv : logRecord s ctx d.gen 0 false false 0 4 (endField d.carried d.records) 0 = (v, true)) :
    ∃ t, drainComplete s ctx gen = advance t ∧ t.gen = (drainEnded v ctx d.gen (logDiscards s ctx)).gen := by
  rw [drainComplete, h]
  dsimp only
  rw [if_neg (by rw [Bool.not_eq_true]; exact hd), hv]
  refine ⟨_, rfl, ?_⟩
  rw [drainTell_gen]
  repeat' split
  all_goals
    simp only [clearLags_gen, drainEnded, *]
    rfl

end

/-- Settles O46: once its steps have run, a seal that nothing holds seals its context, and a drain that nothing keeps ends with its END record;
neither what a resynchronisation sends nor the record touches the contexts or the drains. -/
theorem sealAndDrainRows : Obligations.SealAndDrainRows := by
  refine ⟨?seals, ?waits, ?idle, ?ends, ?held⟩
  case seals =>
    intro w rest ctx s u hserve hseals hone hu hearly hroom hheld
    obtain ⟨t, ht, hgen⟩ := genSeal_seals hseals hu hearly (by simpa [hone] using hroom) hheld
    rw [hone, List.foldl_cons, List.foldl_nil] at hgen
    obtain ⟨hrest, hlast⟩ := sealOne_seals (sealTaken u rest) w.cmd ctx
    have hctx := ctxGet_sealOne (sealTaken u rest) w.cmd ctx
    obtain ⟨d, hd, hof, hnum, htodo⟩ := sealOne_drain (sealTaken u rest) w.cmd ctx
    have hget : ctxGet t ctx = ctxGet (sealOne (sealTaken u rest) w.cmd ctx) ctx := by rw [ctxGet, hgen]; rfl
    rw [← hget] at hctx
    rw [← hgen] at hrest hlast hd
    rw [walkOrder_sealTaken] at htodo
    obtain ⟨q, r, htaken⟩ := sealTaken_eq u rest
    rw [htaken] at hrest hlast hctx hnum htodo
    exact ⟨t, congrArg Host.Outcome.next ((if_pos hserve).trans ht), hrest, hlast, hctx, d, hd, hof, hnum, htodo⟩
  case waits =>
    intro w rest s u hserve hseals hu hw
    exact congrArg Host.Outcome.next ((if_pos hserve).trans (genSeal_waits hseals hu hw))
  case idle =>
    intro s h
    have hidle : (if serving s then genSeal s else s) = s := by
      rcases h with h | h
      · exact if_neg (by simp [h])
      · rw [genSeal, h, ite_self]
    exact congrArg Host.Outcome.next hidle
  case ends =>
    intro ctx gen d s v hserve hd hsealed htodo hbuf hevict hwrite hlag hv
    obtain ⟨t, ht, hgen⟩ := drainComplete_ends hd (by simp [drainHeld, hsealed, htodo, hbuf, hevict, hwrite, hlag]) hv
    refine ⟨t, congrArg Host.Outcome.next ((if_pos hserve).trans ht), ?_, ?_⟩
    · have hctxs : v.gen.ctxs = s.gen.ctxs := by
        have hstand := standing_logRecord s ctx d.gen 0 false false 0 4 (endField d.carried d.records) 0
        rw [hv] at hstand
        exact congrArg Standing.ctxs hstand
      have hget : ctxGet t ctx = ctxGet (drainEnded v ctx d.gen (logDiscards s ctx)) ctx := by rw [ctxGet, hgen]; rfl
      rw [hget, drainEnded_lastEnd, ctxGet, hctxs]
      rfl
    · rw [hgen]
      exact drainEnded_drains v ctx d.gen _
  case held =>
    intro ctx gen s h
    have hsame : drainComplete s ctx gen = s := by
      cases hd : drainOf s ctx (BitVec.ofNat 32 gen) with
      | none => exact drainComplete_none hd
      | some d =>
        refine drainComplete_held hd ?_
        rcases h d hd with h | h | h | h | h | h <;> simp [drainHeld, h]
    exact congrArg Host.Outcome.next ((congrArg (ite _ · s) hsame).trans (ite_self _))

end Sys2Proof.Machine
end

section
/-! The commands on generations and contexts where their checks pass (O41). -/

namespace Sys2Proof.Machine

open Sys2Proof

/-- Whether a CTX.FREEZE of a context is in progress does not depend on a command's own mark. -/
theorem freezing_begun (s : State) (c : Cmd) (ctx : Nat) : freezing (begun s c) { c with started := true } ctx = freezing s c ctx := by
  rw [freezing, running_begun, freezing]

section
variable {s : State} {c : Cmd}

/-- GEN.OPEN opens an IDLE context with no write of its own under way (R314, R434). -/
theorem genOpen_idle (hst : (ctxGet s (cmdContext c)).st = 0)
    (hlog : (leAt c.desc 19 1).testBit 0 = true ∨ csrBit s (0x808 + 16 * (leAt c.desc 18 1 % 16)) 63 = true)
    (hw : writesHeld s (cmdContext c) = false) :
    genOpen s c = cmdEnd (ctxOpen s (cmdContext c) { ctxGet s (cmdContext c) with
      gen := BitVec.ofNat 32 (leAt c.desc 20 4), ring := leAt c.desc 18 1 % 16, logEn := !(leAt c.desc 19 1).testBit 0 }) c.n St.ok 0 0 := by
  unfold genOpen
  dsimp only
  rw [if_neg (by simp [hst]), if_neg (by rcases hlog with h | h <;> simp [h]), if_neg (by simp [hw])]

/-- GEN.CLOSE of an OPEN context queues its seal (R317, R434). -/
theorem genClose_one (hall : (leAt c.desc 18 1).testBit 0 = false) (hst : (ctxGet s (cmdContext c)).st = 1)
    (hf : freezing s c (cmdContext c) = false) :
    genClose s c = { s with gen := { s.gen with seals := s.gen.seals ++ [{ cmd := c.n, ctxs := [cmdContext c] }] } } := by
  unfold genClose
  simp only [hall, hst, Bool.false_or]
  rw [if_neg (by rw [Bool.not_eq_true]; exact hf)]
  simp

/-- GEN.CLOSE of every OPEN context queues their seal (R317, R434). -/
theorem genClose_all (hall : (leAt c.desc 18 1).testBit 0 = true) (hf : ((running s c).any fun x => x.code == 0x040) = false)
    (hopen : (s.gen.ctxs.filter fun e => e.2.st == 1) ≠ []) :
    genClose s c = { s with gen := { s.gen with
      seals := s.gen.seals ++ [{ cmd := c.n, ctxs := (s.gen.ctxs.filter fun e => e.2.st == 1).map (·.1) }] } } := by
  unfold genClose
  simp only [hall, Bool.true_or, Bool.and_true, if_true]
  rw [if_neg (by simp [hf]), if_neg (by simpa using hopen)]

/-- LOG.ADVANCE of an enabled ring to a unit that lies in it (R329, R434). -/
theorem logAdvance_tail (hon : csrBit s (0x808 + 16 * (leAt c.desc 16 1 % 16)) 63 = true)
    (ht : leAt c.desc 20 4 % 2 ^ 25 < logUnits s (leAt c.desc 16 1 % 16)) :
    logAdvance s c = cmdEnd (logPut s (leAt c.desc 16 1 % 16)
      { logGet s (leAt c.desc 16 1 % 16) with tail := leAt c.desc 20 4 % 2 ^ 25 }) c.n St.ok (logGet s (leAt c.desc 16 1 % 16)).head 0 := by
  unfold logAdvance
  dsimp only
  rw [if_neg (by simp [hon]), if_neg (Nat.not_le.mpr ht)]

/-- CTX.SEED of a context that is not OPEN (R434). -/
theorem ctxSeed_sets (hst : (ctxGet s (cmdContext c)).st ≠ 1) :
    ctxSeed s c = cmdEnd (ctxPut s (cmdContext c) { ctxGet s (cmdContext c) with seed := BitVec.ofNat 64 (leAt c.desc 24 8) }) c.n
      St.ok 0 0 :=
  if_neg hst

/-- CTX.FREEZE of an OPEN context: it is FROZEN at once, and its seal waits in the queue (R333, R434). -/
theorem ctxFreeze_freezes (hst : (ctxGet s (cmdContext c)).st = 1)
    (himage : (leAt c.desc 18 1).testBit 1 = true → max 1 (leAt c.desc 20 4) ≤ 2 ^ 20 ∧ leAt c.desc 24 4 < max 1 (leAt c.desc 20 4) ∧
      (ctxGet s (cmdContext c)).logEn = true)
    (hbound : (s.ari.windows.any fun w => aCtx (lastAt s w.last).attr == cmdContext c) = false) {u : State}
    (hu : u = ctxPut s (cmdContext c)
      { ctxGet s (cmdContext c) with st := 2, stall := (leAt c.desc 18 1).testBit 0, frozenAt := s.arr.n }) :
    ctxFreeze s c = { u with gen := { u.gen with
      seals := u.gen.seals ++ [{ cmd := c.n, ctxs := [cmdContext c], freeze := true }] } } := by
  have hshape : ¬((leAt c.desc 18 1).testBit 1 = true ∧
      (max 1 (leAt c.desc 20 4) > 2 ^ 20 ∨ leAt c.desc 24 4 ≥ max 1 (leAt c.desc 20 4))) := by
    rintro ⟨hbit, hbad⟩
    obtain ⟨hstride, hphase, -⟩ := himage hbit
    omega
  have hlog : ¬((leAt c.desc 18 1).testBit 1 && !(ctxGet s (cmdContext c)).logEn) = true := by
    rw [Bool.and_eq_true]
    rintro ⟨hbit, hoff⟩
    obtain ⟨-, -, hon⟩ := himage hbit
    simp [hon] at hoff
  subst hu
  unfold ctxFreeze
  dsimp only
  rw [if_neg hshape, if_neg (by simp [hst]), if_neg hlog, if_neg (by simp [hbound])]

/-- CTX.RESUME of a FROZEN context without replay: its queued writes, none of which fails its parity, are presented first (R335). -/
theorem ctxResume_releases {input : Bytes} {bad : List BadBeat} (hf : freezing s c (cmdContext c) = false) (hpre : c.preFreeze = false)
    (hflag : (leAt c.desc 18 1).testBit 0 = false) (hst : (ctxGet s (cmdContext c)).st = 2)
    (hgood : ∀ o ∈ queuedOf s (cmdContext c), o.noted.testBit 9 = false) {u : State}
    (hu : u = ctxPut s (cmdContext c) { ctxGet s (cmdContext c) with resuming := true }) :
    ctxResume s c input bad = cmdUpd { u with
      gen := { u.gen with freezeQ := u.gen.freezeQ.filter fun o => !(queuedOf s (cmdContext c)).contains o }
      arr := { u.arr with
        presented := ((queuedOf s (cmdContext c)).map fun o => { o with noted := o.noted ||| 128 }) ++ u.arr.presented } } c.n
      fun x => { x with phase := 10 } := by
  have hbad : (queuedOf s (cmdContext c)).filter (fun o => o.noted.testBit 9) = [] :=
    List.filter_eq_nil_iff.mpr fun o ho => by simp [hgood o ho]
  have hrest : (queuedOf s (cmdContext c)).filter (fun o => !o.noted.testBit 9) = queuedOf s (cmdContext c) :=
    List.filter_eq_self.mpr fun o ho => by simp [hgood o ho]
  subst hu
  unfold ctxResume
  dsimp only
  rw [if_neg (by simp [hf, hpre]), if_pos (by simp [hflag]), if_neg (by simp [hst]), hbad, hrest]
  rfl

/-- CTX.RESUME with a replay rejects the queued writes and reads its buffer: an unreadable or a bad one leaves the context IDLE, and a good one
is replayed (R337, R338, R449). -/
theorem ctxResume_replays {input : Bytes} (hf : freezing s c (cmdContext c) = false) (hpre : c.preFreeze = false)
    (hflag : (leAt c.desc 18 1).testBit 0 = true) (haddr : leAt c.desc 24 8 % 32 = 0) (hlen : leAt c.desc 32 8 ≠ 0)
    (hmod : leAt c.desc 32 8 % 32 = 0) (hst : (ctxGet s (cmdContext c)).st ≠ 1)
    (hfrozen : (ctxGet s (cmdContext c)).st = 2 → leAt c.desc 19 1 % 16 = 0 ∧ (leAt c.desc 18 1).testBit 1 = false)
    (hidle : (ctxGet s (cmdContext c)).st = 0 → (leAt c.desc 18 1).testBit 1 = true ∨
      csrBit s (0x808 + 16 * (leAt c.desc 19 1 % 16)) 63 = true) {u v : State} (hu : u = queueReject s (cmdContext c))
    (hv : v = ctxPut u (cmdContext c) { ctxGet u (cmdContext c) with st := 0, stall := false }) :
    (∀ bad, bad ≠ [] → ctxResume s c input bad = inputBad v c bad) ∧
    (∀ recs n, replayParse u (cmdContext c) none (slice input 0 (leAt c.desc 32 8)) (leAt c.desc 40 4) = .good recs n →
      ctxResume s c input [] = cmdUpd u c.n fun x => { x with phase := 6, recs := recs, acc := n }) ∧
    ∀ seq, replayParse u (cmdContext c) none (slice input 0 (leAt c.desc 32 8)) (leAt c.desc 40 4) = .bad seq →
      ctxResume s c input [] = cmdEnd v c.n St.badLog seq 0 := by
  have hdesc : ¬((ctxGet s (cmdContext c)).st == 2 && (leAt c.desc 19 1 % 16 != 0 || (leAt c.desc 18 1).testBit 1)) = true := by
    rw [Bool.and_eq_true, beq_iff_eq]
    rintro ⟨h, hor⟩
    simp [hfrozen h] at hor
  have hring : ¬((ctxGet s (cmdContext c)).st == 0 && !(leAt c.desc 18 1).testBit 1 &&
      !csrBit s (0x808 + 16 * (leAt c.desc 19 1 % 16)) 63) = true := by
    rw [Bool.and_assoc, Bool.and_eq_true, beq_iff_eq]
    rintro ⟨h, hand⟩
    rcases hidle h with h1 | h1 <;> simp [h1] at hand
  subst hu hv
  unfold ctxResume
  dsimp only
  simp only [if_neg (show ¬(freezing s c (cmdContext c) || c.preFreeze) = true by simp [hf, hpre]),
    if_neg (show ¬(!(leAt c.desc 18 1).testBit 0) = true by simp [hflag]), if_neg (show ¬leAt c.desc 24 8 % 32 ≠ 0 by simp [haddr]),
    if_neg (show ¬(leAt c.desc 32 8 = 0 ∨ leAt c.desc 32 8 % 32 ≠ 0) by simp [hlen, hmod]), if_neg hst, if_neg hdesc, if_neg hring]
  refine ⟨fun bad hbad => if_pos hbad, fun recs n hp => ?_, fun seq hp => ?_⟩
  · rw [if_neg (fun h => h rfl), hp]
  · rw [if_neg (fun h => h rfl), hp]

/-- The lines that CTX.RELEASE discards where zeroing is set: those held of its lasts that are not THROUGH (R434, R577). -/
def releasedLines (v : State) (ctx : Nat) : List Nat :=
  (((v.arr.lasts.filter fun e => e.2.cond != 0 && e.1 != 1023 && aCtx e.2.attr == ctx).filter fun e => aKind e.2.attr != 1).map fun e =>
    walkLines v e.2.base e.2.limit (aKind e.2.attr != 2)).flatten

/-- CTX.RELEASE of a FROZEN context rejects its queued writes, empties it, clears its fallow notes, and walks the lines that zeroing discards
(R434, R577). -/
theorem ctxRelease_walks (hf : freezing s c (cmdContext c) = false) (hst : (ctxGet s (cmdContext c)).st = 2) {u v : State}
    (hu : u = ctxPut (queueReject s (cmdContext c)) (cmdContext c)
      { ctxGet s (cmdContext c) with st := 0, stall := false, seed := 0, gen := 0 })
    (hv : v = { u with arr := { u.arr with lines := SMap.mapVals {} (fun _ l =>
      if aCtx (lastAt u l.last).attr = cmdContext c then { l with note := none } else l) u.arr.lines } }) :
    ctxRelease s c = presentLines v c .discard ((if csrBit u 0xF10 27 = true then releasedLines v (cmdContext c) else []).zipIdx.map fun l =>
      (l.1, l.2, aQos (lastAt v (lastOfLine v l.1)).attr, 2)) := by
  subst hu hv
  unfold ctxRelease
  dsimp only
  rw [if_neg (by simp [hf, hst])]
  rfl

end

/-- Settles O41: each command on generations or contexts that starts past its checks does what its row says. -/
theorem contextCommands : Obligations.ContextCommands := by
  refine ⟨?genOpen, ?close, ?closeAll, ?tail, ?freeze, ?resume, ?resumed, ?replay, ?release, ?seed⟩
  case genOpen =>
    intro ring idx c s hs hst hlog hw
    exact next_startCmd hs (genOpen_idle (s := begun s c) (c := { c with started := true }) hst hlog hw)
  case close =>
    intro ring idx c s hs hall hst hf
    exact next_startCmd hs (genClose_one (s := begun s c) (c := { c with started := true }) hall hst ((freezing_begun s c _).trans hf))
  case closeAll =>
    intro ring idx c s hs hall hf hopen
    exact next_startCmd hs (genClose_all (s := begun s c) (c := { c with started := true }) hall (by rw [running_begun]; exact hf) hopen)
  case tail =>
    intro ring idx c s hs hon ht
    exact next_startCmd hs (logAdvance_tail (s := begun s c) (c := { c with started := true }) hon ht)
  case freeze =>
    intro ring idx c s hs hst himage hbound u hu
    exact next_startCmd hs (ctxFreeze_freezes (s := begun s c) (c := { c with started := true }) hst himage hbound hu)
  case resume =>
    intro ring idx input bad c s hs hf hpre hflag hst hgood u hu
    exact next_startCmd hs (ctxResume_releases (s := begun s c) (c := { c with started := true }) ((freezing_begun s c _).trans hf) hpre
      hflag hst hgood hu)
  case resumed => exact fun c s h => if_neg (by rw [Bool.not_eq_true]; exact h)
  case replay =>
    intro ring idx input c s hs hf hpre hflag haddr hlen hmod hst hfrozen hidle u hu v hv
    obtain ⟨hunread, hgood, hbad⟩ := ctxResume_replays (s := begun s c) (c := { c with started := true }) (input := input)
      ((freezing_begun s c _).trans hf) hpre hflag haddr hlen hmod hst hfrozen hidle hu hv
    exact ⟨fun bad h => next_startCmd hs (hunread bad h), fun recs n h => next_startCmd hs (hgood recs n h),
      fun seq h => next_startCmd hs (hbad seq h)⟩
  case release =>
    intro ring idx c s hs hf hst u v hu hv
    have hwalk := ctxRelease_walks (s := begun s c) (c := { c with started := true }) ((freezing_begun s c _).trans hf) hst hu hv
    refine ⟨fun hz => next_startCmd hs (hwalk.trans ?_), fun hz => ⟨_, next_startCmd hs hwalk, ?_⟩⟩
    · rw [if_neg (by simp [hz])]
      rfl
    · rw [if_pos hz, List.map_map]
      exact List.zipIdx_map_fst 0 _
  case seed =>
    intro ring idx c s hs hst
    exact next_startCmd hs (ctxSeed_sets (s := begun s c) (c := { c with started := true }) hst)

end Sys2Proof.Machine
end

section
/-! The enables of rings, log rings and the link (O56). -/

namespace Sys2Proof.Machine

open Sys2Proof

/-! ## The registers -/

/-- DRF_RINGn_CTL (R412). -/
def ringCtlRow : RegRow := ⟨0x1018, 64, 64, 4, 0x9FFFFFC0, 0x0, 0x8480400, false, 1⟩
/-- DRF_EVRINGn_CTL (R413). -/
def evringCtlRow : RegRow := ⟨0x2008, 32, 4, 4, 0x80001FFE, 0x0, 0x800, false, 2⟩
/-- DRF_LOGn_CTL (R328). -/
def logCtlRow : RegRow := ⟨0x808, 16, 16, 8, 0x8000001F00000000, 0x0, 0xC00000000, false, 0⟩
/-- DRF_TTH_CTL (R385). -/
def tthCtlRow : RegRow := ⟨0xA00, 0, 1, 4, 0xE000FF00, 0x0, 0x4000, false, 0⟩

theorem regAt_ringCtl : ∀ n < 64, regAt (0x1018 + 64 * n) = some ringCtlRow ∧ regAt (0x1018 + 64 * n - 4) = none := by decide +kernel
theorem regAt_evringCtl : ∀ n < 4, regAt (0x2008 + 32 * n) = some evringCtlRow ∧ regAt (0x2008 + 32 * n - 4) = none := by decide +kernel
theorem regAt_logCtl : ∀ n < 16, regAt (0x808 + 16 * n) = some logCtlRow ∧ regAt (0x808 + 16 * n - 4) = none := by decide +kernel
theorem regAt_tthCtl : regAt 0xA00 = some tthCtlRow := by decide

theorem regFind_tthCtl (n : Nat) : regFind 0xA00 (n + 1) = some (tthCtlRow, 0xA00) :=
  regFind_at regAt_tthCtl (by decide) (by decide) (by decide) (by decide) n

/-- An access at the offset of a register before which none ends meets that register. -/
theorem regFind_alone {off : Nat} {r : RegRow} (h : regAt off = some r ∧ regAt (off - 4) = none) (ha : off % 4 = 0) (h4 : 4 ≤ off)
    (hr : 0 < r.bytes) (n : Nat) : regFind off (n + 1) = some (r, off) :=
  regFind_at h.1 ha h4 hr (by rw [h.2]; rfl) n

/-- The number of a register in a row of like registers, from its offset. -/
theorem rowNumber {r : RegRow} (hc : 1 < r.count) (hs : 0 < r.stride) (n : Nat) :
    (if r.count ≤ 1 then 0 else (r.off + r.stride * n - r.off) / r.stride) = n := by
  rw [if_neg (Nat.not_le.mpr hc), Nat.add_sub_cancel_left, Nat.mul_div_cancel_left n hs]

section
variable {n : Nat}

theorem regFind_ringCtl (h : n < 64) (k : Nat) : regFind (0x1018 + 64 * n) (k + 1) = some (ringCtlRow, 0x1018 + 64 * n) :=
  regFind_alone (regAt_ringCtl n h) (by omega) (by omega) (by decide) k

theorem regFind_evringCtl (h : n < 4) (k : Nat) : regFind (0x2008 + 32 * n) (k + 1) = some (evringCtlRow, 0x2008 + 32 * n) :=
  regFind_alone (regAt_evringCtl n h) (by omega) (by omega) (by decide) k

theorem regFind_logCtl (h : n < 16) (k : Nat) : regFind (0x808 + 16 * n) (k + 1) = some (logCtlRow, 0x808 + 16 * n) :=
  regFind_alone (regAt_logCtl n h) (by omega) (by omega) (by decide) k

theorem regWrite_ringCtl (s : State) (v : Nat) : regWrite s ringCtlRow (0x1018 + 64 * n) v = writeRingCtl s ringCtlRow n v := by
  have hn : (if ringCtlRow.count ≤ 1 then 0 else (0x1018 + 64 * n - ringCtlRow.off) / ringCtlRow.stride) = n :=
    rowNumber (r := ringCtlRow) (by decide) (by decide) n
  unfold regWrite
  dsimp only
  rw [hn]
  rfl

theorem regWrite_evringCtl (s : State) (v : Nat) : regWrite s evringCtlRow (0x2008 + 32 * n) v = writeEvCtl s evringCtlRow n v := by
  have hn : (if evringCtlRow.count ≤ 1 then 0 else (0x2008 + 32 * n - evringCtlRow.off) / evringCtlRow.stride) = n :=
    rowNumber (r := evringCtlRow) (by decide) (by decide) n
  unfold regWrite
  dsimp only
  rw [hn]
  rfl

theorem regWrite_logCtl (s : State) (v : Nat) : regWrite s logCtlRow (0x808 + 16 * n) v = writeLogCtl s logCtlRow n v := by
  have hn : (if logCtlRow.count ≤ 1 then 0 else (0x808 + 16 * n - logCtlRow.off) / logCtlRow.stride) = n :=
    rowNumber (r := logCtlRow) (by decide) (by decide) n
  unfold regWrite
  dsimp only
  rw [hn]
  rfl

end

/-- A field that is not frozen, or that the write leaves as it is, takes what is written. -/
theorem keepField_free {s : State} {off hi lo v : Nat} {frozen : Bool} (h : frozen = false ∨ fld v hi lo = csrFld s off hi lo) :
    keepField s off frozen hi lo v = (v, false) := by
  rcases h with h | h
  · simp [keepField, h]
  · have hsame : (frozen && fld v hi lo != fld (csrGet s off) hi lo) = false := by rw [h]; simp [csrFld]
    simp only [keepField, hsame, Bool.false_eq_true, if_false]

/-- A permitted write frame that a rule has the slice ignore, once it has noted so, is answered ST_OK and logged (R586). -/
theorem next_csrDo_ignoredIn {s u : State} {a : Csr} {off : Nat} {r : RegRow} (h : Permitted s (csrAt a off) true) (hoff : off < 2 ^ 16)
    (hr : ∀ n, regFind off (n + 1) = some (r, off)) (hw : regWrite s r off (written a) = ignoreWrite u) :
    .next (csrDo s (csrAt a off) true) = wrote (csrLatch u 1 true off true a.m.src) (csrAt a off) := by
  have hres : writeRes (csrAt a off) (ignoreWrite u) = { s := csrLatch u 1 true off true a.m.src } := by
    have hh : a.hdr = true := h.1.1
    have hmod : off % 65536 = off := Nat.mod_eq_of_lt hoff
    simp [writeRes, ignoreWrite, csrAt, hh, hmod]
  rw [csrDo_at h hoff hr, hw, hres]
  rfl

/-! ## The writes -/

section
variable {s : State} {n v : Nat}

/-- A ring whose doorbell line no other ring names is enabled (R393, R394, R401). -/
theorem writeRingCtl_enables (hn : n < 64) (hv : v.testBit 31 = true) (hoff : ringEnabled s n = false)
    (hkeep : (ringGet s n).busy = false ∨ fld v 28 19 = csrFld s (0x1018 + 64 * n) 28 19) (hshare : sharesDoorbell s n = false)
    (hp : s.pw.pstate ≠ 3) : writeRingCtl s ringCtlRow n v = { s := ringStart (stored s (0x1018 + 64 * n) v) n } := by
  unfold writeRingCtl
  dsimp only
  rw [keepField_free (by simpa [hoff] using hkeep), hoff, hshare]
  dsimp only
  rw [if_neg (by simp), if_neg (by simp [retaining, hp]), plainWrite_eq (regAt_ringCtl n hn).1, if_pos (by simp [hv])]

/-- A ring that shares its doorbell line is left disabled, and counted (R393). -/
theorem writeRingCtl_shared (hv : v.testBit 31 = true) (hoff : ringEnabled s n = false) (hshare : sharesDoorbell s n = true) :
    writeRingCtl s ringCtlRow n v = ignoreWrite (ev s Ev.ringCfgBad) := by
  unfold writeRingCtl
  dsimp only
  rw [if_pos (by simp [hv, hoff, hshare])]

/-- A ring is disabled, its frozen fields as they were (R401, R413). -/
theorem writeRingCtl_disables (hn : n < 64) (hv : v.testBit 31 = false) (hon : ringEnabled s n = true)
    (hkeep : fld v 28 19 = csrFld s (0x1018 + 64 * n) 28 19) (hp : s.pw.pstate ≠ 3) :
    writeRingCtl s ringCtlRow n v = { s := ringStop (stored s (0x1018 + 64 * n) v) n } := by
  unfold writeRingCtl
  dsimp only
  rw [keepField_free (.inr hkeep), hon, hv]
  dsimp only
  rw [if_neg (by simp), if_neg (by simp [retaining, hp]), plainWrite_eq (regAt_ringCtl n hn).1, if_neg (by simp), if_pos (by simp)]

/-- The groups of state that a register stored leaves. -/
theorem stored_eq (s : State) (off v : Nat) : ∃ r, stored s off v = { s with csr := r } := by
  unfold stored
  split
  · exact ⟨_, rfl⟩
  · exact ⟨_, rfl⟩

/-- An event ring is enabled with its count of records at zero (R413). -/
theorem writeEvCtl_enables (hn : n < 4) (hv : v.testBit 31 = true) (hoff : csrBit s (0x2008 + 32 * n) 31 = false) (hp : s.pw.pstate ≠ 3) :
    writeEvCtl s evringCtlRow n v = { s := { stored s (0x2008 + 32 * n) v with rg := { s.rg with
      evs := SMap.put {} s.rg.evs n { SMap.get {} s.rg.evs n with posted := 0 } } } } := by
  obtain ⟨r, hr⟩ := stored_eq s (0x2008 + 32 * n) v
  unfold writeEvCtl
  dsimp only
  rw [keepField_free (.inl hoff), hoff]
  dsimp only
  rw [if_neg (by simp [retaining, hp]), plainWrite_eq (regAt_evringCtl n hn).1, if_pos (by simp [hv]), hr]

/-- A log ring is enabled with its indices at zero (R328). -/
theorem writeLogCtl_enables (hn : n < 16) (hv : v.testBit 63 = true) (hoff : csrBit s (0x808 + 16 * n) 63 = false) (hp : s.pw.pstate ≠ 3) :
    writeLogCtl s logCtlRow n v = { s := logPut (stored s (0x808 + 16 * n) v) n {} } := by
  unfold writeLogCtl
  dsimp only
  rw [keepField_free (.inl hoff), hoff]
  dsimp only
  rw [if_neg (by simp [retaining, hp]), plainWrite_eq (regAt_logCtl n hn).1, if_pos (by simp [hv])]

/-- Where the tether may train the slice is not in safe retention. -/
theorem retaining_of_tetherRuns (h : tetherRuns s = true) : retaining s = false := by
  rw [retaining, beq_eq_false_iff_ne]
  intro hp
  simp [tetherRuns, serving, hp, Ps.serving, Ps.retention, Ps.backupHold] at h

/-- The tether may train after a register is stored where it might before. -/
theorem tetherRuns_stored (s : State) (off v : Nat) : tetherRuns (stored s off v) = tetherRuns s := by
  obtain ⟨r, hr⟩ := stored_eq s off v
  rw [hr]
  rfl

theorem retaining_stored (s : State) (off v : Nat) : retaining (stored s off v) = retaining s := by
  obtain ⟨r, hr⟩ := stored_eq s off v
  rw [hr]
  rfl

theorem link_stored (s : State) (off v : Nat) : (stored s off v).tt.link = s.tt.link := by
  obtain ⟨r, hr⟩ := stored_eq s off v
  rw [hr]

/-- link_en set while the link is DISABLED starts a training (R376). -/
theorem writeTth_enables (hon : v.testBit 31 = true) (hre : v.testBit 28 = false) (hoff : csrBit s 0xA00 31 = false)
    (hpin : s.pw.tetherOff = false) (hrun : tetherRuns s = true) (hlink : s.tt.link = 0) :
    writeTth s tthCtlRow v = { s := trainStart (stored s 0xA00 v) } := by
  unfold writeTth
  simp [hpin, hre, hon, hoff, plainWrite_eq regAt_tthCtl, retaining_stored, tetherRuns_stored, link_stored, retaining_of_tetherRuns hrun,
    hrun, linkEnable, hlink]

/-- link_en cleared takes the link to DISABLED (R376). -/
theorem writeTth_disables (hoff : v.testBit 31 = false) (hre : v.testBit 28 = false) (hon : csrBit s 0xA00 31 = true)
    (hlink : s.tt.link ≠ 0) (hp : s.pw.pstate ≠ 3) : writeTth s tthCtlRow v = { s := linkDown (stored s 0xA00 v) 0 1 } := by
  have hret : retaining s = false := by simp [retaining, hp]
  unfold writeTth
  simp [hre, hon, hoff, plainWrite_eq regAt_tthCtl, retaining_stored, link_stored, hret, linkEnable, hlink]

/-- retrain written while link_en stays set (R376, R385). -/
theorem writeTth_retrains (hre : v.testBit 28 = true) (hv : v.testBit 31 = true) (hon : csrBit s 0xA00 31 = true)
    (hpin : s.pw.tetherOff = false) (hrun : tetherRuns s = true) : writeTth s tthCtlRow v = { s := retrainWrite (stored s 0xA00 v) } := by
  unfold writeTth
  simp [hpin, hre, hv, hon, plainWrite_eq regAt_tthCtl, retaining_stored, tetherRuns_stored, retaining_of_tetherRuns hrun, hrun]

/-- link_en reads as it was written (R385). -/
theorem csrBit_stored_linkEn (s : State) {v : Nat} (hv : v.testBit 31 = true) : csrBit (stored s 0xA00 v) 0xA00 31 = true := by
  have hlow : lowZero (csrPut s 0xA00 (newBits s tthCtlRow 0xA00 v)) 0xA00 = 0 := rfl
  have hbit : (newBits s tthCtlRow 0xA00 v).testBit 31 = true := by
    have hrw : (0xE000FF00 : Nat).testBit 31 = true := by decide
    simp [newBits, tthCtlRow, Nat.testBit_or, Nat.testBit_and, hv, hrw]
  unfold csrBit stored
  rw [regAt_tthCtl]
  dsimp only
  rw [storeBits, csrGet_csrPut_self, hlow, clearLow, Nat.pow_zero, Nat.div_one, Nat.mul_one, Nat.testBit_mod_two_pow, hbit]
  rfl

end

/-- Settles O56: a permitted write frame reaches its register once, and the register's own rule stores it, or leaves the ring disabled. -/
theorem ringAndLinkWrites : Obligations.RingAndLinkWrites := by
  refine ⟨?enable, ?shared, ?disable, ?event, ?log, ?train, ?down, ?retrain, ?again⟩
  case enable =>
    intro n a s h hn hv hoff hkeep hshare hp
    exact next_csrDo_stored h (by omega) (regFind_ringCtl hn)
      ((regWrite_ringCtl s _).trans (writeRingCtl_enables hn hv hoff hkeep hshare hp))
  case shared =>
    intro n a s h hn hv hoff hshare
    exact next_csrDo_ignoredIn h (by omega) (regFind_ringCtl hn) ((regWrite_ringCtl s _).trans (writeRingCtl_shared hv hoff hshare))
  case disable =>
    intro n a s h hn hv hon hkeep hp
    exact next_csrDo_stored h (by omega) (regFind_ringCtl hn) ((regWrite_ringCtl s _).trans (writeRingCtl_disables hn hv hon hkeep hp))
  case event =>
    intro n a s h hn hv hoff hp
    exact next_csrDo_stored h (by omega) (regFind_evringCtl hn) ((regWrite_evringCtl s _).trans (writeEvCtl_enables hn hv hoff hp))
  case log =>
    intro n a s h hn hv hoff hp
    exact next_csrDo_stored h (by omega) (regFind_logCtl hn) ((regWrite_logCtl s _).trans (writeLogCtl_enables hn hv hoff hp))
  case train =>
    intro a s h hv hre hoff hpin hrun hlink
    exact next_csrDo_stored h (by decide) regFind_tthCtl (writeTth_enables hv hre hoff hpin hrun hlink)
  case down =>
    intro a s h hv hre hon hlink hp
    exact next_csrDo_stored h (by decide) regFind_tthCtl (writeTth_disables hv hre hon hlink hp)
  case retrain =>
    intro a s h hre hv hon hpin hrun hlink
    refine next_csrDo_stored h (by decide) regFind_tthCtl ((writeTth_retrains hre hv hon hpin hrun).trans ?_)
    rw [retrainWrite, if_pos (by rw [link_stored, hlink])]
  case again =>
    intro a s h hre hv hon hpin hrun hlink
    refine next_csrDo_stored h (by decide) regFind_tthCtl ((writeTth_retrains hre hv hon hpin hrun).trans ?_)
    rw [retrainWrite, if_neg (by rw [link_stored, hlink]; decide), if_pos ⟨by rw [link_stored, hlink], csrBit_stored_linkEn s hv⟩]

end Sys2Proof.Machine
end

section
/-! The messages of the fellow, and the pair commands (O59). -/

namespace Sys2Proof.Machine

open Sys2Proof

/-! ## Delivery (R372 to R374, R383) -/

/-- The message that a row of the tether delivers: its kind, its fields, and what it does in a state (R373). -/
def messageOf (s : State) : Instr → Option (Nat × TMsg × State)
  | .syncWr t => some (0x01, t, syncWr s t)
  | .syncAck t => some (0x02, t, syncAck s t)
  | .lagRec t => some (0x03, t, lagRec s t)
  | .lagEnd t => some (0x04, t, lagEnd s t)
  | .lagAccept t => some (0x05, t, lagAccept s t)
  | .lagApplied t => some (0x06, t, lagApplied s t)
  | .dropMirror t => some (0x07, t, dropMirror s t)
  | .repairRd t => some (0x08, t, repairRd s t)
  | .repairData t => some (0x09, t, repairData s t)
  | .planData t => some (0x0A, t, planData s t)
  | .resyncBegin t => some (0x0B, t, resyncBegin s)
  | .resyncDone t => some (0x0C, t, resyncDone s)
  | _ => none

section
variable {s : State} {i : Instr} {k : Nat} {t : TMsg} {e : State}

/-- A row of the tether delivers its message. -/
theorem exec_ttDeliver (hi : messageOf s i = some (k, t, e)) : exec i s = .next (ttDeliver s k t) := by
  cases i <;> cases hi <;> rfl

/-- A message that is held is held as its own row. -/
theorem ttInstr_messageOf (hi : messageOf s i = some (k, t, e)) : ttInstr k t = i := by
  cases i <;> cases hi <;> rfl

/-- A message handled does what its kind says, and its credit and bytes are accounted for (R373, R374, R516). -/
theorem ttHandle_messageOf (hi : messageOf s i = some (k, t, e)) : .next (ttHandle s { t with kind := k }) = handled s t e k := by
  cases i <;> cases hi <;> rfl

/-- A message delivered to a slice that takes messages has its effect. -/
theorem exec_message (hi : messageOf s i = some (k, t, e)) (h : Delivers s) {u : State} (hu : e = u) : exec i s = handled s t u k := by
  obtain ⟨hlink, hfence, hp⟩ := h
  rw [exec_ttDeliver hi, ttDeliver, if_pos (by simp [hlink, hfence]), if_neg hp, ttHandle_messageOf hi, hu]

/-- No message is received while the link is not UP or the slice is fenced (R372, R383). -/
theorem exec_message_off (hi : messageOf s i = some (k, t, e)) (h : s.tt.link ≠ 2 ∨ s.hd.fenced = true) : exec i s = .next s := by
  rw [exec_ttDeliver hi, ttDeliver, if_neg (by rcases h with h | h <;> simp [h])]

/-- A message waits in BACKUP_HOLD (R560). -/
theorem exec_message_held (hi : messageOf s i = some (k, t, e)) (hlink : s.tt.link = 2) (hfence : s.hd.fenced = false)
    (hp : s.pw.pstate = 4) : exec i s = .next { s with held := s.held ++ [i] } := by
  rw [exec_ttDeliver hi, ttDeliver, if_pos (by simp [hlink, hfence]), if_pos hp, ttInstr_messageOf hi]

end

/-! ## What each message does (R373) -/

section
variable {s u : State} {t : TMsg}

theorem syncWr_written (h : mirrorWrite s t.set (t.addr / 512) (BitVec.ofNat 8 t.mask) t.data false = (u, true)) :
    syncWr s t = ttSend u { kind := 0x02, tag := t.tag } := by
  rw [syncWr, h]

theorem syncWr_noWay (h : mirrorWrite s t.set (t.addr / 512) (BitVec.ofNat 8 t.mask) t.data false = (u, false)) : syncWr s t = u := by
  rw [syncWr, h]

theorem syncAck_waited {o : Op} (h : (s.pr.sync.find? fun e => e.1 == t.tag) = some (t.tag, o)) :
    syncAck s t = serveFirst { stage s o.n 11 with pr := { s.pr with sync := s.pr.sync.filter fun e => e.1 != t.tag } }
      { o with synced := true } := by
  rw [syncAck, h]
  rfl

theorem syncAck_resync (h : ∀ e ∈ s.pr.sync, e.1 ≠ t.tag) :
    syncAck s t = resyncCheck { s with pr := { s.pr with resyncOut := s.pr.resyncOut.filter (· != t.tag) } } := by
  rw [syncAck, List.find?_eq_none.mpr fun e he => by simpa using h e he]

theorem lagAccept_drain {d : Drain} (h : drainOf s t.ctx (BitVec.ofNat 32 t.addr) = some d) :
    lagAccept s t = resyncCheck { drainSet s { d with lagOk := true } with
      pr := { s.pr with resyncCtx := s.pr.resyncCtx.filter (· != t.ctx) } } := by
  rw [lagAccept, h]
  rfl

theorem lagAccept_none (h : drainOf s t.ctx (BitVec.ofNat 32 t.addr) = none) : lagAccept s t = s := by
  rw [lagAccept, h]

theorem dropMirror_found {k : Nat} (h : mirrorFind s t.set (t.addr / 512) = some k) :
    dropMirror s t = { s with pr := { s.pr with mirrors := SMap.put {} s.pr.mirrors k {} } } := by
  rw [dropMirror, h]
  rfl

theorem dropMirror_none (h : mirrorFind s t.set (t.addr / 512) = none) : dropMirror s t = s := by
  rw [dropMirror, h]

theorem repairRd_good {k : Nat} (h : mirrorFind s t.set (t.addr / 512) = some k) (hg : mirrorGood (mirrorAt s k) = true) :
    repairRd s t = ttSend s
      { kind := 0x09, tag := t.tag, mask := 0xFF, set := t.set, addr := t.addr, data := lineBytes (mirrorAt s k).data 0 512 } := by
  rw [repairRd, h]
  exact if_pos hg

theorem repairRd_bad {k : Nat} (h : mirrorFind s t.set (t.addr / 512) = some k) (hg : mirrorGood (mirrorAt s k) = false) :
    repairRd s t = ttSend (mirrorDrop s k (mirrorAt s k) 10) { kind := 0x09, tag := t.tag, set := t.set, addr := t.addr } := by
  rw [repairRd, h]
  exact if_neg (by simp [hg])

theorem repairRd_none (h : mirrorFind s t.set (t.addr / 512) = none) :
    repairRd s t = ttSend s { kind := 0x09, tag := t.tag, set := t.set, addr := t.addr } := by
  rw [repairRd, h]

theorem repairData_none (h : ∀ r ∈ s.pr.repairs, r.tag ≠ t.tag) : repairData s t = s := by
  rw [repairData, List.find?_eq_none.mpr fun r hr => by simpa using h r hr]

section
variable {r : Repair} (h : (s.pr.repairs.find? fun r => r.tag == t.tag) = some r)
  (hu : u = { s with pr := { s.pr with repairs := s.pr.repairs.filter fun x => x.tag != r.tag } })
include h hu

theorem repairData_line (hc : r.copy = none) (hr : r.rollback = false) :
    repairData s t = if t.mask ≠ 0 then postError (restoreLine u r.slot (lineOf t.data)) St.lineRepaired r.err else lastFail u r.last r.err := by
  subst hu
  rw [repairData, h]
  simp only [hc, hr, Bool.false_eq_true, if_false]

theorem repairData_copy {line : Nat} (hc : r.copy = some line) :
    repairData s t = if t.mask ≠ 0 then postError (restoreCopy u line (lineOf t.data)) St.lineRepaired r.err else lastFail u r.last r.err := by
  subst hu
  rw [repairData, h]
  simp only [hc]

theorem repairData_rollback (hc : r.copy = none) (hr : r.rollback = true) {l : Line} {v w : State} (hl : l = lineAt u r.slot)
    (hv : v = if t.mask ≠ 0 then restoreLine u r.slot (lineOf t.data)
      else if aKind (lastAt u r.last).attr = 2 then storeLine (openDel u l.addr) r.slot
        { l with st := .fallow, data := 0, badPar := 0, crcBad := false, crc := lineCrc 0 } (BitVec.allOnes 512) false
      else lineDrop (openDel u l.addr) r.slot)
    (hw : w = if (lineAt v r.slot).st = .invalid then v
      else storeLine v r.slot { lineAt v r.slot with
        locked := false, dirtyMask := 0, st := if t.mask ≠ 0 then .dirty else (lineAt v r.slot).st } 0 false) :
    repairData s t = if (w.pr.repairs.any fun x => x.rollback && x.last == r.last) = true then w else rollbackDone w r := by
  rw [repairData, h]
  simp only [hc, hr, if_true, ← hu, ← hl, ← hv, ← hw]

end

theorem planData_pinned (hc : (lastAt s (lastOf s t.addr)).cond = 1) (hk : aKind (lastAt s (lastOf s t.addr)).attr = 2) :
    planData s t = serve { s with arr := { s.arr with n := s.arr.n + 1 } } { n := s.arr.n, kind := .wr, plan := true, m := {
      addr := t.addr / 512 * 512, qos := t.qos, mask := (spanMask (t.addr % 512 / 256 * 256) 256).toNat
      data := List.replicate (t.addr % 512 / 256 * 256) 0 ++ slice t.data 0 256 } } :=
  if_pos ⟨hc, hk⟩

theorem planData_discarded (h : (lastAt s (lastOf s t.addr)).cond ≠ 1 ∨ aKind (lastAt s (lastOf s t.addr)).attr ≠ 2) :
    planData s t = ev s Ev.tthOutDiscard :=
  if_neg fun ⟨hc, hk⟩ => h.elim (· hc) (· hk)

end

/-! ## Takeover (R358, R440) -/

theorem standing_mirrorPut (s : State) (k : Nat) (l : Line) : standing (mirrorPut s k l) = standing s := by
  simp only [standing, mirrorPut]

theorem standing_promoteLine (s : State) (i k : Nat) (x : Line) : standing (promoteLine s i k x) = standing s := by
  have hput := standing_mirrorPut s k {}
  unfold promoteLine
  dsimp only
  split
  · exact hput
  split
  · exact (standing_lastFail _ _ _).trans hput
  split
  · exact (standing_storeLine _ _ _ _ _).trans hput
  split
  · exact (standing_storeLine _ _ _ _ _).trans hput
  · exact (memPush_memSent _ _).standing.trans hput

/-- The mirror lines of a last made its lines (R358, step 3). -/
theorem standing_promoteLines (j : Nat) (l : SMap Line) (s : State) :
    standing (l.foldl (fun s e => promoteLine s j e.1 e.2) s) = standing s := by
  apply foldl_standing
  intro s e
  exact standing_promoteLine s j e.1 e.2

/-- A last promoted is one last at most, and changes nothing that stands (R358). -/
theorem promoteLast_standing (s : State) (i : Nat) (l : Last) :
    standing (promoteLast s i l).1 = standing s ∧ (promoteLast s i l).2 ≤ 1 := by
  unfold promoteLast
  dsimp only
  split
  · exact ⟨rfl, Nat.zero_le 1⟩
  · rename_i j hj
    refine ⟨?_, Nat.le_refl 1⟩
    have hput : standing (lastPut s j (promotedLast s l)) = standing s := by simp only [standing, lastPut]
    have hslots (n : Nat) (f : State → Nat → State) (hf : ∀ s m, standing (f s m) = standing s) :
        standing (if aKind (promotedLast s l).attr = 2 then (List.range n).foldl f (lastPut s j (promotedLast s l))
          else lastPut s j (promotedLast s l)) = standing s := by
      split
      · exact (foldl_standing hf _ _).trans hput
      · exact hput
    rw [standing_postEvent]
    split
    · rw [standing_postEvent, standing_promoteLines]
      exact hslots _ _ fun s m => standing_storeLine _ _ _ _ _
    · rw [standing_promoteLines]
      exact hslots _ _ fun s m => standing_storeLine _ _ _ _ _

/-- A last promoted after others, and how many have been. -/
def promoteNext (x : State × Nat) (d : Nat × Last) : State × Nat :=
  ((promoteLast x.1 d.1 d.2).1, x.2 + (promoteLast x.1 d.1 d.2).2)

/-- Lasts promoted one after another are as many at most, and change nothing that stands. -/
theorem foldl_promoteNext (l : List (Nat × Last)) (x : State × Nat) :
    standing (l.foldl promoteNext x).1 = standing x.1 ∧ (l.foldl promoteNext x).2 ≤ x.2 + l.length := by
  induction l generalizing x with
  | nil => exact ⟨rfl, Nat.le_refl _⟩
  | cons d l ih =>
    obtain ⟨hstand, hcount⟩ := ih (promoteNext x d)
    obtain ⟨hone, hle⟩ := promoteLast_standing x.1 d.1 d.2
    refine ⟨hstand.trans hone, Nat.le_trans hcount ?_⟩
    simp only [promoteNext, List.length_cons]
    omega

theorem standing_stageFree (s : State) : standing (stageFree s) = standing s := by
  unfold stageFree
  split <;> rfl

theorem unavailAdd_pr (s : State) (us : Nat) : (unavailAdd s us).pr = s.pr := by
  obtain ⟨_, _, _, _, _, _, _, _, _, h⟩ := evN_sent { s with hl := { s.hl with unavail := s.hl.unavail + us } } Ev.pairUnavailUs us
  rw [unavailAdd, h]

theorem standing_unavailAdd (s : State) (us : Nat) : standing (unavailAdd s us) = standing s := (evN_sent _ _ _).standing

/-- PAIR.TAKEOVER of the fellow by a slice that is SOLO: the lasts promoted are counted, what was staged is gone, and the pair is TAKEN_OVER
(R358, R440). -/
theorem pairTakeover_takes {s : State} {c : Cmd} (hst : s.pr.st = 2) (hid : leAt c.desc 16 4 % 2 ^ 18 = s.pr.fellowId)
    (defs : List (Nat × Last)) : ∃ u n, pairTakeover defs s c = cmdEnd u c.n St.ok (n % 65536) 0 ∧ n ≤ defs.length ∧ u.pr.st = 5 ∧
      standing u = { standing s with stage := [], ends := [] } := by
  obtain ⟨hstand, hcount⟩ := foldl_promoteNext (defs.filter fun d => aPaired d.2.attr)
    (stageFree { s with pr := { s.pr with stage := [], ends := [] } }, 0)
  unfold pairTakeover
  rw [if_neg fun h => h.elim (· hst) (· hid)]
  have hlen := List.length_filter_le (fun d : Nat × Last => aPaired d.2.attr) defs
  refine ⟨_, _, rfl, ?_, ?_, ?_⟩
  · rw [Nat.zero_add] at hcount
    exact Nat.le_trans hcount hlen
  · rw [unavailAdd_pr]
  · rw [standing_unavailAdd]
    exact hstand.trans (standing_stageFree _)

/-- Settles O59: a message delivered is handled by its kind, a repair by what it was asked for, and a takeover promotes its lasts past what
stands. -/
theorem tetherMessages : Obligations.TetherMessages := by
  refine ⟨?written, ?noWay, ?waited, ?resync, ?staged, ?ended, ?accepted, ?unknown, ?applied, ?dropped, ?notHeld, ?good, ?bad, ?empty, ?unasked,
    ?line, ?copy, ?rollback, ?pinned, ?discarded, ?begin, ?solo, ?busy, ?pair, ?takeover, ?off⟩
  case written => exact fun t s u h hw => exec_message (i := .syncWr t) rfl h (syncWr_written hw)
  case noWay => exact fun t s u h hw => exec_message (i := .syncWr t) rfl h (syncWr_noWay hw)
  case waited => exact fun t s o h ho => exec_message (i := .syncAck t) rfl h (syncAck_waited ho)
  case resync => exact fun t s h hn => exec_message (i := .syncAck t) rfl h (syncAck_resync hn)
  case staged => exact fun t s h => exec_message (i := .lagRec t) rfl h rfl
  case ended =>
    rintro t s gen h rfl carried u v rfl rfl rfl
    exact exec_message (i := .lagEnd t) rfl h rfl
  case accepted => exact fun t s d h hd => exec_message (i := .lagAccept t) rfl h (lagAccept_drain hd)
  case unknown => exact fun t s h hd => exec_message (i := .lagAccept t) rfl h (lagAccept_none hd)
  case applied => exact fun t s h => exec_message (i := .lagApplied t) rfl h rfl
  case dropped => exact fun t s k h hk => exec_message (i := .dropMirror t) rfl h (dropMirror_found hk)
  case notHeld => exact fun t s h hk => exec_message (i := .dropMirror t) rfl h (dropMirror_none hk)
  case good => exact fun t s k h hk hg => exec_message (i := .repairRd t) rfl h (repairRd_good hk hg)
  case bad => exact fun t s k h hk hg => exec_message (i := .repairRd t) rfl h (repairRd_bad hk hg)
  case empty => exact fun t s h hk => exec_message (i := .repairRd t) rfl h (repairRd_none hk)
  case unasked => exact fun t s h hr => exec_message (i := .repairData t) rfl h (repairData_none hr)
  case line => exact fun t s r h hr hc hb u hu => exec_message (i := .repairData t) rfl h (repairData_line hr hu hc hb)
  case copy => exact fun t s r line h hr hc u hu => exec_message (i := .repairData t) rfl h (repairData_copy hr hu hc)
  case rollback =>
    intro t s r h hr hc hb u v w l hu hl hv hw
    exact exec_message (i := .repairData t) rfl h (repairData_rollback hr hu hc hb hl hv hw)
  case pinned => exact fun t s h hc hk => exec_message (i := .planData t) rfl h (planData_pinned hc hk)
  case discarded => exact fun t s h hn => exec_message (i := .planData t) rfl h (planData_discarded hn)
  case begin => exact fun t s h => exec_message (i := .resyncBegin t) rfl h rfl
  case solo => exact fun t s h hst => exec_message (i := .resyncDone t) rfl h (if_pos hst)
  case busy => exact fun t s h hst => exec_message (i := .resyncDone t) rfl h (if_neg hst)
  case pair =>
    intro ring idx c s hs hlink hst
    have hgo : ¬((begun s c).tt.link ≠ 2 ∨ (begun s c).pr.st ≠ 2) := fun h => h.elim (· hlink) (· hst)
    exact next_startCmd (f := pairResync) hs (if_neg hgo)
  case takeover =>
    intro ring idx defs c s hs hst hid
    obtain ⟨u, n, htake, hn, hown, hstand⟩ := pairTakeover_takes (s := begun s c) (c := { c with started := true }) hst hid defs
    have hcmds : u.rg.cmds = (begun s c).rg.cmds := congrArg Standing.cmds hstand
    refine ⟨_, n % 65536, next_startCmd hs htake, endsOk_cmdEnd (by rw [hcmds]; exact begun_mem hs) _ _, Nat.le_trans (Nat.mod_le _ _) hn, hown,
      congrArg Standing.stage hstand, congrArg Standing.ends hstand, congrArg Standing.link hstand⟩
  case off =>
    intro t s i hi
    obtain ⟨k, e, hm⟩ : ∃ k e, messageOf s i = some (k, t, e) := by
      simp only [List.mem_cons, List.not_mem_nil, or_false] at hi
      rcases hi with rfl | rfl | rfl | rfl | rfl | rfl | rfl | rfl | rfl | rfl | rfl | rfl <;> exact ⟨_, _, rfl⟩
    exact ⟨exec_message_off hm, exec_message_held hm⟩

end Sys2Proof.Machine
end

section
/-! The link of the tether (O58). -/

namespace Sys2Proof.Machine

open Sys2Proof

/-! ## Tables that a fold writes -/

/-- A table rewritten by `f` at each key below `n`, once. -/
theorem get_foldl_put (f : Nat → Nat → Nat) (m : SMap Nat) (n c : Nat) :
    SMap.get 0 ((List.range n).foldl (fun m k => SMap.put 0 m k (f k (SMap.get 0 m k))) m) c =
      if c < n then f c (SMap.get 0 m c) else SMap.get 0 m c := by
  induction n with
  | zero => rfl
  | succ n ih =>
    rw [List.range_succ, List.foldl_append, List.foldl_cons, List.foldl_nil]
    by_cases hc : c = n
    · subst hc
      rw [SMap.get_put_self, ih, if_neg (Nat.lt_irrefl c), if_pos (Nat.lt_succ_self c)]
    · have hlt : c < n + 1 ↔ c < n := by omega
      simp only [SMap.get_put_ne hc, ih, hlt]

/-! ## What a nak leaves of the receiver (R369) -/

/-- The DATA flit the receiver expects next, and whether it has sent a nak since the last good one. -/
def expects (s : State) : Nat × Bool := (s.tt.rxSeq, s.tt.nakked)

theorem Sent.expects {s t : State} (h : Sent s t) : expects t = expects s := by
  obtain ⟨_, _, _, _, _, _, _, _, _, rfl⟩ := h
  rfl

/-- A fold none of whose steps changes what the receiver expects does not change it. -/
theorem foldl_expects {β : Type} {f : State → β → State} (hf : ∀ s b, expects (f s b) = expects s) (l : List β) (s : State) :
    expects (l.foldl f s) = expects s := by
  induction l generalizing s with
  | nil => rfl
  | cons b l ih => rw [List.foldl_cons, ih, hf]

theorem expects_chargeHold (s : State) : expects (chargeHold s) = expects s := by
  unfold chargeHold
  split
  · exact (ev_sent _ _).expects
  · rfl

theorem expects_flitSend (s : State) (kind seq : Nat) (nak : Bool) (start : Nat) (chunks : Bytes) :
    expects (flitSend s kind seq nak start chunks) = expects s := by
  unfold flitSend
  dsimp only
  exact (drive_sent _ _).expects

/-- A DATA flit sent again is charged and counted, and only sent. -/
theorem expects_dataSend (s : State) (r : Replay) : expects (dataSend s r) = expects s :=
  (ev_sent _ _).expects.trans (expects_flitSend _ _ _ _ _ _)

theorem expects_flitResend (s : State) : expects (flitResend s) = expects s := foldl_expects expects_dataSend _ s

/-- A nak received makes the slice send again and perhaps train again; what it expects of the fellow's flits stays (R369, R370). -/
theorem expects_flitNak (s : State) : expects (flitNak s) = expects s := by
  have hcounted : expects (ev s Ev.tthRetry) = expects s := (ev_sent _ _).expects
  have hresent : ∀ (l : List Replay) (t : State), expects (flitResend (l.foldl (fun s _ => chargeHold s) t)) = expects t := fun l t =>
    (expects_flitResend _).trans (foldl_expects (fun t _ => expects_chargeHold t) l t)
  unfold flitNak
  dsimp only
  split
  · exact (hresent _ _).trans hcounted
  · exact (hresent _ _).trans hcounted

/-! ## Flits received while the link is UP (R364 to R370) -/

theorem flitUse_tt (s : State) (b : Bytes) : (flitUse s b).tt = s.tt := by
  unfold flitUse
  dsimp only
  split <;> rfl

/-- The state after a flit's energy is charged: a DATA flit's is. -/
def flitCharged (s : State) (b : Bytes) : State := if fld (leAt b 0 8) 46 44 = 0 then flitUse s b else s

theorem flitCharged_tt (s : State) (b : Bytes) : (flitCharged s b).tt = s.tt := by
  unfold flitCharged
  split
  · exact flitUse_tt s b
  · rfl

/-- The send credits with those a flit returns (R364, R374). -/
def creditsBack (vc : SMap Nat) (b : Bytes) : SMap Nat :=
  (List.range 4).foldl (fun m c => SMap.put 0 m c (SMap.get 0 m c + fld (leAt b 0 8) (37 + 2 * c) (36 + 2 * c))) vc

theorem get_creditsBack (vc : SMap Nat) (b : Bytes) {c : Nat} (hc : c < 4) :
    SMap.get 0 (creditsBack vc b) c = SMap.get 0 vc c + fld (leAt b 0 8) (37 + 2 * c) (36 + 2 * c) := by
  rw [creditsBack, get_foldl_put fun c x => x + fld (leAt b 0 8) (37 + 2 * c) (36 + 2 * c), if_pos hc]

/-- The state once a good flit's credits and its acknowledgement are taken (R364, R368). -/
def flitAcked (s : State) (b : Bytes) : State :=
  flitAck { flitCharged s b with tt := { s.tt with vc := creditsBack s.tt.vc b } } (fld (leAt b 0 8) 55 48)

/-- The state once its nak is taken too (R369). -/
def flitAnswered (s : State) (b : Bytes) : State :=
  if (leAt b 0 8).testBit 47 = true then flitNak (flitAcked s b) else flitAcked s b

theorem expects_flitAnswered (s : State) (b : Bytes) : expects (flitAnswered s b) = expects s := by
  unfold flitAnswered
  split
  · exact expects_flitNak _
  · rfl

section
variable {s : State} {b : Bytes}

theorem exec_flit_delivers (h : Delivers s) : exec (.flitReceived b) s = .next (flitReceived s b) := by
  obtain ⟨hlink, hfence, hp⟩ := h
  change execFlitReceived b s = _
  rw [execFlitReceived, if_neg (by rw [hlink]; decide), if_pos (by simp [hlink, hfence]), if_neg hp]

/-- A flit of a wrong length or CRC is discarded, with a nak where it is a DATA flit (R369). -/
theorem flitReceived_bad (hbad : b.length ≠ 256 ∨ (crc32 (b.take 252)).toNat ≠ leAt b 252 4) :
    flitReceived s b = if fld (leAt b 0 8) 46 44 = 0 then nakSend (flitCharged s b) else flitCharged s b :=
  if_pos hbad

section
variable (hlen : b.length = 256) (hcrc : (crc32 (b.take 252)).toNat = leAt b 252 4)
include hlen hcrc

/-- While the link is UP, flits of other kinds do nothing (R367). -/
theorem flitReceived_other (hkind : 2 ≤ fld (leAt b 0 8) 46 44) : flitReceived s b = s := by
  unfold flitReceived
  rw [if_neg (by simp [hlen, hcrc]), if_pos hkind, if_neg (by omega)]

theorem flitReceived_good (hkind : fld (leAt b 0 8) 46 44 < 2) :
    flitReceived s b = advance (ttFlush
      (if fld (leAt b 0 8) 46 44 = 0 ∧ (flitAnswered s b).tt.link = 2 then dataFlit (flitAnswered s b) b else flitAnswered s b)) := by
  unfold flitReceived flitAnswered flitAcked creditsBack
  rw [← flitCharged_tt s b]
  exact (if_neg (by simp [hlen, hcrc])).trans (if_neg (Nat.not_le.mpr hkind))

end

/-- A DATA flit in sequence gives its chunks and is acknowledged (R366, R369). -/
theorem dataFlit_inSeq (h : fld (leAt b 0 8) 63 56 = s.tt.rxSeq) : dataFlit s b = nullFlit
    ((List.range 15).foldl (fun t k => rxChunk t ((leAt b 0 8).testBit k) (slice b (8 + 16 * k) 16))
      { s with tt := { s.tt with rxSeq := (s.tt.rxSeq + 1) % 256, nakked := false } }) false :=
  if_pos h

/-- One out of sequence draws one nak (R369). -/
theorem dataFlit_outOfSeq (h : fld (leAt b 0 8) 63 56 ≠ s.tt.rxSeq) : dataFlit s b = if s.tt.nakked = true then s else nakSend s :=
  if_neg h

end

/-! ## Training (R377 to R380) -/

/-- The words of the eight lanes at a phase (R388). -/
def laneWords (p : Nat) (lanes : List Nat) : List Nat := (List.range 8).map fun i => laneWord p (lanes.getD i 5)

/-- The lanes that pass, a bit each (R379). -/
def lanesGood (p : Nat) (lanes : List Nat) : Nat :=
  ((List.range 8).map fun i => if laneWord p (lanes.getD i 5) % 8 = 1 then 2 ^ i else 0).foldl (· + ·) 0

/-- The lanes as a phase measures them (R388). -/
def lanesTable (p : Nat) (lanes : List Nat) : SMap Nat :=
  (List.range 8).foldl (fun m i => SMap.put 0 m i (laneWord p (lanes.getD i 5))) []

/-- The state with what a phase has measured. -/
def lanesMeasured (s : State) (p : Nat) (lanes : List Nat) : State :=
  { s with tt := { s.tt with lanes := lanesTable p lanes, laneOk := lanesGood p lanes } }

theorem get_lanesTable (p : Nat) (lanes : List Nat) {i : Nat} (hi : i < 8) :
    SMap.get 0 (lanesTable p lanes) i = laneWord p (lanes.getD i 5) := by
  rw [lanesTable, get_foldl_put fun i _ => laneWord p (lanes.getD i 5), if_pos hi]

theorem any_laneWords {p : Nat} {lanes : List Nat} :
    (laneWords p lanes).any (fun w => w % 8 == 6) = true ↔ ∃ i < 8, laneWord p (lanes.getD i 5) % 8 = 6 := by
  simp only [laneWords, List.any_map, List.any_eq_true, List.mem_range, Function.comp_apply, beq_iff_eq]

section
variable {s : State} {p : Nat} {ok : Bool} {lanes : List Nat}

theorem exec_trainingPhaseDone (hlink : s.tt.link = 1 ∨ s.tt.link = 3) (hphase : s.tt.phase < 4) :
    exec (.trainingPhaseDone ok lanes) s = .next (phaseDone s ok lanes) :=
  congrArg Host.Outcome.next (if_pos ⟨hlink, hphase⟩)

theorem phaseDone_detect (h : s.tt.phase = 0) :
    phaseDone s ok lanes = if ok = true then { s with tt := { s.tt with phase := 1 } } else linkDown s 4 2 :=
  if_pos h

/-- A phase after DETECT is judged on the lanes it measured (R377, R379). -/
theorem phaseDone_measured (h : s.tt.phase = p) (hp : p ≠ 0) : phaseDone s ok lanes =
    if p = 3 ∧ (laneWords p lanes).any (fun w => w % 8 == 6) = true then linkDown (lanesMeasured s p lanes) 4 8
    else if (!ok) = true ∨ halfOf (lanesGood p lanes) = 0 ∨ lanes.getD 8 3 % 4 = 0 then linkDown (lanesMeasured s p lanes) 4 3
    else if p = 2 then testStart (lanesMeasured s p lanes)
    else if p < 3 then { lanesMeasured s p lanes with tt := { (lanesMeasured s p lanes).tt with phase := p + 1 } }
    else testPassed (lanesMeasured s p lanes) (halfOf (lanesGood p lanes)) (lanes.getD 8 3 % 4) (lanes.getD 9 0 == 1) := by
  subst h
  exact if_neg hp

/-- A lane with an order fault at the test takes the link DOWN (R380, R388). -/
theorem phaseDone_miswired (h : s.tt.phase = 3) (hbad : ∃ i < 8, laneWord 3 (lanes.getD i 5) % 8 = 6) :
    phaseDone s ok lanes = linkDown (lanesMeasured s 3 lanes) 4 8 := by
  rw [phaseDone_measured h (by decide), if_pos ⟨rfl, any_laneWords.mpr hbad⟩]

theorem laneWords_wired (hwired : p = 3 → ∀ i < 8, laneWord p (lanes.getD i 5) % 8 ≠ 6) :
    ¬(p = 3 ∧ (laneWords p lanes).any (fun w => w % 8 == 6) = true) := by
  rintro ⟨hp, hany⟩
  obtain ⟨i, hi, h6⟩ := any_laneWords.mp hany
  exact hwired hp i hi h6

section
variable (h : s.tt.phase = p) (hp : p ≠ 0) (hwired : p = 3 → ∀ i < 8, laneWord p (lanes.getD i 5) % 8 ≠ 6)
include h hp hwired

theorem phaseDone_fails (hno : ok = false ∨ halfOf (lanesGood p lanes) = 0 ∨ lanes.getD 8 3 % 4 = 0) :
    phaseDone s ok lanes = linkDown (lanesMeasured s p lanes) 4 3 := by
  rw [phaseDone_measured h hp, if_neg (laneWords_wired hwired), if_pos (by rwa [Bool.not_eq_true'])]

theorem phaseDone_passes (hok : ok = true) (hrx : halfOf (lanesGood p lanes) ≠ 0) (htx : lanes.getD 8 3 % 4 ≠ 0) (hle : p ≤ 3) :
    phaseDone s ok lanes =
      if p = 1 then { lanesMeasured s p lanes with tt := { (lanesMeasured s p lanes).tt with phase := 2 } }
      else if p = 2 then testStart (lanesMeasured s p lanes)
      else testPassed (lanesMeasured s p lanes) (halfOf (lanesGood p lanes)) (lanes.getD 8 3 % 4) (lanes.getD 9 0 == 1) := by
  rw [phaseDone_measured h hp, if_neg (laneWords_wired hwired), if_neg (by rw [hok]; exact not_or.mpr ⟨by decide, not_or.mpr ⟨hrx, htx⟩⟩)]
  obtain rfl | rfl | rfl : p = 1 ∨ p = 2 ∨ p = 3 := by omega
  · rfl
  · rfl
  · rfl

end
end

/-! ## Negotiation (R381, R382) -/

section
variable {s : State} {b p : Bytes}

theorem exec_negotiation (hlink : s.tt.link = 1) (hphase : s.tt.phase = 4) (hp : s.pw.pstate ≠ 4) :
    exec (.negotiationFrame b) s = .next (negotiation s b) :=
  congrArg Host.Outcome.next ((if_pos ⟨hlink, hphase⟩).trans (if_neg hp))

/-- The first frame is answered with the verdict on it (R381). -/
theorem negotiation_first (h : (leAt b 24 1).testBit 0 = false) : negotiation s b =
    drive { s with tt := { s.tt with proposal := some b, verdict := verdictOf s b } } (.train (ctrlFlit (negFrame s 1 (verdictOf s b)))) := by
  rw [negotiation, if_pos (by rw [h]; rfl)]

/-- The second ends the negotiation by both verdicts, the slice's own before the fellow's (R382). -/
theorem negotiation_second (h : (leAt b 24 1).testBit 0 = true) (hp : s.tt.proposal = some p) : negotiation s b =
    if (if s.tt.verdict ≠ 0 then s.tt.verdict else leAt b 25 1) = 0 then agree s p
    else pairRefuse s (if s.tt.verdict ≠ 0 then s.tt.verdict else leAt b 25 1) p := by
  rw [negotiation, if_neg (by rw [h]; decide), hp]

theorem Sent.pr {s t : State} (h : Sent s t) : t.pr = s.pr := by
  obtain ⟨_, _, _, _, _, _, _, _, _, rfl⟩ := h
  rfl

/-- A refusal leaves the pair REFUSED (R382). -/
theorem pairRefuse_st (s : State) (v : Nat) (b : Bytes) : (pairRefuse s v b).pr.st = 4 := by
  unfold pairRefuse
  dsimp only
  rw [(postEvent_sent _ _ _ _ _ _).pr]

end

/-- Settles O58: a flit, a phase of training and a negotiation frame each do what their row says, and a nak received leaves what the receiver
expects. -/
theorem tetherLinkRows : Obligations.TetherLinkRows := by
  refine ⟨?off, ?training, ?bad, ?good, fun _ _ => rfl, ?detect, ?phase, ?held, ?deaf, ?frame, fun _ => rfl, ?retry⟩
  case off =>
    intro b s h1 h
    change execFlitReceived b s = _
    rw [execFlitReceived, if_neg h1, if_neg (by rcases h with h | h <;> simp [h])]
  case training =>
    intro b f s hlink
    change (_ → execFlitReceived b s = execNegotiationFrame f s) ∧ (_ → execFlitReceived b s = _)
    rw [execFlitReceived, if_pos hlink]
    exact ⟨fun hf => by rw [hf]; rfl, fun hf => by rw [hf]⟩
  case bad =>
    rintro b s x h hs rfl rfl hbad
    rw [exec_flit_delivers hs, flitReceived_bad hbad]
    rfl
  case good =>
    rintro b s x h hs rfl rfl hlen hcrc
    obtain ⟨hseq, hnak⟩ := Prod.mk.inj (expects_flitAnswered s b)
    rw [exec_flit_delivers hs]
    refine ⟨fun hk => by rw [flitReceived_other hlen hcrc hk], creditsBack s.tt.vc b, flitAcked s b, flitAnswered s b,
      fun c hc => get_creditsBack _ b hc, rfl, rfl, fun hk => ?_, fun hk hlink => ⟨fun hin => ?_, fun hout => ?_⟩⟩
    · rw [flitReceived_good hlen hcrc (by omega), if_neg fun ⟨h0, h2⟩ => by omega]
    · rw [flitReceived_good hlen hcrc (by omega), if_pos ⟨hk, hlink⟩, dataFlit_inSeq (hin.trans hseq.symm), hseq]
    · rw [flitReceived_good hlen hcrc (by omega), if_pos ⟨hk, hlink⟩, dataFlit_outOfSeq (fun h => hout (h.trans hseq)), hnak]
  case detect =>
    intro ok lanes s hlink hphase
    rw [exec_trainingPhaseDone hlink (by omega), phaseDone_detect hphase]
  case phase =>
    intro ok lanes s p hlink hphase h1 h3
    rw [exec_trainingPhaseDone hlink (by omega)]
    refine ⟨lanesTable p lanes, lanesGood p lanes, lanesMeasured s p lanes, fun i hi => get_lanesTable p lanes hi, rfl, rfl,
      fun hp hbad => ?_, fun hwired => ⟨fun hno => ?_, fun hok hrx htx => ?_⟩⟩
    · subst hp
      rw [phaseDone_miswired hphase hbad]
    · rw [phaseDone_fails hphase (by omega) hwired hno]
    · rw [phaseDone_passes hphase (by omega) hwired hok hrx htx h3]
  case held => exact fun b s hlink hphase hp => congrArg Host.Outcome.next ((if_pos ⟨hlink, hphase⟩).trans (if_pos hp))
  case deaf => exact fun b s h => congrArg Host.Outcome.next (if_neg fun ⟨hlink, hphase⟩ => h.elim (· hlink) (· hphase))
  case frame =>
    intro b s hlink hphase hp
    rw [exec_negotiation hlink hphase hp]
    refine ⟨fun h => by rw [negotiation_first h], fun h p hprop => ?_⟩
    rw [negotiation_second h hprop]
    refine ⟨fun hv hb => ?_, fun hv => ⟨_, pairRefuse_st s _ p, congrArg Host.Outcome.next (if_neg ?_)⟩⟩
    · rw [if_pos (by rw [if_neg (Decidable.not_not.mpr hv), hb])]
    · split
      · assumption
      · exact hv.resolve_left ‹_›
  case retry =>
    intro s
    change execLinkDownRetry s = _
    simp only [execLinkDownRetry, Bool.not_eq_true', trainStart]

end Sys2Proof.Machine
end

section
/-! The commands that a check of their table refuses at their start (O40). -/

namespace Sys2Proof.Machine

open Sys2Proof

/-- A row whose command refuses ends it with the status of the check, word2 and aux 0, and has no other effect (R419). -/
theorem next_refused {s : State} {ring idx code status : Nat} {c : Cmd} (h : Starts s ring idx code c) {f : State → Cmd → State}
    (hf : f (begun s c) { c with started := true } = refuseCmd (begun s c) { c with started := true } status) :
    (.next (startCmd s ring idx code f) : Host.Outcome State Fault Refusal) =
      .next (advance (cmdEnd (begun s c) c.n status 0 0)) :=
  next_startCmd h hf

/-! ## The check by which each command refuses -/

section
variable {s : State} {c : Cmd}

/-- LAST.DELETE of the default last, or of one that is not defined (R424). -/
theorem lastDelete_refused (h : leAt c.desc 16 2 % 1024 = 1023 ∨ (SMap.get {} s.arr.lasts (leAt c.desc 16 2 % 1024)).cond = 0) :
    lastDelete s c = refuseCmd s c St.badAttr :=
  if_pos h

/-- A range command whose range or flags fail (R427). -/
theorem rangeStart_unchecked {kind : OpKind} (h : rangeCheck c ≠ 0) : rangeStart kind s c = refuseCmd s c (rangeCheck c) :=
  if_pos h

/-- A range command whose range touches another context (R418). -/
theorem rangeStart_denied {kind : OpKind} (hc : rangeCheck c = 0)
    (hd : rangeDenied s (rangeBase c) (rangeLen c) (leAt c.desc 34 2 % 4096) = true) :
    rangeStart kind s c = refuseCmd s c St.ctxDenied :=
  (if_neg (Decidable.not_not.mpr hc)).trans (if_pos hd)

/-- GEN.OPEN of a context that is not IDLE (R434). -/
theorem genOpen_refused (h : (ctxGet s (cmdContext c)).st ≠ 0) : genOpen s c = refuseCmd s c St.badState :=
  if_pos h

/-- LOG.ADVANCE of a log ring that is not enabled (R434). -/
theorem logAdvance_refused (h : csrBit s (0x808 + 16 * (leAt c.desc 16 1 % 16)) 63 = false) :
    logAdvance s c = refuseCmd s c St.badState :=
  if_pos (by simp [h])

/-- CTX.FREEZE with no image of a context that is not OPEN; the image's own fields are checked before the state (R434). -/
theorem ctxFreeze_refused (himage : (leAt c.desc 18 1).testBit 1 = false) (h : (ctxGet s (cmdContext c)).st ≠ 1) :
    ctxFreeze s c = refuseCmd s c St.badState :=
  (if_neg (by simp [himage])).trans (if_pos h)

/-- CTX.RELEASE of a context that is not FROZEN (R434). -/
theorem ctxRelease_refused (h : (ctxGet s (cmdContext c)).st ≠ 2) : ctxRelease s c = refuseCmd s c St.badState :=
  if_pos (.inl h)

/-- CTX.SEED of an OPEN context (R434). -/
theorem ctxSeed_refused (h : (ctxGet s (cmdContext c)).st = 1) : ctxSeed s c = refuseCmd s c St.badState :=
  if_pos h

/-- PLAN.RUN without a switch while the plan is not IDLE (R436). -/
theorem planRun_busy (hrun : (leAt c.desc 16 1).testBit 0 = false) (h : s.pl.st ≠ 0) : planRun s c = refuseCmd s c St.planBusy :=
  (if_neg (by simp [hrun])).trans (if_pos h)

/-- PLAN.RUN without a switch, from IDLE and without plan lock (R436). -/
theorem planRun_unlocked (hrun : (leAt c.desc 16 1).testBit 0 = false) (hidle : s.pl.st = 0) (h : s.pw.planLock = false) :
    planRun s c = refuseCmd s c St.badState :=
  (if_neg (by simp [hrun])).trans ((if_neg (Decidable.not_not.mpr hidle)).trans (if_pos (.inr (by simp [h]))))

/-- SHEAF.READ at a base where no window is bound (R437). -/
theorem sheafRead_unbound (h : windowAt s c = none) : sheafRead s c = refuseCmd s c St.badAddr := by
  rw [sheafRead, h]

/-- SHEAF.RELEASE at a base where no window is bound (R437). -/
theorem sheafRelease_unbound (h : windowAt s c = none) : sheafRelease s c = refuseCmd s c St.badAddr := by
  rw [sheafRelease, h]

/-- DIGEST.RANGE of no lines (R437). -/
theorem digestRange_empty (h : leAt c.desc 24 4 = 0) : digestRange s c = refuseCmd s c St.badAddr :=
  if_pos (.inl h)

/-- BIAS.FLIP with the bias table disabled (R438). -/
theorem biasFlip_disabled (h : csrBit s 0x600 0 = false) : biasFlip s c = refuseCmd s c St.badState :=
  if_pos (by simp [h])

/-- PAIR.RESYNC with the link not UP or the pair not SOLO (R439). -/
theorem pairResync_refused (h : s.tt.link ≠ 2 ∨ s.pr.st ≠ 2) : pairResync s c = refuseCmd s c St.badState :=
  if_pos h

/-- PAIR.TAKEOVER with the pair not SOLO (R440). -/
theorem pairTakeover_refused {defs : List (Nat × Last)} (h : s.pr.st ≠ 2) : pairTakeover defs s c = refuseCmd s c St.badState :=
  if_pos (.inl h)

/-- TEST.RUN of a pack slot that is empty (R441). -/
theorem testRun_noPack (hpack : (leAt c.desc 24 1).testBit 7 = true) (h : SMap.get [] s.hl.packs (leAt c.desc 24 1 % 4) = []) :
    testRun s c = refuseCmd s c St.badState :=
  if_pos (by rw [hpack, h]; rfl)

/-- PATCH.LOAD with a table installed, or after a command other than NOP, PATCH.LOAD and LAST.READ was accepted (R441). -/
theorem patchLoad_refused {input : Bytes} {bad : List BadBeat} (h : s.rg.patched = true ∨ c.late = true) :
    patchLoad s c input bad = refuseCmd s c St.badState :=
  if_pos h

/-- SLICE.RETIRE during a retirement (R441). -/
theorem sliceRetire_refused (h : 2 ≤ s.hl.rState) : sliceRetire s c = refuseCmd s c St.badState :=
  if_pos h

end

/-- Settles O40: the mark of its start changes nothing a command's check reads, so a check that fails on the state before refuses the
command. -/
theorem commandsRefused : Obligations.CommandsRefused := by
  refine ⟨?lastDelete, ?flush, ?invalidate, ?discard, ?genOpen, ?logAdvance, ?ctxFreeze, ?ctxRelease, ?ctxSeed, ?planUnlocked, ?planBusy,
    ?sheafRead, ?sheafRelease, ?digest, ?biasFlip, ?pairResync, ?pairTakeover, ?testRun, ?patchLoad, ?sliceRetire⟩
  case lastDelete => exact fun _ _ _ _ hs h => next_refused hs (lastDelete_refused h)
  case flush => exact fun _ _ _ _ hs h => next_refused hs (rangeStart_unchecked h)
  case invalidate => exact fun _ _ _ _ hs h => next_refused hs (rangeStart_unchecked h)
  case discard => exact fun _ _ _ _ hs hc hd => next_refused hs (rangeStart_denied hc hd)
  case genOpen => exact fun _ _ _ _ hs h => next_refused hs (genOpen_refused h)
  case logAdvance => exact fun _ _ _ _ hs h => next_refused hs (logAdvance_refused h)
  case ctxFreeze => exact fun _ _ _ _ hs himage h => next_refused hs (ctxFreeze_refused himage h)
  case ctxRelease => exact fun _ _ _ _ hs h => next_refused hs (ctxRelease_refused h)
  case ctxSeed => exact fun _ _ _ _ hs h => next_refused hs (ctxSeed_refused h)
  case planUnlocked => exact fun _ _ _ _ hs hrun hidle h => next_refused hs (planRun_unlocked hrun hidle h)
  case planBusy => exact fun _ _ _ _ hs hrun h => next_refused hs (planRun_busy hrun h)
  case sheafRead => exact fun _ _ _ _ hs h => next_refused hs (sheafRead_unbound h)
  case sheafRelease => exact fun _ _ _ _ hs h => next_refused hs (sheafRelease_unbound h)
  case digest => exact fun _ _ _ _ hs h => next_refused hs (digestRange_empty h)
  case biasFlip => exact fun _ _ _ _ hs h => next_refused hs (biasFlip_disabled h)
  case pairResync => exact fun _ _ _ _ hs h => next_refused hs (pairResync_refused h)
  case pairTakeover => exact fun _ _ _ _ _ hs h => next_refused hs (pairTakeover_refused h)
  case testRun => exact fun _ _ _ _ hs hpack h => next_refused hs (testRun_noPack hpack h)
  case patchLoad => exact fun _ _ _ _ _ _ hs h => next_refused hs (patchLoad_refused h)
  case sliceRetire => exact fun _ _ _ _ hs h => next_refused hs (sliceRetire_refused h)

end Sys2Proof.Machine
end

section
/-! The patch table and the test packs over a row that neither loads them nor restarts the controller (O16). -/

namespace Sys2Proof.Machine

open Sys2Proof

/-- What a restart of the controller discards: the patch table and the test packs (R554). -/
def controllerGroups : Group → Bool := fun g => g == .patch || g == .packs

/-- The straps, resets, clocks and rails hold neither the patch table nor a test pack. -/
theorem power_keeps (s : State) (p : Power) : Keeps controllerGroups s { s with pw := p } :=
  ⟨rfl, List.prefix_refl _, id, id, id, id, nofun, nofun, nofun, nofun, nofun, nofun, fun _ => ⟨rfl, rfl⟩, fun _ => rfl, nofun, nofun⟩

/-- WRST_N begins the quiesce of a slice that is not fenced, and restarts no controller (R555). -/
theorem warmReset_keeps_unfenced {s : State} (h : s.hd.fenced = false) : Keeps controllerGroups s (warmReset s) := by
  rw [warmReset, if_neg (by simp [h])]
  exact .ite (fun _ => quiesceStart_keeps (.refl _ s) rfl rfl) fun _ => .refl _ s

/-- The release of FLOW_STOP_N restarts the controller of a fenced slice alone (R60, R556). -/
theorem flowStopRelease_keeps_unfenced {s : State} (h : s.hd.fenced = false) (wrstLow : Bool) :
    Keeps controllerGroups s (flowStopRelease s wrstLow) := by
  unfold flowStopRelease
  dsimp only
  refine .ite (fun _ => startGo_keeps (power_keeps s _) rfl) fun _ => .ite (fun _ => flowExit_keeps (power_keeps s _) rfl rfl) fun _ => ?_
  rw [if_neg (by simp [h])]
  exact power_keeps s _

/-- In a slice that is not fenced, the rows by which WRST_N takes effect leave both. -/
theorem exec_controllerRow_keeps {c : Instr} {s t : State} (hc : controllerRow c = true) (hr : restartRow c = false)
    (hf : s.hd.fenced = false) (h : exec c s = .next t) : Keeps controllerGroups s t := by
  unfold controllerRow at hc
  split at hc
  · cases hr
  · cases hr
  · obtain rfl := Host.Outcome.next.inj h
    exact .ite (fun _ => .refl _ s) fun _ => .ite (fun _ => power_keeps s _) fun _ => warmReset_keeps_unfenced hf
  · obtain rfl := Host.Outcome.next.inj h
    exact .ite (fun _ => flowStopRelease_keeps_unfenced hf _) fun _ => .refl _ s
  · cases hc

section
variable {c : Instr} (hctl : controllerRow c = false) (hcold : coldRow c = false)
include hctl hcold

/-- Of the rows that leave the controller running, PATCH.LOAD alone is not known to leave the patch table. -/
theorem rowKeeps_patch (hload : ∀ r i b x, c ≠ .patchLoad r i b x) : rowKeeps c .patch = true := by
  simp only [rowKeeps, hctl, hcold, Bool.or_false, Bool.not_false]

/-- Of the rows that leave the controller running, TEST.LOADPACK alone is not known to leave the test packs. -/
theorem rowKeeps_packs (hload : ∀ r i b x, c ≠ .testLoadpack r i b x) : rowKeeps c .packs = true := by
  simp only [rowKeeps, hctl, hcold, Bool.or_false, Bool.not_false]

end

/-- Settles O16: every row keeps both but for the loads, the resets and the rows that restart the controller, and of these the ones by which
WRST_N takes effect leave them where the slice is not fenced. -/
theorem patchAndPacksHold : Obligations.PatchAndPacksHold := by
  intro c s t hrow h
  simp only [Bool.or_eq_false_iff] at hrow
  obtain ⟨⟨hrestart, hcold⟩, hctl⟩ := hrow
  by_cases hc : controllerRow c = true
  · have hfence : s.hd.fenced = false := by simpa [hc] using hctl
    have hkeep := exec_controllerRow_keeps hc hrestart hfence h
    exact ⟨fun _ => hkeep.patch rfl, fun _ => hkeep.packs rfl⟩
  · have hc : controllerRow c = false := Bool.eq_false_iff.mpr hc
    have hkeep := exec_keeps c s t h
    exact ⟨fun hload => hkeep.patch (rowKeeps_patch hc hcold hload), fun hload => hkeep.packs (rowKeeps_packs hc hcold hload)⟩

end Sys2Proof.Machine
end

section
/-! What records, kept frames, ledger entries and requests for retirement leave as it was (O31, O32). -/

namespace Sys2Proof.Machine

open Sys2Proof

/-! ## The repair map while its copies are not due (R482) -/

/-- What the writing of the repair map changes: its generation, its copies, whether it waits, and the time of the last write. -/
def mapState (s : State) : Nat × (RepairMap × RepairMap) × Bool × Nat := (s.hl.mapGen, s.hl.maps, s.hl.mapWait, s.hl.mapAt)

/-- The repair map waits to be written and its region may be (R482). -/
def mapDue (s : State) : Bool := s.hl.mapWait && (s.hl.mapAt == 0 || decide (s.hl.mapAt - 1 + 10000000 ≤ tsNs s))

theorem mapPump_not_due {s : State} (h : mapDue s = false) : mapPump s = s := if_neg (ne_true_of_eq_false h)

theorem mapState_ledWrite (s : State) (e : LedEnt) : mapState (ledWrite s e) = mapState s := by
  unfold ledWrite
  dsimp only
  split <;> rfl

/-- An entry in the ledger leaves a repair map that is not due. -/
theorem mapState_ledAdd {s : State} (h : mapDue s = false) (kind subject history : Nat) :
    mapState (ledAdd s kind subject history) = mapState s := by
  have hpump : mapState (ledPump s) = mapState s := by
    rw [ledPump, mapPump_not_due h]
    split
    · exact mapState_ledWrite _ _
    · rfl
  unfold ledAdd
  dsimp only
  generalize ledPump s = u at hpump
  rw [← hpump]
  split
  · rfl
  split
  · by_cases ha : ledAgeing kind = true <;> simp only [ha] <;> rfl
  split
  · exact mapState_ledWrite _ _
  · rfl

/-! ## Reports -/

/-- A state without what reports and requests for retirement change. -/
def unreported (s : State) : State :=
  { s with
    free := 0, out := [], credits := [], txq := [], qs := {}, csr := [], hd := {}, coh := { s.coh with tag := 0 }
    rg := { s.rg with hstWrs := [], irqs := [], evs := [] }
    hl := { s.hl with
      ageRing := [], ageN := 0, ageAt := 0, histRing := [], histN := 0, histAt := 0, ledWait := [], mapGen := 0, maps := ({}, {})
      mapWait := false, mapAt := 0, proposed := 0, rState := 0, rReason := 0, retires := 0 } }

/-- `t` is `s` after reports and requests for retirement: no drain of one has started, and a repair map that was not due is as it was. -/
structure Reported (s t : State) : Prop where
  rest : unreported t = unreported s
  drain : s.hl.rState ≠ 2 → t.hl.rState ≠ 2
  map : mapDue s = false → mapState t = mapState s

theorem Reported.refl (s : State) : Reported s s := ⟨rfl, id, fun _ => rfl⟩

/-- What is read of the rest of a state is the same in both. -/
theorem same_of_unreported {s t : State} (h : unreported t = unreported s) {α : Type} (f : State → α) :
    f (unreported t) = f (unreported s) := congrArg f h

/-- Whether the repair map is due is read from its state and the timestamp. -/
theorem mapDue_congr {s t : State} (hrest : unreported t = unreported s) (hmap : mapState t = mapState s) : mapDue t = mapDue s := by
  have htime : t.tm = s.tm := same_of_unreported hrest State.tm
  simp only [mapState, Prod.mk.injEq] at hmap
  obtain ⟨-, -, hwait, hat⟩ := hmap
  unfold mapDue tsNs
  rw [htime, hwait, hat]

section
variable {s t u : State}

theorem Reported.trans (h : Reported s t) (k : Reported t u) : Reported s u where
  rest := k.rest.trans h.rest
  drain := k.drain ∘ h.drain
  map hd := (k.map ((mapDue_congr h.rest (h.map hd)).trans hd)).trans (h.map hd)

theorem Reported.ite {a b : State} {c : Prop} [Decidable c] (h : Reported s a) (k : Reported s b) : Reported s (if c then a else b) := by
  split
  · exact h
  · exact k

theorem Sent.reported (h : Sent s t) : Reported s t := by
  obtain ⟨_, _, _, _, _, _, _, _, _, rfl⟩ := h
  exact ⟨rfl, id, fun _ => rfl⟩

theorem Sent.hl (h : Sent s t) : t.hl = s.hl := by
  obtain ⟨_, _, _, _, _, _, _, _, _, rfl⟩ := h
  rfl

theorem Sent.ari (h : Sent s t) : t.ari = s.ari := by
  obtain ⟨_, _, _, _, _, _, _, _, _, rfl⟩ := h
  rfl

theorem Sent.sf (h : Sent s t) : t.coh.sf = s.coh.sf := by
  obtain ⟨_, _, _, _, _, _, _, _, _, rfl⟩ := h
  rfl

theorem Reported.postEvent (h : Reported s t) (cat status ring w1 w2 : Nat) : Reported s (postEvent t cat status ring w1 w2) :=
  h.trans (postEvent_sent t cat status ring w1 w2).reported

theorem Reported.postEventFree (h : Reported s t) (cat status : Nat) : Reported s (postEventFree t cat status) :=
  have hdraw : Reported s { t with free := t.free + 1 + 1 } := h.trans ⟨rfl, id, fun _ => rfl⟩
  hdraw.postEvent cat status 0 _ _

theorem Reported.hdrKeep (h : Reported s t) (type : Nat) (payload : List Nat) : Reported s (hdrKeep t type payload) := by
  obtain ⟨_, _, _, hk, -⟩ := hdrKeep_eq t type payload
  rw [hk]
  exact h.trans ⟨rfl, id, fun _ => rfl⟩

theorem Reported.csrPut (h : Reported s t) (off v : Nat) : Reported s (csrPut t off v) := h.trans ⟨rfl, id, fun _ => rfl⟩

theorem Reported.ledAdd (h : Reported s t) (kind subject history : Nat) : Reported s (ledAdd t kind subject history) := by
  refine h.trans ⟨?_, ?_, fun hd => mapState_ledAdd hd kind subject history⟩
  all_goals
    obtain ⟨_, _, _, _, _, _, _, _, _, _, _, hl⟩ := ledAdd_entered t kind subject history
    rw [hl]
  · rfl
  · exact id

/-- A request raised is recorded where none stands, and starts no drain (R503). -/
theorem Reported.raiseRetire (h : Reported s t) (reason subject : Nat) : Reported s (raiseRetire t reason subject) := by
  have hledger := h.ledAdd 8 subject 0
  unfold Machine.raiseRetire
  dsimp only
  generalize Machine.ledAdd t 8 subject 0 = u at hledger
  have hraised : Reported u { u with hl := { u.hl with rState := 1, rReason := reason, retires := u.hl.retires + 1 } } :=
    ⟨rfl, fun _ => show 1 ≠ 2 by decide, fun _ => rfl⟩
  exact .ite hledger ((hledger.trans hraised).postEvent _ _ _ _ _)

/-- A proposal is told to the master and entered in the ledger (R501). -/
theorem Reported.propose (h : Reported s t) : Reported s (propose t) := by
  have hproposed : Reported t { t with hl := { t.hl with proposed := tsNs t + 1 } } := ⟨rfl, id, fun _ => rfl⟩
  unfold Machine.propose
  dsimp only
  exact .ite ((((h.trans hproposed).hdrKeep _ _).postEventFree _ _).ledAdd _ _ _) h

/-! ## What follows of a report -/

theorem Reported.same (h : Reported s t) {α : Type} (f : State → α) : f (unreported t) = f (unreported s) := same_of_unreported h.rest f

theorem Reported.arr (h : Reported s t) : t.arr = s.arr := h.same State.arr
theorem Reported.pl (h : Reported s t) : t.pl = s.pl := h.same State.pl
theorem Reported.pw (h : Reported s t) : t.pw = s.pw := h.same State.pw

/-- A slice with nothing to go on with has none either after a report. -/
theorem Settled.reported (h : Settled s) (k : Reported s t) : Settled t := by
  have hgen : t.gen = s.gen := k.same State.gen
  have hpr : t.pr = s.pr := k.same State.pr
  have hcmds : t.rg.cmds = s.rg.cmds := k.same (·.rg.cmds)
  have hfailing : t.coh.failing = s.coh.failing := k.same (·.coh.failing)
  have hflips : t.coh.flips = s.coh.flips := k.same (·.coh.flips)
  exact ⟨k.arr ▸ h.evicts, k.arr ▸ h.waiting, k.arr ▸ h.presented, k.arr ▸ h.fences, k.arr ▸ h.sums, k.pl ▸ h.stageOuts,
    hfailing ▸ h.failing, hflips ▸ h.flips, hgen ▸ h.bufs, hgen ▸ h.drains, hpr ▸ h.rollLogs, hcmds ▸ h.cmds, k.drain h.retire⟩

end

/-- A request raised where none stands is recorded with its reason, and counted (R503). -/
theorem raiseRetire_raises {s : State} (h : s.hl.rState = 0) (reason subject : Nat) :
    (raiseRetire s reason subject).hl.rState = 1 ∧ (raiseRetire s reason subject).hl.rReason = reason ∧
      (raiseRetire s reason subject).hl.retires = s.hl.retires + 1 ∧ (raiseRetire s reason subject).arr = s.arr ∧
      (raiseRetire s reason subject).pl = s.pl := by
  have hkeep := (Reported.refl s).raiseRetire reason subject
  obtain ⟨t, -, ht⟩ := raiseRetire_new h reason subject
  have hhl := (postEvent_sent { t with hl := { t.hl with rState := 1, rReason := reason, retires := s.hl.retires + 1 } }
    5 St.retireRequest 0 reason 0).hl
  rw [← ht] at hhl
  rw [hhl]
  exact ⟨rfl, rfl, rfl, hkeep.arr, hkeep.pl⟩

end Sys2Proof.Machine
end

section
/-! Requests for retirement, the start of its drain, and the stress point (O31). -/

namespace Sys2Proof.Machine

open Sys2Proof

/-- The drain of a retirement begun (R504, R505). -/
def drainBegun (s : State) : State := { s with hl := { s.hl with rState := 2, rStep := 1, written := 0, lost := [] } }

theorem drainStart_begins {s : State} (h : s.hl.rState < 2) : drainStart s = drainBegun s := if_neg (Nat.not_le.mpr h)

/-- A frame that went on before it was taken changes what has been driven alone. -/
theorem frameOn_hl (s : State) (f : Frame) : (frameOn s f).hl = s.hl := by
  obtain ⟨_, h⟩ := frameOn_eq s f
  rw [h]

theorem cmdGet_frameOn (s : State) (f : Frame) (n : Nat) : cmdGet (frameOn s f) n = cmdGet s n := by
  obtain ⟨_, h⟩ := frameOn_eq s f
  rw [h]
  rfl

/-- SLICE.RETIRE where no request stands raises one of reason 7 and waits for the drain (R441, R503). -/
theorem sliceRetire_drains {s : State} (h : s.hl.rState = 0) (c : Cmd) : ∃ u, sliceRetire s c = drainBegun u ∧ u.hl.rReason = 7 ∧
    u.hl.rCmds = s.hl.rCmds ++ [c.n] ∧ u.arr = s.arr ∧ u.pl = s.pl := by
  have hraise := raiseRetire_raises h 7 ((at_ (leAt c.desc 20 4) 4 + 7) % 2 ^ 32)
  have hkeep := (Reported.refl s).raiseRetire 7 ((at_ (leAt c.desc 20 4) 4 + 7) % 2 ^ 32)
  unfold sliceRetire
  dsimp only
  rw [if_neg (by omega)]
  generalize raiseRetire s 7 ((at_ (leAt c.desc 20 4) 4 + 7) % 2 ^ 32) = v at hraise hkeep
  obtain ⟨hstate, hreason, -, harr, hpl⟩ := hraise
  have hcmds : v.hl.rCmds = s.hl.rCmds := hkeep.same (·.hl.rCmds)
  exact ⟨_, drainStart_begins (by dsimp only; omega), hreason, congrArg (· ++ [c.n]) hcmds, harr, hpl⟩

/-! ## STRESS_SET (R496) -/

section
variable {s : State} {f : Frame}

/-- A STRESS_SET taken acts where a TEST.RUN has asked for the point. -/
theorem exec_stressSet (h : TakesFrame s f) (ht : f.type = 0x23) :
    exec (.stressSet f) s = .next (if s.hl.stress = 0 then frameOn s f else stressSet (frameOn s f) f) := by
  have hgate := hdrGate_taken h (by rw [ht]; rfl) fun s => if s.hl.stress = 0 then s else stressSet s f
  rw [frameOn_hl] at hgate
  exact congrArg Host.Outcome.next hgate

variable {c : Cmd} (hc : cmdGet s s.hl.stressCmd = some c)
include hc

/-- At the point the tests run, and a STRESS_DONE is kept. -/
theorem stressSet_reached (hs : s.hl.stress = 1) (ha : (f.payload.getD 1 0).testBit 8 = true) :
    (stressSet s f).hl.stress = 2 ∧ ∃ e ∈ (stressSet s f).hd.unacked, e.1.type = 0x24 := by
  unfold stressSet
  dsimp only
  rw [hc]
  dsimp only
  rw [if_pos ⟨hs, ha⟩]
  generalize hp : b2n _ = p
  obtain ⟨_, _, _, hk, hmem, -⟩ := hdrKeep_eq _ 0x24 [p]
  rw [hk]
  exact ⟨rfl, hmem⟩

/-- At its end the command ends with what failed, and plan lock is to be aligned again (R33, R497). -/
theorem stressSet_ended (hs : s.hl.stress = 2) (ha : (f.payload.getD 1 0).testBit 8 = false) : stressSet s f =
    cmdEnd { s with pw := { s.pw with planLock := false }, hl := { s.hl with stress := 0, stressCmd := 0 } } c.n
      (if s.hl.stressBad = 0 ∧ s.hl.stressPack = 0 then St.ok else St.testFail) s.hl.stressBad (s.hl.stressPack - 1) := by
  unfold stressSet
  dsimp only
  rw [hc]
  dsimp only
  rw [if_neg (by simp [hs]), if_pos ⟨hs, by rw [ha]; rfl⟩, testEnd]
  by_cases hp : s.hl.stressPack = 0 <;> simp [hp]

end

/-- Settles O31: a request raised starts no drain by itself, and each row that starts one finds none started; the stress rows go by the
phase the point has reached. -/
theorem retirementRows : Obligations.RetirementRows := by
  refine ⟨?go, ?raise, ?retire, ?expiry, ?held, ?timeout, ?idle, ?stress⟩
  case go =>
    intro f s h ht
    have hgate := hdrGate_taken h (by rw [ht]; rfl) retireGo
    rw [retireGo, frameOn_hl] at hgate
    exact congrArg Host.Outcome.next hgate
  case raise => exact fun s h => ⟨_, rfl, raiseRetire_raises h 8 8⟩
  case retire =>
    intro ring idx c s hs h
    obtain ⟨u, hu, hreason, hcmds, harr, hpl⟩ := sliceRetire_drains (s := begun s c) h { c with started := true }
    exact ⟨_, next_startCmd hs hu, rfl, rfl, hreason, hcmds, harr, hpl⟩
  case expiry =>
    intro s h hr
    have hrow : exec .retireHoldExpiry s = .next (advance (drainStart s)) := congrArg Host.Outcome.next (if_pos ⟨h, hr⟩)
    rw [hrow, drainStart_begins (by omega), drainBegun]
  case held => exact fun s h => congrArg Host.Outcome.next (if_neg fun ⟨hstate, hhold⟩ => h.elim (· hstate) hhold)
  case timeout => exact fun s h => congrArg Host.Outcome.next (if_pos h)
  case idle => exact fun s h => congrArg Host.Outcome.next (if_neg h)
  case stress =>
    intro f s c h ht hc
    have hcmd : cmdGet (frameOn s f) (frameOn s f).hl.stressCmd = some c := by rw [frameOn_hl, cmdGet_frameOn, hc]
    refine ⟨fun hs => ?_, fun hs ha => ?_, fun hs ha => ?_⟩
    · rw [exec_stressSet h ht, if_pos hs]
    · rw [exec_stressSet h ht, if_neg (by omega)]
      exact ⟨_, rfl, stressSet_reached hcmd (by rw [frameOn_hl, hs]) ha⟩
    · rw [exec_stressSet h ht, if_neg (by omega), stressSet_ended hcmd (by rw [frameOn_hl, hs]) ha]
      obtain ⟨_, ho⟩ := frameOn_eq s f
      rw [ho]

end Sys2Proof.Machine
end

section
/-! A visit of the harrow that finds nothing wrong (O32). -/

namespace Sys2Proof.Machine

open Sys2Proof

/-- A slice that serves is not fenced, and FLOW_STOP_N is high. -/
theorem unfenced_of_serving {s : State} (h : serving s = true) : s.hd.fenced = false ∧ s.pw.flowStop = false := by
  simp only [serving, Bool.and_eq_true, Bool.not_eq_true'] at h
  obtain ⟨⟨-, hfence⟩, hflow⟩ := h
  exact ⟨hfence, hflow⟩

/-- A line whose tag, bytes and line_crc agree passes the check of a full line (R124, R443, R446). -/
theorem checkLine_of_sound {s : State} {k : Nat} (hpar : (lineAt s k).badPar = 0) (hfield : (lineAt s k).crcBad = false)
    (hcrc : lineCrc (lineAt s k).data = (lineAt s k).crc) (m : LineMask) (d : Nat) : checkLine s k m true d = (s, true) := by
  have hkeep : crcFieldCheck s k d = s := if_neg (by simp [hfield])
  have hsectors : sectorsOf (0 &&& m) = 0 := sectorsOf_of_toNat_eq_zero (by
    simp only [BitVec.toNat_and, BitVec.ofNat_eq_ofNat, BitVec.toNat_zero, Nat.zero_and])
  have hfault : lineFault s (lineAt s k) m true = 0 := by
    unfold lineFault
    rw [hpar, hsectors]
    simp [hcrc]
  simp [checkLine, hkeep, hfault]

section
variable {s : State} {k : Nat} {bad : LineMask} {stuck : Bool}

/-- A way slot that holds neither a line nor a mirror line has nothing to check (R456). -/
theorem harrowLine_empty (hl : lineAt s k = {}) (hm : SMap.get {} s.pr.mirrors k = {}) : harrowLine s k bad stuck = (s, false) := by
  unfold harrowLine
  dsimp only
  rw [hl, hm, if_pos ⟨rfl, rfl⟩, if_neg (fun h => h.1 rfl)]

/-- The access of a visit, charged to the line's last (R513, R536). -/
def visited (s : State) (k : Nat) : State :=
  activity (lineUse s (lineAt s k).addr 4) (aQos (lastAt s (lineAt s k).last).attr) (aCtx (lastAt s (lineAt s k).last).attr) 1 1

theorem visited_pw (s : State) (k : Nat) : (visited s k).pw = s.pw := rfl
theorem visited_sf (s : State) (k : Nat) : (visited s k).coh.sf = s.coh.sf := rfl
theorem visited_ari (s : State) (k : Nat) : (visited s k).ari = s.ari := rfl

theorem Settled.visited (h : Settled s) (k : Nat) : Settled (visited s k) := by
  obtain ⟨_, hq⟩ : ∃ q, Machine.visited s k = { s with qs := q } := ⟨_, rfl⟩
  rw [hq]
  exact { h with }

/-- A visit to a sound line of the slice charges its access, and changes nothing else (R456). -/
theorem harrowLine_sound (hst : (lineAt s k).st ≠ .invalid) (hfill : (lineAt s k).filling = false)
    (hopen : openOf s (lineAt s k).addr = none) (hpar : (lineAt s k).badPar = 0) (hfield : (lineAt s k).crcBad = false)
    (hcrc : lineCrc (lineAt s k).data = (lineAt s k).crc) : harrowLine s k 0 false = (visited s k, false) := by
  have hat : lineAt (visited s k) k = lineAt s k := rfl
  have hcheck : checkLine (visited s k) k (BitVec.allOnes 512) true 2 = (visited s k, true) :=
    checkLine_of_sound (by rw [hat, hpar]) (by rw [hat, hfield]) (by rw [hat, hcrc]) _ 2
  unfold harrowLine
  dsimp only
  rw [if_neg (fun h => hst h.1), if_neg (by simp [hfill, hopen]), if_pos rfl, ← visited, hcheck]
  rfl

/-- Where no snoop filter entry and no sheaf is bad a visit has none to remove (R456, steps 3 and 4). -/
theorem harrowOther_good (hsf : (s.coh.sf.all fun e => !e.2.bad) = true) (hsheaf : (s.ari.sheaves.all fun e => !e.2.bad) = true) (v n : Nat) :
    harrowOther s v n = (s, false) := by
  have hentries (a b : Nat) : (s.coh.sf.filter fun e => decide (a ≤ e.1 ∧ e.1 < b) && e.2.st != 0 && e.2.bad) = [] :=
    List.filter_eq_nil_iff.mpr fun e he => by simp [(Bool.not_eq_true' _).mp (List.all_eq_true.mp hsf e he)]
  have hsheaves (a b : Nat) : (s.ari.sheaves.filter fun e => decide (a ≤ e.1 ∧ e.1 < b) && e.2.bad) = [] :=
    List.filter_eq_nil_iff.mpr fun e he => by simp [(Bool.not_eq_true' _).mp (List.all_eq_true.mp hsheaf e he)]
  unfold harrowOther
  dsimp only
  simp only [hentries, sfCheckKeys, List.map_nil, List.foldl_nil, hsheaves, List.isEmpty_nil, Bool.not_true, Bool.or_false]

/-- The harrow counted at a slot, late where its bank is reserved (R457). -/
def visitCounted (s : State) (k : Nat) : State :=
  ev (if s.pl.resv.any fun r => decide (r.1 = slotBank k ∧ r.2.1 ≤ s.now ∧ s.now < r.2.2) then ev s Ev.harrowLate else s) Ev.harrowVisit

theorem visitCounted_sent (s : State) (k : Nat) : Sent s (visitCounted s k) := by
  unfold visitCounted
  split
  · exact (ev_sent s _).trans (ev_sent _ _)
  · exact ev_sent s _

theorem lineAt_visitCounted (s : State) (k : Nat) : lineAt (visitCounted s k) k = lineAt s k := by
  obtain ⟨_, _, _, _, _, _, _, _, _, h⟩ := visitCounted_sent s k
  rw [h]
  rfl

/-- Where no check fails within a pass, the harrow of a slice with nothing else to go on with goes on to the next slot (R455, R456). -/
theorem harrowVisit_next {u : State} (hs : serving s = true) (hset : Settled u) (hpw : u.pw = s.pw) (hk : k = harrowSlot s 16 0 s.hl.pos)
    (htag : (lineAt s k).tagBad = 0) (hfield : (lineAt s k).crcBad = false)
    (hline : harrowLine (visitCounted s k) k bad stuck = (u, false)) (hother : harrowOther u s.hl.pos (harrowN s) = (u, false))
    (hn : s.hl.pos + 1 < harrowN s) : harrowVisit s bad stuck [] = { u with hl := { u.hl with pos := s.hl.pos + 1 } } := by
  obtain ⟨hfence, hflow⟩ := unfenced_of_serving hs
  have hend : advance { u with hl := { u.hl with pos := s.hl.pos + 1 } } = { u with hl := { u.hl with pos := s.hl.pos + 1 } } :=
    advance_settled_high { hset with } (by rw [← hpw] at hflow; exact hflow)
  have hcheck : tagCheck (visitCounted s k) k 2 = visitCounted s k := if_pos (by rw [lineAt_visitCounted]; exact htag)
  unfold harrowVisit
  rw [List.foldl_nil]
  dsimp only
  rw [if_neg (by simp [hfence]), ← hk, ← visitCounted, hcheck, hline]
  dsimp only
  rw [hother]
  dsimp only
  rw [lineAt_visitCounted, htag, hfield, if_pos hn]
  simp only [bne_self_eq_false, Bool.and_false, Bool.or_false, Bool.false_eq_true, if_false, hend]

section
variable (hs : serving s = true) (hset : Settled s) (hk : k = harrowSlot s 16 0 s.hl.pos)
  (hsf : (s.coh.sf.all fun e => !e.2.bad) = true) (hsheaf : (s.ari.sheaves.all fun e => !e.2.bad) = true) (hn : s.hl.pos + 1 < harrowN s)
include hs hset hk hsf hsheaf hn

/-- A visit to an empty slot, in time, counts and goes on to the next (R456). -/
theorem harrowVisit_empty (hresv : s.pl.resv = []) (hl : lineAt s k = {}) (hm : SMap.get {} s.pr.mirrors k = {}) :
    harrowVisit s bad stuck [] = { ev s Ev.harrowVisit with hl := { s.hl with pos := s.hl.pos + 1 } } := by
  have hcount : visitCounted s k = ev s Ev.harrowVisit := by simp [visitCounted, hresv]
  have hvisit := visitCounted_sent s k
  have hline : harrowLine (visitCounted s k) k bad stuck = (visitCounted s k, false) :=
    harrowLine_empty ((lineAt_visitCounted s k).trans hl) (by rw [hvisit.pr]; exact hm)
  have hnext := harrowVisit_next hs (hset.sent hvisit) hvisit.reported.pw hk (by rw [hl]) (by rw [hl]) hline
    (harrowOther_good (by rw [hvisit.sf]; exact hsf) (by rw [hvisit.ari]; exact hsheaf) _ _) hn
  rwa [hvisit.hl, hcount] at hnext

/-- A visit to a sound line counts, charges its access, and goes on to the next slot (R456). -/
theorem harrowVisit_sound (hst : (lineAt s k).st ≠ .invalid) (hfill : (lineAt s k).filling = false)
    (hopen : openOf s (lineAt s k).addr = none) (htag : (lineAt s k).tagBad = 0) (hpar : (lineAt s k).badPar = 0)
    (hfield : (lineAt s k).crcBad = false) (hcrc : lineCrc (lineAt s k).data = (lineAt s k).crc) :
    harrowVisit s 0 false [] =
      { visited (visitCounted s k) k with hl := { (visited (visitCounted s k) k).hl with pos := s.hl.pos + 1 } } := by
  have hvisit := visitCounted_sent s k
  have hline : harrowLine (visitCounted s k) k 0 false = (visited (visitCounted s k) k, false) := by
    rw [← lineAt_visitCounted s k] at hst hfill hopen hpar hfield hcrc
    exact harrowLine_sound hst hfill (by rw [openOf, hvisit.reported.arr]; exact hopen) hpar hfield hcrc
  have hother : harrowOther (visited (visitCounted s k) k) s.hl.pos (harrowN s) = (visited (visitCounted s k) k, false) :=
    harrowOther_good (by rw [visited_sf, hvisit.sf, hsf]) (by rw [visited_ari, hvisit.ari, hsheaf]) _ _
  exact harrowVisit_next hs ((hset.sent hvisit).visited k) ((visited_pw _ k).trans hvisit.reported.pw) hk htag hfield hline hother hn

end

/-- The row of a visit, of a serving slice whose harrow is on and whose arrays run (R456). -/
theorem exec_harrowVisit (hs : serving s = true) (hon : csrBit s 0xC00 63 = true) (harr : s.pw.arrStopped = false) (bad : LineMask)
    (stuck : Bool) : exec (.harrowVisit bad stuck) s = .next (harrowVisit s bad stuck []) :=
  congrArg Host.Outcome.next (if_pos ⟨hs, hon, by simp [harr]⟩)

end

end Sys2Proof.Machine
end

section
/-! Kernels and ageing samples (O32). -/

namespace Sys2Proof.Machine

open Sys2Proof

/-! ## TEST.RUN of kernels alone (R441) -/

/-- Kernels that a TEST.RUN names. -/
def KernelsNamed (c : Cmd) (bad : Nat) : Prop := ∀ k, bad.testBit k = true → k < 48 ∧ (testMask c).testBit k = true

theorem KernelsNamed.insert {c : Cmd} {bad k : Nat} (h : KernelsNamed c bad) (hk : k < 48) (hm : (testMask c).testBit k = true) :
    KernelsNamed c (bad ||| 2 ^ k) := by
  intro j hj
  rw [Nat.testBit_or, Bool.or_eq_true, Nat.testBit_two_pow] at hj
  rcases hj with hj | hj
  · exact h j hj
  · obtain rfl : k = j := of_decide_eq_true hj
    exact ⟨hk, hm⟩

/-- Runs of kernels alone fail no pack, and only kernels that are named. -/
theorem testRuns_kernels {c : Cmd} (hpack : (leAt c.desc 24 1).testBit 7 = false) (s : State) (stress : Bool) :
    ∃ t bad, testRuns s c stress = (t, bad, none) ∧ KernelsNamed c bad := by
  suffices h : (testRuns s c stress).2.2 = none ∧ KernelsNamed c (testRuns s c stress).2.1 from
    ⟨_, _, Prod.ext rfl (Prod.ext rfl h.1), h.2⟩
  unfold testRuns
  dsimp only
  refine List.foldlRecOn _ _ (motive := fun x : State × Nat × Option Nat => x.2.2 = none ∧ KernelsNamed c x.2.1)
    ⟨rfl, fun k hk => by simp at hk⟩ fun x hx _ _ => ?_
  simp only [hpack, Bool.false_eq_true, if_false]
  refine ⟨hx.1, List.foldlRecOn _ _ (motive := fun y : State × Nat => KernelsNamed c y.2) hx.2 fun y hy k hk => ?_⟩
  obtain ⟨hrange, hmask⟩ := List.mem_filter.mp hk
  split
  · exact hy.insert (List.mem_range.mp hrange) hmask
  · exact hy

/-- TEST.RUN of kernels alone runs them at once and ends with those that failed (R441). -/
theorem testRun_kernels {s : State} {c : Cmd} (hstress : (leAt c.desc 25 1).testBit 0 = false) (hpack : (leAt c.desc 24 1).testBit 7 = false) :
    ∃ t bad, testRun s c = cmdEnd t c.n (if bad = 0 then St.ok else St.testFail) bad 0 ∧ KernelsNamed c bad := by
  obtain ⟨t, bad, hruns, hbad⟩ := testRuns_kernels hpack s false
  refine ⟨t, bad, ?_, hbad⟩
  unfold testRun
  dsimp only
  rw [if_neg (by simp [hpack]), if_neg (by simp [hstress]), hruns]
  simp [testEnd]

/-! ## A kernel's run (R490 to R492) -/

/-- An event is counted alike whatever the figures of the slice's health. -/
theorem ev_hl (s : State) (h : Health) (n : Nat) : ev { s with hl := h } n = { ev s n with hl := h } := by
  unfold ev evN
  have hbit (off i : Nat) : csrBit { s with hl := h } off i = csrBit s off i := rfl
  simp only [hbit, if_neg Nat.one_ne_zero]
  generalize evCtrAdd _ _ _ _ _ = x
  obtain ⟨c, wrapped⟩ := x
  cases wrapped <;> rfl

section
variable {s : State} {k sig : Nat} (hruns : kernelRuns s k = true) (hrerun : s.hl.rerun = 0)
include hruns hrerun

/-- A kernel with its expected signature counts, and the turn goes on from its own (R490). -/
theorem kernelRunDone_good (hsig : sig = Config.kernelSig k) (hk : k ≠ 47) : kernelRunDone s k sig =
    { ev s Ev.kernelRun with hl := { s.hl with
      kernelAc := SMap.put 0 s.hl.kernelAc k 0, kernelAt := if k = s.hl.kernelAt then (k + 1) % 48 else s.hl.kernelAt } } := by
  unfold kernelRunDone
  dsimp only
  rw [if_neg (by simp [hruns]), ev_hl, if_neg (by simp [hrerun]), if_neg (by simp [hsig]), kernelNext]
  by_cases hat : k = s.hl.kernelAt
  · rw [if_pos hat, if_neg hk, if_pos hat]
  · rw [if_neg hat, if_neg hat]

/-- A kernel with another signature is to be rerun twice (R492). -/
theorem kernelRunDone_bad (hsig : sig ≠ Config.kernelSig k) : kernelRunDone s k sig =
    { ev s Ev.kernelRun with hl := { s.hl with kernelAc := SMap.put 0 s.hl.kernelAc k 0, kernel := k, rerun := 2, rerunBad := 0 } } := by
  unfold kernelRunDone
  dsimp only
  rw [if_neg (by simp [hruns]), ev_hl, if_neg (by simp [hrerun]), if_pos (by simp [hsig])]

end

/-! ## An ageing sample (R498 to R501) -/

/-- The figures of an ageing sample and the voltages it proposes (R498, R499). -/
def sampled (s : State) (pairs : List (Nat × Nat)) (canary : List Nat) : State :=
  { s with hl := { s.hl with
    dCore := min (((pairs.take 8).map ageOf).foldl max 0) 255, dArr := min (((pairs.drop 8).map ageOf).foldl max 0) 255
    margin := canary.foldl min 15, propCore := propCore (((pairs.take 8).map ageOf).foldl max 0)
    propArr := propArr (arrFloor s.hl.vArr (canary.foldl min 15))
    canary0 := if s.hl.canary0 = 0 then canary.foldl min 15 + 1 else s.hl.canary0 } }

/-- Beside its figures a sample leaves reports alone: in the ledger, the droop threshold, requests for retirement and a proposal. -/
theorem ageingSample_reported (s : State) (pairs : List (Nat × Nat)) (canary : List Nat) :
    Reported (sampled s pairs canary) (ageingSample s pairs canary) := by
  unfold ageingSample
  extract_lets _ _ _ _ _ figures ledger _ droop arrays core
  have hfigures : Reported (sampled s pairs canary) figures := .refl _
  have hledger : Reported (sampled s pairs canary) ledger := hfigures.ledAdd _ _ _
  have hdroop : Reported (sampled s pairs canary) droop := .ite (hledger.csrPut _ _) hledger
  have harrays : Reported (sampled s pairs canary) arrays := .ite (hdroop.raiseRetire _ _) hdroop
  have hcore : Reported (sampled s pairs canary) core := .ite (harrays.raiseRetire _ _) harrays
  exact hcore.propose

end Sys2Proof.Machine
end

section
/-! The repair map saved with a spare row or a disabled way, and the rows of the slice's health (O32). -/

namespace Sys2Proof.Machine

open Sys2Proof

/-! ## The repair map (R480, R482) -/

/-- The repair map waits to be written (R482). -/
def mapAsked (s : State) : State := { s with hl := { s.hl with mapWait := true } }

theorem mapSave_eq (s : State) : mapSave s = mapPump (mapAsked s) := rfl

theorem mapDue_mapAsked (s : State) : mapDue (mapAsked s) = true ↔ s.hl.mapAt = 0 ∨ s.hl.mapAt - 1 + 10000000 ≤ tsNs s := by
  show (true && (s.hl.mapAt == 0 || decide (s.hl.mapAt - 1 + 10000000 ≤ tsNs s))) = true ↔ _
  rw [Bool.true_and, Bool.or_eq_true, beq_iff_eq, decide_eq_true_iff]

/-- A repair map that is due is written with a generation above both copies, over the one that a start does not read (R482). -/
theorem mapPump_due {s : State} (h : mapDue s = true) :
    mapBest (mapPump s).hl.maps = { gen := (mapPump s).hl.mapGen, ways := s.hl.wayDis, spares := s.hl.spares } ∧
      (mapPump s).hl.mapGen = max s.hl.maps.1.gen s.hl.maps.2.gen + 1 ∧ (mapPump s).hl.mapWait = false := by
  have hwritten : mapPump s = _ := if_pos h
  rw [hwritten]
  refine ⟨?_, rfl, rfl⟩
  by_cases hnewer : s.hl.maps.2.gen < s.hl.maps.1.gen
  · simp only [if_pos hnewer, mapBest]
    exact if_pos (by omega)
  · simp only [if_neg hnewer, mapBest]
    exact if_neg (by omega)

/-- A repair map saved is written at once where its region may be written, into the copy that a start reads (R482). -/
theorem mapSaved_mapSave (s : State) : MapSaved s (mapSave s) := by
  obtain ⟨_, _, _, _, _, _, _, _, _, _, _, hentered⟩ := mapPump_entered (mapAsked s)
  refine ⟨fun hdue => ?_, fun hat hlater => ?_⟩
  · obtain ⟨hbest, hgen, hwait⟩ := mapPump_due ((mapDue_mapAsked s).mpr hdue)
    have hways : (mapPump (mapAsked s)).hl.wayDis = s.hl.wayDis := by rw [hentered]; rfl
    have hspares : (mapPump (mapAsked s)).hl.spares = s.hl.spares := by rw [hentered]; rfl
    rw [mapSave_eq, hways, hspares]
    exact ⟨hbest, hgen, hwait⟩
  · rw [mapSave_eq, mapPump_not_due (Bool.eq_false_iff.mpr fun h => by have := (mapDue_mapAsked s).mp h; omega)]
    exact ⟨rfl, rfl⟩

/-- A repair map just saved is not due. -/
theorem mapDue_mapSave (s : State) : mapDue (mapSave s) = false := by
  rw [mapSave_eq]
  by_cases hdue : mapDue (mapAsked s) = true
  · obtain ⟨-, -, hwait⟩ := mapPump_due hdue
    rw [mapDue, hwait, Bool.false_and]
  · have hlater := Bool.eq_false_iff.mpr hdue
    rw [mapPump_not_due hlater, hlater]

/-- The repair map saved is an entry of the ledger region alone (R480). -/
theorem mapSave_entered (s : State) : Entered s (mapSave s) :=
  .trans ⟨_, _, _, _, _, _, _, _, _, _, _, rfl⟩ (mapPump_entered _)

theorem Settled.mapSave {s : State} (h : Settled s) : Settled (mapSave s) := by
  obtain ⟨_, _, _, _, _, _, _, _, _, _, _, hs⟩ := mapSave_entered s
  rw [hs]
  exact { h with }

section
variable {s t : State} (h : Reported (mapSave s) t)
include h

/-- Reports leave a repair map as it has been saved. -/
theorem Reported.mapSaved : MapSaved s t := by
  have hways : t.hl.wayDis = (mapSave s).hl.wayDis := h.same (·.hl.wayDis)
  have hspares : t.hl.spares = (mapSave s).hl.spares := h.same (·.hl.spares)
  have hmap := h.map (mapDue_mapSave s)
  simp only [mapState, Prod.mk.injEq] at hmap
  obtain ⟨hgen, hmaps, hwait, -⟩ := hmap
  have hsaved := mapSaved_mapSave s
  unfold MapSaved at hsaved ⊢
  rwa [hways, hspares, hgen, hmaps, hwait]

/-- But for the repair map and the reports, a state saved is as it was. -/
theorem Reported.of_mapSave : unreported t = unreported s := by
  refine h.rest.trans ?_
  obtain ⟨_, _, _, _, _, _, _, _, _, _, _, hs⟩ := mapSave_entered s
  rw [hs]
  rfl

end

/-! ## A spare row in use (R484, R485) -/

/-- The cells of a row out of use: no slot of it is stuck any more. -/
def rowFreed (s : State) (l : List Nat) : State :=
  l.foldl (fun s k => if (lineAt s k).stuck then linePut s k { lineAt s k with stuck := false } else s) s

theorem rowFreed_eq (s : State) (l : List Nat) : ∃ a, rowFreed s l = { s with arr := a } := by
  induction l generalizing s with
  | nil => exact ⟨_, rfl⟩
  | cons k l ih =>
    rw [rowFreed, List.foldl_cons, ← rowFreed]
    split
    · exact ih _
    · exact ih s

/-- The spare row of a bank in use for a row whose copy has ended (R485). -/
def spareUsed (s : State) (bank way row : Nat) : State :=
  let u := rowFreed s (rowSlots bank way row)
  { u with hl := { u.hl with
    copies := u.hl.copies.erase (bank, way, row)
    spares := u.hl.spares ++ [(bank, way, row, (s.hl.spares.filter fun x => x.1 == bank).length)] } }

/-- A row copied switches to its spare, and the repair map is saved (R482, R485). -/
theorem spareDone_reported {s : State} {bank way row : Nat} (hc : (s.hl.copies.find? fun c => c.1 == bank) = some (bank, way, row))
    (hr : (rowSlots bank way row).any (repairing s) = false) : Reported (mapSave (spareUsed s bank way row)) (spareDone s bank) := by
  unfold spareDone
  rw [hc]
  dsimp only
  rw [if_neg (by simp [hr])]
  exact .ledAdd (.postEventFree (.refl _) _ _) _ _ _

/-- A row copied is in use beside those before it, and nothing else of the map changes. -/
theorem spareDone_saves {s : State} {bank way row : Nat} (hc : (s.hl.copies.find? fun c => c.1 == bank) = some (bank, way, row))
    (hr : (rowSlots bank way row).any (repairing s) = false) :
    (spareDone s bank).hl.spares = s.hl.spares ++ [(bank, way, row, (s.hl.spares.filter fun x => x.1 == bank).length)] ∧
      (spareDone s bank).hl.copies = s.hl.copies.erase (bank, way, row) ∧ (spareDone s bank).hl.wayDis = s.hl.wayDis ∧
      MapSaved s (spareDone s bank) ∧ (spareDone s bank).pl = s.pl ∧ (spareDone s bank).pw = s.pw := by
  have hrep := spareDone_reported hc hr
  obtain ⟨_, hu⟩ := rowFreed_eq s (rowSlots bank way row)
  rw [spareUsed, hu] at hrep
  generalize spareDone s bank = t at hrep
  have hrest := hrep.of_mapSave
  exact ⟨same_of_unreported hrest (·.hl.spares), same_of_unreported hrest (·.hl.copies), same_of_unreported hrest (·.hl.wayDis),
    hrep.mapSaved, same_of_unreported hrest State.pl, same_of_unreported hrest State.pw⟩

/-! ## A way disabled (R487, R488) -/

/-- A way of a bank out of use. -/
def wayClosed (s : State) (bank way : Nat) : State :=
  { s with hl := { s.hl with
    wayGoing := s.hl.wayGoing.erase (bank, way), wayDis := SMap.put 0 s.hl.wayDis bank (SMap.get 0 s.hl.wayDis bank ||| 2 ^ way) } }

/-- A way goes out of use, and the repair map is saved (R482, R487). -/
theorem wayOff_reported (s : State) (bank way : Nat) : Reported (mapSave (wayClosed s bank way)) (wayOff s bank way) := by
  unfold wayOff
  dsimp only
  have hledger (n : Nat) : Reported (mapSave (wayClosed s bank way))
      (ledAdd (postEventFree (mapSave (wayClosed s bank way)) 5 St.wayDisabled) 3 n 2) := .ledAdd (.postEventFree (.refl _) _ _) _ _ _
  have hmany := fun n => Reported.ite (c := waysDisabled (ledAdd (postEventFree (mapSave (wayClosed s bank way)) 5 St.wayDisabled) 3 n 2) ≥ 5)
    ((hledger n).raiseRetire 1 1) (hledger n)
  exact .ite (.raiseRetire (hmany _) _ _) (hmany _)

/-- A way out of use joins those disabled, and nothing else of the map changes. -/
theorem wayOff_saves (s : State) (bank way : Nat) :
    (wayOff s bank way).hl.wayDis = SMap.put 0 s.hl.wayDis bank (SMap.get 0 s.hl.wayDis bank ||| 2 ^ way) ∧
      (wayOff s bank way).hl.wayGoing = s.hl.wayGoing.erase (bank, way) ∧ (wayOff s bank way).hl.spares = s.hl.spares ∧
      MapSaved s (wayOff s bank way) ∧ (wayOff s bank way).arr = s.arr ∧ (wayOff s bank way).pl = s.pl ∧
      (wayOff s bank way).pw = s.pw := by
  have hrep := wayOff_reported s bank way
  generalize wayOff s bank way = t at hrep
  have hrest := hrep.of_mapSave
  exact ⟨same_of_unreported hrest (·.hl.wayDis), same_of_unreported hrest (·.hl.wayGoing), same_of_unreported hrest (·.hl.spares),
    hrep.mapSaved, same_of_unreported hrest State.arr, same_of_unreported hrest State.pl, same_of_unreported hrest State.pw⟩

theorem Settled.wayOff {s : State} (h : Settled s) (bank way : Nat) : Settled (wayOff s bank way) :=
  have hclosed : Settled (wayClosed s bank way) := { h with }
  hclosed.mapSave.reported (wayOff_reported s bank way)

/-- The disable of an empty way outside the pinned ones takes effect (R488). -/
theorem wayDisableDone_empty {s : State} {bank way : Nat} (hs : serving s = true) (hp : (pinnedWays s bank).contains way = false)
    (hw : waySlots s bank way = []) (hset : Settled s) : wayDisableDone s bank way = wayOff s bank way := by
  obtain ⟨-, -, -, -, -, -, hpw⟩ := wayOff_saves s bank way
  have hend : advance (wayOff s bank way) = wayOff s bank way :=
    advance_settled_high (hset.wayOff bank way) (by rw [hpw]; exact (unfenced_of_serving hs).2)
  unfold wayDisableDone
  simp only [hp, hw, Bool.false_eq_true, if_false, List.foldl_nil, List.isEmpty_nil, if_true, hend]

/-! ## The rows -/

/-- Settles O32: a visit that finds nothing wrong leaves the slice settled, and what a row of the slice's health reports leaves its figures, its
arrays and the repair map it has saved. -/
theorem healthRows : Obligations.HealthRows := by
  refine ⟨?empty, ?sound, ?tests, ?sample, ?kernel, ?spare, ?way, ?late⟩
  case empty =>
    intro bad stuck s hs hon harr hset hresv hline hmirror hsf hsheaf hn
    exact (exec_harrowVisit hs hon harr bad stuck).trans
      (congrArg Host.Outcome.next (harrowVisit_empty hs hset rfl hsf hsheaf hn hresv hline hmirror))
  case sound =>
    intro s k hs hon harr hset _ hk hst hfill hopen htag hpar hfield hcrc hsf hsheaf hn
    have hrow := harrowVisit_sound hs hset hk hsf hsheaf hn hst hfill hopen htag hpar hfield hcrc
    refine ⟨_, exec_harrowVisit hs hon harr 0 false, ?_⟩
    rw [hrow]
    have hvisit := visitCounted_sent s k
    generalize visitCounted s k = u at hvisit
    obtain ⟨_, _, _, _, _, _, _, _, _, rfl⟩ := hvisit
    exact ⟨rfl, rfl, rfl, rfl⟩
  case tests =>
    intro ring idx c s hs hstress hpack
    obtain ⟨t, bad, hrun, hbad⟩ := testRun_kernels (s := begun s c) (c := { c with started := true }) hstress hpack
    exact ⟨t, bad, next_startCmd hs hrun, hbad⟩
  case sample =>
    intro pairs canary s hs hon
    have hrep := ageingSample_reported s pairs canary
    exact ⟨_, congrArg Host.Outcome.next (if_pos ⟨hs, hon⟩), hrep.same (·.hl.dCore), hrep.same (·.hl.dArr),
      hrep.same (·.hl.margin), hrep.same (·.hl.propCore), hrep.same (·.hl.propArr), hrep.arr, hrep.pl, hrep.pw⟩
  case kernel =>
    intro k sig s hs hon
    have hrow : exec (.kernelRunDone k sig) s = .next (kernelRunDone s k sig) := congrArg Host.Outcome.next (if_pos ⟨hs, hon⟩)
    refine ⟨fun h => ?_, fun h hr => ⟨fun hsig hk => ?_, fun hsig => ?_⟩⟩
    · rw [hrow, kernelRunDone, if_pos (by simp [h])]
    · rw [hrow, kernelRunDone_good h hr hsig hk]
    · rw [hrow, kernelRunDone_bad h hr hsig]
  case spare =>
    intro bank way row s hs hc hr
    exact ⟨_, congrArg Host.Outcome.next (if_pos hs), spareDone_saves hc hr⟩
  case way =>
    intro bank way s hs hgo hp hw hset
    have hrow : exec (.wayDisableDone bank way) s = .next (wayDisableDone s bank way) :=
      congrArg Host.Outcome.next (if_pos ⟨hs, List.contains_iff_mem.mpr hgo⟩)
    obtain ⟨hdis, hrest⟩ := wayOff_saves s bank way
    rw [wayDisableDone_empty hs hp hw hset] at hrow
    exact ⟨_, hrow, by rw [hdis, SMap.get_put_self], hrest⟩
  case late =>
    intro bank way s hgo h
    exact ⟨_, congrArg Host.Outcome.next (if_pos (List.contains_iff_mem.mpr hgo)), raiseRetire_raises h 6 6⟩

end Sys2Proof.Machine
end

section
/-! What holds in every state a step can reach from one where it holds: the canonical tables, and the rows that leave a group of the state
alone (O5, O6, O12 to O14). -/

namespace Sys2Proof.Machine

open Sys2Proof

/-- A step is a cycle passed with no command waiting, or the effect of the front command on the state with the queue's rest. -/
theorem step_cases {s t : State} (h : step s = .next t) :
    (s.pending = [] ∧ t = tick s) ∨ ∃ c q, s.pending = c :: q ∧ exec c { s with pending := q } = .next t := by
  cases hq : s.pending with
  | nil => exact .inl ⟨rfl, Host.Outcome.next.inj (by rw [← h, step, hq])⟩
  | cons c q => exact .inr ⟨c, q, rfl, by rwa [step_of_pending_cons hq] at h⟩

/-- What holds of the state a row answers holds of the next state. -/
theorem of_next {P : State → Prop} {t u : State} (h : Host.Outcome.next (φ := Fault) (ρ := Refusal) u = .next t) (hu : P u) : P t :=
  Host.Outcome.next.inj h ▸ hu

/-! ## The tables (R77, R245, R594) -/

theorem TablesWf.keeps {gr : Group → Bool} {s t : State} (h : TablesWf s) (k : Keeps gr s t) : TablesWf t := by
  obtain ⟨hcsr, hlines, hlasts, hsf⟩ := h
  exact ⟨k.csr hcsr, k.lines hlines, k.lasts hlasts, k.sf hsf⟩

/-- Settles O5: every table is empty at reset. -/
theorem tablesHoldAtReset : Obligations.TablesHoldAtReset := ⟨rfl, rfl, rfl, rfl⟩

/-- Settles O6: whatever groups of the state a row changes, it keeps the canonical form of the tables, and so does a cycle. -/
theorem tablesStayCanonical : Obligations.TablesStayCanonical := by
  intro s t hwf h
  rcases step_cases h with ⟨-, rfl⟩ | ⟨c, q, -, hrow⟩
  · exact hwf.keeps (tick_keeps (gr := fun _ => false) (Keeps.refl _ s) rfl rfl)
  · have hfront : TablesWf { s with pending := q } := hwf
    exact hfront.keeps (exec_keeps c _ t hrow)

/-! ## Groups that only certain rows change -/

theorem Keeps.csrGet {gr : Group → Bool} {s t : State} (k : Keeps gr s t) (hregs : gr .regs = true) {off : Nat} (hoff : setupReg off = true) :
    csrGet t off = csrGet s off := by
  rw [Machine.csrGet, k.regs hregs off hoff, ← Machine.csrGet]

/-- The row that boots the control island is RST_N_RELEASE. -/
theorem rowKeeps_regs {c : Instr} (hregs : regRow c = false) (hrestart : restartRow c = false) (hcold : coldRow c = false)
    (hboot : bootRow c = false) : rowKeeps c .regs = true := by
  cases c
  case rstNRelease => cases hboot
  all_goals simp only [rowKeeps, hregs, hrestart, hcold, Bool.or_false, Bool.not_false]

/-- Settles O12: every row keeps the setup registers but for an access, a start of the control island, a restart and a cold reset. -/
theorem setupRegistersHold : Obligations.SetupRegistersHold := by
  intro c s t hrow h off hoff
  simp only [Bool.or_eq_false_iff] at hrow
  obtain ⟨⟨⟨hregs, hrestart⟩, hcold⟩, hboot⟩ := hrow
  exact (exec_keeps c s t h).csrGet (rowKeeps_regs hregs hrestart hcold hboot) hoff

/-- Settles O13: every row keeps the cycle count, and its own rows, a register access and a cold reset alone may change the timestamp's state. -/
theorem timeHolds : Obligations.TimeHolds := by
  intro c s t hrow h
  have htime : rowKeeps c .time = true := by simp only [rowKeeps, hrow, Bool.not_false]
  have hkeep := exec_keeps c s t h
  exact ⟨hkeep.time htime, hkeep.now rfl⟩

/-- Settles O14: a register access and a cold reset alone may change the pairing key's state. -/
theorem pairKeyHolds : Obligations.PairKeyHolds := by
  intro c s t hrow h
  have hkey : rowKeeps c .key = true := by simp only [rowKeeps, hrow, Bool.not_false]
  exact (exec_keeps c s t h).key hkey

end Sys2Proof.Machine
end

section
/-! The power state and the fence over every step (O7, O8, O10). -/

namespace Sys2Proof.Machine

open Sys2Proof

theorem rowKeeps_life {c : Instr} (h : powerRow c = false) : rowKeeps c .life = true := by simp only [rowKeeps, h, Bool.not_false]

theorem rowKeeps_pins {c : Instr} (h : powerRow c = false) : rowKeeps c .pins = true := by simp only [rowKeeps, h, Bool.not_false]

/-! ## The power invariant (R547, R548, R473) -/

/-- Settles O7: RST_N is low, so the slice is in RESET. -/
theorem powerHoldsAtReset : Obligations.PowerHoldsAtReset :=
  ⟨by decide, by decide, nofun, nofun, fun _ => rfl⟩

section
variable {s : State}

theorem powerInv_logicReset_hold (h : PowerInv s) (h4 : s.pw.pstate = 4 ∨ s.pw.pstate = 5) {u : State} (hr : u.pw.rstN = s.pw.rstN)
    (hf : u.hd.fenced = s.hd.fenced) (kind : Nat) : PowerInv (logicReset u kind) :=
  powerInv_logicReset (hr.trans (rstN_true h (by omega))) (hf.trans (notFenced h (by omega)))

theorem powerInv_reEntry (h : PowerInv s) (hp : s.pw.pstate = 4) : PowerInv (reEntry s) := by
  unfold reEntry
  dsimp only
  have hreset := powerInv_logicReset_hold h (.inl hp) (u := { s with pw := { s.pw with bakPresent := s.pw.bakPresent || s.pw.onBak } })
    rfl rfl 2
  exact powerInv_startGo (powerInv_ite (fun _ => powerInv_lost hreset) fun _ => hreset)

theorem powerInv_warmReset (h : PowerInv s) : PowerInv (warmReset s) :=
  powerInv_ite (fun _ => powerInv_mk h rfl rfl rfl rfl rfl) fun _ => powerInv_ite (powerInv_quiesceStart h) fun _ => h

theorem powerInv_flowStopEffective (h : PowerInv s) : PowerInv (flowStopEffective s) := by
  have hflow : PowerInv { s with pw := { s.pw with flowStop := true, flowAt := s.now } } := powerInv_mk h rfl rfl rfl rfl rfl
  exact powerInv_ite (fun _ => powerInv_flowEnter hflow) fun _ => hflow

theorem powerInv_flowStopRelease (h : PowerInv s) (wrstLow : Bool) : PowerInv (flowStopRelease s wrstLow) := by
  unfold flowStopRelease
  dsimp only
  have hflow : PowerInv { s with pw := { s.pw with flowStop := false, wrstHeld := s.pw.wrstHeld && wrstLow } } :=
    powerInv_mk h rfl rfl rfl rfl rfl
  refine powerInv_ite (fun _ => powerInv_startGo (powerInv_mk h rfl rfl rfl rfl rfl)) fun _ =>
    powerInv_ite (powerInv_flowExit hflow) fun _ => powerInv_ite (fun _ => powerInv_deliver ?_) fun _ => hflow
  split <;> exact powerInv_mk h rfl rfl rfl rfl rfl

theorem powerInv_retention (h : PowerInv s) (hp : s.pw.pstate = 2 ∨ s.pw.pstate = 5) :
    PowerInv { s with pw := { s.pw with quiesced := s.pw.pstate == Ps.quiesce, pstate := Ps.retention, ready := false } } := by
  have hr := rstN_true h (by omega)
  have hf := notFenced h (by omega)
  constructor <;> simp [hr, hf, Ps.retention]

theorem powerInv_clockAbsent (h : PowerInv s) (clk : Nat) : PowerInv (clockAbsent s clk) := by
  unfold clockAbsent
  dsimp only
  have hlost : PowerInv { s with pw := { s.pw with clocks := clocksWithout s.pw.clocks clk, planLock := s.pw.planLock && decide (clk < 2) } } :=
    powerInv_mk h rfl rfl rfl rfl rfl
  exact powerInv_ite (fun _ => powerInv_advance (powerInv_fence (powerInv_postError hlost))) fun _ =>
    powerInv_ite (fun _ => powerInv_postError hlost) fun _ => powerInv_linkDown (powerInv_postError hlost)

/-- BACKUP_HOLD remembers the state it came from. -/
theorem powerInv_vddCoreLoss (h : PowerInv s) : PowerInv (vddCoreLoss s) := by
  unfold vddCoreLoss
  dsimp only
  have hdown : PowerInv (if s.tt.link = 0 then s else goSolo (ttDrop { s with tt := { s.tt with link := 4, width := 0, rxWidth := 0 } })) :=
    powerInv_ite (fun _ => h) fun _ =>
      powerInv_keeps (powerInv_mk (t := { s with tt := { s.tt with link := 4, width := 0, rxWidth := 0 } }) h rfl rfl rfl rfl rfl)
        (goSolo_keeps (ttDrop_keeps (Keeps.refl _ _)))
  refine powerInv_backupHold ?_
  obtain ⟨hrange, hfenced, hprior, -, hheld⟩ := hdown
  exact ⟨hrange, hfenced, hprior, nofun, hheld⟩

theorem powerInv_vddArrDroop (h : PowerInv s) (bakHolds : Bool) : PowerInv (vddArrDroop s bakHolds) :=
  powerInv_ite (fun _ => powerInv_chargeHold (powerInv_mk h rfl rfl rfl rfl rfl)) fun _ => powerInv_mk h rfl rfl rfl rfl rfl

/-- The rows of the power family, one by one. -/
theorem powerInv_powerRow {c : Instr} (hc : powerRow c = true) (h : PowerInv s) {t : State} (hrow : exec c s = .next t) : PowerInv t := by
  cases c with
  | rstNAssert => exact of_next hrow (powerInv_ite (fun _ => powerInv_cold) fun _ => h)
  | rstNRelease =>
    refine of_next hrow (powerInv_ite (fun hb => powerInv_boot h ?_) fun _ => h)
    simp only [Bool.and_eq_true, Bool.not_eq_eq_eq_not, Bool.not_true] at hb
    exact hb.1
  | startComplete => exact of_next hrow (powerInv_ite (fun hp => powerInv_startEnd h hp.1) fun _ => h)
  | wrstNAssert =>
    exact of_next hrow (powerInv_ite (fun _ => h) fun _ => powerInv_ite (fun _ => powerInv_mk h rfl rfl rfl rfl rfl) fun _ =>
      powerInv_warmReset h)
  | quiesceDone =>
    exact of_next hrow (powerInv_ite (fun hp => powerInv_startGo (powerInv_logicReset_hold h (.inr hp.1) rfl rfl 1)) fun _ => h)
  | flowStopEffective => exact of_next hrow (powerInv_ite (fun _ => powerInv_flowStopEffective h) fun _ => h)
  | flowStopRelease wrstLow => exact of_next hrow (powerInv_ite (fun _ => powerInv_flowStopRelease h wrstLow) fun _ => h)
  | retentionEntryLimit => exact of_next hrow (powerInv_ite (fun hp => powerInv_retention h hp.2) fun _ => h)
  | clockAbsent clk => exact of_next hrow (powerInv_ite (fun _ => powerInv_clockAbsent h clk) fun _ => h)
  | clockPresent =>
    exact of_next hrow (powerInv_ite (fun _ => powerInv_startGo (powerInv_mk h rfl rfl rfl rfl rfl)) fun _ => h)
  | clkAonReturn =>
    exact of_next hrow (powerInv_ite (fun _ => h) fun _ => powerInv_ite (fun _ => powerInv_mk h rfl rfl rfl rfl rfl) fun _ =>
      powerInv_sendHeld (powerInv_mk h rfl rfl rfl rfl rfl))
  | planLockLost => exact of_next hrow (powerInv_ite (fun _ => powerInv_mk h rfl rfl rfl rfl rfl) fun _ => h)
  | lockAlignmentDone => exact of_next hrow (powerInv_ite (fun _ => powerInv_mk h rfl rfl rfl rfl rfl) fun _ => h)
  | vddArrDroop bakHolds => exact of_next hrow (powerInv_ite (fun _ => powerInv_vddArrDroop h bakHolds) fun _ => h)
  | switchToVddArr =>
    exact of_next hrow (powerInv_ite (fun _ => powerInv_chargeHold (powerInv_mk h rfl rfl rfl rfl rfl)) fun _ => h)
  | arrayAccessStop =>
    exact of_next hrow (powerInv_ite (fun _ => powerInv_backupHold (powerInv_mk h rfl rfl rfl rfl rfl)) fun _ => h)
  | arrayRailLoss =>
    exact of_next hrow (powerInv_ite (fun _ => powerInv_backupHold (powerInv_mk h rfl rfl rfl rfl rfl)) fun _ => h)
  | vddCoreLoss => exact of_next hrow (powerInv_ite (fun _ => powerInv_vddCoreLoss h) fun _ => h)
  | backupHoldReturn =>
    have hgo : PowerInv { s with pw := { s.pw with arrStopped := false } } := powerInv_mk h rfl rfl rfl rfl rfl
    exact of_next hrow (powerInv_ite (fun hp => powerInv_holdReturn hgo hp.1) fun _ => powerInv_ite (fun _ => powerInv_deliver hgo)
      fun _ => hgo)
  | reEntry =>
    exact of_next hrow (powerInv_ite (fun hp => powerInv_ite (fun _ => powerInv_reEntry h hp) fun _ => h) fun _ =>
      powerInv_ite (fun _ => powerInv_startGo (powerInv_mk h rfl rfl rfl rfl rfl)) fun _ => h)
  | ringStopPassive =>
    exact of_next hrow (powerInv_ite (fun _ => powerInv_cold) fun _ => powerInv_mk h rfl rfl rfl rfl rfl)
  | _ => cases hc

end

/-- Settles O8: a cycle and every row outside the power family keep what the invariant speaks of, and each row of that family keeps it. -/
theorem powerInvariant : Obligations.PowerInvariant := by
  intro s t hinv h
  rcases step_cases h with ⟨-, rfl⟩ | ⟨c, q, -, hrow⟩
  · exact powerInv_keeps hinv (tick_keeps (Keeps.refl _ s) rfl rfl)
  · have hfront : PowerInv { s with pending := q } := powerInv_mk hinv rfl rfl rfl rfl rfl
    cases hc : powerRow c with
    | true => exact powerInv_powerRow hc hfront hrow
    | false => exact powerInvKeeps hfront (exec_keeps c _ t hrow) (rowKeeps_life hc) (rowKeeps_pins hc)

/-! ## The fence (R472, R554) -/

/-- A fence stays, with its reason. -/
def FenceKept (s t : State) : Prop := s.hd.fenced = true → t.hd.fenced = true ∧ t.hd.reason = s.hd.reason

section
variable {s t u : State}

theorem FenceKept.same (hfenced : t.hd.fenced = s.hd.fenced) (hreason : t.hd.reason = s.hd.reason) : FenceKept s t :=
  fun h => ⟨hfenced.trans h, hreason⟩

theorem FenceKept.refl (s : State) : FenceKept s s := .same rfl rfl

theorem FenceKept.trans (h : FenceKept s t) (k : FenceKept t u) : FenceKept s u := fun hs =>
  have ⟨ht, hreason⟩ := h hs
  ⟨(k ht).1, (k ht).2.trans hreason⟩

theorem FenceKept.ite {a b : State} {c : Prop} [Decidable c] (ha : FenceKept s a) (hb : FenceKept s b) :
    FenceKept s (if c then a else b) := by
  split
  · exact ha
  · exact hb

/-- An operation inside a row ends no fence. -/
theorem LifeStep.fenceKept (h : LifeStep s t) : FenceKept s t := h.fenced

/-- What keeps the power state and the pins keeps a fence. -/
theorem FenceKept.keeps (h : FenceKept s t) (k : Keeps lifeGroups t u) : FenceKept s u := h.trans (LifeStep.keeps k).fenceKept

/-- The straps, resets, clocks and rails hold no fence. -/
theorem FenceKept.power (h : FenceKept s t) (p : Power) : FenceKept s { t with pw := p } := h

/-- The mode of the ring stop is no fence (R50). -/
theorem FenceKept.stop (h : FenceKept s t) (p : Power) (mode : Nat) : FenceKept s { t with pw := p, hd := { t.hd with mode := mode } } := h

theorem FenceKept.advance (h : FenceKept s t) : FenceKept s (advance t) := h.keeps (advance_keeps (Keeps.refl _ _))
theorem FenceKept.deliver (h : FenceKept s t) : FenceKept s (deliver t) := h.keeps (deliver_keeps (Keeps.refl _ _))
theorem FenceKept.resumeRings (h : FenceKept s t) : FenceKept s (resumeRings t) := h.keeps (resumeRings_keeps (Keeps.refl _ _))
theorem FenceKept.linkResume (h : FenceKept s t) : FenceKept s (linkResume t) := h.keeps (linkResume_keeps (Keeps.refl _ _))
theorem FenceKept.linkDown (h : FenceKept s t) (a b : Nat) : FenceKept s (linkDown t a b) := h.keeps (linkDown_keeps (Keeps.refl _ _))
theorem FenceKept.planAbort (h : FenceKept s t) (a : Nat) : FenceKept s (planAbort t a) := h.keeps (planAbort_keeps (Keeps.refl _ _))
theorem FenceKept.wake (h : FenceKept s t) : FenceKept s (irqWake (txDrain t)) := h.keeps (irqWake_keeps (txDrain_keeps (Keeps.refl _ _)))
theorem FenceKept.postEvent (h : FenceKept s t) (a b c d e : Nat) : FenceKept s (postEvent t a b c d e) :=
  h.keeps (postEvent_keeps (Keeps.refl _ _))

theorem FenceKept.postError (h : FenceKept s t) (a : Nat) (e : Err) : FenceKept s (postError t a e) := h.keeps (postError_keeps (Keeps.refl _ _))
theorem FenceKept.fence (h : FenceKept s t) (a : Nat) : FenceKept s (fence t a) := h.keeps (fence_keeps (Keeps.refl _ _))

theorem FenceKept.sendHeld (h : FenceKept s t) : FenceKept s (sendHeld t) := h.keeps (sendHeld_keeps (Keeps.refl _ _))

theorem FenceKept.closes (h : FenceKept s t) (l : List OpenLine) : FenceKept s (l.foldl (fun s o => closeLine s o.line) t) :=
  h.trans ((LifeStep.refl t).closes l).fenceKept

theorem FenceKept.lostArrays (h : FenceKept s t) : FenceKept s (lostArrays t) := h.trans (LifeStep.refl t).lostArrays.fenceKept

theorem FenceKept.startGo (h : FenceKept s t) : FenceKept s (startGo t) := .ite (h.power _) h

theorem FenceKept.backupHold (h : FenceKept s t) : FenceKept s (backupHold t) := .ite (h.power _) h

theorem FenceKept.chargeHold (h : FenceKept s t) : FenceKept s (chargeHold t) := h.keeps (chargeHold_keeps (Keeps.refl _ _))

/-- The controller's restart leaves the fence (R556). -/
theorem FenceKept.restartController (h : FenceKept s t) : FenceKept s (restartController t) := h

theorem boot_fenceKept (s : State) (chip die sliceId : Nat) : FenceKept s (boot s chip die sliceId) := by
  unfold boot
  dsimp only
  refine .ite (.power (.refl s) _) (.startGo (.ite ?_ ?_)) <;> exact .same rfl rfl

theorem startEnd_fenceKept (s : State) : FenceKept s (startEnd s) := by
  unfold startEnd
  dsimp only
  refine .advance (.ite (.keeps ?_ (raiseAgain_keeps (Keeps.refl _ _))) ?_)
  all_goals
    refine .resumeRings (.linkResume (FenceKept.trans (t := ite _ _ _) (.ite ?_ (.keeps ?_ (reissue_keeps (Keeps.refl _ _)))) (.same rfl rfl)))
    all_goals exact .ite (.lostArrays (.power (.refl s) _)) (.power (.refl s) _)

theorem FenceKept.quiesceStart (h : FenceKept s t) : FenceKept s (quiesceStart t) := by
  unfold Machine.quiesceStart
  exact .advance (.trans (.closes (.planAbort (h.power _) 6) _) (.same rfl rfl))

theorem warmReset_fenceKept (s : State) : FenceKept s (warmReset s) :=
  .ite (.same rfl rfl) (.ite (.quiesceStart (.refl s)) (.refl s))

theorem FenceKept.flowEnter (h : FenceKept s t) : FenceKept s (flowEnter t) := by
  unfold Machine.flowEnter
  have habort := FenceKept.planAbort (.postEvent (.keeps (h.power { t.pw with ready := false, flowEntered := true })
    (cmdsRetained_keeps (Keeps.refl _ _))) 5 St.flowStop 0 1 0) 6
  exact .advance (.ite habort (habort.linkDown _ _))

theorem FenceKept.flowExit (h : FenceKept s t) : FenceKept s (flowExit t) := by
  unfold Machine.flowExit
  refine .ite (.advance (.deliver (.power (.wake (.postEvent (h.power _) _ _ _ _ _)) _))) (.ite ?_ ?_)
  · exact .advance (.deliver (.quiesceStart (.wake (.postEvent (h.power _) _ _ _ _ _))))
  · exact .advance (.resumeRings (.deliver (.linkResume (.wake (.postEvent (h.power _) _ _ _ _ _)))))

theorem flowStopRelease_fenceKept (s : State) (wrstLow : Bool) : FenceKept s (flowStopRelease s wrstLow) := by
  unfold flowStopRelease
  have hgo := FenceKept.power (.refl s) { s.pw with flowStop := false, wrstHeld := s.pw.wrstHeld && wrstLow }
  have hwrst := FenceKept.ite (c := (s.pw.wrstHeld && wrstLow) = true) hgo.restartController hgo
  exact .ite (.startGo (hgo.power _)) (.ite hgo.flowExit (.ite (.deliver (hwrst.power _)) hgo))

theorem logicReset_fenceKept (s : State) (kind : Nat) : FenceKept s (logicReset s kind) := by
  unfold logicReset
  have hkept : FenceKept s (retainedState s kind) := by
    refine .same ?_ ?_ <;> simp only [retainedState, (csrReset_pw s).2]
  exact .ite hkept (hkept.linkDown _ _)

theorem reEntry_fenceKept (s : State) : FenceKept s (reEntry s) := by
  unfold reEntry
  have hreset := FenceKept.trans (FenceKept.power (.refl s) { s.pw with bakPresent := s.pw.bakPresent || s.pw.onBak })
    (logicReset_fenceKept _ 2)
  exact .startGo (.ite hreset.lostArrays hreset)

theorem clockAbsent_fenceKept (s : State) (clk : Nat) : FenceKept s (clockAbsent s clk) := by
  unfold clockAbsent
  exact .ite (.advance (.fence (.postError (.power (.refl s) _) _ _) _))
    (.ite (.postError (.power (.refl s) _) _ _) (.linkDown (.postError (.power (.refl s) _) _ _) _ _))

theorem vddCoreLoss_fenceKept (s : State) : FenceKept s (vddCoreLoss s) := by
  unfold vddCoreLoss
  have hdown : FenceKept s (if s.tt.link = 0 then s else goSolo (ttDrop { s with tt := { s.tt with link := 4, width := 0, rxWidth := 0 } })) :=
    .ite (.refl s) (.keeps (t := { s with tt := { s.tt with link := 4, width := 0, rxWidth := 0 } }) (.same rfl rfl)
      (goSolo_keeps (ttDrop_keeps (Keeps.refl _ _))))
  exact .backupHold (hdown.trans (.same rfl rfl))

theorem FenceKept.holdReturn (h : FenceKept s t) : FenceKept s (holdReturn t) := by
  unfold Machine.holdReturn
  have hback := fun p => h.power p
  refine .ite (.ite (hback _) (.ite (.advance (hback _)) (.flowEnter (hback _)))) (.ite (.flowExit (hback _)) (.ite (.ite ?_ ?_) ?_))
  · exact .advance (.deliver (.quiesceStart (.wake (hback _))))
  · exact .advance (.deliver (.power (.wake (hback _)) _))
  · exact .advance (.ite (.resumeRings (.deliver (.wake (hback _)))) (.deliver (.wake (hback _))))

/-- The rows of the power family but the cold resets, one by one. -/
theorem powerRow_fenceKept {c : Instr} (hc : powerRow c = true) (hcold : coldRow c = false) (hrow : exec c s = .next t) : FenceKept s t := by
  cases c with
  | rstNRelease chip die sliceId => exact of_next hrow (.ite (boot_fenceKept s chip die sliceId) (.refl s))
  | startComplete => exact of_next hrow (.ite (startEnd_fenceKept s) (.refl s))
  | wrstNAssert => exact of_next hrow (.ite (.refl s) (.ite (.power (.refl s) _) (warmReset_fenceKept s)))
  | quiesceDone => exact of_next hrow (.ite (.startGo (logicReset_fenceKept s 1)) (.refl s))
  | flowStopEffective => exact of_next hrow (.ite (.ite (.flowEnter (.power (.refl s) _)) (.power (.refl s) _)) (.refl s))
  | flowStopRelease wrstLow => exact of_next hrow (.ite (flowStopRelease_fenceKept s wrstLow) (.refl s))
  | retentionEntryLimit => exact of_next hrow (.ite (.power (.refl s) _) (.refl s))
  | clockAbsent clk => exact of_next hrow (.ite (clockAbsent_fenceKept s clk) (.refl s))
  | clockPresent => exact of_next hrow (.ite (.startGo (.power (.refl s) _)) (.refl s))
  | clkAonReturn => exact of_next hrow (.ite (.refl s) (.ite (.stop (.refl s) _ _) (.sendHeld (.stop (.refl s) _ _))))
  | planLockLost => exact of_next hrow (.ite (.same rfl rfl) (.refl s))
  | lockAlignmentDone => exact of_next hrow (.ite (.same rfl rfl) (.refl s))
  | vddArrDroop => exact of_next hrow (.ite (.ite (.chargeHold (.power (.refl s) _)) (.power (.refl s) _)) (.refl s))
  | switchToVddArr => exact of_next hrow (.ite (.chargeHold (.power (.refl s) _)) (.refl s))
  | arrayAccessStop => exact of_next hrow (.ite (.backupHold (.power (.refl s) _)) (.refl s))
  | arrayRailLoss => exact of_next hrow (.ite (.backupHold (.power (.refl s) _)) (.refl s))
  | vddCoreLoss => exact of_next hrow (.ite (vddCoreLoss_fenceKept s) (.refl s))
  | backupHoldReturn =>
    have hgo := FenceKept.power (.refl s) { s.pw with arrStopped := false }
    exact of_next hrow (.ite hgo.holdReturn (.ite hgo.deliver hgo))
  | reEntry => exact of_next hrow (.ite (.ite (reEntry_fenceKept s) (.refl s)) (.ite (.startGo (.power (.refl s) _)) (.refl s)))
  | rstNAssert | ringStopPassive => cases hcold
  | _ => cases hc

end

/-- Settles O10: a cycle and every row but a cold reset leave a fenced slice fenced, with the reason it has. -/
theorem fenceStays : Obligations.FenceStays := by
  intro s t hf hcold h
  rcases step_cases h with ⟨-, rfl⟩ | ⟨c, q, hq, hrow⟩
  · exact (LifeStep.keeps (tick_keeps (Keeps.refl _ s) rfl rfl)).fenced hf
  · have hc : coldRow c = false := by simpa [hq] using hcold
    have hkept : FenceKept { s with pending := q } t := by
      cases hpower : powerRow c with
      | true => exact powerRow_fenceKept hpower hc hrow
      | false => exact (LifeStep.of_keeps (exec_keeps c _ t hrow) (rowKeeps_life hpower) (rowKeeps_pins hpower)).fenceKept
    exact hkept hf

end Sys2Proof.Machine
end

section
/-! The state after reset, and that no word spells a command (O3, O4). -/

namespace Sys2Proof.Machine

open Sys2Proof

/-- Settles O3: the table gives no row bits. -/
theorem noTableWordSpellsACommand : Obligations.NoTableWordSpellsACommand := fun _ _ _ => ⟨rfl, rfl⟩

/-- Settles O4: every field has the value of its declaration, and a register of which nothing is listed reads its reset value. -/
theorem resetState : Obligations.ResetState := by
  refine ⟨rfl, rfl, rfl, rfl, rfl, rfl, rfl, rfl, rfl, rfl, rfl, rfl, rfl, rfl, fun off => ?_⟩
  show (0#64 ^^^ BitVec.ofNat 64 (regReset off)).toNat = regReset off % 2 ^ 64
  rw [BitVec.zero_xor, BitVec.toNat_ofNat]

end Sys2Proof.Machine
end

section
/-! A cycle passed in a slice in which a request has used an open cycle (O2). -/

namespace Sys2Proof.Machine

open Sys2Proof

/-- A serving slice with no command waiting, in which a request issued has used an open cycle that the clock has not passed (R221). -/
def openCycleUsed : State := { pw := { pstate := 2, rstN := true, ready := true }, pl := { openUsed := 1 } }

/-- The open cycles used and not passed in the next state of an outcome. -/
def openCyclesUsed : Host.Outcome State Fault Refusal → Option Nat
  | .next t => some t.pl.openUsed
  | _ => none

/-- The open cycle is past after the cycle. -/
theorem step_openCycleUsed : openCyclesUsed (step openCycleUsed) = some 0 := by decide +kernel

/-- Refutes O2: a cycle of clk_fab takes one from the open cycles that requests have used, which the state keeps with the plan, so the plan does
not stay as it was. -/
theorem not_idleStepPassesOneCycle : ¬ Obligations.IdleStepPassesOneCycle := by
  intro h
  obtain ⟨t, hstep, -, -, -, -, -, -, hplan, -⟩ := h openCycleUsed rfl
  have hused := step_openCycleUsed
  rw [hstep] at hused
  have hkept : t.pl.openUsed = 1 := by rw [hplan]; rfl
  exact absurd (hkept.symm.trans (Option.some.inj hused)) (by decide)

end Sys2Proof.Machine
end

section
/-! What becomes of memory's answers in a slice that does not run (O49). -/

namespace Sys2Proof.Machine

open Sys2Proof

/-- The rows of memory's answers: whether each ends a write, and what it does where it is acted on. -/
def memAnswer : Instr → Option (Bool × (State → State))
  | .memReadReturn tag beat status bad bytes => some (false, fun s => memReturn s tag beat status bad bytes)
  | .memReplay tag beat => some (false, fun s => memReplay s tag beat)
  | .memWriteCompletion tag => some (true, fun s => memWriteDone s tag)
  | .evictionWritebackAccepted tag => some (true, fun s => memWriteAccept s tag)
  | _ => none

section
variable {c : Instr} {s : State} {write : Bool} {f : State → State}

theorem exec_memAnswer (h : memAnswer c = some (write, f)) (s : State) : exec c s = .next (memGate s c write f) := by
  unfold memAnswer at h
  split at h <;> cases h <;> rfl

/-- The answers that end a write are the completion and the acceptance. -/
theorem memAnswer_read (h : memAnswer c = some (write, f)) (hc : ∀ tag, c ≠ .memWriteCompletion tag ∧ c ≠ .evictionWritebackAccepted tag) :
    write = false := by
  unfold memAnswer at h
  split at h
  · cases h; rfl
  · cases h; rfl
  · exact absurd rfl (hc _).1
  · exact absurd rfl (hc _).2
  · cases h

/-- A fenced slice drops the answers of reads, and without its core supply every answer (R473). -/
theorem memGate_fenced_drops (hf : s.hd.fenced = true) (h : s.pw.coreDown = true ∨ write = false) : memGate s c write f = s := by
  rw [memGate, if_pos hf, if_neg (by rcases h with h | h <;> simp [h])]

/-- A fenced slice lets a write end (R473). -/
theorem memGate_fenced_writes (hf : s.hd.fenced = true) (h : s.pw.coreDown = false) : memGate s c true f = f s := by
  rw [memGate, if_pos hf, if_pos (by simp [h])]

/-- In safe retention, and in a BACKUP_HOLD with the core supplied, an answer waits (R558, R560). -/
theorem memGate_holds (hf : s.hd.fenced = false) (h : s.pw.pstate = 3 ∨ (s.pw.pstate = 4 ∧ s.pw.coreDown = false)) :
    memGate s c write f = { s with held := s.held ++ [c] } := by
  rw [memGate, if_neg (by simp [hf]), if_pos (by simpa using h)]

/-- In reset, while it starts, and without its core supply the slice takes no answer. -/
theorem memGate_stopped (hf : s.hd.fenced = false) (h : s.pw.pstate ≤ 1 ∨ (s.pw.pstate = 4 ∧ s.pw.coreDown = true)) :
    memGate s c write f = s := by
  rw [memGate, if_neg (by simp [hf]), if_neg, if_pos]
  · show s.pw.pstate ≠ 2 ∧ s.pw.pstate ≠ 5
    omega
  · show ¬(s.pw.pstate = 3 ∨ s.pw.pstate = 4 ∧ (!s.pw.coreDown) = true)
    rcases h with h | ⟨h, hcore⟩
    · omega
    · simp [h, hcore]

end

/-- Settles O49: each row of memory's answers arrives at one gate, which asks for the fence first. -/
theorem memHeld : Obligations.MemHeld := by
  intro c s hrow
  obtain ⟨write, f, h⟩ : ∃ write f, memAnswer c = some (write, f) := by
    rcases hrow with ⟨_, _, _, _, _, rfl⟩ | ⟨_, _, rfl⟩ | ⟨_, rfl⟩ | ⟨_, rfl⟩ <;> exact ⟨_, _, rfl⟩
  refine ⟨fun hf hdrop => ?_, fun hf hcore g => ⟨?_, ?_⟩, fun hf hp => ?_, fun hf hp => ?_⟩
  · rw [exec_memAnswer h, memGate_fenced_drops hf (hdrop.imp_right (memAnswer_read h))]
  · rw [exec_memAnswer rfl, memGate_fenced_writes hf hcore]
  · rw [exec_memAnswer rfl, memGate_fenced_writes hf hcore]
  · rw [exec_memAnswer h, memGate_holds hf hp]
  · rw [exec_memAnswer h, memGate_stopped hf hp]

end Sys2Proof.Machine
end

section
/-! Accesses where no register lies (O60). -/

namespace Sys2Proof.Machine

open Sys2Proof

/-- What an access latches is the access log alone; the first access that stands there is kept (R593). -/
theorem csrLatch_cases (s : State) (cause : Nat) (hdr : Bool) (off : Nat) (write : Bool) (src : Nat) :
    { csrLatch s cause hdr off write src with sec := s.sec } = s ∧ (csrLatch s cause hdr off write src).sec.logValid = true ∧
      (s.sec.logValid = false → (csrLatch s cause hdr off write src).sec.logCause = cause ∧
        (csrLatch s cause hdr off write src).sec.logOff = off % 2 ^ 16 ∧ (csrLatch s cause hdr off write src).sec.logWrite = write) := by
  unfold csrLatch
  dsimp only
  cases hvalid : s.sec.logValid with
  | true => exact ⟨rfl, rfl, nofun⟩
  | false => exact ⟨rfl, rfl, fun _ => ⟨rfl, rfl, rfl⟩⟩

/-- Settles O60: on either path an access that passes its checks is performed once, and where no register lies a write is latched and a read
gives zero. -/
theorem unassignedOffsets : Obligations.UnassignedOffsets := by
  refine ⟨?frame, ?host, ?log, ?read⟩
  case frame =>
    intro a s h hnone hcheck
    have hh : a.hdr = true := h.1
    rw [exec_access (i := .csrWr a) rfl, csrDo_frame h, csrAccess_write_none hnone hcheck, hh]
  case host =>
    intro a s q u h hq hu hnone hcheck
    have hh : a.hdr = false := h.1.1
    rw [exec_access (i := .csrWr a) rfl, csrDo_performed (w := true) h hq hu,
      csrAccess_write_none (a := { a with m := q }) hnone hcheck, hh]
  case log =>
    rintro s t hdr off src rfl
    exact csrLatch_cases s 4 hdr off true src
  case read => exact fun a s hnone hcheck => csrAccess_read_none hnone hcheck

end Sys2Proof.Machine
end

section
/-! Frames that answer, frames sent again and the fence by frame (O29, O30). -/

namespace Sys2Proof.Machine

open Sys2Proof

/-! ## Frames kept and sent again (R469, R470) -/

section
variable {s : State} {seq n : Nat} {f : Frame}

theorem frameResend_none (h : ∀ e ∈ s.hd.unacked, e.1.seq ≠ seq) : frameResend s seq = s := by
  have hnone : (s.hd.unacked.find? fun e => e.1.seq == seq) = none := by simpa using h
  rw [frameResend, hnone]

/-- A stop that may insert a kept frame sends it again, or gives it up (R50, R469). -/
theorem frameResend_found (h : (s.hd.unacked.find? fun e => e.1.seq == seq) = some (f, n))
    (hstop : s.hd.mode = 0 ∨ (s.hd.fenced = true ∧ s.hd.mode = 1 ∧ f.type = 3)) :
    frameResend s seq = if 8 ≤ n ∧ f.type ≠ 3 ∧ f.type ≠ 0x26 then
        ev { s with hd := { s.hd with unacked := s.hd.unacked.filter fun e => e.1.seq != seq } } Ev.hdrUndelivered
      else drive { s with hd := { s.hd with unacked := s.hd.unacked.map fun e => if e.1.seq = seq then (e.1, n + 1) else e } } (.hdr f) := by
  have hmay : ¬(!(s.hd.mode == 0 || (s.hd.fenced && s.hd.mode == 1 && f.type == 3))) = true := by
    rcases hstop with h | ⟨h1, h2, h3⟩ <;> simp [*]
  unfold frameResend
  rw [h]
  exact if_neg hmay

end

/-- A frame kept is among those kept with its payload, and none leaves them (R469). -/
theorem hdrKeep_keeps_payload (s : State) (type : Nat) (payload : List Nat) :
    ∃ e ∈ (hdrKeep s type payload).hd.unacked, e.1.type = type ∧ e.1.payload = payload := by
  unfold hdrKeep
  dsimp only
  split <;> exact ⟨_, List.mem_append_right _ (List.mem_singleton.mpr rfl), rfl, rfl⟩

theorem hdrKeep_hl (s : State) (type : Nat) (payload : List Nat) : (hdrKeep s type payload).hl = s.hl := by
  obtain ⟨_, _, _, h, -⟩ := hdrKeep_eq s type payload
  rw [h]

theorem Sent.hd {s t : State} (h : Sent s t) : t.hd = s.hd := by
  obtain ⟨_, _, _, _, _, _, _, _, _, rfl⟩ := h
  rfl

/-! ## The applied point (R501) -/

/-- The voltages of an OPPOINT_SET applied, and entered in the ledger. -/
def pointApplied (s : State) (w : Nat) : State :=
  ledAdd { s with hl := { s.hl with vCore := w % 65536, vArr := w / 65536 % 65536 } } 7 (w % 2 ^ 32) 1

theorem oppointSet_eq (s : State) (f : Frame) : oppointSet s f = propose (pointApplied s (f.payload.headD 0)) := by
  have harr : fld (f.payload.headD 0) 31 16 = f.payload.headD 0 / 65536 % 65536 := by
    rw [fld, Nat.shiftRight_eq_div_pow]; rfl
  rw [oppointSet, harr]
  rfl

/-- The entry changes the health state alone, and not the voltages proposed nor the time of the last proposal. -/
theorem pointApplied_eq (s : State) (w : Nat) : ∃ h, pointApplied s w = { s with hl := h } ∧ h.vCore = w % 65536 ∧
    h.vArr = w / 65536 % 65536 ∧ h.propCore = s.hl.propCore ∧ h.propArr = s.hl.propArr ∧ h.proposed = s.hl.proposed := by
  obtain ⟨_, _, _, _, _, _, _, _, _, _, _, h⟩ :=
    ledAdd_entered { s with hl := { s.hl with vCore := w % 65536, vArr := w / 65536 % 65536 } } 7 (w % 2 ^ 32) 1
  exact ⟨_, h, rfl, rfl, rfl, rfl, rfl⟩

/-- The latest sample's voltages are apart from those applied, and no proposal was made in the period (R501). -/
def mayPropose (s : State) : Prop :=
  s.hl.propCore ≠ 0 ∧ (apart s.hl.propCore s.hl.vCore = true ∨ apart s.hl.propArr s.hl.vArr = true) ∧
    (s.hl.proposed = 0 ∨ s.hl.proposed - 1 + ageingPeriod s ≤ tsNs s)

theorem propose_none {s : State} (h : ¬mayPropose s) : propose s = s := by
  unfold propose
  dsimp only
  exact if_neg (by simpa [mayPropose, and_assoc] using h)

theorem propose_proposes {s : State} (h : mayPropose s) : (propose s).hl.proposed = tsNs s + 1 ∧
    ∃ e ∈ (propose s).hd.unacked, e.1.type = 0x20 ∧ e.1.payload.headD 0 = s.hl.propArr % 65536 * 65536 + s.hl.propCore % 65536 := by
  have hword : at_ (s.hl.propArr % 65536) 16 + s.hl.propCore % 65536 = s.hl.propArr % 65536 * 65536 + s.hl.propCore % 65536 := by
    rw [at_, Nat.shiftLeft_eq]
  have hkept := hdrKeep_keeps_payload { s with hl := { s.hl with proposed := tsNs s + 1 } } 0x20
    [s.hl.propArr % 65536 * 65536 + s.hl.propCore % 65536, ageSubject s.hl]
  have hhl := hdrKeep_hl { s with hl := { s.hl with proposed := tsNs s + 1 } } 0x20
    [s.hl.propArr % 65536 * 65536 + s.hl.propCore % 65536, ageSubject s.hl]
  unfold propose
  dsimp only
  rw [if_pos (by simpa [mayPropose, and_assoc] using h), hword]
  generalize hdrKeep _ _ _ = k at hkept hhl
  have hpost : Sent { k with free := k.free + 1 + 1 } (postEventFree k 5 St.oppointProposed) := postEvent_sent _ _ _ _ _ _
  obtain ⟨_, _, _, _, _, _, _, _, _, _, _, hled⟩ := ledAdd_entered (postEventFree k 5 St.oppointProposed) 7
    (s.hl.propArr % 65536 * 65536 + s.hl.propCore % 65536) 0
  rw [hled]
  dsimp only
  rw [hpost.hl, hpost.hd]
  refine ⟨congrArg Health.proposed hhl, ?_⟩
  obtain ⟨e, he, htype, hpay⟩ := hkept
  exact ⟨e, he, htype, congrArg (List.headD · 0) hpay⟩

/-- What the proposal of an applied point reads: the sample's voltages against those applied, and the time of the last proposal. -/
def PointDue (s : State) (w : Nat) : Prop := s.hl.propCore ≠ 0 ∧
  (apart s.hl.propCore (w % 65536) = true ∨ apart s.hl.propArr (w / 65536 % 65536) = true) ∧
    (s.hl.proposed = 0 ∨ s.hl.proposed - 1 + ageingPeriod s ≤ tsNs s)

theorem mayPropose_pointApplied (s : State) (w : Nat) : mayPropose (pointApplied s w) ↔ PointDue s w := by
  obtain ⟨x, happ, hcore, harr, hpcore, hparr, hprop⟩ := pointApplied_eq s w
  rw [mayPropose, happ]
  dsimp only
  rw [hcore, harr, hpcore, hparr, hprop]
  exact Iff.rfl

section
variable (s : State) (f : Frame)

theorem oppointSet_applies : (oppointSet s f).hl.vCore = f.payload.headD 0 % 65536 ∧
    (oppointSet s f).hl.vArr = f.payload.headD 0 / 65536 % 65536 ∧ (oppointSet s f).arr = s.arr ∧ (oppointSet s f).pl = s.pl ∧
      (oppointSet s f).pw = s.pw ∧ (oppointSet s f).pr = s.pr ∧ (oppointSet s f).gen = s.gen := by
  obtain ⟨x, happ, hcore, harr, -⟩ := pointApplied_eq s (f.payload.headD 0)
  have hrep := (Reported.refl (pointApplied s (f.payload.headD 0))).propose
  rw [← oppointSet_eq, happ] at hrep
  exact ⟨(hrep.same (·.hl.vCore)).trans hcore, (hrep.same (·.hl.vArr)).trans harr, hrep.arr, hrep.pl, hrep.pw, hrep.same (·.pr),
    hrep.same (·.gen)⟩

variable {s f}

theorem oppointSet_proposes (h : PointDue s (f.payload.headD 0)) : (oppointSet s f).hl.proposed = tsNs s + 1 ∧
    ∃ e ∈ (oppointSet s f).hd.unacked, e.1.type = 0x20 ∧ e.1.payload.headD 0 = s.hl.propArr % 65536 * 65536 + s.hl.propCore % 65536 := by
  have hprop := propose_proposes ((mayPropose_pointApplied s _).mpr h)
  obtain ⟨x, happ, -, -, hpcore, hparr, -⟩ := pointApplied_eq s (f.payload.headD 0)
  rw [← oppointSet_eq, happ] at hprop
  dsimp only at hprop
  rw [hpcore, hparr] at hprop
  exact hprop

theorem oppointSet_still (h : ¬PointDue s (f.payload.headD 0)) : oppointSet s f = { s with hl := (oppointSet s f).hl } := by
  obtain ⟨x, happ, -⟩ := pointApplied_eq s (f.payload.headD 0)
  rw [oppointSet_eq, propose_none (mt (mayPropose_pointApplied s _).mp h), happ]

end

/-- Settles O30: a frame taken acts in the state it leaves; a kept frame is sent again by its count; an applied point is entered in the ledger
alone, but for a proposal that is due. -/
theorem frameAnswers : Obligations.FrameAnswers := by
  refine ⟨?ack, ?unkept, ?again, ?beat, ?still, ?point⟩
  case ack =>
    rintro f s h ht _ rfl
    obtain ⟨o, hon⟩ := frameOn_eq s f
    have hrow : exec (.hdrAck f) s = .next (hdrAck (frameOn s f) f) := congrArg Host.Outcome.next (hdrGate_taken h (by rw [ht]; rfl) _)
    rw [hrow, hon]
    rfl
  case unkept => exact fun seq s h => congrArg Host.Outcome.next (frameResend_none h)
  case again =>
    intro seq n f s h hstop
    refine ⟨fun hn => ?_, fun hn h3 h26 => ?_⟩
    · exact congrArg Host.Outcome.next ((frameResend_found h hstop).trans (if_neg (by omega)))
    · exact congrArg Host.Outcome.next ((frameResend_found h hstop).trans (if_pos ⟨hn, h3, h26⟩))
  case beat => exact fun s hm hen => ⟨_, congrArg Host.Outcome.next (if_pos ⟨hm, hen⟩), rfl, rfl⟩
  case still =>
    intro s h
    refine congrArg Host.Outcome.next (if_neg ?_)
    rintro ⟨hm, hen⟩
    rcases h with h | h
    · exact h hm
    · simp [h] at hen
  case point =>
    intro f s h ht
    obtain ⟨o, hon⟩ := frameOn_eq s f
    have hrow : exec (.oppointSet f) s = .next (oppointSet (frameOn s f) f) :=
      congrArg Host.Outcome.next (hdrGate_taken h (by rw [ht]; rfl) _)
    rw [hon] at hrow
    obtain ⟨hcore, harr, hrest⟩ := oppointSet_applies { s with out := s.out ++ o } f
    obtain ⟨ha, hpl, hpw, hpr, hgen⟩ := hrest
    refine ⟨_, hrow, hcore, harr, ha, hpl, hpw, hpr, hgen, fun hp hapart htime => oppointSet_proposes ⟨hp, hapart, htime⟩, fun hno => ?_⟩
    rw [hon]
    refine oppointSet_still ?_
    rintro ⟨hp, hapart, htime⟩
    rcases hno with h0 | ⟨hc, ha⟩ | ⟨h0, hlate⟩
    · exact hp h0
    · rcases hapart with h | h
      · exact Bool.false_ne_true (hc.symm.trans h)
      · exact Bool.false_ne_true (ha.symm.trans h)
    · rcases htime with h | h
      · exact h0 h
      · exact absurd hlate (Nat.not_lt.mpr h)

/-! ## The fence (R472 to R475) -/

/-- What has been driven stays driven in a fence. -/
theorem fence_out (s : State) (reason : Nat) : s.out <+: (fence s reason).out := (fence_keeps (gr := fun _ => false) (Keeps.refl _ s)).out

theorem advance_driven (s : State) : s.out <+: (advance s).out := (advance_keeps (gr := fun _ => false) (Keeps.refl _ s)).out

/-- Once fenced, a slice goes on with what is fenced. -/
theorem advance_fence_new {s : State} (hf : s.hd.fenced = false) (hr : s.pw.rstN = true) (r : Nat) :
    (advance (fence s r)).hd.fenced = true ∧ (advance (fence s r)).hd.reason = r ∧ (advance (fence s r)).pw.pstate = 6 ∧
      (advance (fence s r)).pw.ready = false := by
  obtain ⟨hfenced, hreason, hp, hready⟩ := fence_new hf hr r
  obtain ⟨hfenced', hreason', hrest⟩ := (LifeStep.refl (fence s r)).advance.of_fenced hfenced hp hready
  exact ⟨hfenced', hreason'.trans hreason, hrest⟩

/-- A cause of a fence fences a slice out of cold reset, and the first one stays (R472). -/
theorem advance_fence_cases {s : State} (hr : s.pw.rstN = true) (r : Nat) : (advance (fence s r)).hd.fenced = true ∧
    (advance (fence s r)).hd.reason = (if s.hd.fenced then s.hd.reason else r) ∧
      (s.hd.fenced = false → (advance (fence s r)).pw.pstate = 6 ∧ (advance (fence s r)).pw.ready = false) := by
  cases hf : s.hd.fenced with
  | true =>
    obtain ⟨hfenced, hreason⟩ := ((LifeStep.refl s).fence r).advance.fenced hf
    exact ⟨hfenced, hreason, nofun⟩
  | false =>
    obtain ⟨hfenced, hreason, hrest⟩ := advance_fence_new hf hr r
    exact ⟨hfenced, hreason, fun _ => hrest⟩

theorem rstN_of_alive {s : State} (h : alive s = true) : s.pw.rstN = true := by
  simp only [alive, controlRuns, Bool.and_eq_true] at h
  obtain ⟨⟨⟨hr, -⟩, -⟩, -⟩ := h
  exact hr

/-- Frames kept one after another change what has been driven and the frames, and are all kept (R469). -/
theorem foldl_hdrKeep (type : Nat) (l : List (List Nat)) (s : State) : ∃ o q m, l.foldl (fun s p => hdrKeep s type p) s = { s with
    out := o, hd := { s.hd with seq := q, unacked := m } } ∧ (∀ e ∈ s.hd.unacked, e ∈ m) ∧ (l ≠ [] → ∃ e ∈ m, e.1.type = type) := by
  induction l generalizing s with
  | nil => exact ⟨_, _, _, rfl, fun _ h => h, fun h => absurd rfl h⟩
  | cons p l ih =>
    obtain ⟨o, q, m, hkeep, ⟨e, he, htype⟩, hold⟩ := hdrKeep_eq s type p
    obtain ⟨o', q', m', hrest, hkept, -⟩ := ih (hdrKeep s type p)
    rw [hkeep] at hkept
    refine ⟨o', q', m', ?_, fun e h => hkept e (hold e h), fun _ => ⟨e, hkept e he, htype⟩⟩
    rw [List.foldl_cons, hrest, hkeep]

/-- A notice has one frame at least (R475). -/
theorem lossFrames_ne_nil (s : State) (reason : Nat) (lost : List (Nat × Nat)) : lossFrames s reason lost ≠ [] := by
  unfold lossFrames
  dsimp only
  rw [Ne, List.map_eq_nil_iff, List.range_eq_nil]
  omega

/-- The end of the walk keeps the frames of its notice, whether it could run or not (R474, R475). -/
theorem fenceWalkDone_eq (s : State) : ∃ o q m, fenceWalkDone s = { s with
    out := o, hd := { s.hd with walkDone := true, seq := q, unacked := m } } ∧ ∃ e ∈ m, e.1.type = 3 := by
  unfold fenceWalkDone
  dsimp only
  obtain ⟨o, q, m, hwalk, -, hnotice⟩ := foldl_hdrKeep 3
    (if walkStopped s then [[at_ s.hd.reason 24 + at_ 1 8, 2 ^ 31]] else lossFrames s s.hd.reason (fenceLosses s))
    { s with hd := { s.hd with walkDone := true } }
  refine ⟨o, q, m, hwalk, hnotice ?_⟩
  split
  · exact List.cons_ne_nil _ _
  · exact lossFrames_ne_nil _ _ _

/-- Settles O29: an ACK is driven before the fence it answers, the first cause of a fence stays, and the walk ends once. -/
theorem fenceRows : Obligations.FenceRows := by
  refine ⟨?frame, ?timers, ?walk, ?walked⟩
  case frame =>
    intro f s h ht hr
    obtain ⟨o, hon⟩ := frameOn_eq s f
    have hrow : exec (.fenceFrame f) s = .next (advance (fence (hdrAckSend (frameOn s f) f) 1)) :=
      congrArg Host.Outcome.next (hdrGate_taken h (by rw [ht]; rfl) _)
    rw [hon] at hrow
    obtain ⟨hfenced, hreason, hnew⟩ := advance_fence_cases (s := hdrAckSend { s with out := s.out ++ o } f) hr 1
    refine ⟨_, hrow, hfenced, hreason, hnew, ?_⟩
    have hout := (fence_out (hdrAckSend { s with out := s.out ++ o } f) 1).trans (advance_driven _)
    exact hout.subset (List.mem_append_right _ (List.mem_singleton.mpr rfl))
  case timers =>
    intro s ha hf
    have hr := rstN_of_alive ha
    exact ⟨⟨_, congrArg Host.Outcome.next (if_pos ha), fence_new hf hr 3⟩, ⟨_, congrArg Host.Outcome.next (if_pos ha), fence_new hf hr 4⟩⟩
  case walk =>
    intro s hf hw
    have hrow : exec .fenceWalkDone s = .next (fenceWalkDone s) := congrArg Host.Outcome.next (if_pos ⟨hf, by simp [hw]⟩)
    obtain ⟨o, q, m, hwalk, hnotice⟩ := fenceWalkDone_eq s
    exact ⟨_, hrow.trans (congrArg Host.Outcome.next hwalk), rfl, hf, rfl, hnotice, rfl⟩
  case walked =>
    intro s h
    refine congrArg Host.Outcome.next (if_neg ?_)
    rintro ⟨hf, hw⟩
    rcases h with h | h <;> simp [h] at hf hw

end Sys2Proof.Machine
end

section
/-! The end of a metering window (O25, O26). -/

namespace Sys2Proof.Machine

open Sys2Proof

/-! ## Tables that a window writes -/

section
variable {α : Type} [DecidableEq α] {d : α}

/-- A table of any values rewritten by `f` at each key below `n`, once. -/
theorem get_foldl_update (f : Nat → α → α) (m : SMap α) (n c : Nat) :
    SMap.get d ((List.range n).foldl (fun m k => SMap.put d m k (f k (SMap.get d m k))) m) c =
      if c < n then f c (SMap.get d m c) else SMap.get d m c := by
  induction n with
  | zero => rfl
  | succ n ih =>
    rw [List.range_succ, List.foldl_append, List.foldl_cons, List.foldl_nil]
    by_cases hc : c = n
    · subst hc
      rw [SMap.get_put_self, ih, if_neg (Nat.lt_irrefl c), if_pos (Nat.lt_succ_self c)]
    · have hlt : c < n + 1 ↔ c < n := by omega
      simp only [SMap.get_put_ne hc, ih, hlt]

/-- A table that lists a value for each key of `l`, but for the default. -/
theorem get_filter_map (g : Nat → α) (l : List Nat) (c : Nat) :
    SMap.get d ((l.map fun k => (k, g k)).filter fun e => e.2 != d : SMap α) c = if c ∈ l then g c else d := by
  induction l with
  | nil => rfl
  | cons k l ih =>
    rw [List.map_cons, List.filter_cons]
    by_cases hk : g k = d
    · rw [if_neg (by simp [hk]), ih]
      by_cases hc : c = k
      · subst hc
        rw [hk, ite_self, if_pos List.mem_cons_self]
      · simp only [List.mem_cons, hc, false_or]
    · rw [if_pos (by simp [hk])]
      by_cases hc : c = k
      · subst hc
        simp only [SMap.get, if_true, List.mem_cons, true_or]
      · simp only [SMap.get, hc, if_false, ih, List.mem_cons, false_or]

end

/-! ## The window (R517, R518) -/

/-- The word of DRF_QOS_BWn that a window leaves (R517). -/
def bwWord (s : State) (c : Nat) : BitVec 64 :=
  BitVec.ofNat 64 (at_ (min 0xFFFF (winGet s c 0 / 64)) 48 + at_ (min 0xFFFF (winGet s c 1 / 64)) 32 +
    at_ (min 0xFFFF (winGet s c 2 / 64)) 16 + min 0xFFFF (winGet s c 3 / 64))

theorem windowEnd_counts (s : State) : (windowEnd s).qs.win = [] ∧
    (windowEnd s).qs.bw = ((List.range 16).map fun c => (c, bwWord s c)).filter (fun e => e.2 != 0) ∧
    (windowEnd s).qs.memTot =
      (List.range 16).foldl (fun m c => SMap.put 0 m c (SMap.get 0 m c + BitVec.ofNat 64 (winGet s c 0))) s.qs.memTot ∧
    (windowEnd s).qs.portTot = (List.range 16).foldl
      (fun m c => SMap.put 0 m c (SMap.get 0 m c + BitVec.ofNat 64 (winGet s c 1 + winGet s c 2 + winGet s c 3))) s.qs.portTot := by
  unfold windowEnd
  dsimp only
  split <;> exact ⟨rfl, rfl, rfl, rfl⟩

theorem windowEnd_cls (s : State) : (windowEnd s).qs.cls =
    (List.range 16).foldl (fun m c => SMap.put 0 m c (SMap.get 0 s.csr (0x3000 + 8 * c))) s.qs.cls := by
  unfold windowEnd
  dsimp only
  split <;> rfl

theorem windowEnd_keeps_sharing (s : State) : (windowEnd s).qs.evs = s.qs.evs ∧ (windowEnd s).qs.pressure = s.qs.pressure ∧
    (windowEnd s).qs.credit = s.qs.credit ∧ (windowEnd s).qs.traces = s.qs.traces := by
  unfold windowEnd
  dsimp only
  split <;> exact ⟨rfl, rfl, rfl, rfl⟩

theorem exec_meteringWindowEnd {s : State} (hr : s.pw.rstN = true) (hc : s.pw.clkAon = true) :
    exec .meteringWindowEnd s = .next (windowEnd s) :=
  congrArg Host.Outcome.next (if_pos (by simp [hr, hc]))

/-- Settles O25: the counts of each class go once into its registers, and the window's start again from nothing. -/
theorem windowCounts : Obligations.WindowCounts := by
  intro s hr hc
  obtain ⟨hwin, hbw, hmem, hport⟩ := windowEnd_counts s
  obtain ⟨hevs, hpress, hcredit, htraces⟩ := windowEnd_keeps_sharing s
  refine ⟨_, exec_meteringWindowEnd hr hc, rfl, hevs, hpress, hcredit, htraces, fun c g => ?_, fun c hlt => ⟨?_, ?_, ?_⟩⟩
  · rw [winGet, hwin]
    rfl
  · rw [hbw, get_filter_map, if_pos (List.mem_range.mpr hlt), bwWord]
  · rw [hmem, get_foldl_update (fun c v => v + BitVec.ofNat 64 (winGet s c 0)), if_pos hlt]
  · rw [hport, get_foldl_update (fun c v => v + BitVec.ofNat 64 (winGet s c 1 + winGet s c 2 + winGet s c 3)), if_pos hlt]

/-! ## DRF_QOS_CLASSn (R518, R526) -/

/-- DRF_QOS_CLASSn (R526). -/
def qosClassRow : RegRow := ⟨0x3000, 8, 16, 8, 0xFFFFFFFFFF800000, 0x0, 0x100000000000, false, 0⟩

theorem regAt_qosClass : ∀ c < 16, regAt (0x3000 + 8 * c) = some qosClassRow ∧ regAt (0x3000 + 8 * c - 4) = none := by decide +kernel

section
variable {c : Nat} (hc : c < 16)
include hc

theorem regReset_qosClass : regReset (0x3000 + 8 * c) = regReset 0x3000 := by
  rw [regReset, regReset, (regAt_qosClass c hc).1, (regAt_qosClass 0 (by decide)).1]

theorem regFind_qosClass (k : Nat) : regFind (0x3000 + 8 * c) (k + 1) = some (qosClassRow, 0x3000 + 8 * c) :=
  regFind_alone (regAt_qosClass c hc) (by omega) (by omega) (by decide) k

/-- Every bit of a class's settings is stored. -/
theorem lowZero_qosClass (s : State) : lowZero s (0x3000 + 8 * c) = 0 := by
  have hrow : ∀ base stride count, 0 < stride → base + stride * count ≤ 0x3000 → regIndex (0x3000 + 8 * c) base stride count = none := by
    intro base stride count hs hb
    refine if_neg fun h => ?_
    have hlt := (Nat.div_lt_iff_lt_mul hs).mp h.2.2
    rw [Nat.mul_comm count stride] at hlt
    omega
  unfold lowZero
  rw [if_neg (by omega), if_neg (by omega), if_neg (by omega), if_neg (by omega), if_neg (by omega), hrow _ _ _ (by decide) (by decide),
    hrow _ _ _ (by decide) (by decide), hrow _ _ _ (by decide) (by decide), hrow _ _ _ (by decide) (by decide)]

/-- A write of a class's settings replaces its bits. -/
theorem csrGet_stored_qosClass (s : State) (v : Nat) :
    csrGet (stored s (0x3000 + 8 * c) v) (0x3000 + 8 * c) = newBits s qosClassRow (0x3000 + 8 * c) v % 2 ^ 64 := by
  unfold stored
  rw [(regAt_qosClass c hc).1]
  dsimp only
  rw [storeBits, lowZero_qosClass hc, csrGet_csrPut_self, clearLow, Nat.pow_zero, Nat.div_one, Nat.mul_one]

theorem regWrite_qosClass (s : State) (v : Nat) :
    regWrite s qosClassRow (0x3000 + 8 * c) v = { s := stored s (0x3000 + 8 * c) v } :=
  plainWrite_eq (regAt_qosClass c hc).1 s v

end

/-- The answer to a write of a register leaves a settled slice settled. -/
theorem Settled.written {s : State} (h : Settled s) (off v : Nat) (a : Csr) (st x : Nat) :
    Settled (csrFrameAnswer (stored s off v) a true st x) := by
  obtain ⟨r, hr⟩ := stored_eq s off v
  rw [hr]
  exact h.reported ⟨rfl, id, fun _ => rfl⟩

/-- Settles O26: a write to a class reaches its register alone, which the end of a window reads. -/
theorem qosClassNextWindow : Obligations.QosClassNextWindow := by
  refine ⟨fun cls a s hcls h hset hflow hcheck => ?_, fun s hr hclk => ⟨_, exec_meteringWindowEnd hr hclk, fun c hc => ?_⟩⟩
  · have hperm : Permitted s (csrAt a (0x3000 + 8 * cls)) true := ⟨h, hcheck⟩
    have hrow := next_csrDo_stored (off := 0x3000 + 8 * cls) hperm (by omega) (regFind_qosClass hcls) (regWrite_qosClass hcls s (written a))
    obtain ⟨r, hr⟩ := stored_eq s (0x3000 + 8 * cls) (written a)
    have hadv : advance (csrFrameAnswer (stored s (0x3000 + 8 * cls) (written a)) (csrAt a (0x3000 + 8 * cls)) true St.ok 0) =
        csrFrameAnswer (stored s (0x3000 + 8 * cls) (written a)) (csrAt a (0x3000 + 8 * cls)) true St.ok 0 :=
      advance_settled_high (hset.written _ _ _ _ _) (by rw [hr]; exact hflow)
    rw [wrote, hadv] at hrow
    have hqs : (stored s (0x3000 + 8 * cls) (written a)).qs = s.qs := by rw [hr]
    exact ⟨_, hrow, hqs, fun c => congrArg (fun q : Qos => (SMap.get 0 q.cls c ^^^ BitVec.ofNat 64 (regReset 0x3000)).toNat) hqs,
      qosClassRow, (regAt_qosClass cls hcls).1, csrGet_stored_qosClass hcls s (written a)⟩
  · rw [clsCfg, windowEnd_cls, get_foldl_update (fun c _ => SMap.get 0 s.csr (0x3000 + 8 * c)), if_pos hc, csrGet, regReset_qosClass hc]

end Sys2Proof.Machine
end

section
/-! Memory pressure, regulator readings and the second to load (O27). -/

namespace Sys2Proof.Machine

open Sys2Proof

section
variable {s : State} {rail k uj now age : Nat}

/-- A reading of VDD_AON, or one while energy metering is off (R538, R539). -/
theorem regReading_ignored (h : 5 ≤ rail ∨ csrBit s 0x3500 31 = false) : regReading s rail k uj = s := by
  unfold regReading
  exact if_pos (by simpa using h)

variable (hrail : rail < 5) (hon : csrBit s 0x3500 31 = true) (hnow : now = calInterval s (tsNs s))
  (hage : age = (now % 2 ^ 32 + 2 ^ 32 - k % 2 ^ 32) % 2 ^ 32)
include hrail hon hnow hage

/-- A reading too old, or of an interval in which the timestamp stepped (R538). -/
theorem regReading_stale (h : 4 < age ∨ now < age ∨ now - age ∈ s.qs.steps) : regReading s rail k uj = ev s Ev.energyCalStale := by
  subst hage hnow
  unfold regReading
  rw [if_neg (by simp [hon]; omega)]
  exact if_pos (by simpa using h)

/-- A reading that is kept ends its group's interval where every rail of the group has one (R538, R539). -/
theorem regReading_kept (hold : age ≤ 4) (hpast : age ≤ now) (hstep : now - age ∉ s.qs.steps) {t : State} {g : Nat}
    (hg : g = (if rail = 0 then 0 else if rail ≤ 2 then 1 else 2))
    (ht : t = { s with qs := { s.qs with reads := SMap.put 0 s.qs.reads (8 * (now - age) + rail) (uj + 1) } }) :
    regReading s rail k uj = if (groupRails g).all fun r => SMap.get 0 t.qs.reads (8 * (now - age) + r) != 0 then
        { calibrate t g (now - age) with qs := { (calibrate t g (now - age)).qs with
            reads := (calibrate t g (now - age)).qs.reads.filter fun e => !(e.1 / 8 == now - age && (groupRails g).contains (e.1 % 8)) } }
      else t := by
  subst hg ht hage hnow
  unfold regReading
  rw [if_neg (by simp [hon]; omega)]
  refine if_neg ?_
  rintro (h | h | h)
  · omega
  · omega
  · exact hstep (by simpa using h)

end

/-- Settles O27: a frame the stop takes acts in the state it leaves, in which the metering state and the timestamp are as they were. -/
theorem pressureAndReadings : Obligations.PressureAndReadings := by
  refine ⟨fun s => ⟨rfl, rfl⟩, fun f s h ht => ?_, fun f s rail k uj now age h ht hrail hk huj hnow hage => ?_⟩
  · have hword : at_ (f.payload.getD 1 0 % 4) 32 = f.payload.getD 1 0 % 4 * 2 ^ 32 := Nat.shiftLeft_eq _ _
    have hrow : exec (.timeSeconds f) s = .next (timeSeconds (frameOn s f) f) :=
      congrArg Host.Outcome.next (hdrGate_taken h (by rw [ht]; rfl) _)
    obtain ⟨o, hout⟩ := frameOn_eq s f
    rw [hrow, ← hword, hout]
    rfl
  · have hrow : exec (.regReading f) s = .next (regReading (frameOn s f) rail k uj) := by
      rw [hrail, hk, huj, ← Nat.shiftRight_eq_div_pow]
      exact congrArg Host.Outcome.next (hdrGate_taken h (by rw [ht]; rfl) _)
    have hmod : age = (now % 2 ^ 32 + 2 ^ 32 - k % 2 ^ 32) % 2 ^ 32 := by rw [hage, hk, Nat.mod_mod]
    obtain ⟨o, hout⟩ := frameOn_eq s f
    rw [hrow, hout]
    refine ⟨fun hoff => congrArg _ (regReading_ignored hoff), fun hlt hon hstale => congrArg _ ?_,
      fun hlt hon hold hpast hstep t g hg htab => congrArg _ ?_⟩
    · exact regReading_stale hlt hon hnow hmod hstale
    · exact regReading_kept (s := { s with out := s.out ++ o }) hlt hon hnow hmod hold hpast hstep hg htab

end Sys2Proof.Machine
end

section
/-! Edges of PPS_IN and their loss (O24). -/

namespace Sys2Proof.Machine

open Sys2Proof

/-! ## Event records and counts change no register below the counters -/

theorem csrGet_of_csr {s t : State} (h : t.csr = s.csr) (off : Nat) : csrGet t off = csrGet s off := by
  rw [csrGet, h, ← csrGet]

theorem drive_csr (s : State) (o : Out) : (drive s o).csr = s.csr := by
  unfold drive
  cases o <;> rfl

theorem hstWrite_csr (s : State) (addr : Nat) (d : Bytes) (c : Nat) : (hstWrite s addr d c).csr = s.csr := by
  unfold hstWrite hstRequest sendMsg sendCh
  dsimp only
  split
  · rfl
  · exact drive_csr _ _

theorem irqRaise_csr (s : State) (v : Nat) : (irqRaise s v).csr = s.csr := by
  unfold irqRaise
  split
  · rfl
  · exact hstWrite_csr _ _ _ _

/-- `t` is `s` but for what `Sent` names, and every register below the overflow flags of the event counters reads the same. -/
def Counted (s t : State) : Prop := Sent s t ∧ ∀ off < 0x4820, csrGet t off = csrGet s off

theorem Counted.trans {s t u : State} (h : Counted s t) (k : Counted t u) : Counted s u :=
  ⟨h.1.trans k.1, fun off hoff => (k.2 off hoff).trans (h.2 off hoff)⟩

theorem Counted.qs {s t : State} (h : Counted s t) (q : Qos) : Counted s { t with qs := q } :=
  ⟨h.1.trans ⟨_, _, _, _, _, _, _, _, _, rfl⟩, h.2⟩

/-- Both states with the same timestamp state set. -/
theorem Counted.tm {s t : State} (h : Counted s t) (x : Time) : Counted { s with tm := x } { t with tm := x } := by
  obtain ⟨⟨_, _, _, _, _, _, _, _, _, rfl⟩, hregs⟩ := h
  exact ⟨⟨_, _, _, _, _, _, _, _, _, rfl⟩, hregs⟩

theorem Counted.tm_eq {s t : State} (h : Counted s t) : t.tm = s.tm := by
  obtain ⟨⟨_, _, _, _, _, _, _, _, _, rfl⟩, -⟩ := h
  rfl

theorem ev_counted (s : State) (n : Nat) : Counted s (ev s n) := ⟨ev_sent s n, fun _ hoff => csrGet_ev hoff s n⟩

theorem evPost_counted (s : State) (n kind status ring cat w1 w2 w3 : Nat) : Counted s (evPost s n kind status ring cat w1 w2 w3) := by
  refine ⟨evPost_sent _ _ _ _ _ _ _ _ _, fun off hoff => ?_⟩
  unfold evPost
  dsimp only
  split
  · split
    · rw [csrGet_of_csr (irqRaise_csr _ _)]
      exact (csrGet_ev hoff _ _).trans (csrGet_of_csr (hstWrite_csr _ _ _ _) _)
    · exact (csrGet_ev hoff _ _).trans (csrGet_of_csr (hstWrite_csr _ _ _ _) _)
  · exact csrGet_ev hoff _ _

theorem postEvent_counted (s : State) (cat status ring w1 w2 : Nat) : Counted s (postEvent s cat status ring w1 w2) :=
  evPost_counted _ _ _ _ _ _ _ _ _

/-! ## An accepted edge (R542, R544) -/

/-- The timestamp state as an edge is accepted. -/
def acceptedTime (s : State) : Time := { s.tm with n := some 0, lastEdge := tsNs s, lost := false }

theorem edgeAccepted_counted (s : State) (e : Nat) : Counted { s with tm := acceptedTime s } (edgeAccepted s e) := by
  unfold edgeAccepted
  dsimp only
  have hev := ev_counted { s with tm := { s.tm with n := some 0, lastEdge := tsNs s } } Ev.ppsEdge
  generalize ev _ _ = u at hev
  have htm : u.tm = { s.tm with n := some 0, lastEdge := tsNs s } := hev.tm_eq
  have hacc := hev.tm (acceptedTime s)
  have hsame : { u.tm with lost := false } = acceptedTime s := by rw [htm]; rfl
  unfold ppsRegained
  rw [← hsame] at hacc ⊢
  cases hlost : u.tm.lost with
  | true => exact hacc.trans (postEvent_counted _ _ _ _ _ _)
  | false =>
    have hu : { u with tm := { u.tm with lost := false } } = u := by rw [← hlost]
    rw [hu] at hacc
    exact hacc

theorem slewEdge_counted (s : State) : Counted { s with tm := slewTo (acceptedTime s) } (ppsEdge.slewEdge s) := by
  unfold ppsEdge.slewEdge
  dsimp only
  have hacc := edgeAccepted_counted s (errorNs s.tm)
  rw [hacc.tm_eq]
  exact hacc.tm _

/-- The timestamp state that the set edge leaves: whole seconds, no slew (R542). -/
def setTime (s : State) : Time :=
  { acceptedTime s with ts := csrFld s 0xE10 33 0 * 1000000000 * 2 ^ 32 % 2 ^ 96, armed := false, valid := true, slewLeft := 0, slew := 0 }

theorem setEdge_counted (s : State) : Counted { s with free := s.free + 1, tm := setTime s } (ppsEdge.setEdge s) := by
  unfold ppsEdge.setEdge
  dsimp only [drawFree]
  have hacc := edgeAccepted_counted { s with free := s.free + 1 } (if s.tm.lost then Config.freeNat s.free else 0)
  generalize edgeAccepted _ _ = u at hacc ⊢
  have hwin : Counted _ (windowEnd u) := hacc.qs (windowEnd u).qs
  have hsec : csrFld (windowEnd u) 0xE10 33 0 = csrFld s 0xE10 33 0 := congrArg (fld · 33 0) (hwin.2 0xE10 (by decide))
  rw [hwin.tm_eq, hsec]
  exact ((hwin.tm (setTime s)).qs _).trans (ev_counted _ _)

/-- An edge near a second: inc follows the time since the edge before, and the error is slewed out (R543). -/
def rateTime (s : State) (n : Nat) : Time := slewTo { acceptedTime s with inc := 1000000000 * 2 ^ 32 / n }

/-- The timestamp state that an accepted edge leaves, by the table of edges (R542). -/
def edgeTime (s : State) : Time :=
  if s.tm.armed then setTime s
  else if ∀ n, s.tm.n = some n → 750000000 ≤ n then slewTo (acceptedTime s)
  else if 499500000 ≤ s.tm.n.getD 0 ∧ s.tm.n.getD 0 ≤ 500500000 then rateTime s (s.tm.n.getD 0)
  else acceptedTime s

/-- An edge accepted leaves the timestamp state of its row of the table, and else only events and metering changed. -/
theorem ppsEdge_counted {s : State} (hen : csrBit s 0xE08 31 = true) (h : ∀ n, s.tm.n = some n → 250000000 ≤ n) :
    ∃ f, Counted { s with free := f, tm := edgeTime s } (ppsEdge s) := by
  unfold ppsEdge edgeTime
  simp only [hen, Bool.not_true, Bool.false_eq_true, if_false]
  cases harmed : s.tm.armed with
  | true =>
    refine ⟨s.free + 1, ?_⟩
    simp only [if_true]
    cases hn : s.tm.n with
    | none => exact setEdge_counted s
    | some n =>
      dsimp only
      rw [if_neg (Nat.not_lt.mpr (h n hn))]
      exact setEdge_counted s
  | false =>
    refine ⟨s.free, ?_⟩
    simp only [Bool.false_eq_true, if_false]
    cases hn : s.tm.n with
    | none =>
      rw [if_pos nofun]
      exact slewEdge_counted s
    | some n =>
      simp only [Option.some.injEq, forall_eq', Option.getD_some]
      rw [if_neg (c := n < 250000000) (Nat.not_lt.mpr (h n hn))]
      have hacc := edgeAccepted_counted s (errorNs s.tm)
      by_cases hlong : 750000000 ≤ n
      · rw [if_pos hlong, if_pos hlong]
        exact slewEdge_counted s
      · rw [if_neg hlong, if_neg hlong]
        by_cases hnear : 499500000 ≤ n ∧ n ≤ 500500000
        · rw [if_pos hnear, if_pos hnear, hacc.tm_eq]
          exact hacc.tm (rateTime s n)
        · rw [if_neg hnear, if_neg hnear]
          exact hacc.trans (ev_counted _ _)

/-- Settles O24: an accepted edge leaves the timestamp state its row gives and changes no more than an event does. -/
theorem ppsRows : Obligations.PpsRows := by
  intro s hr hc
  have hedge : exec .ppsEdge s = .next (ppsEdge s) := congrArg Host.Outcome.next (if_pos (by simp [hr, hc]))
  have hloss : exec .ppsLost s = .next (ppsLost s) := congrArg Host.Outcome.next (if_pos (by simp [hr, hc]))
  rw [hedge, hloss]
  refine ⟨fun hoff => ⟨congrArg _ (if_pos (by simp [hoff])), congrArg _ (if_pos (by simp [hoff]))⟩, fun hen => ⟨?glitch, ?accepted, ?lost, ?again⟩⟩
  case glitch =>
    intro n hn hlt
    refine congrArg _ ?_
    unfold ppsEdge
    rw [if_neg (by simp [hen]), hn]
    exact if_pos hlt
  case accepted =>
    intro h
    obtain ⟨f, hsent, hregs⟩ := ppsEdge_counted hen h
    refine ⟨_, rfl, Counted.tm_eq ⟨hsent, hregs⟩, ?_⟩
    obtain ⟨_, _, _, _, _, _, _, _, _, heq⟩ := hsent
    rw [heq] at hregs ⊢
    refine ⟨rfl, rfl, rfl, rfl, rfl, rfl, fun off hset => hregs off ?_⟩
    simp only [setupReg, Bool.and_eq_true, decide_eq_true_eq] at hset
    exact hset.1
  case lost => exact fun hl => congrArg _ (if_neg (by simp [hen, hl]))
  case again => exact fun hl => congrArg _ (if_pos (by simp [hl]))

end Sys2Proof.Machine
end

section
/-! The test access port (O23). -/

namespace Sys2Proof.Machine

open Sys2Proof

/-! ## Instructions selected (R578) -/

/-- The state with an instruction selected in the TAP or in the wrapper. -/
def irSelected (s : State) (wrapper : Bool) (ir : Nat) : State :=
  { s with sec := if wrapper then { s.sec with wrapIr := ir } else { s.sec with tapIr := ir } }

theorem tapInstruction_accepted {s : State} {wrapper : Bool} {ir : Nat} (h : debugLocked s = false ∨ tapAllowed s wrapper ir = true)
    (run : TestRun) : tapInstruction s wrapper ir run = testFunction (irSelected s wrapper ir) wrapper ir run := by
  have hok : (!debugLocked s || tapAllowed s wrapper ir) = true := by simpa using h
  unfold tapInstruction
  dsimp only
  rw [hok]
  rfl

theorem tapInstruction_denied {s : State} {wrapper : Bool} {ir : Nat} (hl : debugLocked s = true) (h : tapAllowed s wrapper ir = false)
    (run : TestRun) : tapInstruction s wrapper ir run =
      { s with sec := { (irSelected s wrapper 0).sec with debugDenied := satInc 8 s.sec.debugDenied } } := by
  unfold tapInstruction
  dsimp only
  rw [hl, h]
  cases wrapper <;> rfl

/-- No test function runs under BYPASS, IDCODE or the status instrument of the TAP. -/
theorem testFunction_idle (s : State) {ir : Nat} (h : ir = 0 ∨ ir = 1 ∨ ir = 2) (run : TestRun) : testFunction s false ir run = s := by
  rcases h with rfl | rfl | rfl <;> cases run <;> rfl

/-! ## MBIST (R605) -/

/-- Spare rows are assigned at the end of the list of those assigned. -/
theorem spareAssign_appends (s : State) (row : Nat × Nat × Nat) :
    ∃ more, spareAssign s row = { s with hl := { s.hl with spares := s.hl.spares ++ more } } := by
  have hsame : s = { s with hl := { s.hl with spares := s.hl.spares ++ [] } } := by rw [List.append_nil]
  unfold spareAssign
  dsimp only
  split
  · exact ⟨[], hsame⟩
  · split
    · exact ⟨[], hsame⟩
    · exact ⟨_, rfl⟩

theorem foldl_spareAssign_appends (rows : List (Nat × Nat × Nat)) (s : State) :
    ∃ more, rows.foldl spareAssign s = { s with hl := { s.hl with spares := s.hl.spares ++ more } } := by
  induction rows generalizing s with
  | nil => exact ⟨[], by rw [List.append_nil, List.foldl_nil]⟩
  | cons row rows ih =>
    obtain ⟨x, hx⟩ := spareAssign_appends s row
    obtain ⟨y, hy⟩ := ih (spareAssign s row)
    refine ⟨x ++ y, ?_⟩
    rw [List.foldl_cons, hy, hx, List.append_assoc]

/-- The state in which MBIST has recorded its failing rows and assigned spare rows, before the map is written. -/
def mbistFound (s : State) (rows : List (Nat × Nat × Nat)) (more : List (Nat × Nat × Nat × Nat)) : State :=
  { s with
    sec := { s.sec with mbist := (s.sec.mbist ++ rows.filter fun r => decide (r.1 < 16 ∧ r.2.1 < 16 ∧ r.2.2 < 128)).eraseDups }
    hl := { s.hl with spares := s.hl.spares ++ more } }

/-- The repair map is written where MBIST assigned a spare row, and there alone. -/
theorem mbistEnd_cases (s : State) (rows : List (Nat × Nat × Nat)) :
    mbistEnd s rows = mbistFound s rows [] ∨ ∃ more, more ≠ [] ∧ mbistEnd s rows = mapSave (mbistFound s rows more) := by
  unfold mbistEnd
  dsimp only
  obtain ⟨more, hmore⟩ := foldl_spareAssign_appends (rows.filter fun r => decide (r.1 < 16 ∧ r.2.1 < 16 ∧ r.2.2 < 128))
    { s with sec := { s.sec with mbist := (s.sec.mbist ++ rows.filter fun r => decide (r.1 < 16 ∧ r.2.1 < 16 ∧ r.2.2 < 128)).eraseDups } }
  rw [hmore]
  dsimp only
  by_cases hnone : more = []
  · subst hnone
    exact .inl (if_pos (by rw [List.append_nil]))
  · refine .inr ⟨more, hnone, if_neg fun hlen => hnone (List.length_eq_zero_iff.mp ?_)⟩
    rw [List.length_append] at hlen
    omega

theorem mem_mbistFound {s : State} {rows : List (Nat × Nat × Nat)} {more : List (Nat × Nat × Nat × Nat)} {b i j : Nat} :
    (b, i, j) ∈ (mbistFound s rows more).sec.mbist ↔ (b, i, j) ∈ s.sec.mbist ∨ ((b, i, j) ∈ rows ∧ b < 16 ∧ i < 16 ∧ j < 128) := by
  simp [mbistFound]

/-! ## Port EXTEST (R606) -/

theorem mem_badOnes {n : Nat} {driven captured : List Nat} {i : Nat} : i ∈ badOnes n driven captured ↔
    i < n ∧ ∃ k v, driven[k]? = some v ∧ v.testBit i ≠ (captured.getD k 0).testBit i := by
  simp only [badOnes, List.mem_filter, List.mem_range, List.any_eq_true, bne_iff_ne, Prod.exists, List.mem_zipIdx_iff_getElem?]
  exact and_congr_right fun _ => exists_comm

/-- Every port but the tether's has wires that EXTEST drives. -/
theorem portWires_ne_zero {p : Port} (h : p ≠ .tth) : portWires p ≠ 0 := by
  cases p
  case tth => exact absurd rfl h
  all_goals decide

/-- The wires recorded as failing once a port has been tested: its own anew, and those of other ports as before. -/
def wiresFound (s : State) (p : Port) (captured : List Nat) : List (Port × Nat) :=
  (s.sec.badWires.filter fun w => w.1 != p) ++ (badOnes (portWires p) (testVectors (portWires p)) captured).map fun i => (p, i)

theorem portExtest_eq {p : Port} (h : p ≠ .tth) (s : State) (captured : List Nat) : portExtest s p captured =
    { s with sec := { s.sec with badWires := wiresFound s p captured }, out := s.out ++ [.test p (testVectors (portWires p))] } :=
  if_neg (portWires_ne_zero h)

theorem mem_wiresFound_self {s : State} {p : Port} {captured : List Nat} {i : Nat} :
    (p, i) ∈ wiresFound s p captured ↔ i ∈ badOnes (portWires p) (testVectors (portWires p)) captured := by
  simp [wiresFound]

theorem mem_wiresFound_other {s : State} {p q : Port} {captured : List Nat} {i : Nat} (h : q ≠ p) :
    (q, i) ∈ wiresFound s p captured ↔ (q, i) ∈ s.sec.badWires := by
  simp [wiresFound, h, Ne.symm h]

/-- Settles O23: an instruction accepted is selected and runs its test function; one denied selects BYPASS and is counted. -/
theorem tapRow : Obligations.TapRow := by
  refine ⟨fun ir s hopen => ⟨?_, ?_⟩, fun wrapper ir run s hl hdeny => ?denied, fun ir run s _ hir => ?idle, fun rows s hopen => ?mbist,
    fun p captured s hopen hp => ?extest⟩
  · exact congrArg Host.Outcome.next (tapInstruction_accepted (.inl hopen) .none)
  · exact congrArg Host.Outcome.next (tapInstruction_accepted (.inl hopen) .none)
  case denied =>
    refine congrArg Host.Outcome.next ((tapInstruction_denied hl hdeny run).trans ?_)
    cases wrapper <;> rfl
  case idle =>
    have hallowed : tapAllowed s false ir = true := by rcases hir with rfl | rfl | rfl <;> rfl
    exact congrArg Host.Outcome.next ((tapInstruction_accepted (.inr hallowed) run).trans (testFunction_idle _ hir run))
  case mbist =>
    have hrow : exec (.tapInstruction false 4 (.mbist rows)) s = .next (mbistEnd (irSelected s false 4) rows) :=
      congrArg Host.Outcome.next (tapInstruction_accepted (.inl hopen) (.mbist rows))
    refine ⟨_, hrow, ?_⟩
    rcases mbistEnd_cases (irSelected s false 4) rows with hend | ⟨more, hmore, hend⟩
    · rw [hend]
      have hspares : (mbistFound (irSelected s false 4) rows []).hl.spares = s.hl.spares := List.append_nil _
      exact ⟨rfl, fun _ _ _ => mem_mbistFound, by rw [hspares], rfl, fun _ => ⟨rfl, rfl⟩, fun h => absurd hspares h, rfl, rfl, rfl⟩
    · have hsaved : MapSaved s (mapSave (mbistFound (irSelected s false 4) rows more)) :=
        mapSaved_mapSave (mbistFound (irSelected s false 4) rows more)
      obtain ⟨_, _, _, _, _, _, _, _, _, _, _, hentered⟩ := mapSave_entered (mbistFound (irSelected s false 4) rows more)
      have hspares : (mbistEnd (irSelected s false 4) rows).hl.spares = s.hl.spares ++ more := by rw [hend, hentered]; rfl
      rw [hend] at hspares ⊢
      refine ⟨?_, ?_, hspares ▸ List.prefix_append _ _, ?_, fun h => absurd (List.append_right_eq_self.mp (hspares.symm.trans h)) hmore,
        fun _ => hsaved, ?_, ?_, ?_⟩
      · rw [hentered]; rfl
      · rw [hentered]; exact fun _ _ _ => mem_mbistFound (more := more)
      all_goals rw [hentered]; rfl
  case extest =>
    have hrow : exec (.tapInstruction true 1 (.extest [(p, captured)])) s = .next (portExtest (irSelected s true 1) p captured) :=
      congrArg Host.Outcome.next (tapInstruction_accepted (.inl hopen) (.extest [(p, captured)]))
    rw [hrow, portExtest_eq hp]
    exact ⟨_, rfl, rfl, fun i => mem_wiresFound_self.trans mem_badOnes, fun q i hq => mem_wiresFound_other hq, rfl⟩

end Sys2Proof.Machine
end


section
/-! Frames that the ring stop does not take, the cold reset, clocks and plan lock (O17, O22, O28). -/

namespace Sys2Proof.Machine

open Sys2Proof

variable {s t : State}

/-! ## Frames (R50, R52, R468) -/

/-- A row that carries a frame meets the ring stop before it acts. -/
theorem exec_frame {c : Instr} {f : Frame} (h : frameOf c = some f) : ∃ g, ∀ s, exec c s = .next (hdrGate s f g) := by
  cases c
  case fenceFrame | hdrAck | oppointSet | stressSet | retireGo | regReading | timeSeconds =>
    obtain rfl := Option.some.inj h
    exact ⟨_, fun _ => rfl⟩
  all_goals cases h

/-- Settles O28: every row that carries a frame meets the stop first, which passes on, discards or counts what it does not take. -/
theorem framesPassOn : Obligations.FramesPassOn := by
  intro c f s hc
  obtain ⟨g, hrow⟩ := exec_frame hc
  rw [hrow]
  refine ⟨fun hm hb h1 h2 => ?_, fun hm h1 => ?_, fun hm hb => ?_, fun ht hn => ?_⟩
  · rw [hdrGate_active hm hb h1 h2]
  · rw [hdrGate_passive hm h1]
  · exact congrArg Host.Outcome.next (hdrGate_bad hm hb g)
  · rw [hdrGate_untaken ht hn]

/-! ## Cold reset and CLK_AON (R38, R50, R554, R561) -/

/-- With no frame kept the stop sends none as it becomes ACTIVE. -/
theorem sendHeld_none (h : s.hd.unacked = []) : sendHeld s = s := by
  have hhd : { s.hd with unacked := [] } = s.hd := by rw [← h]
  simp [sendHeld, h, hhd]

/-- Settles O17: a cold reset builds its state anew but for what the ledger and the fuses hold, and the stop's clock and supply change the
stop's mode alone. -/
theorem coldResetRows : Obligations.ColdResetRows := by
  refine ⟨fun s h => ?_, fun s => rfl, fun s => ⟨_, rfl, rfl, rfl, rfl, rfl, rfl, rfl, rfl⟩, fun s hoff hquiet => ?_,
    fun s hoff hf hp hfuse hnone => ?_⟩
  · have hrow : exec .rstNAssert s = .next (coldState s) := congrArg Host.Outcome.next (if_pos h)
    exact ⟨_, hrow, rfl, rfl, rfl, rfl, if_pos h, rfl, rfl, rfl, rfl, rfl, rfl, rfl, rfl, rfl, rfl, rfl, rfl, rfl, rfl, rfl, rfl, rfl⟩
  · have hstop : (s.hd.fenced || s.pw.pstate == Ps.reset || s.pw.fusedOff) = true := by
      rcases hquiet with h | h | h <;> simp [h]
    refine congrArg Host.Outcome.next ((if_neg (ne_true_of_eq_false hoff)).trans ?_)
    simp only [hstop, if_true]
  · have hstop : (s.hd.fenced || s.pw.pstate == Ps.reset || s.pw.fusedOff) = false := by simp [hf, hp, hfuse]
    refine congrArg Host.Outcome.next ((if_neg (ne_true_of_eq_false hoff)).trans ?_)
    simp only [hstop, Bool.false_eq_true, if_false]
    exact sendHeld_none hnone

/-! ## Clocks and plan lock (R31 to R34, R227, R451) -/

theorem exec_clockAbsent {clk : Nat} (h : alive s = true) (hclk : clk < 5) (hon : s.pw.clocks.getLsbD clk = true) :
    exec (.clockAbsent clk) s = .next (clockAbsent s clk) := congrArg Host.Outcome.next (if_pos (by simp [h, hclk, hon]))

/-- The loss of a clock but the reference of the tether is recorded, then fences the slice (R451). -/
theorem clockAbsent_fences (s : State) {clk : Nat} (hclk : clk ≠ 0) : ∃ u, clockAbsent s clk = advance (fence u 5) ∧
    u.pw = { s.pw with clocks := clocksWithout s.pw.clocks clk, planLock := s.pw.planLock && decide (clk < 2) } ∧
    u.hd.fenced = s.hd.fenced := by
  refine ⟨_, if_pos hclk, ?_⟩
  obtain ⟨_, _, _, _, _, _, _, _, _, hd, _, htold, hfenced, -⟩ := postError_told { s with pw := { s.pw with
    clocks := clocksWithout s.pw.clocks clk, planLock := s.pw.planLock && decide (clk < 2) } } St.clockLost
    { unit := 14, action := if clk = 0 then 0 else 9, detector := 10, detail := (clocksWithout s.pw.clocks clk).toNat }
  rw [htold]
  exact ⟨rfl, hfenced⟩

/-- The loss of the reference of a DISABLED tether ends in its error record. -/
theorem clockAbsent_reference (h : s.tt.link = 0) : clockAbsent s 0 = postError { s with pw := { s.pw with
    clocks := s.pw.clocks &&& ~~~1#5 } } St.clockLost { unit := 14, detector := 10, detail := (s.pw.clocks &&& ~~~1#5).toNat } := by
  have hlink : ∀ u e, (postError u St.clockLost e).tt = u.tt := by
    intro u e
    obtain ⟨_, _, _, _, _, _, _, _, _, _, _, h, -⟩ := postError_told u St.clockLost e
    rw [h]
  simp [clockAbsent, hlink, h, clocksWithout]

theorem advance_clocks (s : State) : (advance s).pw.clocks = s.pw.clocks := by
  have h := (advance_keeps (gr := fun _ => true) (Keeps.refl _ s)).pins rfl
  simpa [pinsOf] using congrArg Power.clocks h

theorem fence_clocks (s : State) (r : Nat) : (fence s r).pw.clocks = s.pw.clocks := by
  have h := (fence_keeps (gr := fun _ => true) (reason := r) (Keeps.refl _ s)).pins rfl
  simpa [pinsOf] using congrArg Power.clocks h

/-- Settles O22: the loss of a clock is recorded before the fence it leads to, and plan lock is lost and taken by itself. -/
theorem clockRows : Obligations.ClockRows := by
  refine ⟨fun s ha hon hlink => ?_, fun clk s ha h1 h5 hon hf => ?_, fun s h => congrArg Host.Outcome.next (if_pos h),
    fun s ha hcore hclk h2 h4 => congrArg Host.Outcome.next (if_pos ?_)⟩
  · rw [exec_clockAbsent ha (by decide) hon, clockAbsent_reference hlink]
  · obtain ⟨u, habsent, hpw, hu⟩ := clockAbsent_fences s (Nat.one_le_iff_ne_zero.mp h1)
    obtain ⟨hfence, hreason, hp, hready⟩ := advance_fence_new (hu.trans hf) (by rw [hpw]; exact rstN_of_alive ha) 5
    refine ⟨_, exec_clockAbsent ha h5 hon, habsent ▸ hfence, habsent ▸ hreason, habsent ▸ hp, habsent ▸ hready, ?_⟩
    rw [habsent, advance_clocks, fence_clocks, hpw]
  · simp [ha, hcore, hclk, h2, h4]

end Sys2Proof.Machine
end


section
/-! The start of the slice (O18). -/

namespace Sys2Proof.Machine

open Sys2Proof

variable {s t : State}

/-! ## Tables and registers over a reset -/

/-- A read after a change of every value that leaves the default as it is. -/
theorem SMap.get_mapVals {α : Type} [DecidableEq α] {d : α} {f : Nat → α → α} (hd : ∀ k, f k d = d) {m : SMap α}
    (h : SMap.wf d m = true) (i : Nat) : SMap.get d (SMap.mapVals d f m) i = f i (SMap.get d m i) := by
  induction m with
  | nil => exact (hd i).symm
  | cons e r ih =>
    obtain ⟨k, v⟩ := e
    obtain ⟨habove, -, hr⟩ := SMap.wf_cons.1 h
    have hnone : i = k → SMap.get d r i = d := fun hi => SMap.get_of_above (by omega) habove
    simp only [SMap.mapVals, SMap.get]
    split
    next hv =>
      rw [ih hr]
      split
      next hi => rw [hnone hi, hd, hi, hv]
      · rfl
    · simp only [SMap.get]
      split
      next hi => rw [hi]
      · exact ih hr

/-- A change that leaves each value listed as it is, none the default, leaves the table. -/
theorem SMap.mapVals_of_fixed {α : Type} [DecidableEq α] {d : α} {f : Nat → α → α} {m : SMap α}
    (h : ∀ e ∈ m, f e.1 e.2 = e.2 ∧ e.2 ≠ d) : SMap.mapVals d f m = m := by
  induction m with
  | nil => rfl
  | cons e r ih =>
    obtain ⟨hv, hne⟩ := h e List.mem_cons_self
    rw [SMap.mapVals, hv, if_neg hne, ih fun x hx => h x (List.mem_cons_of_mem _ hx)]

/-- Registers written one after another at different places: one of them reads what its own write leaves. -/
theorem csrGet_foldl_csrPut {off : Nat → Nat} (f : Nat → Nat) (hinj : ∀ i j, off i = off j → i = j) {l : List Nat} (hnd : l.Nodup) (s : State)
    {n : Nat} (hn : n ∈ l) :
    csrGet (l.foldl (fun s n => csrPut s (off n) (f (csrGet s (off n)))) s) (off n) = f (csrGet s (off n)) % 2 ^ 64 := by
  have hother : ∀ (l : List Nat) (s : State), n ∉ l →
      csrGet (l.foldl (fun s n => csrPut s (off n) (f (csrGet s (off n)))) s) (off n) = csrGet s (off n) := by
    intro l
    induction l with
    | nil => exact fun _ _ => rfl
    | cons k l ih =>
      intro s hk
      obtain ⟨hne, hl⟩ := not_or.mp (List.mem_cons.not.mp hk)
      rw [List.foldl_cons, ih _ hl, csrGet_csrPut_ne fun h => hne (hinj _ _ h)]
  induction l generalizing s with
  | nil => cases hn
  | cons k l ih =>
    obtain ⟨hk, hl⟩ := List.nodup_cons.mp hnd
    rw [List.foldl_cons]
    rcases List.mem_cons.mp hn with rfl | hn
    · rw [hother l _ hk, csrGet_csrPut_self]
    · rw [ih hl _ hn, csrGet_csrPut_ne fun h => hk ((hinj n k h) ▸ hn)]

/-- A register below the event rings' reads what the rings' enables leave of it. -/
theorem csrGet_foldl_evrings {off : Nat} (h : off < 0x2008) (l : List Nat) (s : State) :
    csrGet (l.foldl (fun s n => csrPut s (0x2008 + 32 * n) (csrGet s (0x2008 + 32 * n) &&& (2 ^ 31 - 1))) s) off = csrGet s off := by
  induction l generalizing s with
  | nil => rfl
  | cons n l ih => rw [List.foldl_cons, ih, csrGet_csrPut_ne (by omega)]

/-- The logic reset disables every command ring (R554). -/
theorem ringEnabled_csrReset (s : State) {n : Nat} (hn : n < 64) : ringEnabled (csrReset s) n = false := by
  unfold csrReset ringEnabled csrBit
  dsimp only
  rw [csrGet_foldl_evrings (by omega),
    csrGet_foldl_csrPut (off := fun n => 0x1018 + 64 * n) (f := fun v => v &&& (2 ^ 31 - 1)) (fun i j h => by omega)
      List.nodup_range _ (List.mem_range.mpr hn)]
  generalize csrGet _ _ = v
  rw [Nat.testBit_mod_two_pow, Nat.testBit_and, Nat.testBit_two_pow_sub_one]
  simp

/-- What a start clears is no more than registers. -/
theorem csrReset_eq (s : State) : ∃ r, csrReset s = { s with csr := r } := by
  have hput : ∀ (off : Nat → Nat) (f : State → Nat → Nat) (l : List Nat) (t : State), t = { s with csr := t.csr } →
      l.foldl (fun s n => csrPut s (off n) (f s n)) t = { s with csr := (l.foldl (fun s n => csrPut s (off n) (f s n)) t).csr } := by
    intro off f l
    induction l with
    | nil => exact fun _ h => h
    | cons n l ih => exact fun t h => ih _ (by rw [h]; rfl)
  unfold csrReset
  exact ⟨_, hput _ (fun s n => csrGet s (0x2008 + 32 * n) &&& (2 ^ 31 - 1)) _ _
    (hput _ (fun s n => csrGet s (0x1018 + 64 * n) &&& (2 ^ 31 - 1)) _ _ rfl)⟩

/-! ## What goes on again after a pause -/

theorem resumeRings_none (h : ∀ n < 64, ringEnabled s n = false) : resumeRings s = s := by
  have hnone : (List.range 64).filter (ringEnabled s) = [] :=
    List.filter_eq_nil_iff.mpr fun n hn => ne_true_of_eq_false (h n (List.mem_range.mp hn))
  rw [resumeRings, hnone]
  rfl

theorem linkResume_off (h : s.tt.link = 0) (hen : csrBit s 0xA00 31 = false) : linkResume s = s := by
  simp [linkResume, h, hen]

theorem deliver_none (h : s.held = []) : deliver s = s := by
  have hs : { s with held := [] } = s := by rw [← h]
  rw [deliver, h, List.foldl_nil, hs]

theorem sendCh_csr (s : State) (c : Nat) (o : Out) : (sendCh s c o).csr = s.csr := by
  unfold sendCh
  dsimp only
  split
  · rfl
  · exact drive_csr _ _

theorem Counted.refl (s : State) : Counted s s := ⟨.refl s, fun _ _ => rfl⟩

theorem Counted.foldl {β : Type} {f : State → β → State} (hf : ∀ s b, Counted s (f s b)) (l : List β) (s : State) :
    Counted s (l.foldl f s) := by
  induction l generalizing s with
  | nil => exact .refl s
  | cons b l ih => exact (hf s b).trans (ih _)

theorem sendCh_counted (s : State) (c : Nat) (o : Out) : Counted s (sendCh s c o) :=
  ⟨sendCh_sent s c o, fun off _ => csrGet_of_csr (sendCh_csr s c o) off⟩

theorem txDrain_counted (s : State) : Counted s (txDrain s) :=
  Counted.trans (t := { s with txq := [] }) ⟨⟨_, _, _, _, _, _, _, _, _, rfl⟩, fun _ _ => rfl⟩
    (Counted.foldl (fun t e => sendCh_counted t e.1 e.2) s.txq _)

theorem irqRaise_counted (s : State) (v : Nat) : Counted s (irqRaise s v) :=
  ⟨irqRaise_sent s v, fun off _ => csrGet_of_csr (irqRaise_csr s v) off⟩

theorem irqWake_counted (s : State) : Counted s (irqWake s) := by
  have hraise : ∀ (t : State) (e : Nat × Irq), Counted t (irqRaise t e.1) := fun t e => irqRaise_counted t e.1
  exact Counted.foldl hraise (s.rg.irqs.filter fun e => e.2.pending) s

theorem Counted.ringEnabled (h : Counted s t) {n : Nat} (hn : n < 64) : ringEnabled t n = ringEnabled s n :=
  congrArg (Nat.testBit · 31) (h.2 (0x1018 + 64 * n) (by omega))

theorem Counted.csrBit (h : Counted s t) {off : Nat} (hoff : off < 0x4820) (i : Nat) : csrBit t off i = csrBit s off i :=
  congrArg (Nat.testBit · i) (h.2 off hoff)

/-- A settled slice is settled whatever its power state is, but that the frame of its registers and time is not spoken of. -/
theorem Settled.power (h : Settled s) (p : Power) : Settled { s with pw := p } := { h with }

theorem Settled.driven (h : Settled s) (o : List Out) : Settled { s with out := o } := { h with }

/-! ## Starts (R37, R48, R551, R552) -/

/-- A start that waits at step 4 goes beyond it where nothing holds it. -/
theorem startGo_ready (hp : s.pw.pstate = 1) (hstep : s.pw.startStep = 4) (hclk : s.pw.clocks = BitVec.allOnes 5) (hflow : s.pw.flowStop = false)
    (hcore : s.pw.coreDown = false) : startGo s = { s with pw := { s.pw with planLock := true, startStep := 6 } } :=
  if_pos ⟨hp, hstep, hclk, by simp [hflow], by simp [hcore]⟩

theorem startGo_waits (h : s.pw.pstate ≠ 1 ∨ s.pw.startStep ≠ 4 ∨ s.pw.clocks ≠ BitVec.allOnes 5 ∨ s.pw.flowStop = true ∨ s.pw.coreDown = true) :
    startGo s = s := by
  refine if_neg ?_
  rintro ⟨h1, h2, h3, h4, h5⟩
  rcases h with h | h | h | h | h <;> simp_all

/-- The start a state at step 4 makes changes the power state alone. -/
theorem startGo_eq (s : State) : startGo s = { s with pw := (startGo s).pw } := by
  unfold startGo
  split <;> rfl

/-- The step that a start reaches as it begins. -/
theorem startGo_startStep (hp : s.pw.pstate = 1) (hstep : s.pw.startStep = 4) : (startGo s).pw.startStep =
    if s.pw.clocks = BitVec.allOnes 5 ∧ s.pw.flowStop = false ∧ s.pw.coreDown = false then 6 else 4 := by
  by_cases h : s.pw.clocks = BitVec.allOnes 5 ∧ s.pw.flowStop = false ∧ s.pw.coreDown = false
  · obtain ⟨hclk, hflow, hcore⟩ := h
    rw [startGo_ready hp hstep hclk hflow hcore, if_pos ⟨hclk, hflow, hcore⟩]
  · rw [startGo_waits, if_neg h, hstep]
    by_contra hno
    simp only [not_or, Bool.not_eq_true, ne_eq, not_not] at hno
    exact h hno.2.2

/-- The power state of a start but for the step it has reached and plan lock. -/
theorem startGo_pw (s : State) : ∃ l k, (startGo s).pw = { s.pw with planLock := l, startStep := k } := by
  unfold startGo
  split <;> exact ⟨_, _, rfl⟩

/-- The state in which the control island of a slice not fused off has booted (R37, R551). -/
def booted (s : State) (chip die sliceId : Nat) : State := { s with
  pw := { s.pw with rstN := true, chip := chip % 64, die := die % 8, sliceId := sliceId % 32, fusedOff := false, bakPresent := true,
                    pstate := 1, startKind := 0, startStep := 4, startAt := s.now }
  hd := { s.hd with mode := 0 }
  hl := { s.hl with powerOns := s.hl.powerOns + 1 } }

theorem boot_live (hgrade : s.pw.grade ≠ 3) (hdebug : s.pw.debugFuse = false) (chip die sliceId : Nat) :
    boot s chip die sliceId = startGo (booted s chip die sliceId) := by
  have hfuse : (s.pw.grade == 3) = false := by simp [hgrade]
  unfold boot booted
  simp only [hfuse, hdebug, Bool.false_eq_true, if_false]

/-- A cold start ended: SLICE_READY high, the receive credits returned (R268, R551). -/
def started (s : State) : State := { s with
  pw := { s.pw with pstate := 2, ready := true, arrDown := false, bakPresent := s.pw.bakPresent || s.pw.onBak
                    startNs := min ((s.now - s.pw.startAt) / 2) (2 ^ 32 - 1) }
  out := s.out ++ startCredits }

theorem startEnd_cold (h : s.pw.startKind = 0) :
    startEnd s = advance (raiseAgain (resumeRings (linkResume (started s)))) := by
  have hcold : (s.pw.startKind = 0) = True := eq_true h
  unfold startEnd
  simp only [hcold, decide_true, Bool.not_true, Bool.and_false, Bool.false_eq_true, if_false, if_true]
  rfl

/-- Requests for retirement that nothing backs are not raised again (R507). -/
theorem raiseAgain_none (hways : waysDisabled s < 5) (hbanks : ∀ b < 16, usableWays s b ≠ [])
    (hlog : ((s.hl.histRing.map (·.2) ++ s.hl.ledWait).all fun e =>
      !(e.kind == 4 && e.history == 2) && !(e.kind == 8 && e.subject == 6)) = true) : raiseAgain s = s := by
  have hempty : ((List.range 16).any fun b => (usableWays s b).isEmpty) = false := by
    simpa [List.any_eq_false, List.mem_range, List.isEmpty_iff] using hbanks
  have hnone : ∀ p : LedEnt → Bool,
      (∀ e : LedEnt, (!(e.kind == 4 && e.history == 2) && !(e.kind == 8 && e.subject == 6)) = true → p e = false) →
      ((s.hl.histRing.any fun e => p e.2) || s.hl.ledWait.any p) = false := by
    intro p hp
    rw [List.all_append, Bool.and_eq_true, List.all_map] at hlog
    rw [Bool.or_eq_false_iff, List.any_eq_false, List.any_eq_false]
    exact ⟨fun e he => ne_true_of_eq_false (hp _ (List.all_eq_true.mp hlog.1 e he)),
      fun e he => ne_true_of_eq_false (hp _ (List.all_eq_true.mp hlog.2 e he))⟩
  unfold raiseAgain
  simp only [if_neg (Nat.not_le.mpr hways), hempty, hnone (fun e => e.kind == 4 && e.history == 2) (fun e he => by
    exact (Bool.not_eq_true' _).mp (Bool.and_eq_true_iff.mp he).1), hnone (fun e => e.kind == 8 && e.subject == 6) (fun e he => by
    exact (Bool.not_eq_true' _).mp (Bool.and_eq_true_iff.mp he).2), Bool.false_eq_true, if_false, ge_iff_le]

/-- The MEM writes not yet issued: a quiesce withdraws the reads (R555). -/
def memWritesLeft (qs : List MemReq) : List MemReq := qs.filter fun q => match q with | .wr _ _ _ => true | .rd _ => false

/-- WARM_QUIESCE begins with the plan aborted, the open lines closed and the MEM reads withdrawn (R555). -/
theorem quiesceStart_eq {u v : State} (hu : u = planAbort { s with pw := { s.pw with ready := false, pstate := 5, wrstHeld := false } } 6)
    (hv : v = u.arr.opens.foldl (fun w o => closeLine w o.line) u) :
    quiesceStart s = advance { v with arr := { v.arr with memq := memWritesLeft v.arr.memq } } := by
  subst hu hv
  rfl

/-- A slice in WARM_QUIESCE with its MEM writes alone still to be issued. -/
def quiescing (s : State) : State := { s with
  pw := { s.pw with ready := false, pstate := 5, wrstHeld := false }, arr := { s.arr with memq := memWritesLeft s.arr.memq } }

theorem Settled.quiescing (h : Settled s) : Settled (quiescing s) := { h with }

/-- A settled serving slice without a plan or open line goes to WARM_QUIESCE at once (R555). -/
theorem quiesceStart_settled (hset : Settled s) (hflow : s.pw.flowStop = false) (hidle : s.pl.st = 0) (hopen : s.arr.opens = []) :
    quiesceStart s = quiescing s := by
  have habort : planAbort { s with pw := { s.pw with ready := false, pstate := 5, wrstHeld := false } } 6 =
      { s with pw := { s.pw with ready := false, pstate := 5, wrstHeld := false } } := by simp [planAbort, hidle]
  exact (quiesceStart_eq habort.symm (congrArg (List.foldl _ _) hopen).symm).trans (advance_settled_high hset.quiescing hflow)

/-- WRST_N of an unfenced serving slice with FLOW_STOP_N high begins the quiesce (R555). -/
theorem exec_wrstNAssert_serving (hr : s.pw.rstN = true) (hclk : s.pw.clkAon = true) (hf : s.hd.fenced = false)
    (hflow : s.pw.flowStop = false) (hp : s.pw.pstate = 2) : exec .wrstNAssert s = .next (quiesceStart s) := by
  refine congrArg Host.Outcome.next ?_
  simp [controlRuns, hr, hclk, hflow, warmReset, hf, hp, Ps.serving]

/-- The power state as a warm start or a re-entry begins. -/
theorem retainedState_pw (s : State) (kind : Nat) : (retainedState s kind).pw = { s.pw with
    pstate := 1, ready := false, startKind := kind, startStep := 4, startAt := s.now, coreDown := false, arrStopped := false,
    quiesced := false, wrstHeld := false, flowEntered := false, planLock := false } := by
  obtain ⟨r, hr⟩ := csrReset_eq s
  unfold retainedState
  rw [hr]

theorem retainedState_tt (s : State) (kind : Nat) : (retainedState s kind).tt = s.tt := by
  obtain ⟨r, hr⟩ := csrReset_eq s
  unfold retainedState
  rw [hr]

theorem logicReset_eq (s : State) (kind : Nat) : logicReset s kind =
    if s.tt.link = 0 then retainedState s kind else linkDown (retainedState s kind) 4 s.tt.downReason := by
  unfold logicReset
  simp only [retainedState_tt]

/-- The rows that begin a warm start or a re-entry with the arrays intact (R552). -/
def Restarts (c : Instr) (s : State) : Prop :=
  (c = .quiesceDone ∧ s.pw.pstate = 5 ∧ s.pw.flowStop = false ∧ quiet s = true) ∨
    (c = .reEntry ∧ s.pw.pstate = 4 ∧ s.pw.coreDown = true ∧ s.pw.arrDown = false ∧ s.pw.flowStop = false)

/-- The kind of start such a row begins. -/
def restartKind (c : Instr) : Nat := if c = .reEntry then 2 else 1

/-- The rails as such a row leaves them: a re-entry records that the one which feeds the arrays is present (R49). -/
def railed (c : Instr) (s : State) : State :=
  if c = .reEntry then { s with pw := { s.pw with bakPresent := s.pw.bakPresent || s.pw.onBak } } else s

/-- The state such a row leaves before the link goes DOWN and the start goes on. -/
def restarted (c : Instr) (s : State) : State := retainedState (railed c s) (restartKind c)

/-- Both rows run the logic reset and go on with the start. -/
theorem exec_restart {c : Instr} (h : Restarts c s) :
    exec c s = .next (startGo (if s.tt.link = 0 then restarted c s else linkDown (restarted c s) 4 s.tt.downReason)) := by
  rcases h with ⟨rfl, hp, hflow, hquiet⟩ | ⟨rfl, hp, hcore, harr, hflow⟩
  · have hrow : exec .quiesceDone s = .next (startGo (logicReset s 1)) :=
      congrArg Host.Outcome.next (if_pos ⟨hp, by simp [hflow], hquiet⟩)
    rw [hrow, logicReset_eq]
    rfl
  · have hrow : exec .reEntry s = .next (Machine.reEntry s) :=
      congrArg Host.Outcome.next ((if_pos hp).trans (if_pos (by simp [hcore, hflow])))
    have hgo : Machine.reEntry s = startGo (logicReset { s with pw := { s.pw with bakPresent := s.pw.bakPresent || s.pw.onBak } } 2) :=
      congrArg startGo (if_neg (ne_true_of_eq_false harr))
    rw [hrow, hgo, logicReset_eq, restarted, railed, restartKind, if_pos rfl, if_pos rfl]

/-- A restart whose FLOW_STOP_N is high waits for the clocks alone. -/
theorem restarted_startGo (c : Instr) (hflow : s.pw.flowStop = false) : (startGo (restarted c s)).pw.pstate = 1 ∧
    (startGo (restarted c s)).pw.startKind = restartKind c ∧ (startGo (restarted c s)).pw.startAt = s.now ∧
    (startGo (restarted c s)).pw.coreDown = false ∧
    (startGo (restarted c s)).pw.startStep = if s.pw.clocks = BitVec.allOnes 5 then 6 else 4 := by
  have hrail : (railed c s).now = s.now ∧ (railed c s).pw.clocks = s.pw.clocks ∧ (railed c s).pw.flowStop = s.pw.flowStop := by
    unfold railed
    split <;> exact ⟨rfl, rfl, rfl⟩
  obtain ⟨hnow, hclk, hflow'⟩ := hrail
  have hpw : (restarted c s).pw = _ := retainedState_pw (railed c s) (restartKind c)
  have hstep := startGo_startStep (s := restarted c s) (by rw [hpw]) (by rw [hpw])
  obtain ⟨l, k, hgo⟩ := startGo_pw (restarted c s)
  refine ⟨?_, ?_, ?_, ?_, ?_⟩
  · rw [hgo, hpw]
  · rw [hgo, hpw]
  · rw [hgo, hpw]; exact hnow
  · rw [hgo, hpw]
  · rw [hstep, hpw]
    simp [hclk, hflow', hflow]

/-- Settles O18: a start goes beyond step 4 where nothing holds it, ends where nothing is left to go on with, and every restart begins one. -/
theorem startRows : Obligations.StartRows := by
  refine ⟨?boot, ?clock, ?lastClock, ?complete, ?warm, ?quiesced, ?reEntered, ?coreBack⟩
  case boot =>
    intro chip die sliceId s hr hclk hgrade hdebug
    have hrow : exec (.rstNRelease chip die sliceId) s = .next (boot s chip die sliceId) := congrArg Host.Outcome.next (if_pos (by simp [hr, hclk]))
    obtain ⟨l, k, hpw⟩ := startGo_pw (booted s chip die sliceId)
    have hstep := startGo_startStep (s := booted s chip die sliceId) rfl rfl
    rw [boot_live hgrade hdebug, startGo_eq] at hrow
    refine ⟨_, hrow, ?_, ?_, ?_, ?_, ?_, ?_, rfl, rfl, rfl, rfl, rfl, hstep⟩
    all_goals rw [hpw]; rfl
  case clock =>
    intro clk s h5 hr hclk hp
    refine congrArg Host.Outcome.next ((if_pos ⟨h5, by simp [controlRuns, hr, hclk]⟩).trans ?_)
    exact startGo_waits (.inl hp)
  case lastClock =>
    intro clk s h5 hr hclk hp hstep hall hflow hcore
    refine congrArg Host.Outcome.next ((if_pos ⟨h5, by simp [controlRuns, hr, hclk]⟩).trans ?_)
    rw [hall]
    exact startGo_ready hp hstep rfl hflow hcore
  case complete =>
    intro s hp hstep hkind hflow hcore harr hset hlink hen hrings hways hbanks hlog
    refine congrArg Host.Outcome.next ((if_pos ⟨hp, hstep, by simp [hflow], by simp [hcore], by simp [harr]⟩).trans ?_)
    rw [startEnd_cold hkind, linkResume_off (s := started s) hlink hen, resumeRings_none (s := started s) hrings,
      raiseAgain_none (s := started s) hways hbanks hlog]
    exact advance_settled_high { hset with } hflow
  case warm =>
    intro s hr hclk hf hflow hp hset hidle hopen
    exact ⟨_, (exec_wrstNAssert_serving hr hclk hf hflow hp).trans
      (congrArg Host.Outcome.next (quiesceStart_settled hset hflow hidle hopen)), rfl, rfl, rfl, rfl, rfl, rfl⟩
  case quiesced =>
    intro s hp hflow hquiet hlink
    have hrow := exec_restart (c := .quiesceDone) (.inl ⟨rfl, hp, hflow, hquiet⟩)
    rw [if_pos hlink] at hrow
    obtain ⟨hp', hkind, hat, -, hstep⟩ := restarted_startGo .quiesceDone hflow
    exact ⟨_, hrow, hp', hkind, hat, hstep⟩
  case reEntered =>
    intro s hp hcore harr hflow hlink
    have hrow := exec_restart (c := .reEntry) (.inr ⟨rfl, hp, hcore, harr, hflow⟩)
    rw [if_pos hlink] at hrow
    obtain ⟨hp', hkind, hat, hcore', hstep⟩ := restarted_startGo .reEntry hflow
    exact ⟨_, hrow, hp', hkind, hat, hcore', hstep⟩
  case coreBack =>
    intro s hp hcore
    have hrow : exec .reEntry s = .next (startGo { s with pw := { s.pw with coreDown := false } }) :=
      congrArg Host.Outcome.next ((if_neg (by rw [hp]; decide)).trans (if_pos ⟨hp, hcore⟩))
    obtain ⟨l, k, hpw⟩ := startGo_pw { s with pw := { s.pw with coreDown := false } }
    refine ⟨_, hrow, ?_, ?_, startGo_eq _⟩
    · rw [hpw]
    · rw [hpw]; exact hp

end Sys2Proof.Machine
end


section
/-! Warm reset and re-entry (O19). -/

namespace Sys2Proof.Machine

open Sys2Proof

variable {s t : State}

/-! ## Warm reset and re-entry (R60, R549 to R555) -/

/-- What a warm start or a re-entry keeps, and what it empties (R554). -/
structure Retained (s u : State) : Prop where
  lines : u.arr.lines = s.arr.lines
  evicts : u.arr.evicts = s.arr.evicts
  opens : u.arr.opens = s.arr.opens
  lasts : u.arr.lasts = SMap.mapVals {} (fun _ l => if l.cond = 3 then { l with cond := 2 } else l) s.arr.lasts
  sf : u.coh.sf = s.coh.sf
  ari : u.ari = s.ari
  banks : u.pl.banks = s.pl.banks
  active : u.pl.active = s.pl.active
  idle : u.pl.st = 0
  reason : u.pl.stopReason = 6
  ctxs : u.gen.ctxs = SMap.mapVals {} (fun _ (x : Ctx) => { x with resuming := false }) s.gen.ctxs
  rings : u.gen.rings = s.gen.rings
  fenced : u.hd.fenced = s.hd.fenced
  unacked : u.hd.unacked = s.hd.unacked
  tm : u.tm = s.tm
  sec : u.sec = s.sec
  mirrors : u.pr.mirrors = s.pr.mirrors
  cmds : u.rg.cmds = []
  held : u.held = []
  out : u.out = s.out

theorem retainedState_retained (s : State) (kind : Nat) : Retained s (retainedState s kind) := by
  obtain ⟨r, hr⟩ := csrReset_eq s
  unfold retainedState
  rw [hr]
  constructor <;> rfl

theorem ringEnabled_retainedState (s : State) (kind : Nat) {n : Nat} (hn : n < 64) : ringEnabled (retainedState s kind) n = false := by
  have hcsr : (retainedState s kind).csr = (csrReset s).csr := by
    obtain ⟨r, hr⟩ := csrReset_eq s
    unfold retainedState
    rw [hr]
  rw [ringEnabled, csrBit, csrGet_of_csr hcsr]
  exact ringEnabled_csrReset s hn

theorem railed_eq (c : Instr) (s : State) : ∃ p, railed c s = { s with pw := p } := by
  unfold railed
  split <;> exact ⟨_, rfl⟩

theorem restarted_retained (c : Instr) (s : State) : Retained s (restarted c s) := by
  have h := retainedState_retained (railed c s) (restartKind c)
  obtain ⟨p, hp⟩ := railed_eq c s
  rw [← restarted, hp] at h
  exact { h with }

/-- A restart begins STARTING at step 4 with SLICE_READY low. -/
theorem restarted_pw (c : Instr) (s : State) : (restarted c s).pw.pstate = 1 ∧ (restarted c s).pw.ready = false ∧
    (restarted c s).pw.startStep = 4 ∧ (restarted c s).pw.startKind = restartKind c := by
  have hpw : (restarted c s).pw = _ := retainedState_pw (railed c s) (restartKind c)
  rw [hpw]
  exact ⟨rfl, rfl, rfl, rfl⟩

theorem Retained.ctxGet {u : State} (h : Retained s u) (hw : SMap.wf {} s.gen.ctxs = true) (i : Nat) :
    ctxGet u i = { ctxGet s i with resuming := false } := by
  rw [Machine.ctxGet, h.ctxs, SMap.get_mapVals (fun _ => rfl) hw]
  rfl

theorem Retained.lastGet {u : State} (h : Retained s u) (hw : SMap.wf {} s.arr.lasts = true) (i : Nat) :
    SMap.get {} u.arr.lasts i = if (SMap.get {} s.arr.lasts i).cond = 3 then { SMap.get {} s.arr.lasts i with cond := 2 }
      else SMap.get {} s.arr.lasts i := by
  rw [h.lasts, SMap.get_mapVals (fun _ => rfl) hw]

/-- With no last being restored the lasts stay as they are. -/
theorem lasts_unrestored {m : SMap Last} (h : m.all (fun e => e.2.cond != 3 && e.2.cond != 0) = true) :
    SMap.mapVals {} (fun _ l => if l.cond = 3 then { l with cond := 2 } else l) m = m := by
  refine SMap.mapVals_of_fixed fun e he => ?_
  have hc := List.all_eq_true.mp h e he
  simp only [Bool.and_eq_true, bne_iff_ne] at hc
  obtain ⟨h3, h0⟩ := hc
  exact ⟨if_neg h3, fun hd => h0 (congrArg Last.cond hd)⟩

/-- With no context resuming the contexts stay as they are. -/
theorem ctxs_unresumed {m : SMap Ctx} (h : m.all (fun e => !e.2.resuming && e.2 != {}) = true) :
    SMap.mapVals {} (fun _ (x : Ctx) => { x with resuming := false }) m = m := by
  refine SMap.mapVals_of_fixed fun e he => ?_
  have hc := List.all_eq_true.mp h e he
  simp only [Bool.and_eq_true, bne_iff_ne, Bool.not_eq_true'] at hc
  obtain ⟨hr, hd⟩ := hc
  exact ⟨by rw [← hr], hd⟩

/-- Settles O19: WRST_N acts by the state it finds, and every restart keeps what `Retained` names. -/
theorem warmResetRows : Obligations.WarmResetRows := by
  refine ⟨?held, ?takes, ?restart, ?serving, ?unlinked⟩
  case held =>
    intro s hr hclk hflow
    exact congrArg Host.Outcome.next ((if_neg (by simp [controlRuns, hr, hclk])).trans (if_pos hflow))
  case takes =>
    intro s hr hclk hflow
    have hrow : exec .wrstNAssert s = .next (warmReset s) :=
      congrArg Host.Outcome.next ((if_neg (by simp [controlRuns, hr, hclk])).trans (if_neg (ne_true_of_eq_false hflow)))
    refine ⟨fun hf => hrow.trans (congrArg Host.Outcome.next (if_pos hf)), fun hf hp => ?_, fun hf hp u v hu hv => ?_⟩
    · exact hrow.trans (congrArg Host.Outcome.next ((if_neg (ne_true_of_eq_false hf)).trans (if_neg hp)))
    · refine ⟨memWritesLeft v.arr.memq, fun q => ?_, (exec_wrstNAssert_serving hr hclk hf hflow hp).trans
        (congrArg Host.Outcome.next (quiesceStart_eq hu hv))⟩
      rw [memWritesLeft, List.mem_filter]
      refine and_congr_right fun _ => ?_
      cases q with
      | wr w d cls => exact ⟨fun _ => ⟨w, d, cls, rfl⟩, fun _ => rfl⟩
      | rd x =>
        refine ⟨fun h => absurd h Bool.false_ne_true, ?_⟩
        rintro ⟨w, d, cls, h⟩
        cases h
  case restart =>
    intro c s h
    have hkeep := restarted_retained c s
    obtain ⟨hp, hready, hstep, hkind⟩ := restarted_pw c s
    exact ⟨restarted c s, hp, hready, hstep, hkind, hkeep.lines, hkeep.evicts, hkeep.opens, hkeep.sf, hkeep.ari, hkeep.banks, hkeep.active,
      hkeep.idle, hkeep.reason, hkeep.ctxGet, hkeep.rings, hkeep.fenced, hkeep.unacked, hkeep.tm, hkeep.sec, hkeep.mirrors, hkeep.cmds,
      hkeep.held, hkeep.out, fun n hn => ringEnabled_retainedState (railed c s) (restartKind c) hn, hkeep.lastGet, exec_restart h⟩
  case serving =>
    intro s hr hclk hf hflow hp hset hidle hopen hq
    have harr : { s.arr with memq := memWritesLeft s.arr.memq } = s.arr := by rw [hq, memWritesLeft, List.filter_nil, ← hq]
    refine (exec_wrstNAssert_serving hr hclk hf hflow hp).trans (congrArg Host.Outcome.next ?_)
    rw [quiesceStart_settled hset hflow hidle hopen, quiescing, harr]
  case unlinked =>
    intro c s h hlink hlasts hctxs
    have hrow := exec_restart h
    rw [if_pos hlink, startGo_eq] at hrow
    have hkeep := restarted_retained c s
    obtain ⟨hp, hready, -, hkind⟩ := restarted_pw c s
    obtain ⟨l, k, hpw⟩ := startGo_pw (restarted c s)
    rw [hpw] at hrow
    exact ⟨_, hrow, hp, hready, hkeep.lines, hkeep.lasts.trans (lasts_unrestored hlasts), hkeep.sf, hkeep.ari, hkeep.banks, hkeep.active,
      hkeep.idle, hkeep.reason, hkeep.ctxs.trans (ctxs_unresumed hctxs), hkeep.rings, hkeep.fenced, hkeep.tm, hkeep.sec, hkeep.cmds, hkeep.out,
      hkind⟩

end Sys2Proof.Machine
end


section
/-! Safe retention and the array supply (O20, O21). -/

namespace Sys2Proof.Machine

open Sys2Proof

variable {s t : State}

theorem Sent.pw (h : Sent s t) : t.pw = s.pw := by obtain ⟨_, _, _, _, _, _, _, _, _, rfl⟩ := h; rfl
theorem Sent.arr (h : Sent s t) : t.arr = s.arr := by obtain ⟨_, _, _, _, _, _, _, _, _, rfl⟩ := h; rfl
theorem Sent.pl (h : Sent s t) : t.pl = s.pl := by obtain ⟨_, _, _, _, _, _, _, _, _, rfl⟩ := h; rfl
theorem Sent.tt (h : Sent s t) : t.tt = s.tt := by obtain ⟨_, _, _, _, _, _, _, _, _, rfl⟩ := h; rfl
theorem Sent.held (h : Sent s t) : t.held = s.held := by obtain ⟨_, _, _, _, _, _, _, _, _, rfl⟩ := h; rfl

/-! ## Safe retention (R55 to R60, R557, R559) -/

/-- The entry with no command in flight ends none and restores none. -/
theorem cmdsRetained_idle (hcmds : s.rg.cmds = []) (hlasts : s.arr.lasts.all (fun e => e.2.cond != 3 && e.2.cond != 0) = true) :
    ∃ seals ctxs, cmdsRetained s = { s with
      arr := { s.arr with deleting := [] }, gen := { s.gen with seals := seals, ctxs := ctxs }
      hl := { s.hl with stress := 0, rCmds := [] } } := by
  have hkept := lasts_unrestored hlasts
  unfold cmdsRetained
  simp only [hcmds, List.filter_nil, List.foldl_nil, hkept]
  exact ⟨_, _, rfl⟩

/-- The entry of a settled slice with nothing under way leaves it to its end (R557). -/
theorem flowEnter_idle (hset : Settled s) (hcmds : s.rg.cmds = []) (hidle : s.pl.st = 0) (hlink : s.tt.link = 0 ∨ s.tt.link = 4)
    (hlasts : s.arr.lasts.all (fun e => e.2.cond != 3 && e.2.cond != 0) = true) : ∃ u, flowEnter s = advance u ∧ Settled u ∧
    u.pw = { s.pw with ready := false, flowEntered := true } ∧ u.pl.st = 0 ∧ u.arr.lines = s.arr.lines ∧ u.arr.lasts = s.arr.lasts ∧
    u.pl.banks = s.pl.banks := by
  obtain ⟨seals, ctxs, hended⟩ := cmdsRetained_idle (s := { s with pw := { s.pw with ready := false, flowEntered := true } }) hcmds hlasts
  unfold flowEnter
  rw [hended]
  dsimp only
  have hsent := postEvent_sent { s with
    pw := { s.pw with ready := false, flowEntered := true }, arr := { s.arr with deleting := [] }
    gen := { s.gen with seals := seals, ctxs := ctxs }, hl := { s.hl with stress := 0, rCmds := [] } } 5 St.flowStop 0 1 0
  have hended' : Settled { s with
    pw := { s.pw with ready := false, flowEntered := true }, arr := { s.arr with deleting := [] }
    gen := { s.gen with seals := seals, ctxs := ctxs }, hl := { s.hl with stress := 0, rCmds := [] } } := { hset with }
  generalize postEvent _ _ _ _ _ _ = u at hsent ⊢
  have hpl : u.pl = s.pl := hsent.pl
  have htt : u.tt = s.tt := hsent.tt
  have habort : planAbort u 6 = u := by simp [planAbort, hpl, hidle]
  rw [habort, htt, if_pos hlink]
  refine ⟨u, rfl, hended'.sent hsent, hsent.pw, hpl ▸ hidle, ?_, ?_, by rw [hpl]⟩
  all_goals rw [hsent.arr]

/-- What the exit into SERVING posts and wakes, before what was held is delivered (R559). -/
theorem flowExit_serves (hq : s.pw.quiesced = false) (hp : s.pw.pstate ≠ 5) : ∃ l u,
    Counted { s with pw := { s.pw with
      pstate := 2, quiesced := false, flowEntered := false, ready := !s.pw.wrstHeld, planLock := l } } u ∧
    flowExit s = if u.pw.wrstHeld then advance (deliver (quiesceStart u)) else advance (resumeRings (deliver (linkResume u))) := by
  have hno : (s.pw.quiesced || s.pw.pstate == Ps.quiesce) = false := by simp [hq, hp]
  unfold flowExit
  simp only [hno, Bool.false_eq_true, if_false, Bool.not_false, Bool.true_and]
  exact ⟨_, _, (postEvent_counted _ _ _ _ _ _).trans ((txDrain_counted _).trans (irqWake_counted _)), rfl⟩

/-- The release of FLOW_STOP_N in SAFE_RETENTION is the exit (R559). -/
theorem exec_flowStopRelease_retained (hclk : s.pw.clkAon = true) (hflow : s.pw.flowStop = true) (hp : s.pw.pstate = 3) (low : Bool) :
    exec (.flowStopRelease low) s =
      .next (flowExit { s with pw := { s.pw with flowStop := false, wrstHeld := s.pw.wrstHeld && low } }) := by
  have hrow : exec (.flowStopRelease low) s = .next (flowStopRelease s low) := congrArg Host.Outcome.next (if_pos (by simp [hclk, hflow]))
  rw [hrow, flowStopRelease]
  simp [hp, Ps.starting, Ps.serving, Ps.retention]

/-- Settles O20: the entry ends at once where nothing is under way, and the exit goes on with what was held off. -/
theorem safeRetentionRows : Obligations.SafeRetentionRows := by
  refine ⟨?recorded, ?entered, ?limit, ?serves, ?quiesces, ?released⟩
  case recorded =>
    intro s hclk hflow h2 h5
    refine congrArg Host.Outcome.next ((if_pos (by simp [hclk, hflow])).trans (if_neg ?_))
    exact not_or.mpr ⟨h2, h5⟩
  case entered =>
    intro s hclk hflow hp hset hcmds hidle hlink hlasts
    have hrow : exec .flowStopEffective s = .next (flowEnter { s with pw := { s.pw with flowStop := true, flowAt := s.now } }) :=
      congrArg Host.Outcome.next ((if_pos (by simp [hclk, hflow])).trans (if_pos (.inl hp)))
    obtain ⟨u, hu, hsetu, hpw, hl, hlines, hlasts', hbanks⟩ := flowEnter_idle
      (s := { s with pw := { s.pw with flowStop := true, flowAt := s.now } }) (hset.power _) hcmds hidle hlink hlasts
    have hend := advance_settled_low hsetu (by rw [hpw]) (.inl (by rw [hpw]; exact hp)) hl
    refine ⟨_, hrow.trans (congrArg Host.Outcome.next (hu.trans hend)), rfl, rfl, ?_, ?_, hlines, hlasts', hbanks, hl⟩
    all_goals rw [hpw]
  case limit => exact fun s hflow hp => congrArg Host.Outcome.next (if_pos ⟨hflow, hp⟩)
  case serves =>
    intro s hclk hflow hp hq hw hheld hset hlink hen hrings
    obtain ⟨l, u, hu, hexit⟩ := flowExit_serves (s := { s with pw := { s.pw with flowStop := false, wrstHeld := s.pw.wrstHeld && false } }) hq
      (by simp [hp])
    have hpw := hu.1.pw
    have hsetu : Settled u := (hset.power _).sent hu.1
    have hnone : ∀ n < 64, ringEnabled u n = false := fun n hn => (hu.ringEnabled hn).trans (hrings n hn)
    rw [if_neg (by rw [hpw]; simp), linkResume_off (hu.1.tt ▸ hlink) ((hu.csrBit (by decide) 31).trans hen), deliver_none (hu.1.held ▸ hheld),
      resumeRings_none hnone, advance_settled_high hsetu (by rw [hpw])] at hexit
    refine ⟨u, ?_, ?_⟩
    · rw [exec_flowStopRelease_retained hclk hflow hp, hexit]
    · rw [hpw, hu.1.arr, hu.1.pl]
      exact ⟨rfl, by simp, rfl, rfl, rfl, rfl, rfl⟩
  case quiesces =>
    intro s hclk hflow hp hq hw hheld hset hidle hopen
    obtain ⟨l, u, hu, hexit⟩ := flowExit_serves (s := { s with pw := { s.pw with flowStop := false, wrstHeld := s.pw.wrstHeld && true } }) hq
      (by simp [hp])
    have hpw := hu.1.pw
    have hsetu : Settled u := (hset.power _).sent hu.1
    have harr : u.arr = s.arr := hu.1.arr
    have hflowu : u.pw.flowStop = false := by rw [hpw]
    rw [if_pos (by rw [hpw]; simp [hw]), quiesceStart_settled hsetu hflowu (hu.1.pl ▸ hidle) (hu.1.arr ▸ hopen), 
      deliver_none (s := quiescing u) (hu.1.held ▸ hheld), advance_settled_high hsetu.quiescing hflowu] at hexit
    refine ⟨quiescing u, (exec_flowStopRelease_retained hclk hflow hp true).trans (congrArg Host.Outcome.next hexit), rfl, rfl, hflowu, rfl, ?_, ?_⟩
    · exact harr ▸ (rfl : (quiescing u).arr.lines = u.arr.lines)
    · exact harr ▸ (rfl : (quiescing u).arr.lasts = u.arr.lasts)
  case released =>
    intro s hclk hflow hp hf low
    refine congrArg Host.Outcome.next ((if_pos (by simp [hclk, hflow])).trans ?_)
    unfold flowStopRelease
    rcases hp with hp | hp <;> simp [hp, hf, Ps.starting, Ps.serving, Ps.retention, Ps.quiesce]

/-! ## The array supply, the loss of VDD_CORE and BACKUP_HOLD (R42 to R48, R558, R560) -/

theorem chargeHold_idle (h : s.pl.st ≠ 2) : chargeHold s = s := if_neg h

/-- BACKUP_HOLD is entered from a slice that serves. -/
theorem backupHold_serving {p : Power} (h : p.pstate = 2) :
    backupHold { s with pw := p } = { s with pw := { p with prior := 2, pstate := 4 } } := by
  rw [backupHold, if_pos (.inl h)]
  simp only [h]

/-- The state of the link and of the pair. -/
def linkAndPair (s : State) : Nat × Nat := (s.tt.link, s.pr.st)

theorem Told.linkAndPair (h : Told s t) : linkAndPair t = linkAndPair s := by
  obtain ⟨_, _, _, _, _, _, _, _, _, _, _, rfl, -⟩ := h
  rfl

theorem foldl_linkAndPair {β : Type} {f : State → β → State} (hf : ∀ s b, linkAndPair (f s b) = linkAndPair s) (l : List β) (s : State) :
    linkAndPair (l.foldl f s) = linkAndPair s := by
  induction l generalizing s with
  | nil => rfl
  | cons b l ih => rw [List.foldl_cons, ih, hf]

theorem linkAndPair_storeLine (s : State) (k : Nat) (l : Line) (m : LineMask) (b : Bool) :
    linkAndPair (storeLine s k l m b) = linkAndPair s := by
  unfold storeLine
  dsimp only
  repeat' split
  all_goals rfl

theorem linkAndPair_lastFail (s : State) (i : Nat) (e : Err) : linkAndPair (lastFail s i e) = linkAndPair s := by
  unfold lastFail
  dsimp only
  refine (postError_told _ _ _).linkAndPair.trans (foldl_linkAndPair (fun t k => ?_) _ s)
  split
  · exact linkAndPair_storeLine _ _ _ _ _
  · exact linkAndPair_storeLine _ _ _ _ _

theorem linkAndPair_clearLags (s : State) (ctx gen : Nat) : linkAndPair (clearLags s ctx gen) = linkAndPair s := by
  unfold clearLags
  refine foldl_linkAndPair (fun t e => ?_) _ _
  dsimp only
  split <;> rfl

/-- The pair goes SOLO from PAIRED and RESYNC alone, and the link stays (R352). -/
theorem goSolo_linkAndPair (s : State) : linkAndPair (goSolo s) = (s.tt.link, if s.pr.st = 1 ∨ s.pr.st = 3 then 2 else s.pr.st) := by
  unfold goSolo
  dsimp only
  refine (foldl_linkAndPair (fun t f => ?_) _ _).trans ((foldl_linkAndPair (fun t e => ?_) _ _).trans ?_)
  · split
    · rfl
    · exact linkAndPair_lastFail _ _ _
  · split
    · rfl
    · exact linkAndPair_clearLags _ _ _
  · by_cases h : s.pr.st = 1 ∨ s.pr.st = 3
    · rw [if_pos h, if_pos h]
      exact (postEvent_sent _ _ _ _ _ _).told.linkAndPair
    · rw [if_neg h, if_neg h]
      rfl

theorem linkAndPair_goSolo_ttDrop (s : State) :
    linkAndPair (goSolo (ttDrop s)) = (s.tt.link, if s.pr.st = 1 ∨ s.pr.st = 3 then 2 else s.pr.st) := by
  have hdrop : linkAndPair (ttDrop s) = linkAndPair s := (evN_sent _ _ _).told.linkAndPair
  have hl : (ttDrop s).tt.link = s.tt.link := congrArg Prod.fst hdrop
  have hpr : (ttDrop s).pr.st = s.pr.st := congrArg Prod.snd hdrop
  rw [goSolo_linkAndPair, hl, hpr]

/-- The return of array access to a settled serving slice with nothing held sends what waited (R560). -/
theorem holdReturn_serves (hprior : s.pw.prior = 2) (hflow : s.pw.flowStop = false) (hent : s.pw.flowEntered = false)
    (hw : s.pw.wrstHeld = false) (hheld : s.held = []) (hset : Settled s) (hrings : ∀ n < 64, ringEnabled s n = false) :
    holdReturn s = irqWake (txDrain { s with pw := { s.pw with pstate := 2 } }) := by
  have hpw : { s.pw with pstate := s.pw.prior, ready := s.pw.ready && s.pw.prior == Ps.serving } = { s.pw with pstate := 2 } := by
    simp [hprior]
  have hcount : Counted { s with pw := { s.pw with pstate := 2 } } (irqWake (txDrain { s with pw := { s.pw with pstate := 2 } })) :=
    (txDrain_counted _).trans (irqWake_counted _)
  unfold holdReturn
  simp only [hpw]
  generalize irqWake _ = u at hcount ⊢
  have hpwu : u.pw = { s.pw with pstate := 2 } := hcount.1.pw
  rw [if_neg (by simp [hflow]), if_neg (by simp [hent]), hpwu, if_neg (by simp [hw]), deliver_none (hcount.1.held ▸ hheld), if_pos hprior,
    resumeRings_none fun n hn => (hcount.ringEnabled hn).trans (hrings n hn)]
  exact advance_settled_high ((hset.power _).sent hcount.1) (by rw [hpwu]; exact hflow)

/-- Settles O21: outside a running pass a change of the rail charges no hold, and what waited for the array is sent as access returns. -/
theorem arraySupplyRows : Obligations.ArraySupplyRows := by
  refine ⟨?droop, ?below, ?back, ?stop, ?rail, ?linked, ?core, ?returned⟩
  case droop =>
    intro s ha hst hbak
    refine congrArg Host.Outcome.next ((if_pos ha).trans ((if_pos (by simp [hbak])).trans ?_))
    exact chargeHold_idle hst
  case below => exact fun s ha => congrArg Host.Outcome.next (if_pos ha)
  case back =>
    intro s hbak hst
    exact congrArg Host.Outcome.next ((if_pos hbak).trans (chargeHold_idle hst))
  case stop =>
    intro s hbak hp
    exact congrArg Host.Outcome.next ((if_pos hbak).trans (backupHold_serving hp))
  case rail =>
    intro s hp
    exact congrArg Host.Outcome.next ((if_pos (.inl (Nat.le_of_eq hp.symm))).trans (backupHold_serving hp))
  case linked =>
    intro s ha hp hlink u hu
    have hview := linkAndPair_goSolo_ttDrop { s with tt := { s.tt with link := 4, width := 0, rxWidth := 0 } }
    rw [← hu] at hview
    have hl : u.tt.link = 4 := congrArg Prod.fst hview
    have hpr : u.pr.st = if s.pr.st = 1 ∨ s.pr.st = 3 then 2 else s.pr.st := congrArg Prod.snd hview
    refine ⟨hl, fun h => hpr.trans (if_pos h), fun h1 h3 => hpr.trans (if_neg (not_or.mpr ⟨h1, h3⟩)), ?_⟩
    refine congrArg Host.Outcome.next ((if_pos ha).trans ?_)
    rw [vddCoreLoss, if_neg hlink, hu]
  case core =>
    intro s ha hp hlink
    refine congrArg Host.Outcome.next ((if_pos ha).trans ?_)
    have hstep : (if s.pw.pstate = Ps.starting then 4 else s.pw.startStep) = s.pw.startStep := if_neg (by simp [hp])
    simp only [vddCoreLoss, if_pos hlink, hstep]
    exact backupHold_serving (s := { s with held := [] }) (by exact hp)
  case returned =>
    intro s hp hprior harr hcore hflow hent hw hheld hset hrings
    refine congrArg Host.Outcome.next ((if_pos ⟨hp, by simp [harr], by simp [hcore]⟩).trans ?_)
    exact holdReturn_serves (s := { s with pw := { s.pw with arrStopped := false } }) hprior hflow hent hw hheld (hset.power _) hrings

end Sys2Proof.Machine
end


section
/-! SYN words and scheduled write beats (O50). -/

namespace Sys2Proof.Machine

open Sys2Proof

variable {s t : State}

theorem fld_eq (v hi lo : Nat) : fld v hi lo = v / 2 ^ lo % 2 ^ (hi + 1 - lo) := by rw [fld, Nat.shiftRight_eq_div_pow]

theorem exec_synWord (h : fabricRuns s = true) (word src : Nat) (bad : Bool) :
    exec (.synWord word src bad) s = .next (synWord s word src bad) := congrArg Host.Outcome.next (if_pos h)

theorem exec_scheduledWriteBeat (h : fabricRuns s = true) (src mask : Nat) (bad : Bool) (bytes : Bytes) :
    exec (.scheduledWriteBeat src mask bad bytes) s = .next (writeBeat s src mask bad bytes) := congrArg Host.Outcome.next (if_pos h)

section
variable {word : Nat} (src : Nat)

/-- A good SYN word of class 0 does nothing. -/
theorem synWord_empty (h : word / 2 ^ 30 % 4 = 0) : synWord s word src false = s := by
  have hc : fld word 31 30 = 0 := (fld_eq word 31 30).trans h
  simp only [synWord, Bool.false_eq_true, if_false, hc]

/-- A barrier token is accepted by a plan that waits for it (R231). -/
theorem synWord_token (h : word / 2 ^ 30 % 4 = 1) : synWord s word src false =
    if (s.pl.st = 1 ∨ s.pl.st = 2) ∧ hdrStartMode (planHdr s) = 1 ∧ hdrBarrier (planHdr s) = word / 2 ^ 24 % 64 ∧ s.pl.token.isNone then
      { s with pl := { s.pl with token := some (planNow s) } }
    else ev s Ev.synTokenIgnored := by
  have hc : fld word 31 30 = 1 := (fld_eq word 31 30).trans h
  have hid : fld word 29 24 = word / 2 ^ 24 % 64 := fld_eq word 29 24
  simp only [synWord, Bool.false_eq_true, if_false, hc, hid]

/-- A flag word sets its flag (R232). -/
theorem synWord_flag (h : word / 2 ^ 30 % 4 = 2) : synWord s word src false = csrSet s 0x408 (2 ^ (word / 2 ^ 24 % 64)) := by
  have hc : fld word 31 30 = 2 := (fld_eq word 31 30).trans h
  have hid : fld word 29 24 = word / 2 ^ 24 % 64 := fld_eq word 29 24
  simp only [synWord, Bool.false_eq_true, if_false, hc, hid]

/-- A word of the reserved class counts as bad (R450). -/
theorem synWord_reserved (h : word / 2 ^ 30 % 4 = 3) : synWord s word src false = ev s Ev.synBad := by
  have hc : fld word 31 30 = 3 := (fld_eq word 31 30).trans h
  simp only [synWord, Bool.false_eq_true, if_false, hc]

end

theorem csrGet_lt (s : State) (off : Nat) : csrGet s off < 2 ^ 64 := BitVec.isLt _

/-- A bit the slice sets joins those the register holds (R585). -/
theorem csrGet_csrSet_self (s : State) (off : Nat) {i : Nat} (hi : i < 64) : csrGet (csrSet s off (2 ^ i)) off = csrGet s off ||| 2 ^ i := by
  rw [csrSet, csrGet_csrPut_self]
  exact Nat.mod_eq_of_lt (Nat.or_lt_two_pow (csrGet_lt s off) (Nat.pow_lt_pow_right (by decide) hi))

/-- A beat for a write instance of its source that stands at its arrival joins the buffer where there is room (R228). -/
theorem writeBeat_joins {src mask b w : Nat} {bytes : Bytes} (hh : hedgeFenced s (hedgeClass s src) = false)
    (hspan : ((passSpans s).find? fun b => decide (b ≤ planNow s ∧ planNow s < b + passLength (planSlots s))) = some b)
    (hslot : slotAtOffset (planSlots s) (planNow s - b) = some w) (hop : slotOp w = 3 ∨ slotOp w = 4) (hpeer : slotPeer w = src)
    (hnew : (s.pl.wbuf.any fun x => x.stamp == planNow s && x.src == src) = false) (hroom : s.pl.wbuf.length < 128) :
    writeBeat s src mask false bytes =
      activity (meter { s with pl := { s.pl with wbuf := s.pl.wbuf ++ [{ stamp := planNow s, src := src, mask := mask, data := bytes }] } }
        (slotQos w) 1 256) (slotQos w) 4096 3 1 := by
  have hmine : ¬((slotOp w ≠ 3 ∧ slotOp w ≠ 4) ∨ slotPeer w ≠ src ∨ (s.pl.wbuf.any fun x => x.stamp == planNow s && x.src == src) = true) := by
    rw [hnew]
    rintro (⟨h3, h4⟩ | hne | hany)
    · rcases hop with hop | hop
      · exact h3 hop
      · exact h4 hop
    · exact hne hpeer
    · exact Bool.false_ne_true hany
  unfold writeBeat
  simp only [Bool.false_eq_true, if_false, hh, hspan, hslot]
  rw [if_neg hmine, if_neg (Nat.not_le.mpr hroom)]

/-- A beat that belongs to no pass is a stray one (R229). -/
theorem writeBeat_stray (h : passSpans s = []) (src mask : Nat) (bytes : Bytes) :
    writeBeat s src mask false bytes = ev s Ev.planStrayBeat := by
  unfold writeBeat
  simp only [Bool.false_eq_true, if_false, h, List.find?_nil, ite_self]

/-- Settles O50: a SYN word acts by its class, and a scheduled write beat by the instance that stands at its arrival. -/
theorem planInputRows : Obligations.PlanInputRows := by
  intro s hfab
  refine ⟨fun word src => exec_synWord hfab _ _ _, fun word src hc => ?none, fun word src hc => ⟨fun hst hm hb ht => ?token, fun hno => ?ignored⟩,
    fun word src hc => ?flag, fun word src hc => ?reserved, fun src mask b w bytes hh hspan hslot hop hpeer hnew hroom => ?joins,
    fun src mask bytes hspan => ?stray⟩
  case none => rw [exec_synWord hfab, synWord_empty src hc]
  case token =>
    rw [exec_synWord hfab, synWord_token src hc]
    exact congrArg Host.Outcome.next (if_pos ⟨hst, hm, hb, by rw [ht]; rfl⟩)
  case ignored =>
    rw [exec_synWord hfab, synWord_token src hc]
    refine congrArg Host.Outcome.next (if_neg ?_)
    rintro ⟨hst, hm, hb, ht⟩
    rcases hno with ⟨h1, h2⟩ | h | h | h
    · exact hst.elim h1 h2
    · exact h hm
    · exact h hb
    · rw [Option.isNone_iff_eq_none.mp ht] at h
      exact Bool.false_ne_true h
  case flag =>
    refine ⟨_, (exec_synWord hfab _ _ _).trans (congrArg Host.Outcome.next (synWord_flag src hc)), rfl, ?_, fun off hoff => ?_⟩
    · exact csrGet_csrSet_self s 0x408 (Nat.mod_lt _ (by decide))
    · exact csrGet_csrPut_ne hoff s _
  case reserved => rw [exec_synWord hfab, synWord_reserved src hc]
  case joins =>
    refine ⟨_, (exec_scheduledWriteBeat hfab _ _ _ _).trans
      (congrArg Host.Outcome.next (writeBeat_joins hh hspan hslot hop hpeer hnew hroom)), rfl, rfl⟩
  case stray => rw [exec_scheduledWriteBeat hfab, writeBeat_stray hspan]

end Sys2Proof.Machine
end


section
/-! What a read instance finds (O53). -/

namespace Sys2Proof.Machine

open Sys2Proof

variable {s t u : State}

/-! ## States that find the same lines -/

/-- `t` finds the lines of `s`, in the same slots and as lookups see them. -/
structure FindsAs (s t : State) : Prop where
  arr : t.arr = s.arr
  gen : t.gen = s.gen
  veil : t.pl.veil = s.pl.veil
  grade : t.pw.grade = s.pw.grade
  ways : t.hl.wayDis = s.hl.wayDis
  regs : ∀ off < 0x4820, csrGet t off = csrGet s off

theorem FindsAs.refl (s : State) : FindsAs s s := ⟨rfl, rfl, rfl, rfl, rfl, fun _ _ => rfl⟩

theorem FindsAs.trans (h : FindsAs s t) (k : FindsAs t u) : FindsAs s u :=
  ⟨k.arr.trans h.arr, k.gen.trans h.gen, k.veil.trans h.veil, k.grade.trans h.grade, k.ways.trans h.ways,
    fun off hoff => (k.regs off hoff).trans (h.regs off hoff)⟩

theorem FindsAs.after (k : FindsAs t u) (h : FindsAs s t) : FindsAs s u := h.trans k

theorem FindsAs.ite {c : Prop} [Decidable c] (h : FindsAs s t) (k : FindsAs s u) : FindsAs s (if c then t else u) := by
  split
  · exact h
  · exact k

theorem Sent.gen (h : Sent s t) : t.gen = s.gen := by obtain ⟨_, _, _, _, _, _, _, _, _, rfl⟩ := h; rfl

theorem Counted.findsAs (h : Counted s t) : FindsAs s t :=
  ⟨h.1.arr, h.1.gen, congrArg Plan.veil h.1.pl, congrArg Power.grade h.1.pw, congrArg Health.wayDis h.1.hl, h.2⟩

theorem activity_findsAs (s : State) (cls ctx kind k : Nat) : FindsAs s (activity s cls ctx kind k) := ⟨rfl, rfl, rfl, rfl, rfl, fun _ _ => rfl⟩

theorem FindsAs.foldl {β : Type} {f : State → β → State} (hf : ∀ s b, FindsAs s (f s b)) (l : List β) (s : State) :
    FindsAs s (l.foldl f s) := by
  induction l generalizing s with
  | nil => exact .refl s
  | cons b l ih => exact (hf s b).trans (ih _)

theorem FindsAs.lastAt (h : FindsAs s t) (i : Nat) : lastAt t i = lastAt s i := by
  simp only [Machine.lastAt, h.arr, h.regs 0x118 (by decide), h.regs 0x120 (by decide)]

theorem FindsAs.lastOfLine (h : FindsAs s t) (line : Nat) : lastOfLine t line = lastOfLine s line := by
  simp only [Machine.lastOfLine, lastOf, h.arr]

theorem FindsAs.findLine (h : FindsAs s t) (line : Nat) : findLine t line = findLine s line := by
  have hset : setOf t line = setOf s line := by simp only [setOf, stripeShift, csrFld, h.regs 0x100 (by decide)]
  have hfuse : fuseWays t = fuseWays s := by simp only [fuseWays, h.grade]
  have hpin (n : Nat) : pinnedSlot t n = pinnedSlot s n := by simp only [pinnedSlot, roleWay, hfuse, h.arr]
  have hways (set : Nat) : searchWays t set = searchWays s set := by simp only [searchWays, wayDisabled, hfuse, h.ways]
  simp only [Machine.findLine, h.lastOfLine, h.lastAt, hset, hpin, hways, lineAt, h.arr]

theorem FindsAs.seenState (h : FindsAs s t) (hv : s.pl.veil = []) (line : Nat) (st : LState) : seenState t line st = st := by
  have hnone : t.pl.veil = [] := h.veil.trans hv
  simp only [Machine.seenState, veils, hnone, List.filter_nil, List.head?_nil, Option.map_none, Option.getD_none]

/-! ## What an error record leaves of the registers and the ways -/

theorem Entered.findsAs (h : Entered s t) : FindsAs s t := by
  obtain ⟨_, _, _, _, _, _, _, _, _, _, _, rfl⟩ := h
  exact ⟨rfl, rfl, rfl, rfl, rfl, fun _ _ => rfl⟩

theorem permanent_findsAs (s : State) (loc : Nat) : FindsAs s (permanent s loc) := by
  unfold permanent rowFailed
  dsimp only
  repeat' split
  all_goals exact ⟨rfl, rfl, rfl, rfl, rfl, fun _ _ => rfl⟩

theorem classify_findsAs (s : State) (e : Err) : FindsAs s (classify s e).1 := by
  unfold classify
  split
  · exact .refl s
  · have hled := (ledAdd_entered { s with hl := { s.hl with faults := s.hl.faults ++ [(e.loc, tsNs s)] } } 1 (faultSubject e)
      (faultHistory s e.loc e.stuck)).findsAs
    refine FindsAs.trans (t := ledAdd _ _ _ _) ⟨hled.arr, hled.gen, hled.veil, hled.grade, hled.ways, hled.regs⟩ ?_
    exact .ite (permanent_findsAs _ _) (.refl _)

theorem hdrKeep_findsAs (s : State) (type : Nat) (payload : List Nat) : FindsAs s (hdrKeep s type payload) := by
  obtain ⟨_, _, _, hkeep, -⟩ := hdrKeep_eq s type payload
  rw [hkeep]
  exact ⟨rfl, rfl, rfl, rfl, rfl, fun _ _ => rfl⟩

/-- An error record moves no line and changes no register below the event counters. -/
theorem postError_findsAs (s : State) (status : Nat) (e : Err) : FindsAs s (postError s status e) := by
  unfold postError
  dsimp only
  refine (classify_findsAs s e).trans (FindsAs.trans ?_ (evPost_counted _ _ _ _ _ _ _ _ _).findsAs)
  refine .ite ?_ ?_
  · exact (hdrKeep_findsAs _ _ _).after ⟨rfl, rfl, rfl, rfl, rfl, fun _ _ => rfl⟩
  · exact (ev_counted _ _).findsAs.after ⟨rfl, rfl, rfl, rfl, rfl, fun _ _ => rfl⟩

/-! ## The lookup of a read instance (R215, R216) -/

theorem sfCheckSet_findsAs (s : State) (set detector : Nat) : FindsAs s (sfCheckSet s set detector) := by
  refine FindsAs.foldl (fun s k => ?_) _ s
  dsimp only
  refine .ite ?_ (.refl s)
  exact (postError_findsAs _ _ _).after ⟨rfl, rfl, rfl, rfl, rfl, fun _ _ => rfl⟩

theorem chargeHold_findsAs (s : State) : FindsAs s (chargeHold s) :=
  .ite ((ev_counted _ _).findsAs.after ⟨rfl, rfl, rfl, rfl, rfl, fun _ _ => rfl⟩) (.refl s)

theorem reserve_findsAs (s : State) (line n : Nat) : FindsAs s (reserve s line n) := by
  unfold reserve
  dsimp only
  refine .ite (.refl s) (.ite ?_ ⟨rfl, rfl, rfl, rfl, rfl, fun _ _ => rfl⟩)
  exact ((ev_counted _ _).findsAs.trans (chargeHold_findsAs _)).after ⟨rfl, rfl, rfl, rfl, rfl, fun _ _ => rfl⟩

/-- A lookup whose line has the last that covers it, in an array whose tags are all good, changes nothing (R443, R445). -/
theorem lookup_of_good {line : Nat} (hlast : ∀ k, findLine s line = some k → (lineAt s k).last = lastOfLine s line)
    (htags : (s.arr.lines.all fun e => e.2.tagBad == 0) = true) : lookup s line (lastOfLine s line) = s := by
  have hretag : retag s line (lastOfLine s line) = s := by
    unfold retag
    split
    next k hk => exact if_pos (.inl (hlast k hk))
    · rfl
  rw [lookup, hretag]
  exact tagCheckSet_of_good htags _ _

theorem planLookup_findsAs {line : Nat} (h : lookup s line (lastOfLine s line) = s) (m : LineMask) (n qos : Nat) (arith : Bool) :
    FindsAs s (planLookup s line m n qos arith) := by
  unfold planLookup
  dsimp only
  rw [h]
  have hcounted : FindsAs s (if aCache (lastAt s (lastOfLine s line)).attr then
      activity s qos (aCtx (lastAt s (lastOfLine s line)).attr) 1 1 else s) := .ite (activity_findsAs _ _ _ _ _) (.refl s)
  generalize (if aCache (lastAt s (lastOfLine s line)).attr then
      activity s qos (aCtx (lastAt s (lastOfLine s line)).attr) 1 1 else s) = a at hcounted ⊢
  have hchecked := FindsAs.foldl (fun s x => sfCheckSet_findsAs s x 1) ((hostsOf line m).map (sfSet a)).eraseDups a
  generalize ((hostsOf line m).map (sfSet a)).eraseDups.foldl (fun s x => sfCheckSet s x 1) a = b at hchecked ⊢
  have hhit : FindsAs b (if (hostsOf line m).any (fun h => sfState b h != 0) then ev b Ev.planSfHit else b) :=
    .ite (ev_counted _ _).findsAs (.refl b)
  refine (hcounted.trans hchecked).trans (hhit.trans ?_)
  exact .ite ((activity_findsAs _ _ _ _ _).trans (activity_findsAs _ _ _ _ _)) (activity_findsAs _ _ _ _ _)

/-- What a FALLOW line's note sends moves no line. -/
theorem fallowNote_arr (s : State) (l : Line) (o : Op) : (fallowNote s l o).arr = s.arr := by
  unfold fallowNote
  cases l.note with
  | none => rfl
  | some note =>
    obtain ⟨n, seq, cmd⟩ := note
    refine (apply_ite (fun t : State => t.arr) _ _ _).trans ?_
    rw [(ev_sent _ _).arr, (ev_sent _ _).arr, ringPut_arr, ringPut_arr, (hstWrite_sent _ _ _ _).arr, ite_self]

/-- Settles O53: the state in which a read instance finds its line has the lines, the registers and the tables of the state it
began in, so every branch is decided by the hypotheses. -/
theorem readInstanceOutcome : Obligations.ReadInstanceOutcome := by
  intro s addr qos _ _ hveil hlast htags hpend hheld u st bs hread
  have hlook := lookup_of_good hlast htags
  unfold planRead at hread
  simp only [planReadMask, Nat.reduceEqDiff, if_false] at hread
  obtain ⟨t, ht⟩ : ∃ t, t = reserve (planLookup s (addr / 512) (spanMask (addr % 512) 256)
    (halfBeatCount (spanMask (addr % 512) 256)) qos (decide (2 ≤ 0))) (addr / 512) (halfBeatCount (spanMask (addr % 512) 256)) := ⟨_, rfl⟩
  have hfind : FindsAs s t := by rw [ht]; exact (planLookup_findsAs hlook _ _ _ _).trans (reserve_findsAs _ _ _)
  rw [← ht] at hread
  have harr : t.arr.lines = s.arr.lines := congrArg Arr.lines hfind.arr
  refine ⟨fun hcond => ?_, fun hcond hcache hevict hopen => ?_⟩
  · rw [if_pos hcond] at hread
    obtain ⟨rfl, rfl, rfl⟩ := Prod.mk.injEq .. ▸ hread
    exact ⟨rfl, rfl, harr⟩
  · have hbusy : (!aCache (lastAt s (lastOfLine s (addr / 512))).attr || (evictOf t (addr / 512)).isSome ||
        (openOf t (addr / 512)).isSome || entryHeld t (addr / 512)) = false := by
      simp only [evictOf, openOf, entryHeld] at hevict hopen hheld ⊢
      simp only [hfind.arr, hcache, hevict, hopen, hheld, Option.isSome_none, Bool.not_true, Bool.or_self]
    have hgen : t.gen.pendingRc.contains (addr / 512) = false := by rw [hfind.gen]; exact hpend
    have hsus : ¬ (t.hl.suspect = true ∧ 2 ≤ 0) := by omega
    rw [if_neg (not_not.mpr hcond), if_neg hsus, if_neg (by rw [hgen]; decide), if_neg (by rw [hbusy]; decide),
      hfind.findLine] at hread
    refine ⟨fun hnone => ?_, fun k hk hfill hst => ?_⟩
    · rw [hnone] at hread
      obtain ⟨rfl, rfl, rfl⟩ := hread
      exact ⟨rfl, rfl, harr⟩
    · have hline : lineAt t k = lineAt s k := by simp only [lineAt, hfind.arr]
      have hseen : seenState t (addr / 512) (lineAt s k).st = .fallow := (hfind.seenState hveil _ _).trans hst
      rw [hk] at hread
      simp only [hline, hseen, hfill, Bool.false_or] at hread
      obtain ⟨rfl, rfl, rfl⟩ := hread
      refine ⟨rfl, rfl, ?_⟩
      rw [fallowNote_arr]
      exact (congrArg Arr.lines (ev_sent _ _).arr).trans harr

end Sys2Proof.Machine
end


section
/-! Requests that the slice accepts, and their wait for an open cycle (O33, O34). -/

namespace Sys2Proof.Machine

open Sys2Proof

variable {s t : State} {k : Rq} {m : Msg}

/-! ## The receipt of a request (R266, R272) -/

/-- The row of a request is its receipt on the port of its row. -/
theorem exec_rowMsg (k : Rq) (m : Msg) (s : State) : exec (k.instr m) s = .next (receive s k (rowMsg k m)) := by
  cases k <;> rfl

/-- A credit is returned for each 256 bytes that arrive on BLK (R266, R268). -/
theorem arrives_blk_credit {p : Nat} (hport : m.port = .blk) (hp : 256 ≤ p) (c : Nat) : Out.credit .blk 0 ∈ (arrives s m c p).out := by
  have hgrow (l : List Nat) (t : State) : t.out <+: (l.foldl (fun s _ => returnCredit s .blk 0) t).out := by
    induction l generalizing t with
    | nil => exact List.prefix_rfl
    | cons n l ih => exact (List.prefix_append _ _).trans (ih (returnCredit t .blk 0))
  obtain ⟨n, hn⟩ : ∃ n, p / 256 = n + 1 := ⟨p / 256 - 1, by omega⟩
  rw [arrives, if_pos hport, hn, List.range_succ, List.foldl_append, List.foldl_cons, List.foldl_nil]
  exact List.mem_append_right _ (List.mem_singleton_self _)

/-- The credit of a request on CTL or HST is returned as it arrives in a slice that serves (R266). -/
theorem arrives_credit (hs : serving s = true) (hport : m.port ≠ .blk) (c p : Nat) : Out.credit m.port c ∈ (arrives s m c p).out := by
  simp only [serving, Bool.and_eq_true, beq_iff_eq, Bool.not_eq_true'] at hs
  obtain ⟨⟨hps, -⟩, -⟩ := hs
  rw [arrives, if_neg hport]
  dsimp only
  rw [if_neg (by simp [activity, meter, hps, Ps.serving, Ps.quiesce])]
  exact List.mem_append_right _ (List.mem_singleton_self _)

/-- A request that is no FENCE and no BI_CONFLICT is owed its answer and presented (R272, R523). -/
theorem requestTaken_demand (hf : k ≠ .fence) (hc : k ≠ .conflict) (u : State) : requestTaken u k m =
    advance (present (traceAccept (accept u m).1 u.arr.n k.code.1 k.code.2 m) (k.toOp m u.arr.n)) := by
  cases k with
  | fence => exact absurd rfl hf
  | conflict => exact absurd rfl hc
  | _ => rfl

/-- Settles O33: the row is the receipt, which takes what passes every check. -/
theorem requestsAccepted : Obligations.RequestsAccepted := by
  refine ⟨?demand, fun m s => ⟨?fence, ?conflict, fun _ => ⟨rfl, rfl⟩⟩⟩
  case demand =>
    intro k m s hf hc h
    have ⟨⟨hs, _⟩, _⟩ := h
    obtain ⟨q, o, ha⟩ := arrives_eq s (rowMsg k m) k.code.1 (k.payload (rowMsg k m))
    refine ⟨_, rfl, fun hk => ?_, fun hp => arrives_credit hs hp _ _, ?_, ?_, ?_⟩
    · rcases hk with rfl | rfl <;> exact arrives_blk_credit rfl (by simp [Rq.payload]) _
    · rw [arrived, ha]
    · rw [arrived, ha]
    · rw [exec_rowMsg, receive_accepted h, requestTaken_demand hf hc, arrived, ha]
      have hsrc : (rowMsg k m).src = m.src ∧ (rowMsg k m).tag = m.tag ∧ (rowMsg k m).addr = m.addr ∧ (rowMsg k m).size = m.size := by
        unfold rowMsg
        split <;> exact ⟨rfl, rfl, rfl, rfl⟩
      obtain ⟨hsrc, htag, haddr, hsize⟩ := hsrc
      rw [accept, hsrc, htag, haddr, hsize]
  case fence =>
    intro h
    obtain ⟨q, o, ha⟩ := arrives_eq s m (Rq.code .fence).1 (Rq.payload .fence m)
    refine (exec_request (k := .fence) rfl s).trans (congrArg Host.Outcome.next ((receive_accepted h).trans ?_))
    rw [requestTaken, arrived, ha]
    rfl
  case conflict =>
    intro h
    obtain ⟨q, o, ha⟩ := arrives_eq s m (Rq.code .conflict).1 (Rq.payload .conflict m)
    refine (exec_request (k := .conflict) rfl s).trans (congrArg Host.Outcome.next ((receive_accepted h).trans ?_))
    rw [requestTaken, arrived, ha]
    rfl

/-! ## The wait for an open cycle (R221, R523) -/

/-- The slice without its presented operations. -/
def unpresented (s : State) : State := { s with arr := { s.arr with presented := [] } }

/-- With no room in an open cycle nothing is issued. -/
theorem issueAll_closed (h : openRoom s = false) (n : Nat) : issueAll n s = s := by
  cases n with
  | zero => rfl
  | succ n => simp [issueAll, h]

theorem pump_closed (h : Settled (unpresented s)) (ho : openRoom s = false) : pump s = s := by
  have hwait : s.arr.waiting = [] := h.waiting
  have hfence : s.arr.fences = [] := h.fences
  have hflip : s.coh.flips = [] := h.flips
  have hfail : failPump s = s := by
    have hnone : s.coh.failing = [] := h.failing
    have e : { s.coh with failing := [] } = s.coh := by rw [← hnone]
    simp [failPump, hnone, snoopBlocks, e]
  have hside : memSidePump s = s := by
    have hf : (s.arr.mhes.filter fun m => m.kind == .memSide && m.got == 15 && !m.reads.isEmpty) = [] :=
      List.filter_eq_nil_iff.mpr fun m hm => List.any_eq_false.mp h.sums m hm
    rw [memSidePump, hf, List.foldl_nil]
  have hevict : s.arr.evicts.foldl evictRetry s = s := evictRetry_settled h.evicts
  simp only [pump, hevict, hside, hfail, flipPump, hflip, List.foldl_nil, retryAll, hwait, if_true, issueAll_closed ho, fencePump, hfence]

/-- No command leaves a slice whose commands rest, so no operation that none of them owns does either. -/
theorem cmdSweep_owned (hc : s.rg.cmds.all Cmd.rests = true) (hw : s.arr.waiting = []) (hp : ∀ o ∈ s.arr.presented, o.cmd = 0) :
    cmdSweep s = s := by
  have hf : s.rg.cmds.filter silent = [] := by
    rw [List.filter_eq_nil_iff]
    intro c hc'
    have hr := List.all_eq_true.mp hc c hc'
    simp only [Cmd.rests, Bool.and_eq_true, Bool.not_eq_true'] at hr
    simpa [silent] using hr.2
  have hlive : (s.arr.presented.filter fun o => o.cmd == 0 || s.rg.cmds.any fun c => c.n == o.cmd && !c.done) = s.arr.presented :=
    List.filter_eq_self.mpr fun o ho => by simp [hp o ho]
  have harr : { s.arr with waiting := [], presented := s.arr.presented } = s.arr := by rw [← hw]
  simp only [cmdSweep, hf, List.foldl_nil, hlive, hw, List.filter_nil, harr]

/-- While no cycle is open, a slice with nothing else to go on with leaves what is presented. -/
theorem advance_closed (hs : serving s = true) (h : Settled (unpresented s)) (ho : openRoom s = false)
    (hp : ∀ o ∈ s.arr.presented, o.cmd = 0) : advance s = s := by
  have hdrain : drainPump s = s := by
    have hb : s.gen.bufs = [] := h.bufs
    have hd : s.gen.drains = [] := h.drains
    simp [drainPump, hb, hd, bufPump]
  have hroll : rollPump s = s := by
    have hr : s.pr.rollLogs = [] := h.rollLogs
    simp [rollPump, hr]
  have hstage : stageOutPump s = s := by
    have hn : s.pl.stageOuts = [] := h.stageOuts
    simp [stageOutPump, hn]
  have hretire : retirePump s = s := by
    have hr : s.hl.rState ≠ 2 := h.retire
    unfold retirePump retireLoop
    simp [hr]
  rw [advance, if_pos hs]
  simp only [pump_closed h ho, hdrain, hroll, hstage, cmdStep_settled (s := s) h.cmds, cmdSweep_owned (s := s) h.cmds h.waiting hp, hretire]

/-- Settles O34: the request is presented alone and no cycle is open to take it. -/
theorem requestsWaitForCycles : Obligations.RequestsWaitForCycles := by
  intro k m s hf hc h hset hopen
  have ⟨⟨hs, _⟩, _⟩ := h
  obtain ⟨u, -, -, -, -, -, hexec⟩ := requestsAccepted.1 k m s hf hc h
  obtain ⟨q, o, ha⟩ := arrives_eq s (rowMsg k m) k.code.1 (k.payload (rowMsg k m))
  rw [exec_rowMsg, receive_accepted h, requestTaken_demand hf hc, arrived, ha]
  obtain ⟨q', r, htr⟩ := traceAccept_eq (accept { s with qs := q, out := o } (rowMsg k m)).1 s.arr.n k.code.1 k.code.2 (rowMsg k m)
  rw [htr]
  refine ⟨_, rfl, ?_⟩
  have hpres : s.arr.presented ++ [k.toOp (rowMsg k m) s.arr.n] = [k.toOp (rowMsg k m) s.arr.n] := by rw [hset.presented, List.nil_append]
  rw [advance_closed (by exact hs) ?_ ?_ ?_]
  · exact ⟨hpres, rfl, rfl, rfl, rfl⟩
  · exact ⟨hset.evicts, hset.waiting, rfl, hset.fences, hset.sums, hset.stageOuts, hset.failing, hset.flips, hset.bufs, hset.drains,
      hset.rollLogs, hset.cmds, hset.retire⟩
  · simp [openRoom, present, accept, hopen]
  · intro x hx
    change x ∈ s.arr.presented ++ _ at hx
    rw [hpres, List.mem_singleton] at hx
    rw [hx]
    rfl

end Sys2Proof.Machine
end


section
/-! The instances of a pass (O52). -/

namespace Sys2Proof.Machine

open Sys2Proof

variable {s t u v : State} {w op : Nat}

/-! ## The run of an instance (R199, R203) -/

/-- An event counted takes nothing from the plan and leaves it as it is (R517). -/
theorem ev_plan (s : State) (p : Plan) (n : Nat) : ev { s with pl := p } n = { ev s n with pl := p } := by
  unfold ev evN
  rw [if_neg (c := 1 = 0) (by decide), if_neg (c := 1 = 0) (by decide)]
  have hbit (a b : Nat) : csrBit { s with pl := p } a b = csrBit s a b := rfl
  dsimp only
  rw [hbit]
  generalize evCtrAdd (SMap.get {} s.qs.evs n) (csrBit s (0x4800 + 8 * (n / 64)) (n % 64)) (if evControl n then s.now / 4 else s.now)
    (s.now / 4) 1 = r
  obtain ⟨c, wrapped⟩ := r
  cases wrapped <;> rfl

/-- An instance begins, does what `f` says, is counted by its status and takes one fc; then the slice goes on. -/
theorem instanceRun_eq {u t : State} {opens : Bool} {f : State → State × Nat} {st : Nat}
    (hu : ev { s with pl := { s.pl with openNow := opens, openSpent := 0 } } Ev.planInstance = u) (hf : f u = (t, st)) :
    instanceRun s w opens f = advance (instDone (passCount t st) w) := by
  rw [instanceRun, hu, hf]
  rfl

theorem nextEntry_of_at (h : AtInstance s w) : nextEntry s = some w := by
  obtain ⟨hs, hst, hhold, hslot⟩ := h
  simp only [nextEntry, hs, hst, hhold, hslot, Bool.not_true, bne_self_eq_false, Bool.or_self, Bool.false_eq_true, if_false]

/-- At an instance of its operation a row runs it. -/
theorem instance_at (h : AtInstance s w) (hop : slotOp w = op) {f : State → Nat → State × Nat} {t : State} {st : Nat}
    (hf : f (instBegun s w) w = (t, st)) : instance_ s op f = advance (instDone (passCount t st) w) := by
  rw [instance_, nextEntry_of_at h]
  dsimp only
  rw [if_neg (not_not.mpr hop)]
  exact instanceRun_eq (by rw [instBegun, hop]) hf

/-- Away from an instance of its operation a row of the scheduled plane changes nothing. -/
theorem instance_away (h : serving s = false ∨ s.pl.st ≠ 2 ∨ s.pl.holding = true ∨ (∀ w, (planSlots s)[s.pl.slot]? = some w → slotOp w ≠ op))
    (f : State → Nat → State × Nat) : instance_ s op f = s := by
  unfold instance_
  cases hn : nextEntry s with
  | none => rfl
  | some w =>
    refine if_pos ?_
    unfold nextEntry at hn
    split at hn
    · cases hn
    next hbusy =>
      simp only [Bool.or_eq_true, Bool.not_eq_true', bne_iff_ne, not_or, not_not, Bool.not_eq_false, Bool.not_eq_true] at hbusy
      obtain ⟨⟨hs, hst⟩, hhold⟩ := hbusy
      rcases h with h | h | h | h
      · rw [hs] at h; cases h
      · exact absurd hst h
      · rw [hhold] at h; cases h
      · exact h w hn

/-- Every row of the scheduled plane is an instance of its operation, or changes nothing. -/
theorem exec_instOp {c : Instr} (h : instOp c = some op) (s : State) :
    (∃ f, exec c s = .next (instance_ s op f)) ∨ exec c s = .next s := by
  cases c with
  | openCycle | arrToBlk | blkToArr | blkAdd | stageIn | stageOut | arrToArr | arrScan | tthOut | kernel =>
    cases h
    exact .inl ⟨_, rfl⟩
  | quiet bad =>
    cases bad with
    | true => cases h
    | false =>
      cases h
      exact .inl ⟨_, rfl⟩
  | synOut =>
    cases h
    by_cases hc : s.pl.lockGone = true ∧ planUnsettled s = true
    · exact .inr (congrArg Host.Outcome.next (if_pos hc))
    · exact .inl ⟨_, congrArg Host.Outcome.next (if_neg hc)⟩
  | _ => cases h

/-! ## An instance that leaves nothing to go on with -/

/-- A slice with nothing to go on with has none either after what `Told` names has changed. -/
theorem Settled.told (h : Settled s) (k : Told s t) : Settled t := by
  obtain ⟨_, _, _, _, _, _, _, _, _, _, _, rfl, -, -, -, -, hr⟩ := k
  exact ⟨h.evicts, h.waiting, h.presented, h.fences, h.sums, h.stageOuts, h.failing, h.flips, h.bufs, h.drains, h.rollLogs, h.cmds,
    fun hd => h.retire (hr.symm.trans hd)⟩

theorem Told.serving (k : Told s t) : serving t = serving s := by
  obtain ⟨_, _, _, _, _, _, _, _, _, _, _, rfl, hf, -, -, -, -⟩ := k
  simp only [Machine.serving, hf]

/-- The slice serves and has nothing to go on with. -/
structure Rests (s : State) : Prop where
  serves : serving s = true
  settled : Settled s

theorem Rests.advance (h : Rests s) : advance s = s := advance_of_pump h.serves (pump_settled h.settled) h.settled

theorem Rests.told (h : Rests s) (k : Told s t) : Rests t := ⟨k.serving.trans h.serves, h.settled.told k⟩

/-- The plan goes on by its own clock: but for the lines that STAGE_OUT awaits, it makes nothing else go on. -/
theorem Rests.plan (h : Rests s) {p : Plan} (hp : p.stageOuts = s.pl.stageOuts) : Rests { s with pl := p } :=
  ⟨h.serves, h.settled.evicts, h.settled.waiting, h.settled.presented, h.settled.fences, h.settled.sums, hp.trans h.settled.stageOuts,
    h.settled.failing, h.settled.flips, h.settled.bufs, h.settled.drains, h.settled.rollLogs, h.settled.cmds, h.settled.retire⟩

theorem Rests.ev (h : Rests s) (n : Nat) : Rests (ev s n) := h.told (ev_sent s n).told

theorem Rests.instBegun (h : Rests s) (w : Nat) : Rests (instBegun s w) := Rests.ev (h.plan (by rfl)) _

theorem Rests.instDone (h : Rests s) (w : Nat) : Rests (instDone s w) := h.plan rfl

theorem Rests.pacedSyn (h : Rests s) : Rests (pacedSyn s) := by
  unfold Machine.pacedSyn
  split
  · exact h.plan rfl
  · exact h

theorem Rests.passCount (h : Rests s) (st : Nat) : Rests (passCount s st) := by
  unfold Machine.passCount
  dsimp only
  split
  · exact h
  split
  · exact Rests.ev (h.plan (by rfl)) _
  split
  · exact h.plan rfl
  · exact h.plan rfl

theorem Rests.planStoreBad (h : Rests s) : Rests (planStoreBad s).1 := by
  have hstop : Rests { s with pl := { s.pl with stopAt := 5 } } := h.plan rfl
  exact hstop.told (postError_told _ St.dataError { unit := 14, detector := 1 })

theorem Rests.activity (h : Rests s) (cls ctx kind k : Nat) : Rests (activity s cls ctx kind k) :=
  h.told (Sent.told ⟨_, _, _, _, _, _, _, _, _, rfl⟩)

/-- An instance that ends ST_OK and leaves nothing to go on with ends as it stands. -/
theorem instance_rests (h : AtInstance s w) (hop : slotOp w = op) {f : State → Nat → State × Nat} {t : State}
    (hf : f (instBegun s w) w = (t, St.ok)) (ht : Rests t) : instance_ s op f = instDone t w := by
  rw [instance_at h hop hf]
  exact (ht.instDone w).advance

/-! ## What each row does at its instance -/

section
variable (hat : AtInstance s w)
include hat

theorem exec_idle {c : Instr} (hset : Settled s) (h : (c = .openCycle ∧ slotOp w = 0) ∨ (c = .quiet false ∧ slotOp w = 1)) :
    exec c s = .next (instDone (instBegun s w) w) := by
  rcases h with ⟨rfl, hop⟩ | ⟨rfl, hop⟩
  · exact congrArg Host.Outcome.next (instance_rests hat hop rfl (Rests.instBegun ⟨hat.1, hset⟩ w))
  · exact congrArg Host.Outcome.next (instance_rests hat hop rfl (Rests.instBegun ⟨hat.1, hset⟩ w))

/-- A QUIET in the place of an entry whose parity fails (R238, R452). -/
theorem exec_quiet_bad (hset : Settled s) : exec (.quiet true) s = .next (instDone (passCount (planStoreBad
    { instBegun s w with pl := { (instBegun s w).pl with openNow := false } }).1 St.dataError) w) := by
  have hbegun := Rests.instBegun ⟨hat.1, hset⟩ w
  have hrun : exec (.quiet true) s = .next (instanceRun s w false planStoreBad) := by
    change Host.Outcome.next (match nextEntry s with | some w => instanceRun s w false planStoreBad | none => s) = _
    rw [nextEntry_of_at hat]
  have hopen : ev { s with pl := { s.pl with openNow := false, openSpent := 0 } } Ev.planInstance =
      { instBegun s w with pl := { (instBegun s w).pl with openNow := false } } := by
    rw [instBegun, ev_plan s { s.pl with openNow := false, openSpent := 0 },
      ev_plan s { s.pl with openNow := slotOp w == 0, openSpent := 0 }]
  rw [hrun, instanceRun_eq hopen rfl]
  have hbad := (hbegun.plan (p := { (instBegun s w).pl with openNow := false }) rfl).planStoreBad
  exact congrArg Host.Outcome.next ((hbad.passCount St.dataError).instDone w).advance

theorem exec_synOut (hset : Settled s) (hop : slotOp w = 0xA) (hpace : s.pl.lockGone = false ∨ planUnsettled s = false) :
    exec .synOut s = .next (instDone (drive (pacedSyn (instBegun s w)) (.syn (w % 2 ^ 32) (ownId s))) w) := by
  have hword : fld w 31 0 = w % 2 ^ 32 := by rw [fld_eq, Nat.pow_zero, Nat.div_one]
  have hown : ownId (instBegun s w) = ownId s := by
    obtain ⟨q, r, hev⟩ := ev_eq { s with pl := { s.pl with openNow := slotOp w == 0, openSpent := 0 } } Ev.planInstance
    rw [instBegun, hev]
    rfl
  have hgo : ¬(s.pl.lockGone = true ∧ planUnsettled s = true) := by
    rintro ⟨hgone, hun⟩
    rcases hpace with h | h
    · rw [hgone] at h; cases h
    · rw [hun] at h; cases h
  refine congrArg Host.Outcome.next ((if_neg hgo).trans (instance_rests hat hop ?_ ?_))
  · rw [hword, hown]
  · exact (Rests.pacedSyn (Rests.instBegun ⟨hat.1, hset⟩ w)).told (drive_sent _ _).told

theorem exec_kernel (hset : Settled s) (hop : slotOp w = 0xB) : exec .kernel s = .next (instDone (activity { instBegun s w with
    hl := { s.hl with kernelAc := SMap.put 0 s.hl.kernelAc (w % 64) (SMap.get 0 s.hl.kernelAc (w % 64) + 1) } } 16 4096 5 1) w) := by
  have hkernel : fld w 5 0 = w % 64 := by rw [fld_eq, Nat.pow_zero, Nat.div_one]; rfl
  have hhl : (instBegun s w).hl = s.hl := by
    obtain ⟨q, r, hev⟩ := ev_eq { s with pl := { s.pl with openNow := slotOp w == 0, openSpent := 0 } } Ev.planInstance
    rw [instBegun, hev]
  refine congrArg Host.Outcome.next (instance_rests hat hop (f := fun s w => _) ?_ ?_)
  · dsimp only
    rw [hkernel, hhl]
  · refine Rests.activity (Rests.told (Rests.instBegun ⟨hat.1, hset⟩ w) (told_hl _ ?_)) _ _ _ _
    exact (congrArg Health.rState hhl).symm

section
variable {st : Nat} {bs : Bytes} {as : List Nat} (hread : readInstance (instBegun s w) w = (u, st, bs, as))
include hread

theorem exec_arrToBlk (hop : slotOp w = 2) : exec .arrToBlk s = .next (advance (instDone (passCount (drive u (.blk
    { scheduled := true, group := if w.testBit 24 then w / 2 ^ 18 % 64 else 0, dst := if w.testBit 24 then 0x3FFFF else w % 2 ^ 18,
      status := st, qos := slotQos w, ctx := coverCtx u (as.headD 0), data := bs })) st) w)) := by
  have hgroup : fld w 23 18 = w / 2 ^ 18 % 64 := fld_eq w 23 18
  have hpeer : slotPeer w = w % 2 ^ 18 := by rw [slotPeer, fld_eq, Nat.pow_zero, Nat.div_one]
  refine congrArg Host.Outcome.next (instance_at hat hop ?_)
  simp only [hread, hgroup, hpeer]

theorem exec_arrToArr_failed (hop : slotOp w = 7) (hst : st ≠ 0) :
    exec .arrToArr s = .next (advance (instDone (passCount u st) w)) := by
  refine congrArg Host.Outcome.next (instance_at hat hop ?_)
  simp only [hread]
  exact if_pos hst

theorem exec_arrToArr (hop : slotOp w = 7) (hst : st = 0) :
    ∃ v st', planWrite u (as.getD 1 0) 0 (slotQos w) (w.testBit 27) (2 ^ 256 - 1) bs 28 = (v, st') ∧
      exec .arrToArr s = .next (advance (instDone (passCount v st') w)) := by
  obtain ⟨v, st', hwrite⟩ : ∃ v st', planWrite u (as.getD 1 0) 0 (slotQos w) (w.testBit 27) (2 ^ 256 - 1) bs 28 = (v, st') := ⟨_, _, rfl⟩
  refine ⟨v, st', hwrite, congrArg Host.Outcome.next (instance_at hat hop ?_)⟩
  simp only [hread]
  exact (if_neg (not_not.mpr hst)).trans hwrite

theorem exec_arrScan (hop : slotOp w = 8) : exec .arrScan s = .next (advance (instDone (passCount u st) w)) := by
  refine congrArg Host.Outcome.next (instance_at hat hop ?_)
  simp only [hread]

theorem exec_tthOut (hop : slotOp w = 9) : exec .tthOut s = .next (advance (instDone
    (passCount (if st = 0 then planSend u (as.headD 0) (slotQos w) bs else u) st) w)) := by
  refine congrArg Host.Outcome.next (instance_at hat hop ?_)
  simp only [hread]

end

section
variable {as : List Nat} (hgen : genAddrs (instBegun s w) w = (as, u))
include hgen

theorem exec_stageIn (hop : slotOp w = 5) :
    exec .stageIn s = .next (advance (instDone (stageInLine u (as.headD 0 / 512) (w / 2 ^ 25 % 4) (slotQos w)) w)) := by
  have hsrc : fld w 26 25 = w / 2 ^ 25 % 4 := fld_eq w 26 25
  have hcount (t : State) : passCount t St.ok = t := by unfold passCount; exact if_pos rfl
  refine congrArg Host.Outcome.next ((instance_at hat hop (st := St.ok)
    (t := stageInLine u (as.headD 0 / 512) (w / 2 ^ 25 % 4) (slotQos w)) ?_).trans ?_)
  · simp only [hgen, hsrc]
  · rw [hcount]

theorem exec_stageOut (hop : slotOp w = 6) : ∃ v st, stageOutLine u (as.headD 0 / 512) (slotQos w) = (v, st) ∧
    exec .stageOut s = .next (advance (instDone (passCount v st) w)) := by
  generalize hout : stageOutLine u (as.headD 0 / 512) (slotQos w) = r
  obtain ⟨v, st⟩ := r
  refine ⟨v, st, rfl, congrArg Host.Outcome.next (instance_at hat hop ?_)⟩
  simp only [hgen, hout]

section
variable (hnone : takeBeat u (w % 2 ^ 18) = (none, v))
include hnone

theorem exec_blkToArr_noBeat (hop : slotOp w = 3) : exec .blkToArr s = .next (advance (instDone (passCount
    (planNoBeat v (as.headD 0) (slotXform w) (slotQos w)) St.planNodata) w)) := by
  have hpeer : slotPeer w = w % 2 ^ 18 := by rw [slotPeer, fld_eq, Nat.pow_zero, Nat.div_one]
  refine congrArg Host.Outcome.next (instance_at hat hop ?_)
  simp only [hgen, hpeer, hnone]

theorem exec_blkAdd_noBeat (hop : slotOp w = 4) : exec .blkAdd s = .next (advance (instDone (passCount
    (planNoBeat v (as.headD 0) 0 (slotQos w)) St.planNodata) w)) := by
  have hpeer : slotPeer w = w % 2 ^ 18 := by rw [slotPeer, fld_eq, Nat.pow_zero, Nat.div_one]
  refine congrArg Host.Outcome.next (instance_at hat hop ?_)
  simp only [hgen, hpeer, hnone]

end

section
variable {mask : Nat} {bs : Bytes} (hbeat : takeBeat u (w % 2 ^ 18) = (some (mask, bs), v))
include hbeat

theorem exec_blkToArr (hop : slotOp w = 3) : ∃ x st, planWrite v (as.headD 0) (slotXform w) (slotQos w) (w.testBit 27) mask bs
      (if slotXform w = 1 then 25 else 12) = (x, st) ∧
    exec .blkToArr s = .next (advance (instDone (passCount
      (if (st = St.ok ∨ st = St.planMiss) ∧ slotXform w = 3 then planFeed x (w / 2 ^ 31 % 8) (maskedBytes mask bs) else x) st) w)) := by
  have hpeer : slotPeer w = w % 2 ^ 18 := by rw [slotPeer, fld_eq, Nat.pow_zero, Nat.div_one]
  have hfeed : fld w 33 31 = w / 2 ^ 31 % 8 := fld_eq w 33 31
  generalize hwrite : planWrite v (as.headD 0) (slotXform w) (slotQos w) (w.testBit 27) mask bs (if slotXform w = 1 then 25 else 12) = r
  obtain ⟨x, st⟩ := r
  refine ⟨x, st, rfl, congrArg Host.Outcome.next (instance_at hat hop ?_)⟩
  simp only [hgen, hpeer, hbeat, hwrite, hfeed]

theorem exec_blkAdd (hop : slotOp w = 4) : ∃ x st, planAdd v (as.headD 0) (w / 2 ^ 28 % 8) (slotQos w) mask bs = (x, st) ∧
    exec .blkAdd s = .next (advance (instDone (passCount x st) w)) := by
  have hpeer : slotPeer w = w % 2 ^ 18 := by rw [slotPeer, fld_eq, Nat.pow_zero, Nat.div_one]
  have hac : fld w 30 28 = w / 2 ^ 28 % 8 := fld_eq w 30 28
  generalize hadd : planAdd v (as.headD 0) (w / 2 ^ 28 % 8) (slotQos w) mask bs = r
  obtain ⟨x, st⟩ := r
  refine ⟨x, st, rfl, congrArg Host.Outcome.next (instance_at hat hop ?_)⟩
  simp only [hgen, hpeer, hbeat, hac, hadd]

end

end

end

/-- Settles O52: each row is an instance of its operation, whose own work is read off its definition. -/
theorem instanceRows : Obligations.InstanceRows := by
  refine ⟨?away, fun _ _ _ hat hset h => exec_idle hat hset h, fun _ _ hat hset => exec_quiet_bad hat hset, ?syn, ?kernel, ?reads, ?writes⟩
  case away =>
    intro c op s hc h
    obtain ⟨f, hf⟩ | hf := exec_instOp hc s
    · rw [hf, instance_away h]
    · exact hf
  case syn =>
    intro s w hat hset hop
    exact ⟨exec_synOut hat hset hop, fun hgone hun => congrArg Host.Outcome.next (if_pos ⟨hgone, hun⟩)⟩
  case kernel =>
    rintro s u w hat hset hop rfl
    exact exec_kernel hat hset hop
  case reads =>
    intro s u w st bs as hat hread
    exact ⟨exec_arrToBlk hat hread, exec_arrToArr_failed hat hread, exec_arrToArr hat hread, exec_arrScan hat hread, exec_tthOut hat hread⟩
  case writes =>
    intro s u v w as hat hgen
    exact ⟨exec_stageIn hat hgen, exec_stageOut hat hgen,
      fun hnone => ⟨exec_blkToArr_noBeat hat hgen hnone, exec_blkAdd_noBeat hat hgen hnone⟩,
      fun mask bs hbeat => ⟨exec_blkToArr hat hgen hbeat, exec_blkAdd hat hgen hbeat⟩⟩

end Sys2Proof.Machine
end


section
/-! The plan's commands, passes, holds, the switch and a stop (O51). -/

namespace Sys2Proof.Machine

open Sys2Proof

variable {s t u : State} {c : Cmd} {ring idx : Nat}

/-! ## The plan's commands where they start (R235 to R237, R436) -/

/-- The shadow bank emptied, as PLAN.LOAD begins (R235). -/
def shadowEmptied (s : State) : State :=
  { s with pl := { s.pl with banks := s.pl.banks.set (1 - s.pl.active) {}, shadowValid := false } }

/-- An image in the emptied shadow bank (R235). -/
def shadowFilled (s : State) (img : Bytes) : State :=
  { s with pl := { s.pl with
      shadowValid := true
      banks := s.pl.banks.set (1 - s.pl.active)
        { valid := true, header := img.take 64, gens := (img.drop 64).take 4096, slots := img.drop 4160 } } }

section
variable {input : Bytes} {bad : List BadBeat} (hst : s.pl.st ≠ 3) (hsw : s.pl.switchCmd = none)
include hst hsw

theorem planLoad_begins : ¬(s.pl.st = 3 ∨ s.pl.switchCmd.isSome = true) := by
  rw [hsw]
  exact fun h => h.elim hst (fun h => nomatch h)

/-- An image with beats that came back uncorrectable ends PLAN.LOAD with the bank empty. -/
theorem planLoad_badInput (hbad : bad ≠ []) : planLoad s c input bad = inputBad (shadowEmptied s) c bad := by
  rw [planLoad, if_neg (planLoad_begins hst hsw)]
  exact if_pos hbad

/-- An image that fails a check of R241 ends PLAN.LOAD with the bank empty. -/
theorem planLoad_badImage {k i : Nat} (himg : imageCheck (slice input 0 (imageSpan input)) (leAt c.desc 24 4) = .bad k i) :
    planLoad s c input [] = cmdEnd (shadowEmptied s) c.n St.badPlan k i := by
  rw [planLoad, if_neg (planLoad_begins hst hsw)]
  dsimp only
  rw [if_neg (not_not.mpr rfl), himg]
  rfl

/-- A good image fills the shadow bank. -/
theorem planLoad_good (himg : imageCheck (slice input 0 (imageSpan input)) (leAt c.desc 24 4) = .good) :
    planLoad s c input [] = cmdEnd (shadowFilled (shadowEmptied s) (slice input 0 (imageSpan input))) c.n St.ok 0 0 := by
  rw [planLoad, if_neg (planLoad_begins hst hsw)]
  dsimp only
  rw [if_neg (not_not.mpr rfl), himg]
  rfl

end

/-- PLAN.RUN of an IDLE sequencer with a valid bank and plan lock arms it (R236, R436). -/
theorem planRun_arms (hform : (leAt c.desc 16 1).testBit 0 = false) (hst : s.pl.st = 0) (hvalid : (planBank s s.pl.active).valid = true)
    (hlock : s.pw.planLock = true) : planRun s c =
      cmdEnd (planBegin { s with pl := { s.pl with veil := [] } } (s.now + 1) (runPasses c)) c.n St.ok (s.pl.pass % 2 ^ 48) 0 := by
  unfold planRun
  dsimp only
  rw [if_neg (Bool.eq_false_iff.mp hform), if_neg (not_not.mpr hst), if_neg (by simp [hvalid, hlock])]

/-- PLAN.RUN of the shadow bank switches at once where the sequencer is IDLE, else at the end of the pass (R237). -/
theorem planRun_switches (hform : (leAt c.desc 16 1).testBit 0 = true) (hst : s.pl.st ≤ 2) (hsw : s.pl.switchCmd = none)
    (hvalid : s.pl.shadowValid = true) (hlock : s.pw.planLock = true) : planRun s c =
      if s.pl.st = 0 then { s with pl := { s.pl with
        st := 3, fc := s.now, endFc := s.now, openNow := true, openSpent := 0, stopAt := 0, switchCmd := some (c.n, runPasses c) } }
      else { s with pl := { s.pl with switchCmd := some (c.n, runPasses c) } } := by
  have hfree : ¬(s.pl.st = 4 ∨ s.pl.st = 3 ∨ s.pl.switchCmd.isSome = true) := by
    rw [hsw]
    rintro (h | h | h)
    · omega
    · omega
    · cases h
  unfold planRun
  dsimp only
  rw [if_pos hform, if_neg hfree, if_neg (by simp [hvalid, hlock])]

/-- PLAN.STOP of an IDLE sequencer ends at once (R436). -/
theorem planStopCmd_idle (hst : s.pl.st = 0) : planStopCmd s c = cmdEnd s c.n St.ok (s.pl.pass % 2 ^ 48) 0 := if_pos hst

/-- PLAN.STOP of a sequencer that is not IDLE waits for IDLE (R436). -/
theorem planStopCmd_waits (hst : s.pl.st ≠ 0) : planStopCmd s c =
    if isExpert c then planAbort { s with pl := { s.pl with stopCmds := s.pl.stopCmds ++ [c.n] } } 2
    else planStop { s with pl := { s.pl with stopCmds := s.pl.stopCmds ++ [c.n] } } := if_neg hst

/-! ## Passes that end without a record (R203, R226, R233) -/

/-- A pass without a record closes by its digests and its beats; its slip is drawn (R233, R234). -/
def passClosed (s : State) : State :=
  { s with
    free := s.free + 1
    pl := { s.pl with digOut := s.pl.dig, wbuf := s.pl.wbuf.filter fun b => decide (s.pl.nominal + passLength (planSlots s) ≤ b.stamp) } }

theorem passClose_unrecorded (h : hdrRecMode (planHdr s) = 0) (aborted last hand : Bool) :
    passClose s aborted last hand = passClosed s := by
  have hrec (r : PassRec) : passRecord (passClosed s) r hand = passClosed s := by
    have hmode : hdrRecMode (planHdr (passClosed s)) = 0 := h
    unfold passRecord
    rw [hmode]
    rfl
  exact hrec _

/-- The sequencer IDLE, with the reason of the stop, no command waiting (R236, R238). -/
def planIdled (s : State) (reason : Nat) : State :=
  { s with pl := { s.pl with
    st := 0, stopReason := reason, stopAt := 0, openNow := true, openSpent := 0, charged := 0, holding := false, token := none,
    lockGone := false, wbuf := [], resv := [], stopCmds := [] } }

theorem planIdle_alone (hsum : s.pl.sum = none) (hsw : s.pl.switchCmd = none) (hcmds : s.pl.stopCmds = []) (reason : Nat) :
    planIdle s reason = postEvent (planIdled s reason) 2 St.planStopped 0 (s.pl.pass % 2 ^ 48) reason := by
  have hdrop : switchDrop s = s := by
    unfold switchDrop
    rw [hsw]
  unfold planIdle
  rw [hsum]
  dsimp only
  rw [hdrop, hcmds]
  rfl

/-! ## The rows of the plan's clock (R201 to R203, R221 to R226, R236, R237) -/

/-- The pass that starts at the nominal start `nom`, or as soon after as the sequencer may (R201). -/
def passBegun (s : State) (nom : Nat) : State :=
  { s with pl := { s.pl with
    st := 2, pass := (s.pl.pass + 1) % 2 ^ 48, nominal := nom, fc := max nom s.pl.fc, endFc := max nom s.pl.fc
    base := nom + passLength (planSlots s) + hdrGap (planHdr s), token := none, slot := 0, rep := 0, off := 0
    openNow := false, openSpent := 0, holds := 0, stopAt := 0, lockGone := false
    gidx := if hdrGenReset (planHdr s) then [] else s.pl.gidx
    dig := if hdrDigestPerPass (planHdr s) then [] else s.pl.dig
    acc := { bank := s.pl.active, number := (s.pl.pass + 1) % 2 ^ 48, startTs := tsNs s } } }

theorem passStart_begins {nom : Nat} (hst : s.pl.st = 1) (hhold : s.pl.holding = false) (hcharge : s.pl.charged = 0)
    (hlock : s.pw.planLock = true) (hnom : nextNominal s = some nom) : passStart s = passBegun s nom := by
  have hready : ¬(s.pl.st ≠ 1 ∨ s.pl.holding = true ∨ s.pl.charged ≠ 0 ∨ (!s.pw.planLock) = true) := by
    simp only [hst, hhold, hcharge, hlock, ne_eq, not_true_eq_false, Bool.false_eq_true, Bool.not_true, or_self, not_false_eq_true]
  unfold passStart
  rw [if_neg hready, hnom]
  rfl

/-- A sequencer that is not armed, has no plan lock or knows no nominal start starts no pass (R201). -/
theorem passStart_waits (h : s.pl.st ≠ 1 ∨ s.pw.planLock = false ∨ nextNominal s = none) : passStart s = s := by
  unfold passStart
  split
  · rfl
  next hready =>
    rcases h with h | h | h
    · exact absurd (.inl h) hready
    · exact absurd (.inr (.inr (.inr (by rw [h]; rfl)))) hready
    · rw [h]

/-- A hold begun, which opens the cycle (R221, R223). -/
def holdBegun (s : State) : State :=
  { s with pl := { s.pl with holding := true, openNow := true, openSpent := if s.pl.st = 2 then 0 else s.pl.openSpent } }

/-- A hold ended: 64 fc for every charge (R223, R225). -/
def holdEnded (s : State) : State :=
  { s with pl := { s.pl with
    fc := s.pl.fc + 64 * s.pl.charged, charged := 0, holding := false, openNow := s.pl.st != 2
    openSpent := if s.pl.st = 2 then 0 else s.pl.openSpent } }

theorem exec_holdStart (h : Rests s) (hcharge : s.pl.charged ≠ 0) (hhold : s.pl.holding = false) (hst : s.pl.st = 1 ∨ s.pl.st = 2) :
    exec .holdStart s = .next (holdBegun s) := by
  have hready : ¬(s.pl.charged = 0 ∨ s.pl.holding = true ∨ (s.pl.st ≠ 2 ∧ s.pl.st ≠ 1)) := by
    rw [hhold]
    rintro (h | h | ⟨h2, h1⟩)
    · exact hcharge h
    · cases h
    · exact hst.elim h1 h2
  have hstart : holdStart s = holdBegun s := if_neg hready
  have hrests : Rests (holdBegun s) := h.plan (by rfl)
  refine congrArg Host.Outcome.next ((if_pos h.serves).trans ?_)
  rw [hstart, hrests.advance]

theorem exec_holdEnd (h : Rests s) (hhold : s.pl.holding = true) : exec .holdEnd s = .next (holdEnded s) := by
  have hend : holdEnd s = holdEnded s := if_neg (by rw [hhold]; decide)
  have hrests : Rests (holdEnded s) := h.plan (by rfl)
  refine congrArg Host.Outcome.next ((if_pos h.serves).trans ?_)
  rw [hend, hrests.advance]

/-- The plan with its next pass armed (R226). -/
def passArmed (s : State) : State := { s with pl := { s.pl with st := 1, openNow := true, openSpent := 0 } }

/-- A pass that ends without a record and without a reason to stop. -/
theorem passEnd_arms (hst : s.pl.st = 2) (hslots : (planSlots s).length ≤ s.pl.slot) (hrec : hdrRecMode (planHdr s) = 0)
    (hgone : s.pl.lockGone = false) (hslip : hdrSlipLimit (planHdr s) = 0) (hstop : s.pl.stopAt = 0) (hpasses : s.pl.passes = 0)
    (hsw : s.pl.switchCmd = none) : passEnd s = passArmed (passClosed { s with pl := { s.pl with ran := s.pl.ran + 1 } }) := by
  have hready : ¬(s.pl.st ≠ 2 ∨ s.pl.slot < (planSlots s).length) := by omega
  have hreason : (if s.pl.lockGone = true then 3 else
      if decide (hdrSlipLimit (planHdr s) ≠ 0 ∧ s.pl.holds > hdrSlipLimit (planHdr s)) = true then 4 else
      if s.pl.stopAt ≠ 0 then s.pl.stopAt
      else if s.pl.passes ≠ 0 ∧ s.pl.ran + 1 ≥ s.pl.passes ∧ s.pl.switchCmd.isNone = true then 1 else 0) = 0 := by
    simp [hgone, hslip, hstop, hpasses]
  unfold passEnd
  rw [if_neg hready]
  dsimp only
  rw [hreason, passClose_unrecorded (by exact hrec), if_neg (not_not.mpr rfl), hsw]
  rfl

theorem Rests.free (h : Rests s) (n : Nat) : Rests { s with free := n } :=
  ⟨h.serves, h.settled.evicts, h.settled.waiting, h.settled.presented, h.settled.fences, h.settled.sums, h.settled.stageOuts,
    h.settled.failing, h.settled.flips, h.settled.bufs, h.settled.drains, h.settled.rollLogs, h.settled.cmds, h.settled.retire⟩

theorem Rests.passClosed (h : Rests s) : Rests (passClosed s) := (h.free (s.free + 1)).plan (by rfl)

/-- What the slice does as it goes on leaves the banks and the active one, and the time (R235). -/
theorem advance_banks (s : State) : (advance s).pl.banks = s.pl.banks ∧ (advance s).pl.active = s.pl.active ∧ (advance s).tm = s.tm := by
  have hkeep := advance_keeps (gr := fun _ => true) (Keeps.refl _ s)
  obtain ⟨hbanks, hactive⟩ := hkeep.plan rfl
  exact ⟨hbanks, hactive, hkeep.time rfl⟩

theorem planIdle_banks (s : State) (r : Nat) :
    (planIdle s r).pl.banks = s.pl.banks ∧ (planIdle s r).pl.active = s.pl.active ∧ (planIdle s r).tm = s.tm := by
  have hkeep := planIdle_keeps (gr := fun _ => true) (reason := r) (Keeps.refl _ s)
  obtain ⟨hbanks, hactive⟩ := hkeep.plan rfl
  exact ⟨hbanks, hactive, hkeep.time rfl⟩

/-- The other bank active, its plan armed and the PLAN.RUN that waited ended (R236, R237). -/
def switched (s : State) (n passes : Nat) : State :=
  cmdEnd (planBegin { s with pl := { s.pl with
      active := 1 - s.pl.active, shadowValid := (planBank s s.pl.active).valid, switchCmd := none } } (s.pl.fc + 17) passes)
    n St.ok (at_ (1 - s.pl.active) 8) 0

theorem switchDone_switches {n passes : Nat} (hst : s.pl.st = 3) (hsw : s.pl.switchCmd = some (n, passes)) :
    switchDone s = if s.pl.stopAt ≠ 0 then planIdle (switched s n passes) s.pl.stopAt else switched s n passes := by
  unfold switchDone
  rw [if_neg (not_not.mpr hst), hsw]
  rfl

theorem switchDone_banks {n passes : Nat} (hst : s.pl.st = 3) (hsw : s.pl.switchCmd = some (n, passes)) :
    (switchDone s).pl.active = 1 - s.pl.active ∧ (switchDone s).pl.banks = s.pl.banks ∧ (switchDone s).tm = s.tm := by
  rw [switchDone_switches hst hsw]
  split
  · obtain ⟨hbanks, hactive, htm⟩ := planIdle_banks (switched s n passes) s.pl.stopAt
    exact ⟨hactive, hbanks, htm⟩
  · exact ⟨rfl, rfl, rfl⟩

/-- Settles O51: each row's change of the plan is read off its definition; a slice with nothing to go on with ends there, and what
else goes on leaves the banks. -/
theorem passRows : Obligations.PassRows := by
  refine ⟨?start, fun s h => ?waits, fun s hs hset => exec_holdStart ⟨hs, hset⟩, fun s hs hset => exec_holdEnd ⟨hs, hset⟩, ?passEnd,
    ?switch, ?stopping, ?load, ?run, ?stop⟩
  case start =>
    intro s nom hs hst hhold hcharge hlock hnom
    refine ⟨passBegun s nom, congrArg Host.Outcome.next ((if_pos hs).trans (passStart_begins hst hhold hcharge hlock hnom)), ?_⟩
    exact ⟨rfl, rfl, rfl, rfl, rfl, rfl, rfl, rfl, rfl, rfl, rfl, rfl, rfl, rfl⟩
  case waits =>
    refine congrArg Host.Outcome.next ?_
    rw [passStart_waits h, ite_self]
  case passEnd =>
    intro s hs hset hst hslots hrec hgone hslip hstop hpasses hsw
    have hrests : Rests (passArmed (passClosed { s with pl := { s.pl with ran := s.pl.ran + 1 } })) :=
      (Rests.passClosed (Rests.plan ⟨hs, hset⟩ (by rfl))).plan (by rfl)
    refine ⟨passArmed (passClosed { s with pl := { s.pl with ran := s.pl.ran + 1 } }),
      congrArg Host.Outcome.next ((if_pos hs).trans ?_), rfl, rfl, rfl, rfl, rfl, rfl, rfl⟩
    rw [passEnd_arms hst hslots hrec hgone hslip hstop hpasses hsw, hrests.advance]
  case switch =>
    intro s n passes hst hsw
    obtain ⟨hbanks, hactive, htm⟩ := advance_banks (switchDone s)
    obtain ⟨hswitched, hkept, htime⟩ := switchDone_banks hst hsw
    exact ⟨_, rfl, hactive.trans hswitched, hbanks.trans hkept, htm.trans htime⟩
  case stopping =>
    intro s hs hset hst hrec hsum hsw hcmds
    have hclosed := Rests.passClosed (s := s) ⟨hs, hset⟩
    have hidled : Rests (planIdled (passClosed s) s.pl.stopAt) := hclosed.plan (by rfl)
    have hsent := postEvent_sent (planIdled (passClosed s) s.pl.stopAt) 2 St.planStopped 0 ((passClosed s).pl.pass % 2 ^ 48) s.pl.stopAt
    have hdone : stoppingDone s =
        postEvent (planIdled (passClosed s) s.pl.stopAt) 2 St.planStopped 0 ((passClosed s).pl.pass % 2 ^ 48) s.pl.stopAt := by
      unfold stoppingDone
      rw [if_neg (not_not.mpr hst), passClose_unrecorded hrec, planIdle_alone (s := passClosed s) hsum hsw hcmds]
    refine ⟨_, congrArg Host.Outcome.next ((congrArg advance hdone).trans (hidled.told hsent.told).advance), ?_⟩
    rw [hsent.pl, hsent.arr]
    exact ⟨rfl, rfl, rfl, rfl, rfl⟩
  case load =>
    intro ring idx input c s h hst hsw himg
    have hload := planLoad_good (s := begun s c) (c := { c with started := true }) (show s.pl.st ≠ 3 by omega) hsw himg
    exact ⟨_, next_startCmd h hload, endsOk_cmdEnd (begun_mem h) _ _, rfl, rfl, hst⟩
  case run =>
    intro ring idx c s h hform hst hvalid hlock
    have hrun := planRun_arms (s := begun s c) (c := { c with started := true }) hform hst hvalid hlock
    exact ⟨_, next_startCmd h hrun, endsOk_cmdEnd (begun_mem h) _ _, rfl, rfl, rfl⟩
  case stop =>
    intro ring idx c s h
    refine ⟨fun hst => ?_, fun hst hexp => ?_⟩
    · have hstop := planStopCmd_idle (s := begun s c) (c := { c with started := true }) hst
      exact ⟨_, next_startCmd h hstop, endsOk_cmdEnd (begun_mem h) _ _, rfl⟩
    · have hstop := planStopCmd_waits (s := begun s c) (c := { c with started := true }) (show s.pl.st ≠ 0 by omega)
      refine ⟨_, next_startCmd h (hstop.trans ((if_neg (Bool.eq_false_iff.mp hexp)).trans (if_pos hst))), rfl, hst, rfl⟩

end Sys2Proof.Machine
end


section
/-! The plan, pair, test, patch and retirement commands (O44). -/

namespace Sys2Proof.Machine

open Sys2Proof

variable {s t u : State} {c : Cmd} {ring idx : Nat}

/-! ## PAIR.TAKEOVER (R353, R439) -/

/-- The fellow's lasts are taken, at most one for each PAIRED definition, and the pair is TAKEN_OVER. -/
theorem pairTakeover_counts (hst : s.pr.st = 2) (hid : leAt c.desc 16 4 % 2 ^ 18 = s.pr.fellowId) (defs : List (Nat × Last)) :
    ∃ (t : State) (n : Nat), n ≤ (defs.filter fun d => aPaired d.2.attr).length ∧
      pairTakeover defs s c = cmdEnd { t with pr := { t.pr with st := 5 } } c.n St.ok (n % 65536) 0 := by
  have hpaired : pairTakeover (defs.filter fun d => aPaired d.2.attr) s c = pairTakeover defs s c := by
    simp only [pairTakeover, List.filter_filter, Bool.and_self]
  obtain ⟨t, n, htake, hn, ht, -⟩ := pairTakeover_takes hst hid (defs.filter fun d => aPaired d.2.attr)
  have hown : { t with pr := { t.pr with st := 5 } } = t := by rw [← ht]
  exact ⟨t, n, hn, by rw [hown, ← htake, hpaired]⟩

/-! ## TEST.RUN (R441, R496) -/

/-- Every bit of `n` is that of a kernel that the command names. -/
def NamedKernels (c : Cmd) (n : Nat) : Prop := ∀ k, n.testBit k = true → k < 48 ∧ (testMask c).testBit k = true

theorem NamedKernels.zero (c : Cmd) : NamedKernels c 0 := fun k h => absurd h (by simp)

/-- The kernels that fail are among those run. -/
theorem NamedKernels.or {n k : Nat} (h : NamedKernels c n) (hk : k < 48 ∧ (testMask c).testBit k = true) : NamedKernels c (n ||| 2 ^ k) := by
  intro j hj
  rw [Nat.testBit_or, Bool.or_eq_true, Nat.testBit_two_pow] at hj
  rcases hj with hj | hj
  · exact h j hj
  · obtain rfl : k = j := of_decide_eq_true hj
    exact hk

/-- One round of the kernels `ks` (R441). -/
def kernelsRun (stress : Bool) (ks : List Nat) (x : State × Nat) : State × Nat :=
  ks.foldl (fun (y : State × Nat) k =>
    match testKernel y.1 stress k with
    | (s, true) => (s, y.2 ||| 2 ^ k)
    | (s, false) => (s, y.2)) x

theorem kernelsRun_named {stress : Bool} {ks : List Nat} (hks : ∀ k ∈ ks, k < 48 ∧ (testMask c).testBit k = true) {x : State × Nat}
    (hx : NamedKernels c x.2) : NamedKernels c (kernelsRun stress ks x).2 := by
  induction ks generalizing x with
  | nil => exact hx
  | cons k ks ih =>
    obtain ⟨hk, hrest⟩ := List.forall_mem_cons.mp hks
    refine ih hrest ?_
    dsimp only
    split
    · exact hx.or hk
    · exact hx

/-- A round of a TEST.RUN: its kernels, and its pack where it names one. -/
def testRound (c : Cmd) (stress : Bool) (x : State × Nat × Option Nat) : State × Nat × Option Nat :=
  let r := kernelsRun stress ((List.range 48).filter fun k => (testMask c).testBit k) (x.1, x.2.1)
  if (leAt c.desc 24 1).testBit 7 then
    ((packRun r.1 (leAt c.desc 24 1 % 4)).1, r.2, x.2.2.or (packRun r.1 (leAt c.desc 24 1 % 4)).2)
  else (r.1, r.2, x.2.2)

theorem testRuns_eq (s : State) (c : Cmd) (stress : Bool) : testRuns s c stress =
    (List.range (1 + if isExpert c then leAt c.desc 28 4 else 0)).foldl (fun x _ => testRound c stress x) (s, 0, none) := rfl

/-- What a round leaves: failures of named kernels alone, and no pack test where no pack is named. -/
def TestSound (c : Cmd) (x : State × Nat × Option Nat) : Prop :=
  NamedKernels c x.2.1 ∧ ((leAt c.desc 24 1).testBit 7 = false → x.2.2 = none)

theorem TestSound.round {x : State × Nat × Option Nat} (h : TestSound c x) (stress : Bool) : TestSound c (testRound c stress x) := by
  obtain ⟨hnamed, hpack⟩ := h
  have hks : ∀ k ∈ (List.range 48).filter fun k => (testMask c).testBit k, k < 48 ∧ (testMask c).testBit k = true := by
    intro k hk
    obtain ⟨hlt, hbit⟩ := List.mem_filter.mp hk
    exact ⟨List.mem_range.mp hlt, hbit⟩
  have hrun := kernelsRun_named (stress := stress) hks (x := (x.1, x.2.1)) hnamed
  unfold testRound
  dsimp only
  split
  next hbit => exact ⟨hrun, fun hno => by rw [hbit] at hno; cases hno⟩
  · exact ⟨hrun, hpack⟩

theorem testRuns_sound (s : State) (c : Cmd) (stress : Bool) : TestSound c (testRuns s c stress) := by
  have hfold (l : List Nat) (x : State × Nat × Option Nat) (hx : TestSound c x) :
      TestSound c (l.foldl (fun x _ => testRound c stress x) x) := by
    induction l generalizing x with
    | nil => exact hx
    | cons n l ih => exact ih _ (hx.round stress)
  rw [testRuns_eq]
  exact hfold _ _ ⟨.zero c, fun _ => rfl⟩

section
variable (hpack : (leAt c.desc 24 1).testBit 7 = true → SMap.get [] s.hl.packs (leAt c.desc 24 1 % 4) ≠ [])
include hpack

theorem testRun_packed : ¬((leAt c.desc 24 1).testBit 7 && (SMap.get [] s.hl.packs (leAt c.desc 24 1 % 4)).isEmpty) = true := by
  rw [Bool.and_eq_true]
  rintro ⟨hbit, hempty⟩
  exact hpack hbit (List.isEmpty_iff.mp hempty)

/-- TEST.RUN without stress runs its kernels and ends (R441). -/
theorem testRun_runs (hstress : (leAt c.desc 25 1).testBit 0 = false) :
    testRun s c = testEnd (testRuns s c false).1 c.n (testRuns s c false).2.1 (testRuns s c false).2.2 := by
  unfold testRun
  dsimp only
  rw [if_neg (testRun_packed hpack), if_neg (Bool.eq_false_iff.mp hstress)]

/-- TEST.RUN with stress asks for the operating point (R496). -/
theorem testRun_stresses (hstress : (leAt c.desc 25 1).testBit 0 = true) (hst : s.pl.st = 0) (hno : s.hl.stress = 0) :
    testRun s c = hdrSend { s with hl := { s.hl with stress := 1, stressCmd := c.n } } 0x22 (csrFld s 0xC28 31 16) [] := by
  unfold testRun
  dsimp only
  rw [if_neg (testRun_packed hpack), if_pos hstress, if_neg (not_not.mpr hst), if_neg (not_not.mpr hno)]

end

/-! ## The signed tables (R440, R574, R575) -/

section
variable {input img : Bytes} {content : Nat}

theorem testLoadpack_badInput {bad : List BadBeat} (hlen : tableLenBad (leAt c.desc 24 4) = false) (haddr : leAt c.desc 16 8 % 64 = 0)
    (hbad : bad ≠ []) : testLoadpack s c input bad = inputBad s c bad := by
  unfold testLoadpack
  dsimp only
  rw [if_neg (Bool.eq_false_iff.mp hlen), if_neg (not_not.mpr haddr), if_pos hbad]

/-- TEST.LOADPACK keeps a pack whose header and signature are good. -/
theorem testLoadpack_stores (hlen : tableLenBad (leAt c.desc 24 4) = false) (haddr : leAt c.desc 16 8 % 64 = 0)
    (himg : img = slice input 0 (leAt c.desc 24 4)) (hcontent : content = 64 + 32 * leAt img 8 2) (hmagic : leAt img 0 4 = 0x4B505244)
    (hpos : 0 < leAt img 8 2) (hmax : leAt img 8 2 ≤ 496) (hrom : leAt img 10 2 ≤ s.pw.romBuild)
    (hsize : leAt c.desc 24 4 = ceilDiv content 64 * 64 + 256) (hsig : leAt img 12 2 = 256) : testLoadpack s c input [] =
      if sigGood s img content true then
        cmdEnd { s with hl := { s.hl with packs := SMap.put [] s.hl.packs (leAt c.desc 28 1 % 4) img } } c.n St.ok (leAt img 4 4) 0
      else cmdEnd s c.n St.badSignature 0 0 := by
  have hheader : ¬(leAt img 0 4 ≠ 0x4B505244 ∨ leAt img 8 2 = 0 ∨ 496 < leAt img 8 2 ∨ s.pw.romBuild < leAt img 10 2 ∨
      leAt c.desc 24 4 ≠ ceilDiv content 64 * 64 + leAt img 12 2) := by
    rw [hsig]
    omega
  unfold testLoadpack
  dsimp only
  rw [← himg, ← hcontent, if_neg (Bool.eq_false_iff.mp hlen), if_neg (not_not.mpr haddr), if_neg (not_not.mpr rfl), if_neg hheader]
  cases hgood : sigGood s img content true with
  | true => rw [if_neg (by simp [hsig]), if_pos rfl]
  | false => rw [if_pos (by simp), if_neg (by decide), refuseCmd]

theorem patchLoad_badInput {bad : List BadBeat} (hfirst : s.rg.patched = false) (hlate : c.late = false)
    (hlen : tableLenBad (leAt c.desc 24 4) = false) (haddr : leAt c.desc 16 8 % 64 = 0)
    (hbad : bad ≠ []) : patchLoad s c input bad = inputBad s c bad := by
  unfold patchLoad
  dsimp only
  rw [if_neg (by simp [hfirst, hlate]), if_neg (Bool.eq_false_iff.mp hlen), if_neg (not_not.mpr haddr), if_pos hbad]

/-- PATCH.LOAD keeps a table for this ROM whose header and signature are good. -/
theorem patchLoad_stores (hfirst : s.rg.patched = false) (hlate : c.late = false)
    (hlen : tableLenBad (leAt c.desc 24 4) = false) (haddr : leAt c.desc 16 8 % 64 = 0)
    (himg : img = slice input 0 (leAt c.desc 24 4)) (hcontent : content = 64 + leAt img 8 4) (hmagic : leAt img 0 4 = 0x48545044)
    (hpos : 0 < leAt img 6 1) (hmax : leAt img 6 1 ≤ 64) (hsize : leAt c.desc 24 4 = ceilDiv content 64 * 64 + 256) :
    patchLoad s c input [] =
      if leAt img 4 2 = s.pw.romBuild ∧ s.pw.minSvn ≤ leAt img 7 1 ∧ sigGood s img content false = true then
        cmdEnd { s with rg := { s.rg with patched := true, patchTable := img } } c.n St.ok (leAt img 6 1) 0
      else cmdEnd s c.n St.badSignature 0 0 := by
  have hheader : ¬(leAt img 0 4 ≠ 0x48545044 ∨ leAt img 6 1 = 0 ∨ 64 < leAt img 6 1 ∨
      leAt c.desc 24 4 ≠ ceilDiv content 64 * 64 + 256) := by omega
  unfold patchLoad
  dsimp only
  rw [← himg, ← hcontent, if_neg (by simp [hfirst, hlate]), if_neg (Bool.eq_false_iff.mp hlen), if_neg (not_not.mpr haddr),
    if_neg (not_not.mpr rfl), if_neg hheader]
  by_cases hgood : leAt img 4 2 = s.pw.romBuild ∧ s.pw.minSvn ≤ leAt img 7 1 ∧ sigGood s img content false = true
  · obtain ⟨hbuild, hsvn, hsig⟩ := hgood
    have hnone : ¬(leAt img 4 2 ≠ s.pw.romBuild ∨ leAt img 7 1 < s.pw.minSvn ∨ (!sigGood s img content false) = true) := by
      rw [hsig]
      rintro (h | h | h)
      · exact h hbuild
      · omega
      · cases h
    rw [if_neg hnone, if_pos ⟨hbuild, hsvn, hsig⟩]
  · rw [if_neg hgood, if_pos, refuseCmd]
    by_contra hno
    simp only [ne_eq, not_or, not_not, not_lt, Bool.not_eq_true', Bool.not_eq_false] at hno
    exact hgood hno

end

/-! ## SLICE.RETIRE (R449, R504) -/

/-- A request for retirement raised leaves the first reason, and the commands that wait. -/
theorem raiseRetire_reason (h : s.hl.rState ≤ 1) (reason subject : Nat) :
    (raiseRetire s reason subject).hl.rState = 1 ∧
      (raiseRetire s reason subject).hl.rReason = (if s.hl.rState = 0 then reason else s.hl.rReason) ∧
      (raiseRetire s reason subject).hl.rCmds = s.hl.rCmds := by
  have hkeep := (Reported.refl s).raiseRetire reason subject
  refine and_assoc.mp ⟨?_, hkeep.same (·.hl.rCmds)⟩
  by_cases hnew : s.hl.rState = 0
  · obtain ⟨hstate, hreason, -⟩ := raiseRetire_raises hnew reason subject
    exact ⟨hstate, by rw [if_pos hnew]; exact hreason⟩
  · obtain ⟨_, _, _, _, _, _, _, _, _, _, _, hadd⟩ := ledAdd_entered s 8 subject 0
    have hraise : raiseRetire s reason subject = ledAdd s 8 subject 0 := by
      unfold raiseRetire
      rw [hadd]
      exact if_pos hnew
    rw [hraise, hadd, if_neg hnew]
    exact ⟨Nat.le_antisymm h (Nat.one_le_iff_ne_zero.mpr hnew), rfl⟩

/-- SLICE.RETIRE starts the drain, with the reason of a request already raised, else its own (R449, R504). -/
theorem sliceRetire_begins (h : s.hl.rState ≤ 1) : ∃ u, sliceRetire s c = drainBegun u ∧
    u.hl.rReason = (if s.hl.rState = 0 then 7 else s.hl.rReason) ∧ u.hl.rCmds = s.hl.rCmds ++ [c.n] ∧
      u.hl.noDrain = (leAt c.desc 16 1).testBit 0 := by
  obtain ⟨hstate, hreason, hcmds⟩ := raiseRetire_reason h 7 ((at_ (leAt c.desc 20 4) 4 + 7) % 2 ^ 32)
  unfold sliceRetire
  rw [if_neg (Nat.not_le.mpr (Nat.lt_succ_of_le h))]
  exact ⟨_, drainStart_begins (Nat.lt_succ_of_le hstate.le), hreason, congrArg (· ++ [c.n]) hcmds, rfl⟩

/-- Settles O44: what each command does where it starts is read off its definition. -/
theorem planAndUnitCommands : Obligations.PlanAndUnitCommands := by
  refine ⟨?load, ?run, ?switch, ?idle, ?stop, ?resync, ?takeover, ?test, ?stress, ?pack, ?patch, ?retire⟩
  case load =>
    rintro ring idx input c s h hst hsw sh u rfl rfl
    exact ⟨fun bad hbad => next_startCmd h (planLoad_badInput (s := begun s c) hst hsw hbad),
      fun k i himg => next_startCmd h (planLoad_badImage (s := begun s c) hst hsw himg),
      fun img himg hgood => next_startCmd h (by rw [himg]; exact planLoad_good (s := begun s c) hst hsw (by rw [← himg]; exact hgood))⟩
  case run =>
    intro ring idx c s h hform hst hvalid hlock
    exact next_startCmd h (planRun_arms (s := begun s c) hform hst hvalid hlock)
  case switch =>
    intro ring idx c s h hform hst hsw hvalid hlock
    exact next_startCmd h (planRun_switches (s := begun s c) hform hst hsw hvalid hlock)
  case idle =>
    intro ring idx c s h hst
    exact next_startCmd h (planStopCmd_idle (s := begun s c) hst)
  case stop =>
    rintro ring idx c s h hst u rfl
    exact next_startCmd h (planStopCmd_waits (s := begun s c) hst)
  case resync =>
    intro ring idx c s h hlink hst
    refine next_startCmd h (if_neg ?_)
    exact fun hno => hno.elim (fun hdown => hdown hlink) (fun hpair => hpair hst)
  case takeover =>
    intro ring idx defs c s h hst hid
    obtain ⟨t, n, hn, htake⟩ := pairTakeover_counts (s := begun s c) (c := { c with started := true }) hst hid defs
    exact ⟨t, n, hn, next_startCmd h htake⟩
  case test =>
    intro ring idx c s h hstress hpack
    obtain ⟨hnamed, hnone⟩ := testRuns_sound (begun s c) { c with started := true } false
    exact ⟨_, _, _, next_startCmd h (testRun_runs (s := begun s c) hpack hstress), hnamed, hnone⟩
  case stress =>
    intro ring idx c s h hstress hpack hst hno
    exact next_startCmd h (testRun_stresses (s := begun s c) hpack hstress hst hno)
  case pack =>
    intro ring idx input c s h hlen haddr
    refine ⟨fun bad hbad => next_startCmd h (testLoadpack_badInput hlen haddr hbad), ?_⟩
    intro img content himg hcontent hmagic hpos hmax hrom hsize hsig
    exact next_startCmd h (testLoadpack_stores (s := begun s c) hlen haddr himg hcontent hmagic hpos hmax hrom hsize hsig)
  case patch =>
    intro ring idx input c s h hfirst hlate hlen haddr
    refine ⟨fun bad hbad => next_startCmd h (patchLoad_badInput (s := begun s c) hfirst hlate hlen haddr hbad), ?_⟩
    intro img content himg hcontent hmagic hpos hmax hsize
    exact next_startCmd h (patchLoad_stores (s := begun s c) hfirst hlate hlen haddr himg hcontent hmagic hpos hmax hsize)
  case retire =>
    intro ring idx c s h hstate
    obtain ⟨u, hretire, hreason, hcmds, hdrain⟩ := sliceRetire_begins (s := begun s c) (c := { c with started := true }) hstate
    exact ⟨_, next_startCmd h hretire, rfl, rfl, rfl, hreason, hcmds, hdrain⟩

end Sys2Proof.Machine
end


section
/-! Doorbells, descriptors, records and interrupts (O45). -/

namespace Sys2Proof.Machine

open Sys2Proof

variable {s t g u : State} {n idx : Nat}

/-! ## Rings and the requests of the slice on HST -/

@[simp] theorem ringGet_ringPut (s : State) (n : Nat) (r : Ring) : ringGet (ringPut s n r) n = r := SMap.get_put_self

theorem ringGet_of_rings (h : t.rg.rings = s.rg.rings) (n : Nat) : ringGet t n = ringGet s n := by rw [ringGet, ringGet, h]

theorem Sent.rings (h : Sent s t) : t.rg.rings = s.rg.rings := by obtain ⟨_, _, _, _, _, _, _, _, _, rfl⟩ := h; rfl

/-- With credits and nothing waiting before it, a request of the slice on HST is driven (R266). -/
theorem hstRequest_driven {opcode addr size mod op : Nat} {data : Bytes} (htx : s.txq = []) (hports : portsHalt s = false)
    (hcred : SMap.get 0 s.credits 11 ≠ 0) : Out.msg .hst
      { cls := 3, opcode := opcode, qos := csrFld s 0x3080 27 24, mod := mod, tag := s.coh.tag, src := ownId s, addr := addr, size := size,
        op := op, data := data } ∈ (hstRequest s opcode addr size mod op data).2.out :=
  sendCh_driven (s := { s with coh := { s.coh with tag := (s.coh.tag + 1) % 256 } }) hcred htx hports

/-- What arrives for a request of the slice's own takes effect where the slice is neither fenced nor held (R16, R450, R558). -/
theorem taken_arrives {c : Instr} {a : Arrival} {got f : State → State} (hf : s.hd.fenced = false) (hp : s.pw.pstate = 2 ∨ s.pw.pstate = 5) :
    taken s c a got f = match a with
      | .ok => f (got s)
      | .header => parityRecord (got s) { port := .hst, parity := .header }
      | .payload src => parityRecord (got s) { port := .hst, src := src, parity := .payload }
      | .refused => ev (got s) Ev.msgBad := by
  have hheld : ¬(s.pw.pstate = Ps.retention ∨ (s.pw.pstate = Ps.backupHold ∧ (!s.pw.coreDown) = true)) := by
    rintro (h | ⟨h, -⟩) <;> rcases hp with k | k <;> rw [k] at h <;> cases h
  have hserves : ¬(s.pw.pstate ≠ Ps.serving ∧ s.pw.pstate ≠ Ps.quiesce) := by
    rintro ⟨h2, h5⟩
    exact hp.elim h2 h5
  rw [taken, if_neg (Bool.eq_false_iff.mp hf), if_neg hheld, if_neg hserves] <;> rfl

/-! ## The doorbell line (R393 to R395) -/

/-- The GO and the DATA of a reading are metered and their credits returned (R266, R268). -/
theorem readingGot_eq (s : State) (n : Nat) :
    ∃ q, readingGot s n = { s with qs := q, out := s.out ++ [.credit .hst 1, .credit .hst 0] } := by
  have harrives (t : State) (m : Msg) (hm : m.port = .hst) (cls payload : Nat) (hcls : cls < 2) :
      ∃ q, arrives t m cls payload = { t with qs := q, out := t.out ++ [.credit .hst cls] } := by
    have hport : ¬ m.port = .blk := by rw [hm]; decide
    rw [arrives, if_neg hport]
    dsimp only
    rw [if_neg (by omega), hm]
    exact ⟨_, rfl⟩
  obtain ⟨q, hgo⟩ := harrives s (ownMsg s (csrGet s (0x1010 + 64 * n))) rfl 1 0 (by decide)
  obtain ⟨q', hdata⟩ := harrives (arrives s (ownMsg s (csrGet s (0x1010 + 64 * n))) 1 0) (ownMsg s (csrGet s (0x1010 + 64 * n))) rfl 0 64 (by decide)
  refine ⟨q', ?_⟩
  rw [readingGot, hdata, hgo]
  simp only [List.append_assoc, List.cons_append, List.nil_append]

/-- A reading asked for gives the ring its values, unparks it from a lost order and lets it go on (R395). -/
theorem doorbell_read {prod cpl evt e : Nat} {v : State} (hg : ringGet g n = ringGet s n) (hw : (ringGet s n).watch = 1)
    (he : e = if n < 4 then evt else 0)
    (hu : u = if (ringGet s n).read = true ∧ (ringGet s n).prod = prod ∧ (ringGet s n).cplCons = cpl ∧ (ringGet s n).evtCons = e
      then ev g Ev.doorbellSpurious else g)
    (hv : v = ringPut u n { ringGet s n with
      prod := prod, cplCons := cpl, evtCons := e, read := true, watch := 2
      parked := if (ringGet s n).parked = 1 then 0 else (ringGet s n).parked }) :
    doorbell g n prod cpl evt = advance (ringGo (if (ringGet s n).again = true then watchIssue v n else v) n) := by
  have hsame : ((ringGet s n).read && (ringGet s n).prod == prod && (ringGet s n).cplCons == cpl && (ringGet s n).evtCons == e) = true ↔
      (ringGet s n).read = true ∧ (ringGet s n).prod = prod ∧ (ringGet s n).cplCons = cpl ∧ (ringGet s n).evtCons = e := by
    simp only [Bool.and_eq_true, beq_iff_eq, and_assoc]
  unfold doorbell
  dsimp only
  rw [hg, if_neg (not_not.mpr hw), ← he, if_congr hsame rfl rfl, ← hu, ← hv]

/-! ## Descriptor reads (R311, R391) -/

/-- The last of the descriptors of a read brings the message of them all: the read is no more outstanding (R268). -/
theorem descGot_eq (s : State) (n idx : Nat) : ringGet (descGot s n idx) n = { ringGet s n with reads := (ringGet (descGot s n idx) n).reads } ∧
    (descGot s n idx).arr = s.arr ∧ (descGot s n idx).csr = s.csr := by
  unfold descGot
  dsimp only
  split
  · exact ⟨rfl, rfl, rfl⟩
  next e _ =>
    obtain ⟨q, o, ha⟩ := arrives_eq (ringPut s n { ringGet s n with reads := (ringGet s n).reads.erase e }) (ownMsg s (descBase s n)) 0 e.2
    have hring : ringGet (arrives (ringPut s n { ringGet s n with reads := (ringGet s n).reads.erase e }) (ownMsg s (descBase s n)) 0 e.2) n =
        { ringGet s n with reads := (ringGet s n).reads.erase e } := by
      rw [ha]
      exact ringGet_ringPut _ _ _
    exact ⟨by rw [hring], by rw [ha]; rfl, by rw [ha]; rfl⟩

/-- The ring `r` of `n` in `g` is as in `s` but for the reads outstanding, and so are the registers. -/
structure ReadGot (s g : State) (n : Nat) : Prop where
  ring : ringGet g n = { ringGet s n with reads := (ringGet g n).reads }
  csr : g.csr = s.csr

section
variable {d : Bytes} (h : ReadGot s g n)
include h

theorem ReadGot.reg (off : Nat) : csrGet g off = csrGet s off := csrGet_of_csr h.csr off

theorem ReadGot.enabled : ringEnabled g n = ringEnabled s n := by rw [ringEnabled, ringEnabled, csrBit, csrBit, h.reg]

theorem ReadGot.log : descLog g n = descLog s n := by simp only [descLog, csrFld, h.reg]

theorem ReadGot.base : descBase g n = descBase s n := by simp only [descBase, h.reg, h.log]

theorem ReadGot.matches : descMatches g n idx d = descMatches s n idx d := by simp only [descMatches, h.log]

/-- A field of the ring other than the reads outstanding is as it was. -/
theorem ReadGot.field {α : Type} (f : Ring → α) (hf : ∀ r l, f { r with reads := l } = f r) : f (ringGet g n) = f (ringGet s n) :=
  (congrArg f h.ring).trans (hf _ _)

theorem ReadGot.cons : (ringGet g n).cons = (ringGet s n).cons := h.field Ring.cons fun _ _ => rfl

theorem ReadGot.fetched : (ringGet g n).fetched = (ringGet s n).fetched := h.field Ring.fetched fun _ _ => rfl

theorem ReadGot.rereadOut : (ringGet g n).rereadOut = (ringGet s n).rereadOut := h.field Ring.rereadOut fun _ _ => rfl

/-- A descriptor that fits the index of the ring waits for its place (R391). -/
theorem descFirst_fits (hcons : idx = (ringGet s n).cons) (hm : descMatches s n idx d = true) : descFirst g n d =
    ringPut g n { ringGet g n with
      offer := some (slice d 0 64), fetched := (ringGet s n).fetched.filter (· != idx), behind := false, rereads := 0, rereadOut := 0 } := by
  unfold descFirst
  dsimp only
  rw [h.cons, ← hcons, h.fetched, h.matches, if_pos hm]

/-- A descriptor from an earlier lap is read again (R311). -/
theorem descFirst_behind (hcons : idx = (ringGet s n).cons) (hm : descMatches s n idx d = false) : descFirst g n d =
    ringPut g n { ringGet g n with
      behind := true, rereads := 0, rereadOut := 0, fetched := (ringGet s n).fetched.filter (· != idx) } := by
  unfold descFirst
  dsimp only
  rw [h.cons, ← hcons, h.fetched, h.matches, if_neg (Bool.eq_false_iff.mp hm)]

/-- The last of 8 re-reads that does not fit parks the ring (R311, R312). -/
theorem descAgain_parks (hreads : (ringGet s n).rereads = 8) (hout : (ringGet s n).rereadOut = 1)
    (hm : descMatches s n (ringGet s n).cons d = false) : descAgain g n d =
      ev (park (ringPut g n { ringGet g n with rereadOut := 0 }) n 1 St.descAhead ((ringGet s n).cons % 65536)) Ev.descAhead := by
  have hre : (ringGet g n).rereads = 8 := (h.field Ring.rereads fun _ _ => rfl).trans hreads
  unfold descAgain
  dsimp only
  rw [h.cons, h.matches, if_neg (Bool.eq_false_iff.mp hm), h.rereadOut, hout, hre]
  rfl

variable (hen : ringEnabled s n = true) (hpark : (ringGet s n).parked = 0)
include hen hpark

/-- A descriptor that the ring awaits is looked at (R399). -/
theorem descReturn_awaited {status : Nat}
    (hawait : idx ∈ (ringGet s n).fetched ∨ ((ringGet s n).behind = true ∧ idx = (ringGet s n).cons ∧ 0 < (ringGet s n).rereadOut)) :
    descReturn g n idx status d =
      if status = St.dataError ∨ status = St.dataLost then park g n 3 St.ringFault (descBase s n + 256 * (idx % 2 ^ descLog s n / 4))
      else if (ringGet s n).behind && idx == (ringGet s n).cons && decide (0 < (ringGet s n).rereadOut) then descAgain g n d
      else if idx ≠ (ringGet s n).cons ∨ (ringGet s n).offer.isSome then
        if (ringGet s n).early.any (fun e => e.1 == idx) then g
        else ringPut g n { ringGet g n with early := (ringGet s n).early ++ [(idx, slice d 0 64)] }
      else advance (offers 64 (descFirst g n d)) := by
  have hbehind := h.field Ring.behind fun _ _ => rfl
  have hparked := h.field Ring.parked fun _ _ => rfl
  have hoffer := h.field Ring.offer fun _ _ => rfl
  have hearly := h.field Ring.early fun _ _ => rfl
  have hgoes : ¬(!((ringGet s n).fetched.contains idx ||
      ((ringGet s n).behind && idx == (ringGet s n).cons && decide (0 < (ringGet s n).rereadOut))) || !ringEnabled s n ||
      (ringGet s n).parked != 0) = true := by
    rw [hen, hpark]
    rcases hawait with hin | ⟨hb, hc, ho⟩
    · simp [hin]
    · simp [hb, ← hc, ho]
  unfold descReturn
  dsimp only
  rw [h.fetched, hbehind, h.cons, h.rereadOut, hparked, hoffer, hearly, h.enabled, h.base, h.log, if_neg hgoes]

/-- One that returns before its turn waits for it (R391). -/
theorem descReturn_early (hin : idx ∈ (ringGet s n).fetched) (hcons : idx ≠ (ringGet s n).cons)
    (hearly : ∀ e ∈ (ringGet s n).early, e.1 ≠ idx) : descReturn g n idx St.ok d =
      ringPut g n { ringGet g n with early := (ringGet s n).early ++ [(idx, slice d 0 64)] } := by
  have hagain : ¬((ringGet s n).behind && idx == (ringGet s n).cons && decide (0 < (ringGet s n).rereadOut)) = true := by simp [hcons]
  have hfirst : ¬((ringGet s n).early.any fun e => e.1 == idx) = true := by
    rw [List.any_eq_true]
    rintro ⟨e, he, hidx⟩
    exact hearly e he (beq_iff_eq.mp hidx)
  rw [descReturn_awaited h hen hpark (.inl hin), if_neg (by decide), if_neg hagain, if_pos (.inl hcons), if_neg hfirst]

/-- The first read of the descriptor whose turn it is (R311, R391). -/
theorem descReturn_first (hin : idx ∈ (ringGet s n).fetched) (hcons : idx = (ringGet s n).cons) (hoffer : (ringGet s n).offer = none)
    (hbehind : (ringGet s n).behind = false) : descReturn g n idx St.ok d = advance (offers 64 (descFirst g n d)) := by
  have hturn : ¬(idx ≠ (ringGet s n).cons ∨ (ringGet s n).offer.isSome = true) := by
    rw [hoffer]
    rintro (hno | hno)
    · exact hno hcons
    · cases hno
  rw [descReturn_awaited h hen hpark (.inl hin), if_neg (by decide), if_neg (by simp [hbehind]), if_neg hturn]

end

/-! ## Re-reads (R311) -/

/-- A read of descriptors asked for leaves the ring but for the reads outstanding. -/
theorem descRead_ring (s : State) (n i slot m : Nat) : ∃ l, ringGet (descRead s n i slot m) n = { ringGet s n with reads := l } := by
  refine ⟨(ringGet s n).reads ++ [((i + m - 1) % 2 ^ 32, 64 * (slot % 4 + m))], ?_⟩
  unfold descRead
  dsimp only
  rw [ringGet_ringPut, ringGet_of_rings (hstRequest_sent _ _ _ _ _ _ _).rings]

theorem descRead_arr (s : State) (n i slot m : Nat) : (descRead s n i slot m).arr = s.arr := by
  unfold descRead
  dsimp only
  rw [ringPut_arr, (hstRequest_sent _ _ _ _ _ _ _).arr]

theorem exec_descReread (hs : serving s = true) (hbehind : (ringGet s n).behind = true) (hre : (ringGet s n).rereads < 8)
    (hpark : (ringGet s n).parked = 0) (hu : u = descRead s n (ringGet s n).cons ((ringGet s n).cons % 2 ^ descLog s n) 1) :
    exec (.descReread n) s = .next (ringPut u n
      { ringGet u n with rereads := (ringGet s n).rereads + 1, rereadOut := (ringGet s n).rereadOut + 1 }) := by
  obtain ⟨l, hring⟩ := descRead_ring s n (ringGet s n).cons ((ringGet s n).cons % 2 ^ descLog s n) 1
  rw [← hu] at hring
  have hreads : (ringGet u n).rereads = (ringGet s n).rereads := by rw [hring]
  have hout : (ringGet u n).rereadOut = (ringGet s n).rereadOut := by rw [hring]
  have hgoes : (serving s && (ringGet s n).behind && decide ((ringGet s n).rereads < 8) && (ringGet s n).parked == 0) = true := by
    rw [hs, hbehind, hpark, decide_eq_true hre]
    rfl
  refine congrArg Host.Outcome.next ((if_pos hgoes).trans ?_)
  rw [← hu]
  dsimp only
  rw [hreads, hout]

theorem exec_descReread_none (h : (ringGet s n).behind = false ∨ 8 ≤ (ringGet s n).rereads) : exec (.descReread n) s = .next s := by
  refine congrArg Host.Outcome.next (if_neg ?_)
  rw [Bool.and_eq_true, Bool.and_eq_true, Bool.and_eq_true]
  rintro ⟨⟨⟨-, hbehind⟩, hre⟩, -⟩
  rcases h with h | h
  · rw [h] at hbehind; cases hbehind
  · exact absurd (of_decide_eq_true hre) (Nat.not_lt.mpr h)

/-! ## Completion records (R307, R402 to R404) -/

theorem leBytes_length (n v : Nat) : (leBytes n v).length = n := by
  induction n generalizing v with
  | zero => rfl
  | succ n ih => exact congrArg (· + 1) (ih _)

theorem recordBytes_length (w0 w1 w2 w3 : Nat) : (recordBytes w0 w1 w2 w3).length = 32 := by
  simp only [recordBytes, List.length_append, leBytes_length]

/-- What is driven as a record is written stays driven as its command leaves. -/
theorem cplPost_driven (s : State) (c : Cmd) : (hstWrite s (cplBase s c.ring + 32 * ((ringGet s c.ring).posted % 2 ^ cplLog s c.ring))
    (recordBytes (recordWord0 (phaseBit (ringGet s c.ring).posted (cplLog s c.ring)) (ringGet s c.ring).overflow 1 (c.idx % 65536)
      c.status c.ring c.code) (leAt c.desc 8 8) c.word2 (at_ (c.aux % 2 ^ 32) 32 + (ringGet s c.ring).cons)) 0).out <+: (cplPost s c).out := by
  unfold cplPost
  dsimp only
  generalize hstWrite s (cplBase s c.ring + 32 * ((ringGet s c.ring).posted % 2 ^ cplLog s c.ring))
    (recordBytes (recordWord0 (phaseBit (ringGet s c.ring).posted (cplLog s c.ring)) (ringGet s c.ring).overflow 1 (c.idx % 65536)
      c.status c.ring c.code) (leAt c.desc 8 8) c.word2 (at_ (c.aux % 2 ^ 32) 32 + (ringGet s c.ring).cons)) 0 = w
  have hrecord := ev_keeps (gr := fun _ => false) (n := Ev.record) (ringPut_keeps (n := c.ring)
    (r := { ringGet s c.ring with posted := ((ringGet s c.ring).posted + 1) % 2 ^ 32, overflow := false }) (Keeps.refl _ w))
  exact (cmdLeave_keeps (Keeps.ite (fun _ => ringIrq_keeps hrecord) (fun _ => hrecord))).out

/-- The write of a record of 32 bytes is driven where HST has credits (R402). -/
theorem hstWrite_record_driven (htx : s.txq = []) (hports : portsHalt s = false) (hcred : SMap.get 0 s.credits 11 ≠ 0)
    (addr w0 w1 w2 w3 n : Nat) : Out.msg .hst { cls := 3, opcode := 2, qos := csrFld s 0x3080 27 24, tag := s.coh.tag, src := ownId s, addr := addr, size := 31, data := recordBytes w0 w1 w2 w3 } ∈ (hstWrite s addr (recordBytes w0 w1 w2 w3) n).out := by
  have hsize : (recordBytes w0 w1 w2 w3).length - 1 = 31 := by rw [recordBytes_length]
  have hdriven := hstRequest_driven (opcode := 2) (addr := addr) (size := (recordBytes w0 w1 w2 w3).length - 1) (mod := 0) (op := 0)
    (data := recordBytes w0 w1 w2 w3) htx hports hcred
  rw [hsize] at hdriven
  unfold hstWrite
  rw [hsize]
  exact hdriven

/-- A record posted is driven where HST has credits. -/
theorem cplPost_posts (c : Cmd) (htx : s.txq = []) (hports : portsHalt s = false) (hcred : SMap.get 0 s.credits 11 ≠ 0) : Out.msg .hst
    { cls := 3, opcode := 2, qos := csrFld s 0x3080 27 24, tag := s.coh.tag, src := ownId s
      addr := cplBase s c.ring + 32 * ((ringGet s c.ring).posted % 2 ^ cplLog s c.ring), size := 31
      data := recordBytes (recordWord0 (phaseBit (ringGet s c.ring).posted (cplLog s c.ring)) (ringGet s c.ring).overflow 1 (c.idx % 65536)
        c.status c.ring c.code) (leAt c.desc 8 8) c.word2 (at_ (c.aux % 2 ^ 32) 32 + (ringGet s c.ring).cons) } ∈ (cplPost s c).out :=
  (cplPost_driven s c).subset (hstWrite_record_driven htx hports hcred _ _ _ _ _ _)

/-! ## A snoop of a doorbell line (R265, R394) -/

/-- An SNP_IN that passes every check is answered, and the line that one ring watches is dropped. -/
theorem exec_snpIn {m : Msg} (h : Taken s m) (hmod : m.mod = 0) (hsize : m.size = 63) (haddr : m.addr % 64 = 0)
    (hw : watchers s m.addr = [n]) (hu : u = sendMsg (arrives s m 2 0) .hst
      { cls := 1, opcode := 3, qos := m.qos, tag := m.tag, dst := m.src, addr := m.addr, size := m.size }) :
    exec (.snpIn m) s = .next (if (ringGet s n).watch = 1 then ringPut u n { ringGet s n with again := true }
      else watchIssue (ringPut u n { ringGet s n with watch := 0 }) n) := by
  obtain ⟨hf, hp, hpar, hport, hrsvd, hlisted, hhedge⟩ := h
  obtain ⟨q, o, ha⟩ := arrives_eq s m 2 0
  have hheld : ¬(s.pw.pstate = Ps.backupHold ∧ s.pw.ready = true ∧ (!s.pw.coreDown) = true) := by
    rintro ⟨h4, -⟩
    rcases hp with k | k <;> rw [k] at h4 <;> cases h4
  have hserves : ¬(s.pw.pstate ≠ Ps.serving ∧ s.pw.pstate ≠ Ps.quiesce) := by
    rintro ⟨h2, h5⟩
    exact hp.elim h2 h5
  have hcheck : snpCheck m = 0 := by simp [snpCheck, hrsvd, hlisted, hport, hmod, hsize, haddr]
  have hsent := sendMsg_sent (arrives s m 2 0) .hst
    { cls := 1, opcode := 3, qos := m.qos, tag := m.tag, dst := m.src, addr := m.addr, size := m.size }
  rw [← hu] at hsent
  have hrings : u.rg.rings = s.rg.rings := by rw [hsent.rings, ha]
  have hwatch : watchers u m.addr = [n] := by
    have hcsr : u.csr = s.csr := by rw [hu, sendMsg, sendCh_csr, ha]
    have hreg (off : Nat) : csrGet u off = csrGet s off := csrGet_of_csr hcsr off
    rw [← hw]
    simp only [watchers, hrings, hreg]
  have hgot : hedgeFenced (arrives s m 2 0) (hedgeClass (arrives s m 2 0) m.src) = false := by
    rw [hedgeClass_of_qs_out ha, hedgeFenced_of_qs_out ha]
    exact hhedge
  have hin : snpIn (arrives s m 2 0) m = if (ringGet s n).watch = 1 then ringPut u n { ringGet s n with again := true }
      else watchIssue (ringPut u n { ringGet s n with watch := 0 }) n := by
    unfold snpIn
    dsimp only
    rw [← hu, hwatch, List.foldl_cons, List.foldl_nil, ringGet_of_rings hrings]
  refine congrArg Host.Outcome.next ?_
  rw [if_neg (Bool.eq_false_iff.mp hf), if_neg hheld, if_neg hserves]
  dsimp only
  rw [if_neg (not_not.mpr hpar), if_neg (by omega), if_neg (Bool.eq_false_iff.mp hgot), if_neg (not_not.mpr hcheck), hin]

/-- Settles O45: what arrives takes effect as its own lemma says; a record is driven before its command leaves, and stays so. -/
theorem ringRows : Obligations.RingRows := by
  refine ⟨?doorbell, ?descriptor, ?parks, ?reread, fun n s => exec_descReread_none, ?post, ?waits, ?snoop, ?irq⟩
  case doorbell =>
    intro n prod cpl evt s hf hp
    obtain ⟨q, hg⟩ := readingGot_eq s n
    have hring : ringGet (readingGot s n) n = ringGet s n := by rw [hg]; rfl
    refine ⟨_, rfl, by rw [hg], congrArg Host.Outcome.next (taken_arrives hf hp), fun src => congrArg Host.Outcome.next (taken_arrives hf hp),
      congrArg Host.Outcome.next (taken_arrives hf hp), fun hw => ?_, ?_⟩
    · refine congrArg Host.Outcome.next ((taken_arrives hf hp).trans (if_pos ?_))
      rw [hring]
      exact hw
    · intro hw e u v he hu hv
      exact congrArg Host.Outcome.next ((taken_arrives hf hp).trans (doorbell_read hring hw he hu hv))
  case descriptor =>
    intro n idx d s hf hp hin hen hpark
    obtain ⟨hring, harr, hcsr⟩ := descGot_eq s n idx
    have hgot : ReadGot s (descGot s n idx) n := ⟨hring, hcsr⟩
    refine ⟨_, rfl, hring, harr, hcsr, congrArg Host.Outcome.next (taken_arrives hf hp), congrArg Host.Outcome.next (taken_arrives hf hp),
      fun status hst => ?_, fun hcons hearly => ?_, fun hcons hoffer hbehind => ⟨fun hm => ?_, fun hm => ?_⟩⟩
    · exact congrArg Host.Outcome.next ((taken_arrives hf hp).trans ((descReturn_awaited hgot hen hpark (.inl hin)).trans (if_pos hst)))
    · exact congrArg Host.Outcome.next ((taken_arrives hf hp).trans (descReturn_early hgot hen hpark hin hcons hearly))
    · refine congrArg Host.Outcome.next ((taken_arrives hf hp).trans ((descReturn_first hgot hen hpark hin hcons hoffer hbehind).trans ?_))
      rw [descFirst_fits hgot hcons hm]
    · refine congrArg Host.Outcome.next ((taken_arrives hf hp).trans ((descReturn_first hgot hen hpark hin hcons hoffer hbehind).trans ?_))
      rw [descFirst_behind hgot hcons hm]
  case parks =>
    intro n d s hf hp hbehind hre hout hen hpark _ hm
    obtain ⟨hring, -, hcsr⟩ := descGot_eq s n (ringGet s n).cons
    have hgot : ReadGot s (descGot s n (ringGet s n).cons) n := ⟨hring, hcsr⟩
    have hawait : (ringGet s n).behind = true ∧ (ringGet s n).cons = (ringGet s n).cons ∧ 0 < (ringGet s n).rereadOut :=
      ⟨hbehind, rfl, by omega⟩
    refine congrArg Host.Outcome.next ((taken_arrives hf hp).trans ((descReturn_awaited hgot hen hpark (.inr hawait)).trans ?_))
    rw [if_neg (by decide), if_pos (by simp [hbehind, hout]), descAgain_parks hgot hre hout hm]
  case reread =>
    intro n s hs hbehind hre hpark
    refine ⟨_, rfl, descRead_arr _ _ _ _ _, fun htx hports hcred => ?_, exec_descReread hs hbehind hre hpark rfl⟩
    exact ⟨_, hstRequest_driven htx hports hcred, rfl, rfl, rfl, rfl⟩
  case post =>
    intro ring idx c s hc hmay hps
    have hring : c.ring = ring := by
      have hfound := List.find?_some hc
      simp only [Bool.and_eq_true, beq_iff_eq] at hfound
      exact hfound.1.1
    subst hring
    refine ⟨cplPost s c, congrArg Host.Outcome.next ?_, cplPost_posts c⟩
    rw [hc]
    exact if_pos (by rw [hmay]; simpa using hps)
  case waits =>
    intro ring idx s hnone
    refine congrArg Host.Outcome.next ?_
    split
    next c hc =>
      have hfound := List.find?_some hc
      simp only [Bool.and_eq_true, beq_iff_eq] at hfound
      obtain ⟨⟨hring, hidx⟩, -⟩ := hfound
      rw [hnone c (List.mem_of_find?_eq_some hc) hring hidx]
      rfl
    · rfl
  case snoop =>
    intro m s u n h hmod hsize haddr hw hu
    have hsnoop := exec_snpIn h hmod hsize haddr hw hu
    exact ⟨fun hwatch => hsnoop.trans (congrArg Host.Outcome.next (if_pos hwatch)),
      fun hwatch => hsnoop.trans (congrArg Host.Outcome.next (if_neg hwatch))⟩
  case irq =>
    intro v s
    refine congrArg Host.Outcome.next (if_congr ?_ rfl rfl)
    simp only [Bool.and_eq_true, Bool.not_eq_true', bne_iff_ne, ne_eq, and_assoc]

end Sys2Proof.Machine
end


section
/-! What memory answers, the drains and the credits (O48). -/

namespace Sys2Proof.Machine

open Sys2Proof

variable {s t u : State} {k line tag : Nat}

/-! ## Whole lines merged and stored -/

theorem widenMask_ones {n m : Nat} (h : ∀ i < n, m.testBit i = true) : widenMask n m = 2 ^ (8 * n) - 1 := by
  induction n with
  | zero => rfl
  | succ n ih =>
    have hpow : 2 ^ (8 * (n + 1)) = 256 * 2 ^ (8 * n) := by rw [Nat.mul_succ, Nat.pow_add, Nat.mul_comm]
    have hpos := Nat.two_pow_pos (8 * n)
    rw [widenMask, if_pos (h n (Nat.lt_succ_self n)), ih fun i hi => h i (Nat.lt_succ_of_lt hi), Nat.shiftLeft_eq, hpow]
    omega

theorem widenMask_zero (n : Nat) : widenMask n 0 = 0 := by
  induction n with
  | zero => rfl
  | succ n ih => rw [widenMask, ih]; simp

theorem widenMask_allOnes (n : Nat) : BitVec.ofNat (8 * n) (widenMask n (BitVec.allOnes n).toNat) = BitVec.allOnes (8 * n) := by
  have hbits : ∀ i < n, (BitVec.allOnes n).toNat.testBit i = true := fun i hi => by
    rw [BitVec.testBit_toNat, BitVec.getLsbD_allOnes, decide_eq_true hi]
  refine BitVec.eq_of_toNat_eq ?_
  rw [widenMask_ones hbits, BitVec.toNat_ofNat, BitVec.toNat_allOnes, Nat.mod_eq_of_lt (Nat.sub_one_lt (Nat.two_pow_pos (8 * n)).ne')]

theorem dataMask_allOnes : dataMask (BitVec.allOnes 512) = BitVec.allOnes 4096 := widenMask_allOnes 512

theorem dataMask_zero : dataMask 0#512 = 0#4096 := by rw [dataMask, BitVec.toNat_zero, widenMask_zero]

/-- A merge under the full mask takes every byte (R148). -/
theorem mergeBytes_allOnes (d x : LineData) : mergeBytes d x (BitVec.allOnes 512) = x := by
  rw [mergeBytes, dataMask_allOnes, BitVec.not_allOnes, BitVec.and_zero, BitVec.zero_or, BitVec.and_allOnes]

/-- A merge under the empty mask takes none (R148). -/
theorem mergeBytes_zero (d x : LineData) : mergeBytes d x 0#512 = d := by
  rw [mergeBytes, dataMask_zero, BitVec.and_zero, BitVec.or_zero, BitVec.not_zero, BitVec.and_allOnes]

/-- With the flip-mask unarmed a line stored is the line given, its marks of injected faults and of its tag set right (R461). -/
theorem storeLine_unarmed (h : csrBit s 0xC10 63 = false) (l : Line) (m : LineMask) (tagW : Bool) : ∃ tb inj,
    storeLine s k l m tagW = linePut s k { l with tagBad := tb, injected := inj } := by
  have hno (bank addr : Nat) : flipMatch s bank addr = false := by
    have hbit : (csrGet s 0xC10).testBit 63 = false := h
    simp only [flipMatch, hbit, Bool.false_and]
  unfold storeLine
  dsimp only
  rw [hno]
  exact ⟨_, _, rfl⟩

/-! ## Memory's answers in a slice that serves (R24, R112, R285) -/

theorem memGate_serves (hs : serving s = true) (c : Instr) (write : Bool) (f : State → State) : memGate s c write f = f s := by
  simp only [serving, Bool.and_eq_true, beq_iff_eq, Bool.not_eq_true'] at hs
  obtain ⟨⟨hps, hf⟩, -⟩ := hs
  have hps2 : s.pw.pstate = 2 := hps
  have hheld : ¬(s.pw.pstate = Ps.retention ∨ (s.pw.pstate = Ps.backupHold ∧ (!s.pw.coreDown) = true)) := by
    rw [hps2]
    rintro (h | ⟨h, -⟩) <;> cases h
  rw [memGate, if_neg (Bool.eq_false_iff.mp hf), if_neg hheld, if_neg fun h => h.1 hps]

/-- A replayed beat of a fill that is no stage-in is awaited again (R24). -/
theorem memReplay_awaits {beat : Nat} {r : MemRd} {m : Mhe} (hr : (s.arr.memRds.find? fun r => r.tag == tag) = some r)
    (hfor : r.for_ = .fill line) (hbeats : r.beats = 4) (hm : mheOf s line = some m) (hkind : m.kind ≠ .stage) : memReplay s tag beat =
      { s with arr := { s.arr with
        memRds := s.arr.memRds.map fun x => if x.tag = tag then
          { r with got := r.got &&& ~~~BitVec.ofNat 4 (2 ^ beat), bad := r.bad &&& ~~~BitVec.ofNat 4 (2 ^ beat) } else x
        mhes := s.arr.mhes.map fun x => if x.line = m.line then
          { m with got := m.got &&& ~~~BitVec.ofNat 4 (2 ^ beat), bad := m.bad &&& ~~~BitVec.ofNat 4 (2 ^ beat) } else x } } := by
  have hbeat : (if r.beats = 1 then 0 else beat) = beat := if_neg (by omega)
  have hentry (l : List MemRd) : mheOf { s with arr := { s.arr with memRds := l } } line = some m := hm
  unfold memReplay
  rw [hr]
  dsimp only
  rw [hbeat, hfor]
  dsimp only
  rw [hentry]
  exact if_neg fun h => hkind h.1

/-- The acceptance of an eviction's last beat frees its eviction buffer (R112). -/
theorem memWriteAccept_evict {w : MemWr} (h : Rests s) (hw : (s.arr.memWrs.find? fun w => w.tag == tag && !w.accepted) = some w)
    (hfor : w.for_ = .evict line) : memWriteAccept s tag = { s with arr := { s.arr with
      evicts := s.arr.evicts.filter fun e => !(e.line == line && e.tag.isSome)
      memWrs := s.arr.memWrs.map fun x => if x.tag = tag then { x with accepted := true } else x } } := by
  have hset := h.settled
  unfold memWriteAccept
  rw [hw]
  dsimp only
  rw [writeAccepted, hfor]
  refine Rests.advance ⟨h.serves, ?_, hset.waiting, hset.presented, hset.fences, hset.sums, hset.stageOuts, hset.failing, hset.flips,
    hset.bufs, hset.drains, hset.rollLogs, hset.cmds, hset.retire⟩
  exact List.all_eq_true.mpr fun e he => List.all_eq_true.mp hset.evicts e (List.mem_of_mem_filter he)

/-- The slice without the MEM write of a tag. -/
def memWrFreed (s : State) (tag : Nat) : State := { s with arr := { s.arr with memWrs := s.arr.memWrs.filter fun x => x.tag != tag } }

theorem Rests.memWrFreed (h : Rests s) (tag : Nat) : Rests (memWrFreed s tag) :=
  ⟨h.serves, h.settled.evicts, h.settled.waiting, h.settled.presented, h.settled.fences, h.settled.sums, h.settled.stageOuts,
    h.settled.failing, h.settled.flips, h.settled.bufs, h.settled.drains, h.settled.rollLogs, h.settled.cmds, h.settled.retire⟩

section
variable {w : MemWr} (hw : (s.arr.memWrs.find? fun w => w.tag == tag) = some w) (hdrop : w.drop = false)
include hw hdrop

/-- The completion of a write that nothing waits for frees its tag (R285). -/
theorem memWriteDone_none (h : Rests s) (hq : s.arr.memq = []) (hfor : w.for_ = .none) : memWriteDone s tag = memWrFreed s tag := by
  have haccept : writeAccepted s w = s := by rw [writeAccepted, hfor]
  have hcomplete : writeCompleted (memWrFreed s tag) w = memWrFreed s tag := by
    unfold writeCompleted
    rw [hfor]
    exact if_neg fun hd => absurd hd.1 (Bool.eq_false_iff.mp hdrop)
  have hpump : memPump (memWrFreed s tag).arr.memq.length (memWrFreed s tag) = memWrFreed s tag := by
    have hlen : (memWrFreed s tag).arr.memq.length = 0 := congrArg List.length hq
    rw [hlen]
    rfl
  unfold memWriteDone
  rw [hw]
  dsimp only
  rw [haccept, ite_self, ← memWrFreed, hcomplete, hpump, (h.memWrFreed tag).advance]

/-- The completion of a write sent to memory for a request finishes that request (R285). -/
theorem memWriteDone_req {o : Op} (hfor : w.for_ = .req o) (haccepted : w.accepted = true) : memWriteDone s tag =
    advance (memPump (finish (memWrFreed s tag) o St.ok).arr.memq.length (finish (memWrFreed s tag) o St.ok)) := by
  have hcomplete : writeCompleted (memWrFreed s tag) w = finish (memWrFreed s tag) o St.ok := by
    unfold writeCompleted
    rw [hfor]
    exact if_neg fun hd => absurd hd.1 (Bool.eq_false_iff.mp hdrop)
  unfold memWriteDone
  rw [hw]
  dsimp only
  rw [if_pos haccepted, ← memWrFreed, hcomplete]

end

/-! ## Timers of the buffers (R90, R163) -/

theorem mergeEntryDrain_none (h : mergeOpen s = []) : mergeEntryDrain s = s := by rw [mergeEntryDrain, h]

theorem mergeEntryDrain_oldest {m : Merge} {ms : List Merge} (h : mergeOpen s = m :: ms) :
    mergeEntryDrain s = advance (mergeDrain s m.n) := by rw [mergeEntryDrain, h]

theorem closeLine_none (h : openOf s line = none) : closeLine s line = s := by rw [closeLine, h]

/-- An open line is closed into its slot with the bytes it holds (R163). -/
theorem closeLine_closes {o : OpenLine} (hflip : csrBit s 0xC10 63 = false) (ho : openOf s line = some o) : ∃ l q,
    closeLine s line = { s with
      arr := { s.arr with lines := SMap.put {} s.arr.lines o.slot l, opens := s.arr.opens.filter fun x => x.line != line }, qs := q } ∧
    l.data = o.data ∧ l.st = (lineAt s o.slot).st := by
  obtain ⟨tb, inj, hstore⟩ := storeLine_unarmed (k := o.slot) hflip { writeData (crcLine s (lineAt s o.slot)) (lineAt s o.slot) o.data (BitVec.allOnes 512)
    with hold := bound s line, badPar := o.bad } (BitVec.allOnes 512) false
  unfold closeLine
  rw [ho]
  dsimp only
  rw [hstore]
  exact ⟨_, _, rfl, mergeBytes_allOnes _ _, rfl⟩

/-! ## Credits (R268) -/

theorem giveCredit_drives {ch : Nat} {o : Out} {rest : List (Nat × Out)} (hports : portsHalt s = false)
    (hwait : takeFirst ch s.txq = some (o, rest)) : giveCredit s ch = drive { s with txq := rest } o := by
  rw [giveCredit, if_neg (Bool.eq_false_iff.mp hports), hwait]

/-- The credit kept. -/
def credited (s : State) (ch : Nat) : State := { s with credits := SMap.put 0 s.credits ch (SMap.get 0 s.credits ch + 1) }

theorem giveCredit_kept {ch : Nat} (h : portsHalt s = true ∨ takeFirst ch s.txq = none) : giveCredit s ch = credited s ch := by
  have hnone : (if portsHalt s = true then none else takeFirst ch s.txq) = none := by
    rcases h with h | h
    · rw [if_pos h]
    · rw [h, ite_self]
  rw [giveCredit, hnone]
  rfl

/-- Settles O48: what each row does is read off its definition; with nothing to go on with the slice ends there. -/
theorem memRows : Obligations.MemRows := by
  refine ⟨?replay, ?accept, ?done, ?merge, ?close, ?closed, ?credit, ?memCredit, ?noCredit⟩
  case replay =>
    intro s tag beat line r m hs _ hr hfor hbeats hm hkind
    exact congrArg Host.Outcome.next ((memGate_serves hs _ _ _).trans (memReplay_awaits hr hfor hbeats hm hkind))
  case accept =>
    intro s tag line w hs hset hw hfor
    exact congrArg Host.Outcome.next ((memGate_serves hs _ _ _).trans (memWriteAccept_evict ⟨hs, hset⟩ hw hfor))
  case done =>
    intro s tag w hs hset hq hw hdrop
    refine ⟨fun hfor => ?_, fun o u hfor haccepted hu => ?_⟩
    · exact congrArg Host.Outcome.next ((memGate_serves hs _ _ _).trans (memWriteDone_none hw hdrop ⟨hs, hset⟩ hq hfor))
    · rw [hu]
      exact congrArg Host.Outcome.next ((memGate_serves hs _ _ _).trans (memWriteDone_req hw hdrop hfor haccepted))
  case merge =>
    intro s hs
    exact ⟨fun hnone => congrArg Host.Outcome.next ((if_pos hs).trans (mergeEntryDrain_none hnone)),
      fun m ms hopen => congrArg Host.Outcome.next ((if_pos hs).trans (mergeEntryDrain_oldest hopen))⟩
  case close =>
    intro s line o hs hset hflip ho
    obtain ⟨l, q, hclose, hdata, hst⟩ := closeLine_closes hflip ho
    have hrests : Rests (closeLine s line) := by
      rw [hclose]
      exact ⟨hs, hset.evicts, hset.waiting, hset.presented, hset.fences, hset.sums, hset.stageOuts, hset.failing, hset.flips, hset.bufs,
        hset.drains, hset.rollLogs, hset.cmds, hset.retire⟩
    refine ⟨closeLine s line, congrArg Host.Outcome.next ((if_pos hs).trans hrests.advance), ?_⟩
    rw [hclose]
    refine ⟨?_, ?_, ?_, fun k hk => ?_, rfl, rfl, rfl⟩
    · exact List.find?_eq_none.mpr fun x hx => by simpa using (List.mem_filter.mp hx).2
    · exact (congrArg Line.data SMap.get_put_self).trans hdata
    · exact (congrArg Line.st SMap.get_put_self).trans hst
    · exact SMap.get_put_ne hk
  case closed =>
    intro s line hs hset hnone
    refine congrArg Host.Outcome.next ((if_pos hs).trans ?_)
    rw [closeLine_none hnone, Rests.advance ⟨hs, hset⟩]
  case credit =>
    intro s p cls hps hp
    refine ⟨giveCredit s (channel p cls), ?_, fun o rest hports hwait => giveCredit_drives hports hwait, giveCredit_kept⟩
    refine congrArg Host.Outcome.next ((if_neg hps).trans ?_)
    rcases hp with rfl | rfl | rfl <;> rfl
  case memCredit =>
    intro s cls ch hs hset hq hch hwait
    have hps : s.pw.pstate ≠ Ps.reset := by
      simp only [serving, Bool.and_eq_true, beq_iff_eq] at hs
      obtain ⟨⟨hps, -⟩, -⟩ := hs
      rw [hps]
      decide
    have hrests : Rests (credited s ch) := ⟨hs, hset.evicts, hset.waiting, hset.presented, hset.fences, hset.sums, hset.stageOuts,
      hset.failing, hset.flips, hset.bufs, hset.drains, hset.rollLogs, hset.cmds, hset.retire⟩
    have hpump : memPump (credited s ch).arr.memq.length (credited s ch) = credited s ch := by
      have hlen : (credited s ch).arr.memq.length = 0 := congrArg List.length hq
      rw [hlen]
      rfl
    have hgive : giveCredit s (channel .mem cls) = credited s ch := by
      rw [show channel .mem cls = ch from hch.symm]
      exact giveCredit_kept (.inr hwait)
    refine congrArg Host.Outcome.next ((if_neg hps).trans ?_)
    unfold creditReturn
    dsimp only
    rw [hgive, hpump, hrests.advance]
    rfl
  case noCredit =>
    intro s p cls h
    refine congrArg Host.Outcome.next ?_
    rcases h with rfl | rfl | rfl | h
    · exact ite_self _
    · exact ite_self _
    · exact ite_self _
    · exact if_pos h

end Sys2Proof.Machine
end


section
/-! The beats of a fill (O47). -/

namespace Sys2Proof.Machine

open Sys2Proof

variable {s t u : State} {k line tag beat : Nat} {r : MemRd} {m : Mhe} {d : LineData} {got : BitVec 4}

/-! ## A good beat taken in (R22, R111) -/

/-- The slice with a beat merged into its read `r` and into the miss-handling entry `m` of its line: the bytes are now `d`, the beats `got`. -/
def beatMerged (s : State) (tag : Nat) (r : MemRd) (m : Mhe) (got : BitVec 4) (d : LineData) : State :=
  { s with arr := { s.arr with
      memRds := s.arr.memRds.map fun x => if x.tag = tag then { r with got := got, data := d } else x
      mhes := s.arr.mhes.map fun x => if x.line = m.line then { m with got := got, bad := r.bad, data := d } else x } }

/-- What the meters and the trace record of a beat. -/
def Metered (s t : State) : Prop := ∃ q, t = { s with qs := q }

theorem Metered.refl (s : State) : Metered s s := ⟨_, rfl⟩

theorem Metered.trans (h : Metered s t) (k : Metered t u) : Metered s u := by
  obtain ⟨q, rfl⟩ := h
  obtain ⟨q', rfl⟩ := k
  exact ⟨q', rfl⟩

theorem Metered.ite {c : Prop} [Decidable c] (h : Metered s t) (k : Metered s u) : Metered s (if c then t else u) := by
  split
  · exact h
  · exact k

theorem fillReach_metered (s : State) (line i : Nat) : Metered s (fillReach s line i) := ⟨_, rfl⟩

/-- The entry of the line, changed in place. -/
theorem mheOf_mheSet {m m' : Mhe} (h : mheOf s line = some m) (hl : m'.line = m.line) : mheOf (mheSet s m') line = some m' := by
  have hline : m.line = line := by simpa using List.find?_some h
  have hmap (l : List Mhe) (hf : (l.find? fun x => x.line == line) = some m) :
      ((l.map fun x => if x.line = m'.line then m' else x).find? fun x => x.line == line) = some m' := by
    induction l with
    | nil => cases hf
    | cons x l ih =>
      rw [List.map_cons]
      by_cases hx : x.line = line
      · rw [if_pos (by rw [hx, hl, hline])]
        exact List.find?_cons_of_pos (by rw [hl, hline]; exact beq_self_eq_true line)
      · rw [if_neg (by rw [hl, hline]; exact hx), List.find?_cons_of_neg (by simpa using hx)]
        rw [List.find?_cons_of_neg (by simpa using hx)] at hf
        exact ih hf
  exact hmap _ h

/-- With no read merged into the fill, a beat is merged and nothing is answered. -/
theorem readBeat_merges {bytes : Bytes} (hfor : r.for_ = .fill line) (hbeats : r.beats = 4) (htag : r.tag = tag)
    (hm : mheOf s line = some m) (hreads : m.reads = []) (hgot : got = r.got ||| BitVec.ofNat 4 (2 ^ beat))
    (hd : d = mergeBytes r.data (BitVec.ofNat 4096 (leNat (slice bytes 0 128) <<< (1024 * beat))) (spanMask (128 * beat) 128)) :
    ∃ t, Metered (beatMerged s tag r m got d) t ∧
      readBeat s r beat false bytes = if got = 15 then readEnd t { r with got := got, data := d } else t := by
  subst htag
  have hbeat : (if r.beats = 1 then 0 else beat) = beat := if_neg (by omega)
  have hall : (if r.beats = 1 then 1 else 15) = 15 := if_neg (by omega)
  obtain ⟨v, hv⟩ : ∃ v, v = { s with arr := { s.arr with
      memRds := s.arr.memRds.map fun (x : MemRd) => if x.tag = r.tag then { r with got := got, data := d } else x } } := ⟨_, rfl⟩
  have hcrit : Metered v (if beat = m.crit then fillReach v line 4 else v) := .ite (fillReach_metered _ _ _) (.refl v)
  generalize hw : (if beat = m.crit then fillReach v line 4 else v) = w at hcrit
  have hlast : Metered v (if got = 15 then fillReach w line 5 else w) := hcrit.trans (.ite (fillReach_metered _ _ _) (.refl w))
  generalize hx : (if got = 15 then fillReach w line 5 else w) = x at hlast
  have hentry : mheOf v line = some m := by rw [hv]; exact hm
  have hserve : mheServe (mheSet x { m with got := got, bad := r.bad, data := d }) line =
      mheSet x { m with got := got, bad := r.bad, data := d } := by
    have hset : mheOf (mheSet x { m with got := got, bad := r.bad, data := d }) line = some { m with got := got, bad := r.bad, data := d } := by
      refine mheOf_mheSet (m := m) ?_ rfl
      obtain ⟨q, rfl⟩ := hlast
      exact hentry
    rw [mheServe, hset]
    dsimp only
    rw [hreads, List.foldl_nil]
  refine ⟨mheSet x { m with got := got, bad := r.bad, data := d }, ?_, ?_⟩
  · obtain ⟨q, rfl⟩ := hlast
    exact ⟨q, by rw [hv]; rfl⟩
  · have hdone : got.toNat = 15 ↔ got = 15 := ⟨fun h => BitVec.eq_of_toNat_eq h, fun h => by rw [h]; rfl⟩
    unfold readBeat
    dsimp only
    dsimp only at hv
    rw [hbeat, hall, ← hgot, ← hd]
    simp only [Bool.false_eq_true, if_false]
    rw [← hv, hfor]
    dsimp only
    rw [hentry]
    dsimp only
    rw [hw, hx, hserve, if_congr hdone rfl rfl]

/-! ## The end of a fill (R76, R111) -/

/-- The line of a slot filled with bytes, CLEAN. -/
def filledLine (s : State) (k : Nat) (d : LineData) : Line :=
  writeData (crcLine s (lineAt s k)) { lineAt s k with filling := false, st := .clean } d (BitVec.allOnes 512)

/-- A fill that nothing has been merged into is stored CLEAN. -/
theorem fillInstall_clean (hkind : m.kind ≠ .replay) (hreads : m.reads = []) (hw : m.wmask = 0) : fillInstall s m k =
    mheDel (storeLine (arrayUse s m.qos (filledLine s k m.data).addr 4) k (filledLine s k m.data) (BitVec.allOnes 512) false) m.line := by
  have hunwritten : mergeBytes m.data m.wdata 0 = m.data := mergeBytes_zero _ _
  unfold fillInstall
  dsimp only
  rw [hw, hunwritten]
  simp only [bne_self_eq_false, Bool.false_and, Bool.false_eq_true, if_false, if_neg hkind, hreads, List.filter_nil, List.foldl_nil]
  rfl

/-- A fill of a line in service that nothing has written installs it CLEAN and frees its entry. -/
theorem fillEnd_installs (hflip : csrBit s 0xC10 63 = false) (hm : mheOf s line = some m) (hup : m.upset = false)
    (hcond : (lastAt s m.last).cond = 1) (hkind : m.kind ∈ [FillKind.demand, .nextLine, .stream, .prefetch]) (hbad : m.bad = 0)
    (hreads : m.reads = []) (hw : m.wmask = 0) (hslot : m.slot = some k) (hfill : (lineAt s k).filling = true)
    (haddr : (lineAt s k).addr = line) : ∃ l q,
      fillEnd s line = { s with
        arr := { s.arr with lines := SMap.put {} s.arr.lines k l, mhes := s.arr.mhes.filter fun x => x.line != line }, qs := q } ∧
      l.st = .clean ∧ l.filling = false ∧ l.addr = line ∧ l.data = m.data := by
  have hline : m.line = line := by simpa using List.find?_some hm
  have hplace : fillSlot s m = some k := by
    unfold fillSlot
    rw [hslot]
    exact if_pos (by rw [hfill, haddr, hline]; exact beq_self_eq_true line)
  have hend : fillEnd s line = fillInstall s m k := by
    have hserves : ¬((lastAt s m.last).cond ≠ 1 ∧ ¬(m.kind = .replay ∧ (lastAt s m.last).cond = 3)) := fun h => h.1 hcond
    have hgood : ¬m.bad ≠ 0 := not_not.mpr hbad
    unfold fillEnd
    rw [hm]
    dsimp only
    rw [hup, Bool.false_and, if_neg (by decide), hm]
    dsimp only
    simp only [List.mem_cons, List.not_mem_nil, or_false] at hkind
    rcases hkind with hkind | hkind | hkind | hkind <;> rw [hkind] at hserves ⊢ <;> dsimp only <;> rw [if_neg hserves, if_neg hgood, hplace]
  have hinst : m.kind ≠ .replay := by
    rintro hreplay
    rw [hreplay] at hkind
    simp at hkind
  obtain ⟨tb, inj, hstore⟩ := storeLine_unarmed (s := arrayUse s m.qos (filledLine s k m.data).addr 4) (k := k) hflip
    (filledLine s k m.data) (BitVec.allOnes 512) false
  rw [hend, fillInstall_clean hinst hreads hw, hstore, hline]
  exact ⟨_, _, rfl, rfl, rfl, haddr, mergeBytes_allOnes _ _⟩

/-! ## The row of a good beat -/

/-- A good beat is metered and taken in (R449, R516). -/
theorem memReturn_good {bytes : Bytes} (hs : serving s = true) (hr : (s.arr.memRds.find? fun r => r.tag == tag) = some r) :
    ∃ u, Metered s u ∧ memReturn s tag beat 0 false bytes = advance (readBeat u r beat false bytes) := by
  have hps : ∀ u, Metered s u → ¬u.pw.pstate = Ps.quiesce := by
    rintro u ⟨q, rfl⟩
    simp only [serving, Bool.and_eq_true, beq_iff_eq] at hs
    obtain ⟨⟨hps, -⟩, -⟩ := hs
    change ¬s.pw.pstate = Ps.quiesce
    rw [hps]
    decide
  have hmetered : Metered s (activity (meter s r.qos 0 128) r.qos (coverCtx s r.addr) 2 1) := ⟨_, rfl⟩
  refine ⟨_, hmetered, ?_⟩
  unfold memReturn
  rw [hr]
  exact if_neg (hps _ hmetered)

/-- The lines, the reads of memory and the miss-handling entries that no read waits for make nothing go on. -/
theorem Rests.filled (h : Rests s) (lines : SMap Line) (rds : List MemRd) {mhes : List Mhe} (q : Qos)
    (hm : ∀ x ∈ mhes, x.reads = [] ∨ x ∈ s.arr.mhes) :
    Rests { s with arr := { s.arr with lines := lines, memRds := rds, mhes := mhes }, qs := q } := by
  have hset := h.settled
  have hsums : (mhes.any fun m => m.kind == .memSide && m.got == 15 && !m.reads.isEmpty) = false := by
    refine List.any_eq_false.mpr fun x hx => ?_
    rcases hm x hx with hnone | hold
    · simp [hnone]
    · exact List.any_eq_false.mp hset.sums x hold
  exact ⟨h.serves, hset.evicts, hset.waiting, hset.presented, hset.fences, hsums, hset.stageOuts, hset.failing, hset.flips, hset.bufs,
    hset.drains, hset.rollLogs, hset.cmds, hset.retire⟩

/-- The entries that a beat changes are those of its line, which no read waits for. -/
theorem beatMerged_mhes (hreads : m.reads = []) {x : Mhe} (hx : x ∈ (beatMerged s tag r m got d).arr.mhes) :
    x.reads = [] ∨ x ∈ s.arr.mhes := by
  obtain ⟨y, hy, rfl⟩ := List.mem_map.mp hx
  split
  · exact .inl hreads
  · exact .inr hy

theorem mheOf_beatMerged (hm : mheOf s line = some m) :
    mheOf (beatMerged s tag r m got d) line = some { m with got := got, bad := r.bad, data := d } :=
  mheOf_mheSet (s := { s with arr := { s.arr with memRds := (beatMerged s tag r m got d).arr.memRds } })
    (m' := { m with got := got, bad := r.bad, data := d }) hm rfl

/-- Settles O47: a beat is merged into its read and its entry; the last one installs the line. -/
theorem memReadFills : Obligations.MemReadFills := by
  intro s tag beat line bytes r m d got hs hset hflip _ hr hfor hbeats hbad hm hreads hup hgot hd
  have hrests : Rests s := ⟨hs, hset⟩
  have htag : r.tag = tag := by simpa using List.find?_some hr
  have hline : m.line = line := by simpa using List.find?_some hm
  obtain ⟨u, ⟨q, rfl⟩, hreturn⟩ := memReturn_good (beat := beat) (bytes := bytes) hs hr
  obtain ⟨t, ⟨q', rfl⟩, hbeat⟩ := readBeat_merges (s := { s with qs := q }) hfor hbeats htag hm hreads hgot hd
  have hexec : exec (.memReadReturn tag beat 0 false bytes) s = .next (memReturn s tag beat 0 false bytes) :=
    congrArg Host.Outcome.next (memGate_serves hs _ _ _)
  refine ⟨fun hmore => ?_, fun hlast hkind hw hcond k hslot hfill haddr => ?_⟩
  · have hmerged : Rests { beatMerged { s with qs := q } tag r m got d with qs := q' } :=
      hrests.filled _ _ q' fun x hx => beatMerged_mhes (s := s) (tag := tag) (r := r) (got := got) (d := d) hreads hx
    refine ⟨{ beatMerged { s with qs := q } tag r m got d with qs := q' },
      hexec.trans (congrArg Host.Outcome.next (hreturn.trans ?_)), rfl, ?_, rfl⟩
    · rw [hbeat, if_neg hmore]
      exact hmerged.advance
    · rw [← hline, ← hbad]
      rfl
  · obtain ⟨l, q'', hend, hst, hfilling, hladdr, hdata⟩ := fillEnd_installs (k := k) (m := { m with got := got, bad := r.bad, data := d })
      (s := { beatMerged { s with qs := q } tag r m got d with
        qs := q', arr := { (beatMerged { s with qs := q } tag r m got d).arr with
          memRds := (beatMerged { s with qs := q } tag r m got d).arr.memRds.filter fun x => x.tag != r.tag } })
      hflip (mheOf_beatMerged (s := s) (tag := tag) (r := r) (got := got) (d := d) hm) hup hcond hkind hbad hreads hw hslot hfill haddr
    have hdone : readEnd { beatMerged { s with qs := q } tag r m got d with qs := q' } { r with got := got, data := d } =
        fillEnd { beatMerged { s with qs := q } tag r m got d with
          qs := q', arr := { (beatMerged { s with qs := q } tag r m got d).arr with
            memRds := (beatMerged { s with qs := q } tag r m got d).arr.memRds.filter fun x => x.tag != r.tag } } line := by
      unfold readEnd
      dsimp only
      rw [hfor]
    have hfilled := hrests.filled (SMap.put {} s.arr.lines k l)
      ((beatMerged { s with qs := q } tag r m got d).arr.memRds.filter fun x => x.tag != r.tag)
      (mhes := (beatMerged { s with qs := q } tag r m got d).arr.mhes.filter fun x => x.line != line) q''
      fun x hx => beatMerged_mhes (s := s) (tag := tag) (r := r) (got := got) (d := d) hreads (List.mem_of_mem_filter hx)
    rw [hbeat, if_pos hlast, hdone, hend] at hreturn
    refine ⟨_, hexec.trans (congrArg Host.Outcome.next (hreturn.trans hfilled.advance)), ?_, ?_, ?_, ?_, ?_, fun j hj => ?_⟩
    · exact (congrArg Line.st SMap.get_put_self).trans hst
    · exact (congrArg Line.filling SMap.get_put_self).trans hfilling
    · exact (congrArg Line.addr SMap.get_put_self).trans hladdr
    · exact (congrArg Line.data SMap.get_put_self).trans hdata
    · exact List.find?_eq_none.mpr fun x hx => by simpa using (List.mem_filter.mp hx).2
    · exact SMap.get_put_ne hj

end Sys2Proof.Machine
end
